-- ==== Sys2Proof/Word.lean ====
section
/-! DEFINITION. The words of the machine, and the sparse maps that hold memories and large register files. -/

namespace Sys2Proof

/-- One byte of memory (R6). -/
abbrev Byte := BitVec 8

/-- A 64-bit word: S and A registers, special registers, management registers. -/
abbrev Word := BitVec 64

/-- A 32-bit word: a slot word, an element of a tile, a descriptor word. -/
abbrev Word32 := BitVec 32

/-- A vector register: 1 KiB, byte i in bits [8i+7:8i] (R175). -/
abbrev VReg := BitVec 8192

/-- A predicate register: one bit per byte of a vector register (R176). -/
abbrev PReg := BitVec 1024

/-- A physical address (R203). -/
abbrev PAddr := BitVec 52

/-- A sparse map: pairs of a key and a value. In canonical form its keys rise strictly and no value is the map's
default, so that equal maps are equal lists. -/
abbrev Sparse (β : Type) := List (Nat × β)

end Sys2Proof
end

