-- ==== Sys2Proof/Syntax.lean ====
section
/-! DEFINITION. The instructions and steps of the device: one constructor of `Instr` for every row of
spec/opcode_table.json. The first 190 are slot words (R72-R95); the other 62 are steps of the device's own agents,
with the parameters that say which unit makes the step (95_what_each_step_holds). -/

namespace Sys2Proof

/-- A core of the package: its die and its number in the die, 0-143 a main core, 144-155 the companion core of a
cluster (R118, R322). -/
structure CoreRef where
  die : BitVec 2
  idx : BitVec 8
  deriving DecidableEq, Repr

/-- The five opcode maps of a bundle's words: V0 and V1 share one, C0 and C1 share one (R67, R83, R91). -/
inductive SlotKind where
  | S | A | V | M | C | X
  deriving DecidableEq, Repr

/-- The eight words of a bundle, in word order (R67). -/
inductive Slot where
  | s | a | v0 | v1 | m | c0 | c1 | x
  deriving DecidableEq, Repr

/-- The engines of a core (R227). -/
inductive Eng where
  | c0 | c1 | m
  deriving DecidableEq, Repr

/-- Conditions of SCMP and SCMPI (R77, R142). -/
inductive SCond where
  | eq | ne | lt | ge | ltu | geu
  deriving DecidableEq, Repr

/-- Operations of PLOG (R77, R143). -/
inductive PLogOp where
  | and | or | xor | andn | orn
  deriving DecidableEq, Repr

/-- Conditions of FCMP (R77, R148). -/
inductive FCond where
  | eq | lt | le | un | ne
  deriving DecidableEq, Repr

/-- Conditions of VCMP (R86, R186). -/
inductive VCond where
  | eq | ne | lt | le
  deriving DecidableEq, Repr

/-- Conversions of FCVT, source then target (R78). -/
inductive FConv where
  | fp32Fp64 | fp64Fp32 | i64Fp32 | i64Fp64 | fp32I64 | fp64I64 | u64Fp32 | u64Fp64 | fp32U64 | fp64U64
  | fp32Bf16 | bf16Fp32 | fp32Fp16 | fp16Fp32
  deriving DecidableEq, Repr

/-- Rounding modes (R88, R167); `sr` only in VCVT (R78). -/
inductive Rnd where
  | rne | rtz | rdn | rup | rna | sr
  deriving DecidableEq, Repr

/-- Format codes (R165). Code 15 is `page` in a descriptor and untyped in a page entry. -/
inductive Fmt where
  | int8 | uint8 | int16 | int32 | e4m3 | e5m2 | fp16 | bf16 | fp32 | fp64 | cf32 | cf64 | vcb2 | int4 | int64 | page
  deriving DecidableEq, Repr

/-- Type table F (R85). -/
inductive TyF where
  | i8 | i16 | i32 | i64 | fp16 | bf16 | fp32 | fp64
  deriving DecidableEq, Repr

/-- Type table N (R85). -/
inductive TyN where
  | ui8 | ui16 | ui32 | fp16 | bf16 | fp32 | fp64
  deriving DecidableEq, Repr

/-- Type table Q (R85). -/
inductive TyQ where
  | i8 | i16 | i32 | i64 | ui8 | ui16 | ui32
  deriving DecidableEq, Repr

/-- Type table L (R85). -/
inductive TyL where
  | fp16 | bf16 | fp32 | fp64
  deriving DecidableEq, Repr

/-- Type table T (R85). -/
inductive TyT where
  | fp16 | bf16 | fp32
  deriving DecidableEq, Repr

/-- Type table I, the element widths (R85). -/
inductive TyI where
  | w8 | w16 | w32 | w64
  deriving DecidableEq, Repr

/-- Conversions of MHAND (R90, R268). -/
inductive HConv where
  | raw | bf16 | fp16 | i16 | e4m3 | e5m2 | i8
  deriving DecidableEq, Repr

/-- Retire actions of engine commands (R228). -/
inductive RetAct where
  | none | sem | rsem | tdec
  deriving DecidableEq, Repr

/-- Memory scopes (R14, R303). -/
inductive Scope where
  | core | cluster | die | package | fabric | system
  deriving DecidableEq, Repr

/-- The instructions: one constructor per row of the opcode table, in its order but for those
without an operand, which stand last. Register fields keep their widths;
`ta`, `tb` and `t` are the trap-if-empty bits (R72), `m` is a vector mask (R83), `ck` the checkpoint bit (R94). -/
inductive Instr where
  /-- `ADD Sd, Sa, Sb` (R74, R134). -/
  | add (d a b : BitVec 5) (ta tb : Bool)
  /-- `SUB Sd, Sa, Sb` (R74, R134). -/
  | sub (d a b : BitVec 5) (ta tb : Bool)
  /-- `AND Sd, Sa, Sb` (R74, R134). -/
  | and (d a b : BitVec 5) (ta tb : Bool)
  /-- `OR Sd, Sa, Sb` (R74, R134). -/
  | or (d a b : BitVec 5) (ta tb : Bool)
  /-- `XOR Sd, Sa, Sb` (R74, R134). -/
  | xor (d a b : BitVec 5) (ta tb : Bool)
  /-- `ANDN Sd, Sa, Sb` (R74, R134). -/
  | andn (d a b : BitVec 5) (ta tb : Bool)
  /-- `SHL Sd, Sa, Sb` (R74, R134). -/
  | shl (d a b : BitVec 5) (ta tb : Bool)
  /-- `SHR Sd, Sa, Sb` (R74, R134). -/
  | shr (d a b : BitVec 5) (ta tb : Bool)
  /-- `SRA Sd, Sa, Sb` (R74, R134). -/
  | sra (d a b : BitVec 5) (ta tb : Bool)
  /-- `ROL Sd, Sa, Sb` (R74, R134). -/
  | rol (d a b : BitVec 5) (ta tb : Bool)
  /-- `MIN Sd, Sa, Sb` (R74, R134). -/
  | min (d a b : BitVec 5) (ta tb : Bool)
  /-- `MAX Sd, Sa, Sb` (R74, R134). -/
  | max (d a b : BitVec 5) (ta tb : Bool)
  /-- `MINU Sd, Sa, Sb` (R74, R134). -/
  | minu (d a b : BitVec 5) (ta tb : Bool)
  /-- `MAXU Sd, Sa, Sb` (R74, R134). -/
  | maxu (d a b : BitVec 5) (ta tb : Bool)
  /-- `MUL Sd, Sa, Sb` (R74, R134). -/
  | mul (d a b : BitVec 5) (ta tb : Bool)
  /-- `MULH Sd, Sa, Sb` (R74, R134). -/
  | mulh (d a b : BitVec 5) (ta tb : Bool)
  /-- `MULHU Sd, Sa, Sb` (R74, R134). -/
  | mulhu (d a b : BitVec 5) (ta tb : Bool)
  /-- `DIV Sd, Sa, Sb` (R74, R134). -/
  | div (d a b : BitVec 5) (ta tb : Bool)
  /-- `DIVU Sd, Sa, Sb` (R74, R134). -/
  | divu (d a b : BitVec 5) (ta tb : Bool)
  /-- `REM Sd, Sa, Sb` (R74, R134). -/
  | rem (d a b : BitVec 5) (ta tb : Bool)
  /-- `REMU Sd, Sa, Sb` (R74, R134). -/
  | remu (d a b : BitVec 5) (ta tb : Bool)
  /-- `CLZ Sd, Sa` (R75, R136). -/
  | clz (d a : BitVec 5) (ta : Bool)
  /-- `CTZ Sd, Sa` (R75, R136). -/
  | ctz (d a : BitVec 5) (ta : Bool)
  /-- `POPC Sd, Sa` (R75, R136). -/
  | popc (d a : BitVec 5) (ta : Bool)
  /-- `BREV Sd, Sa` (R75, R136). -/
  | brev (d a : BitVec 5) (ta : Bool)
  /-- `SEXTB Sd, Sa` (R75, R136). -/
  | sextb (d a : BitVec 5) (ta : Bool)
  /-- `SEXTH Sd, Sa` (R75, R136). -/
  | sexth (d a : BitVec 5) (ta : Bool)
  /-- `SEXTW Sd, Sa` (R75, R136). -/
  | sextw (d a : BitVec 5) (ta : Bool)
  /-- `ZEXTB Sd, Sa` (R75, R136). -/
  | zextb (d a : BitVec 5) (ta : Bool)
  /-- `ZEXTH Sd, Sa` (R75, R136). -/
  | zexth (d a : BitVec 5) (ta : Bool)
  /-- `ZEXTW Sd, Sa` (R75, R136). -/
  | zextw (d a : BitVec 5) (ta : Bool)
  /-- `MOV Sd, Sa` (R75, R136). -/
  | mov (d a : BitVec 5) (ta : Bool)
  /-- `ADDI Sd, Sa, imm14` (R76, R137). -/
  | addi (d a : BitVec 5) (ta : Bool) (imm : BitVec 14)
  /-- `ANDI Sd, Sa, imm14` (R76, R137). -/
  | andi (d a : BitVec 5) (ta : Bool) (imm : BitVec 14)
  /-- `ORI Sd, Sa, imm14` (R76, R137). -/
  | ori (d a : BitVec 5) (ta : Bool) (imm : BitVec 14)
  /-- `XORI Sd, Sa, imm14` (R76, R137). -/
  | xori (d a : BitVec 5) (ta : Bool) (imm : BitVec 14)
  /-- `SHLI Sd, Sa, n` (R76, R137). -/
  | shli (d a : BitVec 5) (ta : Bool) (sh : BitVec 6)
  /-- `SHRI Sd, Sa, n` (R76, R137). -/
  | shri (d a : BitVec 5) (ta : Bool) (sh : BitVec 6)
  /-- `SRAI Sd, Sa, n` (R76, R137). -/
  | srai (d a : BitVec 5) (ta : Bool) (sh : BitVec 6)
  /-- `LI Sd, imm20` (R76, R138). -/
  | li (d : BitVec 5) (imm : BitVec 20)
  /-- `LIU Sd, imm20` (R76, R138). -/
  | liu (d : BitVec 5) (imm : BitVec 20)
  /-- `BFX Sd, Sa, p, w`, the width minus 1 in wm1 (R76, R139). -/
  | bfx (d a : BitVec 5) (ta : Bool) (p wm1 : BitVec 6)
  /-- `BFI Sd, Sa, p, w`, the width minus 1 in wm1 (R76, R139). -/
  | bfi (d a : BitVec 5) (ta : Bool) (p wm1 : BitVec 6)
  /-- `FSH Sd, Sa, Sb, Sc` (R76, R140). -/
  | fsh (d a b : BitVec 5) (ta tb : Bool) (c : BitVec 5)
  /-- `FSHI Sd, Sa, Sb, n` (R76, R140). -/
  | fshi (d a b : BitVec 5) (ta tb : Bool) (n : BitVec 6)
  /-- `SCMP.cc Pd, Sa, Sb` (R77, R142). -/
  | scmp (p : BitVec 4) (a b : BitVec 5) (ta tb : Bool) (cc : SCond)
  /-- `SCMPI.cc Pd, Sa, imm` (R77, R142). -/
  | scmpi (p : BitVec 4) (a : BitVec 5) (ta : Bool) (cc : SCond) (imm : BitVec 11)
  /-- `PLOG.op Pd, Pa, Pb` (R77, R143). -/
  | plog (p pa pb : BitVec 4) (f : PLogOp)
  /-- `SEL Sd, Sa, Sb, Pk` (R77, R144). -/
  | sel (d a b : BitVec 5) (ta tb : Bool) (p : BitVec 4)
  /-- `LD{.type}{.acN} Sd, mem` (R72, R79, R150). -/
  | ld (d a : BitVec 5) (pm : Bool) (ac sz : BitVec 2) (sx : Bool) (off : BitVec 9)
  /-- `ST{.type}{.acN} Sd, mem`, d the data (R72, R79, R150). -/
  | st (d a : BitVec 5) (pm : Bool) (ac sz : BitVec 2) (off : BitVec 9)
  /-- `LDV Sd, [Aa], Nk` (R79, R295). -/
  | ldv (d a : BitVec 5) (ta : Bool) (k : BitVec 3)
  /-- `VALID Sd, mask` (R79, R296). -/
  | valid (d : BitVec 5) (mask : BitVec 8)
  /-- `VALST Sd, [Aa], Sb, mask` (R79, R297). -/
  | valst (d a b : BitVec 5) (ta tb : Bool) (mask : BitVec 8)
  /-- `CASV Sd, [Aa], Sb, Nk` (R79, R298). -/
  | casv (d a b : BitVec 5) (ta tb : Bool) (k : BitVec 3)
  /-- `CLRV mask` (R79, R299). -/
  | clrv (mask : BitVec 8)
  /-- `BR label, Pk` (R80, R101). -/
  | br (p : BitVec 4) (neg : Bool) (disp : BitVec 20)
  /-- `CALL label, Pk` (R80, R101). -/
  | call (p : BitVec 4) (neg : Bool) (disp : BitVec 20)
  /-- `LEXIT label, Pk` (R80, R101). -/
  | lexit (p : BitVec 4) (neg : Bool) (disp : BitVec 20)
  /-- `JR Sa` (R80, R102). -/
  | jr (a : BitVec 5) (ta : Bool)
  /-- `JALR Sd, Sa` (R80, R102). -/
  | jalr (d a : BitVec 5) (ta : Bool)
  /-- `LOOP{.rot} Sn, label` (R80, R105). -/
  | loop (rot : Bool) (len : BitVec 10) (t : Bool) (n : BitVec 5)
  /-- `LOOPI{.rot} n, label` (R80, R105). -/
  | loopi (rot : Bool) (len : BitVec 10) (n : BitVec 12)
  /-- `LOOPQ{.rot} label` (R80, R105, R106). -/
  | loopq (rot : Bool) (len : BitVec 10)
  /-- `SETVRB n` (R80, R113). -/
  | setvrb (n : BitVec 5)
  /-- `SETPRB n` (R80, R113). -/
  | setprb (n : BitVec 3)
  /-- `MFSR Sd, NAME` (R80, R154). -/
  | mfsr (d : BitVec 5) (n : BitVec 12)
  /-- `MTSR NAME, Sa` (R80, R154). -/
  | mtsr (a : BitVec 5) (ta : Bool) (n : BitVec 12)
  /-- `TRAP code` (R80, R155). -/
  | trap (code : BitVec 20)
  /-- `SYS code` (R80, R155). -/
  | sys (code : BitVec 20)
  /-- `FADD.fp32` or, with dbl, `FADD.fp64` (R78, R146). -/
  | fadd (d a b : BitVec 5) (ta tb dbl : Bool)
  /-- `FSUB.fp32` or, with dbl, `FSUB.fp64` (R78, R146). -/
  | fsub (d a b : BitVec 5) (ta tb dbl : Bool)
  /-- `FMUL.fp32` or, with dbl, `FMUL.fp64` (R78, R146). -/
  | fmul (d a b : BitVec 5) (ta tb dbl : Bool)
  /-- `FDIV.fp32` or, with dbl, `FDIV.fp64` (R78, R146). -/
  | fdiv (d a b : BitVec 5) (ta tb dbl : Bool)
  /-- `FMIN.fp32` or, with dbl, `FMIN.fp64` (R78, R146). -/
  | fmin (d a b : BitVec 5) (ta tb dbl : Bool)
  /-- `FMAX.fp32` or, with dbl, `FMAX.fp64` (R78, R146). -/
  | fmax (d a b : BitVec 5) (ta tb dbl : Bool)
  /-- `FMINN.fp32` or, with dbl, `FMINN.fp64` (R78, R146). -/
  | fminn (d a b : BitVec 5) (ta tb dbl : Bool)
  /-- `FMAXN.fp32` or, with dbl, `FMAXN.fp64` (R78, R146). -/
  | fmaxn (d a b : BitVec 5) (ta tb dbl : Bool)
  /-- `FSQRT.fp32` or, with dbl, `FSQRT.fp64` (R78, R146). -/
  | fsqrt (d a : BitVec 5) (ta dbl : Bool)
  /-- `FCMP.cc` to a predicate or, with toS, to an S register (R77, R148). -/
  | fcmp (toS : Bool) (d : BitVec 4) (a b : BitVec 5) (ta tb dbl : Bool) (cc : FCond)
  /-- `FCVT.dst.src{.rnd} Sd, Sa` (R78, R149). -/
  | fcvt (d a : BitVec 5) (ta : Bool) (cv : FConv) (rnd : Rnd)
  /-- `AMOV Ad, Sa` (R81, R156). -/
  | amov (d a : BitVec 5) (ta : Bool)
  /-- `AADD Ad, Aa, Sb` (R81, R156). -/
  | aadd (d a b : BitVec 5) (ta tb : Bool)
  /-- `AADDI Ad, Aa, imm14` (R81, R156). -/
  | aaddi (d a : BitVec 5) (ta : Bool) (imm : BitVec 14)
  /-- `ALI Ad, imm20` (R81, R156). -/
  | ali (d : BitVec 5) (imm : BitVec 20)
  /-- `ALIU Ad, imm20` (R81, R156). -/
  | aliu (d : BitVec 5) (imm : BitVec 20)
  /-- `ASTEP Ad` (R81, R156). -/
  | astep (d : BitVec 5)
  /-- `AMODE Ad, mode, Dk, param` (R81, R82, R159). -/
  | amode (a : BitVec 5) (mode : BitVec 2) (dk : BitVec 4) (param : BitVec 6)
  /-- `DSET Dk, imm20` (R81, R156). -/
  | dset (dk : BitVec 4) (imm : BitVec 20)
  /-- `DMOV Dk, Sa` (R81, R156). -/
  | dmov (dk : BitVec 4) (a : BitVec 5) (ta : Bool)
  /-- `WSETB Wk, Sa` (R81, R156). -/
  | wsetb (wk : BitVec 3) (a : BitVec 5) (ta : Bool)
  /-- `WSETL Wk, Sa` (R81, R156). -/
  | wsetl (wk : BitVec 3) (a : BitVec 5) (ta : Bool)
  /-- `ARD Sd, Aa` (R81, R156). -/
  | ard (d a : BitVec 5) (ta : Bool)
  /-- `VADD.type Vd, Va, Vb, Pk`, table F (R86, R180). -/
  | vadd (d a b : BitVec 6) (ty : TyF) (m : BitVec 4)
  /-- `VSUB.type Vd, Va, Vb, Pk`, table F (R86, R180). -/
  | vsub (d a b : BitVec 6) (ty : TyF) (m : BitVec 4)
  /-- `VMUL.type Vd, Va, Vb, Pk`, table F (R86, R180). -/
  | vmul (d a b : BitVec 6) (ty : TyF) (m : BitVec 4)
  /-- `VFMA.type Vd, Va, Vb, Pk`, table L (R86, R180). -/
  | vfma (d a b : BitVec 6) (ty : TyL) (m : BitVec 4)
  /-- `VFMS.type Vd, Va, Vb, Pk`, table L (R86, R180). -/
  | vfms (d a b : BitVec 6) (ty : TyL) (m : BitVec 4)
  /-- `VMIN.type Vd, Va, Vb, Pk`, table F (R86, R182). -/
  | vmin (d a b : BitVec 6) (ty : TyF) (m : BitVec 4)
  /-- `VMAX.type Vd, Va, Vb, Pk`, table F (R86, R182). -/
  | vmax (d a b : BitVec 6) (ty : TyF) (m : BitVec 4)
  /-- `VMINN.type Vd, Va, Vb, Pk`, table N (R86, R182). -/
  | vminn (d a b : BitVec 6) (ty : TyN) (m : BitVec 4)
  /-- `VMAXN.type Vd, Va, Vb, Pk`, table N (R86, R182). -/
  | vmaxn (d a b : BitVec 6) (ty : TyN) (m : BitVec 4)
  /-- `VABS.type Vd, Va, Pk`, table F (R86, R180). -/
  | vabs (d a : BitVec 6) (ty : TyF) (m : BitVec 4)
  /-- `VNEG.type Vd, Va, Pk`, table F (R86, R180). -/
  | vneg (d a : BitVec 6) (ty : TyF) (m : BitVec 4)
  /-- `VAND.type Vd, Va, Vb, Pk`, table I (R86, R183). -/
  | vand (d a b : BitVec 6) (ty : TyI) (m : BitVec 4)
  /-- `VOR.type Vd, Va, Vb, Pk`, table I (R86, R183). -/
  | vor (d a b : BitVec 6) (ty : TyI) (m : BitVec 4)
  /-- `VXOR.type Vd, Va, Vb, Pk`, table I (R86, R183). -/
  | vxor (d a b : BitVec 6) (ty : TyI) (m : BitVec 4)
  /-- `VANDN.type Vd, Va, Vb, Pk`, table I (R86, R183). -/
  | vandn (d a b : BitVec 6) (ty : TyI) (m : BitVec 4)
  /-- `VSHL.type Vd, Va, Vb, Pk`, table I (R86, R183). -/
  | vshl (d a b : BitVec 6) (ty : TyI) (m : BitVec 4)
  /-- `VSHR.type Vd, Va, Vb, Pk`, table I (R86, R183). -/
  | vshr (d a b : BitVec 6) (ty : TyI) (m : BitVec 4)
  /-- `VSRA.type Vd, Va, Vb, Pk`, table I (R86, R183). -/
  | vsra (d a b : BitVec 6) (ty : TyI) (m : BitVec 4)
  /-- `VFSH.type Vd, Va, Vb, Pk`, table I (R86, R184). -/
  | vfsh (d a b : BitVec 6) (ty : TyI) (m : BitVec 4)
  /-- `VBFX.type Vd, Va, Vb, Pk`, table I (R86, R185). -/
  | vbfx (d a b : BitVec 6) (ty : TyI) (m : BitVec 4)
  /-- `VCMP.cc.type Pd, Va, Vb, Pk`, table F (R86, R186). -/
  | vcmp (cc : VCond) (p : BitVec 4) (a b : BitVec 6) (ty : TyF) (m : BitVec 4)
  /-- `VSEL.type Vd, Va, Vb, Pk`, table I (R86, R188). -/
  | vsel (d a b : BitVec 6) (ty : TyI) (m : BitVec 4)
  /-- `VCVT.dst.src{.rnd}{.sat} Vd, Va` (R83, R88, R192). -/
  | vcvt (d a : BitVec 6) (dst src : Fmt) (sat : Bool) (rnd : Rnd)
  /-- `VMOV.type Vd, Va, Pk` (R86, R189). -/
  | vmov (d a : BitVec 6) (ty : TyI) (m : BitVec 4)
  /-- `VSPL.type Vd, Sa, Pk` (R86, R189). -/
  | vspl (d : BitVec 6) (t : Bool) (s : BitVec 5) (ty : TyI) (m : BitVec 4)
  /-- `VIDX.type Vd, Pk` (R86, R189). -/
  | vidx (d : BitVec 6) (ty : TyI) (m : BitVec 4)
  /-- `VCLS.type Vd, Va, Pk` (R86, R191). -/
  | vcls (d a : BitVec 6) (ty : TyL) (m : BitVec 4)
  /-- `VRND.type Vd, Pk` (R86, R196). -/
  | vrnd (d : BitVec 6) (ty : TyI) (m : BitVec 4)
  /-- `VSCALE.type Vd, Va, Vb, Pk`, table L (R86, R197). -/
  | vscale (d a b : BitVec 6) (ty : TyL) (m : BitVec 4)
  /-- `VADD.SAT.type Vd, Va, Vb, Pk`, table Q (R86, R181). -/
  | vaddSat (d a b : BitVec 6) (ty : TyQ) (m : BitVec 4)
  /-- `VSUB.SAT.type Vd, Va, Vb, Pk`, table Q (R86, R181). -/
  | vsubSat (d a b : BitVec 6) (ty : TyQ) (m : BitVec 4)
  /-- `VLN.type Vd, Va, Pk`, table T (R86, R198). -/
  | vln (d a : BitVec 6) (ty : TyT) (m : BitVec 4)
  /-- `VEXP.type Vd, Va, Pk`, table T (R86, R198). -/
  | vexp (d a : BitVec 6) (ty : TyT) (m : BitVec 4)
  /-- `VLOG2.type Vd, Va, Pk`, table T (R86, R198). -/
  | vlog2 (d a : BitVec 6) (ty : TyT) (m : BitVec 4)
  /-- `VEXP2.type Vd, Va, Pk`, table T (R86, R198). -/
  | vexp2 (d a : BitVec 6) (ty : TyT) (m : BitVec 4)
  /-- `VRCP.type Vd, Va, Pk`, table T (R86, R198). -/
  | vrcp (d a : BitVec 6) (ty : TyT) (m : BitVec 4)
  /-- `VRSQ.type Vd, Va, Pk`, table T (R86, R198). -/
  | vrsq (d a : BitVec 6) (ty : TyT) (m : BitVec 4)
  /-- `VSQRT.type Vd, Va, Pk`, table T (R86, R198). -/
  | vsqrt (d a : BitVec 6) (ty : TyT) (m : BitVec 4)
  /-- `VTANH.type Vd, Va, Pk`, table T (R86, R198). -/
  | vtanh (d a : BitVec 6) (ty : TyT) (m : BitVec 4)
  /-- `VSIGM.type Vd, Va, Pk`, table T (R86, R198). -/
  | vsigm (d a : BitVec 6) (ty : TyT) (m : BitVec 4)
  /-- `VLD{.acN} Vd, mem, Pk` (R83, R200). -/
  | vld (d : BitVec 6) (a : BitVec 5) (pm : Bool) (ac : BitVec 2) (off : BitVec 7) (m : BitVec 4)
  /-- `VST{.acN} Vs, mem, Pk`, d the register stored (R83, R200). -/
  | vst (d : BitVec 6) (a : BitVec 5) (pm : Bool) (ac : BitVec 2) (off : BitVec 7) (m : BitVec 4)
  /-- `VLDRB Vd, RBn, Pk` (R86, R202). -/
  | vldrb (d : BitVec 6) (e m : BitVec 4)
  /-- `VGET.type Sd, Va, Sb` (R86, R190). -/
  | vget (s : BitVec 5) (a : BitVec 6) (t : Bool) (i : BitVec 5) (ty : TyI)
  /-- `MLDW{.ret} Yn, cid, pa, pb` (R89, R250). -/
  | mldw (cid pa pb : BitVec 6) (y : BitVec 4) (ret : RetAct)
  /-- `MMA{.ret} Yn, cid, pa, pb` (R89, R250). -/
  | mma (cid pa pb : BitVec 6) (y : BitVec 4) (ret : RetAct)
  /-- `MMAG{.ret} Yn, cid, pa, pb` (R89, R250). -/
  | mmag (cid pa pb : BitVec 6) (y : BitVec 4) (ret : RetAct)
  /-- `MMAH{.ret} Yn, cid, pa, pb` (R89, R250). -/
  | mmah (cid pa pb : BitVec 6) (y : BitVec 4) (ret : RetAct)
  /-- `MZERO{.ret} Yn, cid, pa, pb` (R89, R250). -/
  | mzero (cid pa pb : BitVec 6) (y : BitVec 4) (ret : RetAct)
  /-- `MHAND.cv RBn, Tm, row0` (R90, R268). -/
  | mhand (e : BitVec 4) (tile : BitVec 3) (row0 : BitVec 7) (conv : HConv)
  /-- `CPY{.ret} Yn, cid, pa, pb` (R89, R229). -/
  | cpy (cid pa pb : BitVec 6) (y : BitVec 4) (ret : RetAct)
  /-- `CSEL{.ret} Yn, cid, pa, pb` (R89, R229). -/
  | csel (cid pa pb : BitVec 6) (y : BitVec 4) (ret : RetAct)
  /-- `CGTH{.ret} Yn, cid, pa, pb` (R89, R229). -/
  | cgth (cid pa pb : BitVec 6) (y : BitVec 4) (ret : RetAct)
  /-- `CSCT{.ret} Yn, cid, pa, pb` (R89, R229). -/
  | csct (cid pa pb : BitVec 6) (y : BitVec 4) (ret : RetAct)
  /-- `CQF{.ret} Yn, cid, pa, pb` (R89, R229). -/
  | cqf (cid pa pb : BitVec 6) (y : BitVec 4) (ret : RetAct)
  /-- `CCOL{.ret} Yn, cid, pa, pb` (R89, R229). -/
  | ccol (cid pa pb : BitVec 6) (y : BitVec 4) (ret : RetAct)
  /-- `WAIT Sd` (R93, R278). -/
  | wait (d : BitVec 5)
  /-- `WATCH.on n, Sa, Sb` or `WATCH.off n` (R93, R276). -/
  | watch (a b : BitVec 5) (ta tb on : Bool) (n : BitVec 3)
  /-- `SEMADD n, Sa` (R93, R279). -/
  | semadd (a : BitVec 5) (ta ck : Bool) (n : BitVec 6)
  /-- `SEMADD.r n, Sa, Sb` (R93, R279). -/
  | semaddRemote (a b : BitVec 5) (ta tb ck : Bool) (n : BitVec 6)
  /-- `SEMWT n, Sa` (R93, R279). -/
  | semwt (a : BitVec 5) (ta : Bool) (n : BitVec 6)
  /-- `SEMTST Sd, n, Sa` (R93, R279). -/
  | semtst (d a : BitVec 5) (ta : Bool) (n : BitVec 6)
  /-- `SEMSET n, Sa` (R93, R279). -/
  | semset (a : BitVec 5) (ta : Bool) (n : BitVec 6)
  /-- `SEMRD Sd, n` (R93, R279). -/
  | semrd (d : BitVec 5) (n : BitVec 6)
  /-- `BAR n` (R93, R282). -/
  | bar (l : BitVec 3)
  /-- `FENCE src, dst, scope` (R92, R283). -/
  | fence (src dst : BitVec 8) (sc : Scope)
  /-- `DRAIN scope` (R92, R284). -/
  | drain (sc : Scope)
  /-- `CWAIT n`, 0 for all (R93, R285). -/
  | cwait (n : BitVec 6)
  /-- `GSET Gn, Sa` (R93, R256). -/
  | gset (a : BitVec 5) (ta : Bool) (g : BitVec 4)
  /-- `KLD [Aa]` (R93, R287). -/
  | kld (a : BitVec 5) (ta : Bool)
  /-- `CBKLD [Aa]` (R93, R287). -/
  | cbkld (a : BitVec 5) (ta : Bool)
  /-- `YLD Yn, [Aa]` (R93, R286). -/
  | yld (a : BitVec 5) (ta : Bool) (y : BitVec 4)
  /-- `YSET Yn, w, Sa` (R93, R286). -/
  | yset (a : BitVec 5) (ta : Bool) (w : BitVec 3) (y : BitVec 4)
  /-- `CBSET CBn, [Aa]` (R93, R288). -/
  | cbset (a : BitVec 5) (ta : Bool) (n : BitVec 3)
  /-- `CBWAIT Sd, CBn` (R93, R289). -/
  | cbwait (d : BitVec 5) (n : BitVec 3)
  /-- `CBREL CBn` (R93, R289). -/
  | cbrel (n : BitVec 3)
  /-- `CQPUSH Sa` (R93, R290). -/
  | cqpush (a : BitVec 5) (ta ck : Bool)
  /-- `TDEC Sa` (R93, R291). -/
  | tdec (a : BitVec 5) (ta ck : Bool)
  /-- `YIELD Yn` (R93, R369). -/
  | yield (y : BitVec 4)
  /-- `SQPUSH Sa, Sb` (R93, R327). -/
  | sqpush (a b : BitVec 5) (ta tb ck : Bool)
  /-- `TKTST Pk` (R93, R330). -/
  | tktst (p : BitVec 4)
  /-- `TKGET Sd` (R93, R331). -/
  | tkget (d : BitVec 5)
  /-- `SXAPP Sa, [Ab], count` (R93, R347). -/
  | sxapp (a b : BitVec 5) (ta tb ck : Bool) (cnt : BitVec 5)
  /-- `SXQRY Sd, Sa, [Ab], n` (R93, R348). -/
  | sxqry (d a b : BitVec 5) (ta tb : Bool) (n : BitVec 5)
  /-- `SXCFG Sa, [Ab]` (R93, R346). -/
  | sxcfg (a b : BitVec 5) (ta tb : Bool)
  /-- `SXSAVE Sa, Sb` (R93, R350). -/
  | sxsave (a b : BitVec 5) (ta tb : Bool)
  /-- `SXLOAD Sa, Sb` (R93, R351). -/
  | sxload (a b : BitVec 5) (ta tb : Bool)
  /-- `SXSTAT Sd, Sa` (R93, R349). -/
  | sxstat (d a : BitVec 5) (ta : Bool)
  /-- `EVSEL n, Sa` (R93, R293). -/
  | evsel (a : BitVec 5) (ta : Bool) (n : BitVec 3)
  /-- `SQPOP Sd` on a companion core (R93, R328). -/
  | sqpop (d : BitVec 5)
  /-- `TKPUT Sa, Sb` on a companion core (R93, R329). -/
  | tkput (a b : BitVec 5) (ta tb : Bool)
  /-- Every fixed-latency result of core c whose last bundle has issued lands (R123). -/
  | fixedLatencyLanding (c : CoreRef)
  /-- The value of core c's k-th outstanding variable-latency result arrives (R124). -/
  | variableLatencyLanding (c : CoreRef) (k : Nat)
  /-- Every local store of core c that is due performs (R126). -/
  | scratchpadStorePerform (c : CoreRef)
  /-- The k-th outstanding memory operation of core c performs at its home (R221). -/
  | writePerformAtHome (c : CoreRef) (k : Nat)
  /-- The k-th remote add that core c has sent arrives at its target (R281). -/
  | remoteSemaddArrival (c : CoreRef) (k : Nat)
  /-- The oldest token of core c's mailbox fills the oldest pending claim (R331). -/
  | tokenLanding (c : CoreRef)
  /-- The die's suffix unit performs its k-th waiting operation whole (R353). -/
  | suffixOpPerform (die : BitVec 2) (k : Nat)
  /-- The die gives a walk slot to the next waiting core and the walk is made (R216). -/
  | pageWalk (die : BitVec 2)
  /-- An uncorrectable fetch error of core c reloads 4 KiB of its text (R65). -/
  | imemReload (c : CoreRef)
  /-- The head of engine e of core c dispatches (R226). -/
  | engineDispatch (c : CoreRef) (e : Eng)
  /-- The k-th outstanding command of core c completes its accesses and retires (R227). -/
  | engineRetire (c : CoreRef) (k : Nat)
  /-- The part owned by die `owner` of the k-th outstanding gather or scatter of core c returns (R244). -/
  | gatherPartReply (c : CoreRef) (k : Nat) (owner : BitVec 2)
  /-- The Fuller of the die receives a chunk of a group's episode from member src and checks its CRC; data is what a member on another device sent (R394). -/
  | chunkReceive (die : BitVec 2) (group : BitVec 6) (stage : Bool) (src : BitVec 8) (chunk : Nat) (good : Bool) (data : List (BitVec 32))
  /-- The k-th decrement on its way performs at its record's home (R41). -/
  | taskDecrement (k : Nat)
  /-- The die's scheduler selects a record for a free core (R51). -/
  | schedulerPlace (die : BitVec 2) (core : BitVec 8)
  /-- An idle core's die asks the other dies for a die-free record (R53). -/
  | dieFreeRequest (die : BitVec 2) (core : BitVec 8)
  /-- The die's slice counter reaches zero (R50). -/
  | phaseSliceExpiry (die : BitVec 2)
  /-- The quantum counter of core c reaches zero (R54). -/
  | quantumExpiry (c : CoreRef)
  /-- The ended task of core c retires by its next step (R397). -/
  | taskRetire (c : CoreRef)
  /-- Core c takes a trap at its next boundary (R358). -/
  | trapEntry (c : CoreRef) (cause : BitVec 8) (val : BitVec 64)
  /-- Firmware kills the task of core c with its trap registers (R362). -/
  | taskKill (c : CoreRef)
  /-- Firmware suspends and posts the task of core c (R364, R365). -/
  | taskSuspend (c : CoreRef)
  /-- A requeuing YIELD of core c saves its task and requeues its record (R371). -/
  | yieldRequeue (c : CoreRef)
  /-- Core c takes the snapshot of its checkpoint bundle (R372). -/
  | checkpointSnapshot (c : CoreRef)
  /-- A detected datapath error rolls core c back (R374). -/
  | datapathError (c : CoreRef)
  /-- Firmware migrates the page that holds va to a new frame (R380). -/
  | pageMigration (va : BitVec 48) (frame : BitVec 36)
  /-- A fabric link of the die goes down (R39). -/
  | linkDown (die : BitVec 2) (link : Bool)
  /-- A function's bit of HIF_READY_d rises (R39). -/
  | functionReady (die : BitVec 2) (bit : BitVec 5)
  /-- The device moves an island's operating point to stay within its limits (R405). -/
  | powerLimitChange (die : BitVec 2) (isl : BitVec 5) (cur : BitVec 2)
  /-- A host CXL.mem write of data at device physical address pa (R30). -/
  | hostMemWrite (pa : BitVec 52) (data : List Byte)
  /-- A host CXL.mem read of len bytes at pa (R312). -/
  | hostMemRead (pa : BitVec 52) (len : Nat)
  /-- A host write of v to HIF_ERR (R34). -/
  | hifErrClear (v : Word)
  /-- A host write of v to HIF_FEAT_ACCEPT_i (R37). -/
  | featureAcceptWrite (i : BitVec 2) (v : Word)
  /-- A host write of size bytes to HIF_TDEC (R40). -/
  | hifTdecWrite (size : Nat) (v : Word)
  /-- A host write of v to HIF_PTROOT (R212). -/
  | ptrootWrite (v : Word)
  /-- A host write to HIF_TLBINV that names a page (R215). -/
  | tlbInvalidateVpn (vpn : BitVec 32)
  /-- A host write of v to HIF_L2_SPLIT_d (R209). -/
  | l2SplitWrite (die : BitVec 2) (v : Word)
  /-- The die adopts its requested L2 split (R209). -/
  | l2SplitApply (die : BitVec 2)
  /-- A host write of v to HIF_FABRANK (reg 0) or HIF_FABGRP_(reg-1) (R205). -/
  | fabricRankWrite (reg : BitVec 3) (v : Word)
  /-- A host write to HIF_KEY_CMD with OP 1 (R219). -/
  | keyLoad (slot : BitVec 6)
  /-- A host write to HIF_KEY_CMD with OP 2 (R219). -/
  | keyClear (slot : BitVec 6)
  /-- A host write of v to HIF_COMP_START_n (R326). -/
  | compStart (n : BitVec 6) (v : Word)
  /-- A host write of v to HIF_PCLR (R378). -/
  | poisonClear (v : Word)
  /-- A host write of v to HIF_FGRP_g (R386, R387). -/
  | fgrpWrite (g : BitVec 6) (v : Word)
  /-- A host write of v to HIF_DEVSEL_d_i (R400). -/
  | devselWrite (die : BitVec 2) (i : BitVec 4) (v : Word)
  /-- A host write of v to HIF_CKE_CTL that starts a save (R401). -/
  | ckeSaveStart (v : Word)
  /-- A host write of v to HIF_CKE_CTL that starts a restore (R401). -/
  | ckeRestoreStart (v : Word)
  /-- A host write of v to HIF_ISL_d_i (R404). -/
  | islRequestWrite (die : BitVec 2) (isl : BitVec 5) (v : Word)
  /-- A host write of size bytes to the management register at off (R32). -/
  | hifRegisterWrite (off : BitVec 16) (size : Nat) (v : Word)
  /-- Room appears in the die's fault ring (R365). -/
  | faultRingRoom (die : BitVec 2)
  /-- An access of core c's task is lost on a poisoned acknowledgement path (R379). -/
  | poisonedAcknowledgementPath (c : CoreRef)
  /-- The all-zero word of any slot does nothing (R69). -/
  | nop
  /-- `RET`: transfer to S31 (R80, R102). -/
  | ret
  /-- `CLRRB` (R80, R113). -/
  | clrrb
  /-- `RETT` (R80, R360). -/
  | rett
  /-- `END` (R80, R115). -/
  | endTask
  /-- `CKPT` (R93, R372). -/
  | ckpt
  /-- Writing HIF_CTL.FWLOAD (R33, R35). -/
  | fwload
  /-- Writing HIF_CTL.RESET (R33, R35). -/
  | reset
  /-- Writing HIF_CTL.RUN (R33). -/
  | run
  /-- The head of the HIF_TDEC queue is translated and performed (R40). -/
  | hifTdecQueueHead
  /-- A host write to HIF_TLBINV with ALL set (R215). -/
  | tlbInvalidateAll
  /-- The running invalidation completes (R215). -/
  | tlbInvalidationDone
  /-- The running key command completes (R219). -/
  | keyCommandDone
  /-- The running poison clear completes (R378). -/
  | poisonClearDone
  /-- A host write to HIF_CKE_CTL.ABORT (R401, R402). -/
  | ckeAbort
  /-- The requested checkpoint-engine run begins (R402). -/
  | ckeRunBegin
  /-- The checkpoint-engine run has moved every line (R402). -/
  | ckeRunEnd
  deriving DecidableEq, Repr

end Sys2Proof
end

