-- ==== Sys2Proof/WellFormed.lean ====
section
/-! DEFINITION. Which instructions are legal encodings: the ranges that the field tables of 04_bundles set on their
operands (R69). -/

namespace Sys2Proof

/-- A core reference names a core of the package (R1, R322). -/
def CoreRef.valid (c : CoreRef) : Bool := c.idx.toNat < 156

/-- The special registers that exist (R118). -/
def srAssigned (n : BitVec 12) : Bool :=
  let k := n.toNat
  k ≤ 0x002 || k == 0x008 || k == 0x009 || (0x010 ≤ k && k ≤ 0x017) || (0x020 ≤ k && k ≤ 0x022) ||
    (0x030 ≤ k && k ≤ 0x032) || k == 0x040 || k == 0x041 || k == 0x050 || k == 0x051 || (0x060 ≤ k && k ≤ 0x062) ||
    (0x070 ≤ k && k ≤ 0x077)

/-- The special registers marked RO (R118). -/
def srReadOnly (n : BitVec 12) : Bool :=
  let k := n.toNat
  k ≤ 0x002 || k == 0x008 || k == 0x009 || (0x010 ≤ k && k ≤ 0x017) || k == 0x022 || k == 0x040 || k == 0x041

/-- An engine command does not name itself as a predecessor (R89). -/
def cidLegal (cid pa pb : BitVec 6) : Bool := cid == 0 || (pa != cid && pb != cid)

/-- The formats that VCVT takes: codes 0-9, 13 and 14 (R88). -/
def Fmt.vcvtLegal : Fmt → Bool
  | .cf32 | .cf64 | .vcb2 | .page => false
  | _ => true

/-- The floating-point formats (R162). -/
def Fmt.isFloat : Fmt → Bool
  | .e4m3 | .e5m2 | .fp16 | .bf16 | .fp32 | .fp64 => true
  | _ => false

/-- Tile rows handed by one MHAND (R90). -/
def HConv.rows : HConv → Nat
  | .raw => 2
  | .bf16 | .fp16 | .i16 => 4
  | .e4m3 | .e5m2 | .i8 => 8

/-- AMODE's mode and parameter (R82). -/
def amodeLegal (mode : BitVec 2) (param : BitVec 6) : Bool :=
  match mode.toNat with
  | 0 => param == 0
  | 1 => param.toNat < 8
  | 2 => 1 ≤ param.toNat && param.toNat ≤ 32
  | _ => false

/-- The legal operands of an instruction, beyond the widths of its fields. A main core and a companion core take
different instructions; that check needs the core and is `State.illegal`, with `Instr.companionTakes`. -/
def Instr.wellFormed : Instr → Bool
  | .nop => true
  | .add _ _ _ _ _ => true
  | .sub _ _ _ _ _ => true
  | .and _ _ _ _ _ => true
  | .or _ _ _ _ _ => true
  | .xor _ _ _ _ _ => true
  | .andn _ _ _ _ _ => true
  | .shl _ _ _ _ _ => true
  | .shr _ _ _ _ _ => true
  | .sra _ _ _ _ _ => true
  | .rol _ _ _ _ _ => true
  | .min _ _ _ _ _ => true
  | .max _ _ _ _ _ => true
  | .minu _ _ _ _ _ => true
  | .maxu _ _ _ _ _ => true
  | .mul _ _ _ _ _ => true
  | .mulh _ _ _ _ _ => true
  | .mulhu _ _ _ _ _ => true
  | .div _ _ _ _ _ => true
  | .divu _ _ _ _ _ => true
  | .rem _ _ _ _ _ => true
  | .remu _ _ _ _ _ => true
  | .clz _ _ _ => true
  | .ctz _ _ _ => true
  | .popc _ _ _ => true
  | .brev _ _ _ => true
  | .sextb _ _ _ => true
  | .sexth _ _ _ => true
  | .sextw _ _ _ => true
  | .zextb _ _ _ => true
  | .zexth _ _ _ => true
  | .zextw _ _ _ => true
  | .mov _ _ _ => true
  | .addi _ _ _ _ => true
  | .andi _ _ _ _ => true
  | .ori _ _ _ _ => true
  | .xori _ _ _ _ => true
  | .shli _ _ _ _ => true
  | .shri _ _ _ _ => true
  | .srai _ _ _ _ => true
  | .li _ _ => true
  | .liu _ _ => true
  | .bfx _ _ _ _ _ => true
  | .bfi _ _ _ _ _ => true
  | .fsh _ _ _ _ _ _ => true
  | .fshi _ _ _ _ _ _ => true
  | .scmp _ _ _ _ _ _ => true
  | .scmpi _ _ _ _ _ => true
  | .plog _ _ _ _ => true
  | .sel _ _ _ _ _ _ => true
  | .ld _ _ _ _ sz sx _ => !(sz == 3 && sx)
  | .st _ _ _ _ _ _ => true
  | .ldv _ _ _ _ => true
  | .valid _ _ => true
  | .valst _ _ _ _ _ _ => true
  | .casv _ _ _ _ _ _ => true
  | .clrv _ => true
  | .br _ _ _ => true
  | .call _ _ _ => true
  | .lexit _ _ _ => true
  | .jr _ _ => true
  | .jalr _ _ _ => true
  | .ret => true
  | .loop _ len _ _ => len != 0
  | .loopi _ len _ => len != 0
  | .loopq _ len => len != 0
  | .setvrb _ => true
  | .setprb _ => true
  | .clrrb => true
  | .mfsr _ n => srAssigned n
  | .mtsr _ _ n => srAssigned n && !srReadOnly n
  | .trap _ => true
  | .sys _ => true
  | .rett => true
  | .endTask => true
  | .fadd _ _ _ _ _ _ => true
  | .fsub _ _ _ _ _ _ => true
  | .fmul _ _ _ _ _ _ => true
  | .fdiv _ _ _ _ _ _ => true
  | .fmin _ _ _ _ _ _ => true
  | .fmax _ _ _ _ _ _ => true
  | .fminn _ _ _ _ _ _ => true
  | .fmaxn _ _ _ _ _ _ => true
  | .fsqrt _ _ _ _ => true
  | .fcmp _ _ _ _ _ _ _ _ => true
  | .fcvt _ _ _ _ rnd => rnd != .sr
  | .amov _ _ _ => true
  | .aadd _ _ _ _ _ => true
  | .aaddi _ _ _ _ => true
  | .ali _ _ => true
  | .aliu _ _ => true
  | .astep _ => true
  | .amode _ mode _ param => amodeLegal mode param
  | .dset _ _ => true
  | .dmov _ _ _ => true
  | .wsetb _ _ _ => true
  | .wsetl _ _ _ => true
  | .ard _ _ _ => true
  | .vadd _ _ _ _ _ => true
  | .vsub _ _ _ _ _ => true
  | .vmul _ _ _ _ _ => true
  | .vfma _ _ _ _ _ => true
  | .vfms _ _ _ _ _ => true
  | .vmin _ _ _ _ _ => true
  | .vmax _ _ _ _ _ => true
  | .vminn _ _ _ _ _ => true
  | .vmaxn _ _ _ _ _ => true
  | .vabs _ _ _ _ => true
  | .vneg _ _ _ _ => true
  | .vand _ _ _ _ _ => true
  | .vor _ _ _ _ _ => true
  | .vxor _ _ _ _ _ => true
  | .vandn _ _ _ _ _ => true
  | .vshl _ _ _ _ _ => true
  | .vshr _ _ _ _ _ => true
  | .vsra _ _ _ _ _ => true
  | .vfsh _ _ _ _ _ => true
  | .vbfx _ _ _ _ _ => true
  | .vcmp _ _ _ _ _ _ => true
  | .vsel _ _ _ _ _ => true
  | .vcvt _ _ dst src sat _ => dst.vcvtLegal && src.vcvtLegal && src != dst && !(sat && !dst.isFloat && src.isFloat)
  | .vmov _ _ _ _ => true
  | .vspl _ _ _ _ _ => true
  | .vidx _ _ _ => true
  | .vcls _ _ _ _ => true
  | .vrnd _ _ _ => true
  | .vscale _ _ _ _ _ => true
  | .vaddSat _ _ _ _ _ => true
  | .vsubSat _ _ _ _ _ => true
  | .vln _ _ _ _ => true
  | .vexp _ _ _ _ => true
  | .vlog2 _ _ _ _ => true
  | .vexp2 _ _ _ _ => true
  | .vrcp _ _ _ _ => true
  | .vrsq _ _ _ _ => true
  | .vsqrt _ _ _ _ => true
  | .vtanh _ _ _ _ => true
  | .vsigm _ _ _ _ => true
  | .vld _ _ _ _ _ _ => true
  | .vst _ _ _ _ _ _ => true
  | .vldrb _ _ _ => true
  | .vget _ _ _ _ _ => true
  | .mldw cid pa pb _ _ => cidLegal cid pa pb
  | .mma cid pa pb _ _ => cidLegal cid pa pb
  | .mmag cid pa pb _ _ => cidLegal cid pa pb
  | .mmah cid pa pb _ _ => cidLegal cid pa pb
  | .mzero cid pa pb _ _ => cidLegal cid pa pb
  | .mhand _ _ row0 conv => row0.toNat % conv.rows == 0
  | .cpy cid pa pb _ _ => cidLegal cid pa pb
  | .csel cid pa pb _ _ => cidLegal cid pa pb
  | .cgth cid pa pb y _ => cidLegal cid pa pb && y != 15
  | .csct cid pa pb y _ => cidLegal cid pa pb && y != 15
  | .cqf cid pa pb _ _ => cidLegal cid pa pb
  | .ccol cid pa pb y _ => cidLegal cid pa pb && y != 15
  | .wait _ => true
  | .watch a b ta tb on _ => on || (a == 0 && b == 0 && !ta && !tb)
  | .semadd _ _ _ _ => true
  | .semaddRemote _ _ _ _ _ _ => true
  | .semwt _ _ _ => true
  | .semtst _ _ _ _ => true
  | .semset _ _ _ => true
  | .semrd _ _ => true
  | .bar _ => true
  | .fence src dst _ => src != 0 && dst != 0
  | .drain _ => true
  | .cwait _ => true
  | .gset _ _ _ => true
  | .kld _ _ => true
  | .cbkld _ _ => true
  | .yld _ _ _ => true
  | .yset _ _ _ _ => true
  | .cbset _ _ _ => true
  | .cbwait _ _ => true
  | .cbrel _ => true
  | .cqpush _ _ _ => true
  | .tdec _ _ _ => true
  | .ckpt => true
  | .yield _ => true
  | .sqpush _ _ _ _ _ => true
  | .tktst _ => true
  | .tkget _ => true
  | .sxapp _ _ _ _ _ cnt => 1 ≤ cnt.toNat && cnt.toNat ≤ 16
  | .sxqry _ _ _ _ _ n => 1 ≤ n.toNat && n.toNat ≤ 16
  | .sxcfg _ _ _ _ => true
  | .sxsave _ _ _ _ => true
  | .sxload _ _ _ _ => true
  | .sxstat _ _ _ => true
  | .evsel _ _ _ => true
  | .sqpop d => 1 ≤ d.toNat && d.toNat ≤ 30
  | .tkput _ _ _ _ => true
  | .fixedLatencyLanding c => c.valid
  | .variableLatencyLanding c _ => c.valid
  | .scratchpadStorePerform c => c.valid
  | .writePerformAtHome c _ => c.valid
  | .remoteSemaddArrival c _ => c.valid
  | .tokenLanding c => c.valid
  | .suffixOpPerform _ _ => true
  | .pageWalk _ => true
  | .imemReload c => c.valid
  | .engineDispatch c _ => c.valid
  | .engineRetire c _ => c.valid
  | .gatherPartReply c _ _ => c.valid
  | .chunkReceive _ _ _ _ _ _ _ => true
  | .taskDecrement _ => true
  | .schedulerPlace _ core => core.toNat < 144
  | .dieFreeRequest _ core => core.toNat < 144
  | .phaseSliceExpiry _ => true
  | .quantumExpiry c => c.valid
  | .taskRetire c => c.valid
  | .trapEntry c _ _ => c.valid
  | .taskKill c => c.valid
  | .taskSuspend c => c.valid
  | .yieldRequeue c => c.valid
  | .checkpointSnapshot c => c.valid
  | .datapathError c => c.valid
  | .pageMigration _ _ => true
  | .linkDown _ _ => true
  | .functionReady _ bit => bit.toNat < 22
  | .powerLimitChange _ _ _ => true
  | .hostMemWrite _ _ => true
  | .hostMemRead _ _ => true
  | .fwload => true
  | .reset => true
  | .run => true
  | .hifErrClear _ => true
  | .featureAcceptWrite _ _ => true
  | .hifTdecWrite _ _ => true
  | .hifTdecQueueHead => true
  | .ptrootWrite _ => true
  | .tlbInvalidateVpn _ => true
  | .tlbInvalidateAll => true
  | .tlbInvalidationDone => true
  | .l2SplitWrite _ _ => true
  | .l2SplitApply _ => true
  | .fabricRankWrite reg _ => reg.toNat < 5
  | .keyLoad _ => true
  | .keyClear _ => true
  | .keyCommandDone => true
  | .compStart n _ => n.toNat < 48
  | .poisonClear _ => true
  | .poisonClearDone => true
  | .fgrpWrite _ _ => true
  | .devselWrite _ _ _ => true
  | .ckeSaveStart _ => true
  | .ckeRestoreStart _ => true
  | .ckeAbort => true
  | .ckeRunBegin => true
  | .ckeRunEnd => true
  | .islRequestWrite _ _ _ => true
  | .hifRegisterWrite _ _ _ => true
  | .faultRingRoom _ => true
  | .poisonedAcknowledgementPath c => c.valid

end Sys2Proof
end

