-- ==== Sys2Proof/Decode.lean ====
section
/-! DEFINITION. The decoder of the slot words, one opcode map per slot kind (R69, R72-R95), and the encoder written
from the same tables. Decoding is total: a word that is no instruction is refused under the name of the R69 case. -/

namespace Sys2Proof

/-- Why a slot word is no instruction; each is a case of R69 and raises trap 0x01. -/
inductive Reject where
  | zeroOpcode      -- opcode 0 with any other bit set
  | reservedOpcode  -- an opcode marked reserved in the slot's map
  | reservedValue   -- a sub-function, condition, type, format or mode value marked reserved
  | reservedField   -- a reserved field or bit that is not zero
  | outOfRange      -- an operand that the field tables mark as out of range
  deriving DecidableEq, Repr

/-- The len bits of a slot word from bit lo upward. -/
def fld (w : Word32) (lo len : Nat) : BitVec len := w.extractLsb' lo len

/-- One bit of a slot word. -/
def flag (w : Word32) (i : Nat) : Bool := w.getLsbD i

open BitVec (ofBool ofNat)

/-- The code of each value (R77). -/
def SCond.code : SCond → Nat
  | .eq => 0
  | .ne => 1
  | .lt => 2
  | .ge => 3
  | .ltu => 4
  | .geu => 5

/-- The value of a code; a reserved code has none (R77). -/
def SCond.ofCode? : Nat → Option SCond
  | 0 => some .eq
  | 1 => some .ne
  | 2 => some .lt
  | 3 => some .ge
  | 4 => some .ltu
  | 5 => some .geu
  | _ => none

/-- The code of each value (R77). -/
def PLogOp.code : PLogOp → Nat
  | .and => 0
  | .or => 1
  | .xor => 2
  | .andn => 3
  | .orn => 4

/-- The value of a code; a reserved code has none (R77). -/
def PLogOp.ofCode? : Nat → Option PLogOp
  | 0 => some .and
  | 1 => some .or
  | 2 => some .xor
  | 3 => some .andn
  | 4 => some .orn
  | _ => none

/-- The code of each value (R77). -/
def FCond.code : FCond → Nat
  | .eq => 0
  | .lt => 1
  | .le => 2
  | .un => 3
  | .ne => 4

/-- The value of a code; a reserved code has none (R77). -/
def FCond.ofCode? : Nat → Option FCond
  | 0 => some .eq
  | 1 => some .lt
  | 2 => some .le
  | 3 => some .un
  | 4 => some .ne
  | _ => none

/-- The code of each value (R86). -/
def VCond.code : VCond → Nat
  | .eq => 0
  | .ne => 1
  | .lt => 2
  | .le => 3

/-- The value of a code; a reserved code has none (R86). -/
def VCond.ofCode? : Nat → Option VCond
  | 0 => some .eq
  | 1 => some .ne
  | 2 => some .lt
  | 3 => some .le
  | _ => none

/-- The code of each value (R78). -/
def FConv.code : FConv → Nat
  | .fp32Fp64 => 0
  | .fp64Fp32 => 1
  | .i64Fp32 => 2
  | .i64Fp64 => 3
  | .fp32I64 => 4
  | .fp64I64 => 5
  | .u64Fp32 => 6
  | .u64Fp64 => 7
  | .fp32U64 => 8
  | .fp64U64 => 9
  | .fp32Bf16 => 10
  | .bf16Fp32 => 11
  | .fp32Fp16 => 12
  | .fp16Fp32 => 13

/-- The value of a code; a reserved code has none (R78). -/
def FConv.ofCode? : Nat → Option FConv
  | 0 => some .fp32Fp64
  | 1 => some .fp64Fp32
  | 2 => some .i64Fp32
  | 3 => some .i64Fp64
  | 4 => some .fp32I64
  | 5 => some .fp64I64
  | 6 => some .u64Fp32
  | 7 => some .u64Fp64
  | 8 => some .fp32U64
  | 9 => some .fp64U64
  | 10 => some .fp32Bf16
  | 11 => some .bf16Fp32
  | 12 => some .fp32Fp16
  | 13 => some .fp16Fp32
  | _ => none

/-- The code of each value (R88). -/
def Rnd.code : Rnd → Nat
  | .rne => 0
  | .rtz => 1
  | .rdn => 2
  | .rup => 3
  | .rna => 4
  | .sr => 5

/-- The value of a code; a reserved code has none (R88). -/
def Rnd.ofCode? : Nat → Option Rnd
  | 0 => some .rne
  | 1 => some .rtz
  | 2 => some .rdn
  | 3 => some .rup
  | 4 => some .rna
  | 5 => some .sr
  | _ => none

/-- The code of each value (R165). -/
def Fmt.code : Fmt → Nat
  | .int8 => 0
  | .uint8 => 1
  | .int16 => 2
  | .int32 => 3
  | .e4m3 => 4
  | .e5m2 => 5
  | .fp16 => 6
  | .bf16 => 7
  | .fp32 => 8
  | .fp64 => 9
  | .cf32 => 10
  | .cf64 => 11
  | .vcb2 => 12
  | .int4 => 13
  | .int64 => 14
  | .page => 15

/-- The value of a code; a reserved code has none (R165). -/
def Fmt.ofCode? : Nat → Option Fmt
  | 0 => some .int8
  | 1 => some .uint8
  | 2 => some .int16
  | 3 => some .int32
  | 4 => some .e4m3
  | 5 => some .e5m2
  | 6 => some .fp16
  | 7 => some .bf16
  | 8 => some .fp32
  | 9 => some .fp64
  | 10 => some .cf32
  | 11 => some .cf64
  | 12 => some .vcb2
  | 13 => some .int4
  | 14 => some .int64
  | 15 => some .page
  | _ => none

/-- The code of each value (R85). -/
def TyF.code : TyF → Nat
  | .i8 => 0
  | .i16 => 1
  | .i32 => 2
  | .i64 => 3
  | .fp16 => 4
  | .bf16 => 5
  | .fp32 => 6
  | .fp64 => 7

/-- The value of a code; a reserved code has none (R85). -/
def TyF.ofCode? : Nat → Option TyF
  | 0 => some .i8
  | 1 => some .i16
  | 2 => some .i32
  | 3 => some .i64
  | 4 => some .fp16
  | 5 => some .bf16
  | 6 => some .fp32
  | 7 => some .fp64
  | _ => none

/-- The code of each value (R85). -/
def TyN.code : TyN → Nat
  | .ui8 => 0
  | .ui16 => 1
  | .ui32 => 2
  | .fp16 => 4
  | .bf16 => 5
  | .fp32 => 6
  | .fp64 => 7

/-- The value of a code; a reserved code has none (R85). -/
def TyN.ofCode? : Nat → Option TyN
  | 0 => some .ui8
  | 1 => some .ui16
  | 2 => some .ui32
  | 4 => some .fp16
  | 5 => some .bf16
  | 6 => some .fp32
  | 7 => some .fp64
  | _ => none

/-- The code of each value (R85). -/
def TyQ.code : TyQ → Nat
  | .i8 => 0
  | .i16 => 1
  | .i32 => 2
  | .i64 => 3
  | .ui8 => 4
  | .ui16 => 5
  | .ui32 => 6

/-- The value of a code; a reserved code has none (R85). -/
def TyQ.ofCode? : Nat → Option TyQ
  | 0 => some .i8
  | 1 => some .i16
  | 2 => some .i32
  | 3 => some .i64
  | 4 => some .ui8
  | 5 => some .ui16
  | 6 => some .ui32
  | _ => none

/-- The code of each value (R85). -/
def TyL.code : TyL → Nat
  | .fp16 => 4
  | .bf16 => 5
  | .fp32 => 6
  | .fp64 => 7

/-- The value of a code; a reserved code has none (R85). -/
def TyL.ofCode? : Nat → Option TyL
  | 4 => some .fp16
  | 5 => some .bf16
  | 6 => some .fp32
  | 7 => some .fp64
  | _ => none

/-- The code of each value (R85). -/
def TyT.code : TyT → Nat
  | .fp16 => 4
  | .bf16 => 5
  | .fp32 => 6

/-- The value of a code; a reserved code has none (R85). -/
def TyT.ofCode? : Nat → Option TyT
  | 4 => some .fp16
  | 5 => some .bf16
  | 6 => some .fp32
  | _ => none

/-- The code of each value (R85). -/
def TyI.code : TyI → Nat
  | .w8 => 0
  | .w16 => 1
  | .w32 => 2
  | .w64 => 3

/-- The value of a code; a reserved code has none (R85). -/
def TyI.ofCode? : Nat → Option TyI
  | 0 => some .w8
  | 1 => some .w16
  | 2 => some .w32
  | 3 => some .w64
  | _ => none

/-- The code of each value (R90). -/
def HConv.code : HConv → Nat
  | .raw => 0
  | .bf16 => 1
  | .fp16 => 2
  | .i16 => 3
  | .e4m3 => 4
  | .e5m2 => 5
  | .i8 => 6

/-- The value of a code; a reserved code has none (R90). -/
def HConv.ofCode? : Nat → Option HConv
  | 0 => some .raw
  | 1 => some .bf16
  | 2 => some .fp16
  | 3 => some .i16
  | 4 => some .e4m3
  | 5 => some .e5m2
  | 6 => some .i8
  | _ => none

/-- The code of each value (R228). -/
def RetAct.code : RetAct → Nat
  | .none => 0
  | .sem => 1
  | .rsem => 2
  | .tdec => 3

/-- The value of a code; a reserved code has none (R228). -/
def RetAct.ofCode? : Nat → Option RetAct
  | 0 => some .none
  | 1 => some .sem
  | 2 => some .rsem
  | 3 => some .tdec
  | _ => none

/-- The code of each value (R14). -/
def Scope.code : Scope → Nat
  | .core => 0
  | .cluster => 1
  | .die => 2
  | .package => 3
  | .fabric => 4
  | .system => 5

/-- The value of a code; a reserved code has none (R14). -/
def Scope.ofCode? : Nat → Option Scope
  | 0 => some .core
  | 1 => some .cluster
  | 2 => some .die
  | 3 => some .package
  | 4 => some .fabric
  | 5 => some .system
  | _ => none

/-- The words of a row whose reserved fields must be zero. -/
def zeroed (c : Prop) [Decidable c] (r : Except Reject Instr) : Except Reject Instr :=
  if c then r else .error .reservedField

/-- The words of a row that reads a coded value. -/
def reading {α : Type} (v : Option α) (f : α → Except Reject Instr) : Except Reject Instr :=
  match v with
  | some x => f x
  | none => .error .reservedValue

/-- Opcode 0x01 of the S-slot map (R73-R80), by its sub-function in bits [7:0]. -/
def decodeS01 (w : Word32) : Except Reject Instr :=
  match (fld w 0 8).toNat with
  | 0x00 => .ok (.add (fld w 20 5) (fld w 15 5) (fld w 10 5) (flag w 9) (flag w 8))
  | 0x01 => .ok (.sub (fld w 20 5) (fld w 15 5) (fld w 10 5) (flag w 9) (flag w 8))
  | 0x02 => .ok (.and (fld w 20 5) (fld w 15 5) (fld w 10 5) (flag w 9) (flag w 8))
  | 0x03 => .ok (.or (fld w 20 5) (fld w 15 5) (fld w 10 5) (flag w 9) (flag w 8))
  | 0x04 => .ok (.xor (fld w 20 5) (fld w 15 5) (fld w 10 5) (flag w 9) (flag w 8))
  | 0x05 => .ok (.andn (fld w 20 5) (fld w 15 5) (fld w 10 5) (flag w 9) (flag w 8))
  | 0x06 => .ok (.shl (fld w 20 5) (fld w 15 5) (fld w 10 5) (flag w 9) (flag w 8))
  | 0x07 => .ok (.shr (fld w 20 5) (fld w 15 5) (fld w 10 5) (flag w 9) (flag w 8))
  | 0x08 => .ok (.sra (fld w 20 5) (fld w 15 5) (fld w 10 5) (flag w 9) (flag w 8))
  | 0x09 => .ok (.rol (fld w 20 5) (fld w 15 5) (fld w 10 5) (flag w 9) (flag w 8))
  | 0x0a => .ok (.min (fld w 20 5) (fld w 15 5) (fld w 10 5) (flag w 9) (flag w 8))
  | 0x0b => .ok (.max (fld w 20 5) (fld w 15 5) (fld w 10 5) (flag w 9) (flag w 8))
  | 0x0c => .ok (.minu (fld w 20 5) (fld w 15 5) (fld w 10 5) (flag w 9) (flag w 8))
  | 0x0d => .ok (.maxu (fld w 20 5) (fld w 15 5) (fld w 10 5) (flag w 9) (flag w 8))
  | 0x0e => .ok (.mul (fld w 20 5) (fld w 15 5) (fld w 10 5) (flag w 9) (flag w 8))
  | 0x0f => .ok (.mulh (fld w 20 5) (fld w 15 5) (fld w 10 5) (flag w 9) (flag w 8))
  | 0x10 => .ok (.mulhu (fld w 20 5) (fld w 15 5) (fld w 10 5) (flag w 9) (flag w 8))
  | 0x11 => .ok (.div (fld w 20 5) (fld w 15 5) (fld w 10 5) (flag w 9) (flag w 8))
  | 0x12 => .ok (.divu (fld w 20 5) (fld w 15 5) (fld w 10 5) (flag w 9) (flag w 8))
  | 0x13 => .ok (.rem (fld w 20 5) (fld w 15 5) (fld w 10 5) (flag w 9) (flag w 8))
  | 0x14 => .ok (.remu (fld w 20 5) (fld w 15 5) (fld w 10 5) (flag w 9) (flag w 8))
  | _ => .error .reservedValue

/-- Opcode 0x02 of the S-slot map (R73-R80), by its sub-function in bits [7:0]. -/
def decodeS02 (w : Word32) : Except Reject Instr :=
  match (fld w 0 8).toNat with
  | 0x00 => zeroed (fld w 10 5 = 0 ∧ fld w 8 1 = 0) <| .ok (.clz (fld w 20 5) (fld w 15 5) (flag w 9))
  | 0x01 => zeroed (fld w 10 5 = 0 ∧ fld w 8 1 = 0) <| .ok (.ctz (fld w 20 5) (fld w 15 5) (flag w 9))
  | 0x02 => zeroed (fld w 10 5 = 0 ∧ fld w 8 1 = 0) <| .ok (.popc (fld w 20 5) (fld w 15 5) (flag w 9))
  | 0x03 => zeroed (fld w 10 5 = 0 ∧ fld w 8 1 = 0) <| .ok (.brev (fld w 20 5) (fld w 15 5) (flag w 9))
  | 0x04 => zeroed (fld w 10 5 = 0 ∧ fld w 8 1 = 0) <| .ok (.sextb (fld w 20 5) (fld w 15 5) (flag w 9))
  | 0x05 => zeroed (fld w 10 5 = 0 ∧ fld w 8 1 = 0) <| .ok (.sexth (fld w 20 5) (fld w 15 5) (flag w 9))
  | 0x06 => zeroed (fld w 10 5 = 0 ∧ fld w 8 1 = 0) <| .ok (.sextw (fld w 20 5) (fld w 15 5) (flag w 9))
  | 0x07 => zeroed (fld w 10 5 = 0 ∧ fld w 8 1 = 0) <| .ok (.zextb (fld w 20 5) (fld w 15 5) (flag w 9))
  | 0x08 => zeroed (fld w 10 5 = 0 ∧ fld w 8 1 = 0) <| .ok (.zexth (fld w 20 5) (fld w 15 5) (flag w 9))
  | 0x09 => zeroed (fld w 10 5 = 0 ∧ fld w 8 1 = 0) <| .ok (.zextw (fld w 20 5) (fld w 15 5) (flag w 9))
  | 0x0a => zeroed (fld w 10 5 = 0 ∧ fld w 8 1 = 0) <| .ok (.mov (fld w 20 5) (fld w 15 5) (flag w 9))
  | _ => .error .reservedValue

/-- Opcode 0x1d of the S-slot map (R73-R80), by its sub-function in bits [7:0]. DESIGN CHOICE (log 80): the d field of JR, which R80 does not state, must be
zero. -/
def decodeS1D (w : Word32) : Except Reject Instr :=
  match (fld w 0 8).toNat with
  | 0x00 => zeroed (fld w 20 5 = 0 ∧ fld w 10 5 = 0 ∧ fld w 8 1 = 0) <| .ok (.jr (fld w 15 5) (flag w 9))
  | 0x01 => zeroed (fld w 10 5 = 0 ∧ fld w 8 1 = 0) <| .ok (.jalr (fld w 20 5) (fld w 15 5) (flag w 9))
  | 0x02 => zeroed (fld w 8 17 = 0) <| .ok (.ret)
  | _ => .error .reservedValue

/-- Opcode 0x1e of the S-slot map (R73-R80), by its sub-function in bits [24:23]. -/
def decodeS1E (w : Word32) : Except Reject Instr :=
  match (fld w 23 2).toNat with
  | 0x00 => zeroed (fld w 6 6 = 0) <| .ok (.loop (flag w 22) (fld w 12 10) (flag w 5) (fld w 0 5))
  | 0x01 => .ok (.loopi (flag w 22) (fld w 12 10) (fld w 0 12))
  | 0x02 => zeroed (fld w 0 12 = 0) <| .ok (.loopq (flag w 22) (fld w 12 10))
  | _ => .error .reservedValue

/-- Opcode 0x20 of the S-slot map (R73-R80), by its sub-function in bits [24:20]. -/
def decodeS20 (w : Word32) : Except Reject Instr :=
  match (fld w 20 5).toNat with
  | 0x00 => zeroed (fld w 5 15 = 0) <| .ok (.setvrb (fld w 0 5))
  | 0x01 => zeroed (fld w 3 17 = 0) <| .ok (.setprb (fld w 0 3))
  | 0x02 => zeroed (fld w 0 20 = 0) <| .ok (.clrrb)
  | _ => .error .reservedValue

/-- Opcode 0x27 of the S-slot map (R73-R80), by its sub-function in bits [3:0]. -/
def decodeS27 (w : Word32) : Except Reject Instr :=
  match (fld w 0 4).toNat with
  | 0x00 => zeroed (fld w 5 3 = 0) <| .ok (.fadd (fld w 20 5) (fld w 15 5) (fld w 10 5) (flag w 9) (flag w 8) (flag w 4))
  | 0x01 => zeroed (fld w 5 3 = 0) <| .ok (.fsub (fld w 20 5) (fld w 15 5) (fld w 10 5) (flag w 9) (flag w 8) (flag w 4))
  | 0x02 => zeroed (fld w 5 3 = 0) <| .ok (.fmul (fld w 20 5) (fld w 15 5) (fld w 10 5) (flag w 9) (flag w 8) (flag w 4))
  | 0x03 => zeroed (fld w 5 3 = 0) <| .ok (.fdiv (fld w 20 5) (fld w 15 5) (fld w 10 5) (flag w 9) (flag w 8) (flag w 4))
  | 0x04 => zeroed (fld w 5 3 = 0) <| .ok (.fmin (fld w 20 5) (fld w 15 5) (fld w 10 5) (flag w 9) (flag w 8) (flag w 4))
  | 0x05 => zeroed (fld w 5 3 = 0) <| .ok (.fmax (fld w 20 5) (fld w 15 5) (fld w 10 5) (flag w 9) (flag w 8) (flag w 4))
  | 0x06 => zeroed (fld w 5 3 = 0) <| .ok (.fminn (fld w 20 5) (fld w 15 5) (fld w 10 5) (flag w 9) (flag w 8) (flag w 4))
  | 0x07 => zeroed (fld w 5 3 = 0) <| .ok (.fmaxn (fld w 20 5) (fld w 15 5) (fld w 10 5) (flag w 9) (flag w 8) (flag w 4))
  | 0x08 => zeroed (fld w 10 5 = 0 ∧ fld w 5 4 = 0) <| .ok (.fsqrt (fld w 20 5) (fld w 15 5) (flag w 9) (flag w 4))
  | _ => .error .reservedValue

/-- The S-slot map (R73-R80), by the major opcode in bits [31:25]. DESIGN CHOICE (log 80): fn[7:5] of FCMP and imm14[13:12] of MTSR, which neither R77,
R80 nor R148 states, must be zero. -/
def decodeS (w : Word32) : Except Reject Instr :=
  match (fld w 25 7).toNat with
  | 0x00 => if w = 0 then .ok .nop else .error .zeroOpcode
  | 0x01 => decodeS01 w
  | 0x02 => decodeS02 w
  | 0x03 => .ok (.addi (fld w 20 5) (fld w 15 5) (flag w 14) (fld w 0 14))
  | 0x04 => .ok (.andi (fld w 20 5) (fld w 15 5) (flag w 14) (fld w 0 14))
  | 0x05 => .ok (.ori (fld w 20 5) (fld w 15 5) (flag w 14) (fld w 0 14))
  | 0x06 => .ok (.xori (fld w 20 5) (fld w 15 5) (flag w 14) (fld w 0 14))
  | 0x07 => zeroed (fld w 6 8 = 0) <| .ok (.shli (fld w 20 5) (fld w 15 5) (flag w 14) (fld w 0 6))
  | 0x08 => zeroed (fld w 6 8 = 0) <| .ok (.shri (fld w 20 5) (fld w 15 5) (flag w 14) (fld w 0 6))
  | 0x09 => zeroed (fld w 6 8 = 0) <| .ok (.srai (fld w 20 5) (fld w 15 5) (flag w 14) (fld w 0 6))
  | 0x0a => .ok (.li (fld w 20 5) (fld w 0 20))
  | 0x0b => .ok (.liu (fld w 20 5) (fld w 0 20))
  | 0x0c => zeroed (fld w 12 2 = 0) <| .ok (.bfx (fld w 20 5) (fld w 15 5) (flag w 14) (fld w 0 6) (fld w 6 6))
  | 0x0d => zeroed (fld w 12 2 = 0) <| .ok (.bfi (fld w 20 5) (fld w 15 5) (flag w 14) (fld w 0 6) (fld w 6 6))
  | 0x0e => zeroed (fld w 5 3 = 0) <| .ok (.fsh (fld w 20 5) (fld w 15 5) (fld w 10 5) (flag w 9) (flag w 8) (fld w 0 5))
  | 0x0f => zeroed (fld w 6 2 = 0) <| .ok (.fshi (fld w 20 5) (fld w 15 5) (fld w 10 5) (flag w 9) (flag w 8) (fld w 0 6))
  | 0x10 => zeroed (fld w 24 1 = 0 ∧ fld w 4 4 = 0) <| reading (SCond.ofCode? (fld w 0 4).toNat) fun cc => .ok (.scmp (fld w 20 4) (fld w 15 5) (fld w 10 5) (flag w 9) (flag w 8) cc)
  | 0x11 => zeroed (fld w 24 1 = 0) <| reading (SCond.ofCode? (fld w 11 3).toNat) fun cc => .ok (.scmpi (fld w 20 4) (fld w 15 5) (flag w 14) cc (fld w 0 11))
  | 0x12 => zeroed (fld w 24 1 = 0 ∧ fld w 19 1 = 0 ∧ fld w 14 1 = 0 ∧ fld w 8 2 = 0) <| reading (PLogOp.ofCode? (fld w 0 8).toNat) fun f => .ok (.plog (fld w 20 4) (fld w 15 4) (fld w 10 4) f)
  | 0x13 => zeroed (fld w 4 4 = 0) <| .ok (.sel (fld w 20 5) (fld w 15 5) (fld w 10 5) (flag w 9) (flag w 8) (fld w 0 4))
  | 0x14 => .ok (.ld (fld w 20 5) (fld w 15 5) (flag w 14) (fld w 12 2) (fld w 10 2) (flag w 9) (fld w 0 9))
  | 0x15 => zeroed (fld w 9 1 = 0) <| .ok (.st (fld w 20 5) (fld w 15 5) (flag w 14) (fld w 12 2) (fld w 10 2) (fld w 0 9))
  | 0x16 => zeroed (fld w 10 5 = 0 ∧ fld w 3 6 = 0) <| .ok (.ldv (fld w 20 5) (fld w 15 5) (flag w 9) (fld w 0 3))
  | 0x17 => zeroed (fld w 8 12 = 0) <| .ok (.valid (fld w 20 5) (fld w 0 8))
  | 0x18 => .ok (.valst (fld w 20 5) (fld w 15 5) (fld w 10 5) (flag w 9) (flag w 8) (fld w 0 8))
  | 0x19 => zeroed (fld w 3 5 = 0) <| .ok (.casv (fld w 20 5) (fld w 15 5) (fld w 10 5) (flag w 9) (flag w 8) (fld w 0 3))
  | 0x1a => zeroed (fld w 8 17 = 0) <| .ok (.clrv (fld w 0 8))
  | 0x1b => .ok (.br (fld w 21 4) (flag w 20) (fld w 0 20))
  | 0x1c => .ok (.call (fld w 21 4) (flag w 20) (fld w 0 20))
  | 0x1d => decodeS1D w
  | 0x1e => decodeS1E w
  | 0x1f => .ok (.lexit (fld w 21 4) (flag w 20) (fld w 0 20))
  | 0x20 => decodeS20 w
  | 0x21 => zeroed (fld w 12 8 = 0) <| .ok (.mfsr (fld w 20 5) (fld w 0 12))
  | 0x22 => zeroed (fld w 20 5 = 0 ∧ fld w 12 2 = 0) <| .ok (.mtsr (fld w 15 5) (flag w 14) (fld w 0 12))
  | 0x23 => zeroed (fld w 20 5 = 0) <| .ok (.trap (fld w 0 20))
  | 0x24 => zeroed (fld w 20 5 = 0) <| .ok (.sys (fld w 0 20))
  | 0x25 => zeroed (fld w 0 25 = 0) <| .ok (.rett)
  | 0x26 => zeroed (fld w 0 25 = 0) <| .ok (.endTask)
  | 0x27 => decodeS27 w
  | 0x28 => zeroed (fld w 5 3 = 0 ∧ fld w 3 1 = 0) <| reading (FCond.ofCode? (fld w 0 3).toNat) fun cc => .ok (.fcmp (flag w 24) (fld w 20 4) (fld w 15 5) (fld w 10 5) (flag w 9) (flag w 8) (flag w 4) cc)
  | 0x29 => zeroed (fld w 10 5 = 0 ∧ fld w 8 1 = 0) <| reading (FConv.ofCode? (fld w 3 5).toNat) fun cv => reading (Rnd.ofCode? (fld w 0 3).toNat) fun rnd => .ok (.fcvt (fld w 20 5) (fld w 15 5) (flag w 9) cv rnd)
  | _ => .error .reservedOpcode

/-- The A-slot map (R81, R82), by the major opcode in bits [31:25]. -/
def decodeA (w : Word32) : Except Reject Instr :=
  match (fld w 25 7).toNat with
  | 0x00 => if w = 0 then .ok .nop else .error .zeroOpcode
  | 0x01 => zeroed (fld w 10 5 = 0 ∧ fld w 0 9 = 0) <| .ok (.amov (fld w 20 5) (fld w 15 5) (flag w 9))
  | 0x02 => zeroed (fld w 0 8 = 0) <| .ok (.aadd (fld w 20 5) (fld w 15 5) (fld w 10 5) (flag w 9) (flag w 8))
  | 0x03 => .ok (.aaddi (fld w 20 5) (fld w 15 5) (flag w 14) (fld w 0 14))
  | 0x04 => .ok (.ali (fld w 20 5) (fld w 0 20))
  | 0x05 => .ok (.aliu (fld w 20 5) (fld w 0 20))
  | 0x06 => zeroed (fld w 0 20 = 0) <| .ok (.astep (fld w 20 5))
  | 0x07 => zeroed (fld w 0 8 = 0) <| .ok (.amode (fld w 20 5) (fld w 18 2) (fld w 14 4) (fld w 8 6))
  | 0x08 => zeroed (fld w 24 1 = 0) <| .ok (.dset (fld w 20 4) (fld w 0 20))
  | 0x09 => zeroed (fld w 24 1 = 0 ∧ fld w 10 5 = 0 ∧ fld w 0 9 = 0) <| .ok (.dmov (fld w 20 4) (fld w 15 5) (flag w 9))
  | 0x0a => zeroed (fld w 23 2 = 0 ∧ fld w 10 5 = 0 ∧ fld w 0 9 = 0) <| .ok (.wsetb (fld w 20 3) (fld w 15 5) (flag w 9))
  | 0x0b => zeroed (fld w 23 2 = 0 ∧ fld w 10 5 = 0 ∧ fld w 0 9 = 0) <| .ok (.wsetl (fld w 20 3) (fld w 15 5) (flag w 9))
  | 0x0c => zeroed (fld w 10 5 = 0 ∧ fld w 0 9 = 0) <| .ok (.ard (fld w 20 5) (fld w 15 5) (flag w 9))
  | _ => .error .reservedOpcode

/-- The V-slot map (R83-R88), by the major opcode in bits [31:25]. -/
def decodeV (w : Word32) : Except Reject Instr :=
  match (fld w 25 7).toNat with
  | 0x00 => if w = 0 then .ok .nop else .error .zeroOpcode
  | 0x01 => reading (TyF.ofCode? (fld w 4 3).toNat) fun ty => .ok (.vadd (fld w 19 6) (fld w 13 6) (fld w 7 6) ty (fld w 0 4))
  | 0x02 => reading (TyF.ofCode? (fld w 4 3).toNat) fun ty => .ok (.vsub (fld w 19 6) (fld w 13 6) (fld w 7 6) ty (fld w 0 4))
  | 0x03 => reading (TyF.ofCode? (fld w 4 3).toNat) fun ty => .ok (.vmul (fld w 19 6) (fld w 13 6) (fld w 7 6) ty (fld w 0 4))
  | 0x04 => reading (TyL.ofCode? (fld w 4 3).toNat) fun ty => .ok (.vfma (fld w 19 6) (fld w 13 6) (fld w 7 6) ty (fld w 0 4))
  | 0x05 => reading (TyL.ofCode? (fld w 4 3).toNat) fun ty => .ok (.vfms (fld w 19 6) (fld w 13 6) (fld w 7 6) ty (fld w 0 4))
  | 0x06 => reading (TyF.ofCode? (fld w 4 3).toNat) fun ty => .ok (.vmin (fld w 19 6) (fld w 13 6) (fld w 7 6) ty (fld w 0 4))
  | 0x07 => reading (TyF.ofCode? (fld w 4 3).toNat) fun ty => .ok (.vmax (fld w 19 6) (fld w 13 6) (fld w 7 6) ty (fld w 0 4))
  | 0x08 => reading (TyN.ofCode? (fld w 4 3).toNat) fun ty => .ok (.vminn (fld w 19 6) (fld w 13 6) (fld w 7 6) ty (fld w 0 4))
  | 0x09 => reading (TyN.ofCode? (fld w 4 3).toNat) fun ty => .ok (.vmaxn (fld w 19 6) (fld w 13 6) (fld w 7 6) ty (fld w 0 4))
  | 0x0a => zeroed (fld w 7 6 = 0) <| reading (TyF.ofCode? (fld w 4 3).toNat) fun ty => .ok (.vabs (fld w 19 6) (fld w 13 6) ty (fld w 0 4))
  | 0x0b => zeroed (fld w 7 6 = 0) <| reading (TyF.ofCode? (fld w 4 3).toNat) fun ty => .ok (.vneg (fld w 19 6) (fld w 13 6) ty (fld w 0 4))
  | 0x0c => reading (TyI.ofCode? (fld w 4 3).toNat) fun ty => .ok (.vand (fld w 19 6) (fld w 13 6) (fld w 7 6) ty (fld w 0 4))
  | 0x0d => reading (TyI.ofCode? (fld w 4 3).toNat) fun ty => .ok (.vor (fld w 19 6) (fld w 13 6) (fld w 7 6) ty (fld w 0 4))
  | 0x0e => reading (TyI.ofCode? (fld w 4 3).toNat) fun ty => .ok (.vxor (fld w 19 6) (fld w 13 6) (fld w 7 6) ty (fld w 0 4))
  | 0x0f => reading (TyI.ofCode? (fld w 4 3).toNat) fun ty => .ok (.vandn (fld w 19 6) (fld w 13 6) (fld w 7 6) ty (fld w 0 4))
  | 0x10 => reading (TyI.ofCode? (fld w 4 3).toNat) fun ty => .ok (.vshl (fld w 19 6) (fld w 13 6) (fld w 7 6) ty (fld w 0 4))
  | 0x11 => reading (TyI.ofCode? (fld w 4 3).toNat) fun ty => .ok (.vshr (fld w 19 6) (fld w 13 6) (fld w 7 6) ty (fld w 0 4))
  | 0x12 => reading (TyI.ofCode? (fld w 4 3).toNat) fun ty => .ok (.vsra (fld w 19 6) (fld w 13 6) (fld w 7 6) ty (fld w 0 4))
  | 0x13 => reading (TyI.ofCode? (fld w 4 3).toNat) fun ty => .ok (.vfsh (fld w 19 6) (fld w 13 6) (fld w 7 6) ty (fld w 0 4))
  | 0x14 => reading (TyI.ofCode? (fld w 4 3).toNat) fun ty => .ok (.vbfx (fld w 19 6) (fld w 13 6) (fld w 7 6) ty (fld w 0 4))
  | 0x15 => reading (VCond.ofCode? (fld w 23 2).toNat) fun cc => reading (TyF.ofCode? (fld w 4 3).toNat) fun ty => .ok (.vcmp cc (fld w 19 4) (fld w 13 6) (fld w 7 6) ty (fld w 0 4))
  | 0x16 => reading (TyI.ofCode? (fld w 4 3).toNat) fun ty => .ok (.vsel (fld w 19 6) (fld w 13 6) (fld w 7 6) ty (fld w 0 4))
  | 0x17 => zeroed (fld w 0 1 = 0) <| reading (Fmt.ofCode? (fld w 9 4).toNat) fun dst => reading (Fmt.ofCode? (fld w 5 4).toNat) fun src => reading (Rnd.ofCode? (fld w 1 3).toNat) fun rnd => .ok (.vcvt (fld w 19 6) (fld w 13 6) dst src (flag w 4) rnd)
  | 0x18 => zeroed (fld w 7 6 = 0) <| reading (TyI.ofCode? (fld w 4 3).toNat) fun ty => .ok (.vmov (fld w 19 6) (fld w 13 6) ty (fld w 0 4))
  | 0x19 => zeroed (fld w 7 6 = 0) <| reading (TyI.ofCode? (fld w 4 3).toNat) fun ty => .ok (.vspl (fld w 19 6) (flag w 18) (fld w 13 5) ty (fld w 0 4))
  | 0x1a => zeroed (fld w 7 12 = 0) <| reading (TyI.ofCode? (fld w 4 3).toNat) fun ty => .ok (.vidx (fld w 19 6) ty (fld w 0 4))
  | 0x1b => zeroed (fld w 7 6 = 0) <| reading (TyL.ofCode? (fld w 4 3).toNat) fun ty => .ok (.vcls (fld w 19 6) (fld w 13 6) ty (fld w 0 4))
  | 0x1c => zeroed (fld w 7 12 = 0) <| reading (TyI.ofCode? (fld w 4 3).toNat) fun ty => .ok (.vrnd (fld w 19 6) ty (fld w 0 4))
  | 0x1d => reading (TyL.ofCode? (fld w 4 3).toNat) fun ty => .ok (.vscale (fld w 19 6) (fld w 13 6) (fld w 7 6) ty (fld w 0 4))
  | 0x1e => reading (TyQ.ofCode? (fld w 4 3).toNat) fun ty => .ok (.vaddSat (fld w 19 6) (fld w 13 6) (fld w 7 6) ty (fld w 0 4))
  | 0x1f => reading (TyQ.ofCode? (fld w 4 3).toNat) fun ty => .ok (.vsubSat (fld w 19 6) (fld w 13 6) (fld w 7 6) ty (fld w 0 4))
  | 0x20 => zeroed (fld w 7 6 = 0) <| reading (TyT.ofCode? (fld w 4 3).toNat) fun ty => .ok (.vln (fld w 19 6) (fld w 13 6) ty (fld w 0 4))
  | 0x21 => zeroed (fld w 7 6 = 0) <| reading (TyT.ofCode? (fld w 4 3).toNat) fun ty => .ok (.vexp (fld w 19 6) (fld w 13 6) ty (fld w 0 4))
  | 0x22 => zeroed (fld w 7 6 = 0) <| reading (TyT.ofCode? (fld w 4 3).toNat) fun ty => .ok (.vlog2 (fld w 19 6) (fld w 13 6) ty (fld w 0 4))
  | 0x23 => zeroed (fld w 7 6 = 0) <| reading (TyT.ofCode? (fld w 4 3).toNat) fun ty => .ok (.vexp2 (fld w 19 6) (fld w 13 6) ty (fld w 0 4))
  | 0x24 => zeroed (fld w 7 6 = 0) <| reading (TyT.ofCode? (fld w 4 3).toNat) fun ty => .ok (.vrcp (fld w 19 6) (fld w 13 6) ty (fld w 0 4))
  | 0x25 => zeroed (fld w 7 6 = 0) <| reading (TyT.ofCode? (fld w 4 3).toNat) fun ty => .ok (.vrsq (fld w 19 6) (fld w 13 6) ty (fld w 0 4))
  | 0x26 => zeroed (fld w 7 6 = 0) <| reading (TyT.ofCode? (fld w 4 3).toNat) fun ty => .ok (.vsqrt (fld w 19 6) (fld w 13 6) ty (fld w 0 4))
  | 0x27 => zeroed (fld w 7 6 = 0) <| reading (TyT.ofCode? (fld w 4 3).toNat) fun ty => .ok (.vtanh (fld w 19 6) (fld w 13 6) ty (fld w 0 4))
  | 0x28 => zeroed (fld w 7 6 = 0) <| reading (TyT.ofCode? (fld w 4 3).toNat) fun ty => .ok (.vsigm (fld w 19 6) (fld w 13 6) ty (fld w 0 4))
  | 0x30 => .ok (.vld (fld w 19 6) (fld w 14 5) (flag w 13) (fld w 11 2) (fld w 4 7) (fld w 0 4))
  | 0x31 => .ok (.vst (fld w 19 6) (fld w 14 5) (flag w 13) (fld w 11 2) (fld w 4 7) (fld w 0 4))
  | 0x32 => zeroed (fld w 17 2 = 0 ∧ fld w 4 9 = 0) <| .ok (.vldrb (fld w 19 6) (fld w 13 4) (fld w 0 4))
  | 0x33 => zeroed (fld w 24 1 = 0 ∧ fld w 0 4 = 0) <| reading (TyI.ofCode? (fld w 4 3).toNat) fun ty => .ok (.vget (fld w 19 5) (fld w 13 6) (flag w 12) (fld w 7 5) ty)
  | _ => .error .reservedOpcode

/-- The M-slot map (R89-R91), by the major opcode in bits [31:25]. -/
def decodeM (w : Word32) : Except Reject Instr :=
  match (fld w 25 7).toNat with
  | 0x00 => if w = 0 then .ok .nop else .error .zeroOpcode
  | 0x01 => reading (RetAct.ofCode? (fld w 0 3).toNat) fun ret => .ok (.mldw (fld w 19 6) (fld w 13 6) (fld w 7 6) (fld w 3 4) ret)
  | 0x02 => reading (RetAct.ofCode? (fld w 0 3).toNat) fun ret => .ok (.mma (fld w 19 6) (fld w 13 6) (fld w 7 6) (fld w 3 4) ret)
  | 0x03 => reading (RetAct.ofCode? (fld w 0 3).toNat) fun ret => .ok (.mmag (fld w 19 6) (fld w 13 6) (fld w 7 6) (fld w 3 4) ret)
  | 0x04 => reading (RetAct.ofCode? (fld w 0 3).toNat) fun ret => .ok (.mmah (fld w 19 6) (fld w 13 6) (fld w 7 6) (fld w 3 4) ret)
  | 0x05 => reading (RetAct.ofCode? (fld w 0 3).toNat) fun ret => .ok (.mzero (fld w 19 6) (fld w 13 6) (fld w 7 6) (fld w 3 4) ret)
  | 0x06 => zeroed (fld w 0 8 = 0) <| reading (HConv.ofCode? (fld w 8 3).toNat) fun conv => .ok (.mhand (fld w 21 4) (fld w 18 3) (fld w 11 7) conv)
  | _ => .error .reservedOpcode

/-- The C-slot map (R89, R91), by the major opcode in bits [31:25]. -/
def decodeC (w : Word32) : Except Reject Instr :=
  match (fld w 25 7).toNat with
  | 0x00 => if w = 0 then .ok .nop else .error .zeroOpcode
  | 0x01 => reading (RetAct.ofCode? (fld w 0 3).toNat) fun ret => .ok (.cpy (fld w 19 6) (fld w 13 6) (fld w 7 6) (fld w 3 4) ret)
  | 0x02 => reading (RetAct.ofCode? (fld w 0 3).toNat) fun ret => .ok (.csel (fld w 19 6) (fld w 13 6) (fld w 7 6) (fld w 3 4) ret)
  | 0x03 => reading (RetAct.ofCode? (fld w 0 3).toNat) fun ret => .ok (.cgth (fld w 19 6) (fld w 13 6) (fld w 7 6) (fld w 3 4) ret)
  | 0x04 => reading (RetAct.ofCode? (fld w 0 3).toNat) fun ret => .ok (.csct (fld w 19 6) (fld w 13 6) (fld w 7 6) (fld w 3 4) ret)
  | 0x05 => reading (RetAct.ofCode? (fld w 0 3).toNat) fun ret => .ok (.cqf (fld w 19 6) (fld w 13 6) (fld w 7 6) (fld w 3 4) ret)
  | 0x06 => reading (RetAct.ofCode? (fld w 0 3).toNat) fun ret => .ok (.ccol (fld w 19 6) (fld w 13 6) (fld w 7 6) (fld w 3 4) ret)
  | _ => .error .reservedOpcode

/-- Opcode 0x03 of the X-slot map (R92, R93), by its sub-function in bits [6:6]. -/
def decodeX03 (w : Word32) : Except Reject Instr :=
  match (fld w 6 1).toNat with
  | 0x00 => zeroed (fld w 20 5 = 0 ∧ fld w 10 5 = 0 ∧ fld w 8 1 = 0) <| .ok (.semadd (fld w 15 5) (flag w 9) (flag w 7) (fld w 0 6))
  | 0x01 => zeroed (fld w 20 5 = 0) <| .ok (.semaddRemote (fld w 15 5) (fld w 10 5) (flag w 9) (flag w 8) (flag w 7) (fld w 0 6))
  | _ => .error .reservedValue

/-- The X-slot map (R92, R93), by the major opcode in bits [31:25]. -/
def decodeX (w : Word32) : Except Reject Instr :=
  match (fld w 25 7).toNat with
  | 0x00 => if w = 0 then .ok .nop else .error .zeroOpcode
  | 0x01 => zeroed (fld w 0 20 = 0) <| .ok (.wait (fld w 20 5))
  | 0x02 => zeroed (fld w 20 5 = 0 ∧ fld w 4 4 = 0) <| .ok (.watch (fld w 15 5) (fld w 10 5) (flag w 9) (flag w 8) (flag w 3) (fld w 0 3))
  | 0x03 => decodeX03 w
  | 0x04 => zeroed (fld w 20 5 = 0 ∧ fld w 10 5 = 0 ∧ fld w 6 3 = 0) <| .ok (.semwt (fld w 15 5) (flag w 9) (fld w 0 6))
  | 0x05 => zeroed (fld w 10 5 = 0 ∧ fld w 6 3 = 0) <| .ok (.semtst (fld w 20 5) (fld w 15 5) (flag w 9) (fld w 0 6))
  | 0x06 => zeroed (fld w 20 5 = 0 ∧ fld w 10 5 = 0 ∧ fld w 6 3 = 0) <| .ok (.semset (fld w 15 5) (flag w 9) (fld w 0 6))
  | 0x07 => zeroed (fld w 6 14 = 0) <| .ok (.semrd (fld w 20 5) (fld w 0 6))
  | 0x08 => zeroed (fld w 3 22 = 0) <| .ok (.bar (fld w 0 3))
  | 0x09 => zeroed (fld w 0 6 = 0) <| reading (Scope.ofCode? (fld w 6 3).toNat) fun sc => .ok (.fence (fld w 17 8) (fld w 9 8) sc)
  | 0x0a => zeroed (fld w 9 16 = 0 ∧ fld w 0 6 = 0) <| reading (Scope.ofCode? (fld w 6 3).toNat) fun sc => .ok (.drain sc)
  | 0x0b => zeroed (fld w 6 19 = 0) <| .ok (.cwait (fld w 0 6))
  | 0x0c => zeroed (fld w 20 5 = 0 ∧ fld w 10 5 = 0 ∧ fld w 4 5 = 0) <| .ok (.gset (fld w 15 5) (flag w 9) (fld w 0 4))
  | 0x0d => zeroed (fld w 20 5 = 0 ∧ fld w 10 5 = 0 ∧ fld w 0 9 = 0) <| .ok (.kld (fld w 15 5) (flag w 9))
  | 0x0e => zeroed (fld w 20 5 = 0 ∧ fld w 10 5 = 0 ∧ fld w 0 9 = 0) <| .ok (.cbkld (fld w 15 5) (flag w 9))
  | 0x0f => zeroed (fld w 20 5 = 0 ∧ fld w 10 5 = 0 ∧ fld w 4 5 = 0) <| .ok (.yld (fld w 15 5) (flag w 9) (fld w 0 4))
  | 0x10 => zeroed (fld w 20 5 = 0 ∧ fld w 10 5 = 0 ∧ fld w 7 2 = 0) <| .ok (.yset (fld w 15 5) (flag w 9) (fld w 4 3) (fld w 0 4))
  | 0x11 => zeroed (fld w 20 5 = 0 ∧ fld w 10 5 = 0 ∧ fld w 3 6 = 0) <| .ok (.cbset (fld w 15 5) (flag w 9) (fld w 0 3))
  | 0x12 => zeroed (fld w 3 17 = 0) <| .ok (.cbwait (fld w 20 5) (fld w 0 3))
  | 0x13 => zeroed (fld w 3 22 = 0) <| .ok (.cbrel (fld w 0 3))
  | 0x14 => zeroed (fld w 20 5 = 0 ∧ fld w 10 5 = 0 ∧ fld w 8 1 = 0 ∧ fld w 0 7 = 0) <| .ok (.cqpush (fld w 15 5) (flag w 9) (flag w 7))
  | 0x15 => zeroed (fld w 20 5 = 0 ∧ fld w 10 5 = 0 ∧ fld w 8 1 = 0 ∧ fld w 0 7 = 0) <| .ok (.tdec (fld w 15 5) (flag w 9) (flag w 7))
  | 0x16 => zeroed (fld w 0 25 = 0) <| .ok (.ckpt)
  | 0x17 => zeroed (fld w 4 21 = 0) <| .ok (.yield (fld w 0 4))
  | 0x18 => zeroed (fld w 20 5 = 0 ∧ fld w 0 7 = 0) <| .ok (.sqpush (fld w 15 5) (fld w 10 5) (flag w 9) (flag w 8) (flag w 7))
  | 0x19 => zeroed (fld w 4 21 = 0) <| .ok (.tktst (fld w 0 4))
  | 0x1a => zeroed (fld w 0 20 = 0) <| .ok (.tkget (fld w 20 5))
  | 0x1b => zeroed (fld w 20 5 = 0 ∧ fld w 5 2 = 0) <| .ok (.sxapp (fld w 15 5) (fld w 10 5) (flag w 9) (flag w 8) (flag w 7) (fld w 0 5))
  | 0x1c => zeroed (fld w 5 3 = 0) <| .ok (.sxqry (fld w 20 5) (fld w 15 5) (fld w 10 5) (flag w 9) (flag w 8) (fld w 0 5))
  | 0x1d => zeroed (fld w 20 5 = 0 ∧ fld w 0 8 = 0) <| .ok (.sxcfg (fld w 15 5) (fld w 10 5) (flag w 9) (flag w 8))
  | 0x1e => zeroed (fld w 20 5 = 0 ∧ fld w 0 8 = 0) <| .ok (.sxsave (fld w 15 5) (fld w 10 5) (flag w 9) (flag w 8))
  | 0x1f => zeroed (fld w 20 5 = 0 ∧ fld w 0 8 = 0) <| .ok (.sxload (fld w 15 5) (fld w 10 5) (flag w 9) (flag w 8))
  | 0x20 => zeroed (fld w 10 5 = 0 ∧ fld w 0 9 = 0) <| .ok (.sxstat (fld w 20 5) (fld w 15 5) (flag w 9))
  | 0x21 => zeroed (fld w 20 5 = 0 ∧ fld w 10 5 = 0 ∧ fld w 3 6 = 0) <| .ok (.evsel (fld w 15 5) (flag w 9) (fld w 0 3))
  | 0x22 => zeroed (fld w 0 20 = 0) <| .ok (.sqpop (fld w 20 5))
  | 0x23 => zeroed (fld w 20 5 = 0 ∧ fld w 0 8 = 0) <| .ok (.tkput (fld w 15 5) (fld w 10 5) (flag w 9) (flag w 8))
  | _ => .error .reservedOpcode

/-- A slot word read by its slot's map, before the operand ranges are checked. -/
def decodeMap : SlotKind → Word32 → Except Reject Instr
  | .S, w => decodeS w
  | .A, w => decodeA w
  | .V, w => decodeV w
  | .M, w => decodeM w
  | .C, w => decodeC w
  | .X, w => decodeX w

/-- The decoder: the instruction of a word in a slot of the given kind, or the name of the R69 case that refuses it. -/
def decode (k : SlotKind) (w : Word32) : Except Reject Instr :=
  match decodeMap k w with
  | .ok i => if i.wellFormed then .ok i else .error .outOfRange
  | .error e => .error e

/-- The kind of slot an instruction stands in; NOP stands in every slot and is given as S, and the steps of the other
agents stand in none (R67). -/
def Instr.slotKind : Instr → Option SlotKind
  | .nop => some .S
  | .add _ _ _ _ _ => some .S
  | .sub _ _ _ _ _ => some .S
  | .and _ _ _ _ _ => some .S
  | .or _ _ _ _ _ => some .S
  | .xor _ _ _ _ _ => some .S
  | .andn _ _ _ _ _ => some .S
  | .shl _ _ _ _ _ => some .S
  | .shr _ _ _ _ _ => some .S
  | .sra _ _ _ _ _ => some .S
  | .rol _ _ _ _ _ => some .S
  | .min _ _ _ _ _ => some .S
  | .max _ _ _ _ _ => some .S
  | .minu _ _ _ _ _ => some .S
  | .maxu _ _ _ _ _ => some .S
  | .mul _ _ _ _ _ => some .S
  | .mulh _ _ _ _ _ => some .S
  | .mulhu _ _ _ _ _ => some .S
  | .div _ _ _ _ _ => some .S
  | .divu _ _ _ _ _ => some .S
  | .rem _ _ _ _ _ => some .S
  | .remu _ _ _ _ _ => some .S
  | .clz _ _ _ => some .S
  | .ctz _ _ _ => some .S
  | .popc _ _ _ => some .S
  | .brev _ _ _ => some .S
  | .sextb _ _ _ => some .S
  | .sexth _ _ _ => some .S
  | .sextw _ _ _ => some .S
  | .zextb _ _ _ => some .S
  | .zexth _ _ _ => some .S
  | .zextw _ _ _ => some .S
  | .mov _ _ _ => some .S
  | .addi _ _ _ _ => some .S
  | .andi _ _ _ _ => some .S
  | .ori _ _ _ _ => some .S
  | .xori _ _ _ _ => some .S
  | .shli _ _ _ _ => some .S
  | .shri _ _ _ _ => some .S
  | .srai _ _ _ _ => some .S
  | .li _ _ => some .S
  | .liu _ _ => some .S
  | .bfx _ _ _ _ _ => some .S
  | .bfi _ _ _ _ _ => some .S
  | .fsh _ _ _ _ _ _ => some .S
  | .fshi _ _ _ _ _ _ => some .S
  | .scmp _ _ _ _ _ _ => some .S
  | .scmpi _ _ _ _ _ => some .S
  | .plog _ _ _ _ => some .S
  | .sel _ _ _ _ _ _ => some .S
  | .ld _ _ _ _ _ _ _ => some .S
  | .st _ _ _ _ _ _ => some .S
  | .ldv _ _ _ _ => some .S
  | .valid _ _ => some .S
  | .valst _ _ _ _ _ _ => some .S
  | .casv _ _ _ _ _ _ => some .S
  | .clrv _ => some .S
  | .br _ _ _ => some .S
  | .call _ _ _ => some .S
  | .lexit _ _ _ => some .S
  | .jr _ _ => some .S
  | .jalr _ _ _ => some .S
  | .ret => some .S
  | .loop _ _ _ _ => some .S
  | .loopi _ _ _ => some .S
  | .loopq _ _ => some .S
  | .setvrb _ => some .S
  | .setprb _ => some .S
  | .clrrb => some .S
  | .mfsr _ _ => some .S
  | .mtsr _ _ _ => some .S
  | .trap _ => some .S
  | .sys _ => some .S
  | .rett => some .S
  | .endTask => some .S
  | .fadd _ _ _ _ _ _ => some .S
  | .fsub _ _ _ _ _ _ => some .S
  | .fmul _ _ _ _ _ _ => some .S
  | .fdiv _ _ _ _ _ _ => some .S
  | .fmin _ _ _ _ _ _ => some .S
  | .fmax _ _ _ _ _ _ => some .S
  | .fminn _ _ _ _ _ _ => some .S
  | .fmaxn _ _ _ _ _ _ => some .S
  | .fsqrt _ _ _ _ => some .S
  | .fcmp _ _ _ _ _ _ _ _ => some .S
  | .fcvt _ _ _ _ _ => some .S
  | .amov _ _ _ => some .A
  | .aadd _ _ _ _ _ => some .A
  | .aaddi _ _ _ _ => some .A
  | .ali _ _ => some .A
  | .aliu _ _ => some .A
  | .astep _ => some .A
  | .amode _ _ _ _ => some .A
  | .dset _ _ => some .A
  | .dmov _ _ _ => some .A
  | .wsetb _ _ _ => some .A
  | .wsetl _ _ _ => some .A
  | .ard _ _ _ => some .A
  | .vadd _ _ _ _ _ => some .V
  | .vsub _ _ _ _ _ => some .V
  | .vmul _ _ _ _ _ => some .V
  | .vfma _ _ _ _ _ => some .V
  | .vfms _ _ _ _ _ => some .V
  | .vmin _ _ _ _ _ => some .V
  | .vmax _ _ _ _ _ => some .V
  | .vminn _ _ _ _ _ => some .V
  | .vmaxn _ _ _ _ _ => some .V
  | .vabs _ _ _ _ => some .V
  | .vneg _ _ _ _ => some .V
  | .vand _ _ _ _ _ => some .V
  | .vor _ _ _ _ _ => some .V
  | .vxor _ _ _ _ _ => some .V
  | .vandn _ _ _ _ _ => some .V
  | .vshl _ _ _ _ _ => some .V
  | .vshr _ _ _ _ _ => some .V
  | .vsra _ _ _ _ _ => some .V
  | .vfsh _ _ _ _ _ => some .V
  | .vbfx _ _ _ _ _ => some .V
  | .vcmp _ _ _ _ _ _ => some .V
  | .vsel _ _ _ _ _ => some .V
  | .vcvt _ _ _ _ _ _ => some .V
  | .vmov _ _ _ _ => some .V
  | .vspl _ _ _ _ _ => some .V
  | .vidx _ _ _ => some .V
  | .vcls _ _ _ _ => some .V
  | .vrnd _ _ _ => some .V
  | .vscale _ _ _ _ _ => some .V
  | .vaddSat _ _ _ _ _ => some .V
  | .vsubSat _ _ _ _ _ => some .V
  | .vln _ _ _ _ => some .V
  | .vexp _ _ _ _ => some .V
  | .vlog2 _ _ _ _ => some .V
  | .vexp2 _ _ _ _ => some .V
  | .vrcp _ _ _ _ => some .V
  | .vrsq _ _ _ _ => some .V
  | .vsqrt _ _ _ _ => some .V
  | .vtanh _ _ _ _ => some .V
  | .vsigm _ _ _ _ => some .V
  | .vld _ _ _ _ _ _ => some .V
  | .vst _ _ _ _ _ _ => some .V
  | .vldrb _ _ _ => some .V
  | .vget _ _ _ _ _ => some .V
  | .mldw _ _ _ _ _ => some .M
  | .mma _ _ _ _ _ => some .M
  | .mmag _ _ _ _ _ => some .M
  | .mmah _ _ _ _ _ => some .M
  | .mzero _ _ _ _ _ => some .M
  | .mhand _ _ _ _ => some .M
  | .cpy _ _ _ _ _ => some .C
  | .csel _ _ _ _ _ => some .C
  | .cgth _ _ _ _ _ => some .C
  | .csct _ _ _ _ _ => some .C
  | .cqf _ _ _ _ _ => some .C
  | .ccol _ _ _ _ _ => some .C
  | .wait _ => some .X
  | .watch _ _ _ _ _ _ => some .X
  | .semadd _ _ _ _ => some .X
  | .semaddRemote _ _ _ _ _ _ => some .X
  | .semwt _ _ _ => some .X
  | .semtst _ _ _ _ => some .X
  | .semset _ _ _ => some .X
  | .semrd _ _ => some .X
  | .bar _ => some .X
  | .fence _ _ _ => some .X
  | .drain _ => some .X
  | .cwait _ => some .X
  | .gset _ _ _ => some .X
  | .kld _ _ => some .X
  | .cbkld _ _ => some .X
  | .yld _ _ _ => some .X
  | .yset _ _ _ _ => some .X
  | .cbset _ _ _ => some .X
  | .cbwait _ _ => some .X
  | .cbrel _ => some .X
  | .cqpush _ _ _ => some .X
  | .tdec _ _ _ => some .X
  | .ckpt => some .X
  | .yield _ => some .X
  | .sqpush _ _ _ _ _ => some .X
  | .tktst _ => some .X
  | .tkget _ => some .X
  | .sxapp _ _ _ _ _ _ => some .X
  | .sxqry _ _ _ _ _ _ => some .X
  | .sxcfg _ _ _ _ => some .X
  | .sxsave _ _ _ _ => some .X
  | .sxload _ _ _ _ => some .X
  | .sxstat _ _ _ => some .X
  | .evsel _ _ _ => some .X
  | .sqpop _ => some .X
  | .tkput _ _ _ _ => some .X
  | .fixedLatencyLanding _ => none
  | .variableLatencyLanding _ _ => none
  | .scratchpadStorePerform _ => none
  | .writePerformAtHome _ _ => none
  | .remoteSemaddArrival _ _ => none
  | .tokenLanding _ => none
  | .suffixOpPerform _ _ => none
  | .pageWalk _ => none
  | .imemReload _ => none
  | .engineDispatch _ _ => none
  | .engineRetire _ _ => none
  | .gatherPartReply _ _ _ => none
  | .chunkReceive _ _ _ _ _ _ _ => none
  | .taskDecrement _ => none
  | .schedulerPlace _ _ => none
  | .dieFreeRequest _ _ => none
  | .phaseSliceExpiry _ => none
  | .quantumExpiry _ => none
  | .taskRetire _ => none
  | .trapEntry _ _ _ => none
  | .taskKill _ => none
  | .taskSuspend _ => none
  | .yieldRequeue _ => none
  | .checkpointSnapshot _ => none
  | .datapathError _ => none
  | .pageMigration _ _ => none
  | .linkDown _ _ => none
  | .functionReady _ _ => none
  | .powerLimitChange _ _ _ => none
  | .hostMemWrite _ _ => none
  | .hostMemRead _ _ => none
  | .fwload => none
  | .reset => none
  | .run => none
  | .hifErrClear _ => none
  | .featureAcceptWrite _ _ => none
  | .hifTdecWrite _ _ => none
  | .hifTdecQueueHead => none
  | .ptrootWrite _ => none
  | .tlbInvalidateVpn _ => none
  | .tlbInvalidateAll => none
  | .tlbInvalidationDone => none
  | .l2SplitWrite _ _ => none
  | .l2SplitApply _ => none
  | .fabricRankWrite _ _ => none
  | .keyLoad _ => none
  | .keyClear _ => none
  | .keyCommandDone => none
  | .compStart _ _ => none
  | .poisonClear _ => none
  | .poisonClearDone => none
  | .fgrpWrite _ _ => none
  | .devselWrite _ _ _ => none
  | .ckeSaveStart _ => none
  | .ckeRestoreStart _ => none
  | .ckeAbort => none
  | .ckeRunBegin => none
  | .ckeRunEnd => none
  | .islRequestWrite _ _ _ => none
  | .hifRegisterWrite _ _ _ => none
  | .faultRingRoom _ => none
  | .poisonedAcknowledgementPath _ => none

/-- The encoder: the slot word of an instruction (R72-R93); a step of another agent has none. -/
def encode : Instr → Option Word32
  | .nop => some 0
  | .add d a b ta tb => some (1#7 ++ d ++ a ++ b ++ ofBool ta ++ ofBool tb ++ 0#8)
  | .sub d a b ta tb => some (1#7 ++ d ++ a ++ b ++ ofBool ta ++ ofBool tb ++ 1#8)
  | .and d a b ta tb => some (1#7 ++ d ++ a ++ b ++ ofBool ta ++ ofBool tb ++ 2#8)
  | .or d a b ta tb => some (1#7 ++ d ++ a ++ b ++ ofBool ta ++ ofBool tb ++ 3#8)
  | .xor d a b ta tb => some (1#7 ++ d ++ a ++ b ++ ofBool ta ++ ofBool tb ++ 4#8)
  | .andn d a b ta tb => some (1#7 ++ d ++ a ++ b ++ ofBool ta ++ ofBool tb ++ 5#8)
  | .shl d a b ta tb => some (1#7 ++ d ++ a ++ b ++ ofBool ta ++ ofBool tb ++ 6#8)
  | .shr d a b ta tb => some (1#7 ++ d ++ a ++ b ++ ofBool ta ++ ofBool tb ++ 7#8)
  | .sra d a b ta tb => some (1#7 ++ d ++ a ++ b ++ ofBool ta ++ ofBool tb ++ 8#8)
  | .rol d a b ta tb => some (1#7 ++ d ++ a ++ b ++ ofBool ta ++ ofBool tb ++ 9#8)
  | .min d a b ta tb => some (1#7 ++ d ++ a ++ b ++ ofBool ta ++ ofBool tb ++ 0xa#8)
  | .max d a b ta tb => some (1#7 ++ d ++ a ++ b ++ ofBool ta ++ ofBool tb ++ 0xb#8)
  | .minu d a b ta tb => some (1#7 ++ d ++ a ++ b ++ ofBool ta ++ ofBool tb ++ 0xc#8)
  | .maxu d a b ta tb => some (1#7 ++ d ++ a ++ b ++ ofBool ta ++ ofBool tb ++ 0xd#8)
  | .mul d a b ta tb => some (1#7 ++ d ++ a ++ b ++ ofBool ta ++ ofBool tb ++ 0xe#8)
  | .mulh d a b ta tb => some (1#7 ++ d ++ a ++ b ++ ofBool ta ++ ofBool tb ++ 0xf#8)
  | .mulhu d a b ta tb => some (1#7 ++ d ++ a ++ b ++ ofBool ta ++ ofBool tb ++ 0x10#8)
  | .div d a b ta tb => some (1#7 ++ d ++ a ++ b ++ ofBool ta ++ ofBool tb ++ 0x11#8)
  | .divu d a b ta tb => some (1#7 ++ d ++ a ++ b ++ ofBool ta ++ ofBool tb ++ 0x12#8)
  | .rem d a b ta tb => some (1#7 ++ d ++ a ++ b ++ ofBool ta ++ ofBool tb ++ 0x13#8)
  | .remu d a b ta tb => some (1#7 ++ d ++ a ++ b ++ ofBool ta ++ ofBool tb ++ 0x14#8)
  | .clz d a ta => some (2#7 ++ d ++ a ++ 0#5 ++ ofBool ta ++ 0#1 ++ 0#8)
  | .ctz d a ta => some (2#7 ++ d ++ a ++ 0#5 ++ ofBool ta ++ 0#1 ++ 1#8)
  | .popc d a ta => some (2#7 ++ d ++ a ++ 0#5 ++ ofBool ta ++ 0#1 ++ 2#8)
  | .brev d a ta => some (2#7 ++ d ++ a ++ 0#5 ++ ofBool ta ++ 0#1 ++ 3#8)
  | .sextb d a ta => some (2#7 ++ d ++ a ++ 0#5 ++ ofBool ta ++ 0#1 ++ 4#8)
  | .sexth d a ta => some (2#7 ++ d ++ a ++ 0#5 ++ ofBool ta ++ 0#1 ++ 5#8)
  | .sextw d a ta => some (2#7 ++ d ++ a ++ 0#5 ++ ofBool ta ++ 0#1 ++ 6#8)
  | .zextb d a ta => some (2#7 ++ d ++ a ++ 0#5 ++ ofBool ta ++ 0#1 ++ 7#8)
  | .zexth d a ta => some (2#7 ++ d ++ a ++ 0#5 ++ ofBool ta ++ 0#1 ++ 8#8)
  | .zextw d a ta => some (2#7 ++ d ++ a ++ 0#5 ++ ofBool ta ++ 0#1 ++ 9#8)
  | .mov d a ta => some (2#7 ++ d ++ a ++ 0#5 ++ ofBool ta ++ 0#1 ++ 0xa#8)
  | .addi d a ta imm => some (3#7 ++ d ++ a ++ ofBool ta ++ imm)
  | .andi d a ta imm => some (4#7 ++ d ++ a ++ ofBool ta ++ imm)
  | .ori d a ta imm => some (5#7 ++ d ++ a ++ ofBool ta ++ imm)
  | .xori d a ta imm => some (6#7 ++ d ++ a ++ ofBool ta ++ imm)
  | .shli d a ta sh => some (7#7 ++ d ++ a ++ ofBool ta ++ 0#8 ++ sh)
  | .shri d a ta sh => some (8#7 ++ d ++ a ++ ofBool ta ++ 0#8 ++ sh)
  | .srai d a ta sh => some (9#7 ++ d ++ a ++ ofBool ta ++ 0#8 ++ sh)
  | .li d imm => some (0xa#7 ++ d ++ imm)
  | .liu d imm => some (0xb#7 ++ d ++ imm)
  | .bfx d a ta p wm1 => some (0xc#7 ++ d ++ a ++ ofBool ta ++ 0#2 ++ wm1 ++ p)
  | .bfi d a ta p wm1 => some (0xd#7 ++ d ++ a ++ ofBool ta ++ 0#2 ++ wm1 ++ p)
  | .fsh d a b ta tb c => some (0xe#7 ++ d ++ a ++ b ++ ofBool ta ++ ofBool tb ++ 0#3 ++ c)
  | .fshi d a b ta tb n => some (0xf#7 ++ d ++ a ++ b ++ ofBool ta ++ ofBool tb ++ 0#2 ++ n)
  | .scmp p a b ta tb cc => some (0x10#7 ++ 0#1 ++ p ++ a ++ b ++ ofBool ta ++ ofBool tb ++ 0#4 ++ ofNat 4 cc.code)
  | .scmpi p a ta cc imm => some (0x11#7 ++ 0#1 ++ p ++ a ++ ofBool ta ++ ofNat 3 cc.code ++ imm)
  | .plog p pa pb f => some (0x12#7 ++ 0#1 ++ p ++ 0#1 ++ pa ++ 0#1 ++ pb ++ 0#2 ++ ofNat 8 f.code)
  | .sel d a b ta tb p => some (0x13#7 ++ d ++ a ++ b ++ ofBool ta ++ ofBool tb ++ 0#4 ++ p)
  | .ld d a pm ac sz sx off => some (0x14#7 ++ d ++ a ++ ofBool pm ++ ac ++ sz ++ ofBool sx ++ off)
  | .st d a pm ac sz off => some (0x15#7 ++ d ++ a ++ ofBool pm ++ ac ++ sz ++ 0#1 ++ off)
  | .ldv d a ta k => some (0x16#7 ++ d ++ a ++ 0#5 ++ ofBool ta ++ 0#6 ++ k)
  | .valid d mask => some (0x17#7 ++ d ++ 0#12 ++ mask)
  | .valst d a b ta tb mask => some (0x18#7 ++ d ++ a ++ b ++ ofBool ta ++ ofBool tb ++ mask)
  | .casv d a b ta tb k => some (0x19#7 ++ d ++ a ++ b ++ ofBool ta ++ ofBool tb ++ 0#5 ++ k)
  | .clrv mask => some (0x1a#7 ++ 0#17 ++ mask)
  | .br p neg disp => some (0x1b#7 ++ p ++ ofBool neg ++ disp)
  | .call p neg disp => some (0x1c#7 ++ p ++ ofBool neg ++ disp)
  | .lexit p neg disp => some (0x1f#7 ++ p ++ ofBool neg ++ disp)
  | .jr a ta => some (0x1d#7 ++ 0#5 ++ a ++ 0#5 ++ ofBool ta ++ 0#1 ++ 0#8)
  | .jalr d a ta => some (0x1d#7 ++ d ++ a ++ 0#5 ++ ofBool ta ++ 0#1 ++ 1#8)
  | .ret => some (0x1d#7 ++ 0#17 ++ 2#8)
  | .loop rot len t n => some (0x1e#7 ++ 0#2 ++ ofBool rot ++ len ++ 0#6 ++ ofBool t ++ n)
  | .loopi rot len n => some (0x1e#7 ++ 1#2 ++ ofBool rot ++ len ++ n)
  | .loopq rot len => some (0x1e#7 ++ 2#2 ++ ofBool rot ++ len ++ 0#12)
  | .setvrb n => some (0x20#7 ++ 0#5 ++ 0#15 ++ n)
  | .setprb n => some (0x20#7 ++ 1#5 ++ 0#17 ++ n)
  | .clrrb => some (0x20#7 ++ 2#5 ++ 0#20)
  | .mfsr d n => some (0x21#7 ++ d ++ 0#8 ++ n)
  | .mtsr a ta n => some (0x22#7 ++ 0#5 ++ a ++ ofBool ta ++ 0#2 ++ n)
  | .trap code => some (0x23#7 ++ 0#5 ++ code)
  | .sys code => some (0x24#7 ++ 0#5 ++ code)
  | .rett => some (0x25#7 ++ 0#25)
  | .endTask => some (0x26#7 ++ 0#25)
  | .fadd d a b ta tb dbl => some (0x27#7 ++ d ++ a ++ b ++ ofBool ta ++ ofBool tb ++ 0#3 ++ ofBool dbl ++ 0#4)
  | .fsub d a b ta tb dbl => some (0x27#7 ++ d ++ a ++ b ++ ofBool ta ++ ofBool tb ++ 0#3 ++ ofBool dbl ++ 1#4)
  | .fmul d a b ta tb dbl => some (0x27#7 ++ d ++ a ++ b ++ ofBool ta ++ ofBool tb ++ 0#3 ++ ofBool dbl ++ 2#4)
  | .fdiv d a b ta tb dbl => some (0x27#7 ++ d ++ a ++ b ++ ofBool ta ++ ofBool tb ++ 0#3 ++ ofBool dbl ++ 3#4)
  | .fmin d a b ta tb dbl => some (0x27#7 ++ d ++ a ++ b ++ ofBool ta ++ ofBool tb ++ 0#3 ++ ofBool dbl ++ 4#4)
  | .fmax d a b ta tb dbl => some (0x27#7 ++ d ++ a ++ b ++ ofBool ta ++ ofBool tb ++ 0#3 ++ ofBool dbl ++ 5#4)
  | .fminn d a b ta tb dbl => some (0x27#7 ++ d ++ a ++ b ++ ofBool ta ++ ofBool tb ++ 0#3 ++ ofBool dbl ++ 6#4)
  | .fmaxn d a b ta tb dbl => some (0x27#7 ++ d ++ a ++ b ++ ofBool ta ++ ofBool tb ++ 0#3 ++ ofBool dbl ++ 7#4)
  | .fsqrt d a ta dbl => some (0x27#7 ++ d ++ a ++ 0#5 ++ ofBool ta ++ 0#4 ++ ofBool dbl ++ 8#4)
  | .fcmp toS d a b ta tb dbl cc => some (0x28#7 ++ ofBool toS ++ d ++ a ++ b ++ ofBool ta ++ ofBool tb ++ 0#3 ++ ofBool dbl ++ 0#1 ++ ofNat 3 cc.code)
  | .fcvt d a ta cv rnd => some (0x29#7 ++ d ++ a ++ 0#5 ++ ofBool ta ++ 0#1 ++ ofNat 5 cv.code ++ ofNat 3 rnd.code)
  | .amov d a ta => some (1#7 ++ d ++ a ++ 0#5 ++ ofBool ta ++ 0#9)
  | .aadd d a b ta tb => some (2#7 ++ d ++ a ++ b ++ ofBool ta ++ ofBool tb ++ 0#8)
  | .aaddi d a ta imm => some (3#7 ++ d ++ a ++ ofBool ta ++ imm)
  | .ali d imm => some (4#7 ++ d ++ imm)
  | .aliu d imm => some (5#7 ++ d ++ imm)
  | .astep d => some (6#7 ++ d ++ 0#20)
  | .amode a mode dk param => some (7#7 ++ a ++ mode ++ dk ++ param ++ 0#8)
  | .dset dk imm => some (8#7 ++ 0#1 ++ dk ++ imm)
  | .dmov dk a ta => some (9#7 ++ 0#1 ++ dk ++ a ++ 0#5 ++ ofBool ta ++ 0#9)
  | .wsetb wk a ta => some (0xa#7 ++ 0#2 ++ wk ++ a ++ 0#5 ++ ofBool ta ++ 0#9)
  | .wsetl wk a ta => some (0xb#7 ++ 0#2 ++ wk ++ a ++ 0#5 ++ ofBool ta ++ 0#9)
  | .ard d a ta => some (0xc#7 ++ d ++ a ++ 0#5 ++ ofBool ta ++ 0#9)
  | .vadd d a b ty m => some (1#7 ++ d ++ a ++ b ++ ofNat 3 ty.code ++ m)
  | .vsub d a b ty m => some (2#7 ++ d ++ a ++ b ++ ofNat 3 ty.code ++ m)
  | .vmul d a b ty m => some (3#7 ++ d ++ a ++ b ++ ofNat 3 ty.code ++ m)
  | .vfma d a b ty m => some (4#7 ++ d ++ a ++ b ++ ofNat 3 ty.code ++ m)
  | .vfms d a b ty m => some (5#7 ++ d ++ a ++ b ++ ofNat 3 ty.code ++ m)
  | .vmin d a b ty m => some (6#7 ++ d ++ a ++ b ++ ofNat 3 ty.code ++ m)
  | .vmax d a b ty m => some (7#7 ++ d ++ a ++ b ++ ofNat 3 ty.code ++ m)
  | .vminn d a b ty m => some (8#7 ++ d ++ a ++ b ++ ofNat 3 ty.code ++ m)
  | .vmaxn d a b ty m => some (9#7 ++ d ++ a ++ b ++ ofNat 3 ty.code ++ m)
  | .vabs d a ty m => some (0xa#7 ++ d ++ a ++ 0#6 ++ ofNat 3 ty.code ++ m)
  | .vneg d a ty m => some (0xb#7 ++ d ++ a ++ 0#6 ++ ofNat 3 ty.code ++ m)
  | .vand d a b ty m => some (0xc#7 ++ d ++ a ++ b ++ ofNat 3 ty.code ++ m)
  | .vor d a b ty m => some (0xd#7 ++ d ++ a ++ b ++ ofNat 3 ty.code ++ m)
  | .vxor d a b ty m => some (0xe#7 ++ d ++ a ++ b ++ ofNat 3 ty.code ++ m)
  | .vandn d a b ty m => some (0xf#7 ++ d ++ a ++ b ++ ofNat 3 ty.code ++ m)
  | .vshl d a b ty m => some (0x10#7 ++ d ++ a ++ b ++ ofNat 3 ty.code ++ m)
  | .vshr d a b ty m => some (0x11#7 ++ d ++ a ++ b ++ ofNat 3 ty.code ++ m)
  | .vsra d a b ty m => some (0x12#7 ++ d ++ a ++ b ++ ofNat 3 ty.code ++ m)
  | .vfsh d a b ty m => some (0x13#7 ++ d ++ a ++ b ++ ofNat 3 ty.code ++ m)
  | .vbfx d a b ty m => some (0x14#7 ++ d ++ a ++ b ++ ofNat 3 ty.code ++ m)
  | .vcmp cc p a b ty m => some (0x15#7 ++ ofNat 2 cc.code ++ p ++ a ++ b ++ ofNat 3 ty.code ++ m)
  | .vsel d a b ty m => some (0x16#7 ++ d ++ a ++ b ++ ofNat 3 ty.code ++ m)
  | .vcvt d a dst src sat rnd => some (0x17#7 ++ d ++ a ++ ofNat 4 dst.code ++ ofNat 4 src.code ++ ofBool sat ++ ofNat 3 rnd.code ++ 0#1)
  | .vmov d a ty m => some (0x18#7 ++ d ++ a ++ 0#6 ++ ofNat 3 ty.code ++ m)
  | .vspl d t s ty m => some (0x19#7 ++ d ++ ofBool t ++ s ++ 0#6 ++ ofNat 3 ty.code ++ m)
  | .vidx d ty m => some (0x1a#7 ++ d ++ 0#12 ++ ofNat 3 ty.code ++ m)
  | .vcls d a ty m => some (0x1b#7 ++ d ++ a ++ 0#6 ++ ofNat 3 ty.code ++ m)
  | .vrnd d ty m => some (0x1c#7 ++ d ++ 0#12 ++ ofNat 3 ty.code ++ m)
  | .vscale d a b ty m => some (0x1d#7 ++ d ++ a ++ b ++ ofNat 3 ty.code ++ m)
  | .vaddSat d a b ty m => some (0x1e#7 ++ d ++ a ++ b ++ ofNat 3 ty.code ++ m)
  | .vsubSat d a b ty m => some (0x1f#7 ++ d ++ a ++ b ++ ofNat 3 ty.code ++ m)
  | .vln d a ty m => some (0x20#7 ++ d ++ a ++ 0#6 ++ ofNat 3 ty.code ++ m)
  | .vexp d a ty m => some (0x21#7 ++ d ++ a ++ 0#6 ++ ofNat 3 ty.code ++ m)
  | .vlog2 d a ty m => some (0x22#7 ++ d ++ a ++ 0#6 ++ ofNat 3 ty.code ++ m)
  | .vexp2 d a ty m => some (0x23#7 ++ d ++ a ++ 0#6 ++ ofNat 3 ty.code ++ m)
  | .vrcp d a ty m => some (0x24#7 ++ d ++ a ++ 0#6 ++ ofNat 3 ty.code ++ m)
  | .vrsq d a ty m => some (0x25#7 ++ d ++ a ++ 0#6 ++ ofNat 3 ty.code ++ m)
  | .vsqrt d a ty m => some (0x26#7 ++ d ++ a ++ 0#6 ++ ofNat 3 ty.code ++ m)
  | .vtanh d a ty m => some (0x27#7 ++ d ++ a ++ 0#6 ++ ofNat 3 ty.code ++ m)
  | .vsigm d a ty m => some (0x28#7 ++ d ++ a ++ 0#6 ++ ofNat 3 ty.code ++ m)
  | .vld d a pm ac off m => some (0x30#7 ++ d ++ a ++ ofBool pm ++ ac ++ off ++ m)
  | .vst d a pm ac off m => some (0x31#7 ++ d ++ a ++ ofBool pm ++ ac ++ off ++ m)
  | .vldrb d e m => some (0x32#7 ++ d ++ 0#2 ++ e ++ 0#9 ++ m)
  | .vget s a t i ty => some (0x33#7 ++ 0#1 ++ s ++ a ++ ofBool t ++ i ++ ofNat 3 ty.code ++ 0#4)
  | .mldw cid pa pb y ret => some (1#7 ++ cid ++ pa ++ pb ++ y ++ ofNat 3 ret.code)
  | .mma cid pa pb y ret => some (2#7 ++ cid ++ pa ++ pb ++ y ++ ofNat 3 ret.code)
  | .mmag cid pa pb y ret => some (3#7 ++ cid ++ pa ++ pb ++ y ++ ofNat 3 ret.code)
  | .mmah cid pa pb y ret => some (4#7 ++ cid ++ pa ++ pb ++ y ++ ofNat 3 ret.code)
  | .mzero cid pa pb y ret => some (5#7 ++ cid ++ pa ++ pb ++ y ++ ofNat 3 ret.code)
  | .mhand e tile row0 conv => some (6#7 ++ e ++ tile ++ row0 ++ ofNat 3 conv.code ++ 0#8)
  | .cpy cid pa pb y ret => some (1#7 ++ cid ++ pa ++ pb ++ y ++ ofNat 3 ret.code)
  | .csel cid pa pb y ret => some (2#7 ++ cid ++ pa ++ pb ++ y ++ ofNat 3 ret.code)
  | .cgth cid pa pb y ret => some (3#7 ++ cid ++ pa ++ pb ++ y ++ ofNat 3 ret.code)
  | .csct cid pa pb y ret => some (4#7 ++ cid ++ pa ++ pb ++ y ++ ofNat 3 ret.code)
  | .cqf cid pa pb y ret => some (5#7 ++ cid ++ pa ++ pb ++ y ++ ofNat 3 ret.code)
  | .ccol cid pa pb y ret => some (6#7 ++ cid ++ pa ++ pb ++ y ++ ofNat 3 ret.code)
  | .wait d => some (1#7 ++ d ++ 0#20)
  | .watch a b ta tb on n => some (2#7 ++ 0#5 ++ a ++ b ++ ofBool ta ++ ofBool tb ++ 0#4 ++ ofBool on ++ n)
  | .semadd a ta ck n => some (3#7 ++ 0#5 ++ a ++ 0#5 ++ ofBool ta ++ 0#1 ++ ofBool ck ++ 0#1 ++ n)
  | .semaddRemote a b ta tb ck n => some (3#7 ++ 0#5 ++ a ++ b ++ ofBool ta ++ ofBool tb ++ ofBool ck ++ 1#1 ++ n)
  | .semwt a ta n => some (4#7 ++ 0#5 ++ a ++ 0#5 ++ ofBool ta ++ 0#3 ++ n)
  | .semtst d a ta n => some (5#7 ++ d ++ a ++ 0#5 ++ ofBool ta ++ 0#3 ++ n)
  | .semset a ta n => some (6#7 ++ 0#5 ++ a ++ 0#5 ++ ofBool ta ++ 0#3 ++ n)
  | .semrd d n => some (7#7 ++ d ++ 0#14 ++ n)
  | .bar l => some (8#7 ++ 0#22 ++ l)
  | .fence src dst sc => some (9#7 ++ src ++ dst ++ ofNat 3 sc.code ++ 0#6)
  | .drain sc => some (0xa#7 ++ 0#16 ++ ofNat 3 sc.code ++ 0#6)
  | .cwait n => some (0xb#7 ++ 0#19 ++ n)
  | .gset a ta g => some (0xc#7 ++ 0#5 ++ a ++ 0#5 ++ ofBool ta ++ 0#5 ++ g)
  | .kld a ta => some (0xd#7 ++ 0#5 ++ a ++ 0#5 ++ ofBool ta ++ 0#9)
  | .cbkld a ta => some (0xe#7 ++ 0#5 ++ a ++ 0#5 ++ ofBool ta ++ 0#9)
  | .yld a ta y => some (0xf#7 ++ 0#5 ++ a ++ 0#5 ++ ofBool ta ++ 0#5 ++ y)
  | .yset a ta w y => some (0x10#7 ++ 0#5 ++ a ++ 0#5 ++ ofBool ta ++ 0#2 ++ w ++ y)
  | .cbset a ta n => some (0x11#7 ++ 0#5 ++ a ++ 0#5 ++ ofBool ta ++ 0#6 ++ n)
  | .cbwait d n => some (0x12#7 ++ d ++ 0#17 ++ n)
  | .cbrel n => some (0x13#7 ++ 0#22 ++ n)
  | .cqpush a ta ck => some (0x14#7 ++ 0#5 ++ a ++ 0#5 ++ ofBool ta ++ 0#1 ++ ofBool ck ++ 0#7)
  | .tdec a ta ck => some (0x15#7 ++ 0#5 ++ a ++ 0#5 ++ ofBool ta ++ 0#1 ++ ofBool ck ++ 0#7)
  | .ckpt => some (0x16#7 ++ 0#25)
  | .yield y => some (0x17#7 ++ 0#21 ++ y)
  | .sqpush a b ta tb ck => some (0x18#7 ++ 0#5 ++ a ++ b ++ ofBool ta ++ ofBool tb ++ ofBool ck ++ 0#7)
  | .tktst p => some (0x19#7 ++ 0#21 ++ p)
  | .tkget d => some (0x1a#7 ++ d ++ 0#20)
  | .sxapp a b ta tb ck cnt => some (0x1b#7 ++ 0#5 ++ a ++ b ++ ofBool ta ++ ofBool tb ++ ofBool ck ++ 0#2 ++ cnt)
  | .sxqry d a b ta tb n => some (0x1c#7 ++ d ++ a ++ b ++ ofBool ta ++ ofBool tb ++ 0#3 ++ n)
  | .sxcfg a b ta tb => some (0x1d#7 ++ 0#5 ++ a ++ b ++ ofBool ta ++ ofBool tb ++ 0#8)
  | .sxsave a b ta tb => some (0x1e#7 ++ 0#5 ++ a ++ b ++ ofBool ta ++ ofBool tb ++ 0#8)
  | .sxload a b ta tb => some (0x1f#7 ++ 0#5 ++ a ++ b ++ ofBool ta ++ ofBool tb ++ 0#8)
  | .sxstat d a ta => some (0x20#7 ++ d ++ a ++ 0#5 ++ ofBool ta ++ 0#9)
  | .evsel a ta n => some (0x21#7 ++ 0#5 ++ a ++ 0#5 ++ ofBool ta ++ 0#6 ++ n)
  | .sqpop d => some (0x22#7 ++ d ++ 0#20)
  | .tkput a b ta tb => some (0x23#7 ++ 0#5 ++ a ++ b ++ ofBool ta ++ ofBool tb ++ 0#8)
  | .fixedLatencyLanding _ => none
  | .variableLatencyLanding _ _ => none
  | .scratchpadStorePerform _ => none
  | .writePerformAtHome _ _ => none
  | .remoteSemaddArrival _ _ => none
  | .tokenLanding _ => none
  | .suffixOpPerform _ _ => none
  | .pageWalk _ => none
  | .imemReload _ => none
  | .engineDispatch _ _ => none
  | .engineRetire _ _ => none
  | .gatherPartReply _ _ _ => none
  | .chunkReceive _ _ _ _ _ _ _ => none
  | .taskDecrement _ => none
  | .schedulerPlace _ _ => none
  | .dieFreeRequest _ _ => none
  | .phaseSliceExpiry _ => none
  | .quantumExpiry _ => none
  | .taskRetire _ => none
  | .trapEntry _ _ _ => none
  | .taskKill _ => none
  | .taskSuspend _ => none
  | .yieldRequeue _ => none
  | .checkpointSnapshot _ => none
  | .datapathError _ => none
  | .pageMigration _ _ => none
  | .linkDown _ _ => none
  | .functionReady _ _ => none
  | .powerLimitChange _ _ _ => none
  | .hostMemWrite _ _ => none
  | .hostMemRead _ _ => none
  | .fwload => none
  | .reset => none
  | .run => none
  | .hifErrClear _ => none
  | .featureAcceptWrite _ _ => none
  | .hifTdecWrite _ _ => none
  | .hifTdecQueueHead => none
  | .ptrootWrite _ => none
  | .tlbInvalidateVpn _ => none
  | .tlbInvalidateAll => none
  | .tlbInvalidationDone => none
  | .l2SplitWrite _ _ => none
  | .l2SplitApply _ => none
  | .fabricRankWrite _ _ => none
  | .keyLoad _ => none
  | .keyClear _ => none
  | .keyCommandDone => none
  | .compStart _ _ => none
  | .poisonClear _ => none
  | .poisonClearDone => none
  | .fgrpWrite _ _ => none
  | .devselWrite _ _ _ => none
  | .ckeSaveStart _ => none
  | .ckeRestoreStart _ => none
  | .ckeAbort => none
  | .ckeRunBegin => none
  | .ckeRunEnd => none
  | .islRequestWrite _ _ _ => none
  | .hifRegisterWrite _ _ _ => none
  | .faultRingRoom _ => none
  | .poisonedAcknowledgementPath _ => none

/-- The first kind of slot, in word order, whose map takes the word (log 4): the opcode table does not say the slot, and
one word is an instruction of several slots (R68). -/
def firstKind (w : Word32) : List SlotKind → Option (SlotKind × Instr)
  | [] => none
  | k :: ks =>
    match decode k w with
    | .ok i => some (k, i)
    | .error _ => firstKind w ks

/-- The slot kinds in the order of a bundle's words (R67). -/
def slotKinds : List SlotKind := [.S, .A, .V, .M, .C, .X]

/-- The instruction the decoder reads from a slot word w of the opcode table (log 4). Every row of the table that has an
encoding has 32 bits, one slot word. -/
def decodeTableWord (nbits w : Nat) : Option Instr :=
  if nbits ≤ 32 then (firstKind (BitVec.ofNat 32 w) slotKinds).map Prod.snd else none

end Sys2Proof
end

