-- ==== Sys2Proof/Machine/Shape.lean ====
section
/-! DEFINITION. What the words of a bundle say about themselves: which cores take them, the registers they write and read, and
their part in the checks on a whole bundle (R37, R70, R94, R109, R123, R130, R323). -/

namespace Sys2Proof

/-- An instruction that a companion core takes in a pair (R323). -/
def Instr.companionTakes : Instr → Bool
  | .setvrb _ | .setprb _ | .clrrb => false
  | .mfsr _ n => n != 0x020 && n != 0x021
  | .mtsr _ _ n => n != 0x020 && n != 0x021
  | .loop rot _ _ _ => !rot
  | .loopi rot _ _ => !rot
  | .loopq rot _ => !rot
  | .fence src dst _ => (src ||| dst) &&& 0x3E == 0
  | .semadd _ _ ck _ => !ck
  | .semaddRemote _ _ _ _ ck _ => !ck
  | .sxapp _ _ _ _ ck _ => !ck
  | .wait _ | .watch _ _ _ _ _ _ | .bar _ | .cwait _ | .kld _ _ | .cbkld _ _ | .yld _ _ _ | .yset _ _ _ _ | .gset _ _ _
  | .cbset _ _ _ | .cbwait _ _ | .cbrel _ | .cqpush _ _ _ | .tdec _ _ _ | .ckpt | .yield _ | .sqpush _ _ _ _ _ | .tktst _
  | .tkget _ | .evsel _ _ _ => false
  | _ => true

/-- Instructions of companion cores only (R95). -/
def Instr.companionOnly : Instr → Bool
  | .sqpop _ | .tkput _ _ _ _ => true
  | _ => false

/-- The feature of R37 that an instruction belongs to. -/
def Instr.featureBit : Instr → Option Nat
  | .sxapp _ _ _ _ _ _ | .sxqry _ _ _ _ _ _ | .sxcfg _ _ _ _ | .sxsave _ _ _ _ | .sxload _ _ _ _ | .sxstat _ _ _ => some 0
  | .sqpush _ _ _ _ _ | .tktst _ | .tkget _ => some 1
  | .ccol _ _ _ _ _ => some 2
  | .ckpt => some 3
  | _ => none

/-- The registers that condition 1 compares (R70). -/
inductive RegName where
  | s (n : BitVec 5) | a (n : BitVec 5) | d (n : BitVec 4) | w (n : BitVec 3) | v (n : BitVec 6) | p (n : BitVec 4)
  | g (n : BitVec 4) | y (n : BitVec 4) | rb (n : BitVec 4) | ev (n : BitVec 3)
  deriving DecidableEq, Repr

/-- Latencies of vector arithmetic by type (R123). -/
def TyF.lat : TyF → Nat
  | .i8 | .i16 | .i32 | .i64 => 2
  | _ => 4

def TyN.lat : TyN → Nat
  | .ui8 | .ui16 | .ui32 => 2
  | _ => 4

/-- The registers an instruction writes with a latency that its encoding fixes, and the latency (R70, R123, R275). -/
def Instr.writes : Instr → List (RegName × Nat)
  | .add d _ _ _ _ | .sub d _ _ _ _ | .and d _ _ _ _ | .or d _ _ _ _ | .xor d _ _ _ _ | .andn d _ _ _ _ | .shl d _ _ _ _
  | .shr d _ _ _ _ | .sra d _ _ _ _ | .rol d _ _ _ _ | .min d _ _ _ _ | .max d _ _ _ _ | .minu d _ _ _ _
  | .maxu d _ _ _ _ => [(.s d, 1)]
  | .mul d _ _ _ _ | .mulh d _ _ _ _ | .mulhu d _ _ _ _ => [(.s d, 3)]
  | .clz d _ _ | .ctz d _ _ | .popc d _ _ | .brev d _ _ | .sextb d _ _ | .sexth d _ _ | .sextw d _ _ | .zextb d _ _
  | .zexth d _ _ | .zextw d _ _ | .mov d _ _ => [(.s d, 1)]
  | .addi d _ _ _ | .andi d _ _ _ | .ori d _ _ _ | .xori d _ _ _ | .shli d _ _ _ | .shri d _ _ _ | .srai d _ _ _ => [(.s d, 1)]
  | .li d _ | .liu d _ => [(.s d, 1)]
  | .bfx d _ _ _ _ | .bfi d _ _ _ _ => [(.s d, 1)]
  | .fsh d _ _ _ _ _ | .fshi d _ _ _ _ _ | .sel d _ _ _ _ _ => [(.s d, 1)]
  | .scmp p _ _ _ _ _ => [(.p p, 1)]
  | .scmpi p _ _ _ _ => [(.p p, 1)]
  | .plog p _ _ _ => [(.p p, 1)]
  | .ld _ a pm _ _ _ _ => if pm then [(.a a, 1)] else []
  | .st _ a pm _ _ _ => if pm then [(.a a, 1)] else []
  | .call _ _ _ => [(.s 31, 1)]
  | .jalr d _ _ => [(.s d, 1)]
  | .mfsr d n => if n = 0x040 ∨ n = 0x041 ∨ (0x070 ≤ n.toNat ∧ n.toNat ≤ 0x077) then [] else [(.s d, 1)]
  | .fadd d _ _ _ _ _ | .fsub d _ _ _ _ _ | .fmul d _ _ _ _ _ | .fmin d _ _ _ _ _ | .fmax d _ _ _ _ _
  | .fminn d _ _ _ _ _ | .fmaxn d _ _ _ _ _ => [(.s d, 4)]
  | .fcmp toS d _ _ _ _ _ _ => if toS then [(.s (d.setWidth 5), 4)] else [(.p d, 1)]
  | .fcvt d _ _ _ _ => [(.s d, 4)]
  | .amov d _ _ | .aaddi d _ _ _ | .ali d _ | .aliu d _ | .astep d => [(.a d, 1)]
  | .aadd d _ _ _ _ => [(.a d, 1)]
  | .amode a _ _ _ => [(.a a, 1)]
  | .dset k _ | .dmov k _ _ => [(.d k, 1)]
  | .wsetb k _ _ | .wsetl k _ _ => [(.w k, 1)]
  | .ard d _ _ => [(.s d, 1)]
  | .vadd d _ _ ty _ | .vsub d _ _ ty _ | .vmul d _ _ ty _ | .vmin d _ _ ty _ | .vmax d _ _ ty _ => [(.v d, ty.lat)]
  | .vfma d _ _ _ _ | .vfms d _ _ _ _ | .vscale d _ _ _ _ => [(.v d, 4)]
  | .vminn d _ _ ty _ | .vmaxn d _ _ ty _ => [(.v d, ty.lat)]
  | .vabs d _ _ _ | .vneg d _ _ _ => [(.v d, 2)]
  | .vand d _ _ _ _ | .vor d _ _ _ _ | .vxor d _ _ _ _ | .vandn d _ _ _ _ | .vshl d _ _ _ _ | .vshr d _ _ _ _
  | .vsra d _ _ _ _ | .vfsh d _ _ _ _ | .vbfx d _ _ _ _ | .vsel d _ _ _ _ => [(.v d, 2)]
  | .vcmp _ p _ _ _ _ => [(.p p, 2)]
  | .vcvt d _ _ _ _ _ => [(.v d, 3)]
  | .vmov d _ _ _ | .vspl d _ _ _ _ | .vcls d _ _ _ => [(.v d, 2)]
  | .vidx d _ _ => [(.v d, 2)]
  | .vrnd d _ _ => [(.v d, 3)]
  | .vaddSat d _ _ _ _ | .vsubSat d _ _ _ _ => [(.v d, 2)]
  | .vln d _ _ _ | .vexp d _ _ _ | .vlog2 d _ _ _ | .vexp2 d _ _ _ | .vrcp d _ _ _ | .vrsq d _ _ _ | .vsqrt d _ _ _
  | .vtanh d _ _ _ | .vsigm d _ _ _ => [(.v d, 10)]
  | .vld d a pm _ _ _ => (.v d, 6) :: (if pm then [(.a a, 1)] else [])
  | .vst _ a pm _ _ _ => if pm then [(.a a, 1)] else []
  | .vldrb d _ _ => [(.v d, 2)]
  | .vget d _ _ _ _ => [(.s d, 3)]
  | .mhand e _ _ _ => [(.rb e, 12)]
  | .wait d => [(.s d, 1)]
  | .semtst d _ _ _ => [(.s d, 1)]
  | .gset _ _ g => [(.g g, 1)]
  | .yld _ _ y => [(.y y, 4)]
  | .yset _ _ _ y => [(.y y, 1)]
  | .cbwait d _ => [(.s d, 1)]
  | .tktst p => [(.p p, 1)]
  | .mtsr _ _ n => if 0x070 ≤ n.toNat ∧ n.toNat ≤ 0x077 then [(.ev (n.setWidth 3), 1)] else []
  | .evsel _ _ n => [(.ev n, 1)]
  | _ => []

/-- An instruction that reads memory: a load, an engine command, a suffix-memory instruction (R302, R308). -/
def Instr.readsMemory : Instr → Bool
  | .ld _ _ _ _ _ _ _ | .vld _ _ _ _ _ _ | .yld _ _ _ | .kld _ _ | .cbkld _ _ | .cbset _ _ _ => true
  | .mldw _ _ _ _ _ | .mma _ _ _ _ _ | .mmag _ _ _ _ _ | .mmah _ _ _ _ _ | .mzero _ _ _ _ _ | .cpy _ _ _ _ _ | .csel _ _ _ _ _
  | .cgth _ _ _ _ _ | .csct _ _ _ _ _ | .cqf _ _ _ _ _ | .ccol _ _ _ _ _ => true
  | .sxapp _ _ _ _ _ _ | .sxqry _ _ _ _ _ _ | .sxload _ _ _ _ | .sxsave _ _ _ _ | .sxcfg _ _ _ _ | .sxstat _ _ _ => true
  | _ => false

/-- Writes to S0 and P0 are discarded and never collide (R70, R117). -/
def RegName.kept : RegName → Bool
  | .s n => n != 0
  | .p n => n != 0
  | _ => true

/-- Two instructions of one list write one register in the same bundle (R70, condition 1). -/
def collide : List Instr → Bool
  | [] => false
  | i :: t => (t.any fun j => i.writes.any fun x => x.1.kept && j.writes.any (fun y => x == y)) || collide t

/-- The nonzero CIDs of a bundle's engine commands (R70, condition 4). -/
def Instr.cid : Instr → BitVec 6
  | .mldw c _ _ _ _ | .mma c _ _ _ _ | .mmag c _ _ _ _ | .mmah c _ _ _ _ | .mzero c _ _ _ _ | .cpy c _ _ _ _
  | .csel c _ _ _ _ | .cgth c _ _ _ _ | .csct c _ _ _ _ | .cqf c _ _ _ _ | .ccol c _ _ _ _ => c
  | _ => 0

/-- Some nonzero value stands twice. -/
def twice : List (BitVec 6) → Bool
  | [] => false
  | c :: t => (c != 0 && t.contains c) || twice t

/-- A control transfer (R70, condition 2). -/
def Instr.isTransfer : Instr → Bool
  | .br _ _ _ | .call _ _ _ | .lexit _ _ _ | .jr _ _ | .jalr _ _ _ | .ret => true
  | _ => false

/-- A loop-group instruction (R105). -/
def Instr.isLoop : Instr → Bool
  | .loop _ _ _ _ | .loopi _ _ _ | .loopq _ _ => true
  | _ => false

/-- The vector registers that an instruction reads. -/
def Instr.vReads : Instr → List (BitVec 6)
  | .vadd _ a b _ _ | .vsub _ a b _ _ | .vmul _ a b _ _ | .vmin _ a b _ _ | .vmax _ a b _ _ => [a, b]
  | .vfma d a b _ _ | .vfms d a b _ _ => [d, a, b]
  | .vminn _ a b _ _ | .vmaxn _ a b _ _ | .vaddSat _ a b _ _ | .vsubSat _ a b _ _ | .vscale _ a b _ _ => [a, b]
  | .vabs _ a _ _ | .vneg _ a _ _ | .vcls _ a _ _ | .vmov _ a _ _ => [a]
  | .vand _ a b _ _ | .vor _ a b _ _ | .vxor _ a b _ _ | .vandn _ a b _ _ | .vshl _ a b _ _ | .vshr _ a b _ _
  | .vsra _ a b _ _ | .vbfx _ a b _ _ | .vsel _ a b _ _ => [a, b]
  | .vfsh d a b _ _ => [d, a, b]
  | .vcmp _ _ a b _ _ => [a, b]
  | .vcvt _ a _ _ _ _ => [a]
  | .vln _ a _ _ | .vexp _ a _ _ | .vlog2 _ a _ _ | .vexp2 _ a _ _ | .vrcp _ a _ _ | .vrsq _ a _ _ | .vsqrt _ a _ _
  | .vtanh _ a _ _ | .vsigm _ a _ _ => [a]
  | .vst d _ _ _ _ _ => [d]
  | .vget _ a _ _ _ => [a]
  | _ => []

/-- The bundle holds a checkpoint (R94). -/
def Instr.checkpoints : Instr → Bool
  | .ckpt => true
  | .semadd _ _ ck _ | .semaddRemote _ _ _ _ ck _ | .cqpush _ _ ck | .tdec _ _ ck | .sqpush _ _ _ _ ck => ck
  | .sxapp _ _ _ _ ck _ => ck
  | _ => false

end Sys2Proof
end

