-- ==== Sys2Proof/Config.lean ====
section
/-! DEFINITION. What the spec leaves to an implementation or leaves open: opaque constants without a body, so that no
proof can rest on a value. -/

namespace Sys2Proof.Config

/-- Which of the two FP32 values that bracket an irrational result a transcendental gives (R198); true the one of larger magnitude. The
arguments are the function's number and the operand (log 8). -/
opaque fp32Choice : Nat → BitVec 32 → Bool

/-- The index section that an SXSAVE writes, if it writes one (R350), drawn at the value of the model's counter (log 14). -/
opaque suffixIndex : Nat → Option (List (BitVec 8))

/-- Whether the version header of a firmware image passes the check of R35: the bytes of the image (log 6). -/
opaque firmwareCheck : List (BitVec 8) → Bool

/-- The supervisor words that a firmware image that passes holds for a core (R66); true the image of a companion
core's memory. The format of the image is not described (log 6). -/
opaque firmwareWords : List (BitVec 8) → Bool → List (Nat × BitVec 32)

/-- Which entry a full cache of translations or lines drops (R207, R215): the number of entries and the counter (log 9). -/
opaque victim : Nat → Nat → Nat

/-- The bytes of a tier after a run of the checkpoint engine that failed or was stopped (R402). -/
opaque tierByte : Nat → Nat → BitVec 8

/-- The bytes of the regions of a context save area whose form the spec leaves to the device (R368), by the value of the model's counter and
the offset (log 20). -/
opaque privateByte : Nat → Nat → BitVec 8

/-- The failure code of an engine or suffix operation that meets poisoned data, which the spec does not state (R232, R352, log 21). -/
opaque poisonCode : BitVec 8

/-- A word that the spec does not state: TRAP_VAL of a VALID or VALST whose check meets a poisoned line (R296, log 18). -/
opaque openWord : Nat → BitVec 64

/-- The fabric link that an access to another device takes: its die and its number, by the physical address (R39, R379, log 25). -/
opaque linkOf : Nat → BitVec 2 × Bool

/-- CHECK of a metadata word: the code over its other bits, which the spec does not give (R220, R402, log 27). -/
opaque checkBits : BitVec 52 → BitVec 12

/-- Whether a data path error is found in the memories of a retired core (R376). -/
opaque retiredMemoryLost : Nat → Bool

/-- Whether the members of a group on other devices ask for something else in an episode than the members on this one, or hold another table: the
group, and the value of the model's counter when the episode begins here (R390, log 34). -/
opaque remoteDiffers : BitVec 6 → Nat → Bool

/-- Whether an access meets a scratchpad write that nothing orders against it: the write's number, the number of the access, and the word of the
scratchpad (R305, R307, log 61). -/
opaque raceTakes : Nat → Nat → Nat → Bool

end Sys2Proof.Config
end

