-- ==== Sys2Proof/Machine/State.lean ====
section
/-! DEFINITION. The state of the package as plain data: every piece of state the spec gives the machine, and the few
fields of the model's own that are named as such. -/

namespace Sys2Proof.Machine

open Sys2Proof

/-- The faults of the machine: none. Every stop that the spec describes is a trap, which is a next state (R355). -/
inductive Fault where
  deriving DecidableEq, Repr

/-- Why a step has no meaning. -/
inductive Refusal where
  /-- An arm of `exec` that has no meaning yet: raised by `exec` alone; safe. -/
  | notModelled (mnemonic : String)
  deriving DecidableEq, Repr

/-- The outcome of a step of this machine. -/
abbrev Out (σ : Type) := Host.Outcome σ Fault Refusal

/-! ### One core -/

/-- Mode, D step and parameter of an A register (R117, R159). -/
structure AMode where
  mode  : BitVec 2 := 0
  step  : BitVec 4 := 0
  param : BitVec 6 := 0
  deriving DecidableEq, Repr

/-- An entry of the loop stack (R104). -/
structure Loop where
  start : Word
  stop  : Word
  count : Word
  rot   : Bool
  deriving DecidableEq, Repr

/-- A taken control transfer: its target and the delay slots still to run (R98). -/
structure Pending where
  target : Word
  left   : Nat
  deriving DecidableEq, Repr

/-- A version slot: clear, or a line address PA[51:7] and a version (R294). -/
abbrev NSlot := Option (BitVec 45 × BitVec 48)

/-- A circular buffer (R288, R289); `full` lists the numbers of the slots whose commands have retired. -/
structure CBuf where
  configured : Bool := false
  base  : Nat := 0
  size  : Nat := 0
  count : Nat := 0
  f     : Word32 := 0
  t     : Word32 := 0
  r     : Word32 := 0
  full  : List Word32 := []
  deriving DecidableEq, Repr

/-- Format and column count of a weight bank (R247). -/
structure BankInfo where
  fmt : Fmt := .int8
  nb  : Nat := 0
  deriving DecidableEq, Repr

/-- What a result in flight writes when it lands (R123, R275). Vector and predicate registers are named by their
physical number (R111). `late` is the value of a variable-latency producer, whose landing alone makes its register full (R124). -/
inductive Land where
  | s (n : BitVec 5) (v : Word)
  | late (n : BitVec 5) (v : Word)
  | a (n : BitVec 5) (v : Word)
  | aMode (n : BitVec 5) (m : AMode)
  | d (n : BitVec 4) (v : Word32)
  | wBase (n : BitVec 3) (v : Word)
  | wLen (n : BitVec 3) (v : Word32)
  | v (n : BitVec 6) (v : VReg) (mask : PReg)
  | p (n : BitVec 4) (v : PReg) (mask : PReg)
  | sr (n : BitVec 12) (v : Word)
  | g (n : BitVec 4) (v : Word)
  | y (n : BitVec 4) (v : BitVec 256)
  | yWord (n : BitVec 4) (w : BitVec 3) (v : Word32)
  | k (v : BitVec 512)
  | codebook (v : BitVec 8192)
  | rb (n : BitVec 4) (v : VReg)
  | store (slot : Slot) (off : Nat) (data : VReg) (mask : PReg) (dbg : Bool)
  | clrv (mask : BitVec 8)
  | n (k : BitVec 3) (x : NSlot)
  | watch (n : BitVec 3) (range : Option (Nat × Nat))
  | evsel (n : BitVec 3) (src : BitVec 8)
  deriving DecidableEq, Repr

/-- A result in flight: the bundles still to issue until it lands, and the FPSTAT bits it sets then (R178). -/
structure InFlight where
  left  : Nat
  what  : Land
  flags : BitVec 5 := 0
  deriving DecidableEq, Repr

/-- A scratchpad access of a core's own task, as long as accesses that nothing orders against it may pass it (R305, R307): its path by its bit in a
FENCE mask, its class and bytes, whether it stands in the bundle in progress, the paths that a FENCE or an acquire has ordered after it, whether it is a
read of path S without a class (R274), and of an engine command its number and the commands that it follows. The model's own (log 61). -/
structure ScratchAccess where
  path    : BitVec 3
  ac      : BitVec 2
  off     : Nat
  size    : Nat
  now     : Bool := true
  closed  : BitVec 8 := 0
  plain   : Bool := false
  cmd     : Option Nat := none
  after   : List Nat := []
  deriving DecidableEq, Repr

/-- A write of the scratchpad that accesses of another class or path may meet (R305, R307): its number, its bytes and their mask, the bundles until it
performs, the bytes that it replaced then, the words that loads of a class have seen in earlier bundles and in this one, the offsets at which an earlier
store stays over it with that store's number, the wake-queue tokens that it has pushed and no WAIT has taken, and the releases that cover it: the number
of the own semaphore that one adds to, 64 for one that others observe. -/
structure LocalStore where
  no   : Nat
  acc  : ScratchAccess
  data : VReg
  mask : PReg
  left : Nat := 2
  old  : Option (List Byte) := none
  seen : List (BitVec 2 × Nat) := []
  saw  : List (BitVec 2 × Nat) := []
  kept : List (Nat × Nat) := []
  woke : List Word32 := []
  rel  : List Nat := []
  deriving DecidableEq, Repr

/-- A local load whose value is in flight (R305): how an S value is extended, and the result in flight that it is. -/
structure LocalLoad where
  acc  : ScratchAccess
  sz   : BitVec 2
  sx   : Bool
  left : Nat
  what : Land
  deriving DecidableEq, Repr

/-- The state that a checkpoint snapshot holds (R373): every register file but the tiles, the weight banks' data and the result
buffer, the control state, the queues, and the results in flight. `shadow` counts the bundles that still lie in the two after a control
transfer, taken or not (R70, condition 2); `ended` says that END has issued and that only the retirement is left (R115, R398); `ckptDue` that the next
bundle takes a checkpoint (R371). `before` holds the bytes that stores of the bundle before have replaced while the next bundle holds at a BAR, and
whether the store carries its debug mark (R126, R132, R282). -/
structure Regs where
  s       : Vector Word 32
  sFull   : BitVec 32
  a       : Vector Word 32
  aFull   : BitVec 32
  aMode   : Vector AMode 32
  d       : Vector Word32 16
  wBase   : Vector Word 8
  wLen    : Vector Word32 8
  v       : Vector VReg 64
  p       : Vector PReg 16
  g       : Vector Word 16
  y       : Vector (BitVec 256) 16
  k       : BitVec 512
  codebook : BitVec 8192
  n       : Vector NSlot 8
  pc      : Word
  pend    : Option Pending
  shadow  : Nat
  ended   : Bool
  loops   : List Loop
  vrb     : BitVec 5
  prb     : BitVec 3
  status  : Word
  fpstat  : BitVec 5
  tileFlags : BitVec 32
  seed    : Word
  rnd     : Word
  dbgPend : Bool
  trapPc    : Word
  trapCause : Word
  trapVal   : Word
  sem     : Vector Word 64
  countQ  : List Word32
  wakeQ   : List Word32
  comp    : Vector (Option (Nat × Nat)) 8
  cb      : Vector CBuf 8
  mailbox : List Word
  claims  : List (BitVec 5)
  asked   : Nat
  bank    : Vector BankInfo 4
  arrived : Vector Nat 8
  flight  : List InFlight
  stores  : List LocalStore
  loads   : List LocalLoad
  ckptDue : Bool
  before  : List (Nat × Byte × Bool)
  deriving DecidableEq, Repr

/-- The state captured at a trap and given back by RETT (R358, R360). `xLeft` is the address of a companion core's pair whose S word has
performed and whose X word still waits for it (R324), `endPc` that of an END that has issued (R398). -/
structure Captured where
  pend   : Option Pending
  shadow : Nat
  loops  : List Loop
  vrb    : BitVec 5
  prb    : BitVec 3
  flight : List InFlight
  xLeft  : Option Word := none
  endPc  : Option Word := none
  ckptDue : Bool := false
  before : List (Nat × Byte × Bool) := []
  stores : List LocalStore := []
  deriving DecidableEq, Repr

/-- Where a global S-slot access acts: its virtual address and the page it translated through (R152, R212). -/
structure Place where
  va    : Word
  pa    : PAddr
  key   : BitVec 6 := 0
  plain : Bool := true
  deriving DecidableEq, Repr

/-- Memory operations issued and not yet performed, in issue order (R124, R152). A destination of 0 discards. -/
inductive MemOp where
  | value (d : BitVec 5) (v : Word) (flags : BitVec 5)
  | load (d : BitVec 5) (at_ : Place) (ac sz : BitVec 2) (sx : Bool)
  | store (at_ : Place) (ac sz : BitVec 2) (data : Word)
  | ldv (d : BitVec 5) (at_ : Place) (k : BitVec 3)
  | valid (d : BitVec 5) (mask : BitVec 8)
  | valst (d : BitVec 5) (at_ : Place) (data : Word) (mask : BitVec 8)
  | casv (d : BitVec 5) (at_ : Place) (data : Word) (k : BitVec 3)
  | tdec (rec : BitVec 48) (pa : PAddr) (key : BitVec 6)
  | semadd (n : BitVec 6) (v : Word)
  | sqpush (a b : Word)
  deriving DecidableEq, Repr

/-- A memory operation with the mode that issued it (R358), its number in a rerun (R374), and whether the checkpoint snapshot found it
outstanding (R373), whether it was lost in transit (R379), and whether a trap has been taken since, which orders it before every later access
(R306). -/
structure MemEntry where
  sup : Bool
  op  : MemOp
  no  : Nat := 0
  snap : Bool := false
  lost : Bool := false
  closed : Bool := false
  deriving DecidableEq, Repr

/-- A remote add on its way (R279, R280): semaphore, addend, target word Sb; it leaves when `after` memory operations
that precede it have performed. -/
structure RemoteAdd where
  sem    : BitVec 6
  value  : Word
  target : Word
  after  : Nat
  job    : BitVec 6
  deriving DecidableEq, Repr

/-- A trap that is due at a boundary (R355, R357). -/
structure Report where
  cause : BitVec 8
  val   : Word
  deriving DecidableEq, Repr

/-- Opcodes of the engine commands (R89). -/
inductive CmdOp where
  | mldw | mma | mmag | mmah | mzero | cpy | csel | cgth | csct | cqf | ccol
  deriving DecidableEq, Repr

/-- Life of an engine command until it retires (R226-R228, R232, R251): `waiting` when it has dispatched and starts no access before
earlier matrix commands retire, `running` once its accesses are made, `parked` at an element that does not translate, `acting` while the decrement that is
its retire action is on its way. -/
inductive CmdState where
  | queued | waiting | running | parked | acting
  deriving DecidableEq, Repr

/-- An outstanding engine command: the words it read at issue, the commands it waits for by number, all that it follows under R307, and how far it has
come (R226, R236): elements done, the circular-buffer slot it took, the parts of a gather that returned, its status word, what it sets when it retires, and
whether the checkpoint snapshot found it outstanding. -/
structure Cmd where
  op    : CmdOp
  eng   : Eng
  cid   : BitVec 6
  preds : List Nat
  after : List Nat := []
  desc  : BitVec 256
  desc2 : BitVec 256
  ret   : RetAct
  kTab  : BitVec 512
  codebook : BitVec 8192
  gPat  : Word
  seqNo : Nat
  st    : CmdState := .queued
  done  : Nat := 0
  slot  : Option Word32 := none
  parts : BitVec 4 := 0
  gath  : BitVec 32 := 0xFFFF0000
  tflags : BitVec 4 := 0
  ohrange : Bool := false
  snap : Bool := false
  deriving DecidableEq, Repr

/-- A walk that a core waits for (R216). -/
structure WalkReq where
  va    : BitVec 48
  write : Bool
  deriving DecidableEq, Repr

/-- An entry of a translation cache (R215): the pages it covers, its leaf and the job of its root. -/
structure TlbEntry where
  vpn   : Nat
  count : Nat
  frame : Nat
  leaf  : Word
  job   : BitVec 6
  dirty : Bool
  deriving DecidableEq, Repr

/-- Where the bits of a running task's life stand (R115, R371, R372, R397). -/
inductive Life where
  | running | ended | yielding | checkpoint | supervisor | suspending
  deriving DecidableEq, Repr

/-- A placed task: its record and launch record as its placement read them (R22, R12), and its job (R212). -/
structure Task where
  addr   : BitVec 48
  job    : BitVec 6
  record : BitVec 1024
  launch : BitVec 2048
  home   : BitVec 2
  deriving DecidableEq, Repr

/-- A preloaded task: the idle bank, its text when it is loaded already, a fault that awaits its start, where it stood in its queue, and the levels
whose groups it was placed in by the preload (R46, R60, R61). -/
structure Preload where
  task  : Task
  bank  : Sparse Byte
  entry : Word
  base  : Word
  len   : Nat
  words : Sparse Word32
  fault : Option Report
  pass  : Nat
  prio  : Nat
  bound : List Nat
  deriving DecidableEq, Repr

/-- An entry of the undo journal: an aligned unit's old contents (R373). -/
inductive Undo where
  | scratch (unit : Nat) (old : List Byte)
  | tile (unit : Nat) (old : List Word32)
  | bank (unit : Nat) (old : BitVec 512)
  | rb (n : BitVec 4) (old : VReg)
  deriving DecidableEq, Repr

/-- A rerun after a datapath error (R374): the pass, the number of its next instruction, the bundles issued and the bytes that each
instruction wrote, and the signature and bundles of the first pass. -/
structure Rerun where
  pass  : Nat
  no    : Nat := 0
  cnt   : Nat := 0
  log   : Sparse (List Byte) := []
  sig1  : BitVec 32 := 0
  cnt1  : Nat := 0
  deriving DecidableEq, Repr

/-- How the last slot instruction ended (the model's own, log 17). -/
inductive Issued where
  | issued | held | trapped (cause : BitVec 8)
  deriving DecidableEq, Repr

/-- What the bundle in progress does to control (R98). -/
inductive Control where
  | seq | taken (target : Word) | loopTo (target : Word) | rett
  deriving DecidableEq, Repr

/-- The bundle in progress (the model's own, log 17). `pass` says that every check of the bundle has passed; `xLeft` that the S word of a
companion core's pair has performed and the X word waits for it (R324); `due` that a semaphore has changed since a held bundle was tested
(R281). -/
structure Issue where
  slot    : Slot := .s
  word    : Word32 := 0
  res     : Issued := .issued
  clearS  : BitVec 32 := 0
  control : Control := .seq
  ended   : Bool := false
  yields  : Bool := false
  ckpt    : Bool := false
  protectOk : Bool := true
  xLeft   : Bool := false
  pass    : Bool := false
  due     : Bool := false
  deriving DecidableEq, Repr

/-- Suffix-memory operations (R344). -/
inductive SfxKind where
  | cfg (quota pin minm : Nat) | app (toks : List Word32) | qry (d : BitVec 5) (off : Nat) (n : Nat)
  | stat (d : BitVec 5) | save (va : Word) | load (va : Word)
  deriving DecidableEq, Repr

/-- A suffix-memory operation that waits at the unit (R352, R353): who issued it, what it does, for an image the bytes moved and the
line at which it is parked, and its marks as a MemEntry has them. -/
structure SfxOp where
  core : BitVec 8
  job  : BitVec 6
  sup  : Bool
  ctx  : BitVec 12
  kind : SfxKind
  parked : Bool := false
  done : Nat := 0
  image : List Byte := []
  no   : Nat := 0
  snap : Bool := false
  deriving DecidableEq, Repr

/-- What a context save area holds in a form that the spec leaves to the device (R368): the address and the job of the area, its task, then engine
commands, suffix operations, results in flight that the record has no form for, the debug marks of the stores that it has one for (R132), accesses
lost in transit, queues, buffers and barriers. -/
structure Saved where
  area  : Nat
  job   : BitVec 6
  task  : Task
  cmds  : List Cmd
  cmdNo : Nat
  sfx   : List SfxOp
  flight : List InFlight
  marks : List Bool
  memq : List MemEntry
  shadow : Nat
  ended : Bool
  ckptDue : Bool
  before : List (Nat × Byte × Bool)
  wakeQ : List Word32
  comp  : Vector (Option (Nat × Nat)) 8
  cb    : Vector CBuf 8
  mailbox : List Word
  claims : List (BitVec 5)
  bank  : Vector BankInfo 4
  arrived : Vector Nat 8
  reports : List Report
  lostWrites : List Word
  lostAdds : List Word
  ranges : List (Nat × Nat)
  deriving DecidableEq, Repr

/-- One core, main or companion (R117, R322). `cids` holds for each CID the command that used it last, after the commands which that one follows (R307);
`stale` the lines that an access of a path has written and that the core's L1 may still hold as they were (R303). `badUnits` names the 64-byte units of its scratchpad that hold an uncorrectable error:
an input of the model (log 16). `fwTrap` is a trap that firmware's own bundle or load has raised and that is due at its next boundary (R361); `errDue` a datapath error that waits for the checkpoint in progress (R372). -/
structure Core where
  regs     : Regs
  tiles    : Sparse Word32
  bankRow  : Sparse (BitVec 2048)
  rb       : Vector VReg 16
  scratch  : Sparse Byte
  ev       : Vector Word 8
  evSrc    : Vector (BitVec 8) 8
  cycles   : Word
  bundles  : Word
  task     : Option Task
  life     : Life
  quantum  : Nat
  base     : Word
  textLen  : Nat
  text     : Sparse Word32
  captured : Option Captured
  memq     : List MemEntry
  adds     : List RemoteAdd
  cmds     : List Cmd
  cmdNo    : Nat
  cids     : Sparse (List Nat)
  stale    : List (BitVec 3 × Nat)
  reports  : List Report
  fwTrap   : Option Report
  errDue   : Bool
  lostWrites : List Word
  lostAdds : List Word
  lostTokens : List Word
  yielded  : List (Nat × Nat)
  requests : List (Word × Word)
  preload  : Option Preload
  snapshot : Option Regs
  journal  : List Undo
  rerun    : Option Rerun
  tlb      : List TlbEntry
  walks    : List WalkReq
  l1       : Sparse (BitVec 1024)
  badUnits : List Nat
  issue    : Issue
  deriving DecidableEq, Repr

/-! ### One die -/

/-- A queued record or gang entry (R48, R59). -/
structure QEntry where
  task : Task
  pass : Nat := 0
  gang : List Task := []
  deriving DecidableEq, Repr

/-- A group and the domain instance it is bound to (R46): launch, level, group number, die and first core when it is bound, the tasks of
it that have ended, the level's binding, and the tasks of it that have been placed. Of a SERIAL group, the core that ran its latest task (R47). -/
structure Binding where
  launch : BitVec 48
  level  : Nat
  group  : Nat
  die    : BitVec 2
  core   : Nat
  bound  : Bool
  ended  : List Nat
  kind   : Nat
  placed : List Nat := []
  deriving DecidableEq, Repr

/-- A suffix-memory context (R341, R342): `head` holds the tokens of the pinned positions, `tail` those from the gap on. -/
structure SfxCtx where
  conf  : Bool := false
  fail  : Bool := false
  job   : BitVec 6 := 0
  quota : Nat := 0
  pin   : Nat := 0
  minm  : Nat := 0
  len   : Nat := 0
  gap   : Nat := 0
  ml    : Nat := 0
  dc    : Nat := 0
  head  : List (BitVec 24) := []
  tail  : List (BitVec 24) := []
  deriving DecidableEq, Repr

/-- A chunk that a Fuller received (R394): stage, sender, number, whether its check passed, and what a member on
another device sent. -/
structure Chunk where
  stage : Bool
  src   : Nat
  num   : Nat
  good  : Bool
  data  : List Word32
  deriving DecidableEq, Repr

/-- A member's part in an episode at its die's Fuller (R387, R393, R394): the group, the episode's number, a name that its command
carries, its rank in the member table, what the command asks for, its contribution in FP32 once it is read, and the chunks received; `finished` once
its command has retired, `apart` when a member on another device asks for something else (R390, log 34). -/
structure Episode where
  group : BitVec 6
  num   : Nat
  name  : Word32
  rank  : Nat
  rows  : Nat
  cols  : Nat
  op    : BitVec 2
  raw   : Bool
  table : List (BitVec 16)
  data  : Option (List Word32) := none
  chunks : List Chunk := []
  finished : Bool := false
  apart : Bool := false
  deriving DecidableEq, Repr

/-- An entry of a fault ring (R365): the task, its cause and TRAP_VAL, and where it stopped. -/
structure Post where
  task  : Task
  cause : BitVec 8
  val   : Word
  pc    : Word
  deriving DecidableEq, Repr

/-- An island's operating point (R404). -/
structure Island where
  req : BitVec 2 := 0
  cur : BitVec 2 := 0
  thr : Bool := false
  deriving DecidableEq, Repr

/-- A gang unit whose records gather at a die (R59). -/
structure Gathering where
  launch : BitVec 48
  unit   : Nat
  tasks  : List Task
  deriving DecidableEq, Repr

/-- The instance that a gang entry reserves (R59): its first core in package numbering and how many cores. -/
structure Reservation where
  launch : BitVec 48
  unit   : Nat
  first  : Nat
  size   : Nat
  deriving DecidableEq, Repr

/-- One die (R45-R63, R209, R216, R340, R386, R400, R404). `early` holds the chunks that its Fuller has before it expects them (R393), `rings` the stages of
launches whose deferred ring on this die may hold entries (R58). -/
structure Die where
  ready    : BitVec 22
  qntPrompt : Word32
  qntGen   : Word32
  gen      : Bool
  slice    : Nat
  queues   : Vector (List QEntry) 16
  gather   : List Gathering
  reserve  : List Reservation
  ringFull : List (BitVec 48 × Nat)
  rings    : List (Task × Nat)
  launches : List Task
  tlb      : List TlbEntry
  walkLast : Nat
  l2split  : Word
  l2want   : Option Word
  kill     : Word
  faultRing : Word
  posts    : List Post
  sfx      : Sparse SfxCtx
  sfxOps   : List SfxOp
  sfxFlaws : List Nat
  fuller   : List Episode
  early    : List (BitVec 6 × Chunk)
  episodes : Sparse Nat
  devCnt   : Vector Word 16
  devSel   : Vector (BitVec 8) 16
  isl      : Vector Island 32
  retired  : List (BitVec 8)
  fell     : BitVec 2
  deriving DecidableEq, Repr

/-! ### The device -/

/-- Metadata of a line (R220). -/
structure LineMeta where
  version : BitVec 48 := 0
  poison  : Bool := false
  deriving DecidableEq, Repr

/-- A decrement on its way to its record's home (R41): the record's physical and virtual address and the job of the
root entry it translated through; `host` when it came through HIF_TDEC; `fired` once the counter has reached 0 and a full deferred ring holds
the record (R58); `eng` names the command whose retire action it is, on path C (R228, R302); `list` numbers the successor list that it stands in, whose decrements
perform in order, 0 for none (R43). -/
structure Dec where
  record : BitVec 48
  pa   : PAddr
  key  : BitVec 6
  job  : BitVec 6
  host : Bool
  core : Option CoreRef
  fired : Bool := false
  eng  : Option Nat := none
  list : Nat := 0
  deriving DecidableEq, Repr

/-- The checkpoint engine (R401, R402). -/
structure Cke where
  ctl     : Word := 0
  base    : Word := 0
  lines   : Word := 0
  running : Bool := false
  deriving DecidableEq, Repr

/-- A host access that waits (R39, R40, R402): of memory, of HIF_TDEC, of a management register, or a write of HIF_TDEC that is dropped when its turn
comes. -/
inductive HostWrite where
  | mem (pa : PAddr) (data : List Byte)
  | tdec (v : Word)
  | read (pa : PAddr) (len : Nat)
  | reg (off : BitVec 16) (size : Nat) (v : Word)
  | drop
  deriving DecidableEq, Repr

/-- An aperture's registers (R222). -/
structure Aperture where
  base  : Word := 0
  shape : Word := 0
  key   : Word := 0
  deriving DecidableEq, Repr

/-- Host interface and the other state of the device as a whole. `compHeld` holds the starts of companion cores that wait for a channel group (R39,
R326). -/
structure Device where
  run      : Bool
  err      : BitVec 8
  accept   : Vector Word 4
  fwAddr   : Word
  fwLen    : Word
  fwMain   : Sparse Word32
  fwComp   : Sparse Word32
  ptroot   : Word
  tlbInv   : Option (Option (BitVec 32))
  fabRank  : Word
  fabGrp   : Vector Word 4
  keyCmd   : Word
  keyData  : BitVec 512
  keySlots : Sparse (BitVec 513)
  apt      : Vector Aperture 64
  fgrp     : Vector Word 64
  pclr     : Option (BitVec 45)
  cke      : Cke
  tdecQ    : List Word
  decs     : List Dec
  bindings : List Binding
  moved    : List (Nat × Nat)
  hostRead : List Byte
  hostHeld : List HostWrite
  compHeld : List (BitVec 6 × Word)
  saved    : List Saved
  deriving DecidableEq, Repr

/-- A move that goes first: one that the environment has put there, a step of an agent or a core's turn to issue (log 3); a write of a management register
by a core or an engine, or the first one of the host that waits on the link (R32, R40). -/
inductive Move where
  | event (i : Instr)
  | turn (c : CoreRef)
  | register (off : BitVec 16) (size : Nat) (v : Word)
  | link
  deriving DecidableEq, Repr

/-- The whole package. `core` is the core in focus, `me` its name; the other cores that hold state are in `others`,
by die × 256 + number. `flaws` names the lines whose next
write meets an uncorrectable error: an input of the model (log 16). `due` counts the turns since the units last went on by themselves (log 3).
`held` notes that a move met a channel group that is not ready and waits for it (R39). -/
structure State where
  me      : CoreRef
  core    : Core
  others  : Sparse Core
  dies    : Vector Die 4
  dev     : Device
  mem     : Sparse Byte
  lines   : Sparse LineMeta
  flaws   : List Nat
  agenda  : List Move
  due     : Nat
  fresh   : Nat
  held    : Bool
  deriving DecidableEq, Repr

/-! ### Reset -/

/-- The registers at task entry, for a main or a companion core; a reset clears them to the same values (R25, R117). -/
def Regs.zero : Regs where
  s := Vector.replicate 32 0
  sFull := BitVec.allOnes 32
  a := Vector.replicate 32 0
  aFull := BitVec.allOnes 32
  aMode := Vector.replicate 32 {}
  d := Vector.replicate 16 0
  wBase := Vector.replicate 8 0
  wLen := Vector.replicate 8 0
  v := Vector.replicate 64 0
  p := (Vector.replicate 16 0).set 0 (BitVec.allOnes 1024)
  g := Vector.replicate 16 0
  y := Vector.replicate 16 0
  k := 0
  codebook := 0
  n := Vector.replicate 8 none
  pc := 0
  pend := none
  shadow := 0
  ended := false
  loops := []
  vrb := 0
  prb := 0
  status := 0
  fpstat := 0
  tileFlags := 0
  seed := 0
  rnd := 0
  dbgPend := false
  trapPc := 0
  trapCause := 0
  trapVal := 0
  sem := Vector.replicate 64 0
  countQ := []
  wakeQ := []
  comp := Vector.replicate 8 none
  cb := Vector.replicate 8 {}
  mailbox := []
  claims := []
  asked := 0
  bank := Vector.replicate 4 {}
  arrived := Vector.replicate 8 0
  flight := []
  stores := []
  loads := []
  ckptDue := false
  before := []

/-- A core that runs nothing, as reset leaves it (R35, R117). -/
def Core.zero : Core where
  regs := Regs.zero
  tiles := []
  bankRow := []
  rb := Vector.replicate 16 0
  scratch := []
  ev := Vector.replicate 8 0
  evSrc := Vector.replicate 8 0
  cycles := 0
  bundles := 0
  task := none
  life := .running
  quantum := 0
  base := 0
  textLen := 0
  text := []
  captured := none
  memq := []
  adds := []
  cmds := []
  cmdNo := 0
  cids := []
  stale := []
  reports := []
  fwTrap := none
  errDue := false
  lostWrites := []
  lostAdds := []
  lostTokens := []
  yielded := []
  requests := []
  preload := none
  snapshot := none
  journal := []
  rerun := none
  tlb := []
  walks := []
  l1 := []
  badUnits := []
  issue := {}

/-- A die as reset leaves it (R35, R49, R50). -/
def Die.zero : Die where
  ready := 0
  qntPrompt := 4096
  qntGen := 1024
  gen := false
  slice := 4096 * 1024
  queues := Vector.replicate 16 []
  gather := []
  reserve := []
  ringFull := []
  rings := []
  launches := []
  tlb := []
  walkLast := 0
  l2split := 0
  l2want := none
  kill := 0
  faultRing := 0
  posts := []
  sfx := []
  sfxOps := []
  sfxFlaws := []
  fuller := []
  early := []
  episodes := []
  devCnt := Vector.replicate 16 0
  devSel := Vector.replicate 16 0
  isl := Vector.replicate 32 {}
  retired := []
  fell := 0

/-- The device as reset leaves it (R33-R35, R212, R215, R219, R378, R401). -/
def Device.zero : Device where
  run := false
  err := 0
  accept := Vector.replicate 4 0
  fwAddr := 0
  fwLen := 0
  fwMain := []
  fwComp := []
  ptroot := 0
  tlbInv := none
  fabRank := 0
  fabGrp := Vector.replicate 4 0
  keyCmd := 0
  keyData := 0
  keySlots := []
  apt := Vector.replicate 64 {}
  fgrp := Vector.replicate 64 0
  pclr := none
  cke := {}
  tdecQ := []
  decs := []
  bindings := []
  moved := []
  hostRead := []
  hostHeld := []
  compHeld := []
  saved := []

/-- The machine right after reset: no task runs, no feature is accepted, no function is ready; memory lists nothing. -/
def State.reset : State where
  me := ⟨0, 0⟩
  core := Core.zero
  others := []
  dies := Vector.replicate 4 Die.zero
  dev := Device.zero
  mem := []
  lines := []
  flaws := []
  agenda := []
  due := 0
  fresh := 0
  held := false

end Sys2Proof.Machine
end

