-- ==== Sys2Proof/Machine/Sparse.lean ====
section
/-! DEFINITION. Operations on sparse maps and on bytes: the canonical form, and the byte order of R6 in one place. -/

namespace Sys2Proof.Machine

open Sys2Proof

variable {β : Type}

/-- The value a map lists for a key. -/
def Sparse.find? : Sparse β → Nat → Option β
  | [], _ => none
  | (k, v) :: t, a => if a = k then some v else Sparse.find? t a

/-- A key's value; an unlisted key has the default. -/
def Sparse.get (dflt : β) (m : Sparse β) (a : Nat) : β := (Sparse.find? m a).getD dflt

/-- Lists a value at its place in the key order. -/
def Sparse.put : Sparse β → Nat → β → Sparse β
  | [], a, v => [(a, v)]
  | (k, w) :: t, a, v => if a < k then (a, v) :: (k, w) :: t else if a = k then (a, v) :: t else (k, w) :: Sparse.put t a v

/-- Unlists a key. -/
def Sparse.del : Sparse β → Nat → Sparse β
  | [], _ => []
  | (k, w) :: t, a => if a = k then Sparse.del t a else (k, w) :: Sparse.del t a

/-- Writes a key, keeping the canonical form: the default is never listed. -/
def Sparse.set [DecidableEq β] (dflt : β) (m : Sparse β) (a : Nat) (v : β) : Sparse β :=
  if v = dflt then Sparse.del m a else Sparse.put m a v

/-- All keys of a map lie above a bound. -/
def Sparse.above (lo : Nat) : Sparse β → Bool
  | [] => true
  | (k, _) :: t => decide (lo < k) && Sparse.above k t

/-- The keys of a map rise strictly. -/
def Sparse.sorted : Sparse β → Bool
  | [] => true
  | (k, _) :: t => Sparse.above k t

/-- The canonical form: the keys rise strictly and no entry is the default. -/
def Sparse.wf [DecidableEq β] (dflt : β) (m : Sparse β) : Bool :=
  Sparse.sorted m && m.all (fun e => decide (e.2 ≠ dflt))

/-- Memory in canonical form; an unlisted byte reads 0 (log 1). -/
def Memory.wf (m : Sparse Byte) : Bool := Sparse.wf 0 m

/-- The number that little-endian bytes spell (R6). -/
def leNat : List Byte → Nat
  | [] => 0
  | b :: t => b.toNat + 256 * leNat t

/-- The n low bytes of a number, little-endian (R6). -/
def leBytes : Nat → Nat → List Byte
  | 0, _ => []
  | n + 1, x => BitVec.ofNat 8 x :: leBytes n (x / 256)

/-- n consecutive values of a map. -/
def Sparse.range (dflt : β) (m : Sparse β) : Nat → Nat → List β
  | _, 0 => []
  | a, n + 1 => Sparse.get dflt m a :: Sparse.range dflt m (a + 1) n

/-- Writes consecutive values. -/
def Sparse.setRange [DecidableEq β] (dflt : β) (m : Sparse β) (a : Nat) : List β → Sparse β
  | [] => m
  | v :: t => Sparse.setRange dflt (Sparse.set dflt m a v) (a + 1) t

/-- The value of n bits sign-extended (R133). -/
def sx (n : Nat) (x : BitVec n) : Word := x.signExtend 64

/-- The value of n bits zero-extended (R133). -/
def zx (n : Nat) (x : BitVec n) : Word := x.setWidth 64

/-- A field of a word: len bits from lo. -/
def bits (w : BitVec n) (lo len : Nat) : Nat := (w.toNat >>> lo) % 2 ^ len

/-- The number of list entries that satisfy a test. -/
def countIf (p : β → Bool) : List β → Nat
  | [] => 0
  | x :: t => (if p x then 1 else 0) + countIf p t

/-- A list with its k-th entry left out. -/
def dropAt : List β → Nat → List β
  | [], _ => []
  | _ :: t, 0 => t
  | x :: t, k + 1 => x :: dropAt t k

/-- A list with its k-th entry replaced. -/
def setAt : List β → Nat → β → List β
  | [], _, _ => []
  | _ :: t, 0, y => y :: t
  | x :: t, k + 1, y => x :: setAt t k y

/-! ### Cores and dies -/

end Sys2Proof.Machine

namespace Sys2Proof

/-- The number of a core among all cores: die × 256 + number. -/
def CoreRef.num (c : CoreRef) : Nat := c.die.toNat * 256 + c.idx.toNat

/-- A core by its number. -/
def CoreRef.ofNum (k : Nat) : CoreRef := ⟨BitVec.ofNat 2 (k / 256), BitVec.ofNat 8 k⟩

/-- A companion core (R322). -/
def CoreRef.isComp (c : CoreRef) : Bool := decide (144 ≤ c.idx.toNat)

/-- The cluster of a core within its die (R118). -/
def CoreRef.cluster (c : CoreRef) : Nat := if c.isComp then c.idx.toNat - 144 else c.idx.toNat / 12

/-- The companion core of a core's cluster (R322). -/
def CoreRef.comp (c : CoreRef) : CoreRef := ⟨c.die, BitVec.ofNat 8 (144 + c.cluster)⟩

end Sys2Proof

namespace Sys2Proof.Machine

open Sys2Proof

/-- A core's state. -/
def State.getCore (s : State) (c : CoreRef) : Core :=
  if c = s.me then s.core else (Sparse.find? s.others c.num).getD Core.zero

/-- Sets a core's state. -/
def State.setCore (s : State) (c : CoreRef) (x : Core) : State :=
  if c = s.me then { s with core := x } else { s with others := Sparse.put s.others c.num x }

/-- Changes a core's state. -/
def State.onCore (s : State) (c : CoreRef) (f : Core → Core) : State := s.setCore c (f (s.getCore c))

/-- Changes every core that holds state. -/
def State.onCores (s : State) (f : Core → Core) : State :=
  { s with core := f s.core, others := s.others.map fun e => (e.1, f e.2) }

/-- Changes the registers of the core in focus. -/
def State.onRegs (s : State) (f : Regs → Regs) : State := { s with core := { s.core with regs := f s.core.regs } }

/-- Brings a core into focus. -/
def State.focus (s : State) (c : CoreRef) : State :=
  if c = s.me then s
  else { s with me := c, core := s.getCore c, others := Sparse.put (Sparse.del s.others c.num) s.me.num s.core }

/-- Does something with another core in focus and gives the focus back. -/
def State.within (s : State) (c : CoreRef) (f : State → State) : State :=
  if c = s.me then f s else (f (s.focus c)).focus s.me

/-- A die's state. -/
def State.die (s : State) (d : BitVec 2) : Die := s.dies[d.toNat]'(d.isLt)

/-- Changes a die's state. -/
def State.onDie (s : State) (d : BitVec 2) (f : Die → Die) : State :=
  { s with dies := s.dies.set d.toNat (f (s.die d)) d.isLt }

/-- Changes the device's state. -/
def State.onDev (s : State) (f : Device → Device) : State := { s with dev := f s.dev }

/-- A feature of R37 has been accepted. -/
def State.feature (s : State) (i : Nat) : Bool := s.dev.accept[0].getLsbD i

/-- A function of a die is ready (R39). -/
def State.isReady (s : State) (d : BitVec 2) (i : Nat) : Bool := (s.die d).ready.getLsbD i

/-- The cores that hold state, by number: the core in focus and the others. -/
def State.coreNums (s : State) : List Nat := s.me.num :: (s.others.map Prod.fst).filter (· ≠ s.me.num)

end Sys2Proof.Machine
end

