-- ==== Sys2Proof/Machine/Flags.lean ====
section
/-! DEFINITION. The flags: the bits of FPSTAT and of TILE_FLAGS, and the fields of STATUS (R121, R122, R266). -/

namespace Sys2Proof.Machine

open Sys2Proof

/-- The flags: NV, DZ, OF, UF, NX (R122). -/
abbrev Flags := BitVec 5
def flNV : Flags := 16
def flDZ : Flags := 8
def flOF : Flags := 4
def flUF : Flags := 2
def flNX : Flags := 1

/-- Tile flags: range, inexact, overflow, invalid (R122, R266). -/
abbrev TFlags := BitVec 4

/-- The tile flags of a rounding. -/
def tflagsOf (fl : Flags) : TFlags :=
  (if fl &&& flNV = 0 then 0 else 1) ||| (if fl &&& flOF = 0 then 0 else 2) ||| (if fl &&& flNX = 0 then 0 else 4)

/-- The fields of STATUS that an MTSR writes: DIVZT takes the value, WQ_OVF and OHRANGE clear where a 1 is written (R121, R154). -/
def statusWrite (old v : Word) : Word := (old &&& ~~~ (8#64 ||| (v &&& 0x30))) ||| (v &&& 8)

end Sys2Proof.Machine
end

