-- ==== Sys2Proof/Machine/Crypto.lean ====
section
/-! DEFINITION. The two published functions that the spec names: CRC-32C (R35, R350, R374, R386; log 15) and AES-256
in XTS mode (R218; log 12). -/

namespace Sys2Proof.Machine

open Sys2Proof

/-- One bit of the CRC-32C register, reflected. -/
def crcBit (c : BitVec 32) : BitVec 32 := if c.getLsbD 0 then (c >>> 1) ^^^ 0x82F63B78#32 else c >>> 1

/-- One byte into the CRC-32C register. -/
def crcByte (c : BitVec 32) (b : Byte) : BitVec 32 := (List.range 8).foldl (fun c _ => crcBit c) (c ^^^ b.setWidth 32)

/-- The register after more bytes. -/
def crcMore (c : BitVec 32) (bs : List Byte) : BitVec 32 := bs.foldl crcByte c

/-- CRC-32C of bytes. -/
def crc32c (bs : List Byte) : BitVec 32 := ~~~ (crcMore 0xFFFFFFFF#32 bs)

/-- Doubling in the field of AES. -/
def gfDouble (x : Byte) : Byte := if x.getLsbD 7 then (x <<< 1) ^^^ 0x1B#8 else x <<< 1

/-- Multiplication in the field of AES, over the bits of y from bit 8 − n upward. -/
def gfMulAux : Nat → Byte → Byte → Byte
  | 0, _, _ => 0
  | n + 1, x, y => (if y.getLsbD 0 then x else 0) ^^^ gfMulAux n (gfDouble x) (y >>> 1)

/-- Multiplication in the field of AES. -/
def gfMul (x y : Byte) : Byte := gfMulAux 8 x y

/-- The inverse in the field of AES: the power 254; 0 for 0. -/
def gfInv (x : Byte) : Byte :=
  let x2 := gfMul x x
  let x4 := gfMul x2 x2
  let x8 := gfMul x4 x4
  let x16 := gfMul x8 x8
  let x32 := gfMul x16 x16
  let x64 := gfMul x32 x32
  let x128 := gfMul x64 x64
  gfMul x2 (gfMul x4 (gfMul x8 (gfMul x16 (gfMul x32 (gfMul x64 x128)))))

/-- The substitution of AES. -/
def aesSub (x : Byte) : Byte :=
  let b := gfInv x
  b ^^^ b.rotateLeft 1 ^^^ b.rotateLeft 2 ^^^ b.rotateLeft 3 ^^^ b.rotateLeft 4 ^^^ 0x63#8

/-- The inverse substitution of AES. -/
def aesUnsub (x : Byte) : Byte := gfInv (x.rotateLeft 1 ^^^ x.rotateLeft 3 ^^^ x.rotateLeft 6 ^^^ 0x05#8)

/-- The byte at an index of a block. -/
def byteAt (l : List Byte) (i : Nat) : Byte := l.getD i 0

/-- Bytes of two blocks added. -/
def xorBytes (x y : List Byte) : List Byte := x.zipWith (· ^^^ ·) y

/-- The next eight words (32 bytes) of the AES-256 key schedule. -/
def aesNextKey (k : List Byte) (rcon : Byte) : List Byte :=
  let g (i : Nat) := byteAt k i
  let t0 := aesSub (g 29) ^^^ rcon
  let w0 := [g 0 ^^^ t0, g 1 ^^^ aesSub (g 30), g 2 ^^^ aesSub (g 31), g 3 ^^^ aesSub (g 28)]
  let w1 := xorBytes w0 ((k.drop 4).take 4)
  let w2 := xorBytes w1 ((k.drop 8).take 4)
  let w3 := xorBytes w2 ((k.drop 12).take 4)
  let w4 := xorBytes (w3.map aesSub) ((k.drop 16).take 4)
  let w5 := xorBytes w4 ((k.drop 20).take 4)
  let w6 := xorBytes w5 ((k.drop 24).take 4)
  let w7 := xorBytes w6 ((k.drop 28).take 4)
  w0 ++ w1 ++ w2 ++ w3 ++ w4 ++ w5 ++ w6 ++ w7

/-- The key schedule: n blocks of 32 bytes. -/
def aesSchedule : Nat → List Byte → Byte → List Byte
  | 0, _, _ => []
  | n + 1, k, rcon => k ++ aesSchedule n (aesNextKey k rcon) (gfDouble rcon)

/-- The round keys of a 32-byte key: fifteen of 16 bytes. -/
def aesKeys (key : List Byte) : List Byte := aesSchedule 8 key 1

/-- The k-th round key. -/
def roundKey (ks : List Byte) (k : Nat) : List Byte := (ks.drop (16 * k)).take 16

/-- The row shift of AES. -/
def aesShift (b : List Byte) : List Byte := (List.range 16).map fun i => byteAt b ((i + 4 * (i % 4)) % 16)

/-- The inverse row shift of AES. -/
def aesUnshift (b : List Byte) : List Byte := (List.range 16).map fun i => byteAt b ((i + 12 * (i % 4)) % 16)

/-- The column mix of AES with the given coefficients. -/
def aesMixWith (c0 c1 c2 c3 : Byte) (b : List Byte) : List Byte :=
  (List.range 16).map fun i =>
    let c := 4 * (i / 4)
    let r := i % 4
    gfMul c0 (byteAt b (c + r)) ^^^ gfMul c1 (byteAt b (c + (r + 1) % 4)) ^^^ gfMul c2 (byteAt b (c + (r + 2) % 4))
      ^^^ gfMul c3 (byteAt b (c + (r + 3) % 4))

/-- The rounds of AES encryption from round k on; n rounds are left. -/
def aesRounds (ks : List Byte) : Nat → Nat → List Byte → List Byte
  | 0, k, b => xorBytes (aesShift (b.map aesSub)) (roundKey ks k)
  | n + 1, k, b => aesRounds ks n (k + 1) (xorBytes (aesMixWith 2 3 1 1 (aesShift (b.map aesSub))) (roundKey ks k))

/-- AES-256 encryption of a block. -/
def aesEncrypt (ks : List Byte) (b : List Byte) : List Byte := aesRounds ks 13 1 (xorBytes b (roundKey ks 0))

/-- The rounds of AES decryption down to round 0. -/
def aesUnrounds (ks : List Byte) : Nat → List Byte → List Byte
  | 0, b => xorBytes b (roundKey ks 0)
  | n + 1, b =>
    let x := xorBytes b (roundKey ks (n + 1))
    let y := if n + 1 = 14 then x else aesMixWith 14 11 13 9 x
    aesUnrounds ks n ((aesUnshift y).map aesUnsub)

/-- AES-256 decryption of a block. -/
def aesDecrypt (ks : List Byte) (b : List Byte) : List Byte := aesUnrounds ks 14 b

/-- The tweak of the next block: the field element times x, of 128 bits. -/
def xtsNext (t : BitVec 128) : BitVec 128 := if t.getLsbD 127 then (t <<< 1) ^^^ 0x87#128 else t <<< 1

/-- The blocks of a line from tweak t on, through the cipher f. -/
def xtsBlocks (f : List Byte → List Byte) : Nat → BitVec 128 → List Byte → List Byte
  | 0, _, _ => []
  | n + 1, t, bs =>
    let tb := leBytes 16 t.toNat
    xorBytes (f (xorBytes (bs.take 16) tb)) tb ++ xtsBlocks f n (xtsNext t) (bs.drop 16)

/-- The first tweak of a line: its version in [127:80] and its line address in [44:0], encrypted (R218). -/
def xtsTweak (key : BitVec 512) (line : Nat) (version : BitVec 48) : BitVec 128 :=
  BitVec.ofNat 128 (leNat (aesEncrypt (aesKeys (leBytes 32 (key.toNat >>> 256)))
    (leBytes 16 (version.toNat <<< 80 ||| line % 2 ^ 45))))

/-- A line as stored under a key, at its version (R218). -/
def lineEncrypt (key : BitVec 512) (line : Nat) (version : BitVec 48) (bs : List Byte) : List Byte :=
  xtsBlocks (aesEncrypt (aesKeys (leBytes 32 (key.toNat % 2 ^ 256)))) 8 (xtsTweak key line version) bs

/-- The plaintext of a stored line (R218). -/
def lineDecrypt (key : BitVec 512) (line : Nat) (version : BitVec 48) (bs : List Byte) : List Byte :=
  xtsBlocks (aesDecrypt (aesKeys (leBytes 32 (key.toNat % 2 ^ 256)))) 8 (xtsTweak key line version) bs

end Sys2Proof.Machine
end

