-- ==== Sys2Proof/Machine/Mgmt.lean ====
section
/-! DEFINITION. Reading the management registers (R32-R40, R49, R205, R209, R212, R215, R219, R222, R326, R363, R365, R378,
R386, R400, R401, R404). -/

namespace Sys2Proof.Machine

open Sys2Proof

/-- The features that the device offers (R37). -/
def featureOffer : Word := 0x7F

/-- An island's register (R404). -/
def Island.word (x : Island) : Word := x.req.setWidth 64 ||| (x.cur.setWidth 64 <<< 4) ||| (if x.thr then 0x100 else 0)

/-- The register HIF_COMP_START of a companion core: the running record and BUSY (R326); a start that waits holds BUSY
too (R39). -/
def State.compWord (s : State) (c : CoreRef) : Word :=
  match (s.getCore c).task with
  | none =>
    match s.dev.compHeld.find? fun x => x.1.toNat == c.die.toNat * 12 + (c.idx.toNat - 144) with
    | some x => (x.2 &&& 0x0000FFFFFFFFFF80) ||| 1
    | none => 0
  | some t => t.addr.setWidth 64 ||| 1

/-- The 64-bit register at an 8-byte aligned offset of the management region; every other offset reads as zero. -/
def State.mgmt (s : State) (off : Nat) : Word :=
  let i8 (base : Nat) := (off - base) / 8
  let d2 (k : Nat) : BitVec 2 := BitVec.ofNat 2 k
  if off = 0x0000 then 0x05760192
  else if off = 0x0008 then (if s.dev.run then 1 else 0)
  else if off = 0x0010 then s.dev.err.setWidth 64
  else if off = 0x0100 then featureOffer
  else if 0x0120 ≤ off ∧ off < 0x0140 then (s.dev.accept.toList).getD (i8 0x0120) 0
  else if 0x0200 ≤ off ∧ off < 0x0220 then (s.die (d2 (i8 0x0200))).ready.setWidth 64
  else if off = 0x0300 then s.dev.fwAddr
  else if off = 0x0308 then s.dev.fwLen
  else if 0x0400 ≤ off ∧ off < 0x0500 then
    let x := s.die (d2 ((off - 0x0400) / 0x40))
    let r := (off - 0x0400) % 0x40
    if r = 0 then x.qntPrompt.setWidth 64 else if r = 8 then x.qntGen.setWidth 64
    else if r = 0x10 then (if x.gen then 1 else 0) else 0
  else if off = 0x0500 then s.dev.ptroot
  else if off = 0x0508 then (if s.dev.tlbInv.isSome then 1 else 0)
  else if 0x0510 ≤ off ∧ off < 0x0530 then (s.die (d2 (i8 0x0510))).l2split
  else if off = 0x0540 then s.dev.fabRank
  else if 0x0548 ≤ off ∧ off < 0x0568 then (s.dev.fabGrp.toList).getD (i8 0x0548) 0
  else if 0x0600 ≤ off ∧ off < 0x0620 then (s.die (d2 (i8 0x0600))).kill
  else if 0x0620 ≤ off ∧ off < 0x0640 then (s.die (d2 (i8 0x0620))).faultRing
  else if off = 0x0660 then (if s.dev.pclr.isSome then 1 else 0)
  else if off = 0x0700 then s.dev.keyCmd &&& ~~~3#64
  else if 0x0800 ≤ off ∧ off < 0x1000 then
    let a := (s.dev.apt.toList).getD ((off - 0x0800) / 32) {}
    let r := off % 32
    if r = 0 then a.base else if r = 8 then a.shape else if r = 16 then a.key else 0
  else if 0x1000 ≤ off ∧ off < 0x1180 then
    let n := i8 0x1000
    s.compWord ⟨d2 (n / 12), BitVec.ofNat 8 (144 + n % 12)⟩
  else if 0x1200 ≤ off ∧ off < 0x1400 then (s.dev.fgrp.toList).getD (i8 0x1200) 0
  else if 0x1800 ≤ off ∧ off < 0x1C00 then
    let x := s.die (d2 ((off - 0x1800) / 0x100))
    let r := (off - 0x1800) % 0x100
    if r < 0x80 then (x.devCnt.toList).getD (r / 8) 0
    else if r < 0x100 then ((x.devSel.toList).getD ((r - 0x80) / 8) 0).setWidth 64 else 0
  else if 0x1C00 ≤ off ∧ off < 0x2000 then
    let x := s.die (d2 ((off - 0x1C00) / 0x100))
    (((x.isl.toList)[((off - 0x1C00) % 0x100) / 8]?).map Island.word).getD 0
  else if off = 0x2000 then s.dev.cke.ctl
  else if off = 0x2008 then s.dev.cke.base
  else if off = 0x2010 then s.dev.cke.lines
  else 0

/-- A read of the management region: any size but 8 bytes, or a misaligned one, reads as zero (R32). -/
def State.mgmtRead (s : State) (off size : Nat) : Word := if size = 8 ∧ off % 8 = 0 then s.mgmt off else 0

end Sys2Proof.Machine
end

