-- ==== Sys2Proof/Machine/Memory.lean ====
section
/-! DEFINITION. The physical address map, lines with their metadata and encryption, scratchpads, apertures and
translation (10_memory, 21_interrupted R377). -/

namespace Sys2Proof.Machine

open Sys2Proof

/-- Why an access does not happen: not translated, no permission, a staging or an aperture limit, poison; or it waits for its channel group to be
ready (R39). -/
inductive Flt where
  | absent | perm | staging | aperture | poison | wait
  deriving DecidableEq, Repr

/-- The trap cause of a failure on the S path (R153, R210, R222, R377); an access that waits has none. -/
def Flt.cause : Flt → BitVec 8
  | .absent | .wait => 0x08
  | .perm | .staging | .aperture => 0x09
  | .poison => 0x0A

/-- The failure code of an engine command (R232); absent parks instead. -/
def Flt.code : Flt → Nat
  | .staging => 0x02
  | .aperture => 0x03
  | .perm => 0x09
  | .poison | .absent | .wait => 0

/-- The regions of the physical address map (R203). -/
inductive Region where
  | device (die : Nat)
  | scratch (c : CoreRef) (off : Nat)
  | staging (die : Nat) (off : Nat)
  | mgmt (off : Nat)
  | aperture (n off : Nat)
  | other (rank : Nat)
  | host
  | reserved
  deriving DecidableEq, Repr

/-- Bytes of device memory per die: 48 GiB (R203). -/
def dieBytes : Nat := 0xC00000000

/-- The region of an address (R203). -/
def region (pa : Nat) : Region :=
  let top := pa / 2 ^ 48
  let low := pa % 2 ^ 48
  if top = 0 then (if low < 4 * dieBytes then .device (low / dieBytes) else .reserved)
  else if top = 1 then
    let core := (low / 2 ^ 21) % 2 ^ 9
    if low < 2 ^ 32 ∧ core < 144 then .scratch ⟨BitVec.ofNat 2 (low / 2 ^ 30), BitVec.ofNat 8 core⟩ (low % 2 ^ 21) else .reserved
  else if top = 2 then (if low < 2 ^ 29 then .staging (low / 2 ^ 27) (low % 2 ^ 23) else .reserved)
  else if top = 3 then (if low < 0x10000 then .mgmt low else .reserved)
  else if top = 4 then (if low / 2 ^ 36 < 64 then .aperture (low / 2 ^ 36) (low % 2 ^ 36) else .reserved)
  else if top = 7 then .other (low / 2 ^ 40)
  else if 8 ≤ top then .host
  else .reserved

/-- Where an address lies now: a request to a frame whose page has migrated is re-aimed at the new frame (R380). -/
def State.reaim (s : State) (pa : Nat) : Nat :=
  match s.dev.moved.find? fun m => m.1 == pa / 2 ^ 16 with
  | some m => m.2 * 2 ^ 16 + pa % 2 ^ 16
  | none => pa

/-- This device's own rank: an access through region 0x7 that names it reaches its own device memory (R203, R205). -/
def State.resolve (s : State) (pa : Nat) : Nat :=
  s.reaim (match region pa with
    | .other r => if s.dev.fabRank.getLsbD 8 ∧ r = bits s.dev.fabRank 0 8 then pa % 2 ^ 40 else pa
    | _ => pa)

/-- A rank is in the device's fabric group (R205). -/
def State.inGroup (s : State) (r : Nat) : Bool := ((s.dev.fabGrp.toList).getD (r / 64) 0).getLsbD (r % 64)

/-- A line carries versions: device memory, on this device or another (R221). -/
def versioned (pa : Nat) : Bool :=
  match region pa with
  | .device _ | .other _ => true
  | _ => false

/-- The die that owns an address of device memory (R203). -/
def ownerDie (pa : Nat) : BitVec 2 := BitVec.ofNat 2 (pa / dieBytes)

/-- The home slice of a line on its die (R211). -/
def homeSlice (pa : Nat) : Nat :=
  let n := (pa / 128) % 2 ^ 32
  (List.range 8).foldl (fun h i => h ^^^ ((n >>> (4 * i)) % 16)) 0

/-- The channel group of an address is ready (R39, R204). -/
def State.channelReady (s : State) (pa : Nat) : Bool :=
  match region pa with
  | .device d => s.isReady (BitVec.ofNat 2 d) (12 + (pa % dieBytes) / 0x300000000)
  | _ => true

/-- Adds to the counters of a die that count an event (R400). -/
def State.dieEvent (s : State) (d : BitVec 2) (code : BitVec 8) (n : Nat) : State :=
  s.onDie d fun x => { x with devCnt := x.devCnt.zipWith (fun c src => if src = code then c + BitVec.ofNat 64 n else c) x.devSel }

/-! ### Lines -/

/-- A line's metadata (R220). -/
def State.lineMeta (s : State) (line : Nat) : LineMeta := Sparse.get {} s.lines line

/-- The key that a slot holds (R218). -/
def State.key? (s : State) (k : Nat) : Option (BitVec 512) :=
  let w := Sparse.get 0 s.dev.keySlots k
  if w.getLsbD 512 then some (w.setWidth 512) else none

/-- The bytes of a line as a path with the given key slot sees them: plaintext (R218). -/
def State.linePlain (s : State) (key line : Nat) : List Byte :=
  let raw := Sparse.range 0 s.mem (128 * line) 128
  if key = 0 then raw
  else match s.key? key with
    | some k => lineDecrypt k line (s.lineMeta line).version raw
    | none => raw

/-- Memory with bytes of one line stored; an encrypted line is stored whole under a version (R218). -/
def State.stored (s : State) (key pa : Nat) (v : BitVec 48) (bs : List Byte) : Sparse Byte :=
  match if key = 0 then none else s.key? key with
  | none => Sparse.setRange 0 s.mem pa bs
  | some k =>
    let line := pa / 128
    let old := s.linePlain key line
    Sparse.setRange 0 s.mem (128 * line) (lineEncrypt k line v (old.take (pa % 128) ++ bs ++ old.drop (pa % 128 + bs.length)))

/-- One write operation at a line's home (R221, R377): with poison, or an uncorrectable error, it is not performed and the answer
says so; otherwise the version advances by one, and an encrypted line is stored whole under its new version. -/
def State.writeLine (s : State) (key pa : Nat) (bs : List Byte) : State × Bool :=
  let line := pa / 128
  let m := s.lineMeta line
  if m.poison then (s, true)
  else if line ∈ s.flaws then
    let s1 : State := { s with flaws := s.flaws.filter (· ≠ line), lines := Sparse.set {} s.lines line { m with poison := true } }
    (s1.dieEvent (ownerDie pa) 0x0B 1, true)
  else
    let v := m.version + 1
    ({ s with mem := s.stored key pa v bs, lines := Sparse.set {} s.lines line { m with version := v } }, false)

/-- The pieces of a range, none across a line boundary. -/
def linePieces : Nat → Nat → Nat → List (Nat × Nat)
  | 0, _, _ => []
  | fuel + 1, pa, n =>
    if n = 0 then []
    else
      let k := Nat.min n (128 - pa % 128)
      (pa, k) :: linePieces fuel (pa + k) (n - k)

/-- Some line of a range is poisoned. -/
def State.anyPoison (s : State) (pa n : Nat) : Bool :=
  (linePieces (n / 128 + 2) pa n).any fun p => (s.lineMeta (p.1 / 128)).poison

/-- The bytes of a range in device memory, another device's or host memory. -/
def State.readPlain (s : State) (key pa n : Nat) : List Byte :=
  if key = 0 then Sparse.range 0 s.mem pa n
  else (linePieces (n / 128 + 2) pa n).flatMap fun p => ((s.linePlain key (p.1 / 128)).drop (p.1 % 128)).take p.2

/-- Write operations on a range of versioned lines, one for each line; the answer says whether one met poison. -/
def State.writeLines (s : State) (key : Nat) : List (Nat × Nat) → List Byte → State × Bool
  | [], _ => (s, false)
  | (pa, k) :: t, bs =>
    let r := s.writeLine key pa (bs.take k)
    let q := State.writeLines r.1 key t (bs.drop k)
    (q.1, r.2 || q.2)

/-- Writes on a range of lines that carry no version, in host memory and staging: those of an encrypted page are stored under version 0 (R218,
log 62). -/
def State.writeBare (s : State) (key : Nat) : List (Nat × Nat) → List Byte → State
  | [], _ => s
  | (pa, k) :: t, bs => State.writeBare { s with mem := s.stored key pa 0 (bs.take k) } key t (bs.drop k)

/-- Writes a range of memory that is no scratchpad, management register or aperture. -/
def State.writePlain (s : State) (key pa : Nat) (bs : List Byte) : State × Bool :=
  let l := linePieces (bs.length / 128 + 2) pa bs.length
  if versioned pa then s.writeLines key l bs else (s.writeBare key l bs, false)

/-! ### Scratchpads -/

/-- The task may use the upper bank (R26); a companion core's window is 256 KiB (R322). -/
def Core.window (x : Core) (comp : Bool) : Nat :=
  if comp then 0x40000
  else match x.task with
    | some t => if t.launch.getLsbD 33 then 0x200000 else 0x100000
    | none => 0x100000

/-- The units of 64 bytes that the undo journal holds at most (R373). -/
def journalUnits : Nat := 2048

/-- The units that an entry of the journal takes. -/
def Undo.units : Undo → Nat
  | .scratch _ _ | .tile _ _ | .bank _ _ => 1
  | .rb _ _ => 16

/-- Two entries record the same unit. -/
def Undo.same : Undo → Undo → Bool
  | .scratch a _, .scratch b _ => a == b
  | .tile a _, .tile b _ => a == b
  | .bank a _, .bank b _ => a == b
  | .rb a _, .rb b _ => a == b
  | _, _ => false

/-- Records a unit's old contents at its first write after a checkpoint; a full journal sets JOVF (R373). -/
def Core.record (x : Core) (u : Undo) : Core :=
  if x.snapshot.isNone ∨ x.regs.status.getLsbD 2 ∨ x.journal.any u.same then x
  else if journalUnits < (x.journal.map Undo.units).sum + u.units then
    { x with regs := { x.regs with status := x.regs.status ||| 4 } }
  else { x with journal := u :: x.journal }

/-- Records the scratchpad units of a range that a write touches: those with a byte that its mask enables (R373). -/
def Core.recordScratch (x : Core) (off : Nat) (on : List Bool) : Core :=
  (List.range ((off + on.length + 63) / 64 - off / 64)).foldl
    (fun x i =>
      let u := off / 64 + i
      if ((List.range on.length).zip on).any fun e => e.2 && (off + e.1) / 64 == u then x.record (.scratch u (Sparse.range 0 x.scratch (64 * u) 64))
      else x) x

/-- Pushes one token for each armed comparator that the written bytes overlap; a full queue drops it and sets WQ_OVF
(R277), which counts in task mode (R399). `wrote` lists the offsets written, rising. -/
def Core.wake (x : Core) (wrote : List Nat) : Core :=
  (List.range 8).foldl (fun x i =>
    match (x.regs.comp.toList).getD i none with
    | none => x
    | some (lo, len) =>
      match wrote.find? (fun o => decide (lo ≤ o ∧ o < lo + len)) with
      | none => x
      | some o =>
        if 32 ≤ x.regs.wakeQ.length then
          { x with regs := { x.regs with status := x.regs.status ||| 32 }
                   ev := if x.regs.status.getLsbD 0 then x.ev else x.ev.zipWith (fun c src => if src = 0x0D#8 then c + 1 else c) x.evSrc }
        else { x with regs := { x.regs with wakeQ := x.regs.wakeQ ++ [BitVec.ofNat 32 (i * 2 ^ 28 + o)] } }) x

/-- One write operation to a scratchpad: the bytes that the mask enables (R126, R277). -/
def Core.scratchStore (x : Core) (off : Nat) (bs : List (Byte × Bool)) : Core :=
  let x := x.recordScratch off (bs.map Prod.snd)
  let mem := (List.range bs.length).zip bs |>.foldl (fun m e => if e.2.2 then Sparse.set 0 m (off + e.1) e.2.1 else m) x.scratch
  let wrote := ((List.range bs.length).zip bs).filterMap fun e => if e.2.2 then some (off + e.1) else none
  { x with scratch := mem }.wake wrote

/-- The bytes of an engine command or a peer, written as one operation for each aligned 64-byte unit (R277). -/
def Core.scratchUnits : Nat → Core → Nat → List Byte → Core
  | 0, x, _, _ => x
  | fuel + 1, x, off, bs =>
    if bs.isEmpty then x
    else
      let k := Nat.min bs.length (64 - off % 64)
      Core.scratchUnits fuel (x.scratchStore off ((bs.take k).map (·, true))) (off + k) (bs.drop k)

/-- Writes bytes to a scratchpad for an engine or a peer. -/
def Core.scratchWrite (x : Core) (off : Nat) (bs : List Byte) : Core := Core.scratchUnits (bs.length / 64 + 2) x off bs

/-- A write of another party is not journalled (R373). -/
def Core.unjournalled (x : Core) (f : Core → Core) : Core := { f { x with snapshot := none } with snapshot := x.snapshot }

/-- The bytes of a scratchpad. -/
def Core.scratchRead (x : Core) (off n : Nat) : List Byte := Sparse.range 0 x.scratch off n

/-- A peer may see a byte of a core's scratchpad: the core runs a task of the job, which a supervisor access ignores, that sees the byte
(R206, R212). -/
def State.peerOk (s : State) (job : Option (BitVec 6)) (c : CoreRef) (off : Nat) : Bool :=
  let x := s.getCore c
  match x.task with
  | none => false
  | some t => job.all (fun j => t.job == j) && decide (off < x.window false)

/-! ### Apertures -/

/-- What an aperture does (R222). -/
structure Apt where
  base : Nat
  rows : Nat
  cols : Nat
  esz  : Nat
  kind : Nat
  key  : Nat
  deriving DecidableEq, Repr

/-- An aperture that is enabled and well formed (R222). -/
def State.apt? (s : State) (n : Nat) : Option Apt :=
  let a := (s.dev.apt.toList).getD n {}
  let e := bits a.shape 5 3
  let k := bits a.shape 2 3
  if a.shape.getLsbD 0 ∧ e ≤ 4 ∧ 1 ≤ k ∧ k ≤ 5 ∧ ((k = 2 ∨ k = 3) → 3 ≤ e) ∧ (4 ≤ k → e = 0) then
    some ⟨a.base.toNat % 2 ^ 52, bits a.shape 16 16 + 1, bits a.shape 32 16 + 1, 2 ^ e, k, bits a.key 0 6⟩
  else none

/-- The bytes of an aperture's view (R223). -/
def Apt.size (a : Apt) : Nat := (if 4 ≤ a.kind then 2 else 1) * a.rows * a.cols * a.esz

/-- The buffer byte behind a view offset (R223). -/
def Apt.addr (a : Apt) (o : Nat) : Nat :=
  if a.kind = 1 ∨ a.kind = 3 then
    let k := o / a.esz
    a.base + ((k % a.rows) * a.cols + k / a.rows) * a.esz + o % a.esz
  else if 4 ≤ a.kind then a.base + o / 2
  else a.base + o

/-- The buffer byte behind a view offset, where it lies now (R223, R380). -/
def State.aptAddr (s : State) (a : Apt) (o : Nat) : Nat := s.reaim (a.addr o)

/-- The sign byte of an imaginary part is inverted under conjugation (R223). -/
def Apt.flip (a : Apt) (o : Nat) (b : Byte) : Byte :=
  if (a.kind = 2 ∨ a.kind = 3) ∧ o % a.esz = a.esz - 1 then b ^^^ 0x80 else b

/-- The BF16 pattern of an E4M3 or E5M2 byte: exact; a NaN becomes the canonical NaN with its sign (R223). -/
def widen (e5 : Bool) (b : Byte) : BitVec 16 :=
  let sgn : BitVec 16 := (b.toNat >>> 7) <<< 15
  let x := b.toNat % 128
  let (eb, mb, bias) := if e5 then (5, 2, 15) else (4, 3, 7)
  let e := x >>> mb
  let f := x % 2 ^ mb
  if (e5 ∧ e = 31 ∧ f ≠ 0) ∨ (¬ e5 ∧ e = 15 ∧ f = 7) then sgn ||| 0x7FC0
  else if e5 ∧ e = 2 ^ eb - 1 then sgn ||| 0x7F80
  else if e = 0 then
    if f = 0 then sgn
    else
      let k := Nat.log2 f
      sgn ||| BitVec.ofNat 16 ((127 + 1 - bias - mb + k) * 128 + (f - 2 ^ k) * 2 ^ (7 - k))
  else sgn ||| BitVec.ofNat 16 ((e + 127 - bias) * 128 + f * 2 ^ (7 - mb))

/-- One byte of a view (R223). -/
def State.aptByte (s : State) (a : Apt) (o : Nat) : Byte :=
  let raw := (s.readPlain a.key (s.aptAddr a o) 1).headD 0
  if 4 ≤ a.kind then
    let w := widen (a.kind == 5) raw
    if o % 2 = 0 then w.setWidth 8 else (w >>> 8).setWidth 8
  else a.flip o raw

/-- Bytes written through a view, as runs that lie in one line each (R223). -/
def aptRuns (a : Apt) : Nat → List Byte → List (Nat × List Byte)
  | _, [] => []
  | o, b :: t =>
    let p := a.addr o
    match aptRuns a (o + 1) t with
    | (q, bs) :: r => if q = p + 1 ∧ p / 128 = q / 128 then (p, a.flip o b :: bs) :: r else (p, [a.flip o b]) :: (q, bs) :: r
    | [] => [(p, [a.flip o b])]

/-! ### Physical accesses -/

/-- Who makes an access: the job that its root entry must carry, and whether it is a supervisor access (R212). -/
structure Who where
  job : Option (BitVec 6)
  sup : Bool
  deriving DecidableEq, Repr

/-- The checks on a physical address and the size of an access (R203, R205, R210, R222, R223). -/
def State.physCheck (s : State) (w : Who) (write : Bool) (pa n : Nat) : Option Flt :=
  match region pa with
  | .device _ | .host => none
  | .scratch _ _ => none
  | .staging d off =>
    let sp := (s.die (BitVec.ofNat 2 d)).l2split
    if off + n ≤ bits sp 0 4 * 0x80000 ∧ w.job.all (fun j => j != 0 && j == BitVec.ofNat 6 (bits sp 8 6)) then none else some .staging
  | .mgmt _ => if w.sup then none else some .perm
  | .aperture k off =>
    match s.apt? k with
    | none => some .aperture
    | some a =>
      if a.size < off + n ∨ (write ∧ 4 ≤ a.kind) then some .perm
      else if a.key ≠ 0 ∧ (s.key? a.key).isNone then some .perm
      else none
  | .other r => if s.dev.fabRank.getLsbD 8 ∧ s.inGroup r ∧ pa % 2 ^ 40 < 4 * dieBytes then none else some .perm
  | .reserved => some .perm

/-- Reads a physical range that has passed its checks; poison answers as such (R153, R377). -/
def State.physRead (s : State) (w : Who) (key pa n : Nat) : Except Flt (List Byte) :=
  match region pa with
  | .scratch c off =>
    if (List.range n).any fun i => s.peerOk w.job c (off + i) && (s.getCore c).badUnits.contains ((off + i) / 64) then .error .poison
    else .ok ((List.range n).map fun i =>
      if s.peerOk w.job c (off + i) then Sparse.get 0 (s.getCore c).scratch (off + i) else 0)
  | .mgmt off => .ok (leBytes n (s.mgmtRead off n).toNat)
  | .aperture k off =>
    match s.apt? k with
    | none => .error .aperture
    | some a =>
      if (List.range n).any (fun i => (s.lineMeta (s.aptAddr a (off + i) / 128)).poison) then .error .poison
      else .ok ((List.range n).map fun i => s.aptByte a (off + i))
  | _ => if versioned pa ∧ s.anyPoison pa n then .error .poison else .ok (s.readPlain key pa n)

/-- Writes a physical range that has passed its checks; the answer says whether it met poison. A write to the
management region is put on the agenda as the register write it is. -/
def State.physWrite (s : State) (w : Who) (key pa : Nat) (bs : List Byte) : State × Bool :=
  match region pa with
  | .scratch c off =>
    if s.peerOk w.job c off then
      let keep := bs.take ((s.getCore c).window false - off)
      (s.onCore c (fun x => if c = s.me then x.scratchWrite off keep else x.unjournalled fun x => x.scratchWrite off keep), false)
    else (s, false)
  | .mgmt off =>
    ({ s with agenda := .register (BitVec.ofNat 16 off) bs.length (BitVec.ofNat 64 (leNat bs)) :: s.agenda }, false)
  | .aperture k off =>
    match s.apt? k with
    | none => (s, false)
    | some a => (aptRuns a off bs).foldl (fun r p => let q := r.1.writeLine a.key (s.reaim p.1) p.2; (q.1, r.2 || q.2)) (s, false)
  | _ => s.writePlain key pa bs

/-! ### Who runs on the core in focus -/

/-- Supervisor mode, STATUS.SUP (R121, R361). -/
def State.sup (s : State) : Bool := s.core.regs.status.getLsbD 0

/-- The job of the task on the core in focus (R212). -/
def State.job (s : State) : BitVec 6 := ((s.core.task.map Task.job).getD 0)

/-- Who makes the accesses of the core in focus (R212). -/
def State.who (s : State) : Who := if s.sup then ⟨none, true⟩ else ⟨some s.job, false⟩

/-- Adds to the core's counters that count an event, code 0 for none; they do not count in supervisor mode (R399). -/
def State.count (s : State) (code : BitVec 8) (n : Nat) : State :=
  if s.sup ∨ code = 0 then s
  else { s with core := { s.core with
    ev := s.core.ev.zipWith (fun c src => if src = code then c + BitVec.ofNat 64 n else c) s.core.evSrc } }

/-! ### Translation -/

/-- A translated address: where it lies and what its page carries (R213). -/
structure Leaf where
  pa   : Nat
  key  : Nat
  fmt  : Nat
  geom : Nat
  deriving DecidableEq, Repr

/-- A page-table entry (R213). -/
def State.pte (s : State) (pa : Nat) : Word := BitVec.ofNat 64 (leNat (Sparse.range 0 s.mem pa 8))

/-- The frame field of an entry (R213). -/
def pteFrame (e : Word) : Nat := bits e 21 36

/-- A legal leaf: reserved bits zero and a legal pair of format and geometry (R173, R213). -/
def leafOk (e : Word) : Bool :=
  let f := bits e 8 4
  let g := bits e 12 2
  bits e 57 7 == 0 && (g == 0 || [0, 1, 4, 5, 6, 7, 12, 13].contains f) && !(f == 12 && g == 0)

/-- The outcome of a walk: the entry and the address of its leaf (R212-R214). An entry whose channel group is not ready is waited for (R39). -/
def State.walk (s : State) (va : Nat) : Except Flt (TlbEntry × Nat) :=
  let p0 := s.reaim (s.dev.ptroot.toNat + 8 * ((va / 2 ^ 42) % 64))
  let e0 := s.pte p0
  if !s.channelReady p0 then .error .wait
  else if !e0.getLsbD 0 then .error .absent
  else if e0 &&& 0xFE00000000103FFE#64 != 0 then .error .perm
  else
    let job := BitVec.ofNat 6 (bits e0 14 6)
    let mid := s.reaim (pteFrame e0 * 2 ^ 16)
    let i1 := (va / 2 ^ 29) % 8192
    let p1 := mid + 8 * i1
    let e1 := s.pte p1
    if !s.channelReady p1 then .error .wait
    else if !e1.getLsbD 0 then .error .absent
    else if e1.getLsbD 5 then
      if !e1.getLsbD 20 || !leafOk e1 then .error .perm
      else
        let first := s.pte (mid + 8 * (i1 - i1 % 32))
        .ok (⟨(va / 2 ^ 34) * 2 ^ 18, 2 ^ 18, pteFrame first, e1, job, e1.getLsbD 7⟩, p1)
    else if e1 &&& 0xFE000000001FFFFE#64 != 0 then .error .perm
    else
      let last := s.reaim (pteFrame e1 * 2 ^ 16)
      let i2 := (va / 2 ^ 16) % 8192
      let p2 := last + 8 * i2
      let e2 := s.pte p2
      if !s.channelReady p2 then .error .wait
      else if !e2.getLsbD 0 then .error .absent
      else if !e2.getLsbD 5 || !leafOk e2 then .error .perm
      else if e2.getLsbD 20 then
        let first := s.pte (last + 8 * (i2 - i2 % 512))
        .ok (⟨(va / 2 ^ 25) * 2 ^ 9, 2 ^ 9, pteFrame first, e2, job, e2.getLsbD 7⟩, p2)
      else .ok (⟨va / 2 ^ 16, 1, pteFrame e2, e2, job, e2.getLsbD 7⟩, p2)

/-- A cached translation covers an address. -/
def TlbEntry.covers (e : TlbEntry) (va : Nat) : Bool := decide (e.vpn ≤ va / 2 ^ 16 ∧ va / 2 ^ 16 < e.vpn + e.count)

/-- The rights of an access through an entry (R212, R213, R219). To a supervisor access through root entries of one job, a root entry of another
job, or of job 0, does not translate (R43). -/
def State.rights (s : State) (w : Who) (write : Bool) (e : TlbEntry) : Option Flt :=
  let key := bits e.leaf 14 6
  if e.leaf.getLsbD 4 ∧ ¬ w.sup then some .perm
  else if w.job.isSome ∧ (w.job ≠ some e.job ∨ e.job = 0) then some (if w.sup then .absent else .perm)
  else if (if write then e.leaf.getLsbD 2 else e.leaf.getLsbD 1) = false then some .perm
  else if key ≠ 0 ∧ (¬ s.feature 5 ∨ (s.key? key).isNone) then some .perm
  else none

/-- Where an address lies through an entry (R214). -/
def TlbEntry.leafAt (s : State) (e : TlbEntry) (va : Nat) : Leaf :=
  ⟨s.resolve ((e.frame + (va / 2 ^ 16 - e.vpn)) * 2 ^ 16 + va % 2 ^ 16), bits e.leaf 14 6, bits e.leaf 8 4, bits e.leaf 12 2⟩

/-- The translation cached for an access of the core in focus; a first write through an entry needs a walk (R213, R215). -/
def State.cached (s : State) (va : Nat) (write : Bool) : Option TlbEntry :=
  let ok (e : TlbEntry) := e.covers va && (!write || e.dirty)
  match s.core.tlb.find? ok with
  | some e => some e
  | none => (s.die s.me.die).tlb.find? ok

/-- Puts an entry into a cache of n entries, dropping one when it is full (log 9). -/
def tlbFill (n fresh : Nat) (l : List TlbEntry) (e : TlbEntry) : List TlbEntry :=
  let l := l.filter (fun x => x.vpn ≠ e.vpn ∨ x.count ≠ e.count)
  if l.length < n then e :: l else e :: dropAt l (Config.victim l.length fresh % l.length)

/-- Fills the caches of the core in focus and its die (R215). -/
def State.tlbPut (s : State) (e : TlbEntry) : State :=
  let s := { s with core := { s.core with tlb := tlbFill 64 s.fresh s.core.tlb e }, fresh := s.fresh + 1 }
  s.onDie s.me.die fun d => { d with tlb := tlbFill 16384 s.fresh d.tlb e }

/-- Sets ACCESSED, and DIRTY for a write, at the entry's home; a change is a write of its line (R213). -/
def State.touchEntry (s : State) (p : Nat) (e : Word) (write : Bool) : State :=
  let e' := e ||| (if write then 0xC0#64 else 0x40#64)
  if e' = e then s else (s.writePlain 0 p (leBytes 8 e'.toNat)).1

/-- A walk's entry serves the requests of a core for its page, and the core takes it (R215, R216). -/
def Core.served (fresh : Nat) (e : TlbEntry) (x : Core) : Core :=
  let hit (w : WalkReq) : Bool := e.covers w.va.toNat && (!w.write || e.dirty)
  if x.walks.any hit then { x with walks := x.walks.filter fun w => !hit w, tlb := tlbFill 64 fresh x.tlb e } else x

/-- The requests of the die for the page share the walk (R216). -/
def State.serve (s : State) (e : TlbEntry) : State :=
  (s.coreNums.map CoreRef.ofNum).foldl
    (fun s k => if k.die = s.me.die then { s.onCore k (Core.served s.fresh e) with fresh := s.fresh + 1 } else s) s

/-- A core of the die waits to write the page that a walk has found, and may (R213, R216). -/
def State.writeWaits (s : State) (e : TlbEntry) : Bool :=
  (s.coreNums.map CoreRef.ofNum).any fun k => k.die == s.me.die &&
    (s.getCore k).walks.any fun w => w.write && e.covers w.va.toNat && (s.rights (s.focus k).who true e).isNone

/-- A walk made now for the core in focus, which counts (R400): the entry is checked, its bits are set, for a write too that shares the walk, and the caches
filled (R213, R216). -/
def State.walkNow (s : State) (w : Who) (write : Bool) (va : Nat) : State × Except Flt TlbEntry :=
  match s.walk va with
  | .error .wait => (s, .error .wait)
  | .error f => (s.dieEvent s.me.die 0x0C 1, .error f)
  | .ok (e, p) =>
    let s := s.dieEvent s.me.die 0x0C 1
    match s.rights w write e with
    | some f => (s, .error f)
    | none =>
      let dirty := write || s.writeWaits e
      let e' := { e with dirty := e.dirty || dirty }
      (((s.touchEntry p e.leaf dirty).tlbPut e').serve e', .ok e')

/-- An access whose page only the die's cache holds is a miss of the core's, and the core takes the entry (R215, R399). -/
def State.refill (s : State) (va : Word) (write : Bool) : State :=
  let ok (e : TlbEntry) : Bool := e.covers va.toNat && (!write || e.dirty)
  if s.core.tlb.any ok then s
  else match (s.die s.me.die).tlb.find? ok with
    | none => s
    | some e => { s.count 0x0A 1 with core := { (s.count 0x0A 1).core with tlb := tlbFill 64 s.fresh s.core.tlb e }, fresh := s.fresh + 1 }

/-- Translation for a unit that waits for its own walks: the engines, the suffix unit, the schedulers. What a task's command does not find in the cache of its
core counts as a miss of it (R216, R399). -/
def State.translate (s : State) (w : Who) (write : Bool) (va : Word) : State × Except Flt Leaf :=
  if bits va 48 16 ≠ 0 then (s, .error .absent)
  else match s.cached va.toNat write with
    | some e =>
      let s := if w.sup then s else s.refill va write
      match s.rights w write e with
      | some f => (s, .error f)
      | none => (s, .ok (e.leafAt s va.toNat))
    | none =>
      match s.walkNow w write va.toNat with
      | (s', .error .wait) => (s', .error .wait)
      | (s', .error f) => (if w.sup then s' else s'.count 0x0A 1, .error f)
      | (s', .ok e) => (if w.sup then s' else s'.count 0x0A 1, .ok (e.leafAt s' va.toNat))

/-- The channel groups of a range are ready: of device memory, or of the buffer behind an aperture (R39). -/
def State.groupsReady (s : State) (pa n : Nat) : Bool :=
  match region pa with
  | .aperture k off =>
    match s.apt? k with
    | none => true
    | some a => (List.range n).all fun i => s.channelReady (s.aptAddr a (off + i))
  | _ => s.channelReady pa

/-- Notes that the move waits for a channel group (R39). -/
def State.hold (s : State) : State := { s with held := true }

/-- A move that meets a channel group that is not ready changes nothing: it is held until the group is (R39). -/
def State.orHold (s : State) (f : State → State) : State :=
  let t := f s
  if t.held && !s.held then s else t

/-- Translation for an agent whose whole move waits for a channel group that is not ready (R39). -/
def State.translateHeld (s : State) (w : Who) (write : Bool) (va : Word) : State × Except Flt Leaf :=
  match s.translate w write va with
  | (s, .error .wait) => (s.hold, .error .wait)
  | r => r

/-- Translates and checks an access of an agent whose whole move waits for a channel group that is not ready (R39). -/
def State.reach (s : State) (w : Who) (write : Bool) (va : Word) (n : Nat) : State × Except Flt Leaf :=
  match s.translateHeld w write va with
  | (s, .error f) => (s, .error f)
  | (s, .ok l) =>
    match s.physCheck w write l.pa n with
    | some f => (s, .error f)
    | none => if s.groupsReady l.pa n then (s, .ok l) else (s.hold, .error .wait)

/-- Reads n bytes at a virtual address, none across a granule. -/
def State.vRead (s : State) (w : Who) (va : Word) (n : Nat) : State × Except Flt (List Byte) :=
  match s.reach w false va n with
  | (s, .error f) => (s, .error f)
  | (s, .ok l) => (s, s.physRead w l.key l.pa n)

/-- Writes bytes at a virtual address, none across a granule; the answer says whether the write met poison. -/
def State.vWrite (s : State) (w : Who) (va : Word) (bs : List Byte) : State × Except Flt Bool :=
  match s.reach w true va bs.length with
  | (s, .error f) => (s, .error f)
  | (s, .ok l) => let r := s.physWrite w l.key l.pa bs; (r.1, .ok r.2)

/-- Reads a longer range, line by line; a failure names the line that fails. -/
def State.vReadLong (w : Who) : Nat → State → Word → Nat → State × Except (Flt × Word) (List Byte)
  | 0, s, _, _ => (s, .ok [])
  | fuel + 1, s, va, n =>
    if n = 0 then (s, .ok [])
    else
      let k := Nat.min n (128 - va.toNat % 128)
      match s.vRead w va k with
      | (s, .error f) => (s, .error (f, va))
      | (s, .ok bs) =>
        match State.vReadLong w fuel s (va + BitVec.ofNat 64 k) (n - k) with
        | (s, .error f) => (s, .error f)
        | (s, .ok r) => (s, .ok (bs ++ r))

/-- Writes a longer range, line by line; a failure or a poisoned line names the line that fails. -/
def State.vWriteLong (w : Who) : Nat → State → Word → List Byte → State × Except (Flt × Word) Unit
  | 0, s, _, _ => (s, .ok ())
  | fuel + 1, s, va, bs =>
    if bs.isEmpty then (s, .ok ())
    else
      let k := Nat.min bs.length (128 - va.toNat % 128)
      match s.vWrite w va (bs.take k) with
      | (s, .error f) => (s, .error (f, va))
      | (s, .ok true) => (s, .error (.poison, va))
      | (s, .ok false) => State.vWriteLong w fuel s (va + BitVec.ofNat 64 k) (bs.drop k)

/-- Reads a range of any length at a virtual address. -/
def State.vReadAll (s : State) (w : Who) (va : Word) (n : Nat) : State × Except (Flt × Word) (List Byte) :=
  State.vReadLong w (n / 128 + 2) s va n

/-- Writes a range of any length at a virtual address. -/
def State.vWriteAll (s : State) (w : Who) (va : Word) (bs : List Byte) : State × Except (Flt × Word) Unit :=
  State.vWriteLong w (bs.length / 128 + 2) s va bs

end Sys2Proof.Machine
end

