-- ==== Sys2Proof/Machine/Launch.lean ====
section
/-! DEFINITION. The fields of task records and launch records (R12-R17, R22), and the groups of a launch (R14, R16). -/

namespace Sys2Proof.Machine

open Sys2Proof

/-- A field of a record: n bytes at a byte offset. -/
def recField (r : BitVec k) (off n : Nat) : Nat := bits r (8 * off) (8 * n)

def Task.kernel (t : Task) : Nat := recField t.record 0x04 2
def Task.prio (t : Task) : Nat := bits t.record 52 3
def Task.gen (t : Task) : Bool := t.record.getLsbD 51
def Task.stage (t : Task) : Nat := bits t.record 48 3
def Task.scope (t : Task) : Nat := bits t.record 56 3
def Task.args (t : Task) : Nat := recField t.record 0x08 8
def Task.launchAddr (t : Task) : Nat := recField t.record 0x10 8
def Task.coord (t : Task) (i : Nat) : Nat := recField t.record (0x18 + 2 * i) 2
def Task.complAddr (t : Task) : Nat := recField t.record 0x28 8
def Task.seqVal (t : Task) : Nat := recField t.record 0x30 8
def Task.saveArea (t : Task) : Nat := recField t.record 0x38 8
def Task.succCount (t : Task) : Nat := recField t.record 0x40 2
def Task.succ (t : Task) (i : Nat) : Nat := recField t.record (0x48 + 8 * i) 8

def Task.fused (t : Task) : Bool := t.launch.getLsbD 32
def Task.bothBanks (t : Task) : Bool := t.launch.getLsbD 33
def Task.protect (t : Task) : Bool := t.launch.getLsbD 38
def Task.levels (t : Task) : Nat := recField t.launch 0x0C 2
def Task.stages (t : Task) : Nat := recField t.launch 0x0E 2
def Task.code (t : Task) : Nat := recField t.launch 0x10 8
def Task.preloads (t : Task) : Nat := recField t.launch 0x24 4
def Task.preloadList (t : Task) : Nat := recField t.launch 0x28 8
def Task.seedVal (t : Task) : Nat := recField t.launch 0x30 8

/-- A level descriptor (R14). -/
def levelDesc (launch : BitVec 2048) (i : Nat) : BitVec 64 := BitVec.ofNat 64 (recField launch (0x40 + 8 * i) 8)

/-- The extent of a level; a level at or above the level count has extent 1 (R16). -/
def levelExtent (launch : BitVec 2048) (i : Nat) : Nat :=
  if i < recField launch 0x0C 2 then bits (levelDesc launch i) 16 16 + 1 else 1

def Task.bind (t : Task) (i : Nat) : Nat := bits (levelDesc t.launch i) 0 3
def Task.barScope (t : Task) (i : Nat) : Nat := bits (levelDesc t.launch i) 4 3
def Task.gang (t : Task) (i : Nat) : Bool := (levelDesc t.launch i).getLsbD 7

/-- Tasks in a group of level i − 1: the product of the extents below i. -/
def extentBelow (launch : BitVec 2048) (i : Nat) : Nat := ((List.range i).map (levelExtent launch)).prod

/-- The linear index of a task (R16). -/
def Task.index (t : Task) : Nat := ((List.range 8).map fun i => t.coord i * extentBelow t.launch i).sum

/-- The number of the group of level i that holds a task: its coordinates above i (R14). -/
def Task.group (t : Task) (i : Nat) : Nat := t.index / extentBelow t.launch (i + 1)

/-- The highest level with GANG = 1 (R59). -/
def Task.gangLevel (t : Task) : Option Nat :=
  ((List.range t.levels).reverse).find? fun i => t.gang i

/-- A supervisor access through root entries of a task's own job (R11, R19, R43, R212). -/
def Task.who (t : Task) : Who := ⟨some t.job, true⟩

/-- Capacity and deferred-list address of a stage (R17). -/
def Task.stageCap (t : Task) (k : Nat) : Nat := recField t.launch (0x80 + 16 * k + 2) 2
def Task.stageList (t : Task) (k : Nat) : Nat := recField t.launch (0x80 + 16 * k + 8) 8

/-- Tasks of a launch (R16). -/
def Task.total (t : Task) : Nat := extentBelow t.launch 8

/-- The entry of the group table for a task's group of a level; a new one when there is none. -/
def Device.binding (d : Device) (t : Task) (i : Nat) : Binding :=
  (d.bindings.find? fun b => b.launch.toNat == t.launchAddr && b.level == i && b.group == t.group i).getD
    ⟨BitVec.ofNat 48 t.launchAddr, i, t.group i, 0, 0, false, [], t.bind i, []⟩

/-- Replaces an entry of the group table. -/
def Device.setBinding (d : Device) (b : Binding) : Device :=
  let rest := d.bindings.filter fun x => !(x.launch == b.launch && x.level == b.level && x.group == b.group)
  { d with bindings := rest ++ [b] }

/-- A record has ended, for SERIAL groups, bindings and barriers (R46, R47, R282): its index is noted at every level. A group all of whose
tasks have ended is forgotten, and with the last group of a launch the dies forget the launch: of a launch with a FABRIC level, the tasks of other devices
are among those waited for (log 79). -/
def State.noteEnded (s : State) (t : Task) : State :=
  let s := (List.range t.levels).foldl (fun s i => s.onDev fun d =>
    let b := d.binding t i
    d.setBinding { b with ended := if b.ended.contains t.index then b.ended else t.index :: b.ended }) s
  let full (b : Binding) : Bool := b.launch.toNat == t.launchAddr && decide (extentBelow t.launch (b.level + 1) ≤ b.ended.length)
  let finished := s.dev.bindings.any fun b => full b && b.level + 1 == t.levels
  let s := s.onDev fun d => { d with bindings := d.bindings.filter fun b => !full b }
  if finished then
    { s with dies := s.dies.map fun d => { d with
        launches := d.launches.filter fun x => x.launchAddr != t.launchAddr
        ringFull := d.ringFull.filter fun x => x.1.toNat != t.launchAddr
        rings := d.rings.filter fun x => x.1.launchAddr != t.launchAddr } }
  else s

end Sys2Proof.Machine
end

