-- ==== Sys2Proof/Machine/Ops.lean ====
section
/-! DEFINITION. The operations that every instruction shares: reading registers, the checks before a bundle issues,
results in flight and their landing, taking a trap and returning from one. -/

namespace Sys2Proof

/-- The number of a slot's word (R67). -/
def Slot.num : Slot → Nat
  | .s => 0
  | .a => 1
  | .v0 => 2
  | .v1 => 3
  | .m => 4
  | .c0 => 5
  | .c1 => 6
  | .x => 7

end Sys2Proof

namespace Sys2Proof.Machine

open Sys2Proof

/-! ### Who runs -/

/-- The core in focus is a companion core (R322). -/
def State.comp (s : State) : Bool := s.me.isComp

/-- Rollback protection is on, STATUS.PROT (R121). -/
def State.prot (s : State) : Bool := s.core.regs.status.getLsbD 1

/-- Bytes of a bundle, or of a companion core's pair (R67, R325). -/
def State.unit (s : State) : Word := if s.comp then 8 else 32

/-! ### Reading registers -/

/-- An S register; S0 reads as zero (R117). -/
def Regs.sVal (r : Regs) (n : BitVec 5) : Word := if n = 0 then 0 else r.s[n.toNat]'(n.isLt)

/-- An A register (R117). -/
def Regs.aVal (r : Regs) (n : BitVec 5) : Word := r.a[n.toNat]'(n.isLt)

/-- The full/empty bit of an S register; S0 is never empty (R124, R127). -/
def Regs.sIsFull (r : Regs) (n : BitVec 5) : Bool := n == 0 || r.sFull.getLsbD n.toNat

/-- The full/empty bit of an A register (R127). -/
def Regs.aIsFull (r : Regs) (n : BitVec 5) : Bool := r.aFull.getLsbD n.toNat

def State.s (x : State) (n : BitVec 5) : Word := x.core.regs.sVal n

/-- What a field that names an A register reads: on a companion core the S register of the number (R322). -/
def State.a (x : State) (n : BitVec 5) : Word := if x.comp then x.core.regs.sVal n else x.core.regs.aVal n

/-- The physical register behind a vector name (R110). -/
def physV (vrb : BitVec 5) (k : BitVec 6) : BitVec 6 :=
  if k.toNat < 32 then k else BitVec.ofNat 6 (32 + (k.toNat - 32 + vrb.toNat) % 32)

/-- The physical register behind a predicate name (R110). -/
def physP (prb : BitVec 3) (k : BitVec 4) : BitVec 4 :=
  if k.toNat < 8 then k else BitVec.ofNat 4 (8 + (k.toNat - 8 + prb.toNat) % 8)

/-- A vector register by name. -/
def State.v (x : State) (k : BitVec 6) : VReg := x.core.regs.v[(physV x.core.regs.vrb k).toNat]'((physV x.core.regs.vrb k).isLt)

/-- A predicate register by name; P0 reads as all ones (R117). -/
def State.p (x : State) (k : BitVec 4) : PReg :=
  let n := physP x.core.regs.prb k
  if n = 0 then BitVec.allOnes 1024 else x.core.regs.p[n.toNat]'(n.isLt)

/-- The bit of a predicate that scalar code reads (R141). -/
def State.pBit (x : State) (k : BitVec 4) : Bool := (x.p k).getLsbD 0

/-- A descriptor register. -/
def State.y (x : State) (n : BitVec 4) : BitVec 256 := x.core.regs.y[n.toNat]'(n.isLt)

/-! ### Checks before issue (R71, R127) -/

/-- What a check says: the bundle may issue, holds (with the event source that counts it, R399), waits for a walk, traps, or traps because of a walk that
has failed. -/
inductive Verdict where
  | go
  | hold (code : BitVec 8)
  | walk (va : BitVec 48) (write : Bool)
  | trap (cause : BitVec 8) (val : Word)
  | walkTrap (cause : BitVec 8) (val : Word)
  deriving DecidableEq, Repr

/-- Two checks together: a bundle that holds is checked when it issues, so a hold goes before every trap (R71). -/
def Verdict.and : Verdict → Verdict → Verdict
  | .go, b => b
  | .trap _ _, .hold c | .walkTrap _ _, .hold c => .hold c
  | .trap _ _, .walk va w | .walkTrap _ _, .walk va w => .walk va w
  | a, _ => a

/-- A check that is made only once another one has passed. -/
def Verdict.andThen : Verdict → Verdict → Verdict
  | .go, b => b
  | a, _ => a

/-- A list of checks together. -/
def Verdict.all : List Verdict → Verdict
  | [] => .go
  | a :: t => a.and (Verdict.all t)

/-- A check that traps unless a condition holds. -/
def ensure (ok : Bool) (cause : BitVec 8) (val : Word) : Verdict := if ok then .go else .trap cause val

/-- A check that holds unless a condition holds. -/
def waitFor (ok : Bool) (code : BitVec 8) : Verdict := if ok then .go else .hold code

/-- Reading an S register: an empty one holds, or traps with its trap-if-empty bit (R127). -/
def State.needS (x : State) (n : BitVec 5) (t : Bool) : Verdict :=
  if x.core.regs.sIsFull n then .go else if t then .trap 0x04 (n.setWidth 64) else .hold 0x03

/-- Reading an A register (R127); on a companion core an S register (R322). -/
def State.needA (x : State) (n : BitVec 5) (t : Bool) : Verdict :=
  if x.comp then x.needS n t
  else if x.core.regs.aIsFull n then .go else if t then .trap 0x04 (0x100 ||| n.setWidth 64) else .hold 0x03

/-- Writing an S register that is empty holds (R127). -/
def State.destS (x : State) (n : BitVec 5) : Verdict := waitFor (x.core.regs.sIsFull n) 0x03

/-- Writing an A register that is empty holds (R127). -/
def State.destA (x : State) (n : BitVec 5) : Verdict :=
  if x.comp then x.destS n else waitFor (x.core.regs.aIsFull n) 0x03

/-- TRAP_VAL of a word at fault (R69). -/
def State.wordVal (x : State) : Word := BitVec.ofNat 64 (x.core.issue.slot.num * 2 ^ 32) ||| x.core.issue.word.setWidth 64

/-- A feature that is not accepted makes the word illegal (R37, R69). -/
def State.needFeature (x : State) (i : Nat) : Verdict := ensure (x.feature i) 0x01 x.wordVal

/-- Only a main core, or only a companion core, implements the instruction (R69, R95). -/
def State.needMain (x : State) : Verdict := ensure (!x.comp) 0x01 x.wordVal
def State.needComp (x : State) : Verdict := ensure x.comp 0x01 x.wordVal

/-- Commit class: under protection the instruction issues only with its ck bit set (R292, R375). -/
def State.needCommit (x : State) (ck : Bool) : Verdict := ensure (!x.prot || ck) 0x0F x.wordVal

/-- A function of the die that is not ready stalls its instructions (R39). -/
def State.needReady (x : State) (i : Nat) : Verdict := waitFor (x.isReady x.me.die i) 0x00

/-! ### Counting -/

/-- n cycles of the core pass (R54, R120, R399): the model counts bundles and the moves in which one holds (log 10). In supervisor mode the
task still holds the core, so its quantum runs, and its counters stand. -/
def State.tick (s : State) (n : Nat) : State :=
  let s : State := { s with core := { s.core with quantum := s.core.quantum - n } }
  if s.sup then s
  else { s.count 0x01 n with core := { (s.count 0x01 n).core with cycles := (s.count 0x01 n).core.cycles + BitVec.ofNat 64 n } }

/-! ### Results in flight -/

/-- Bytes merged under a byte mask (R176). -/
def mergeBytes (old new : VReg) (mask : PReg) : VReg :=
  BitVec.ofNat 8192 ((List.range 1024).foldr (fun i acc =>
    acc * 256 + (if mask.getLsbD i then (new.toNat >>> (8 * i)) % 256 else (old.toNat >>> (8 * i)) % 256)) 0)

/-- A vector merge; with every byte enabled it is the new value. -/
def mergeV (old new : VReg) (mask : PReg) : VReg := if mask = BitVec.allOnes 1024 then new else mergeBytes old new mask

/-- A predicate merge, bit by bit. -/
def mergeP (old new mask : PReg) : PReg := (new &&& mask) ||| (old &&& ~~~mask)

/-- A store in flight without its debug pending mark (R132). -/
def InFlight.unmark (f : InFlight) : InFlight :=
  match f.what with
  | .store sl o d m _ => { f with what := .store sl o d m false }
  | _ => f

/-- What an MTSR leaves when it lands (R119, R154). -/
def Core.writeSr (x : Core) (n : BitVec 12) (v : Word) : Core :=
  let r := x.regs
  let k := n.toNat
  if k = 0x020 then { x with regs := { r with vrb := v.setWidth 5 } }
  else if k = 0x021 then { x with regs := { r with prb := v.setWidth 3 } }
  else if k = 0x030 then { x with regs := { r with status := statusWrite r.status v } }
  else if k = 0x031 then { x with regs := { r with fpstat := v.setWidth 5 } }
  else if k = 0x032 then { x with regs := { r with tileFlags := v.setWidth 32 } }
  else if k = 0x050 then { x with regs := { r with seed := v, rnd := 0 } }
  else if k = 0x051 then
    let keep (l : List InFlight) : List InFlight := if v.getLsbD 0 then l else l.map InFlight.unmark
    let bytes (l : List (Nat × Byte × Bool)) : List (Nat × Byte × Bool) := if v.getLsbD 0 then l else l.map fun e => (e.1, e.2.1, false)
    { x with
      regs := { r with dbgPend := v.getLsbD 0, flight := keep r.flight, before := bytes r.before }
      captured := x.captured.map fun c => { c with flight := keep c.flight, before := bytes c.before } }
  else if k = 0x060 then { x with regs := { r with trapPc := v } }
  else if k = 0x061 then { x with regs := { r with trapCause := v &&& 0xFF } }
  else if k = 0x062 then { x with regs := { r with trapVal := v } }
  else if 0x070 ≤ k ∧ k ≤ 0x077 then { x with ev := x.ev.setIfInBounds (k - 0x070) v }
  else x

/-- A result lands (R123, R125, R126, R131). -/
def Core.landOne (x : Core) (l : Land) : Core :=
  let r := x.regs
  match l with
  | .s n v => if n = 0 then x else { x with regs := { r with s := r.s.set n.toNat v n.isLt } }
  | .late n v =>
    if n = 0 then x
    else { x with regs := { r with s := r.s.set n.toNat v n.isLt, sFull := r.sFull ||| (1#32 <<< n.toNat) } }
  | .a n v => { x with regs := { r with a := r.a.set n.toNat v n.isLt } }
  | .aMode n m => { x with regs := { r with aMode := r.aMode.set n.toNat m n.isLt } }
  | .d n v => { x with regs := { r with d := r.d.set n.toNat v n.isLt } }
  | .wBase n v => { x with regs := { r with wBase := r.wBase.set n.toNat v n.isLt } }
  | .wLen n v => { x with regs := { r with wLen := r.wLen.set n.toNat v n.isLt } }
  | .v n v m => { x with regs := { r with v := r.v.set n.toNat (mergeV (r.v[n.toNat]'(n.isLt)) v m) n.isLt } }
  | .p n v m =>
    if n = 0 then x
    else { x with regs := { r with p := r.p.set n.toNat (mergeP (r.p[n.toNat]'(n.isLt)) v m) n.isLt } }
  | .sr n v => x.writeSr n v
  | .g n v => { x with regs := { r with g := r.g.set n.toNat v n.isLt } }
  | .y n v => { x with regs := { r with y := r.y.set n.toNat v n.isLt } }
  | .yWord n w v =>
    let old := r.y[n.toNat]'(n.isLt)
    let sh := 32 * w.toNat
    let new := (old &&& ~~~ (0xFFFFFFFF#256 <<< sh)) ||| (v.setWidth 256 <<< sh)
    { x with regs := { r with y := r.y.set n.toNat new n.isLt } }
  | .k v => { x with regs := { r with k := v } }
  | .codebook v => { x with regs := { r with codebook := v } }
  | .rb n v =>
    let x := x.record (.rb n (x.rb[n.toNat]'(n.isLt)))
    { x with rb := x.rb.set n.toNat v n.isLt }
  | .store _ off data mask _ =>
    x.scratchStore off ((List.range 1024).filterMap (fun i =>
      if mask.toNat >>> i = 0 then none else some (BitVec.ofNat 8 (data.toNat >>> (8 * i)), mask.getLsbD i)))
  | .clrv m => { x with regs := { r with n := (r.n.zip (Vector.range 8)).map fun p => if m.getLsbD p.2 then none else p.1 } }
  | .n k v => { x with regs := { r with n := r.n.set k.toNat v k.isLt } }
  | .watch n range => { x with regs := { r with comp := r.comp.set n.toNat range n.isLt } }
  | .evsel n src => { x with ev := x.ev.set n.toNat 0 n.isLt, evSrc := x.evSrc.set n.toNat src n.isLt }

/-- A result lands with the FPSTAT bits it sets (R178). -/
def Core.landFlight (x : Core) (f : InFlight) : Core :=
  let x := x.landOne f.what
  { x with regs := { x.regs with fpstat := x.regs.fpstat ||| f.flags } }

/-- Results land one after the other: of two for one register the later issued stays (R125). -/
def Core.landAll (x : Core) (l : List InFlight) : Core := l.foldl Core.landFlight x

/-- A store's landing, which SCRATCHPAD_STORE_PERFORM makes (R126). -/
def InFlight.isStore (f : InFlight) : Bool :=
  match f.what with
  | .store _ _ _ _ _ => true
  | _ => false

/-- Sends a result on its way: it lands when `lat` bundles, the issuing one included, have issued (R123). A companion core's
results land at once, since each pair reads those of the words before it (R324). -/
def State.send (s : State) (lat : Nat) (what : Land) (flags : BitVec 5 := 0) : State :=
  if s.comp then { s with core := s.core.landFlight ⟨0, what, flags⟩ }
  else s.onRegs fun r => { r with flight := r.flight ++ [⟨lat, what, flags⟩] }

/-- A variable-latency producer: the destination's bit clears at issue, unless it is S0 (R124). -/
def State.clearFull (s : State) (d : BitVec 5) : State :=
  if d = 0 then s
  else if s.comp then s.onRegs fun r => { r with sFull := r.sFull &&& ~~~ (1#32 <<< d.toNat) }
  else { s with core := { s.core with issue := { s.core.issue with clearS := s.core.issue.clearS ||| (1#32 <<< d.toNat) } } }

/-- Queues a memory operation of the core in focus (R124, R152). -/
def State.queueOp (s : State) (op : MemOp) : State :=
  { s with core := { s.core with memq := s.core.memq ++ [{ sup := s.sup, op := op, no := (s.core.rerun.map Rerun.no).getD 0 }] } }

/-- Issues a producer whose value is known and arrives later (R124). -/
def State.produce (s : State) (d : BitVec 5) (v : Word) (flags : BitVec 5 := 0) : State :=
  (s.clearFull d).queueOp (.value d v flags)

/-- A cluster runs a fused task, whose L1 is one (R208). -/
def State.fusedCluster (s : State) (c : CoreRef) : Bool :=
  (List.range 12).any fun i =>
    match (s.getCore ⟨c.die, BitVec.ofNat 8 (12 * c.cluster + i)⟩).task with
    | some t => t.fused
    | none => false

/-- Invalidates a core's L1 (R207). -/
def Core.clearL1 (x : Core) : Core := { x with l1 := [], stale := [] }

/-- Invalidates the L1 of every core of a cluster (R208). -/
def State.clearCluster (s : State) (c : CoreRef) : State :=
  (List.range 12).foldl (fun s i => s.onCore ⟨c.die, BitVec.ofNat 8 (12 * c.cluster + i)⟩ Core.clearL1) s

/-! ### Writes of the scratchpad on record (R305, R307, log 61) -/

/-- An access of the S or the V slot. -/
def ScratchAccess.slots (a : ScratchAccess) : Bool := decide (a.path.toNat ≤ 1)

/-- A write without the bytes that a later one, ordered before every access to come, has replaced for good. -/
def LocalStore.cut (u t : LocalStore) : LocalStore :=
  let m : PReg := if u.acc.off ≤ t.acc.off then t.mask <<< (t.acc.off - u.acc.off) else t.mask >>> (u.acc.off - t.acc.off)
  { u with mask := u.mask &&& ~~~m }

/-- The writes that stay on record when some are forgotten, and those of the forgotten ones that have performed. -/
def forget (gone : LocalStore → Bool) : List LocalStore → List LocalStore × List LocalStore
  | [] => ([], [])
  | t :: l =>
    let q := forget gone l
    if gone t then (q.1, if t.old.isSome then t :: q.2 else q.2) else (q.2.foldl LocalStore.cut t :: q.1, q.2)

/-- Forgets writes that are ordered before every access to come. -/
def Regs.forget (r : Regs) (gone : LocalStore → Bool) : Regs := { r with stores := (Machine.forget gone r.stores).1 }

/-- A trap orders the accesses of the S and V slots before it and those after it (R305); the accesses of engines it does not order (R307). -/
def LocalStore.trapped (t : LocalStore) : LocalStore :=
  { t with acc := { t.acc with now := false, closed := if t.acc.slots then t.acc.closed ||| 3 else t.acc.closed } }

/-- The writes on record that have performed, or those that have not, across a trap. -/
def Regs.across (r : Regs) (performed : Bool) : List LocalStore := (r.stores.filter fun t => t.old.isSome == performed).map LocalStore.trapped

/-! ### Ending a task's hold on its core -/

/-- What stays with a core when its task leaves: caches, a preloaded task and requests (R60, R207, R327). -/
def Core.freed (x : Core) : Core := { Core.zero with tlb := x.tlb, l1 := x.l1, stale := x.stale, preload := x.preload, requests := x.requests }

/-- Nothing of a task that leaves its core stays at the units that served it: suffix operations are dropped, and decrements on their way
belong to no core. -/
def State.forget (s : State) : State :=
  let s := s.onDie s.me.die fun d => { d with sfxOps := d.sfxOps.filter fun o => o.core != s.me.idx }
  s.onDev fun d => { d with decs := d.decs.map fun x => if x.core = some s.me then { x with core := none } else x }

/-- Frees the core in focus; a cluster that leaves fused mode loses its L1 contents (R208). -/
def State.freeCore (s : State) : State :=
  let was := s.fusedCluster s.me
  let s := s.forget
  let s : State := { s with core := s.core.freed }
  if was ∧ ¬ s.fusedCluster s.me ∧ ¬ s.comp then s.clearCluster s.me else s

/-- Counts a kill or a dropped record in HIF_KILL_d (R363, R413). -/
def State.noteKill (s : State) (d : BitVec 2) (addr : BitVec 48) : State :=
  s.onDie d fun x => { x with kill := ((x.kill + 0x0001000000000000) &&& 0xFFFF000000000000) ||| (addr.setWidth 64 &&& 0xFFFFFFFFFF80) }

/-- Writes a task's context save area header for a kill; a line that cannot be written is skipped (R362, R367). -/
def State.killHeader (s : State) (t : Task) (cause : BitVec 8) (pc val : Word) : State :=
  if t.saveArea ≥ 2 ^ 48 then s
  else (s.vWrite t.who (BitVec.ofNat 64 t.saveArea)
    (leBytes 4 3 ++ leBytes 4 cause.toNat ++ leBytes 8 pc.toNat ++ leBytes 8 val.toNat)).1

/-- Kills the task of the core in focus (R362): its engines stop, its waits are abandoned, the save area's header and HIF_KILL_d
record it, and the core is free. -/
def State.kill (s : State) (cause : BitVec 8) (pc val : Word) : State :=
  match s.core.task with
  | none => s.freeCore
  | some t =>
    let s := (s.killHeader t cause pc val).noteKill s.me.die t.addr
    (if s.comp then s else s.noteEnded t).freeCore

/-! ### Traps (R355-R361) -/

/-- The state that a trap captures: nothing of the task lands until RETT (R358). -/
def Core.capture (x : Core) : Captured :=
  ⟨x.regs.pend, x.regs.shadow, x.regs.loops, x.regs.vrb, x.regs.prb, x.regs.flight, if x.issue.xLeft then some x.regs.pc else none,
    if x.regs.ended then some x.regs.pc else none, x.regs.ckptDue, x.regs.before, x.regs.across false⟩

/-- Taking a trap: supervisor mode at offset 0 of the firmware, TRAP_PC at the bundle, TRAP_CAUSE and TRAP_VAL set; the other
registers keep their values (R358), and the accesses before it are ordered before those after it (R305, R306). A trap in supervisor mode kills
the task and restarts firmware (R361). -/
def State.trapEnter (s : State) (cause : BitVec 8) (val : Word) (pc : Word) : State :=
  if s.sup then s.kill cause pc val
  else
    let x := s.core
    { s with core := { x with
      regs := { x.regs with
        status := x.regs.status ||| 1, pc := 0, pend := none, shadow := 0, ended := false, loops := [], flight := [], stores := x.regs.across true, loads := []
        ckptDue := false, before := []
        trapPc := pc, trapCause := cause.setWidth 64, trapVal := val }
      captured := some x.capture
      memq := x.memq.map fun e => { e with closed := true }
      life := .supervisor
      issue := {} } }

/-- Returning from a trap: task mode at TRAP_PC with the captured control state and results in flight; a value that arrived
meanwhile lands before the next bundle (R359, R360). A task that was retiring goes on with it (R398). -/
def State.trapReturn (s : State) : State :=
  let x := s.core
  let c := x.captured.getD ⟨none, 0, [], x.regs.vrb, x.regs.prb, [], none, none, false, [], []⟩
  let arrived := c.flight.filter (fun f => f.left == 0)
  let ended := c.endPc == some x.regs.trapPc
  let x := { x with
    regs := { x.regs with
      status := x.regs.status &&& ~~~1#64, pc := x.regs.trapPc, pend := c.pend, shadow := c.shadow, ended := ended, loops := c.loops, vrb := c.vrb, prb := c.prb
      flight := c.flight.filter (fun f => f.left != 0), stores := x.regs.across true ++ c.stores, loads := [], ckptDue := c.ckptDue, before := c.before }
    captured := none
    issue := { xLeft := c.xLeft == some x.regs.trapPc }
    life := if ended then .ended else .running }
  { s with core := x.landAll arrived }

/-- A trap that is due at the next boundary (R153, R355); one that firmware itself raises while it runs is firmware's own (R361). -/
def State.lateReport (s : State) (cause : BitVec 8) (val : Word) (fw : Bool := false) : State :=
  if fw && s.sup then { s with core := { s.core with fwTrap := s.core.fwTrap.or (some ⟨cause, val⟩) } }
  else { s with core := { s.core with reports := s.core.reports ++ [⟨cause, val⟩] } }

/-- The fates that die firmware gives a trap (R356, R381). -/
inductive Fate where
  | kill | suspend
  deriving DecidableEq, Repr

/-- The fate of a cause (R356). -/
def fate (cause : BitVec 8) : Fate :=
  if cause = 0x06 ∨ cause = 0x08 ∨ cause = 0x10 ∨ cause = 0x11 then .suspend else .kill

/-! ### Issuing one slot's instruction -/

/-- Notes how the slot's instruction ended (the model's own, log 17). -/
def State.mark (s : State) (r : Issued) : State := { s with core := { s.core with issue := { s.core.issue with res := r } } }

/-- A walk request of the core in focus, which is a miss of its translations (R399); two for one granule share a walk, which is a write's when
one of them is (R216). -/
def State.askWalk (s : State) (va : BitVec 48) (write : Bool) : State :=
  let same (w : WalkReq) : Bool := w.va.toNat / 2 ^ 16 == va.toNat / 2 ^ 16
  if s.core.walks.any same then
    { s with core := { s.core with walks := s.core.walks.map fun w => if same w then { w with write := w.write || write } else w } }
  else { s.count 0x0A 1 with core := { (s.count 0x0A 1).core with walks := s.core.walks ++ [⟨va, write⟩] } }

/-- A walk that the core in focus makes for an access of its bundle has failed: it counts, and so does the miss (R399, R400). -/
def State.walkFails (s : State) : State := (s.count 0x0A 1).dieEvent s.me.die 0x0C 1

/-- One slot's instruction: it issues with its effect, holds its bundle for a cycle, or takes its trap at the bundle (R71, R355, R399). In a
bundle whose checks have all passed it issues. -/
def State.issueWith (s : State) (v : Verdict) (f : State → State) : Out State :=
  if s.core.issue.pass then .next ((f s).mark .issued)
  else match v with
  | .go => .next ((f s).mark .issued)
  | .hold c => .next (((s.tick 1).count c 1).mark .held)
  | .walk va w => .next ((((s.askWalk va w).tick 1).count 0x0B 1).mark .held)
  | .trap c val => .next ((s.trapEnter c val s.core.regs.pc).mark (.trapped c))
  | .walkTrap c val => .next (((s.walkFails).trapEnter c val s.core.regs.pc).mark (.trapped c))

end Sys2Proof.Machine
end

