-- ==== Sys2Proof/Machine/Operands.lean ====
section
/-! DEFINITION. Operand forms: the address registers and their advance, effective addresses, scratchpad operands and the
alignment and window checks (R26, R151-R153, R156-R159, R274). -/

namespace Sys2Proof.Machine

open Sys2Proof

/-- Reverses the low w bits of a number. -/
def brev (w x : Nat) : Nat := (List.range w).foldl (fun acc i => acc * 2 + (x >>> i) % 2) 0

/-- The step of an A register's D register, sign-extended (R158). -/
def State.stepOf (s : State) (n : BitVec 5) : Word :=
  let m := s.core.regs.aMode[n.toNat]'(n.isLt)
  sx 32 (s.core.regs.d[m.step.toNat]'(m.step.isLt))

/-- A bit-reversed advance needs a positive power of two as its step (R158). -/
def State.advanceCheck (s : State) (n : BitVec 5) : Verdict :=
  if s.comp then .go
  else if (s.core.regs.aMode[n.toNat]'(n.isLt)).mode ≠ 2 then .go
  else
    let d := s.stepOf n
    ensure (d.toNat ≠ 0 && d.toNat ≤ 2 ^ 30 && d &&& (d - 1) == 0) 0x07 d

/-- advance(A) (R157, R158). -/
def State.advanced (s : State) (n : BitVec 5) : Word :=
  let m := s.core.regs.aMode[n.toNat]'(n.isLt)
  let a := s.core.regs.aVal n
  let d := s.stepOf n
  if m.mode = 1 then
    let w : BitVec 3 := m.param.setWidth 3
    let len := (s.core.regs.wLen[w.toNat]'(w.isLt)).toNat
    let base := s.core.regs.wBase[w.toNat]'(w.isLt)
    if len = 0 then a + d else base + BitVec.ofInt 64 ((a - base + d).toInt % (len : Int))
  else if m.mode = 2 then
    let e := Nat.log2 d.toNat
    let w := m.param.toNat
    let f := bits a e w
    let f' := brev w ((brev w f + 1) % 2 ^ w)
    BitVec.ofNat 64 (a.toNat - f * 2 ^ e + f' * 2 ^ e)
  else a + d

/-- The post-modify of a memory operand lands with latency 1; on a companion core it adds the access size (R151, R322). -/
def State.postModify (s : State) (n : BitVec 5) (pm : Bool) (size : Nat) : State :=
  if !pm then s
  else if s.comp then s.send 1 (.s n (s.core.regs.sVal n + BitVec.ofNat 64 size))
  else s.send 1 (.a n (s.advanced n))

/-- The checks of a post-modify (R127, R158). -/
def State.postCheck (s : State) (n : BitVec 5) (pm : Bool) : Verdict := if pm then s.advanceCheck n else .go

/-- The base of the local window (R152). -/
def windowBase : Word := 0x0000F00000000000

/-- An address in the local window: its offset (R152, R322). -/
def windowOff? (ea : Word) : Option Nat :=
  if windowBase.toNat ≤ ea.toNat ∧ ea.toNat < windowBase.toNat + 0x200000 then some (ea.toNat - windowBase.toNat) else none

/-- The part of the window that the task on the core may use (R26, R322). -/
def State.window (s : State) : Nat := s.core.window s.comp

/-- An operand in the local scratchpad: alignment first, then the window (R274, R344). -/
def State.localCheck (s : State) (ea : Word) (n align : Nat) : Verdict :=
  if ea.toNat % align ≠ 0 then .trap 0x07 ea
  else match windowOff? ea with
    | some o => ensure (o + n ≤ s.window) 0x09 ea
    | none => .trap 0x09 ea

/-- A unit of 64 bytes with an uncorrectable error in a range of the scratchpad traps a load of it (R201, log 16). -/
def State.unitsGood (s : State) (off n : Nat) : Verdict :=
  match ((List.range ((off + n + 63) / 64 - off / 64)).map fun i => off / 64 + i).find? fun u => s.core.badUnits.contains u with
  | some u => .trap 0x0A (windowBase + BitVec.ofNat 64 (64 * u))
  | none => .go

/-- An operand that an instruction reads from the local scratchpad (R274). -/
def State.readCheck (s : State) (ea : Word) (n align : Nat) : Verdict :=
  (s.localCheck ea n align).andThen (s.unitsGood (ea.toNat - windowBase.toNat) n)

/-- The results in flight of the core in focus, those that a trap captured among them: they are pending until they land (R131, R132, R358). -/
def Core.pendingFlight (x : Core) : List InFlight := x.regs.flight ++ ((x.captured.map Captured.flight).getD [])

/-- A byte that a marked store has replaced while the bundle after it holds at a BAR: to that bundle the store is pending still (R126, R132, R282). -/
def Core.pendingByte (x : Core) (o : Nat) : Bool :=
  (x.regs.before ++ ((x.captured.map Captured.before).getD [])).any fun e => e.1 == o && e.2.2

/-- Some 4-byte word of a range has a store pending (R132). -/
def State.pendingWord (s : State) (off n : Nat) : Option Nat :=
  ((List.range ((off + n + 3) / 4 - off / 4)).map fun i => 4 * (off / 4 + i)).find? fun w =>
    (List.range 4).any (fun j => s.core.pendingByte (w + j)) || s.core.pendingFlight.any fun f =>
      match f.what with
      | .store _ o _ mask true => (List.range 4).any fun j => decide (o ≤ w + j) && mask.getLsbD (w + j - o)
      | _ => false

/-- A local store in flight, marked in debug pending mode (R126, R132). -/
def State.sendStore (s : State) (slot : Slot) (off : Nat) (data : VReg) (mask : PReg) : State :=
  s.send 2 (.store slot off data mask s.core.regs.dbgPend)

/-- The result of a load of 1, 2, 4 or 8 bytes (R150). -/
def loadValue (sz : BitVec 2) (sxt : Bool) (bs : List Byte) : Word :=
  let n := 8 * 2 ^ sz.toNat
  let x := leNat bs
  if sxt then BitVec.ofInt 64 (if x < 2 ^ (n - 1) then (x : Int) else (x : Int) - 2 ^ n) else BitVec.ofNat 64 x

/-! ### Scratchpad accesses that nothing orders (R305, R307, log 61) -/

/-- A later access may pass an earlier one: their bytes meet and neither a FENCE nor an acquire stands between them; of two S or V accesses the classes
differ; any others are on different paths, and the later one's command does not follow the earlier one's (R305, R307). -/
def ScratchAccess.passedBy (a b : ScratchAccess) : Bool :=
  (if a.slots && b.slots then !a.plain && !b.plain && a.ac != b.ac
    else a.slots || b.slots || (a.path != b.path && !a.cmd.any b.after.contains)) && !a.closed.getLsbD b.path.toNat
    && decide (a.off < b.off + b.size) && decide (b.off < a.off + a.size)

/-- A FENCE orders an access before later ones: S and V accesses where both masks name both paths (R305), others where the source mask names its
path and the destination mask theirs (R307). Those of its own bundle count as after it. -/
def ScratchAccess.fence (src dst : BitVec 8) (a : ScratchAccess) : ScratchAccess :=
  let p := a.path.toNat
  let more : BitVec 8 :=
    if a.now || !src.getLsbD p then 0
    else if p ≤ 1 then (if dst.getLsbD p then dst &&& (src ||| 0xFC) else dst &&& 0xFC)
    else dst
  { a with closed := a.closed ||| more }

/-- The byte that a write puts at an offset. -/
def LocalStore.at (t : LocalStore) (o : Nat) : Option Byte :=
  if t.acc.off ≤ o ∧ t.mask.getLsbD (o - t.acc.off) then some (t.data.extractLsb' (8 * (o - t.acc.off)) 8) else none

/-- Two accesses of the S slot meet as wholes, since they are single-copy atomic (R304); others word by word. -/
def LocalStore.piece (t : LocalStore) (b : ScratchAccess) (word : Nat) : Nat := if t.acc.path = 0 ∧ b.path = 0 then 0 else word

/-- A write puts no byte of a word that an access names. -/
def LocalStore.misses (t : LocalStore) (b : ScratchAccess) (word : Nat) : Bool :=
  (List.range 4).all fun j => decide (4 * word + j < b.off) || decide (b.off + b.size ≤ 4 * word + j) || (t.at (4 * word + j)).isNone

/-- A word with the bytes that a write puts there. -/
def LocalStore.over (t : LocalStore) (word : Nat) (cur : List Byte) : List Byte :=
  (cur.zip (List.range 4)).map fun p => (t.at (4 * word + p.2)).getD p.1

/-- A word with the bytes that a performed write replaced. -/
def LocalStore.under (t : LocalStore) (old : List Byte) (word : Nat) (cur : List Byte) : List Byte :=
  (cur.zip (List.range 4)).map fun p => if (t.at (4 * word + p.2)).isSome then old.getD (4 * word + p.2 - t.acc.off) p.1 else p.1

/-- The task has read a write's word with the class of an access, or a word of an S store that is one (R304), in an earlier bundle; a read without a
class is one of every class. -/
def LocalStore.wasSeen (t : LocalStore) (b : ScratchAccess) (word : Nat) : Bool :=
  b.slots && t.seen.any fun p => (b.plain || p.1 == b.ac) && (t.acc.path == 0 || p.2 == word)

/-- What an access reads of a word, from the latest write to the earliest, and the writes that it has seen then: `cur` stands there when none of the
rest counts. A write that is ordered before it has its say as R126 gives it; of one that races it, the access may return its word or the one from
before it. -/
def ScratchAccess.word (b : ScratchAccess) (key word : Nat) : List LocalStore → List Byte → List Byte × List Nat
  | [], cur => (cur, [])
  | t :: l, cur =>
    let rest := (t :: l).map LocalStore.no
    if t.misses b word then b.word key word l cur
    else
      let takes := t.wasSeen b word || Config.raceTakes t.no key (t.piece b word)
      match t.acc.passedBy b, t.old with
      | false, none => b.word key word l cur
      | false, some _ => (cur, rest)
      | true, none => if takes then (t.over word cur, rest) else b.word key word l cur
      | true, some old =>
        if takes || t.over word cur != cur then (cur, rest) else b.word key word l (t.under old word cur)

/-- The bytes of the scratchpad that a load of the bundle reads; a bundle that holds at a BAR still reads those from before the stores of the bundle
before it (R126, R282). -/
def State.baseBytes (s : State) (off n : Nat) : List Byte :=
  let bs := s.core.scratchRead off n
  if s.core.regs.before.isEmpty then bs
  else (bs.zip (List.range n)).map fun p => ((s.core.regs.before.lookup (off + p.2)).map Prod.fst).getD p.1

/-- The writes that an access may meet, latest first; a load does not see the stores of its own bundle (R305). -/
def State.writesMet (s : State) : List LocalStore := (s.core.regs.stores.filter fun t => !t.acc.now).reverse

/-- The words of an access, each with the writes that it has seen. -/
def State.wordsRead (s : State) (b : ScratchAccess) (key : Nat) : List (List Byte × List Nat) :=
  (List.range ((b.off + b.size + 3) / 4 - b.off / 4)).map fun i =>
    b.word key (b.off / 4 + i) s.writesMet (s.baseBytes (4 * (b.off / 4 + i)) 4)

/-- Some write on record that an access may pass, or that may pass it. -/
def State.races (s : State) (b : ScratchAccess) : Bool := s.writesMet.any fun t => t.acc.passedBy b

/-- The bytes that an access of the core's own scratchpad reads: those of R126, or others that R305 and R307 allow. -/
def State.raceRead (s : State) (b : ScratchAccess) (key : Nat) : List Byte :=
  if s.races b then (((s.wordsRead b key).flatMap Prod.fst).drop (b.off % 4)).take b.size else s.baseBytes b.off b.size

/-- The number of an access by the task's S and V slots. -/
def State.loadKey (s : State) : Nat := 4 * s.fresh

/-- The number of the scratchpad read that a bundle's X slot makes: the same for its checks and for its effect. -/
def State.xKey (s : State) : Nat := 4 * s.core.cycles.toNat + 3

/-- A scratchpad read of the X slot: on path S without a class, or on path X (R274, R302). -/
def xAccess (path : BitVec 3) (ea : Word) (n : Nat) : ScratchAccess :=
  { path := path, ac := 0, off := ea.toNat - windowBase.toNat, size := n, plain := path == 0 }

/-- The bytes of a local operand that the X slot reads (R126, R274, R307). -/
def State.localBytes (s : State) (path : BitVec 3) (ea : Word) (n : Nat) : List Byte := s.raceRead (xAccess path ea n) s.xKey

/-- The bytes that a local load reads (R126, R305, R307). -/
def State.localLoad (s : State) (b : ScratchAccess) : List Byte := s.raceRead b s.loadKey

/-- The classes of an access. -/
def ScratchAccess.classes (b : ScratchAccess) : List (BitVec 2) := if b.plain then [0, 1, 2, 3] else [b.ac]

/-- The writes that an access has seen: from the next bundle on its class reads no earlier ones of their words any more (R304). -/
def State.saw (s : State) (b : ScratchAccess) (key : Nat) : State :=
  let l := (s.wordsRead b key).zip (List.range ((b.off + b.size + 3) / 4 - b.off / 4))
  s.onRegs fun r => { r with stores := r.stores.map fun t =>
    { t with saw := (l.filter fun e => e.1.2.contains t.no).flatMap (fun e => b.classes.map fun c => (c, b.off / 4 + e.2)) ++ t.saw } }

/-- A load has read. -/
def State.sawLoad (s : State) (b : ScratchAccess) : State :=
  if s.races b then { s.saw b s.loadKey with fresh := s.fresh + 1 } else s

/-- A table or descriptor load of the X slot has read. -/
def State.sawLocal (s : State) (ea : Word) (n : Nat) : State :=
  if s.races (xAccess 0 ea n) then s.saw (xAccess 0 ea n) s.xKey else s

/-- The bytes of an access with those of a write that it takes: where it must, and where it may and does. -/
def LocalStore.meet (t : LocalStore) (b : ScratchAccess) (key : Nat) (must : Nat → Bool) (bs : List Byte) : List Byte :=
  (bs.zip (List.range bs.length)).map fun p =>
    let o := b.off + p.2
    if must (o / 4) || Config.raceTakes t.no key (t.piece b (o / 4)) then (t.at o).getD p.1 else p.1

/-- A load in flight that a later store races (R305). -/
def LocalLoad.meet (r : LocalLoad) (t : LocalStore) (key : Nat) (must : Nat → Bool) : Land :=
  match r.what with
  | .s d v => .s d (loadValue r.sz r.sx (t.meet r.acc key must (leBytes r.acc.size v.toNat)))
  | .v d v m => .v d (BitVec.ofNat 8192 (leNat (t.meet r.acc key must (leBytes 1024 v.toNat)))) m
  | w => w

/-- The words of a store that a load in flight has taken. -/
def LocalLoad.took (r : LocalLoad) (t : LocalStore) (key : Nat) (must : Nat → Bool) : List (BitVec 2 × Nat) :=
  ((List.range ((r.acc.size + 6) / 4)).map (r.acc.off / 4 + ·)).filterMap fun w =>
    if must w || Config.raceTakes t.no key (t.piece r.acc w) then some (r.acc.ac, w) else none

/-- The loads in flight of earlier bundles and of another class may return a new store's words, in issue order for each class (R304, R305): the loads as
they stand now, what each was, and what the store's words have been taken by. -/
def meetLoads (t : LocalStore) : List LocalLoad → List (BitVec 2 × Nat) → List (LocalLoad × Land) × List (BitVec 2 × Nat)
  | [], seen => ([], seen)
  | r :: l, seen =>
    if r.acc.now || !r.acc.passedBy t.acc then
      let q := meetLoads t l seen
      ((r, r.what) :: q.1, q.2)
    else
      let key := 4 * l.length + 2
      let must (w : Nat) : Bool := seen.any fun p => p.1 == r.acc.ac && (t.acc.path == 0 || p.2 == w)
      let q := meetLoads t l (r.took t key must ++ seen)
      (({ r with what := r.meet t key must }, r.what) :: q.1, q.2)

/-- The loads in flight of a core after a store is issued, and the words of it that they took. -/
def Regs.meetLoads (g : Regs) (t : LocalStore) : Regs × List (BitVec 2 × Nat) :=
  let q := Machine.meetLoads t g.loads []
  ({ g with
    flight := g.flight.map fun f => match q.1.find? (fun r => r.1.left == f.left && r.2 == f.what) with
      | some r => { f with what := r.1.what }
      | none => f
    loads := q.1.map Prod.fst }, q.2)

/-- Sends the value of a local load on its way (R123); on a companion core it lands at once, and no access passes another (R324). -/
def State.sendLoad (s : State) (lat : Nat) (b : ScratchAccess) (sz : BitVec 2) (sx : Bool) (what : Land) : State :=
  if s.comp then s.send lat what
  else ((s.sawLoad b).send lat what).onRegs fun r => { r with loads := r.loads ++ [⟨b, sz, sx, lat, what⟩] }

/-- A write that covers an earlier one of its path and class takes its place on record, but for one whose wake-queue token waits. -/
def LocalStore.covers (t u : LocalStore) : Bool :=
  t.acc.path == u.acc.path && t.acc.ac == u.acc.ac && u.old.isSome && u.woke.isEmpty && decide (t.acc.off ≤ u.acc.off)
    && decide (u.acc.off + u.acc.size ≤ t.acc.off + t.acc.size)
    && (List.range u.acc.size).all fun i => !u.mask.getLsbD i || t.mask.getLsbD (u.acc.off + i - t.acc.off)

/-- Puts a write on record. -/
def Regs.noteWrite (r : Regs) (t : LocalStore) : Regs := { r with stores := (r.stores.filter fun u => !t.covers u) ++ [t] }

/-- A write operation that has performed, in the core that it leaves: it goes on record with what it replaced and the tokens that it pushed. -/
def Core.noted (x before : Core) (a : ScratchAccess) (no : Nat) (bs : List (Byte × Bool)) : Core :=
  let mask : PReg := BitVec.ofNat 1024 ((bs.map fun b => if b.2 then 1 else 0).foldr (fun b acc => b + 2 * acc) 0)
  let w : LocalStore :=
    { no := no, acc := a, data := BitVec.ofNat 8192 (leNat (bs.map Prod.fst)), mask := mask, left := 0
      old := some (before.scratchRead a.off a.size), woke := x.regs.wakeQ.drop before.regs.wakeQ.length }
  { x with regs := x.regs.noteWrite w }

/-- Earlier stores of another class, which may stay although a store is issued after them (R305); none of the store's own bundle (R126). -/
def State.stays (s : State) (b : ScratchAccess) : List LocalStore :=
  s.core.regs.stores.filter fun t => t.acc.slots && !t.acc.now && t.acc.passedBy b

/-- The write that is final at an offset so far: the latest one of it, or the one that stays over that (R126, R305). -/
def Regs.finalAt (r : Regs) (o : Nat) : Option LocalStore :=
  match r.stores.reverse.find? fun t => (t.at o).isSome with
  | none => none
  | some t => match t.kept.lookup o with
    | none => some t
    | some n => r.stores.find? fun u => u.no == n

/-- The store that stays at an offset over a new one: the one that is final there, if nothing orders it before the new one, whose class has not seen it
(R304, R305). -/
def State.stayer (s : State) (b : ScratchAccess) (o : Nat) : Option LocalStore :=
  (s.core.regs.finalAt o).filter fun t =>
    t.acc.slots && !t.acc.now && t.acc.passedBy b && (t.at o).isSome && !t.wasSeen b (o / 4) && Config.raceTakes t.no s.loadKey (t.piece b (o / 4))

/-- The offsets of a new store at which an earlier one stays, with that one's byte and number. -/
def State.staying (s : State) (b : ScratchAccess) : List (Nat × Byte × Nat) :=
  if (s.stays b).isEmpty then []
  else (List.range b.size).filterMap fun i => (s.stayer b (b.off + i)).map fun t => (b.off + i, (t.at (b.off + i)).getD 0, t.no)

/-- The bytes of a new store, with those of the stores that stay. -/
def State.settled (s : State) (b : ScratchAccess) (bs : List Byte) : List Byte :=
  (bs.zip (List.range bs.length)).map fun p => (((s.staying b).lookup (b.off + p.2)).map Prod.fst).getD p.1

/-- Issues a local store: it performs at the end of the next bundle, with its own words or those of a store of another class that stays
(R126, R305). -/
def State.localStore (s : State) (slot : Slot) (b : ScratchAccess) (data : VReg) (mask : PReg) : State :=
  if s.comp then s.sendStore slot b.off data mask
  else
    let bytes := if (s.stays b).isEmpty then data else BitVec.ofNat 8192 (leNat (s.settled b (leBytes b.size data.toNat)))
    let t : LocalStore := { no := s.fresh, acc := b, data := bytes, mask := mask, kept := (s.staying b).map fun e => (e.1, e.2.2) }
    let g := s.core.regs.meetLoads t
    let s := ({ s with fresh := s.fresh + 1 } : State).onRegs fun _ => g.1
    (s.sendStore slot b.off bytes mask).onRegs fun r => r.noteWrite { t with seen := g.2 }

/-- The paths whose parties a scope contains, as a FENCE mask (R302, R303). -/
def scopePaths : Scope → BitVec 8
  | .core | .cluster => 0x1F
  | .die | .package | .fabric => 0x7F
  | .system => 0xFF

/-- A FENCE orders the scratchpad accesses before it (R305, R307). -/
def State.fenceLocal (s : State) (src dst : BitVec 8) : State :=
  s.onRegs fun r => { r with
    stores := r.stores.map fun t => { t with acc := t.acc.fence src dst }
    loads := r.loads.map fun q => { q with acc := q.acc.fence src dst } }

/-- A write has performed and is ordered before every access to come, of another path or class. -/
def LocalStore.settledFor (t : LocalStore) : Bool :=
  t.old.isSome && (t.acc.closed ||| (if t.acc.slots then 0 else 1#8 <<< t.acc.path.toNat)) &&& 0x7F == 0x7F

/-- One bundle has issued: its accesses are earlier ones from now on, and a load whose value lands is passed no more. A write that is ordered before
every later access is forgotten. -/
def Regs.ageLocal (r : Regs) : Regs :=
  { r.forget LocalStore.settledFor with
    stores := (r.forget LocalStore.settledFor).stores.map fun t =>
      { t with acc := { t.acc with now := false }, left := t.left - 1, seen := t.saw ++ t.seen, saw := [] }
    loads := (r.loads.map fun q => { q with acc := { q.acc with now := false }, left := q.left - 1 }).filter fun q => q.left != 0 }

/-- The writes on record that perform now keep what they replace. -/
def Core.performing (x : Core) : Core :=
  { x with regs := { x.regs with stores := x.regs.stores.map fun t =>
      if t.left = 0 ∧ t.old.isNone then { t with old := some (x.scratchRead t.acc.off t.acc.size) } else t } }

/-- In debug pending mode a load does not read a word that a store has pending (R132). -/
def State.pendCheck (s : State) (off n : Nat) : Verdict :=
  match s.pendingWord off n with
  | some w => .trap 0x06 (windowBase + BitVec.ofNat 64 w)
  | none => .go

/-- The checks on the bytes of a local load (R132, R201). -/
def State.loadCheck (s : State) (off n : Nat) : Verdict := (s.pendCheck off n).andThen (s.unitsGood off n)

/-! ### Releases and acquires (R308, R309, log 61) -/

/-- Writes that an acquire orders before every later access of the task, with those of the commands that theirs follow. -/
def Regs.order (r : Regs) (hit : LocalStore → Bool) : Regs :=
  let more := (r.stores.filter hit).flatMap fun t => t.acc.after
  { r with stores := r.stores.map fun t => if hit t || t.acc.cmd.any more.contains then { t with acc := { t.acc with closed := 0xFF } } else t }

/-- A release that others observe. -/
def toOthers : Nat := 64

/-- A release of the task of the core in focus: it covers the stores of earlier bundles, and the writes of its commands that have retired (R280, R308). -/
def State.releases (s : State) (n : Nat) : State :=
  s.onRegs fun r => { r with stores := r.stores.map fun t =>
    if !t.acc.now && t.acc.cmd.all (fun k => s.core.cmds.all fun c => c.seqNo != k) then { t with rel := n :: t.rel } else t }

/-- A release of a command: it covers its writes and those of the commands that it follows (R228, R308). -/
def State.cmdReleases (s : State) (c : Cmd) (n : Nat) : State :=
  let mine (k : Nat) : Bool := k == c.seqNo || c.after.contains k
  s.onRegs fun r => { r with stores := r.stores.map fun t => if t.acc.cmd.any mine then { t with rel := n :: t.rel } else t }

/-- An acquire of the task of the core in focus that observes releases (R308). -/
def State.observes (s : State) (l : List Nat) : State := s.onRegs fun r => r.order fun t => t.rel.any l.contains

/-- An acquire for the bytes that a wake-queue token's write has written (R278). -/
def State.observesToken (s : State) (token : Word32) : State :=
  match s.core.regs.stores.find? fun t => t.woke.contains token with
  | none => s
  | some t => (s.onRegs fun r => r.order fun u => u.no == t.no).onRegs fun r =>
      { r with stores := r.stores.map fun u => if u.no = t.no then { u with woke := u.woke.erase token } else u }

/-- An acquire for the bytes of a range that retired commands have written (R289). -/
def State.observesRange (s : State) (off n : Nat) : State :=
  s.onRegs fun r => r.order fun t => !t.acc.slots && decide (t.acc.off < off + n ∧ off < t.acc.off + t.acc.size)
    && t.acc.cmd.all fun k => s.core.cmds.all fun c => c.seqNo != k

/-- An acquire of the core in focus at a scope: it orders what releases of others, or observed by others, cover before later accesses (R308, log 61), and
invalidates L1, a fused L1 only at DIE scope or wider, which the cluster's companion core shares in (R207, R208). -/
def State.acquire (s : State) (sc : Scope) : State :=
  if sc = .core then s
  else
    let s := s.observes [toOthers]
    let s : State := if s.comp || !s.fusedCluster s.me then { s with core := s.core.clearL1 } else s
    if s.fusedCluster s.me && sc != .cluster then s.clearCluster s.me else s

/-! ### Global accesses (R151, R153) -/

/-- A global S-slot access: alignment, the address bits above 48, translation, rights and the physical checks; a walk that can
succeed is waited for (R151, R153). -/
def State.globalCheck (s : State) (ea : Word) (size : Nat) (write : Bool) : Verdict :=
  if ea.toNat % size ≠ 0 then .trap 0x07 ea
  else if bits ea 48 16 ≠ 0 then .trap 0x08 ea
  else
    match s.cached ea.toNat write with
    | some e =>
      match s.rights s.who write e with
      | some f => .trap f.cause ea
      | none =>
        match s.physCheck s.who write (e.leafAt s ea.toNat).pa size with
        | some f => .trap f.cause ea
        | none => .go
    | none =>
      match s.walk ea.toNat with
      | .error .wait => .walk (ea.setWidth 48) write
      | .error f => .walkTrap f.cause ea
      | .ok (e, _) =>
        match s.rights s.who write e with
        | some f => .walkTrap f.cause ea
        | none => .walk (ea.setWidth 48) write

/-- Where a global access that has passed its checks acts. -/
def State.place (s : State) (ea : Word) (write : Bool) : Place :=
  match s.cached ea.toNat write with
  | some e =>
    let l := e.leafAt s ea.toNat
    ⟨ea, BitVec.ofNat 52 l.pa, BitVec.ofNat 6 l.key, match region l.pa with | .device _ => true | _ => false⟩
  | none => ⟨ea, 0, 0, false⟩

end Sys2Proof.Machine
end

