-- ==== Sys2Proof/Machine/Versioned.lean ====
section
/-! DEFINITION. Versioned lines (R294-R301): the S-slot instructions, and memory operations performing at their homes and landing
(R124, R152, R207, R208, R221, R306). -/

namespace Sys2Proof.Machine

open Sys2Proof

/-! ### Issue -/

/-- The version slots that a queued operation names (R294). -/
def MemOp.names : MemOp → BitVec 8
  | .ldv _ _ k => 1#8 <<< k.toNat
  | .casv _ _ _ k => 1#8 <<< k.toNat
  | .valid _ m => m
  | .valst _ _ _ m => m
  | _ => 0

/-- A version instruction holds while a slot that it names awaits an earlier one (R294, log 19). -/
def State.slotsFree (s : State) (mask : BitVec 8) : Verdict :=
  waitFor (s.core.memq.all fun e => e.op.names &&& mask == 0) 0x00

/-- The checks on the unit of a version instruction: alignment, translation, and a line that carries versions (R153, R294). -/
def State.unitCheck (s : State) (ea : Word) (write : Bool) : Verdict :=
  if ea.toNat % 8 ≠ 0 then .trap 0x07 ea
  else if (windowOff? ea).isSome then .trap 0x09 ea
  else (s.globalCheck ea 8 write).and (ensure (versioned (s.place ea write).pa.toNat) 0x09 ea)

/-- VALST and CASV are commit-class in the S slot: the bundle's X slot must make it a checkpoint bundle (R301). -/
def State.needCheckpoint (s : State) : Verdict := ensure (!s.prot || s.core.issue.protectOk) 0x0F s.wordVal

/-- LDV (R294, R295). -/
def execLdv (d a : BitVec 5) (ta : Bool) (k : BitVec 3) (s : State) : Out State :=
  s.issueWith (.all [s.needA a ta, s.destS d, s.slotsFree (1#8 <<< k.toNat), s.unitCheck (s.a a) false]) fun s =>
    ((s.clearFull d).queueOp (.ldv d (s.place (s.a a) false) k)).refill (s.a a) false

/-- VALID (R294, R296). -/
def execValid (d : BitVec 5) (mask : BitVec 8) (s : State) : Out State :=
  s.issueWith ((s.destS d).and (s.slotsFree mask)) fun s => (s.clearFull d).queueOp (.valid d mask)

/-- VALST (R294, R297, R301). -/
def execValst (d a b : BitVec 5) (ta tb : Bool) (mask : BitVec 8) (s : State) : Out State :=
  s.issueWith (.all [s.needA a ta, s.needS b tb, s.destS d, s.slotsFree mask, s.needCheckpoint, s.unitCheck (s.a a) true]) fun s =>
    ((s.clearFull d).queueOp (.valst d (s.place (s.a a) true) (s.s b) mask)).refill (s.a a) true

/-- CASV (R294, R298, R301). -/
def execCasv (d a b : BitVec 5) (ta tb : Bool) (k : BitVec 3) (s : State) : Out State :=
  s.issueWith (.all [s.needA a ta, s.needS b tb, s.destS d, s.slotsFree (1#8 <<< k.toNat), s.needCheckpoint,
      s.unitCheck (s.a a) true]) fun s =>
    ((s.clearFull d).queueOp (.casv d (s.place (s.a a) true) (s.s b) k)).refill (s.a a) true

/-- CLRV (R299). -/
def execClrv (mask : BitVec 8) (s : State) : Out State :=
  s.issueWith (s.slotsFree mask) fun s => s.send 1 (.clrv mask)

/-! ### Which queued operation may perform (R280, R295-R297, R306) -/

/-- The bytes that an operation names: address, size, alias class. -/
def MemOp.bytes : MemOp → Option (Nat × Nat × Nat)
  | .load _ p ac sz _ => some (p.pa.toNat, 2 ^ sz.toNat, ac.toNat)
  | .store p ac sz _ => some (p.pa.toNat, 2 ^ sz.toNat, ac.toNat)
  | _ => none

/-- Where the bytes of a range lie: those of an aperture in its buffer, each once (R223). -/
def State.lies (s : State) (pa n : Nat) : List Nat :=
  match region pa with
  | .aperture k off =>
    match s.apt? k with
    | none => []
    | some a => (List.range n).map fun i => s.aptAddr a (off + i)
  | _ => (List.range n).map (pa + ·)

/-- The locations that an operation names, with its alias class (R223, R306). -/
def State.locations (s : State) (o : MemOp) : List Nat × Nat :=
  match o.bytes with
  | some (p, n, c) => (s.lies p n, c)
  | none => ([], 0)

/-- The unit of a version operation. -/
def MemOp.unit : MemOp → Option Nat
  | .ldv _ p _ => some p.pa.toNat
  | .valst _ p _ _ => some p.pa.toNat
  | .casv _ p _ _ => some p.pa.toNat
  | _ => none

/-- A version instruction. -/
def MemOp.isVersion : MemOp → Bool
  | .ldv _ _ _ | .valid _ _ | .valst _ _ _ _ | .casv _ _ _ _ => true
  | _ => false

/-- An operation that may write. -/
def MemOp.isWrite : MemOp → Bool
  | .store _ _ _ _ | .valst _ _ _ _ | .casv _ _ _ _ | .tdec _ _ _ | .semadd _ _ | .sqpush _ _ => true
  | _ => false

/-- An acquire while it is queued (R295, R298). -/
def MemOp.isAcquire : MemOp → Bool
  | .ldv _ _ _ | .casv _ _ _ _ => true
  | _ => false

/-- A release (R280, R291, R297, R298). -/
def MemOp.isRelease : MemOp → Bool
  | .valst _ _ _ _ | .casv _ _ _ _ | .tdec _ _ _ | .semadd _ _ | .sqpush _ _ => true
  | _ => false

/-- A value that is only on its way (R124). -/
def MemOp.isValue : MemOp → Bool
  | .value _ _ _ => true
  | _ => false

/-- Two accesses to one location, of whatever alias class (R306). -/
def State.overlap (s : State) (a b : MemOp) : Bool := (s.locations a).1.any fun p => (s.locations b).1.contains p

/-- Two accesses of one alias class to one location (R306). -/
def State.sameWord (s : State) (a b : MemOp) : Bool := (s.locations a).2 == (s.locations b).2 && s.overlap a b

/-- An access and a version operation on one line (R306). -/
def State.sameLine (s : State) (a b : MemOp) : Bool :=
  match b.unit with
  | some q => (s.locations a).1.any fun p => p / 128 == q / 128
  | none => false

/-- A change of the core's own semaphores (R281). -/
def MemOp.isAdd : MemOp → Bool
  | .semadd _ _ => true
  | _ => false

/-- Adds to a semaphore of a core; a bundle that it holds is due to be tested (R281). -/
def Core.semAdd (x : Core) (n : BitVec 6) (v : Word) : Core :=
  { x with
    regs := { x.regs with sem := x.regs.sem.set n.toNat (x.regs.sem[n.toNat]'(n.isLt) + v) n.isLt }
    issue := { x.issue with due := x.issue.res == .held } }

/-- A held bundle is tested before the next change of the semaphore file (R281). -/
def Core.semDue (x : Core) : Bool := x.issue.due && x.issue.res == .held

/-- The later operation waits for the earlier one. -/
def State.blocks (s : State) (a b : MemOp) : Bool :=
  !a.isValue && !b.isValue &&
    (a.isAcquire || (a.isWrite && b.isRelease) || (a.isVersion && b.isVersion) || s.sameWord a b || s.sameLine a b || s.sameLine b a ||
      (match a, b with
       | .load _ _ _ _ _, .valid _ _ => true
       | _, _ => false))

/-- The version slots that a check reads. -/
def MemOp.checks : MemOp → BitVec 8
  | .valid _ m | .valst _ _ _ m => m
  | _ => 0

/-- An access to a line that a version check of the core in focus reads (R296, R306). -/
def State.checked (s : State) (o b : MemOp) : Bool :=
  (List.range 8).any fun k => o.checks.getLsbD k && (match (s.core.regs.n.toList).getD k none with
    | some (line, _) => (s.locations b).1.any fun p => line.toNat == p / 128
    | none => false)

/-- The later queued operation of the core in focus waits for the earlier one: after a trap the alias classes do not matter (R306). -/
def State.waitsFor (s : State) (a : MemEntry) (b : MemOp) : Bool :=
  s.blocks a.op b || (a.closed && s.overlap a.op b) || s.checked a.op b || s.checked b a.op

/-- The channel groups of the lines in the masked version slots are ready (R39, R296). -/
def State.slotsReady (s : State) (mask : BitVec 8) : Bool :=
  (List.range 8).all fun k => !mask.getLsbD k || (match (s.core.regs.n.toList).getD k none with
    | some (line, _) => s.channelReady (128 * line.toNat)
    | none => true)

/-- The home of an operation is ready (R39). -/
def State.homeReady (s : State) : MemOp → Bool
  | .load _ p _ sz _ | .store p _ sz _ => s.groupsReady p.pa.toNat (2 ^ sz.toNat)
  | .ldv _ p _ | .casv _ p _ _ => s.channelReady p.pa.toNat
  | .valst _ p _ mask => s.channelReady p.pa.toNat && s.slotsReady mask
  | .valid _ mask => s.slotsReady mask
  | .tdec _ pa _ => s.channelReady pa.toNat
  | _ => true

/-- The k-th queued operation of the core in focus may perform. -/
def State.mayPerform (s : State) (k : Nat) : Option MemEntry :=
  match s.core.memq[k]? with
  | none => none
  | some e => if e.lost || (s.core.memq.take k).any (fun a => s.waitsFor a e.op) || !s.homeReady e.op || (e.op.isAdd && s.core.semDue) then none else some e

/-! ### L1 (R207, R208) -/

/-- The core whose L1 holds a line for the core in focus. -/
def State.l1Of (s : State) (line : Nat) : CoreRef :=
  if !s.comp && s.fusedCluster s.me then ⟨s.me.die, BitVec.ofNat 8 (12 * s.me.cluster + line % 12)⟩ else s.me

/-- Drops an entry of a full cache of lines (R207, log 9). -/
def l1Room (l : Sparse (BitVec 1024)) (fresh : Nat) : Sparse (BitVec 1024) :=
  if l.length < 512 then l else dropAt l (Config.victim l.length fresh % l.length)

/-- Updates the bytes of a line that a core's L1 holds. -/
def Core.l1Write (x : Core) (pa : Nat) (bs : List Byte) : Core :=
  match Sparse.find? x.l1 (pa / 128) with
  | none => x
  | some l =>
    let old := leBytes 128 l.toNat
    { x with l1 := Sparse.put x.l1 (pa / 128) (BitVec.ofNat 1024 (leNat (old.take (pa % 128) ++ bs ++ old.drop (pa % 128 + bs.length)))) }

/-- The bytes of device memory that a write reaches, line by line, through an aperture or directly (R203, R223). -/
def State.lineWrites (s : State) (pa : Nat) (bs : List Byte) : List (Nat × List Byte) :=
  match region pa with
  | .device _ => [(pa, bs)]
  | .aperture k off =>
    match s.apt? k with
    | none => []
    | some a => ((aptRuns a off bs).map fun p => (s.reaim p.1, p.2)).filter fun p => match region p.1 with
      | .device _ => true
      | _ => false
  | _ => []

/-- A performed write of an S slot updates the line of its core's L1, which a fused cluster's cores share (R207, R208). -/
def State.l1Update (s : State) (pa : Nat) (bs : List Byte) : State :=
  s.onCore (s.l1Of (pa / 128)) fun x => x.l1Write pa bs

/-- A fused L1 is coherent within its cluster: it takes the writes of the cluster's engines, companion and decrements too (R208). -/
def State.l1Fused (s : State) (pa : Nat) (bs : List Byte) : State :=
  if s.fusedCluster s.me then s.onCore ⟨s.me.die, BitVec.ofNat 8 (12 * s.me.cluster + pa / 128 % 12)⟩ fun x => x.l1Write pa bs else s

/-- Notes that a write of a path has reached a line that the L1 holds as it was: a FENCE between the path and later loads drops the line (R303, R307). -/
def Core.noteStale (x : Core) (path : BitVec 3) (line : Nat) : Core :=
  if (Sparse.find? x.l1 line).isSome ∧ (path, line) ∉ x.stale then { x with stale := (path, line) :: x.stale } else x

/-- Drops the lines of the L1 that accesses of some paths have written. -/
def Core.dropStale (x : Core) (src : BitVec 8) : Core :=
  let hit (p : BitVec 3 × Nat) : Bool := src.getLsbD p.1.toNat
  { x with l1 := x.l1.filter fun e => !x.stale.any fun p => hit p && p.2 == e.1, stale := x.stale.filter fun p => !hit p }

/-- What the caches make of a write that is none of an S slot's stores (R207, R208, R303). -/
def State.besideL1 (s : State) (path : BitVec 3) (pa : Nat) (bs : List Byte) : State :=
  (s.onCore (s.l1Of (pa / 128)) fun x => x.noteStale path (pa / 128)).l1Fused pa bs

/-- The caches take the lines that a write reached and that hold no poison, which keeps a write from performing (R207, R208, R377): a store of the S slot
updates its core's L1. -/
def State.cacheWrites (s : State) (path : BitVec 3) (l : List (Nat × List Byte)) : State :=
  l.foldl (fun s p =>
    if (s.lineMeta (p.1 / 128)).poison then s
    else if path ≠ 0 then s.besideL1 path p.1 p.2
    else
      let s := s.l1Update p.1 p.2
      if s.comp then s.l1Fused p.1 p.2 else s) s

/-- Lines that a load has read past the L1, through an aperture, stay there no longer as they were (R223, R304). -/
def State.dropLines (s : State) (pa n : Nat) : State :=
  match region pa with
  | .aperture _ _ => (s.lies pa n).foldl (fun s p => s.onCore (s.l1Of (p / 128)) fun x => { x with l1 := Sparse.del x.l1 (p / 128) }) s
  | _ => s

/-- The bytes of a load: from L1 when the line is there, else from where they lie; a plain line is then kept. -/
def State.loadBytes (s : State) (w : Who) (p : Place) (n : Nat) : State × Except Flt (List Byte) :=
  let pa := p.pa.toNat
  let line := pa / 128
  if !p.plain then (s.dropLines pa n, s.physRead w p.key.toNat pa n)
  else
    let c := s.l1Of line
    match Sparse.find? (s.getCore c).l1 line with
    | some l => (s, .ok (((leBytes 128 l.toNat).drop (pa % 128)).take n))
    | none =>
      match s.physRead w p.key.toNat pa n with
      | .error f => (s.count 0x09 1, .error f)
      | .ok bs =>
        let l := BitVec.ofNat 1024 (leNat (s.linePlain p.key.toNat line))
        let s := s.count 0x09 1
        ({ s.onCore c (fun x => { x with l1 := Sparse.put (l1Room x.l1 s.fresh) line l }) with fresh := s.fresh + 1 }, .ok bs)

/-! ### Landing (R124, R358) -/

/-- Lands a value that arrives: at once, or into the pending-results record while firmware runs (R358). -/
def Core.arrive (x : Core) (sup : Bool) (l : Land) (flags : BitVec 5 := 0) : Core :=
  match x.captured with
  | some c => if sup then x.landFlight ⟨0, l, flags⟩ else { x with captured := some { c with flight := c.flight ++ [⟨0, l, flags⟩] } }
  | none => x.landFlight ⟨0, l, flags⟩

/-- The same for the core in focus. -/
def State.arrive (s : State) (sup : Bool) (l : Land) (flags : BitVec 5 := 0) : State :=
  { s with core := s.core.arrive sup l flags }

/-- The value of an S register that an operation produces: noted in a rerun, kept for the snapshot that found the operation outstanding,
and landed (R124, R373, R374). -/
def State.result (s : State) (e : MemEntry) (d : BitVec 5) (v : Word) (flags : BitVec 5 := 0) : State :=
  let x := s.core
  let x := { x with
    rerun := x.rerun.map fun r => if e.no = 0 then r else { r with log := Sparse.set [] r.log e.no (Sparse.get [] r.log e.no ++ leBytes 8 v.toNat) }
    snapshot := x.snapshot.map fun g => if e.snap then { g with flight := g.flight ++ [⟨0, .late d v, flags⟩] } else g }
  let s : State := { s with core := x }
  s.arrive e.sup (.late d v) flags

/-- The version slot that an operation fills lands likewise (R295, R298, R373). -/
def State.resultN (s : State) (e : MemEntry) (k : BitVec 3) (x : NSlot) : State :=
  let y := s.core
  let s : State :=
    { s with core := { y with snapshot := y.snapshot.map fun g => if e.snap then { g with flight := g.flight ++ [⟨0, .n k x, 0⟩] } else g } }
  s.arrive e.sup (.n k x)

/-- The check of R296 over the masked slots: stale and clear bits; none when a line is poisoned. -/
def State.versionCheck (s : State) (mask : BitVec 8) : Option Word :=
  let one (k : Nat) : Option (Nat × Nat) :=
    if !mask.getLsbD k then some (0, 0)
    else match (s.core.regs.n.toList).getD k none with
      | none => some (0, 2 ^ k)
      | some (line, v) =>
        let m := s.lineMeta line.toNat
        if m.poison then none else some (if m.version = v then 0 else 2 ^ k, 0)
  let l := (List.range 8).map one
  if l.any Option.isNone then none
  else some (BitVec.ofNat 64 (l.foldl (fun acc x => let p := x.getD (0, 0); acc + p.1 + 256 * p.2) 0))

/-- The value of an 8-byte unit. -/
def State.unitValue (s : State) (p : Place) : Word := BitVec.ofNat 64 (leNat (s.readPlain p.key.toNat p.pa.toNat 8))

/-- The line of a place and its current version. -/
def State.slotOf (s : State) (p : Place) : NSlot :=
  some (BitVec.ofNat 45 (p.pa.toNat / 128), (s.lineMeta (p.pa.toNat / 128)).version)

/-- A store at its home; a poisoned line is reported at the next DRAIN, and a present L1 line is updated, of an aperture's buffer too (R207, R223,
R377). -/
def State.storeAt (s : State) (w : Who) (p : Place) (bs : List Byte) : State :=
  let r := s.physWrite w p.key.toNat p.pa.toNat bs
  let s := r.1.cacheWrites 0 (s.lineWrites p.pa.toNat bs)
  if r.2 then { s with core := { s.core with lostWrites := s.core.lostWrites ++ [p.va] } } else s

/-- A queued operation of the core in focus performs and lands (R124, R152, R221, R295-R298). -/
def State.performOp (s : State) (e : MemEntry) : State :=
  let w : Who := if e.sup then ⟨none, true⟩ else ⟨some s.job, false⟩
  match e.op with
  | .value d v fl => s.result e d v fl
  | .load d p _ sz sxt =>
    match s.loadBytes w p (2 ^ sz.toNat) with
    | (s, .error f) => s.lateReport f.cause p.va e.sup
    | (s, .ok bs) =>
      let n := 8 * 2 ^ sz.toNat
      let x := leNat bs
      s.result e d (if sxt then BitVec.ofInt 64 (if x < 2 ^ (n - 1) then (x : Int) else (x : Int) - 2 ^ n) else BitVec.ofNat 64 x)
  | .store p _ sz data => s.storeAt w p (leBytes (2 ^ sz.toNat) data.toNat)
  | .ldv d p k =>
    let s := s.acquire .package
    if (s.lineMeta (p.pa.toNat / 128)).poison then s.lateReport 0x0A p.va e.sup
    else (s.result e d (s.unitValue p)).resultN e k (s.slotOf p)
  | .valid d mask =>
    match s.versionCheck mask with
    | none => { s.lateReport 0x0A (Config.openWord s.fresh) e.sup with fresh := s.fresh + 1 }
    | some r => s.result e d r
  | .valst d p data mask =>
    match s.versionCheck mask with
    | none => { s.lateReport 0x0A (Config.openWord s.fresh) e.sup with fresh := s.fresh + 1 }
    | some r =>
      let s := if r = 0 then (s.releases toOthers).storeAt w p (leBytes 8 data.toNat) else s
      s.result e d r
  | .casv d p data k =>
    if (s.lineMeta (p.pa.toNat / 128)).poison then s.lateReport 0x0A p.va e.sup
    else
      let old := s.unitValue p
      let slot := (s.core.regs.n)[k.toNat]'(k.isLt)
      if slot = s.slotOf p then (((s.releases toOthers).storeAt w p (leBytes 8 data.toNat)).result e d old).resultN e k none
      else
        let s := s.acquire .package
        (s.result e d old).resultN e k (s.slotOf p)
  | .tdec record pa key =>
    s.onDev fun d => { d with decs := d.decs ++ [{ record := record, pa := pa, key := key, job := s.job, host := false, core := some s.me }] }
  | .semadd n v => { s with core := s.core.semAdd n v }
  | .sqpush a b => s.onCore s.me.comp fun x => { x with requests := x.requests ++ [(a, b)] }

/-- The k-th queued operation leaves the queue; remote adds that waited for it count it (R280). -/
def Core.unqueue (x : Core) (k : Nat) : Core :=
  { x with memq := dropAt x.memq k, adds := x.adds.map fun a => if k < a.after then { a with after := a.after - 1 } else a }

/-- The k-th queued operation of the core in focus performs, if it may. -/
def State.performAt (s : State) (k : Nat) : State :=
  match s.mayPerform k with
  | none => s
  | some e => ({ s with core := s.core.unqueue k } : State).performOp e

/-- The k-th queued operation of a core produces a result. -/
def State.produces (s : State) (c : CoreRef) (k : Nat) : Bool :=
  match (s.getCore c).memq[k]? with
  | some e => !(match e.op with | .store _ _ _ _ | .tdec _ _ _ | .semadd _ _ | .sqpush _ _ => true | _ => false)
  | none => false

/-- VARIABLE_LATENCY_LANDING: the value of the k-th outstanding operation arrives and its register becomes full (R124). -/
def execVariableLatencyLanding (c : CoreRef) (k : Nat) (s : State) : Out State :=
  .next (if s.produces c k then s.within c fun s => s.performAt k else s)

/-- WRITE_PERFORM_AT_HOME: the k-th outstanding operation, one without a result, performs at its home (R221). -/
def execWritePerformAtHome (c : CoreRef) (k : Nat) (s : State) : Out State :=
  .next (if s.produces c k then s else s.within c fun s => s.performAt k)

end Sys2Proof.Machine
end

