-- ==== Sys2Proof/Machine/Bundle.lean ====
section
/-! DEFINITION. Fetching a bundle, the checks on a whole bundle, issuing its slots and ending it (R64-R71, R95, R98-R113, R123,
R324, R370). The meanings are a parameter, so that `step` ties them in. -/

namespace Sys2Proof.Machine

open Sys2Proof

/-! ### Fetch -/

/-- The word at a byte offset of the text that the core fetches from (R64, R66). -/
def State.textWord (s : State) (off : Nat) : Word32 :=
  if s.sup then Sparse.get 0 (if s.comp then s.dev.fwComp else s.dev.fwMain) (off / 4)
  else Sparse.get 0 s.core.text (off / 4)

/-- The offset of the program counter in the text, when it lies in it (R11, R66). -/
def State.textOff (s : State) : Option Nat :=
  let pc := s.core.regs.pc.toNat
  if s.sup then (if pc < 16384 then some pc else none)
  else if s.core.base.toNat ≤ pc ∧ pc + s.unit.toNat ≤ s.core.base.toNat + s.core.textLen then some (pc - s.core.base.toNat)
  else none

/-- The slots of a bundle with their maps, or of a companion core's pair (R67, R95). -/
def State.slotsOf (s : State) : List (Slot × SlotKind) :=
  if s.comp then [(.s, .S), (.x, .X)]
  else [(.s, .S), (.a, .A), (.v0, .V), (.v1, .V), (.m, .M), (.c0, .C), (.c1, .C), (.x, .X)]

/-- A slot's word and what it decodes to. -/
structure SlotWord where
  slot  : Slot
  word  : Word32
  instr : Except Reject Instr

/-- The words of the bundle at an offset. -/
def fetchSlots (s : State) : List (Slot × SlotKind) → Nat → List SlotWord
  | [], _ => []
  | (sl, k) :: t, off => ⟨sl, s.textWord off, decode k (s.textWord off)⟩ :: fetchSlots s t (off + 4)

/-! ### Legal words of a core (R69, R95, R323) -/

/-- The core does not implement the instruction, or its feature is not accepted (R37, R69, R323). -/
def State.illegal (s : State) (i : Instr) : Bool :=
  (if s.comp then !i.companionTakes else i.companionOnly) ||
    (match i.featureBit with
     | some f => !s.feature f
     | none => false)

/-! ### Illegal bundles (R70, R109, R370) -/

/-- A conditional transfer is taken (R100). -/
def State.takes (s : State) (p : BitVec 4) (neg : Bool) : Bool := s.pBit p != neg

/-- The bundle's control transfer is taken. -/
def State.taken (s : State) : Instr → Bool
  | .br p n _ | .call p n _ | .lexit p n _ => s.takes p n
  | .jr _ _ | .jalr _ _ _ | .ret => true
  | _ => false

/-- LEXIT of a bundle, taken. -/
def State.exits (s : State) : Instr → Bool
  | .lexit p n _ => s.takes p n
  | _ => false

/-- The loops that stand after a bundle's own pop (R109). -/
def State.loopsAfter (s : State) (i : Instr) : List Loop :=
  if s.exits i then s.core.regs.loops.dropLast else s.core.regs.loops

/-- The end address of the innermost loop. -/
def innerEnd (l : List Loop) : Option Word := l.getLast?.map Loop.stop

/-- The lowest condition that makes the bundle illegal (R70, R109, R370). `i` is the S word's instruction. -/
def State.badBundle (s : State) (i : Instr) (all : List Instr) : Option Nat :=
  let pc := s.core.regs.pc
  let inner := innerEnd (s.loopsAfter i)
  let conds : List (Nat × Bool) :=
    [(1, !s.comp && collide all),
     (2, i.isTransfer && decide (0 < s.core.regs.shadow)),
     (3, s.taken i && (inner == some (pc + s.unit) || inner == some (pc + 2 * s.unit))),
     (4, !s.comp && twice (all.map Instr.cid)),
     (5, i.isLoop && decide (4 ≤ s.core.regs.loops.length)),
     (6, s.exits i && s.core.regs.loops.isEmpty),
     (7, i.isLoop && s.core.regs.pend.isSome),
     (8, inner == some pc && (i.isLoop || (s.taken i && !s.exits i))),
     (9, all.any (fun j => match j with | .yield _ => true | _ => false)
        && decide (1 < countIf (fun j => j != .nop) all))]
  (conds.find? Prod.snd).map Prod.fst

/-! ### Bank ports (R130) -/

/-- The extra cycles of a bundle: its most-read bank serves two reads a cycle (R130). -/
def State.bankExtra (s : State) (all : List Instr) : Nat :=
  let reads := all.flatMap fun i => i.vReads.map fun k => (physV s.core.regs.vrb k).toNat % 4
  let most := ((List.range 4).map fun b => countIf (· == b) reads).foldl Nat.max 0
  (most + 1) / 2 - 1

/-! ### The end of a bundle -/

/-- The fixed-latency results that are due land (R123, R125). -/
def State.landResults (s : State) : State :=
  let due := s.core.regs.flight.filter (fun f => f.left == 0 && !f.isStore)
  let s := s.onRegs fun r => { r with flight := r.flight.filter (fun f => !(f.left == 0 && !f.isStore)) }
  { s with core := s.core.landAll due }

/-- The write on record that a store in flight is, when it performs. -/
def LocalStore.isOf (t : LocalStore) (what : Land) : Bool :=
  match what with
  | .store sl off data mask _ => t.left == 0 && (t.acc.path == 0) == (sl == .s) && t.acc.slots && t.acc.off == off && t.data == data && t.mask == mask
  | _ => false

/-- A local store performs; the tokens that it pushes are noted with it on record (R126, R277, R278). -/
def Core.landStore (x : Core) (f : InFlight) : Core :=
  let y := x.landFlight f
  let new := y.regs.wakeQ.drop x.regs.wakeQ.length
  if new.isEmpty then y
  else { y with regs := { y.regs with stores := y.regs.stores.map fun t => if t.isOf f.what then { t with woke := t.woke ++ new } else t } }

/-- The local stores that are due perform, in slot order (R126, R277); loads of earlier bundles, and of their own, have read by then (R305). -/
def State.landStores (s : State) : State :=
  let due := s.core.regs.flight.filter (fun f => f.left == 0 && f.isStore)
  let s : State := { s with core := s.core.performing }
  let s := s.onRegs fun r => { r with flight := r.flight.filter (fun f => !(f.left == 0 && f.isStore)) }
  { s with core := due.foldl Core.landStore s.core }

/-- One more bundle has issued: every result in flight is one bundle closer (R123). -/
def State.age (s : State) : State :=
  s.onRegs fun r => Regs.ageLocal { r with flight := r.flight.map fun f => { f with left := f.left - 1 } }

/-- The close of the innermost loop, when the bundle at pc ended it (R98, R107, R112). -/
def Regs.close (r : Regs) (pc next : Word) : Regs × Word :=
  match r.loops.getLast? with
  | none => (r, next)
  | some top =>
    if top.stop ≠ pc then (r, next)
    else
      let count := top.count - 1
      let r := if top.rot then { r with vrb := r.vrb - 1, prb := r.prb - 1 } else r
      if count ≠ 0 then ({ r with loops := r.loops.dropLast ++ [{ top with count := count }] }, top.start)
      else ({ r with loops := r.loops.dropLast }, next)

/-- The next bundle (R98, R105). The two bundles that follow a transfer in sequence are its delay slots (R99): one that a close or a loop goes to is none
(log 30). -/
def Regs.advance (r : Regs) (unit : Word) (c : Control) (transfer : Bool) : Regs :=
  let pc := r.pc
  let r := { r with shadow := if transfer then 2 else r.shadow - 1 }
  let q : Regs × Word :=
    match c with
    | .taken t => ({ r with pend := some ⟨t, 2⟩ }, pc + unit)
    | .loopTo t => (r, t)
    | _ =>
      match r.pend with
      | some p => if p.left ≤ 1 then ({ r with pend := none }, p.target) else ({ r with pend := some ⟨p.target, p.left - 1⟩ }, pc + unit)
      | none => (r, pc + unit)
  let z := q.1.close pc q.2
  { z.1 with pc := z.2, shadow := if z.2 = pc + unit then z.1.shadow else 0 }

/-- The end of an issued bundle: cleared bits, landings, the loop close and the next bundle. -/
def State.finish (s : State) (all : List Instr) : State :=
  let x := s.core.issue
  let transfer := all.any Instr.isTransfer
  let s := s.onRegs fun r => { r with sFull := r.sFull &&& ~~~x.clearS }
  let s := if s.sup then s else { s.count 0x02 1 with core := { (s.count 0x02 1).core with bundles := (s.count 0x02 1).core.bundles + 1 } }
  let extra := s.bankExtra all
  let s := (s.tick (1 + extra)).count 0x05 extra
  let s := s.age.landStores.landResults
  let ck := x.ckpt || s.core.regs.ckptDue
  let s : State := { s.onRegs (fun r => { r with ckptDue := r.ckptDue && x.yields, before := [] }) with
    core := { (s.onRegs fun r => { r with ckptDue := r.ckptDue && x.yields, before := [] }).core with issue := {} } }
  if x.ended then { s.onRegs (fun r => { r with ended := true }) with core := { (s.onRegs fun r => { r with ended := true }).core with
    life := if ck then .checkpoint else .ended } }
    else match x.control with
      | .rett => State.trapReturn { s with core := s.core.landAll s.core.regs.flight }
      | c =>
        let s := s.onRegs fun r => r.advance s.unit c transfer
        if x.yields then { s with core := { s.core with life := .yielding } }
        else if ck then { s with core := { s.core with life := .checkpoint } } else s

/-! ### Issuing a bundle -/

/-- The state in which a slot's word issues. -/
def State.withSlot (s : State) (sl : Slot) (w : Word32) (ckpt : Bool) (pass : Bool := false) : State :=
  { s with core := { s.core with issue := { s.core.issue with slot := sl, word := w, protectOk := ckpt, res := .issued, pass := pass, due := false } } }

/-- How a slot ended. -/
def Out.result : Out State → Issued
  | .next s => s.core.issue.res
  | _ => .issued

/-! ### What a rerun signs (R374) -/

/-- The bytes of a result. -/
def Land.bytes : Land → List Byte
  | .s _ x | .a _ x | .wBase _ x | .g _ x | .sr _ x => leBytes 8 x.toNat
  | .d _ x | .wLen _ x | .yWord _ _ x => leBytes 4 x.toNat
  | .v _ x _ | .rb _ x => leBytes 1024 x.toNat
  | .p _ x _ => leBytes 128 x.toNat
  | .y _ x => leBytes 32 x.toNat
  | .k x => leBytes 64 x.toNat
  | .codebook x => leBytes 1024 x.toNat
  | .store _ _ x m _ => ((List.range 1024).filter fun i => m.getLsbD i).map fun i => x.extractLsb' (8 * i) 8
  | _ => []

/-- The store data of a memory operation. -/
def MemOp.stored : MemOp → List Byte
  | .store _ _ sz x => leBytes (2 ^ sz.toNat) x.toNat
  | _ => []

/-- In a rerun, notes what an instruction wrote: the register results and the store data that it sent on their way, and the descriptor of a
command. -/
def State.logStep (before after : State) : State :=
  match after.core.rerun with
  | none => after
  | some r =>
    let new := (after.core.regs.flight.drop before.core.regs.flight.length).flatMap (fun f => f.what.bytes)
      ++ (after.core.memq.drop before.core.memq.length).flatMap (fun e => e.op.stored)
      ++ (after.core.cmds.drop before.core.cmds.length).flatMap fun c => leBytes 32 c.desc.toNat
    { after with core := { after.core with rerun := some { r with log := Sparse.set [] r.log r.no (Sparse.get [] r.log r.no ++ new), no := r.no + 1 } } }

/-- One slot of a bundle that decodes. -/
structure SlotInstr where
  slot  : Slot
  word  : Word32
  instr : Instr

/-- Runs slots one after the other; a fault or a refusal ends the run. -/
def runSlots (ex : Instr → State → Out State) (ckpt : Bool) : List SlotInstr → State → Out State
  | [], s => .next s
  | x :: t, s =>
    match ex x.instr (s.withSlot x.slot x.word ckpt true) with
    | .next s' => runSlots ex ckpt t (s.logStep s')
    | r => r

/-- The bundle's outcome when it does not issue: the first slot that holds, else an illegal bundle, a privileged word, the
first slot that traps, in this order (R71); none when it issues. DEDUCED (log 11): a trap 0x01 that depends on the value of a register ranks with the
operand checks. -/
def State.blocked (s : State) (outs : List (Out State)) (bad : Option Nat) : Option (Out State) :=
  match outs.find? (fun o => decide (Out.result o = .held)) with
  | some o => some o
  | none =>
    match bad with
    | some n => some (.next ((s.trapEnter 0x02 (BitVec.ofNat 64 n) s.core.regs.pc).mark (.trapped 0x02)))
    | none =>
      match outs.find? (fun o => decide (Out.result o = .trapped 0x03)) with
      | some o => some o
      | none => outs.find? (fun o => decide (Out.result o ≠ .issued))

/-- The bytes that a store in flight will replace, with its debug mark. -/
def Core.replaced (x : Core) (f : InFlight) : List (Nat × Byte × Bool) :=
  match f.what with
  | .store _ off _ mask dbg => ((List.range 1024).filter fun i => mask.getLsbD i).map fun i => (off + i, Sparse.get 0 x.scratch (off + i), dbg)
  | _ => []

/-- While its BAR holds a bundle, the local stores of the bundle before it perform, since the arrival covers them; the bundle's own loads still read what
was there, and to them the stores are pending still (R126, R132, R282). -/
def State.settleHeld (s : State) (all : List Instr) : State :=
  let bar (i : Instr) : Bool := match i with
    | .bar _ => true
    | _ => false
  let next (f : InFlight) : Bool := f.isStore && f.left == 1
  if s.core.issue.res == .held && s.core.issue.slot == .x && all.any bar && s.core.regs.flight.any next then
    let old := (s.core.regs.flight.filter next).flatMap s.core.replaced
    let t := (s.onRegs fun r => { r with
      flight := r.flight.map fun f => if next f then { f with left := 0 } else f
      stores := r.stores.map fun t => if t.left = 1 then { t with left := 0 } else t }).landStores
    t.onRegs fun r => { r with before := r.before ++ old }
  else s

/-- An acquire of the core in focus has still to perform: no later read of memory goes before it (R295, R298, R308). -/
def State.acquiring (s : State) : Bool := s.core.memq.any fun e => e.op.isAcquire && !e.lost

/-- The core in focus holds its bundle for a cycle. -/
def State.holdOn (s : State) : State := (s.tick 1).mark .held

/-- Takes a trap at the bundle, of the issue checks. -/
def State.bundleTrap (s : State) (cause : BitVec 8) (val : Word) : Out State :=
  .next ((s.trapEnter cause val s.core.regs.pc).mark (.trapped cause))

/-- TRAP_VAL of a word (R69). -/
def slotVal (sl : Slot) (w : Word32) : Word := BitVec.ofNat 64 (sl.num * 2 ^ 32) ||| w.setWidth 64

/-- The outcome of a slot's word, where an acquire that is on its way keeps reads of memory waiting (R295, R298, R308). -/
def slotOut (ex : Instr → State → Out State) (s : State) (x : SlotInstr) : Out State :=
  if s.acquiring && x.instr.readsMemory then .next (s.withSlot x.slot x.word false).holdOn else ex x.instr (s.withSlot x.slot x.word false)

/-- The X word of a companion core's pair, whose S word has performed in `s` (R324); `s0` is the state before the pair. A word that holds lets the pair
hold as a whole, unless the S word has queued an access that it may wait for: then that word keeps its place. One that traps stops the pair
before it issues (R355); what its DRAIN has reported stays reported. -/
def issueX (ex : Instr → State → Out State) (s0 s : State) (a b : SlotInstr) : Out State :=
  let queued := s.core.issue.xLeft || s.core.memq.length != s0.core.memq.length
  let keep (t : State) : Out State :=
    if queued then .next { t with core := { t.core with issue := { t.core.issue with xLeft := true, res := .held } } }
    else
      let x := t.core
      .next { s0 with core := { s0.core with
        ev := x.ev, cycles := x.cycles, quantum := x.quantum, walks := x.walks, issue := { s0.core.issue with slot := b.slot, word := b.word, res := .held } } }
  match slotOut ex s b with
    | .next t =>
      match t.core.issue.res with
      | .issued => .next (t.finish [a.instr, b.instr])
      | .held => keep t
      | .trapped c =>
        if t.core.task.isNone || s.core.issue.xLeft then .next t
        else match s0.bundleTrap c t.core.regs.trapVal with
          | .next u =>
            .next { u with core := { u.core with lostWrites := t.core.lostWrites, lostAdds := t.core.lostAdds, lostTokens := t.core.lostTokens } }
          | r => r
    | r => r

/-- Issues a companion core's pair: the S word performs first and the X word reads its result (R324). A word that holds, holds the pair before any check
of it; then come an illegal pair, a privileged word, and the S word's trap before the X word's (R71). -/
def issuePair (ex : Instr → State → Out State) (s : State) (l : List SlotInstr) : Out State :=
  match l with
  | [a, b] =>
    if s.core.issue.xLeft then issueX ex s s a b
    else match slotOut ex s a with
      | .next t =>
        let ra : Issued := t.core.issue.res
        let rest : Out State := if ra = .issued then issueX ex s t a b else .next t
        if ra = .held then .next t
        else
          let x := slotOut ex (if ra = .issued then t else s) b
          let goes := ra = .issued ∧ t.core.memq.length ≠ s.core.memq.length
          if Out.result x = .held ∧ ¬goes then (if ra = .issued then rest else x)
          else match s.badBundle a.instr [a.instr, b.instr] with
            | some n => .next ((s.trapEnter 0x02 (BitVec.ofNat 64 n) s.core.regs.pc).mark (.trapped 0x02))
            | none => if ra = .trapped 0x03 ∨ ra = .issued ∨ Out.result x ≠ .trapped 0x03 then rest else x
      | r => r
  | _ => .next s

/-- Under protection a checkpoint bundle freezes its core (R372); a rerun counts its bundles (R374). -/
def State.closeBundle (s : State) (ck : Bool) : State :=
  { s with core := { s.core with
    issue := { s.core.issue with ckpt := s.core.issue.ckpt || ck }
    rerun := s.core.rerun.map fun r => { r with cnt := r.cnt + 1 } } }

/-- The local accesses of a bundle come after the FENCE in it (R305, R307). -/
def State.fencedBy (s : State) (all : List Instr) : State :=
  all.foldl (fun s i => match i with | .fence src dst sc => s.fenceLocal (src &&& scopePaths sc) (dst &&& scopePaths sc) | _ => s) s

/-- The instructions of the bundle at the program counter that decode. -/
def State.bundleInstrs (s : State) : List Instr :=
  match s.textOff with
  | none => []
  | some off => (fetchSlots s s.slotsOf off).filterMap fun w =>
    match w.instr with
    | .ok i => some i
    | .error _ => none

/-- Issues the bundle at the program counter (R71, R355). -/
def issueBundle (ex : Instr → State → Out State) (s : State) : Out State :=
  match s.textOff with
  | none => s.bundleTrap 0x09 s.core.regs.pc
  | some off =>
    let ws := fetchSlots s s.slotsOf off
    let bad := ws.find? fun w =>
      match w.instr with
      | .error _ => true
      | .ok i => s.illegal i
    let l : List SlotInstr := ws.filterMap fun w =>
      match w.instr with
      | .ok i => if s.illegal i then none else some ⟨w.slot, w.word, i⟩
      | .error _ => none
    let all := l.map SlotInstr.instr
    let ck := all.any Instr.checkpoints
    let outs := l.map fun x => ex x.instr (s.withSlot x.slot x.word ck)
    if !s.comp && s.acquiring && all.any Instr.readsMemory then .next s.holdOn
    else match bad with
    | some w =>
      match outs.find? (fun o => decide (Out.result o = .held)) with
      | some o => o
      | none => s.bundleTrap 0x01 (slotVal w.slot w.word)
    | none =>
      if s.comp then issuePair ex s l
      else match s.blocked outs (s.badBundle (all.headD .nop) all) with
        | some (.next s') => .next (s'.settleHeld all)
        | some o => o
        | none =>
          match runSlots ex ck l (s.fencedBy all) with
          | .next s' => .next ((s'.closeBundle (ck && s.prot)).finish all)
          | r => r

end Sys2Proof.Machine
end

