-- ==== Sys2Proof/Machine/Control.lean ====
section
/-! DEFINITION. Control transfers, hardware loops, rotation and END (R98-R115, R325). -/

namespace Sys2Proof.Machine

open Sys2Proof

/-- What the bundle does to control. -/
def State.setControl (s : State) (c : Control) : State :=
  { s with core := { s.core with issue := { s.core.issue with control := c } } }

/-- The target of a displacement (R101, R325). -/
def State.target (s : State) (disp : BitVec 20) : Word := s.core.regs.pc + s.unit * sx 20 disp

/-- The link of a call or a jump: past both delay slots (R101, R102, R325). -/
def State.link (s : State) : Word := s.core.regs.pc + 3 * s.unit

/-- BR (R100, R101). -/
def execBr (p : BitVec 4) (neg : Bool) (disp : BitVec 20) (s : State) : Out State :=
  s.issueWith .go fun s => if s.takes p neg then s.setControl (.taken (s.target disp)) else s

/-- CALL: S31 is written only when it is taken (R101). -/
def execCall (p : BitVec 4) (neg : Bool) (disp : BitVec 20) (s : State) : Out State :=
  s.issueWith (if s.takes p neg then s.destS 31 else .go) fun s =>
    if s.takes p neg then (s.setControl (.taken (s.target disp))).send 1 (.s 31 s.link) else s

/-- LEXIT pops the innermost loop at issue when it is taken (R101). -/
def execLexit (p : BitVec 4) (neg : Bool) (disp : BitVec 20) (s : State) : Out State :=
  s.issueWith (ensure (!(s.takes p neg && s.core.regs.loops.isEmpty)) 0x02 6) fun s =>
    if s.takes p neg then (s.setControl (.taken (s.target disp))).onRegs fun r => { r with loops := r.loops.dropLast } else s

/-- A jump target is aligned to a bundle, or to a pair (R103, R325). -/
def State.jumpCheck (s : State) (t : Word) : Verdict := ensure (t.toNat % s.unit.toNat == 0) 0x07 t

/-- JR (R102, R103). -/
def execJr (a : BitVec 5) (ta : Bool) (s : State) : Out State :=
  s.issueWith ((s.needS a ta).and (s.jumpCheck (s.s a))) fun s => s.setControl (.taken (s.s a))

/-- JALR (R102, R103). -/
def execJalr (d a : BitVec 5) (ta : Bool) (s : State) : Out State :=
  s.issueWith (.all [s.needS a ta, s.destS d, s.jumpCheck (s.s a)]) fun s =>
    (s.setControl (.taken (s.s a))).send 1 (.s d s.link)

/-- RET (R102, R103). -/
def execRet (s : State) : Out State :=
  s.issueWith ((s.needS 31 false).and (s.jumpCheck (s.s 31))) fun s => s.setControl (.taken (s.s 31))

/-- A loop starts with a count; a count of 0 skips its body (R105). -/
def State.startLoop (s : State) (rot : Bool) (len : BitVec 10) (c : Word) : State :=
  let start := s.core.regs.pc + s.unit
  let stop := s.core.regs.pc + s.unit * zx 10 len
  if c = 0 then s.setControl (.loopTo (stop + s.unit))
  else (s.setControl (.loopTo start)).onRegs fun r => { r with loops := r.loops ++ [⟨start, stop, c, rot⟩] }

/-- The loop stack has room (R109, condition 5). -/
def State.loopRoom (s : State) : Verdict := ensure (decide (s.core.regs.loops.length < 4)) 0x02 5

/-- LOOP (R105). -/
def execLoop (rot : Bool) (len : BitVec 10) (t : Bool) (n : BitVec 5) (s : State) : Out State :=
  s.issueWith (s.loopRoom.and (s.needS n t)) fun s => s.startLoop rot len (s.s n)

/-- LOOPI (R105). -/
def execLoopi (rot : Bool) (len : BitVec 10) (n : BitVec 12) (s : State) : Out State :=
  s.issueWith s.loopRoom fun s => s.startLoop rot len (zx 12 n)

/-- LOOPQ pops the head of the count queue and stalls while it is empty (R106). -/
def execLoopq (rot : Bool) (len : BitVec 10) (s : State) : Out State :=
  s.issueWith (s.loopRoom.and (waitFor (!s.core.regs.countQ.isEmpty) 0x08)) fun s =>
    let c := s.core.regs.countQ.headD 0
    (s.onRegs fun r => { r with countQ := r.countQ.tail }).startLoop rot len (zx 32 c)

/-- SETVRB (R113). -/
def execSetvrb (n : BitVec 5) (s : State) : Out State := s.issueWith s.needMain fun s => s.send 1 (.sr 0x020 (zx 5 n))

/-- SETPRB (R113). -/
def execSetprb (n : BitVec 3) (s : State) : Out State := s.issueWith s.needMain fun s => s.send 1 (.sr 0x021 (zx 3 n))

/-- CLRRB (R113). -/
def execClrrb (s : State) : Out State :=
  s.issueWith s.needMain fun s => (s.send 1 (.sr 0x020 0)).send 1 (.sr 0x021 0)

/-- END: its bundle issues in full and no later one issues (R115). -/
def execEndTask (s : State) : Out State :=
  s.issueWith .go fun s => { s with core := { s.core with issue := { s.core.issue with ended := true } } }

end Sys2Proof.Machine
end

