-- ==== Sys2Proof/Machine/Float.lean ====
section
/-! DEFINITION. Floating-point values, one exact computation and one rounding (R145-R149, R162-R170). Bit patterns are natural
numbers here; flags are the five FPSTAT bits NV DZ OF UF NX. -/

namespace Sys2Proof.Machine

open Sys2Proof

/-- A floating-point format: exponent bits, mantissa bits, bias, and whether it is E4M3 (R162). -/
structure FloatFmt where
  eb   : Nat
  mb   : Nat
  bias : Nat
  e4m3 : Bool := false
  deriving DecidableEq, Repr

def fE4M3 : FloatFmt := ⟨4, 3, 7, true⟩
def fE5M2 : FloatFmt := ⟨5, 2, 15, false⟩
def fFP16 : FloatFmt := ⟨5, 10, 15, false⟩
def fBF16 : FloatFmt := ⟨8, 7, 127, false⟩
def fFP32 : FloatFmt := ⟨8, 23, 127, false⟩
def fFP64 : FloatFmt := ⟨11, 52, 1023, false⟩

/-- Bits of a pattern. -/
def FloatFmt.width (f : FloatFmt) : Nat := 1 + f.eb + f.mb

/-- A value (R163): a NaN with sign, quiet bit and payload, an infinity, or (−1)^s · m · 2^e. -/
inductive FVal where
  | nan (s q : Bool) (payload : Nat)
  | inf (s : Bool)
  | fin (s : Bool) (m : Nat) (e : Int)
  deriving DecidableEq, Repr

/-- The value of a pattern (R163, R166). -/
def FloatFmt.value (f : FloatFmt) (x : Nat) : FVal :=
  let s := decide ((x >>> (f.eb + f.mb)) % 2 = 1)
  let e := (x >>> f.mb) % 2 ^ f.eb
  let m := x % 2 ^ f.mb
  if f.e4m3 ∧ e = 15 ∧ m = 7 then .nan s true 0
  else if ¬ f.e4m3 ∧ e = 2 ^ f.eb - 1 then
    (if m = 0 then .inf s else .nan s (decide (m / 2 ^ (f.mb - 1) = 1)) (m % 2 ^ (f.mb - 1)))
  else if e = 0 then .fin s m (1 - (f.bias : Int) - f.mb)
  else .fin s (2 ^ f.mb + m) ((e : Int) - f.bias - f.mb)

/-- The sign bit of a pattern. -/
def FloatFmt.sign (f : FloatFmt) (s : Bool) : Nat := if s then 2 ^ (f.eb + f.mb) else 0

/-- Infinity; E4M3 has none and gives its NaN (R162, R168). -/
def FloatFmt.infBits (f : FloatFmt) (s : Bool) : Nat :=
  f.sign s + (if f.e4m3 then 0x7F else (2 ^ f.eb - 1) * 2 ^ f.mb)

/-- The largest finite value (R162). -/
def FloatFmt.maxBits (f : FloatFmt) (s : Bool) : Nat :=
  f.sign s + (if f.e4m3 then 0x7E else (2 ^ f.eb - 1) * 2 ^ f.mb - 1)

/-- The canonical NaN (R162). -/
def FloatFmt.cnan (f : FloatFmt) : Nat := if f.e4m3 then 0x7F else (2 ^ f.eb - 1) * 2 ^ f.mb + 2 ^ (f.mb - 1)

/-- A quiet NaN with a sign and a payload of the format's own width (R166). -/
def FloatFmt.nanBits (f : FloatFmt) (s : Bool) (payload : Nat) : Nat :=
  f.sign s + f.cnan + (if f.e4m3 then 0 else payload)

/-- A NaN carried to another format keeps its sign and its high payload bits (R166). -/
def nanConvert (src dst : FloatFmt) (s : Bool) (payload : Nat) : Nat :=
  let a := src.mb - 1
  let b := dst.mb - 1
  dst.nanBits s (if src.e4m3 ∨ dst.e4m3 then 0 else if a ≤ b then payload * 2 ^ (b - a) else payload / 2 ^ (a - b))

/-- A signalling NaN. -/
def FVal.isSnan : FVal → Bool
  | .nan _ q _ => !q
  | _ => false

def FVal.isNan : FVal → Bool
  | .nan _ _ _ => true
  | _ => false

def FVal.isInf : FVal → Bool
  | .inf _ => true
  | _ => false

def FVal.isZero : FVal → Bool
  | .fin _ m _ => m == 0
  | _ => false

def FVal.neg? : FVal → Bool
  | .nan s _ _ => s
  | .inf s => s
  | .fin s _ _ => s

/-- Rounds t + r / 2^k up under a mode; neg is the sign, odd says whether t is odd (R167). -/
def roundUp (mode : Rnd) (neg odd : Bool) (r k rnd : Nat) : Bool :=
  match mode with
  | .rne => decide (2 ^ k < 2 * r) || (decide (2 * r = 2 ^ k) && odd)
  | .rtz => false
  | .rdn => decide (0 < r) && neg
  | .rup => decide (0 < r) && !neg
  | .rna => decide (2 ^ k ≤ 2 * r) && decide (0 < r)
  | .sr => decide (2 ^ 16 ≤ r * 2 ^ 16 / 2 ^ k + rnd)

/-- m · 2^e in units of 2^q, truncated, with the part left over and its width. -/
def scaleTo (m : Nat) (e q : Int) : Nat × Nat × Nat :=
  if q ≤ e then (m * 2 ^ (e - q).toNat, 0, 0)
  else
    let k := (q - e).toNat
    (m / 2 ^ k, m % 2 ^ k, k)

/-- What overflow gives (R168). -/
def FloatFmt.overflow (f : FloatFmt) (mode : Rnd) (sat s : Bool) : Nat :=
  if sat then f.maxBits s
  else match mode with
    | .rtz => f.maxBits s
    | .rdn => if s then f.infBits s else f.maxBits s
    | .rup => if s then f.maxBits s else f.infBits s
    | _ => f.infBits s

/-- One rounding of (−1)^s · m · 2^e into a format (R145, R167, R168). -/
def FloatFmt.round (f : FloatFmt) (mode : Rnd) (sat : Bool) (rnd : Nat) (s : Bool) (m : Nat) (e : Int) : Nat × Flags :=
  if m = 0 then (f.sign s, 0)
  else
    let top : Int := (Nat.log2 m : Int) + e
    let qmin : Int := 1 - (f.bias : Int) - f.mb
    let q := max (top - f.mb) qmin
    let p := scaleTo m e q
    let up := roundUp mode s (p.1 % 2 == 1) p.2.1 p.2.2 rnd
    let t := p.1 + (if up then 1 else 0)
    let inexact := p.2.1 != 0
    let (t, q) := if 2 ^ (f.mb + 1) ≤ t then (t / 2, q + 1) else (t, q)
    let ef : Int := if t < 2 ^ f.mb then 0 else q + f.bias + f.mb
    let mf := t % 2 ^ f.mb
    let lim : Int := if f.e4m3 then 15 else (2 ^ f.eb : Int) - 2
    if lim < ef ∨ (f.e4m3 ∧ ef = 15 ∧ mf = 7) then (f.overflow mode sat s, flOF ||| flNX)
    else
      let tiny : Bool :=
        decide (top < 1 - (f.bias : Int)) &&
          (let p2 := scaleTo m e (top - f.mb)
           let t2 := p2.1 + (if roundUp mode s (p2.1 % 2 == 1) p2.2.1 p2.2.2 rnd then 1 else 0)
           !(decide (top + 1 = 1 - (f.bias : Int)) && decide (2 ^ (f.mb + 1) ≤ t2)))
      (f.sign s + ef.toNat * 2 ^ f.mb + mf, (if inexact then flNX else 0) ||| (if tiny && inexact then flUF else 0))

/-- Rounded to nearest even (R145). -/
def FloatFmt.rne (f : FloatFmt) (s : Bool) (m : Nat) (e : Int) : Nat × Flags := f.round .rne false 0 s m e

/-- The first NaN operand, quieted; NV for a signalling NaN among the operands (R145, R146). -/
def FloatFmt.nanOf (f : FloatFmt) (vs : List FVal) : Option (Nat × Flags) :=
  match vs.find? FVal.isNan with
  | some (.nan s _ p) => some (f.nanBits s p, if vs.any FVal.isSnan then flNV else 0)
  | _ => none

/-- The exact sum of two finite values: sign, magnitude, exponent; a zero sum has the sign nearest rounding gives it. -/
def finAdd (s1 : Bool) (m1 : Nat) (e1 : Int) (s2 : Bool) (m2 : Nat) (e2 : Int) : Bool × Nat × Int :=
  let e := min e1 e2
  let a : Int := (m1 * 2 ^ (e1 - e).toNat : Nat)
  let b : Int := (m2 * 2 ^ (e2 - e).toNat : Nat)
  let t : Int := (if s1 then -a else a) + (if s2 then -b else b)
  if t = 0 then (s1 && s2, 0, e) else (decide (t < 0), t.natAbs, e)

/-- a + b (R146). -/
def FloatFmt.add (f : FloatFmt) (x y : Nat) : Nat × Flags :=
  let a := f.value x
  let b := f.value y
  match f.nanOf [a, b] with
  | some r => r
  | none =>
    match a, b with
    | .inf s, .inf t => if s = t then (f.infBits s, 0) else (f.cnan, flNV)
    | .inf s, _ => (f.infBits s, 0)
    | _, .inf t => (f.infBits t, 0)
    | .fin s1 m1 e1, .fin s2 m2 e2 => let r := finAdd s1 m1 e1 s2 m2 e2; f.rne r.1 r.2.1 r.2.2
    | _, _ => (f.cnan, 0)

/-- The pattern with its sign bit inverted. -/
def FloatFmt.flipSign (f : FloatFmt) (x : Nat) : Nat := x ^^^ 2 ^ (f.eb + f.mb)

/-- a − b: NaNs are those of a and b (R146). -/
def FloatFmt.sub (f : FloatFmt) (x y : Nat) : Nat × Flags :=
  if (f.value y).isNan then f.add x y else f.add x (f.flipSign y)

/-- a × b (R146). -/
def FloatFmt.mul (f : FloatFmt) (x y : Nat) : Nat × Flags :=
  let a := f.value x
  let b := f.value y
  match f.nanOf [a, b] with
  | some r => r
  | none =>
    let s := a.neg? != b.neg?
    if (a.isInf && b.isZero) || (a.isZero && b.isInf) then (f.cnan, flNV)
    else match a, b with
      | .fin _ m1 e1, .fin _ m2 e2 => f.rne s (m1 * m2) (e1 + e2)
      | _, _ => (f.infBits s, 0)

/-- c + a × b with one rounding; the first NaN in the order c, a, b, and inf × 0 is invalid with any addend (R179, R180). -/
def FloatFmt.fma (f : FloatFmt) (negProd : Bool) (x y z : Nat) : Nat × Flags :=
  let a := f.value x
  let b := f.value y
  let c := f.value z
  let s := (a.neg? != b.neg?) != negProd
  match f.nanOf [c, a, b] with
  | some r => (r.1, r.2 ||| (if (a.isInf && b.isZero) || (a.isZero && b.isInf) then flNV else 0))
  | none =>
    if (a.isInf && b.isZero) || (a.isZero && b.isInf) then (f.cnan, flNV)
    else if a.isInf || b.isInf then
      match c with
      | .inf t => if s = t then (f.infBits s, 0) else (f.cnan, flNV)
      | _ => (f.infBits s, 0)
    else match a, b, c with
      | _, _, .inf t => (f.infBits t, 0)
      | .fin _ m1 e1, .fin _ m2 e2, .fin s3 m3 e3 =>
        let r := finAdd s (m1 * m2) (e1 + e2) s3 m3 e3
        f.rne r.1 r.2.1 r.2.2
      | _, _, _ => (f.cnan, 0)

/-- A value times a block scale K, exact and rounded once into a format; a NaN gives the canonical NaN (R171). -/
def blockScale (dst : FloatFmt) (a : FVal) (k : Word32) : Nat × Flags :=
  let b := fFP32.value k.toNat
  let s := a.neg? != b.neg?
  if a.isNan || b.isNan then (dst.cnan, if a.isSnan || b.isSnan then flNV else 0)
  else if (a.isInf && b.isZero) || (a.isZero && b.isInf) then (dst.cnan, flNV)
  else match a, b with
    | .fin _ m1 e1, .fin _ m2 e2 => dst.rne s (m1 * m2) (e1 + e2)
    | _, _ => (dst.infBits s, 0)

/-- a / b (R146): the quotient to more bits than any format has, with the rest as a last bit. -/
def FloatFmt.div (f : FloatFmt) (x y : Nat) : Nat × Flags :=
  let a := f.value x
  let b := f.value y
  match f.nanOf [a, b] with
  | some r => r
  | none =>
    let s := a.neg? != b.neg?
    match a, b with
    | .inf _, .inf _ => (f.cnan, flNV)
    | .inf _, _ => (f.infBits s, 0)
    | _, .inf _ => (f.sign s, 0)
    | .fin _ m1 e1, .fin _ m2 e2 =>
      if m2 = 0 then (if m1 = 0 then (f.cnan, flNV) else (f.infBits s, flDZ))
      else
        let n := m1 * 2 ^ 120
        f.rne s (2 * (n / m2) + (if n % m2 = 0 then 0 else 1)) (e1 - e2 - 121)
    | _, _ => (f.cnan, 0)

/-- The integer square root of x, over bits from n − 1 down. -/
def isqrtAux (x : Nat) : Nat → Nat → Nat
  | 0, r => r
  | n + 1, r => isqrtAux x n (if (r + 2 ^ n) * (r + 2 ^ n) ≤ x then r + 2 ^ n else r)

/-- The integer square root. -/
def isqrt (x : Nat) : Nat := isqrtAux x (Nat.log2 x / 2 + 1) 0

/-- √a (R146). -/
def FloatFmt.sqrt (f : FloatFmt) (x : Nat) : Nat × Flags :=
  let a := f.value x
  match f.nanOf [a] with
  | some r => r
  | none =>
    match a with
    | .inf s => if s then (f.cnan, flNV) else (f.infBits false, 0)
    | .fin s m e =>
      if m = 0 then (f.sign s, 0)
      else if s then (f.cnan, flNV)
      else
        let (m, e) := if e % 2 = 0 then (m, e) else (2 * m, e - 1)
        let n := m * 2 ^ 120
        let r := isqrt n
        f.rne false (2 * r + (if r * r = n then 0 else 1)) (e / 2 - 61)
    | _ => (f.cnan, 0)

/-- The order of two numbers, −0 and +0 equal (R148): less, equal. -/
def finLess (a b : FVal) : Bool × Bool :=
  match a, b with
  | .inf s, .inf t => (s && !t, s == t)
  | .inf s, _ => (s, false)
  | _, .inf t => (!t, false)
  | .fin s1 m1 e1, .fin s2 m2 e2 =>
    let r := finAdd s1 m1 e1 (!s2) m2 e2
    (r.1 && r.2.1 != 0, r.2.1 == 0)
  | _, _ => (false, false)

/-- Minimum and maximum (R147): −0 lies below +0; `num` prefers a number to a NaN. -/
def FloatFmt.minmax (f : FloatFmt) (max num : Bool) (x y : Nat) : Nat × Flags :=
  let a := f.value x
  let b := f.value y
  let fl := if a.isSnan || b.isSnan then flNV else 0
  if a.isNan || b.isNan then
    if num && !(a.isNan && b.isNan) then (if a.isNan then y else x, fl)
    else match f.nanOf [a, b] with
      | some r => (r.1, fl)
      | none => (x, fl)
  else
    let c := finLess a b
    let less := c.1 || (c.2 && a.neg? && !b.neg?)
    (if less == max then y else x, fl)

/-- A comparison (R148): its truth and NV. -/
def FloatFmt.compare (f : FloatFmt) (cc : FCond) (x y : Nat) : Bool × Flags :=
  let a := f.value x
  let b := f.value y
  let un := a.isNan || b.isNan
  let snan := a.isSnan || b.isSnan
  let c := finLess a b
  match cc with
  | .eq => (!un && c.2, if snan then flNV else 0)
  | .ne => (un || !c.2, if snan then flNV else 0)
  | .un => (un, if snan then flNV else 0)
  | .lt => (!un && c.1, if un then flNV else 0)
  | .le => (!un && (c.1 || c.2), if un then flNV else 0)

/-- A float in another float format (R149, R166-R168). -/
def floatToFloat (src dst : FloatFmt) (mode : Rnd) (sat : Bool) (rnd x : Nat) : Nat × Flags :=
  match src.value x with
  | .nan s q p => (nanConvert src dst s p, if q then 0 else flNV)
  | .inf s => if dst.e4m3 then (if sat then (dst.maxBits s, 0) else (dst.infBits s, flNV)) else (dst.infBits s, 0)
  | .fin s m e => dst.round mode sat rnd s m e

/-- An integer in a float format (R149, R169). -/
def intToFloat (dst : FloatFmt) (mode : Rnd) (sat : Bool) (rnd : Nat) (v : Int) : Nat × Flags :=
  dst.round mode sat rnd (decide (v < 0)) v.natAbs 0

/-- The nearest end of an integer range (R169). -/
def clampInt (lo hi v : Int) : Int := if v < lo then lo else if hi < v then hi else v

/-- A float rounded to an integer of a range (R149, R169). -/
def floatToInt (src : FloatFmt) (mode : Rnd) (rnd : Nat) (lo hi : Int) (x : Nat) : Int × Flags :=
  match src.value x with
  | .nan _ _ _ => (0, flNV)
  | .inf s => (if s then lo else hi, flNV)
  | .fin s m e =>
    let p := scaleTo m e 0
    let t := p.1 + (if roundUp mode s (p.1 % 2 == 1) p.2.1 p.2.2 rnd then 1 else 0)
    let v : Int := if s then -(t : Int) else t
    if v < lo ∨ hi < v then (clampInt lo hi v, flNV) else (v, if p.2.1 = 0 then 0 else flNX)

/-- The key of the total order on n-bit patterns (R170). -/
def totalKey (n x : Nat) : Nat := if x / 2 ^ (n - 1) % 2 = 1 then 2 ^ n - 1 - x else x + 2 ^ (n - 1)

/-- The low n bits of an integer in two's complement (R161). -/
def intBits (n : Nat) (v : Int) : Nat := (v % (2 ^ n : Int)).toNat

/-- The signed value of n bits (R161). -/
def sintOf (n x : Nat) : Int := if x % 2 ^ n < 2 ^ (n - 1) then (x % 2 ^ n : Nat) else ((x % 2 ^ n : Nat) : Int) - 2 ^ n

end Sys2Proof.Machine
end

