-- ==== Sys2Proof/Machine/Scalar.lean ====
section
/-! DEFINITION. Scalar integer instructions, predicates from scalars, and the address unit (R133-R144, R156-R159). -/

namespace Sys2Proof.Machine

open Sys2Proof

/-- An S result of two S sources (R133, R134). -/
def State.alu2 (s : State) (d a b : BitVec 5) (ta tb : Bool) (lat : Nat) (f : Word → Word → Word) : Out State :=
  s.issueWith (.all [s.needS a ta, s.needS b tb, s.destS d]) fun s => s.send lat (.s d (f (s.s a) (s.s b)))

/-- An S result of one S source (R136, R137). -/
def State.alu1 (s : State) (d a : BitVec 5) (ta : Bool) (f : Word → Word) : Out State :=
  s.issueWith (.all [s.needS a ta, s.destS d]) fun s => s.send 1 (.s d (f (s.s a)))

/-- ADD (R134). -/
def execAdd (d a b : BitVec 5) (ta tb : Bool) (s : State) : Out State :=
  s.alu2 d a b ta tb 1 fun a b => a + b

/-- SUB (R134). -/
def execSub (d a b : BitVec 5) (ta tb : Bool) (s : State) : Out State :=
  s.alu2 d a b ta tb 1 fun a b => a - b

/-- AND (R134). -/
def execAnd (d a b : BitVec 5) (ta tb : Bool) (s : State) : Out State :=
  s.alu2 d a b ta tb 1 fun a b => a &&& b

/-- OR (R134). -/
def execOr (d a b : BitVec 5) (ta tb : Bool) (s : State) : Out State :=
  s.alu2 d a b ta tb 1 fun a b => a ||| b

/-- XOR (R134). -/
def execXor (d a b : BitVec 5) (ta tb : Bool) (s : State) : Out State :=
  s.alu2 d a b ta tb 1 fun a b => a ^^^ b

/-- ANDN (R134). -/
def execAndn (d a b : BitVec 5) (ta tb : Bool) (s : State) : Out State :=
  s.alu2 d a b ta tb 1 fun a b => a &&& ~~~b

/-- SHL (R134). -/
def execShl (d a b : BitVec 5) (ta tb : Bool) (s : State) : Out State :=
  s.alu2 d a b ta tb 1 fun a b => a <<< bits b 0 6

/-- SHR (R134). -/
def execShr (d a b : BitVec 5) (ta tb : Bool) (s : State) : Out State :=
  s.alu2 d a b ta tb 1 fun a b => a >>> bits b 0 6

/-- SRA (R134). -/
def execSra (d a b : BitVec 5) (ta tb : Bool) (s : State) : Out State :=
  s.alu2 d a b ta tb 1 fun a b => a.sshiftRight (bits b 0 6)

/-- ROL (R134). -/
def execRol (d a b : BitVec 5) (ta tb : Bool) (s : State) : Out State :=
  s.alu2 d a b ta tb 1 fun a b => a.rotateLeft (bits b 0 6)

/-- MIN (R134). -/
def execMin (d a b : BitVec 5) (ta tb : Bool) (s : State) : Out State :=
  s.alu2 d a b ta tb 1 fun a b => if a.toInt < b.toInt then a else b

/-- MAX (R134). -/
def execMax (d a b : BitVec 5) (ta tb : Bool) (s : State) : Out State :=
  s.alu2 d a b ta tb 1 fun a b => if a.toInt < b.toInt then b else a

/-- MINU (R134). -/
def execMinu (d a b : BitVec 5) (ta tb : Bool) (s : State) : Out State :=
  s.alu2 d a b ta tb 1 fun a b => if a.toNat < b.toNat then a else b

/-- MAXU (R134). -/
def execMaxu (d a b : BitVec 5) (ta tb : Bool) (s : State) : Out State :=
  s.alu2 d a b ta tb 1 fun a b => if a.toNat < b.toNat then b else a

/-- MUL (R134). -/
def execMul (d a b : BitVec 5) (ta tb : Bool) (s : State) : Out State :=
  s.alu2 d a b ta tb 3 fun a b => a * b

/-- MULH (R134). -/
def execMulh (d a b : BitVec 5) (ta tb : Bool) (s : State) : Out State :=
  s.alu2 d a b ta tb 3 fun a b => BitVec.ofInt 64 (a.toInt * b.toInt / 2 ^ 64)

/-- MULHU (R134). -/
def execMulhu (d a b : BitVec 5) (ta tb : Bool) (s : State) : Out State :=
  s.alu2 d a b ta tb 3 fun a b => BitVec.ofNat 64 (a.toNat * b.toNat / 2 ^ 64)

/-- Division: by zero it traps under DIVZT, else its result comes with a variable latency (R134, R135). -/
def State.divide (s : State) (d a b : BitVec 5) (ta tb : Bool) (fn : Word) (f : Word → Word → Word) : Out State :=
  s.issueWith (.all [s.needS a ta, s.needS b tb, s.destS d,
      ensure (!(s.core.regs.status.getLsbD 3 && s.s b == 0)) 0x0B fn]) fun s => s.produce d (f (s.s a) (s.s b))

/-- DIV (R134, R135). -/
def execDiv (d a b : BitVec 5) (ta tb : Bool) (s : State) : Out State :=
  s.divide d a b ta tb 0x11 fun a b => if b = 0 then BitVec.allOnes 64 else a.sdiv b

/-- DIVU (R134, R135). -/
def execDivu (d a b : BitVec 5) (ta tb : Bool) (s : State) : Out State :=
  s.divide d a b ta tb 0x12 fun a b => if b = 0 then BitVec.allOnes 64 else a / b

/-- REM (R134, R135). -/
def execRem (d a b : BitVec 5) (ta tb : Bool) (s : State) : Out State :=
  s.divide d a b ta tb 0x13 fun a b => if b = 0 then a else a.srem b

/-- REMU (R134, R135). -/
def execRemu (d a b : BitVec 5) (ta tb : Bool) (s : State) : Out State :=
  s.divide d a b ta tb 0x14 fun a b => if b = 0 then a else a % b

/-- Leading zero bits of a value of n bits, from bit n − 1 down (R136, R191). -/
def leadingZeros (x : Nat) : Nat → Nat
  | 0 => 0
  | n + 1 => if x.testBit n then 0 else 1 + leadingZeros x n

/-- Trailing zero bits of a value, n bits looked at from bit i up (R136). -/
def trailingZeros (x : Nat) : Nat → Nat → Nat
  | 0, _ => 0
  | n + 1, i => if x.testBit i then 0 else 1 + trailingZeros x n (i + 1)

/-- One bits among the low n (R136). -/
def onesOf (x : Nat) : Nat → Nat
  | 0 => 0
  | n + 1 => (if x.testBit n then 1 else 0) + onesOf x n

/-- CLZ (R136). -/
def execClz (d a : BitVec 5) (ta : Bool) (s : State) : Out State := s.alu1 d a ta fun a => BitVec.ofNat 64 (leadingZeros a.toNat 64)

/-- CTZ (R136). -/
def execCtz (d a : BitVec 5) (ta : Bool) (s : State) : Out State := s.alu1 d a ta fun a => BitVec.ofNat 64 (trailingZeros a.toNat 64 0)

/-- POPC (R136). -/
def execPopc (d a : BitVec 5) (ta : Bool) (s : State) : Out State := s.alu1 d a ta fun a => BitVec.ofNat 64 (onesOf a.toNat 64)

/-- BREV (R136). -/
def execBrev (d a : BitVec 5) (ta : Bool) (s : State) : Out State := s.alu1 d a ta fun a => a.reverse

/-- SEXTB (R136). -/
def execSextb (d a : BitVec 5) (ta : Bool) (s : State) : Out State := s.alu1 d a ta fun a => sx 8 (a.setWidth 8)

/-- SEXTH (R136). -/
def execSexth (d a : BitVec 5) (ta : Bool) (s : State) : Out State := s.alu1 d a ta fun a => sx 16 (a.setWidth 16)

/-- SEXTW (R136). -/
def execSextw (d a : BitVec 5) (ta : Bool) (s : State) : Out State := s.alu1 d a ta fun a => sx 32 (a.setWidth 32)

/-- ZEXTB (R136). -/
def execZextb (d a : BitVec 5) (ta : Bool) (s : State) : Out State := s.alu1 d a ta fun a => zx 8 (a.setWidth 8)

/-- ZEXTH (R136). -/
def execZexth (d a : BitVec 5) (ta : Bool) (s : State) : Out State := s.alu1 d a ta fun a => zx 16 (a.setWidth 16)

/-- ZEXTW (R136). -/
def execZextw (d a : BitVec 5) (ta : Bool) (s : State) : Out State := s.alu1 d a ta fun a => zx 32 (a.setWidth 32)

/-- MOV (R136). -/
def execMov (d a : BitVec 5) (ta : Bool) (s : State) : Out State := s.alu1 d a ta fun a => a

/-- ADDI (R137). -/
def execAddi (d a : BitVec 5) (ta : Bool) (imm : BitVec 14) (s : State) : Out State := s.alu1 d a ta fun a => a + sx 14 imm

/-- ANDI (R137). -/
def execAndi (d a : BitVec 5) (ta : Bool) (imm : BitVec 14) (s : State) : Out State := s.alu1 d a ta fun a => a &&& sx 14 imm

/-- ORI (R137). -/
def execOri (d a : BitVec 5) (ta : Bool) (imm : BitVec 14) (s : State) : Out State := s.alu1 d a ta fun a => a ||| zx 14 imm

/-- XORI (R137). -/
def execXori (d a : BitVec 5) (ta : Bool) (imm : BitVec 14) (s : State) : Out State := s.alu1 d a ta fun a => a ^^^ zx 14 imm

/-- SHLI (R137). -/
def execShli (d a : BitVec 5) (ta : Bool) (sh : BitVec 6) (s : State) : Out State := s.alu1 d a ta fun a => a <<< sh.toNat

/-- SHRI (R137). -/
def execShri (d a : BitVec 5) (ta : Bool) (sh : BitVec 6) (s : State) : Out State := s.alu1 d a ta fun a => a >>> sh.toNat

/-- SRAI (R137). -/
def execSrai (d a : BitVec 5) (ta : Bool) (sh : BitVec 6) (s : State) : Out State := s.alu1 d a ta fun a => a.sshiftRight sh.toNat

/-- LI (R138). -/
def execLi (d : BitVec 5) (imm : BitVec 20) (s : State) : Out State :=
  s.issueWith (s.destS d) fun s => s.send 1 (.s d (sx 20 imm))

/-- LIU reads d as a source; an empty d holds (R133, R138). -/
def execLiu (d : BitVec 5) (imm : BitVec 20) (s : State) : Out State :=
  s.issueWith (s.needS d false) fun s => s.send 1 (.s d ((s.s d <<< 20) ||| zx 20 imm))

/-- The mask of w low bits, w from 1 to 64. -/
def lowMask (w : Nat) : Word := BitVec.ofNat 64 (2 ^ w - 1)

/-- BFX: the field of width wm1 + 1 at p, cut at bit 63 (R139). -/
def execBfx (d a : BitVec 5) (ta : Bool) (p wm1 : BitVec 6) (s : State) : Out State :=
  s.alu1 d a ta fun a => (a >>> p.toNat) &&& lowMask (wm1.toNat + 1)

/-- BFI: d is also a source, and its bits outside the field stay (R139). -/
def execBfi (d a : BitVec 5) (ta : Bool) (p wm1 : BitVec 6) (s : State) : Out State :=
  s.issueWith (.all [s.needS a ta, s.needS d false]) fun s =>
    let m := lowMask (wm1.toNat + 1) <<< p.toNat
    s.send 1 (.s d ((s.s d &&& ~~~m) ||| ((s.s a <<< p.toNat) &&& m)))

/-- The funnel shift right of a : b by n (R140). -/
def funnel (a b : Word) (n : Nat) : Word := ((a ++ b) >>> n).setWidth 64

/-- FSH: the amount is the third register's low six bits, which has no trap-if-empty bit (R133, R140). -/
def execFsh (d a b : BitVec 5) (ta tb : Bool) (c : BitVec 5) (s : State) : Out State :=
  s.issueWith (.all [s.needS a ta, s.needS b tb, s.needS c false, s.destS d]) fun s =>
    s.send 1 (.s d (funnel (s.s a) (s.s b) (bits (s.s c) 0 6)))

/-- FSHI (R140). -/
def execFshi (d a b : BitVec 5) (ta tb : Bool) (n : BitVec 6) (s : State) : Out State :=
  s.alu2 d a b ta tb 1 fun a b => funnel a b n.toNat

/-! ### Predicates from scalars -/

/-- All ones or all zeros (R141). -/
def spread (x : Bool) : PReg := if x then BitVec.allOnes 1024 else 0

/-- Sends a whole predicate to the physical register of a name (R110, R111, R141). -/
def State.sendP (s : State) (lat : Nat) (p : BitVec 4) (v : PReg) (flags : BitVec 5 := 0) : State :=
  s.send lat (.p (physP s.core.regs.prb p) v (BitVec.allOnes 1024)) flags

/-- A scalar condition (R142). -/
def SCond.holds (cc : SCond) (a b : Word) : Bool :=
  match cc with
  | .eq => a == b
  | .ne => a != b
  | .lt => decide (a.toInt < b.toInt)
  | .ge => decide (b.toInt ≤ a.toInt)
  | .ltu => decide (a.toNat < b.toNat)
  | .geu => decide (b.toNat ≤ a.toNat)

/-- SCMP (R142). -/
def execScmp (p : BitVec 4) (a b : BitVec 5) (ta tb : Bool) (cc : SCond) (s : State) : Out State :=
  s.issueWith (.all [s.needS a ta, s.needS b tb]) fun s => s.sendP 1 p (spread (SCond.holds cc (s.s a) (s.s b)))

/-- SCMPI (R142). -/
def execScmpi (p : BitVec 4) (a : BitVec 5) (ta : Bool) (cc : SCond) (imm : BitVec 11) (s : State) : Out State :=
  s.issueWith (s.needS a ta) fun s => s.sendP 1 p (spread (SCond.holds cc (s.s a) (sx 11 imm)))

/-- PLOG, over all bits (R143). -/
def execPlog (p pa pb : BitVec 4) (f : PLogOp) (s : State) : Out State :=
  s.issueWith .go fun s =>
    let a := s.p pa
    let b := s.p pb
    s.sendP 1 p (match f with
      | .and => a &&& b
      | .or => a ||| b
      | .xor => a ^^^ b
      | .andn => a &&& ~~~b
      | .orn => a ||| ~~~b)

/-- SEL (R144). -/
def execSel (d a b : BitVec 5) (ta tb : Bool) (p : BitVec 4) (s : State) : Out State :=
  s.issueWith (.all [s.needS a ta, s.needS b tb, s.destS d]) fun s =>
    s.send 1 (.s d (if s.pBit p then s.s a else s.s b))

/-! ### The address unit -/

/-- An A result (R156). -/
def State.sendA (s : State) (v : Verdict) (d : BitVec 5) (f : State → Word) : Out State :=
  s.issueWith (v.and (s.destA d)) fun s => s.send 1 (.a d (f s))

/-- AMOV (R156). -/
def execAmov (d a : BitVec 5) (ta : Bool) (s : State) : Out State := s.sendA (s.needS a ta) d fun s => s.s a

/-- AADD (R156). -/
def execAadd (d a b : BitVec 5) (ta tb : Bool) (s : State) : Out State :=
  s.sendA ((s.needA a ta).and (s.needS b tb)) d fun s => s.core.regs.aVal a + s.s b

/-- AADDI (R156). -/
def execAaddi (d a : BitVec 5) (ta : Bool) (imm : BitVec 14) (s : State) : Out State :=
  s.sendA (s.needA a ta) d fun s => s.core.regs.aVal a + sx 14 imm

/-- ALI (R156). -/
def execAli (d : BitVec 5) (imm : BitVec 20) (s : State) : Out State := s.sendA .go d fun _ => sx 20 imm

/-- ALIU (R156). -/
def execAliu (d : BitVec 5) (imm : BitVec 20) (s : State) : Out State :=
  s.sendA (s.needA d false) d fun s => (s.core.regs.aVal d <<< 20) ||| zx 20 imm

/-- ASTEP (R156, R158). -/
def execAstep (d : BitVec 5) (s : State) : Out State :=
  s.sendA ((s.needA d false).and (s.advanceCheck d)) d fun s => s.advanced d

/-- AMODE (R159). -/
def execAmode (a : BitVec 5) (mode : BitVec 2) (dk : BitVec 4) (param : BitVec 6) (s : State) : Out State :=
  s.issueWith (s.destA a) fun s => s.send 1 (.aMode a ⟨mode, dk, param⟩)

/-- DSET (R156). -/
def execDset (dk : BitVec 4) (imm : BitVec 20) (s : State) : Out State :=
  s.issueWith .go fun s => s.send 1 (.d dk (imm.signExtend 32))

/-- DMOV (R156). -/
def execDmov (dk : BitVec 4) (a : BitVec 5) (ta : Bool) (s : State) : Out State :=
  s.issueWith (s.needS a ta) fun s => s.send 1 (.d dk ((s.s a).setWidth 32))

/-- WSETB (R156). -/
def execWsetb (wk : BitVec 3) (a : BitVec 5) (ta : Bool) (s : State) : Out State :=
  s.issueWith (s.needS a ta) fun s => s.send 1 (.wBase wk (s.s a))

/-- WSETL (R156). -/
def execWsetl (wk : BitVec 3) (a : BitVec 5) (ta : Bool) (s : State) : Out State :=
  s.issueWith (s.needS a ta) fun s => s.send 1 (.wLen wk ((s.s a).setWidth 32))

/-- ARD (R156). -/
def execArd (d a : BitVec 5) (ta : Bool) (s : State) : Out State :=
  s.issueWith ((s.needA a ta).and (s.destS d)) fun s => s.send 1 (.s d (s.core.regs.aVal a))

end Sys2Proof.Machine
end

