-- ==== Sys2Proof/Machine/Transcend.lean ====
section
/-! DEFINITION. The transcendental functions of the vector units (R198, R199), on exact integers: a value is computed to hundreds
of bits, with a last bit that stands for the rest, and rounded once. -/

namespace Sys2Proof.Machine

open Sys2Proof

/-- The functions of R198. -/
inductive Trans where
  | ln | exp | log2 | exp2 | rcp | rsq | sqrt | tanh | sigm
  deriving DecidableEq, Repr

/-- The opcode of a function, which names it in the free choice of FP32 results (log 8). -/
def transOp : Trans → Nat
  | .ln => 0x20
  | .exp => 0x21
  | .log2 => 0x22
  | .exp2 => 0x23
  | .rcp => 0x24
  | .rsq => 0x25
  | .sqrt => 0x26
  | .tanh => 0x27
  | .sigm => 0x28

/-- Fraction bits of the fixed-point numbers below. -/
def fxBits : Nat := 640

/-- 1 in fixed point. -/
def fxOne : Nat := 2 ^ fxBits

/-- The odd power series of the inverse hyperbolic tangent: u^k/k + u^(k+2)/(k+2) + … , t the power u^k, u2 the square. -/
def atanhSeries (u2 : Nat) : Nat → Nat → Nat → Nat
  | 0, _, _ => 0
  | n + 1, t, k => if t = 0 then 0 else t / k + atanhSeries u2 n (t * u2 / fxOne) (k + 2)

/-- ln z of z in [1, 2), as 2·atanh((z − 1)/(z + 1)). -/
def lnUnit (z : Nat) : Nat :=
  let u := (z - fxOne) * fxOne / (z + fxOne)
  2 * atanhSeries (u * u / fxOne) 400 u 1

/-- ln 2, as 2·atanh(1/3). -/
def ln2 : Nat := 2 * atanhSeries (fxOne / 9) 400 (fxOne / 3) 1

/-- The exponential series, t the term of index n − 1. -/
def expSeries (r : Nat) : Nat → Nat → Nat → Nat
  | 0, t, _ => t
  | fuel + 1, t, n => if t = 0 then 0 else t + expSeries r fuel (t * r / fxOne / n) (n + 1)

/-- e^r of r in [0, 1). -/
def expUnit (r : Nat) : Nat := expSeries r 400 fxOne 1

/-- ln of m · 2^e in fixed point. -/
def lnFix (m : Nat) (e : Int) : Int :=
  let l := Nat.log2 m
  (e + l) * ln2 + lnUnit (m * fxOne / 2 ^ l)

/-- x in fixed point. -/
def fixOf (s : Bool) (m : Nat) (e : Int) : Int :=
  let x : Nat := (scaleTo m e (-(fxBits : Int))).1
  if s then -(x : Int) else x

/-- e^x of a fixed-point x, as a mantissa in fixed point and a power of two. -/
def expFix (x : Int) : Nat × Int :=
  let k := x / (ln2 : Int)
  (expUnit (x - k * ln2).toNat, k)

/-- |x| ≥ 256, where every exponential leaves every format's range. -/
def isHuge (m : Nat) (e : Int) : Bool := decide (8 ≤ (Nat.log2 m : Int) + e)

/-- A function's value on a finite nonzero argument: sign, mantissa and exponent, rounded or exact. -/
structure Approx where
  s : Bool
  m : Nat
  e : Int

/-- An irrational value just above m · 2^e. -/
def above (s : Bool) (m : Nat) (e : Int) : Approx := ⟨s, 2 * m + 1, e - 1⟩

/-- A quotient n/d > 0 in fixed point with many bits. -/
def quot (s : Bool) (n d : Nat) : Approx :=
  let q := n * 2 ^ 1000 / d
  if q * d = n * 2 ^ 1000 then ⟨s, q, -1000⟩ else above s q (-1000)

/-- A value that is irrational or exact, on a finite nonzero argument. -/
def transFin (fn : Trans) (s : Bool) (m : Nat) (e : Int) : Approx :=
  let x := fixOf s m e
  let pow2 := decide (m = 2 ^ Nat.log2 m)
  match fn with
  | .ln =>
    let v := lnFix m e
    if pow2 ∧ (Nat.log2 m : Int) + e = 0 then ⟨false, 0, 0⟩ else above (decide (v < 0)) v.natAbs (-(fxBits : Int))
  | .log2 =>
    if pow2 then
      let k : Int := (Nat.log2 m : Int) + e
      ⟨decide (k < 0), k.natAbs, 0⟩
    else
      let v := lnFix m e
      let a := quot (decide (v < 0)) v.natAbs ln2
      ⟨a.s, 2 * a.m + 1, a.e - 1⟩
  | .exp =>
    if isHuge m e then (if s then ⟨false, 1, -2000⟩ else ⟨false, 1, 2000⟩)
    else let r := expFix x; above false r.1 (r.2 - fxBits)
  | .exp2 =>
    if isHuge m e then (if s then ⟨false, 1, -2000⟩ else ⟨false, 1, 2000⟩)
    else
      let k := x / (fxOne : Int)
      let f := (x - k * fxOne).toNat
      if f = 0 then ⟨false, 1, k⟩ else above false (expUnit (f * ln2 / fxOne)) (k - fxBits)
  | .rcp =>
    let a := quot s 1 m
    ⟨a.s, a.m, a.e - e⟩
  | .rsq =>
    let m' := if e % 2 = 0 then m else 2 * m
    let e' := if e % 2 = 0 then e else e - 1
    let q := isqrt (2 ^ 1000 / m')
    if q * q * m' = 2 ^ 1000 then ⟨false, q, -500 - e' / 2⟩ else above false q (-500 - e' / 2)
  | .sqrt => ⟨false, 0, 0⟩
  | .tanh =>
    if isHuge m e then ⟨s, 2 ^ 2000 - 1, -2000⟩
    else
      let r := expFix (2 * (x.natAbs : Int))
      let p := r.1 * 2 ^ r.2.toNat
      let a := quot s (p - fxOne) (p + fxOne)
      ⟨a.s, 2 * a.m + 1, a.e - 1⟩
  | .sigm =>
    if isHuge m e then (if s then ⟨false, 1, -2000⟩ else ⟨false, 2 ^ 2000 - 1, -2000⟩)
    else
      let r := expFix x
      let p := r.1 * 2 ^ r.2.toNat
      let q := fxOne * 2 ^ (-r.2).toNat
      let a := quot false p (p + q)
      ⟨a.s, 2 * a.m + 1, a.e - 1⟩

/-- The result of a rounding to nearest, or in FP32 one of the two values that bracket an irrational value (R198, log 8). -/
def FloatFmt.settle (f : FloatFmt) (fn : Trans) (x : Nat) (a : Approx) : Nat × Flags :=
  let r := f.rne a.s a.m a.e
  if f ≠ fFP32 ∨ r.2 &&& flNX = 0 ∨ r.2 &&& flOF ≠ 0 then r
  else f.round (if Config.fp32Choice (transOp fn) (BitVec.ofNat 32 x) then (if a.s then .rdn else .rup) else .rtz) false 0 a.s a.m a.e

/-- 1 and one half in a format. -/
def FloatFmt.one (f : FloatFmt) (s : Bool) : Nat := (f.rne s 1 0).1
def FloatFmt.half (f : FloatFmt) : Nat := (f.rne false 1 (-1)).1

/-- A transcendental function of one element (R198, R199). -/
def FloatFmt.trans (f : FloatFmt) (fn : Trans) (x : Nat) : Nat × Flags :=
  match fn with
  | .sqrt => f.sqrt x
  | _ =>
    match f.value x with
    | .nan s q p => (f.nanBits s p, if q then 0 else flNV)
    | .inf s =>
      match fn with
      | .ln | .log2 => if s then (f.cnan, flNV) else (f.infBits false, 0)
      | .exp | .exp2 => if s then (0, 0) else (f.infBits false, 0)
      | .rcp => (f.sign s, 0)
      | .rsq => if s then (f.cnan, flNV) else (0, 0)
      | .sqrt => (0, 0)
      | .tanh => (f.one s, 0)
      | .sigm => if s then (0, 0) else (f.one false, 0)
    | .fin s m e =>
      if m = 0 then
        match fn with
        | .ln | .log2 => (f.infBits true, flDZ)
        | .exp | .exp2 => (f.one false, 0)
        | .rcp | .rsq => (f.infBits s, flDZ)
        | .sqrt | .tanh => (f.sign s, 0)
        | .sigm => (f.half, 0)
      else if s ∧ (fn = .ln ∨ fn = .log2 ∨ fn = .rsq) then (f.cnan, flNV)
      else f.settle fn x (transFin fn s m e)

end Sys2Proof.Machine
end

