-- ==== Sys2Proof/Machine/Vector.lean ====
section
/-! DEFINITION. The V-slot instructions (R175-R202): elements, masks, arithmetic, conversions, random bits and scratchpad access. -/

namespace Sys2Proof

/-- Bytes of an element (R85). -/
def TyF.bytes : TyF → Nat
  | .i8 => 1
  | .i16 | .fp16 | .bf16 => 2
  | .i32 | .fp32 => 4
  | .i64 | .fp64 => 8

def TyN.bytes : TyN → Nat
  | .ui8 => 1
  | .ui16 | .fp16 | .bf16 => 2
  | .ui32 | .fp32 => 4
  | .fp64 => 8

def TyQ.bytes : TyQ → Nat
  | .i8 | .ui8 => 1
  | .i16 | .ui16 => 2
  | .i32 | .ui32 => 4
  | .i64 => 8

def TyQ.signed : TyQ → Bool
  | .i8 | .i16 | .i32 | .i64 => true
  | .ui8 | .ui16 | .ui32 => false

def TyL.bytes : TyL → Nat
  | .fp16 | .bf16 => 2
  | .fp32 => 4
  | .fp64 => 8

def TyT.bytes : TyT → Nat
  | .fp16 | .bf16 => 2
  | .fp32 => 4

def TyI.bytes : TyI → Nat
  | .w8 => 1
  | .w16 => 2
  | .w32 => 4
  | .w64 => 8

end Sys2Proof

namespace Sys2Proof.Machine

open Sys2Proof

/-- The float format of a type, none for an integer type. -/
def fmtF : TyF → Option FloatFmt
  | .fp16 => some fFP16
  | .bf16 => some fBF16
  | .fp32 => some fFP32
  | .fp64 => some fFP64
  | _ => none

def fmtN : TyN → Option FloatFmt
  | .fp16 => some fFP16
  | .bf16 => some fBF16
  | .fp32 => some fFP32
  | .fp64 => some fFP64
  | _ => none

def fmtL : TyL → FloatFmt
  | .fp16 => fFP16
  | .bf16 => fBF16
  | .fp32 => fFP32
  | .fp64 => fFP64

def fmtT : TyT → FloatFmt
  | .fp16 => fFP16
  | .bf16 => fBF16
  | .fp32 => fFP32

/-! ### Elements and masks (R175-R178) -/

/-- The n low fields of w bits of a number. -/
def splitBits (w : Nat) : Nat → Nat → List Nat
  | 0, _ => []
  | n + 1, x => x % 2 ^ w :: splitBits w n (x / 2 ^ w)

/-- Fields of w bits joined, the first lowest. -/
def joinBits (w : Nat) : List Nat → Nat
  | [] => 0
  | x :: t => x % 2 ^ w + 2 ^ w * joinBits w t

/-- The elements of w bytes of a register (R175). -/
def elems (w : Nat) (v : VReg) : List Nat := splitBits (8 * w) (1024 / w) v.toNat

/-- A register from its elements. -/
def vecOf (w : Nat) (l : List Nat) : VReg := BitVec.ofNat 8192 (joinBits (8 * w) l)

/-- Whether a mask enables each element of w bytes (R176). -/
def enabledElems (w : Nat) (m : PReg) : List Bool := (splitBits w (1024 / w) m.toNat).map fun b => b % 2 == 1

/-- A mask at element granularity, as a bit for every byte (R176). -/
def elemMask (w : Nat) (m : PReg) : PReg :=
  if m = BitVec.allOnes 1024 then m
  else BitVec.ofNat 1024 (joinBits w ((enabledElems w m).map fun b => if b then 2 ^ w - 1 else 0))

/-- The flags of the enabled elements, ORed (R178). -/
def vecFlags (en : List Bool) (r : List (Nat × Flags)) : Flags :=
  (en.zip r).foldl (fun acc x => if x.1 then acc ||| x.2.2 else acc) 0

/-- A vector result under a mask at element granularity: it lands with a latency on the register that the name means now (R111, R176-R178). -/
def State.sendV (s : State) (lat : Nat) (d : BitVec 6) (w : Nat) (m : BitVec 4) (r : List (Nat × Flags)) : State :=
  let mask := s.p m
  s.send lat (.v (physV s.core.regs.vrb d) (vecOf w (r.map Prod.fst)) (elemMask w mask)) (vecFlags (enabledElems w mask) r)

/-- A vector instruction that only computes. -/
def State.vec (s : State) (lat : Nat) (d : BitVec 6) (w : Nat) (m : BitVec 4) (f : State → List (Nat × Flags)) : Out State :=
  s.issueWith .go fun s => s.sendV lat d w m (f s)

/-- An elementwise operation of one source. -/
def State.vec1 (s : State) (lat : Nat) (d a : BitVec 6) (w : Nat) (m : BitVec 4) (f : Nat → Nat × Flags) : Out State :=
  s.vec lat d w m fun s => (elems w (s.v a)).map f

/-- An elementwise operation of two sources. -/
def State.vec2 (s : State) (lat : Nat) (d a b : BitVec 6) (w : Nat) (m : BitVec 4) (f : Nat → Nat → Nat × Flags) : Out State :=
  s.vec lat d w m fun s => (elems w (s.v a)).zipWith f (elems w (s.v b))

/-- An operation on an integer or a float type (R180). -/
def State.vecF (s : State) (d a b : BitVec 6) (ty : TyF) (m : BitVec 4) (int : Nat → Nat → Nat)
    (flt : FloatFmt → Nat → Nat → Nat × Flags) : Out State :=
  s.vec2 ty.lat d a b ty.bytes m (match fmtF ty with
    | some f => flt f
    | none => fun x y => (int x y, 0))

/-! ### Arithmetic (R180-R182) -/

/-- VADD (R180). -/
def execVadd (d a b : BitVec 6) (ty : TyF) (m : BitVec 4) (s : State) : Out State :=
  s.vecF d a b ty m (fun x y => x + y) FloatFmt.add

/-- VSUB (R180). -/
def execVsub (d a b : BitVec 6) (ty : TyF) (m : BitVec 4) (s : State) : Out State :=
  s.vecF d a b ty m (fun x y => x + (2 ^ (8 * ty.bytes) - y)) FloatFmt.sub

/-- VMUL (R180). -/
def execVmul (d a b : BitVec 6) (ty : TyF) (m : BitVec 4) (s : State) : Out State :=
  s.vecF d a b ty m (fun x y => x * y) FloatFmt.mul

/-- An operation of two sources on the destination (R180, R184). -/
def zip3 (f : Nat → Nat → Nat → Nat × Flags) : List Nat → List Nat → List Nat → List (Nat × Flags)
  | x :: xs, y :: ys, z :: zs => f x y z :: zip3 f xs ys zs
  | _, _, _ => []

/-- VFMA (R180). -/
def execVfma (d a b : BitVec 6) (ty : TyL) (m : BitVec 4) (s : State) : Out State :=
  s.vec 4 d ty.bytes m fun s =>
    zip3 ((fmtL ty).fma false) (elems ty.bytes (s.v a)) (elems ty.bytes (s.v b)) (elems ty.bytes (s.v d))

/-- VFMS (R180). -/
def execVfms (d a b : BitVec 6) (ty : TyL) (m : BitVec 4) (s : State) : Out State :=
  s.vec 4 d ty.bytes m fun s =>
    zip3 ((fmtL ty).fma true) (elems ty.bytes (s.v a)) (elems ty.bytes (s.v b)) (elems ty.bytes (s.v d))

/-- The minimum or maximum of integers (R182). -/
def intPick (max : Bool) (key : Nat → Int) (x y : Nat) : Nat := if decide (key x < key y) == max then y else x

/-- VMIN (R182). -/
def execVmin (d a b : BitVec 6) (ty : TyF) (m : BitVec 4) (s : State) : Out State :=
  s.vecF d a b ty m (intPick false (sintOf (8 * ty.bytes))) (fun f => f.minmax false false)

/-- VMAX (R182). -/
def execVmax (d a b : BitVec 6) (ty : TyF) (m : BitVec 4) (s : State) : Out State :=
  s.vecF d a b ty m (intPick true (sintOf (8 * ty.bytes))) (fun f => f.minmax true false)

/-- VMINN (R182). -/
def execVminn (d a b : BitVec 6) (ty : TyN) (m : BitVec 4) (s : State) : Out State :=
  s.vec2 ty.lat d a b ty.bytes m (match fmtN ty with
    | some f => f.minmax false true
    | none => fun x y => (intPick false (fun n => (n : Int)) x y, 0))

/-- VMAXN (R182). -/
def execVmaxn (d a b : BitVec 6) (ty : TyN) (m : BitVec 4) (s : State) : Out State :=
  s.vec2 ty.lat d a b ty.bytes m (match fmtN ty with
    | some f => f.minmax true true
    | none => fun x y => (intPick true (fun n => (n : Int)) x y, 0))

/-- VABS: a float's sign bit clears, and no flag is set (R180). -/
def execVabs (d a : BitVec 6) (ty : TyF) (m : BitVec 4) (s : State) : Out State :=
  let n := 8 * ty.bytes
  s.vec1 2 d a ty.bytes m fun x =>
    (match fmtF ty with
      | some _ => x % 2 ^ (n - 1)
      | none => if 2 ^ (n - 1) ≤ x then 2 ^ n - x else x, 0)

/-- VNEG: a float's sign bit inverts, and no flag is set (R180). -/
def execVneg (d a : BitVec 6) (ty : TyF) (m : BitVec 4) (s : State) : Out State :=
  let n := 8 * ty.bytes
  s.vec1 2 d a ty.bytes m fun x =>
    (match fmtF ty with
      | some _ => x ^^^ 2 ^ (n - 1)
      | none => 2 ^ n - x, 0)

/-- A sum or difference clamped to the range of the type (R181). -/
def satOp (ty : TyQ) (sub : Bool) (x y : Nat) : Nat × Flags :=
  let n := 8 * ty.bytes
  let v (z : Nat) : Int := if ty.signed then sintOf n z else (z : Int)
  let r := if sub then v x - v y else v x + v y
  (intBits n (if ty.signed then clampInt (-2 ^ (n - 1)) (2 ^ (n - 1) - 1) r else clampInt 0 (2 ^ n - 1) r), 0)

/-- VADD.sat (R181). -/
def execVaddSat (d a b : BitVec 6) (ty : TyQ) (m : BitVec 4) (s : State) : Out State :=
  s.vec2 2 d a b ty.bytes m (satOp ty false)

/-- VSUB.sat (R181). -/
def execVsubSat (d a b : BitVec 6) (ty : TyQ) (m : BitVec 4) (s : State) : Out State :=
  s.vec2 2 d a b ty.bytes m (satOp ty true)

/-! ### Logic, shifts and bit fields (R183-R185) -/

/-- An elementwise operation of integers with latency 2 (R183). -/
def State.vecI (s : State) (d a b : BitVec 6) (ty : TyI) (m : BitVec 4) (f : Nat → Nat → Nat → Nat) : Out State :=
  s.vec2 2 d a b ty.bytes m fun x y => (f (8 * ty.bytes) x y, 0)

/-- VAND (R183). -/
def execVand (d a b : BitVec 6) (ty : TyI) (m : BitVec 4) (s : State) : Out State := s.vecI d a b ty m fun _ x y => x &&& y

/-- VOR (R183). -/
def execVor (d a b : BitVec 6) (ty : TyI) (m : BitVec 4) (s : State) : Out State := s.vecI d a b ty m fun _ x y => x ||| y

/-- VXOR (R183). -/
def execVxor (d a b : BitVec 6) (ty : TyI) (m : BitVec 4) (s : State) : Out State := s.vecI d a b ty m fun _ x y => x ^^^ y

/-- VANDN (R183). -/
def execVandn (d a b : BitVec 6) (ty : TyI) (m : BitVec 4) (s : State) : Out State :=
  s.vecI d a b ty m fun n x y => x &&& (2 ^ n - 1 - y)

/-- VSHL (R183). -/
def execVshl (d a b : BitVec 6) (ty : TyI) (m : BitVec 4) (s : State) : Out State :=
  s.vecI d a b ty m fun n x y => x * 2 ^ (y % n)

/-- VSHR (R183). -/
def execVshr (d a b : BitVec 6) (ty : TyI) (m : BitVec 4) (s : State) : Out State :=
  s.vecI d a b ty m fun n x y => x / 2 ^ (y % n)

/-- VSRA (R183). -/
def execVsra (d a b : BitVec 6) (ty : TyI) (m : BitVec 4) (s : State) : Out State :=
  s.vecI d a b ty m fun n x y => intBits n (sintOf n x / 2 ^ (y % n))

/-- VFSH (R184). -/
def execVfsh (d a b : BitVec 6) (ty : TyI) (m : BitVec 4) (s : State) : Out State :=
  let n := 8 * ty.bytes
  s.vec 2 d ty.bytes m fun s =>
    zip3 (fun x y c => ((x * 2 ^ n + y) / 2 ^ (c % n), 0)) (elems ty.bytes (s.v a)) (elems ty.bytes (s.v b)) (elems ty.bytes (s.v d))

/-- VBFX (R185). -/
def execVbfx (d a b : BitVec 6) (ty : TyI) (m : BitVec 4) (s : State) : Out State :=
  s.vecI d a b ty m fun n x y => x / 2 ^ (y % n) % 2 ^ (y / n % n + 1)

/-! ### Compare and select (R186-R188) -/

/-- A condition as a scalar float condition. -/
def VCond.scalar : VCond → FCond
  | .eq => .eq
  | .ne => .ne
  | .lt => .lt
  | .le => .le

/-- An integer condition (R186). -/
def VCond.int (cc : VCond) (x y : Int) : Bool :=
  match cc with
  | .eq => x == y
  | .ne => x != y
  | .lt => decide (x < y)
  | .le => decide (x ≤ y)

/-- One element's comparison (R186). -/
def vcmpOne (cc : VCond) (ty : TyF) (x y : Nat) : Bool × Flags :=
  match fmtF ty with
  | some f => f.compare (VCond.scalar cc) x y
  | none => (VCond.int cc (sintOf (8 * ty.bytes) x) (sintOf (8 * ty.bytes) y), 0)

/-- VCMP: every bit of an enabled element's bytes takes the result (R186). -/
def execVcmp (cc : VCond) (p : BitVec 4) (a b : BitVec 6) (ty : TyF) (m : BitVec 4) (s : State) : Out State :=
  let w := ty.bytes
  s.issueWith .go fun s =>
    let r := (elems w (s.v a)).zipWith (vcmpOne cc ty) (elems w (s.v b))
    let mask := s.p m
    s.send 2 (.p (physP s.core.regs.prb p) (BitVec.ofNat 1024 (joinBits w (r.map fun x => if x.1 then 2 ^ w - 1 else 0))) (elemMask w mask))
      (vecFlags (enabledElems w mask) (r.map fun x => (0, x.2)))

/-- VSEL: the mask field names the selector, and every element is written (R188). -/
def execVsel (d a b : BitVec 6) (ty : TyI) (m : BitVec 4) (s : State) : Out State :=
  s.issueWith .go fun s =>
    s.send 2 (.v (physV s.core.regs.vrb d) (mergeV (s.v b) (s.v a) (elemMask ty.bytes (s.p m))) (BitVec.allOnes 1024))

/-! ### Moves, splats and lane reads (R189, R190) -/

/-- VMOV (R189). -/
def execVmov (d a : BitVec 6) (ty : TyI) (m : BitVec 4) (s : State) : Out State := s.vec1 2 d a ty.bytes m fun x => (x, 0)

/-- VSPL (R189). -/
def execVspl (d : BitVec 6) (t : Bool) (sr : BitVec 5) (ty : TyI) (m : BitVec 4) (s : State) : Out State :=
  s.issueWith (s.needS sr t) fun s => s.sendV 2 d ty.bytes m (List.replicate (1024 / ty.bytes) ((s.s sr).toNat, 0))

/-- VIDX (R189). -/
def execVidx (d : BitVec 6) (ty : TyI) (m : BitVec 4) (s : State) : Out State :=
  s.vec 2 d ty.bytes m fun _ => (List.range (1024 / ty.bytes)).map fun i => (i, 0)

/-- VGET (R190). -/
def execVget (d : BitVec 5) (a : BitVec 6) (t : Bool) (i : BitVec 5) (ty : TyI) (s : State) : Out State :=
  s.issueWith ((s.needS i t).and (s.destS d)) fun s =>
    s.send 3 (.s d (BitVec.ofNat 64 ((elems ty.bytes (s.v a)).getD ((s.s i).toNat % (1024 / ty.bytes)) 0)))

/-! ### Classification (R191) -/

/-- The class of a pattern, one bit (R191). -/
def classOf (f : FloatFmt) (x : Nat) : Nat :=
  match f.value x with
  | .nan _ q _ => if q then 0x200 else 0x100
  | .inf s => if s then 0x01 else 0x80
  | .fin s m _ =>
    if m = 0 then (if s then 0x08 else 0x10)
    else if m < 2 ^ f.mb then (if s then 0x04 else 0x20)
    else (if s then 0x02 else 0x40)

/-- VCLS (R191). -/
def execVcls (d a : BitVec 6) (ty : TyL) (m : BitVec 4) (s : State) : Out State :=
  s.vec1 2 d a ty.bytes m fun x => (classOf (fmtL ty) x, 0)

/-! ### Random bits (R195, R196) -/

/-- The mixing function of R195. -/
def mix64 (z : Word) : Word :=
  let z := (z ^^^ (z >>> 30)) * 0xBF58476D1CE4E5B9#64
  let z := (z ^^^ (z >>> 27)) * 0x94D049BB133111EB#64
  z ^^^ (z >>> 31)

/-- A draw for a lane (R195). -/
def draw (seed : Word) (lane : Nat) (c : Word) : Word :=
  mix64 (seed ^^^ mix64 (((c <<< 8) ||| BitVec.ofNat 64 lane) + 0x9E3779B97F4A7C15#64))

/-- The random counter advances at issue (R195). -/
def State.drew (s : State) : State := s.onRegs fun r => { r with rnd := r.rnd + 1 }

/-- VRND: the type sets only the mask's granularity (R196). -/
def execVrnd (d : BitVec 6) (ty : TyI) (m : BitVec 4) (s : State) : Out State :=
  s.issueWith .go fun s =>
    let v := vecOf 4 ((List.range 256).map fun l => (draw s.core.regs.seed l s.core.regs.rnd).toNat)
    (s.send 3 (.v (physV s.core.regs.vrb d) v (elemMask ty.bytes (s.p m)))).drew

/-! ### Conversion (R192-R194) -/

/-- Bits and signedness of an integer format. -/
def fmtInt : Fmt → Option (Nat × Bool)
  | .int8 => some (8, true)
  | .uint8 => some (8, false)
  | .int16 => some (16, true)
  | .int32 => some (32, true)
  | .int4 => some (4, true)
  | .int64 => some (64, true)
  | _ => none

/-- A real float format. -/
def fmtFloat : Fmt → Option FloatFmt
  | .e4m3 => some fE4M3
  | .e5m2 => some fE5M2
  | .fp16 => some fFP16
  | .bf16 => some fBF16
  | .fp32 => some fFP32
  | .fp64 => some fFP64
  | _ => none

/-- Bits of an element of a format (R161, R162). -/
def fmtBits (f : Fmt) : Nat :=
  match fmtInt f, fmtFloat f with
  | some i, _ => i.1
  | _, some x => x.width
  | _, _ => 0

/-- The range of an integer format. -/
def intLo (n : Nat) (signed : Bool) : Int := if signed then -2 ^ (n - 1) else 0
def intHi (n : Nat) (signed : Bool) : Int := if signed then 2 ^ (n - 1) - 1 else 2 ^ n - 1

/-- One conversion of VCVT (R166-R169, R193); between integers only a narrower target clamps (R169), a wider one extends, and one of the same width
keeps the bits (log 73). -/
def convertOne (dst src : Fmt) (sat : Bool) (mode : Rnd) (rnd x : Nat) : Nat × Flags :=
  match fmtInt src, fmtFloat src, fmtInt dst, fmtFloat dst with
  | some i, _, some j, _ =>
    let v : Int := if i.2 then sintOf i.1 x else (x : Int)
    (intBits j.1 (if sat && decide (j.1 < i.1) then clampInt (intLo j.1 j.2) (intHi j.1 j.2) v else v), 0)
  | some i, _, _, some g => intToFloat g mode sat rnd (if i.2 then sintOf i.1 x else (x : Int))
  | _, some f, some j, _ => let r := floatToInt f mode rnd (intLo j.1 j.2) (intHi j.1 j.2) x; (intBits j.1 r.1, r.2)
  | _, some f, _, some g => floatToFloat f g mode sat rnd x
  | _, _, _, _ => (0, 0)

/-- The random bits of the slot whose low byte is at a byte offset of the register (R196). -/
def slotRandom (seed c : Word) (byte : Nat) : Nat := bits (draw seed (byte / 4) c) (16 * (byte % 4)) 16

/-- VCVT: not masked; it works in slots of the wider of the two formats (R193, R194). -/
def execVcvt (d a : BitVec 6) (dst src : Fmt) (sat : Bool) (rnd : Rnd) (s : State) : Out State :=
  let ws := fmtBits src
  let wd := fmtBits dst
  let w := Nat.max ws wd
  s.issueWith .go fun s =>
    let r := s.core.regs
    let n := 8192 / w
    let res := ((List.range n).zip (splitBits w n (s.v a).toNat)).map fun e =>
      let x := convertOne dst src sat rnd (if rnd = .sr then slotRandom r.seed r.rnd (w * e.1 / 8) else 0) (e.2 % 2 ^ ws)
      (x.1 % 2 ^ wd, x.2)
    let s' := s.send 3 (.v (physV r.vrb d) (BitVec.ofNat 8192 (joinBits w (res.map Prod.fst))) (BitVec.allOnes 1024))
      (res.foldl (fun acc x => acc ||| x.2) 0)
    if rnd = .sr then s'.drew else s'

/-! ### Block scaling (R197) -/

/-- An entry of the scale table (R171). -/
def scaleEntry (k : BitVec 512) (i : Nat) : Word32 := BitVec.ofNat 32 (k.toNat >>> (32 * (i % 16)))

/-- VSCALE (R197). -/
def execVscale (d a b : BitVec 6) (ty : TyL) (m : BitVec 4) (s : State) : Out State :=
  s.vec 4 d ty.bytes m fun s =>
    (elems ty.bytes (s.v a)).zipWith (fun x y => blockScale (fmtL ty) ((fmtL ty).value x) (scaleEntry s.core.regs.k y))
      (elems ty.bytes (s.v b))

/-! ### Transcendental functions (R198, R199) -/

/-- A transcendental function of every element, with latency 10 (R198). -/
def State.vecT (s : State) (fn : Trans) (d a : BitVec 6) (ty : TyT) (m : BitVec 4) : Out State :=
  s.vec1 10 d a ty.bytes m ((fmtT ty).trans fn)

/-- VLN (R198). -/
def execVln (d a : BitVec 6) (ty : TyT) (m : BitVec 4) (s : State) : Out State := s.vecT .ln d a ty m

/-- VEXP (R198). -/
def execVexp (d a : BitVec 6) (ty : TyT) (m : BitVec 4) (s : State) : Out State := s.vecT .exp d a ty m

/-- VLOG2 (R198). -/
def execVlog2 (d a : BitVec 6) (ty : TyT) (m : BitVec 4) (s : State) : Out State := s.vecT .log2 d a ty m

/-- VEXP2 (R198). -/
def execVexp2 (d a : BitVec 6) (ty : TyT) (m : BitVec 4) (s : State) : Out State := s.vecT .exp2 d a ty m

/-- VRCP (R198). -/
def execVrcp (d a : BitVec 6) (ty : TyT) (m : BitVec 4) (s : State) : Out State := s.vecT .rcp d a ty m

/-- VRSQ (R198). -/
def execVrsq (d a : BitVec 6) (ty : TyT) (m : BitVec 4) (s : State) : Out State := s.vecT .rsq d a ty m

/-- VSQRT (R198). -/
def execVsqrt (d a : BitVec 6) (ty : TyT) (m : BitVec 4) (s : State) : Out State := s.vecT .sqrt d a ty m

/-- VTANH (R198). -/
def execVtanh (d a : BitVec 6) (ty : TyT) (m : BitVec 4) (s : State) : Out State := s.vecT .tanh d a ty m

/-- VSIGM (R198). -/
def execVsigm (d a : BitVec 6) (ty : TyT) (m : BitVec 4) (s : State) : Out State := s.vecT .sigm d a ty m

/-! ### Scratchpad and result buffer (R131, R200-R202) -/

/-- The effective address of a vector access: offset7 counts 64 bytes (R200). -/
def State.vea (s : State) (a : BitVec 5) (off : BitVec 7) : Word := s.a a + (sx 7 off <<< 6)

/-- The checks on a vector load's bytes, after those of its address (R132, R201). -/
def State.vldCheck (s : State) (ea : Word) : Verdict :=
  (s.localCheck ea 1024 64).andThen (s.loadCheck (ea.toNat - windowBase.toNat) 1024)

/-- VLD (R200, R201, R305). -/
def execVld (d : BitVec 6) (a : BitVec 5) (pm : Bool) (ac : BitVec 2) (off : BitVec 7) (m : BitVec 4) (s : State) : Out State :=
  let ea := s.vea a off
  s.issueWith (.all [s.needA a false, s.postCheck a pm, s.vldCheck ea]) fun s =>
    let b : ScratchAccess := { path := 1, ac := ac, off := ea.toNat - windowBase.toNat, size := 1024 }
    let v := BitVec.ofNat 8192 (leNat (s.localLoad b))
    (s.postModify a pm 64).sendLoad 6 b 0 false (.v (physV s.core.regs.vrb d) v (s.p m))

/-- VST (R126, R200, R201, R305). -/
def execVst (d : BitVec 6) (a : BitVec 5) (pm : Bool) (ac : BitVec 2) (off : BitVec 7) (m : BitVec 4) (s : State) : Out State :=
  let ea := s.vea a off
  s.issueWith (.all [s.needA a false, s.postCheck a pm, s.localCheck ea 1024 64]) fun s =>
    (s.postModify a pm 64).localStore s.core.issue.slot { path := 1, ac := ac, off := ea.toNat - windowBase.toNat, size := 1024 } (s.v d) (s.p m)

/-- The bundles until a result-buffer entry is valid (R131). -/
def State.rbWait (s : State) (e : BitVec 4) : Nat :=
  s.core.pendingFlight.foldl (fun acc f => match f.what with | .rb n _ => if n = e then Nat.max acc f.left else acc | _ => acc) 0

/-- VLDRB: a pending entry traps (R131, R202). -/
def execVldrb (d : BitVec 6) (e m : BitVec 4) (s : State) : Out State :=
  s.issueWith (ensure (s.rbWait e == 0) 0x05 (BitVec.ofNat 64 (s.rbWait e * 256 + e.toNat))) fun s =>
    s.send 2 (.v (physV s.core.regs.vrb d) (s.core.rb[e.toNat]'(e.isLt)) (s.p m))

end Sys2Proof.Machine
end

