-- ==== Sys2Proof/Machine/Engine.lean ====
section
/-! DEFINITION. What the copy engines and the matrix engine share: descriptors, the checks at issue, the queues, elements by location,
writes, failing and retiring (R89, R224-R233, R235-R237, R250-R253). -/

namespace Sys2Proof.Machine

open Sys2Proof

/-! ### Descriptors (R224, R225) -/

/-- A 32-bit word of a descriptor. -/
def descWord (d : BitVec 256) (i : Nat) : Nat := bits d (32 * i) 32

/-- One operand of a descriptor: α or β. -/
structure Side where
  addr   : Nat
  resv   : Nat
  apt    : Bool
  fmt    : Nat
  loc    : Nat
  stride : Int
  deriving DecidableEq, Repr

/-- The operand whose words start at word i, with its stride in word j. -/
def sideAt (d : BitVec 256) (i j : Nat) : Side :=
  let hi := descWord d (i + 1)
  ⟨descWord d i + 2 ^ 32 * (hi % 2 ^ 16), hi / 2 ^ 24, decide ((hi / 2 ^ 23) % 2 = 1), (hi / 2 ^ 19) % 16, (hi / 2 ^ 16) % 8,
    sintOf 32 (descWord d j)⟩

def sideA (d : BitVec 256) : Side := sideAt d 0 5
def sideB (d : BitVec 256) : Side := sideAt d 2 6
def descRows (d : BitVec 256) : Nat := bits d 128 16
def descCols (d : BitVec 256) : Nat := bits d 144 16
def descParam (d : BitVec 256) : Nat := bits d 224 16
def descRtgt (d : BitVec 256) : Nat := bits d 240 16

/-- A command without elements (R225). -/
def descEmpty (d : BitVec 256) : Bool := descRows d == 0 || descCols d == 0

/-- Bits of an element of a format code; raw bytes are bytes, a VCB2 code is counted for eight weights (R165, R225). -/
def codeBits (c : Nat) : Nat :=
  [8, 8, 16, 32, 8, 8, 16, 16, 32, 64, 64, 128, 16, 4, 64, 8].getD c 8

/-- The alignment unit of an element in bytes (R225). -/
def codeAlign (c : Nat) : Nat :=
  [1, 1, 2, 4, 1, 1, 2, 2, 4, 8, 8, 8, 2, 1, 8, 1].getD c 1

/-- The address bits that locations 4 to 6 leave unused (R225). -/
def addrSpare (loc addr : Nat) : Bool :=
  match loc with
  | 4 => decide (2 ^ 17 ≤ addr)
  | 5 => decide (2 ^ 10 ≤ addr) || decide ((addr / 128) % 2 = 1)
  | 6 => decide (8 ≤ addr)
  | _ => false

/-- The tile, first row and first column of an operand at location 4. -/
def Side.tile (x : Side) : Nat := x.addr / 2 ^ 14 % 8
def Side.row0 (x : Side) : Nat := x.addr / 2 ^ 7 % 128
def Side.col0 (x : Side) : Nat := x.addr % 128

/-- Codes whose conditions hold. -/
def broken (l : List (Nat × Bool)) : List Nat := (l.filter Prod.snd).map Prod.fst

/-- The issue checks on an operand that a command uses (R225, R232). -/
def sideCodes (x : Side) (rows cols : Nat) (locs : List Nat) : List Nat :=
  broken [(0x10, x.loc == 7), (0x11, x.resv != 0 || addrSpare x.loc x.addr), (0x12, x.fmt == 15 && x.loc != 3),
    (0x13, decide (x.loc ≤ 2) && (decide (x.addr % codeAlign x.fmt ≠ 0) || (decide (1 < rows) && decide (x.stride % (codeAlign x.fmt : Int) ≠ 0)))),
    (0x14, !locs.contains x.loc),
    (0x14, x.loc == 4 && rows != 0 && cols != 0 && (decide (128 < x.row0 + rows) || decide (128 < x.col0 + cols))),
    (0x14, x.fmt == 13 && decide (cols % 2 ≠ 0)), (0x14, x.fmt == 12 && decide (cols % 8 ≠ 0))]

/-- The issue checks on RTGT (R228). -/
def rtgtCodes (ret : RetAct) (d : BitVec 256) : List Nat :=
  broken [(0x11, match ret with
    | .none => descRtgt d != 0
    | .sem => decide (descRtgt d % 2 ^ 10 ≠ 0)
    | _ => false)]

/-- The engine's number in TRAP_VAL (R232, R252). -/
def engNum : Eng → Nat
  | .c0 => 1
  | .c1 => 2
  | .m => 3

/-- The engine of a slot's commands (R229, R250). -/
def slotEng : Slot → Eng
  | .c0 => .c0
  | .c1 => .c1
  | _ => .m

/-- TRAP_VAL of a failed command (R232). -/
def failVal (e : Eng) (cid : BitVec 6) (va : Word) (code : Nat) : Word :=
  (va <<< 16) ||| BitVec.ofNat 64 (engNum e * 2 ^ 14 + cid.toNat * 2 ^ 8 + code % 256)

/-! ### Issue (R89, R226, R230, R231, R233) -/

/-- The tiles, and the banks as 8 + bank, that a command reads; and those it writes (R230, R251). -/
def Cmd.reads (c : Cmd) : List Nat :=
  let a := sideA c.desc
  match c.op with
  | .mma | .mmag | .mmah => [8 + descParam c.desc / 16 % 4]
  | .mzero => []
  | _ => if a.loc = 4 then [a.tile] else []

/-- The tiles of an output at location 4: a pair for FP64, CF32 and CF64 (R249). -/
def outTiles (b : Side) : List Nat := if 9 ≤ b.fmt ∧ b.fmt ≤ 11 then [b.tile, b.tile + 1] else [b.tile]

def Cmd.wrts (c : Cmd) : List Nat :=
  let b := sideB c.desc
  match c.op with
  | .mma | .mmag | .mmah | .mzero => outTiles b
  | .mldw => [8 + b.addr / 256 % 4]
  | _ => if b.loc = 4 then [b.tile] else []

/-- Some number stands in both lists. -/
def meet (a b : List Nat) : Bool := a.any fun x => b.contains x

/-- Whether a matrix command writes, and a copy command reads or writes, some of the tiles (R230). -/
def State.tileBusy (s : State) (c : Cmd) : Bool :=
  let tiles (l : List Nat) := l.filter (· < 8)
  let mine := tiles (c.reads ++ c.wrts)
  s.core.cmds.any fun o =>
    if o.eng = .m then c.eng != .m && meet mine (tiles o.wrts)
    else meet mine (tiles o.wrts) || (c.eng == .m && meet (tiles c.wrts) (tiles o.reads))

/-- The commands of an engine that have not dispatched (R226). -/
def State.queuedOn (s : State) (e : Eng) : Nat := countIf (fun c => c.eng == e && (c.st == .queued || c.st == .parked)) s.core.cmds

/-- A CID is outstanding (R227). -/
def State.cidBusy (s : State) (n : BitVec 6) : Bool := s.core.cmds.any fun c => c.cid == n

/-- A matrix command waits for an earlier one that it conflicts with (R251). -/
def Cmd.conflict (c o : Cmd) : Bool := c.eng == .m && o.eng == .m && (meet o.wrts (c.reads ++ c.wrts) || meet c.wrts o.reads)

/-- The commands that a new command follows: those that it names, retired ones too, and those that it conflicts with, each with what it follows itself
(R307); only those that still matter, which are outstanding or have written what accesses may pass. -/
def State.follows (s : State) (c : Cmd) (pa pb : BitVec 6) : List Nat :=
  let named (p : BitVec 6) : List Nat := if p = 0 then [] else Sparse.get [] s.core.cids p.toNat
  let conf := (s.core.cmds.filter c.conflict).flatMap fun o => o.seqNo :: o.after
  (named pa ++ named pb ++ conf).eraseDups.filter fun n => s.core.cmds.any (fun o => o.seqNo == n) || s.core.regs.stores.any fun t => t.acc.cmd == some n

/-- The command that a bundle's word makes. -/
def State.newCmd (s : State) (op : CmdOp) (cid pa pb : BitVec 6) (y : BitVec 4) (ret : RetAct) : Cmd :=
  let c : Cmd :=
    { op := op
      eng := slotEng s.core.issue.slot
      cid := cid
      preds := (s.core.cmds.filter fun c => (pa != 0 && c.cid == pa) || (pb != 0 && c.cid == pb)).map Cmd.seqNo
      desc := s.y y
      desc2 := s.y (y + 1)
      ret := ret
      kTab := s.core.regs.k
      codebook := s.core.regs.codebook
      gPat := (s.core.regs.g.toList).getD (descParam (s.y y) % 16) 0
      seqNo := s.core.cmdNo }
  { c with after := s.follows c pa pb }

/-- The lowest of the codes that a command breaks at issue raises trap 0x0C (R232). -/
def codesVerdict (c : Cmd) (codes : List Nat) : Verdict :=
  match codes with
  | [] => .go
  | x :: t => .trap 0x0C (failVal c.eng c.cid 0 (t.foldl Nat.min x))

/-- Issues an engine command: a full queue, a busy CID and a busy tile hold the bundle; under rollback protection a commit-class command
needs a checkpoint bundle; then come the command's own checks (R89, R226, R230, R232, R233, R250, R253). -/
def State.issueCmd (s : State) (c : Cmd) (commit : Bool) (first : Verdict) (codes : List Nat) : Out State :=
  s.issueWith (.all [waitFor (decide (s.queuedOn c.eng < 16)) 0x06, waitFor (c.cid == 0 || !s.cidBusy c.cid) 0x06,
      waitFor (!s.tileBusy c) 0x04, first,
      ensure (!s.prot || !commit || s.core.issue.protectOk) 0x0F s.wordVal, codesVerdict c codes]) fun s =>
    { s with core := { s.core with
      cmds := s.core.cmds ++ [c], cmdNo := s.core.cmdNo + 1
      cids := if c.cid = 0 then s.core.cids else Sparse.put s.core.cids c.cid.toNat (c.seqNo :: c.after) } }

/-! ### Elements (R172-R174, R217, R225, R235) -/

/-- Why a command stops at an element: it parks, it fails with a cause and a code, or its memory is not ready yet (R39, R232). -/
inductive Stop where
  | park (va : Word)
  | fail (cause : BitVec 8) (va : Word) (code : Nat)
  | wait
  deriving DecidableEq, Repr

/-- The accesses of a task's engine commands (R212). -/
def State.engWho (s : State) : Who := ⟨some s.job, false⟩

/-- A failed access of an element. -/
def stopOf (f : Flt) (va : Word) : Stop :=
  match f with
  | .absent => .park va
  | .perm => .fail 0x09 va 0x09
  | .staging => .fail 0x0C va 0x02
  | .aperture => .fail 0x0C va 0x03
  | .poison => .fail 0x0A va Config.poisonCode.toNat
  | .wait => .wait

/-- A resolved element: where its bytes lie and how its page is laid out. -/
structure Spot where
  pa   : Nat
  key  : Nat
  fmt  : Nat
  geom : Nat
  va   : Word

/-- The physical place of n bytes of an operand, checked (R26, R206, R210, R217, R222, R225). A local place is this core's window in
region 0x1. -/
def State.spot (s : State) (x : Side) (write : Bool) (a : Int) (n : Nat) : State × Except Stop Spot :=
  match x.loc with
  | 0 =>
    let va := windowBase + BitVec.ofInt 64 a
    if a < 0 ∨ (s.core.window false : Int) < a + n then (s, .error (.fail 0x09 va 0x09))
    else (s, .ok ⟨2 ^ 48 + s.me.die.toNat * 2 ^ 30 + s.me.idx.toNat * 2 ^ 21 + a.toNat, 0, 15, 0, va⟩)
  | 3 =>
    let va := BitVec.ofInt 64 a
    match s.translate s.engWho write va with
    | (s, .error f) => (s, .error (stopOf f va))
    | (s, .ok l) =>
      let isApt := match region l.pa with
        | .aperture _ _ => true
        | _ => false
      if isApt && !x.apt then (s, .error (.fail 0x0C va 0x03))
      else match s.physCheck s.engWho write l.pa n with
        | some f => (s, .error (stopOf f va))
        | none => if s.groupsReady l.pa n then (s, .ok ⟨l.pa, l.key, l.fmt, l.geom, va⟩) else (s, .error .wait)
  | _ =>
    let top := if x.loc = 1 then 2 ^ 48 else 2 ^ 49
    if a < 0 ∨ 2 ^ 48 ≤ a then (s, .error (.fail 0x09 0 0x09))
    else match s.physCheck s.engWho write (top + a.toNat) n with
      | some f => (s, .error (stopOf f 0))
      | none => (s, .ok ⟨top + a.toNat, 0, 15, 0, 0⟩)

/-- The format that an operand resolves to: an explicit one, or its page's (R217, R235). -/
def State.resolveFmt (s : State) (x : Side) (write : Bool) : State × Except Stop Nat :=
  if x.fmt = 15 then
    match s.spot x write x.addr 1 with
    | (s, .error e) => (s, .error e)
    | (s, .ok p) => (s, .ok p.fmt)
  else (s, .ok x.fmt)

/-- The byte address of element (i, j) and its bit in the byte (R225). -/
def Side.elemAddr (x : Side) (fmt i j : Nat) : Int × Nat :=
  let base : Int := (x.addr : Int) + (i : Int) * x.stride
  if fmt = 12 then (base + (2 * (j / 8) : Nat), 0)
  else (base + (j * codeBits fmt / 8 : Nat), j * codeBits fmt % 8)

/-- Elements of a block of a geometry (R213). -/
def geomSize (g : Nat) : Nat := [0, 16, 32, 64].getD g 0

/-- An element as read: its bits, and its block scale (R172, R235). -/
structure Elt where
  raw   : Nat
  scale : Option Word32 := none

/-- The path of a command's accesses by its bit in a FENCE mask (R302); CCOL's are path F, as R302 and R391 say, not path C, which R231 names (log 81). -/
def CmdOp.path : CmdOp → BitVec 3
  | .mldw | .mma | .mmag | .mmah | .mzero => 2
  | .cpy | .csel | .cqf => 3
  | .cgth | .csct => 4
  | .ccol => 5

/-- An access of a command to its own core's scratchpad (R307). -/
def Cmd.access (c : Cmd) (off n : Nat) : ScratchAccess :=
  { path := c.op.path, ac := 0, off := off, size := n, now := false, cmd := some c.seqNo, after := c.after }

/-- The bytes that a command reads of its own core's scratchpad, where a write that nothing orders before it may perform sooner or later (R307). -/
def State.ownBytes (s : State) (c : Cmd) (pa : Nat) (bs : List Byte) : List Byte :=
  match region pa with
  | .scratch k off =>
    if k = s.me ∧ s.races (c.access off bs.length) then s.raceRead (c.access off bs.length) (4 * c.seqNo + 1) else bs
  | _ => bs

/-- Reads n bytes at a resolved place; pages with a geometry read only their data region, with the scale index of the block (R172, R173). -/
def State.spotRead (s : State) (c : Cmd) (p : Spot) (fmt n : Nat) : Except Stop (Nat × Option Word32) :=
  match s.physRead s.engWho p.key p.pa n with
  | .error f => .error (stopOf f p.va)
  | .ok raw =>
    let bs := s.ownBytes c p.pa raw
    if p.geom = 0 then .ok (leNat bs, none)
    else
      let b := if fmt = 12 then geomSize p.geom / 4 else geomSize p.geom * codeBits fmt / 8
      let blocks := 131072 / (2 * b + 1)
      let off := p.pa % 2 ^ 16
      if blocks * b < off + n then .error (.fail 0x09 p.va 0x09)
      else
        let k := off / b
        let q := p.pa - off + blocks * b + k / 2
        match s.physRead s.engWho p.key q 1 with
        | .error f => .error (stopOf f p.va)
        | .ok sc =>
          let byte := leNat sc
          .ok (leNat bs, some (scaleEntry c.kTab (if k % 2 = 0 then byte % 16 else byte / 16)))

/-- The weight j of a VCB2 code: (−1)^s · (2m + h) / 8, in units of 1/8 (R174). -/
def vcb2Weight (codebook : BitVec 8192) (code j : Nat) : FVal :=
  let e := code / 256
  let sg (i : Nat) : Bool := code.testBit (i + 1)
  let sign := if j < 7 then sg j else (List.range 7).foldl (fun acc i => acc != sg i) false
  let m := (codebook.toNat >>> (32 * e + 4 * j)) % 16
  .fin sign (2 * m + code % 2) (-3)

/-- Reads element (i, j) of an operand whose format is resolved (R217, R225, R235). -/
def State.readElem (s : State) (c : Cmd) (x : Side) (fmt i j : Nat) : State × Except Stop Elt :=
  if x.loc = 4 then
    (s, .ok ⟨(Sparse.get 0 s.core.tiles (x.tile * 16384 + (x.row0 + i) * 128 + x.col0 + j)).toNat, none⟩)
  else
    let at_ := x.elemAddr fmt i j
    let n := (codeBits fmt + 7) / 8
    let cross := decide (x.loc = 3) && decide (2 ^ 16 < (at_.1 % 2 ^ 16).toNat + n)
    let n1 := if cross then 2 ^ 16 - (at_.1 % 2 ^ 16).toNat else n
    match s.spot x false at_.1 n1 with
    | (s, .error e) => (s, .error e)
    | (s, .ok p) =>
      if x.loc = 3 ∧ p.fmt ≠ 15 ∧ p.fmt ≠ fmt then (s, .error (.fail 0x0C p.va 0x01))
      else if x.loc = 3 ∧ fmt = 15 ∧ p.fmt ≠ 15 then (s, .error (.fail 0x0C p.va 0x01))
      else match s.spotRead c p fmt n1 with
        | .error e => (s, .error e)
        | .ok (v, sc) =>
          if cross then
            match s.spot x false (at_.1 + n1) (n - n1) with
            | (s, .error e) => (s, .error e)
            | (s, .ok q) =>
              if q.fmt ≠ p.fmt ∨ q.geom ≠ p.geom then (s, .error (.fail 0x0C q.va 0x01))
              else match s.spotRead c q fmt (n - n1) with
                | .error e => (s, .error e)
                | .ok (v2, _) => (s, .ok ⟨v + v2 * 2 ^ (8 * n1), sc⟩)
          else (s, .ok ⟨v / 2 ^ at_.2 % 2 ^ codeBits fmt, sc⟩)

/-! ### Conversions on the way (R171, R174, R235) -/

/-- An exact value in a float or integer format. -/
def roundInto (dst : Fmt) (v : FVal) : Nat :=
  match fmtFloat dst, fmtInt dst with
  | some f, _ =>
    match v with
    | .nan _ _ _ => f.cnan
    | .inf s => f.infBits s
    | .fin s m e => (f.rne s m e).1
  | _, some i =>
    match v with
    | .nan _ _ _ => 0
    | .inf s => intBits i.1 (if s then intLo i.1 i.2 else intHi i.1 i.2)
    | .fin s m e =>
      let p := scaleTo m e 0
      let t := p.1 + (if roundUp .rne s (p.1 % 2 == 1) p.2.1 p.2.2 0 then 1 else 0)
      intBits i.1 (clampInt (intLo i.1 i.2) (intHi i.1 i.2) (if s then -(t : Int) else t))
  | _, _ => 0

/-- The product of a value and a block scale, exact (R171). -/
def scaleExact (v : FVal) (k : Word32) : FVal :=
  let b := fFP32.value k.toNat
  let s := v.neg? != b.neg?
  if v.isNan || b.isNan || (v.isInf && b.isZero) || (v.isZero && b.isInf) then .nan false true 0
  else match v, b with
    | .fin _ m1 e1, .fin _ m2 e2 => .fin s (m1 * m2) (e1 + e2)
    | _, _ => .inf s

/-- The exact value of an element's bits. -/
def exactOf (f : Fmt) (x : Nat) : FVal :=
  match fmtFloat f, fmtInt f with
  | some g, _ => g.value x
  | _, some i => let v : Int := if i.2 then sintOf i.1 x else (x : Int); .fin (decide (v < 0)) v.natAbs 0
  | _, _ => .fin false 0 0

/-- Whether CPY takes a pairing of resolved formats (R235). -/
def pairOk (fa fb : Nat) : Bool :=
  if fa = 15 ∨ fb = 15 then fa == 15 && (fb == 1 || fb == 15)
  else if fa = 12 then fb == 6 || fb == 7 || fb == 8
  else if 10 ≤ fa ∧ fa ≤ 11 ∨ 10 ≤ fb ∧ fb ≤ 11 then fa == fb
  else fb != 12

/-- One element converted on its way (R235). -/
def convertElt (c : Cmd) (mode : Rnd) (sat : Bool) (fa fb j : Nat) (e : Elt) : Nat :=
  match Fmt.ofCode? fa, Fmt.ofCode? fb with
  | some a, some b =>
    match e.scale with
    | some k => roundInto b (scaleExact (if fa = 12 then vcb2Weight c.codebook e.raw (j % 8) else exactOf a e.raw) k)
    | none =>
      if fa = fb ∨ fa = 15 then e.raw
      else if fa = 12 then roundInto b (vcb2Weight c.codebook e.raw (j % 8))
      else (convertOne b a sat mode 0 e.raw).1
  | _, _ => e.raw

/-! ### Writes (R221, R231, R277) -/

/-- A byte on its way to its place: new bits under a mask; or a word on its way to a tile. -/
structure Wr where
  pa   : Nat
  key  : Nat
  va   : Word
  data : Byte
  mask : Byte
  tile : Option (Nat × Word32) := none

/-- The aligned unit of a write operation: 64 bytes of a scratchpad, a line elsewhere (R277). -/
def unitSize (pa : Nat) : Nat :=
  match region pa with
  | .scratch _ _ => 64
  | _ => 128

/-- The writes of a command collected by unit, later ones over earlier ones. -/
def gatherUnits (l : List Wr) : Sparse (List (Option Wr)) :=
  l.foldl (fun m w =>
    let n := unitSize w.pa
    let u := w.pa / n * n
    let old := (Sparse.find? m u).getD (List.replicate n none)
    let prev := (old.getD (w.pa - u) none)
    let new : Wr := match prev with
      | some p => { w with data := (p.data &&& ~~~w.mask) ||| (w.data &&& w.mask), mask := p.mask ||| w.mask }
      | none => w
    Sparse.put m u (setAt old (w.pa - u) (some new))) []

/-- Contiguous runs of the bytes written in a unit. -/
def unitRuns : List (Option Wr) → List (List Wr)
  | [] => []
  | none :: t => [] :: unitRuns t
  | some w :: t =>
    match unitRuns t with
    | [] => [[w]]
    | r :: rs => (w :: r) :: rs

/-- One run of bytes to memory; a byte that keeps some bits is read first. A poisoned line is reported at a DRAIN (R377). -/
def State.writeRun (c : Cmd) (s : State) (r : List Wr) : State :=
  match r with
  | [] => s
  | w :: _ =>
    let old := if r.all fun x => x.mask == 0xFF then [] else
      match s.physRead s.engWho w.key w.pa r.length with
      | .ok b => b
      | .error _ => []
    let new := ((List.range r.length).zip r).map fun e => (old.getD e.1 0 &&& ~~~e.2.mask) ||| (e.2.data &&& e.2.mask)
    let q := s.physWrite s.engWho w.key w.pa new
    let t := q.1.cacheWrites c.op.path (s.lineWrites w.pa new)
    if q.2 then { t with core := { t.core with lostWrites := t.core.lostWrites ++ [w.va] } } else t

/-- A write operation of the core's own command in its scratchpad, with the tokens that it pushes: a later access that nothing orders may still read what
was there (R277, R307). -/
def State.ownWrite (s : State) (c : Cmd) (off : Nat) (bs : List (Byte × Bool)) : State :=
  { s with core := (s.core.scratchStore off bs).noted s.core (c.access off bs.length) s.fresh bs, fresh := s.fresh + 1 }

/-- The write operation of one unit. -/
def State.writeUnit (s : State) (cmd : Cmd) (u : Nat) (l : List (Option Wr)) : State :=
  match region u with
  | .scratch c off =>
    let x := s.getCore c
    let bs := ((List.range l.length).zip l).map fun e =>
      match e.2 with
      | some w =>
        let old := Sparse.get 0 x.scratch (off + e.1)
        ((old &&& ~~~w.mask) ||| (w.data &&& w.mask), s.peerOk (some s.job) c (off + e.1))
      | none => (0, false)
    if !bs.any Prod.snd then s
    else if c = s.me then s.ownWrite cmd off bs
    else s.onCore c fun x => x.unjournalled fun x => x.scratchStore off bs
  | _ => ((unitRuns l).filter fun r => !r.isEmpty).foldl (State.writeRun cmd) s

/-- Writes a word of a tile, journalled by units of 16 words (R373). -/
def Core.tileWrite (x : Core) (k : Nat) (v : Word32) : Core :=
  let x := x.record (.tile (k / 16) (Sparse.range 0 x.tiles (k / 16 * 16) 16))
  { x with tiles := Sparse.set 0 x.tiles k v }

/-- A command's writes perform. -/
def State.applyWrites (s : State) (c : Cmd) (l : List Wr) : State :=
  let s : State := { s with core := (l.filterMap Wr.tile).foldl (fun x w => x.tileWrite w.1 w.2) s.core }
  (gatherUnits (l.filter fun w => w.tile.isNone)).foldl (fun s u => s.writeUnit c u.1 u.2) s

/-- The bytes of element (i, j) of a destination, resolved and checked; `base` is the start of a circular-buffer slot. -/
def State.placeElem (s : State) (x : Side) (fmt i j cols : Nat) (base : Option Nat) (v : Nat) : State × Except Stop (List Wr) :=
  let bitsN := codeBits fmt
  let at_ : Int × Nat := match base with
    | some b => ((b : Int) + ((i * cols + j) * bitsN / 8 : Nat), (i * cols + j) * bitsN % 8)
    | none => x.elemAddr fmt i j
  let x' : Side := match base with
    | some _ => { x with loc := 0 }
    | none => x
  let n := (bitsN + 7) / 8
  let piece (s : State) (a : Int) (k : Nat) (v : Nat) (mask : Byte) : State × Except Stop (List Wr) :=
    match s.spot x' true a k with
    | (s, .error e) => (s, .error e)
    | (s, .ok p) =>
      if p.geom ≠ 0 then (s, .error (.fail 0x0C p.va 0x07))
      else if x'.loc = 3 ∧ p.fmt ≠ 15 ∧ p.fmt ≠ fmt then (s, .error (.fail 0x0C p.va 0x01))
      else (s, .ok (((List.range k).zip (leBytes k v)).map fun e => { pa := p.pa + e.1, key := p.key, va := p.va, data := e.2, mask := mask }))
  if x'.loc = 4 then
    (s, .ok [{ pa := 0, key := 0, va := 0, data := 0, mask := 0, tile := some (x.tile * 16384 + (x.row0 + i) * 128 + x.col0 + j, BitVec.ofNat 32 v) }])
  else if bitsN < 8 then piece s at_.1 1 (v % 2 ^ bitsN * 2 ^ at_.2) (BitVec.ofNat 8 ((2 ^ bitsN - 1) * 2 ^ at_.2))
  else
    let left := 2 ^ 16 - (at_.1 % 2 ^ 16).toNat
    if x'.loc = 3 ∧ left < n then
      match piece s at_.1 left v 0xFF with
      | (s, .error e) => (s, .error e)
      | (s, .ok a) =>
        match piece s (at_.1 + left) (n - left) (v / 2 ^ (8 * left)) 0xFF with
        | (s, .error e) => (s, .error e)
        | (s, .ok b) => (s, .ok (a ++ b))
    else piece s at_.1 n v 0xFF

/-! ### Failing, parking, retiring (R228, R232, R252) -/

/-- The commands that name one of the given commands, directly or through others; `l` is in issue order. -/
def dependants : List Cmd → List Nat → List Nat
  | [], acc => acc
  | c :: t, acc => dependants t (if meet c.preds acc then c.seqNo :: acc else acc)

/-- Counts a retired command (R399). -/
def State.countRetired (s : State) (e : Eng) : State := s.count (if e = .m then 0x0E else 0x0F) 1

/-- A command fails: it and its dependants retire without a retire action, and the trap is taken at the next boundary (R232). -/
def State.failCmd (s : State) (c : Cmd) (cause : BitVec 8) (va : Word) (code : Nat) : State :=
  let gone := dependants s.core.cmds [c.seqNo]
  let s := (s.core.cmds.filter fun x => gone.contains x.seqNo).foldl (fun s x => s.countRetired x.eng) s
  { s with core := { s.core with
    cmds := s.core.cmds.filter fun x => !gone.contains x.seqNo
    reports := s.core.reports ++ [⟨cause, failVal c.eng c.cid va code⟩] } }

/-- Replaces an outstanding command. -/
def State.setCmd (s : State) (c : Cmd) : State :=
  { s with core := { s.core with cmds := s.core.cmds.map fun x => if x.seqNo = c.seqNo then c else x } }

/-- What is parked goes on: the task runs, ends, yields or waits for its checkpoint, and no report of it is due (R232, R352). -/
def Core.retries (x : Core) : Bool := (x.life == .running || x.life == .ended || x.life == .yielding || x.life == .checkpoint) && x.reports.isEmpty

/-- A command stops at an element (R39, R232). -/
def State.stopCmd (s : State) (c : Cmd) (e : Stop) : State :=
  match e with
  | .wait => s.setCmd { c with st := .queued }
  | .park va =>
    let s := s.setCmd { c with st := .parked }
    { s with core := { s.core with reports := s.core.reports ++ [⟨0x08, va⟩] } }
  | .fail cause va code => s.failCmd c cause va code

/-- A command whose accesses have come to an end or to a stop. -/
def State.settleCmd (s : State) (c : Cmd) (e : Option Stop) : State :=
  match e with
  | none => s.setCmd { c with st := .running }
  | some e => s.stopCmd c e


/-- A core runs a task of a job. -/
def State.runsJob (s : State) (c : CoreRef) (job : BitVec 6) : Bool :=
  match (s.getCore c).task with
  | some t => t.job == job
  | none => false

/-- The record that a retire action decrements: RTGT counts records from the task's own (R228). -/
def State.actRecord (s : State) (c : Cmd) : Word :=
  ((s.core.task.map Task.addr).getD 0).setWidth 64 + (sx 16 (BitVec.ofNat 16 (descRtgt c.desc)) <<< 7)

/-- The retire action of a command; none when it cannot be performed (R228). -/
def State.retireAct (s : State) (c : Cmd) : Option State :=
  let r := descRtgt c.desc
  let n : BitVec 6 := BitVec.ofNat 6 (r / 2 ^ 10)
  match c.ret with
  | .none => some s
  | .sem => some (({ s with core := s.core.semAdd n 1 } : State).cmdReleases c n.toNat)
  | .rsem =>
    let t : CoreRef := ⟨BitVec.ofNat 2 (r / 2 ^ 8), BitVec.ofNat 8 r⟩
    if 143 < t.idx.toNat ∨ !s.runsJob t s.job then none
    else some ((s.onCore t fun x => x.semAdd n 1).cmdReleases c (if t = s.me then n.toNat else toOthers))
  | .tdec =>
    let va := s.actRecord c
    match s.translate s.engWho true va with
    | (_, .error _) => none
    | (s, .ok l) =>
      match region l.pa with
      | .device _ =>
        if (s.lineMeta (l.pa / 128)).poison then none
        else some ((s.cmdReleases c toOthers).onDev fun d => { d with decs := d.decs ++ [{ record := va.setWidth 48, pa := BitVec.ofNat 52 l.pa, key := BitVec.ofNat 6 l.key, job := s.job, host := false, core := some s.me, eng := some c.seqNo }] })
      | _ => none

/-- A retire action that waits: for a held bundle to be tested between two changes of its semaphores (R281), or for the channel groups of the page
tables that its record is translated through (R39). -/
def State.actWaits (s : State) (c : Cmd) : Bool :=
  match c.ret with
  | .none => false
  | .sem => s.core.semDue
  | .rsem => (s.getCore ⟨BitVec.ofNat 2 (descRtgt c.desc / 2 ^ 8), BitVec.ofNat 8 (descRtgt c.desc)⟩).semDue
  | .tdec =>
    match s.walk (s.actRecord c).toNat with
    | .error .wait => true
    | _ => false

/-- What a command sets when it retires: its flags and its buffer slot (R227, R237, R258, R266). -/
def State.retireSets (s : State) (c : Cmd) : State :=
  let b := sideB c.desc
  s.onRegs fun r => { r with
    tileFlags := r.tileFlags ||| (c.tflags.setWidth 32 <<< (4 * b.tile))
    status := if c.ohrange then r.status ||| 16 else r.status
    cb := match c.slot with
      | none => r.cb
      | some k => r.cb.mapIdx fun i x => if i = b.addr % 8 then { x with full := x.full ++ [k] } else x }

/-- A command is outstanding no longer (R227, R399). -/
def State.leaveCmd (s : State) (c : Cmd) : State :=
  let s := s.countRetired c.eng
  { s with core := { s.core with cmds := s.core.cmds.filter fun x => x.seqNo != c.seqNo } }

/-- A command retires: it sets what it sets then, and performs its retire action after that; an action that cannot be performed makes it fail
(R227, R228). One whose action is a decrement retires when that has performed at its home, or fails there (R377). -/
def State.retireCmd (s : State) (c : Cmd) : State :=
  let s := s.retireSets c
  match s.retireAct c with
  | none => s.failCmd c 0x0C 0 0x0A
  | some s => if c.ret = .tdec then s.setCmd { c with st := .acting } else s.leaveCmd c

end Sys2Proof.Machine
end

