-- ==== Sys2Proof/Machine/Copy.lean ====
section
/-! DEFINITION. The copy commands and the Carder (R234-R245): what each checks at issue and what it does. -/

namespace Sys2Proof.Machine

open Sys2Proof

/-- A rounding mode of a PARAM word (R234). -/
def paramRnd (k : Nat) : Rnd := (Rnd.ofCode? (k % 8)).getD .rne

/-- The formats that a copy takes at an operand (R234). -/
def copyFmt (x : Side) (beta : Bool) : List Nat :=
  broken [(0x14, x.fmt != 15 && ((beta && x.fmt == 12) || (x.loc == 4 && x.fmt != 3 && x.fmt != 8)))]

/-- The PARAM fields of CPY, CGTH and CSCT: rounding and the bits left unused (R234, R240). -/
def copyParam (d : BitVec 256) (used : Nat) : List Nat :=
  broken [(0x15, decide (4 < descParam d % 8)), (0x11, decide (2 ^ used ≤ descParam d))]

/-! ### CPY (R234-R237) -/

/-- The elements of a copy, from element t on: the writes come last first. -/
def copyLoop (c : Cmd) (fa fb cols : Nat) (base : Option Nat) : Nat → State → Nat → List Wr → State × Nat × List Wr × Option Stop
  | 0, s, t, acc => (s, t, acc, none)
  | fuel + 1, s, t, acc =>
    let i := t / cols
    let j := t % cols
    match s.readElem c (sideA c.desc) fa i j with
    | (s, .error e) => (s, t, acc, some e)
    | (s, .ok x) =>
      let p := descParam c.desc
      let y := convertElt c (paramRnd p) (p.testBit 3) fa fb j x
      match s.placeElem (sideB c.desc) fb i j cols base y with
      | (s, .error e) => (s, t, acc, some e)
      | (s, .ok w) => copyLoop c fa fb cols base fuel s (t + 1) (w.reverse ++ acc)

/-- Bytes of a copy's elements packed (R237). -/
def packedBytes (d : BitVec 256) (fmt : Nat) : Nat := (descRows d * descCols d * codeBits fmt + 7) / 8

/-- What a copy to a circular buffer finds at dispatch: it waits, fails, or takes a slot (R237). -/
inductive SlotFind where
  | plain | waits | tooLarge
  | taken (k : Word32) (base : Nat) (s : State)

/-- The circular-buffer slot of a copy (R237). -/
def State.findSlot (s : State) (c : Cmd) (fb : Nat) : SlotFind :=
  let b := sideB c.desc
  if b.loc ≠ 6 then .plain
  else
    let n : BitVec 3 := BitVec.ofNat 3 b.addr
    let x := s.core.regs.cb[n.toNat]'(n.isLt)
    match c.slot with
    | some k => .taken k (x.base + k.toNat % x.count * x.size) s
    | none =>
      if !x.configured || decide (x.size < packedBytes c.desc fb) then .tooLarge
      else if x.count ≤ (x.f - x.r).toNat then .waits
      else .taken x.f (x.base + x.f.toNat % x.count * x.size)
        (s.onRegs fun r => { r with cb := r.cb.set n.toNat { x with f := x.f + 1 } n.isLt })

/-- A copy without elements: it makes no access (R225), yet to a circular buffer it fills a slot like every copy (R237, R289); a buffer that is not
configured has none (log 64). -/
def State.runEmpty (s : State) (c : Cmd) : State :=
  match s.findSlot c (sideB c.desc).fmt with
  | .plain | .tooLarge => s.setCmd { c with st := .running }
  | .waits => s
  | .taken k _ s => s.setCmd { c with st := .running, slot := some k }

/-- CPY at dispatch: its elements from the first not yet performed (R232, R235). -/
def State.runCpy (s : State) (c : Cmd) : State :=
  let d := c.desc
  if descEmpty d then s.runEmpty c
  else match s.resolveFmt (sideA d) false with
    | (s, .error e) => s.stopCmd c e
    | (s, .ok fa) =>
      match s.resolveFmt (sideB d) true with
      | (s, .error e) => s.stopCmd c e
      | (s, .ok fb) =>
        if !pairOk fa fb then s.failCmd c 0x0C 0 0x08
        else
          let go (s : State) (c : Cmd) (base : Option Nat) : State :=
            let r := copyLoop c fa fb (descCols d) base (descRows d * descCols d - c.done) s c.done []
            (r.1.applyWrites c r.2.2.1.reverse).settleCmd { c with done := r.2.1 } r.2.2.2
          match s.findSlot c fb with
          | .plain => go s c none
          | .waits => s
          | .tooLarge => s.failCmd c 0x0C 0 0x05
          | .taken k base s => go s { c with slot := some k } (some base)

/-- The issue checks of CPY (R225, R230, R234). -/
def cpyCodes (d : BitVec 256) : List Nat :=
  sideCodes (sideA d) (descRows d) (descCols d) [0, 1, 2, 3, 4] ++ sideCodes (sideB d) (descRows d) (descCols d) [0, 1, 2, 3, 4, 6]
    ++ copyFmt (sideA d) false ++ copyFmt (sideB d) true ++ copyParam d 4

/-- CPY (R234). -/
def execCpy (cid pa pb : BitVec 6) (y : BitVec 4) (ret : RetAct) (s : State) : Out State :=
  let c := s.newCmd .cpy cid pa pb y ret
  s.issueCmd c (ret != .none) .go (cpyCodes c.desc ++ rtgtCodes ret c.desc)

/-! ### CSEL (R238, R239) -/

/-- Fields of a CSEL's PARAM (R238). -/
def cselK (d : BitVec 256) : Nat := descParam d % 128
def cselMin (d : BitVec 256) : Bool := (descParam d).testBit 7
def cselCol (d : BitVec 256) : Bool := (descParam d).testBit 8
def cselOut (d : BitVec 256) : Nat := descParam d / 2 ^ 9 % 4

/-- The rank of a pattern (R170, R239). -/
def cselKey (fmt x : Nat) : Int :=
  let n := codeBits fmt
  if 4 ≤ fmt then (totalKey n x : Int) else if fmt = 1 then (x : Int) else sintOf n x

/-- The pad value (R239). -/
def cselPad (fmt : Nat) (mn : Bool) : Nat :=
  let n := codeBits fmt
  if 4 ≤ fmt then (if mn then 2 ^ (n - 1) - 1 else 2 ^ n - 1)
  else if fmt = 1 then (if mn then 2 ^ n - 1 else 0)
  else if mn then 2 ^ (n - 1) - 1 else 2 ^ (n - 1)

/-- A candidate at its place among the best so far, those before it in the line first on equal keys (R239). -/
def cselInsert (fmt : Nat) (mn : Bool) (x : Nat × Nat) : List (Nat × Nat) → List (Nat × Nat)
  | [] => [x]
  | y :: t =>
    let a := cselKey fmt x.1
    let b := cselKey fmt y.1
    if (if mn then decide (a < b) else decide (b < a)) then x :: y :: t else y :: cselInsert fmt mn x t

/-- The k best of a line, padded (R239). -/
def cselBest (fmt : Nat) (mn : Bool) (k : Nat) (line : List Nat) : List (Nat × Nat) :=
  let l := ((line.zip (List.range line.length)).foldl (fun acc x => (cselInsert fmt mn x acc).take k) [])
  l ++ List.replicate (k - l.length) (cselPad fmt mn, 0xFFFFFFFF)

/-- Reads a line of α; a source page with a geometry is not accepted (R238). -/
def cselLine (c : Cmd) (fmt : Nat) (col : Bool) (m : Nat) : Nat → State → Nat → List Nat → State × Except Stop (List Nat)
  | 0, s, _, acc => (s, .ok acc.reverse)
  | fuel + 1, s, p, acc =>
    match s.readElem c (sideA c.desc) fmt (if col then p else m) (if col then m else p) with
    | (s, .error e) => (s, .error e)
    | (s, .ok x) => if x.scale.isSome then (s, .error (.fail 0x0C 0 0x07)) else cselLine c fmt col m fuel s (p + 1) (x.raw :: acc)

/-- An output entry (R238). -/
def cselEntry (out : Nat) (e : Nat × Nat) : Nat := if out = 0 then e.1 + 2 ^ 32 * e.2 else if out = 1 then e.2 else e.1

/-- Writes the entries of a line from entry q on. -/
def cselOutput (c : Cmd) (m : Nat) : List (Nat × Nat) → State → Nat → List Wr → State × Nat × List Wr × Option Stop
  | [], s, q, acc => (s, q, acc, none)
  | e :: t, s, q, acc =>
    let b := sideB c.desc
    match s.placeElem b b.fmt m q 0 none (cselEntry (cselOut c.desc) e) with
    | (s, .error x) => (s, q, acc, some x)
    | (s, .ok w) => cselOutput c m t s (q + 1) (w.reverse ++ acc)

/-- The lines of a selection, from output entry `done` on. -/
def cselLoop (c : Cmd) (len k : Nat) : Nat → State → Nat → List Wr → State × Nat × List Wr × Option Stop
  | 0, s, done, acc => (s, done, acc, none)
  | fuel + 1, s, done, acc =>
    let d := c.desc
    let m := done / k
    match cselLine c (sideA d).fmt (cselCol d) m len s 0 [] with
    | (s, .error e) => (s, done, acc, some e)
    | (s, .ok line) =>
      match cselOutput c m ((cselBest (sideA d).fmt (cselMin d) k line).drop (done % k)) s (done % k) acc with
      | (s, q, acc, some e) => (s, m * k + q, acc, some e)
      | (s, q, acc, none) => cselLoop c len k fuel s (m * k + q) acc

/-- CSEL at dispatch (R239). -/
def State.runCsel (s : State) (c : Cmd) : State :=
  let d := c.desc
  if descEmpty d then s.setCmd { c with st := .running }
  else
    let lines := if cselCol d then descCols d else descRows d
    let len := if cselCol d then descRows d else descCols d
    let r := cselLoop c len (cselK d) (lines - c.done / cselK d) s c.done []
    (r.1.applyWrites c r.2.2.1.reverse).settleCmd { c with done := r.2.1 } r.2.2.2

/-- The issue checks of CSEL (R238). -/
def cselCodes (d : BitVec 256) : List Nat :=
  let a := sideA d
  let b := sideB d
  sideCodes a (descRows d) (descCols d) [0, 1, 2, 3, 4] ++ sideCodes b (if cselCol d then descCols d else descRows d) (cselK d) [0, 1, 2, 3]
    ++ broken [(0x14, if a.loc = 4 then a.fmt != 3 && a.fmt != 8 else decide (8 < a.fmt)),
      (0x14, match cselOut d with
        | 0 => b.fmt != 14
        | 1 => b.fmt != 3
        | 2 => b.fmt != a.fmt
        | _ => false),
      (0x15, cselOut d == 3 || cselK d == 0 || decide (64 < cselK d)), (0x11, decide (2 ^ 11 ≤ descParam d))]

/-- CSEL (R238). -/
def execCsel (cid pa pb : BitVec 6) (y : BitVec 4) (ret : RetAct) (s : State) : Out State :=
  let c := s.newCmd .csel cid pa pb y ret
  s.issueCmd c (ret != .none) .go (cselCodes c.desc ++ rtgtCodes ret c.desc)

/-! ### Gathers and scatters (R240-R244) -/

def gathRemap (d : BitVec 256) : Bool := (descParam d).testBit 4

/-- The index list and the remap table of the companion descriptor (R240). -/
def gathList (d2 : BitVec 256) : Side := { sideAt d2 0 0 with stride := 0 }
def gathTable (d2 : BitVec 256) : Side := { sideAt d2 2 0 with stride := 0 }

/-- What an entry of the list names (R241, R243). -/
inductive RowName where
  | none
  | evicted
  | row (r : Nat) (tentative : Bool)
  deriving DecidableEq, Repr

/-- Resolves entry i of the list (R241). -/
def State.gathRow (s : State) (c : Cmd) (i : Nat) : State × Except Stop RowName :=
  let d2 := c.desc2
  match s.readElem c (gathList d2) 3 0 i with
  | (s, .error e) => (s, .error e)
  | (s, .ok x) =>
    if x.raw = 0xFFFFFFFF then (s, .ok .none)
    else if gathRemap c.desc then
      if descWord d2 5 ≤ x.raw then (s, .error (.fail 0x0C 0 0x04))
      else match s.readElem c (gathTable d2) 3 0 x.raw with
        | (s, .error e) => (s, .error e)
        | (s, .ok e) =>
          if e.raw.testBit 31 then (s, .ok .evicted)
          else if descWord d2 4 ≤ e.raw % 2 ^ 24 then (s, .error (.fail 0x0C 0 0x04))
          else (s, .ok (.row (e.raw % 2 ^ 24) (e.raw.testBit 30)))
    else if descWord d2 4 ≤ x.raw then (s, .error (.fail 0x0C 0 0x04))
    else (s, .ok (.row x.raw false))

/-- The die that owns a table row, this die for a row of another device (R244); none when its address does not translate. -/
def State.rowOwner (s : State) (x : Side) (fmt r : Nat) (write : Bool) : Option (BitVec 2) :=
  match s.spot x write (x.elemAddr fmt r 0).1 1 with
  | (_, .error _) => none
  | (_, .ok p) =>
    match region p.pa with
    | .device d => some (BitVec.ofNat 2 d)
    | _ => some s.me.die

/-- The elements of one row from column j on, up to one that stops the command. -/
def rowRead (c : Cmd) (x : Side) (fa fb i : Nat) : Nat → State → Nat → List Nat → State × List Nat × Option Stop
  | 0, s, _, acc => (s, acc.reverse, none)
  | fuel + 1, s, j, acc =>
    match s.readElem c x fa i j with
    | (s, .error e) => (s, acc.reverse, some e)
    | (s, .ok e) =>
      let p := descParam c.desc
      rowRead c x fa fb i fuel s (j + 1) (convertElt c (paramRnd p) (p.testBit 3) fa fb j e :: acc)

/-- The writes of one row from column j on: the column reached, the writes and what stops the command there. -/
def rowPlace (x : Side) (fb i cols : Nat) (base : Option Nat) : List Nat → State → Nat → List Wr → State × Nat × List Wr × Option Stop
  | [], s, j, acc => (s, j, acc, none)
  | v :: t, s, j, acc =>
    match s.placeElem x fb i j cols base v with
    | (s, .error e) => (s, j, acc, some e)
    | (s, .ok w) => rowPlace x fb i cols base t s (j + 1) (w.reverse ++ acc)

/-- A poisoned element. -/
def Stop.isPoison : Stop → Bool
  | .fail cause _ _ => cause == 0x0A
  | _ => false

/-- Sets st.E, or st.P with the lowest position (R242). -/
def gathMark (st : BitVec 32) (i : Nat) (poison : Bool) : BitVec 32 :=
  if poison then (if st.getLsbD 0 then st else (BitVec.ofNat 32 (i % 2 ^ 16 * 2 ^ 16) ||| (st &&& 0xFFFF#32)) ||| 1#32) else st ||| 2#32

/-- How far a gather or a scatter has come: `pos` counts elements in list order. -/
structure GathRun where
  s    : State
  pos  : Nat
  acc  : List Wr
  st   : BitVec 32
  stop : Option Stop
  miss : Bool

/-- The rows of a gather or a scatter in list order, from the element where it stopped before (R232, R241-R244); it misses a part that has not
returned. -/
def gathLoop (c : Cmd) (fa fb cols : Nat) (base : Option Nat) : Nat → GathRun → GathRun
  | 0, g => g
  | fuel + 1, g =>
    let i := g.pos / cols
    let j := g.pos % cols
    let d := c.desc
    let scatter := c.op == .csct
    let place (g : GathRun) (s : State) (st : BitVec 32) (row : Nat) (vals : List Nat) (e : Option Stop) : GathRun :=
      let q := rowPlace (sideB d) fb row cols base vals s j []
      let g : GathRun := { g with s := q.1, pos := i * cols + q.2.1, acc := q.2.2.1 ++ g.acc, st := st }
      match q.2.2.2.or e with
      | some e => { g with stop := some e }
      | none => gathLoop c fa fb cols base fuel g
    let skip (s : State) (st : BitVec 32) : GathRun := gathLoop c fa fb cols base fuel { g with s := s, pos := (i + 1) * cols, st := st }
    let zeros : List Nat := List.replicate (cols - j) 0
    match g.s.gathRow c i with
    | (s, .error e) => { g with s := s, stop := some e }
    | (s, .ok .none) => if scatter then skip s g.st else place g s g.st i zeros none
    | (s, .ok .evicted) =>
      let st := gathMark g.st i false
      if scatter then skip s st else place g s st i zeros none
    | (s, .ok (.row r tent)) =>
      let here := match s.rowOwner (if scatter then sideB d else sideA d) (if scatter then fb else fa) r scatter with
        | some o => c.parts.getLsbD o.toNat
        | none => true
      if !here then { g with miss := true }
      else
        let q := rowRead c (sideA d) fa fb (if scatter then i else r) (cols - j) s j []
        if tent && !scatter && q.2.2.any Stop.isPoison then place g q.1 (gathMark g.st i true) i zeros none
        else place g q.1 g.st (if scatter then r else i) q.2.1 q.2.2

/-- A gather or a scatter performs in list order once every part it needs has returned (R241-R244). -/
def State.runGather (s : State) (c : Cmd) : State :=
  let d := c.desc
  if descEmpty d then s.runEmpty c
  else match s.resolveFmt (sideA d) false with
    | (s, .error e) => s.stopCmd c e
    | (s, .ok fa) =>
      match s.resolveFmt (sideB d) true with
      | (s, .error e) => s.stopCmd c e
      | (s, .ok fb) =>
        if !pairOk fa fb then s.failCmd c 0x0C 0 0x08
        else
          let go (s : State) (c : Cmd) (base : Option Nat) : State :=
            let g := gathLoop c fa fb (descCols d) base (descRows d - c.done / descCols d) ⟨s, c.done, [], c.gath, none, false⟩
            if g.miss then s.setCmd { c with st := .running }
            else (g.s.applyWrites c g.acc.reverse).settleCmd { c with done := g.pos, gath := g.st } g.stop
          match s.findSlot c fb with
          | .plain => go s c none
          | .waits => s
          | .tooLarge => s.failCmd c 0x0C 0 0x05
          | .taken k base s => go s { c with slot := some k } (some base)

/-- The issue checks on the companion descriptor (R240). -/
def companionCodes (d d2 : BitVec 256) : List Nat :=
  let list (x : Side) : List Nat := broken [(0x11, x.resv != 0), (0x14, x.apt || !(x.loc == 0 || x.loc == 3) || x.fmt != 3), (0x13, decide (x.addr % 4 ≠ 0))]
  list (sideAt d2 0 0)
    ++ (if gathRemap d then list (sideAt d2 2 0) else broken [(0x11, descWord d2 2 != 0 || descWord d2 3 != 0 || descWord d2 5 != 0)])
    ++ broken [(0x13, decide (descWord d2 6 % 4 ≠ 0)), (0x11, descWord d2 7 != 0 || decide (2 ^ 21 ≤ descWord d2 6))]

/-- The issue checks of CGTH and CSCT (R240, R241, R243). -/
def gathCodes (d d2 : BitVec 256) (la lb : List Nat) : List Nat :=
  sideCodes (sideA d) (descRows d) (descCols d) la ++ sideCodes (sideB d) (descRows d) (descCols d) lb
    ++ copyFmt (sideA d) false ++ copyFmt (sideB d) true ++ copyParam d 5 ++ companionCodes d d2

/-- A command whose companion descriptor would be Y16 is illegal (R240). -/
def State.needPair (s : State) (y : BitVec 4) : Verdict := ensure (y != 15) 0x01 s.wordVal

/-- CGTH (R240, R241). -/
def execCgth (cid pa pb : BitVec 6) (y : BitVec 4) (ret : RetAct) (s : State) : Out State :=
  let c := s.newCmd .cgth cid pa pb y ret
  s.issueCmd c (ret != .none) (s.needPair y) (gathCodes c.desc c.desc2 [3] [0, 1, 2, 3, 6] ++ rtgtCodes ret c.desc)

/-- CSCT (R240, R243). -/
def execCsct (cid pa pb : BitVec 6) (y : BitVec 4) (ret : RetAct) (s : State) : Out State :=
  let c := s.newCmd .csct cid pa pb y ret
  s.issueCmd c (ret != .none) (s.needPair y) (gathCodes c.desc c.desc2 [0, 2, 3] [3] ++ rtgtCodes ret c.desc)

/-! ### CQF (R245) -/

/-- The target of a CQF. -/
def cqfTarget (d : BitVec 256) : CoreRef := ⟨BitVec.ofNat 2 (descParam d / 2 ^ 8), BitVec.ofNat 8 (descParam d)⟩

/-- CQF at dispatch: it waits for room, then appends its counts as one unit (R245). -/
def State.runCqf (s : State) (c : Cmd) : State :=
  let d := c.desc
  let t := cqfTarget d
  if descEmpty d then s.setCmd { c with st := .running }
  else if !s.runsJob t s.job then s.failCmd c 0x0C 0 0x06
  else if 64 < (s.getCore t).regs.countQ.length + descCols d then s
  else match rowRead c (sideA d) 3 3 0 (descCols d) s 0 [] with
    | (s, _, some e) => s.stopCmd c e
    | (s, l, none) =>
      (s.onCore t fun x => { x with regs := { x.regs with countQ := x.regs.countQ ++ l.map (BitVec.ofNat 32) } }).setCmd { c with st := .running }

/-- The issue checks of CQF (R245): PARAM[15:10], which it leaves unused, has the lower code of R232's table (log 33). -/
def cqfCodes (d : BitVec 256) : List Nat :=
  sideCodes (sideA d) (descRows d) (descCols d) [0, 3]
    ++ broken [(0x11, decide (2 ^ 10 ≤ descParam d)), (0x14, descWord d 2 != 0 || descWord d 3 != 0 || descWord d 6 != 0), (0x14, (sideA d).fmt != 3), (0x14, !descEmpty d && (descRows d != 1 || decide (64 < descCols d))),
      (0x15, decide (143 < descParam d % 2 ^ 8))]

/-- CQF (R233, R245). -/
def execCqf (cid pa pb : BitVec 6) (y : BitVec 4) (ret : RetAct) (s : State) : Out State :=
  let c := s.newCmd .cqf cid pa pb y ret
  s.issueCmd c true .go (cqfCodes c.desc ++ rtgtCodes ret c.desc)

end Sys2Proof.Machine
end

