-- ==== Sys2Proof/Machine/Fuller.lean ====
section
/-! DEFINITION. The Fuller: groups, CCOL, quantisation, the tree of additions, chunks, the bad-chunk list and the completion word
(23_collectives). -/

namespace Sys2Proof.Machine

open Sys2Proof

/-! ### Groups (R386) -/

/-- A group is defined, and for this job. -/
def State.groupFor (s : State) (g : BitVec 6) (job : BitVec 6) : Bool :=
  let w := s.dev.fgrp[g.toNat]'(g.isLt)
  w.getLsbD 0 && decide (bits w 6 6 = job.toNat)

/-- Where a group's member table lies now (R380, R386). -/
def State.tableAt (s : State) (g : BitVec 6) : Nat := s.reaim ((s.dev.fgrp[g.toNat]'(g.isLt)).toNat / 2 ^ 12 % 2 ^ 40 * 2 ^ 12)

/-- The channel group of a member table is ready (R39). -/
def State.tableReady (s : State) (g : BitVec 6) : Bool := s.channelReady (s.tableAt g)

/-- The entries of a group's member table (R386); a count outside 1 to 256 leaves none. -/
def State.memberTable (s : State) (g : BitVec 6) : List (BitVec 16) :=
  let at_ := s.tableAt g
  let n := leNat (s.readPlain 0 at_ 4)
  if n = 0 ∨ 256 < n then [] else (List.range n).map fun i => BitVec.ofNat 16 (leNat (s.readPlain 0 (at_ + 8 + 2 * i) 2))

/-- The CRC-32C of a member table: its count, the reserved bytes and its entries (R386). -/
def tableCrc (t : List (BitVec 16)) : BitVec 32 :=
  crc32c (leBytes 4 t.length ++ [0, 0, 0, 0] ++ t.flatMap fun e => leBytes 2 e.toNat)

/-- A table entry names a die of this device (R205, R386). -/
def State.ownEntry (s : State) (e : BitVec 16) : Bool := s.dev.fabRank.getLsbD 8 && decide (bits e 8 8 = bits s.dev.fabRank 0 8)

/-- The rank of a die of this device in a group. -/
def State.rankOf (s : State) (t : List (BitVec 16)) (d : BitVec 2) : Option Nat :=
  (List.range t.length).find? fun i =>
    match t[i]? with
    | some e => s.ownEntry e && decide (bits e 0 2 = d.toNat)
    | none => false

/-! ### CCOL (R388, R389) -/

def ccolGroup (d : BitVec 256) : BitVec 6 := BitVec.ofNat 6 (descParam d / 8)
def ccolRaw (d : BitVec 256) : Bool := (descParam d).testBit 2
def ccolOp (d : BitVec 256) : BitVec 2 := BitVec.ofNat 2 (descParam d)

/-- The fields of the companion descriptor (R389). -/
def ccolList (d2 : BitVec 256) : Nat := descWord d2 0 + 2 ^ 32 * (descWord d2 1 % 2 ^ 16)
def ccolHasList (d2 : BitVec 256) : Bool := descWord d2 0 != 0 || descWord d2 1 != 0
def ccolWord (d2 : BitVec 256) : Nat := descWord d2 2 + 2 ^ 32 * (descWord d2 3 % 2 ^ 16)
def ccolSeq (d2 : BitVec 256) : Nat := descWord d2 4 + 2 ^ 32 * descWord d2 5

/-- The issue checks of CCOL (R225, R388, R389). -/
def ccolCodes (d d2 : BitVec 256) : List Nat :=
  let a := sideA d
  let b := sideB d
  let l := sideAt d2 0 0
  sideCodes a (descRows d) (descCols d) [0, 2, 3] ++ sideCodes b (descRows d) (descCols d) [0, 2, 3]
    ++ broken [(0x14, a.apt || b.apt || (a.fmt != 7 && a.fmt != 8) || (b.fmt != 7 && b.fmt != 8)),
      (0x14, decide (2 ^ 28 < descRows d * descCols d)), (0x11, decide (2 ^ 9 ≤ descParam d)), (0x15, ccolOp d == 3),
      (0x11, ccolHasList d2 && l.resv != 0), (0x14, ccolHasList d2 && (l.loc != 3 || l.fmt != 3 || l.apt)),
      (0x13, ccolHasList d2 && decide (l.addr % 4 ≠ 0)), (0x13, decide (ccolWord d2 % 8 ≠ 0)),
      (0x11, decide (2 ^ 19 ≤ descWord d2 3) || decide (5 < descWord d2 3 / 2 ^ 16 % 8) || decide (2 ^ 31 ≤ descWord d2 5) || descWord d2 7 != 0)]

/-- CCOL (R388, R389, R391). -/
def execCcol (cid pa pb : BitVec 6) (y : BitVec 4) (ret : RetAct) (s : State) : Out State :=
  let c := s.newCmd .ccol cid pa pb y ret
  s.issueCmd c true (.all [s.needFeature 2, s.needReady 19, s.needPair y]) (ccolCodes c.desc c.desc2 ++ rtgtCodes ret c.desc)

/-! ### Quantisation (R392) -/

/-- x / s, exact, rounded once into E4M3 with saturation. -/
def quotE4M3 (x s : Nat) : Nat :=
  match fFP32.value x, fFP32.value s with
  | .fin a m1 e1, .fin _ m2 e2 =>
    let n := m1 * 2 ^ 120
    (fE4M3.round .rne true 0 a (2 * (n / m2) + (if n % m2 = 0 then 0 else 1)) (e1 - e2 - 121)).1
  | _, _ => 0x7F

/-- quant: a block's scale and codes (R392). -/
def quantBlock (l : List Word32) : Word32 × List Nat :=
  let vals := l.map fun x => fFP32.value x.toNat
  if vals.any fun v => v.isNan || v.isInf then (0x7FC00000, l.map fun _ => 0x7F)
  else
    let a := (l.map fun x => x.toNat % 2 ^ 31).foldl Nat.max 0
    if a = 0 then (0x3F800000, l.map fun _ => 0x00)
    else
      let sc := Nat.max (fFP32.div a 0x43E00000).1 1
      (BitVec.ofNat 32 sc, l.map fun x => quotE4M3 x.toNat sc)

/-- expand: the FP32 values of a block (R392). -/
def expandBlock (q : Word32 × List Nat) : List Word32 := q.2.map fun c => BitVec.ofNat 32 (blockScale fFP32 (fE4M3.value c) q.1).1

/-- The blocks of 64 of a list, the last padded with +0 (R392), each quantised and expanded. -/
def requantAux : Nat → List Word32 → List Word32
  | 0, _ => []
  | fuel + 1, l =>
    if l.isEmpty then []
    else
      let b := l.take 64
      (expandBlock (quantBlock (b ++ List.replicate (64 - b.length) 0))).take b.length ++ requantAux fuel (l.drop 64)

/-- expand(quant(l)); in uncompressed mode the values themselves (R392). -/
def requant (raw : Bool) (l : List Word32) : List Word32 := if raw then l else requantAux (l.length / 64 + 1) l

/-! ### The tree (R393, R394) -/

/-- The ranks whose sums rank r adds, in order (R393). -/
def children (n r : Nat) : List Nat :=
  (List.range 8).filterMap fun j => if r % 2 ^ (j + 1) = 0 ∧ r + 2 ^ j < n then some (r + 2 ^ j) else none

/-- Elements of a chunk (R394). -/
def Episode.unit (e : Episode) : Nat := if e.raw then 1020 else 3840

/-- Elements of a contribution. -/
def Episode.total (e : Episode) : Nat := e.rows * e.cols

/-- Chunks of a contribution. -/
def Episode.chunkCount (e : Episode) : Nat := (e.total + e.unit - 1) / e.unit

/-- Elements of chunk k. -/
def Episode.chunkLen (e : Episode) (k : Nat) : Nat := Nat.min e.unit (e.total - e.unit * k)

/-- A member's own contribution in chunk k: expand(quant(α)), once α is read (R393). -/
def Episode.own (e : Episode) (k : Nat) : Option (List Word32) := e.data.map fun l => requant e.raw ((l.drop (e.unit * k)).take e.unit)

/-- A chunk that a member has received. -/
def Episode.got (e : Episode) (stage : Bool) (src k : Nat) : Option Chunk :=
  e.chunks.find? fun c => c.stage == stage && c.src == src && c.num == k

/-- The additions of a member in chunk k over the given ranks, the own sum on the left (R393). -/
def Episode.addUp (e : Episode) (k : Nat) : List Nat → List Word32 → Option (List Word32)
  | [], v => some v
  | c :: t, v =>
    match e.got false c k with
    | none => none
    | some x =>
      let sum := List.zipWith (fun a b => BitVec.ofNat 32 (fFP32.add a.toNat b.toNat).1) v x.data
      e.addUp k t (if e.rank = 0 then sum else requant e.raw sum)

/-- A member's sum in chunk k, once every chunk that it adds is here. -/
def Episode.sum (e : Episode) (k : Nat) : Option (List Word32) := (e.own k).bind (e.addUp k (children e.table.length e.rank))

/-- What a member sends: its sum toward rank 0, or what it distributes. -/
def Episode.sends (e : Episode) (stage : Bool) (k : Nat) : Option (List Word32) :=
  if !stage then e.sum k
  else if e.op = 2 then e.own k
  else (e.sum k).map (requant e.raw)

/-- A chunk that a member expects and has not yet received; one whose part has come to an end expects none (R390, R393). -/
def Episode.expects (e : Episode) (stage : Bool) (src k : Nat) : Bool :=
  !e.finished && decide (k < e.chunkCount) && (e.got stage src k).isNone &&
    (if stage then (if e.op = 2 then src != e.rank && decide (src < e.table.length) else e.rank != 0 && src == 0)
     else e.op != 2 && (children e.table.length e.rank).contains src)

/-- The episodes of all dies. -/
def State.allEpisodes (s : State) : List Episode := s.dies.toList.flatMap Die.fuller

/-- The data of a chunk as its sender forms it: a member on this device from its own episode, a member of another device as it
arrives; none while the sender has not come so far. -/
def State.chunkData (s : State) (e : Episode) (stage : Bool) (src k : Nat) (arrived : List Word32) : Option (List Word32) :=
  if s.ownEntry (e.table.getD src 0) then
    match s.allEpisodes.find? fun f => f.group == e.group && f.num == e.num && f.rank == src with
    | none => none
    | some f => f.sends stage k
  else some arrived

/-- A chunk as the episode that takes it keeps it: one that fails its check or is malformed is replaced by zeros (R394). -/
def Episode.check (e : Episode) (c : Chunk) : Chunk :=
  let ok := c.good && decide (c.data.length = e.chunkLen c.num)
  { c with good := ok, data := if ok then c.data else List.replicate (e.chunkLen c.num) 0 }

/-- A chunk reaches an episode, which keeps it as it is after its check (R394). -/
def State.receive (s : State) (e : Episode) (c : Chunk) : Option Chunk :=
  if !e.expects c.stage c.src c.num then none
  else (s.chunkData e c.stage c.src c.num c.data).map fun d => e.check { c with data := d }

/-- The first episode of a list that takes a chunk, and the chunk as it keeps it. -/
def State.receiveIn (s : State) (g : BitVec 6) (c : Chunk) : List Episode → Option (List Episode × Chunk)
  | [] => none
  | e :: t =>
    match (if e.group = g then s.receive e c else none) with
    | some c' => some ({ e with chunks := e.chunks ++ [c'] } :: t, c')
    | none => (s.receiveIn g c t).map fun r => (e :: r.1, r.2)

/-- The Fuller of a die takes a chunk that an episode expects; each chunk replaced counts (R400). -/
def State.takeChunk (s : State) (die : BitVec 2) (g : BitVec 6) (c : Chunk) : Option State :=
  (s.receiveIn g c (s.die die).fuller).map fun r =>
    let s := s.onDie die fun d => { d with fuller := r.1 }
    if r.2.good then s else s.dieEvent die 0x0D 1

/-- A chunk from a member on another device that no episode expects yet is held until its command dispatches here (R393, log 34); so is one whose sender
the member table cannot name yet (R39). -/
def State.heldEarly (s : State) (g : BitVec 6) (c : Chunk) : Bool :=
  (s.dev.fgrp[g.toNat]'(g.isLt)).getLsbD 0 && (!s.tableReady g || (match (s.memberTable g)[c.src]? with
    | none => false
    | some e => !s.ownEntry e))

/-- The chunks held for a group, in their order of arrival: those that an episode expects by now are taken (R393). -/
def State.takeEarly (die : BitVec 2) : List (BitVec 6 × Chunk) → List (BitVec 6 × Chunk) → State → State
  | [], kept, s => s.onDie die fun d => { d with early := kept.reverse }
  | x :: l, kept, s =>
    match s.takeChunk die x.1 x.2 with
    | some s => State.takeEarly die l kept s
    | none => State.takeEarly die l (x :: kept) s

/-- CHUNK_RECEIVE: the Fuller of a die receives a chunk and checks it, or holds one that arrives early (R393, R394). -/
def execChunkReceive (die : BitVec 2) (group : BitVec 6) (stage : Bool) (src : BitVec 8) (chunk : Nat) (good : Bool) (data : List (BitVec 32)) (s : State) :
    Out State :=
  let c : Chunk := ⟨stage, src.toNat, chunk, good, data⟩
  .next (match s.takeChunk die group c with
    | some s => s
    | none => if s.heldEarly group c then s.onDie die fun d => { d with early := d.early ++ [(group, c)] } else s)

/-! ### Results (R390, R393, R394) -/

/-- The lists of a list of options, joined; none when one is missing. -/
def joinAll {α : Type} : List (Option (List α)) → Option (List α)
  | [] => some []
  | none :: _ => none
  | some x :: t => (joinAll t).map (x ++ ·)

/-- What member i's block holds in an all-gather, or the sum (i = 0) as this member has it. -/
def Episode.block (e : Episode) (i : Nat) : Option (List Word32) :=
  joinAll ((List.range e.chunkCount).map fun k => if i = e.rank then e.sends true k else (e.got true i k).map Chunk.data)

/-- The elements of β for a member (R390); none while chunks are missing. -/
def Episode.result (e : Episode) : Option (List Word32) :=
  if e.op = 2 then joinAll ((List.range e.table.length).map e.block)
  else
    let kids := (children e.table.length e.rank).all fun c => (List.range e.chunkCount).all fun k => (e.got false c k).isSome
    if !kids then none
    else match e.block 0 with
      | none => none
      | some l =>
        if e.op = 1 then some ((l.drop (e.rank * (e.total / e.table.length))).take (e.total / e.table.length)) else some l

/-! ### Dispatch and retirement (R387, R390, R391, R395, R396) -/

/-- Reads α, widened (R388). -/
def ccolRead (c : Cmd) : Nat → State → Nat → List Word32 → State × Except Stop (List Word32)
  | 0, s, _, acc => (s, .ok acc.reverse)
  | fuel + 1, s, t, acc =>
    let a := sideA c.desc
    match s.readElem c a a.fmt (t / descCols c.desc) (t % descCols c.desc) with
    | (s, .error e) => (s, .error e)
    | (s, .ok x) =>
      let v := if a.fmt = 8 then x.raw else convertElt c .rne false 7 8 0 x
      ccolRead c fuel s (t + 1) (BitVec.ofNat 32 v :: acc)

/-- Two contributions to one episode agree (R390). -/
def Episode.agrees (a b : Episode) : Bool :=
  a.op == b.op && a.raw == b.raw && a.rows == b.rows && a.cols == b.cols && tableCrc a.table == tableCrc b.table

/-- A parked command of a suspended task fails: the trap is taken when the task runs again (R232, R387). -/
def Saved.failCmd (x : Saved) (code : Nat) (c : Cmd) : Saved :=
  let gone := dependants x.cmds [c.seqNo]
  { x with cmds := x.cmds.filter fun y => !gone.contains y.seqNo, reports := x.reports ++ [⟨0x0C, failVal c.eng c.cid 0 code⟩] }

/-- The outstanding CCOL commands that a test holds for fail, on every core and of every suspended task (R387, R390). -/
def State.failCcols (s : State) (hit : Cmd → Bool) (code : Nat) : State :=
  let pick (l : List Cmd) : List Cmd := l.filter fun c => c.op == .ccol && c.st != .acting && hit c
  let s := s.coreNums.foldl (fun s n => s.within (CoreRef.ofNum n) fun s => (pick s.core.cmds).foldl (fun s c => s.failCmd c 0x0C 0 code) s) s
  s.onDev fun d => { d with saved := d.saved.map fun x => (pick x.cmds).foldl (fun x c => x.failCmd code c) x }

/-- Every Fuller's episodes of a device, changed. -/
def State.onEpisodes (s : State) (f : Episode → Episode) : State :=
  (List.range 4).foldl (fun s d => s.onDie (BitVec.ofNat 2 d) fun x => { x with fuller := x.fuller.map f }) s

/-- Forgets an episode once every member on this device has contributed and no command waits for it. -/
def State.dropEpisode (s : State) (g : BitVec 6) (num : Nat) (t : List (BitVec 16)) : State :=
  let all := s.allEpisodes.filter fun f => f.group == g && f.num == num
  let mine := (List.range 4).filter fun d => (s.rankOf t (BitVec.ofNat 2 d)).isSome
  if all.all Episode.finished && decide (all.length = mine.length) then
    (List.range 4).foldl (fun s d => s.onDie (BitVec.ofNat 2 d) fun x =>
      { x with fuller := x.fuller.filter fun f => !(f.group == g && f.num == num) }) s
  else s

/-- Every member of an episode on this device fails (R390); what they asked for stays until every member has come. -/
def State.failEpisode (s : State) (g : BitVec 6) (num code : Nat) (t : List (BitVec 16)) : State :=
  let hit (e : Episode) : Bool := e.group == g && e.num == num
  let names := (s.allEpisodes.filter hit).map Episode.name
  let s := s.failCcols (fun c => names.any fun k => c.slot == some k) code
  (s.onEpisodes fun e => if hit e then { e with finished := true } else e).dropEpisode g num t

/-- A command's episode, at the Fuller that it reached. -/
def State.episodeOf (s : State) (c : Cmd) : Option Episode := s.allEpisodes.find? fun e => e.group == ccolGroup c.desc && c.slot == some e.name

/-- Writes β from element t on. -/
def ccolWrite (c : Cmd) : List Word32 → State → Nat → List Wr → State × Nat × List Wr × Option Stop
  | [], s, t, acc => (s, t, acc, none)
  | v :: l, s, t, acc =>
    let b := sideB c.desc
    let x := if b.fmt = 7 then (floatToFloat fFP32 fBF16 .rne false 0 v.toNat).1 else v.toNat
    match s.placeElem b b.fmt (t / descCols c.desc) (t % descCols c.desc) 0 none x with
    | (s, .error e) => (s, t, acc, some e)
    | (s, .ok w) => ccolWrite c l s (t + 1) (w.reverse ++ acc)

/-- CCOL at its first dispatch joins the group's next episode, whose members must agree (R387, R390); the model's answer for members on other devices
is `Config.remoteDiffers`, drawn for each episode by its first member here (log 34). A command without elements takes its place in the order and is done with it (R225, log 34). -/
def State.joinEpisode (s : State) (c : Cmd) (r : Nat) (t : List (BitVec 16)) : State :=
  let d := c.desc
  let g := ccolGroup d
  let num := Sparse.get 0 (s.die s.me.die).episodes g.toNat
  let name : Word32 := BitVec.ofNat 32 s.fresh
  let others := s.allEpisodes.filter fun f => f.group == g && f.num == num
  let apart := t.any (fun e => !s.ownEntry e) && ((others.head?.map Episode.apart).getD (Config.remoteDiffers g s.fresh))
  let e : Episode := ⟨g, num, name, r, descRows d, descCols d, ccolOp d, ccolRaw d, t, none, [], descEmpty d, apart⟩
  let s := { s with fresh := s.fresh + 1 }.onDie s.me.die fun x =>
    { x with fuller := x.fuller ++ [e], episodes := Sparse.set 0 x.episodes g.toNat (num + 1) }
  let s := s.setCmd { c with st := .running, slot := if descEmpty d then none else some name }
  if others.all e.agrees && !apart && !(e.op == 1 && decide (e.rows % t.length ≠ 0)) then State.takeEarly s.me.die (s.die s.me.die).early [] s
  else s.failEpisode g num 0x30 t

/-- α is read and becomes the member's contribution (R391). -/
def State.ccolLoad (s : State) (c : Cmd) (e : Episode) : State :=
  match ccolRead c (descRows c.desc * descCols c.desc) s 0 [] with
  | (s, .error x) => s.stopCmd c x
  | (s, .ok l) => (s.onEpisodes fun f => if f.name = e.name then { f with data := some l } else f).setCmd { c with st := .running, done := 1 }

/-- The pieces of a range of an operand at location 3, none across a granule. -/
def granules (va n : Nat) : List (Nat × Nat) :=
  let k := Nat.min n (2 ^ 16 - va % 2 ^ 16)
  if k = n then [(va, n)] else [(va, k), (va + k, n - k)]

/-- The writes of bytes at an address of location 3, each piece resolved and checked. -/
def State.engPlace (s : State) (fmt : Nat) : List (Nat × Nat) → List Byte → State × Except Stop (List Wr)
  | [], _ => (s, .ok [])
  | (va, n) :: l, bs =>
    match s.spot ⟨va, 0, false, fmt, 3, 0⟩ true va n with
    | (s, .error e) => (s, .error e)
    | (s, .ok p) =>
      if fmt ≠ 15 ∧ p.fmt ≠ 15 ∧ p.fmt ≠ fmt then (s, .error (.fail 0x0C p.va 0x01))
      else if fmt ≠ 15 ∧ p.geom ≠ 0 then (s, .error (.fail 0x0C p.va 0x07))
      else match State.engPlace s fmt l (bs.drop n) with
        | (s, .error e) => (s, .error e)
        | (s, .ok w) => (s, .ok ((((List.range n).zip bs).map fun e => { pa := p.pa + e.1, key := p.key, va := p.va, data := e.2, mask := 0xFF }) ++ w))

/-- Bytes written by an engine at an address of location 3. -/
def State.engWrite (s : State) (c : Cmd) (va fmt : Nat) (bs : List Byte) : State × Option Stop :=
  match s.engPlace fmt (granules va bs.length) bs with
  | (s, .error e) => (s, some e)
  | (s, .ok w) => (s.applyWrites c w, none)

/-- The bad chunks of a member in the order of its list (R395). -/
def Episode.bad (e : Episode) : List Chunk :=
  let n := e.table.length
  let all := [false, true].flatMap fun st => (List.range e.chunkCount).flatMap fun k => (List.range n).filterMap fun i => e.got st i k
  all.filter fun c => !c.good

/-- An entry of the bad-chunk list (R395). -/
def Chunk.entry (c : Chunk) : Nat := c.num % 2 ^ 32 + (if c.stage then 2 ^ 32 else 0) + c.src % 2 ^ 8 * 2 ^ 40

/-- Step j of the report on a command: an entry of the bad-chunk list and the count, for each chunk replaced (R395), and the completion word after
them (R396). -/
def State.reportStep (s : State) (c : Cmd) (bad : List Chunk) (j : Nat) : State × Option Stop :=
  let d2 := c.desc2
  let list := ccolList d2
  match bad[j / 2]? with
  | some x =>
    match s.readElem c ⟨list, 0, false, 3, 3, 0⟩ 3 0 0 with
    | (s, .error e) => (s, some e)
    | (s, .ok n) =>
      if j % 2 = 1 then s.engWrite c list 3 (leBytes 4 (n.raw + 1))
      else if n.raw < descWord d2 6 then s.engWrite c (list + 8 + 8 * n.raw) 3 (leBytes 8 x.entry)
      else (s, none)
  | none => if ccolWord d2 = 0 then (s, none) else s.engWrite c (ccolWord d2) 15 (leBytes 8 (ccolSeq d2))

/-- The steps of the report from j on; a step that stops is taken up again there (R232). -/
def State.reportFrom (c : Cmd) (bad : List Chunk) : Nat → Nat → State → State × Nat × Option Stop
  | 0, j, s => (s, j, none)
  | fuel + 1, j, s =>
    match s.reportStep c bad j with
    | (s, some e) => (s, j, some e)
    | (s, none) => State.reportFrom c bad fuel (j + 1) s

/-- β, the bad-chunk list and the completion word, once the result is here; `done` counts from α on (R391, R395, R396). -/
def State.ccolStore (s : State) (c : Cmd) (e : Episode) : State :=
  match e.result with
  | none => s.setCmd { c with st := .running }
  | some l =>
    let r := ccolWrite c (l.drop (c.done - 1)) s (Nat.min (c.done - 1) l.length) []
    let s := r.1.applyWrites c r.2.2.1.reverse
    match r.2.2.2 with
    | some x => s.stopCmd { c with done := r.2.1 + 1 } x
    | none =>
      let bad := if ccolHasList c.desc2 then e.bad else []
      let j := c.done - 1 - l.length
      let q := State.reportFrom c bad (2 * bad.length + 1 - j) j s
      q.1.settleCmd { c with done := l.length + 1 + q.2.1 } q.2.2

/-- A member has written all that its command writes. -/
def Episode.wrote (e : Episode) (c : Cmd) : Bool :=
  match e.result with
  | none => false
  | some l => decide (c.done = l.length + 2 + 2 * (if ccolHasList c.desc2 then e.bad.length else 0))

/-- CCOL goes on, from where it stopped: α is read, then β, the list and the completion word are written (R391). -/
def State.ccolGo (s : State) (c : Cmd) : State :=
  match s.episodeOf c with
  | none => s
  | some e => if c.done = 0 then s.ccolLoad c e else s.ccolStore c e

/-- CCOL at dispatch: it reaches the Fuller, or a stopped one goes on (R387, R390). It waits while the member table's channel group is not ready
(R39). -/
def State.runCcol (s : State) (c : Cmd) : State :=
  if c.slot.isSome then s.ccolGo c
  else
    let g := ccolGroup c.desc
    if s.groupFor g s.job && !s.tableReady g then s
    else
    let t := s.memberTable g
    match (if s.groupFor g s.job then s.rankOf t s.me.die else none) with
    | some r => s.joinEpisode c r t
    | none => if descEmpty c.desc then s.setCmd { c with st := .running } else s.failCmd c 0x0C 0 0x31

/-- A CCOL retires once β, the list and the completion word are written; its retire action follows (R391, R396). A command without elements retires
without access (R225). -/
def State.retireCcol (s : State) (c : Cmd) : State :=
  if descEmpty c.desc then s.retireCmd c
  else match s.episodeOf c with
    | none => s
    | some e =>
      if !e.wrote c then s.ccolGo c
      else
        let s := s.onEpisodes fun f => if f.name = e.name then { f with finished := true } else f
        (s.dropEpisode e.group e.num e.table).retireCmd { c with slot := none }

/-- Clearing EN fails every outstanding CCOL of the group and forgets its episodes and the chunks held for it (R387). -/
def State.clearGroup (s : State) (g : BitVec 6) : State :=
  (List.range 4).foldl (fun s d => s.onDie (BitVec.ofNat 2 d) fun x =>
    { x with fuller := x.fuller.filter fun e => e.group != g, early := x.early.filter fun e => e.1 != g, episodes := Sparse.set 0 x.episodes g.toNat 0 })
    (s.failCcols (fun c => ccolGroup c.desc == g) 0x31)

end Sys2Proof.Machine
end

