-- ==== Sys2Proof/Machine/Matrix.lean ====
section
/-! DEFINITION. The matrix engine (R247-R268): weight banks, pattern operands, products with their exact arithmetic, and handing
tile rows to the vector side. -/

namespace Sys2Proof.Machine

open Sys2Proof

/-! ### Weight banks (R247, R257, R258) -/

/-- The column capacity of a bank of a format (R247). -/
def bankCap (fmt : Nat) : Option Nat :=
  if fmt = 8 then some 64 else if fmt = 9 ∨ fmt = 10 then some 32 else if fmt = 11 then some 16
  else if fmt ≤ 7 ∧ fmt ≠ 3 ∨ fmt = 13 then some 128 else none

/-- A piece of 64 bytes of a bank row. -/
def rowPiece (v : BitVec 2048) (q : Nat) : BitVec 512 := v.extractLsb' (512 * q) 512

/-- Writes a bank row; the journal records the units of it that the write touches (R373). -/
def Core.bankWrite (x : Core) (b row : Nat) (units : List Nat) (v : BitVec 2048) : Core :=
  let k := b * 128 + row
  let old := Sparse.get 0 x.bankRow k
  let x := units.foldl (fun x q => x.record (.bank (4 * k + q) (rowPiece old q))) x
  { x with bankRow := Sparse.set 0 x.bankRow k v }

/-- Clears a bank row: the units that hold something are touched (log 63). -/
def Core.bankClear (x : Core) (k : Nat) : Core :=
  x.bankWrite (k / 128) (k % 128) ((List.range 4).filter fun q => rowPiece (Sparse.get 0 x.bankRow k) q != 0) 0

/-- Clears a bank and records its format and column count. -/
def Core.bankOpen (x : Core) (b : BitVec 2) (fmt : Fmt) (nb : Nat) : Core :=
  let x := ((x.bankRow.map Prod.fst).filter fun k => k / 128 == b.toNat).foldl Core.bankClear x
  { x with regs := { x.regs with bank := x.regs.bank.set b.toNat ⟨fmt, nb⟩ b.isLt } }

/-- An element with the sign of its imaginary part inverted (R257). -/
def conjElt (fmt x : Nat) : Nat := if fmt = 10 then x ^^^ 2 ^ 63 else if fmt = 11 then x ^^^ 2 ^ 127 else x

/-- 1 in a bank format (R258). -/
def oneIn (fmt : Nat) : Nat :=
  match Fmt.ofCode? fmt with
  | some .cf32 => fFP32.one false
  | some .cf64 => fFP64.one false
  | some f => match fmtFloat f with
    | some g => g.one false
    | none => 1
  | none => 1

/-- Fields of an MLDW's PARAM (R257). -/
def mldwMode (d : BitVec 256) : Nat := descParam d % 4
def mldwConj (d : BitVec 256) : Bool := (descParam d).testBit 2
def mldwOhw (d : BitVec 256) : Nat := descParam d / 8 % 128
def mldwRnd (d : BitVec 256) : Nat := descParam d / 2 ^ 10 % 8
def mldwSat (d : BitVec 256) : Bool := (descParam d).testBit 13

/-- Rows and columns that an MLDW loads (R258). -/
def mldwShape (d : BitVec 256) : Nat × Nat :=
  if mldwMode d = 1 then (descCols d, descRows d)
  else if mldwMode d = 2 then (descRows d, mldwOhw d + 1)
  else (descRows d, descCols d)

/-- One source row of an MLDW, converted (R258). -/
def mldwRead (c : Cmd) (fa fb i : Nat) : Nat → State → Nat → List Nat → State × Except Stop (List Nat)
  | 0, s, _, acc => (s, .ok acc.reverse)
  | fuel + 1, s, j, acc =>
    match s.readElem c (sideA c.desc) fa i j with
    | (s, .error e) => (s, .error e)
    | (s, .ok e) =>
      let v := convertElt c (paramRnd (mldwRnd c.desc)) (mldwSat c.desc) fa fb j e
      mldwRead c fa fb i fuel s (j + 1) ((if mldwConj c.desc then conjElt fb v else v) :: acc)

/-- A bank row from its elements. -/
def bankPack (fmt : Nat) (l : List Nat) : BitVec 2048 := BitVec.ofNat 2048 (joinBits (codeBits fmt) l)

/-- Writes row k of a load; the first row of a load at row 0 clears the bank (R252, R258). -/
def State.mldwPut (s : State) (c : Cmd) (fb k : Nat) (vals : List Nat) : State :=
  let b := (sideB c.desc).addr
  let bank : BitVec 2 := BitVec.ofNat 2 (b / 256)
  let x := if k = 0 ∧ b % 128 = 0 then s.core.bankOpen bank ((Fmt.ofCode? fb).getD .int8) (mldwShape c.desc).2 else s.core
  { s with core := x.bankWrite bank.toNat (b % 128 + k) (List.range ((vals.length * codeBits fb + 511) / 512)) (bankPack fb vals) }

/-- The rows of a straight or one-hot load, from row k on. -/
def mldwLoop (c : Cmd) (fa fb : Nat) : Nat → State → Nat → Bool → State × Nat × Bool × Option Stop
  | 0, s, k, oh => (s, k, oh, none)
  | fuel + 1, s, k, oh =>
    let d := c.desc
    if mldwMode d = 2 then
      match s.readElem c (sideA d) 3 k 0 with
      | (s, .error e) => (s, k, oh, some e)
      | (s, .ok e) =>
        let nn := (mldwShape d).2
        let vals := (List.range nn).map fun n => if e.raw = n then oneIn fb else 0
        let vals := if mldwConj d then vals.map (conjElt fb) else vals
        mldwLoop c fa fb fuel (s.mldwPut c fb k vals) (k + 1) (oh || (decide (nn ≤ e.raw) && e.raw != 0xFFFFFFFF))
    else match mldwRead c fa fb k (descCols d) s 0 [] with
      | (s, .error e) => (s, k, oh, some e)
      | (s, .ok vals) => mldwLoop c fa fb fuel (s.mldwPut c fb k vals) (k + 1) oh

/-- The source rows of a transposing load, all read before any write (R252). -/
def mldwGather (c : Cmd) (fa fb : Nat) : Nat → State → Nat → List (List Nat) → State × Except Stop (List (List Nat))
  | 0, s, _, acc => (s, .ok acc.reverse)
  | fuel + 1, s, i, acc =>
    match mldwRead c fa fb i (descCols c.desc) s 0 [] with
    | (s, .error e) => (s, .error e)
    | (s, .ok r) => mldwGather c fa fb fuel s (i + 1) (r :: acc)

/-- MLDW at dispatch (R252, R258). -/
def State.runMldw (s : State) (c : Cmd) : State :=
  let d := c.desc
  let b := sideB d
  if descEmpty d then s.setCmd { c with st := .running }
  else
    let bank : BitVec 2 := BitVec.ofNat 2 (b.addr / 256)
    let info := s.core.regs.bank[bank.toNat]'(bank.isLt)
    let bad := decide (b.addr % 128 ≠ 0) && (Fmt.ofCode? b.fmt != some info.fmt || info.nb != (mldwShape d).2)
    if bad then s.failCmd c 0x0C 0 0x20
    else match s.resolveFmt (sideA d) false with
      | (s, .error e) => s.stopCmd c e
      | (s, .ok fa) =>
        if mldwMode d ≠ 2 ∧ !pairOk fa b.fmt then s.failCmd c 0x0C 0 0x08
        else if mldwMode d = 1 then
          match mldwGather c fa b.fmt (descRows d) s 0 [] with
          | (s, .error e) => s.stopCmd c e
          | (s, .ok rows) =>
            ((List.range (descCols d)).foldl (fun s k => s.mldwPut c b.fmt k (rows.map fun r => r.getD k 0)) s).setCmd { c with st := .running }
        else
          let r := mldwLoop c fa b.fmt (descRows d - c.done) s c.done c.ohrange
          r.1.settleCmd { c with done := r.2.1, ohrange := r.2.2.1 } r.2.2.2

/-- The issue checks of MLDW (R257). -/
def mldwCodes (d : BitVec 256) : List Nat :=
  let a := sideA d
  let b := sideB d
  let sh := mldwShape d
  sideCodes a (descRows d) (descCols d) [0, 3, 4] ++ sideCodes b 0 0 [5]
    ++ broken [(0x11, decide (2 ^ 14 ≤ descParam d) || (mldwMode d != 2 && mldwOhw d != 0)),
      (0x14, (bankCap b.fmt).isNone), (0x14, mldwConj d && b.fmt != 10 && b.fmt != 11), (0x14, a.loc == 4 && a.fmt != 3 && a.fmt != 8),
      (0x14, mldwMode d == 2 && (a.fmt != 3 || (!descEmpty d && descCols d != 1))),
      (0x15, mldwMode d == 3 || decide (4 < mldwRnd d)),
      (0x14, !descEmpty d && (decide (128 < b.addr % 128 + sh.1) || decide ((bankCap b.fmt).getD 128 < sh.2)))]

/-- MLDW (R257). -/
def execMldw (cid pa pb : BitVec 6) (y : BitVec 4) (ret : RetAct) (s : State) : Out State :=
  let c := s.newCmd .mldw cid pa pb y ret
  s.issueCmd c (ret != .none) .go (mldwCodes c.desc ++ rtgtCodes ret c.desc)

/-! ### Formed operands (R254-R256) -/

/-- Whether the rule of a pattern holds at (p, q) (R255). -/
def patternRule (kind p q a b nc : Nat) : Bool :=
  match kind with
  | 1 => true
  | 2 => q == p
  | 3 => decide (q ≤ p)
  | 4 => decide (q < p)
  | 5 => decide (p ≤ q)
  | 6 => decide (p < q)
  | 7 => q == (p + a) % nc
  | 8 => q + p + 1 == nc
  | 9 => decide (p ≤ q + a) && decide (q ≤ p + b)
  | 10 => q == a
  | 11 => q == b * p + a
  | 12 => p / a == q / a
  | 13 => p / a == q / a && decide (q ≤ p)
  | _ => false

/-- Entry (i, j) of a pattern register: 0, 1 or −1 (R254, R255). -/
def patternAt (g : Word) (i j : Nat) : Int :=
  let tr := g.getLsbD 36
  let p := if tr then j else i
  let q := if tr then i else j
  if patternRule (bits g 0 4) p q (bits g 20 8) (bits g 28 8) (bits g 12 8 + 1) then (if g.getLsbD 37 then -1 else 1) else 0

/-- A value that GSET takes (R256). -/
def patternOk (g : Word) : Bool :=
  let k := bits g 0 4
  decide (bits g 38 26 = 0) && k != 0 && decide (k < 14) && decide (bits g 4 8 ≤ 127) && decide (bits g 12 8 ≤ 127)
    && (decide (k < 12) || decide (bits g 20 8 ≠ 0))

/-- GSET (R256). -/
def execGset (a : BitVec 5) (ta : Bool) (g : BitVec 4) (s : State) : Out State :=
  s.issueWith ((s.needS a ta).and (ensure (patternOk (s.s a)) 0x01 (s.s a))) fun s => s.send 1 (.g g (s.s a))

/-! ### Terms and folds (R263-R265) -/

/-- An entry of A: none for a formed 0. -/
inductive AElt where
  | none
  | one (neg : Bool)
  | elt (raw : Nat)
  deriving DecidableEq, Repr

/-- A real term: its exact value, and whether it is invalid (R264, R266). -/
abbrev Term := Option (FVal × Bool)

/-- The exact product of two values. -/
def termOf (a b : FVal) (neg : Bool) : Term :=
  let s := (a.neg? != b.neg?) != neg
  let inv := a.isSnan || b.isSnan
  if a.isNan || b.isNan then some (.nan false true 0, inv)
  else if (a.isInf && b.isZero) || (a.isZero && b.isInf) then some (.nan false true 0, true)
  else match a, b with
    | .fin _ m1 e1, .fin _ m2 e2 => some (.fin s (m1 * m2) (e1 + e2), inv)
    | _, _ => some (.inf s, inv)

/-- The exact sum of a fold in its window, whether it is invalid and whether bits were discarded (R264, R266). -/
def foldSum (w : Nat) (p : List FVal) : FVal × Bool × Bool :=
  let pos := p.any fun v => v.isInf && !v.neg?
  let neg := p.any fun v => v.isInf && v.neg?
  if p.any FVal.isNan then (.nan false true 0, pos && neg, false)
  else if pos && neg then (.nan false true 0, true, false)
  else if pos || neg then (.inf neg, false, false)
  else
    let nz := p.filterMap fun v => match v with
      | .fin s m e => if m = 0 then none else some (s, m, e)
      | _ => none
    match nz with
    | [] => (.fin (p.all FVal.neg?) 0 0, false, false)
    | x :: t =>
      let top (y : Bool × Nat × Int) : Int := (Nat.log2 y.2.1 : Int) + y.2.2
      let e := t.foldl (fun acc y => max acc (top y)) (top x)
      let q := e - w + 1
      let r := nz.foldl (fun (acc : Int × Bool) y =>
        let z := scaleTo y.2.1 y.2.2 q
        (if y.1 then acc.1 - z.1 else acc.1 + z.1, acc.2 || z.2.1 != 0)) (0, false)
      (.fin (decide (r.1 < 0)) r.1.natAbs q, false, r.2)

/-- A pattern with any NaN made canonical (R264). -/
def FloatFmt.canon (f : FloatFmt) (x : Nat) : Nat := if (f.value x).isNan then f.cnan else x

/-- A fold sum rounded into the accumulator format. -/
def FloatFmt.ofSum (f : FloatFmt) (v : FVal) : Nat × Flags :=
  match v with
  | .nan _ _ _ => (f.cnan, 0)
  | .inf s => (f.infBits s, 0)
  | .fin s m e => f.rne s m e

/-- Lists cut after every n entries. -/
def chunks {α : Type} (n : Nat) : Nat → List α → List (List α)
  | 0, _ => []
  | fuel + 1, l => if l.isEmpty then [] else l.take n :: chunks n fuel (l.drop n)

/-- One part of an output element: the accumulated value and its flags (R264). -/
def accumulate (f : FloatFmt) (w : Nat) (c0 : Option Nat) (terms : List Term) : Nat × TFlags :=
  let fl0 : TFlags := match c0 with
    | some c => if (f.value c).isSnan then 1 else 0
    | none => 0
  let r := (chunks 32 terms.length terms).foldl (fun (acc : Option Nat × TFlags) fold =>
    let p := fold.filterMap id
    if p.isEmpty then acc
    else
      let fs := foldSum w (p.map Prod.fst)
      let s := f.ofSum fs.1
      let fl := acc.2 ||| (if fs.2.1 || p.any Prod.snd then 1 else 0) ||| (if fs.2.2 then 4 else 0) ||| tflagsOf s.2
      match acc.1 with
      | none => (some s.1, fl)
      | some c => let z := f.add c s.1; (some (f.canon z.1), fl ||| tflagsOf z.2)) (c0, fl0)
  (match r.1 with
    | none => 0
    | some c => f.canon c, r.2)

/-! ### Products (R259-R266) -/

/-- Fields of a product's PARAM (R259). -/
def prodBank (d : BitVec 256) : Nat := descParam d / 16 % 4
def prodAcc (d : BitVec 256) : Bool := (descParam d).testBit 6
def prodSat (d : BitVec 256) : Bool := (descParam d).testBit 7
def prodConjA (d : BitVec 256) : Bool := (descParam d).testBit 8
def prodConjB (d : BitVec 256) : Bool := (descParam d).testBit 9

/-- An accepted combination of formats (R261); `fa` is none for a formed A. -/
def prodPair (fa : Option Nat) (bank fb : Nat) : Bool :=
  let inA (l : List Nat) : Bool := match fa with
    | none => true
    | some x => l.contains x
  if fb = 3 then inA [13, 0, 1] && [13, 0, 1, 2].contains bank
  else if fb = 8 then inA [4, 5, 6, 7, 8] && [4, 5, 6, 7, 8].contains bank
  else if fb = 9 ∨ fb = 10 ∨ fb = 11 then inA [fb] && bank == fb
  else false

/-- An element of the bank. -/
def Core.bankElt (x : Core) (b fmt row col : Nat) : Nat :=
  ((Sparse.get 0 x.bankRow (b * 128 + row)).toNat >>> (codeBits fmt * col)) % 2 ^ codeBits fmt

/-- A word of a tile. -/
def Core.tileWord (x : Core) (t row col : Nat) : Nat := (Sparse.get 0 x.tiles (t * 16384 + row * 128 + col)).toNat

/-- The signed value of an integer element. -/
def intElt (fmt x : Nat) : Int := if fmt = 1 then (x : Int) else sintOf (codeBits fmt) x

/-- The exact value of a real float element. -/
def realElt (fmt x : Nat) : FVal := exactOf ((Fmt.ofCode? fmt).getD .fp32) x

/-- An integer output element: the word and whether saturation changed it (R263). -/
def prodInt (x : Core) (d : BitVec 256) (fa bank : Nat) (a : List AElt) (old : Nat) (j : Nat) : Nat × TFlags :=
  let acc0 : Int := if prodAcc d then sintOf 32 old else 0
  let acc := ((List.range a.length).zip a).foldl (fun (acc : Int) e =>
    let b := intElt bank (x.bankElt (prodBank d) bank e.1 j)
    match e.2 with
    | .none => acc
    | .one neg => if neg then acc - b else acc + b
    | .elt raw => acc + intElt fa raw * b) acc0
  if prodSat d then
    let v := clampInt (-2 ^ 31) (2 ^ 31 - 1) acc
    (intBits 32 v, if v = acc then 0 else 8)
  else (intBits 32 acc, 0)

/-- The terms of a real output element (R264). -/
def prodTerms (x : Core) (d : BitVec 256) (fa bank : Nat) (a : List AElt) (j : Nat) : List Term :=
  ((List.range a.length).zip a).map fun e =>
    let b := realElt bank (x.bankElt (prodBank d) bank e.1 j)
    match e.2 with
    | .none => none
    | .one neg => termOf (.fin neg 1 0) b false
    | .elt raw => termOf (realElt fa raw) b false

/-- The real and imaginary parts of a complex element (R164). -/
def cplxPart (f : FloatFmt) (x : Nat) (im : Bool) : FVal := f.value (if im then x / 2 ^ f.width % 2 ^ f.width else x % 2 ^ f.width)

/-- A value with its sign inverted, when asked. -/
def FVal.negIf (c : Bool) : FVal → FVal
  | .nan s q p => .nan s q p
  | .inf s => .inf (s != c)
  | .fin s m e => .fin (s != c) m e

/-- The terms of one part of a complex output element (R265). -/
def prodCplx (x : Core) (d : BitVec 256) (f : FloatFmt) (bank : Nat) (a : List AElt) (j : Nat) (im : Bool) : List Term :=
  ((List.range a.length).zip a).flatMap fun e =>
    let b := x.bankElt (prodBank d) bank e.1 j
    let br := cplxPart f b false
    let bi := FVal.negIf (prodConjB d) (cplxPart f b true)
    match e.2 with
    | .none => [none]
    | .one neg => [termOf (.fin neg 1 0) (if im then bi else br) false]
    | .elt raw =>
      let ar := cplxPart f raw false
      let ai := FVal.negIf (prodConjA d) (cplxPart f raw true)
      if im then [termOf ar bi false, termOf ai br false] else [termOf ar br false, termOf ai bi true]

/-- The words that an output row writes, and its flags (R249, R263-R266). -/
def prodRow (x : Core) (d : BitVec 256) (fa bank nb : Nat) (a : List AElt) (i : Nat) : List (Nat × Word32) × TFlags :=
  let b := sideB d
  let t := b.tile
  let r := b.row0 + i
  let key (t c : Nat) : Nat := t * 16384 + r * 128 + c
  let acc (v : Nat) : Option Nat := if prodAcc d then some v else none
  let res := (List.range nb).map fun j =>
    let c := b.col0 + j
    if b.fmt = 3 then
      let z := prodInt x d fa bank a (x.tileWord t r c) j
      ([(key t c, BitVec.ofNat 32 z.1)], z.2)
    else if b.fmt = 8 then
      let z := accumulate fFP32 64 (acc (x.tileWord t r c)) (prodTerms x d fa bank a j)
      ([(key t c, BitVec.ofNat 32 z.1)], z.2)
    else if b.fmt = 9 then
      let z := accumulate fFP64 128 (acc (x.tileWord t r c + 2 ^ 32 * x.tileWord (t + 1) r c)) (prodTerms x d fa bank a j)
      ([(key t c, BitVec.ofNat 32 z.1), (key (t + 1) c, BitVec.ofNat 32 (z.1 / 2 ^ 32))], z.2)
    else if b.fmt = 10 then
      let zr := accumulate fFP32 64 (acc (x.tileWord t r c)) (prodCplx x d fFP32 bank a j false)
      let zi := accumulate fFP32 64 (acc (x.tileWord (t + 1) r c)) (prodCplx x d fFP32 bank a j true)
      ([(key t c, BitVec.ofNat 32 zr.1), (key (t + 1) c, BitVec.ofNat 32 zi.1)], zr.2 ||| zi.2)
    else
      let cr := b.col0 + 2 * j
      let old (c : Nat) : Nat := x.tileWord t r c + 2 ^ 32 * x.tileWord (t + 1) r c
      let zr := accumulate fFP64 128 (acc (old cr)) (prodCplx x d fFP64 bank a j false)
      let zi := accumulate fFP64 128 (acc (old (cr + 1))) (prodCplx x d fFP64 bank a j true)
      ([(key t cr, BitVec.ofNat 32 zr.1), (key (t + 1) cr, BitVec.ofNat 32 (zr.1 / 2 ^ 32)),
        (key t (cr + 1), BitVec.ofNat 32 zi.1), (key (t + 1) (cr + 1), BitVec.ofNat 32 (zi.1 / 2 ^ 32))], zr.2 ||| zi.2)
  (res.flatMap Prod.fst, res.foldl (fun fl z => fl ||| z.2) 0)

/-- The stored elements of a row of A. -/
def rowElts (c : Cmd) (fmt i : Nat) : Nat → State → Nat → List AElt → State × Except Stop (List AElt)
  | 0, s, _, acc => (s, .ok acc.reverse)
  | fuel + 1, s, k, acc =>
    match s.readElem c (sideA c.desc) fmt i k with
    | (s, .error e) => (s, .error e)
    | (s, .ok e) => rowElts c fmt i fuel s (k + 1) (.elt e.raw :: acc)

/-- Row i of A (R260), and whether a one-hot index lies beyond the width. -/
def State.rowOfA (s : State) (c : Cmd) (i : Nat) : State × Except Stop (List AElt × Bool) :=
  let d := c.desc
  let k := descCols d
  match c.op with
  | .mmag => (s, .ok ((List.range k).map fun j =>
      let v := patternAt c.gPat i j
      if v = 0 then .none else .one (decide (v < 0)), false))
  | .mmah =>
    match s.readElem c (sideA d) 3 i 0 with
    | (s, .error e) => (s, .error e)
    | (s, .ok e) =>
      (s, .ok ((List.range k).map fun j => if e.raw = j then .one false else .none, decide (k ≤ e.raw) && e.raw != 0xFFFFFFFF))
  | _ =>
    match rowElts c (sideA d).fmt i k s 0 [] with
    | (s, .error e) => (s, .error e)
    | (s, .ok l) => (s, .ok (l, false))

/-- The output rows of a product, in increasing row (R252, R263-R266). -/
def prodLoop (c : Cmd) (bank nb : Nat) : Nat → State → Cmd → State × Cmd × Option Stop
  | 0, s, q => (s, q, none)
  | fuel + 1, s, q =>
    match s.rowOfA c q.done with
    | (s, .error e) => (s, q, some e)
    | (s, .ok (a, oh)) =>
      let r := prodRow s.core c.desc (sideA c.desc).fmt bank nb a q.done
      prodLoop c bank nb fuel { s with core := r.1.foldl (fun x w => x.tileWrite w.1 w.2) s.core }
        { q with done := q.done + 1, tflags := q.tflags ||| r.2, ohrange := q.ohrange || oh }

/-- A product at dispatch (R252, R259-R266). -/
def State.runProduct (s : State) (c : Cmd) : State :=
  let d := c.desc
  let b := sideB d
  if descEmpty d then s.setCmd { c with st := .running }
  else
    let n : BitVec 2 := BitVec.ofNat 2 (prodBank d)
    let info := s.core.regs.bank[n.toNat]'(n.isLt)
    let bank := Fmt.code info.fmt
    if info.nb = 0 then s.failCmd c 0x0C 0 0x21
    else if !prodPair (if c.op = .mma then some (sideA d).fmt else none) bank b.fmt then s.failCmd c 0x0C 0 0x20
    else if (prodConjA d || prodConjB d) && b.fmt != 10 && b.fmt != 11 then s.failCmd c 0x0C 0 0x20
    else if 128 < b.col0 + (if b.fmt = 11 then 2 * info.nb else info.nb) then s.failCmd c 0x0C 0 0x21
    else
      let r := prodLoop c bank info.nb (descRows d - c.done) s c
      r.1.settleCmd r.2.1 r.2.2

/-- The issue checks that the products share (R259, R260). -/
def prodCodes (s : State) (op : CmdOp) (d : BitVec 256) : List Nat :=
  let a := sideA d
  let b := sideB d
  let m := descRows d
  let k := descCols d
  let p := descParam d
  let live := !descEmpty d
  let g := (s.core.regs.g.toList).getD (p % 16) 0
  let last : Int := (a.addr : Int) + ((m : Int) - 1) * a.stride
  let size : Int := if op = .mmah then 4 else ((k * codeBits a.fmt + 7) / 8 : Nat)
  (if op = .mmag then broken [(0x11, descWord d 0 != 0 || descWord d 1 != 0 || descWord d 5 != 0)] else sideCodes a m k [0])
    ++ sideCodes b m 0 [4]
    ++ broken [(0x11, decide (2 ^ 10 ≤ p) || (op != .mma && prodConjA d) || (op != .mmag && decide (p % 16 ≠ 0))),
      (0x14, decide (9 ≤ b.fmt ∧ b.fmt ≤ 11) && decide (b.tile % 2 = 1)),
      (0x14, live && (decide (128 < m) || decide (128 < k) || decide (128 < b.row0 + m))),
      (0x14, op == .mma && !([0, 1, 4, 5, 6, 7, 8, 9, 10, 11, 13].contains a.fmt)),
      (0x14, op == .mmah && a.fmt != 3),
      (0x14, op != .mmag && live && (decide (min (a.addr : Int) last < 0) || decide ((s.core.window false : Int) < max (a.addr : Int) last + size))),
      (0x15, op == .mmag && live && (m != bits g 4 8 + 1 || k != bits g 12 8 + 1))]

/-- MMA (R260). -/
def execMma (cid pa pb : BitVec 6) (y : BitVec 4) (ret : RetAct) (s : State) : Out State :=
  let c := s.newCmd .mma cid pa pb y ret
  s.issueCmd c (ret != .none) .go (prodCodes s .mma c.desc ++ rtgtCodes ret c.desc)

/-- MMAG (R260): the pattern register is read at issue. -/
def execMmag (cid pa pb : BitVec 6) (y : BitVec 4) (ret : RetAct) (s : State) : Out State :=
  let c := s.newCmd .mmag cid pa pb y ret
  s.issueCmd c (ret != .none) .go (prodCodes s .mmag c.desc ++ rtgtCodes ret c.desc)

/-- MMAH (R260). -/
def execMmah (cid pa pb : BitVec 6) (y : BitVec 4) (ret : RetAct) (s : State) : Out State :=
  let c := s.newCmd .mmah cid pa pb y ret
  s.issueCmd c (ret != .none) .go (prodCodes s .mmah c.desc ++ rtgtCodes ret c.desc)

/-! ### MZERO (R262) -/

/-- MZERO at dispatch. -/
def State.runMzero (s : State) (c : Cmd) : State :=
  let b := sideB c.desc
  let keys := (List.range (descRows c.desc)).flatMap fun i =>
    (List.range (descCols c.desc)).map fun j => b.tile * 16384 + (b.row0 + i) * 128 + b.col0 + j
  { s with core := keys.foldl (fun x k => x.tileWrite k 0) s.core }.setCmd { c with st := .running }

/-- The issue checks of MZERO (R262). -/
def mzeroCodes (d : BitVec 256) : List Nat :=
  let b := sideB d
  sideCodes b (descRows d) (descCols d) [4]
    ++ broken [(0x11, descWord d 0 != 0 || descWord d 1 != 0 || descWord d 5 != 0 || descParam d != 0), (0x14, b.fmt != 3 && b.fmt != 8)]

/-- MZERO (R262). -/
def execMzero (cid pa pb : BitVec 6) (y : BitVec 4) (ret : RetAct) (s : State) : Out State :=
  let c := s.newCmd .mzero cid pa pb y ret
  s.issueCmd c (ret != .none) .go (mzeroCodes c.desc ++ rtgtCodes ret c.desc)

/-! ### MHAND (R131, R268) -/

/-- Rows that a conversion hands (R268). -/
def handRows : HConv → Nat
  | .raw => 2
  | .bf16 | .fp16 | .i16 => 4
  | .e4m3 | .e5m2 | .i8 => 8

/-- One element handed: its bits and flags (R268). -/
def handElt (cv : HConv) (x : Nat) : Nat × Flags :=
  match cv with
  | .raw => (x, 0)
  | .bf16 => floatToFloat fFP32 fBF16 .rne false 0 x
  | .fp16 => floatToFloat fFP32 fFP16 .rne false 0 x
  | .e4m3 => floatToFloat fFP32 fE4M3 .rne false 0 x
  | .e5m2 => floatToFloat fFP32 fE5M2 .rne false 0 x
  | .i16 => (intBits 16 (clampInt (-2 ^ 15) (2 ^ 15 - 1) (sintOf 32 x)), 0)
  | .i8 => (intBits 8 (clampInt (-2 ^ 7) (2 ^ 7 - 1) (sintOf 32 x)), 0)

/-- A command that writes a tile is outstanding (R131, R230). -/
def State.tileWritten (s : State) (t : Nat) : Bool := s.core.cmds.any fun c => c.wrts.contains t

/-- MHAND: it waits for its tile, reads it at issue, and its entry is valid 12 bundles later (R131, R268). -/
def execMhand (e : BitVec 4) (tile : BitVec 3) (row0 : BitVec 7) (conv : HConv) (s : State) : Out State :=
  s.issueWith (waitFor (!s.tileWritten tile.toNat) 0x04) fun s =>
    let n := handRows conv
    let r := (List.range n).flatMap fun q => (List.range 128).map fun j =>
      handElt conv (s.core.tileWord tile.toNat (row0.toNat + q) j)
    s.send 12 (.rb e (BitVec.ofNat 8192 (joinBits (64 / n) (r.map Prod.fst)))) (r.foldl (fun fl x => fl ||| x.2) 0)

end Sys2Proof.Machine
end

