-- ==== Sys2Proof/Machine/EngineRun.lean ====
section
/-! DEFINITION. The engines at work: dispatching, the parts of a gather, retiring (R226, R227, R242, R244, R251). -/

namespace Sys2Proof.Machine

open Sys2Proof

/-- The accesses of a dispatched command (log 7). -/
def State.runCmd (s : State) (c : Cmd) : State :=
  match c.op with
  | .mldw => s.runMldw c
  | .mma | .mmag | .mmah => s.runProduct c
  | .mzero => s.runMzero c
  | .cpy => s.runCpy c
  | .csel => s.runCsel c
  | .cgth | .csct => s.runGather c
  | .cqf => s.runCqf c
  | .ccol => s.runCcol c

/-- An earlier matrix command is outstanding that a matrix command conflicts with (R251). -/
def State.conflicts (s : State) (c : Cmd) : Bool :=
  s.core.cmds.any fun o => decide (o.seqNo < c.seqNo) && c.conflict o

/-- Every predecessor of a command has retired (R226). -/
def State.predsGone (s : State) (c : Cmd) : Bool := s.core.cmds.all fun o => !c.preds.contains o.seqNo

/-- The command that an engine dispatches next: one that waited for others to retire, else the head of its queue; a parked one when its task
runs again (R226, R232, R251). -/
def State.nextCmd (s : State) (e : Eng) : Option Cmd :=
  match s.core.cmds.find? fun c => c.eng == e && c.st == .waiting && !s.conflicts c with
  | some c => some c
  | none =>
    match s.core.cmds.find? fun c => c.eng == e && (c.st == .queued || c.st == .parked) with
    | none => none
    | some c =>
      if !s.predsGone c then none
      else if c.st == .parked && !s.core.retries then none
      else some c

/-- A command dispatches and makes its accesses. -/
def State.dispatch (s : State) (e : Eng) : State :=
  match s.nextCmd e with
  | none => s
  | some c => if s.conflicts c then s.setCmd { c with st := .waiting } else s.runCmd c

/-- ENGINE_DISPATCH: the head of an engine's queue dispatches (R226). -/
def execEngineDispatch (c : CoreRef) (e : Eng) (s : State) : Out State :=
  .next (s.within c fun s => if s.core.task.isSome then s.dispatch e else s)

/-- GATHER_PART_REPLY: the part of a gather or a scatter that a die owns returns to the interface (R244). -/
def execGatherPartReply (c : CoreRef) (k : Nat) (owner : BitVec 2) (s : State) : Out State :=
  .next (s.within c fun s =>
    match s.core.cmds[k]? with
    | some x =>
      if (x.op == .cgth || x.op == .csct) && x.st == .running && x.done != descRows x.desc * descCols x.desc then
        s.runGather { x with parts := x.parts ||| (1#4 <<< owner.toNat) }
      else s
    | none => s)

/-- The status word of a gather or a scatter, a local store at retirement; none outside the window (R242). -/
def State.gathStatus (s : State) (c : Cmd) : Option State :=
  if descEmpty c.desc then some s
  else
    let off := descWord c.desc2 6 % 2 ^ 21
    if s.core.window false < off + 4 then none
    else some (s.ownWrite c off ((leBytes 4 c.gath.toNat).map (·, true)))

/-- ENGINE_RETIRE: an outstanding command that has made every access retires (R227), unless its retire action waits. -/
def execEngineRetire (c : CoreRef) (k : Nat) (s : State) : Out State :=
  .next (s.within c fun s =>
    match s.core.cmds[k]? with
    | none => s
    | some x =>
      if x.st != .running || s.actWaits x then s
      else match x.op with
        | .ccol => s.retireCcol x
        | .cgth | .csct =>
          if x.done != descRows x.desc * descCols x.desc then s
          else match s.gathStatus x with
            | none => s.failCmd x 0x09 (windowBase + BitVec.ofNat 64 (descWord x.desc2 6 % 2 ^ 21)) 0x09
            | some s => s.retireCmd x
        | _ => s.retireCmd x)

/-- FIXED_LATENCY_LANDING: the results of a core whose last bundle has issued land (R123). -/
def execFixedLatencyLanding (c : CoreRef) (s : State) : Out State := .next (s.within c State.landResults)

/-- SCRATCHPAD_STORE_PERFORM: the local stores of a core that are due perform (R126, R277). -/
def execScratchpadStorePerform (c : CoreRef) (s : State) : Out State := .next (s.within c State.landStores)

end Sys2Proof.Machine
end

