-- ==== Sys2Proof/Machine/LoadStore.lean ====
section
/-! DEFINITION. Scalar loads and stores, special registers, traps by instruction and the no-operation (R69, R118-R122,
R150-R155, R360). -/

namespace Sys2Proof.Machine

open Sys2Proof

/-- NOP (R69). -/
def execNop (s : State) : Out State := s.issueWith .go fun s => s

/-- The effective address of an S-slot access: offset9 counts access sizes (R151). -/
def State.ea (s : State) (a : BitVec 5) (sz : BitVec 2) (off : BitVec 9) : Word :=
  s.a a + (sx 9 off <<< sz.toNat)

/-- The offset of an access that reaches the core's own scratchpad through region 0x1: there it acts as a window access does (R126, R305, log 76). -/
def State.ownOff? (s : State) (ea : Word) (n : Nat) (write : Bool) : Option Nat :=
  match region (s.place ea write).pa.toNat with
  | .scratch c off => if c = s.me ∧ off + n ≤ s.window then some off else none
  | _ => none

/-- The offset of a load of the own scratchpad through region 0x1 that meets no uncorrectable error. -/
def State.ownLoad? (s : State) (ea : Word) (n : Nat) : Option Nat := (s.ownOff? ea n false).filter fun o => s.unitsGood o n = .go

/-- The checks on the place of an S-slot access (R26, R132, R151-R153, R322). -/
def State.accessCheck (s : State) (ea : Word) (sz : BitVec 2) (write : Bool) : Verdict :=
  let n := 2 ^ sz.toNat
  match windowOff? ea with
  | some o => if ea.toNat % n ≠ 0 then .trap 0x07 ea
      else if o + n ≤ s.window then (if write then .go else s.loadCheck o n) else .trap 0x09 ea
  | none => (s.globalCheck ea n write).andThen (if write then .go else match s.ownOff? ea n false with
      | some o => s.pendCheck o n
      | none => .go)

/-- LD (R150-R153): the local window answers with latency 4, every other address later (R305). -/
def execLd (d a : BitVec 5) (pm : Bool) (ac sz : BitVec 2) (sx : Bool) (off : BitVec 9) (s : State) : Out State :=
  let ea := s.ea a sz off
  s.issueWith (.all [s.needA a false, s.destS d, s.postCheck a pm, s.accessCheck ea sz false]) fun s =>
    let s := s.postModify a pm (2 ^ sz.toNat)
    match windowOff? ea with
    | some o =>
      let b : ScratchAccess := { path := 0, ac := ac, off := o, size := 2 ^ sz.toNat }
      s.sendLoad 4 b sz sx (.s d (loadValue sz sx (s.localLoad b)))
    | none => match s.ownLoad? ea (2 ^ sz.toNat) with
      | some o =>
        let b : ScratchAccess := { path := 0, ac := ac, off := o, size := 2 ^ sz.toNat }
        ((s.sawLoad b).produce d (loadValue sz sx (s.localLoad b))).refill ea false
      | none => ((s.clearFull d).queueOp (.load d (s.place ea false) ac sz sx)).refill ea false

/-- ST (R150-R153): d is the data; a local store performs at the end of the next bundle (R126). -/
def execSt (d a : BitVec 5) (pm : Bool) (ac sz : BitVec 2) (off : BitVec 9) (s : State) : Out State :=
  let ea := s.ea a sz off
  s.issueWith (.all [s.needA a false, s.needS d false, s.postCheck a pm, s.accessCheck ea sz true]) fun s =>
    let data := s.s d
    let s := s.postModify a pm (2 ^ sz.toNat)
    let put (s : State) (o : Nat) : State :=
      s.localStore .s { path := 0, ac := ac, off := o, size := 2 ^ sz.toNat } (data.setWidth 8192) (BitVec.ofNat 1024 (2 ^ 2 ^ sz.toNat - 1))
    match windowOff? ea with
    | some o => put s o
    | none => match s.ownOff? ea (2 ^ sz.toNat) true with
      | some o => (put s o).refill ea true
      | none => (s.queueOp (.store (s.place ea true) ac sz data)).refill ea true

/-! ### Special registers (R118-R122, R154) -/

/-- A field of the running task. -/
def State.taskField (s : State) (f : Task → Nat) : Word := BitVec.ofNat 64 ((s.core.task.map f).getD 0)

/-- The value of a special register (R118). -/
def State.srRead (s : State) (n : BitVec 12) : Word :=
  let k := n.toNat
  let r := s.core.regs
  if k = 0x000 then s.me.idx.setWidth 64
  else if k = 0x001 then BitVec.ofNat 64 s.me.cluster
  else if k = 0x002 then s.me.die.setWidth 64
  else if k = 0x008 then s.taskField fun t => t.addr.toNat
  else if k = 0x009 then (if s.comp then 0 else s.taskField Task.index)
  else if 0x010 ≤ k ∧ k ≤ 0x017 then s.taskField fun t => t.coord (k - 0x010)
  else if k = 0x020 then r.vrb.setWidth 64
  else if k = 0x021 then r.prb.setWidth 64
  else if k = 0x022 then BitVec.ofNat 64 r.loops.length
  else if k = 0x030 then r.status
  else if k = 0x031 then r.fpstat.setWidth 64
  else if k = 0x032 then r.tileFlags.setWidth 64
  else if k = 0x040 then s.core.cycles
  else if k = 0x041 then s.core.bundles
  else if k = 0x050 then r.seed
  else if k = 0x051 then (if r.dbgPend then 1 else 0)
  else if k = 0x060 then r.trapPc
  else if k = 0x061 then r.trapCause
  else if k = 0x062 then r.trapVal
  else if 0x070 ≤ k ∧ k ≤ 0x077 then s.core.ev.toList.getD (k - 0x070) 0
  else 0

/-- The counters, whose reads are variable-latency producers (R119, R124). -/
def srCounter (n : BitVec 12) : Bool := n == 0x040 || n == 0x041 || (decide (0x070 ≤ n.toNat) && decide (n.toNat ≤ 0x077))

/-- MFSR (R119, R154). -/
def execMfsr (d : BitVec 5) (n : BitVec 12) (s : State) : Out State :=
  s.issueWith ((ensure (srAssigned n) 0x01 s.wordVal).and (s.destS d)) fun s =>
    if srCounter n then s.produce d (s.srRead n) else s.send 1 (.s d (s.srRead n))

/-- MTSR (R37, R119, R154). -/
def execMtsr (a : BitVec 5) (ta : Bool) (n : BitVec 12) (s : State) : Out State :=
  s.issueWith (.all [ensure (srAssigned n && !srReadOnly n) 0x01 s.wordVal,
      ensure (s.sup || !(n == 0x060 || n == 0x061 || n == 0x062)) 0x03 s.wordVal, s.needS a ta,
      ensure (n != 0x051 || s.s a == 0 || s.feature 4) 0x01 s.wordVal]) fun s => s.send 1 (.sr n (s.s a))

/-! ### Traps by instruction (R155, R360) -/

/-- A trap that is due at the next boundary (R355, R357). -/
def State.report (s : State) (cause : BitVec 8) (val : Word) : State :=
  s.lateReport cause val true

/-- TRAP: its bundle issues in full and the trap is taken before the next one (R155). -/
def execTrap (code : BitVec 20) (s : State) : Out State := s.issueWith .go fun s => s.report 0x10 (zx 20 code)

/-- SYS: its bundle issues in full and the trap is taken before the next one (R155). -/
def execSys (code : BitVec 20) (s : State) : Out State := s.issueWith .go fun s => s.report 0x11 (zx 20 code)

/-- RETT: privileged; its bundle issues in full and the core returns at its end (R360). -/
def execRett (s : State) : Out State :=
  s.issueWith (ensure s.sup 0x03 s.wordVal) fun s =>
    { s with core := { s.core with issue := { s.core.issue with control := .rett } } }

end Sys2Proof.Machine
end

