-- ==== Sys2Proof/Machine/Sync.lean ====
section
/-! DEFINITION. The X-slot instructions of synchronisation: the wake queue, semaphores, barriers, fences and drains, descriptors and
tables, circular buffers, the count queue, decrements and event counters (15_sync, R274-R293). -/

namespace Sys2Proof.Machine

open Sys2Proof

/-! ### The wake queue (R276-R278) -/

/-- WATCH (R276). -/
def execWatch (a b : BitVec 5) (ta tb on : Bool) (n : BitVec 3) (s : State) : Out State :=
  if on then
    s.issueWith (.all [s.needS a ta, s.needS b tb,
        ensure (s.s b == 0 || decide ((s.s a).toNat + (s.s b).toNat ≤ s.window)) 0x09 (s.s a)]) fun s =>
      s.send 1 (.watch n (some ((s.s a).toNat, (s.s b).toNat)))
  else s.issueWith .go fun s => s.send 1 (.watch n none)

/-- WAIT: it holds while the wake queue is empty, then takes the head token; an acquire for its write (R278). -/
def execWait (d : BitVec 5) (s : State) : Out State :=
  s.issueWith ((s.destS d).and (waitFor (!s.core.regs.wakeQ.isEmpty) 0x07)) fun s =>
    let head := s.core.regs.wakeQ.headD 0
    ((s.onRegs fun r => { r with wakeQ := r.wakeQ.drop 1 }).send 1 (.s d (head.setWidth 64))).observesToken head

/-! ### Semaphores (R279-R281) -/

/-- A semaphore of the core in focus. -/
def State.sem (s : State) (n : BitVec 6) : Word := s.core.regs.sem[n.toNat]'(n.isLt)

/-- Sets a semaphore. -/
def State.setSem (s : State) (n : BitVec 6) (v : Word) : State := s.onRegs fun r => { r with sem := r.sem.set n.toNat v n.isLt }

/-- Queued operations that a release waits for: those up to the last that writes (R280). -/
def State.writesAhead (s : State) : Nat := s.core.memq.length - ((s.core.memq.reverse.takeWhile fun e => !e.op.isWrite).length)

/-- The target of a remote add. -/
def addTarget (w : Word) : CoreRef := ⟨BitVec.ofNat 2 (bits w 8 2), BitVec.ofNat 8 (bits w 0 8)⟩

/-- The word that names a core as the target of an add. -/
def asTarget (c : CoreRef) : Word := BitVec.ofNat 64 (c.die.toNat * 256 + c.idx.toNat)

/-- SEMADD: a release; it performs once every earlier store has performed, and after the core's earlier adds to itself (R279, R280). -/
def execSemadd (a : BitVec 5) (ta ck : Bool) (n : BitVec 6) (s : State) : Out State :=
  s.issueWith ((s.needS a ta).and (s.needCommit ck)) fun s =>
    let s := s.releases n.toNat
    if s.core.adds.any fun b => addTarget b.target == s.me then
      { s with core := { s.core with adds := s.core.adds ++ [⟨n, s.s a, asTarget s.me, s.writesAhead, s.job⟩] } }
    else if s.writesAhead = 0 then s.setSem n (s.sem n + s.s a) else s.queueOp (.semadd n (s.s a))

/-- SEMADD.r: an add that travels to another core (R279, R280). -/
def execSemaddRemote (a b : BitVec 5) (ta tb ck : Bool) (n : BitVec 6) (s : State) : Out State :=
  s.issueWith (.all [s.needS a ta, s.needS b tb, ensure (decide ((s.s b).toNat < 2 ^ 10 ∧ bits (s.s b) 0 8 < 144)) 0x01 (s.s b),
      s.needCommit ck]) fun s =>
    let s := s.releases (if addTarget (s.s b) = s.me then n.toNat else toOthers)
    { s with core := { s.core with adds := s.core.adds ++ [⟨n, s.s a, s.s b, s.writesAhead, s.job⟩] } }

/-- REMOTE_SEMADD_ARRIVAL: a remote add performs at its target, or is discarded there; adds of one core to one target perform in issue
order (R280), and a held bundle of the target is tested after each change (R281). -/
def execRemoteSemaddArrival (c : CoreRef) (k : Nat) (s : State) : Out State :=
  let x := s.getCore c
  .next (match x.adds[k]? with
    | none => s
    | some a =>
      if a.after != 0 || (x.adds.take k).any (fun b => b.target == a.target) || (s.getCore (addTarget a.target)).semDue then s
      else
        let s := s.onCore c fun x => { x with adds := dropAt x.adds k }
        if s.runsJob (addTarget a.target) a.job then s.onCore (addTarget a.target) fun x => x.semAdd a.sem a.value
        else s.onCore c fun x => { x with lostAdds := x.lostAdds ++ [a.target] })

/-- SEMWT holds until the semaphore is large enough, then takes from it; an acquire (R279, R280). -/
def execSemwt (a : BitVec 5) (ta : Bool) (n : BitVec 6) (s : State) : Out State :=
  s.issueWith ((s.needS a ta).and (waitFor (decide ((s.s a).toInt ≤ (s.sem n).toInt)) 0x07)) fun s =>
    ((s.setSem n (s.sem n - s.s a)).observes [n.toNat]).acquire .package

/-- SEMTST takes from the semaphore if it is large enough, and says so; an acquire when it succeeds (R279, R280). -/
def execSemtst (d a : BitVec 5) (ta : Bool) (n : BitVec 6) (s : State) : Out State :=
  s.issueWith ((s.needS a ta).and (s.destS d)) fun s =>
    if (s.s a).toInt ≤ (s.sem n).toInt then (((s.setSem n (s.sem n - s.s a)).observes [n.toNat]).acquire .package).send 1 (.s d 1)
    else s.send 1 (.s d 0)

/-- SEMSET (R279). -/
def execSemset (a : BitVec 5) (ta : Bool) (n : BitVec 6) (s : State) : Out State :=
  s.issueWith (s.needS a ta) fun s => s.setSem n (s.s a)

/-- SEMRD (R279): a variable-latency producer (R124). -/
def execSemrd (d : BitVec 5) (n : BitVec 6) (s : State) : Out State :=
  s.issueWith (s.destS d) fun s => s.produce d (s.sem n)

/-! ### Barriers (R282) -/

/-- Two tasks are members of one group of a level. -/
def Task.sameGroup (t u : Task) (l : Nat) : Bool := u.launchAddr == t.launchAddr && u.job == t.job && u.group l == t.group l

/-- Tasks of a group that have ended (R282). -/
def State.endedOf (s : State) (t : Task) (l : Nat) : List Nat :=
  (s.dev.bindings.filter fun b => decide (b.launch.toNat = t.launchAddr ∧ b.level = l ∧ b.group = t.group l)).flatMap Binding.ended

/-- The barriers of a level at which a task has arrived. -/
def arrivals (v : Vector Nat 8) (l : BitVec 3) : Nat := (v[l.toNat]'(l.isLt) + 1) / 2

/-- The tasks that are on a core, and those that have left theirs with a save, each with the barriers of a level at which it has arrived (R282). -/
def State.arrivedTasks (s : State) (l : BitVec 3) : List (Task × Nat) :=
  ((s.coreNums.map fun n => s.getCore (CoreRef.ofNum n)).filterMap fun x => x.task.map fun u => (u, arrivals x.regs.arrived l))
    ++ s.dev.saved.map fun v => (v.task, arrivals v.arrived l)

/-- Every member of the group has arrived at its j-th barrier, or has ended (R282). -/
def State.allArrived (s : State) (t : Task) (l : BitVec 3) (j : Nat) : Bool :=
  let ended := s.endedOf t l.toNat
  let there := ((s.arrivedTasks l).filter fun m => t.sameGroup m.1 l.toNat && decide (j ≤ m.2)).map fun m => m.1.index
  decide (extentBelow t.launch (l.toNat + 1) ≤ (t.index :: ended ++ there).eraseDups.length)

/-- Some level at or above n has GANG = 1 (R282). -/
def Task.barLevel (t : Task) (n : Nat) : Bool := decide (n < t.levels) && (List.range t.levels).any fun i => decide (n ≤ i) && t.gang i

/-- Sets the barrier count of a level: two for each barrier passed, and one while the task waits at one. -/
def State.setArrived (s : State) (l : BitVec 3) (k : Nat) : State :=
  s.onRegs fun r => { r with arrived := r.arrived.set l.toNat k l.isLt }

/-- The scope of a level's barriers (R14). -/
def Task.scopeOf (t : Task) (n : Nat) : Scope := (Scope.ofCode? (t.barScope n)).getD .package

/-- The task passes a barrier: its own arrival is a release that the barrier's release, an acquire, observes with those of the others (R282, R309). -/
def State.passBar (s : State) (t : Task) (l : BitVec 3) (k : Nat) : State :=
  (((s.releases toOthers).setArrived l k).observes [toOthers]).acquire (t.scopeOf l.toNat)

/-- BAR: the task arrives once its earlier writes have performed, and holds until every member has arrived (R282). -/
def execBar (l : BitVec 3) (s : State) : Out State :=
  let now := s.core.regs.arrived[l.toNat]'(l.isLt)
  match s.core.task with
  | none => s.issueWith (.trap 0x01 (l.setWidth 64)) fun s => s
  | some t =>
    let pass : State → State := fun s => s.passBar t l (now / 2 * 2 + 2)
    if !t.barLevel l.toNat then s.issueWith (.trap 0x01 (l.setWidth 64)) fun s => s
    else if now % 2 = 0 ∧ s.writesAhead ≠ 0 then s.issueWith (.hold 0x07) pass
    else if s.allArrived t l (now / 2 + 1) then s.issueWith .go pass
    else (s.setArrived l (now / 2 * 2 + 1)).issueWith (.hold 0x07) pass

/-! ### Fences, drains and CWAIT (R283-R285) -/

/-- Decrements of the core in focus on their way, those that a full ring holds among them (R58, R284). -/
def State.myDecs (s : State) : Bool := s.dev.decs.any fun d => d.core == some s.me

/-- Decrements of the core in focus that a FENCE waits for: of TDECs on path S, of retire actions on path C (R302); a full ring delays DRAINs alone
(R58, R291). -/
def State.pathDecs (s : State) (eng : Bool) : Bool := s.dev.decs.any fun d => d.core == some s.me && d.eng.isSome == eng && !d.fired

/-- Suffix operations of the core in focus at its die's unit. -/
def State.mySfx (s : State) : Bool := (s.die s.me.die).sfxOps.any fun o => o.core == s.me.idx

/-- Firmware kills a task whose FENCE or DRAIN waits on an access lost in transit (R379); what TRAP_VAL holds is left open (log 18). -/
def State.killLost (s : State) : Out State :=
  .next ((({ s with fresh := s.fresh + 1 } : State).kill 0x0A s.core.regs.pc (Config.openWord s.fresh)).mark (.trapped 0x0A))

/-- An access of the task is lost in transit. -/
def Core.lostAccess (x : Core) : Bool := x.memq.any MemEntry.lost

/-- A write of the task is lost in transit. -/
def Core.lostWrite (x : Core) : Bool := x.memq.any fun e => e.lost && e.op.isWrite

/-- The lines of L1 that accesses of the source paths have written leave it, so that later loads see what those wrote (R303, R307, log 35). -/
def State.dropStale (s : State) (src : BitVec 8) : State :=
  if s.fusedCluster s.me then
    (List.range 12).foldl (fun s i => s.onCore ⟨s.me.die, BitVec.ofNat 8 (12 * s.me.cluster + i)⟩ fun x => x.dropStale src)
      { s with core := s.core.dropStale src }
  else { s with core := s.core.dropStale src }

/-- What a FENCE orders: accesses of the destination paths after it see what those of the source paths before it wrote, for the parties that its
scope contains (R305, R307, R311). -/
def State.fence (s : State) (src dst : BitVec 8) (sc : Scope) : State :=
  let from_ := src &&& scopePaths sc
  let to_ := dst &&& scopePaths sc
  (if to_.getLsbD 0 then s.dropStale from_ else s).fenceLocal from_ to_

/-- FENCE: it holds until the accesses of its source paths have performed (R283). Engine accesses perform whole (log 7), and local stores of
earlier bundles have performed when its bundle ends (R126). -/
def execFence (src dst : BitVec 8) (sc : Scope) (s : State) : Out State :=
  if src.getLsbD 0 && s.core.lostAccess && !s.core.issue.pass then s.killLost
  else s.issueWith (.all [
      waitFor (!src.getLsbD 0 || (s.core.memq.all (fun e => e.op.isValue) && !s.pathDecs false)) 0x07,
      waitFor (!src.getLsbD 3 || !s.pathDecs true) 0x07,
      waitFor (!src.getLsbD 6 || !s.mySfx) 0x07,
      waitFor (!src.getLsbD 7 || (s.dev.hostHeld.isEmpty && s.dev.tdecQ.isEmpty && !s.dev.decs.any fun d => d.host && !d.fired)) 0x07]) fun s =>
    s.fence src dst sc

/-- What a DRAIN reports: a write lost to poison first, then a discarded token, then at PACKAGE scope or wider a discarded add (R280,
R284, R329, R377). -/
def State.drainReport (s : State) (sc : Scope) : Verdict :=
  match s.core.lostWrites, s.core.lostTokens, s.core.lostAdds with
  | va :: _, _, _ => .trap 0x0A va
  | [], a :: _, _ => .trap 0x09 a
  | [], [], b :: _ => if 3 ≤ sc.code then .trap 0x09 b else .go
  | [], [], [] => .go

/-- The report that a DRAIN makes is due no longer. -/
def Core.reported (x : Core) : Core :=
  if !x.lostWrites.isEmpty then { x with lostWrites := x.lostWrites.drop 1 }
  else if !x.lostTokens.isEmpty then { x with lostTokens := x.lostTokens.drop 1 }
  else { x with lostAdds := x.lostAdds.drop 1 }

/-- What a DRAIN waits for (R284). -/
def State.drained (s : State) : Bool :=
  s.core.cmds.isEmpty && s.core.memq.all (fun e => !e.op.isWrite) && !s.myDecs && s.core.adds.isEmpty && !s.mySfx

/-- DRAIN (R284). What it reports is reported once. -/
def execDrain (sc : Scope) (s : State) : Out State :=
  if !s.drained then (if s.core.lostWrite then s.killLost else s.issueWith (.hold 0x07) fun s => s)
  else match s.drainReport sc with
    | .trap c v => ({ s with core := s.core.reported } : State).issueWith (.trap c v) fun s => s
    | v => s.issueWith v fun s => s

/-- CWAIT (R285). -/
def execCwait (n : BitVec 6) (s : State) : Out State :=
  s.issueWith (waitFor (if n = 0 then s.core.cmds.isEmpty else !s.cidBusy n) 0x00) fun s => s

/-! ### Descriptors and tables (R286, R287) -/

/-- YSET (R286). -/
def execYset (a : BitVec 5) (ta : Bool) (w : BitVec 3) (y : BitVec 4) (s : State) : Out State :=
  s.issueWith (s.needS a ta) fun s => s.send 1 (.yWord y w ((s.s a).setWidth 32))

/-- YLD (R286). -/
def execYld (a : BitVec 5) (ta : Bool) (y : BitVec 4) (s : State) : Out State :=
  s.issueWith ((s.needA a ta).and (s.readCheck (s.a a) 32 32)) fun s =>
    (s.sawLocal (s.a a) 32).send 4 (.y y (BitVec.ofNat 256 (leNat (s.localBytes 0 (s.a a) 32))))

/-- KLD (R287). -/
def execKld (a : BitVec 5) (ta : Bool) (s : State) : Out State :=
  s.issueWith ((s.needA a ta).and (s.readCheck (s.a a) 64 64)) fun s =>
    (s.sawLocal (s.a a) 64).send 4 (.k (BitVec.ofNat 512 (leNat (s.localBytes 0 (s.a a) 64))))

/-- CBKLD (R287). -/
def execCbkld (a : BitVec 5) (ta : Bool) (s : State) : Out State :=
  s.issueWith ((s.needA a ta).and (s.readCheck (s.a a) 1024 64)) fun s =>
    (s.sawLocal (s.a a) 1024).send 6 (.codebook (BitVec.ofNat 8192 (leNat (s.localBytes 0 (s.a a) 1024))))

/-! ### Circular buffers (R288, R289) -/

/-- A circular buffer of the core in focus. -/
def State.cbuf (s : State) (n : BitVec 3) : CBuf := s.core.regs.cb[n.toNat]'(n.isLt)

/-- Replaces a circular buffer. -/
def State.setCbuf (s : State) (n : BitVec 3) (x : CBuf) : State := s.onRegs fun r => { r with cb := r.cb.set n.toNat x n.isLt }

/-- A field of a 16-byte image. -/
def imageField (bs : List Byte) (i : Nat) : Nat := leNat ((bs.drop (4 * i)).take 4)

/-- A legal image of a circular buffer (R288). -/
def cbImageOk (bs : List Byte) (window : Nat) : Bool :=
  let base := imageField bs 0
  let size := imageField bs 1
  let count := imageField bs 2
  decide (base % 64 = 0 ∧ size % 64 = 0 ∧ 64 ≤ size ∧ size ≤ 2 ^ 20 ∧ 1 ≤ count ∧ count ≤ 256 ∧ imageField bs 3 = 0 ∧ base + size * count ≤ window)

/-- An outstanding command names a buffer. -/
def State.cbNamed (s : State) (n : BitVec 3) : Bool :=
  s.core.cmds.any fun c => (sideB c.desc).loc == 6 && decide ((sideB c.desc).addr % 8 = n.toNat)

/-- CBSET (R288). -/
def execCbset (a : BitVec 5) (ta : Bool) (n : BitVec 3) (s : State) : Out State :=
  s.issueWith (.all [s.needA a ta, waitFor (!s.cbNamed n) 0x00,
      (s.readCheck (s.a a) 16 16).andThen (ensure (cbImageOk (s.localBytes 0 (s.a a) 16) s.window) 0x01 (s.a a))]) fun s =>
    let bs := s.localBytes 0 (s.a a) 16
    (s.sawLocal (s.a a) 16).setCbuf n ⟨true, imageField bs 0, imageField bs 1, imageField bs 2, 0, 0, 0, []⟩

/-- CBWAIT: it holds until the next slot has been filled, then takes it; an acquire for its bytes (R289). -/
def execCbwait (d : BitVec 5) (n : BitVec 3) (s : State) : Out State :=
  let b := s.cbuf n
  s.issueWith (.all [s.destS d, ensure b.configured 0x01 s.wordVal, waitFor (!b.configured || b.full.contains b.t) 0x07]) fun s =>
    let off := b.base + b.t.toNat % b.count * b.size
    ((s.setCbuf n { b with t := b.t + 1, full := b.full.filter fun k => k != b.t }).send 1 (.s d (windowBase + BitVec.ofNat 64 off))).observesRange off b.size

/-- CBREL: the next slot taken is free again; with none taken, or on a buffer never configured, it has no effect (R289). -/
def execCbrel (n : BitVec 3) (s : State) : Out State :=
  s.issueWith .go fun s => if (s.cbuf n).configured && (s.cbuf n).r != (s.cbuf n).t then s.setCbuf n { s.cbuf n with r := (s.cbuf n).r + 1 } else s

/-! ### The count queue, decrements, event counters (R290-R293) -/

/-- CQPUSH (R290, R292). -/
def execCqpush (a : BitVec 5) (ta ck : Bool) (s : State) : Out State :=
  s.issueWith (.all [s.needS a ta, waitFor (decide (s.core.regs.countQ.length < 64)) 0x00, s.needCommit ck]) fun s =>
    s.onRegs fun r => { r with countQ := r.countQ ++ [(s.s a).setWidth 32] }

/-- The checks on the record of a TDEC (R41, R291). -/
def State.recordCheck (s : State) (va : Word) : Verdict :=
  (s.globalCheck va 128 true).and (ensure (match region (s.place va true).pa.toNat with
    | .device _ => true
    | _ => false) 0x09 va)

/-- TDEC (R291, R292). -/
def execTdec (a : BitVec 5) (ta ck : Bool) (s : State) : Out State :=
  s.issueWith (.all [s.needS a ta, s.recordCheck (s.s a), s.needCommit ck]) fun s =>
    ((s.releases toOthers).queueOp (.tdec ((s.s a).setWidth 48) (s.place (s.s a) true).pa (s.place (s.s a) true).key)).refill (s.s a) true

/-- EVSEL (R293, R399). -/
def execEvsel (a : BitVec 5) (ta : Bool) (n : BitVec 3) (s : State) : Out State :=
  s.issueWith ((s.needS a ta).and (ensure (decide ((s.s a).toNat < 0x10)) 0x01 (s.s a))) fun s => s.send 1 (.evsel n ((s.s a).setWidth 8))

end Sys2Proof.Machine
end

