-- ==== Sys2Proof/Machine/Tokens.lean ====
section
/-! DEFINITION. Requests and tokens between main and companion cores (19_generation, R327-R332). -/

namespace Sys2Proof.Machine

open Sys2Proof

/-- Requests on their way to the companion core of a cluster. -/
def State.pushesAhead (s : State) (c : CoreRef) : Nat :=
  ((List.range 12).map fun i =>
    countIf (fun e => match e.op with | .sqpush _ _ => true | _ => false) (s.getCore ⟨c.die, BitVec.ofNat 8 (12 * c.cluster + i)⟩).memq).sum

/-- The companion's queue of 64 requests is full, with the requests on their way (R327). -/
def State.requestsFull (s : State) : Bool :=
  decide (64 ≤ (s.getCore s.me.comp).requests.length + s.pushesAhead s.me)

/-- The first word of a request: Sa with the issuing core's number in [55:48] (R327). -/
def State.request (s : State) (a : Word) : Word := a ||| (s.me.idx.setWidth 64 <<< 48)

/-- SQPUSH: it appends a request at the companion core, a release; it holds only while the queue is full (R327). -/
def execSqpush (a b : BitVec 5) (ta tb ck : Bool) (s : State) : Out State :=
  let here := s.runsJob s.me.comp s.job
  s.issueWith (.all [s.needMain, s.needFeature 1, s.needReady 20, s.needS a ta, s.needS b tb, ensure (bits (s.s a) 48 16 == 0) 0x01 (s.s a),
      ensure here 0x09 (s.s a), waitFor (!(here && s.requestsFull)) 0x00, s.needCommit ck]) fun s =>
    let r := s.request (s.s a)
    let v := s.s b
    let s := (s.onRegs fun x => { x with asked := x.asked + 1 }).releases toOthers
    if s.writesAhead = 0 then s.onCore s.me.comp fun x => { x with requests := x.requests ++ [(r, v)] } else s.queueOp (.sqpush r v)

/-- TKTST: ones when the mailbox holds a token that no pending claim takes (R330). -/
def execTktst (p : BitVec 4) (s : State) : Out State :=
  s.issueWith (.all [s.needMain, s.needFeature 1, s.needReady 20]) fun s =>
    let k := physP s.core.regs.prb p
    s.send 1 (.p k (if s.core.regs.claims.length < s.core.regs.mailbox.length then BitVec.allOnes 1024 else 0) (BitVec.allOnes 1024))

/-- TKGET: it claims the next token for Sd; it holds while 8 claims are pending (R331). -/
def execTkget (d : BitVec 5) (s : State) : Out State :=
  s.issueWith (.all [s.needMain, s.needFeature 1, s.needReady 20, s.destS d, waitFor (decide (s.core.regs.claims.length < 8)) 0x00]) fun s =>
    (s.clearFull d).onRegs fun r => { r with claims := r.claims ++ [d] }

/-- TOKEN_LANDING: the oldest token of a core's mailbox fills its oldest claim; an acquire at CLUSTER scope (R331). -/
def execTokenLanding (c : CoreRef) (s : State) : Out State :=
  .next (s.within c fun s =>
    match s.core.regs.mailbox, s.core.regs.claims with
    | v :: m, d :: l => ((s.onRegs fun r => { r with mailbox := m, claims := l }).arrive false (.late d v)).acquire .cluster
    | _, _ => s)

/-- SQPOP: it takes the companion core's head request into Sd and Sd+1, an acquire for its push; it holds while there is none (R328). -/
def execSqpop (d : BitVec 5) (s : State) : Out State :=
  s.issueWith (.all [s.needComp, ensure (decide (1 ≤ d.toNat ∧ d.toNat ≤ 30)) 0x01 s.wordVal, s.destS d, s.destS (d + 1),
      waitFor (!s.core.requests.isEmpty) 0x00]) fun s =>
    let r := s.core.requests.headD (0, 0)
    let s : State := { s with core := { s.core with requests := s.core.requests.drop 1 } }
    ((s.send 1 (.s d r.1)).send 1 (.s (d + 1) r.2)).acquire .cluster

/-- The main core that a TKPUT names, in the companion's own cluster (R329). -/
def State.tokenCore (s : State) (a : Word) : Option CoreRef :=
  if a.toNat < 144 ∧ a.toNat / 12 = s.me.cluster then some ⟨s.me.die, BitVec.ofNat 8 a.toNat⟩ else none

/-- TKPUT: once every earlier write of the task has performed, a token enters a core's mailbox, and its count of requests falls by one; it
holds while the mailbox holds 8. A token for a core without a task of the job is discarded and reported by a DRAIN (R329). -/
def execTkput (a b : BitVec 5) (ta tb : Bool) (s : State) : Out State :=
  let t := s.tokenCore (s.s a)
  let here := match t with
    | some c => s.runsJob c s.job
    | none => false
  let room := match t with
    | some c => !here || decide ((s.getCore c).regs.mailbox.length < 8)
    | none => true
  s.issueWith (.all [s.needComp, s.needS a ta, s.needS b tb, ensure t.isSome 0x01 (s.s a), waitFor room 0x00,
      waitFor (s.writesAhead = 0 && !s.mySfx) 0x00]) fun s =>
    match t with
    | none => s
    | some c =>
      if here then
        let v := s.s b
        s.onCore c fun x => { x with regs := { x.regs with mailbox := x.regs.mailbox ++ [v], asked := x.regs.asked - 1 } }
      else { s with core := { s.core with lostTokens := s.core.lostTokens ++ [s.s a] } }

end Sys2Proof.Machine
end

