-- ==== Sys2Proof/Machine/Suffix.lean ====
section
/-! DEFINITION. The drafting suffix memory (20_suffix). -/

namespace Sys2Proof.Machine

open Sys2Proof

/-! ### Contexts and queries (R340-R343) -/

/-- A context of a die. -/
def Die.ctx (d : Die) (n : BitVec 12) : SfxCtx := Sparse.get {} d.sfx n.toNat

/-- Replaces a context of a die. -/
def State.setCtx (s : State) (d : BitVec 2) (n : BitVec 12) (c : SfxCtx) : State :=
  s.onDie d fun x => { x with sfx := Sparse.set {} x.sfx n.toNat c }

/-- The retained count (R342). -/
def SfxCtx.retained (c : SfxCtx) : Nat := Nat.min c.pin c.len + (c.len - c.gap)

/-- Appending a token (R342). -/
def SfxCtx.append (c : SfxCtx) (x : BitVec 24) : SfxCtx :=
  let c : SfxCtx := { c with
    head := if c.len < c.pin then c.head ++ [x] else c.head
    tail := if c.pin ≤ c.len ∧ c.gap ≤ c.len then c.tail ++ [x] else c.tail
    len := c.len + 1 }
  if c.quota < c.retained then { c with gap := c.gap + 1, tail := c.tail.drop 1 } else c

/-- The token at a retained position (R342). -/
def SfxCtx.tok (c : SfxCtx) (p : Nat) : BitVec 24 := if p < c.pin then c.head.getD p 0 else c.tail.getD (p - c.gap) 0

/-- The segments of the retained positions (R342). -/
def SfxCtx.segs (c : SfxCtx) : List (Nat × Nat) := if c.gap = c.pin then [(0, c.len)] else [(0, c.pin), (c.gap, c.len)]

/-- The window of k tokens that ends at q equals the one that ends at the last token. -/
def SfxCtx.sameWindow (c : SfxCtx) (q k : Nat) : Bool := (List.range k).all fun i => c.tok (q - i) == c.tok (c.len - 1 - i)

/-- The most recent earlier occurrence of the ending of k tokens, inside one segment with the token after it (R343). -/
def SfxCtx.occurs (c : SfxCtx) (k : Nat) : Option Nat :=
  ((List.range (c.len - 1)).reverse).find? fun q => c.segs.any (fun p => decide (p.1 + k ≤ q + 1 ∧ q + 1 < p.2)) && c.sameWindow q k

/-- The longest ending that occurs earlier: its length and where it ends (R343). -/
def SfxCtx.longest (c : SfxCtx) : Nat → Nat → Nat × Option Nat → Nat × Option Nat
  | 0, _, r => r
  | fuel + 1, k, r =>
    match c.occurs k with
    | none => r
    | some q => c.longest fuel (k + 1) (k, some q)

/-- A query of n drafts: the match length and the drafts (R343). -/
def SfxCtx.query (c : SfxCtx) (n : Nat) : Nat × List (BitVec 24) :=
  let tail := (c.segs.getLast?.getD (0, 0)).1
  let r := c.longest (Nat.min 64 (c.len - tail)) 1 (0, none)
  match r.2 with
  | none => (r.1, [])
  | some j =>
    if r.1 < c.minm then (r.1, [])
    else
      let stop := ((c.segs.find? fun p => decide (p.1 ≤ j ∧ j < p.2)).getD (0, 0)).2
      (r.1, (List.range (Nat.min n (Nat.min stop c.len - (j + 1)))).map fun i => c.tok (j + 1 + i))

/-- The state that SXSTAT reads (R349); of a context that has failed only FAIL (log 22). -/
def SfxCtx.status (c : SfxCtx) : Word :=
  if c.fail then 0x800
  else if !c.conf then 0
  else BitVec.ofNat 64 (c.len * 2 ^ 40 + c.retained * 2 ^ 19 + 2 ^ 18 + (if c.pin < c.gap then 2 ^ 17 else 0) + c.dc * 2 ^ 12 + c.ml)

/-- The sum of the quotas of a die's configured contexts (R340). -/
def Die.quotas (d : Die) : Nat := (d.sfx.map fun e => if e.2.conf then e.2.quota else 0).sum

/-- Some context's new quota keeps the die's sum within its limit (R346). -/
def Die.quotaFits (d : Die) (n : BitVec 12) (q : Nat) : Bool :=
  decide (d.quotas - (if (d.ctx n).conf then (d.ctx n).quota else 0) + q ≤ 2 ^ 24)

/-! ### Issue (R344, R345) -/

/-- The X opcode of an operation (R344). -/
def SfxKind.opcode : SfxKind → Nat
  | .app _ => 0x1B
  | .qry _ _ _ => 0x1C
  | .cfg _ _ _ => 0x1D
  | .save _ => 0x1E
  | .load _ => 0x1F
  | .stat _ => 0x20

/-- TRAP_VAL of a suffix-memory failure (R345). -/
def sfxVal (image : Word) (op : Nat) (ctx : Nat) (code : Nat) : Word :=
  BitVec.ofNat 64 ((if code = 0x14 ∨ code = 0x16 then image.toNat % 2 ^ 32 * 2 ^ 32 else 0) + op * 2 ^ 24 + ctx % 2 ^ 12 * 2 ^ 12 + code)

/-- The first issue check that fails (R344). -/
def firstOf (l : List Verdict) : Verdict := (l.find? fun v => decide (v ≠ .go)).getD .go

/-- What every instruction of the suffix memory needs before its issue checks: its feature, the unit, and room for an operation (R344). -/
def State.sfxReady (s : State) : Verdict :=
  .all [s.needFeature 0, s.needReady 18, waitFor (decide (countIf (fun o => o.core == s.me.idx) (s.die s.me.die).sfxOps < 8)) 0x00]

/-- The context operand (R344). -/
def ctxCheck (a : Word) (op : Nat) : Verdict := ensure (decide (a.toNat < 4096)) 0x0D (sfxVal 0 op a.toNat 1)

/-- Alignment of an operand, then its place in the window (R274, R344). -/
def State.sfxLocal (s : State) (ea : Word) (n align : Nat) : Verdict := s.localCheck ea n align

/-- Hands an operation to the die's unit (R353). -/
def State.sfxIssue (s : State) (a : Word) (k : SfxKind) : State :=
  let o : SfxOp := { core := s.me.idx, job := s.job, sup := s.sup, ctx := a.setWidth 12, kind := k, no := (s.core.rerun.map Rerun.no).getD 0 }
  s.onDie s.me.die fun d => { d with sfxOps := d.sfxOps ++ [o] }

/-- The words of a local operand, which the unit reads on path X (R302). -/
def State.localWords (s : State) (ea : Word) (n : Nat) : List Word32 :=
  let bs := s.localBytes 6 ea (4 * n)
  (List.range n).map fun i => BitVec.ofNat 32 (leNat ((bs.drop (4 * i)).take 4))

/-- An image of SXCFG that breaks R346. -/
def cfgBad (w : List Word32) : Bool :=
  let q := (w.getD 0 0).toNat
  let f := (w.getD 1 0).toNat
  let m := (w.getD 2 0).toNat
  decide (2 ^ 20 < q) || (if q = 0 then f != 0 || m != 0 else decide (q ≤ f) || m == 0 || decide (64 < m)) || w.getD 3 0 != 0

/-- SXCFG (R346). -/
def execSxcfg (a b : BitVec 5) (ta tb : Bool) (s : State) : Out State :=
  let w := s.localWords (s.a b) 4
  s.issueWith (.all [s.sfxReady, s.needS a ta, s.needA b tb,
      firstOf [s.sfxLocal (s.a b) 16 16, ctxCheck (s.s a) 0x1D, ensure (!cfgBad w) 0x0D (sfxVal 0 0x1D (s.s a).toNat 3)]]) fun s =>
    s.sfxIssue (s.s a) (.cfg (w.getD 0 0).toNat (w.getD 1 0).toNat (w.getD 2 0).toNat)

/-- SXAPP (R301, R347). -/
def execSxapp (a b : BitVec 5) (ta tb ck : Bool) (cnt : BitVec 5) (s : State) : Out State :=
  let w := s.localWords (s.a b) cnt.toNat
  s.issueWith (.all [s.sfxReady, s.needS a ta, s.needA b tb, s.needCommit ck,
      firstOf [s.sfxLocal (s.a b) (4 * cnt.toNat) 4, ctxCheck (s.s a) 0x1B,
        ensure (w.all fun x => decide (x.toNat < 2 ^ 24)) 0x0D (sfxVal 0 0x1B (s.s a).toNat 2)]]) fun s => s.sfxIssue (s.s a) (.app w)

/-- SXQRY (R348). -/
def execSxqry (d a b : BitVec 5) (ta tb : Bool) (n : BitVec 5) (s : State) : Out State :=
  s.issueWith (.all [s.sfxReady, s.needS a ta, s.needA b tb, s.destS d,
      firstOf [s.sfxLocal (s.a b) (4 * n.toNat) 4, ctxCheck (s.s a) 0x1C]]) fun s =>
    (s.clearFull d).sfxIssue (s.s a) (.qry d ((s.a b).toNat - windowBase.toNat) n.toNat)

/-- SXSTAT (R349). -/
def execSxstat (d a : BitVec 5) (ta : Bool) (s : State) : Out State :=
  s.issueWith (.all [s.sfxReady, s.needS a ta, s.destS d, ctxCheck (s.s a) 0x20]) fun s => (s.clearFull d).sfxIssue (s.s a) (.stat d)

/-- The checks on an image address (R350). -/
def imageCheck (b : Word) : Verdict := firstOf [ensure (b.toNat % 128 == 0) 0x07 b, ensure (bits b 48 16 == 0) 0x08 b]

/-- SXSAVE (R350). -/
def execSxsave (a b : BitVec 5) (ta tb : Bool) (s : State) : Out State :=
  s.issueWith (.all [s.sfxReady, s.needS a ta, s.needS b tb, firstOf [imageCheck (s.s b), ctxCheck (s.s a) 0x1E]]) fun s =>
    s.sfxIssue (s.s a) (.save (s.s b))

/-- SXLOAD (R351). -/
def execSxload (a b : BitVec 5) (ta tb : Bool) (s : State) : Out State :=
  s.issueWith (.all [s.sfxReady, s.needS a ta, s.needS b tb, firstOf [imageCheck (s.s b), ctxCheck (s.s a) 0x1F]]) fun s =>
    s.sfxIssue (s.s a) (.load (s.s b))

/-! ### Images (R350, R351) -/

/-- A list padded with zeros to a multiple of 128 bytes. -/
def pad128 (l : List Byte) : List Byte := l ++ List.replicate ((128 - l.length % 128) % 128) 0

/-- The retained tokens in position order. -/
def SfxCtx.history (c : SfxCtx) : List (BitVec 24) := c.head ++ c.tail

/-- The words of a history section. -/
def historyBytes (l : List (BitVec 24)) : List Byte := l.flatMap fun t => leBytes 4 t.toNat

/-- An image with the given index section, or without one (R350). -/
def SfxCtx.image (c : SfxCtx) (index : Option (List Byte)) : List Byte :=
  let h := historyBytes c.history
  let ix := index.getD []
  let head := [0x49584653, 1, c.quota, c.pin, c.minm, c.len, c.gap, c.retained, (if index.isNone then 0 else 1), ix.length, (crc32c h).toNat]
  pad128 (head.flatMap fun x => leBytes 4 x) ++ pad128 h ++ ix

/-- An index section within the bounds of R350 (log 14). -/
def SfxCtx.indexOf (c : SfxCtx) (k : Nat) : Option (List Byte) :=
  (Config.suffixIndex k).map fun l =>
    let l := l.take (32 * c.retained + 4224)
    l.take (l.length / 128 * 128)

/-- A 32-bit field of an image. -/
def imgWord (l : List Byte) (off : Nat) : Nat := leNat ((l.drop off).take 4)

/-- The checks of R351 on an image's first line. -/
def headOk (l : List Byte) : Bool :=
  let q := imgWord l 0x08
  let f := imgWord l 0x0C
  let m := imgWord l 0x10
  let n := imgWord l 0x14
  let g := imgWord l 0x18
  let r := imgWord l 0x1C
  decide (imgWord l 0 = 0x49584653 ∧ imgWord l 4 = 1) && ((l.drop 0x2C).take 84).all (· == 0)
    && decide (0 < q ∧ q ≤ 2 ^ 20 ∧ f < q ∧ 1 ≤ m ∧ m ≤ 64 ∧ f ≤ g ∧ n < 2 ^ 24 ∧ r = Nat.min f n + (n - g) ∧ r ≤ q ∧ imgWord l 0x24 < 2 ^ 30)

/-- The length of an image, from its first line. -/
def imageLen (l : List Byte) : Nat := 0x80 + (4 * imgWord l 0x1C + 127) / 128 * 128 + imgWord l 0x24

/-- The history words of an image. -/
def imageHistory (l : List Byte) : List Nat := (List.range (imgWord l 0x1C)).map fun i => imgWord l (0x80 + 4 * i)

/-- The checks of R351 on a whole image. -/
def imageOk (l : List Byte) : Bool :=
  headOk l && (imageHistory l).all (fun t => decide (t < 2 ^ 24))
    && (crc32c ((l.drop 0x80).take (4 * imgWord l 0x1C))).toNat == imgWord l 0x28

/-- The context that an image describes (R351). -/
def imageCtx (l : List Byte) (job : BitVec 6) : SfxCtx :=
  let f := imgWord l 0x0C
  let n := imgWord l 0x14
  let g := imgWord l 0x18
  let h := (imageHistory l).map (BitVec.ofNat 24)
  let k := Nat.min f n
  { conf := true, job := job, quota := imgWord l 0x08, pin := f, minm := imgWord l 0x10, len := n, gap := g
    head := h.take k, tail := h.drop k }

/-! ### Performing (R345-R354) -/

/-- How an operation ends: it has performed, fails with a cause and a code, or parks at a line. -/
inductive SfxEnd where
  | done (s : State)
  | fail (s : State) (cause : BitVec 8) (code : Nat)
  | park (s : State) (o : SfxOp) (va : Word)

/-- The accesses of an operation. -/
def SfxOp.who (o : SfxOp) : Who := if o.sup then ⟨none, true⟩ else ⟨some o.job, false⟩

/-- Writes the lines of an image from a line on (R350, R352). -/
def sfxStore (o : SfxOp) (va : Word) : Nat → State → Nat → SfxEnd
  | 0, s, _ => .done s
  | fuel + 1, s, i =>
    if o.image.length ≤ 128 * i then .done s
    else
      let at_ := va + BitVec.ofNat 64 (128 * i)
      let bs := (o.image.drop (128 * i)).take 128
      match s.reach o.who true at_ bs.length with
      | (s, .error .absent) => .park s { o with parked := true, done := i } at_
      | (s, .error _) => .fail s 0x09 0x09
      | (s, .ok l) =>
        let (s, lost) := s.physWrite o.who l.key l.pa bs
        let s := s.cacheWrites 6 (s.lineWrites l.pa bs)
        let s := if lost then { s with core := { s.core with lostWrites := s.core.lostWrites ++ [at_] } } else s
        sfxStore o va fuel s (i + 1)

/-- Reads the lines of an image from a line on until its length is reached (R351, R352). -/
def sfxFetch (o : SfxOp) (va : Word) : Nat → State → Nat → List Byte → SfxEnd ⊕ (State × List Byte)
  | 0, s, _, acc => .inr (s, acc)
  | fuel + 1, s, i, acc =>
    let at_ := va + BitVec.ofNat 64 (128 * i)
    match s.vRead o.who at_ 128 with
    | (s, .error .absent) => .inl (.park s { o with parked := true, done := i, image := acc } at_)
    | (s, .error .poison) => .inl (.fail s 0x0A Config.poisonCode.toNat)
    | (s, .error _) => .inl (.fail s 0x09 0x09)
    | (s, .ok bs) => sfxFetch o va fuel s (i + 1) (acc ++ bs)

/-- SXSAVE: it captures the context once and writes its image (R350). -/
def State.sfxSave (s : State) (d : BitVec 2) (o : SfxOp) (va : Word) : SfxEnd :=
  let c := (s.die d).ctx o.ctx
  let fresh := o.image.isEmpty
  let img := if fresh then c.image (c.indexOf s.fresh) else o.image
  let s := if fresh then { s with fresh := s.fresh + 1 } else s
  if 2 ^ 48 < va.toNat + img.length then .fail s 0x0D 0x16 else sfxStore { o with image := img } va (img.length / 128 + 1) s o.done

/-- SXLOAD: it reads the whole image, as long as its header says, checks it, then changes the context (R345, R351, log 44). -/
def State.sfxLoad (s : State) (d : BitVec 2) (o : SfxOp) (va : Word) : SfxEnd :=
  match (if o.done = 0 then sfxFetch o va 1 s 0 [] else .inr (s, o.image)) with
  | .inl e => e
  | .inr (s, head) =>
    if 2 ^ 48 < va.toNat + imageLen head then .fail s 0x0D 0x16
    else match sfxFetch o va ((imageLen head + 127) / 128 - Nat.max 1 o.done) s (Nat.max 1 o.done) head with
      | .inl e => e
      | .inr (s, l) =>
        if !imageOk l then .fail s 0x0D 0x14
        else if !(s.die d).quotaFits o.ctx (imgWord l 8) then .fail s 0x0D 0x12
        else .done (s.setCtx d o.ctx (imageCtx l o.job))

/-- The value of an operation's Sd lands (R124, R348, R349). -/
def State.sfxResult (s : State) (o : SfxOp) (n : BitVec 5) (v : Word) : State :=
  s.result { sup := o.sup, op := .value n v 0, no := o.no, snap := o.snap } n v

/-- A query's drafts. Those of a query that the checkpoint snapshot found outstanding are no part of what a rollback takes back, since it is not issued
again (R354, R373). -/
def Core.drafts (x : Core) (snap : Bool) (off : Nat) (bs : List Byte) : Core :=
  if !snap then x.scratchWrite off bs
  else
    let x := x.unjournalled fun x => x.scratchWrite off bs
    { x with journal := x.journal.map fun u => match u with
        | .scratch k old => .scratch k (((List.range old.length).zip old).map fun p =>
            if off ≤ 64 * k + p.1 then bs.getD (64 * k + p.1 - off) p.2 else p.2)
        | u => u }

/-- A query's drafts are written on path X and go on record (R307); the landing that comes with them is an acquire for them, so that later S and V loads
read them, and none reads what stood there before (R348). -/
def State.putDrafts (s : State) (snap : Bool) (off : Nat) (bs : List Byte) : State :=
  let x := s.core.drafts snap off bs
  if s.comp then { s with core := x }
  else
    let a : ScratchAccess := { path := 6, ac := 0, off := off, size := bs.length, now := false, closed := 3 }
    { s with core := x.noted s.core a s.fresh (bs.map (·, true)), fresh := s.fresh + 1 }

/-- One operation at the unit of die d, whole, with its core in focus (R345-R351). A save that goes on at a line has captured its context before, and is
checked no more (R352, R353). -/
def State.sfxPerform (s : State) (d : BitVec 2) (o : SfxOp) : SfxEnd :=
  let die := s.die d
  let c := die.ctx o.ctx
  let flawed := c.conf && die.sfxFlaws.contains o.ctx.toNat
  let goesOn := match o.kind with
    | .save _ => !o.image.isEmpty
    | _ => false
  let alive : Except Nat Unit :=
    if goesOn then .ok ()
    else if c.conf ∧ c.job ≠ o.job then .error 0x11
    else match o.kind with
      | .cfg _ _ _ | .stat _ => .ok ()
      | .load _ => if c.fail ∨ flawed then .error 0x20 else .ok ()
      | _ => if c.fail ∨ flawed then .error 0x20 else if !c.conf then .error 0x10 else .ok ()
  match alive with
  | .error 0x20 =>
    let s := if flawed then (s.setCtx d o.ctx { fail := true }).onDie d fun x => { x with sfxFlaws := x.sfxFlaws.filter (· ≠ o.ctx.toNat) } else s
    .fail s 0x0D 0x20
  | .error e => .fail s 0x0D e
  | .ok () =>
    match o.kind with
    | .cfg q f m =>
      if q = 0 then .done (s.setCtx d o.ctx {})
      else if !die.quotaFits o.ctx q then .fail s 0x0D 0x12
      else .done (s.setCtx d o.ctx { conf := true, job := o.job, quota := q, pin := f, minm := m, gap := f })
    | .app toks =>
      if 2 ^ 24 ≤ c.len + toks.length then .fail s 0x0D 0x13
      else .done (s.setCtx d o.ctx (toks.foldl (fun c t => c.append (t.setWidth 24)) c))
    | .qry n off k =>
      let r := c.query k
      let s := s.setCtx d o.ctx { c with ml := r.1, dc := r.2.length }
      let s := if r.2.isEmpty then s else s.putDrafts o.snap off (historyBytes r.2)
      .done (s.sfxResult o n (BitVec.ofNat 64 (r.1 * 256 + r.2.length)))
    | .stat n => .done (s.sfxResult o n c.status)
    | .save va => s.sfxSave d o va
    | .load va => s.sfxLoad d o va

/-- The image address of an operation. -/
def SfxKind.image : SfxKind → Word
  | .save va => va
  | .load va => va
  | _ => 0

/-- The k-th operation of the unit may perform: none of its core's stands before it, and a parked one waits until its task runs again. -/
def State.sfxMay (s : State) (d : BitVec 2) (k : Nat) : Option SfxOp :=
  match (s.die d).sfxOps[k]? with
  | none => none
  | some o =>
    let x := s.getCore ⟨d, o.core⟩
    if ((s.die d).sfxOps.take k).any (fun p => p.core == o.core) || (o.parked && !x.retries) then none else some o

/-- SUFFIX_OP_PERFORM: the unit of a die performs its k-th waiting operation whole (R353); a failure is reported to the core (R345), and a
line that does not translate suspends its task (R352). -/
def execSuffixOpPerform (die : BitVec 2) (k : Nat) (s : State) : Out State :=
  .next (s.orHold fun s => match s.sfxMay die k with
    | none => s
    | some o =>
      s.within ⟨die, o.core⟩ fun s =>
        let out (s : State) : State := s.onDie die fun d => { d with sfxOps := dropAt d.sfxOps k }
        match s.sfxPerform die o with
        | .done s => out s
        | .park s o va => (s.onDie die fun d => { d with sfxOps := setAt d.sfxOps k o }).lateReport 0x08 va o.sup
        | .fail s cause code =>
          let s := match o.kind with
            | .qry n _ _ => (out s).sfxResult o n (BitVec.allOnes 64)
            | _ => out s
          s.lateReport cause (sfxVal o.kind.image o.kind.opcode o.ctx.toNat code) o.sup)

end Sys2Proof.Machine
end

