-- ==== Sys2Proof/Machine/Records.lean ====
section
/-! DEFINITION. Records in memory: reading them, checking a launch and a task record, and the completion of a task (01_described, R37, R38,
R43, R44, R413). -/

namespace Sys2Proof.Machine

open Sys2Proof

/-! ### Reading -/

/-- Sets a bit of HIF_ERR (R34). -/
def State.setErr (s : State) (i : Nat) : State := s.onDev fun d => { d with err := d.err ||| (1#8 <<< i) }

/-- A supervisor access through root entries of a job (R212). -/
def jobWho (job : BitVec 6) : Who := ⟨some job, true⟩

/-- Bytes at an address field of a record; a nonzero bit above 47 is a translation not present (R9). Where the address resolves outside device memory the
bytes are read there: no failure is given for it (log 68). -/
def State.recBytes (s : State) (job : BitVec 6) (va n : Nat) : State × Except (Flt × Word) (List Byte) :=
  s.vReadAll (jobWho job) (BitVec.ofNat 64 va) n

/-- A field of a byte list. -/
def field (bs : List Byte) (off n : Nat) : Nat := leNat ((bs.drop off).take n)

/-- A kernel table entry (R10): text offset, text length, entry offset, reserved. -/
structure Kernel where
  text  : Nat
  len   : Nat
  entry : Nat
  resv  : Nat
  deriving DecidableEq, Repr

/-- A code object's header and its kernel table (R10). -/
structure Code where
  version : Nat
  count   : Nat
  resv    : Nat
  kernels : List Kernel
  deriving DecidableEq, Repr

/-- Reads a code object; none when it cannot be read. With a kernel count that R10 does not allow the table is not read (log 69). -/
def State.readCode (s : State) (job : BitVec 6) (va : Nat) : State × Option Code :=
  match s.recBytes job va 16 with
  | (s, .error _) => (s, none)
  | (s, .ok h) =>
    let n := field h 4 4
    if n = 0 ∨ 1024 < n then (s, some ⟨field h 0 4, n, field h 8 8, []⟩)
    else match s.recBytes job (va + 16) (16 * n) with
      | (s, .error _) => (s, none)
      | (s, .ok t) => (s, some ⟨field h 0 4, n, field h 8 8, (List.range n).map fun k =>
          ⟨field t (16 * k) 4, field t (16 * k + 4) 4, field t (16 * k + 8) 4, field t (16 * k + 12) 4⟩⟩)

/-- A preload entry (R18): source, offset, length. -/
structure PreEntry where
  src : Nat
  off : Nat
  len : Nat
  deriving DecidableEq, Repr

/-- Reads a preload list, of a count above 16 the first 16 entries (log 69); none when it cannot be read. -/
def State.readPreloads (s : State) (job : BitVec 6) (va n : Nat) : State × Option (List PreEntry) :=
  let n := Nat.min n 16
  if n = 0 then (s, some [])
  else match s.recBytes job va (16 * n) with
    | (s, .error _) => (s, none)
    | (s, .ok t) => (s, some ((List.range n).map fun i => ⟨field t (16 * i) 8, field t (16 * i + 8) 4, field t (16 * i + 12) 4⟩))

/-! ### The launch check (R19, R38) -/

/-- A stage descriptor (R17). -/
def stageDesc (l : BitVec 2048) (k : Nat) : Nat := recField l (0x80 + 16 * k) 16

/-- The kernel of a stage. -/
def stageKernel (l : BitVec 2048) (k : Nat) : Nat := recField l (0x80 + 16 * k) 2

/-- A legal kernel table entry (R10). -/
def Kernel.ok (k : Kernel) : Bool :=
  decide (k.text % 32 = 0 ∧ k.len % 32 = 0 ∧ 32 ≤ k.len ∧ k.len ≤ 131072 ∧ k.entry % 32 = 0 ∧ k.entry < k.len)

/-- The status of a launch record (R19), given its code object and preload list; none for one that cannot be read. A preload count above 16 gives 0x17
(log 69). -/
def launchStatus (l : BitVec 2048) (code : Option Code) (pre : Option (List PreEntry)) (protects fuses : Bool) : Nat :=
  match code, pre with
  | none, _ => 0x12
  | _, none => 0x17
  | some c, some ps =>
    let nl := recField l 0x0C 2
    let ns := recField l 0x0E 2
    let lv := List.range (Nat.min nl 8)
    let desc (i : Nat) : BitVec 64 := levelDesc l i
    let bind (i : Nat) : Nat := bits (desc i) 0 3
    let scope (i : Nat) : Nat := bits (desc i) 4 3
    let npre := recField l 0x24 4
    let flags := recField l 4 4
    let st := List.range (Nat.min ns 8)
    let conds : List (Nat × Bool) := [
      (0x10, recField l 0 4 != 1 || c.version != 1 || c.resv != 0 || recField l 0x38 8 != 0 || decide (2 ^ 7 ≤ flags)
        || lv.any (fun i => bits (desc i) 32 32 != 0 || bits (desc i) 8 8 != 0 || (desc i).getLsbD 3)
        || st.any (fun k => recField l (0x84 + 16 * k) 4 != 0)
        || (List.range 8).any (fun i => decide (nl ≤ i) && desc i != 0) || (List.range 8).any (fun k => decide (ns ≤ k) && stageDesc l k != 0)
        || c.kernels.any (fun k => k.resv != 0)),
      (0x11, nl == 0 || decide (8 < nl) || decide (8 < ns) || decide (65536 < recField l 0x20 4)
        || st.any (fun k => decide (c.count ≤ stageKernel l k))),
      (0x12, decide (recField l 0x10 8 % 64 ≠ 0) || c.count == 0 || decide (1024 < c.count) || c.kernels.any (fun k => !k.ok)),
      (0x13, lv.any (fun i => decide (5 < bind i)) || lv.any (fun i => decide (0 < i) && decide (Nat.max (bind i) 1 < Nat.max (bind (i - 1)) 1))),
      (0x14, lv.any fun i => decide (5 < scope i) || decide (scope i + 1 < bind i)),
      (0x15, decide (2 ^ 32 < extentBelow l 8)),
      (0x16, lv.any fun i => (desc i).getLsbD 7 && (bind i == 5 || decide ([1, 1, 12, 144, 576].getD (bind i) 0 < extentBelow l (i + 1)))),
      (0x17, st.any (fun k => recField l (0x82 + 16 * k) 2 == 0) || decide (16 < npre) || (npre != 0 && decide (recField l 0x28 8 % 16 ≠ 0))
        || (flags.testBit 1 && npre != 0) || ps.any (fun p => decide (p.off % 64 ≠ 0 ∨ p.len % 64 ≠ 0 ∨ 2 ^ 20 < p.off + p.len))),
      (0x18, (flags.testBit 6 && !protects) || (flags.testBit 0 && !fuses))]
    ((conds.find? Prod.snd).map Prod.fst).getD 1

/-- Reads a launch record (R12, R20): aligned, translating, readable; none otherwise. -/
def State.readLaunch (s : State) (job : BitVec 6) (va : Nat) : State × Option (BitVec 2048) :=
  if va % 128 ≠ 0 ∨ 2 ^ 48 ≤ va then (s, none)
  else match s.recBytes job va 256 with
    | (s, .error _) => (s, none)
    | (s, .ok bs) => (s, some (BitVec.ofNat 2048 (leNat bs)))

/-- LAUNCH_RECORD_CHECK: the first time on a die, or once the status field reads 0 again (R19, R21), the device checks the record and writes
its status; afterwards the status stands. A status store that cannot be made is dropped, and the computed status counts (log 69). -/
def State.launchCheck (s : State) (d : BitVec 2) (t : Task) : State × Nat :=
  let known := (s.die d).launches.any fun x => x.launchAddr == t.launchAddr
  let old := recField t.launch 8 4
  if known && old != 0 then (s, old)
  else
    let c := s.readCode t.job t.code
    let p := c.1.readPreloads t.job t.preloadList t.preloads
    let st := launchStatus t.launch c.2 p.2 (s.feature 3) (s.feature 6)
    let s := (p.1.vWrite (jobWho t.job) (BitVec.ofNat 64 (t.launchAddr + 8)) (leBytes 4 st)).1
    (s.onDie d fun x => { x with launches := x.launches.filter (fun y => y.launchAddr != t.launchAddr) ++ [t] }, st)

/-! ### The record check (R20, R22) -/

/-- The position of this device in its fabric group: none without a valid rank in the group (R205). -/
def State.fabricPos (s : State) : Option Nat :=
  let r := bits s.dev.fabRank 0 8
  if s.dev.fabRank.getLsbD 8 ∧ s.inGroup r then some (countIf (fun i => s.inGroup i) (List.range r)) else none

/-- Some level of a launch is bound to FABRIC. -/
def Task.fabric (t : Task) : Bool := (List.range t.levels).any fun i => t.bind i == 5

/-- A FABRIC coordinate names another device (R15, R205). -/
def Task.elsewhere (t : Task) (pos : Nat) : Bool := (List.range t.levels).any fun i => t.bind i == 5 && t.coord i != pos

/-- The fields of a record that are wrong whatever its launch (R9, R22). A bad successor or array address is left to R43, which skips it (log 69). -/
def Task.badFields (t : Task) : Bool :=
  t.record.getLsbD 55 || decide (bits t.record 59 5 ≠ 0) || decide (5 < t.scope) || recField t.record 0x42 6 != 0 || decide (2 ^ 63 ≤ t.seqVal)
    || decide (4095 < t.succCount) || decide (t.complAddr % 8 ≠ 0) || decide (t.saveArea % 4096 ≠ 0)
    || [t.args, t.launchAddr, t.complAddr, t.saveArea].any fun a => decide (2 ^ 48 ≤ a)

/-- The fields of a record that its launch makes wrong (R16, R22). -/
def Task.badPlace (t : Task) (kernels : Nat) : Bool :=
  decide (kernels ≤ t.kernel) || (if t.stages = 0 then t.stage != 0 else decide (t.stages ≤ t.stage) || t.kernel != stageKernel t.launch t.stage)
    || (List.range 8).any fun i => decide (levelExtent t.launch i ≤ t.coord i)

/-! ### Completion (R20, R43) -/

/-- The completion store of a value: none for address 0 or a misaligned one; one that cannot be made sets CWDROP (R20, R43). -/
def State.completionStore (s : State) (t : Task) (v : Nat) : State :=
  if t.complAddr = 0 ∨ t.complAddr % 8 ≠ 0 then s
  else match s.vWrite (jobWho t.job) (BitVec.ofNat 64 t.complAddr) (leBytes 8 v) with
    | (s, .ok false) => s
    | (s, _) => s.setErr 4

/-- TASK_REJECT_COMPLETION: a record that is not run gets its sequence value with bit 63 set (R20, R44). -/
def State.rejectTask (s : State) (t : Task) : State := s.completionStore t (t.seqVal ||| 2 ^ 63)

/-- One successor decrement is on its way, in the list that `list` numbers, or is skipped (R43). -/
def State.succDec (s : State) (job : BitVec 6) (list a : Nat) : State :=
  if a % 128 ≠ 0 ∨ 2 ^ 48 ≤ a then s.setErr 5
  else match s.translateHeld (jobWho job) true (BitVec.ofNat 64 a) with
    | (s, .error _) => s.setErr 5
    | (s, .ok l) =>
      match region l.pa with
      | .device _ =>
        if (s.lineMeta (l.pa / 128)).poison then s.setErr 5
        else s.onDev fun d => { d with decs := d.decs ++
          [{ record := BitVec.ofNat 48 a, pa := BitVec.ofNat 52 l.pa, key := BitVec.ofNat 6 l.key, job := job, host := false, core := none, list := list }] }
      | _ => s.setErr 5

/-- Some piece of a range of addresses lies outside device memory; one whose translation waits for a channel group is left to the read, which waits too
(R39). -/
def State.outsideDevice (s : State) (w : Who) : Nat → Nat → Nat → Bool
  | 0, _, _ => false
  | fuel + 1, va, n =>
    if n = 0 then false
    else
      let here := match (s.translate w false (BitVec.ofNat 64 va)).2 with
        | .ok l => match region l.pa with
          | .device _ => false
          | _ => true
        | .error .wait => false
        | .error _ => true
      here || s.outsideDevice w fuel (va + (128 - va % 128)) (n - Nat.min n (128 - va % 128))

/-- The successors of a record in order; none when their array cannot be read (R22, R43). -/
def State.successors (s : State) (t : Task) : State × Option (List Nat) :=
  if t.succCount ≤ 7 then (s, some ((List.range t.succCount).map t.succ))
  else
    let a := t.succ 0
    let n := 8 * t.succCount
    if a % 8 ≠ 0 ∨ s.outsideDevice (jobWho t.job) (n / 128 + 2) a n then (s, none)
    else match s.recBytes t.job a n with
      | (s, .error _) => (s, none)
      | (s, .ok bs) => (s, some ((List.range t.succCount).map fun i => field bs (8 * i) 8))

/-- COMPLETION_STORE: the sequence value, then the successors in list order (R43). -/
def State.complete (s : State) (t : Task) : State :=
  match (s.completionStore t t.seqVal).successors t with
  | (s, none) => s.setErr 5
  | (s, some l) => l.foldl (fun r a => r.succDec t.job (s.fresh + 1) a) { s with fresh := s.fresh + 1 }

end Sys2Proof.Machine
end

