-- ==== Sys2Proof/Machine/Save.lean ====
section
/-! DEFINITION. The context save area (R359, R367, R368): its image, writing it, reading it back, and the fault ring (R365). -/

namespace Sys2Proof.Machine

open Sys2Proof

/-! ### What a save writes -/

/-- The registers of a core's task; at a trap the captured control state and results belong to them, and the task goes on at TRAP_PC (R358). -/
def Core.taskRegs (x : Core) : Regs :=
  match x.captured with
  | none => x.regs
  | some c => { x.regs with
      pc := x.regs.trapPc, status := x.regs.status &&& ~~~1#64, pend := c.pend, shadow := c.shadow, loops := c.loops
      ended := c.endPc == some x.regs.trapPc
      vrb := c.vrb, prb := c.prb, flight := c.flight, ckptDue := c.ckptDue, before := c.before }

/-- KIND of a result in the pending-results record; 0 for one that it has no form for (R359). -/
def Land.kind : Land → Nat
  | .s _ _ => 1
  | .a _ _ => 2
  | .v _ _ _ => 3
  | .p _ _ _ => 4
  | .store _ _ _ _ _ => 5
  | .rb _ _ => 6
  | .late _ _ => 7
  | _ => 0

/-- NUM of a result (R359). -/
def Land.num : Land → Nat
  | .s i _ => i.toNat
  | .late i _ => i.toNat
  | .a i _ => i.toNat
  | .v i _ _ => i.toNat
  | .p i _ _ => i.toNat
  | .store sl _ _ _ _ => if sl = .v0 then 1 else if sl = .v1 then 2 else 0
  | .rb i _ => i.toNat
  | _ => 0

/-- OFF of a store (R359). -/
def Land.off : Land → Nat
  | .store _ o _ _ _ => o
  | _ => 0

/-- Data and byte mask of a result in the data region (R359). -/
def Land.data : Land → VReg × PReg
  | .v _ x m => (x, m)
  | .p _ x m => (x.setWidth 8192, m)
  | .store _ _ x m _ => (x, m)
  | .rb _ x => (x, BitVec.allOnes 1024)
  | _ => (0, 0)

/-- VALUE of an S or A result. -/
def Land.value : Land → Word
  | .s _ x => x
  | .late _ x => x
  | .a _ x => x
  | _ => 0

/-- The i-th entry of the record (R359): a value that has arrived is KIND 7 with ARR set. -/
def entryBytes (i : Nat) (f : InFlight) : List Byte :=
  let k := f.what.kind
  let w0 := k + f.what.num * 2 ^ 8 + f.left % 256 * 2 ^ 16 + f.flags.toNat * 2 ^ 24 + (if k = 7 then 2 ^ 29 else 0) + f.what.off * 2 ^ 32
  let w1 := if 3 ≤ k ∧ k ≤ 6 then 1024 * i + (65536 + 128 * i) * 2 ^ 32 else f.what.value.toNat
  leBytes 8 w0 ++ leBytes 8 w1

/-- The entry of an S register that still awaits its value: KIND 7 without ARR (R359). -/
def awaitBytes (n : Nat) : List Byte := leBytes 8 (7 + n * 2 ^ 8) ++ leBytes 8 0

/-- The S registers that await a value which has not arrived. -/
def Regs.awaiting (r : Regs) : List Nat :=
  (List.range 32).filter fun n => !r.sFull.getLsbD n && !r.flight.any fun f => match f.what with
    | .late k _ => k.toNat == n
    | _ => false

/-- The results of a list that the record holds, at most 64. -/
def recorded (l : List InFlight) : List InFlight := (l.filter fun f => f.what.kind != 0).take 64

/-- The others, which the area holds in device-private form (log 20). -/
def unrecorded (l : List InFlight) : List InFlight :=
  l.filter (fun f => f.what.kind == 0) ++ (l.filter fun f => f.what.kind != 0).drop 64

/-- A list padded with zero bytes to n. -/
def padTo (n : Nat) (l : List Byte) : List Byte := l.take n ++ List.replicate (n - l.length) 0

/-- The first 4 KiB of the area (R367). -/
def headerBytes (x : Core) (r : Regs) (kind cause : Nat) (val : Word) : List Byte :=
  let ctl := (r.pend.map Pending.left).getD 0 + r.vrb.toNat * 2 ^ 4 + r.prb.toNat * 2 ^ 12 + r.loops.length * 2 ^ 16
  let loop (l : Loop) : List Byte := leBytes 8 l.start.toNat ++ leBytes 8 l.stop.toNat ++ leBytes 8 l.count.toNat ++ leBytes 8 (if l.rot then 1 else 0)
  let mode (m : AMode) : Nat := m.mode.toNat + m.step.toNat * 4 + m.param.toNat * 256
  let slot (n : NSlot) : List Byte := match n with
    | none => leBytes 16 0
    | some (line, v) => leBytes 8 (line.toNat + 2 ^ 63) ++ leBytes 8 v.toNat
  leBytes 4 kind ++ leBytes 4 cause ++ leBytes 8 r.pc.toNat ++ leBytes 8 val.toNat
    ++ leBytes 8 (((r.pend.map Pending.target).getD 0).toNat) ++ leBytes 4 ctl ++ leBytes 4 r.countQ.length
    ++ leBytes 4 r.sFull.toNat ++ leBytes 4 r.aFull.toNat
    ++ leBytes 8 r.status.toNat ++ leBytes 8 r.fpstat.toNat ++ leBytes 8 r.tileFlags.toNat ++ leBytes 8 r.seed.toNat ++ leBytes 8 r.rnd.toNat
    ++ leBytes 8 (if r.dbgPend then 1 else 0)
    ++ padTo 128 (r.loops.flatMap loop)
    ++ leBytes 8 r.asked ++ leBytes 8 x.cycles.toNat ++ leBytes 8 x.bundles.toNat ++ leBytes 8 0
    ++ r.s.toList.flatMap (fun v => leBytes 8 v.toNat)
    ++ (r.a.toList.zip r.aMode.toList).flatMap (fun p => leBytes 8 p.1.toNat ++ leBytes 8 (mode p.2))
    ++ r.d.toList.flatMap (fun v => leBytes 4 v.toNat)
    ++ (r.wBase.toList.zip r.wLen.toList).flatMap (fun p => leBytes 8 p.1.toNat ++ leBytes 8 p.2.toNat)
    ++ leBytes 64 r.k.toNat ++ r.g.toList.flatMap (fun v => leBytes 8 v.toNat) ++ r.n.toList.flatMap slot
    ++ r.y.toList.flatMap (fun v => leBytes 32 v.toNat) ++ r.p.toList.flatMap (fun v => leBytes 128 v.toNat)

/-- Bytes whose form the spec leaves to the device (R368, log 20). -/
def privateBytes (fresh off n : Nat) : List Byte := (List.range n).map fun i => Config.privateByte fresh (off + i)

/-- Semaphores, count queue and the device-private blocks from 0x1400 up to 0x1BFF (R368). -/
def controlBytes (r : Regs) (fresh : Nat) : List Byte :=
  r.sem.toList.flatMap (fun v => leBytes 8 v.toNat) ++ padTo 256 (r.countQ.flatMap fun v => leBytes 4 v.toNat) ++ privateBytes fresh 0x1700 0x500

/-- The region of record data and masks. -/
def recordData (l : List InFlight) : List Byte :=
  padTo 65536 (l.flatMap fun f => leBytes 1024 f.what.data.1.toNat) ++ padTo 8192 (l.flatMap fun f => leBytes 128 f.what.data.2.toNat)

/-- The rest of the area, from its offset 0x1000 (R368). -/
def areaBytes (x : Core) (r : Regs) (fresh : Nat) : List Byte :=
  let rec_ := recorded r.flight
  padTo 1024 ((((List.range rec_.length).zip rec_).flatMap fun p => entryBytes p.1 p.2) ++ r.awaiting.flatMap awaitBytes)
    ++ controlBytes r fresh ++ leBytes 1024 r.codebook.toNat ++ recordData rec_ ++ privateBytes fresh 0x14000 65536
    ++ r.v.toList.flatMap (fun v => leBytes 1024 v.toNat) ++ x.rb.toList.flatMap (fun v => leBytes 1024 v.toNat)
    ++ (Sparse.range 0 x.bankRow 0 512).flatMap (fun v => leBytes 256 v.toNat)
    ++ (Sparse.range 0 x.tiles 0 131072).flatMap (fun v => leBytes 4 v.toNat) ++ Sparse.range 0 x.scratch 0 0x200000

/-- Bytes of a whole context save area (R367). -/
def areaSize : Nat := 0x2D8000

/-! ### Accesses to the area -/

/-- The physical place of a line of the area, which must lie in device memory (R367). -/
def State.areaPlace (s : State) (w : Who) (write : Bool) (va : Word) : State × Except Flt Leaf :=
  match s.translateHeld w write va with
  | (s, .error f) => (s, .error f)
  | (s, .ok l) => match region l.pa with
    | .device _ => if s.channelReady l.pa then (s, .ok l) else (s.hold, .error .wait)
    | _ => (s, .error .perm)

/-- A failure at a line of the area: TRAP_VAL holds the line's address (R368). -/
def lineReport (cause : BitVec 8) (va : Word) : Report := ⟨cause, va &&& ~~~127#64⟩

/-- Writes a line of the area: it needs READ and WRITE, and no poison (R368). -/
def State.areaLine (s : State) (w : Who) (va : Word) (bs : List Byte) : State × Option Report :=
  match s.areaPlace w false va with
  | (s, .error f) => (s, some (lineReport f.cause va))
  | (s, .ok _) => match s.areaPlace w true va with
    | (s, .error f) => (s, some (lineReport f.cause va))
    | (s, .ok l) => match s.writePlain l.key l.pa bs with
      | (s, true) => (s, some (lineReport 0x0A va))
      | (s, false) => (s, none)

/-- Writes lines of the area from an address on; the first that fails ends it. -/
def State.areaWrite (w : Who) : Nat → State → Word → List Byte → State × Option Report
  | 0, s, _, _ => (s, none)
  | fuel + 1, s, va, bs =>
    if bs.isEmpty then (s, none)
    else
      let k := Nat.min bs.length (128 - va.toNat % 128)
      match s.areaLine w va (bs.take k) with
      | (s, some e) => (s, some e)
      | (s, none) => State.areaWrite w fuel s (va + BitVec.ofNat 64 k) (bs.drop k)

/-- Writes several blocks of the area, each at its offset. -/
def State.areaBlocks (w : Who) (base : Nat) : List (Nat × List Byte) → State → State × Option Report
  | [], s => (s, none)
  | (o, bs) :: t, s =>
    match State.areaWrite w (bs.length / 128 + 2) s (BitVec.ofNat 64 (base + o)) bs with
    | (s, some e) => (s, some e)
    | (s, none) => State.areaBlocks w base t s

/-- Reads lines of the area. -/
def State.areaRead (w : Who) : Nat → State → Word → Nat → State × Except Report (List Byte)
  | 0, s, _, _ => (s, .ok [])
  | fuel + 1, s, va, n =>
    if n = 0 then (s, .ok [])
    else
      let k := Nat.min n (128 - va.toNat % 128)
      match s.areaPlace w false va with
      | (s, .error f) => (s, .error (lineReport f.cause va))
      | (s, .ok l) =>
        if s.anyPoison l.pa k then (s, .error (lineReport 0x0A va))
        else match State.areaRead w fuel s (va + BitVec.ofNat 64 k) (n - k) with
          | (s, .error e) => (s, .error e)
          | (s, .ok r) => (s, .ok (s.readPlain l.key l.pa k ++ r))

/-! ### Saving -/

/-- Reads a block of the area. -/
def State.areaBlock (s : State) (t : Task) (off n : Nat) : State × Except Report (List Byte) :=
  State.areaRead t.who (n / 128 + 2) s (BitVec.ofNat 64 (t.saveArea + off)) n

/-- A store in flight that carries its debug mark (R132). -/
def InFlight.marked (f : InFlight) : Bool :=
  match f.what with
  | .store _ _ _ _ dbg => dbg
  | _ => false

/-- What the device keeps of a save in a form of its own (log 20). -/
def State.savedOf (s : State) (t : Task) (r : Regs) (ranges : List (Nat × Nat)) : Saved where
  area := t.saveArea
  job := t.job
  task := t
  cmds := s.core.cmds
  cmdNo := s.core.cmdNo
  sfx := (s.die s.me.die).sfxOps.filter fun o => o.core == s.me.idx
  flight := unrecorded r.flight
  marks := (recorded r.flight).map InFlight.marked
  memq := s.core.memq
  shadow := r.shadow
  ended := r.ended
  ckptDue := r.ckptDue
  before := r.before
  wakeQ := r.wakeQ
  comp := r.comp
  cb := r.cb
  mailbox := r.mailbox
  claims := r.claims
  bank := r.bank
  arrived := r.arrived
  reports := s.core.reports
  lostWrites := s.core.lostWrites
  lostAdds := s.core.lostAdds
  ranges := ranges

/-- The device keeps a save; an earlier one in the same area is gone. -/
def Device.keep (d : Device) (v : Saved) : Device :=
  { d with saved := d.saved.filter (fun x => !(x.area == v.area && x.job == v.job)) ++ [v] }

/-- What the device kept of a save goes back to its task. -/
def Device.release (d : Device) (v : Saved) : Device := { d with saved := d.saved.filter fun x => !(x.area == v.area && x.job == v.job) }

/-- Writes the full state of the core's task with kind 2 (R364, R367, R368); the report names the line that fails. -/
def State.saveFull (s : State) (t : Task) (r : Regs) (cause : Nat) (val : Word) : State × Option Report :=
  let k := s.fresh
  match State.areaBlocks t.who t.saveArea [(0, headerBytes s.core r 2 cause val ++ areaBytes s.core r k)] { s with fresh := k + 1 } with
  | (s, some e) => (s, some e)
  | (s, none) => (s.onDev fun d => d.keep (s.savedOf t r []), none)

/-- Writes what a YIELD saves, with kind 1 (R371). -/
def State.saveYield (s : State) (t : Task) (ranges : List (Nat × Nat)) : State × Option Report :=
  let r := s.core.regs
  let k := s.fresh
  let blocks := [(0, headerBytes s.core r 1 0 0), (0x1400, controlBytes r k)]
    ++ ranges.map fun p => (0xD8000 + p.1, Sparse.range 0 s.core.scratch p.1 p.2)
  match State.areaBlocks t.who t.saveArea blocks { s with fresh := k + 1 } with
  | (s, some e) => (s, some e)
  | (s, none) => (s.onDev fun d => d.keep { s.savedOf t r ranges with flight := [], cmds := [], sfx := [] }, none)

/-! ### Restoring (R366, R371) -/

/-- A vector register of a list of bytes. -/
def vregAt (b : List Byte) (off : Nat) : VReg := BitVec.ofNat 8192 (field b off 1024)

/-- The i-th entry of a record, with the entries and their data. -/
def entryAt (e d : List Byte) (i : Nat) (dbg : Bool) : Option InFlight :=
  let w0 := field e (16 * i) 8
  let w1 := field e (16 * i + 8) 8
  let num := w0 / 2 ^ 8 % 256
  let data := vregAt d (w1 % 2 ^ 32)
  let mask := BitVec.ofNat 1024 (field d (w1 / 2 ^ 32) 128)
  let mk (l : Land) : Option InFlight := some ⟨w0 / 2 ^ 16 % 256, l, BitVec.ofNat 5 (w0 / 2 ^ 24)⟩
  match w0 % 256 with
  | 1 => mk (.s (BitVec.ofNat 5 num) (BitVec.ofNat 64 w1))
  | 7 => if w0.testBit 29 then mk (.late (BitVec.ofNat 5 num) (BitVec.ofNat 64 w1)) else none
  | 2 => mk (.a (BitVec.ofNat 5 num) (BitVec.ofNat 64 w1))
  | 3 => mk (.v (BitVec.ofNat 6 num) data mask)
  | 4 => mk (.p (BitVec.ofNat 4 num) (data.setWidth 1024) mask)
  | 5 => mk (.store (if num = 1 then .v0 else if num = 2 then .v1 else .s) (w0 / 2 ^ 32) data mask dbg)
  | 6 => mk (.rb (BitVec.ofNat 4 num) data)
  | _ => none

/-- The registers that a header and the control block hold (R367, R368); the codebook and the vectors are zero. -/
def headerRegs (h c : List Byte) : Regs :=
  let ctl := field h 0x20 4
  let left := ctl % 4
  { Regs.zero with
    s := Vector.ofFn fun i => BitVec.ofNat 64 (field h (0x100 + 8 * i) 8)
    sFull := BitVec.ofNat 32 (field h 0x28 4)
    a := Vector.ofFn fun i => BitVec.ofNat 64 (field h (0x200 + 16 * i) 8)
    aFull := BitVec.ofNat 32 (field h 0x2C 4)
    aMode := Vector.ofFn fun i =>
      let w := field h (0x208 + 16 * i) 8
      ⟨BitVec.ofNat 2 w, BitVec.ofNat 4 (w / 4), BitVec.ofNat 6 (w / 256)⟩
    d := Vector.ofFn fun i => BitVec.ofNat 32 (field h (0x400 + 4 * i) 4)
    wBase := Vector.ofFn fun i => BitVec.ofNat 64 (field h (0x440 + 16 * i) 8)
    wLen := Vector.ofFn fun i => BitVec.ofNat 32 (field h (0x448 + 16 * i) 4)
    p := Vector.ofFn fun i => BitVec.ofNat 1024 (field h (0x800 + 128 * i) 128)
    g := Vector.ofFn fun i => BitVec.ofNat 64 (field h (0x500 + 8 * i) 8)
    y := Vector.ofFn fun i => BitVec.ofNat 256 (field h (0x600 + 32 * i) 32)
    k := BitVec.ofNat 512 (field h 0x4C0 64)
    n := Vector.ofFn fun i =>
      let w := field h (0x580 + 16 * i) 8
      if w.testBit 63 then some (BitVec.ofNat 45 w, BitVec.ofNat 48 (field h (0x588 + 16 * i) 8)) else none
    pc := BitVec.ofNat 64 (field h 0x08 8)
    pend := if left = 0 then none else some ⟨BitVec.ofNat 64 (field h 0x18 8), left⟩
    loops := (List.range (Nat.min 4 (ctl / 2 ^ 16 % 8))).map fun i =>
      ⟨BitVec.ofNat 64 (field h (0x60 + 32 * i) 8), BitVec.ofNat 64 (field h (0x68 + 32 * i) 8), BitVec.ofNat 64 (field h (0x70 + 32 * i) 8),
        (field h (0x78 + 32 * i) 8).testBit 0⟩
    vrb := BitVec.ofNat 5 (ctl / 2 ^ 4)
    prb := BitVec.ofNat 3 (ctl / 2 ^ 12)
    status := BitVec.ofNat 64 (field h 0x30 8)
    fpstat := BitVec.ofNat 5 (field h 0x38 8)
    tileFlags := BitVec.ofNat 32 (field h 0x40 8)
    seed := BitVec.ofNat 64 (field h 0x48 8)
    rnd := BitVec.ofNat 64 (field h 0x50 8)
    dbgPend := (field h 0x58 8).testBit 0
    sem := Vector.ofFn fun i => BitVec.ofNat 64 (field c (8 * i) 8)
    countQ := (List.range (Nat.min 64 (field h 0x24 4))).map fun i => BitVec.ofNat 32 (field c (0x200 + 4 * i) 4)
    asked := field h 0xE0 8 }

/-- Stores with the debug marks that they had (R132). -/
def remark : List InFlight → List Bool → List InFlight
  | f :: l, m :: t => (if m then f else f.unmark) :: remark l t
  | l, _ => l

/-- Adds what the device kept of a save. -/
def Core.addSaved (x : Core) (v : Saved) : Core :=
  { x with
    regs := { x.regs with
      shadow := v.shadow, ended := v.ended, ckptDue := v.ckptDue, before := v.before, wakeQ := v.wakeQ, comp := v.comp, cb := v.cb, mailbox := v.mailbox, claims := v.claims, bank := v.bank, arrived := v.arrived
      flight := remark x.regs.flight v.marks ++ v.flight }
    memq := v.memq, cmds := v.cmds, cmdNo := v.cmdNo, reports := v.reports, lostWrites := v.lostWrites, lostAdds := v.lostAdds }

/-- A sparse map of a list of values from key 0 on. -/
def sparseOf [DecidableEq β] (dflt : β) (l : List β) : Sparse β :=
  ((List.range l.length).zip l).filter fun p => decide (p.2 ≠ dflt)

/-- The core of an area of kind 2, whole (R366). -/
def Core.ofArea (x : Core) (b : List Byte) : Core :=
  let h := b.take 0x1000
  let r := headerRegs h (b.drop 0x1400)
  let e := b.drop 0x1000
  let d := b.drop 0x2000
  { x with
    regs := { r with
      codebook := BitVec.ofNat 8192 (field b 0x1C00 1024)
      v := Vector.ofFn fun i => vregAt b (0x24000 + 1024 * i)
      flight := (List.range 64).filterMap fun i => entryAt e d i true }
    rb := Vector.ofFn fun i => vregAt b (0x34000 + 1024 * i)
    bankRow := sparseOf 0 ((List.range 512).map fun i => BitVec.ofNat 2048 (field b (0x38000 + 256 * i) 256))
    tiles := sparseOf 0 ((List.range 131072).map fun i => BitVec.ofNat 32 (field b (0x58000 + 4 * i) 4))
    scratch := sparseOf 0 ((b.drop 0xD8000).take 0x200000)
    cycles := BitVec.ofNat 64 (field h 0xE8 8), bundles := BitVec.ofNat 64 (field h 0xF0 8) }

/-- The named ranges of a YIELD come back to their places (R371). -/
def State.restoreRanges (t : Task) : List (Nat × Nat) → State → State × Option Report
  | [], s => (s, none)
  | (o, n) :: l, s =>
    match s.areaBlock t (0xD8000 + o) n with
    | (s, .error e) => (s, some e)
    | (s, .ok bs) => State.restoreRanges t l { s with core := { s.core with scratch := Sparse.setRange 0 s.core.scratch o bs } }

/-- What the device kept of a task's save. -/
def State.savedFor (s : State) (t : Task) : Option Saved := s.dev.saved.find? fun v => v.area == t.saveArea && v.job == t.job

/-- The task's suffix operations go on at the die of its new core (R352). -/
def State.requeueSfx (s : State) (v : Saved) : State :=
  let me := s.me.idx
  s.onDie s.me.die fun d => { d with sfxOps := d.sfxOps ++ v.sfx.map fun o => { o with core := me } }

/-- A version slot's line where a migration has moved it since (R380). -/
def Device.movedSlot (d : Device) (x : NSlot) : NSlot :=
  x.map fun p => match d.moved.find? fun m => m.1 == p.1.toNat / 512 with
    | some m => (BitVec.ofNat 45 (m.2 * 512 + p.1.toNat % 512), p.2)
    | none => p

/-- Restores the state of the core's task from its area (R366, R371); the report names a line that fails. -/
def State.restore (s : State) (t : Task) (kind : Nat) : State × Option Report :=
  let v := s.savedFor t
  let more (s : State) : State × Option Report :=
    let s := s.onRegs fun r => { r with n := r.n.map s.dev.movedSlot }
    let s : State := match v with
      | none => s
      | some v => (({ s with core := s.core.addSaved v } : State).requeueSfx v).onDev fun d => d.release v
    s.areaLine t.who (BitVec.ofNat 64 t.saveArea) (leBytes 4 0)
  if kind = 2 then
    match s.areaBlock t 0 areaSize with
    | (s, .error e) => (s, some e)
    | (s, .ok b) => more { s with core := s.core.ofArea b }
  else
    match s.areaBlock t 0 0x1000 with
    | (s, .error e) => (s, some e)
    | (s, .ok h) =>
      match s.areaBlock t 0x1400 0x800 with
      | (s, .error e) => (s, some e)
      | (s, .ok c) =>
        let s : State := { s with core := { s.core with
          regs := headerRegs h c, cycles := BitVec.ofNat 64 (field h 0xE8 8), bundles := BitVec.ofNat 64 (field h 0xF0 8) } }
        match State.restoreRanges t ((v.map Saved.ranges).getD []) s with
        | (s, some e) => (s, some e)
        | (s, none) => more s

/-- The kind word of a task's area, or the failure of its line (R368, log 65). -/
def State.areaKind (s : State) (t : Task) : State × Except Report Nat :=
  match s.areaBlock t 0 4 with
  | (s, .error e) => (s, .error e)
  | (s, .ok b) => (s, .ok (field b 0 4))

/-! ### Arming a record and posting (R364, R365) -/

/-- The counter of a record becomes 1, a write of its line (R364). -/
def State.armRecord (s : State) (t : Task) : State := (s.vWrite t.who (t.addr.setWidth 64) (leBytes 4 1)).1

/-- The base of a die's fault ring, where it lies now (R365, R380). -/
def State.ringBase (s : State) (d : BitVec 2) : Nat := s.reaim (bits (s.die d).faultRing 12 40 * 4096)

/-- The ring lies in device or host memory, and none of its lines is poisoned (R365). -/
def State.ringUsable (s : State) (d : BitVec 2) : Bool :=
  let b := s.ringBase d
  (match region b with
   | .device _ | .host => true
   | _ => false) && !s.anyPoison b 4096

/-- A die's ring is in use, and its channel group is not ready: what would read or append to it waits (R39, R365). -/
def State.ringHeld (s : State) (d : BitVec 2) : Bool := (s.die d).faultRing.getLsbD 0 && !s.channelReady (s.ringBase d)

/-- The count of entries in a ring: tail, and tail less head. -/
def State.ringFill (s : State) (d : BitVec 2) : Nat × Nat :=
  let b := s.ringBase d
  let tail := leNat (s.readPlain 0 b 4)
  let head := leNat (s.readPlain 0 (b + 4) 4)
  (tail, (tail + (2 ^ 32 - head)) % 2 ^ 32)

/-- Appends an entry to a ring that has room: the entry, then the tail (R365). -/
def State.ringAppend (s : State) (d : BitVec 2) (e : Post) : State :=
  let b := s.ringBase d
  let tail := (s.ringFill d).1
  let w0 := e.val.toNat % 2 ^ 48 + e.cause.toNat * 2 ^ 48
  let s := (s.writePlain 0 (b + 16 + 16 * (tail % 255)) (leBytes 8 w0 ++ leBytes 8 e.task.addr.toNat)).1
  (s.writePlain 0 b (leBytes 4 (tail + 1))).1

/-- Posts an entry: in a full ring it waits in firmware, behind those that wait (R365). -/
def State.post (s : State) (d : BitVec 2) (e : Post) : State :=
  if !(s.die d).posts.isEmpty || (s.ringFill d).2 == 255 then s.onDie d fun x => { x with posts := x.posts ++ [e] } else s.ringAppend d e

/-- A fate of suspend and post can be carried out: the ring is in use and can be used (R365). -/
def State.canPost (s : State) (d : BitVec 2) : Bool := (s.die d).faultRing.getLsbD 0 && s.ringUsable d

end Sys2Proof.Machine
end

