-- ==== Sys2Proof/Machine/Start.lean ====
section
/-! DEFINITION. Starting a task on a core: its text, its preload ranges and its entry state, or its saved state (R11, R18, R25, R60,
R326, R366). -/

namespace Sys2Proof.Machine

open Sys2Proof

/-! ### Text and preload ranges -/

/-- The text of a task's kernel (R11): its base, its length and entry offset, its words; or the failure of a line of it. -/
structure Text where
  base  : Word
  len   : Nat
  entry : Nat
  words : Sparse Word32
  deriving DecidableEq, Repr

/-- The words of a list of bytes. -/
def wordsOf : List Byte → List Word32
  | a :: b :: c :: d :: t => BitVec.ofNat 32 (leNat [a, b, c, d]) :: wordsOf t
  | _ => []

/-- The failure of an access as a report. -/
def failReport (e : Flt × Word) : Report := ⟨e.1.cause, e.2⟩

/-- Reads the kernel table entry of a task (R10). -/
def State.kernelOf (s : State) (t : Task) : State × Except Report Text :=
  match s.recBytes t.job (t.code + 16 + 16 * t.kernel) 16 with
  | (s, .error e) => (s, .error (failReport e))
  | (s, .ok k) => (s, .ok ⟨BitVec.ofNat 64 (t.code + field k 0 4), field k 4 4, field k 8 4, []⟩)

/-- Loads the whole text of a task's kernel (R11), of the length that the kernel table entry names now (log 77). -/
def State.loadText (s : State) (t : Task) : State × Except Report Text :=
  match s.kernelOf t with
  | (s, .error e) => (s, .error e)
  | (s, .ok x) =>
    match s.recBytes t.job x.base.toNat x.len with
    | (s, .error e) => (s, .error (failReport e))
    | (s, .ok bs) => (s, .ok { x with words := sparseOf 0 (wordsOf bs) })

/-- Copies preload ranges into a bank in list order, so that of two that overlap the later stands (log 78); the first line that fails ends it (R18). The source is read with supervisor rights, so that a SUPER page serves
(log 67). -/
def State.copyRanges (t : Task) : List PreEntry → State → Sparse Byte → State × Sparse Byte × Option Report
  | [], s, m => (s, m, none)
  | p :: l, s, m =>
    match s.recBytes t.job p.src p.len with
    | (s, .error e) => (s, m, some (failReport e))
    | (s, .ok bs) => State.copyRanges t l s (Sparse.setRange 0 m p.off bs)

/-- A task's bank with its preload ranges, every other byte zero (R18, R25). -/
def State.preloadBank (s : State) (t : Task) : State × Sparse Byte × Option Report :=
  match s.readPreloads t.job t.preloadList t.preloads with
  | (s, none) => (s, [], some ⟨0x08, BitVec.ofNat 64 t.preloadList⟩)
  | (s, some l) => State.copyRanges t l s []

/-! ### Starting -/

/-- The registers at task entry (R25); on a companion core S3 is 0 (R326). -/
def Task.entryRegs (t : Task) (comp : Bool) (pc : Word) : Regs :=
  let r := Regs.zero
  { r with
    s := ((r.s.set 1 (BitVec.ofNat 64 t.args)).set 2 (t.addr.setWidth 64)).set 3 (if comp then 0 else BitVec.ofNat 64 t.index)
    pc := pc
    status := if t.protect ∧ ¬ comp then 2 else 0
    seed := BitVec.ofNat 64 t.seedVal }

/-- The quantum of a phase on a die, in units of 1,024 die cycles (R49). -/
def Die.quantumOf (d : Die) (gen : Bool) : Nat := (if gen then d.qntGen else d.qntPrompt).toNat

/-- A checkpoint snapshot of the core in focus; the journal is empty after it (R372, R373). What is outstanding now keeps its mark. -/
def State.takeSnapshot (s : State) : State :=
  let x := s.core
  let r := { x.taskRegs with status := x.taskRegs.status &&& ~~~4#64 }
  let me := s.me.idx
  let s : State := { s with core := { x with
    snapshot := some r, journal := [], regs := { x.regs with status := x.regs.status &&& ~~~4#64 }
    memq := x.memq.map fun e => { e with snap := true }, cmds := x.cmds.map fun c => { c with snap := true } } }
  s.onDie s.me.die fun d => { d with sfxOps := d.sfxOps.map fun o => if o.core == me then { o with snap := true } else o }

/-- A task that stops before its first bundle (R11, R18): with cause 0x08 it is suspended without a save and posted, else it is killed. On a
companion core it is held in place (R381). The start waits while the ring's channel group is not ready (R39). -/
def State.stopBefore (s : State) (t : Task) (e : Report) (pc : Word) : State :=
  if e.cause = 0x08 ∧ s.ringHeld s.me.die then s.hold
  else if e.cause = 0x08 ∧ s.canPost s.me.die then
    let s := (s.armRecord t).post s.me.die ⟨t, e.cause, e.val, pc⟩
    if s.comp then { s with core := { s.core with life := .suspending, textLen := 0 } } else s.freeCore
  else s.kill e.cause pc e.val

/-- Puts a task on the core in focus in its entry state: caches, a preloaded task and requests stay with the core. -/
def State.enter (s : State) (t : Task) (bank : Sparse Byte) (x : Text) : State :=
  let q := (s.die s.me.die).quantumOf t.gen
  { s with core := { s.core.freed with
      task := some t, quantum := q * 1024, base := x.base, textLen := x.len, text := x.words, scratch := bank
      regs := t.entryRegs s.comp (x.base + BitVec.ofNat 64 x.entry) } }

/-- The first bundle of a task is an acquire at PACKAGE scope (R42, R366); results that have arrived land before it (R359); under
protection the state at the start is the first checkpoint (log 23), and after a YIELD the first bundle takes one (R371). A task that was retiring goes on with it (R398). -/
def State.begin (s : State) (kind : Nat) : State :=
  let arrived := s.core.regs.flight.filter fun f => f.left == 0
  let s : State := { s with core := ({ s.core with regs := { s.core.regs with flight := s.core.regs.flight.filter fun f => f.left != 0 } }).landAll arrived }
  let s := s.acquire .package
  let s := if s.core.regs.ended then { s with core := { s.core with life := .ended } } else s
  if !s.prot then s
  else
    (if kind = 1 then s.onRegs fun r => { r with ckptDue := true } else s).takeSnapshot

/-- The scratchpad a start gives the core: none to a resumed task, which brings its own; what the preload of this task brought; else its
preload list, read now (R18, R51). -/
def State.startBank (s : State) (t : Task) (resume : Bool) (pre : Option Preload) : State × Sparse Byte × Option Report :=
  if resume then (s, [], none)
  else match pre with
    | some p => (s, p.bank, p.fault)
    | none => s.preloadBank t

/-- The text a start gives the core, where the scratchpad could be filled: as preloaded, else loaded now (R11, R51). -/
def State.startText (s : State) (t : Task) (pre : Option Preload) (bad : Option Report) : State × Except Report Text :=
  match bad with
  | some e => (s, .error e)
  | none => match pre with
    | some p => if p.len = 0 then s.loadText t else (s, .ok ⟨p.base, p.len, (p.entry - p.base).toNat, p.words⟩)
    | none => s.loadText t

/-- Where a task's entry bundle lies; 0 when its kernel table entry cannot be read any more (log 66). -/
def State.entryPc (s : State) (t : Task) : State × Word :=
  match s.kernelOf t with
  | (s, .ok x) => (s, x.base + BitVec.ofNat 64 x.entry)
  | (s, .error _) => (s, 0)

/-- The task enters the core: it stops where it could not be loaded, else it begins, a resumed one from its area (R366). A kernel table entry that cannot
be read now, though the check of the launch has read it, stops the task as a line of the text does (R11, log 66). -/
def State.startWith (s : State) (t : Task) (bank : Sparse Byte) (kind : Nat) (tx : Except Report Text) : State :=
  match tx with
  | .error e =>
    let p := s.entryPc t
    (p.1.enter t [] ⟨0, 0, 0, []⟩).stopBefore t e p.2
  | .ok x =>
    let s := s.enter t bank x
    if !(kind == 1 || kind == 2) then s.begin 0
    else match s.restore t kind with
      | (s, some e) => s.kill e.cause s.core.regs.pc e.val
      | (s, none) => s.begin kind

/-- The kind word a start finds in the task's area; a companion core's job has none (R60, R366). -/
def State.startKind (s : State) (t : Task) : State × Except Report Nat := if s.comp then (s, .ok 0) else s.areaKind t

/-- What a start does to the core's surroundings first: the event of the die, and a cluster of fused cores cleared (R51, R60). -/
def State.startClear (s : State) (t : Task) : State :=
  let s := if s.comp then s else s.dieEvent s.me.die 0x02 1
  if t.fused ∧ ¬ s.comp ∧ ¬ s.fusedCluster s.me then s.clearCluster s.me else s

/-- Starts a task on the core in focus: afresh, or from its context save area when the area's kind says so (R51, R60, R366); an area whose kind cannot
be read kills it (R368, log 65). -/
def State.startTask (s : State) (t : Task) (pre : Option Preload) : State :=
  match (s.startClear t).startKind t with
  | (s, .error e) =>
    let p := s.entryPc t
    (p.1.enter t [] ⟨0, 0, 0, []⟩).kill e.cause p.2 e.val
  | (s, .ok k) =>
    let b := s.startBank t (k == 1 || k == 2) pre
    let x := b.1.startText t pre b.2.2
    x.1.startWith t b.2.1 k x.2

end Sys2Proof.Machine
end

