-- ==== Sys2Proof/Machine/Sched.lean ====
section
/-! DEFINITION. The die schedulers: records that become ready, queues, pipelines and their deferred rings, gangs, selection and placement,
preload (R41, R45-R62, R413). -/

namespace Sys2Proof.Machine

open Sys2Proof

/-! ### Queues (R48, R52) -/

/-- The queue of a task's phase and priority (R48). -/
def Task.queue (t : Task) : Nat := (if t.gen then 8 else 0) + t.prio

/-- A queue of a die. -/
def Die.queue (x : Die) (q : Nat) : List QEntry := x.queues.toList.getD q []

/-- Replaces a queue of a die. -/
def Die.setQueue (x : Die) (q : Nat) (l : List QEntry) : Die := { x with queues := x.queues.setIfInBounds q l }

/-- Puts an entry at the tail of a queue, or at its head. -/
def State.enqueue (s : State) (d : BitVec 2) (q : Nat) (e : QEntry) (front : Bool := false) : State :=
  s.onDie d fun x => x.setQueue q (if front then e :: x.queue q else x.queue q ++ [e])

/-- Two entries are the same. -/
def QEntry.same (a b : QEntry) : Bool := a.task.addr == b.task.addr && a.gang.isEmpty == b.gang.isEmpty

/-- Takes an entry out of a queue. -/
def State.dequeue (s : State) (d : BitVec 2) (q : Nat) (e : QEntry) : State :=
  s.onDie d fun x => x.setQueue q ((x.queue q).filter fun y => !y.same e)

/-- The head record of a queue passes once more; at 64 it moves one queue up (R52). -/
def State.passHead (s : State) (d : BitVec 2) (q : Nat) : State :=
  match (s.die d).queue q with
  | [] => s
  | e :: t =>
    if e.pass + 1 < 64 then s.onDie d fun x => x.setQueue q ({ e with pass := e.pass + 1 } :: t)
    else ((s.onDie d fun x => x.setQueue q t).enqueue d (q + 1) { e with pass := 0 }).dieEvent d 0x05 1

/-- A placement from a queue ages the lower queues of its phase (R52). -/
def State.ageQueues (s : State) (d : BitVec 2) (q : Nat) : State :=
  ((List.range (q % 8)).reverse).foldl (fun s p => s.passHead d (q / 8 * 8 + p)) s

/-- The records of an entry. -/
def QEntry.tasks (e : QEntry) : List Task := if e.gang.isEmpty then [e.task] else e.gang

/-! ### Where a record may run (R45-R47) -/

/-- Every task of a SERIAL group below a task has ended (R47). -/
def State.serialTurn (s : State) (t : Task) (i : Nat) : Bool :=
  let first := t.group i * extentBelow t.launch (i + 1)
  countIf (fun k => decide (k < t.index)) (s.dev.binding t i).ended == t.index - first

/-- The core that the next task of a SERIAL group needs; none when any core of the die serves (R47). -/
def State.serialCore (s : State) (t : Task) (i : Nat) : Option CoreRef :=
  let b := s.dev.binding t i
  let c : CoreRef := ⟨b.die, BitVec.ofNat 8 b.core⟩
  if t.index = t.group i * extentBelow t.launch (i + 1) ∨ !b.bound ∨ (s.die b.die).retired.contains c.idx ∨ !s.isReady b.die c.cluster
  then none else some c

/-- The groups of a task that need an entry of a binding table and have none yet: level and number (R46). -/
def State.newGroups (s : State) (t : Task) : List (Nat × Nat) :=
  ((List.range t.levels).filter fun i => decide (1 ≤ t.bind i ∧ t.bind i ≤ 3) && !(s.dev.binding t i).bound).map fun i => (i, t.group i)

/-- The entries of a die's binding table that are in use (R46). -/
def State.tableUse (s : State) (d : BitVec 2) : Nat :=
  countIf (fun b => b.bound && b.die == d && decide (1 ≤ b.kind ∧ b.kind ≤ 3)) s.dev.bindings

/-- The die's table of bound groups has room for the groups of a task that have no binding yet (R46). -/
def State.bindRoom (s : State) (d : BitVec 2) (t : Task) : Bool := decide (s.tableUse d + (s.newGroups t).length ≤ 4096)

/-- A core may take a task as far as one of its levels goes (R46, R47). -/
def State.levelOk (s : State) (t : Task) (c : CoreRef) (i : Nat) : Bool :=
  let b := s.dev.binding t i
  let k := t.bind i
  if k = 0 then
    s.serialTurn t i && (match s.serialCore t i with
      | none => true
      | some x => x == c)
  else if k ≤ 3 ∧ b.bound then c.die == b.die && (k == 3 || (if k = 1 then c.idx.toNat == b.core else c.idx.toNat / 12 == b.core / 12))
  else true

/-- A core may take a task as far as its levels go (R46, R47). -/
def State.levelsOk (s : State) (t : Task) (c : CoreRef) : Bool := (List.range t.levels).all (s.levelOk t c) && s.bindRoom c.die t

/-- A gang unit's number, the level that makes it one, and its size (R59). -/
def Task.unit (t : Task) : Option (Nat × Nat × Nat) := t.gangLevel.map fun g => (g, t.group g, extentBelow t.launch (g + 1))

/-- The cores of the package in one numbering. -/
def pkgNum (c : CoreRef) : Nat := c.die.toNat * 144 + c.idx.toNat

/-- A core by its number in the package. -/
def pkgCore (n : Nat) : CoreRef := ⟨BitVec.ofNat 2 (n / 144), BitVec.ofNat 8 (n % 144)⟩

/-- The reservation that holds a core (R59). -/
def State.reserved (s : State) (c : CoreRef) : Option Reservation :=
  (s.dies.toList.flatMap Die.reserve).find? fun r => decide (r.first ≤ pkgNum c ∧ pkgNum c < r.first + r.size)

/-- A member of a gang unit whose unit has been placed: it was suspended (R364). -/
def State.resumedMember (s : State) (t : Task) : Bool :=
  match t.unit with
  | some (g, _, _) => (s.dev.binding t g).bound
  | none => false

/-- A record is placeable on a core (R46, R47, R59, R364). -/
def State.placeable (s : State) (t : Task) (c : CoreRef) : Bool :=
  (s.resumedMember t || (s.reserved c).isNone) && s.levelsOk t c

/-- No new task is placed on a die: an L2 split or a checkpoint run waits (R209, R402). -/
def State.placeBlocked (s : State) (d : BitVec 2) : Bool :=
  (s.die d).l2want.isSome || (s.dev.cke.ctl.getLsbD 0 && s.dev.cke.ctl.getLsbD (8 + d.toNat))

/-- A main core is free for a placement (R39, R51, R376). -/
def State.coreFree (s : State) (c : CoreRef) : Bool :=
  !c.isComp && (s.getCore c).task.isNone && !(s.die c.die).retired.contains c.idx && s.isReady c.die c.cluster && !s.placeBlocked c.die

/-- A group notes that a task of it has been placed (R46). -/
def Binding.place (b : Binding) (t : Task) : Binding := { b with bound := true, placed := if b.placed.contains t.index then b.placed else t.index :: b.placed }

/-- Binds the groups of a task that is placed on a core (R46, R47, R59). -/
def State.bindGroups (s : State) (t : Task) (c : CoreRef) : State :=
  (List.range t.levels).foldl (fun s i =>
    let b := s.dev.binding t i
    if t.bind i = 0 then s.onDev fun d => d.setBinding ({ b with die := c.die, core := c.idx.toNat }.place t)
    else if b.bound then s.onDev fun d => d.setBinding (b.place t)
    else if t.bind i = 5 ∨ (t.bind i = 4 ∧ !t.gang i) then s
    else
      let first := if t.bind i = 1 then c.idx.toNat else if t.bind i = 2 then c.idx.toNat / 12 * 12 else 0
      s.onDev fun d => d.setBinding ({ b with die := c.die, core := first }.place t)) s

/-- The levels of a task whose groups have not noted a placement of it. -/
def State.unplacedLevels (s : State) (t : Task) : List Nat := (List.range t.levels).filter fun i => !(s.dev.binding t i).placed.contains t.index

/-- A placement is taken back at some levels: a group of which no task has been placed now is bound no longer (R46, R61). -/
def State.unbindGroups (s : State) (t : Task) (levels : List Nat) : State :=
  levels.foldl (fun s i =>
    let b := s.dev.binding t i
    let rest := b.placed.filter (· != t.index)
    s.onDev fun d => d.setBinding { b with placed := rest, bound := b.bound && !rest.isEmpty }) s

/-- The die that a queued record is to be forwarded to (R45). -/
def State.forwardTo (s : State) (t : Task) (from_ : Nat) : Option (BitVec 2) :=
  (List.range t.levels).findSome? fun i =>
    let b := s.dev.binding t i
    if i < from_ then none
    else if 1 ≤ t.bind i ∧ t.bind i ≤ 3 ∧ b.bound then some b.die
    else if t.bind i = 0 ∧ s.serialTurn t i then (s.serialCore t i).map CoreRef.die
    else none

/-- The gather die of a gang unit (R59). -/
def State.gatherDie (s : State) (t : Task) (g u : Nat) : BitVec 2 :=
  let early := (List.range 4).find? fun k => (s.die (BitVec.ofNat 2 k)).gather.any fun x => x.launch.toNat == t.launchAddr && x.unit == u
  match early with
  | some k => BitVec.ofNat 2 k
  | none =>
    let above := (List.range t.levels).find? fun i => decide (g < i ∧ 1 ≤ t.bind i ∧ t.bind i ≤ 3) && (s.dev.binding t i).bound
    match above with
    | some i => (s.dev.binding t i).die
    | none => BitVec.ofNat 2 (u % 4)

/-! ### Pipelines (R56-R58) -/

/-- Records of a stage that are queued on a die (R56). -/
def State.occupancy (s : State) (d : BitVec 2) (launch k : Nat) : Nat :=
  (((s.die d).queues.toList.flatMap id).map fun e => countIf (fun t => t.launchAddr == launch && t.stage == k) e.tasks).sum

/-- A die's ring in a deferred list (R57): LOG2N, head, tail. -/
structure RingView where
  log  : Nat
  head : Nat
  tail : Nat
  deriving DecidableEq, Repr

/-- LOG2N is one that the list may have. -/
def RingView.legal (v : RingView) : Bool := decide (8 ≤ v.log ∧ v.log ≤ 20)

/-- The ring is full, or is treated as full (R57). -/
def RingView.full (v : RingView) : Bool := !v.legal || decide (2 ^ v.log ≤ (v.tail + (2 ^ 64 - v.head)) % 2 ^ 64)

/-- Where the entry of a count lies. -/
def RingView.slot (v : RingView) (d : BitVec 2) (count : Nat) : Nat := 0x80 + 8 * (d.toNat * 2 ^ v.log + count % 2 ^ v.log)

/-- An access of the die to a deferred list failed: the ring is treated as full until the launch has ended (R57). -/
def State.ringFail (s : State) (d : BitVec 2) (t : Task) (k : Nat) : State :=
  (s.setErr 6).onDie d fun x => { x with ringFull := x.ringFull ++ [(BitVec.ofNat 48 t.launchAddr, k)] }

/-- A stage's ring has failed (R57). -/
def State.ringFailed (s : State) (d : BitVec 2) (t : Task) (k : Nat) : Bool :=
  (s.die d).ringFull.any fun x => x.1.toNat == t.launchAddr && x.2 == k

/-- Reads a die's ring: READ and WRITE are needed (R57). A list address that is not 128-byte aligned is used as it stands (log 69). -/
def State.ringView (s : State) (d : BitVec 2) (t : Task) (k : Nat) : State × Option RingView :=
  let a := BitVec.ofNat 64 (t.stageList k)
  match s.translateHeld t.who true a with
  | (s, .error _) => (s, none)
  | (s, .ok _) =>
    match s.vReadAll t.who a 0x50 with
    | (s, .error _) => (s, none)
    | (s, .ok bs) => (s, some ⟨field bs 0 4, field bs (0x10 + 16 * d.toNat) 8, field bs (0x18 + 16 * d.toNat) 8⟩)

/-- A write of 8 bytes to the list; false when it fails. -/
def State.ringWrite (s : State) (t : Task) (k off v : Nat) : State × Bool :=
  match s.vWrite t.who (BitVec.ofNat 64 (t.stageList k + off)) (leBytes 8 v) with
  | (s, .ok false) => (s, true)
  | (s, _) => (s, false)

/-- A stage of a launch, as a die's list of rings names it. -/
def sameRing (t : Task) (k : Nat) (x : Task × Nat) : Bool := x.1.launchAddr == t.launchAddr && x.2 == k

/-- A die notes that its ring of a stage holds entries (R58). -/
def State.ringNote (s : State) (d : BitVec 2) (t : Task) (k : Nat) : State :=
  s.onDie d fun x => { x with rings := if x.rings.any (sameRing t k) then x.rings else x.rings ++ [(t, k)] }

/-- A die notes that its ring of a stage is empty (R58). -/
def State.ringForget (s : State) (d : BitVec 2) (t : Task) (k : Nat) : State :=
  s.onDie d fun x => { x with rings := x.rings.filter fun y => !sameRing t k y }

/-- Appends a record to a die's ring (R58); false when it is full or treated as full. -/
def State.ringPush (s : State) (d : BitVec 2) (t : Task) : State × Bool :=
  let k := t.stage
  if s.ringFailed d t k then (s, false)
  else match s.ringView d t k with
    | (s, none) => (s.ringFail d t k, false)
    | (s, some v) =>
      if v.full then (s, false)
      else match s.ringWrite t k (v.slot d v.tail) t.addr.toNat with
        | (s, false) => (s.ringFail d t k, false)
        | (s, true) =>
          match s.ringWrite t k (0x18 + 16 * d.toNat) (v.tail + 1) with
          | (s, false) => (s.ringFail d t k, false)
          | (s, true) => ((s.ringNote d t k).dieEvent d 0x07 1, true)

/-- The oldest entry of a die's ring leaves it (R58); none when there is none or it cannot be read. -/
def State.ringPop (s : State) (d : BitVec 2) (t : Task) (k : Nat) : State × Option (BitVec 48) :=
  if s.ringFailed d t k then (s, none)
  else match s.ringView d t k with
    | (s, none) => (s.ringFail d t k, none)
    | (s, some v) =>
      if v.head = v.tail then (s.ringForget d t k, none)
      else if !v.legal then (s, none)
      else match s.vReadAll t.who (BitVec.ofNat 64 (t.stageList k + v.slot d v.head)) 8 with
        | (s, .error _) => (s.ringFail d t k, none)
        | (s, .ok bs) =>
          match s.ringWrite t k (0x10 + 16 * d.toNat) (v.head + 1) with
          | (s, false) => (s.ringFail d t k, none)
          | (s, true) => (s, some (BitVec.ofNat 48 (leNat bs)))

/-- A die's ring of a stage holds entries, as far as the die can tell; a ring that failed, or fails now, counts as one that does (R57, R58, log 24). -/
def State.ringHolds (s : State) (d : BitVec 2) (t : Task) (k : Nat) : Bool :=
  s.ringFailed d t k || (match (s.ringView d t k).2 with
    | some v => v.head != v.tail
    | none => true)

/-! ### A record becomes ready (R41, R45, R58, R59, R413) -/

/-- A gang unit is complete once each of its tasks is ready or has ended: it enters one queue as one entry (R59). -/
def State.gatherCheck (s : State) (d : BitVec 2) (t : Task) : State :=
  match t.unit with
  | none => s
  | some (g, u, n) =>
    match (s.die d).gather.find? fun x => x.launch.toNat == t.launchAddr && x.unit == u with
    | none => s
    | some x =>
      if x.tasks.length + (s.dev.binding t g).ended.length < n then s
      else
        let l := x.tasks.mergeSort fun a b => decide (a.index ≤ b.index)
        match l with
        | [] => s
        | a :: _ => (s.onDie d fun y => { y with gather := y.gather.filter fun z => !(z.launch == x.launch && z.unit == u) }).enqueue d a.queue { task := a, gang := l }

/-- A ready record of a gang unit waits at its gather die (R59); a member that was suspended goes to the head of its queue (R364). -/
def State.gatherAt (s : State) (t : Task) (g u : Nat) : State :=
  let d := s.gatherDie t g u
  if s.resumedMember t then s.enqueue d t.queue { task := t } true
  else
    let add (l : List Gathering) : List Gathering :=
      if l.any (fun x => x.launch.toNat == t.launchAddr && x.unit == u) then
        l.map fun x => if x.launch.toNat == t.launchAddr && x.unit == u then { x with tasks := x.tasks ++ [t] } else x
      else l ++ [⟨BitVec.ofNat 48 t.launchAddr, u, [t]⟩]
    (s.onDie d fun y => { y with gather := add y.gather }).gatherCheck d t

/-- A record that is fit to run queues, waits for its gang, or goes to its stage's ring; true when the decrement must be held (R58). `held`
says that it was held before. -/
def State.takeIn (s : State) (d : BitVec 2) (t : Task) (held : Bool) : State × Bool :=
  match t.unit with
  | some (g, u, _) => (s.gatherAt t g u, false)
  | none =>
    let d := (s.forwardTo t 0).getD d
    if t.stages ≠ 0 ∧ (held ∨ t.stageCap t.stage ≤ s.occupancy d t.launchAddr t.stage ∨ s.ringHolds d t t.stage) then
      match s.ringPush d t with
      | (s, true) => (s, false)
      | (s, false) => (s, true)
    else (s.enqueue d t.queue { task := t }, false)

/-- A record is completed without running, and counts as ended when it names a place in its launch (R20, R46). -/
def State.reject (s : State) (t : Task) (placed : Bool) : State :=
  let s := s.rejectTask t
  if !placed then s
  else
    let s := s.noteEnded t
    match t.unit with
    | some (g, u, _) => s.gatherCheck (s.gatherDie t g u) t
    | none => s

/-- Every coordinate lies in its level. -/
def Task.inRange (t : Task) : Bool := (List.range 8).all fun i => decide (t.coord i < levelExtent t.launch i)

/-- A record's own kernel does not break R10. -/
def Task.kernelOk (t : Task) (c : Code) : Bool :=
  match c.kernels[t.kernel]? with
  | some k => k.ok && k.resv == 0
  | none => false

/-- What a check of a record that can be read says (R19, R20, R22, R205): the task, with its launch record, when it is fit to run here. A
companion task belongs to no group (R15). A record whose code object can no longer be read is rejected (log 77). -/
def State.checkRecord (s : State) (d : BitVec 2) (t0 : Task) (comp : Bool) : State × Option Task :=
  match s.readLaunch t0.job t0.launchAddr with
  | (s, none) => (s.rejectTask t0, none)
  | (s, some l) =>
    let t : Task := { t0 with launch := l }
    match s.launchCheck d t with
    | (s, st) =>
      if st ≠ 1 then (s.rejectTask t, none)
      else match s.readCode t.job t.code with
        | (s, code) =>
          let n := (code.map fun c => c.kernels.length).getD 0
          if t.badFields || t.badPlace n || !code.any t.kernelOk || (t.fabric && s.fabricPos.isNone) then (s.reject t (t.inRange && !comp), none)
          else if !comp && t.elsewhere (s.fabricPos.getD 0) then (s, none)
          else (s, some t)

/-- Reads a record that a decrement made ready; one that cannot be read is dropped (R413). -/
def State.readRecord (s : State) (d : BitVec 2) (addr : BitVec 48) (job : BitVec 6) : State × Option Task :=
  match s.vRead ⟨none, true⟩ (addr.setWidth 64) 128 with
  | (s, .error _) => ((s.setErr 7).noteKill d addr, none)
  | (s, .ok bs) => (s, some ⟨addr, job, BitVec.ofNat 1024 (leNat bs), 0, d⟩)

/-- A companion core that holds a task of a record in place (R381). -/
def State.heldCompanion (s : State) (addr : BitVec 48) : Option CoreRef :=
  (s.coreNums.map CoreRef.ofNum).find? fun c => c.isComp && (s.getCore c).life == .suspending &&
    (match (s.getCore c).task with
     | some t => t.addr == addr
     | none => false)

/-- A held companion task goes on (R381): where it stopped, and its first bundle is an acquire (R309, R366), or afresh when it had not begun. -/
def State.resumeCompanion (s : State) : State :=
  match s.core.task with
  | none => s
  | some t => if s.core.textLen = 0 then s.startTask t none else s.trapReturn.acquire .package

/-- A decrement has taken a record's counter from 1 to 0 (R41); true when the decrement must be held (R58). -/
def State.makeReady (s : State) (d : BitVec 2) (addr : BitVec 48) (job : BitVec 6) (held : Bool) : State × Bool :=
  match s.heldCompanion addr with
  | some c => (s.within c State.resumeCompanion, false)
  | none =>
    match s.readRecord d addr job with
    | (s, none) => (s, false)
    | (s, some t0) =>
      match s.checkRecord d t0 false with
      | (s, none) => (s, false)
      | (s, some t) => s.takeIn d t held

/-! ### Before a placement (R45, R58, R62) -/

/-- A gang entry that leaves a die leaves no reservation there (R59). -/
def State.dropReserve (s : State) (d : BitVec 2) (e : QEntry) : State :=
  match e.gang, e.task.unit with
  | _ :: _, some (_, u, _) => s.onDie d fun x => { x with reserve := x.reserve.filter fun r => !(r.launch.toNat == e.task.launchAddr && r.unit == u) }
  | _, _ => s

/-- Entries of a die's queue that belong elsewhere move to the tail there (R45). -/
def State.forwardQueue (s : State) (d : BitVec 2) (q : Nat) : State :=
  ((s.die d).queue q).foldl (fun s e =>
    let from_ := match e.task.unit with
      | some (g, _, _) => g + 1
      | none => 0
    match s.forwardTo e.task from_ with
    | some x => if x = d then s else ((s.dequeue d q e).dropReserve d e).enqueue x e.task.queue { e with pass := 0 }
    | none => s) s

/-- Moves entries of a stage's ring to the die's queues until the stage is at capacity (R58). -/
def State.ringMove (d : BitVec 2) (t : Task) (k : Nat) : Nat → State → State
  | 0, s => s
  | fuel + 1, s =>
    if t.stageCap k ≤ s.occupancy d t.launchAddr k then s
    else match s.ringPop d t k with
      | (s, none) => s
      | (s, some a) =>
        match s.readRecord d a t.job with
        | (s, none) => State.ringMove d t k fuel s
        | (s, some r) =>
          let r : Task := { r with launch := t.launch }
          State.ringMove d t k fuel (s.enqueue ((s.forwardTo r 0).getD d) r.queue { task := r })

/-- The moves out of a die's deferred rings that come before its next placement decision: of the rings that hold entries, those of a stage whose
occupancy is below its capacity (R58, R62). -/
def State.settleRings (s : State) (d : BitVec 2) : State :=
  (s.die d).rings.foldl (fun s r => State.ringMove d r.1 r.2 (r.1.stageCap r.2 + 1) s) s

/-- Everything that comes before a placement decision of a die: forwarding, and moves out of deferred rings (R62). -/
def State.settleDie (s : State) (d : BitVec 2) : State := ((List.range 16).foldl (fun s q => s.forwardQueue d q) s).settleRings d

/-! ### Gangs (R59) -/

/-- The instances of a gang unit's domain: first core and size, in the package's numbering. -/
def gangInstances (bind : Nat) (d : BitVec 2) : List (Nat × Nat) :=
  let o := d.toNat * 144
  if bind ≤ 1 then (List.range 144).map fun i => (o + i, 1)
  else if bind = 2 then (List.range 12).map fun i => (o + 12 * i, 12)
  else if bind = 3 then [(o, 144)]
  else [(0, 576)]

/-- The free cores of an instance (R59). -/
def State.gangCores (s : State) (inst : Nat × Nat) : List CoreRef :=
  ((List.range inst.2).map fun i => pkgCore (inst.1 + i)).filter fun c => s.coreFree c && (s.getCore c).preload.isNone

/-- The instance with the most free cores, the lowest of several. -/
def State.bestInstance (s : State) : List (Nat × Nat) → Option ((Nat × Nat) × List CoreRef)
  | [] => none
  | i :: l =>
    let here := s.gangCores i
    match s.bestInstance l with
    | none => some (i, here)
    | some b => if b.2.length ≤ here.length then some (i, here) else some b

/-- Two spans of cores meet. -/
def spansMeet (a b : Nat × Nat) : Bool := decide (a.1 < b.1 + b.2 ∧ b.1 < a.1 + a.2)

/-- The first assignment of free cores to the members of a gang unit, in index order, that keeps every group of every level in its domain instance
(R15, R46, R59, log 70). -/
def assignCores : List Task → List CoreRef → State → Option (List (Task × CoreRef))
  | [], _, _ => some []
  | t :: l, free, s => free.findSome? fun c =>
    if s.levelsOk t c then (assignCores l (free.filter (· != c)) (s.bindGroups t c)).map ((t, c) :: ·) else none

/-- Places the members of a gang unit on cores. -/
def State.placeAll : List (Task × CoreRef) → State → State
  | [], s => s
  | (t, c) :: l, s => State.placeAll l ((s.bindGroups t c).within c fun s => s.startTask t none)

/-- It is the turn of every member of a gang unit at the SERIAL levels that enclose it (R47). -/
def State.gangTurn (s : State) (e : QEntry) : Bool := e.gang.all fun t => (List.range t.levels).all fun i => t.bind i != 0 || s.serialTurn t i

/-- The enclosing groups that are bound, and a SERIAL level's core, let a gang unit use an instance (R46, R47, R59). -/
def State.instanceOk (s : State) (t : Task) (g : Nat) (i : Nat × Nat) : Bool :=
  (List.range t.levels).all fun k => decide (k ≤ g) || s.levelOk t (pkgCore i.1) k

/-- The free entries in the binding tables of an instance's dies (R46). -/
def State.tableRoom (s : State) (i : Nat × Nat) : Nat :=
  (([0#2, 1#2, 2#2, 3#2].filter fun d => spansMeet i (144 * d.toNat, 144)).map fun d => 4096 - s.tableUse d).sum

/-- The binding tables have room for the groups of a gang unit's members (R46). -/
def State.gangRoom (s : State) (l : List Task) (i : Nat × Nat) : Bool := decide ((l.flatMap s.newGroups).eraseDups.length ≤ s.tableRoom i)

/-- gang_start (R59): true when the unit has been placed; else its instance is reserved, once, but not while its groups find no room in the binding
tables (R46). The instance is one that the enclosing groups allow. One that meets another unit's reserved instance, of whatever size, serves no other unit
(R59, log 79). -/
def State.gangStart (s : State) (d : BitVec 2) (e : QEntry) : State × Bool :=
  match e.task.unit with
  | none => (s, false)
  | some (g, u, _) =>
    let t := e.task
    let mine (r : Reservation) : Bool := r.launch.toNat == t.launchAddr && r.unit == u
    let fill (l : List CoreRef) : Option (List (Task × CoreRef)) := if l.length < e.gang.length then none else assignCores e.gang l s
    if !s.gangTurn e then (s, false)
    else match (s.die d).reserve.find? mine with
    | some r =>
      match fill (s.gangCores (r.first, r.size)) with
      | none => (s, false)
      | some l => (State.placeAll l (s.onDie d fun x => { x with reserve := x.reserve.filter fun y => !mine y }), true)
    | none =>
      match s.bestInstance ((gangInstances (t.bind g) d).filter (s.instanceOk t g)) with
      | none => (s, false)
      | some (i, l) =>
        if (s.dies.toList.flatMap Die.reserve).any (fun r => spansMeet i (r.first, r.size)) || !s.gangRoom e.gang i then (s, false)
        else match fill l with
          | some l => (State.placeAll l s, true)
          | none => ((s.onDie d fun x => { x with reserve := x.reserve ++ [⟨BitVec.ofNat 48 t.launchAddr, u, i.1, i.2⟩] }).dieEvent d 0x06 1, false)

/-! ### Selection (R51, R53, R56) -/

/-- A stage's output is full (R56). -/
def State.outputFull (s : State) (d : BitVec 2) (t : Task) (k : Nat) : Bool :=
  decide (k + 1 < t.stages ∧ t.stageCap (k + 1) ≤ s.occupancy d t.launchAddr (k + 1))

/-- stage_choice (R56): of the stages with a record in the queue and an output that is not full, the one with the highest ratio of
occupancy to capacity. -/
def State.stageChoice (s : State) (d : BitVec 2) (t : Task) (l : List QEntry) : Option Nat :=
  let fit := (List.range t.stages).filter fun k =>
    l.any (fun e => e.gang.isEmpty && e.task.launchAddr == t.launchAddr && e.task.stage == k) && !s.outputFull d t k
  let occ (k : Nat) : Nat := s.occupancy d t.launchAddr k
  fit.foldl (fun best k => match best with
    | none => some k
    | some b => if occ b * t.stageCap k < occ k * t.stageCap b then some k else some b) none

/-- What a selection finds: a gang unit that it placed, or a record and the queue it stood in. -/
inductive Pick where
  | gang
  | one (e : QEntry) (q : Nat)
  deriving DecidableEq, Repr

/-- Looks through a queue for a record that a test admits (R51). -/
def State.scan (d : BitVec 2) (q : Nat) (fits : Task → Bool) (gangs : Bool) (can : State → Task → Bool) :
    List QEntry → List Nat → State → State × Option Pick
  | [], _, s => (s, none)
  | e :: l, skip, s =>
    let t := e.task
    if !e.gang.isEmpty then
      if !gangs then State.scan d q fits gangs can l skip s
      else match s.gangStart d e with
        | (s, true) => (s.dequeue d q e, some .gang)
        | (s, false) => State.scan d q fits gangs can l skip s
    else if !fits t || skip.contains t.launchAddr then State.scan d q fits gangs can l skip s
    else if t.stages ≠ 0 then
      match s.stageChoice d t ((s.die d).queue q) with
      | none => State.scan d q fits gangs can l (t.launchAddr :: skip) s
      | some k =>
        match ((s.die d).queue q).find? fun x => x.gang.isEmpty && x.task.launchAddr == t.launchAddr && x.task.stage == k with
        | none => State.scan d q fits gangs can l skip s
        | some x => if can s x.task then (s.dequeue d q x, some (.one x q)) else State.scan d q fits gangs can l skip s
    else if can s t then (s.dequeue d q e, some (.one e q))
    else State.scan d q fits gangs can l skip s

/-- Looks through the queues of a die in an order; a find ages its queue's phase (R51, R52). -/
def State.selectIn (d : BitVec 2) (fits : Task → Bool) (gangs : Bool) (can : State → Task → Bool) : List Nat → State → State × Option Pick
  | [], s => (s, none)
  | q :: l, s =>
    match State.scan d q fits gangs can ((s.die d).queue q) [] s with
    | (s, some p) => (s.ageQueues d q, some p)
    | (s, none) => State.selectIn d fits gangs can l s

/-- The queues in the order of R51 for a current phase. -/
def queueOrder (gen : Bool) : List Nat :=
  let down (o : Nat) : List Nat := ((List.range 8).map (o + ·)).reverse
  if gen then down 8 ++ down 0 else down 0 ++ down 8

/-- R51 for a core of a die, among the records that a test admits. -/
def State.select (s : State) (c : CoreRef) (fits : Task → Bool) (gangs : Bool) : State × Option Pick :=
  State.selectIn c.die fits gangs (fun s t => s.placeable t c) (queueOrder (s.die c.die).gen) s

/-- A record is die-free (R53). -/
def Task.dieFree (t : Task) : Bool := t.unit.isNone && (List.range t.levels).all fun i => decide (4 ≤ t.bind i)

/-- A record may be preloaded (R60). -/
def Task.mayPreload (t : Task) : Bool := t.unit.isNone && !t.bothBanks

/-! ### Placement (R51, R53, R60, R61) -/

/-- A task's text fits beside the running one's, or both run one kernel (R60). -/
def sharesText (run t : Task) (len n : Nat) : Bool := (run.code == t.code && run.kernel == t.kernel) || decide (len + n ≤ 131072)

/-- Preloads a record on the core in focus: its ranges into the idle bank, and its text when both fit (R60). A fault waits for its start. `bound` names the
levels at which this placement is the record's first (R61). -/
def State.preloadTask (s : State) (e : QEntry) (q : Nat) (bound : List Nat) : State :=
  let t := e.task
  let (s, kind) := s.areaKind t
  let resume := match kind with
    | .ok k => k == 1 || k == 2
    | .error _ => true
  let (s, bank, bad) := if resume then (s, [], none) else s.preloadBank t
  let (s, k) := s.kernelOf t
  let n := match k with
    | .ok x => x.len
    | .error _ => 0
  let fits := match s.core.task with
    | some r => sharesText r t s.core.textLen n
    | none => true
  let (s, tx) : State × Except Report Text := if fits && bad.isNone then s.loadText t else (s, .ok ⟨0, 0, 0, []⟩)
  let p : Preload := match tx with
    | .ok x => ⟨t, bank, x.base + BitVec.ofNat 64 x.entry, x.base, x.len, x.words, bad, e.pass, q, bound⟩
    | .error r => ⟨t, bank, 0, 0, 0, [], some r, e.pass, q, bound⟩
  { s with core := { s.core with preload := some p } }

/-- Places a task on a core; a task of a launch with one bank is followed by a preload (R51, R60). -/
def State.placeTask (s : State) (t : Task) (c : CoreRef) (pre : Option Preload) : State :=
  let s := (s.bindGroups t c).within c fun s => s.startTask t pre
  if t.bothBanks || t.unit.isSome || (s.getCore c).task.isNone then s
  else match (s.settleRings c.die).select c Task.mayPreload false with
    | (s, some (.one e q)) => let bound := s.unplacedLevels e.task
      (s.bindGroups e.task c).within c fun s => s.preloadTask e q bound
    | (s, _) => s

/-- A queued member of a PACKAGE gang unit that was suspended, on another die, which may take this core (R364): its die, its queue and itself. Of several the
one of the lowest die, then of the lowest queue, is taken, before the core's own die selects (log 79). -/
def State.resumedFor (s : State) (c : CoreRef) : Option (BitVec 2 × Nat × QEntry) :=
  [0#2, 1#2, 2#2, 3#2].findSome? fun d =>
    if d = c.die then none
    else (List.range 16).findSome? fun q =>
      (((s.die d).queue q).find? fun e => e.gang.isEmpty && (match e.task.unit with
        | some (g, _, _) => e.task.bind g == 4 && s.resumedMember e.task && s.placeable e.task c
        | none => false)).map fun e => (d, q, e)

/-- One placement step for a core (R51, R61, R364); true when it placed something. A preloaded task starts also in an instance that a gang entry has
reserved since (log 71). -/
def State.placeOn (s : State) (c : CoreRef) : State × Bool :=
  match (s.getCore c).preload with
  | some p => ((s.onCore c fun x => { x with preload := none }).placeTask p.task c (some p), true)
  | none =>
    match s.resumedFor c with
    | some (d, q, e) => (((s.dequeue d q e).ageQueues d q).placeTask e.task c none, true)
    | none =>
      match s.select c (fun _ => true) true with
      | (s, none) => (s, false)
      | (s, some .gang) => (s, true)
      | (s, some (.one e _)) => (s.placeTask e.task c none, true)

/-- SCHEDULER_PLACE: a die's scheduler selects a record for a free core (R51, R62). -/
def execSchedulerPlace (die : BitVec 2) (core : BitVec 8) (s : State) : Out State :=
  let c : CoreRef := ⟨die, core⟩
  .next (s.orHold fun s =>
    let s := s.settleDie die
    if s.coreFree c then (s.placeOn c).1 else s)

/-- Asks dies one after the other for a die-free record (R53). -/
def State.askDies (gen : Bool) : List (BitVec 2) → State → State × Option Task
  | [], s => (s, none)
  | d :: l, s =>
    match State.selectIn d Task.dieFree false (fun _ _ => true) (queueOrder gen) (s.settleDie d) with
    | (s, some (.one e _)) => (s, some e.task)
    | (s, _) => State.askDies gen l s

/-- DIE_FREE_REQUEST: a core that its own die leaves idle asks the other dies (R53). -/
def execDieFreeRequest (die : BitVec 2) (core : BitVec 8) (s : State) : Out State :=
  let c : CoreRef := ⟨die, core⟩
  .next (s.orHold fun s =>
    let s := s.settleDie die
    if !s.coreFree c then s
    else match s.placeOn c with
      | (s, true) => s
      | (s, false) =>
        if (s.reserved c).isSome then s
        else match State.askDies (s.die die).gen [die + 1, die + 2, die + 3] s with
          | (s, none) => s
          | (s, some t) => s.placeTask t c none)

/-! ### Decrements (R41, R58, R377) -/

/-- A decrement that cannot be performed because its line is poisoned, or has met an uncorrectable error (R377): a task that has left its core does not
learn of it. -/
def State.lostDec (s : State) (x : Dec) : State :=
  if x.host then s.setErr 0
  else match x.core with
    | some c => s.onCore c fun y => { y with lostWrites := y.lostWrites ++ [x.record.setWidth 64] }
    | none => if x.list = 0 then s else s.setErr 5

/-- The command whose retire action a decrement is, at its core. -/
def State.onActing (s : State) (x : Dec) (f : State → Cmd → State) : State :=
  match x.core, x.eng with
  | some c, some n => s.within c fun s => match s.core.cmds.find? fun y => y.seqNo == n with
    | some y => f s y
    | none => s
  | _, _ => s

/-- A decrement that is a retire action has performed, or its line's error is left to the next DRAIN: its command retires (R227, R228). -/
def State.actDone (s : State) (x : Dec) : State := s.onActing x State.leaveCmd

/-- A decrement meets a line that is poisoned already: a retire action fails its command (R228, R377). -/
def State.decFails (s : State) (x : Dec) : State := if x.eng.isSome then s.onActing x fun s c => s.failCmd c 0x0C 0 0x0A else s.lostDec x

/-- A decrement waits for an earlier one of its successor list; one that a full ring holds delays no later one (R43, R58). -/
def Dec.behind (l : List Dec) (x : Dec) : Bool := x.list != 0 && l.any fun y => y.list == x.list && !y.fired

/-- What the caches make of a decrement: a task's is a write of path S or C, the host's one of path H (R208, R302, R303). -/
def State.decSeen (s : State) (x : Dec) (bs : List Byte) : State :=
  let pa := x.pa.toNat
  match x.core with
  | some c => s.within c fun s => s.besideL1 (if x.eng.isSome then 3 else 0) pa bs
  | none => if x.host then s.onCores fun y => y.noteStale 7 (pa / 128) else s

/-- The k-th decrement on its way performs at its record's home (R41). One that made its record ready and waits for room in a ring tries again
(R58). A counter at −2^31 wraps to 2^31 − 1 (log 72). -/
def State.decrementAt (s : State) (k : Nat) : State :=
  match s.dev.decs[k]? with
    | none => s
    | some x =>
      let out (s : State) : State := s.onDev fun d => { d with decs := dropAt d.decs k }
      let home := ownerDie x.pa.toNat
      if x.fired then
        match s.makeReady home x.record x.job true with
        | (s, true) => s
        | (s, false) => out s
      else if !s.channelReady x.pa.toNat || Dec.behind (s.dev.decs.take k) x then s
      else
        let old := BitVec.ofNat 32 (leNat (s.readPlain x.key.toNat x.pa.toNat 4))
        let bad := (s.lineMeta (x.pa.toNat / 128)).poison
        match s.writeLine x.key.toNat x.pa.toNat (leBytes 4 (old - 1).toNat) with
        | (s, true) => if bad then (out s).decFails x else ((out s).lostDec x).actDone x
        | (s, false) =>
          let s := (s.decSeen x (leBytes 4 (old - 1).toNat)).actDone x
          if old ≠ 1 then out s
          else match s.makeReady home x.record x.job false with
            | (s, false) => out s
            | (s, true) => s.onDev fun d => { d with decs := setAt d.decs k { x with fired := true } }

/-- TASK_DECREMENT (R41). -/
def execTaskDecrement (k : Nat) (s : State) : Out State := .next (s.orHold fun s => s.decrementAt k)

/-! ### Phases and quanta (R50, R54) -/

/-- A die has work of a phase: a queued record or a running task of a main core; tasks of companion cores are left out (R50, log 79). -/
def State.phaseWork (s : State) (d : BitVec 2) (gen : Bool) : Bool :=
  (List.range 8).any (fun p => !((s.die d).queue ((if gen then 8 else 0) + p)).isEmpty) ||
    (s.coreNums.map CoreRef.ofNum).any fun c => c.die == d && !c.isComp &&
      (match (s.getCore c).task with
       | some t => t.gen == gen
       | none => false)

/-- PHASE_SLICE_EXPIRY: a die's slice counter reaches zero; the phase flips when the other has work (R50). -/
def execPhaseSliceExpiry (die : BitVec 2) (s : State) : Out State :=
  .next (let g := (s.die die).gen
    let g' := if s.phaseWork die (!g) then !g else g
    s.onDie die fun x => { x with gen := g', slice := x.quantumOf g' * 1024 })

/-- QUANTUM_EXPIRY: a core's quantum counter stops at zero (R54). -/
def execQuantumExpiry (c : CoreRef) (s : State) : Out State :=
  .next (s.onCore c fun x => if x.task.isSome && !c.isComp then { x with quantum := 0 } else x)

/-- What R54 asks of the scheduler beside an expired quantum; a queued gang entry of the task's own phase is no record that is placeable on one core
(log 79). -/
def State.yieldWanted (s : State) (t : Task) : Bool :=
  let d := s.die s.me.die
  s.core.preload.isSome
    || (t.gen != d.gen && (List.range 8).any fun p => !(d.queue ((if d.gen then 8 else 0) + p)).isEmpty)
    || (List.range 8).any fun p => decide (t.prio ≤ p) && (d.queue ((if t.gen then 8 else 0) + p)).any fun e =>
        e.gang.isEmpty && s.placeable e.task s.me

/-- A YIELD of the core in focus requeues its task (R54, R332). -/
def State.yieldRequeues (s : State) : Bool :=
  match s.core.task with
  | none => false
  | some t => s.core.quantum == 0 && t.unit.isNone && s.core.regs.asked == 0 && s.core.regs.mailbox.isEmpty && s.core.regs.claims.isEmpty
      && s.yieldWanted t

end Sys2Proof.Machine
end

