-- ==== Sys2Proof/Machine/Traps.lean ====
section
/-! DEFINITION. What happens to a task between bundles: traps, kill, suspension and posting, YIELD, checkpoints, rollback and the end of a task
(R355-R376, R381, R397, R398). -/

namespace Sys2Proof.Machine

open Sys2Proof

/-! ### Traps and their fates (R355-R365) -/

/-- TRAP_ENTRY: a report that is due at a core's next boundary is taken (R355, R357); one that cancels a YIELD's requeue reloads its quantum
(R371). In supervisor mode it is one that firmware has raised, and it kills the task (R361). -/
def execTrapEntry (c : CoreRef) (cause : BitVec 8) (val : Word) (s : State) : Out State :=
  .next (s.within c fun s => s.orHold fun s =>
    let x := s.core
    if s.sup then
      if x.fwTrap = some ⟨cause, val⟩ then State.trapEnter { s with core := { x with fwTrap := none } } cause val x.regs.pc else s
    else match x.reports, x.task with
    | r :: l, some t =>
      if r ≠ ⟨cause, val⟩ ∨ !(x.life == .running || x.life == .ended || x.life == .yielding) then s
      else
        let q := if x.life == .yielding then (s.die s.me.die).quantumOf t.gen * 1024 else x.quantum
        State.trapEnter { s with core := { x with reports := l, quantum := q } } r.cause r.val x.regs.pc
    | _, _ => s)

/-- TASK_KILL: firmware kills the task whose trap it handles (R362). -/
def execTaskKill (c : CoreRef) (s : State) : Out State :=
  .next (s.within c fun s => s.orHold fun s =>
    if s.sup && s.core.life == .supervisor then s.kill (s.core.regs.trapCause.setWidth 8) s.core.regs.trapPc s.core.regs.trapVal else s)

/-- No engine of the core in focus has a command that can go on (R364): those left are parked, wait at dispatch, or stand behind such. -/
def State.enginesStill (s : State) : Bool :=
  s.core.cmds.all (fun c => c.st != .running) && [Eng.c0, .c1, .m].all fun e => (s.dispatch e).core.cmds == s.core.cmds

/-- The suffix operations of the core in focus wait behind one that is parked, or there are none (R352, R354). -/
def State.sfxStill (s : State) : Bool :=
  match (s.die s.me.die).sfxOps.find? fun o => o.core == s.me.idx with
  | none => true
  | some o => o.parked

/-- No token is on its way to the task (R332). -/
def Core.tokensStill (x : Core) : Bool := x.regs.asked == 0 && (x.regs.claims.isEmpty || x.regs.mailbox.isEmpty)

/-- Decrements of the task on their way; one that a full ring holds has performed (R58). -/
def State.decsOut (s : State) : Bool := s.dev.decs.any fun d => d.core == some s.me && !d.fired

/-- What a suspension waits for (R364, log 26). -/
def State.maySuspend (s : State) : Bool :=
  s.enginesStill && s.sfxStill && s.core.tokensStill && s.core.memq.isEmpty && s.core.adds.isEmpty && !s.decsOut

/-- The end of a suspension: the save, the record armed, the core free, the entry posted (R364, R365). -/
def State.suspendNow (s : State) (t : Task) : State :=
  let r := s.core.taskRegs
  let cause := s.core.regs.trapCause.setWidth 8
  let val := s.core.regs.trapVal
  match s.saveFull t r cause.toNat val with
  | (s, some e) => s.kill e.cause r.pc e.val
  | (s, none) => if !s.canPost s.me.die then s.kill cause r.pc val else ((s.armRecord t).post s.me.die ⟨t, cause, val, r.pc⟩).freeCore

/-- TASK_SUSPEND: firmware gives a trapped task the fate of suspension; a ring that cannot be used kills it instead (R365), and one whose channel group is
not ready is waited for (R39). The task leaves once its core has settled. A companion core's task is held in place (R381). -/
def execTaskSuspend (c : CoreRef) (s : State) : Out State :=
  .next (s.within c fun s => s.orHold fun s =>
    match s.core.task with
    | none => s
    | some t =>
      if s.ringHeld s.me.die then s.hold
      else
      let cause := s.core.regs.trapCause.setWidth 8
      let val := s.core.regs.trapVal
      if s.core.life == .supervisor then
        if !s.canPost s.me.die then s.kill cause s.core.regs.trapPc val
        else
          let s : State := { s with core := { s.core with life := .suspending } }
          if s.comp then (s.armRecord t).post s.me.die ⟨t, cause, val, s.core.regs.trapPc⟩
          else if s.maySuspend then s.suspendNow t else s
      else if s.core.life == .suspending && !s.comp && s.maySuspend then s.suspendNow t
      else s)

/-- The companion core on which a task is held in place (R381). -/
def State.heldOn (s : State) (t : Task) : Option CoreRef :=
  (s.coreNums.map CoreRef.ofNum).find? fun c => c.isComp && (s.getCore c).life == .suspending && (s.getCore c).task == some t

/-- Kills a suspended task whose entry finds a ring that cannot be used any more (R362, R365); what the device kept of its save is gone. -/
def State.killAway (s : State) (d : BitVec 2) (e : Post) : State :=
  match s.heldOn e.task with
  | some c => s.within c fun s => s.kill e.cause e.pc e.val
  | none =>
    let s := match s.savedFor e.task with
      | some v => s.onDev fun d => d.release v
      | none => s
    ((s.killHeader e.task e.cause e.pc e.val).noteKill d e.task.addr).noteEnded e.task

/-- FAULT_RING_ROOM: room appears in a die's ring, and the entry that waits longest is appended; with a ring that cannot be used its task is killed
(R365). The entries wait while the ring's channel group is not ready (R39). -/
def execFaultRingRoom (die : BitVec 2) (s : State) : Out State :=
  .next (s.orHold fun s => match (s.die die).posts with
    | [] => s
    | e :: l =>
      if s.ringHeld die then s.hold
      else
      let next (s : State) : State := s.onDie die fun x => { x with posts := l }
      if !s.canPost die then (next s).killAway die e
      else if (s.ringFill die).2 = 255 then s else (next s).ringAppend die e)

/-! ### YIELD (R369-R371) -/

/-- The ranges that a Y register names for a YIELD (R369). -/
def yieldRanges (y : BitVec 256) : List (Nat × Nat) :=
  ((List.range 4).map fun i => (bits y (64 * i) 32, bits y (64 * i + 32) 32)).filter fun p => p.2 != 0

/-- The checks on a range (R369). -/
def State.rangeCheck (s : State) (p : Nat × Nat) : Verdict :=
  (ensure (p.1 % 64 == 0 && p.2 % 64 == 0) 0x07 (BitVec.ofNat 64 p.1)).and (ensure (decide (p.1 + p.2 ≤ s.core.window false)) 0x09 (BitVec.ofNat 64 p.1))

/-- The results in flight that a YIELD must not meet (R370). -/
def State.nothingInFlight (s : State) : Verdict :=
  let left := (s.core.regs.flight.map InFlight.left).foldl Nat.max 0
  ensure s.core.regs.flight.isEmpty 0x05 (BitVec.ofNat 64 (2 ^ 16 + Nat.min 15 left * 2 ^ 8))

/-- Every full/empty bit is full (R370). -/
def State.allFull (s : State) : Bool := s.core.regs.sFull == BitVec.allOnes 32 && s.core.regs.aFull == BitVec.allOnes 32

/-- YIELD (R369-R371): the scheduler requeues the task, or its quantum starts again (R54). -/
def execYield (y : BitVec 4) (s : State) : Out State :=
  s.issueWith (.all [s.needMain, waitFor s.allFull 0x03, firstOf (s.nothingInFlight :: (yieldRanges (s.y y)).map s.rangeCheck)]) fun s =>
    if s.yieldRequeues then { s with core := { s.core with yielded := yieldRanges (s.y y), issue := { s.core.issue with yields := true } } }
    else match s.core.task with
      | none => s
      | some t => { s with core := { s.core with quantum := (s.die s.me.die).quantumOf t.gen * 1024 } }

/-- What a requeue waits for (R354, R371). -/
def State.mayRequeue (s : State) : Bool := s.core.cmds.isEmpty && !s.mySfx && s.core.memq.isEmpty && s.core.adds.isEmpty && !s.decsOut

/-- YIELD_REQUEUE: a core whose task yields drains, saves and requeues it (R55, R371); a report that is due cancels the requeue. -/
def execYieldRequeue (c : CoreRef) (s : State) : Out State :=
  .next (s.within c fun s => s.orHold fun s =>
    match s.core.task with
    | none => s
    | some t =>
      if s.core.life != .yielding then s
      else if !s.core.reports.isEmpty then
        { s with core := { s.core with life := .running, quantum := (s.die s.me.die).quantumOf t.gen * 1024 } }
      else if !s.mayRequeue then s
      else match s.saveYield t s.core.yielded with
        | (s, some e) => s.kill e.cause s.core.regs.pc e.val
        | (s, none) => ((s.enqueue s.me.die t.queue { task := t }).dieEvent s.me.die 0x04 1).freeCore)

/-! ### Checkpoints (R372, R373) -/

/-- CKPT (R372): under protection its bundle is a checkpoint bundle; otherwise it has no effect. -/
def execCkpt (s : State) : Out State :=
  s.issueWith (s.needMain.and (s.needFeature 3)) fun s =>
    if s.prot then { s with core := { s.core with issue := { s.core.issue with ckpt := true } } } else s

/-- A commit-class operation in the queue (R375). -/
def MemOp.commits : MemOp → Bool
  | .valst _ _ _ _ | .casv _ _ _ _ | .tdec _ _ _ | .semadd _ _ | .sqpush _ _ => true
  | _ => false

/-- What a frozen core waits for: every command and every commit-class operation, but those that a report which is due keeps parked and those behind them
(R232, R233, R372, log 23). -/
def State.mayCheckpoint (s : State) : Bool :=
  let stuck := !s.core.retries
  let parked (e : Eng) : Bool := stuck && s.core.cmds.any fun c => c.eng == e && c.st == .parked
  s.core.cmds.all (fun c => c.st != .running && (parked c.eng || !s.predsGone c)) && s.core.memq.all (fun e => !e.op.commits) && s.core.adds.isEmpty
    && !s.decsOut && ((stuck && s.sfxStill) || (s.die s.me.die).sfxOps.all fun o => o.core != s.me.idx || (match o.kind with
      | .app _ => false
      | _ => true))

/-! ### Rollback (R374-R376) -/

/-- Puts back an entry of the undo journal. -/
def Core.undo (x : Core) : Undo → Core
  | .scratch u old => { x with scratch := Sparse.setRange 0 x.scratch (64 * u) old }
  | .tile u old => { x with tiles := Sparse.setRange 0 x.tiles (16 * u) old }
  | .bank u old =>
    let sh := 512 * (u % 4)
    let row := Sparse.get 0 x.bankRow (u / 4)
    { x with bankRow := Sparse.set 0 x.bankRow (u / 4) ((row &&& ~~~((BitVec.allOnes 512).setWidth 2048 <<< sh)) ||| (old.setWidth 2048 <<< sh)) }
  | .rb n old => { x with rb := x.rb.set n.toNat old n.isLt }

/-- The core at its last checkpoint (R374): commands and results of later bundles are dropped, the journal is applied, newest unit first, and
the snapshot restored; later stores that have not performed still do (log 23). -/
def Core.rollback (x : Core) (r : Regs) : Core :=
  let arrived := r.flight.filter fun f => f.left == 0
  let x := x.journal.foldl Core.undo x
  ({ x with
    regs := { r with flight := r.flight.filter fun f => f.left != 0 }
    captured := none, life := if r.ended then .ended else .running, reports := [], fwTrap := none, errDue := false, journal := [], issue := {}
    cmds := x.cmds.filter Cmd.snap
    memq := x.memq.filter fun e => e.snap || (match e.op with
      | .store _ _ _ _ => true
      | _ => false) } : Core).landAll arrived

/-- Rolls the core in focus back. -/
def State.rollback (s : State) (r : Regs) : State :=
  let me := s.me.idx
  let s := s.onDie s.me.die fun d => { d with sfxOps := d.sfxOps.filter fun o => o.core != me || o.snap }
  { s with core := s.core.rollback r }

/-- A pass of a rerun begins (R374). -/
def State.beginPass (s : State) (r : Regs) (n : Nat) (sig : BitVec 32) (cnt : Nat) : State :=
  let s := s.rollback r
  { s with core := { s.core with rerun := some { pass := n, no := 1, sig1 := sig, cnt1 := cnt } } }

/-- A preloaded task goes back to the head of its queue, and its placement is taken back, so that it may be placed elsewhere (R46, R61). -/
def State.returnPreload (s : State) : State :=
  match s.core.preload with
  | none => s
  | some p =>
    ((({ s with core := { s.core with preload := none } } : State).unbindGroups p.task p.bound).enqueue s.me.die p.prio { task := p.task, pass := p.pass } true)

/-- The queued accesses of the core in focus perform, in issue order; those that are lost stay. -/
def State.performAll : Nat → State → State
  | 0, s => s
  | fuel + 1, s =>
    match (List.range s.core.memq.length).find? fun k => (s.mayPerform k).isSome with
    | none => s
    | some k => State.performAll fuel (s.performAt k)

/-- The core in focus is retired (R376): the accesses outstanding at the last checkpoint perform, its task's state there is saved, and the task is made
ready at the head of its queue; a memory that cannot be read, or an area that cannot be written, kills it. -/
def State.retireCore (s : State) (t : Task) (r : Regs) : State :=
  let s := s.rollback r
  let s := (State.performAll s.core.memq.length s).returnPreload
  let me := s.me.idx
  let s := (s.onDie s.me.die fun d => { d with retired := d.retired ++ [me] }).dieEvent s.me.die 0x08 1
  let val := Config.openWord s.fresh
  let lost := Config.retiredMemoryLost (s.fresh + 1)
  let s : State := { s with fresh := s.fresh + 2 }
  if lost then s.kill 0x21 s.core.regs.pc val
  else match s.saveFull t s.core.regs 0x21 val with
    | (s, some e) => s.kill e.cause s.core.regs.pc e.val
    | (s, none) => (s.enqueue s.me.die t.queue { task := t } true).freeCore

/-- The bytes that a pass wrote, in issue order (R374). -/
def Rerun.bytes (r : Rerun) : List Byte := r.log.flatMap Prod.snd

/-- The stop point of a pass is reached and everything that it issued has landed (R374): the second pass follows the first; after the second the core goes
on when both agree, and is retired when they do not. -/
def State.passDone (s : State) (r : Rerun) : State :=
  let sig := crc32c r.bytes
  match s.core.snapshot, s.core.task with
  | some g, some t =>
    if r.pass = 1 then s.beginPass g 2 sig r.cnt
    else if sig = r.sig1 ∧ r.cnt = r.cnt1 then { s with core := { s.core with rerun := none } }
    else s.retireCore t g
  | _, _ => s

/-- What a pass wrote is known: its results have landed. -/
def State.passSettled (s : State) : Bool :=
  s.core.memq.all (fun e => e.no == 0 || (match e.op with
    | .store _ _ _ _ => true
    | _ => false)) && (s.die s.me.die).sfxOps.all fun o => o.core != s.me.idx || o.no == 0

/-- A datapath error of the core in focus (R374): it rolls a protected core back, which runs twice from its checkpoint. Without protection, or with a
journal that overflowed, it kills the task; an error during a rerun retires the core (log 23). After the checkpoint of an END nothing is left to run
again. -/
def State.datapathError (s : State) : State :=
  match s.core.task with
  | none => s
  | some t =>
    if s.comp then s
    else
      let pc := s.core.taskRegs.pc
      let val := Config.openWord s.fresh
      match s.core.snapshot with
      | none => ({ s with fresh := s.fresh + 1 } : State).kill 0x20 pc val
      | some g =>
        if s.sup ∨ s.core.life == .suspending ∨ s.core.taskRegs.status.getLsbD 2 then ({ s with fresh := s.fresh + 1 } : State).kill 0x20 pc val
        else match s.core.rerun with
          | some _ => s.retireCore t g
          | none => (if g.ended then s.rollback g else s.beginPass g 1 0 0).dieEvent s.me.die 0x09 1

/-- DATAPATH_ERROR: a detected error is acted on at once (R357, R374), but does not stop a checkpoint whose bundle has performed (R372, R375). -/
def execDatapathError (c : CoreRef) (s : State) : Out State :=
  .next (s.within c fun s => s.orHold fun s =>
    if s.core.life == .checkpoint then { s with core := { s.core with errDue := true } } else s.datapathError)

/-- CHECKPOINT_SNAPSHOT: a core frozen after a checkpoint bundle takes its snapshot, and acts then on an error that was found meanwhile (R372, R373). -/
def execCheckpointSnapshot (c : CoreRef) (s : State) : Out State :=
  .next (s.within c fun s => s.orHold fun s =>
    if s.core.life != .checkpoint || !s.mayCheckpoint then s
    else
      let s := s.takeSnapshot
      let err := s.core.errDue
      let s : State := { s with core := { s.core with life := if s.core.regs.ended then .ended else .running, errDue := false } }
      if err then s.datapathError else s)

/-! ### The end of a task (R115, R397, R398) -/

/-- Everything of a task that retires has performed (R397, steps 1-4). -/
def State.mayRetire (s : State) : Bool :=
  s.core.cmds.isEmpty && !s.mySfx && s.core.tokensStill && s.core.memq.isEmpty && s.core.adds.isEmpty && !s.decsOut

/-- A queued operation with an S result or a store, which the end of a task awaits first (R115, step 1). -/
def MemOp.inStepOne : MemOp → Bool
  | .tdec _ _ _ | .semadd _ _ | .sqpush _ _ => false
  | _ => true

/-- A suffix operation with an S result. -/
def SfxKind.inStepOne : SfxKind → Bool
  | .qry _ _ _ | .stat _ => true
  | _ => false

/-- Every S, A and V result and every store of the task on the core in focus has performed (R115, step 1); a claim for which no token can come waits for
none. -/
def State.stepOneDone (s : State) : Bool :=
  s.core.memq.all (fun e => !e.op.inStepOne) && (s.core.regs.claims.isEmpty || s.core.tokensStill)
    && (s.die s.me.die).sfxOps.all fun o => o.core != s.me.idx || !o.kind.inStepOne

/-- The last results of a task that retires land (R115, step 1), and once no result and no store of it is outstanding its loops, its pending transfer and
its rotation are discarded (R115, step 2). -/
def State.settleEnd (s : State) : State :=
  let l := s.core.regs.flight
  let s : State := { s with core := ({ s.core with regs := { s.core.regs with flight := [] } } : Core).landAll l }
  if s.stepOneDone then s.onRegs fun r => { r with loops := [], pend := none, shadow := 0, vrb := 0, prb := 0 } else s

/-- TASK_RETIRE: a task that has issued END retires (R397); a lost write or a discarded add or token is reported first, as at a DRAIN (R398), and one
that waits on an access lost in transit is killed (R379). -/
def execTaskRetire (c : CoreRef) (s : State) : Out State :=
  .next (s.within c fun s => s.orHold fun s =>
    match s.core.task with
    | none => s
    | some t =>
      if s.core.life != .ended || !s.core.reports.isEmpty then s
      else
        let s := s.settleEnd
        if s.core.lostAccess then ({ s with fresh := s.fresh + 1 } : State).kill 0x0A s.core.regs.pc (Config.openWord s.fresh)
        else if !s.mayRetire then s
        else match s.drainReport .package with
          | .trap cause val => ({ s with core := s.core.reported } : State).lateReport cause val
          | _ =>
            let s := s.complete t
            if s.comp then s.freeCore else ((s.dieEvent s.me.die 0x03 1).noteEnded t).freeCore)

end Sys2Proof.Machine
end

