-- ==== Sys2Proof/Machine/Host.lean ====
section
/-! DEFINITION. The host and the device as a whole: memory traffic, management registers, readiness, reset and firmware, walks and
invalidations, page migration, links, power, the checkpoint engine (02_launched, 10_memory R205-R222, 21_interrupted R365-R380, 24_retired
R400-R405). -/

namespace Sys2Proof.Machine

open Sys2Proof

/-! ### Host traffic (R30, R39, R40, R402) -/

/-- Some core of a die runs a task. -/
def State.dieBusy (s : State) (d : BitVec 2) : Bool :=
  (s.coreNums.map CoreRef.ofNum).any fun c => c.die == d && (s.getCore c).task.isSome

/-- A run of the checkpoint engine holds host writes to an address (R402). -/
def State.ckeHolds (s : State) (pa : Nat) : Bool :=
  s.dev.cke.running && (match region pa with
    | .device d => s.dev.cke.ctl.getLsbD (8 + d)
    | _ => false)

/-- The lines of a host write. -/
def linesOf (pa n : Nat) : List Nat := (List.range ((pa + n + 127) / 128 - pa / 128)).map (pa / 128 + ·)

/-- The channel groups of a host access are ready (R39). -/
def State.hostReady (s : State) (pa : PAddr) (n : Nat) : Bool := (linesOf pa.toNat n).all fun l => s.channelReady (s.reaim (128 * l))

/-- A held host write of memory keeps later ones of memory and of the counters waiting (R312, R42), and a counter write later ones of the counters; while
flow control holds one, every later write of the host waits behind it, in link order (R40). Reads and writes do not wait for one another (log 43). -/
def HostWrite.blocks (full : Bool) : HostWrite → HostWrite → Bool
  | .tdec _, .mem _ _ => full
  | .tdec _, .tdec _ => true
  | .tdec _, .reg _ _ _ | .tdec _, .drop => full
  | .mem _ _, .mem _ _ => true
  | .mem _ _, .tdec _ => true
  | .mem _ _, .reg _ _ _ | .mem _ _, .drop => false
  | .reg _ _ _, .mem _ _ | .reg _ _ _, .tdec _ | .reg _ _ _, .reg _ _ _ | .reg _ _ _, .drop => true
  | .drop, .mem _ _ | .drop, .tdec _ | .drop, .reg _ _ _ | .drop, .drop => true
  | .read _ _, .read _ _ => true
  | .read _ _, _ | _, .read _ _ => false

/-- HIF_TDEC queues up to 1,024 addresses (R40). -/
def State.tdecFull (s : State) : Bool := decide (1024 ≤ s.dev.tdecQ.length)

/-- The bytes that the host reads, as they are stored (R218); what a poisoned line returns is left open (log 18). -/
def State.hostBytes (s : State) (pa n : Nat) : List Byte :=
  (List.range n).map fun i =>
    let a := s.reaim (pa + i)
    if (s.lineMeta (a / 128)).poison then (Config.openWord (s.fresh + i)).setWidth 8 else Sparse.get 0 s.mem a

/-- The first write of a management register that waits on the link takes effect in a move of its own, the next one (R40). -/
def State.callLink (s : State) : State := if s.agenda.head? = some .link then s else { s with agenda := .link :: s.agenda }

/-- A host access performs: device memory is written and read as it is stored, without a key (R30, R218); a poisoned line discards a write
(R377), and a frame whose page has migrated is re-aimed (R380). -/
def State.hostPerform (s : State) : HostWrite → State
  | .mem pa data =>
    let l := (linePieces (data.length / 128 + 2) pa.toNat data.length).map fun p => (s.reaim p.1, p.2)
    (s.writeLines 0 l data).1.onCores fun x => l.foldl (fun x p => x.noteStale 7 (p.1 / 128)) x
  | .tdec v => s.onDev fun d => { d with tdecQ := d.tdecQ ++ [v] }
  | .reg _ _ _ => s.callLink
  | .drop => s.setErr 0
  | .read pa n => { s.onDev (fun d => { d with hostRead := s.hostBytes pa.toNat n }) with fresh := s.fresh + n }

/-- A host access may perform now (R39, R40, R402). -/
def State.hostMay (s : State) : HostWrite → Bool
  | .mem pa data => s.hostReady pa data.length && (linesOf pa.toNat data.length).all fun l => !s.ckeHolds (s.reaim (128 * l))
  | .tdec _ => !s.tdecFull
  | .reg _ _ _ | .drop => true
  | .read pa n => s.hostReady pa n

/-- A write of a management register, which stands on the link until its own move. -/
def HostWrite.isReg : HostWrite → Bool
  | .reg _ _ _ => true
  | _ => false

/-- Held host accesses perform in link order, as far as they may (R39, R40, R402). -/
def State.hostRelease : List HostWrite → List HostWrite → State → State
  | [], kept, s => s.onDev fun d => { d with hostHeld := kept.reverse }
  | w :: l, kept, s =>
    if kept.any (fun k => k.blocks s.tdecFull w) || !s.hostMay w then State.hostRelease l (w :: kept) s
    else State.hostRelease l (if w.isReg then w :: kept else kept) (s.hostPerform w)

/-- Lets held host accesses perform. -/
def State.release (s : State) : State := State.hostRelease s.dev.hostHeld [] s

/-- A host access arrives on the link. -/
def State.hostArrive (s : State) (w : HostWrite) : State := (s.onDev fun d => { d with hostHeld := d.hostHeld ++ [w] }).release

/-- A range lies in the device memory window (R30). -/
def inWindow (pa : PAddr) (n : Nat) : Bool := decide (pa.toNat + n ≤ 4 * dieBytes)

/-- HOST_MEM_WRITE (R30). -/
def execHostMemWrite (pa : PAddr) (data : List Byte) (s : State) : Out State :=
  .next (if inWindow pa data.length then s.hostArrive (.mem pa data) else s)

/-- HOST_MEM_READ (R30, R312): it waits while a channel group is not ready (R39). -/
def execHostMemRead (pa : PAddr) (len : Nat) (s : State) : Out State :=
  .next (if inWindow pa len then s.hostArrive (.read pa len) else s)

/-- A read of the counter window: HIF_TDEC and every other offset read as zero (R30, R40). -/
def counterRead (_off _size : Nat) : Word := 0

/-- A write of the counter window: at offset 0 a decrement is queued, or dropped with TDDROP (R40); other offsets ignore it (R30). -/
def State.counterWrite (s : State) (off size : Nat) (v : Word) : State :=
  if off ≠ 0 then s
  else if size ≠ 8 ∨ !s.dev.run ∨ bits v 0 7 ≠ 0 ∨ bits v 48 16 ≠ 0 then s.hostArrive .drop
  else s.hostArrive (.tdec v)

/-- HIF_TDEC_WRITE (R40). -/
def execHifTdecWrite (size : Nat) (v : Word) (s : State) : Out State := .next (s.counterWrite 0 size v)

/-- The job of the root entry that an address translates through (R212). -/
def State.rootJob (s : State) (va : Nat) : BitVec 6 :=
  BitVec.ofNat 6 (bits (s.pte (s.reaim (s.dev.ptroot.toNat + 8 * ((va / 2 ^ 42) % 64)))) 14 6)

/-- HIF_TDEC_QUEUE_HEAD: the queue's head is translated as a supervisor write and its decrement performs, or it is dropped (R40); it waits for the
channel groups that it needs (R39). -/
def execHifTdecQueueHead (s : State) : Out State :=
  .next (s.orHold fun s => match s.dev.tdecQ with
    | [] => s
    | v :: q =>
      let pop (s : State) : State := (s.onDev fun d => { d with tdecQ := q }).release
      match s.translateHeld ⟨none, true⟩ true v with
      | (s, .error _) => (pop s).setErr 0
      | (s, .ok l) =>
        let job := s.rootJob v.toNat
        match region l.pa with
        | .device _ =>
          if job = 0 ∨ (s.lineMeta (l.pa / 128)).poison then (pop s).setErr 0
          else if !s.channelReady l.pa then s.hold
          else
            let x : Dec := { record := v.setWidth 48, pa := BitVec.ofNat 52 l.pa, key := BitVec.ofNat 6 l.key, job := job, host := true, core := none }
            let s := pop (s.onDev fun d => { d with decs := d.decs ++ [x] })
            s.decrementAt (s.dev.decs.length - 1)
        | _ => (pop s).setErr 0)

/-! ### Control, errors, features (R33, R34, R37) -/

/-- HIF_ERR_CLEAR: bits written as 1 clear (R34). -/
def execHifErrClear (v : Word) (s : State) : Out State := .next (s.onDev fun d => { d with err := d.err &&& ~~~(v.setWidth 8) })

/-- FEATURE_ACCEPT_WRITE: what the device does not offer reads 0; after RUN the write is ignored and sets ACCLATE (R34, R37). -/
def execFeatureAcceptWrite (i : BitVec 2) (v : Word) (s : State) : Out State :=
  .next (if s.dev.run then s.setErr 1
    else s.onDev fun d => { d with accept := d.accept.set i.toNat (if i = 0 then v &&& featureOffer else 0) i.isLt })

/-- RUN is set once (R33). -/
def execRun (s : State) : Out State := .next (s.onDev fun d => { d with run := true })

/-- An address of L2 staging (R203). -/
def isStaging (pa : Nat) : Bool :=
  match region pa with
  | .staging _ _ => true
  | _ => false

/-- Reset of the whole device: memory and its lines are kept, with what save areas hold in a form of their own, and the firmware (R35); the frames that have
moved are forgotten. Host accesses that wait on the link are dropped (log 42). -/
def State.resetDevice (s : State) : State :=
  { State.reset with
    mem := s.mem.filter fun e => !isStaging e.1
    lines := s.lines, flaws := s.flaws, agenda := s.agenda, fresh := s.fresh
    dev := { Device.zero with fwMain := s.dev.fwMain, fwComp := s.dev.fwComp, saved := s.dev.saved } }

/-- RESET (R33, R35). -/
def execReset (s : State) : Out State := .next s.resetDevice

/-- The bytes of the image that HIF_FW_ADDR and HIF_FW_LEN name (R32). -/
def State.fwImage (s : State) : List Byte := Sparse.range 0 s.mem (2 ^ 51 + s.dev.fwAddr.toNat % 2 ^ 51) s.dev.fwLen.toNat

/-- A supervisor memory of an image: 16 KiB for a core (R66). -/
def imageWords (l : List (Nat × Word32)) : Sparse Word32 :=
  l.foldl (fun m e => if e.1 < 4096 then Sparse.set 0 m e.1 e.2 else m) []

/-- The trailer of an image, its last four bytes, is the CRC-32C of the bytes before it (R35, log 6). -/
def trailerOk (img : List Byte) : Bool := decide (4 ≤ img.length ∧ (crc32c (img.take (img.length - 4))).toNat = leNat (img.drop (img.length - 4)))

/-- FWLOAD: an image that passes its check replaces the firmware; else FWBAD is set. The device resets in both cases (R33, R35). HIF_FW_ADDR and
HIF_FW_LEN hold what was written; where they break the limits of R32 the check fails (log 6). -/
def execFwload (s : State) : Out State :=
  .next (let img := s.fwImage
    let good := decide (s.dev.fwAddr.toNat % 4096 = 0 ∧ s.dev.fwLen.toNat ≤ 2 ^ 26) && trailerOk img && Config.firmwareCheck img
    if good then
      (s.onDev fun d => { d with fwMain := imageWords (Config.firmwareWords img false), fwComp := imageWords (Config.firmwareWords img true) }).resetDevice
    else s.resetDevice.setErr 2)

/-! ### Readiness, links, power (R39, R379, R404, R405) -/

/-- The feature that a ready bit needs (R37, R39). -/
def readyFeature (bit : Nat) : Option Nat :=
  if bit = 18 then some 0 else if bit = 19 then some 2 else if bit = 20 then some 1 else none

/-- FUNCTION_READY: a bit of HIF_READY_d rises once after each reset (R39); the bit of a feature stays 0 until RUN is set with the feature accepted
(R38, log 26). -/
def execFunctionReady (die : BitVec 2) (bit : BitVec 5) (s : State) : Out State :=
  .next (let k := bit.toNat
    let fell := (k == 16 && (s.die die).fell.getLsbD 0) || (k == 17 && (s.die die).fell.getLsbD 1)
    let absent : Bool := match readyFeature k with
      | some f => !s.feature f || !s.dev.run
      | none => false
    if 22 ≤ k ∨ fell ∨ absent then s
    else (s.onDie die fun x => { x with ready := x.ready ||| (1#22 <<< k) }).release)

/-- BUSY clears and ERR is set (R401). -/
def State.ckeFail (s : State) : State :=
  s.onDev fun d => { d with cke := { d.cke with ctl := (d.cke.ctl &&& ~~~1#64) ||| 2, running := false } }

/-- The physical address of an access of the queue to another device. -/
def MemOp.away (o : MemOp) : Option Nat :=
  let p? : Option Place := match o with
    | .load _ p _ _ _ => some p
    | .store p _ _ _ => some p
    | .ldv _ p _ => some p
    | .valst _ p _ _ => some p
    | .casv _ p _ _ => some p
    | _ => none
  p?.bind fun p => match region p.pa.toNat with
    | .other _ => some p.pa.toNat
    | _ => none

/-- Marks the accesses of a core that a link that goes down loses. -/
def Core.loseOver (x : Core) (link : BitVec 2 × Bool) : Core :=
  { x with memq := x.memq.map fun e => match e.op.away with
    | some pa => if Config.linkOf pa = link then { e with lost := true } else e
    | none => e }

/-! ### The checkpoint engine (R401, R402) -/

/-- Lines of device memory on one die: 48 GiB of 128 bytes. -/
def dieLines : Nat := 0x18000000

/-- The tier's base as a physical address. -/
def Cke.tier (k : Cke) : Nat := 7 * 2 ^ 48 + bits k.ctl 12 8 * 2 ^ 40 + k.base.toNat % 2 ^ 40

/-- The dies that a run names. -/
def Cke.dies (k : Cke) : List Nat := (List.range 4).filter fun d => k.ctl.getLsbD (8 + d)

/-- The bytes that a map lists in a span. -/
def spanOf (m : Sparse Byte) (base n : Nat) : Sparse Byte := m.filter fun e => decide (base ≤ e.1 ∧ e.1 < base + n)

/-- A map with the bytes of a span replaced by others, each given by its offset in the span. -/
def replaceSpan (m : Sparse Byte) (base n : Nat) (new : Sparse Byte) : Sparse Byte :=
  new.foldl (fun m e => Sparse.set 0 m (base + e.1) e.2) (m.filter fun e => !decide (base ≤ e.1 ∧ e.1 < base + n))

/-- CHECK of a metadata word: the code of a word of zeros is zero, as in every linear code (R220, log 27). -/
def checkOf (hi : Nat) : Nat := if hi = 0 then 0 else (Config.checkBits (BitVec.ofNat 52 hi)).toNat

/-- A metadata word (R220). -/
def LineMeta.word (m : LineMeta) : Nat :=
  let hi := m.version.toNat * 16 + (if m.poison then 8 else 0)
  hi * 2 ^ 12 + checkOf hi

/-- One die's lines go to the tier as stored, each with its metadata word (R402). -/
def State.saveDie (s : State) (tier d : Nat) : State :=
  let data := (spanOf s.mem (d * dieBytes) dieBytes).map fun e => (e.1 - d * dieBytes, e.2)
  let words := s.lines.filter fun e => decide (d * dieLines ≤ e.1 ∧ e.1 < (d + 1) * dieLines)
  let metas := words.flatMap fun e => (List.range 8).zip (leBytes 8 e.2.word) |>.map fun p => (8 * (e.1 - d * dieLines) + p.1, p.2)
  { s with mem := replaceSpan (replaceSpan s.mem (tier + d * dieBytes) dieBytes data) (tier + 4 * dieBytes + d * 3 * 2 ^ 30) (3 * 2 ^ 30) metas }

/-- One die's lines come back from the tier, with their metadata words (R402). -/
def State.restoreDie (s : State) (tier d : Nat) : State :=
  let data := (spanOf s.mem (tier + d * dieBytes) dieBytes).map fun e => (e.1 - (tier + d * dieBytes), e.2)
  let mb := tier + 4 * dieBytes + d * 3 * 2 ^ 30
  let words := ((spanOf s.mem mb (3 * 2 ^ 30)).map fun e => (e.1 - mb) / 8).eraseDups
  let keep := s.lines.filter fun e => !decide (d * dieLines ≤ e.1 ∧ e.1 < (d + 1) * dieLines)
  let lines := words.foldl (fun m i =>
    let w := leNat (Sparse.range 0 s.mem (mb + 8 * i) 8)
    Sparse.set {} m (d * dieLines + i) ⟨BitVec.ofNat 48 (w / 2 ^ 16), w.testBit 15⟩) keep
  { s with mem := replaceSpan s.mem (d * dieBytes) dieBytes data, lines := lines }

/-- Memory with a span of open values. -/
def openSpan (m : Sparse Byte) (base n k : Nat) : Sparse Byte := (List.range n).foldl (fun m o => Sparse.set 0 m (base + o) (Config.tierByte k (base + o))) m

/-- A run that failed or was stopped leaves the contents of the tier undefined, its lines and their metadata words (R402). -/
def State.openTier (s : State) (tier d k : Nat) : State :=
  { s with mem := openSpan (openSpan s.mem (tier + d * dieBytes) dieBytes k) (tier + 4 * dieBytes + d * 3 * 2 ^ 30) (3 * 2 ^ 30) k }

/-- A restore that ended early has moved a line, as it may (R402, log 27); one whose channel group is not ready it has not (R39). -/
def State.partTook (s : State) (k l : Nat) : Bool := (Config.tierByte k l).getLsbD 0 && s.channelReady (128 * l)

/-- The lines that such a restore has moved. -/
def State.partCount (s : State) (k : Nat) (dies : List Nat) : Nat :=
  (dies.map fun d => countIf (fun l => s.partTook k (d * dieLines + l)) (List.range dieLines)).sum

/-- A restore that failed: each line either was written or was not (R402, log 27). -/
def State.partRestore (s : State) (tier d k : Nat) : State :=
  let t := s.restoreDie tier d
  let took (l : Nat) : Bool := s.partTook k l
  let inDie (l : Nat) : Bool := decide (d * dieLines ≤ l ∧ l < (d + 1) * dieLines)
  { s with
    mem := (t.mem.filter fun e => inDie (e.1 / 128) && took (e.1 / 128)).foldl (fun m e => Sparse.set 0 m e.1 e.2)
      (s.mem.filter fun e => !(inDie (e.1 / 128) && took (e.1 / 128)))
    lines := (t.lines.filter fun e => inDie e.1 && took e.1).foldl (fun m e => Sparse.set {} m e.1 e.2)
      (s.lines.filter fun e => !(inDie e.1 && took e.1)) }

/-- The count of lines that a run moved before it ended early (R401): of a restore those that it has moved, of a save it is left open up to the lines of
its dies (log 27). -/
def State.ckeMoved (s : State) (k : Cke) (f : Nat) : Word :=
  if !k.running then 0
  else if k.ctl.getLsbD 3 then BitVec.ofNat 64 (s.partCount f k.dies)
  else BitVec.ofNat 64 ((Config.openWord f).toNat % (k.dies.length * dieLines + 1))

/-- A run ends early with ERR set, and held writes perform: a restore may have moved some of its lines, and the tier is undefined (R402). -/
def State.ckeStop (s : State) : State :=
  let k := s.dev.cke
  if !k.ctl.getLsbD 0 then s
  else
    let f := s.fresh
    let n := s.ckeMoved k f
    let s : State := if k.running && k.ctl.getLsbD 3 then k.dies.foldl (fun s d => s.partRestore k.tier d f) s else s
    let s := k.dies.foldl (fun s d => s.openTier k.tier d (f + 1)) s
    (({ s with fresh := f + 2 } : State).ckeFail.onDev fun d => { d with cke := { d.cke with lines := n } }).release

/-- A write of HIF_CKE_CTL that the engine takes (R401). -/
def State.ckeWrite (s : State) (v : Word) (restore start : Bool) : State :=
  let busy := s.dev.cke.ctl.getLsbD 0
  let dies := (List.range 4).filter fun d => v.getLsbD (8 + d)
  if busy ∨ dies.isEmpty ∨ dies.any (fun d => !s.isReady (BitVec.ofNat 2 d) 21) then s
  else
    let fields := (v &&& 0xFFF00) ||| (if restore then 8 else 0)
    if start then s.onDev fun d => { d with cke := { d.cke with ctl := fields ||| 1, lines := 0, running := false } }
    else s.onDev fun d => { d with cke := { d.cke with ctl := fields ||| (d.cke.ctl &&& 2) } }

/-- CKE_SAVE_START (R401). -/
def execCkeSaveStart (v : Word) (s : State) : Out State := .next (s.ckeWrite v false true)

/-- CKE_RESTORE_START (R401). -/
def execCkeRestoreStart (v : Word) (s : State) : Out State := .next (s.ckeWrite v true true)

/-- CKE_ABORT (R402). -/
def execCkeAbort (s : State) : Out State := .next s.ckeStop

/-- CKE_RUN_BEGIN: no task runs on the named dies (R402). -/
def execCkeRunBegin (s : State) : Out State :=
  .next (let k := s.dev.cke
    if !k.ctl.getLsbD 0 || k.running || k.dies.any (fun d => s.dieBusy (BitVec.ofNat 2 d)) then s
    else s.onDev fun d => { d with cke := { d.cke with running := true } })

/-- Every channel group of the dies of a run is ready (R39). -/
def State.ckeReady (s : State) : Bool := s.dev.cke.dies.all fun d => (List.range 4).all fun g => s.isReady (BitVec.ofNat 2 d) (12 + g)

/-- CKE_RUN_END: every line has moved, which waits for the channel groups of its dies (R39); BUSY clears and held writes perform (R402). -/
def execCkeRunEnd (s : State) : Out State :=
  .next (let k := s.dev.cke
    if !k.running || !s.ckeReady then s
    else
      let s := k.dies.foldl (fun s d => if k.ctl.getLsbD 3 then s.restoreDie k.tier d else s.saveDie k.tier d) s
      (s.onDev fun d => { d with cke := { d.cke with ctl := d.cke.ctl &&& ~~~1#64, running := false, lines := BitVec.ofNat 64 (k.dies.length * dieLines) } }).release)

/-- LINK_DOWN: a link's ready bit falls and LINKDN is set (R34, R39); accesses on their way over it are lost (R379), and a run of the checkpoint
engine fails (R402). -/
def execLinkDown (die : BitVec 2) (link : Bool) (s : State) : Out State :=
  .next (let k := if link then 17 else 16
    if !s.isReady die k then s
    else
      let s := s.onDie die fun x => { x with ready := x.ready &&& ~~~(1#22 <<< k), fell := x.fell ||| (if link then 2 else 1) }
      ((s.setErr 3).onCores fun x => x.loseOver (die, link)).ckeStop)

/-- Sets an island's operating point; THR says that it is held below the request (R404). -/
def Island.settle (x : Island) (cur : BitVec 2) : Island := { x with cur := if cur < x.req then x.req else cur, thr := decide (x.req < cur) }

/-- ISL_REQUEST_WRITE: without a limit the requested point comes into force (R404). -/
def execIslRequestWrite (die : BitVec 2) (isl : BitVec 5) (v : Word) (s : State) : Out State :=
  .next (s.onDie die fun x =>
    let i := x.isl[isl.toNat]'(isl.isLt)
    let j : Island := { i with req := v.setWidth 2 }
    { x with isl := x.isl.set isl.toNat (j.settle (if i.thr then i.cur else j.req)) isl.isLt })

/-- POWER_LIMIT_CHANGE: the device holds an island at a higher-numbered point, or restores its request (R405). -/
def execPowerLimitChange (die : BitVec 2) (isl : BitVec 5) (cur : BitVec 2) (s : State) : Out State :=
  .next (s.onDie die fun x => { x with isl := x.isl.set isl.toNat ((x.isl[isl.toNat]'(isl.isLt)).settle cur) isl.isLt })

/-- The first access of a core's task to memory that has not been lost. -/
def Core.firstAccess (x : Core) : Option Nat :=
  (List.range x.memq.length).find? fun k => match x.memq[k]? with
    | some e => !e.lost && (match e.op with
      | .value _ _ _ | .semadd _ _ | .valid _ _ | .sqpush _ _ => false
      | _ => true)
    | none => false

/-- POISONED_ACKNOWLEDGEMENT_PATH: an access's acknowledgement is lost on its way back (R379): a plain store has performed, no result arrives, and
the access stays outstanding. -/
def execPoisonedAcknowledgementPath (c : CoreRef) (s : State) : Out State :=
  .next (s.within c fun s =>
    match s.core.firstAccess with
    | none => s
    | some k =>
      match s.mayPerform k with
      | none => s
      | some e =>
        let s := match e.op with
          | .store _ _ _ _ => s.performOp e
          | _ => s
        { s with core := { s.core with memq := setAt s.core.memq k { e with lost := true } } })

/-! ### Translation: registers, walks, invalidations (R209, R212, R215, R216) -/

/-- PTROOT_WRITE (R212). -/
def execPtrootWrite (v : Word) (s : State) : Out State :=
  .next (if s.dev.run ∨ bits v 0 16 ≠ 0 then s else s.onDev fun d => { d with ptroot := v })

/-- A write of HIF_TLBINV: ignored while BUSY is 1 (R215). -/
def State.startInvalidation (s : State) (what : Option (BitVec 32)) : State :=
  if s.dev.tlbInv.isSome then s else s.onDev fun d => { d with tlbInv := some what }

/-- TLB_INVALIDATE_VPN (R215). -/
def execTlbInvalidateVpn (vpn : BitVec 32) (s : State) : Out State := .next (s.startInvalidation (some vpn))

/-- TLB_INVALIDATE_ALL (R215). -/
def execTlbInvalidateAll (s : State) : Out State := .next (s.startInvalidation none)

/-- Drops cached translations that cover a page, or all, in every cache (R215). -/
def State.dropTranslations (s : State) (what : Option (BitVec 32)) : State :=
  let keep (e : TlbEntry) : Bool := match what with
    | none => false
    | some v => !decide (e.vpn ≤ v.toNat ∧ v.toNat < e.vpn + e.count)
  let s := s.onCores fun x => { x with tlb := x.tlb.filter keep }
  { s with dies := s.dies.map fun d => { d with tlb := d.tlb.filter keep } }

/-- TLB_INVALIDATION_DONE (R215). -/
def execTlbInvalidationDone (s : State) : Out State :=
  .next (match s.dev.tlbInv with
    | none => s
    | some what => (s.dropTranslations what).onDev fun d => { d with tlbInv := none })

/-- L2_SPLIT_WRITE: the split is requested, and the die places no new task (R209). -/
def execL2SplitWrite (die : BitVec 2) (v : Word) (s : State) : Out State :=
  .next (let units := Nat.min 12 (bits v 0 4)
    s.onDie die fun x => { x with l2want := some ((v &&& 0x3F00) ||| BitVec.ofNat 64 units) })

/-- L2_SPLIT_APPLY: with no task running on the die, its staging is zeroed and the split comes into force (R209). -/
def execL2SplitApply (die : BitVec 2) (s : State) : Out State :=
  .next (match (s.die die).l2want with
    | none => s
    | some v =>
      if s.dieBusy die then s
      else
        let mine (pa : Nat) : Bool := match region pa with
          | .staging d _ => d == die.toNat
          | _ => false
        ({ s with mem := s.mem.filter fun e => !mine e.1 } : State).onDie die fun x => { x with l2split := v, l2want := none })

/-- FABRIC_RANK_WRITE: HIF_FABRANK, or a word of HIF_FABGRP, while RUN is 0 (R205). -/
def execFabricRankWrite (reg : BitVec 3) (v : Word) (s : State) : Out State :=
  .next (if s.dev.run then s
    else if reg = 0 then s.onDev fun d => { d with fabRank := v &&& 0x1FF }
    else if reg.toNat ≤ 4 then s.onDev fun d => { d with fabGrp := d.fabGrp.setIfInBounds (reg.toNat - 1) v }
    else s)

/-- The core of a die that a free walk slot goes to: the next in number that waits, after the one last served (R216). -/
def State.walkNext (s : State) (die : BitVec 2) : Option CoreRef :=
  let last := (s.die die).walkLast
  ((List.range 156).map fun i => (⟨die, BitVec.ofNat 8 ((last + 1 + i) % 156)⟩ : CoreRef)).find? fun c => !(s.getCore c).walks.isEmpty

/-- A walk has failed: the requests of a die for its granule wait no longer, and the accesses that made them meet its outcome when they are checked
again (R153, R216). -/
def State.dropWalks (s : State) (die : BitVec 2) (va : BitVec 48) : State :=
  (s.coreNums.map CoreRef.ofNum).foldl (fun s k => if k.die = die
    then s.onCore k fun x => { x with walks := x.walks.filter fun w => w.va.toNat / 2 ^ 16 != va.toNat / 2 ^ 16 } else s) s

/-- PAGE_WALK: a walk slot serves the next waiting core: the walk sets ACCESSED and DIRTY and fills the caches; requests of the die for the same page
share it (R213, R216). A walk whose tables lie in a channel group that is not ready waits (R39). -/
def execPageWalk (die : BitVec 2) (s : State) : Out State :=
  .next (match s.walkNext die with
    | none => s
    | some c =>
      match (s.getCore c).walks with
      | [] => s
      | r :: _ =>
        let q := (s.focus c).walkNow (s.focus c).who r.write r.va.toNat
        match q.2 with
        | .error .wait => s
        | .error _ => ((q.1.focus s.me).onDie die fun x => { x with walkLast := c.idx.toNat }).dropWalks die r.va
        | .ok _ => (q.1.focus s.me).onDie die fun x => { x with walkLast := c.idx.toNat })

/-- IMEM_RELOAD: 4 KiB of text around the program counter are loaded again; a reload that fails is trap 0x0A at the bundle (R65). -/
def execImemReload (c : CoreRef) (s : State) : Out State :=
  .next (s.within c fun s => s.orHold fun s =>
    match s.core.task with
    | none => s
    | some t =>
      if s.sup then s
      else
        let off := (s.core.regs.pc - s.core.base).toNat / 4096 * 4096
        let n := Nat.min 4096 (s.core.textLen - off)
        let s := s.count 0x0C 1
        match s.recBytes t.job (s.core.base.toNat + off) n with
        | (s, .error e) => if s.core.life == .running then s.trapEnter e.1.cause s.core.regs.pc s.core.regs.pc else s
        | (s, .ok bs) => { s with core := { s.core with text := Sparse.setRange 0 s.core.text (off / 4) (wordsOf bs) } })

/-! ### Page migration (R380) -/

/-- An address in a frame that moved, by the pairs of old and new frames. -/
def movedPa (l : List (Nat × Nat)) (pa : Nat) : Nat :=
  match l.find? fun m => m.1 == pa / 2 ^ 16 with
  | some m => m.2 * 2 ^ 16 + pa % 2 ^ 16
  | none => pa

/-- A place re-aimed at the new frame. -/
def Place.moved (f : Nat → Nat) (p : Place) : Place := { p with pa := BitVec.ofNat 52 (f p.pa.toNat) }

/-- A queued operation re-aimed at the new frame (R380). -/
def MemOp.moved (f : Nat → Nat) : MemOp → MemOp
  | .load d p ac sz x => .load d (p.moved f) ac sz x
  | .store p ac sz v => .store (p.moved f) ac sz v
  | .ldv d p k => .ldv d (p.moved f) k
  | .valst d p v m => .valst d (p.moved f) v m
  | .casv d p v k => .casv d (p.moved f) v k
  | .tdec a pa key => .tdec a (BitVec.ofNat 52 (f pa.toNat)) key
  | o => o

/-- A version slot re-aimed at the new frame. -/
def movedN (f : Nat → Nat) (x : NSlot) : NSlot := x.map fun p => (BitVec.ofNat 45 (f (128 * p.1.toNat) / 128), p.2)

/-- A version on its way to its slot, re-aimed. -/
def InFlight.moved (f : Nat → Nat) (x : InFlight) : InFlight :=
  match x.what with
  | .n k p => { x with what := .n k (movedN f p) }
  | _ => x

/-- An entry of the queue re-aimed. -/
def MemEntry.moved (f : Nat → Nat) (e : MemEntry) : MemEntry := { e with op := e.op.moved f }

/-- A core's requests re-aimed at the new frame; its L1 keeps no line of the old frame or the new one (R306, R314). -/
def Core.moved (f : Nat → Nat) (gone : Nat → Bool) (x : Core) : Core :=
  let regs (r : Regs) : Regs := { r with n := r.n.map (movedN f), flight := r.flight.map (InFlight.moved f) }
  { x with
    l1 := x.l1.filter fun e => !gone (e.1 / 512)
    memq := x.memq.map (MemEntry.moved f)
    regs := regs x.regs, snapshot := x.snapshot.map regs
    captured := x.captured.map fun c => { c with flight := c.flight.map (InFlight.moved f) } }

/-- The requests of a suspended task re-aimed at the new frame. -/
def Saved.moved (f : Nat → Nat) (x : Saved) : Saved := { x with memq := x.memq.map (MemEntry.moved f), flight := x.flight.map (InFlight.moved f) }

/-- One line's copy: one write at the new home, under the new address and the next version (R218, R221, R380); a poisoned line stays poisoned, and a
poisoned line at the new home takes no write (R377). -/
def State.moveLine (s : State) (key line new : Nat) : State :=
  let m := s.lineMeta line
  let v := m.version + 1
  let bs := s.linePlain key line
  let raw := if key = 0 then bs else match s.key? key with
    | some k => lineEncrypt k new v bs
    | none => bs
  let r := s.writeLine 0 (128 * new) raw
  if r.2 then r.1 else { r.1 with lines := Sparse.set {} r.1.lines new { m with version := v } }

/-- The group of entries that a walk's page consists of: the first entry's address, their number, and the frames from one to the next (R214). -/
def groupOf (e : TlbEntry) (p va : Nat) : Nat × Nat × Nat :=
  if e.count = 1 then (p, 1, 1)
  else if e.count = 2 ^ 9 then (p - 8 * ((va / 2 ^ 16) % 512), 512, 1)
  else (p - 8 * ((va / 2 ^ 29) % 32), 32, 2 ^ 13)

/-- The frames of the page that an entry maps, where they lie now, each with the frame that it moves to (R380). -/
def State.framePairs (s : State) (e : TlbEntry) (new : Nat) : List (Nat × Nat) :=
  (List.range e.count).map fun i => (s.reaim ((e.frame + i) * 2 ^ 16) / 2 ^ 16, new + i)

/-- The frames of a migration: old and new ones lie in device memory, in channel groups that are ready, and none is both (R39, R380). -/
def State.framesOk (s : State) (l : List (Nat × Nat)) : Bool :=
  let ok (f : Nat) : Bool := s.channelReady (f * 2 ^ 16) && (match region (f * 2 ^ 16) with
    | .device _ => true
    | _ => false)
  l.all fun m => ok m.1 && ok m.2 && !l.any fun k => k.1 == m.2

/-- PAGE_MIGRATION: the page that holds an address moves to a new frame (R380): its lines are copied, its entries rewritten, the cached
translations dropped, and what is on its way to the old frame goes to the new one. While a channel group that it needs is not ready nothing moves (R39). -/
def execPageMigration (va : BitVec 48) (frame : BitVec 36) (s : State) : Out State :=
  .next (match s.walk va.toNat with
    | .error _ => s
    | .ok (e, p) =>
      let n := e.count
      let l := s.framePairs e frame.toNat
      if !s.framesOk l then s
      else
        let key := bits e.leaf 14 6
        let s := l.foldl (fun s m => (List.range 512).foldl (fun s i => s.moveLine key (m.1 * 512 + i) (m.2 * 512 + i)) s) s
        let (g, k, step) := groupOf e p va.toNat
        let f := movedPa l
        let s := (List.range k).foldl (fun s i =>
          let old := s.pte (g + 8 * i)
          let new := (old &&& ~~~(0xFFFFFFFFF#64 <<< 21)) ||| (BitVec.ofNat 64 (frame.toNat + step * i) <<< 21)
          (s.writePlain 0 (f (g + 8 * i)) (leBytes 8 new.toNat)).1) s
        let s := (List.range n).foldl (fun s i => s.dropTranslations (some (BitVec.ofNat 32 (e.vpn + i)))) s
        let s := s.onCores (Core.moved f fun x => l.any fun m => m.1 == x || m.2 == x)
        let s := s.onDev fun d => { d with
          decs := d.decs.map fun x => { x with pa := BitVec.ofNat 52 (f x.pa.toNat) }
          saved := d.saved.map (Saved.moved f)
          moved := ((d.moved.map fun m => (m.1, f (m.2 * 2 ^ 16) / 2 ^ 16)).filter fun m => !decide (frame.toNat ≤ m.1 ∧ m.1 < frame.toNat + n))
            ++ l }
        s.dieEvent (ownerDie (frame.toNat * 2 ^ 16)) 0x0E 1)

/-! ### Keys, poison, groups, counters, companions (R219, R326, R378, R387, R400) -/

/-- A write of HIF_KEY_CMD: ignored while BUSY is 1 (R219). -/
def State.keyCommand (s : State) (slot : BitVec 6) (op : BitVec 2) : State :=
  if s.dev.keyCmd.getLsbD 16 then s
  else s.onDev fun d => { d with keyCmd := 0x10000 ||| (slot.setWidth 64 <<< 8) ||| op.setWidth 64 }

/-- KEY_LOAD (R219). -/
def execKeyLoad (slot : BitVec 6) (s : State) : Out State := .next (s.keyCommand slot 1)

/-- KEY_CLEAR (R219). -/
def execKeyClear (slot : BitVec 6) (s : State) : Out State := .next (s.keyCommand slot 2)

/-- The result of a key command (R219). -/
def State.keyStat (s : State) (slot op : Nat) : Nat :=
  if op ≠ 1 ∧ op ≠ 2 then 3 else if slot = 0 then 1 else if !s.feature 5 then 2 else 0

/-- KEY_COMMAND_DONE: the slot is loaded or cleared, the key data is zeroed, and BUSY clears (R219). -/
def execKeyCommandDone (s : State) : Out State :=
  .next (let w := s.dev.keyCmd
    if !w.getLsbD 16 then s
    else
      let slot := bits w 8 6
      let st := s.keyStat slot (bits w 0 2)
      let put (d : Device) : Device :=
        if st ≠ 0 then d
        else { d with keySlots := Sparse.set 0 d.keySlots slot (if bits w 0 2 = 1 then (1#513 <<< 512) ||| d.keyData.setWidth 513 else 0) }
      s.onDev fun d => { put d with keyData := 0, keyCmd := BitVec.ofNat 64 (st * 2 ^ 14 + slot * 2 ^ 8) })

/-- POISON_CLEAR: a write of HIF_PCLR; ignored while BUSY is 1, or when it names no line of device memory (R378). -/
def execPoisonClear (v : Word) (s : State) : Out State :=
  .next (match region (bits v 7 45 * 128) with
    | .device _ => if s.dev.pclr.isSome then s else s.onDev fun d => { d with pclr := some (BitVec.ofNat 45 (bits v 7 45)) }
    | _ => s)

/-- POISON_CLEAR_DONE: the line is zero, its version 0, its poison gone (R378); it waits for the line's channel group (R39). -/
def execPoisonClearDone (s : State) : Out State :=
  .next (match s.dev.pclr with
    | none => s
    | some l => if !s.channelReady (128 * l.toNat) then s else ({ s with mem := Sparse.setRange 0 s.mem (128 * l.toNat) (List.replicate 128 0), lines := Sparse.set {} s.lines l.toNat {} } : State).onDev
        fun d => { d with pclr := none })

/-- FGRP_WRITE: a collective group is defined; clearing EN fails its outstanding CCOLs (R386, R387). -/
def execFgrpWrite (g : BitVec 6) (v : Word) (s : State) : Out State :=
  .next (let s := s.onDev fun d => { d with fgrp := d.fgrp.set g.toNat (v &&& 0x000FFFFFFFFFFFC1) g.isLt }
    if v.getLsbD 0 then s else s.clearGroup g)

/-- DEVSEL_WRITE: it selects a source and zeroes the counter; a reserved code stores 0 (R400). -/
def execDevselWrite (die : BitVec 2) (i : BitVec 4) (v : Word) (s : State) : Out State :=
  .next (s.onDie die fun x => { x with
    devSel := x.devSel.set i.toNat (if bits v 0 8 < 0x10 then v.setWidth 8 else 0) i.isLt
    devCnt := x.devCnt.set i.toNat 0 i.isLt })

/-- A companion task starts or is turned away (R326): its record is checked, and its text must fit in 64 KiB. -/
def State.startCompanion (s : State) (c : CoreRef) (addr : BitVec 48) : State :=
  match s.translateHeld ⟨none, true⟩ false (addr.setWidth 64) with
  | (s, .error _) => (s.setErr 7).noteKill c.die addr
  | (s, .ok l) =>
    match s.readRecord (ownerDie l.pa) addr (s.rootJob addr.toNat) with
    | (s, none) => s
    | (s, some t0) =>
      match s.checkRecord c.die t0 true with
      | (s, none) => s
      | (s, some t) =>
        match s.kernelOf t with
        | (s, .ok k) => if 65536 < k.len then s.rejectTask t else s.within c fun s => s.startTask t none
        | (s, .error _) => s.within c fun s => s.startTask t none

/-- COMP_START: a write of HIF_COMP_START_n (R326); the start waits while a channel group that it needs is not ready (R39). -/
def execCompStart (n : BitVec 6) (v : Word) (s : State) : Out State :=
  .next (let c : CoreRef := ⟨BitVec.ofNat 2 (n.toNat / 12), BitVec.ofNat 8 (144 + n.toNat % 12)⟩
    if 48 ≤ n.toNat ∨ (s.getCore c).task.isSome ∨ !s.dev.run ∨ !s.feature 1 ∨ !s.isReady c.die 20 ∨ (s.dev.compHeld.any fun x => x.1 == n && x.2 != v) then s
    else
      let t := (s.onDev fun d => { d with compHeld := d.compHeld.filter fun x => x.1 != n }).startCompanion c (BitVec.ofNat 48 (bits v 7 41 * 128))
      if !(t.held && !s.held) then t
      else if s.dev.compHeld.any fun x => x.1 == n then s
      else s.onDev fun d => { d with compHeld := d.compHeld ++ [(n, v)] })

/-! ### Every other register (R32, R49, R222, R365, R401) -/

/-- Runs a meaning that always answers a next state. -/
def Out.state (o : Out State) (s : State) : State :=
  match o with
  | .next s' => s'
  | _ => s

/-- A write of HIF_CTL (R33): FWLOAD goes before RESET, and either takes effect alone. -/
def State.ctlWrite (s : State) (v : Word) : State :=
  if v.getLsbD 2 then (execFwload s).state s
  else if v.getLsbD 1 then s.resetDevice
  else if v.getLsbD 0 then (execRun s).state s
  else s

/-- A quantum register: 0 stores 1 (R49). -/
def quantumValue (v : Word) : Word32 := if v.setWidth 32 = 0#32 then 1 else v.setWidth 32

/-- A field of an aperture (R222). -/
def Aperture.write (a : Aperture) (reg : Nat) (v : Word) : Aperture :=
  if reg = 0 then { a with base := v }
  else if reg = 8 then { a with shape := v &&& 0x0000FFFFFFFF00FD }
  else if reg = 16 then { a with key := v &&& 0x3F }
  else a

/-- A write of a register at an offset (R32): the registers with a behaviour of their own do as their rows say. -/
def State.regWrite (s : State) (off : Nat) (v : Word) : State :=
  let i8 (base : Nat) := (off - base) / 8
  let d2 (k : Nat) : BitVec 2 := BitVec.ofNat 2 k
  if off = 0x0008 then s.ctlWrite v
  else if off = 0x0010 then (execHifErrClear v s).state s
  else if 0x0120 ≤ off ∧ off < 0x0140 then (execFeatureAcceptWrite (d2 (i8 0x0120)) v s).state s
  else if off = 0x0300 then s.onDev fun d => { d with fwAddr := v }
  else if off = 0x0308 then s.onDev fun d => { d with fwLen := v }
  else if 0x0400 ≤ off ∧ off < 0x0500 then
    let d := d2 ((off - 0x0400) / 0x40)
    let r := (off - 0x0400) % 0x40
    if r = 0 then s.onDie d fun x => { x with qntPrompt := quantumValue v }
    else if r = 8 then s.onDie d fun x => { x with qntGen := quantumValue v }
    else s
  else if off = 0x0500 then (execPtrootWrite v s).state s
  else if off = 0x0508 then s.startInvalidation (if v.getLsbD 1 then none else some (BitVec.ofNat 32 (bits v 16 32)))
  else if 0x0510 ≤ off ∧ off < 0x0530 then (execL2SplitWrite (d2 (i8 0x0510)) v s).state s
  else if off = 0x0540 then (execFabricRankWrite 0 v s).state s
  else if 0x0548 ≤ off ∧ off < 0x0568 then (execFabricRankWrite (BitVec.ofNat 3 (1 + i8 0x0548)) v s).state s
  else if 0x0620 ≤ off ∧ off < 0x0640 then s.onDie (d2 (i8 0x0620)) fun x => { x with faultRing := v &&& 0x000FFFFFFFFFF001 }
  else if off = 0x0660 then (execPoisonClear v s).state s
  else if off = 0x0700 then s.keyCommand (BitVec.ofNat 6 (bits v 8 6)) (v.setWidth 2)
  else if 0x0708 ≤ off ∧ off < 0x0748 then
    let k := 64 * i8 0x0708
    s.onDev fun d => { d with keyData := (d.keyData &&& ~~~(0xFFFFFFFFFFFFFFFF#512 <<< k)) ||| (v.setWidth 512 <<< k) }
  else if 0x0800 ≤ off ∧ off < 0x1000 then
    let n := (off - 0x0800) / 32
    s.onDev fun d => { d with apt := d.apt.setIfInBounds n ((d.apt.toList.getD n {}).write (off % 32) v) }
  else if 0x1000 ≤ off ∧ off < 0x1180 then (execCompStart (BitVec.ofNat 6 (i8 0x1000)) v s).state s
  else if 0x1200 ≤ off ∧ off < 0x1400 then (execFgrpWrite (BitVec.ofNat 6 (i8 0x1200)) v s).state s
  else if 0x1800 ≤ off ∧ off < 0x1C00 then
    let r := (off - 0x1800) % 0x100
    if 0x80 ≤ r ∧ r < 0x100 then (execDevselWrite (d2 ((off - 0x1800) / 0x100)) (BitVec.ofNat 4 ((r - 0x80) / 8)) v s).state s else s
  else if 0x1C00 ≤ off ∧ off < 0x2000 then
    let i := ((off - 0x1C00) % 0x100) / 8
    (execIslRequestWrite (d2 ((off - 0x1C00) / 0x100)) (BitVec.ofNat 5 i) v s).state s
  else if off = 0x2000 then
    if s.dev.cke.ctl.getLsbD 0 then (if v.getLsbD 2 then s.ckeStop else s) else s.ckeWrite v (v.getLsbD 3) (v.getLsbD 0)
  else if off = 0x2008 then (if s.dev.cke.ctl.getLsbD 0 then s else s.onDev fun d => { d with cke := { d.cke with base := v &&& 0xFFFFFFF000 } })
  else s

/-- A write of a management register takes effect: one of any other size than 8 bytes, or misaligned, is ignored (R32). -/
def State.registerWrite (s : State) (off : BitVec 16) (size : Nat) (v : Word) : State :=
  if size = 8 ∧ off.toNat % 8 = 0 then s.regWrite off.toNat v else s

/-- A later write of a management register waits behind a host write on the link (R40). -/
def State.linkHeld (s : State) (off : BitVec 16) (size : Nat) (v : Word) : Bool := s.dev.hostHeld.any fun w => w.blocks s.tdecFull (.reg off size v)

/-- HIF_REGISTER_WRITE: the host writes a management register (R32), behind a counter write that flow control holds (R40). -/
def execHifRegisterWrite (off : BitVec 16) (size : Nat) (v : Word) (s : State) : Out State :=
  .next (if s.linkHeld off size v then s.hostArrive (.reg off size v) else s.registerWrite off size v)

/-- The first write of a management register that waits on the link takes effect, unless flow control holds an earlier counter write (R40); later writes
follow it. -/
def State.linkWrite (s : State) : State :=
  match s.dev.hostHeld.span (fun w => !w.isReg) with
  | (l, .reg off size v :: t) =>
    if l.any fun w => w.blocks s.tdecFull (.reg off size v) then s
    else ((s.onDev fun d => { d with hostHeld := l ++ t }).registerWrite off size v).release
  | _ => s

end Sys2Proof.Machine
end

