-- ==== Sys2Proof/Machine/ScalarFloat.lean ====
section
/-! DEFINITION. Scalar floating point (R145-R149). -/

namespace Sys2Proof.Machine

open Sys2Proof

/-- The format of a scalar float operand. -/
def scalarFmt (dbl : Bool) : FloatFmt := if dbl then fFP64 else fFP32

/-- A float operand's pattern: an FP32 value in bits [31:0], the others ignored (R145). -/
def scalarArg (dbl : Bool) (w : Word) : Nat := if dbl then w.toNat else w.toNat % 2 ^ 32

/-- A float result of two sources with latency 4 (R145, R146). -/
def State.fpu2 (s : State) (d a b : BitVec 5) (ta tb dbl : Bool) (f : FloatFmt → Nat → Nat → Nat × Flags) : Out State :=
  s.issueWith (.all [s.needS a ta, s.needS b tb, s.destS d]) fun s =>
    let r := f (scalarFmt dbl) (scalarArg dbl (s.s a)) (scalarArg dbl (s.s b))
    s.send 4 (.s d (BitVec.ofNat 64 r.1)) r.2

/-- FADD (R146). -/
def execFadd (d a b : BitVec 5) (ta tb dbl : Bool) (s : State) : Out State := s.fpu2 d a b ta tb dbl FloatFmt.add

/-- FSUB (R146). -/
def execFsub (d a b : BitVec 5) (ta tb dbl : Bool) (s : State) : Out State := s.fpu2 d a b ta tb dbl FloatFmt.sub

/-- FMUL (R146). -/
def execFmul (d a b : BitVec 5) (ta tb dbl : Bool) (s : State) : Out State := s.fpu2 d a b ta tb dbl FloatFmt.mul

/-- FMIN (R147). -/
def execFmin (d a b : BitVec 5) (ta tb dbl : Bool) (s : State) : Out State := s.fpu2 d a b ta tb dbl (fun f => f.minmax false false)

/-- FMAX (R147). -/
def execFmax (d a b : BitVec 5) (ta tb dbl : Bool) (s : State) : Out State := s.fpu2 d a b ta tb dbl (fun f => f.minmax true false)

/-- FMINN (R147). -/
def execFminn (d a b : BitVec 5) (ta tb dbl : Bool) (s : State) : Out State := s.fpu2 d a b ta tb dbl (fun f => f.minmax false true)

/-- FMAXN (R147). -/
def execFmaxn (d a b : BitVec 5) (ta tb dbl : Bool) (s : State) : Out State := s.fpu2 d a b ta tb dbl (fun f => f.minmax true true)

/-- FDIV comes with a variable latency (R124, R146). -/
def execFdiv (d a b : BitVec 5) (ta tb dbl : Bool) (s : State) : Out State :=
  s.issueWith (.all [s.needS a ta, s.needS b tb, s.destS d]) fun s =>
    let r := (scalarFmt dbl).div (scalarArg dbl (s.s a)) (scalarArg dbl (s.s b))
    s.produce d (BitVec.ofNat 64 r.1) r.2

/-- FSQRT comes with a variable latency (R124, R146). -/
def execFsqrt (d a : BitVec 5) (ta dbl : Bool) (s : State) : Out State :=
  s.issueWith (.all [s.needS a ta, s.destS d]) fun s =>
    let r := (scalarFmt dbl).sqrt (scalarArg dbl (s.s a))
    s.produce d (BitVec.ofNat 64 r.1) r.2

/-- FCMP to a predicate with latency 1, or to an S register with latency 4 (R148). -/
def execFcmp (toS : Bool) (d : BitVec 4) (a b : BitVec 5) (ta tb dbl : Bool) (cc : FCond) (s : State) : Out State :=
  s.issueWith (.all [s.needS a ta, s.needS b tb, if toS then s.destS (d.setWidth 5) else .go]) fun s =>
    let r := (scalarFmt dbl).compare cc (scalarArg dbl (s.s a)) (scalarArg dbl (s.s b))
    if toS then s.send 4 (.s (d.setWidth 5) (if r.1 then 1 else 0)) r.2 else s.sendP 1 d (spread r.1) r.2

/-- A conversion of FCVT: the result's 64 bits and the flags (R149). -/
def fcvt (cv : FConv) (rnd : Rnd) (w : Word) : Word × Flags :=
  let x32 := w.toNat % 2 ^ 32
  let f (r : Nat × Flags) : Word × Flags := (BitVec.ofNat 64 r.1, r.2)
  let i (r : Int × Flags) : Word × Flags := (BitVec.ofInt 64 r.1, r.2)
  match cv with
  | .fp32Fp64 => f (floatToFloat fFP32 fFP64 rnd false 0 x32)
  | .fp64Fp32 => f (floatToFloat fFP64 fFP32 rnd false 0 w.toNat)
  | .i64Fp32 => f (intToFloat fFP32 rnd false 0 w.toInt)
  | .i64Fp64 => f (intToFloat fFP64 rnd false 0 w.toInt)
  | .fp32I64 => i (floatToInt fFP32 rnd 0 (-2 ^ 63) (2 ^ 63 - 1) x32)
  | .fp64I64 => i (floatToInt fFP64 rnd 0 (-2 ^ 63) (2 ^ 63 - 1) w.toNat)
  | .u64Fp32 => f (intToFloat fFP32 rnd false 0 (w.toNat : Int))
  | .u64Fp64 => f (intToFloat fFP64 rnd false 0 (w.toNat : Int))
  | .fp32U64 => i (floatToInt fFP32 rnd 0 0 (2 ^ 64 - 1) x32)
  | .fp64U64 => i (floatToInt fFP64 rnd 0 0 (2 ^ 64 - 1) w.toNat)
  | .fp32Bf16 => f (floatToFloat fFP32 fBF16 rnd false 0 x32)
  | .bf16Fp32 => f (floatToFloat fBF16 fFP32 rnd false 0 (w.toNat % 2 ^ 16))
  | .fp32Fp16 => f (floatToFloat fFP32 fFP16 rnd false 0 x32)
  | .fp16Fp32 => f (floatToFloat fFP16 fFP32 rnd false 0 (w.toNat % 2 ^ 16))

/-- FCVT (R149). -/
def execFcvt (d a : BitVec 5) (ta : Bool) (cv : FConv) (rnd : Rnd) (s : State) : Out State :=
  s.issueWith (.all [s.needS a ta, s.destS d]) fun s =>
    let r := fcvt cv rnd (s.s a)
    s.send 4 (.s d r.1) r.2

end Sys2Proof.Machine
end

