-- ==== Sys2Proof/Machine/Dispatch.lean ====
section
/-! DEFINITION. The meaning of every instruction and step, one arm each. -/

namespace Sys2Proof.Machine

open Sys2Proof

/-- What an instruction of the core in focus, or a step of another agent, does. -/
def exec (i : Instr) (s : State) : Host.Outcome State Fault Refusal :=
  match i with
  | .add d a b ta tb => Sys2Proof.Machine.execAdd d a b ta tb s
  | .sub d a b ta tb => Sys2Proof.Machine.execSub d a b ta tb s
  | .and d a b ta tb => Sys2Proof.Machine.execAnd d a b ta tb s
  | .or d a b ta tb => Sys2Proof.Machine.execOr d a b ta tb s
  | .xor d a b ta tb => Sys2Proof.Machine.execXor d a b ta tb s
  | .andn d a b ta tb => Sys2Proof.Machine.execAndn d a b ta tb s
  | .shl d a b ta tb => Sys2Proof.Machine.execShl d a b ta tb s
  | .shr d a b ta tb => Sys2Proof.Machine.execShr d a b ta tb s
  | .sra d a b ta tb => Sys2Proof.Machine.execSra d a b ta tb s
  | .rol d a b ta tb => Sys2Proof.Machine.execRol d a b ta tb s
  | .min d a b ta tb => Sys2Proof.Machine.execMin d a b ta tb s
  | .max d a b ta tb => Sys2Proof.Machine.execMax d a b ta tb s
  | .minu d a b ta tb => Sys2Proof.Machine.execMinu d a b ta tb s
  | .maxu d a b ta tb => Sys2Proof.Machine.execMaxu d a b ta tb s
  | .mul d a b ta tb => Sys2Proof.Machine.execMul d a b ta tb s
  | .mulh d a b ta tb => Sys2Proof.Machine.execMulh d a b ta tb s
  | .mulhu d a b ta tb => Sys2Proof.Machine.execMulhu d a b ta tb s
  | .div d a b ta tb => Sys2Proof.Machine.execDiv d a b ta tb s
  | .divu d a b ta tb => Sys2Proof.Machine.execDivu d a b ta tb s
  | .rem d a b ta tb => Sys2Proof.Machine.execRem d a b ta tb s
  | .remu d a b ta tb => Sys2Proof.Machine.execRemu d a b ta tb s
  | .clz d a ta => Sys2Proof.Machine.execClz d a ta s
  | .ctz d a ta => Sys2Proof.Machine.execCtz d a ta s
  | .popc d a ta => Sys2Proof.Machine.execPopc d a ta s
  | .brev d a ta => Sys2Proof.Machine.execBrev d a ta s
  | .sextb d a ta => Sys2Proof.Machine.execSextb d a ta s
  | .sexth d a ta => Sys2Proof.Machine.execSexth d a ta s
  | .sextw d a ta => Sys2Proof.Machine.execSextw d a ta s
  | .zextb d a ta => Sys2Proof.Machine.execZextb d a ta s
  | .zexth d a ta => Sys2Proof.Machine.execZexth d a ta s
  | .zextw d a ta => Sys2Proof.Machine.execZextw d a ta s
  | .mov d a ta => Sys2Proof.Machine.execMov d a ta s
  | .addi d a ta imm => Sys2Proof.Machine.execAddi d a ta imm s
  | .andi d a ta imm => Sys2Proof.Machine.execAndi d a ta imm s
  | .ori d a ta imm => Sys2Proof.Machine.execOri d a ta imm s
  | .xori d a ta imm => Sys2Proof.Machine.execXori d a ta imm s
  | .shli d a ta sh => Sys2Proof.Machine.execShli d a ta sh s
  | .shri d a ta sh => Sys2Proof.Machine.execShri d a ta sh s
  | .srai d a ta sh => Sys2Proof.Machine.execSrai d a ta sh s
  | .li d imm => Sys2Proof.Machine.execLi d imm s
  | .liu d imm => Sys2Proof.Machine.execLiu d imm s
  | .bfx d a ta p wm1 => Sys2Proof.Machine.execBfx d a ta p wm1 s
  | .bfi d a ta p wm1 => Sys2Proof.Machine.execBfi d a ta p wm1 s
  | .fsh d a b ta tb c => Sys2Proof.Machine.execFsh d a b ta tb c s
  | .fshi d a b ta tb n => Sys2Proof.Machine.execFshi d a b ta tb n s
  | .scmp p a b ta tb cc => Sys2Proof.Machine.execScmp p a b ta tb cc s
  | .scmpi p a ta cc imm => Sys2Proof.Machine.execScmpi p a ta cc imm s
  | .plog p pa pb f => Sys2Proof.Machine.execPlog p pa pb f s
  | .sel d a b ta tb p => Sys2Proof.Machine.execSel d a b ta tb p s
  | .ld d a pm ac sz sx off => Sys2Proof.Machine.execLd d a pm ac sz sx off s
  | .st d a pm ac sz off => Sys2Proof.Machine.execSt d a pm ac sz off s
  | .ldv d a ta k => Sys2Proof.Machine.execLdv d a ta k s
  | .valid d mask => Sys2Proof.Machine.execValid d mask s
  | .valst d a b ta tb mask => Sys2Proof.Machine.execValst d a b ta tb mask s
  | .casv d a b ta tb k => Sys2Proof.Machine.execCasv d a b ta tb k s
  | .clrv mask => Sys2Proof.Machine.execClrv mask s
  | .br p neg disp => Sys2Proof.Machine.execBr p neg disp s
  | .call p neg disp => Sys2Proof.Machine.execCall p neg disp s
  | .lexit p neg disp => Sys2Proof.Machine.execLexit p neg disp s
  | .jr a ta => Sys2Proof.Machine.execJr a ta s
  | .jalr d a ta => Sys2Proof.Machine.execJalr d a ta s
  | .loop rot len t n => Sys2Proof.Machine.execLoop rot len t n s
  | .loopi rot len n => Sys2Proof.Machine.execLoopi rot len n s
  | .loopq rot len => Sys2Proof.Machine.execLoopq rot len s
  | .setvrb n => Sys2Proof.Machine.execSetvrb n s
  | .setprb n => Sys2Proof.Machine.execSetprb n s
  | .mfsr d n => Sys2Proof.Machine.execMfsr d n s
  | .mtsr a ta n => Sys2Proof.Machine.execMtsr a ta n s
  | .trap code => Sys2Proof.Machine.execTrap code s
  | .sys code => Sys2Proof.Machine.execSys code s
  | .fadd d a b ta tb dbl => Sys2Proof.Machine.execFadd d a b ta tb dbl s
  | .fsub d a b ta tb dbl => Sys2Proof.Machine.execFsub d a b ta tb dbl s
  | .fmul d a b ta tb dbl => Sys2Proof.Machine.execFmul d a b ta tb dbl s
  | .fdiv d a b ta tb dbl => Sys2Proof.Machine.execFdiv d a b ta tb dbl s
  | .fmin d a b ta tb dbl => Sys2Proof.Machine.execFmin d a b ta tb dbl s
  | .fmax d a b ta tb dbl => Sys2Proof.Machine.execFmax d a b ta tb dbl s
  | .fminn d a b ta tb dbl => Sys2Proof.Machine.execFminn d a b ta tb dbl s
  | .fmaxn d a b ta tb dbl => Sys2Proof.Machine.execFmaxn d a b ta tb dbl s
  | .fsqrt d a ta dbl => Sys2Proof.Machine.execFsqrt d a ta dbl s
  | .fcmp toS d a b ta tb dbl cc => Sys2Proof.Machine.execFcmp toS d a b ta tb dbl cc s
  | .fcvt d a ta cv rnd => Sys2Proof.Machine.execFcvt d a ta cv rnd s
  | .amov d a ta => Sys2Proof.Machine.execAmov d a ta s
  | .aadd d a b ta tb => Sys2Proof.Machine.execAadd d a b ta tb s
  | .aaddi d a ta imm => Sys2Proof.Machine.execAaddi d a ta imm s
  | .ali d imm => Sys2Proof.Machine.execAli d imm s
  | .aliu d imm => Sys2Proof.Machine.execAliu d imm s
  | .astep d => Sys2Proof.Machine.execAstep d s
  | .amode a mode dk param => Sys2Proof.Machine.execAmode a mode dk param s
  | .dset dk imm => Sys2Proof.Machine.execDset dk imm s
  | .dmov dk a ta => Sys2Proof.Machine.execDmov dk a ta s
  | .wsetb wk a ta => Sys2Proof.Machine.execWsetb wk a ta s
  | .wsetl wk a ta => Sys2Proof.Machine.execWsetl wk a ta s
  | .ard d a ta => Sys2Proof.Machine.execArd d a ta s
  | .vadd d a b ty m => Sys2Proof.Machine.execVadd d a b ty m s
  | .vsub d a b ty m => Sys2Proof.Machine.execVsub d a b ty m s
  | .vmul d a b ty m => Sys2Proof.Machine.execVmul d a b ty m s
  | .vfma d a b ty m => Sys2Proof.Machine.execVfma d a b ty m s
  | .vfms d a b ty m => Sys2Proof.Machine.execVfms d a b ty m s
  | .vmin d a b ty m => Sys2Proof.Machine.execVmin d a b ty m s
  | .vmax d a b ty m => Sys2Proof.Machine.execVmax d a b ty m s
  | .vminn d a b ty m => Sys2Proof.Machine.execVminn d a b ty m s
  | .vmaxn d a b ty m => Sys2Proof.Machine.execVmaxn d a b ty m s
  | .vabs d a ty m => Sys2Proof.Machine.execVabs d a ty m s
  | .vneg d a ty m => Sys2Proof.Machine.execVneg d a ty m s
  | .vand d a b ty m => Sys2Proof.Machine.execVand d a b ty m s
  | .vor d a b ty m => Sys2Proof.Machine.execVor d a b ty m s
  | .vxor d a b ty m => Sys2Proof.Machine.execVxor d a b ty m s
  | .vandn d a b ty m => Sys2Proof.Machine.execVandn d a b ty m s
  | .vshl d a b ty m => Sys2Proof.Machine.execVshl d a b ty m s
  | .vshr d a b ty m => Sys2Proof.Machine.execVshr d a b ty m s
  | .vsra d a b ty m => Sys2Proof.Machine.execVsra d a b ty m s
  | .vfsh d a b ty m => Sys2Proof.Machine.execVfsh d a b ty m s
  | .vbfx d a b ty m => Sys2Proof.Machine.execVbfx d a b ty m s
  | .vcmp cc p a b ty m => Sys2Proof.Machine.execVcmp cc p a b ty m s
  | .vsel d a b ty m => Sys2Proof.Machine.execVsel d a b ty m s
  | .vcvt d a dst src sat rnd => Sys2Proof.Machine.execVcvt d a dst src sat rnd s
  | .vmov d a ty m => Sys2Proof.Machine.execVmov d a ty m s
  | .vspl d t sr ty m => Sys2Proof.Machine.execVspl d t sr ty m s
  | .vidx d ty m => Sys2Proof.Machine.execVidx d ty m s
  | .vcls d a ty m => Sys2Proof.Machine.execVcls d a ty m s
  | .vrnd d ty m => Sys2Proof.Machine.execVrnd d ty m s
  | .vscale d a b ty m => Sys2Proof.Machine.execVscale d a b ty m s
  | .vaddSat d a b ty m => Sys2Proof.Machine.execVaddSat d a b ty m s
  | .vsubSat d a b ty m => Sys2Proof.Machine.execVsubSat d a b ty m s
  | .vln d a ty m => Sys2Proof.Machine.execVln d a ty m s
  | .vexp d a ty m => Sys2Proof.Machine.execVexp d a ty m s
  | .vlog2 d a ty m => Sys2Proof.Machine.execVlog2 d a ty m s
  | .vexp2 d a ty m => Sys2Proof.Machine.execVexp2 d a ty m s
  | .vrcp d a ty m => Sys2Proof.Machine.execVrcp d a ty m s
  | .vrsq d a ty m => Sys2Proof.Machine.execVrsq d a ty m s
  | .vsqrt d a ty m => Sys2Proof.Machine.execVsqrt d a ty m s
  | .vtanh d a ty m => Sys2Proof.Machine.execVtanh d a ty m s
  | .vsigm d a ty m => Sys2Proof.Machine.execVsigm d a ty m s
  | .vld d a pm ac off m => Sys2Proof.Machine.execVld d a pm ac off m s
  | .vst d a pm ac off m => Sys2Proof.Machine.execVst d a pm ac off m s
  | .vldrb d e m => Sys2Proof.Machine.execVldrb d e m s
  | .vget sr a t idx ty => Sys2Proof.Machine.execVget sr a t idx ty s
  | .mldw cid pa pb y ret => Sys2Proof.Machine.execMldw cid pa pb y ret s
  | .mma cid pa pb y ret => Sys2Proof.Machine.execMma cid pa pb y ret s
  | .mmag cid pa pb y ret => Sys2Proof.Machine.execMmag cid pa pb y ret s
  | .mmah cid pa pb y ret => Sys2Proof.Machine.execMmah cid pa pb y ret s
  | .mzero cid pa pb y ret => Sys2Proof.Machine.execMzero cid pa pb y ret s
  | .mhand e tile row0 conv => Sys2Proof.Machine.execMhand e tile row0 conv s
  | .cpy cid pa pb y ret => Sys2Proof.Machine.execCpy cid pa pb y ret s
  | .csel cid pa pb y ret => Sys2Proof.Machine.execCsel cid pa pb y ret s
  | .cgth cid pa pb y ret => Sys2Proof.Machine.execCgth cid pa pb y ret s
  | .csct cid pa pb y ret => Sys2Proof.Machine.execCsct cid pa pb y ret s
  | .cqf cid pa pb y ret => Sys2Proof.Machine.execCqf cid pa pb y ret s
  | .ccol cid pa pb y ret => Sys2Proof.Machine.execCcol cid pa pb y ret s
  | .wait d => Sys2Proof.Machine.execWait d s
  | .watch a b ta tb on n => Sys2Proof.Machine.execWatch a b ta tb on n s
  | .semadd a ta ck n => Sys2Proof.Machine.execSemadd a ta ck n s
  | .semaddRemote a b ta tb ck n => Sys2Proof.Machine.execSemaddRemote a b ta tb ck n s
  | .semwt a ta n => Sys2Proof.Machine.execSemwt a ta n s
  | .semtst d a ta n => Sys2Proof.Machine.execSemtst d a ta n s
  | .semset a ta n => Sys2Proof.Machine.execSemset a ta n s
  | .semrd d n => Sys2Proof.Machine.execSemrd d n s
  | .bar l => Sys2Proof.Machine.execBar l s
  | .fence src dst sc => Sys2Proof.Machine.execFence src dst sc s
  | .drain sc => Sys2Proof.Machine.execDrain sc s
  | .cwait n => Sys2Proof.Machine.execCwait n s
  | .gset a ta g => Sys2Proof.Machine.execGset a ta g s
  | .kld a ta => Sys2Proof.Machine.execKld a ta s
  | .cbkld a ta => Sys2Proof.Machine.execCbkld a ta s
  | .yld a ta y => Sys2Proof.Machine.execYld a ta y s
  | .yset a ta w y => Sys2Proof.Machine.execYset a ta w y s
  | .cbset a ta n => Sys2Proof.Machine.execCbset a ta n s
  | .cbwait d n => Sys2Proof.Machine.execCbwait d n s
  | .cbrel n => Sys2Proof.Machine.execCbrel n s
  | .cqpush a ta ck => Sys2Proof.Machine.execCqpush a ta ck s
  | .tdec a ta ck => Sys2Proof.Machine.execTdec a ta ck s
  | .yield y => Sys2Proof.Machine.execYield y s
  | .sqpush a b ta tb ck => Sys2Proof.Machine.execSqpush a b ta tb ck s
  | .tktst p => Sys2Proof.Machine.execTktst p s
  | .tkget d => Sys2Proof.Machine.execTkget d s
  | .sxapp a b ta tb ck cnt => Sys2Proof.Machine.execSxapp a b ta tb ck cnt s
  | .sxqry d a b ta tb n => Sys2Proof.Machine.execSxqry d a b ta tb n s
  | .sxcfg a b ta tb => Sys2Proof.Machine.execSxcfg a b ta tb s
  | .sxsave a b ta tb => Sys2Proof.Machine.execSxsave a b ta tb s
  | .sxload a b ta tb => Sys2Proof.Machine.execSxload a b ta tb s
  | .sxstat d a ta => Sys2Proof.Machine.execSxstat d a ta s
  | .evsel a ta n => Sys2Proof.Machine.execEvsel a ta n s
  | .sqpop d => Sys2Proof.Machine.execSqpop d s
  | .tkput a b ta tb => Sys2Proof.Machine.execTkput a b ta tb s
  | .fixedLatencyLanding c => Sys2Proof.Machine.execFixedLatencyLanding c s
  | .variableLatencyLanding c k => Sys2Proof.Machine.execVariableLatencyLanding c k s
  | .scratchpadStorePerform c => Sys2Proof.Machine.execScratchpadStorePerform c s
  | .writePerformAtHome c k => Sys2Proof.Machine.execWritePerformAtHome c k s
  | .remoteSemaddArrival c k => Sys2Proof.Machine.execRemoteSemaddArrival c k s
  | .tokenLanding c => Sys2Proof.Machine.execTokenLanding c s
  | .suffixOpPerform die k => Sys2Proof.Machine.execSuffixOpPerform die k s
  | .pageWalk die => Sys2Proof.Machine.execPageWalk die s
  | .imemReload c => Sys2Proof.Machine.execImemReload c s
  | .engineDispatch c e => Sys2Proof.Machine.execEngineDispatch c e s
  | .engineRetire c k => Sys2Proof.Machine.execEngineRetire c k s
  | .gatherPartReply c k owner => Sys2Proof.Machine.execGatherPartReply c k owner s
  | .chunkReceive die group stage src chunk good data => Sys2Proof.Machine.execChunkReceive die group stage src chunk good data s
  | .taskDecrement k => Sys2Proof.Machine.execTaskDecrement k s
  | .schedulerPlace die core => Sys2Proof.Machine.execSchedulerPlace die core s
  | .dieFreeRequest die core => Sys2Proof.Machine.execDieFreeRequest die core s
  | .phaseSliceExpiry die => Sys2Proof.Machine.execPhaseSliceExpiry die s
  | .quantumExpiry c => Sys2Proof.Machine.execQuantumExpiry c s
  | .taskRetire c => Sys2Proof.Machine.execTaskRetire c s
  | .trapEntry c cause val => Sys2Proof.Machine.execTrapEntry c cause val s
  | .taskKill c => Sys2Proof.Machine.execTaskKill c s
  | .taskSuspend c => Sys2Proof.Machine.execTaskSuspend c s
  | .yieldRequeue c => Sys2Proof.Machine.execYieldRequeue c s
  | .checkpointSnapshot c => Sys2Proof.Machine.execCheckpointSnapshot c s
  | .datapathError c => Sys2Proof.Machine.execDatapathError c s
  | .pageMigration va frame => Sys2Proof.Machine.execPageMigration va frame s
  | .linkDown die link => Sys2Proof.Machine.execLinkDown die link s
  | .functionReady die bit => Sys2Proof.Machine.execFunctionReady die bit s
  | .powerLimitChange die isl cur => Sys2Proof.Machine.execPowerLimitChange die isl cur s
  | .hostMemWrite pa data => Sys2Proof.Machine.execHostMemWrite pa data s
  | .hostMemRead pa len => Sys2Proof.Machine.execHostMemRead pa len s
  | .hifErrClear v => Sys2Proof.Machine.execHifErrClear v s
  | .featureAcceptWrite idx v => Sys2Proof.Machine.execFeatureAcceptWrite idx v s
  | .hifTdecWrite size v => Sys2Proof.Machine.execHifTdecWrite size v s
  | .ptrootWrite v => Sys2Proof.Machine.execPtrootWrite v s
  | .tlbInvalidateVpn vpn => Sys2Proof.Machine.execTlbInvalidateVpn vpn s
  | .l2SplitWrite die v => Sys2Proof.Machine.execL2SplitWrite die v s
  | .l2SplitApply die => Sys2Proof.Machine.execL2SplitApply die s
  | .fabricRankWrite reg v => Sys2Proof.Machine.execFabricRankWrite reg v s
  | .keyLoad slot => Sys2Proof.Machine.execKeyLoad slot s
  | .keyClear slot => Sys2Proof.Machine.execKeyClear slot s
  | .compStart n v => Sys2Proof.Machine.execCompStart n v s
  | .poisonClear v => Sys2Proof.Machine.execPoisonClear v s
  | .fgrpWrite g v => Sys2Proof.Machine.execFgrpWrite g v s
  | .devselWrite die idx v => Sys2Proof.Machine.execDevselWrite die idx v s
  | .ckeSaveStart v => Sys2Proof.Machine.execCkeSaveStart v s
  | .ckeRestoreStart v => Sys2Proof.Machine.execCkeRestoreStart v s
  | .islRequestWrite die isl v => Sys2Proof.Machine.execIslRequestWrite die isl v s
  | .hifRegisterWrite off size v => Sys2Proof.Machine.execHifRegisterWrite off size v s
  | .faultRingRoom die => Sys2Proof.Machine.execFaultRingRoom die s
  | .poisonedAcknowledgementPath c => Sys2Proof.Machine.execPoisonedAcknowledgementPath c s
  | .nop => Sys2Proof.Machine.execNop s
  | .ret => Sys2Proof.Machine.execRet s
  | .clrrb => Sys2Proof.Machine.execClrrb s
  | .rett => Sys2Proof.Machine.execRett s
  | .endTask => Sys2Proof.Machine.execEndTask s
  | .ckpt => Sys2Proof.Machine.execCkpt s
  | .fwload => Sys2Proof.Machine.execFwload s
  | .reset => Sys2Proof.Machine.execReset s
  | .run => Sys2Proof.Machine.execRun s
  | .hifTdecQueueHead => Sys2Proof.Machine.execHifTdecQueueHead s
  | .tlbInvalidateAll => Sys2Proof.Machine.execTlbInvalidateAll s
  | .tlbInvalidationDone => Sys2Proof.Machine.execTlbInvalidationDone s
  | .keyCommandDone => Sys2Proof.Machine.execKeyCommandDone s
  | .poisonClearDone => Sys2Proof.Machine.execPoisonClearDone s
  | .ckeAbort => Sys2Proof.Machine.execCkeAbort s
  | .ckeRunBegin => Sys2Proof.Machine.execCkeRunBegin s
  | .ckeRunEnd => Sys2Proof.Machine.execCkeRunEnd s

end Sys2Proof.Machine
end

