-- ==== Sys2Proof/Machine/Policy.lean ====
section
/-! DEFINITION. Which agent moves next (log 3): the head of the agenda; else the core in focus takes its turn, a unit moves where its bundle
holds, and the next core comes into focus. -/

namespace Sys2Proof.Machine

open Sys2Proof

/-- Firmware words are loaded for the core in focus (R66). -/
def State.hasFirmware (s : State) : Bool := !(if s.comp then s.dev.fwComp else s.dev.fwMain).isEmpty

/-- The core in focus may issue: it runs a task or firmware, and no end, requeue or checkpoint is in progress. -/
def State.canIssue (s : State) : Bool :=
  s.core.task.isSome && (s.core.life == .running || (s.core.life == .supervisor && s.hasFirmware))

/-! ### The stop points of a rerun (R374) -/

/-- A bundle with the instruction is a stop point. -/
def Instr.stops : Instr → Bool
  | .endTask | .yield _ => true
  | i => i.checkpoints

/-- A rerun of the core in focus has reached its stop point: a report is due, or the next bundle is a checkpoint bundle, an END or a YIELD, or
traps. -/
def State.atStop (ex : Instr → State → Out State) (s : State) : Bool :=
  !s.core.reports.isEmpty || s.core.regs.ckptDue || s.bundleInstrs.any Instr.stops || (match issueBundle ex s with
    | .next t => (match t.core.issue.res with
      | .trapped _ => true
      | _ => false)
    | _ => false)

/-- A trap that is due at the boundary of the core in focus: of firmware's own, or of its task (R357, R361). -/
def Core.dueTrap (x : Core) : Option Report := if x.life == .supervisor then x.fwTrap else x.reports.head?

/-- A move that waits for a channel group leaves the state as it was (R39). -/
def Out.orHeld (s : State) (o : Out State) : Out State :=
  match o with
  | .next t => if t.held && !s.held then .next s else .next t
  | o => o

/-- The core in focus takes what is due at its boundary, or issues its next bundle (R68, R357, R361, R374). -/
def State.issueTurn (ex : Instr → State → Out State) (s : State) : Out State :=
  if !s.canIssue then .next s
  else match (if s.sup then none else s.core.rerun) with
    | some r => if s.atStop ex then .next (if s.passSettled then s.passDone r else s) else Out.orHeld s (issueBundle ex s)
    | none =>
      match s.core.dueTrap with
      | some r => ex (.trapEntry s.me r.cause r.val) s
      | none => Out.orHeld s (issueBundle ex s)

/-! ### What the machine does of itself (log 3) -/

/-- The moves of a core's units that may be due. -/
def State.coreMoves (s : State) (c : CoreRef) : List Instr :=
  let x := s.getCore c
  let fw := (if c.isComp then s.dev.fwComp else s.dev.fwMain).isEmpty
  let boundary : List Instr := match x.dueTrap with
    | some r => if x.life == .running || x.life == .ended || x.life == .yielding || x.life == .supervisor then [.trapEntry c r.cause r.val] else []
    | none => []
  let life : List Instr := match x.life with
    | .supervisor => if fw then (match fate (x.regs.trapCause.setWidth 8) with
      | .kill => [.taskKill c]
      | .suspend => [.taskSuspend c]) else []
    | .suspending => if c.isComp then [] else [.taskSuspend c]
    | .yielding => [.yieldRequeue c]
    | .checkpoint => [.checkpointSnapshot c]
    | .ended => [.taskRetire c]
    | .running => []
  let ops := (List.range x.memq.length).map fun k => if s.produces c k then Instr.variableLatencyLanding c k else .writePerformAtHome c k
  let adds := (List.range x.adds.length).map fun k => Instr.remoteSemaddArrival c k
  let token : List Instr := if x.regs.mailbox.isEmpty || x.regs.claims.isEmpty then [] else [.tokenLanding c]
  let parts := (List.range x.cmds.length).flatMap fun k => [0#2, 1#2, 2#2, 3#2].map fun d => Instr.gatherPartReply c k d
  let retire := (List.range x.cmds.length).map fun k => Instr.engineRetire c k
  let start := if x.cmds.isEmpty then [] else [Eng.c0, .c1, .m].map fun e => Instr.engineDispatch c e
  if x.task.isNone then [] else boundary ++ ops ++ adds ++ token ++ parts ++ retire ++ start ++ life

/-- The main cores of a die in increasing number (R62). -/
def mainCores : List (BitVec 8) := (List.range 144).map (BitVec.ofNat 8)

/-- The free main cores of a die, which a placement is tried for in increasing number (R62). -/
def State.freeCores (s : State) (d : BitVec 2) : List (BitVec 8) := mainCores.filter fun i => s.coreFree ⟨d, i⟩

/-- A core that runs nothing holds a preloaded task that waits for its start (R61). -/
def State.preloadWaits (s : State) (c : CoreRef) : Bool := (s.getCore c).preload.isSome && (s.getCore c).task.isNone

/-- A die has queued records. -/
def Die.hasQueued (x : Die) : Bool := x.queues.toList.any fun l => !l.isEmpty

/-- The moves of a die's units that may be due. -/
def State.dieMoves (s : State) (d : BitVec 2) : List Instr :=
  let x := s.die d
  let ops := (List.range x.sfxOps.length).map fun k => Instr.suffixOpPerform d k
  let some_ := x.hasQueued || !x.rings.isEmpty
  let place : List Instr := (mainCores.filter fun i => s.preloadWaits ⟨d, i⟩ || (some_ && s.coreFree ⟨d, i⟩)).map fun i => .schedulerPlace d i
  let ring : List Instr := if x.posts.isEmpty then [] else [.faultRingRoom d]
  let split : List Instr := if x.l2want.isSome then [.l2SplitApply d] else []
  let slice : List Instr := if x.slice = 0 then [.phaseSliceExpiry d] else []
  ops ++ slice ++ place ++ ring ++ split

/-- The request of a die for records that wait at the others (R53). -/
def State.requestMoves (s : State) (d : BitVec 2) : List Instr :=
  if s.dies.toList.any Die.hasQueued then (s.freeCores d).map (fun i => .dieFreeRequest d i) else []

/-- The moves of the device that may be due. -/
def State.devMoves (s : State) : List Instr :=
  let d := s.dev
  (List.range d.decs.length).map (fun k => Instr.taskDecrement k)
    ++ (if d.tdecQ.isEmpty then [] else [.hifTdecQueueHead]) ++ (if d.tlbInv.isSome then [.tlbInvalidationDone] else [])
    ++ (if d.keyCmd.getLsbD 16 then [.keyCommandDone] else []) ++ (if d.pclr.isSome then [.poisonClearDone] else [])
    ++ d.compHeld.map (fun x => .compStart x.1 x.2)
    ++ (if d.cke.ctl.getLsbD 0 then [.ckeRunBegin, .ckeRunEnd] else [])

/-- The walks that a core of a die waits for (R216). -/
def State.walkMoves (s : State) (d : BitVec 2) : List Instr :=
  if (s.coreNums.map CoreRef.ofNum).any (fun c => c.die == d && !(s.getCore c).walks.isEmpty) then [.pageWalk d] else []

/-- Every move that may be due. -/
def State.moves (s : State) : List Instr :=
  [0#2, 1#2, 2#2, 3#2].flatMap s.walkMoves ++ (s.coreNums.map CoreRef.ofNum).flatMap s.coreMoves ++ s.devMoves ++ [0#2, 1#2, 2#2, 3#2].flatMap s.dieMoves ++ [0#2, 1#2, 2#2, 3#2].flatMap s.requestMoves

/-- A state without the counts of its dies (R400): a move that would only count is not made. -/
def State.uncounted (s : State) : State := { s with dies := s.dies.map fun d => { d with devCnt := Vector.replicate 16 0 } }

/-- The first move of a list that changes the state, and that no channel group keeps waiting (R39). -/
def firstMove (ex : Instr → State → Out State) (s : State) : List Instr → Option (Out State)
  | [] => none
  | i :: l =>
    match ex i s with
    | .next t => if (t.held && !s.held) || t.uncounted = s.uncounted then firstMove ex s l else some (.next t)
    | o => some o

/-- Another core that may issue, the next one in number. -/
def State.nextCore (s : State) : Option CoreRef :=
  let l := ((s.coreNums.filter (· ≠ s.me.num)).filter fun n => (s.focus (CoreRef.ofNum n)).canIssue).mergeSort (· ≤ ·)
  ((l.find? fun n => decide (s.me.num < n)).or l.head?).map CoreRef.ofNum

/-- What happens while the core in focus does not issue: the first unit that has work moves, else another core comes into focus. -/
def State.idleMove (ex : Instr → State → Out State) (s : State) : Out State :=
  match firstMove ex s s.moves with
  | some o => o
  | none =>
    match s.nextCore with
    | some c => .next (s.focus c)
    | none => .next s

/-- What a die counter adds in a die cycle, by its source (R400): the cycle itself; corrected errors and delayed increments, whose numbers are left open
(log 74). -/
def cycleCount (f : Nat) (src : BitVec 8) : Word :=
  if src = 0x01 then 1 else if src = 0x0A then Config.openWord f else if src = 0x0F then Config.openWord (f + 1) else 0

/-- A die cycle passes (R50), and counts (R400): the model counts the rounds in which every core that may issue has had its turn (log 10). -/
def State.pass (s : State) : State :=
  { s with
    fresh := s.fresh + 8
    dies := s.dies.mapIdx fun d x => { x with
      slice := x.slice - 1, devCnt := x.devCnt.zipWith (fun c src => c + cycleCount (s.fresh + 2 * d) src) x.devSel } }

/-- The next core's turn to issue. -/
def State.handOn (s : State) : State :=
  match s.nextCore with
  | some c => if s.me.num < c.num then s.focus c else s.pass.focus c
  | none => s.pass

/-- The turns after which the units go on by themselves, so that no core that issues without end keeps them from their work (log 3). -/
def unitPeriod : Nat := 16

/-- A turn without an agenda: a core that may issue takes its turn, and where its bundle holds the first unit that has work moves; then it is
the next core's turn. After every `unitPeriod` turns the units move for as long as one of them has work. -/
def State.ownTurn (ex : Instr → State → Out State) (s : State) : Out State :=
  if !s.canIssue then s.idleMove ex
  else if unitPeriod ≤ s.due then
    match firstMove ex s s.moves with
    | some o => o
    | none => .next { s with due := 0 }
  else match s.issueTurn ex with
    | .next t =>
      let t : State := { t with due := t.due + 1 }
      if t.core.issue.res = .held ∨ s.core.rerun.isSome then
        match firstMove ex t t.moves with
        | some (.next u) => .next u.handOn
        | some o => o
        | none => .next t.handOn
      else .next t.handOn
    | o => o

/-- One step: the agenda's head, else what the machine does of itself (log 3). -/
def runStep (ex : Instr → State → Out State) (s : State) : Out State :=
  match s.agenda with
  | .event i :: t => ex i { s with agenda := t }
  | .turn c :: t => ({ s with agenda := t }.focus c).issueTurn ex
  | .register off size v :: t => .next (({ s with agenda := t } : State).registerWrite off size v)
  | .link :: t => .next ({ s with agenda := t } : State).linkWrite
  | [] => s.ownTurn ex

/-! ### Placing one word (log 5) -/

/-- The words of a bundle that holds one word in the slot of its kind, the others zero. -/
def loneWord (k : SlotKind) (w : Word32) (comp : Bool) : Sparse Word32 :=
  let i : Nat := match k with
    | .S => 0
    | .A => 1
    | .V => 2
    | .M => 4
    | .C => 5
    | .X => if comp then 1 else 7
  Sparse.set 0 [] i w

/-- The task that stands for a load from outside (log 5). -/
def outsideTask : Task := ⟨0, 0, 0, 0, 0⟩

/-- A state whose next step fetches and issues one word (log 5): the core in focus, or the companion core of its cluster for a word
that only a companion takes, runs a task whose text is that bundle at its program counter. -/
def State.placeWord (s : State) (w : Word32) : State :=
  let (k, only) := match firstKind w slotKinds with
    | some (k, i) => (k, i.companionOnly)
    | none => (.S, false)
  let s := if only && !s.comp then s.focus s.me.comp else s
  let text := loneWord k w s.comp
  let x := s.core
  let put (m : Sparse Word32) : Sparse Word32 :=
    (List.range (s.unit.toNat / 4)).foldl (fun m i => Sparse.set 0 m (x.regs.pc.toNat / 4 + i) (Sparse.get 0 text i)) m
  if s.sup then
    { s with agenda := [], due := 0, core := { x with life := .supervisor, task := some (x.task.getD outsideTask) }
             dev := if s.comp then { s.dev with fwComp := put s.dev.fwComp } else { s.dev with fwMain := put s.dev.fwMain } }
  else
    { s with agenda := [], due := 0, core := { x with
        life := .running, reports := [], rerun := none, issue := {}, task := some (x.task.getD outsideTask), base := x.regs.pc, textLen := s.unit.toNat
        text := text } }

end Sys2Proof.Machine
end

