-- ==== Sys2Proof/Machine/Step.lean ====
section
/-! DEFINITION. One step of the machine, and the state in which a given word issues next. -/

namespace Sys2Proof.Machine

open Sys2Proof

/-- One step: a move of the agenda, or what the machine does of itself (log 3). -/
def step (s : State) : Host.Outcome State Fault Refusal := runStep exec s

/-- The state with a word of the opcode table placed as the next instruction (log 5). -/
def State.withFetchWord (s : State) (nbits w : Nat) : State := if nbits ≤ 32 then s.placeWord (BitVec.ofNat 32 w) else s

end Sys2Proof.Machine
end

