-- ==== Sys2Proof/Laws/PerInstr.lean ====
section
/-! SUPPORT. One lemma for each constructor of `Instr` and each family of LAWS.json. Family `Sys2Proof.Laws.RoundTrip`: the word that the encoder makes of
a well-formed instruction decodes to that instruction. -/

namespace Sys2Proof.Laws.RoundTrip

open Sys2Proof
open BitVec (ofBool ofNat)

/-- A well-formed instruction of a slot has a word, and its slot's map reads that word as the instruction. -/
def Statement (i : Instr) : Prop :=
  ∀ k, i.slotKind = some k → i.wellFormed = true → ∃ w, encode i = some w ∧ decode k w = .ok i

/-- A field of the upper part of a word lies in that part. -/
theorem field_high {m n lo len k : Nat} (x : BitVec m) (y : BitVec n) (h : n ≤ lo) (hk : lo - n = k) :
    (x ++ y).extractLsb' lo len = x.extractLsb' k len := by subst hk; exact BitVec.extractLsb'_append_eq_of_le h

/-- The low part of a word is the field at bit 0. -/
theorem field_low {m n : Nat} (x : BitVec m) (y : BitVec n) : (x ++ y).extractLsb' 0 n = y := BitVec.extractLsb'_append_eq_right

/-- A bit of the upper part of a word lies in that part. -/
theorem bit_high {m n i k : Nat} (x : BitVec m) (y : BitVec n) (h : n ≤ i) (hk : i - n = k) : (x ++ y).getLsbD i = x.getLsbD k := by
  subst hk; rw [BitVec.getLsbD_append, if_neg (by omega)]

/-- A one-bit low part of a word is its bit 0. -/
theorem bit_low {m : Nat} (x : BitVec m) (t : Bool) : (x ++ ofBool t).getLsbD 0 = t := by
  rw [BitVec.getLsbD_append]; simp

theorem add (d : BitVec 5) (a : BitVec 5) (b : BitVec 5) (ta : Bool) (tb : Bool) : Statement (.add d a b ta tb) := by
  intro k hk hf; cases hk; refine ⟨_, rfl, ?_⟩
  generalize hW : (1#7 ++ d ++ a ++ b ++ ofBool ta ++ ofBool tb ++ 0#8 : Word32) = W
  have h0 : fld W 20 5 = d := by subst hW; unfold fld; rw [field_high (k := 12) _ _ (by decide) rfl, field_high (k := 11) _ _ (by decide) rfl, field_high (k := 10) _ _ (by decide) rfl, field_high (k := 5) _ _ (by decide) rfl, field_high (k := 0) _ _ (by decide) rfl]; exact field_low _ _
  have h1 : fld W 15 5 = a := by subst hW; unfold fld; rw [field_high (k := 7) _ _ (by decide) rfl, field_high (k := 6) _ _ (by decide) rfl, field_high (k := 5) _ _ (by decide) rfl, field_high (k := 0) _ _ (by decide) rfl]; exact field_low _ _
  have h2 : fld W 10 5 = b := by subst hW; unfold fld; rw [field_high (k := 2) _ _ (by decide) rfl, field_high (k := 1) _ _ (by decide) rfl, field_high (k := 0) _ _ (by decide) rfl]; exact field_low _ _
  have h3 : flag W 9 = ta := by subst hW; unfold flag; rw [bit_high (k := 1) _ _ (by decide) rfl, bit_high (k := 0) _ _ (by decide) rfl]; exact bit_low _ _
  have h4 : flag W 8 = tb := by subst hW; unfold flag; rw [bit_high (k := 0) _ _ (by decide) rfl]; exact bit_low _ _
  have h5 : fld W 25 7 = 1#7 := by subst hW; unfold fld; rw [field_high (k := 17) _ _ (by decide) rfl, field_high (k := 16) _ _ (by decide) rfl, field_high (k := 15) _ _ (by decide) rfl, field_high (k := 10) _ _ (by decide) rfl, field_high (k := 5) _ _ (by decide) rfl, field_high (k := 0) _ _ (by decide) rfl]; exact BitVec.extractLsb'_eq_self
  have h6 : fld W 0 8 = 0#8 := by subst hW; unfold fld; exact field_low _ _
  have hd : decodeMap .S W = .ok (.add d a b ta tb) := by
    change decodeS W = _
    unfold decodeS; rw [h5]
    change decodeS01 W = _
    unfold decodeS01; rw [h6]
    refine Eq.trans (b := Except.ok (.add (fld W 20 5) (fld W 15 5) (fld W 10 5) (flag W 9) (flag W 8))) rfl ?_
    rw [h0, h1, h2, h3, h4]
  unfold decode; rw [hd]; exact if_pos hf

theorem sub (d : BitVec 5) (a : BitVec 5) (b : BitVec 5) (ta : Bool) (tb : Bool) : Statement (.sub d a b ta tb) := by
  intro k hk hf; cases hk; refine ⟨_, rfl, ?_⟩
  generalize hW : (1#7 ++ d ++ a ++ b ++ ofBool ta ++ ofBool tb ++ 1#8 : Word32) = W
  have h0 : fld W 20 5 = d := by subst hW; unfold fld; rw [field_high (k := 12) _ _ (by decide) rfl, field_high (k := 11) _ _ (by decide) rfl, field_high (k := 10) _ _ (by decide) rfl, field_high (k := 5) _ _ (by decide) rfl, field_high (k := 0) _ _ (by decide) rfl]; exact field_low _ _
  have h1 : fld W 15 5 = a := by subst hW; unfold fld; rw [field_high (k := 7) _ _ (by decide) rfl, field_high (k := 6) _ _ (by decide) rfl, field_high (k := 5) _ _ (by decide) rfl, field_high (k := 0) _ _ (by decide) rfl]; exact field_low _ _
  have h2 : fld W 10 5 = b := by subst hW; unfold fld; rw [field_high (k := 2) _ _ (by decide) rfl, field_high (k := 1) _ _ (by decide) rfl, field_high (k := 0) _ _ (by decide) rfl]; exact field_low _ _
  have h3 : flag W 9 = ta := by subst hW; unfold flag; rw [bit_high (k := 1) _ _ (by decide) rfl, bit_high (k := 0) _ _ (by decide) rfl]; exact bit_low _ _
  have h4 : flag W 8 = tb := by subst hW; unfold flag; rw [bit_high (k := 0) _ _ (by decide) rfl]; exact bit_low _ _
  have h5 : fld W 25 7 = 1#7 := by subst hW; unfold fld; rw [field_high (k := 17) _ _ (by decide) rfl, field_high (k := 16) _ _ (by decide) rfl, field_high (k := 15) _ _ (by decide) rfl, field_high (k := 10) _ _ (by decide) rfl, field_high (k := 5) _ _ (by decide) rfl, field_high (k := 0) _ _ (by decide) rfl]; exact BitVec.extractLsb'_eq_self
  have h6 : fld W 0 8 = 1#8 := by subst hW; unfold fld; exact field_low _ _
  have hd : decodeMap .S W = .ok (.sub d a b ta tb) := by
    change decodeS W = _
    unfold decodeS; rw [h5]
    change decodeS01 W = _
    unfold decodeS01; rw [h6]
    refine Eq.trans (b := Except.ok (.sub (fld W 20 5) (fld W 15 5) (fld W 10 5) (flag W 9) (flag W 8))) rfl ?_
    rw [h0, h1, h2, h3, h4]
  unfold decode; rw [hd]; exact if_pos hf

theorem and (d : BitVec 5) (a : BitVec 5) (b : BitVec 5) (ta : Bool) (tb : Bool) : Statement (.and d a b ta tb) := by
  intro k hk hf; cases hk; refine ⟨_, rfl, ?_⟩
  generalize hW : (1#7 ++ d ++ a ++ b ++ ofBool ta ++ ofBool tb ++ 2#8 : Word32) = W
  have h0 : fld W 20 5 = d := by subst hW; unfold fld; rw [field_high (k := 12) _ _ (by decide) rfl, field_high (k := 11) _ _ (by decide) rfl, field_high (k := 10) _ _ (by decide) rfl, field_high (k := 5) _ _ (by decide) rfl, field_high (k := 0) _ _ (by decide) rfl]; exact field_low _ _
  have h1 : fld W 15 5 = a := by subst hW; unfold fld; rw [field_high (k := 7) _ _ (by decide) rfl, field_high (k := 6) _ _ (by decide) rfl, field_high (k := 5) _ _ (by decide) rfl, field_high (k := 0) _ _ (by decide) rfl]; exact field_low _ _
  have h2 : fld W 10 5 = b := by subst hW; unfold fld; rw [field_high (k := 2) _ _ (by decide) rfl, field_high (k := 1) _ _ (by decide) rfl, field_high (k := 0) _ _ (by decide) rfl]; exact field_low _ _
  have h3 : flag W 9 = ta := by subst hW; unfold flag; rw [bit_high (k := 1) _ _ (by decide) rfl, bit_high (k := 0) _ _ (by decide) rfl]; exact bit_low _ _
  have h4 : flag W 8 = tb := by subst hW; unfold flag; rw [bit_high (k := 0) _ _ (by decide) rfl]; exact bit_low _ _
  have h5 : fld W 25 7 = 1#7 := by subst hW; unfold fld; rw [field_high (k := 17) _ _ (by decide) rfl, field_high (k := 16) _ _ (by decide) rfl, field_high (k := 15) _ _ (by decide) rfl, field_high (k := 10) _ _ (by decide) rfl, field_high (k := 5) _ _ (by decide) rfl, field_high (k := 0) _ _ (by decide) rfl]; exact BitVec.extractLsb'_eq_self
  have h6 : fld W 0 8 = 2#8 := by subst hW; unfold fld; exact field_low _ _
  have hd : decodeMap .S W = .ok (.and d a b ta tb) := by
    change decodeS W = _
    unfold decodeS; rw [h5]
    change decodeS01 W = _
    unfold decodeS01; rw [h6]
    refine Eq.trans (b := Except.ok (.and (fld W 20 5) (fld W 15 5) (fld W 10 5) (flag W 9) (flag W 8))) rfl ?_
    rw [h0, h1, h2, h3, h4]
  unfold decode; rw [hd]; exact if_pos hf

theorem or (d : BitVec 5) (a : BitVec 5) (b : BitVec 5) (ta : Bool) (tb : Bool) : Statement (.or d a b ta tb) := by
  intro k hk hf; cases hk; refine ⟨_, rfl, ?_⟩
  generalize hW : (1#7 ++ d ++ a ++ b ++ ofBool ta ++ ofBool tb ++ 3#8 : Word32) = W
  have h0 : fld W 20 5 = d := by subst hW; unfold fld; rw [field_high (k := 12) _ _ (by decide) rfl, field_high (k := 11) _ _ (by decide) rfl, field_high (k := 10) _ _ (by decide) rfl, field_high (k := 5) _ _ (by decide) rfl, field_high (k := 0) _ _ (by decide) rfl]; exact field_low _ _
  have h1 : fld W 15 5 = a := by subst hW; unfold fld; rw [field_high (k := 7) _ _ (by decide) rfl, field_high (k := 6) _ _ (by decide) rfl, field_high (k := 5) _ _ (by decide) rfl, field_high (k := 0) _ _ (by decide) rfl]; exact field_low _ _
  have h2 : fld W 10 5 = b := by subst hW; unfold fld; rw [field_high (k := 2) _ _ (by decide) rfl, field_high (k := 1) _ _ (by decide) rfl, field_high (k := 0) _ _ (by decide) rfl]; exact field_low _ _
  have h3 : flag W 9 = ta := by subst hW; unfold flag; rw [bit_high (k := 1) _ _ (by decide) rfl, bit_high (k := 0) _ _ (by decide) rfl]; exact bit_low _ _
  have h4 : flag W 8 = tb := by subst hW; unfold flag; rw [bit_high (k := 0) _ _ (by decide) rfl]; exact bit_low _ _
  have h5 : fld W 25 7 = 1#7 := by subst hW; unfold fld; rw [field_high (k := 17) _ _ (by decide) rfl, field_high (k := 16) _ _ (by decide) rfl, field_high (k := 15) _ _ (by decide) rfl, field_high (k := 10) _ _ (by decide) rfl, field_high (k := 5) _ _ (by decide) rfl, field_high (k := 0) _ _ (by decide) rfl]; exact BitVec.extractLsb'_eq_self
  have h6 : fld W 0 8 = 3#8 := by subst hW; unfold fld; exact field_low _ _
  have hd : decodeMap .S W = .ok (.or d a b ta tb) := by
    change decodeS W = _
    unfold decodeS; rw [h5]
    change decodeS01 W = _
    unfold decodeS01; rw [h6]
    refine Eq.trans (b := Except.ok (.or (fld W 20 5) (fld W 15 5) (fld W 10 5) (flag W 9) (flag W 8))) rfl ?_
    rw [h0, h1, h2, h3, h4]
  unfold decode; rw [hd]; exact if_pos hf

theorem xor (d : BitVec 5) (a : BitVec 5) (b : BitVec 5) (ta : Bool) (tb : Bool) : Statement (.xor d a b ta tb) := by
  intro k hk hf; cases hk; refine ⟨_, rfl, ?_⟩
  generalize hW : (1#7 ++ d ++ a ++ b ++ ofBool ta ++ ofBool tb ++ 4#8 : Word32) = W
  have h0 : fld W 20 5 = d := by subst hW; unfold fld; rw [field_high (k := 12) _ _ (by decide) rfl, field_high (k := 11) _ _ (by decide) rfl, field_high (k := 10) _ _ (by decide) rfl, field_high (k := 5) _ _ (by decide) rfl, field_high (k := 0) _ _ (by decide) rfl]; exact field_low _ _
  have h1 : fld W 15 5 = a := by subst hW; unfold fld; rw [field_high (k := 7) _ _ (by decide) rfl, field_high (k := 6) _ _ (by decide) rfl, field_high (k := 5) _ _ (by decide) rfl, field_high (k := 0) _ _ (by decide) rfl]; exact field_low _ _
  have h2 : fld W 10 5 = b := by subst hW; unfold fld; rw [field_high (k := 2) _ _ (by decide) rfl, field_high (k := 1) _ _ (by decide) rfl, field_high (k := 0) _ _ (by decide) rfl]; exact field_low _ _
  have h3 : flag W 9 = ta := by subst hW; unfold flag; rw [bit_high (k := 1) _ _ (by decide) rfl, bit_high (k := 0) _ _ (by decide) rfl]; exact bit_low _ _
  have h4 : flag W 8 = tb := by subst hW; unfold flag; rw [bit_high (k := 0) _ _ (by decide) rfl]; exact bit_low _ _
  have h5 : fld W 25 7 = 1#7 := by subst hW; unfold fld; rw [field_high (k := 17) _ _ (by decide) rfl, field_high (k := 16) _ _ (by decide) rfl, field_high (k := 15) _ _ (by decide) rfl, field_high (k := 10) _ _ (by decide) rfl, field_high (k := 5) _ _ (by decide) rfl, field_high (k := 0) _ _ (by decide) rfl]; exact BitVec.extractLsb'_eq_self
  have h6 : fld W 0 8 = 4#8 := by subst hW; unfold fld; exact field_low _ _
  have hd : decodeMap .S W = .ok (.xor d a b ta tb) := by
    change decodeS W = _
    unfold decodeS; rw [h5]
    change decodeS01 W = _
    unfold decodeS01; rw [h6]
    refine Eq.trans (b := Except.ok (.xor (fld W 20 5) (fld W 15 5) (fld W 10 5) (flag W 9) (flag W 8))) rfl ?_
    rw [h0, h1, h2, h3, h4]
  unfold decode; rw [hd]; exact if_pos hf

theorem andn (d : BitVec 5) (a : BitVec 5) (b : BitVec 5) (ta : Bool) (tb : Bool) : Statement (.andn d a b ta tb) := by
  intro k hk hf; cases hk; refine ⟨_, rfl, ?_⟩
  generalize hW : (1#7 ++ d ++ a ++ b ++ ofBool ta ++ ofBool tb ++ 5#8 : Word32) = W
  have h0 : fld W 20 5 = d := by subst hW; unfold fld; rw [field_high (k := 12) _ _ (by decide) rfl, field_high (k := 11) _ _ (by decide) rfl, field_high (k := 10) _ _ (by decide) rfl, field_high (k := 5) _ _ (by decide) rfl, field_high (k := 0) _ _ (by decide) rfl]; exact field_low _ _
  have h1 : fld W 15 5 = a := by subst hW; unfold fld; rw [field_high (k := 7) _ _ (by decide) rfl, field_high (k := 6) _ _ (by decide) rfl, field_high (k := 5) _ _ (by decide) rfl, field_high (k := 0) _ _ (by decide) rfl]; exact field_low _ _
  have h2 : fld W 10 5 = b := by subst hW; unfold fld; rw [field_high (k := 2) _ _ (by decide) rfl, field_high (k := 1) _ _ (by decide) rfl, field_high (k := 0) _ _ (by decide) rfl]; exact field_low _ _
  have h3 : flag W 9 = ta := by subst hW; unfold flag; rw [bit_high (k := 1) _ _ (by decide) rfl, bit_high (k := 0) _ _ (by decide) rfl]; exact bit_low _ _
  have h4 : flag W 8 = tb := by subst hW; unfold flag; rw [bit_high (k := 0) _ _ (by decide) rfl]; exact bit_low _ _
  have h5 : fld W 25 7 = 1#7 := by subst hW; unfold fld; rw [field_high (k := 17) _ _ (by decide) rfl, field_high (k := 16) _ _ (by decide) rfl, field_high (k := 15) _ _ (by decide) rfl, field_high (k := 10) _ _ (by decide) rfl, field_high (k := 5) _ _ (by decide) rfl, field_high (k := 0) _ _ (by decide) rfl]; exact BitVec.extractLsb'_eq_self
  have h6 : fld W 0 8 = 5#8 := by subst hW; unfold fld; exact field_low _ _
  have hd : decodeMap .S W = .ok (.andn d a b ta tb) := by
    change decodeS W = _
    unfold decodeS; rw [h5]
    change decodeS01 W = _
    unfold decodeS01; rw [h6]
    refine Eq.trans (b := Except.ok (.andn (fld W 20 5) (fld W 15 5) (fld W 10 5) (flag W 9) (flag W 8))) rfl ?_
    rw [h0, h1, h2, h3, h4]
  unfold decode; rw [hd]; exact if_pos hf

theorem shl (d : BitVec 5) (a : BitVec 5) (b : BitVec 5) (ta : Bool) (tb : Bool) : Statement (.shl d a b ta tb) := by
  intro k hk hf; cases hk; refine ⟨_, rfl, ?_⟩
  generalize hW : (1#7 ++ d ++ a ++ b ++ ofBool ta ++ ofBool tb ++ 6#8 : Word32) = W
  have h0 : fld W 20 5 = d := by subst hW; unfold fld; rw [field_high (k := 12) _ _ (by decide) rfl, field_high (k := 11) _ _ (by decide) rfl, field_high (k := 10) _ _ (by decide) rfl, field_high (k := 5) _ _ (by decide) rfl, field_high (k := 0) _ _ (by decide) rfl]; exact field_low _ _
  have h1 : fld W 15 5 = a := by subst hW; unfold fld; rw [field_high (k := 7) _ _ (by decide) rfl, field_high (k := 6) _ _ (by decide) rfl, field_high (k := 5) _ _ (by decide) rfl, field_high (k := 0) _ _ (by decide) rfl]; exact field_low _ _
  have h2 : fld W 10 5 = b := by subst hW; unfold fld; rw [field_high (k := 2) _ _ (by decide) rfl, field_high (k := 1) _ _ (by decide) rfl, field_high (k := 0) _ _ (by decide) rfl]; exact field_low _ _
  have h3 : flag W 9 = ta := by subst hW; unfold flag; rw [bit_high (k := 1) _ _ (by decide) rfl, bit_high (k := 0) _ _ (by decide) rfl]; exact bit_low _ _
  have h4 : flag W 8 = tb := by subst hW; unfold flag; rw [bit_high (k := 0) _ _ (by decide) rfl]; exact bit_low _ _
  have h5 : fld W 25 7 = 1#7 := by subst hW; unfold fld; rw [field_high (k := 17) _ _ (by decide) rfl, field_high (k := 16) _ _ (by decide) rfl, field_high (k := 15) _ _ (by decide) rfl, field_high (k := 10) _ _ (by decide) rfl, field_high (k := 5) _ _ (by decide) rfl, field_high (k := 0) _ _ (by decide) rfl]; exact BitVec.extractLsb'_eq_self
  have h6 : fld W 0 8 = 6#8 := by subst hW; unfold fld; exact field_low _ _
  have hd : decodeMap .S W = .ok (.shl d a b ta tb) := by
    change decodeS W = _
    unfold decodeS; rw [h5]
    change decodeS01 W = _
    unfold decodeS01; rw [h6]
    refine Eq.trans (b := Except.ok (.shl (fld W 20 5) (fld W 15 5) (fld W 10 5) (flag W 9) (flag W 8))) rfl ?_
    rw [h0, h1, h2, h3, h4]
  unfold decode; rw [hd]; exact if_pos hf

theorem shr (d : BitVec 5) (a : BitVec 5) (b : BitVec 5) (ta : Bool) (tb : Bool) : Statement (.shr d a b ta tb) := by
  intro k hk hf; cases hk; refine ⟨_, rfl, ?_⟩
  generalize hW : (1#7 ++ d ++ a ++ b ++ ofBool ta ++ ofBool tb ++ 7#8 : Word32) = W
  have h0 : fld W 20 5 = d := by subst hW; unfold fld; rw [field_high (k := 12) _ _ (by decide) rfl, field_high (k := 11) _ _ (by decide) rfl, field_high (k := 10) _ _ (by decide) rfl, field_high (k := 5) _ _ (by decide) rfl, field_high (k := 0) _ _ (by decide) rfl]; exact field_low _ _
  have h1 : fld W 15 5 = a := by subst hW; unfold fld; rw [field_high (k := 7) _ _ (by decide) rfl, field_high (k := 6) _ _ (by decide) rfl, field_high (k := 5) _ _ (by decide) rfl, field_high (k := 0) _ _ (by decide) rfl]; exact field_low _ _
  have h2 : fld W 10 5 = b := by subst hW; unfold fld; rw [field_high (k := 2) _ _ (by decide) rfl, field_high (k := 1) _ _ (by decide) rfl, field_high (k := 0) _ _ (by decide) rfl]; exact field_low _ _
  have h3 : flag W 9 = ta := by subst hW; unfold flag; rw [bit_high (k := 1) _ _ (by decide) rfl, bit_high (k := 0) _ _ (by decide) rfl]; exact bit_low _ _
  have h4 : flag W 8 = tb := by subst hW; unfold flag; rw [bit_high (k := 0) _ _ (by decide) rfl]; exact bit_low _ _
  have h5 : fld W 25 7 = 1#7 := by subst hW; unfold fld; rw [field_high (k := 17) _ _ (by decide) rfl, field_high (k := 16) _ _ (by decide) rfl, field_high (k := 15) _ _ (by decide) rfl, field_high (k := 10) _ _ (by decide) rfl, field_high (k := 5) _ _ (by decide) rfl, field_high (k := 0) _ _ (by decide) rfl]; exact BitVec.extractLsb'_eq_self
  have h6 : fld W 0 8 = 7#8 := by subst hW; unfold fld; exact field_low _ _
  have hd : decodeMap .S W = .ok (.shr d a b ta tb) := by
    change decodeS W = _
    unfold decodeS; rw [h5]
    change decodeS01 W = _
    unfold decodeS01; rw [h6]
    refine Eq.trans (b := Except.ok (.shr (fld W 20 5) (fld W 15 5) (fld W 10 5) (flag W 9) (flag W 8))) rfl ?_
    rw [h0, h1, h2, h3, h4]
  unfold decode; rw [hd]; exact if_pos hf

theorem sra (d : BitVec 5) (a : BitVec 5) (b : BitVec 5) (ta : Bool) (tb : Bool) : Statement (.sra d a b ta tb) := by
  intro k hk hf; cases hk; refine ⟨_, rfl, ?_⟩
  generalize hW : (1#7 ++ d ++ a ++ b ++ ofBool ta ++ ofBool tb ++ 8#8 : Word32) = W
  have h0 : fld W 20 5 = d := by subst hW; unfold fld; rw [field_high (k := 12) _ _ (by decide) rfl, field_high (k := 11) _ _ (by decide) rfl, field_high (k := 10) _ _ (by decide) rfl, field_high (k := 5) _ _ (by decide) rfl, field_high (k := 0) _ _ (by decide) rfl]; exact field_low _ _
  have h1 : fld W 15 5 = a := by subst hW; unfold fld; rw [field_high (k := 7) _ _ (by decide) rfl, field_high (k := 6) _ _ (by decide) rfl, field_high (k := 5) _ _ (by decide) rfl, field_high (k := 0) _ _ (by decide) rfl]; exact field_low _ _
  have h2 : fld W 10 5 = b := by subst hW; unfold fld; rw [field_high (k := 2) _ _ (by decide) rfl, field_high (k := 1) _ _ (by decide) rfl, field_high (k := 0) _ _ (by decide) rfl]; exact field_low _ _
  have h3 : flag W 9 = ta := by subst hW; unfold flag; rw [bit_high (k := 1) _ _ (by decide) rfl, bit_high (k := 0) _ _ (by decide) rfl]; exact bit_low _ _
  have h4 : flag W 8 = tb := by subst hW; unfold flag; rw [bit_high (k := 0) _ _ (by decide) rfl]; exact bit_low _ _
  have h5 : fld W 25 7 = 1#7 := by subst hW; unfold fld; rw [field_high (k := 17) _ _ (by decide) rfl, field_high (k := 16) _ _ (by decide) rfl, field_high (k := 15) _ _ (by decide) rfl, field_high (k := 10) _ _ (by decide) rfl, field_high (k := 5) _ _ (by decide) rfl, field_high (k := 0) _ _ (by decide) rfl]; exact BitVec.extractLsb'_eq_self
  have h6 : fld W 0 8 = 8#8 := by subst hW; unfold fld; exact field_low _ _
  have hd : decodeMap .S W = .ok (.sra d a b ta tb) := by
    change decodeS W = _
    unfold decodeS; rw [h5]
    change decodeS01 W = _
    unfold decodeS01; rw [h6]
    refine Eq.trans (b := Except.ok (.sra (fld W 20 5) (fld W 15 5) (fld W 10 5) (flag W 9) (flag W 8))) rfl ?_
    rw [h0, h1, h2, h3, h4]
  unfold decode; rw [hd]; exact if_pos hf

theorem rol (d : BitVec 5) (a : BitVec 5) (b : BitVec 5) (ta : Bool) (tb : Bool) : Statement (.rol d a b ta tb) := by
  intro k hk hf; cases hk; refine ⟨_, rfl, ?_⟩
  generalize hW : (1#7 ++ d ++ a ++ b ++ ofBool ta ++ ofBool tb ++ 9#8 : Word32) = W
  have h0 : fld W 20 5 = d := by subst hW; unfold fld; rw [field_high (k := 12) _ _ (by decide) rfl, field_high (k := 11) _ _ (by decide) rfl, field_high (k := 10) _ _ (by decide) rfl, field_high (k := 5) _ _ (by decide) rfl, field_high (k := 0) _ _ (by decide) rfl]; exact field_low _ _
  have h1 : fld W 15 5 = a := by subst hW; unfold fld; rw [field_high (k := 7) _ _ (by decide) rfl, field_high (k := 6) _ _ (by decide) rfl, field_high (k := 5) _ _ (by decide) rfl, field_high (k := 0) _ _ (by decide) rfl]; exact field_low _ _
  have h2 : fld W 10 5 = b := by subst hW; unfold fld; rw [field_high (k := 2) _ _ (by decide) rfl, field_high (k := 1) _ _ (by decide) rfl, field_high (k := 0) _ _ (by decide) rfl]; exact field_low _ _
  have h3 : flag W 9 = ta := by subst hW; unfold flag; rw [bit_high (k := 1) _ _ (by decide) rfl, bit_high (k := 0) _ _ (by decide) rfl]; exact bit_low _ _
  have h4 : flag W 8 = tb := by subst hW; unfold flag; rw [bit_high (k := 0) _ _ (by decide) rfl]; exact bit_low _ _
  have h5 : fld W 25 7 = 1#7 := by subst hW; unfold fld; rw [field_high (k := 17) _ _ (by decide) rfl, field_high (k := 16) _ _ (by decide) rfl, field_high (k := 15) _ _ (by decide) rfl, field_high (k := 10) _ _ (by decide) rfl, field_high (k := 5) _ _ (by decide) rfl, field_high (k := 0) _ _ (by decide) rfl]; exact BitVec.extractLsb'_eq_self
  have h6 : fld W 0 8 = 9#8 := by subst hW; unfold fld; exact field_low _ _
  have hd : decodeMap .S W = .ok (.rol d a b ta tb) := by
    change decodeS W = _
    unfold decodeS; rw [h5]
    change decodeS01 W = _
    unfold decodeS01; rw [h6]
    refine Eq.trans (b := Except.ok (.rol (fld W 20 5) (fld W 15 5) (fld W 10 5) (flag W 9) (flag W 8))) rfl ?_
    rw [h0, h1, h2, h3, h4]
  unfold decode; rw [hd]; exact if_pos hf

theorem min (d : BitVec 5) (a : BitVec 5) (b : BitVec 5) (ta : Bool) (tb : Bool) : Statement (.min d a b ta tb) := by
  intro k hk hf; cases hk; refine ⟨_, rfl, ?_⟩
  generalize hW : (1#7 ++ d ++ a ++ b ++ ofBool ta ++ ofBool tb ++ 0xa#8 : Word32) = W
  have h0 : fld W 20 5 = d := by subst hW; unfold fld; rw [field_high (k := 12) _ _ (by decide) rfl, field_high (k := 11) _ _ (by decide) rfl, field_high (k := 10) _ _ (by decide) rfl, field_high (k := 5) _ _ (by decide) rfl, field_high (k := 0) _ _ (by decide) rfl]; exact field_low _ _
  have h1 : fld W 15 5 = a := by subst hW; unfold fld; rw [field_high (k := 7) _ _ (by decide) rfl, field_high (k := 6) _ _ (by decide) rfl, field_high (k := 5) _ _ (by decide) rfl, field_high (k := 0) _ _ (by decide) rfl]; exact field_low _ _
  have h2 : fld W 10 5 = b := by subst hW; unfold fld; rw [field_high (k := 2) _ _ (by decide) rfl, field_high (k := 1) _ _ (by decide) rfl, field_high (k := 0) _ _ (by decide) rfl]; exact field_low _ _
  have h3 : flag W 9 = ta := by subst hW; unfold flag; rw [bit_high (k := 1) _ _ (by decide) rfl, bit_high (k := 0) _ _ (by decide) rfl]; exact bit_low _ _
  have h4 : flag W 8 = tb := by subst hW; unfold flag; rw [bit_high (k := 0) _ _ (by decide) rfl]; exact bit_low _ _
  have h5 : fld W 25 7 = 1#7 := by subst hW; unfold fld; rw [field_high (k := 17) _ _ (by decide) rfl, field_high (k := 16) _ _ (by decide) rfl, field_high (k := 15) _ _ (by decide) rfl, field_high (k := 10) _ _ (by decide) rfl, field_high (k := 5) _ _ (by decide) rfl, field_high (k := 0) _ _ (by decide) rfl]; exact BitVec.extractLsb'_eq_self
  have h6 : fld W 0 8 = 0xa#8 := by subst hW; unfold fld; exact field_low _ _
  have hd : decodeMap .S W = .ok (.min d a b ta tb) := by
    change decodeS W = _
    unfold decodeS; rw [h5]
    change decodeS01 W = _
    unfold decodeS01; rw [h6]
    refine Eq.trans (b := Except.ok (.min (fld W 20 5) (fld W 15 5) (fld W 10 5) (flag W 9) (flag W 8))) rfl ?_
    rw [h0, h1, h2, h3, h4]
  unfold decode; rw [hd]; exact if_pos hf

theorem max (d : BitVec 5) (a : BitVec 5) (b : BitVec 5) (ta : Bool) (tb : Bool) : Statement (.max d a b ta tb) := by
  intro k hk hf; cases hk; refine ⟨_, rfl, ?_⟩
  generalize hW : (1#7 ++ d ++ a ++ b ++ ofBool ta ++ ofBool tb ++ 0xb#8 : Word32) = W
  have h0 : fld W 20 5 = d := by subst hW; unfold fld; rw [field_high (k := 12) _ _ (by decide) rfl, field_high (k := 11) _ _ (by decide) rfl, field_high (k := 10) _ _ (by decide) rfl, field_high (k := 5) _ _ (by decide) rfl, field_high (k := 0) _ _ (by decide) rfl]; exact field_low _ _
  have h1 : fld W 15 5 = a := by subst hW; unfold fld; rw [field_high (k := 7) _ _ (by decide) rfl, field_high (k := 6) _ _ (by decide) rfl, field_high (k := 5) _ _ (by decide) rfl, field_high (k := 0) _ _ (by decide) rfl]; exact field_low _ _
  have h2 : fld W 10 5 = b := by subst hW; unfold fld; rw [field_high (k := 2) _ _ (by decide) rfl, field_high (k := 1) _ _ (by decide) rfl, field_high (k := 0) _ _ (by decide) rfl]; exact field_low _ _
  have h3 : flag W 9 = ta := by subst hW; unfold flag; rw [bit_high (k := 1) _ _ (by decide) rfl, bit_high (k := 0) _ _ (by decide) rfl]; exact bit_low _ _
  have h4 : flag W 8 = tb := by subst hW; unfold flag; rw [bit_high (k := 0) _ _ (by decide) rfl]; exact bit_low _ _
  have h5 : fld W 25 7 = 1#7 := by subst hW; unfold fld; rw [field_high (k := 17) _ _ (by decide) rfl, field_high (k := 16) _ _ (by decide) rfl, field_high (k := 15) _ _ (by decide) rfl, field_high (k := 10) _ _ (by decide) rfl, field_high (k := 5) _ _ (by decide) rfl, field_high (k := 0) _ _ (by decide) rfl]; exact BitVec.extractLsb'_eq_self
  have h6 : fld W 0 8 = 0xb#8 := by subst hW; unfold fld; exact field_low _ _
  have hd : decodeMap .S W = .ok (.max d a b ta tb) := by
    change decodeS W = _
    unfold decodeS; rw [h5]
    change decodeS01 W = _
    unfold decodeS01; rw [h6]
    refine Eq.trans (b := Except.ok (.max (fld W 20 5) (fld W 15 5) (fld W 10 5) (flag W 9) (flag W 8))) rfl ?_
    rw [h0, h1, h2, h3, h4]
  unfold decode; rw [hd]; exact if_pos hf

theorem minu (d : BitVec 5) (a : BitVec 5) (b : BitVec 5) (ta : Bool) (tb : Bool) : Statement (.minu d a b ta tb) := by
  intro k hk hf; cases hk; refine ⟨_, rfl, ?_⟩
  generalize hW : (1#7 ++ d ++ a ++ b ++ ofBool ta ++ ofBool tb ++ 0xc#8 : Word32) = W
  have h0 : fld W 20 5 = d := by subst hW; unfold fld; rw [field_high (k := 12) _ _ (by decide) rfl, field_high (k := 11) _ _ (by decide) rfl, field_high (k := 10) _ _ (by decide) rfl, field_high (k := 5) _ _ (by decide) rfl, field_high (k := 0) _ _ (by decide) rfl]; exact field_low _ _
  have h1 : fld W 15 5 = a := by subst hW; unfold fld; rw [field_high (k := 7) _ _ (by decide) rfl, field_high (k := 6) _ _ (by decide) rfl, field_high (k := 5) _ _ (by decide) rfl, field_high (k := 0) _ _ (by decide) rfl]; exact field_low _ _
  have h2 : fld W 10 5 = b := by subst hW; unfold fld; rw [field_high (k := 2) _ _ (by decide) rfl, field_high (k := 1) _ _ (by decide) rfl, field_high (k := 0) _ _ (by decide) rfl]; exact field_low _ _
  have h3 : flag W 9 = ta := by subst hW; unfold flag; rw [bit_high (k := 1) _ _ (by decide) rfl, bit_high (k := 0) _ _ (by decide) rfl]; exact bit_low _ _
  have h4 : flag W 8 = tb := by subst hW; unfold flag; rw [bit_high (k := 0) _ _ (by decide) rfl]; exact bit_low _ _
  have h5 : fld W 25 7 = 1#7 := by subst hW; unfold fld; rw [field_high (k := 17) _ _ (by decide) rfl, field_high (k := 16) _ _ (by decide) rfl, field_high (k := 15) _ _ (by decide) rfl, field_high (k := 10) _ _ (by decide) rfl, field_high (k := 5) _ _ (by decide) rfl, field_high (k := 0) _ _ (by decide) rfl]; exact BitVec.extractLsb'_eq_self
  have h6 : fld W 0 8 = 0xc#8 := by subst hW; unfold fld; exact field_low _ _
  have hd : decodeMap .S W = .ok (.minu d a b ta tb) := by
    change decodeS W = _
    unfold decodeS; rw [h5]
    change decodeS01 W = _
    unfold decodeS01; rw [h6]
    refine Eq.trans (b := Except.ok (.minu (fld W 20 5) (fld W 15 5) (fld W 10 5) (flag W 9) (flag W 8))) rfl ?_
    rw [h0, h1, h2, h3, h4]
  unfold decode; rw [hd]; exact if_pos hf

theorem maxu (d : BitVec 5) (a : BitVec 5) (b : BitVec 5) (ta : Bool) (tb : Bool) : Statement (.maxu d a b ta tb) := by
  intro k hk hf; cases hk; refine ⟨_, rfl, ?_⟩
  generalize hW : (1#7 ++ d ++ a ++ b ++ ofBool ta ++ ofBool tb ++ 0xd#8 : Word32) = W
  have h0 : fld W 20 5 = d := by subst hW; unfold fld; rw [field_high (k := 12) _ _ (by decide) rfl, field_high (k := 11) _ _ (by decide) rfl, field_high (k := 10) _ _ (by decide) rfl, field_high (k := 5) _ _ (by decide) rfl, field_high (k := 0) _ _ (by decide) rfl]; exact field_low _ _
  have h1 : fld W 15 5 = a := by subst hW; unfold fld; rw [field_high (k := 7) _ _ (by decide) rfl, field_high (k := 6) _ _ (by decide) rfl, field_high (k := 5) _ _ (by decide) rfl, field_high (k := 0) _ _ (by decide) rfl]; exact field_low _ _
  have h2 : fld W 10 5 = b := by subst hW; unfold fld; rw [field_high (k := 2) _ _ (by decide) rfl, field_high (k := 1) _ _ (by decide) rfl, field_high (k := 0) _ _ (by decide) rfl]; exact field_low _ _
  have h3 : flag W 9 = ta := by subst hW; unfold flag; rw [bit_high (k := 1) _ _ (by decide) rfl, bit_high (k := 0) _ _ (by decide) rfl]; exact bit_low _ _
  have h4 : flag W 8 = tb := by subst hW; unfold flag; rw [bit_high (k := 0) _ _ (by decide) rfl]; exact bit_low _ _
  have h5 : fld W 25 7 = 1#7 := by subst hW; unfold fld; rw [field_high (k := 17) _ _ (by decide) rfl, field_high (k := 16) _ _ (by decide) rfl, field_high (k := 15) _ _ (by decide) rfl, field_high (k := 10) _ _ (by decide) rfl, field_high (k := 5) _ _ (by decide) rfl, field_high (k := 0) _ _ (by decide) rfl]; exact BitVec.extractLsb'_eq_self
  have h6 : fld W 0 8 = 0xd#8 := by subst hW; unfold fld; exact field_low _ _
  have hd : decodeMap .S W = .ok (.maxu d a b ta tb) := by
    change decodeS W = _
    unfold decodeS; rw [h5]
    change decodeS01 W = _
    unfold decodeS01; rw [h6]
    refine Eq.trans (b := Except.ok (.maxu (fld W 20 5) (fld W 15 5) (fld W 10 5) (flag W 9) (flag W 8))) rfl ?_
    rw [h0, h1, h2, h3, h4]
  unfold decode; rw [hd]; exact if_pos hf

theorem mul (d : BitVec 5) (a : BitVec 5) (b : BitVec 5) (ta : Bool) (tb : Bool) : Statement (.mul d a b ta tb) := by
  intro k hk hf; cases hk; refine ⟨_, rfl, ?_⟩
  generalize hW : (1#7 ++ d ++ a ++ b ++ ofBool ta ++ ofBool tb ++ 0xe#8 : Word32) = W
  have h0 : fld W 20 5 = d := by subst hW; unfold fld; rw [field_high (k := 12) _ _ (by decide) rfl, field_high (k := 11) _ _ (by decide) rfl, field_high (k := 10) _ _ (by decide) rfl, field_high (k := 5) _ _ (by decide) rfl, field_high (k := 0) _ _ (by decide) rfl]; exact field_low _ _
  have h1 : fld W 15 5 = a := by subst hW; unfold fld; rw [field_high (k := 7) _ _ (by decide) rfl, field_high (k := 6) _ _ (by decide) rfl, field_high (k := 5) _ _ (by decide) rfl, field_high (k := 0) _ _ (by decide) rfl]; exact field_low _ _
  have h2 : fld W 10 5 = b := by subst hW; unfold fld; rw [field_high (k := 2) _ _ (by decide) rfl, field_high (k := 1) _ _ (by decide) rfl, field_high (k := 0) _ _ (by decide) rfl]; exact field_low _ _
  have h3 : flag W 9 = ta := by subst hW; unfold flag; rw [bit_high (k := 1) _ _ (by decide) rfl, bit_high (k := 0) _ _ (by decide) rfl]; exact bit_low _ _
  have h4 : flag W 8 = tb := by subst hW; unfold flag; rw [bit_high (k := 0) _ _ (by decide) rfl]; exact bit_low _ _
  have h5 : fld W 25 7 = 1#7 := by subst hW; unfold fld; rw [field_high (k := 17) _ _ (by decide) rfl, field_high (k := 16) _ _ (by decide) rfl, field_high (k := 15) _ _ (by decide) rfl, field_high (k := 10) _ _ (by decide) rfl, field_high (k := 5) _ _ (by decide) rfl, field_high (k := 0) _ _ (by decide) rfl]; exact BitVec.extractLsb'_eq_self
  have h6 : fld W 0 8 = 0xe#8 := by subst hW; unfold fld; exact field_low _ _
  have hd : decodeMap .S W = .ok (.mul d a b ta tb) := by
    change decodeS W = _
    unfold decodeS; rw [h5]
    change decodeS01 W = _
    unfold decodeS01; rw [h6]
    refine Eq.trans (b := Except.ok (.mul (fld W 20 5) (fld W 15 5) (fld W 10 5) (flag W 9) (flag W 8))) rfl ?_
    rw [h0, h1, h2, h3, h4]
  unfold decode; rw [hd]; exact if_pos hf

theorem mulh (d : BitVec 5) (a : BitVec 5) (b : BitVec 5) (ta : Bool) (tb : Bool) : Statement (.mulh d a b ta tb) := by
  intro k hk hf; cases hk; refine ⟨_, rfl, ?_⟩
  generalize hW : (1#7 ++ d ++ a ++ b ++ ofBool ta ++ ofBool tb ++ 0xf#8 : Word32) = W
  have h0 : fld W 20 5 = d := by subst hW; unfold fld; rw [field_high (k := 12) _ _ (by decide) rfl, field_high (k := 11) _ _ (by decide) rfl, field_high (k := 10) _ _ (by decide) rfl, field_high (k := 5) _ _ (by decide) rfl, field_high (k := 0) _ _ (by decide) rfl]; exact field_low _ _
  have h1 : fld W 15 5 = a := by subst hW; unfold fld; rw [field_high (k := 7) _ _ (by decide) rfl, field_high (k := 6) _ _ (by decide) rfl, field_high (k := 5) _ _ (by decide) rfl, field_high (k := 0) _ _ (by decide) rfl]; exact field_low _ _
  have h2 : fld W 10 5 = b := by subst hW; unfold fld; rw [field_high (k := 2) _ _ (by decide) rfl, field_high (k := 1) _ _ (by decide) rfl, field_high (k := 0) _ _ (by decide) rfl]; exact field_low _ _
  have h3 : flag W 9 = ta := by subst hW; unfold flag; rw [bit_high (k := 1) _ _ (by decide) rfl, bit_high (k := 0) _ _ (by decide) rfl]; exact bit_low _ _
  have h4 : flag W 8 = tb := by subst hW; unfold flag; rw [bit_high (k := 0) _ _ (by decide) rfl]; exact bit_low _ _
  have h5 : fld W 25 7 = 1#7 := by subst hW; unfold fld; rw [field_high (k := 17) _ _ (by decide) rfl, field_high (k := 16) _ _ (by decide) rfl, field_high (k := 15) _ _ (by decide) rfl, field_high (k := 10) _ _ (by decide) rfl, field_high (k := 5) _ _ (by decide) rfl, field_high (k := 0) _ _ (by decide) rfl]; exact BitVec.extractLsb'_eq_self
  have h6 : fld W 0 8 = 0xf#8 := by subst hW; unfold fld; exact field_low _ _
  have hd : decodeMap .S W = .ok (.mulh d a b ta tb) := by
    change decodeS W = _
    unfold decodeS; rw [h5]
    change decodeS01 W = _
    unfold decodeS01; rw [h6]
    refine Eq.trans (b := Except.ok (.mulh (fld W 20 5) (fld W 15 5) (fld W 10 5) (flag W 9) (flag W 8))) rfl ?_
    rw [h0, h1, h2, h3, h4]
  unfold decode; rw [hd]; exact if_pos hf

theorem mulhu (d : BitVec 5) (a : BitVec 5) (b : BitVec 5) (ta : Bool) (tb : Bool) : Statement (.mulhu d a b ta tb) := by
  intro k hk hf; cases hk; refine ⟨_, rfl, ?_⟩
  generalize hW : (1#7 ++ d ++ a ++ b ++ ofBool ta ++ ofBool tb ++ 0x10#8 : Word32) = W
  have h0 : fld W 20 5 = d := by subst hW; unfold fld; rw [field_high (k := 12) _ _ (by decide) rfl, field_high (k := 11) _ _ (by decide) rfl, field_high (k := 10) _ _ (by decide) rfl, field_high (k := 5) _ _ (by decide) rfl, field_high (k := 0) _ _ (by decide) rfl]; exact field_low _ _
  have h1 : fld W 15 5 = a := by subst hW; unfold fld; rw [field_high (k := 7) _ _ (by decide) rfl, field_high (k := 6) _ _ (by decide) rfl, field_high (k := 5) _ _ (by decide) rfl, field_high (k := 0) _ _ (by decide) rfl]; exact field_low _ _
  have h2 : fld W 10 5 = b := by subst hW; unfold fld; rw [field_high (k := 2) _ _ (by decide) rfl, field_high (k := 1) _ _ (by decide) rfl, field_high (k := 0) _ _ (by decide) rfl]; exact field_low _ _
  have h3 : flag W 9 = ta := by subst hW; unfold flag; rw [bit_high (k := 1) _ _ (by decide) rfl, bit_high (k := 0) _ _ (by decide) rfl]; exact bit_low _ _
  have h4 : flag W 8 = tb := by subst hW; unfold flag; rw [bit_high (k := 0) _ _ (by decide) rfl]; exact bit_low _ _
  have h5 : fld W 25 7 = 1#7 := by subst hW; unfold fld; rw [field_high (k := 17) _ _ (by decide) rfl, field_high (k := 16) _ _ (by decide) rfl, field_high (k := 15) _ _ (by decide) rfl, field_high (k := 10) _ _ (by decide) rfl, field_high (k := 5) _ _ (by decide) rfl, field_high (k := 0) _ _ (by decide) rfl]; exact BitVec.extractLsb'_eq_self
  have h6 : fld W 0 8 = 0x10#8 := by subst hW; unfold fld; exact field_low _ _
  have hd : decodeMap .S W = .ok (.mulhu d a b ta tb) := by
    change decodeS W = _
    unfold decodeS; rw [h5]
    change decodeS01 W = _
    unfold decodeS01; rw [h6]
    refine Eq.trans (b := Except.ok (.mulhu (fld W 20 5) (fld W 15 5) (fld W 10 5) (flag W 9) (flag W 8))) rfl ?_
    rw [h0, h1, h2, h3, h4]
  unfold decode; rw [hd]; exact if_pos hf

theorem div (d : BitVec 5) (a : BitVec 5) (b : BitVec 5) (ta : Bool) (tb : Bool) : Statement (.div d a b ta tb) := by
  intro k hk hf; cases hk; refine ⟨_, rfl, ?_⟩
  generalize hW : (1#7 ++ d ++ a ++ b ++ ofBool ta ++ ofBool tb ++ 0x11#8 : Word32) = W
  have h0 : fld W 20 5 = d := by subst hW; unfold fld; rw [field_high (k := 12) _ _ (by decide) rfl, field_high (k := 11) _ _ (by decide) rfl, field_high (k := 10) _ _ (by decide) rfl, field_high (k := 5) _ _ (by decide) rfl, field_high (k := 0) _ _ (by decide) rfl]; exact field_low _ _
  have h1 : fld W 15 5 = a := by subst hW; unfold fld; rw [field_high (k := 7) _ _ (by decide) rfl, field_high (k := 6) _ _ (by decide) rfl, field_high (k := 5) _ _ (by decide) rfl, field_high (k := 0) _ _ (by decide) rfl]; exact field_low _ _
  have h2 : fld W 10 5 = b := by subst hW; unfold fld; rw [field_high (k := 2) _ _ (by decide) rfl, field_high (k := 1) _ _ (by decide) rfl, field_high (k := 0) _ _ (by decide) rfl]; exact field_low _ _
  have h3 : flag W 9 = ta := by subst hW; unfold flag; rw [bit_high (k := 1) _ _ (by decide) rfl, bit_high (k := 0) _ _ (by decide) rfl]; exact bit_low _ _
  have h4 : flag W 8 = tb := by subst hW; unfold flag; rw [bit_high (k := 0) _ _ (by decide) rfl]; exact bit_low _ _
  have h5 : fld W 25 7 = 1#7 := by subst hW; unfold fld; rw [field_high (k := 17) _ _ (by decide) rfl, field_high (k := 16) _ _ (by decide) rfl, field_high (k := 15) _ _ (by decide) rfl, field_high (k := 10) _ _ (by decide) rfl, field_high (k := 5) _ _ (by decide) rfl, field_high (k := 0) _ _ (by decide) rfl]; exact BitVec.extractLsb'_eq_self
  have h6 : fld W 0 8 = 0x11#8 := by subst hW; unfold fld; exact field_low _ _
  have hd : decodeMap .S W = .ok (.div d a b ta tb) := by
    change decodeS W = _
    unfold decodeS; rw [h5]
    change decodeS01 W = _
    unfold decodeS01; rw [h6]
    refine Eq.trans (b := Except.ok (.div (fld W 20 5) (fld W 15 5) (fld W 10 5) (flag W 9) (flag W 8))) rfl ?_
    rw [h0, h1, h2, h3, h4]
  unfold decode; rw [hd]; exact if_pos hf

theorem divu (d : BitVec 5) (a : BitVec 5) (b : BitVec 5) (ta : Bool) (tb : Bool) : Statement (.divu d a b ta tb) := by
  intro k hk hf; cases hk; refine ⟨_, rfl, ?_⟩
  generalize hW : (1#7 ++ d ++ a ++ b ++ ofBool ta ++ ofBool tb ++ 0x12#8 : Word32) = W
  have h0 : fld W 20 5 = d := by subst hW; unfold fld; rw [field_high (k := 12) _ _ (by decide) rfl, field_high (k := 11) _ _ (by decide) rfl, field_high (k := 10) _ _ (by decide) rfl, field_high (k := 5) _ _ (by decide) rfl, field_high (k := 0) _ _ (by decide) rfl]; exact field_low _ _
  have h1 : fld W 15 5 = a := by subst hW; unfold fld; rw [field_high (k := 7) _ _ (by decide) rfl, field_high (k := 6) _ _ (by decide) rfl, field_high (k := 5) _ _ (by decide) rfl, field_high (k := 0) _ _ (by decide) rfl]; exact field_low _ _
  have h2 : fld W 10 5 = b := by subst hW; unfold fld; rw [field_high (k := 2) _ _ (by decide) rfl, field_high (k := 1) _ _ (by decide) rfl, field_high (k := 0) _ _ (by decide) rfl]; exact field_low _ _
  have h3 : flag W 9 = ta := by subst hW; unfold flag; rw [bit_high (k := 1) _ _ (by decide) rfl, bit_high (k := 0) _ _ (by decide) rfl]; exact bit_low _ _
  have h4 : flag W 8 = tb := by subst hW; unfold flag; rw [bit_high (k := 0) _ _ (by decide) rfl]; exact bit_low _ _
  have h5 : fld W 25 7 = 1#7 := by subst hW; unfold fld; rw [field_high (k := 17) _ _ (by decide) rfl, field_high (k := 16) _ _ (by decide) rfl, field_high (k := 15) _ _ (by decide) rfl, field_high (k := 10) _ _ (by decide) rfl, field_high (k := 5) _ _ (by decide) rfl, field_high (k := 0) _ _ (by decide) rfl]; exact BitVec.extractLsb'_eq_self
  have h6 : fld W 0 8 = 0x12#8 := by subst hW; unfold fld; exact field_low _ _
  have hd : decodeMap .S W = .ok (.divu d a b ta tb) := by
    change decodeS W = _
    unfold decodeS; rw [h5]
    change decodeS01 W = _
    unfold decodeS01; rw [h6]
    refine Eq.trans (b := Except.ok (.divu (fld W 20 5) (fld W 15 5) (fld W 10 5) (flag W 9) (flag W 8))) rfl ?_
    rw [h0, h1, h2, h3, h4]
  unfold decode; rw [hd]; exact if_pos hf

theorem rem (d : BitVec 5) (a : BitVec 5) (b : BitVec 5) (ta : Bool) (tb : Bool) : Statement (.rem d a b ta tb) := by
  intro k hk hf; cases hk; refine ⟨_, rfl, ?_⟩
  generalize hW : (1#7 ++ d ++ a ++ b ++ ofBool ta ++ ofBool tb ++ 0x13#8 : Word32) = W
  have h0 : fld W 20 5 = d := by subst hW; unfold fld; rw [field_high (k := 12) _ _ (by decide) rfl, field_high (k := 11) _ _ (by decide) rfl, field_high (k := 10) _ _ (by decide) rfl, field_high (k := 5) _ _ (by decide) rfl, field_high (k := 0) _ _ (by decide) rfl]; exact field_low _ _
  have h1 : fld W 15 5 = a := by subst hW; unfold fld; rw [field_high (k := 7) _ _ (by decide) rfl, field_high (k := 6) _ _ (by decide) rfl, field_high (k := 5) _ _ (by decide) rfl, field_high (k := 0) _ _ (by decide) rfl]; exact field_low _ _
  have h2 : fld W 10 5 = b := by subst hW; unfold fld; rw [field_high (k := 2) _ _ (by decide) rfl, field_high (k := 1) _ _ (by decide) rfl, field_high (k := 0) _ _ (by decide) rfl]; exact field_low _ _
  have h3 : flag W 9 = ta := by subst hW; unfold flag; rw [bit_high (k := 1) _ _ (by decide) rfl, bit_high (k := 0) _ _ (by decide) rfl]; exact bit_low _ _
  have h4 : flag W 8 = tb := by subst hW; unfold flag; rw [bit_high (k := 0) _ _ (by decide) rfl]; exact bit_low _ _
  have h5 : fld W 25 7 = 1#7 := by subst hW; unfold fld; rw [field_high (k := 17) _ _ (by decide) rfl, field_high (k := 16) _ _ (by decide) rfl, field_high (k := 15) _ _ (by decide) rfl, field_high (k := 10) _ _ (by decide) rfl, field_high (k := 5) _ _ (by decide) rfl, field_high (k := 0) _ _ (by decide) rfl]; exact BitVec.extractLsb'_eq_self
  have h6 : fld W 0 8 = 0x13#8 := by subst hW; unfold fld; exact field_low _ _
  have hd : decodeMap .S W = .ok (.rem d a b ta tb) := by
    change decodeS W = _
    unfold decodeS; rw [h5]
    change decodeS01 W = _
    unfold decodeS01; rw [h6]
    refine Eq.trans (b := Except.ok (.rem (fld W 20 5) (fld W 15 5) (fld W 10 5) (flag W 9) (flag W 8))) rfl ?_
    rw [h0, h1, h2, h3, h4]
  unfold decode; rw [hd]; exact if_pos hf

theorem remu (d : BitVec 5) (a : BitVec 5) (b : BitVec 5) (ta : Bool) (tb : Bool) : Statement (.remu d a b ta tb) := by
  intro k hk hf; cases hk; refine ⟨_, rfl, ?_⟩
  generalize hW : (1#7 ++ d ++ a ++ b ++ ofBool ta ++ ofBool tb ++ 0x14#8 : Word32) = W
  have h0 : fld W 20 5 = d := by subst hW; unfold fld; rw [field_high (k := 12) _ _ (by decide) rfl, field_high (k := 11) _ _ (by decide) rfl, field_high (k := 10) _ _ (by decide) rfl, field_high (k := 5) _ _ (by decide) rfl, field_high (k := 0) _ _ (by decide) rfl]; exact field_low _ _
  have h1 : fld W 15 5 = a := by subst hW; unfold fld; rw [field_high (k := 7) _ _ (by decide) rfl, field_high (k := 6) _ _ (by decide) rfl, field_high (k := 5) _ _ (by decide) rfl, field_high (k := 0) _ _ (by decide) rfl]; exact field_low _ _
  have h2 : fld W 10 5 = b := by subst hW; unfold fld; rw [field_high (k := 2) _ _ (by decide) rfl, field_high (k := 1) _ _ (by decide) rfl, field_high (k := 0) _ _ (by decide) rfl]; exact field_low _ _
  have h3 : flag W 9 = ta := by subst hW; unfold flag; rw [bit_high (k := 1) _ _ (by decide) rfl, bit_high (k := 0) _ _ (by decide) rfl]; exact bit_low _ _
  have h4 : flag W 8 = tb := by subst hW; unfold flag; rw [bit_high (k := 0) _ _ (by decide) rfl]; exact bit_low _ _
  have h5 : fld W 25 7 = 1#7 := by subst hW; unfold fld; rw [field_high (k := 17) _ _ (by decide) rfl, field_high (k := 16) _ _ (by decide) rfl, field_high (k := 15) _ _ (by decide) rfl, field_high (k := 10) _ _ (by decide) rfl, field_high (k := 5) _ _ (by decide) rfl, field_high (k := 0) _ _ (by decide) rfl]; exact BitVec.extractLsb'_eq_self
  have h6 : fld W 0 8 = 0x14#8 := by subst hW; unfold fld; exact field_low _ _
  have hd : decodeMap .S W = .ok (.remu d a b ta tb) := by
    change decodeS W = _
    unfold decodeS; rw [h5]
    change decodeS01 W = _
    unfold decodeS01; rw [h6]
    refine Eq.trans (b := Except.ok (.remu (fld W 20 5) (fld W 15 5) (fld W 10 5) (flag W 9) (flag W 8))) rfl ?_
    rw [h0, h1, h2, h3, h4]
  unfold decode; rw [hd]; exact if_pos hf

theorem clz (d : BitVec 5) (a : BitVec 5) (ta : Bool) : Statement (.clz d a ta) := by
  intro k hk hf; cases hk; refine ⟨_, rfl, ?_⟩
  generalize hW : (2#7 ++ d ++ a ++ 0#5 ++ ofBool ta ++ 0#1 ++ 0#8 : Word32) = W
  have h0 : fld W 10 5 = 0#5 := by subst hW; unfold fld; rw [field_high (k := 2) _ _ (by decide) rfl, field_high (k := 1) _ _ (by decide) rfl, field_high (k := 0) _ _ (by decide) rfl]; exact field_low _ _
  have h1 : fld W 8 1 = 0#1 := by subst hW; unfold fld; rw [field_high (k := 0) _ _ (by decide) rfl]; exact field_low _ _
  have h2 : fld W 20 5 = d := by subst hW; unfold fld; rw [field_high (k := 12) _ _ (by decide) rfl, field_high (k := 11) _ _ (by decide) rfl, field_high (k := 10) _ _ (by decide) rfl, field_high (k := 5) _ _ (by decide) rfl, field_high (k := 0) _ _ (by decide) rfl]; exact field_low _ _
  have h3 : fld W 15 5 = a := by subst hW; unfold fld; rw [field_high (k := 7) _ _ (by decide) rfl, field_high (k := 6) _ _ (by decide) rfl, field_high (k := 5) _ _ (by decide) rfl, field_high (k := 0) _ _ (by decide) rfl]; exact field_low _ _
  have h4 : flag W 9 = ta := by subst hW; unfold flag; rw [bit_high (k := 1) _ _ (by decide) rfl, bit_high (k := 0) _ _ (by decide) rfl]; exact bit_low _ _
  have h5 : fld W 25 7 = 2#7 := by subst hW; unfold fld; rw [field_high (k := 17) _ _ (by decide) rfl, field_high (k := 16) _ _ (by decide) rfl, field_high (k := 15) _ _ (by decide) rfl, field_high (k := 10) _ _ (by decide) rfl, field_high (k := 5) _ _ (by decide) rfl, field_high (k := 0) _ _ (by decide) rfl]; exact BitVec.extractLsb'_eq_self
  have h6 : fld W 0 8 = 0#8 := by subst hW; unfold fld; exact field_low _ _
  have hd : decodeMap .S W = .ok (.clz d a ta) := by
    change decodeS W = _
    unfold decodeS; rw [h5]
    change decodeS02 W = _
    unfold decodeS02; rw [h6]
    refine Eq.trans (b := zeroed (fld W 10 5 = 0 ∧ fld W 8 1 = 0) <| .ok (.clz (fld W 20 5) (fld W 15 5) (flag W 9))) rfl ?_
    rw [h0, h1, h2, h3, h4]; rfl
  unfold decode; rw [hd]; exact if_pos hf

theorem ctz (d : BitVec 5) (a : BitVec 5) (ta : Bool) : Statement (.ctz d a ta) := by
  intro k hk hf; cases hk; refine ⟨_, rfl, ?_⟩
  generalize hW : (2#7 ++ d ++ a ++ 0#5 ++ ofBool ta ++ 0#1 ++ 1#8 : Word32) = W
  have h0 : fld W 10 5 = 0#5 := by subst hW; unfold fld; rw [field_high (k := 2) _ _ (by decide) rfl, field_high (k := 1) _ _ (by decide) rfl, field_high (k := 0) _ _ (by decide) rfl]; exact field_low _ _
  have h1 : fld W 8 1 = 0#1 := by subst hW; unfold fld; rw [field_high (k := 0) _ _ (by decide) rfl]; exact field_low _ _
  have h2 : fld W 20 5 = d := by subst hW; unfold fld; rw [field_high (k := 12) _ _ (by decide) rfl, field_high (k := 11) _ _ (by decide) rfl, field_high (k := 10) _ _ (by decide) rfl, field_high (k := 5) _ _ (by decide) rfl, field_high (k := 0) _ _ (by decide) rfl]; exact field_low _ _
  have h3 : fld W 15 5 = a := by subst hW; unfold fld; rw [field_high (k := 7) _ _ (by decide) rfl, field_high (k := 6) _ _ (by decide) rfl, field_high (k := 5) _ _ (by decide) rfl, field_high (k := 0) _ _ (by decide) rfl]; exact field_low _ _
  have h4 : flag W 9 = ta := by subst hW; unfold flag; rw [bit_high (k := 1) _ _ (by decide) rfl, bit_high (k := 0) _ _ (by decide) rfl]; exact bit_low _ _
  have h5 : fld W 25 7 = 2#7 := by subst hW; unfold fld; rw [field_high (k := 17) _ _ (by decide) rfl, field_high (k := 16) _ _ (by decide) rfl, field_high (k := 15) _ _ (by decide) rfl, field_high (k := 10) _ _ (by decide) rfl, field_high (k := 5) _ _ (by decide) rfl, field_high (k := 0) _ _ (by decide) rfl]; exact BitVec.extractLsb'_eq_self
  have h6 : fld W 0 8 = 1#8 := by subst hW; unfold fld; exact field_low _ _
  have hd : decodeMap .S W = .ok (.ctz d a ta) := by
    change decodeS W = _
    unfold decodeS; rw [h5]
    change decodeS02 W = _
    unfold decodeS02; rw [h6]
    refine Eq.trans (b := zeroed (fld W 10 5 = 0 ∧ fld W 8 1 = 0) <| .ok (.ctz (fld W 20 5) (fld W 15 5) (flag W 9))) rfl ?_
    rw [h0, h1, h2, h3, h4]; rfl
  unfold decode; rw [hd]; exact if_pos hf

theorem popc (d : BitVec 5) (a : BitVec 5) (ta : Bool) : Statement (.popc d a ta) := by
  intro k hk hf; cases hk; refine ⟨_, rfl, ?_⟩
  generalize hW : (2#7 ++ d ++ a ++ 0#5 ++ ofBool ta ++ 0#1 ++ 2#8 : Word32) = W
  have h0 : fld W 10 5 = 0#5 := by subst hW; unfold fld; rw [field_high (k := 2) _ _ (by decide) rfl, field_high (k := 1) _ _ (by decide) rfl, field_high (k := 0) _ _ (by decide) rfl]; exact field_low _ _
  have h1 : fld W 8 1 = 0#1 := by subst hW; unfold fld; rw [field_high (k := 0) _ _ (by decide) rfl]; exact field_low _ _
  have h2 : fld W 20 5 = d := by subst hW; unfold fld; rw [field_high (k := 12) _ _ (by decide) rfl, field_high (k := 11) _ _ (by decide) rfl, field_high (k := 10) _ _ (by decide) rfl, field_high (k := 5) _ _ (by decide) rfl, field_high (k := 0) _ _ (by decide) rfl]; exact field_low _ _
  have h3 : fld W 15 5 = a := by subst hW; unfold fld; rw [field_high (k := 7) _ _ (by decide) rfl, field_high (k := 6) _ _ (by decide) rfl, field_high (k := 5) _ _ (by decide) rfl, field_high (k := 0) _ _ (by decide) rfl]; exact field_low _ _
  have h4 : flag W 9 = ta := by subst hW; unfold flag; rw [bit_high (k := 1) _ _ (by decide) rfl, bit_high (k := 0) _ _ (by decide) rfl]; exact bit_low _ _
  have h5 : fld W 25 7 = 2#7 := by subst hW; unfold fld; rw [field_high (k := 17) _ _ (by decide) rfl, field_high (k := 16) _ _ (by decide) rfl, field_high (k := 15) _ _ (by decide) rfl, field_high (k := 10) _ _ (by decide) rfl, field_high (k := 5) _ _ (by decide) rfl, field_high (k := 0) _ _ (by decide) rfl]; exact BitVec.extractLsb'_eq_self
  have h6 : fld W 0 8 = 2#8 := by subst hW; unfold fld; exact field_low _ _
  have hd : decodeMap .S W = .ok (.popc d a ta) := by
    change decodeS W = _
    unfold decodeS; rw [h5]
    change decodeS02 W = _
    unfold decodeS02; rw [h6]
    refine Eq.trans (b := zeroed (fld W 10 5 = 0 ∧ fld W 8 1 = 0) <| .ok (.popc (fld W 20 5) (fld W 15 5) (flag W 9))) rfl ?_
    rw [h0, h1, h2, h3, h4]; rfl
  unfold decode; rw [hd]; exact if_pos hf

theorem brev (d : BitVec 5) (a : BitVec 5) (ta : Bool) : Statement (.brev d a ta) := by
  intro k hk hf; cases hk; refine ⟨_, rfl, ?_⟩
  generalize hW : (2#7 ++ d ++ a ++ 0#5 ++ ofBool ta ++ 0#1 ++ 3#8 : Word32) = W
  have h0 : fld W 10 5 = 0#5 := by subst hW; unfold fld; rw [field_high (k := 2) _ _ (by decide) rfl, field_high (k := 1) _ _ (by decide) rfl, field_high (k := 0) _ _ (by decide) rfl]; exact field_low _ _
  have h1 : fld W 8 1 = 0#1 := by subst hW; unfold fld; rw [field_high (k := 0) _ _ (by decide) rfl]; exact field_low _ _
  have h2 : fld W 20 5 = d := by subst hW; unfold fld; rw [field_high (k := 12) _ _ (by decide) rfl, field_high (k := 11) _ _ (by decide) rfl, field_high (k := 10) _ _ (by decide) rfl, field_high (k := 5) _ _ (by decide) rfl, field_high (k := 0) _ _ (by decide) rfl]; exact field_low _ _
  have h3 : fld W 15 5 = a := by subst hW; unfold fld; rw [field_high (k := 7) _ _ (by decide) rfl, field_high (k := 6) _ _ (by decide) rfl, field_high (k := 5) _ _ (by decide) rfl, field_high (k := 0) _ _ (by decide) rfl]; exact field_low _ _
  have h4 : flag W 9 = ta := by subst hW; unfold flag; rw [bit_high (k := 1) _ _ (by decide) rfl, bit_high (k := 0) _ _ (by decide) rfl]; exact bit_low _ _
  have h5 : fld W 25 7 = 2#7 := by subst hW; unfold fld; rw [field_high (k := 17) _ _ (by decide) rfl, field_high (k := 16) _ _ (by decide) rfl, field_high (k := 15) _ _ (by decide) rfl, field_high (k := 10) _ _ (by decide) rfl, field_high (k := 5) _ _ (by decide) rfl, field_high (k := 0) _ _ (by decide) rfl]; exact BitVec.extractLsb'_eq_self
  have h6 : fld W 0 8 = 3#8 := by subst hW; unfold fld; exact field_low _ _
  have hd : decodeMap .S W = .ok (.brev d a ta) := by
    change decodeS W = _
    unfold decodeS; rw [h5]
    change decodeS02 W = _
    unfold decodeS02; rw [h6]
    refine Eq.trans (b := zeroed (fld W 10 5 = 0 ∧ fld W 8 1 = 0) <| .ok (.brev (fld W 20 5) (fld W 15 5) (flag W 9))) rfl ?_
    rw [h0, h1, h2, h3, h4]; rfl
  unfold decode; rw [hd]; exact if_pos hf

theorem sextb (d : BitVec 5) (a : BitVec 5) (ta : Bool) : Statement (.sextb d a ta) := by
  intro k hk hf; cases hk; refine ⟨_, rfl, ?_⟩
  generalize hW : (2#7 ++ d ++ a ++ 0#5 ++ ofBool ta ++ 0#1 ++ 4#8 : Word32) = W
  have h0 : fld W 10 5 = 0#5 := by subst hW; unfold fld; rw [field_high (k := 2) _ _ (by decide) rfl, field_high (k := 1) _ _ (by decide) rfl, field_high (k := 0) _ _ (by decide) rfl]; exact field_low _ _
  have h1 : fld W 8 1 = 0#1 := by subst hW; unfold fld; rw [field_high (k := 0) _ _ (by decide) rfl]; exact field_low _ _
  have h2 : fld W 20 5 = d := by subst hW; unfold fld; rw [field_high (k := 12) _ _ (by decide) rfl, field_high (k := 11) _ _ (by decide) rfl, field_high (k := 10) _ _ (by decide) rfl, field_high (k := 5) _ _ (by decide) rfl, field_high (k := 0) _ _ (by decide) rfl]; exact field_low _ _
  have h3 : fld W 15 5 = a := by subst hW; unfold fld; rw [field_high (k := 7) _ _ (by decide) rfl, field_high (k := 6) _ _ (by decide) rfl, field_high (k := 5) _ _ (by decide) rfl, field_high (k := 0) _ _ (by decide) rfl]; exact field_low _ _
  have h4 : flag W 9 = ta := by subst hW; unfold flag; rw [bit_high (k := 1) _ _ (by decide) rfl, bit_high (k := 0) _ _ (by decide) rfl]; exact bit_low _ _
  have h5 : fld W 25 7 = 2#7 := by subst hW; unfold fld; rw [field_high (k := 17) _ _ (by decide) rfl, field_high (k := 16) _ _ (by decide) rfl, field_high (k := 15) _ _ (by decide) rfl, field_high (k := 10) _ _ (by decide) rfl, field_high (k := 5) _ _ (by decide) rfl, field_high (k := 0) _ _ (by decide) rfl]; exact BitVec.extractLsb'_eq_self
  have h6 : fld W 0 8 = 4#8 := by subst hW; unfold fld; exact field_low _ _
  have hd : decodeMap .S W = .ok (.sextb d a ta) := by
    change decodeS W = _
    unfold decodeS; rw [h5]
    change decodeS02 W = _
    unfold decodeS02; rw [h6]
    refine Eq.trans (b := zeroed (fld W 10 5 = 0 ∧ fld W 8 1 = 0) <| .ok (.sextb (fld W 20 5) (fld W 15 5) (flag W 9))) rfl ?_
    rw [h0, h1, h2, h3, h4]; rfl
  unfold decode; rw [hd]; exact if_pos hf

theorem sexth (d : BitVec 5) (a : BitVec 5) (ta : Bool) : Statement (.sexth d a ta) := by
  intro k hk hf; cases hk; refine ⟨_, rfl, ?_⟩
  generalize hW : (2#7 ++ d ++ a ++ 0#5 ++ ofBool ta ++ 0#1 ++ 5#8 : Word32) = W
  have h0 : fld W 10 5 = 0#5 := by subst hW; unfold fld; rw [field_high (k := 2) _ _ (by decide) rfl, field_high (k := 1) _ _ (by decide) rfl, field_high (k := 0) _ _ (by decide) rfl]; exact field_low _ _
  have h1 : fld W 8 1 = 0#1 := by subst hW; unfold fld; rw [field_high (k := 0) _ _ (by decide) rfl]; exact field_low _ _
  have h2 : fld W 20 5 = d := by subst hW; unfold fld; rw [field_high (k := 12) _ _ (by decide) rfl, field_high (k := 11) _ _ (by decide) rfl, field_high (k := 10) _ _ (by decide) rfl, field_high (k := 5) _ _ (by decide) rfl, field_high (k := 0) _ _ (by decide) rfl]; exact field_low _ _
  have h3 : fld W 15 5 = a := by subst hW; unfold fld; rw [field_high (k := 7) _ _ (by decide) rfl, field_high (k := 6) _ _ (by decide) rfl, field_high (k := 5) _ _ (by decide) rfl, field_high (k := 0) _ _ (by decide) rfl]; exact field_low _ _
  have h4 : flag W 9 = ta := by subst hW; unfold flag; rw [bit_high (k := 1) _ _ (by decide) rfl, bit_high (k := 0) _ _ (by decide) rfl]; exact bit_low _ _
  have h5 : fld W 25 7 = 2#7 := by subst hW; unfold fld; rw [field_high (k := 17) _ _ (by decide) rfl, field_high (k := 16) _ _ (by decide) rfl, field_high (k := 15) _ _ (by decide) rfl, field_high (k := 10) _ _ (by decide) rfl, field_high (k := 5) _ _ (by decide) rfl, field_high (k := 0) _ _ (by decide) rfl]; exact BitVec.extractLsb'_eq_self
  have h6 : fld W 0 8 = 5#8 := by subst hW; unfold fld; exact field_low _ _
  have hd : decodeMap .S W = .ok (.sexth d a ta) := by
    change decodeS W = _
    unfold decodeS; rw [h5]
    change decodeS02 W = _
    unfold decodeS02; rw [h6]
    refine Eq.trans (b := zeroed (fld W 10 5 = 0 ∧ fld W 8 1 = 0) <| .ok (.sexth (fld W 20 5) (fld W 15 5) (flag W 9))) rfl ?_
    rw [h0, h1, h2, h3, h4]; rfl
  unfold decode; rw [hd]; exact if_pos hf

theorem sextw (d : BitVec 5) (a : BitVec 5) (ta : Bool) : Statement (.sextw d a ta) := by
  intro k hk hf; cases hk; refine ⟨_, rfl, ?_⟩
  generalize hW : (2#7 ++ d ++ a ++ 0#5 ++ ofBool ta ++ 0#1 ++ 6#8 : Word32) = W
  have h0 : fld W 10 5 = 0#5 := by subst hW; unfold fld; rw [field_high (k := 2) _ _ (by decide) rfl, field_high (k := 1) _ _ (by decide) rfl, field_high (k := 0) _ _ (by decide) rfl]; exact field_low _ _
  have h1 : fld W 8 1 = 0#1 := by subst hW; unfold fld; rw [field_high (k := 0) _ _ (by decide) rfl]; exact field_low _ _
  have h2 : fld W 20 5 = d := by subst hW; unfold fld; rw [field_high (k := 12) _ _ (by decide) rfl, field_high (k := 11) _ _ (by decide) rfl, field_high (k := 10) _ _ (by decide) rfl, field_high (k := 5) _ _ (by decide) rfl, field_high (k := 0) _ _ (by decide) rfl]; exact field_low _ _
  have h3 : fld W 15 5 = a := by subst hW; unfold fld; rw [field_high (k := 7) _ _ (by decide) rfl, field_high (k := 6) _ _ (by decide) rfl, field_high (k := 5) _ _ (by decide) rfl, field_high (k := 0) _ _ (by decide) rfl]; exact field_low _ _
  have h4 : flag W 9 = ta := by subst hW; unfold flag; rw [bit_high (k := 1) _ _ (by decide) rfl, bit_high (k := 0) _ _ (by decide) rfl]; exact bit_low _ _
  have h5 : fld W 25 7 = 2#7 := by subst hW; unfold fld; rw [field_high (k := 17) _ _ (by decide) rfl, field_high (k := 16) _ _ (by decide) rfl, field_high (k := 15) _ _ (by decide) rfl, field_high (k := 10) _ _ (by decide) rfl, field_high (k := 5) _ _ (by decide) rfl, field_high (k := 0) _ _ (by decide) rfl]; exact BitVec.extractLsb'_eq_self
  have h6 : fld W 0 8 = 6#8 := by subst hW; unfold fld; exact field_low _ _
  have hd : decodeMap .S W = .ok (.sextw d a ta) := by
    change decodeS W = _
    unfold decodeS; rw [h5]
    change decodeS02 W = _
    unfold decodeS02; rw [h6]
    refine Eq.trans (b := zeroed (fld W 10 5 = 0 ∧ fld W 8 1 = 0) <| .ok (.sextw (fld W 20 5) (fld W 15 5) (flag W 9))) rfl ?_
    rw [h0, h1, h2, h3, h4]; rfl
  unfold decode; rw [hd]; exact if_pos hf

theorem zextb (d : BitVec 5) (a : BitVec 5) (ta : Bool) : Statement (.zextb d a ta) := by
  intro k hk hf; cases hk; refine ⟨_, rfl, ?_⟩
  generalize hW : (2#7 ++ d ++ a ++ 0#5 ++ ofBool ta ++ 0#1 ++ 7#8 : Word32) = W
  have h0 : fld W 10 5 = 0#5 := by subst hW; unfold fld; rw [field_high (k := 2) _ _ (by decide) rfl, field_high (k := 1) _ _ (by decide) rfl, field_high (k := 0) _ _ (by decide) rfl]; exact field_low _ _
  have h1 : fld W 8 1 = 0#1 := by subst hW; unfold fld; rw [field_high (k := 0) _ _ (by decide) rfl]; exact field_low _ _
  have h2 : fld W 20 5 = d := by subst hW; unfold fld; rw [field_high (k := 12) _ _ (by decide) rfl, field_high (k := 11) _ _ (by decide) rfl, field_high (k := 10) _ _ (by decide) rfl, field_high (k := 5) _ _ (by decide) rfl, field_high (k := 0) _ _ (by decide) rfl]; exact field_low _ _
  have h3 : fld W 15 5 = a := by subst hW; unfold fld; rw [field_high (k := 7) _ _ (by decide) rfl, field_high (k := 6) _ _ (by decide) rfl, field_high (k := 5) _ _ (by decide) rfl, field_high (k := 0) _ _ (by decide) rfl]; exact field_low _ _
  have h4 : flag W 9 = ta := by subst hW; unfold flag; rw [bit_high (k := 1) _ _ (by decide) rfl, bit_high (k := 0) _ _ (by decide) rfl]; exact bit_low _ _
  have h5 : fld W 25 7 = 2#7 := by subst hW; unfold fld; rw [field_high (k := 17) _ _ (by decide) rfl, field_high (k := 16) _ _ (by decide) rfl, field_high (k := 15) _ _ (by decide) rfl, field_high (k := 10) _ _ (by decide) rfl, field_high (k := 5) _ _ (by decide) rfl, field_high (k := 0) _ _ (by decide) rfl]; exact BitVec.extractLsb'_eq_self
  have h6 : fld W 0 8 = 7#8 := by subst hW; unfold fld; exact field_low _ _
  have hd : decodeMap .S W = .ok (.zextb d a ta) := by
    change decodeS W = _
    unfold decodeS; rw [h5]
    change decodeS02 W = _
    unfold decodeS02; rw [h6]
    refine Eq.trans (b := zeroed (fld W 10 5 = 0 ∧ fld W 8 1 = 0) <| .ok (.zextb (fld W 20 5) (fld W 15 5) (flag W 9))) rfl ?_
    rw [h0, h1, h2, h3, h4]; rfl
  unfold decode; rw [hd]; exact if_pos hf

theorem zexth (d : BitVec 5) (a : BitVec 5) (ta : Bool) : Statement (.zexth d a ta) := by
  intro k hk hf; cases hk; refine ⟨_, rfl, ?_⟩
  generalize hW : (2#7 ++ d ++ a ++ 0#5 ++ ofBool ta ++ 0#1 ++ 8#8 : Word32) = W
  have h0 : fld W 10 5 = 0#5 := by subst hW; unfold fld; rw [field_high (k := 2) _ _ (by decide) rfl, field_high (k := 1) _ _ (by decide) rfl, field_high (k := 0) _ _ (by decide) rfl]; exact field_low _ _
  have h1 : fld W 8 1 = 0#1 := by subst hW; unfold fld; rw [field_high (k := 0) _ _ (by decide) rfl]; exact field_low _ _
  have h2 : fld W 20 5 = d := by subst hW; unfold fld; rw [field_high (k := 12) _ _ (by decide) rfl, field_high (k := 11) _ _ (by decide) rfl, field_high (k := 10) _ _ (by decide) rfl, field_high (k := 5) _ _ (by decide) rfl, field_high (k := 0) _ _ (by decide) rfl]; exact field_low _ _
  have h3 : fld W 15 5 = a := by subst hW; unfold fld; rw [field_high (k := 7) _ _ (by decide) rfl, field_high (k := 6) _ _ (by decide) rfl, field_high (k := 5) _ _ (by decide) rfl, field_high (k := 0) _ _ (by decide) rfl]; exact field_low _ _
  have h4 : flag W 9 = ta := by subst hW; unfold flag; rw [bit_high (k := 1) _ _ (by decide) rfl, bit_high (k := 0) _ _ (by decide) rfl]; exact bit_low _ _
  have h5 : fld W 25 7 = 2#7 := by subst hW; unfold fld; rw [field_high (k := 17) _ _ (by decide) rfl, field_high (k := 16) _ _ (by decide) rfl, field_high (k := 15) _ _ (by decide) rfl, field_high (k := 10) _ _ (by decide) rfl, field_high (k := 5) _ _ (by decide) rfl, field_high (k := 0) _ _ (by decide) rfl]; exact BitVec.extractLsb'_eq_self
  have h6 : fld W 0 8 = 8#8 := by subst hW; unfold fld; exact field_low _ _
  have hd : decodeMap .S W = .ok (.zexth d a ta) := by
    change decodeS W = _
    unfold decodeS; rw [h5]
    change decodeS02 W = _
    unfold decodeS02; rw [h6]
    refine Eq.trans (b := zeroed (fld W 10 5 = 0 ∧ fld W 8 1 = 0) <| .ok (.zexth (fld W 20 5) (fld W 15 5) (flag W 9))) rfl ?_
    rw [h0, h1, h2, h3, h4]; rfl
  unfold decode; rw [hd]; exact if_pos hf

theorem zextw (d : BitVec 5) (a : BitVec 5) (ta : Bool) : Statement (.zextw d a ta) := by
  intro k hk hf; cases hk; refine ⟨_, rfl, ?_⟩
  generalize hW : (2#7 ++ d ++ a ++ 0#5 ++ ofBool ta ++ 0#1 ++ 9#8 : Word32) = W
  have h0 : fld W 10 5 = 0#5 := by subst hW; unfold fld; rw [field_high (k := 2) _ _ (by decide) rfl, field_high (k := 1) _ _ (by decide) rfl, field_high (k := 0) _ _ (by decide) rfl]; exact field_low _ _
  have h1 : fld W 8 1 = 0#1 := by subst hW; unfold fld; rw [field_high (k := 0) _ _ (by decide) rfl]; exact field_low _ _
  have h2 : fld W 20 5 = d := by subst hW; unfold fld; rw [field_high (k := 12) _ _ (by decide) rfl, field_high (k := 11) _ _ (by decide) rfl, field_high (k := 10) _ _ (by decide) rfl, field_high (k := 5) _ _ (by decide) rfl, field_high (k := 0) _ _ (by decide) rfl]; exact field_low _ _
  have h3 : fld W 15 5 = a := by subst hW; unfold fld; rw [field_high (k := 7) _ _ (by decide) rfl, field_high (k := 6) _ _ (by decide) rfl, field_high (k := 5) _ _ (by decide) rfl, field_high (k := 0) _ _ (by decide) rfl]; exact field_low _ _
  have h4 : flag W 9 = ta := by subst hW; unfold flag; rw [bit_high (k := 1) _ _ (by decide) rfl, bit_high (k := 0) _ _ (by decide) rfl]; exact bit_low _ _
  have h5 : fld W 25 7 = 2#7 := by subst hW; unfold fld; rw [field_high (k := 17) _ _ (by decide) rfl, field_high (k := 16) _ _ (by decide) rfl, field_high (k := 15) _ _ (by decide) rfl, field_high (k := 10) _ _ (by decide) rfl, field_high (k := 5) _ _ (by decide) rfl, field_high (k := 0) _ _ (by decide) rfl]; exact BitVec.extractLsb'_eq_self
  have h6 : fld W 0 8 = 9#8 := by subst hW; unfold fld; exact field_low _ _
  have hd : decodeMap .S W = .ok (.zextw d a ta) := by
    change decodeS W = _
    unfold decodeS; rw [h5]
    change decodeS02 W = _
    unfold decodeS02; rw [h6]
    refine Eq.trans (b := zeroed (fld W 10 5 = 0 ∧ fld W 8 1 = 0) <| .ok (.zextw (fld W 20 5) (fld W 15 5) (flag W 9))) rfl ?_
    rw [h0, h1, h2, h3, h4]; rfl
  unfold decode; rw [hd]; exact if_pos hf

theorem mov (d : BitVec 5) (a : BitVec 5) (ta : Bool) : Statement (.mov d a ta) := by
  intro k hk hf; cases hk; refine ⟨_, rfl, ?_⟩
  generalize hW : (2#7 ++ d ++ a ++ 0#5 ++ ofBool ta ++ 0#1 ++ 0xa#8 : Word32) = W
  have h0 : fld W 10 5 = 0#5 := by subst hW; unfold fld; rw [field_high (k := 2) _ _ (by decide) rfl, field_high (k := 1) _ _ (by decide) rfl, field_high (k := 0) _ _ (by decide) rfl]; exact field_low _ _
  have h1 : fld W 8 1 = 0#1 := by subst hW; unfold fld; rw [field_high (k := 0) _ _ (by decide) rfl]; exact field_low _ _
  have h2 : fld W 20 5 = d := by subst hW; unfold fld; rw [field_high (k := 12) _ _ (by decide) rfl, field_high (k := 11) _ _ (by decide) rfl, field_high (k := 10) _ _ (by decide) rfl, field_high (k := 5) _ _ (by decide) rfl, field_high (k := 0) _ _ (by decide) rfl]; exact field_low _ _
  have h3 : fld W 15 5 = a := by subst hW; unfold fld; rw [field_high (k := 7) _ _ (by decide) rfl, field_high (k := 6) _ _ (by decide) rfl, field_high (k := 5) _ _ (by decide) rfl, field_high (k := 0) _ _ (by decide) rfl]; exact field_low _ _
  have h4 : flag W 9 = ta := by subst hW; unfold flag; rw [bit_high (k := 1) _ _ (by decide) rfl, bit_high (k := 0) _ _ (by decide) rfl]; exact bit_low _ _
  have h5 : fld W 25 7 = 2#7 := by subst hW; unfold fld; rw [field_high (k := 17) _ _ (by decide) rfl, field_high (k := 16) _ _ (by decide) rfl, field_high (k := 15) _ _ (by decide) rfl, field_high (k := 10) _ _ (by decide) rfl, field_high (k := 5) _ _ (by decide) rfl, field_high (k := 0) _ _ (by decide) rfl]; exact BitVec.extractLsb'_eq_self
  have h6 : fld W 0 8 = 0xa#8 := by subst hW; unfold fld; exact field_low _ _
  have hd : decodeMap .S W = .ok (.mov d a ta) := by
    change decodeS W = _
    unfold decodeS; rw [h5]
    change decodeS02 W = _
    unfold decodeS02; rw [h6]
    refine Eq.trans (b := zeroed (fld W 10 5 = 0 ∧ fld W 8 1 = 0) <| .ok (.mov (fld W 20 5) (fld W 15 5) (flag W 9))) rfl ?_
    rw [h0, h1, h2, h3, h4]; rfl
  unfold decode; rw [hd]; exact if_pos hf

theorem addi (d : BitVec 5) (a : BitVec 5) (ta : Bool) (imm : BitVec 14) : Statement (.addi d a ta imm) := by
  intro k hk hf; cases hk; refine ⟨_, rfl, ?_⟩
  generalize hW : (3#7 ++ d ++ a ++ ofBool ta ++ imm : Word32) = W
  have h0 : fld W 20 5 = d := by subst hW; unfold fld; rw [field_high (k := 6) _ _ (by decide) rfl, field_high (k := 5) _ _ (by decide) rfl, field_high (k := 0) _ _ (by decide) rfl]; exact field_low _ _
  have h1 : fld W 15 5 = a := by subst hW; unfold fld; rw [field_high (k := 1) _ _ (by decide) rfl, field_high (k := 0) _ _ (by decide) rfl]; exact field_low _ _
  have h2 : flag W 14 = ta := by subst hW; unfold flag; rw [bit_high (k := 0) _ _ (by decide) rfl]; exact bit_low _ _
  have h3 : fld W 0 14 = imm := by subst hW; unfold fld; exact field_low _ _
  have h4 : fld W 25 7 = 3#7 := by subst hW; unfold fld; rw [field_high (k := 11) _ _ (by decide) rfl, field_high (k := 10) _ _ (by decide) rfl, field_high (k := 5) _ _ (by decide) rfl, field_high (k := 0) _ _ (by decide) rfl]; exact BitVec.extractLsb'_eq_self
  have hd : decodeMap .S W = .ok (.addi d a ta imm) := by
    change decodeS W = _
    unfold decodeS; rw [h4]
    refine Eq.trans (b := Except.ok (.addi (fld W 20 5) (fld W 15 5) (flag W 14) (fld W 0 14))) rfl ?_
    rw [h0, h1, h2, h3]
  unfold decode; rw [hd]; exact if_pos hf

theorem andi (d : BitVec 5) (a : BitVec 5) (ta : Bool) (imm : BitVec 14) : Statement (.andi d a ta imm) := by
  intro k hk hf; cases hk; refine ⟨_, rfl, ?_⟩
  generalize hW : (4#7 ++ d ++ a ++ ofBool ta ++ imm : Word32) = W
  have h0 : fld W 20 5 = d := by subst hW; unfold fld; rw [field_high (k := 6) _ _ (by decide) rfl, field_high (k := 5) _ _ (by decide) rfl, field_high (k := 0) _ _ (by decide) rfl]; exact field_low _ _
  have h1 : fld W 15 5 = a := by subst hW; unfold fld; rw [field_high (k := 1) _ _ (by decide) rfl, field_high (k := 0) _ _ (by decide) rfl]; exact field_low _ _
  have h2 : flag W 14 = ta := by subst hW; unfold flag; rw [bit_high (k := 0) _ _ (by decide) rfl]; exact bit_low _ _
  have h3 : fld W 0 14 = imm := by subst hW; unfold fld; exact field_low _ _
  have h4 : fld W 25 7 = 4#7 := by subst hW; unfold fld; rw [field_high (k := 11) _ _ (by decide) rfl, field_high (k := 10) _ _ (by decide) rfl, field_high (k := 5) _ _ (by decide) rfl, field_high (k := 0) _ _ (by decide) rfl]; exact BitVec.extractLsb'_eq_self
  have hd : decodeMap .S W = .ok (.andi d a ta imm) := by
    change decodeS W = _
    unfold decodeS; rw [h4]
    refine Eq.trans (b := Except.ok (.andi (fld W 20 5) (fld W 15 5) (flag W 14) (fld W 0 14))) rfl ?_
    rw [h0, h1, h2, h3]
  unfold decode; rw [hd]; exact if_pos hf

theorem ori (d : BitVec 5) (a : BitVec 5) (ta : Bool) (imm : BitVec 14) : Statement (.ori d a ta imm) := by
  intro k hk hf; cases hk; refine ⟨_, rfl, ?_⟩
  generalize hW : (5#7 ++ d ++ a ++ ofBool ta ++ imm : Word32) = W
  have h0 : fld W 20 5 = d := by subst hW; unfold fld; rw [field_high (k := 6) _ _ (by decide) rfl, field_high (k := 5) _ _ (by decide) rfl, field_high (k := 0) _ _ (by decide) rfl]; exact field_low _ _
  have h1 : fld W 15 5 = a := by subst hW; unfold fld; rw [field_high (k := 1) _ _ (by decide) rfl, field_high (k := 0) _ _ (by decide) rfl]; exact field_low _ _
  have h2 : flag W 14 = ta := by subst hW; unfold flag; rw [bit_high (k := 0) _ _ (by decide) rfl]; exact bit_low _ _
  have h3 : fld W 0 14 = imm := by subst hW; unfold fld; exact field_low _ _
  have h4 : fld W 25 7 = 5#7 := by subst hW; unfold fld; rw [field_high (k := 11) _ _ (by decide) rfl, field_high (k := 10) _ _ (by decide) rfl, field_high (k := 5) _ _ (by decide) rfl, field_high (k := 0) _ _ (by decide) rfl]; exact BitVec.extractLsb'_eq_self
  have hd : decodeMap .S W = .ok (.ori d a ta imm) := by
    change decodeS W = _
    unfold decodeS; rw [h4]
    refine Eq.trans (b := Except.ok (.ori (fld W 20 5) (fld W 15 5) (flag W 14) (fld W 0 14))) rfl ?_
    rw [h0, h1, h2, h3]
  unfold decode; rw [hd]; exact if_pos hf

theorem xori (d : BitVec 5) (a : BitVec 5) (ta : Bool) (imm : BitVec 14) : Statement (.xori d a ta imm) := by
  intro k hk hf; cases hk; refine ⟨_, rfl, ?_⟩
  generalize hW : (6#7 ++ d ++ a ++ ofBool ta ++ imm : Word32) = W
  have h0 : fld W 20 5 = d := by subst hW; unfold fld; rw [field_high (k := 6) _ _ (by decide) rfl, field_high (k := 5) _ _ (by decide) rfl, field_high (k := 0) _ _ (by decide) rfl]; exact field_low _ _
  have h1 : fld W 15 5 = a := by subst hW; unfold fld; rw [field_high (k := 1) _ _ (by decide) rfl, field_high (k := 0) _ _ (by decide) rfl]; exact field_low _ _
  have h2 : flag W 14 = ta := by subst hW; unfold flag; rw [bit_high (k := 0) _ _ (by decide) rfl]; exact bit_low _ _
  have h3 : fld W 0 14 = imm := by subst hW; unfold fld; exact field_low _ _
  have h4 : fld W 25 7 = 6#7 := by subst hW; unfold fld; rw [field_high (k := 11) _ _ (by decide) rfl, field_high (k := 10) _ _ (by decide) rfl, field_high (k := 5) _ _ (by decide) rfl, field_high (k := 0) _ _ (by decide) rfl]; exact BitVec.extractLsb'_eq_self
  have hd : decodeMap .S W = .ok (.xori d a ta imm) := by
    change decodeS W = _
    unfold decodeS; rw [h4]
    refine Eq.trans (b := Except.ok (.xori (fld W 20 5) (fld W 15 5) (flag W 14) (fld W 0 14))) rfl ?_
    rw [h0, h1, h2, h3]
  unfold decode; rw [hd]; exact if_pos hf

theorem shli (d : BitVec 5) (a : BitVec 5) (ta : Bool) (sh : BitVec 6) : Statement (.shli d a ta sh) := by
  intro k hk hf; cases hk; refine ⟨_, rfl, ?_⟩
  generalize hW : (7#7 ++ d ++ a ++ ofBool ta ++ 0#8 ++ sh : Word32) = W
  have h0 : fld W 6 8 = 0#8 := by subst hW; unfold fld; rw [field_high (k := 0) _ _ (by decide) rfl]; exact field_low _ _
  have h1 : fld W 20 5 = d := by subst hW; unfold fld; rw [field_high (k := 14) _ _ (by decide) rfl, field_high (k := 6) _ _ (by decide) rfl, field_high (k := 5) _ _ (by decide) rfl, field_high (k := 0) _ _ (by decide) rfl]; exact field_low _ _
  have h2 : fld W 15 5 = a := by subst hW; unfold fld; rw [field_high (k := 9) _ _ (by decide) rfl, field_high (k := 1) _ _ (by decide) rfl, field_high (k := 0) _ _ (by decide) rfl]; exact field_low _ _
  have h3 : flag W 14 = ta := by subst hW; unfold flag; rw [bit_high (k := 8) _ _ (by decide) rfl, bit_high (k := 0) _ _ (by decide) rfl]; exact bit_low _ _
  have h4 : fld W 0 6 = sh := by subst hW; unfold fld; exact field_low _ _
  have h5 : fld W 25 7 = 7#7 := by subst hW; unfold fld; rw [field_high (k := 19) _ _ (by decide) rfl, field_high (k := 11) _ _ (by decide) rfl, field_high (k := 10) _ _ (by decide) rfl, field_high (k := 5) _ _ (by decide) rfl, field_high (k := 0) _ _ (by decide) rfl]; exact BitVec.extractLsb'_eq_self
  have hd : decodeMap .S W = .ok (.shli d a ta sh) := by
    change decodeS W = _
    unfold decodeS; rw [h5]
    refine Eq.trans (b := zeroed (fld W 6 8 = 0) <| .ok (.shli (fld W 20 5) (fld W 15 5) (flag W 14) (fld W 0 6))) rfl ?_
    rw [h0, h1, h2, h3, h4]; rfl
  unfold decode; rw [hd]; exact if_pos hf

theorem shri (d : BitVec 5) (a : BitVec 5) (ta : Bool) (sh : BitVec 6) : Statement (.shri d a ta sh) := by
  intro k hk hf; cases hk; refine ⟨_, rfl, ?_⟩
  generalize hW : (8#7 ++ d ++ a ++ ofBool ta ++ 0#8 ++ sh : Word32) = W
  have h0 : fld W 6 8 = 0#8 := by subst hW; unfold fld; rw [field_high (k := 0) _ _ (by decide) rfl]; exact field_low _ _
  have h1 : fld W 20 5 = d := by subst hW; unfold fld; rw [field_high (k := 14) _ _ (by decide) rfl, field_high (k := 6) _ _ (by decide) rfl, field_high (k := 5) _ _ (by decide) rfl, field_high (k := 0) _ _ (by decide) rfl]; exact field_low _ _
  have h2 : fld W 15 5 = a := by subst hW; unfold fld; rw [field_high (k := 9) _ _ (by decide) rfl, field_high (k := 1) _ _ (by decide) rfl, field_high (k := 0) _ _ (by decide) rfl]; exact field_low _ _
  have h3 : flag W 14 = ta := by subst hW; unfold flag; rw [bit_high (k := 8) _ _ (by decide) rfl, bit_high (k := 0) _ _ (by decide) rfl]; exact bit_low _ _
  have h4 : fld W 0 6 = sh := by subst hW; unfold fld; exact field_low _ _
  have h5 : fld W 25 7 = 8#7 := by subst hW; unfold fld; rw [field_high (k := 19) _ _ (by decide) rfl, field_high (k := 11) _ _ (by decide) rfl, field_high (k := 10) _ _ (by decide) rfl, field_high (k := 5) _ _ (by decide) rfl, field_high (k := 0) _ _ (by decide) rfl]; exact BitVec.extractLsb'_eq_self
  have hd : decodeMap .S W = .ok (.shri d a ta sh) := by
    change decodeS W = _
    unfold decodeS; rw [h5]
    refine Eq.trans (b := zeroed (fld W 6 8 = 0) <| .ok (.shri (fld W 20 5) (fld W 15 5) (flag W 14) (fld W 0 6))) rfl ?_
    rw [h0, h1, h2, h3, h4]; rfl
  unfold decode; rw [hd]; exact if_pos hf

theorem srai (d : BitVec 5) (a : BitVec 5) (ta : Bool) (sh : BitVec 6) : Statement (.srai d a ta sh) := by
  intro k hk hf; cases hk; refine ⟨_, rfl, ?_⟩
  generalize hW : (9#7 ++ d ++ a ++ ofBool ta ++ 0#8 ++ sh : Word32) = W
  have h0 : fld W 6 8 = 0#8 := by subst hW; unfold fld; rw [field_high (k := 0) _ _ (by decide) rfl]; exact field_low _ _
  have h1 : fld W 20 5 = d := by subst hW; unfold fld; rw [field_high (k := 14) _ _ (by decide) rfl, field_high (k := 6) _ _ (by decide) rfl, field_high (k := 5) _ _ (by decide) rfl, field_high (k := 0) _ _ (by decide) rfl]; exact field_low _ _
  have h2 : fld W 15 5 = a := by subst hW; unfold fld; rw [field_high (k := 9) _ _ (by decide) rfl, field_high (k := 1) _ _ (by decide) rfl, field_high (k := 0) _ _ (by decide) rfl]; exact field_low _ _
  have h3 : flag W 14 = ta := by subst hW; unfold flag; rw [bit_high (k := 8) _ _ (by decide) rfl, bit_high (k := 0) _ _ (by decide) rfl]; exact bit_low _ _
  have h4 : fld W 0 6 = sh := by subst hW; unfold fld; exact field_low _ _
  have h5 : fld W 25 7 = 9#7 := by subst hW; unfold fld; rw [field_high (k := 19) _ _ (by decide) rfl, field_high (k := 11) _ _ (by decide) rfl, field_high (k := 10) _ _ (by decide) rfl, field_high (k := 5) _ _ (by decide) rfl, field_high (k := 0) _ _ (by decide) rfl]; exact BitVec.extractLsb'_eq_self
  have hd : decodeMap .S W = .ok (.srai d a ta sh) := by
    change decodeS W = _
    unfold decodeS; rw [h5]
    refine Eq.trans (b := zeroed (fld W 6 8 = 0) <| .ok (.srai (fld W 20 5) (fld W 15 5) (flag W 14) (fld W 0 6))) rfl ?_
    rw [h0, h1, h2, h3, h4]; rfl
  unfold decode; rw [hd]; exact if_pos hf

theorem li (d : BitVec 5) (imm : BitVec 20) : Statement (.li d imm) := by
  intro k hk hf; cases hk; refine ⟨_, rfl, ?_⟩
  generalize hW : (0xa#7 ++ d ++ imm : Word32) = W
  have h0 : fld W 20 5 = d := by subst hW; unfold fld; rw [field_high (k := 0) _ _ (by decide) rfl]; exact field_low _ _
  have h1 : fld W 0 20 = imm := by subst hW; unfold fld; exact field_low _ _
  have h2 : fld W 25 7 = 0xa#7 := by subst hW; unfold fld; rw [field_high (k := 5) _ _ (by decide) rfl, field_high (k := 0) _ _ (by decide) rfl]; exact BitVec.extractLsb'_eq_self
  have hd : decodeMap .S W = .ok (.li d imm) := by
    change decodeS W = _
    unfold decodeS; rw [h2]
    refine Eq.trans (b := Except.ok (.li (fld W 20 5) (fld W 0 20))) rfl ?_
    rw [h0, h1]
  unfold decode; rw [hd]; exact if_pos hf

theorem liu (d : BitVec 5) (imm : BitVec 20) : Statement (.liu d imm) := by
  intro k hk hf; cases hk; refine ⟨_, rfl, ?_⟩
  generalize hW : (0xb#7 ++ d ++ imm : Word32) = W
  have h0 : fld W 20 5 = d := by subst hW; unfold fld; rw [field_high (k := 0) _ _ (by decide) rfl]; exact field_low _ _
  have h1 : fld W 0 20 = imm := by subst hW; unfold fld; exact field_low _ _
  have h2 : fld W 25 7 = 0xb#7 := by subst hW; unfold fld; rw [field_high (k := 5) _ _ (by decide) rfl, field_high (k := 0) _ _ (by decide) rfl]; exact BitVec.extractLsb'_eq_self
  have hd : decodeMap .S W = .ok (.liu d imm) := by
    change decodeS W = _
    unfold decodeS; rw [h2]
    refine Eq.trans (b := Except.ok (.liu (fld W 20 5) (fld W 0 20))) rfl ?_
    rw [h0, h1]
  unfold decode; rw [hd]; exact if_pos hf

theorem bfx (d : BitVec 5) (a : BitVec 5) (ta : Bool) (p : BitVec 6) (wm1 : BitVec 6) : Statement (.bfx d a ta p wm1) := by
  intro k hk hf; cases hk; refine ⟨_, rfl, ?_⟩
  generalize hW : (0xc#7 ++ d ++ a ++ ofBool ta ++ 0#2 ++ wm1 ++ p : Word32) = W
  have h0 : fld W 12 2 = 0#2 := by subst hW; unfold fld; rw [field_high (k := 6) _ _ (by decide) rfl, field_high (k := 0) _ _ (by decide) rfl]; exact field_low _ _
  have h1 : fld W 20 5 = d := by subst hW; unfold fld; rw [field_high (k := 14) _ _ (by decide) rfl, field_high (k := 8) _ _ (by decide) rfl, field_high (k := 6) _ _ (by decide) rfl, field_high (k := 5) _ _ (by decide) rfl, field_high (k := 0) _ _ (by decide) rfl]; exact field_low _ _
  have h2 : fld W 15 5 = a := by subst hW; unfold fld; rw [field_high (k := 9) _ _ (by decide) rfl, field_high (k := 3) _ _ (by decide) rfl, field_high (k := 1) _ _ (by decide) rfl, field_high (k := 0) _ _ (by decide) rfl]; exact field_low _ _
  have h3 : flag W 14 = ta := by subst hW; unfold flag; rw [bit_high (k := 8) _ _ (by decide) rfl, bit_high (k := 2) _ _ (by decide) rfl, bit_high (k := 0) _ _ (by decide) rfl]; exact bit_low _ _
  have h4 : fld W 0 6 = p := by subst hW; unfold fld; exact field_low _ _
  have h5 : fld W 6 6 = wm1 := by subst hW; unfold fld; rw [field_high (k := 0) _ _ (by decide) rfl]; exact field_low _ _
  have h6 : fld W 25 7 = 0xc#7 := by subst hW; unfold fld; rw [field_high (k := 19) _ _ (by decide) rfl, field_high (k := 13) _ _ (by decide) rfl, field_high (k := 11) _ _ (by decide) rfl, field_high (k := 10) _ _ (by decide) rfl, field_high (k := 5) _ _ (by decide) rfl, field_high (k := 0) _ _ (by decide) rfl]; exact BitVec.extractLsb'_eq_self
  have hd : decodeMap .S W = .ok (.bfx d a ta p wm1) := by
    change decodeS W = _
    unfold decodeS; rw [h6]
    refine Eq.trans (b := zeroed (fld W 12 2 = 0) <| .ok (.bfx (fld W 20 5) (fld W 15 5) (flag W 14) (fld W 0 6) (fld W 6 6))) rfl ?_
    rw [h0, h1, h2, h3, h4, h5]; rfl
  unfold decode; rw [hd]; exact if_pos hf

theorem bfi (d : BitVec 5) (a : BitVec 5) (ta : Bool) (p : BitVec 6) (wm1 : BitVec 6) : Statement (.bfi d a ta p wm1) := by
  intro k hk hf; cases hk; refine ⟨_, rfl, ?_⟩
  generalize hW : (0xd#7 ++ d ++ a ++ ofBool ta ++ 0#2 ++ wm1 ++ p : Word32) = W
  have h0 : fld W 12 2 = 0#2 := by subst hW; unfold fld; rw [field_high (k := 6) _ _ (by decide) rfl, field_high (k := 0) _ _ (by decide) rfl]; exact field_low _ _
  have h1 : fld W 20 5 = d := by subst hW; unfold fld; rw [field_high (k := 14) _ _ (by decide) rfl, field_high (k := 8) _ _ (by decide) rfl, field_high (k := 6) _ _ (by decide) rfl, field_high (k := 5) _ _ (by decide) rfl, field_high (k := 0) _ _ (by decide) rfl]; exact field_low _ _
  have h2 : fld W 15 5 = a := by subst hW; unfold fld; rw [field_high (k := 9) _ _ (by decide) rfl, field_high (k := 3) _ _ (by decide) rfl, field_high (k := 1) _ _ (by decide) rfl, field_high (k := 0) _ _ (by decide) rfl]; exact field_low _ _
  have h3 : flag W 14 = ta := by subst hW; unfold flag; rw [bit_high (k := 8) _ _ (by decide) rfl, bit_high (k := 2) _ _ (by decide) rfl, bit_high (k := 0) _ _ (by decide) rfl]; exact bit_low _ _
  have h4 : fld W 0 6 = p := by subst hW; unfold fld; exact field_low _ _
  have h5 : fld W 6 6 = wm1 := by subst hW; unfold fld; rw [field_high (k := 0) _ _ (by decide) rfl]; exact field_low _ _
  have h6 : fld W 25 7 = 0xd#7 := by subst hW; unfold fld; rw [field_high (k := 19) _ _ (by decide) rfl, field_high (k := 13) _ _ (by decide) rfl, field_high (k := 11) _ _ (by decide) rfl, field_high (k := 10) _ _ (by decide) rfl, field_high (k := 5) _ _ (by decide) rfl, field_high (k := 0) _ _ (by decide) rfl]; exact BitVec.extractLsb'_eq_self
  have hd : decodeMap .S W = .ok (.bfi d a ta p wm1) := by
    change decodeS W = _
    unfold decodeS; rw [h6]
    refine Eq.trans (b := zeroed (fld W 12 2 = 0) <| .ok (.bfi (fld W 20 5) (fld W 15 5) (flag W 14) (fld W 0 6) (fld W 6 6))) rfl ?_
    rw [h0, h1, h2, h3, h4, h5]; rfl
  unfold decode; rw [hd]; exact if_pos hf

theorem fsh (d : BitVec 5) (a : BitVec 5) (b : BitVec 5) (ta : Bool) (tb : Bool) (c : BitVec 5) : Statement (.fsh d a b ta tb c) := by
  intro k hk hf; cases hk; refine ⟨_, rfl, ?_⟩
  generalize hW : (0xe#7 ++ d ++ a ++ b ++ ofBool ta ++ ofBool tb ++ 0#3 ++ c : Word32) = W
  have h0 : fld W 5 3 = 0#3 := by subst hW; unfold fld; rw [field_high (k := 0) _ _ (by decide) rfl]; exact field_low _ _
  have h1 : fld W 20 5 = d := by subst hW; unfold fld; rw [field_high (k := 15) _ _ (by decide) rfl, field_high (k := 12) _ _ (by decide) rfl, field_high (k := 11) _ _ (by decide) rfl, field_high (k := 10) _ _ (by decide) rfl, field_high (k := 5) _ _ (by decide) rfl, field_high (k := 0) _ _ (by decide) rfl]; exact field_low _ _
  have h2 : fld W 15 5 = a := by subst hW; unfold fld; rw [field_high (k := 10) _ _ (by decide) rfl, field_high (k := 7) _ _ (by decide) rfl, field_high (k := 6) _ _ (by decide) rfl, field_high (k := 5) _ _ (by decide) rfl, field_high (k := 0) _ _ (by decide) rfl]; exact field_low _ _
  have h3 : fld W 10 5 = b := by subst hW; unfold fld; rw [field_high (k := 5) _ _ (by decide) rfl, field_high (k := 2) _ _ (by decide) rfl, field_high (k := 1) _ _ (by decide) rfl, field_high (k := 0) _ _ (by decide) rfl]; exact field_low _ _
  have h4 : flag W 9 = ta := by subst hW; unfold flag; rw [bit_high (k := 4) _ _ (by decide) rfl, bit_high (k := 1) _ _ (by decide) rfl, bit_high (k := 0) _ _ (by decide) rfl]; exact bit_low _ _
  have h5 : flag W 8 = tb := by subst hW; unfold flag; rw [bit_high (k := 3) _ _ (by decide) rfl, bit_high (k := 0) _ _ (by decide) rfl]; exact bit_low _ _
  have h6 : fld W 0 5 = c := by subst hW; unfold fld; exact field_low _ _
  have h7 : fld W 25 7 = 0xe#7 := by subst hW; unfold fld; rw [field_high (k := 20) _ _ (by decide) rfl, field_high (k := 17) _ _ (by decide) rfl, field_high (k := 16) _ _ (by decide) rfl, field_high (k := 15) _ _ (by decide) rfl, field_high (k := 10) _ _ (by decide) rfl, field_high (k := 5) _ _ (by decide) rfl, field_high (k := 0) _ _ (by decide) rfl]; exact BitVec.extractLsb'_eq_self
  have hd : decodeMap .S W = .ok (.fsh d a b ta tb c) := by
    change decodeS W = _
    unfold decodeS; rw [h7]
    refine Eq.trans (b := zeroed (fld W 5 3 = 0) <| .ok (.fsh (fld W 20 5) (fld W 15 5) (fld W 10 5) (flag W 9) (flag W 8) (fld W 0 5))) rfl ?_
    rw [h0, h1, h2, h3, h4, h5, h6]; rfl
  unfold decode; rw [hd]; exact if_pos hf

theorem fshi (d : BitVec 5) (a : BitVec 5) (b : BitVec 5) (ta : Bool) (tb : Bool) (n : BitVec 6) : Statement (.fshi d a b ta tb n) := by
  intro k hk hf; cases hk; refine ⟨_, rfl, ?_⟩
  generalize hW : (0xf#7 ++ d ++ a ++ b ++ ofBool ta ++ ofBool tb ++ 0#2 ++ n : Word32) = W
  have h0 : fld W 6 2 = 0#2 := by subst hW; unfold fld; rw [field_high (k := 0) _ _ (by decide) rfl]; exact field_low _ _
  have h1 : fld W 20 5 = d := by subst hW; unfold fld; rw [field_high (k := 14) _ _ (by decide) rfl, field_high (k := 12) _ _ (by decide) rfl, field_high (k := 11) _ _ (by decide) rfl, field_high (k := 10) _ _ (by decide) rfl, field_high (k := 5) _ _ (by decide) rfl, field_high (k := 0) _ _ (by decide) rfl]; exact field_low _ _
  have h2 : fld W 15 5 = a := by subst hW; unfold fld; rw [field_high (k := 9) _ _ (by decide) rfl, field_high (k := 7) _ _ (by decide) rfl, field_high (k := 6) _ _ (by decide) rfl, field_high (k := 5) _ _ (by decide) rfl, field_high (k := 0) _ _ (by decide) rfl]; exact field_low _ _
  have h3 : fld W 10 5 = b := by subst hW; unfold fld; rw [field_high (k := 4) _ _ (by decide) rfl, field_high (k := 2) _ _ (by decide) rfl, field_high (k := 1) _ _ (by decide) rfl, field_high (k := 0) _ _ (by decide) rfl]; exact field_low _ _
  have h4 : flag W 9 = ta := by subst hW; unfold flag; rw [bit_high (k := 3) _ _ (by decide) rfl, bit_high (k := 1) _ _ (by decide) rfl, bit_high (k := 0) _ _ (by decide) rfl]; exact bit_low _ _
  have h5 : flag W 8 = tb := by subst hW; unfold flag; rw [bit_high (k := 2) _ _ (by decide) rfl, bit_high (k := 0) _ _ (by decide) rfl]; exact bit_low _ _
  have h6 : fld W 0 6 = n := by subst hW; unfold fld; exact field_low _ _
  have h7 : fld W 25 7 = 0xf#7 := by subst hW; unfold fld; rw [field_high (k := 19) _ _ (by decide) rfl, field_high (k := 17) _ _ (by decide) rfl, field_high (k := 16) _ _ (by decide) rfl, field_high (k := 15) _ _ (by decide) rfl, field_high (k := 10) _ _ (by decide) rfl, field_high (k := 5) _ _ (by decide) rfl, field_high (k := 0) _ _ (by decide) rfl]; exact BitVec.extractLsb'_eq_self
  have hd : decodeMap .S W = .ok (.fshi d a b ta tb n) := by
    change decodeS W = _
    unfold decodeS; rw [h7]
    refine Eq.trans (b := zeroed (fld W 6 2 = 0) <| .ok (.fshi (fld W 20 5) (fld W 15 5) (fld W 10 5) (flag W 9) (flag W 8) (fld W 0 6))) rfl ?_
    rw [h0, h1, h2, h3, h4, h5, h6]; rfl
  unfold decode; rw [hd]; exact if_pos hf

theorem scmp (p : BitVec 4) (a : BitVec 5) (b : BitVec 5) (ta : Bool) (tb : Bool) (cc : SCond) : Statement (.scmp p a b ta tb cc) := by
  intro k hk hf; cases hk; refine ⟨_, rfl, ?_⟩
  generalize hW : (0x10#7 ++ 0#1 ++ p ++ a ++ b ++ ofBool ta ++ ofBool tb ++ 0#4 ++ ofNat 4 cc.code : Word32) = W
  have h0 : fld W 24 1 = 0#1 := by subst hW; unfold fld; rw [field_high (k := 20) _ _ (by decide) rfl, field_high (k := 16) _ _ (by decide) rfl, field_high (k := 15) _ _ (by decide) rfl, field_high (k := 14) _ _ (by decide) rfl, field_high (k := 9) _ _ (by decide) rfl, field_high (k := 4) _ _ (by decide) rfl, field_high (k := 0) _ _ (by decide) rfl]; exact field_low _ _
  have h1 : fld W 4 4 = 0#4 := by subst hW; unfold fld; rw [field_high (k := 0) _ _ (by decide) rfl]; exact field_low _ _
  have h2 : fld W 0 4 = ofNat 4 cc.code := by subst hW; unfold fld; exact field_low _ _
  have h3 : fld W 20 4 = p := by subst hW; unfold fld; rw [field_high (k := 16) _ _ (by decide) rfl, field_high (k := 12) _ _ (by decide) rfl, field_high (k := 11) _ _ (by decide) rfl, field_high (k := 10) _ _ (by decide) rfl, field_high (k := 5) _ _ (by decide) rfl, field_high (k := 0) _ _ (by decide) rfl]; exact field_low _ _
  have h4 : fld W 15 5 = a := by subst hW; unfold fld; rw [field_high (k := 11) _ _ (by decide) rfl, field_high (k := 7) _ _ (by decide) rfl, field_high (k := 6) _ _ (by decide) rfl, field_high (k := 5) _ _ (by decide) rfl, field_high (k := 0) _ _ (by decide) rfl]; exact field_low _ _
  have h5 : fld W 10 5 = b := by subst hW; unfold fld; rw [field_high (k := 6) _ _ (by decide) rfl, field_high (k := 2) _ _ (by decide) rfl, field_high (k := 1) _ _ (by decide) rfl, field_high (k := 0) _ _ (by decide) rfl]; exact field_low _ _
  have h6 : flag W 9 = ta := by subst hW; unfold flag; rw [bit_high (k := 5) _ _ (by decide) rfl, bit_high (k := 1) _ _ (by decide) rfl, bit_high (k := 0) _ _ (by decide) rfl]; exact bit_low _ _
  have h7 : flag W 8 = tb := by subst hW; unfold flag; rw [bit_high (k := 4) _ _ (by decide) rfl, bit_high (k := 0) _ _ (by decide) rfl]; exact bit_low _ _
  have h8 : fld W 25 7 = 0x10#7 := by subst hW; unfold fld; rw [field_high (k := 21) _ _ (by decide) rfl, field_high (k := 17) _ _ (by decide) rfl, field_high (k := 16) _ _ (by decide) rfl, field_high (k := 15) _ _ (by decide) rfl, field_high (k := 10) _ _ (by decide) rfl, field_high (k := 5) _ _ (by decide) rfl, field_high (k := 1) _ _ (by decide) rfl, field_high (k := 0) _ _ (by decide) rfl]; exact BitVec.extractLsb'_eq_self
  have ch2 : SCond.ofCode? (fld W 0 4).toNat = some cc := by rw [h2]; cases cc <;> rfl
  have hd : decodeMap .S W = .ok (.scmp p a b ta tb cc) := by
    change decodeS W = _
    unfold decodeS; rw [h8]
    refine Eq.trans (b := zeroed (fld W 24 1 = 0 ∧ fld W 4 4 = 0) <| reading (SCond.ofCode? (fld W 0 4).toNat) fun cc => .ok (.scmp (fld W 20 4) (fld W 15 5) (fld W 10 5) (flag W 9) (flag W 8) cc)) rfl ?_
    rw [ch2, h0, h1, h3, h4, h5, h6, h7]; rfl
  unfold decode; rw [hd]; exact if_pos hf

theorem scmpi (p : BitVec 4) (a : BitVec 5) (ta : Bool) (cc : SCond) (imm : BitVec 11) : Statement (.scmpi p a ta cc imm) := by
  intro k hk hf; cases hk; refine ⟨_, rfl, ?_⟩
  generalize hW : (0x11#7 ++ 0#1 ++ p ++ a ++ ofBool ta ++ ofNat 3 cc.code ++ imm : Word32) = W
  have h0 : fld W 24 1 = 0#1 := by subst hW; unfold fld; rw [field_high (k := 13) _ _ (by decide) rfl, field_high (k := 10) _ _ (by decide) rfl, field_high (k := 9) _ _ (by decide) rfl, field_high (k := 4) _ _ (by decide) rfl, field_high (k := 0) _ _ (by decide) rfl]; exact field_low _ _
  have h1 : fld W 11 3 = ofNat 3 cc.code := by subst hW; unfold fld; rw [field_high (k := 0) _ _ (by decide) rfl]; exact field_low _ _
  have h2 : fld W 20 4 = p := by subst hW; unfold fld; rw [field_high (k := 9) _ _ (by decide) rfl, field_high (k := 6) _ _ (by decide) rfl, field_high (k := 5) _ _ (by decide) rfl, field_high (k := 0) _ _ (by decide) rfl]; exact field_low _ _
  have h3 : fld W 15 5 = a := by subst hW; unfold fld; rw [field_high (k := 4) _ _ (by decide) rfl, field_high (k := 1) _ _ (by decide) rfl, field_high (k := 0) _ _ (by decide) rfl]; exact field_low _ _
  have h4 : flag W 14 = ta := by subst hW; unfold flag; rw [bit_high (k := 3) _ _ (by decide) rfl, bit_high (k := 0) _ _ (by decide) rfl]; exact bit_low _ _
  have h5 : fld W 0 11 = imm := by subst hW; unfold fld; exact field_low _ _
  have h6 : fld W 25 7 = 0x11#7 := by subst hW; unfold fld; rw [field_high (k := 14) _ _ (by decide) rfl, field_high (k := 11) _ _ (by decide) rfl, field_high (k := 10) _ _ (by decide) rfl, field_high (k := 5) _ _ (by decide) rfl, field_high (k := 1) _ _ (by decide) rfl, field_high (k := 0) _ _ (by decide) rfl]; exact BitVec.extractLsb'_eq_self
  have ch1 : SCond.ofCode? (fld W 11 3).toNat = some cc := by rw [h1]; cases cc <;> rfl
  have hd : decodeMap .S W = .ok (.scmpi p a ta cc imm) := by
    change decodeS W = _
    unfold decodeS; rw [h6]
    refine Eq.trans (b := zeroed (fld W 24 1 = 0) <| reading (SCond.ofCode? (fld W 11 3).toNat) fun cc => .ok (.scmpi (fld W 20 4) (fld W 15 5) (flag W 14) cc (fld W 0 11))) rfl ?_
    rw [ch1, h0, h2, h3, h4, h5]; rfl
  unfold decode; rw [hd]; exact if_pos hf

theorem plog (p : BitVec 4) (pa : BitVec 4) (pb : BitVec 4) (f : PLogOp) : Statement (.plog p pa pb f) := by
  intro k hk hf; cases hk; refine ⟨_, rfl, ?_⟩
  generalize hW : (0x12#7 ++ 0#1 ++ p ++ 0#1 ++ pa ++ 0#1 ++ pb ++ 0#2 ++ ofNat 8 f.code : Word32) = W
  have h0 : fld W 24 1 = 0#1 := by subst hW; unfold fld; rw [field_high (k := 16) _ _ (by decide) rfl, field_high (k := 14) _ _ (by decide) rfl, field_high (k := 10) _ _ (by decide) rfl, field_high (k := 9) _ _ (by decide) rfl, field_high (k := 5) _ _ (by decide) rfl, field_high (k := 4) _ _ (by decide) rfl, field_high (k := 0) _ _ (by decide) rfl]; exact field_low _ _
  have h1 : fld W 19 1 = 0#1 := by subst hW; unfold fld; rw [field_high (k := 11) _ _ (by decide) rfl, field_high (k := 9) _ _ (by decide) rfl, field_high (k := 5) _ _ (by decide) rfl, field_high (k := 4) _ _ (by decide) rfl, field_high (k := 0) _ _ (by decide) rfl]; exact field_low _ _
  have h2 : fld W 14 1 = 0#1 := by subst hW; unfold fld; rw [field_high (k := 6) _ _ (by decide) rfl, field_high (k := 4) _ _ (by decide) rfl, field_high (k := 0) _ _ (by decide) rfl]; exact field_low _ _
  have h3 : fld W 8 2 = 0#2 := by subst hW; unfold fld; rw [field_high (k := 0) _ _ (by decide) rfl]; exact field_low _ _
  have h4 : fld W 0 8 = ofNat 8 f.code := by subst hW; unfold fld; exact field_low _ _
  have h5 : fld W 20 4 = p := by subst hW; unfold fld; rw [field_high (k := 12) _ _ (by decide) rfl, field_high (k := 10) _ _ (by decide) rfl, field_high (k := 6) _ _ (by decide) rfl, field_high (k := 5) _ _ (by decide) rfl, field_high (k := 1) _ _ (by decide) rfl, field_high (k := 0) _ _ (by decide) rfl]; exact field_low _ _
  have h6 : fld W 15 4 = pa := by subst hW; unfold fld; rw [field_high (k := 7) _ _ (by decide) rfl, field_high (k := 5) _ _ (by decide) rfl, field_high (k := 1) _ _ (by decide) rfl, field_high (k := 0) _ _ (by decide) rfl]; exact field_low _ _
  have h7 : fld W 10 4 = pb := by subst hW; unfold fld; rw [field_high (k := 2) _ _ (by decide) rfl, field_high (k := 0) _ _ (by decide) rfl]; exact field_low _ _
  have h8 : fld W 25 7 = 0x12#7 := by subst hW; unfold fld; rw [field_high (k := 17) _ _ (by decide) rfl, field_high (k := 15) _ _ (by decide) rfl, field_high (k := 11) _ _ (by decide) rfl, field_high (k := 10) _ _ (by decide) rfl, field_high (k := 6) _ _ (by decide) rfl, field_high (k := 5) _ _ (by decide) rfl, field_high (k := 1) _ _ (by decide) rfl, field_high (k := 0) _ _ (by decide) rfl]; exact BitVec.extractLsb'_eq_self
  have ch4 : PLogOp.ofCode? (fld W 0 8).toNat = some f := by rw [h4]; cases f <;> rfl
  have hd : decodeMap .S W = .ok (.plog p pa pb f) := by
    change decodeS W = _
    unfold decodeS; rw [h8]
    refine Eq.trans (b := zeroed (fld W 24 1 = 0 ∧ fld W 19 1 = 0 ∧ fld W 14 1 = 0 ∧ fld W 8 2 = 0) <| reading (PLogOp.ofCode? (fld W 0 8).toNat) fun f => .ok (.plog (fld W 20 4) (fld W 15 4) (fld W 10 4) f)) rfl ?_
    rw [ch4, h0, h1, h2, h3, h5, h6, h7]; rfl
  unfold decode; rw [hd]; exact if_pos hf

theorem sel (d : BitVec 5) (a : BitVec 5) (b : BitVec 5) (ta : Bool) (tb : Bool) (p : BitVec 4) : Statement (.sel d a b ta tb p) := by
  intro k hk hf; cases hk; refine ⟨_, rfl, ?_⟩
  generalize hW : (0x13#7 ++ d ++ a ++ b ++ ofBool ta ++ ofBool tb ++ 0#4 ++ p : Word32) = W
  have h0 : fld W 4 4 = 0#4 := by subst hW; unfold fld; rw [field_high (k := 0) _ _ (by decide) rfl]; exact field_low _ _
  have h1 : fld W 20 5 = d := by subst hW; unfold fld; rw [field_high (k := 16) _ _ (by decide) rfl, field_high (k := 12) _ _ (by decide) rfl, field_high (k := 11) _ _ (by decide) rfl, field_high (k := 10) _ _ (by decide) rfl, field_high (k := 5) _ _ (by decide) rfl, field_high (k := 0) _ _ (by decide) rfl]; exact field_low _ _
  have h2 : fld W 15 5 = a := by subst hW; unfold fld; rw [field_high (k := 11) _ _ (by decide) rfl, field_high (k := 7) _ _ (by decide) rfl, field_high (k := 6) _ _ (by decide) rfl, field_high (k := 5) _ _ (by decide) rfl, field_high (k := 0) _ _ (by decide) rfl]; exact field_low _ _
  have h3 : fld W 10 5 = b := by subst hW; unfold fld; rw [field_high (k := 6) _ _ (by decide) rfl, field_high (k := 2) _ _ (by decide) rfl, field_high (k := 1) _ _ (by decide) rfl, field_high (k := 0) _ _ (by decide) rfl]; exact field_low _ _
  have h4 : flag W 9 = ta := by subst hW; unfold flag; rw [bit_high (k := 5) _ _ (by decide) rfl, bit_high (k := 1) _ _ (by decide) rfl, bit_high (k := 0) _ _ (by decide) rfl]; exact bit_low _ _
  have h5 : flag W 8 = tb := by subst hW; unfold flag; rw [bit_high (k := 4) _ _ (by decide) rfl, bit_high (k := 0) _ _ (by decide) rfl]; exact bit_low _ _
  have h6 : fld W 0 4 = p := by subst hW; unfold fld; exact field_low _ _
  have h7 : fld W 25 7 = 0x13#7 := by subst hW; unfold fld; rw [field_high (k := 21) _ _ (by decide) rfl, field_high (k := 17) _ _ (by decide) rfl, field_high (k := 16) _ _ (by decide) rfl, field_high (k := 15) _ _ (by decide) rfl, field_high (k := 10) _ _ (by decide) rfl, field_high (k := 5) _ _ (by decide) rfl, field_high (k := 0) _ _ (by decide) rfl]; exact BitVec.extractLsb'_eq_self
  have hd : decodeMap .S W = .ok (.sel d a b ta tb p) := by
    change decodeS W = _
    unfold decodeS; rw [h7]
    refine Eq.trans (b := zeroed (fld W 4 4 = 0) <| .ok (.sel (fld W 20 5) (fld W 15 5) (fld W 10 5) (flag W 9) (flag W 8) (fld W 0 4))) rfl ?_
    rw [h0, h1, h2, h3, h4, h5, h6]; rfl
  unfold decode; rw [hd]; exact if_pos hf

theorem ld (d : BitVec 5) (a : BitVec 5) (pm : Bool) (ac : BitVec 2) (sz : BitVec 2) (sx : Bool) (off : BitVec 9) : Statement (.ld d a pm ac sz sx off) := by
  intro k hk hf; cases hk; refine ⟨_, rfl, ?_⟩
  generalize hW : (0x14#7 ++ d ++ a ++ ofBool pm ++ ac ++ sz ++ ofBool sx ++ off : Word32) = W
  have h0 : fld W 20 5 = d := by subst hW; unfold fld; rw [field_high (k := 11) _ _ (by decide) rfl, field_high (k := 10) _ _ (by decide) rfl, field_high (k := 8) _ _ (by decide) rfl, field_high (k := 6) _ _ (by decide) rfl, field_high (k := 5) _ _ (by decide) rfl, field_high (k := 0) _ _ (by decide) rfl]; exact field_low _ _
  have h1 : fld W 15 5 = a := by subst hW; unfold fld; rw [field_high (k := 6) _ _ (by decide) rfl, field_high (k := 5) _ _ (by decide) rfl, field_high (k := 3) _ _ (by decide) rfl, field_high (k := 1) _ _ (by decide) rfl, field_high (k := 0) _ _ (by decide) rfl]; exact field_low _ _
  have h2 : flag W 14 = pm := by subst hW; unfold flag; rw [bit_high (k := 5) _ _ (by decide) rfl, bit_high (k := 4) _ _ (by decide) rfl, bit_high (k := 2) _ _ (by decide) rfl, bit_high (k := 0) _ _ (by decide) rfl]; exact bit_low _ _
  have h3 : fld W 12 2 = ac := by subst hW; unfold fld; rw [field_high (k := 3) _ _ (by decide) rfl, field_high (k := 2) _ _ (by decide) rfl, field_high (k := 0) _ _ (by decide) rfl]; exact field_low _ _
  have h4 : fld W 10 2 = sz := by subst hW; unfold fld; rw [field_high (k := 1) _ _ (by decide) rfl, field_high (k := 0) _ _ (by decide) rfl]; exact field_low _ _
  have h5 : flag W 9 = sx := by subst hW; unfold flag; rw [bit_high (k := 0) _ _ (by decide) rfl]; exact bit_low _ _
  have h6 : fld W 0 9 = off := by subst hW; unfold fld; exact field_low _ _
  have h7 : fld W 25 7 = 0x14#7 := by subst hW; unfold fld; rw [field_high (k := 16) _ _ (by decide) rfl, field_high (k := 15) _ _ (by decide) rfl, field_high (k := 13) _ _ (by decide) rfl, field_high (k := 11) _ _ (by decide) rfl, field_high (k := 10) _ _ (by decide) rfl, field_high (k := 5) _ _ (by decide) rfl, field_high (k := 0) _ _ (by decide) rfl]; exact BitVec.extractLsb'_eq_self
  have hd : decodeMap .S W = .ok (.ld d a pm ac sz sx off) := by
    change decodeS W = _
    unfold decodeS; rw [h7]
    refine Eq.trans (b := Except.ok (.ld (fld W 20 5) (fld W 15 5) (flag W 14) (fld W 12 2) (fld W 10 2) (flag W 9) (fld W 0 9))) rfl ?_
    rw [h0, h1, h2, h3, h4, h5, h6]
  unfold decode; rw [hd]; exact if_pos hf

theorem st (d : BitVec 5) (a : BitVec 5) (pm : Bool) (ac : BitVec 2) (sz : BitVec 2) (off : BitVec 9) : Statement (.st d a pm ac sz off) := by
  intro k hk hf; cases hk; refine ⟨_, rfl, ?_⟩
  generalize hW : (0x15#7 ++ d ++ a ++ ofBool pm ++ ac ++ sz ++ 0#1 ++ off : Word32) = W
  have h0 : fld W 9 1 = 0#1 := by subst hW; unfold fld; rw [field_high (k := 0) _ _ (by decide) rfl]; exact field_low _ _
  have h1 : fld W 20 5 = d := by subst hW; unfold fld; rw [field_high (k := 11) _ _ (by decide) rfl, field_high (k := 10) _ _ (by decide) rfl, field_high (k := 8) _ _ (by decide) rfl, field_high (k := 6) _ _ (by decide) rfl, field_high (k := 5) _ _ (by decide) rfl, field_high (k := 0) _ _ (by decide) rfl]; exact field_low _ _
  have h2 : fld W 15 5 = a := by subst hW; unfold fld; rw [field_high (k := 6) _ _ (by decide) rfl, field_high (k := 5) _ _ (by decide) rfl, field_high (k := 3) _ _ (by decide) rfl, field_high (k := 1) _ _ (by decide) rfl, field_high (k := 0) _ _ (by decide) rfl]; exact field_low _ _
  have h3 : flag W 14 = pm := by subst hW; unfold flag; rw [bit_high (k := 5) _ _ (by decide) rfl, bit_high (k := 4) _ _ (by decide) rfl, bit_high (k := 2) _ _ (by decide) rfl, bit_high (k := 0) _ _ (by decide) rfl]; exact bit_low _ _
  have h4 : fld W 12 2 = ac := by subst hW; unfold fld; rw [field_high (k := 3) _ _ (by decide) rfl, field_high (k := 2) _ _ (by decide) rfl, field_high (k := 0) _ _ (by decide) rfl]; exact field_low _ _
  have h5 : fld W 10 2 = sz := by subst hW; unfold fld; rw [field_high (k := 1) _ _ (by decide) rfl, field_high (k := 0) _ _ (by decide) rfl]; exact field_low _ _
  have h6 : fld W 0 9 = off := by subst hW; unfold fld; exact field_low _ _
  have h7 : fld W 25 7 = 0x15#7 := by subst hW; unfold fld; rw [field_high (k := 16) _ _ (by decide) rfl, field_high (k := 15) _ _ (by decide) rfl, field_high (k := 13) _ _ (by decide) rfl, field_high (k := 11) _ _ (by decide) rfl, field_high (k := 10) _ _ (by decide) rfl, field_high (k := 5) _ _ (by decide) rfl, field_high (k := 0) _ _ (by decide) rfl]; exact BitVec.extractLsb'_eq_self
  have hd : decodeMap .S W = .ok (.st d a pm ac sz off) := by
    change decodeS W = _
    unfold decodeS; rw [h7]
    refine Eq.trans (b := zeroed (fld W 9 1 = 0) <| .ok (.st (fld W 20 5) (fld W 15 5) (flag W 14) (fld W 12 2) (fld W 10 2) (fld W 0 9))) rfl ?_
    rw [h0, h1, h2, h3, h4, h5, h6]; rfl
  unfold decode; rw [hd]; exact if_pos hf

theorem ldv (d : BitVec 5) (a : BitVec 5) (ta : Bool) (k : BitVec 3) : Statement (.ldv d a ta k) := by
  intro k hk hf; cases hk; refine ⟨_, rfl, ?_⟩
  generalize hW : (0x16#7 ++ d ++ a ++ 0#5 ++ ofBool ta ++ 0#6 ++ k : Word32) = W
  have h0 : fld W 10 5 = 0#5 := by subst hW; unfold fld; rw [field_high (k := 7) _ _ (by decide) rfl, field_high (k := 1) _ _ (by decide) rfl, field_high (k := 0) _ _ (by decide) rfl]; exact field_low _ _
  have h1 : fld W 3 6 = 0#6 := by subst hW; unfold fld; rw [field_high (k := 0) _ _ (by decide) rfl]; exact field_low _ _
  have h2 : fld W 20 5 = d := by subst hW; unfold fld; rw [field_high (k := 17) _ _ (by decide) rfl, field_high (k := 11) _ _ (by decide) rfl, field_high (k := 10) _ _ (by decide) rfl, field_high (k := 5) _ _ (by decide) rfl, field_high (k := 0) _ _ (by decide) rfl]; exact field_low _ _
  have h3 : fld W 15 5 = a := by subst hW; unfold fld; rw [field_high (k := 12) _ _ (by decide) rfl, field_high (k := 6) _ _ (by decide) rfl, field_high (k := 5) _ _ (by decide) rfl, field_high (k := 0) _ _ (by decide) rfl]; exact field_low _ _
  have h4 : flag W 9 = ta := by subst hW; unfold flag; rw [bit_high (k := 6) _ _ (by decide) rfl, bit_high (k := 0) _ _ (by decide) rfl]; exact bit_low _ _
  have h5 : fld W 0 3 = k := by subst hW; unfold fld; exact field_low _ _
  have h6 : fld W 25 7 = 0x16#7 := by subst hW; unfold fld; rw [field_high (k := 22) _ _ (by decide) rfl, field_high (k := 16) _ _ (by decide) rfl, field_high (k := 15) _ _ (by decide) rfl, field_high (k := 10) _ _ (by decide) rfl, field_high (k := 5) _ _ (by decide) rfl, field_high (k := 0) _ _ (by decide) rfl]; exact BitVec.extractLsb'_eq_self
  have hd : decodeMap .S W = .ok (.ldv d a ta k) := by
    change decodeS W = _
    unfold decodeS; rw [h6]
    refine Eq.trans (b := zeroed (fld W 10 5 = 0 ∧ fld W 3 6 = 0) <| .ok (.ldv (fld W 20 5) (fld W 15 5) (flag W 9) (fld W 0 3))) rfl ?_
    rw [h0, h1, h2, h3, h4, h5]; rfl
  unfold decode; rw [hd]; exact if_pos hf

theorem valid (d : BitVec 5) (mask : BitVec 8) : Statement (.valid d mask) := by
  intro k hk hf; cases hk; refine ⟨_, rfl, ?_⟩
  generalize hW : (0x17#7 ++ d ++ 0#12 ++ mask : Word32) = W
  have h0 : fld W 8 12 = 0#12 := by subst hW; unfold fld; rw [field_high (k := 0) _ _ (by decide) rfl]; exact field_low _ _
  have h1 : fld W 20 5 = d := by subst hW; unfold fld; rw [field_high (k := 12) _ _ (by decide) rfl, field_high (k := 0) _ _ (by decide) rfl]; exact field_low _ _
  have h2 : fld W 0 8 = mask := by subst hW; unfold fld; exact field_low _ _
  have h3 : fld W 25 7 = 0x17#7 := by subst hW; unfold fld; rw [field_high (k := 17) _ _ (by decide) rfl, field_high (k := 5) _ _ (by decide) rfl, field_high (k := 0) _ _ (by decide) rfl]; exact BitVec.extractLsb'_eq_self
  have hd : decodeMap .S W = .ok (.valid d mask) := by
    change decodeS W = _
    unfold decodeS; rw [h3]
    refine Eq.trans (b := zeroed (fld W 8 12 = 0) <| .ok (.valid (fld W 20 5) (fld W 0 8))) rfl ?_
    rw [h0, h1, h2]; rfl
  unfold decode; rw [hd]; exact if_pos hf

theorem valst (d : BitVec 5) (a : BitVec 5) (b : BitVec 5) (ta : Bool) (tb : Bool) (mask : BitVec 8) : Statement (.valst d a b ta tb mask) := by
  intro k hk hf; cases hk; refine ⟨_, rfl, ?_⟩
  generalize hW : (0x18#7 ++ d ++ a ++ b ++ ofBool ta ++ ofBool tb ++ mask : Word32) = W
  have h0 : fld W 20 5 = d := by subst hW; unfold fld; rw [field_high (k := 12) _ _ (by decide) rfl, field_high (k := 11) _ _ (by decide) rfl, field_high (k := 10) _ _ (by decide) rfl, field_high (k := 5) _ _ (by decide) rfl, field_high (k := 0) _ _ (by decide) rfl]; exact field_low _ _
  have h1 : fld W 15 5 = a := by subst hW; unfold fld; rw [field_high (k := 7) _ _ (by decide) rfl, field_high (k := 6) _ _ (by decide) rfl, field_high (k := 5) _ _ (by decide) rfl, field_high (k := 0) _ _ (by decide) rfl]; exact field_low _ _
  have h2 : fld W 10 5 = b := by subst hW; unfold fld; rw [field_high (k := 2) _ _ (by decide) rfl, field_high (k := 1) _ _ (by decide) rfl, field_high (k := 0) _ _ (by decide) rfl]; exact field_low _ _
  have h3 : flag W 9 = ta := by subst hW; unfold flag; rw [bit_high (k := 1) _ _ (by decide) rfl, bit_high (k := 0) _ _ (by decide) rfl]; exact bit_low _ _
  have h4 : flag W 8 = tb := by subst hW; unfold flag; rw [bit_high (k := 0) _ _ (by decide) rfl]; exact bit_low _ _
  have h5 : fld W 0 8 = mask := by subst hW; unfold fld; exact field_low _ _
  have h6 : fld W 25 7 = 0x18#7 := by subst hW; unfold fld; rw [field_high (k := 17) _ _ (by decide) rfl, field_high (k := 16) _ _ (by decide) rfl, field_high (k := 15) _ _ (by decide) rfl, field_high (k := 10) _ _ (by decide) rfl, field_high (k := 5) _ _ (by decide) rfl, field_high (k := 0) _ _ (by decide) rfl]; exact BitVec.extractLsb'_eq_self
  have hd : decodeMap .S W = .ok (.valst d a b ta tb mask) := by
    change decodeS W = _
    unfold decodeS; rw [h6]
    refine Eq.trans (b := Except.ok (.valst (fld W 20 5) (fld W 15 5) (fld W 10 5) (flag W 9) (flag W 8) (fld W 0 8))) rfl ?_
    rw [h0, h1, h2, h3, h4, h5]
  unfold decode; rw [hd]; exact if_pos hf

theorem casv (d : BitVec 5) (a : BitVec 5) (b : BitVec 5) (ta : Bool) (tb : Bool) (k : BitVec 3) : Statement (.casv d a b ta tb k) := by
  intro k hk hf; cases hk; refine ⟨_, rfl, ?_⟩
  generalize hW : (0x19#7 ++ d ++ a ++ b ++ ofBool ta ++ ofBool tb ++ 0#5 ++ k : Word32) = W
  have h0 : fld W 3 5 = 0#5 := by subst hW; unfold fld; rw [field_high (k := 0) _ _ (by decide) rfl]; exact field_low _ _
  have h1 : fld W 20 5 = d := by subst hW; unfold fld; rw [field_high (k := 17) _ _ (by decide) rfl, field_high (k := 12) _ _ (by decide) rfl, field_high (k := 11) _ _ (by decide) rfl, field_high (k := 10) _ _ (by decide) rfl, field_high (k := 5) _ _ (by decide) rfl, field_high (k := 0) _ _ (by decide) rfl]; exact field_low _ _
  have h2 : fld W 15 5 = a := by subst hW; unfold fld; rw [field_high (k := 12) _ _ (by decide) rfl, field_high (k := 7) _ _ (by decide) rfl, field_high (k := 6) _ _ (by decide) rfl, field_high (k := 5) _ _ (by decide) rfl, field_high (k := 0) _ _ (by decide) rfl]; exact field_low _ _
  have h3 : fld W 10 5 = b := by subst hW; unfold fld; rw [field_high (k := 7) _ _ (by decide) rfl, field_high (k := 2) _ _ (by decide) rfl, field_high (k := 1) _ _ (by decide) rfl, field_high (k := 0) _ _ (by decide) rfl]; exact field_low _ _
  have h4 : flag W 9 = ta := by subst hW; unfold flag; rw [bit_high (k := 6) _ _ (by decide) rfl, bit_high (k := 1) _ _ (by decide) rfl, bit_high (k := 0) _ _ (by decide) rfl]; exact bit_low _ _
  have h5 : flag W 8 = tb := by subst hW; unfold flag; rw [bit_high (k := 5) _ _ (by decide) rfl, bit_high (k := 0) _ _ (by decide) rfl]; exact bit_low _ _
  have h6 : fld W 0 3 = k := by subst hW; unfold fld; exact field_low _ _
  have h7 : fld W 25 7 = 0x19#7 := by subst hW; unfold fld; rw [field_high (k := 22) _ _ (by decide) rfl, field_high (k := 17) _ _ (by decide) rfl, field_high (k := 16) _ _ (by decide) rfl, field_high (k := 15) _ _ (by decide) rfl, field_high (k := 10) _ _ (by decide) rfl, field_high (k := 5) _ _ (by decide) rfl, field_high (k := 0) _ _ (by decide) rfl]; exact BitVec.extractLsb'_eq_self
  have hd : decodeMap .S W = .ok (.casv d a b ta tb k) := by
    change decodeS W = _
    unfold decodeS; rw [h7]
    refine Eq.trans (b := zeroed (fld W 3 5 = 0) <| .ok (.casv (fld W 20 5) (fld W 15 5) (fld W 10 5) (flag W 9) (flag W 8) (fld W 0 3))) rfl ?_
    rw [h0, h1, h2, h3, h4, h5, h6]; rfl
  unfold decode; rw [hd]; exact if_pos hf

theorem clrv (mask : BitVec 8) : Statement (.clrv mask) := by
  intro k hk hf; cases hk; refine ⟨_, rfl, ?_⟩
  generalize hW : (0x1a#7 ++ 0#17 ++ mask : Word32) = W
  have h0 : fld W 8 17 = 0#17 := by subst hW; unfold fld; rw [field_high (k := 0) _ _ (by decide) rfl]; exact field_low _ _
  have h1 : fld W 0 8 = mask := by subst hW; unfold fld; exact field_low _ _
  have h2 : fld W 25 7 = 0x1a#7 := by subst hW; unfold fld; rw [field_high (k := 17) _ _ (by decide) rfl, field_high (k := 0) _ _ (by decide) rfl]; exact BitVec.extractLsb'_eq_self
  have hd : decodeMap .S W = .ok (.clrv mask) := by
    change decodeS W = _
    unfold decodeS; rw [h2]
    refine Eq.trans (b := zeroed (fld W 8 17 = 0) <| .ok (.clrv (fld W 0 8))) rfl ?_
    rw [h0, h1]; rfl
  unfold decode; rw [hd]; exact if_pos hf

theorem br (p : BitVec 4) (neg : Bool) (disp : BitVec 20) : Statement (.br p neg disp) := by
  intro k hk hf; cases hk; refine ⟨_, rfl, ?_⟩
  generalize hW : (0x1b#7 ++ p ++ ofBool neg ++ disp : Word32) = W
  have h0 : fld W 21 4 = p := by subst hW; unfold fld; rw [field_high (k := 1) _ _ (by decide) rfl, field_high (k := 0) _ _ (by decide) rfl]; exact field_low _ _
  have h1 : flag W 20 = neg := by subst hW; unfold flag; rw [bit_high (k := 0) _ _ (by decide) rfl]; exact bit_low _ _
  have h2 : fld W 0 20 = disp := by subst hW; unfold fld; exact field_low _ _
  have h3 : fld W 25 7 = 0x1b#7 := by subst hW; unfold fld; rw [field_high (k := 5) _ _ (by decide) rfl, field_high (k := 4) _ _ (by decide) rfl, field_high (k := 0) _ _ (by decide) rfl]; exact BitVec.extractLsb'_eq_self
  have hd : decodeMap .S W = .ok (.br p neg disp) := by
    change decodeS W = _
    unfold decodeS; rw [h3]
    refine Eq.trans (b := Except.ok (.br (fld W 21 4) (flag W 20) (fld W 0 20))) rfl ?_
    rw [h0, h1, h2]
  unfold decode; rw [hd]; exact if_pos hf

theorem call (p : BitVec 4) (neg : Bool) (disp : BitVec 20) : Statement (.call p neg disp) := by
  intro k hk hf; cases hk; refine ⟨_, rfl, ?_⟩
  generalize hW : (0x1c#7 ++ p ++ ofBool neg ++ disp : Word32) = W
  have h0 : fld W 21 4 = p := by subst hW; unfold fld; rw [field_high (k := 1) _ _ (by decide) rfl, field_high (k := 0) _ _ (by decide) rfl]; exact field_low _ _
  have h1 : flag W 20 = neg := by subst hW; unfold flag; rw [bit_high (k := 0) _ _ (by decide) rfl]; exact bit_low _ _
  have h2 : fld W 0 20 = disp := by subst hW; unfold fld; exact field_low _ _
  have h3 : fld W 25 7 = 0x1c#7 := by subst hW; unfold fld; rw [field_high (k := 5) _ _ (by decide) rfl, field_high (k := 4) _ _ (by decide) rfl, field_high (k := 0) _ _ (by decide) rfl]; exact BitVec.extractLsb'_eq_self
  have hd : decodeMap .S W = .ok (.call p neg disp) := by
    change decodeS W = _
    unfold decodeS; rw [h3]
    refine Eq.trans (b := Except.ok (.call (fld W 21 4) (flag W 20) (fld W 0 20))) rfl ?_
    rw [h0, h1, h2]
  unfold decode; rw [hd]; exact if_pos hf

theorem lexit (p : BitVec 4) (neg : Bool) (disp : BitVec 20) : Statement (.lexit p neg disp) := by
  intro k hk hf; cases hk; refine ⟨_, rfl, ?_⟩
  generalize hW : (0x1f#7 ++ p ++ ofBool neg ++ disp : Word32) = W
  have h0 : fld W 21 4 = p := by subst hW; unfold fld; rw [field_high (k := 1) _ _ (by decide) rfl, field_high (k := 0) _ _ (by decide) rfl]; exact field_low _ _
  have h1 : flag W 20 = neg := by subst hW; unfold flag; rw [bit_high (k := 0) _ _ (by decide) rfl]; exact bit_low _ _
  have h2 : fld W 0 20 = disp := by subst hW; unfold fld; exact field_low _ _
  have h3 : fld W 25 7 = 0x1f#7 := by subst hW; unfold fld; rw [field_high (k := 5) _ _ (by decide) rfl, field_high (k := 4) _ _ (by decide) rfl, field_high (k := 0) _ _ (by decide) rfl]; exact BitVec.extractLsb'_eq_self
  have hd : decodeMap .S W = .ok (.lexit p neg disp) := by
    change decodeS W = _
    unfold decodeS; rw [h3]
    refine Eq.trans (b := Except.ok (.lexit (fld W 21 4) (flag W 20) (fld W 0 20))) rfl ?_
    rw [h0, h1, h2]
  unfold decode; rw [hd]; exact if_pos hf

theorem jr (a : BitVec 5) (ta : Bool) : Statement (.jr a ta) := by
  intro k hk hf; cases hk; refine ⟨_, rfl, ?_⟩
  generalize hW : (0x1d#7 ++ 0#5 ++ a ++ 0#5 ++ ofBool ta ++ 0#1 ++ 0#8 : Word32) = W
  have h0 : fld W 20 5 = 0#5 := by subst hW; unfold fld; rw [field_high (k := 12) _ _ (by decide) rfl, field_high (k := 11) _ _ (by decide) rfl, field_high (k := 10) _ _ (by decide) rfl, field_high (k := 5) _ _ (by decide) rfl, field_high (k := 0) _ _ (by decide) rfl]; exact field_low _ _
  have h1 : fld W 10 5 = 0#5 := by subst hW; unfold fld; rw [field_high (k := 2) _ _ (by decide) rfl, field_high (k := 1) _ _ (by decide) rfl, field_high (k := 0) _ _ (by decide) rfl]; exact field_low _ _
  have h2 : fld W 8 1 = 0#1 := by subst hW; unfold fld; rw [field_high (k := 0) _ _ (by decide) rfl]; exact field_low _ _
  have h3 : fld W 15 5 = a := by subst hW; unfold fld; rw [field_high (k := 7) _ _ (by decide) rfl, field_high (k := 6) _ _ (by decide) rfl, field_high (k := 5) _ _ (by decide) rfl, field_high (k := 0) _ _ (by decide) rfl]; exact field_low _ _
  have h4 : flag W 9 = ta := by subst hW; unfold flag; rw [bit_high (k := 1) _ _ (by decide) rfl, bit_high (k := 0) _ _ (by decide) rfl]; exact bit_low _ _
  have h5 : fld W 25 7 = 0x1d#7 := by subst hW; unfold fld; rw [field_high (k := 17) _ _ (by decide) rfl, field_high (k := 16) _ _ (by decide) rfl, field_high (k := 15) _ _ (by decide) rfl, field_high (k := 10) _ _ (by decide) rfl, field_high (k := 5) _ _ (by decide) rfl, field_high (k := 0) _ _ (by decide) rfl]; exact BitVec.extractLsb'_eq_self
  have h6 : fld W 0 8 = 0#8 := by subst hW; unfold fld; exact field_low _ _
  have hd : decodeMap .S W = .ok (.jr a ta) := by
    change decodeS W = _
    unfold decodeS; rw [h5]
    change decodeS1D W = _
    unfold decodeS1D; rw [h6]
    refine Eq.trans (b := zeroed (fld W 20 5 = 0 ∧ fld W 10 5 = 0 ∧ fld W 8 1 = 0) <| .ok (.jr (fld W 15 5) (flag W 9))) rfl ?_
    rw [h0, h1, h2, h3, h4]; rfl
  unfold decode; rw [hd]; exact if_pos hf

theorem jalr (d : BitVec 5) (a : BitVec 5) (ta : Bool) : Statement (.jalr d a ta) := by
  intro k hk hf; cases hk; refine ⟨_, rfl, ?_⟩
  generalize hW : (0x1d#7 ++ d ++ a ++ 0#5 ++ ofBool ta ++ 0#1 ++ 1#8 : Word32) = W
  have h0 : fld W 10 5 = 0#5 := by subst hW; unfold fld; rw [field_high (k := 2) _ _ (by decide) rfl, field_high (k := 1) _ _ (by decide) rfl, field_high (k := 0) _ _ (by decide) rfl]; exact field_low _ _
  have h1 : fld W 8 1 = 0#1 := by subst hW; unfold fld; rw [field_high (k := 0) _ _ (by decide) rfl]; exact field_low _ _
  have h2 : fld W 20 5 = d := by subst hW; unfold fld; rw [field_high (k := 12) _ _ (by decide) rfl, field_high (k := 11) _ _ (by decide) rfl, field_high (k := 10) _ _ (by decide) rfl, field_high (k := 5) _ _ (by decide) rfl, field_high (k := 0) _ _ (by decide) rfl]; exact field_low _ _
  have h3 : fld W 15 5 = a := by subst hW; unfold fld; rw [field_high (k := 7) _ _ (by decide) rfl, field_high (k := 6) _ _ (by decide) rfl, field_high (k := 5) _ _ (by decide) rfl, field_high (k := 0) _ _ (by decide) rfl]; exact field_low _ _
  have h4 : flag W 9 = ta := by subst hW; unfold flag; rw [bit_high (k := 1) _ _ (by decide) rfl, bit_high (k := 0) _ _ (by decide) rfl]; exact bit_low _ _
  have h5 : fld W 25 7 = 0x1d#7 := by subst hW; unfold fld; rw [field_high (k := 17) _ _ (by decide) rfl, field_high (k := 16) _ _ (by decide) rfl, field_high (k := 15) _ _ (by decide) rfl, field_high (k := 10) _ _ (by decide) rfl, field_high (k := 5) _ _ (by decide) rfl, field_high (k := 0) _ _ (by decide) rfl]; exact BitVec.extractLsb'_eq_self
  have h6 : fld W 0 8 = 1#8 := by subst hW; unfold fld; exact field_low _ _
  have hd : decodeMap .S W = .ok (.jalr d a ta) := by
    change decodeS W = _
    unfold decodeS; rw [h5]
    change decodeS1D W = _
    unfold decodeS1D; rw [h6]
    refine Eq.trans (b := zeroed (fld W 10 5 = 0 ∧ fld W 8 1 = 0) <| .ok (.jalr (fld W 20 5) (fld W 15 5) (flag W 9))) rfl ?_
    rw [h0, h1, h2, h3, h4]; rfl
  unfold decode; rw [hd]; exact if_pos hf

theorem loop (rot : Bool) (len : BitVec 10) (t : Bool) (n : BitVec 5) : Statement (.loop rot len t n) := by
  intro k hk hf; cases hk; refine ⟨_, rfl, ?_⟩
  generalize hW : (0x1e#7 ++ 0#2 ++ ofBool rot ++ len ++ 0#6 ++ ofBool t ++ n : Word32) = W
  have h0 : fld W 6 6 = 0#6 := by subst hW; unfold fld; rw [field_high (k := 1) _ _ (by decide) rfl, field_high (k := 0) _ _ (by decide) rfl]; exact field_low _ _
  have h1 : flag W 22 = rot := by subst hW; unfold flag; rw [bit_high (k := 17) _ _ (by decide) rfl, bit_high (k := 16) _ _ (by decide) rfl, bit_high (k := 10) _ _ (by decide) rfl, bit_high (k := 0) _ _ (by decide) rfl]; exact bit_low _ _
  have h2 : fld W 12 10 = len := by subst hW; unfold fld; rw [field_high (k := 7) _ _ (by decide) rfl, field_high (k := 6) _ _ (by decide) rfl, field_high (k := 0) _ _ (by decide) rfl]; exact field_low _ _
  have h3 : flag W 5 = t := by subst hW; unfold flag; rw [bit_high (k := 0) _ _ (by decide) rfl]; exact bit_low _ _
  have h4 : fld W 0 5 = n := by subst hW; unfold fld; exact field_low _ _
  have h5 : fld W 25 7 = 0x1e#7 := by subst hW; unfold fld; rw [field_high (k := 20) _ _ (by decide) rfl, field_high (k := 19) _ _ (by decide) rfl, field_high (k := 13) _ _ (by decide) rfl, field_high (k := 3) _ _ (by decide) rfl, field_high (k := 2) _ _ (by decide) rfl, field_high (k := 0) _ _ (by decide) rfl]; exact BitVec.extractLsb'_eq_self
  have h6 : fld W 23 2 = 0#2 := by subst hW; unfold fld; rw [field_high (k := 18) _ _ (by decide) rfl, field_high (k := 17) _ _ (by decide) rfl, field_high (k := 11) _ _ (by decide) rfl, field_high (k := 1) _ _ (by decide) rfl, field_high (k := 0) _ _ (by decide) rfl]; exact field_low _ _
  have hd : decodeMap .S W = .ok (.loop rot len t n) := by
    change decodeS W = _
    unfold decodeS; rw [h5]
    change decodeS1E W = _
    unfold decodeS1E; rw [h6]
    refine Eq.trans (b := zeroed (fld W 6 6 = 0) <| .ok (.loop (flag W 22) (fld W 12 10) (flag W 5) (fld W 0 5))) rfl ?_
    rw [h0, h1, h2, h3, h4]; rfl
  unfold decode; rw [hd]; exact if_pos hf

theorem loopi (rot : Bool) (len : BitVec 10) (n : BitVec 12) : Statement (.loopi rot len n) := by
  intro k hk hf; cases hk; refine ⟨_, rfl, ?_⟩
  generalize hW : (0x1e#7 ++ 1#2 ++ ofBool rot ++ len ++ n : Word32) = W
  have h0 : flag W 22 = rot := by subst hW; unfold flag; rw [bit_high (k := 10) _ _ (by decide) rfl, bit_high (k := 0) _ _ (by decide) rfl]; exact bit_low _ _
  have h1 : fld W 12 10 = len := by subst hW; unfold fld; rw [field_high (k := 0) _ _ (by decide) rfl]; exact field_low _ _
  have h2 : fld W 0 12 = n := by subst hW; unfold fld; exact field_low _ _
  have h3 : fld W 25 7 = 0x1e#7 := by subst hW; unfold fld; rw [field_high (k := 13) _ _ (by decide) rfl, field_high (k := 3) _ _ (by decide) rfl, field_high (k := 2) _ _ (by decide) rfl, field_high (k := 0) _ _ (by decide) rfl]; exact BitVec.extractLsb'_eq_self
  have h4 : fld W 23 2 = 1#2 := by subst hW; unfold fld; rw [field_high (k := 11) _ _ (by decide) rfl, field_high (k := 1) _ _ (by decide) rfl, field_high (k := 0) _ _ (by decide) rfl]; exact field_low _ _
  have hd : decodeMap .S W = .ok (.loopi rot len n) := by
    change decodeS W = _
    unfold decodeS; rw [h3]
    change decodeS1E W = _
    unfold decodeS1E; rw [h4]
    refine Eq.trans (b := Except.ok (.loopi (flag W 22) (fld W 12 10) (fld W 0 12))) rfl ?_
    rw [h0, h1, h2]
  unfold decode; rw [hd]; exact if_pos hf

theorem loopq (rot : Bool) (len : BitVec 10) : Statement (.loopq rot len) := by
  intro k hk hf; cases hk; refine ⟨_, rfl, ?_⟩
  generalize hW : (0x1e#7 ++ 2#2 ++ ofBool rot ++ len ++ 0#12 : Word32) = W
  have h0 : fld W 0 12 = 0#12 := by subst hW; unfold fld; exact field_low _ _
  have h1 : flag W 22 = rot := by subst hW; unfold flag; rw [bit_high (k := 10) _ _ (by decide) rfl, bit_high (k := 0) _ _ (by decide) rfl]; exact bit_low _ _
  have h2 : fld W 12 10 = len := by subst hW; unfold fld; rw [field_high (k := 0) _ _ (by decide) rfl]; exact field_low _ _
  have h3 : fld W 25 7 = 0x1e#7 := by subst hW; unfold fld; rw [field_high (k := 13) _ _ (by decide) rfl, field_high (k := 3) _ _ (by decide) rfl, field_high (k := 2) _ _ (by decide) rfl, field_high (k := 0) _ _ (by decide) rfl]; exact BitVec.extractLsb'_eq_self
  have h4 : fld W 23 2 = 2#2 := by subst hW; unfold fld; rw [field_high (k := 11) _ _ (by decide) rfl, field_high (k := 1) _ _ (by decide) rfl, field_high (k := 0) _ _ (by decide) rfl]; exact field_low _ _
  have hd : decodeMap .S W = .ok (.loopq rot len) := by
    change decodeS W = _
    unfold decodeS; rw [h3]
    change decodeS1E W = _
    unfold decodeS1E; rw [h4]
    refine Eq.trans (b := zeroed (fld W 0 12 = 0) <| .ok (.loopq (flag W 22) (fld W 12 10))) rfl ?_
    rw [h0, h1, h2]; rfl
  unfold decode; rw [hd]; exact if_pos hf

theorem setvrb (n : BitVec 5) : Statement (.setvrb n) := by
  intro k hk hf; cases hk; refine ⟨_, rfl, ?_⟩
  generalize hW : (0x20#7 ++ 0#5 ++ 0#15 ++ n : Word32) = W
  have h0 : fld W 5 15 = 0#15 := by subst hW; unfold fld; rw [field_high (k := 0) _ _ (by decide) rfl]; exact field_low _ _
  have h1 : fld W 0 5 = n := by subst hW; unfold fld; exact field_low _ _
  have h2 : fld W 25 7 = 0x20#7 := by subst hW; unfold fld; rw [field_high (k := 20) _ _ (by decide) rfl, field_high (k := 5) _ _ (by decide) rfl, field_high (k := 0) _ _ (by decide) rfl]; exact BitVec.extractLsb'_eq_self
  have h3 : fld W 20 5 = 0#5 := by subst hW; unfold fld; rw [field_high (k := 15) _ _ (by decide) rfl, field_high (k := 0) _ _ (by decide) rfl]; exact field_low _ _
  have hd : decodeMap .S W = .ok (.setvrb n) := by
    change decodeS W = _
    unfold decodeS; rw [h2]
    change decodeS20 W = _
    unfold decodeS20; rw [h3]
    refine Eq.trans (b := zeroed (fld W 5 15 = 0) <| .ok (.setvrb (fld W 0 5))) rfl ?_
    rw [h0, h1]; rfl
  unfold decode; rw [hd]; exact if_pos hf

theorem setprb (n : BitVec 3) : Statement (.setprb n) := by
  intro k hk hf; cases hk; refine ⟨_, rfl, ?_⟩
  generalize hW : (0x20#7 ++ 1#5 ++ 0#17 ++ n : Word32) = W
  have h0 : fld W 3 17 = 0#17 := by subst hW; unfold fld; rw [field_high (k := 0) _ _ (by decide) rfl]; exact field_low _ _
  have h1 : fld W 0 3 = n := by subst hW; unfold fld; exact field_low _ _
  have h2 : fld W 25 7 = 0x20#7 := by subst hW; unfold fld; rw [field_high (k := 22) _ _ (by decide) rfl, field_high (k := 5) _ _ (by decide) rfl, field_high (k := 0) _ _ (by decide) rfl]; exact BitVec.extractLsb'_eq_self
  have h3 : fld W 20 5 = 1#5 := by subst hW; unfold fld; rw [field_high (k := 17) _ _ (by decide) rfl, field_high (k := 0) _ _ (by decide) rfl]; exact field_low _ _
  have hd : decodeMap .S W = .ok (.setprb n) := by
    change decodeS W = _
    unfold decodeS; rw [h2]
    change decodeS20 W = _
    unfold decodeS20; rw [h3]
    refine Eq.trans (b := zeroed (fld W 3 17 = 0) <| .ok (.setprb (fld W 0 3))) rfl ?_
    rw [h0, h1]; rfl
  unfold decode; rw [hd]; exact if_pos hf

theorem mfsr (d : BitVec 5) (n : BitVec 12) : Statement (.mfsr d n) := by
  intro k hk hf; cases hk; refine ⟨_, rfl, ?_⟩
  generalize hW : (0x21#7 ++ d ++ 0#8 ++ n : Word32) = W
  have h0 : fld W 12 8 = 0#8 := by subst hW; unfold fld; rw [field_high (k := 0) _ _ (by decide) rfl]; exact field_low _ _
  have h1 : fld W 20 5 = d := by subst hW; unfold fld; rw [field_high (k := 8) _ _ (by decide) rfl, field_high (k := 0) _ _ (by decide) rfl]; exact field_low _ _
  have h2 : fld W 0 12 = n := by subst hW; unfold fld; exact field_low _ _
  have h3 : fld W 25 7 = 0x21#7 := by subst hW; unfold fld; rw [field_high (k := 13) _ _ (by decide) rfl, field_high (k := 5) _ _ (by decide) rfl, field_high (k := 0) _ _ (by decide) rfl]; exact BitVec.extractLsb'_eq_self
  have hd : decodeMap .S W = .ok (.mfsr d n) := by
    change decodeS W = _
    unfold decodeS; rw [h3]
    refine Eq.trans (b := zeroed (fld W 12 8 = 0) <| .ok (.mfsr (fld W 20 5) (fld W 0 12))) rfl ?_
    rw [h0, h1, h2]; rfl
  unfold decode; rw [hd]; exact if_pos hf

theorem mtsr (a : BitVec 5) (ta : Bool) (n : BitVec 12) : Statement (.mtsr a ta n) := by
  intro k hk hf; cases hk; refine ⟨_, rfl, ?_⟩
  generalize hW : (0x22#7 ++ 0#5 ++ a ++ ofBool ta ++ 0#2 ++ n : Word32) = W
  have h0 : fld W 20 5 = 0#5 := by subst hW; unfold fld; rw [field_high (k := 8) _ _ (by decide) rfl, field_high (k := 6) _ _ (by decide) rfl, field_high (k := 5) _ _ (by decide) rfl, field_high (k := 0) _ _ (by decide) rfl]; exact field_low _ _
  have h1 : fld W 12 2 = 0#2 := by subst hW; unfold fld; rw [field_high (k := 0) _ _ (by decide) rfl]; exact field_low _ _
  have h2 : fld W 15 5 = a := by subst hW; unfold fld; rw [field_high (k := 3) _ _ (by decide) rfl, field_high (k := 1) _ _ (by decide) rfl, field_high (k := 0) _ _ (by decide) rfl]; exact field_low _ _
  have h3 : flag W 14 = ta := by subst hW; unfold flag; rw [bit_high (k := 2) _ _ (by decide) rfl, bit_high (k := 0) _ _ (by decide) rfl]; exact bit_low _ _
  have h4 : fld W 0 12 = n := by subst hW; unfold fld; exact field_low _ _
  have h5 : fld W 25 7 = 0x22#7 := by subst hW; unfold fld; rw [field_high (k := 13) _ _ (by decide) rfl, field_high (k := 11) _ _ (by decide) rfl, field_high (k := 10) _ _ (by decide) rfl, field_high (k := 5) _ _ (by decide) rfl, field_high (k := 0) _ _ (by decide) rfl]; exact BitVec.extractLsb'_eq_self
  have hd : decodeMap .S W = .ok (.mtsr a ta n) := by
    change decodeS W = _
    unfold decodeS; rw [h5]
    refine Eq.trans (b := zeroed (fld W 20 5 = 0 ∧ fld W 12 2 = 0) <| .ok (.mtsr (fld W 15 5) (flag W 14) (fld W 0 12))) rfl ?_
    rw [h0, h1, h2, h3, h4]; rfl
  unfold decode; rw [hd]; exact if_pos hf

theorem trap (code : BitVec 20) : Statement (.trap code) := by
  intro k hk hf; cases hk; refine ⟨_, rfl, ?_⟩
  generalize hW : (0x23#7 ++ 0#5 ++ code : Word32) = W
  have h0 : fld W 20 5 = 0#5 := by subst hW; unfold fld; rw [field_high (k := 0) _ _ (by decide) rfl]; exact field_low _ _
  have h1 : fld W 0 20 = code := by subst hW; unfold fld; exact field_low _ _
  have h2 : fld W 25 7 = 0x23#7 := by subst hW; unfold fld; rw [field_high (k := 5) _ _ (by decide) rfl, field_high (k := 0) _ _ (by decide) rfl]; exact BitVec.extractLsb'_eq_self
  have hd : decodeMap .S W = .ok (.trap code) := by
    change decodeS W = _
    unfold decodeS; rw [h2]
    refine Eq.trans (b := zeroed (fld W 20 5 = 0) <| .ok (.trap (fld W 0 20))) rfl ?_
    rw [h0, h1]; rfl
  unfold decode; rw [hd]; exact if_pos hf

theorem sys (code : BitVec 20) : Statement (.sys code) := by
  intro k hk hf; cases hk; refine ⟨_, rfl, ?_⟩
  generalize hW : (0x24#7 ++ 0#5 ++ code : Word32) = W
  have h0 : fld W 20 5 = 0#5 := by subst hW; unfold fld; rw [field_high (k := 0) _ _ (by decide) rfl]; exact field_low _ _
  have h1 : fld W 0 20 = code := by subst hW; unfold fld; exact field_low _ _
  have h2 : fld W 25 7 = 0x24#7 := by subst hW; unfold fld; rw [field_high (k := 5) _ _ (by decide) rfl, field_high (k := 0) _ _ (by decide) rfl]; exact BitVec.extractLsb'_eq_self
  have hd : decodeMap .S W = .ok (.sys code) := by
    change decodeS W = _
    unfold decodeS; rw [h2]
    refine Eq.trans (b := zeroed (fld W 20 5 = 0) <| .ok (.sys (fld W 0 20))) rfl ?_
    rw [h0, h1]; rfl
  unfold decode; rw [hd]; exact if_pos hf

theorem fadd (d : BitVec 5) (a : BitVec 5) (b : BitVec 5) (ta : Bool) (tb : Bool) (dbl : Bool) : Statement (.fadd d a b ta tb dbl) := by
  intro k hk hf; cases hk; refine ⟨_, rfl, ?_⟩
  generalize hW : (0x27#7 ++ d ++ a ++ b ++ ofBool ta ++ ofBool tb ++ 0#3 ++ ofBool dbl ++ 0#4 : Word32) = W
  have h0 : fld W 5 3 = 0#3 := by subst hW; unfold fld; rw [field_high (k := 1) _ _ (by decide) rfl, field_high (k := 0) _ _ (by decide) rfl]; exact field_low _ _
  have h1 : fld W 20 5 = d := by subst hW; unfold fld; rw [field_high (k := 16) _ _ (by decide) rfl, field_high (k := 15) _ _ (by decide) rfl, field_high (k := 12) _ _ (by decide) rfl, field_high (k := 11) _ _ (by decide) rfl, field_high (k := 10) _ _ (by decide) rfl, field_high (k := 5) _ _ (by decide) rfl, field_high (k := 0) _ _ (by decide) rfl]; exact field_low _ _
  have h2 : fld W 15 5 = a := by subst hW; unfold fld; rw [field_high (k := 11) _ _ (by decide) rfl, field_high (k := 10) _ _ (by decide) rfl, field_high (k := 7) _ _ (by decide) rfl, field_high (k := 6) _ _ (by decide) rfl, field_high (k := 5) _ _ (by decide) rfl, field_high (k := 0) _ _ (by decide) rfl]; exact field_low _ _
  have h3 : fld W 10 5 = b := by subst hW; unfold fld; rw [field_high (k := 6) _ _ (by decide) rfl, field_high (k := 5) _ _ (by decide) rfl, field_high (k := 2) _ _ (by decide) rfl, field_high (k := 1) _ _ (by decide) rfl, field_high (k := 0) _ _ (by decide) rfl]; exact field_low _ _
  have h4 : flag W 9 = ta := by subst hW; unfold flag; rw [bit_high (k := 5) _ _ (by decide) rfl, bit_high (k := 4) _ _ (by decide) rfl, bit_high (k := 1) _ _ (by decide) rfl, bit_high (k := 0) _ _ (by decide) rfl]; exact bit_low _ _
  have h5 : flag W 8 = tb := by subst hW; unfold flag; rw [bit_high (k := 4) _ _ (by decide) rfl, bit_high (k := 3) _ _ (by decide) rfl, bit_high (k := 0) _ _ (by decide) rfl]; exact bit_low _ _
  have h6 : flag W 4 = dbl := by subst hW; unfold flag; rw [bit_high (k := 0) _ _ (by decide) rfl]; exact bit_low _ _
  have h7 : fld W 25 7 = 0x27#7 := by subst hW; unfold fld; rw [field_high (k := 21) _ _ (by decide) rfl, field_high (k := 20) _ _ (by decide) rfl, field_high (k := 17) _ _ (by decide) rfl, field_high (k := 16) _ _ (by decide) rfl, field_high (k := 15) _ _ (by decide) rfl, field_high (k := 10) _ _ (by decide) rfl, field_high (k := 5) _ _ (by decide) rfl, field_high (k := 0) _ _ (by decide) rfl]; exact BitVec.extractLsb'_eq_self
  have h8 : fld W 0 4 = 0#4 := by subst hW; unfold fld; exact field_low _ _
  have hd : decodeMap .S W = .ok (.fadd d a b ta tb dbl) := by
    change decodeS W = _
    unfold decodeS; rw [h7]
    change decodeS27 W = _
    unfold decodeS27; rw [h8]
    refine Eq.trans (b := zeroed (fld W 5 3 = 0) <| .ok (.fadd (fld W 20 5) (fld W 15 5) (fld W 10 5) (flag W 9) (flag W 8) (flag W 4))) rfl ?_
    rw [h0, h1, h2, h3, h4, h5, h6]; rfl
  unfold decode; rw [hd]; exact if_pos hf

theorem fsub (d : BitVec 5) (a : BitVec 5) (b : BitVec 5) (ta : Bool) (tb : Bool) (dbl : Bool) : Statement (.fsub d a b ta tb dbl) := by
  intro k hk hf; cases hk; refine ⟨_, rfl, ?_⟩
  generalize hW : (0x27#7 ++ d ++ a ++ b ++ ofBool ta ++ ofBool tb ++ 0#3 ++ ofBool dbl ++ 1#4 : Word32) = W
  have h0 : fld W 5 3 = 0#3 := by subst hW; unfold fld; rw [field_high (k := 1) _ _ (by decide) rfl, field_high (k := 0) _ _ (by decide) rfl]; exact field_low _ _
  have h1 : fld W 20 5 = d := by subst hW; unfold fld; rw [field_high (k := 16) _ _ (by decide) rfl, field_high (k := 15) _ _ (by decide) rfl, field_high (k := 12) _ _ (by decide) rfl, field_high (k := 11) _ _ (by decide) rfl, field_high (k := 10) _ _ (by decide) rfl, field_high (k := 5) _ _ (by decide) rfl, field_high (k := 0) _ _ (by decide) rfl]; exact field_low _ _
  have h2 : fld W 15 5 = a := by subst hW; unfold fld; rw [field_high (k := 11) _ _ (by decide) rfl, field_high (k := 10) _ _ (by decide) rfl, field_high (k := 7) _ _ (by decide) rfl, field_high (k := 6) _ _ (by decide) rfl, field_high (k := 5) _ _ (by decide) rfl, field_high (k := 0) _ _ (by decide) rfl]; exact field_low _ _
  have h3 : fld W 10 5 = b := by subst hW; unfold fld; rw [field_high (k := 6) _ _ (by decide) rfl, field_high (k := 5) _ _ (by decide) rfl, field_high (k := 2) _ _ (by decide) rfl, field_high (k := 1) _ _ (by decide) rfl, field_high (k := 0) _ _ (by decide) rfl]; exact field_low _ _
  have h4 : flag W 9 = ta := by subst hW; unfold flag; rw [bit_high (k := 5) _ _ (by decide) rfl, bit_high (k := 4) _ _ (by decide) rfl, bit_high (k := 1) _ _ (by decide) rfl, bit_high (k := 0) _ _ (by decide) rfl]; exact bit_low _ _
  have h5 : flag W 8 = tb := by subst hW; unfold flag; rw [bit_high (k := 4) _ _ (by decide) rfl, bit_high (k := 3) _ _ (by decide) rfl, bit_high (k := 0) _ _ (by decide) rfl]; exact bit_low _ _
  have h6 : flag W 4 = dbl := by subst hW; unfold flag; rw [bit_high (k := 0) _ _ (by decide) rfl]; exact bit_low _ _
  have h7 : fld W 25 7 = 0x27#7 := by subst hW; unfold fld; rw [field_high (k := 21) _ _ (by decide) rfl, field_high (k := 20) _ _ (by decide) rfl, field_high (k := 17) _ _ (by decide) rfl, field_high (k := 16) _ _ (by decide) rfl, field_high (k := 15) _ _ (by decide) rfl, field_high (k := 10) _ _ (by decide) rfl, field_high (k := 5) _ _ (by decide) rfl, field_high (k := 0) _ _ (by decide) rfl]; exact BitVec.extractLsb'_eq_self
  have h8 : fld W 0 4 = 1#4 := by subst hW; unfold fld; exact field_low _ _
  have hd : decodeMap .S W = .ok (.fsub d a b ta tb dbl) := by
    change decodeS W = _
    unfold decodeS; rw [h7]
    change decodeS27 W = _
    unfold decodeS27; rw [h8]
    refine Eq.trans (b := zeroed (fld W 5 3 = 0) <| .ok (.fsub (fld W 20 5) (fld W 15 5) (fld W 10 5) (flag W 9) (flag W 8) (flag W 4))) rfl ?_
    rw [h0, h1, h2, h3, h4, h5, h6]; rfl
  unfold decode; rw [hd]; exact if_pos hf

theorem fmul (d : BitVec 5) (a : BitVec 5) (b : BitVec 5) (ta : Bool) (tb : Bool) (dbl : Bool) : Statement (.fmul d a b ta tb dbl) := by
  intro k hk hf; cases hk; refine ⟨_, rfl, ?_⟩
  generalize hW : (0x27#7 ++ d ++ a ++ b ++ ofBool ta ++ ofBool tb ++ 0#3 ++ ofBool dbl ++ 2#4 : Word32) = W
  have h0 : fld W 5 3 = 0#3 := by subst hW; unfold fld; rw [field_high (k := 1) _ _ (by decide) rfl, field_high (k := 0) _ _ (by decide) rfl]; exact field_low _ _
  have h1 : fld W 20 5 = d := by subst hW; unfold fld; rw [field_high (k := 16) _ _ (by decide) rfl, field_high (k := 15) _ _ (by decide) rfl, field_high (k := 12) _ _ (by decide) rfl, field_high (k := 11) _ _ (by decide) rfl, field_high (k := 10) _ _ (by decide) rfl, field_high (k := 5) _ _ (by decide) rfl, field_high (k := 0) _ _ (by decide) rfl]; exact field_low _ _
  have h2 : fld W 15 5 = a := by subst hW; unfold fld; rw [field_high (k := 11) _ _ (by decide) rfl, field_high (k := 10) _ _ (by decide) rfl, field_high (k := 7) _ _ (by decide) rfl, field_high (k := 6) _ _ (by decide) rfl, field_high (k := 5) _ _ (by decide) rfl, field_high (k := 0) _ _ (by decide) rfl]; exact field_low _ _
  have h3 : fld W 10 5 = b := by subst hW; unfold fld; rw [field_high (k := 6) _ _ (by decide) rfl, field_high (k := 5) _ _ (by decide) rfl, field_high (k := 2) _ _ (by decide) rfl, field_high (k := 1) _ _ (by decide) rfl, field_high (k := 0) _ _ (by decide) rfl]; exact field_low _ _
  have h4 : flag W 9 = ta := by subst hW; unfold flag; rw [bit_high (k := 5) _ _ (by decide) rfl, bit_high (k := 4) _ _ (by decide) rfl, bit_high (k := 1) _ _ (by decide) rfl, bit_high (k := 0) _ _ (by decide) rfl]; exact bit_low _ _
  have h5 : flag W 8 = tb := by subst hW; unfold flag; rw [bit_high (k := 4) _ _ (by decide) rfl, bit_high (k := 3) _ _ (by decide) rfl, bit_high (k := 0) _ _ (by decide) rfl]; exact bit_low _ _
  have h6 : flag W 4 = dbl := by subst hW; unfold flag; rw [bit_high (k := 0) _ _ (by decide) rfl]; exact bit_low _ _
  have h7 : fld W 25 7 = 0x27#7 := by subst hW; unfold fld; rw [field_high (k := 21) _ _ (by decide) rfl, field_high (k := 20) _ _ (by decide) rfl, field_high (k := 17) _ _ (by decide) rfl, field_high (k := 16) _ _ (by decide) rfl, field_high (k := 15) _ _ (by decide) rfl, field_high (k := 10) _ _ (by decide) rfl, field_high (k := 5) _ _ (by decide) rfl, field_high (k := 0) _ _ (by decide) rfl]; exact BitVec.extractLsb'_eq_self
  have h8 : fld W 0 4 = 2#4 := by subst hW; unfold fld; exact field_low _ _
  have hd : decodeMap .S W = .ok (.fmul d a b ta tb dbl) := by
    change decodeS W = _
    unfold decodeS; rw [h7]
    change decodeS27 W = _
    unfold decodeS27; rw [h8]
    refine Eq.trans (b := zeroed (fld W 5 3 = 0) <| .ok (.fmul (fld W 20 5) (fld W 15 5) (fld W 10 5) (flag W 9) (flag W 8) (flag W 4))) rfl ?_
    rw [h0, h1, h2, h3, h4, h5, h6]; rfl
  unfold decode; rw [hd]; exact if_pos hf

theorem fdiv (d : BitVec 5) (a : BitVec 5) (b : BitVec 5) (ta : Bool) (tb : Bool) (dbl : Bool) : Statement (.fdiv d a b ta tb dbl) := by
  intro k hk hf; cases hk; refine ⟨_, rfl, ?_⟩
  generalize hW : (0x27#7 ++ d ++ a ++ b ++ ofBool ta ++ ofBool tb ++ 0#3 ++ ofBool dbl ++ 3#4 : Word32) = W
  have h0 : fld W 5 3 = 0#3 := by subst hW; unfold fld; rw [field_high (k := 1) _ _ (by decide) rfl, field_high (k := 0) _ _ (by decide) rfl]; exact field_low _ _
  have h1 : fld W 20 5 = d := by subst hW; unfold fld; rw [field_high (k := 16) _ _ (by decide) rfl, field_high (k := 15) _ _ (by decide) rfl, field_high (k := 12) _ _ (by decide) rfl, field_high (k := 11) _ _ (by decide) rfl, field_high (k := 10) _ _ (by decide) rfl, field_high (k := 5) _ _ (by decide) rfl, field_high (k := 0) _ _ (by decide) rfl]; exact field_low _ _
  have h2 : fld W 15 5 = a := by subst hW; unfold fld; rw [field_high (k := 11) _ _ (by decide) rfl, field_high (k := 10) _ _ (by decide) rfl, field_high (k := 7) _ _ (by decide) rfl, field_high (k := 6) _ _ (by decide) rfl, field_high (k := 5) _ _ (by decide) rfl, field_high (k := 0) _ _ (by decide) rfl]; exact field_low _ _
  have h3 : fld W 10 5 = b := by subst hW; unfold fld; rw [field_high (k := 6) _ _ (by decide) rfl, field_high (k := 5) _ _ (by decide) rfl, field_high (k := 2) _ _ (by decide) rfl, field_high (k := 1) _ _ (by decide) rfl, field_high (k := 0) _ _ (by decide) rfl]; exact field_low _ _
  have h4 : flag W 9 = ta := by subst hW; unfold flag; rw [bit_high (k := 5) _ _ (by decide) rfl, bit_high (k := 4) _ _ (by decide) rfl, bit_high (k := 1) _ _ (by decide) rfl, bit_high (k := 0) _ _ (by decide) rfl]; exact bit_low _ _
  have h5 : flag W 8 = tb := by subst hW; unfold flag; rw [bit_high (k := 4) _ _ (by decide) rfl, bit_high (k := 3) _ _ (by decide) rfl, bit_high (k := 0) _ _ (by decide) rfl]; exact bit_low _ _
  have h6 : flag W 4 = dbl := by subst hW; unfold flag; rw [bit_high (k := 0) _ _ (by decide) rfl]; exact bit_low _ _
  have h7 : fld W 25 7 = 0x27#7 := by subst hW; unfold fld; rw [field_high (k := 21) _ _ (by decide) rfl, field_high (k := 20) _ _ (by decide) rfl, field_high (k := 17) _ _ (by decide) rfl, field_high (k := 16) _ _ (by decide) rfl, field_high (k := 15) _ _ (by decide) rfl, field_high (k := 10) _ _ (by decide) rfl, field_high (k := 5) _ _ (by decide) rfl, field_high (k := 0) _ _ (by decide) rfl]; exact BitVec.extractLsb'_eq_self
  have h8 : fld W 0 4 = 3#4 := by subst hW; unfold fld; exact field_low _ _
  have hd : decodeMap .S W = .ok (.fdiv d a b ta tb dbl) := by
    change decodeS W = _
    unfold decodeS; rw [h7]
    change decodeS27 W = _
    unfold decodeS27; rw [h8]
    refine Eq.trans (b := zeroed (fld W 5 3 = 0) <| .ok (.fdiv (fld W 20 5) (fld W 15 5) (fld W 10 5) (flag W 9) (flag W 8) (flag W 4))) rfl ?_
    rw [h0, h1, h2, h3, h4, h5, h6]; rfl
  unfold decode; rw [hd]; exact if_pos hf

theorem fmin (d : BitVec 5) (a : BitVec 5) (b : BitVec 5) (ta : Bool) (tb : Bool) (dbl : Bool) : Statement (.fmin d a b ta tb dbl) := by
  intro k hk hf; cases hk; refine ⟨_, rfl, ?_⟩
  generalize hW : (0x27#7 ++ d ++ a ++ b ++ ofBool ta ++ ofBool tb ++ 0#3 ++ ofBool dbl ++ 4#4 : Word32) = W
  have h0 : fld W 5 3 = 0#3 := by subst hW; unfold fld; rw [field_high (k := 1) _ _ (by decide) rfl, field_high (k := 0) _ _ (by decide) rfl]; exact field_low _ _
  have h1 : fld W 20 5 = d := by subst hW; unfold fld; rw [field_high (k := 16) _ _ (by decide) rfl, field_high (k := 15) _ _ (by decide) rfl, field_high (k := 12) _ _ (by decide) rfl, field_high (k := 11) _ _ (by decide) rfl, field_high (k := 10) _ _ (by decide) rfl, field_high (k := 5) _ _ (by decide) rfl, field_high (k := 0) _ _ (by decide) rfl]; exact field_low _ _
  have h2 : fld W 15 5 = a := by subst hW; unfold fld; rw [field_high (k := 11) _ _ (by decide) rfl, field_high (k := 10) _ _ (by decide) rfl, field_high (k := 7) _ _ (by decide) rfl, field_high (k := 6) _ _ (by decide) rfl, field_high (k := 5) _ _ (by decide) rfl, field_high (k := 0) _ _ (by decide) rfl]; exact field_low _ _
  have h3 : fld W 10 5 = b := by subst hW; unfold fld; rw [field_high (k := 6) _ _ (by decide) rfl, field_high (k := 5) _ _ (by decide) rfl, field_high (k := 2) _ _ (by decide) rfl, field_high (k := 1) _ _ (by decide) rfl, field_high (k := 0) _ _ (by decide) rfl]; exact field_low _ _
  have h4 : flag W 9 = ta := by subst hW; unfold flag; rw [bit_high (k := 5) _ _ (by decide) rfl, bit_high (k := 4) _ _ (by decide) rfl, bit_high (k := 1) _ _ (by decide) rfl, bit_high (k := 0) _ _ (by decide) rfl]; exact bit_low _ _
  have h5 : flag W 8 = tb := by subst hW; unfold flag; rw [bit_high (k := 4) _ _ (by decide) rfl, bit_high (k := 3) _ _ (by decide) rfl, bit_high (k := 0) _ _ (by decide) rfl]; exact bit_low _ _
  have h6 : flag W 4 = dbl := by subst hW; unfold flag; rw [bit_high (k := 0) _ _ (by decide) rfl]; exact bit_low _ _
  have h7 : fld W 25 7 = 0x27#7 := by subst hW; unfold fld; rw [field_high (k := 21) _ _ (by decide) rfl, field_high (k := 20) _ _ (by decide) rfl, field_high (k := 17) _ _ (by decide) rfl, field_high (k := 16) _ _ (by decide) rfl, field_high (k := 15) _ _ (by decide) rfl, field_high (k := 10) _ _ (by decide) rfl, field_high (k := 5) _ _ (by decide) rfl, field_high (k := 0) _ _ (by decide) rfl]; exact BitVec.extractLsb'_eq_self
  have h8 : fld W 0 4 = 4#4 := by subst hW; unfold fld; exact field_low _ _
  have hd : decodeMap .S W = .ok (.fmin d a b ta tb dbl) := by
    change decodeS W = _
    unfold decodeS; rw [h7]
    change decodeS27 W = _
    unfold decodeS27; rw [h8]
    refine Eq.trans (b := zeroed (fld W 5 3 = 0) <| .ok (.fmin (fld W 20 5) (fld W 15 5) (fld W 10 5) (flag W 9) (flag W 8) (flag W 4))) rfl ?_
    rw [h0, h1, h2, h3, h4, h5, h6]; rfl
  unfold decode; rw [hd]; exact if_pos hf

theorem fmax (d : BitVec 5) (a : BitVec 5) (b : BitVec 5) (ta : Bool) (tb : Bool) (dbl : Bool) : Statement (.fmax d a b ta tb dbl) := by
  intro k hk hf; cases hk; refine ⟨_, rfl, ?_⟩
  generalize hW : (0x27#7 ++ d ++ a ++ b ++ ofBool ta ++ ofBool tb ++ 0#3 ++ ofBool dbl ++ 5#4 : Word32) = W
  have h0 : fld W 5 3 = 0#3 := by subst hW; unfold fld; rw [field_high (k := 1) _ _ (by decide) rfl, field_high (k := 0) _ _ (by decide) rfl]; exact field_low _ _
  have h1 : fld W 20 5 = d := by subst hW; unfold fld; rw [field_high (k := 16) _ _ (by decide) rfl, field_high (k := 15) _ _ (by decide) rfl, field_high (k := 12) _ _ (by decide) rfl, field_high (k := 11) _ _ (by decide) rfl, field_high (k := 10) _ _ (by decide) rfl, field_high (k := 5) _ _ (by decide) rfl, field_high (k := 0) _ _ (by decide) rfl]; exact field_low _ _
  have h2 : fld W 15 5 = a := by subst hW; unfold fld; rw [field_high (k := 11) _ _ (by decide) rfl, field_high (k := 10) _ _ (by decide) rfl, field_high (k := 7) _ _ (by decide) rfl, field_high (k := 6) _ _ (by decide) rfl, field_high (k := 5) _ _ (by decide) rfl, field_high (k := 0) _ _ (by decide) rfl]; exact field_low _ _
  have h3 : fld W 10 5 = b := by subst hW; unfold fld; rw [field_high (k := 6) _ _ (by decide) rfl, field_high (k := 5) _ _ (by decide) rfl, field_high (k := 2) _ _ (by decide) rfl, field_high (k := 1) _ _ (by decide) rfl, field_high (k := 0) _ _ (by decide) rfl]; exact field_low _ _
  have h4 : flag W 9 = ta := by subst hW; unfold flag; rw [bit_high (k := 5) _ _ (by decide) rfl, bit_high (k := 4) _ _ (by decide) rfl, bit_high (k := 1) _ _ (by decide) rfl, bit_high (k := 0) _ _ (by decide) rfl]; exact bit_low _ _
  have h5 : flag W 8 = tb := by subst hW; unfold flag; rw [bit_high (k := 4) _ _ (by decide) rfl, bit_high (k := 3) _ _ (by decide) rfl, bit_high (k := 0) _ _ (by decide) rfl]; exact bit_low _ _
  have h6 : flag W 4 = dbl := by subst hW; unfold flag; rw [bit_high (k := 0) _ _ (by decide) rfl]; exact bit_low _ _
  have h7 : fld W 25 7 = 0x27#7 := by subst hW; unfold fld; rw [field_high (k := 21) _ _ (by decide) rfl, field_high (k := 20) _ _ (by decide) rfl, field_high (k := 17) _ _ (by decide) rfl, field_high (k := 16) _ _ (by decide) rfl, field_high (k := 15) _ _ (by decide) rfl, field_high (k := 10) _ _ (by decide) rfl, field_high (k := 5) _ _ (by decide) rfl, field_high (k := 0) _ _ (by decide) rfl]; exact BitVec.extractLsb'_eq_self
  have h8 : fld W 0 4 = 5#4 := by subst hW; unfold fld; exact field_low _ _
  have hd : decodeMap .S W = .ok (.fmax d a b ta tb dbl) := by
    change decodeS W = _
    unfold decodeS; rw [h7]
    change decodeS27 W = _
    unfold decodeS27; rw [h8]
    refine Eq.trans (b := zeroed (fld W 5 3 = 0) <| .ok (.fmax (fld W 20 5) (fld W 15 5) (fld W 10 5) (flag W 9) (flag W 8) (flag W 4))) rfl ?_
    rw [h0, h1, h2, h3, h4, h5, h6]; rfl
  unfold decode; rw [hd]; exact if_pos hf

theorem fminn (d : BitVec 5) (a : BitVec 5) (b : BitVec 5) (ta : Bool) (tb : Bool) (dbl : Bool) : Statement (.fminn d a b ta tb dbl) := by
  intro k hk hf; cases hk; refine ⟨_, rfl, ?_⟩
  generalize hW : (0x27#7 ++ d ++ a ++ b ++ ofBool ta ++ ofBool tb ++ 0#3 ++ ofBool dbl ++ 6#4 : Word32) = W
  have h0 : fld W 5 3 = 0#3 := by subst hW; unfold fld; rw [field_high (k := 1) _ _ (by decide) rfl, field_high (k := 0) _ _ (by decide) rfl]; exact field_low _ _
  have h1 : fld W 20 5 = d := by subst hW; unfold fld; rw [field_high (k := 16) _ _ (by decide) rfl, field_high (k := 15) _ _ (by decide) rfl, field_high (k := 12) _ _ (by decide) rfl, field_high (k := 11) _ _ (by decide) rfl, field_high (k := 10) _ _ (by decide) rfl, field_high (k := 5) _ _ (by decide) rfl, field_high (k := 0) _ _ (by decide) rfl]; exact field_low _ _
  have h2 : fld W 15 5 = a := by subst hW; unfold fld; rw [field_high (k := 11) _ _ (by decide) rfl, field_high (k := 10) _ _ (by decide) rfl, field_high (k := 7) _ _ (by decide) rfl, field_high (k := 6) _ _ (by decide) rfl, field_high (k := 5) _ _ (by decide) rfl, field_high (k := 0) _ _ (by decide) rfl]; exact field_low _ _
  have h3 : fld W 10 5 = b := by subst hW; unfold fld; rw [field_high (k := 6) _ _ (by decide) rfl, field_high (k := 5) _ _ (by decide) rfl, field_high (k := 2) _ _ (by decide) rfl, field_high (k := 1) _ _ (by decide) rfl, field_high (k := 0) _ _ (by decide) rfl]; exact field_low _ _
  have h4 : flag W 9 = ta := by subst hW; unfold flag; rw [bit_high (k := 5) _ _ (by decide) rfl, bit_high (k := 4) _ _ (by decide) rfl, bit_high (k := 1) _ _ (by decide) rfl, bit_high (k := 0) _ _ (by decide) rfl]; exact bit_low _ _
  have h5 : flag W 8 = tb := by subst hW; unfold flag; rw [bit_high (k := 4) _ _ (by decide) rfl, bit_high (k := 3) _ _ (by decide) rfl, bit_high (k := 0) _ _ (by decide) rfl]; exact bit_low _ _
  have h6 : flag W 4 = dbl := by subst hW; unfold flag; rw [bit_high (k := 0) _ _ (by decide) rfl]; exact bit_low _ _
  have h7 : fld W 25 7 = 0x27#7 := by subst hW; unfold fld; rw [field_high (k := 21) _ _ (by decide) rfl, field_high (k := 20) _ _ (by decide) rfl, field_high (k := 17) _ _ (by decide) rfl, field_high (k := 16) _ _ (by decide) rfl, field_high (k := 15) _ _ (by decide) rfl, field_high (k := 10) _ _ (by decide) rfl, field_high (k := 5) _ _ (by decide) rfl, field_high (k := 0) _ _ (by decide) rfl]; exact BitVec.extractLsb'_eq_self
  have h8 : fld W 0 4 = 6#4 := by subst hW; unfold fld; exact field_low _ _
  have hd : decodeMap .S W = .ok (.fminn d a b ta tb dbl) := by
    change decodeS W = _
    unfold decodeS; rw [h7]
    change decodeS27 W = _
    unfold decodeS27; rw [h8]
    refine Eq.trans (b := zeroed (fld W 5 3 = 0) <| .ok (.fminn (fld W 20 5) (fld W 15 5) (fld W 10 5) (flag W 9) (flag W 8) (flag W 4))) rfl ?_
    rw [h0, h1, h2, h3, h4, h5, h6]; rfl
  unfold decode; rw [hd]; exact if_pos hf

theorem fmaxn (d : BitVec 5) (a : BitVec 5) (b : BitVec 5) (ta : Bool) (tb : Bool) (dbl : Bool) : Statement (.fmaxn d a b ta tb dbl) := by
  intro k hk hf; cases hk; refine ⟨_, rfl, ?_⟩
  generalize hW : (0x27#7 ++ d ++ a ++ b ++ ofBool ta ++ ofBool tb ++ 0#3 ++ ofBool dbl ++ 7#4 : Word32) = W
  have h0 : fld W 5 3 = 0#3 := by subst hW; unfold fld; rw [field_high (k := 1) _ _ (by decide) rfl, field_high (k := 0) _ _ (by decide) rfl]; exact field_low _ _
  have h1 : fld W 20 5 = d := by subst hW; unfold fld; rw [field_high (k := 16) _ _ (by decide) rfl, field_high (k := 15) _ _ (by decide) rfl, field_high (k := 12) _ _ (by decide) rfl, field_high (k := 11) _ _ (by decide) rfl, field_high (k := 10) _ _ (by decide) rfl, field_high (k := 5) _ _ (by decide) rfl, field_high (k := 0) _ _ (by decide) rfl]; exact field_low _ _
  have h2 : fld W 15 5 = a := by subst hW; unfold fld; rw [field_high (k := 11) _ _ (by decide) rfl, field_high (k := 10) _ _ (by decide) rfl, field_high (k := 7) _ _ (by decide) rfl, field_high (k := 6) _ _ (by decide) rfl, field_high (k := 5) _ _ (by decide) rfl, field_high (k := 0) _ _ (by decide) rfl]; exact field_low _ _
  have h3 : fld W 10 5 = b := by subst hW; unfold fld; rw [field_high (k := 6) _ _ (by decide) rfl, field_high (k := 5) _ _ (by decide) rfl, field_high (k := 2) _ _ (by decide) rfl, field_high (k := 1) _ _ (by decide) rfl, field_high (k := 0) _ _ (by decide) rfl]; exact field_low _ _
  have h4 : flag W 9 = ta := by subst hW; unfold flag; rw [bit_high (k := 5) _ _ (by decide) rfl, bit_high (k := 4) _ _ (by decide) rfl, bit_high (k := 1) _ _ (by decide) rfl, bit_high (k := 0) _ _ (by decide) rfl]; exact bit_low _ _
  have h5 : flag W 8 = tb := by subst hW; unfold flag; rw [bit_high (k := 4) _ _ (by decide) rfl, bit_high (k := 3) _ _ (by decide) rfl, bit_high (k := 0) _ _ (by decide) rfl]; exact bit_low _ _
  have h6 : flag W 4 = dbl := by subst hW; unfold flag; rw [bit_high (k := 0) _ _ (by decide) rfl]; exact bit_low _ _
  have h7 : fld W 25 7 = 0x27#7 := by subst hW; unfold fld; rw [field_high (k := 21) _ _ (by decide) rfl, field_high (k := 20) _ _ (by decide) rfl, field_high (k := 17) _ _ (by decide) rfl, field_high (k := 16) _ _ (by decide) rfl, field_high (k := 15) _ _ (by decide) rfl, field_high (k := 10) _ _ (by decide) rfl, field_high (k := 5) _ _ (by decide) rfl, field_high (k := 0) _ _ (by decide) rfl]; exact BitVec.extractLsb'_eq_self
  have h8 : fld W 0 4 = 7#4 := by subst hW; unfold fld; exact field_low _ _
  have hd : decodeMap .S W = .ok (.fmaxn d a b ta tb dbl) := by
    change decodeS W = _
    unfold decodeS; rw [h7]
    change decodeS27 W = _
    unfold decodeS27; rw [h8]
    refine Eq.trans (b := zeroed (fld W 5 3 = 0) <| .ok (.fmaxn (fld W 20 5) (fld W 15 5) (fld W 10 5) (flag W 9) (flag W 8) (flag W 4))) rfl ?_
    rw [h0, h1, h2, h3, h4, h5, h6]; rfl
  unfold decode; rw [hd]; exact if_pos hf

theorem fsqrt (d : BitVec 5) (a : BitVec 5) (ta : Bool) (dbl : Bool) : Statement (.fsqrt d a ta dbl) := by
  intro k hk hf; cases hk; refine ⟨_, rfl, ?_⟩
  generalize hW : (0x27#7 ++ d ++ a ++ 0#5 ++ ofBool ta ++ 0#4 ++ ofBool dbl ++ 8#4 : Word32) = W
  have h0 : fld W 10 5 = 0#5 := by subst hW; unfold fld; rw [field_high (k := 6) _ _ (by decide) rfl, field_high (k := 5) _ _ (by decide) rfl, field_high (k := 1) _ _ (by decide) rfl, field_high (k := 0) _ _ (by decide) rfl]; exact field_low _ _
  have h1 : fld W 5 4 = 0#4 := by subst hW; unfold fld; rw [field_high (k := 1) _ _ (by decide) rfl, field_high (k := 0) _ _ (by decide) rfl]; exact field_low _ _
  have h2 : fld W 20 5 = d := by subst hW; unfold fld; rw [field_high (k := 16) _ _ (by decide) rfl, field_high (k := 15) _ _ (by decide) rfl, field_high (k := 11) _ _ (by decide) rfl, field_high (k := 10) _ _ (by decide) rfl, field_high (k := 5) _ _ (by decide) rfl, field_high (k := 0) _ _ (by decide) rfl]; exact field_low _ _
  have h3 : fld W 15 5 = a := by subst hW; unfold fld; rw [field_high (k := 11) _ _ (by decide) rfl, field_high (k := 10) _ _ (by decide) rfl, field_high (k := 6) _ _ (by decide) rfl, field_high (k := 5) _ _ (by decide) rfl, field_high (k := 0) _ _ (by decide) rfl]; exact field_low _ _
  have h4 : flag W 9 = ta := by subst hW; unfold flag; rw [bit_high (k := 5) _ _ (by decide) rfl, bit_high (k := 4) _ _ (by decide) rfl, bit_high (k := 0) _ _ (by decide) rfl]; exact bit_low _ _
  have h5 : flag W 4 = dbl := by subst hW; unfold flag; rw [bit_high (k := 0) _ _ (by decide) rfl]; exact bit_low _ _
  have h6 : fld W 25 7 = 0x27#7 := by subst hW; unfold fld; rw [field_high (k := 21) _ _ (by decide) rfl, field_high (k := 20) _ _ (by decide) rfl, field_high (k := 16) _ _ (by decide) rfl, field_high (k := 15) _ _ (by decide) rfl, field_high (k := 10) _ _ (by decide) rfl, field_high (k := 5) _ _ (by decide) rfl, field_high (k := 0) _ _ (by decide) rfl]; exact BitVec.extractLsb'_eq_self
  have h7 : fld W 0 4 = 8#4 := by subst hW; unfold fld; exact field_low _ _
  have hd : decodeMap .S W = .ok (.fsqrt d a ta dbl) := by
    change decodeS W = _
    unfold decodeS; rw [h6]
    change decodeS27 W = _
    unfold decodeS27; rw [h7]
    refine Eq.trans (b := zeroed (fld W 10 5 = 0 ∧ fld W 5 4 = 0) <| .ok (.fsqrt (fld W 20 5) (fld W 15 5) (flag W 9) (flag W 4))) rfl ?_
    rw [h0, h1, h2, h3, h4, h5]; rfl
  unfold decode; rw [hd]; exact if_pos hf

theorem fcmp (toS : Bool) (d : BitVec 4) (a : BitVec 5) (b : BitVec 5) (ta : Bool) (tb : Bool) (dbl : Bool) (cc : FCond) : Statement (.fcmp toS d a b ta tb dbl cc) := by
  intro k hk hf; cases hk; refine ⟨_, rfl, ?_⟩
  generalize hW : (0x28#7 ++ ofBool toS ++ d ++ a ++ b ++ ofBool ta ++ ofBool tb ++ 0#3 ++ ofBool dbl ++ 0#1 ++ ofNat 3 cc.code : Word32) = W
  have h0 : fld W 5 3 = 0#3 := by subst hW; unfold fld; rw [field_high (k := 2) _ _ (by decide) rfl, field_high (k := 1) _ _ (by decide) rfl, field_high (k := 0) _ _ (by decide) rfl]; exact field_low _ _
  have h1 : fld W 3 1 = 0#1 := by subst hW; unfold fld; rw [field_high (k := 0) _ _ (by decide) rfl]; exact field_low _ _
  have h2 : fld W 0 3 = ofNat 3 cc.code := by subst hW; unfold fld; exact field_low _ _
  have h3 : flag W 24 = toS := by subst hW; unfold flag; rw [bit_high (k := 21) _ _ (by decide) rfl, bit_high (k := 20) _ _ (by decide) rfl, bit_high (k := 19) _ _ (by decide) rfl, bit_high (k := 16) _ _ (by decide) rfl, bit_high (k := 15) _ _ (by decide) rfl, bit_high (k := 14) _ _ (by decide) rfl, bit_high (k := 9) _ _ (by decide) rfl, bit_high (k := 4) _ _ (by decide) rfl, bit_high (k := 0) _ _ (by decide) rfl]; exact bit_low _ _
  have h4 : fld W 20 4 = d := by subst hW; unfold fld; rw [field_high (k := 17) _ _ (by decide) rfl, field_high (k := 16) _ _ (by decide) rfl, field_high (k := 15) _ _ (by decide) rfl, field_high (k := 12) _ _ (by decide) rfl, field_high (k := 11) _ _ (by decide) rfl, field_high (k := 10) _ _ (by decide) rfl, field_high (k := 5) _ _ (by decide) rfl, field_high (k := 0) _ _ (by decide) rfl]; exact field_low _ _
  have h5 : fld W 15 5 = a := by subst hW; unfold fld; rw [field_high (k := 12) _ _ (by decide) rfl, field_high (k := 11) _ _ (by decide) rfl, field_high (k := 10) _ _ (by decide) rfl, field_high (k := 7) _ _ (by decide) rfl, field_high (k := 6) _ _ (by decide) rfl, field_high (k := 5) _ _ (by decide) rfl, field_high (k := 0) _ _ (by decide) rfl]; exact field_low _ _
  have h6 : fld W 10 5 = b := by subst hW; unfold fld; rw [field_high (k := 7) _ _ (by decide) rfl, field_high (k := 6) _ _ (by decide) rfl, field_high (k := 5) _ _ (by decide) rfl, field_high (k := 2) _ _ (by decide) rfl, field_high (k := 1) _ _ (by decide) rfl, field_high (k := 0) _ _ (by decide) rfl]; exact field_low _ _
  have h7 : flag W 9 = ta := by subst hW; unfold flag; rw [bit_high (k := 6) _ _ (by decide) rfl, bit_high (k := 5) _ _ (by decide) rfl, bit_high (k := 4) _ _ (by decide) rfl, bit_high (k := 1) _ _ (by decide) rfl, bit_high (k := 0) _ _ (by decide) rfl]; exact bit_low _ _
  have h8 : flag W 8 = tb := by subst hW; unfold flag; rw [bit_high (k := 5) _ _ (by decide) rfl, bit_high (k := 4) _ _ (by decide) rfl, bit_high (k := 3) _ _ (by decide) rfl, bit_high (k := 0) _ _ (by decide) rfl]; exact bit_low _ _
  have h9 : flag W 4 = dbl := by subst hW; unfold flag; rw [bit_high (k := 1) _ _ (by decide) rfl, bit_high (k := 0) _ _ (by decide) rfl]; exact bit_low _ _
  have h10 : fld W 25 7 = 0x28#7 := by subst hW; unfold fld; rw [field_high (k := 22) _ _ (by decide) rfl, field_high (k := 21) _ _ (by decide) rfl, field_high (k := 20) _ _ (by decide) rfl, field_high (k := 17) _ _ (by decide) rfl, field_high (k := 16) _ _ (by decide) rfl, field_high (k := 15) _ _ (by decide) rfl, field_high (k := 10) _ _ (by decide) rfl, field_high (k := 5) _ _ (by decide) rfl, field_high (k := 1) _ _ (by decide) rfl, field_high (k := 0) _ _ (by decide) rfl]; exact BitVec.extractLsb'_eq_self
  have ch2 : FCond.ofCode? (fld W 0 3).toNat = some cc := by rw [h2]; cases cc <;> rfl
  have hd : decodeMap .S W = .ok (.fcmp toS d a b ta tb dbl cc) := by
    change decodeS W = _
    unfold decodeS; rw [h10]
    refine Eq.trans (b := zeroed (fld W 5 3 = 0 ∧ fld W 3 1 = 0) <| reading (FCond.ofCode? (fld W 0 3).toNat) fun cc => .ok (.fcmp (flag W 24) (fld W 20 4) (fld W 15 5) (fld W 10 5) (flag W 9) (flag W 8) (flag W 4) cc)) rfl ?_
    rw [ch2, h0, h1, h3, h4, h5, h6, h7, h8, h9]; rfl
  unfold decode; rw [hd]; exact if_pos hf

theorem fcvt (d : BitVec 5) (a : BitVec 5) (ta : Bool) (cv : FConv) (rnd : Rnd) : Statement (.fcvt d a ta cv rnd) := by
  intro k hk hf; cases hk; refine ⟨_, rfl, ?_⟩
  generalize hW : (0x29#7 ++ d ++ a ++ 0#5 ++ ofBool ta ++ 0#1 ++ ofNat 5 cv.code ++ ofNat 3 rnd.code : Word32) = W
  have h0 : fld W 10 5 = 0#5 := by subst hW; unfold fld; rw [field_high (k := 7) _ _ (by decide) rfl, field_high (k := 2) _ _ (by decide) rfl, field_high (k := 1) _ _ (by decide) rfl, field_high (k := 0) _ _ (by decide) rfl]; exact field_low _ _
  have h1 : fld W 8 1 = 0#1 := by subst hW; unfold fld; rw [field_high (k := 5) _ _ (by decide) rfl, field_high (k := 0) _ _ (by decide) rfl]; exact field_low _ _
  have h2 : fld W 3 5 = ofNat 5 cv.code := by subst hW; unfold fld; rw [field_high (k := 0) _ _ (by decide) rfl]; exact field_low _ _
  have h3 : fld W 0 3 = ofNat 3 rnd.code := by subst hW; unfold fld; exact field_low _ _
  have h4 : fld W 20 5 = d := by subst hW; unfold fld; rw [field_high (k := 17) _ _ (by decide) rfl, field_high (k := 12) _ _ (by decide) rfl, field_high (k := 11) _ _ (by decide) rfl, field_high (k := 10) _ _ (by decide) rfl, field_high (k := 5) _ _ (by decide) rfl, field_high (k := 0) _ _ (by decide) rfl]; exact field_low _ _
  have h5 : fld W 15 5 = a := by subst hW; unfold fld; rw [field_high (k := 12) _ _ (by decide) rfl, field_high (k := 7) _ _ (by decide) rfl, field_high (k := 6) _ _ (by decide) rfl, field_high (k := 5) _ _ (by decide) rfl, field_high (k := 0) _ _ (by decide) rfl]; exact field_low _ _
  have h6 : flag W 9 = ta := by subst hW; unfold flag; rw [bit_high (k := 6) _ _ (by decide) rfl, bit_high (k := 1) _ _ (by decide) rfl, bit_high (k := 0) _ _ (by decide) rfl]; exact bit_low _ _
  have h7 : fld W 25 7 = 0x29#7 := by subst hW; unfold fld; rw [field_high (k := 22) _ _ (by decide) rfl, field_high (k := 17) _ _ (by decide) rfl, field_high (k := 16) _ _ (by decide) rfl, field_high (k := 15) _ _ (by decide) rfl, field_high (k := 10) _ _ (by decide) rfl, field_high (k := 5) _ _ (by decide) rfl, field_high (k := 0) _ _ (by decide) rfl]; exact BitVec.extractLsb'_eq_self
  have ch2 : FConv.ofCode? (fld W 3 5).toNat = some cv := by rw [h2]; cases cv <;> rfl
  have ch3 : Rnd.ofCode? (fld W 0 3).toNat = some rnd := by rw [h3]; cases rnd <;> rfl
  have hd : decodeMap .S W = .ok (.fcvt d a ta cv rnd) := by
    change decodeS W = _
    unfold decodeS; rw [h7]
    refine Eq.trans (b := zeroed (fld W 10 5 = 0 ∧ fld W 8 1 = 0) <| reading (FConv.ofCode? (fld W 3 5).toNat) fun cv => reading (Rnd.ofCode? (fld W 0 3).toNat) fun rnd => .ok (.fcvt (fld W 20 5) (fld W 15 5) (flag W 9) cv rnd)) rfl ?_
    rw [ch2, ch3, h0, h1, h4, h5, h6]; rfl
  unfold decode; rw [hd]; exact if_pos hf

theorem amov (d : BitVec 5) (a : BitVec 5) (ta : Bool) : Statement (.amov d a ta) := by
  intro k hk hf; cases hk; refine ⟨_, rfl, ?_⟩
  generalize hW : (1#7 ++ d ++ a ++ 0#5 ++ ofBool ta ++ 0#9 : Word32) = W
  have h0 : fld W 10 5 = 0#5 := by subst hW; unfold fld; rw [field_high (k := 1) _ _ (by decide) rfl, field_high (k := 0) _ _ (by decide) rfl]; exact field_low _ _
  have h1 : fld W 0 9 = 0#9 := by subst hW; unfold fld; exact field_low _ _
  have h2 : fld W 20 5 = d := by subst hW; unfold fld; rw [field_high (k := 11) _ _ (by decide) rfl, field_high (k := 10) _ _ (by decide) rfl, field_high (k := 5) _ _ (by decide) rfl, field_high (k := 0) _ _ (by decide) rfl]; exact field_low _ _
  have h3 : fld W 15 5 = a := by subst hW; unfold fld; rw [field_high (k := 6) _ _ (by decide) rfl, field_high (k := 5) _ _ (by decide) rfl, field_high (k := 0) _ _ (by decide) rfl]; exact field_low _ _
  have h4 : flag W 9 = ta := by subst hW; unfold flag; rw [bit_high (k := 0) _ _ (by decide) rfl]; exact bit_low _ _
  have h5 : fld W 25 7 = 1#7 := by subst hW; unfold fld; rw [field_high (k := 16) _ _ (by decide) rfl, field_high (k := 15) _ _ (by decide) rfl, field_high (k := 10) _ _ (by decide) rfl, field_high (k := 5) _ _ (by decide) rfl, field_high (k := 0) _ _ (by decide) rfl]; exact BitVec.extractLsb'_eq_self
  have hd : decodeMap .A W = .ok (.amov d a ta) := by
    change decodeA W = _
    unfold decodeA; rw [h5]
    refine Eq.trans (b := zeroed (fld W 10 5 = 0 ∧ fld W 0 9 = 0) <| .ok (.amov (fld W 20 5) (fld W 15 5) (flag W 9))) rfl ?_
    rw [h0, h1, h2, h3, h4]; rfl
  unfold decode; rw [hd]; exact if_pos hf

theorem aadd (d : BitVec 5) (a : BitVec 5) (b : BitVec 5) (ta : Bool) (tb : Bool) : Statement (.aadd d a b ta tb) := by
  intro k hk hf; cases hk; refine ⟨_, rfl, ?_⟩
  generalize hW : (2#7 ++ d ++ a ++ b ++ ofBool ta ++ ofBool tb ++ 0#8 : Word32) = W
  have h0 : fld W 0 8 = 0#8 := by subst hW; unfold fld; exact field_low _ _
  have h1 : fld W 20 5 = d := by subst hW; unfold fld; rw [field_high (k := 12) _ _ (by decide) rfl, field_high (k := 11) _ _ (by decide) rfl, field_high (k := 10) _ _ (by decide) rfl, field_high (k := 5) _ _ (by decide) rfl, field_high (k := 0) _ _ (by decide) rfl]; exact field_low _ _
  have h2 : fld W 15 5 = a := by subst hW; unfold fld; rw [field_high (k := 7) _ _ (by decide) rfl, field_high (k := 6) _ _ (by decide) rfl, field_high (k := 5) _ _ (by decide) rfl, field_high (k := 0) _ _ (by decide) rfl]; exact field_low _ _
  have h3 : fld W 10 5 = b := by subst hW; unfold fld; rw [field_high (k := 2) _ _ (by decide) rfl, field_high (k := 1) _ _ (by decide) rfl, field_high (k := 0) _ _ (by decide) rfl]; exact field_low _ _
  have h4 : flag W 9 = ta := by subst hW; unfold flag; rw [bit_high (k := 1) _ _ (by decide) rfl, bit_high (k := 0) _ _ (by decide) rfl]; exact bit_low _ _
  have h5 : flag W 8 = tb := by subst hW; unfold flag; rw [bit_high (k := 0) _ _ (by decide) rfl]; exact bit_low _ _
  have h6 : fld W 25 7 = 2#7 := by subst hW; unfold fld; rw [field_high (k := 17) _ _ (by decide) rfl, field_high (k := 16) _ _ (by decide) rfl, field_high (k := 15) _ _ (by decide) rfl, field_high (k := 10) _ _ (by decide) rfl, field_high (k := 5) _ _ (by decide) rfl, field_high (k := 0) _ _ (by decide) rfl]; exact BitVec.extractLsb'_eq_self
  have hd : decodeMap .A W = .ok (.aadd d a b ta tb) := by
    change decodeA W = _
    unfold decodeA; rw [h6]
    refine Eq.trans (b := zeroed (fld W 0 8 = 0) <| .ok (.aadd (fld W 20 5) (fld W 15 5) (fld W 10 5) (flag W 9) (flag W 8))) rfl ?_
    rw [h0, h1, h2, h3, h4, h5]; rfl
  unfold decode; rw [hd]; exact if_pos hf

theorem aaddi (d : BitVec 5) (a : BitVec 5) (ta : Bool) (imm : BitVec 14) : Statement (.aaddi d a ta imm) := by
  intro k hk hf; cases hk; refine ⟨_, rfl, ?_⟩
  generalize hW : (3#7 ++ d ++ a ++ ofBool ta ++ imm : Word32) = W
  have h0 : fld W 20 5 = d := by subst hW; unfold fld; rw [field_high (k := 6) _ _ (by decide) rfl, field_high (k := 5) _ _ (by decide) rfl, field_high (k := 0) _ _ (by decide) rfl]; exact field_low _ _
  have h1 : fld W 15 5 = a := by subst hW; unfold fld; rw [field_high (k := 1) _ _ (by decide) rfl, field_high (k := 0) _ _ (by decide) rfl]; exact field_low _ _
  have h2 : flag W 14 = ta := by subst hW; unfold flag; rw [bit_high (k := 0) _ _ (by decide) rfl]; exact bit_low _ _
  have h3 : fld W 0 14 = imm := by subst hW; unfold fld; exact field_low _ _
  have h4 : fld W 25 7 = 3#7 := by subst hW; unfold fld; rw [field_high (k := 11) _ _ (by decide) rfl, field_high (k := 10) _ _ (by decide) rfl, field_high (k := 5) _ _ (by decide) rfl, field_high (k := 0) _ _ (by decide) rfl]; exact BitVec.extractLsb'_eq_self
  have hd : decodeMap .A W = .ok (.aaddi d a ta imm) := by
    change decodeA W = _
    unfold decodeA; rw [h4]
    refine Eq.trans (b := Except.ok (.aaddi (fld W 20 5) (fld W 15 5) (flag W 14) (fld W 0 14))) rfl ?_
    rw [h0, h1, h2, h3]
  unfold decode; rw [hd]; exact if_pos hf

theorem ali (d : BitVec 5) (imm : BitVec 20) : Statement (.ali d imm) := by
  intro k hk hf; cases hk; refine ⟨_, rfl, ?_⟩
  generalize hW : (4#7 ++ d ++ imm : Word32) = W
  have h0 : fld W 20 5 = d := by subst hW; unfold fld; rw [field_high (k := 0) _ _ (by decide) rfl]; exact field_low _ _
  have h1 : fld W 0 20 = imm := by subst hW; unfold fld; exact field_low _ _
  have h2 : fld W 25 7 = 4#7 := by subst hW; unfold fld; rw [field_high (k := 5) _ _ (by decide) rfl, field_high (k := 0) _ _ (by decide) rfl]; exact BitVec.extractLsb'_eq_self
  have hd : decodeMap .A W = .ok (.ali d imm) := by
    change decodeA W = _
    unfold decodeA; rw [h2]
    refine Eq.trans (b := Except.ok (.ali (fld W 20 5) (fld W 0 20))) rfl ?_
    rw [h0, h1]
  unfold decode; rw [hd]; exact if_pos hf

theorem aliu (d : BitVec 5) (imm : BitVec 20) : Statement (.aliu d imm) := by
  intro k hk hf; cases hk; refine ⟨_, rfl, ?_⟩
  generalize hW : (5#7 ++ d ++ imm : Word32) = W
  have h0 : fld W 20 5 = d := by subst hW; unfold fld; rw [field_high (k := 0) _ _ (by decide) rfl]; exact field_low _ _
  have h1 : fld W 0 20 = imm := by subst hW; unfold fld; exact field_low _ _
  have h2 : fld W 25 7 = 5#7 := by subst hW; unfold fld; rw [field_high (k := 5) _ _ (by decide) rfl, field_high (k := 0) _ _ (by decide) rfl]; exact BitVec.extractLsb'_eq_self
  have hd : decodeMap .A W = .ok (.aliu d imm) := by
    change decodeA W = _
    unfold decodeA; rw [h2]
    refine Eq.trans (b := Except.ok (.aliu (fld W 20 5) (fld W 0 20))) rfl ?_
    rw [h0, h1]
  unfold decode; rw [hd]; exact if_pos hf

theorem astep (d : BitVec 5) : Statement (.astep d) := by
  intro k hk hf; cases hk; refine ⟨_, rfl, ?_⟩
  generalize hW : (6#7 ++ d ++ 0#20 : Word32) = W
  have h0 : fld W 0 20 = 0#20 := by subst hW; unfold fld; exact field_low _ _
  have h1 : fld W 20 5 = d := by subst hW; unfold fld; rw [field_high (k := 0) _ _ (by decide) rfl]; exact field_low _ _
  have h2 : fld W 25 7 = 6#7 := by subst hW; unfold fld; rw [field_high (k := 5) _ _ (by decide) rfl, field_high (k := 0) _ _ (by decide) rfl]; exact BitVec.extractLsb'_eq_self
  have hd : decodeMap .A W = .ok (.astep d) := by
    change decodeA W = _
    unfold decodeA; rw [h2]
    refine Eq.trans (b := zeroed (fld W 0 20 = 0) <| .ok (.astep (fld W 20 5))) rfl ?_
    rw [h0, h1]; rfl
  unfold decode; rw [hd]; exact if_pos hf

theorem amode (a : BitVec 5) (mode : BitVec 2) (dk : BitVec 4) (param : BitVec 6) : Statement (.amode a mode dk param) := by
  intro k hk hf; cases hk; refine ⟨_, rfl, ?_⟩
  generalize hW : (7#7 ++ a ++ mode ++ dk ++ param ++ 0#8 : Word32) = W
  have h0 : fld W 0 8 = 0#8 := by subst hW; unfold fld; exact field_low _ _
  have h1 : fld W 20 5 = a := by subst hW; unfold fld; rw [field_high (k := 12) _ _ (by decide) rfl, field_high (k := 6) _ _ (by decide) rfl, field_high (k := 2) _ _ (by decide) rfl, field_high (k := 0) _ _ (by decide) rfl]; exact field_low _ _
  have h2 : fld W 18 2 = mode := by subst hW; unfold fld; rw [field_high (k := 10) _ _ (by decide) rfl, field_high (k := 4) _ _ (by decide) rfl, field_high (k := 0) _ _ (by decide) rfl]; exact field_low _ _
  have h3 : fld W 14 4 = dk := by subst hW; unfold fld; rw [field_high (k := 6) _ _ (by decide) rfl, field_high (k := 0) _ _ (by decide) rfl]; exact field_low _ _
  have h4 : fld W 8 6 = param := by subst hW; unfold fld; rw [field_high (k := 0) _ _ (by decide) rfl]; exact field_low _ _
  have h5 : fld W 25 7 = 7#7 := by subst hW; unfold fld; rw [field_high (k := 17) _ _ (by decide) rfl, field_high (k := 11) _ _ (by decide) rfl, field_high (k := 7) _ _ (by decide) rfl, field_high (k := 5) _ _ (by decide) rfl, field_high (k := 0) _ _ (by decide) rfl]; exact BitVec.extractLsb'_eq_self
  have hd : decodeMap .A W = .ok (.amode a mode dk param) := by
    change decodeA W = _
    unfold decodeA; rw [h5]
    refine Eq.trans (b := zeroed (fld W 0 8 = 0) <| .ok (.amode (fld W 20 5) (fld W 18 2) (fld W 14 4) (fld W 8 6))) rfl ?_
    rw [h0, h1, h2, h3, h4]; rfl
  unfold decode; rw [hd]; exact if_pos hf

theorem dset (dk : BitVec 4) (imm : BitVec 20) : Statement (.dset dk imm) := by
  intro k hk hf; cases hk; refine ⟨_, rfl, ?_⟩
  generalize hW : (8#7 ++ 0#1 ++ dk ++ imm : Word32) = W
  have h0 : fld W 24 1 = 0#1 := by subst hW; unfold fld; rw [field_high (k := 4) _ _ (by decide) rfl, field_high (k := 0) _ _ (by decide) rfl]; exact field_low _ _
  have h1 : fld W 20 4 = dk := by subst hW; unfold fld; rw [field_high (k := 0) _ _ (by decide) rfl]; exact field_low _ _
  have h2 : fld W 0 20 = imm := by subst hW; unfold fld; exact field_low _ _
  have h3 : fld W 25 7 = 8#7 := by subst hW; unfold fld; rw [field_high (k := 5) _ _ (by decide) rfl, field_high (k := 1) _ _ (by decide) rfl, field_high (k := 0) _ _ (by decide) rfl]; exact BitVec.extractLsb'_eq_self
  have hd : decodeMap .A W = .ok (.dset dk imm) := by
    change decodeA W = _
    unfold decodeA; rw [h3]
    refine Eq.trans (b := zeroed (fld W 24 1 = 0) <| .ok (.dset (fld W 20 4) (fld W 0 20))) rfl ?_
    rw [h0, h1, h2]; rfl
  unfold decode; rw [hd]; exact if_pos hf

theorem dmov (dk : BitVec 4) (a : BitVec 5) (ta : Bool) : Statement (.dmov dk a ta) := by
  intro k hk hf; cases hk; refine ⟨_, rfl, ?_⟩
  generalize hW : (9#7 ++ 0#1 ++ dk ++ a ++ 0#5 ++ ofBool ta ++ 0#9 : Word32) = W
  have h0 : fld W 24 1 = 0#1 := by subst hW; unfold fld; rw [field_high (k := 15) _ _ (by decide) rfl, field_high (k := 14) _ _ (by decide) rfl, field_high (k := 9) _ _ (by decide) rfl, field_high (k := 4) _ _ (by decide) rfl, field_high (k := 0) _ _ (by decide) rfl]; exact field_low _ _
  have h1 : fld W 10 5 = 0#5 := by subst hW; unfold fld; rw [field_high (k := 1) _ _ (by decide) rfl, field_high (k := 0) _ _ (by decide) rfl]; exact field_low _ _
  have h2 : fld W 0 9 = 0#9 := by subst hW; unfold fld; exact field_low _ _
  have h3 : fld W 20 4 = dk := by subst hW; unfold fld; rw [field_high (k := 11) _ _ (by decide) rfl, field_high (k := 10) _ _ (by decide) rfl, field_high (k := 5) _ _ (by decide) rfl, field_high (k := 0) _ _ (by decide) rfl]; exact field_low _ _
  have h4 : fld W 15 5 = a := by subst hW; unfold fld; rw [field_high (k := 6) _ _ (by decide) rfl, field_high (k := 5) _ _ (by decide) rfl, field_high (k := 0) _ _ (by decide) rfl]; exact field_low _ _
  have h5 : flag W 9 = ta := by subst hW; unfold flag; rw [bit_high (k := 0) _ _ (by decide) rfl]; exact bit_low _ _
  have h6 : fld W 25 7 = 9#7 := by subst hW; unfold fld; rw [field_high (k := 16) _ _ (by decide) rfl, field_high (k := 15) _ _ (by decide) rfl, field_high (k := 10) _ _ (by decide) rfl, field_high (k := 5) _ _ (by decide) rfl, field_high (k := 1) _ _ (by decide) rfl, field_high (k := 0) _ _ (by decide) rfl]; exact BitVec.extractLsb'_eq_self
  have hd : decodeMap .A W = .ok (.dmov dk a ta) := by
    change decodeA W = _
    unfold decodeA; rw [h6]
    refine Eq.trans (b := zeroed (fld W 24 1 = 0 ∧ fld W 10 5 = 0 ∧ fld W 0 9 = 0) <| .ok (.dmov (fld W 20 4) (fld W 15 5) (flag W 9))) rfl ?_
    rw [h0, h1, h2, h3, h4, h5]; rfl
  unfold decode; rw [hd]; exact if_pos hf

theorem wsetb (wk : BitVec 3) (a : BitVec 5) (ta : Bool) : Statement (.wsetb wk a ta) := by
  intro k hk hf; cases hk; refine ⟨_, rfl, ?_⟩
  generalize hW : (0xa#7 ++ 0#2 ++ wk ++ a ++ 0#5 ++ ofBool ta ++ 0#9 : Word32) = W
  have h0 : fld W 23 2 = 0#2 := by subst hW; unfold fld; rw [field_high (k := 14) _ _ (by decide) rfl, field_high (k := 13) _ _ (by decide) rfl, field_high (k := 8) _ _ (by decide) rfl, field_high (k := 3) _ _ (by decide) rfl, field_high (k := 0) _ _ (by decide) rfl]; exact field_low _ _
  have h1 : fld W 10 5 = 0#5 := by subst hW; unfold fld; rw [field_high (k := 1) _ _ (by decide) rfl, field_high (k := 0) _ _ (by decide) rfl]; exact field_low _ _
  have h2 : fld W 0 9 = 0#9 := by subst hW; unfold fld; exact field_low _ _
  have h3 : fld W 20 3 = wk := by subst hW; unfold fld; rw [field_high (k := 11) _ _ (by decide) rfl, field_high (k := 10) _ _ (by decide) rfl, field_high (k := 5) _ _ (by decide) rfl, field_high (k := 0) _ _ (by decide) rfl]; exact field_low _ _
  have h4 : fld W 15 5 = a := by subst hW; unfold fld; rw [field_high (k := 6) _ _ (by decide) rfl, field_high (k := 5) _ _ (by decide) rfl, field_high (k := 0) _ _ (by decide) rfl]; exact field_low _ _
  have h5 : flag W 9 = ta := by subst hW; unfold flag; rw [bit_high (k := 0) _ _ (by decide) rfl]; exact bit_low _ _
  have h6 : fld W 25 7 = 0xa#7 := by subst hW; unfold fld; rw [field_high (k := 16) _ _ (by decide) rfl, field_high (k := 15) _ _ (by decide) rfl, field_high (k := 10) _ _ (by decide) rfl, field_high (k := 5) _ _ (by decide) rfl, field_high (k := 2) _ _ (by decide) rfl, field_high (k := 0) _ _ (by decide) rfl]; exact BitVec.extractLsb'_eq_self
  have hd : decodeMap .A W = .ok (.wsetb wk a ta) := by
    change decodeA W = _
    unfold decodeA; rw [h6]
    refine Eq.trans (b := zeroed (fld W 23 2 = 0 ∧ fld W 10 5 = 0 ∧ fld W 0 9 = 0) <| .ok (.wsetb (fld W 20 3) (fld W 15 5) (flag W 9))) rfl ?_
    rw [h0, h1, h2, h3, h4, h5]; rfl
  unfold decode; rw [hd]; exact if_pos hf

theorem wsetl (wk : BitVec 3) (a : BitVec 5) (ta : Bool) : Statement (.wsetl wk a ta) := by
  intro k hk hf; cases hk; refine ⟨_, rfl, ?_⟩
  generalize hW : (0xb#7 ++ 0#2 ++ wk ++ a ++ 0#5 ++ ofBool ta ++ 0#9 : Word32) = W
  have h0 : fld W 23 2 = 0#2 := by subst hW; unfold fld; rw [field_high (k := 14) _ _ (by decide) rfl, field_high (k := 13) _ _ (by decide) rfl, field_high (k := 8) _ _ (by decide) rfl, field_high (k := 3) _ _ (by decide) rfl, field_high (k := 0) _ _ (by decide) rfl]; exact field_low _ _
  have h1 : fld W 10 5 = 0#5 := by subst hW; unfold fld; rw [field_high (k := 1) _ _ (by decide) rfl, field_high (k := 0) _ _ (by decide) rfl]; exact field_low _ _
  have h2 : fld W 0 9 = 0#9 := by subst hW; unfold fld; exact field_low _ _
  have h3 : fld W 20 3 = wk := by subst hW; unfold fld; rw [field_high (k := 11) _ _ (by decide) rfl, field_high (k := 10) _ _ (by decide) rfl, field_high (k := 5) _ _ (by decide) rfl, field_high (k := 0) _ _ (by decide) rfl]; exact field_low _ _
  have h4 : fld W 15 5 = a := by subst hW; unfold fld; rw [field_high (k := 6) _ _ (by decide) rfl, field_high (k := 5) _ _ (by decide) rfl, field_high (k := 0) _ _ (by decide) rfl]; exact field_low _ _
  have h5 : flag W 9 = ta := by subst hW; unfold flag; rw [bit_high (k := 0) _ _ (by decide) rfl]; exact bit_low _ _
  have h6 : fld W 25 7 = 0xb#7 := by subst hW; unfold fld; rw [field_high (k := 16) _ _ (by decide) rfl, field_high (k := 15) _ _ (by decide) rfl, field_high (k := 10) _ _ (by decide) rfl, field_high (k := 5) _ _ (by decide) rfl, field_high (k := 2) _ _ (by decide) rfl, field_high (k := 0) _ _ (by decide) rfl]; exact BitVec.extractLsb'_eq_self
  have hd : decodeMap .A W = .ok (.wsetl wk a ta) := by
    change decodeA W = _
    unfold decodeA; rw [h6]
    refine Eq.trans (b := zeroed (fld W 23 2 = 0 ∧ fld W 10 5 = 0 ∧ fld W 0 9 = 0) <| .ok (.wsetl (fld W 20 3) (fld W 15 5) (flag W 9))) rfl ?_
    rw [h0, h1, h2, h3, h4, h5]; rfl
  unfold decode; rw [hd]; exact if_pos hf

theorem ard (d : BitVec 5) (a : BitVec 5) (ta : Bool) : Statement (.ard d a ta) := by
  intro k hk hf; cases hk; refine ⟨_, rfl, ?_⟩
  generalize hW : (0xc#7 ++ d ++ a ++ 0#5 ++ ofBool ta ++ 0#9 : Word32) = W
  have h0 : fld W 10 5 = 0#5 := by subst hW; unfold fld; rw [field_high (k := 1) _ _ (by decide) rfl, field_high (k := 0) _ _ (by decide) rfl]; exact field_low _ _
  have h1 : fld W 0 9 = 0#9 := by subst hW; unfold fld; exact field_low _ _
  have h2 : fld W 20 5 = d := by subst hW; unfold fld; rw [field_high (k := 11) _ _ (by decide) rfl, field_high (k := 10) _ _ (by decide) rfl, field_high (k := 5) _ _ (by decide) rfl, field_high (k := 0) _ _ (by decide) rfl]; exact field_low _ _
  have h3 : fld W 15 5 = a := by subst hW; unfold fld; rw [field_high (k := 6) _ _ (by decide) rfl, field_high (k := 5) _ _ (by decide) rfl, field_high (k := 0) _ _ (by decide) rfl]; exact field_low _ _
  have h4 : flag W 9 = ta := by subst hW; unfold flag; rw [bit_high (k := 0) _ _ (by decide) rfl]; exact bit_low _ _
  have h5 : fld W 25 7 = 0xc#7 := by subst hW; unfold fld; rw [field_high (k := 16) _ _ (by decide) rfl, field_high (k := 15) _ _ (by decide) rfl, field_high (k := 10) _ _ (by decide) rfl, field_high (k := 5) _ _ (by decide) rfl, field_high (k := 0) _ _ (by decide) rfl]; exact BitVec.extractLsb'_eq_self
  have hd : decodeMap .A W = .ok (.ard d a ta) := by
    change decodeA W = _
    unfold decodeA; rw [h5]
    refine Eq.trans (b := zeroed (fld W 10 5 = 0 ∧ fld W 0 9 = 0) <| .ok (.ard (fld W 20 5) (fld W 15 5) (flag W 9))) rfl ?_
    rw [h0, h1, h2, h3, h4]; rfl
  unfold decode; rw [hd]; exact if_pos hf

theorem vadd (d : BitVec 6) (a : BitVec 6) (b : BitVec 6) (ty : TyF) (m : BitVec 4) : Statement (.vadd d a b ty m) := by
  intro k hk hf; cases hk; refine ⟨_, rfl, ?_⟩
  generalize hW : (1#7 ++ d ++ a ++ b ++ ofNat 3 ty.code ++ m : Word32) = W
  have h0 : fld W 4 3 = ofNat 3 ty.code := by subst hW; unfold fld; rw [field_high (k := 0) _ _ (by decide) rfl]; exact field_low _ _
  have h1 : fld W 19 6 = d := by subst hW; unfold fld; rw [field_high (k := 15) _ _ (by decide) rfl, field_high (k := 12) _ _ (by decide) rfl, field_high (k := 6) _ _ (by decide) rfl, field_high (k := 0) _ _ (by decide) rfl]; exact field_low _ _
  have h2 : fld W 13 6 = a := by subst hW; unfold fld; rw [field_high (k := 9) _ _ (by decide) rfl, field_high (k := 6) _ _ (by decide) rfl, field_high (k := 0) _ _ (by decide) rfl]; exact field_low _ _
  have h3 : fld W 7 6 = b := by subst hW; unfold fld; rw [field_high (k := 3) _ _ (by decide) rfl, field_high (k := 0) _ _ (by decide) rfl]; exact field_low _ _
  have h4 : fld W 0 4 = m := by subst hW; unfold fld; exact field_low _ _
  have h5 : fld W 25 7 = 1#7 := by subst hW; unfold fld; rw [field_high (k := 21) _ _ (by decide) rfl, field_high (k := 18) _ _ (by decide) rfl, field_high (k := 12) _ _ (by decide) rfl, field_high (k := 6) _ _ (by decide) rfl, field_high (k := 0) _ _ (by decide) rfl]; exact BitVec.extractLsb'_eq_self
  have ch0 : TyF.ofCode? (fld W 4 3).toNat = some ty := by rw [h0]; cases ty <;> rfl
  have hd : decodeMap .V W = .ok (.vadd d a b ty m) := by
    change decodeV W = _
    unfold decodeV; rw [h5]
    refine Eq.trans (b := reading (TyF.ofCode? (fld W 4 3).toNat) fun ty => .ok (.vadd (fld W 19 6) (fld W 13 6) (fld W 7 6) ty (fld W 0 4))) rfl ?_
    rw [ch0, h1, h2, h3, h4]; rfl
  unfold decode; rw [hd]; exact if_pos hf

theorem vsub (d : BitVec 6) (a : BitVec 6) (b : BitVec 6) (ty : TyF) (m : BitVec 4) : Statement (.vsub d a b ty m) := by
  intro k hk hf; cases hk; refine ⟨_, rfl, ?_⟩
  generalize hW : (2#7 ++ d ++ a ++ b ++ ofNat 3 ty.code ++ m : Word32) = W
  have h0 : fld W 4 3 = ofNat 3 ty.code := by subst hW; unfold fld; rw [field_high (k := 0) _ _ (by decide) rfl]; exact field_low _ _
  have h1 : fld W 19 6 = d := by subst hW; unfold fld; rw [field_high (k := 15) _ _ (by decide) rfl, field_high (k := 12) _ _ (by decide) rfl, field_high (k := 6) _ _ (by decide) rfl, field_high (k := 0) _ _ (by decide) rfl]; exact field_low _ _
  have h2 : fld W 13 6 = a := by subst hW; unfold fld; rw [field_high (k := 9) _ _ (by decide) rfl, field_high (k := 6) _ _ (by decide) rfl, field_high (k := 0) _ _ (by decide) rfl]; exact field_low _ _
  have h3 : fld W 7 6 = b := by subst hW; unfold fld; rw [field_high (k := 3) _ _ (by decide) rfl, field_high (k := 0) _ _ (by decide) rfl]; exact field_low _ _
  have h4 : fld W 0 4 = m := by subst hW; unfold fld; exact field_low _ _
  have h5 : fld W 25 7 = 2#7 := by subst hW; unfold fld; rw [field_high (k := 21) _ _ (by decide) rfl, field_high (k := 18) _ _ (by decide) rfl, field_high (k := 12) _ _ (by decide) rfl, field_high (k := 6) _ _ (by decide) rfl, field_high (k := 0) _ _ (by decide) rfl]; exact BitVec.extractLsb'_eq_self
  have ch0 : TyF.ofCode? (fld W 4 3).toNat = some ty := by rw [h0]; cases ty <;> rfl
  have hd : decodeMap .V W = .ok (.vsub d a b ty m) := by
    change decodeV W = _
    unfold decodeV; rw [h5]
    refine Eq.trans (b := reading (TyF.ofCode? (fld W 4 3).toNat) fun ty => .ok (.vsub (fld W 19 6) (fld W 13 6) (fld W 7 6) ty (fld W 0 4))) rfl ?_
    rw [ch0, h1, h2, h3, h4]; rfl
  unfold decode; rw [hd]; exact if_pos hf

theorem vmul (d : BitVec 6) (a : BitVec 6) (b : BitVec 6) (ty : TyF) (m : BitVec 4) : Statement (.vmul d a b ty m) := by
  intro k hk hf; cases hk; refine ⟨_, rfl, ?_⟩
  generalize hW : (3#7 ++ d ++ a ++ b ++ ofNat 3 ty.code ++ m : Word32) = W
  have h0 : fld W 4 3 = ofNat 3 ty.code := by subst hW; unfold fld; rw [field_high (k := 0) _ _ (by decide) rfl]; exact field_low _ _
  have h1 : fld W 19 6 = d := by subst hW; unfold fld; rw [field_high (k := 15) _ _ (by decide) rfl, field_high (k := 12) _ _ (by decide) rfl, field_high (k := 6) _ _ (by decide) rfl, field_high (k := 0) _ _ (by decide) rfl]; exact field_low _ _
  have h2 : fld W 13 6 = a := by subst hW; unfold fld; rw [field_high (k := 9) _ _ (by decide) rfl, field_high (k := 6) _ _ (by decide) rfl, field_high (k := 0) _ _ (by decide) rfl]; exact field_low _ _
  have h3 : fld W 7 6 = b := by subst hW; unfold fld; rw [field_high (k := 3) _ _ (by decide) rfl, field_high (k := 0) _ _ (by decide) rfl]; exact field_low _ _
  have h4 : fld W 0 4 = m := by subst hW; unfold fld; exact field_low _ _
  have h5 : fld W 25 7 = 3#7 := by subst hW; unfold fld; rw [field_high (k := 21) _ _ (by decide) rfl, field_high (k := 18) _ _ (by decide) rfl, field_high (k := 12) _ _ (by decide) rfl, field_high (k := 6) _ _ (by decide) rfl, field_high (k := 0) _ _ (by decide) rfl]; exact BitVec.extractLsb'_eq_self
  have ch0 : TyF.ofCode? (fld W 4 3).toNat = some ty := by rw [h0]; cases ty <;> rfl
  have hd : decodeMap .V W = .ok (.vmul d a b ty m) := by
    change decodeV W = _
    unfold decodeV; rw [h5]
    refine Eq.trans (b := reading (TyF.ofCode? (fld W 4 3).toNat) fun ty => .ok (.vmul (fld W 19 6) (fld W 13 6) (fld W 7 6) ty (fld W 0 4))) rfl ?_
    rw [ch0, h1, h2, h3, h4]; rfl
  unfold decode; rw [hd]; exact if_pos hf

theorem vfma (d : BitVec 6) (a : BitVec 6) (b : BitVec 6) (ty : TyL) (m : BitVec 4) : Statement (.vfma d a b ty m) := by
  intro k hk hf; cases hk; refine ⟨_, rfl, ?_⟩
  generalize hW : (4#7 ++ d ++ a ++ b ++ ofNat 3 ty.code ++ m : Word32) = W
  have h0 : fld W 4 3 = ofNat 3 ty.code := by subst hW; unfold fld; rw [field_high (k := 0) _ _ (by decide) rfl]; exact field_low _ _
  have h1 : fld W 19 6 = d := by subst hW; unfold fld; rw [field_high (k := 15) _ _ (by decide) rfl, field_high (k := 12) _ _ (by decide) rfl, field_high (k := 6) _ _ (by decide) rfl, field_high (k := 0) _ _ (by decide) rfl]; exact field_low _ _
  have h2 : fld W 13 6 = a := by subst hW; unfold fld; rw [field_high (k := 9) _ _ (by decide) rfl, field_high (k := 6) _ _ (by decide) rfl, field_high (k := 0) _ _ (by decide) rfl]; exact field_low _ _
  have h3 : fld W 7 6 = b := by subst hW; unfold fld; rw [field_high (k := 3) _ _ (by decide) rfl, field_high (k := 0) _ _ (by decide) rfl]; exact field_low _ _
  have h4 : fld W 0 4 = m := by subst hW; unfold fld; exact field_low _ _
  have h5 : fld W 25 7 = 4#7 := by subst hW; unfold fld; rw [field_high (k := 21) _ _ (by decide) rfl, field_high (k := 18) _ _ (by decide) rfl, field_high (k := 12) _ _ (by decide) rfl, field_high (k := 6) _ _ (by decide) rfl, field_high (k := 0) _ _ (by decide) rfl]; exact BitVec.extractLsb'_eq_self
  have ch0 : TyL.ofCode? (fld W 4 3).toNat = some ty := by rw [h0]; cases ty <;> rfl
  have hd : decodeMap .V W = .ok (.vfma d a b ty m) := by
    change decodeV W = _
    unfold decodeV; rw [h5]
    refine Eq.trans (b := reading (TyL.ofCode? (fld W 4 3).toNat) fun ty => .ok (.vfma (fld W 19 6) (fld W 13 6) (fld W 7 6) ty (fld W 0 4))) rfl ?_
    rw [ch0, h1, h2, h3, h4]; rfl
  unfold decode; rw [hd]; exact if_pos hf

theorem vfms (d : BitVec 6) (a : BitVec 6) (b : BitVec 6) (ty : TyL) (m : BitVec 4) : Statement (.vfms d a b ty m) := by
  intro k hk hf; cases hk; refine ⟨_, rfl, ?_⟩
  generalize hW : (5#7 ++ d ++ a ++ b ++ ofNat 3 ty.code ++ m : Word32) = W
  have h0 : fld W 4 3 = ofNat 3 ty.code := by subst hW; unfold fld; rw [field_high (k := 0) _ _ (by decide) rfl]; exact field_low _ _
  have h1 : fld W 19 6 = d := by subst hW; unfold fld; rw [field_high (k := 15) _ _ (by decide) rfl, field_high (k := 12) _ _ (by decide) rfl, field_high (k := 6) _ _ (by decide) rfl, field_high (k := 0) _ _ (by decide) rfl]; exact field_low _ _
  have h2 : fld W 13 6 = a := by subst hW; unfold fld; rw [field_high (k := 9) _ _ (by decide) rfl, field_high (k := 6) _ _ (by decide) rfl, field_high (k := 0) _ _ (by decide) rfl]; exact field_low _ _
  have h3 : fld W 7 6 = b := by subst hW; unfold fld; rw [field_high (k := 3) _ _ (by decide) rfl, field_high (k := 0) _ _ (by decide) rfl]; exact field_low _ _
  have h4 : fld W 0 4 = m := by subst hW; unfold fld; exact field_low _ _
  have h5 : fld W 25 7 = 5#7 := by subst hW; unfold fld; rw [field_high (k := 21) _ _ (by decide) rfl, field_high (k := 18) _ _ (by decide) rfl, field_high (k := 12) _ _ (by decide) rfl, field_high (k := 6) _ _ (by decide) rfl, field_high (k := 0) _ _ (by decide) rfl]; exact BitVec.extractLsb'_eq_self
  have ch0 : TyL.ofCode? (fld W 4 3).toNat = some ty := by rw [h0]; cases ty <;> rfl
  have hd : decodeMap .V W = .ok (.vfms d a b ty m) := by
    change decodeV W = _
    unfold decodeV; rw [h5]
    refine Eq.trans (b := reading (TyL.ofCode? (fld W 4 3).toNat) fun ty => .ok (.vfms (fld W 19 6) (fld W 13 6) (fld W 7 6) ty (fld W 0 4))) rfl ?_
    rw [ch0, h1, h2, h3, h4]; rfl
  unfold decode; rw [hd]; exact if_pos hf

theorem vmin (d : BitVec 6) (a : BitVec 6) (b : BitVec 6) (ty : TyF) (m : BitVec 4) : Statement (.vmin d a b ty m) := by
  intro k hk hf; cases hk; refine ⟨_, rfl, ?_⟩
  generalize hW : (6#7 ++ d ++ a ++ b ++ ofNat 3 ty.code ++ m : Word32) = W
  have h0 : fld W 4 3 = ofNat 3 ty.code := by subst hW; unfold fld; rw [field_high (k := 0) _ _ (by decide) rfl]; exact field_low _ _
  have h1 : fld W 19 6 = d := by subst hW; unfold fld; rw [field_high (k := 15) _ _ (by decide) rfl, field_high (k := 12) _ _ (by decide) rfl, field_high (k := 6) _ _ (by decide) rfl, field_high (k := 0) _ _ (by decide) rfl]; exact field_low _ _
  have h2 : fld W 13 6 = a := by subst hW; unfold fld; rw [field_high (k := 9) _ _ (by decide) rfl, field_high (k := 6) _ _ (by decide) rfl, field_high (k := 0) _ _ (by decide) rfl]; exact field_low _ _
  have h3 : fld W 7 6 = b := by subst hW; unfold fld; rw [field_high (k := 3) _ _ (by decide) rfl, field_high (k := 0) _ _ (by decide) rfl]; exact field_low _ _
  have h4 : fld W 0 4 = m := by subst hW; unfold fld; exact field_low _ _
  have h5 : fld W 25 7 = 6#7 := by subst hW; unfold fld; rw [field_high (k := 21) _ _ (by decide) rfl, field_high (k := 18) _ _ (by decide) rfl, field_high (k := 12) _ _ (by decide) rfl, field_high (k := 6) _ _ (by decide) rfl, field_high (k := 0) _ _ (by decide) rfl]; exact BitVec.extractLsb'_eq_self
  have ch0 : TyF.ofCode? (fld W 4 3).toNat = some ty := by rw [h0]; cases ty <;> rfl
  have hd : decodeMap .V W = .ok (.vmin d a b ty m) := by
    change decodeV W = _
    unfold decodeV; rw [h5]
    refine Eq.trans (b := reading (TyF.ofCode? (fld W 4 3).toNat) fun ty => .ok (.vmin (fld W 19 6) (fld W 13 6) (fld W 7 6) ty (fld W 0 4))) rfl ?_
    rw [ch0, h1, h2, h3, h4]; rfl
  unfold decode; rw [hd]; exact if_pos hf

theorem vmax (d : BitVec 6) (a : BitVec 6) (b : BitVec 6) (ty : TyF) (m : BitVec 4) : Statement (.vmax d a b ty m) := by
  intro k hk hf; cases hk; refine ⟨_, rfl, ?_⟩
  generalize hW : (7#7 ++ d ++ a ++ b ++ ofNat 3 ty.code ++ m : Word32) = W
  have h0 : fld W 4 3 = ofNat 3 ty.code := by subst hW; unfold fld; rw [field_high (k := 0) _ _ (by decide) rfl]; exact field_low _ _
  have h1 : fld W 19 6 = d := by subst hW; unfold fld; rw [field_high (k := 15) _ _ (by decide) rfl, field_high (k := 12) _ _ (by decide) rfl, field_high (k := 6) _ _ (by decide) rfl, field_high (k := 0) _ _ (by decide) rfl]; exact field_low _ _
  have h2 : fld W 13 6 = a := by subst hW; unfold fld; rw [field_high (k := 9) _ _ (by decide) rfl, field_high (k := 6) _ _ (by decide) rfl, field_high (k := 0) _ _ (by decide) rfl]; exact field_low _ _
  have h3 : fld W 7 6 = b := by subst hW; unfold fld; rw [field_high (k := 3) _ _ (by decide) rfl, field_high (k := 0) _ _ (by decide) rfl]; exact field_low _ _
  have h4 : fld W 0 4 = m := by subst hW; unfold fld; exact field_low _ _
  have h5 : fld W 25 7 = 7#7 := by subst hW; unfold fld; rw [field_high (k := 21) _ _ (by decide) rfl, field_high (k := 18) _ _ (by decide) rfl, field_high (k := 12) _ _ (by decide) rfl, field_high (k := 6) _ _ (by decide) rfl, field_high (k := 0) _ _ (by decide) rfl]; exact BitVec.extractLsb'_eq_self
  have ch0 : TyF.ofCode? (fld W 4 3).toNat = some ty := by rw [h0]; cases ty <;> rfl
  have hd : decodeMap .V W = .ok (.vmax d a b ty m) := by
    change decodeV W = _
    unfold decodeV; rw [h5]
    refine Eq.trans (b := reading (TyF.ofCode? (fld W 4 3).toNat) fun ty => .ok (.vmax (fld W 19 6) (fld W 13 6) (fld W 7 6) ty (fld W 0 4))) rfl ?_
    rw [ch0, h1, h2, h3, h4]; rfl
  unfold decode; rw [hd]; exact if_pos hf

theorem vminn (d : BitVec 6) (a : BitVec 6) (b : BitVec 6) (ty : TyN) (m : BitVec 4) : Statement (.vminn d a b ty m) := by
  intro k hk hf; cases hk; refine ⟨_, rfl, ?_⟩
  generalize hW : (8#7 ++ d ++ a ++ b ++ ofNat 3 ty.code ++ m : Word32) = W
  have h0 : fld W 4 3 = ofNat 3 ty.code := by subst hW; unfold fld; rw [field_high (k := 0) _ _ (by decide) rfl]; exact field_low _ _
  have h1 : fld W 19 6 = d := by subst hW; unfold fld; rw [field_high (k := 15) _ _ (by decide) rfl, field_high (k := 12) _ _ (by decide) rfl, field_high (k := 6) _ _ (by decide) rfl, field_high (k := 0) _ _ (by decide) rfl]; exact field_low _ _
  have h2 : fld W 13 6 = a := by subst hW; unfold fld; rw [field_high (k := 9) _ _ (by decide) rfl, field_high (k := 6) _ _ (by decide) rfl, field_high (k := 0) _ _ (by decide) rfl]; exact field_low _ _
  have h3 : fld W 7 6 = b := by subst hW; unfold fld; rw [field_high (k := 3) _ _ (by decide) rfl, field_high (k := 0) _ _ (by decide) rfl]; exact field_low _ _
  have h4 : fld W 0 4 = m := by subst hW; unfold fld; exact field_low _ _
  have h5 : fld W 25 7 = 8#7 := by subst hW; unfold fld; rw [field_high (k := 21) _ _ (by decide) rfl, field_high (k := 18) _ _ (by decide) rfl, field_high (k := 12) _ _ (by decide) rfl, field_high (k := 6) _ _ (by decide) rfl, field_high (k := 0) _ _ (by decide) rfl]; exact BitVec.extractLsb'_eq_self
  have ch0 : TyN.ofCode? (fld W 4 3).toNat = some ty := by rw [h0]; cases ty <;> rfl
  have hd : decodeMap .V W = .ok (.vminn d a b ty m) := by
    change decodeV W = _
    unfold decodeV; rw [h5]
    refine Eq.trans (b := reading (TyN.ofCode? (fld W 4 3).toNat) fun ty => .ok (.vminn (fld W 19 6) (fld W 13 6) (fld W 7 6) ty (fld W 0 4))) rfl ?_
    rw [ch0, h1, h2, h3, h4]; rfl
  unfold decode; rw [hd]; exact if_pos hf

theorem vmaxn (d : BitVec 6) (a : BitVec 6) (b : BitVec 6) (ty : TyN) (m : BitVec 4) : Statement (.vmaxn d a b ty m) := by
  intro k hk hf; cases hk; refine ⟨_, rfl, ?_⟩
  generalize hW : (9#7 ++ d ++ a ++ b ++ ofNat 3 ty.code ++ m : Word32) = W
  have h0 : fld W 4 3 = ofNat 3 ty.code := by subst hW; unfold fld; rw [field_high (k := 0) _ _ (by decide) rfl]; exact field_low _ _
  have h1 : fld W 19 6 = d := by subst hW; unfold fld; rw [field_high (k := 15) _ _ (by decide) rfl, field_high (k := 12) _ _ (by decide) rfl, field_high (k := 6) _ _ (by decide) rfl, field_high (k := 0) _ _ (by decide) rfl]; exact field_low _ _
  have h2 : fld W 13 6 = a := by subst hW; unfold fld; rw [field_high (k := 9) _ _ (by decide) rfl, field_high (k := 6) _ _ (by decide) rfl, field_high (k := 0) _ _ (by decide) rfl]; exact field_low _ _
  have h3 : fld W 7 6 = b := by subst hW; unfold fld; rw [field_high (k := 3) _ _ (by decide) rfl, field_high (k := 0) _ _ (by decide) rfl]; exact field_low _ _
  have h4 : fld W 0 4 = m := by subst hW; unfold fld; exact field_low _ _
  have h5 : fld W 25 7 = 9#7 := by subst hW; unfold fld; rw [field_high (k := 21) _ _ (by decide) rfl, field_high (k := 18) _ _ (by decide) rfl, field_high (k := 12) _ _ (by decide) rfl, field_high (k := 6) _ _ (by decide) rfl, field_high (k := 0) _ _ (by decide) rfl]; exact BitVec.extractLsb'_eq_self
  have ch0 : TyN.ofCode? (fld W 4 3).toNat = some ty := by rw [h0]; cases ty <;> rfl
  have hd : decodeMap .V W = .ok (.vmaxn d a b ty m) := by
    change decodeV W = _
    unfold decodeV; rw [h5]
    refine Eq.trans (b := reading (TyN.ofCode? (fld W 4 3).toNat) fun ty => .ok (.vmaxn (fld W 19 6) (fld W 13 6) (fld W 7 6) ty (fld W 0 4))) rfl ?_
    rw [ch0, h1, h2, h3, h4]; rfl
  unfold decode; rw [hd]; exact if_pos hf

theorem vabs (d : BitVec 6) (a : BitVec 6) (ty : TyF) (m : BitVec 4) : Statement (.vabs d a ty m) := by
  intro k hk hf; cases hk; refine ⟨_, rfl, ?_⟩
  generalize hW : (0xa#7 ++ d ++ a ++ 0#6 ++ ofNat 3 ty.code ++ m : Word32) = W
  have h0 : fld W 7 6 = 0#6 := by subst hW; unfold fld; rw [field_high (k := 3) _ _ (by decide) rfl, field_high (k := 0) _ _ (by decide) rfl]; exact field_low _ _
  have h1 : fld W 4 3 = ofNat 3 ty.code := by subst hW; unfold fld; rw [field_high (k := 0) _ _ (by decide) rfl]; exact field_low _ _
  have h2 : fld W 19 6 = d := by subst hW; unfold fld; rw [field_high (k := 15) _ _ (by decide) rfl, field_high (k := 12) _ _ (by decide) rfl, field_high (k := 6) _ _ (by decide) rfl, field_high (k := 0) _ _ (by decide) rfl]; exact field_low _ _
  have h3 : fld W 13 6 = a := by subst hW; unfold fld; rw [field_high (k := 9) _ _ (by decide) rfl, field_high (k := 6) _ _ (by decide) rfl, field_high (k := 0) _ _ (by decide) rfl]; exact field_low _ _
  have h4 : fld W 0 4 = m := by subst hW; unfold fld; exact field_low _ _
  have h5 : fld W 25 7 = 0xa#7 := by subst hW; unfold fld; rw [field_high (k := 21) _ _ (by decide) rfl, field_high (k := 18) _ _ (by decide) rfl, field_high (k := 12) _ _ (by decide) rfl, field_high (k := 6) _ _ (by decide) rfl, field_high (k := 0) _ _ (by decide) rfl]; exact BitVec.extractLsb'_eq_self
  have ch1 : TyF.ofCode? (fld W 4 3).toNat = some ty := by rw [h1]; cases ty <;> rfl
  have hd : decodeMap .V W = .ok (.vabs d a ty m) := by
    change decodeV W = _
    unfold decodeV; rw [h5]
    refine Eq.trans (b := zeroed (fld W 7 6 = 0) <| reading (TyF.ofCode? (fld W 4 3).toNat) fun ty => .ok (.vabs (fld W 19 6) (fld W 13 6) ty (fld W 0 4))) rfl ?_
    rw [ch1, h0, h2, h3, h4]; rfl
  unfold decode; rw [hd]; exact if_pos hf

theorem vneg (d : BitVec 6) (a : BitVec 6) (ty : TyF) (m : BitVec 4) : Statement (.vneg d a ty m) := by
  intro k hk hf; cases hk; refine ⟨_, rfl, ?_⟩
  generalize hW : (0xb#7 ++ d ++ a ++ 0#6 ++ ofNat 3 ty.code ++ m : Word32) = W
  have h0 : fld W 7 6 = 0#6 := by subst hW; unfold fld; rw [field_high (k := 3) _ _ (by decide) rfl, field_high (k := 0) _ _ (by decide) rfl]; exact field_low _ _
  have h1 : fld W 4 3 = ofNat 3 ty.code := by subst hW; unfold fld; rw [field_high (k := 0) _ _ (by decide) rfl]; exact field_low _ _
  have h2 : fld W 19 6 = d := by subst hW; unfold fld; rw [field_high (k := 15) _ _ (by decide) rfl, field_high (k := 12) _ _ (by decide) rfl, field_high (k := 6) _ _ (by decide) rfl, field_high (k := 0) _ _ (by decide) rfl]; exact field_low _ _
  have h3 : fld W 13 6 = a := by subst hW; unfold fld; rw [field_high (k := 9) _ _ (by decide) rfl, field_high (k := 6) _ _ (by decide) rfl, field_high (k := 0) _ _ (by decide) rfl]; exact field_low _ _
  have h4 : fld W 0 4 = m := by subst hW; unfold fld; exact field_low _ _
  have h5 : fld W 25 7 = 0xb#7 := by subst hW; unfold fld; rw [field_high (k := 21) _ _ (by decide) rfl, field_high (k := 18) _ _ (by decide) rfl, field_high (k := 12) _ _ (by decide) rfl, field_high (k := 6) _ _ (by decide) rfl, field_high (k := 0) _ _ (by decide) rfl]; exact BitVec.extractLsb'_eq_self
  have ch1 : TyF.ofCode? (fld W 4 3).toNat = some ty := by rw [h1]; cases ty <;> rfl
  have hd : decodeMap .V W = .ok (.vneg d a ty m) := by
    change decodeV W = _
    unfold decodeV; rw [h5]
    refine Eq.trans (b := zeroed (fld W 7 6 = 0) <| reading (TyF.ofCode? (fld W 4 3).toNat) fun ty => .ok (.vneg (fld W 19 6) (fld W 13 6) ty (fld W 0 4))) rfl ?_
    rw [ch1, h0, h2, h3, h4]; rfl
  unfold decode; rw [hd]; exact if_pos hf

theorem vand (d : BitVec 6) (a : BitVec 6) (b : BitVec 6) (ty : TyI) (m : BitVec 4) : Statement (.vand d a b ty m) := by
  intro k hk hf; cases hk; refine ⟨_, rfl, ?_⟩
  generalize hW : (0xc#7 ++ d ++ a ++ b ++ ofNat 3 ty.code ++ m : Word32) = W
  have h0 : fld W 4 3 = ofNat 3 ty.code := by subst hW; unfold fld; rw [field_high (k := 0) _ _ (by decide) rfl]; exact field_low _ _
  have h1 : fld W 19 6 = d := by subst hW; unfold fld; rw [field_high (k := 15) _ _ (by decide) rfl, field_high (k := 12) _ _ (by decide) rfl, field_high (k := 6) _ _ (by decide) rfl, field_high (k := 0) _ _ (by decide) rfl]; exact field_low _ _
  have h2 : fld W 13 6 = a := by subst hW; unfold fld; rw [field_high (k := 9) _ _ (by decide) rfl, field_high (k := 6) _ _ (by decide) rfl, field_high (k := 0) _ _ (by decide) rfl]; exact field_low _ _
  have h3 : fld W 7 6 = b := by subst hW; unfold fld; rw [field_high (k := 3) _ _ (by decide) rfl, field_high (k := 0) _ _ (by decide) rfl]; exact field_low _ _
  have h4 : fld W 0 4 = m := by subst hW; unfold fld; exact field_low _ _
  have h5 : fld W 25 7 = 0xc#7 := by subst hW; unfold fld; rw [field_high (k := 21) _ _ (by decide) rfl, field_high (k := 18) _ _ (by decide) rfl, field_high (k := 12) _ _ (by decide) rfl, field_high (k := 6) _ _ (by decide) rfl, field_high (k := 0) _ _ (by decide) rfl]; exact BitVec.extractLsb'_eq_self
  have ch0 : TyI.ofCode? (fld W 4 3).toNat = some ty := by rw [h0]; cases ty <;> rfl
  have hd : decodeMap .V W = .ok (.vand d a b ty m) := by
    change decodeV W = _
    unfold decodeV; rw [h5]
    refine Eq.trans (b := reading (TyI.ofCode? (fld W 4 3).toNat) fun ty => .ok (.vand (fld W 19 6) (fld W 13 6) (fld W 7 6) ty (fld W 0 4))) rfl ?_
    rw [ch0, h1, h2, h3, h4]; rfl
  unfold decode; rw [hd]; exact if_pos hf

theorem vor (d : BitVec 6) (a : BitVec 6) (b : BitVec 6) (ty : TyI) (m : BitVec 4) : Statement (.vor d a b ty m) := by
  intro k hk hf; cases hk; refine ⟨_, rfl, ?_⟩
  generalize hW : (0xd#7 ++ d ++ a ++ b ++ ofNat 3 ty.code ++ m : Word32) = W
  have h0 : fld W 4 3 = ofNat 3 ty.code := by subst hW; unfold fld; rw [field_high (k := 0) _ _ (by decide) rfl]; exact field_low _ _
  have h1 : fld W 19 6 = d := by subst hW; unfold fld; rw [field_high (k := 15) _ _ (by decide) rfl, field_high (k := 12) _ _ (by decide) rfl, field_high (k := 6) _ _ (by decide) rfl, field_high (k := 0) _ _ (by decide) rfl]; exact field_low _ _
  have h2 : fld W 13 6 = a := by subst hW; unfold fld; rw [field_high (k := 9) _ _ (by decide) rfl, field_high (k := 6) _ _ (by decide) rfl, field_high (k := 0) _ _ (by decide) rfl]; exact field_low _ _
  have h3 : fld W 7 6 = b := by subst hW; unfold fld; rw [field_high (k := 3) _ _ (by decide) rfl, field_high (k := 0) _ _ (by decide) rfl]; exact field_low _ _
  have h4 : fld W 0 4 = m := by subst hW; unfold fld; exact field_low _ _
  have h5 : fld W 25 7 = 0xd#7 := by subst hW; unfold fld; rw [field_high (k := 21) _ _ (by decide) rfl, field_high (k := 18) _ _ (by decide) rfl, field_high (k := 12) _ _ (by decide) rfl, field_high (k := 6) _ _ (by decide) rfl, field_high (k := 0) _ _ (by decide) rfl]; exact BitVec.extractLsb'_eq_self
  have ch0 : TyI.ofCode? (fld W 4 3).toNat = some ty := by rw [h0]; cases ty <;> rfl
  have hd : decodeMap .V W = .ok (.vor d a b ty m) := by
    change decodeV W = _
    unfold decodeV; rw [h5]
    refine Eq.trans (b := reading (TyI.ofCode? (fld W 4 3).toNat) fun ty => .ok (.vor (fld W 19 6) (fld W 13 6) (fld W 7 6) ty (fld W 0 4))) rfl ?_
    rw [ch0, h1, h2, h3, h4]; rfl
  unfold decode; rw [hd]; exact if_pos hf

theorem vxor (d : BitVec 6) (a : BitVec 6) (b : BitVec 6) (ty : TyI) (m : BitVec 4) : Statement (.vxor d a b ty m) := by
  intro k hk hf; cases hk; refine ⟨_, rfl, ?_⟩
  generalize hW : (0xe#7 ++ d ++ a ++ b ++ ofNat 3 ty.code ++ m : Word32) = W
  have h0 : fld W 4 3 = ofNat 3 ty.code := by subst hW; unfold fld; rw [field_high (k := 0) _ _ (by decide) rfl]; exact field_low _ _
  have h1 : fld W 19 6 = d := by subst hW; unfold fld; rw [field_high (k := 15) _ _ (by decide) rfl, field_high (k := 12) _ _ (by decide) rfl, field_high (k := 6) _ _ (by decide) rfl, field_high (k := 0) _ _ (by decide) rfl]; exact field_low _ _
  have h2 : fld W 13 6 = a := by subst hW; unfold fld; rw [field_high (k := 9) _ _ (by decide) rfl, field_high (k := 6) _ _ (by decide) rfl, field_high (k := 0) _ _ (by decide) rfl]; exact field_low _ _
  have h3 : fld W 7 6 = b := by subst hW; unfold fld; rw [field_high (k := 3) _ _ (by decide) rfl, field_high (k := 0) _ _ (by decide) rfl]; exact field_low _ _
  have h4 : fld W 0 4 = m := by subst hW; unfold fld; exact field_low _ _
  have h5 : fld W 25 7 = 0xe#7 := by subst hW; unfold fld; rw [field_high (k := 21) _ _ (by decide) rfl, field_high (k := 18) _ _ (by decide) rfl, field_high (k := 12) _ _ (by decide) rfl, field_high (k := 6) _ _ (by decide) rfl, field_high (k := 0) _ _ (by decide) rfl]; exact BitVec.extractLsb'_eq_self
  have ch0 : TyI.ofCode? (fld W 4 3).toNat = some ty := by rw [h0]; cases ty <;> rfl
  have hd : decodeMap .V W = .ok (.vxor d a b ty m) := by
    change decodeV W = _
    unfold decodeV; rw [h5]
    refine Eq.trans (b := reading (TyI.ofCode? (fld W 4 3).toNat) fun ty => .ok (.vxor (fld W 19 6) (fld W 13 6) (fld W 7 6) ty (fld W 0 4))) rfl ?_
    rw [ch0, h1, h2, h3, h4]; rfl
  unfold decode; rw [hd]; exact if_pos hf

theorem vandn (d : BitVec 6) (a : BitVec 6) (b : BitVec 6) (ty : TyI) (m : BitVec 4) : Statement (.vandn d a b ty m) := by
  intro k hk hf; cases hk; refine ⟨_, rfl, ?_⟩
  generalize hW : (0xf#7 ++ d ++ a ++ b ++ ofNat 3 ty.code ++ m : Word32) = W
  have h0 : fld W 4 3 = ofNat 3 ty.code := by subst hW; unfold fld; rw [field_high (k := 0) _ _ (by decide) rfl]; exact field_low _ _
  have h1 : fld W 19 6 = d := by subst hW; unfold fld; rw [field_high (k := 15) _ _ (by decide) rfl, field_high (k := 12) _ _ (by decide) rfl, field_high (k := 6) _ _ (by decide) rfl, field_high (k := 0) _ _ (by decide) rfl]; exact field_low _ _
  have h2 : fld W 13 6 = a := by subst hW; unfold fld; rw [field_high (k := 9) _ _ (by decide) rfl, field_high (k := 6) _ _ (by decide) rfl, field_high (k := 0) _ _ (by decide) rfl]; exact field_low _ _
  have h3 : fld W 7 6 = b := by subst hW; unfold fld; rw [field_high (k := 3) _ _ (by decide) rfl, field_high (k := 0) _ _ (by decide) rfl]; exact field_low _ _
  have h4 : fld W 0 4 = m := by subst hW; unfold fld; exact field_low _ _
  have h5 : fld W 25 7 = 0xf#7 := by subst hW; unfold fld; rw [field_high (k := 21) _ _ (by decide) rfl, field_high (k := 18) _ _ (by decide) rfl, field_high (k := 12) _ _ (by decide) rfl, field_high (k := 6) _ _ (by decide) rfl, field_high (k := 0) _ _ (by decide) rfl]; exact BitVec.extractLsb'_eq_self
  have ch0 : TyI.ofCode? (fld W 4 3).toNat = some ty := by rw [h0]; cases ty <;> rfl
  have hd : decodeMap .V W = .ok (.vandn d a b ty m) := by
    change decodeV W = _
    unfold decodeV; rw [h5]
    refine Eq.trans (b := reading (TyI.ofCode? (fld W 4 3).toNat) fun ty => .ok (.vandn (fld W 19 6) (fld W 13 6) (fld W 7 6) ty (fld W 0 4))) rfl ?_
    rw [ch0, h1, h2, h3, h4]; rfl
  unfold decode; rw [hd]; exact if_pos hf

theorem vshl (d : BitVec 6) (a : BitVec 6) (b : BitVec 6) (ty : TyI) (m : BitVec 4) : Statement (.vshl d a b ty m) := by
  intro k hk hf; cases hk; refine ⟨_, rfl, ?_⟩
  generalize hW : (0x10#7 ++ d ++ a ++ b ++ ofNat 3 ty.code ++ m : Word32) = W
  have h0 : fld W 4 3 = ofNat 3 ty.code := by subst hW; unfold fld; rw [field_high (k := 0) _ _ (by decide) rfl]; exact field_low _ _
  have h1 : fld W 19 6 = d := by subst hW; unfold fld; rw [field_high (k := 15) _ _ (by decide) rfl, field_high (k := 12) _ _ (by decide) rfl, field_high (k := 6) _ _ (by decide) rfl, field_high (k := 0) _ _ (by decide) rfl]; exact field_low _ _
  have h2 : fld W 13 6 = a := by subst hW; unfold fld; rw [field_high (k := 9) _ _ (by decide) rfl, field_high (k := 6) _ _ (by decide) rfl, field_high (k := 0) _ _ (by decide) rfl]; exact field_low _ _
  have h3 : fld W 7 6 = b := by subst hW; unfold fld; rw [field_high (k := 3) _ _ (by decide) rfl, field_high (k := 0) _ _ (by decide) rfl]; exact field_low _ _
  have h4 : fld W 0 4 = m := by subst hW; unfold fld; exact field_low _ _
  have h5 : fld W 25 7 = 0x10#7 := by subst hW; unfold fld; rw [field_high (k := 21) _ _ (by decide) rfl, field_high (k := 18) _ _ (by decide) rfl, field_high (k := 12) _ _ (by decide) rfl, field_high (k := 6) _ _ (by decide) rfl, field_high (k := 0) _ _ (by decide) rfl]; exact BitVec.extractLsb'_eq_self
  have ch0 : TyI.ofCode? (fld W 4 3).toNat = some ty := by rw [h0]; cases ty <;> rfl
  have hd : decodeMap .V W = .ok (.vshl d a b ty m) := by
    change decodeV W = _
    unfold decodeV; rw [h5]
    refine Eq.trans (b := reading (TyI.ofCode? (fld W 4 3).toNat) fun ty => .ok (.vshl (fld W 19 6) (fld W 13 6) (fld W 7 6) ty (fld W 0 4))) rfl ?_
    rw [ch0, h1, h2, h3, h4]; rfl
  unfold decode; rw [hd]; exact if_pos hf

theorem vshr (d : BitVec 6) (a : BitVec 6) (b : BitVec 6) (ty : TyI) (m : BitVec 4) : Statement (.vshr d a b ty m) := by
  intro k hk hf; cases hk; refine ⟨_, rfl, ?_⟩
  generalize hW : (0x11#7 ++ d ++ a ++ b ++ ofNat 3 ty.code ++ m : Word32) = W
  have h0 : fld W 4 3 = ofNat 3 ty.code := by subst hW; unfold fld; rw [field_high (k := 0) _ _ (by decide) rfl]; exact field_low _ _
  have h1 : fld W 19 6 = d := by subst hW; unfold fld; rw [field_high (k := 15) _ _ (by decide) rfl, field_high (k := 12) _ _ (by decide) rfl, field_high (k := 6) _ _ (by decide) rfl, field_high (k := 0) _ _ (by decide) rfl]; exact field_low _ _
  have h2 : fld W 13 6 = a := by subst hW; unfold fld; rw [field_high (k := 9) _ _ (by decide) rfl, field_high (k := 6) _ _ (by decide) rfl, field_high (k := 0) _ _ (by decide) rfl]; exact field_low _ _
  have h3 : fld W 7 6 = b := by subst hW; unfold fld; rw [field_high (k := 3) _ _ (by decide) rfl, field_high (k := 0) _ _ (by decide) rfl]; exact field_low _ _
  have h4 : fld W 0 4 = m := by subst hW; unfold fld; exact field_low _ _
  have h5 : fld W 25 7 = 0x11#7 := by subst hW; unfold fld; rw [field_high (k := 21) _ _ (by decide) rfl, field_high (k := 18) _ _ (by decide) rfl, field_high (k := 12) _ _ (by decide) rfl, field_high (k := 6) _ _ (by decide) rfl, field_high (k := 0) _ _ (by decide) rfl]; exact BitVec.extractLsb'_eq_self
  have ch0 : TyI.ofCode? (fld W 4 3).toNat = some ty := by rw [h0]; cases ty <;> rfl
  have hd : decodeMap .V W = .ok (.vshr d a b ty m) := by
    change decodeV W = _
    unfold decodeV; rw [h5]
    refine Eq.trans (b := reading (TyI.ofCode? (fld W 4 3).toNat) fun ty => .ok (.vshr (fld W 19 6) (fld W 13 6) (fld W 7 6) ty (fld W 0 4))) rfl ?_
    rw [ch0, h1, h2, h3, h4]; rfl
  unfold decode; rw [hd]; exact if_pos hf

theorem vsra (d : BitVec 6) (a : BitVec 6) (b : BitVec 6) (ty : TyI) (m : BitVec 4) : Statement (.vsra d a b ty m) := by
  intro k hk hf; cases hk; refine ⟨_, rfl, ?_⟩
  generalize hW : (0x12#7 ++ d ++ a ++ b ++ ofNat 3 ty.code ++ m : Word32) = W
  have h0 : fld W 4 3 = ofNat 3 ty.code := by subst hW; unfold fld; rw [field_high (k := 0) _ _ (by decide) rfl]; exact field_low _ _
  have h1 : fld W 19 6 = d := by subst hW; unfold fld; rw [field_high (k := 15) _ _ (by decide) rfl, field_high (k := 12) _ _ (by decide) rfl, field_high (k := 6) _ _ (by decide) rfl, field_high (k := 0) _ _ (by decide) rfl]; exact field_low _ _
  have h2 : fld W 13 6 = a := by subst hW; unfold fld; rw [field_high (k := 9) _ _ (by decide) rfl, field_high (k := 6) _ _ (by decide) rfl, field_high (k := 0) _ _ (by decide) rfl]; exact field_low _ _
  have h3 : fld W 7 6 = b := by subst hW; unfold fld; rw [field_high (k := 3) _ _ (by decide) rfl, field_high (k := 0) _ _ (by decide) rfl]; exact field_low _ _
  have h4 : fld W 0 4 = m := by subst hW; unfold fld; exact field_low _ _
  have h5 : fld W 25 7 = 0x12#7 := by subst hW; unfold fld; rw [field_high (k := 21) _ _ (by decide) rfl, field_high (k := 18) _ _ (by decide) rfl, field_high (k := 12) _ _ (by decide) rfl, field_high (k := 6) _ _ (by decide) rfl, field_high (k := 0) _ _ (by decide) rfl]; exact BitVec.extractLsb'_eq_self
  have ch0 : TyI.ofCode? (fld W 4 3).toNat = some ty := by rw [h0]; cases ty <;> rfl
  have hd : decodeMap .V W = .ok (.vsra d a b ty m) := by
    change decodeV W = _
    unfold decodeV; rw [h5]
    refine Eq.trans (b := reading (TyI.ofCode? (fld W 4 3).toNat) fun ty => .ok (.vsra (fld W 19 6) (fld W 13 6) (fld W 7 6) ty (fld W 0 4))) rfl ?_
    rw [ch0, h1, h2, h3, h4]; rfl
  unfold decode; rw [hd]; exact if_pos hf

theorem vfsh (d : BitVec 6) (a : BitVec 6) (b : BitVec 6) (ty : TyI) (m : BitVec 4) : Statement (.vfsh d a b ty m) := by
  intro k hk hf; cases hk; refine ⟨_, rfl, ?_⟩
  generalize hW : (0x13#7 ++ d ++ a ++ b ++ ofNat 3 ty.code ++ m : Word32) = W
  have h0 : fld W 4 3 = ofNat 3 ty.code := by subst hW; unfold fld; rw [field_high (k := 0) _ _ (by decide) rfl]; exact field_low _ _
  have h1 : fld W 19 6 = d := by subst hW; unfold fld; rw [field_high (k := 15) _ _ (by decide) rfl, field_high (k := 12) _ _ (by decide) rfl, field_high (k := 6) _ _ (by decide) rfl, field_high (k := 0) _ _ (by decide) rfl]; exact field_low _ _
  have h2 : fld W 13 6 = a := by subst hW; unfold fld; rw [field_high (k := 9) _ _ (by decide) rfl, field_high (k := 6) _ _ (by decide) rfl, field_high (k := 0) _ _ (by decide) rfl]; exact field_low _ _
  have h3 : fld W 7 6 = b := by subst hW; unfold fld; rw [field_high (k := 3) _ _ (by decide) rfl, field_high (k := 0) _ _ (by decide) rfl]; exact field_low _ _
  have h4 : fld W 0 4 = m := by subst hW; unfold fld; exact field_low _ _
  have h5 : fld W 25 7 = 0x13#7 := by subst hW; unfold fld; rw [field_high (k := 21) _ _ (by decide) rfl, field_high (k := 18) _ _ (by decide) rfl, field_high (k := 12) _ _ (by decide) rfl, field_high (k := 6) _ _ (by decide) rfl, field_high (k := 0) _ _ (by decide) rfl]; exact BitVec.extractLsb'_eq_self
  have ch0 : TyI.ofCode? (fld W 4 3).toNat = some ty := by rw [h0]; cases ty <;> rfl
  have hd : decodeMap .V W = .ok (.vfsh d a b ty m) := by
    change decodeV W = _
    unfold decodeV; rw [h5]
    refine Eq.trans (b := reading (TyI.ofCode? (fld W 4 3).toNat) fun ty => .ok (.vfsh (fld W 19 6) (fld W 13 6) (fld W 7 6) ty (fld W 0 4))) rfl ?_
    rw [ch0, h1, h2, h3, h4]; rfl
  unfold decode; rw [hd]; exact if_pos hf

theorem vbfx (d : BitVec 6) (a : BitVec 6) (b : BitVec 6) (ty : TyI) (m : BitVec 4) : Statement (.vbfx d a b ty m) := by
  intro k hk hf; cases hk; refine ⟨_, rfl, ?_⟩
  generalize hW : (0x14#7 ++ d ++ a ++ b ++ ofNat 3 ty.code ++ m : Word32) = W
  have h0 : fld W 4 3 = ofNat 3 ty.code := by subst hW; unfold fld; rw [field_high (k := 0) _ _ (by decide) rfl]; exact field_low _ _
  have h1 : fld W 19 6 = d := by subst hW; unfold fld; rw [field_high (k := 15) _ _ (by decide) rfl, field_high (k := 12) _ _ (by decide) rfl, field_high (k := 6) _ _ (by decide) rfl, field_high (k := 0) _ _ (by decide) rfl]; exact field_low _ _
  have h2 : fld W 13 6 = a := by subst hW; unfold fld; rw [field_high (k := 9) _ _ (by decide) rfl, field_high (k := 6) _ _ (by decide) rfl, field_high (k := 0) _ _ (by decide) rfl]; exact field_low _ _
  have h3 : fld W 7 6 = b := by subst hW; unfold fld; rw [field_high (k := 3) _ _ (by decide) rfl, field_high (k := 0) _ _ (by decide) rfl]; exact field_low _ _
  have h4 : fld W 0 4 = m := by subst hW; unfold fld; exact field_low _ _
  have h5 : fld W 25 7 = 0x14#7 := by subst hW; unfold fld; rw [field_high (k := 21) _ _ (by decide) rfl, field_high (k := 18) _ _ (by decide) rfl, field_high (k := 12) _ _ (by decide) rfl, field_high (k := 6) _ _ (by decide) rfl, field_high (k := 0) _ _ (by decide) rfl]; exact BitVec.extractLsb'_eq_self
  have ch0 : TyI.ofCode? (fld W 4 3).toNat = some ty := by rw [h0]; cases ty <;> rfl
  have hd : decodeMap .V W = .ok (.vbfx d a b ty m) := by
    change decodeV W = _
    unfold decodeV; rw [h5]
    refine Eq.trans (b := reading (TyI.ofCode? (fld W 4 3).toNat) fun ty => .ok (.vbfx (fld W 19 6) (fld W 13 6) (fld W 7 6) ty (fld W 0 4))) rfl ?_
    rw [ch0, h1, h2, h3, h4]; rfl
  unfold decode; rw [hd]; exact if_pos hf

theorem vcmp (cc : VCond) (p : BitVec 4) (a : BitVec 6) (b : BitVec 6) (ty : TyF) (m : BitVec 4) : Statement (.vcmp cc p a b ty m) := by
  intro k hk hf; cases hk; refine ⟨_, rfl, ?_⟩
  generalize hW : (0x15#7 ++ ofNat 2 cc.code ++ p ++ a ++ b ++ ofNat 3 ty.code ++ m : Word32) = W
  have h0 : fld W 23 2 = ofNat 2 cc.code := by subst hW; unfold fld; rw [field_high (k := 19) _ _ (by decide) rfl, field_high (k := 16) _ _ (by decide) rfl, field_high (k := 10) _ _ (by decide) rfl, field_high (k := 4) _ _ (by decide) rfl, field_high (k := 0) _ _ (by decide) rfl]; exact field_low _ _
  have h1 : fld W 4 3 = ofNat 3 ty.code := by subst hW; unfold fld; rw [field_high (k := 0) _ _ (by decide) rfl]; exact field_low _ _
  have h2 : fld W 19 4 = p := by subst hW; unfold fld; rw [field_high (k := 15) _ _ (by decide) rfl, field_high (k := 12) _ _ (by decide) rfl, field_high (k := 6) _ _ (by decide) rfl, field_high (k := 0) _ _ (by decide) rfl]; exact field_low _ _
  have h3 : fld W 13 6 = a := by subst hW; unfold fld; rw [field_high (k := 9) _ _ (by decide) rfl, field_high (k := 6) _ _ (by decide) rfl, field_high (k := 0) _ _ (by decide) rfl]; exact field_low _ _
  have h4 : fld W 7 6 = b := by subst hW; unfold fld; rw [field_high (k := 3) _ _ (by decide) rfl, field_high (k := 0) _ _ (by decide) rfl]; exact field_low _ _
  have h5 : fld W 0 4 = m := by subst hW; unfold fld; exact field_low _ _
  have h6 : fld W 25 7 = 0x15#7 := by subst hW; unfold fld; rw [field_high (k := 21) _ _ (by decide) rfl, field_high (k := 18) _ _ (by decide) rfl, field_high (k := 12) _ _ (by decide) rfl, field_high (k := 6) _ _ (by decide) rfl, field_high (k := 2) _ _ (by decide) rfl, field_high (k := 0) _ _ (by decide) rfl]; exact BitVec.extractLsb'_eq_self
  have ch0 : VCond.ofCode? (fld W 23 2).toNat = some cc := by rw [h0]; cases cc <;> rfl
  have ch1 : TyF.ofCode? (fld W 4 3).toNat = some ty := by rw [h1]; cases ty <;> rfl
  have hd : decodeMap .V W = .ok (.vcmp cc p a b ty m) := by
    change decodeV W = _
    unfold decodeV; rw [h6]
    refine Eq.trans (b := reading (VCond.ofCode? (fld W 23 2).toNat) fun cc => reading (TyF.ofCode? (fld W 4 3).toNat) fun ty => .ok (.vcmp cc (fld W 19 4) (fld W 13 6) (fld W 7 6) ty (fld W 0 4))) rfl ?_
    rw [ch0, ch1, h2, h3, h4, h5]; rfl
  unfold decode; rw [hd]; exact if_pos hf

theorem vsel (d : BitVec 6) (a : BitVec 6) (b : BitVec 6) (ty : TyI) (m : BitVec 4) : Statement (.vsel d a b ty m) := by
  intro k hk hf; cases hk; refine ⟨_, rfl, ?_⟩
  generalize hW : (0x16#7 ++ d ++ a ++ b ++ ofNat 3 ty.code ++ m : Word32) = W
  have h0 : fld W 4 3 = ofNat 3 ty.code := by subst hW; unfold fld; rw [field_high (k := 0) _ _ (by decide) rfl]; exact field_low _ _
  have h1 : fld W 19 6 = d := by subst hW; unfold fld; rw [field_high (k := 15) _ _ (by decide) rfl, field_high (k := 12) _ _ (by decide) rfl, field_high (k := 6) _ _ (by decide) rfl, field_high (k := 0) _ _ (by decide) rfl]; exact field_low _ _
  have h2 : fld W 13 6 = a := by subst hW; unfold fld; rw [field_high (k := 9) _ _ (by decide) rfl, field_high (k := 6) _ _ (by decide) rfl, field_high (k := 0) _ _ (by decide) rfl]; exact field_low _ _
  have h3 : fld W 7 6 = b := by subst hW; unfold fld; rw [field_high (k := 3) _ _ (by decide) rfl, field_high (k := 0) _ _ (by decide) rfl]; exact field_low _ _
  have h4 : fld W 0 4 = m := by subst hW; unfold fld; exact field_low _ _
  have h5 : fld W 25 7 = 0x16#7 := by subst hW; unfold fld; rw [field_high (k := 21) _ _ (by decide) rfl, field_high (k := 18) _ _ (by decide) rfl, field_high (k := 12) _ _ (by decide) rfl, field_high (k := 6) _ _ (by decide) rfl, field_high (k := 0) _ _ (by decide) rfl]; exact BitVec.extractLsb'_eq_self
  have ch0 : TyI.ofCode? (fld W 4 3).toNat = some ty := by rw [h0]; cases ty <;> rfl
  have hd : decodeMap .V W = .ok (.vsel d a b ty m) := by
    change decodeV W = _
    unfold decodeV; rw [h5]
    refine Eq.trans (b := reading (TyI.ofCode? (fld W 4 3).toNat) fun ty => .ok (.vsel (fld W 19 6) (fld W 13 6) (fld W 7 6) ty (fld W 0 4))) rfl ?_
    rw [ch0, h1, h2, h3, h4]; rfl
  unfold decode; rw [hd]; exact if_pos hf

theorem vcvt (d : BitVec 6) (a : BitVec 6) (dst : Fmt) (src : Fmt) (sat : Bool) (rnd : Rnd) : Statement (.vcvt d a dst src sat rnd) := by
  intro k hk hf; cases hk; refine ⟨_, rfl, ?_⟩
  generalize hW : (0x17#7 ++ d ++ a ++ ofNat 4 dst.code ++ ofNat 4 src.code ++ ofBool sat ++ ofNat 3 rnd.code ++ 0#1 : Word32) = W
  have h0 : fld W 0 1 = 0#1 := by subst hW; unfold fld; exact field_low _ _
  have h1 : fld W 9 4 = ofNat 4 dst.code := by subst hW; unfold fld; rw [field_high (k := 8) _ _ (by decide) rfl, field_high (k := 5) _ _ (by decide) rfl, field_high (k := 4) _ _ (by decide) rfl, field_high (k := 0) _ _ (by decide) rfl]; exact field_low _ _
  have h2 : fld W 5 4 = ofNat 4 src.code := by subst hW; unfold fld; rw [field_high (k := 4) _ _ (by decide) rfl, field_high (k := 1) _ _ (by decide) rfl, field_high (k := 0) _ _ (by decide) rfl]; exact field_low _ _
  have h3 : fld W 1 3 = ofNat 3 rnd.code := by subst hW; unfold fld; rw [field_high (k := 0) _ _ (by decide) rfl]; exact field_low _ _
  have h4 : fld W 19 6 = d := by subst hW; unfold fld; rw [field_high (k := 18) _ _ (by decide) rfl, field_high (k := 15) _ _ (by decide) rfl, field_high (k := 14) _ _ (by decide) rfl, field_high (k := 10) _ _ (by decide) rfl, field_high (k := 6) _ _ (by decide) rfl, field_high (k := 0) _ _ (by decide) rfl]; exact field_low _ _
  have h5 : fld W 13 6 = a := by subst hW; unfold fld; rw [field_high (k := 12) _ _ (by decide) rfl, field_high (k := 9) _ _ (by decide) rfl, field_high (k := 8) _ _ (by decide) rfl, field_high (k := 4) _ _ (by decide) rfl, field_high (k := 0) _ _ (by decide) rfl]; exact field_low _ _
  have h6 : flag W 4 = sat := by subst hW; unfold flag; rw [bit_high (k := 3) _ _ (by decide) rfl, bit_high (k := 0) _ _ (by decide) rfl]; exact bit_low _ _
  have h7 : fld W 25 7 = 0x17#7 := by subst hW; unfold fld; rw [field_high (k := 24) _ _ (by decide) rfl, field_high (k := 21) _ _ (by decide) rfl, field_high (k := 20) _ _ (by decide) rfl, field_high (k := 16) _ _ (by decide) rfl, field_high (k := 12) _ _ (by decide) rfl, field_high (k := 6) _ _ (by decide) rfl, field_high (k := 0) _ _ (by decide) rfl]; exact BitVec.extractLsb'_eq_self
  have ch1 : Fmt.ofCode? (fld W 9 4).toNat = some dst := by rw [h1]; cases dst <;> rfl
  have ch2 : Fmt.ofCode? (fld W 5 4).toNat = some src := by rw [h2]; cases src <;> rfl
  have ch3 : Rnd.ofCode? (fld W 1 3).toNat = some rnd := by rw [h3]; cases rnd <;> rfl
  have hd : decodeMap .V W = .ok (.vcvt d a dst src sat rnd) := by
    change decodeV W = _
    unfold decodeV; rw [h7]
    refine Eq.trans (b := zeroed (fld W 0 1 = 0) <| reading (Fmt.ofCode? (fld W 9 4).toNat) fun dst => reading (Fmt.ofCode? (fld W 5 4).toNat) fun src => reading (Rnd.ofCode? (fld W 1 3).toNat) fun rnd => .ok (.vcvt (fld W 19 6) (fld W 13 6) dst src (flag W 4) rnd)) rfl ?_
    rw [ch1, ch2, ch3, h0, h4, h5, h6]; rfl
  unfold decode; rw [hd]; exact if_pos hf

theorem vmov (d : BitVec 6) (a : BitVec 6) (ty : TyI) (m : BitVec 4) : Statement (.vmov d a ty m) := by
  intro k hk hf; cases hk; refine ⟨_, rfl, ?_⟩
  generalize hW : (0x18#7 ++ d ++ a ++ 0#6 ++ ofNat 3 ty.code ++ m : Word32) = W
  have h0 : fld W 7 6 = 0#6 := by subst hW; unfold fld; rw [field_high (k := 3) _ _ (by decide) rfl, field_high (k := 0) _ _ (by decide) rfl]; exact field_low _ _
  have h1 : fld W 4 3 = ofNat 3 ty.code := by subst hW; unfold fld; rw [field_high (k := 0) _ _ (by decide) rfl]; exact field_low _ _
  have h2 : fld W 19 6 = d := by subst hW; unfold fld; rw [field_high (k := 15) _ _ (by decide) rfl, field_high (k := 12) _ _ (by decide) rfl, field_high (k := 6) _ _ (by decide) rfl, field_high (k := 0) _ _ (by decide) rfl]; exact field_low _ _
  have h3 : fld W 13 6 = a := by subst hW; unfold fld; rw [field_high (k := 9) _ _ (by decide) rfl, field_high (k := 6) _ _ (by decide) rfl, field_high (k := 0) _ _ (by decide) rfl]; exact field_low _ _
  have h4 : fld W 0 4 = m := by subst hW; unfold fld; exact field_low _ _
  have h5 : fld W 25 7 = 0x18#7 := by subst hW; unfold fld; rw [field_high (k := 21) _ _ (by decide) rfl, field_high (k := 18) _ _ (by decide) rfl, field_high (k := 12) _ _ (by decide) rfl, field_high (k := 6) _ _ (by decide) rfl, field_high (k := 0) _ _ (by decide) rfl]; exact BitVec.extractLsb'_eq_self
  have ch1 : TyI.ofCode? (fld W 4 3).toNat = some ty := by rw [h1]; cases ty <;> rfl
  have hd : decodeMap .V W = .ok (.vmov d a ty m) := by
    change decodeV W = _
    unfold decodeV; rw [h5]
    refine Eq.trans (b := zeroed (fld W 7 6 = 0) <| reading (TyI.ofCode? (fld W 4 3).toNat) fun ty => .ok (.vmov (fld W 19 6) (fld W 13 6) ty (fld W 0 4))) rfl ?_
    rw [ch1, h0, h2, h3, h4]; rfl
  unfold decode; rw [hd]; exact if_pos hf

theorem vspl (d : BitVec 6) (t : Bool) (s : BitVec 5) (ty : TyI) (m : BitVec 4) : Statement (.vspl d t s ty m) := by
  intro k hk hf; cases hk; refine ⟨_, rfl, ?_⟩
  generalize hW : (0x19#7 ++ d ++ ofBool t ++ s ++ 0#6 ++ ofNat 3 ty.code ++ m : Word32) = W
  have h0 : fld W 7 6 = 0#6 := by subst hW; unfold fld; rw [field_high (k := 3) _ _ (by decide) rfl, field_high (k := 0) _ _ (by decide) rfl]; exact field_low _ _
  have h1 : fld W 4 3 = ofNat 3 ty.code := by subst hW; unfold fld; rw [field_high (k := 0) _ _ (by decide) rfl]; exact field_low _ _
  have h2 : fld W 19 6 = d := by subst hW; unfold fld; rw [field_high (k := 15) _ _ (by decide) rfl, field_high (k := 12) _ _ (by decide) rfl, field_high (k := 6) _ _ (by decide) rfl, field_high (k := 1) _ _ (by decide) rfl, field_high (k := 0) _ _ (by decide) rfl]; exact field_low _ _
  have h3 : flag W 18 = t := by subst hW; unfold flag; rw [bit_high (k := 14) _ _ (by decide) rfl, bit_high (k := 11) _ _ (by decide) rfl, bit_high (k := 5) _ _ (by decide) rfl, bit_high (k := 0) _ _ (by decide) rfl]; exact bit_low _ _
  have h4 : fld W 13 5 = s := by subst hW; unfold fld; rw [field_high (k := 9) _ _ (by decide) rfl, field_high (k := 6) _ _ (by decide) rfl, field_high (k := 0) _ _ (by decide) rfl]; exact field_low _ _
  have h5 : fld W 0 4 = m := by subst hW; unfold fld; exact field_low _ _
  have h6 : fld W 25 7 = 0x19#7 := by subst hW; unfold fld; rw [field_high (k := 21) _ _ (by decide) rfl, field_high (k := 18) _ _ (by decide) rfl, field_high (k := 12) _ _ (by decide) rfl, field_high (k := 7) _ _ (by decide) rfl, field_high (k := 6) _ _ (by decide) rfl, field_high (k := 0) _ _ (by decide) rfl]; exact BitVec.extractLsb'_eq_self
  have ch1 : TyI.ofCode? (fld W 4 3).toNat = some ty := by rw [h1]; cases ty <;> rfl
  have hd : decodeMap .V W = .ok (.vspl d t s ty m) := by
    change decodeV W = _
    unfold decodeV; rw [h6]
    refine Eq.trans (b := zeroed (fld W 7 6 = 0) <| reading (TyI.ofCode? (fld W 4 3).toNat) fun ty => .ok (.vspl (fld W 19 6) (flag W 18) (fld W 13 5) ty (fld W 0 4))) rfl ?_
    rw [ch1, h0, h2, h3, h4, h5]; rfl
  unfold decode; rw [hd]; exact if_pos hf

theorem vidx (d : BitVec 6) (ty : TyI) (m : BitVec 4) : Statement (.vidx d ty m) := by
  intro k hk hf; cases hk; refine ⟨_, rfl, ?_⟩
  generalize hW : (0x1a#7 ++ d ++ 0#12 ++ ofNat 3 ty.code ++ m : Word32) = W
  have h0 : fld W 7 12 = 0#12 := by subst hW; unfold fld; rw [field_high (k := 3) _ _ (by decide) rfl, field_high (k := 0) _ _ (by decide) rfl]; exact field_low _ _
  have h1 : fld W 4 3 = ofNat 3 ty.code := by subst hW; unfold fld; rw [field_high (k := 0) _ _ (by decide) rfl]; exact field_low _ _
  have h2 : fld W 19 6 = d := by subst hW; unfold fld; rw [field_high (k := 15) _ _ (by decide) rfl, field_high (k := 12) _ _ (by decide) rfl, field_high (k := 0) _ _ (by decide) rfl]; exact field_low _ _
  have h3 : fld W 0 4 = m := by subst hW; unfold fld; exact field_low _ _
  have h4 : fld W 25 7 = 0x1a#7 := by subst hW; unfold fld; rw [field_high (k := 21) _ _ (by decide) rfl, field_high (k := 18) _ _ (by decide) rfl, field_high (k := 6) _ _ (by decide) rfl, field_high (k := 0) _ _ (by decide) rfl]; exact BitVec.extractLsb'_eq_self
  have ch1 : TyI.ofCode? (fld W 4 3).toNat = some ty := by rw [h1]; cases ty <;> rfl
  have hd : decodeMap .V W = .ok (.vidx d ty m) := by
    change decodeV W = _
    unfold decodeV; rw [h4]
    refine Eq.trans (b := zeroed (fld W 7 12 = 0) <| reading (TyI.ofCode? (fld W 4 3).toNat) fun ty => .ok (.vidx (fld W 19 6) ty (fld W 0 4))) rfl ?_
    rw [ch1, h0, h2, h3]; rfl
  unfold decode; rw [hd]; exact if_pos hf

theorem vcls (d : BitVec 6) (a : BitVec 6) (ty : TyL) (m : BitVec 4) : Statement (.vcls d a ty m) := by
  intro k hk hf; cases hk; refine ⟨_, rfl, ?_⟩
  generalize hW : (0x1b#7 ++ d ++ a ++ 0#6 ++ ofNat 3 ty.code ++ m : Word32) = W
  have h0 : fld W 7 6 = 0#6 := by subst hW; unfold fld; rw [field_high (k := 3) _ _ (by decide) rfl, field_high (k := 0) _ _ (by decide) rfl]; exact field_low _ _
  have h1 : fld W 4 3 = ofNat 3 ty.code := by subst hW; unfold fld; rw [field_high (k := 0) _ _ (by decide) rfl]; exact field_low _ _
  have h2 : fld W 19 6 = d := by subst hW; unfold fld; rw [field_high (k := 15) _ _ (by decide) rfl, field_high (k := 12) _ _ (by decide) rfl, field_high (k := 6) _ _ (by decide) rfl, field_high (k := 0) _ _ (by decide) rfl]; exact field_low _ _
  have h3 : fld W 13 6 = a := by subst hW; unfold fld; rw [field_high (k := 9) _ _ (by decide) rfl, field_high (k := 6) _ _ (by decide) rfl, field_high (k := 0) _ _ (by decide) rfl]; exact field_low _ _
  have h4 : fld W 0 4 = m := by subst hW; unfold fld; exact field_low _ _
  have h5 : fld W 25 7 = 0x1b#7 := by subst hW; unfold fld; rw [field_high (k := 21) _ _ (by decide) rfl, field_high (k := 18) _ _ (by decide) rfl, field_high (k := 12) _ _ (by decide) rfl, field_high (k := 6) _ _ (by decide) rfl, field_high (k := 0) _ _ (by decide) rfl]; exact BitVec.extractLsb'_eq_self
  have ch1 : TyL.ofCode? (fld W 4 3).toNat = some ty := by rw [h1]; cases ty <;> rfl
  have hd : decodeMap .V W = .ok (.vcls d a ty m) := by
    change decodeV W = _
    unfold decodeV; rw [h5]
    refine Eq.trans (b := zeroed (fld W 7 6 = 0) <| reading (TyL.ofCode? (fld W 4 3).toNat) fun ty => .ok (.vcls (fld W 19 6) (fld W 13 6) ty (fld W 0 4))) rfl ?_
    rw [ch1, h0, h2, h3, h4]; rfl
  unfold decode; rw [hd]; exact if_pos hf

theorem vrnd (d : BitVec 6) (ty : TyI) (m : BitVec 4) : Statement (.vrnd d ty m) := by
  intro k hk hf; cases hk; refine ⟨_, rfl, ?_⟩
  generalize hW : (0x1c#7 ++ d ++ 0#12 ++ ofNat 3 ty.code ++ m : Word32) = W
  have h0 : fld W 7 12 = 0#12 := by subst hW; unfold fld; rw [field_high (k := 3) _ _ (by decide) rfl, field_high (k := 0) _ _ (by decide) rfl]; exact field_low _ _
  have h1 : fld W 4 3 = ofNat 3 ty.code := by subst hW; unfold fld; rw [field_high (k := 0) _ _ (by decide) rfl]; exact field_low _ _
  have h2 : fld W 19 6 = d := by subst hW; unfold fld; rw [field_high (k := 15) _ _ (by decide) rfl, field_high (k := 12) _ _ (by decide) rfl, field_high (k := 0) _ _ (by decide) rfl]; exact field_low _ _
  have h3 : fld W 0 4 = m := by subst hW; unfold fld; exact field_low _ _
  have h4 : fld W 25 7 = 0x1c#7 := by subst hW; unfold fld; rw [field_high (k := 21) _ _ (by decide) rfl, field_high (k := 18) _ _ (by decide) rfl, field_high (k := 6) _ _ (by decide) rfl, field_high (k := 0) _ _ (by decide) rfl]; exact BitVec.extractLsb'_eq_self
  have ch1 : TyI.ofCode? (fld W 4 3).toNat = some ty := by rw [h1]; cases ty <;> rfl
  have hd : decodeMap .V W = .ok (.vrnd d ty m) := by
    change decodeV W = _
    unfold decodeV; rw [h4]
    refine Eq.trans (b := zeroed (fld W 7 12 = 0) <| reading (TyI.ofCode? (fld W 4 3).toNat) fun ty => .ok (.vrnd (fld W 19 6) ty (fld W 0 4))) rfl ?_
    rw [ch1, h0, h2, h3]; rfl
  unfold decode; rw [hd]; exact if_pos hf

theorem vscale (d : BitVec 6) (a : BitVec 6) (b : BitVec 6) (ty : TyL) (m : BitVec 4) : Statement (.vscale d a b ty m) := by
  intro k hk hf; cases hk; refine ⟨_, rfl, ?_⟩
  generalize hW : (0x1d#7 ++ d ++ a ++ b ++ ofNat 3 ty.code ++ m : Word32) = W
  have h0 : fld W 4 3 = ofNat 3 ty.code := by subst hW; unfold fld; rw [field_high (k := 0) _ _ (by decide) rfl]; exact field_low _ _
  have h1 : fld W 19 6 = d := by subst hW; unfold fld; rw [field_high (k := 15) _ _ (by decide) rfl, field_high (k := 12) _ _ (by decide) rfl, field_high (k := 6) _ _ (by decide) rfl, field_high (k := 0) _ _ (by decide) rfl]; exact field_low _ _
  have h2 : fld W 13 6 = a := by subst hW; unfold fld; rw [field_high (k := 9) _ _ (by decide) rfl, field_high (k := 6) _ _ (by decide) rfl, field_high (k := 0) _ _ (by decide) rfl]; exact field_low _ _
  have h3 : fld W 7 6 = b := by subst hW; unfold fld; rw [field_high (k := 3) _ _ (by decide) rfl, field_high (k := 0) _ _ (by decide) rfl]; exact field_low _ _
  have h4 : fld W 0 4 = m := by subst hW; unfold fld; exact field_low _ _
  have h5 : fld W 25 7 = 0x1d#7 := by subst hW; unfold fld; rw [field_high (k := 21) _ _ (by decide) rfl, field_high (k := 18) _ _ (by decide) rfl, field_high (k := 12) _ _ (by decide) rfl, field_high (k := 6) _ _ (by decide) rfl, field_high (k := 0) _ _ (by decide) rfl]; exact BitVec.extractLsb'_eq_self
  have ch0 : TyL.ofCode? (fld W 4 3).toNat = some ty := by rw [h0]; cases ty <;> rfl
  have hd : decodeMap .V W = .ok (.vscale d a b ty m) := by
    change decodeV W = _
    unfold decodeV; rw [h5]
    refine Eq.trans (b := reading (TyL.ofCode? (fld W 4 3).toNat) fun ty => .ok (.vscale (fld W 19 6) (fld W 13 6) (fld W 7 6) ty (fld W 0 4))) rfl ?_
    rw [ch0, h1, h2, h3, h4]; rfl
  unfold decode; rw [hd]; exact if_pos hf

theorem vaddSat (d : BitVec 6) (a : BitVec 6) (b : BitVec 6) (ty : TyQ) (m : BitVec 4) : Statement (.vaddSat d a b ty m) := by
  intro k hk hf; cases hk; refine ⟨_, rfl, ?_⟩
  generalize hW : (0x1e#7 ++ d ++ a ++ b ++ ofNat 3 ty.code ++ m : Word32) = W
  have h0 : fld W 4 3 = ofNat 3 ty.code := by subst hW; unfold fld; rw [field_high (k := 0) _ _ (by decide) rfl]; exact field_low _ _
  have h1 : fld W 19 6 = d := by subst hW; unfold fld; rw [field_high (k := 15) _ _ (by decide) rfl, field_high (k := 12) _ _ (by decide) rfl, field_high (k := 6) _ _ (by decide) rfl, field_high (k := 0) _ _ (by decide) rfl]; exact field_low _ _
  have h2 : fld W 13 6 = a := by subst hW; unfold fld; rw [field_high (k := 9) _ _ (by decide) rfl, field_high (k := 6) _ _ (by decide) rfl, field_high (k := 0) _ _ (by decide) rfl]; exact field_low _ _
  have h3 : fld W 7 6 = b := by subst hW; unfold fld; rw [field_high (k := 3) _ _ (by decide) rfl, field_high (k := 0) _ _ (by decide) rfl]; exact field_low _ _
  have h4 : fld W 0 4 = m := by subst hW; unfold fld; exact field_low _ _
  have h5 : fld W 25 7 = 0x1e#7 := by subst hW; unfold fld; rw [field_high (k := 21) _ _ (by decide) rfl, field_high (k := 18) _ _ (by decide) rfl, field_high (k := 12) _ _ (by decide) rfl, field_high (k := 6) _ _ (by decide) rfl, field_high (k := 0) _ _ (by decide) rfl]; exact BitVec.extractLsb'_eq_self
  have ch0 : TyQ.ofCode? (fld W 4 3).toNat = some ty := by rw [h0]; cases ty <;> rfl
  have hd : decodeMap .V W = .ok (.vaddSat d a b ty m) := by
    change decodeV W = _
    unfold decodeV; rw [h5]
    refine Eq.trans (b := reading (TyQ.ofCode? (fld W 4 3).toNat) fun ty => .ok (.vaddSat (fld W 19 6) (fld W 13 6) (fld W 7 6) ty (fld W 0 4))) rfl ?_
    rw [ch0, h1, h2, h3, h4]; rfl
  unfold decode; rw [hd]; exact if_pos hf

theorem vsubSat (d : BitVec 6) (a : BitVec 6) (b : BitVec 6) (ty : TyQ) (m : BitVec 4) : Statement (.vsubSat d a b ty m) := by
  intro k hk hf; cases hk; refine ⟨_, rfl, ?_⟩
  generalize hW : (0x1f#7 ++ d ++ a ++ b ++ ofNat 3 ty.code ++ m : Word32) = W
  have h0 : fld W 4 3 = ofNat 3 ty.code := by subst hW; unfold fld; rw [field_high (k := 0) _ _ (by decide) rfl]; exact field_low _ _
  have h1 : fld W 19 6 = d := by subst hW; unfold fld; rw [field_high (k := 15) _ _ (by decide) rfl, field_high (k := 12) _ _ (by decide) rfl, field_high (k := 6) _ _ (by decide) rfl, field_high (k := 0) _ _ (by decide) rfl]; exact field_low _ _
  have h2 : fld W 13 6 = a := by subst hW; unfold fld; rw [field_high (k := 9) _ _ (by decide) rfl, field_high (k := 6) _ _ (by decide) rfl, field_high (k := 0) _ _ (by decide) rfl]; exact field_low _ _
  have h3 : fld W 7 6 = b := by subst hW; unfold fld; rw [field_high (k := 3) _ _ (by decide) rfl, field_high (k := 0) _ _ (by decide) rfl]; exact field_low _ _
  have h4 : fld W 0 4 = m := by subst hW; unfold fld; exact field_low _ _
  have h5 : fld W 25 7 = 0x1f#7 := by subst hW; unfold fld; rw [field_high (k := 21) _ _ (by decide) rfl, field_high (k := 18) _ _ (by decide) rfl, field_high (k := 12) _ _ (by decide) rfl, field_high (k := 6) _ _ (by decide) rfl, field_high (k := 0) _ _ (by decide) rfl]; exact BitVec.extractLsb'_eq_self
  have ch0 : TyQ.ofCode? (fld W 4 3).toNat = some ty := by rw [h0]; cases ty <;> rfl
  have hd : decodeMap .V W = .ok (.vsubSat d a b ty m) := by
    change decodeV W = _
    unfold decodeV; rw [h5]
    refine Eq.trans (b := reading (TyQ.ofCode? (fld W 4 3).toNat) fun ty => .ok (.vsubSat (fld W 19 6) (fld W 13 6) (fld W 7 6) ty (fld W 0 4))) rfl ?_
    rw [ch0, h1, h2, h3, h4]; rfl
  unfold decode; rw [hd]; exact if_pos hf

theorem vln (d : BitVec 6) (a : BitVec 6) (ty : TyT) (m : BitVec 4) : Statement (.vln d a ty m) := by
  intro k hk hf; cases hk; refine ⟨_, rfl, ?_⟩
  generalize hW : (0x20#7 ++ d ++ a ++ 0#6 ++ ofNat 3 ty.code ++ m : Word32) = W
  have h0 : fld W 7 6 = 0#6 := by subst hW; unfold fld; rw [field_high (k := 3) _ _ (by decide) rfl, field_high (k := 0) _ _ (by decide) rfl]; exact field_low _ _
  have h1 : fld W 4 3 = ofNat 3 ty.code := by subst hW; unfold fld; rw [field_high (k := 0) _ _ (by decide) rfl]; exact field_low _ _
  have h2 : fld W 19 6 = d := by subst hW; unfold fld; rw [field_high (k := 15) _ _ (by decide) rfl, field_high (k := 12) _ _ (by decide) rfl, field_high (k := 6) _ _ (by decide) rfl, field_high (k := 0) _ _ (by decide) rfl]; exact field_low _ _
  have h3 : fld W 13 6 = a := by subst hW; unfold fld; rw [field_high (k := 9) _ _ (by decide) rfl, field_high (k := 6) _ _ (by decide) rfl, field_high (k := 0) _ _ (by decide) rfl]; exact field_low _ _
  have h4 : fld W 0 4 = m := by subst hW; unfold fld; exact field_low _ _
  have h5 : fld W 25 7 = 0x20#7 := by subst hW; unfold fld; rw [field_high (k := 21) _ _ (by decide) rfl, field_high (k := 18) _ _ (by decide) rfl, field_high (k := 12) _ _ (by decide) rfl, field_high (k := 6) _ _ (by decide) rfl, field_high (k := 0) _ _ (by decide) rfl]; exact BitVec.extractLsb'_eq_self
  have ch1 : TyT.ofCode? (fld W 4 3).toNat = some ty := by rw [h1]; cases ty <;> rfl
  have hd : decodeMap .V W = .ok (.vln d a ty m) := by
    change decodeV W = _
    unfold decodeV; rw [h5]
    refine Eq.trans (b := zeroed (fld W 7 6 = 0) <| reading (TyT.ofCode? (fld W 4 3).toNat) fun ty => .ok (.vln (fld W 19 6) (fld W 13 6) ty (fld W 0 4))) rfl ?_
    rw [ch1, h0, h2, h3, h4]; rfl
  unfold decode; rw [hd]; exact if_pos hf

theorem vexp (d : BitVec 6) (a : BitVec 6) (ty : TyT) (m : BitVec 4) : Statement (.vexp d a ty m) := by
  intro k hk hf; cases hk; refine ⟨_, rfl, ?_⟩
  generalize hW : (0x21#7 ++ d ++ a ++ 0#6 ++ ofNat 3 ty.code ++ m : Word32) = W
  have h0 : fld W 7 6 = 0#6 := by subst hW; unfold fld; rw [field_high (k := 3) _ _ (by decide) rfl, field_high (k := 0) _ _ (by decide) rfl]; exact field_low _ _
  have h1 : fld W 4 3 = ofNat 3 ty.code := by subst hW; unfold fld; rw [field_high (k := 0) _ _ (by decide) rfl]; exact field_low _ _
  have h2 : fld W 19 6 = d := by subst hW; unfold fld; rw [field_high (k := 15) _ _ (by decide) rfl, field_high (k := 12) _ _ (by decide) rfl, field_high (k := 6) _ _ (by decide) rfl, field_high (k := 0) _ _ (by decide) rfl]; exact field_low _ _
  have h3 : fld W 13 6 = a := by subst hW; unfold fld; rw [field_high (k := 9) _ _ (by decide) rfl, field_high (k := 6) _ _ (by decide) rfl, field_high (k := 0) _ _ (by decide) rfl]; exact field_low _ _
  have h4 : fld W 0 4 = m := by subst hW; unfold fld; exact field_low _ _
  have h5 : fld W 25 7 = 0x21#7 := by subst hW; unfold fld; rw [field_high (k := 21) _ _ (by decide) rfl, field_high (k := 18) _ _ (by decide) rfl, field_high (k := 12) _ _ (by decide) rfl, field_high (k := 6) _ _ (by decide) rfl, field_high (k := 0) _ _ (by decide) rfl]; exact BitVec.extractLsb'_eq_self
  have ch1 : TyT.ofCode? (fld W 4 3).toNat = some ty := by rw [h1]; cases ty <;> rfl
  have hd : decodeMap .V W = .ok (.vexp d a ty m) := by
    change decodeV W = _
    unfold decodeV; rw [h5]
    refine Eq.trans (b := zeroed (fld W 7 6 = 0) <| reading (TyT.ofCode? (fld W 4 3).toNat) fun ty => .ok (.vexp (fld W 19 6) (fld W 13 6) ty (fld W 0 4))) rfl ?_
    rw [ch1, h0, h2, h3, h4]; rfl
  unfold decode; rw [hd]; exact if_pos hf

theorem vlog2 (d : BitVec 6) (a : BitVec 6) (ty : TyT) (m : BitVec 4) : Statement (.vlog2 d a ty m) := by
  intro k hk hf; cases hk; refine ⟨_, rfl, ?_⟩
  generalize hW : (0x22#7 ++ d ++ a ++ 0#6 ++ ofNat 3 ty.code ++ m : Word32) = W
  have h0 : fld W 7 6 = 0#6 := by subst hW; unfold fld; rw [field_high (k := 3) _ _ (by decide) rfl, field_high (k := 0) _ _ (by decide) rfl]; exact field_low _ _
  have h1 : fld W 4 3 = ofNat 3 ty.code := by subst hW; unfold fld; rw [field_high (k := 0) _ _ (by decide) rfl]; exact field_low _ _
  have h2 : fld W 19 6 = d := by subst hW; unfold fld; rw [field_high (k := 15) _ _ (by decide) rfl, field_high (k := 12) _ _ (by decide) rfl, field_high (k := 6) _ _ (by decide) rfl, field_high (k := 0) _ _ (by decide) rfl]; exact field_low _ _
  have h3 : fld W 13 6 = a := by subst hW; unfold fld; rw [field_high (k := 9) _ _ (by decide) rfl, field_high (k := 6) _ _ (by decide) rfl, field_high (k := 0) _ _ (by decide) rfl]; exact field_low _ _
  have h4 : fld W 0 4 = m := by subst hW; unfold fld; exact field_low _ _
  have h5 : fld W 25 7 = 0x22#7 := by subst hW; unfold fld; rw [field_high (k := 21) _ _ (by decide) rfl, field_high (k := 18) _ _ (by decide) rfl, field_high (k := 12) _ _ (by decide) rfl, field_high (k := 6) _ _ (by decide) rfl, field_high (k := 0) _ _ (by decide) rfl]; exact BitVec.extractLsb'_eq_self
  have ch1 : TyT.ofCode? (fld W 4 3).toNat = some ty := by rw [h1]; cases ty <;> rfl
  have hd : decodeMap .V W = .ok (.vlog2 d a ty m) := by
    change decodeV W = _
    unfold decodeV; rw [h5]
    refine Eq.trans (b := zeroed (fld W 7 6 = 0) <| reading (TyT.ofCode? (fld W 4 3).toNat) fun ty => .ok (.vlog2 (fld W 19 6) (fld W 13 6) ty (fld W 0 4))) rfl ?_
    rw [ch1, h0, h2, h3, h4]; rfl
  unfold decode; rw [hd]; exact if_pos hf

theorem vexp2 (d : BitVec 6) (a : BitVec 6) (ty : TyT) (m : BitVec 4) : Statement (.vexp2 d a ty m) := by
  intro k hk hf; cases hk; refine ⟨_, rfl, ?_⟩
  generalize hW : (0x23#7 ++ d ++ a ++ 0#6 ++ ofNat 3 ty.code ++ m : Word32) = W
  have h0 : fld W 7 6 = 0#6 := by subst hW; unfold fld; rw [field_high (k := 3) _ _ (by decide) rfl, field_high (k := 0) _ _ (by decide) rfl]; exact field_low _ _
  have h1 : fld W 4 3 = ofNat 3 ty.code := by subst hW; unfold fld; rw [field_high (k := 0) _ _ (by decide) rfl]; exact field_low _ _
  have h2 : fld W 19 6 = d := by subst hW; unfold fld; rw [field_high (k := 15) _ _ (by decide) rfl, field_high (k := 12) _ _ (by decide) rfl, field_high (k := 6) _ _ (by decide) rfl, field_high (k := 0) _ _ (by decide) rfl]; exact field_low _ _
  have h3 : fld W 13 6 = a := by subst hW; unfold fld; rw [field_high (k := 9) _ _ (by decide) rfl, field_high (k := 6) _ _ (by decide) rfl, field_high (k := 0) _ _ (by decide) rfl]; exact field_low _ _
  have h4 : fld W 0 4 = m := by subst hW; unfold fld; exact field_low _ _
  have h5 : fld W 25 7 = 0x23#7 := by subst hW; unfold fld; rw [field_high (k := 21) _ _ (by decide) rfl, field_high (k := 18) _ _ (by decide) rfl, field_high (k := 12) _ _ (by decide) rfl, field_high (k := 6) _ _ (by decide) rfl, field_high (k := 0) _ _ (by decide) rfl]; exact BitVec.extractLsb'_eq_self
  have ch1 : TyT.ofCode? (fld W 4 3).toNat = some ty := by rw [h1]; cases ty <;> rfl
  have hd : decodeMap .V W = .ok (.vexp2 d a ty m) := by
    change decodeV W = _
    unfold decodeV; rw [h5]
    refine Eq.trans (b := zeroed (fld W 7 6 = 0) <| reading (TyT.ofCode? (fld W 4 3).toNat) fun ty => .ok (.vexp2 (fld W 19 6) (fld W 13 6) ty (fld W 0 4))) rfl ?_
    rw [ch1, h0, h2, h3, h4]; rfl
  unfold decode; rw [hd]; exact if_pos hf

theorem vrcp (d : BitVec 6) (a : BitVec 6) (ty : TyT) (m : BitVec 4) : Statement (.vrcp d a ty m) := by
  intro k hk hf; cases hk; refine ⟨_, rfl, ?_⟩
  generalize hW : (0x24#7 ++ d ++ a ++ 0#6 ++ ofNat 3 ty.code ++ m : Word32) = W
  have h0 : fld W 7 6 = 0#6 := by subst hW; unfold fld; rw [field_high (k := 3) _ _ (by decide) rfl, field_high (k := 0) _ _ (by decide) rfl]; exact field_low _ _
  have h1 : fld W 4 3 = ofNat 3 ty.code := by subst hW; unfold fld; rw [field_high (k := 0) _ _ (by decide) rfl]; exact field_low _ _
  have h2 : fld W 19 6 = d := by subst hW; unfold fld; rw [field_high (k := 15) _ _ (by decide) rfl, field_high (k := 12) _ _ (by decide) rfl, field_high (k := 6) _ _ (by decide) rfl, field_high (k := 0) _ _ (by decide) rfl]; exact field_low _ _
  have h3 : fld W 13 6 = a := by subst hW; unfold fld; rw [field_high (k := 9) _ _ (by decide) rfl, field_high (k := 6) _ _ (by decide) rfl, field_high (k := 0) _ _ (by decide) rfl]; exact field_low _ _
  have h4 : fld W 0 4 = m := by subst hW; unfold fld; exact field_low _ _
  have h5 : fld W 25 7 = 0x24#7 := by subst hW; unfold fld; rw [field_high (k := 21) _ _ (by decide) rfl, field_high (k := 18) _ _ (by decide) rfl, field_high (k := 12) _ _ (by decide) rfl, field_high (k := 6) _ _ (by decide) rfl, field_high (k := 0) _ _ (by decide) rfl]; exact BitVec.extractLsb'_eq_self
  have ch1 : TyT.ofCode? (fld W 4 3).toNat = some ty := by rw [h1]; cases ty <;> rfl
  have hd : decodeMap .V W = .ok (.vrcp d a ty m) := by
    change decodeV W = _
    unfold decodeV; rw [h5]
    refine Eq.trans (b := zeroed (fld W 7 6 = 0) <| reading (TyT.ofCode? (fld W 4 3).toNat) fun ty => .ok (.vrcp (fld W 19 6) (fld W 13 6) ty (fld W 0 4))) rfl ?_
    rw [ch1, h0, h2, h3, h4]; rfl
  unfold decode; rw [hd]; exact if_pos hf

theorem vrsq (d : BitVec 6) (a : BitVec 6) (ty : TyT) (m : BitVec 4) : Statement (.vrsq d a ty m) := by
  intro k hk hf; cases hk; refine ⟨_, rfl, ?_⟩
  generalize hW : (0x25#7 ++ d ++ a ++ 0#6 ++ ofNat 3 ty.code ++ m : Word32) = W
  have h0 : fld W 7 6 = 0#6 := by subst hW; unfold fld; rw [field_high (k := 3) _ _ (by decide) rfl, field_high (k := 0) _ _ (by decide) rfl]; exact field_low _ _
  have h1 : fld W 4 3 = ofNat 3 ty.code := by subst hW; unfold fld; rw [field_high (k := 0) _ _ (by decide) rfl]; exact field_low _ _
  have h2 : fld W 19 6 = d := by subst hW; unfold fld; rw [field_high (k := 15) _ _ (by decide) rfl, field_high (k := 12) _ _ (by decide) rfl, field_high (k := 6) _ _ (by decide) rfl, field_high (k := 0) _ _ (by decide) rfl]; exact field_low _ _
  have h3 : fld W 13 6 = a := by subst hW; unfold fld; rw [field_high (k := 9) _ _ (by decide) rfl, field_high (k := 6) _ _ (by decide) rfl, field_high (k := 0) _ _ (by decide) rfl]; exact field_low _ _
  have h4 : fld W 0 4 = m := by subst hW; unfold fld; exact field_low _ _
  have h5 : fld W 25 7 = 0x25#7 := by subst hW; unfold fld; rw [field_high (k := 21) _ _ (by decide) rfl, field_high (k := 18) _ _ (by decide) rfl, field_high (k := 12) _ _ (by decide) rfl, field_high (k := 6) _ _ (by decide) rfl, field_high (k := 0) _ _ (by decide) rfl]; exact BitVec.extractLsb'_eq_self
  have ch1 : TyT.ofCode? (fld W 4 3).toNat = some ty := by rw [h1]; cases ty <;> rfl
  have hd : decodeMap .V W = .ok (.vrsq d a ty m) := by
    change decodeV W = _
    unfold decodeV; rw [h5]
    refine Eq.trans (b := zeroed (fld W 7 6 = 0) <| reading (TyT.ofCode? (fld W 4 3).toNat) fun ty => .ok (.vrsq (fld W 19 6) (fld W 13 6) ty (fld W 0 4))) rfl ?_
    rw [ch1, h0, h2, h3, h4]; rfl
  unfold decode; rw [hd]; exact if_pos hf

theorem vsqrt (d : BitVec 6) (a : BitVec 6) (ty : TyT) (m : BitVec 4) : Statement (.vsqrt d a ty m) := by
  intro k hk hf; cases hk; refine ⟨_, rfl, ?_⟩
  generalize hW : (0x26#7 ++ d ++ a ++ 0#6 ++ ofNat 3 ty.code ++ m : Word32) = W
  have h0 : fld W 7 6 = 0#6 := by subst hW; unfold fld; rw [field_high (k := 3) _ _ (by decide) rfl, field_high (k := 0) _ _ (by decide) rfl]; exact field_low _ _
  have h1 : fld W 4 3 = ofNat 3 ty.code := by subst hW; unfold fld; rw [field_high (k := 0) _ _ (by decide) rfl]; exact field_low _ _
  have h2 : fld W 19 6 = d := by subst hW; unfold fld; rw [field_high (k := 15) _ _ (by decide) rfl, field_high (k := 12) _ _ (by decide) rfl, field_high (k := 6) _ _ (by decide) rfl, field_high (k := 0) _ _ (by decide) rfl]; exact field_low _ _
  have h3 : fld W 13 6 = a := by subst hW; unfold fld; rw [field_high (k := 9) _ _ (by decide) rfl, field_high (k := 6) _ _ (by decide) rfl, field_high (k := 0) _ _ (by decide) rfl]; exact field_low _ _
  have h4 : fld W 0 4 = m := by subst hW; unfold fld; exact field_low _ _
  have h5 : fld W 25 7 = 0x26#7 := by subst hW; unfold fld; rw [field_high (k := 21) _ _ (by decide) rfl, field_high (k := 18) _ _ (by decide) rfl, field_high (k := 12) _ _ (by decide) rfl, field_high (k := 6) _ _ (by decide) rfl, field_high (k := 0) _ _ (by decide) rfl]; exact BitVec.extractLsb'_eq_self
  have ch1 : TyT.ofCode? (fld W 4 3).toNat = some ty := by rw [h1]; cases ty <;> rfl
  have hd : decodeMap .V W = .ok (.vsqrt d a ty m) := by
    change decodeV W = _
    unfold decodeV; rw [h5]
    refine Eq.trans (b := zeroed (fld W 7 6 = 0) <| reading (TyT.ofCode? (fld W 4 3).toNat) fun ty => .ok (.vsqrt (fld W 19 6) (fld W 13 6) ty (fld W 0 4))) rfl ?_
    rw [ch1, h0, h2, h3, h4]; rfl
  unfold decode; rw [hd]; exact if_pos hf

theorem vtanh (d : BitVec 6) (a : BitVec 6) (ty : TyT) (m : BitVec 4) : Statement (.vtanh d a ty m) := by
  intro k hk hf; cases hk; refine ⟨_, rfl, ?_⟩
  generalize hW : (0x27#7 ++ d ++ a ++ 0#6 ++ ofNat 3 ty.code ++ m : Word32) = W
  have h0 : fld W 7 6 = 0#6 := by subst hW; unfold fld; rw [field_high (k := 3) _ _ (by decide) rfl, field_high (k := 0) _ _ (by decide) rfl]; exact field_low _ _
  have h1 : fld W 4 3 = ofNat 3 ty.code := by subst hW; unfold fld; rw [field_high (k := 0) _ _ (by decide) rfl]; exact field_low _ _
  have h2 : fld W 19 6 = d := by subst hW; unfold fld; rw [field_high (k := 15) _ _ (by decide) rfl, field_high (k := 12) _ _ (by decide) rfl, field_high (k := 6) _ _ (by decide) rfl, field_high (k := 0) _ _ (by decide) rfl]; exact field_low _ _
  have h3 : fld W 13 6 = a := by subst hW; unfold fld; rw [field_high (k := 9) _ _ (by decide) rfl, field_high (k := 6) _ _ (by decide) rfl, field_high (k := 0) _ _ (by decide) rfl]; exact field_low _ _
  have h4 : fld W 0 4 = m := by subst hW; unfold fld; exact field_low _ _
  have h5 : fld W 25 7 = 0x27#7 := by subst hW; unfold fld; rw [field_high (k := 21) _ _ (by decide) rfl, field_high (k := 18) _ _ (by decide) rfl, field_high (k := 12) _ _ (by decide) rfl, field_high (k := 6) _ _ (by decide) rfl, field_high (k := 0) _ _ (by decide) rfl]; exact BitVec.extractLsb'_eq_self
  have ch1 : TyT.ofCode? (fld W 4 3).toNat = some ty := by rw [h1]; cases ty <;> rfl
  have hd : decodeMap .V W = .ok (.vtanh d a ty m) := by
    change decodeV W = _
    unfold decodeV; rw [h5]
    refine Eq.trans (b := zeroed (fld W 7 6 = 0) <| reading (TyT.ofCode? (fld W 4 3).toNat) fun ty => .ok (.vtanh (fld W 19 6) (fld W 13 6) ty (fld W 0 4))) rfl ?_
    rw [ch1, h0, h2, h3, h4]; rfl
  unfold decode; rw [hd]; exact if_pos hf

theorem vsigm (d : BitVec 6) (a : BitVec 6) (ty : TyT) (m : BitVec 4) : Statement (.vsigm d a ty m) := by
  intro k hk hf; cases hk; refine ⟨_, rfl, ?_⟩
  generalize hW : (0x28#7 ++ d ++ a ++ 0#6 ++ ofNat 3 ty.code ++ m : Word32) = W
  have h0 : fld W 7 6 = 0#6 := by subst hW; unfold fld; rw [field_high (k := 3) _ _ (by decide) rfl, field_high (k := 0) _ _ (by decide) rfl]; exact field_low _ _
  have h1 : fld W 4 3 = ofNat 3 ty.code := by subst hW; unfold fld; rw [field_high (k := 0) _ _ (by decide) rfl]; exact field_low _ _
  have h2 : fld W 19 6 = d := by subst hW; unfold fld; rw [field_high (k := 15) _ _ (by decide) rfl, field_high (k := 12) _ _ (by decide) rfl, field_high (k := 6) _ _ (by decide) rfl, field_high (k := 0) _ _ (by decide) rfl]; exact field_low _ _
  have h3 : fld W 13 6 = a := by subst hW; unfold fld; rw [field_high (k := 9) _ _ (by decide) rfl, field_high (k := 6) _ _ (by decide) rfl, field_high (k := 0) _ _ (by decide) rfl]; exact field_low _ _
  have h4 : fld W 0 4 = m := by subst hW; unfold fld; exact field_low _ _
  have h5 : fld W 25 7 = 0x28#7 := by subst hW; unfold fld; rw [field_high (k := 21) _ _ (by decide) rfl, field_high (k := 18) _ _ (by decide) rfl, field_high (k := 12) _ _ (by decide) rfl, field_high (k := 6) _ _ (by decide) rfl, field_high (k := 0) _ _ (by decide) rfl]; exact BitVec.extractLsb'_eq_self
  have ch1 : TyT.ofCode? (fld W 4 3).toNat = some ty := by rw [h1]; cases ty <;> rfl
  have hd : decodeMap .V W = .ok (.vsigm d a ty m) := by
    change decodeV W = _
    unfold decodeV; rw [h5]
    refine Eq.trans (b := zeroed (fld W 7 6 = 0) <| reading (TyT.ofCode? (fld W 4 3).toNat) fun ty => .ok (.vsigm (fld W 19 6) (fld W 13 6) ty (fld W 0 4))) rfl ?_
    rw [ch1, h0, h2, h3, h4]; rfl
  unfold decode; rw [hd]; exact if_pos hf

theorem vld (d : BitVec 6) (a : BitVec 5) (pm : Bool) (ac : BitVec 2) (off : BitVec 7) (m : BitVec 4) : Statement (.vld d a pm ac off m) := by
  intro k hk hf; cases hk; refine ⟨_, rfl, ?_⟩
  generalize hW : (0x30#7 ++ d ++ a ++ ofBool pm ++ ac ++ off ++ m : Word32) = W
  have h0 : fld W 19 6 = d := by subst hW; unfold fld; rw [field_high (k := 15) _ _ (by decide) rfl, field_high (k := 8) _ _ (by decide) rfl, field_high (k := 6) _ _ (by decide) rfl, field_high (k := 5) _ _ (by decide) rfl, field_high (k := 0) _ _ (by decide) rfl]; exact field_low _ _
  have h1 : fld W 14 5 = a := by subst hW; unfold fld; rw [field_high (k := 10) _ _ (by decide) rfl, field_high (k := 3) _ _ (by decide) rfl, field_high (k := 1) _ _ (by decide) rfl, field_high (k := 0) _ _ (by decide) rfl]; exact field_low _ _
  have h2 : flag W 13 = pm := by subst hW; unfold flag; rw [bit_high (k := 9) _ _ (by decide) rfl, bit_high (k := 2) _ _ (by decide) rfl, bit_high (k := 0) _ _ (by decide) rfl]; exact bit_low _ _
  have h3 : fld W 11 2 = ac := by subst hW; unfold fld; rw [field_high (k := 7) _ _ (by decide) rfl, field_high (k := 0) _ _ (by decide) rfl]; exact field_low _ _
  have h4 : fld W 4 7 = off := by subst hW; unfold fld; rw [field_high (k := 0) _ _ (by decide) rfl]; exact field_low _ _
  have h5 : fld W 0 4 = m := by subst hW; unfold fld; exact field_low _ _
  have h6 : fld W 25 7 = 0x30#7 := by subst hW; unfold fld; rw [field_high (k := 21) _ _ (by decide) rfl, field_high (k := 14) _ _ (by decide) rfl, field_high (k := 12) _ _ (by decide) rfl, field_high (k := 11) _ _ (by decide) rfl, field_high (k := 6) _ _ (by decide) rfl, field_high (k := 0) _ _ (by decide) rfl]; exact BitVec.extractLsb'_eq_self
  have hd : decodeMap .V W = .ok (.vld d a pm ac off m) := by
    change decodeV W = _
    unfold decodeV; rw [h6]
    refine Eq.trans (b := Except.ok (.vld (fld W 19 6) (fld W 14 5) (flag W 13) (fld W 11 2) (fld W 4 7) (fld W 0 4))) rfl ?_
    rw [h0, h1, h2, h3, h4, h5]
  unfold decode; rw [hd]; exact if_pos hf

theorem vst (d : BitVec 6) (a : BitVec 5) (pm : Bool) (ac : BitVec 2) (off : BitVec 7) (m : BitVec 4) : Statement (.vst d a pm ac off m) := by
  intro k hk hf; cases hk; refine ⟨_, rfl, ?_⟩
  generalize hW : (0x31#7 ++ d ++ a ++ ofBool pm ++ ac ++ off ++ m : Word32) = W
  have h0 : fld W 19 6 = d := by subst hW; unfold fld; rw [field_high (k := 15) _ _ (by decide) rfl, field_high (k := 8) _ _ (by decide) rfl, field_high (k := 6) _ _ (by decide) rfl, field_high (k := 5) _ _ (by decide) rfl, field_high (k := 0) _ _ (by decide) rfl]; exact field_low _ _
  have h1 : fld W 14 5 = a := by subst hW; unfold fld; rw [field_high (k := 10) _ _ (by decide) rfl, field_high (k := 3) _ _ (by decide) rfl, field_high (k := 1) _ _ (by decide) rfl, field_high (k := 0) _ _ (by decide) rfl]; exact field_low _ _
  have h2 : flag W 13 = pm := by subst hW; unfold flag; rw [bit_high (k := 9) _ _ (by decide) rfl, bit_high (k := 2) _ _ (by decide) rfl, bit_high (k := 0) _ _ (by decide) rfl]; exact bit_low _ _
  have h3 : fld W 11 2 = ac := by subst hW; unfold fld; rw [field_high (k := 7) _ _ (by decide) rfl, field_high (k := 0) _ _ (by decide) rfl]; exact field_low _ _
  have h4 : fld W 4 7 = off := by subst hW; unfold fld; rw [field_high (k := 0) _ _ (by decide) rfl]; exact field_low _ _
  have h5 : fld W 0 4 = m := by subst hW; unfold fld; exact field_low _ _
  have h6 : fld W 25 7 = 0x31#7 := by subst hW; unfold fld; rw [field_high (k := 21) _ _ (by decide) rfl, field_high (k := 14) _ _ (by decide) rfl, field_high (k := 12) _ _ (by decide) rfl, field_high (k := 11) _ _ (by decide) rfl, field_high (k := 6) _ _ (by decide) rfl, field_high (k := 0) _ _ (by decide) rfl]; exact BitVec.extractLsb'_eq_self
  have hd : decodeMap .V W = .ok (.vst d a pm ac off m) := by
    change decodeV W = _
    unfold decodeV; rw [h6]
    refine Eq.trans (b := Except.ok (.vst (fld W 19 6) (fld W 14 5) (flag W 13) (fld W 11 2) (fld W 4 7) (fld W 0 4))) rfl ?_
    rw [h0, h1, h2, h3, h4, h5]
  unfold decode; rw [hd]; exact if_pos hf

theorem vldrb (d : BitVec 6) (e : BitVec 4) (m : BitVec 4) : Statement (.vldrb d e m) := by
  intro k hk hf; cases hk; refine ⟨_, rfl, ?_⟩
  generalize hW : (0x32#7 ++ d ++ 0#2 ++ e ++ 0#9 ++ m : Word32) = W
  have h0 : fld W 17 2 = 0#2 := by subst hW; unfold fld; rw [field_high (k := 13) _ _ (by decide) rfl, field_high (k := 4) _ _ (by decide) rfl, field_high (k := 0) _ _ (by decide) rfl]; exact field_low _ _
  have h1 : fld W 4 9 = 0#9 := by subst hW; unfold fld; rw [field_high (k := 0) _ _ (by decide) rfl]; exact field_low _ _
  have h2 : fld W 19 6 = d := by subst hW; unfold fld; rw [field_high (k := 15) _ _ (by decide) rfl, field_high (k := 6) _ _ (by decide) rfl, field_high (k := 2) _ _ (by decide) rfl, field_high (k := 0) _ _ (by decide) rfl]; exact field_low _ _
  have h3 : fld W 13 4 = e := by subst hW; unfold fld; rw [field_high (k := 9) _ _ (by decide) rfl, field_high (k := 0) _ _ (by decide) rfl]; exact field_low _ _
  have h4 : fld W 0 4 = m := by subst hW; unfold fld; exact field_low _ _
  have h5 : fld W 25 7 = 0x32#7 := by subst hW; unfold fld; rw [field_high (k := 21) _ _ (by decide) rfl, field_high (k := 12) _ _ (by decide) rfl, field_high (k := 8) _ _ (by decide) rfl, field_high (k := 6) _ _ (by decide) rfl, field_high (k := 0) _ _ (by decide) rfl]; exact BitVec.extractLsb'_eq_self
  have hd : decodeMap .V W = .ok (.vldrb d e m) := by
    change decodeV W = _
    unfold decodeV; rw [h5]
    refine Eq.trans (b := zeroed (fld W 17 2 = 0 ∧ fld W 4 9 = 0) <| .ok (.vldrb (fld W 19 6) (fld W 13 4) (fld W 0 4))) rfl ?_
    rw [h0, h1, h2, h3, h4]; rfl
  unfold decode; rw [hd]; exact if_pos hf

theorem vget (s : BitVec 5) (a : BitVec 6) (t : Bool) (i : BitVec 5) (ty : TyI) : Statement (.vget s a t i ty) := by
  intro k hk hf; cases hk; refine ⟨_, rfl, ?_⟩
  generalize hW : (0x33#7 ++ 0#1 ++ s ++ a ++ ofBool t ++ i ++ ofNat 3 ty.code ++ 0#4 : Word32) = W
  have h0 : fld W 24 1 = 0#1 := by subst hW; unfold fld; rw [field_high (k := 20) _ _ (by decide) rfl, field_high (k := 17) _ _ (by decide) rfl, field_high (k := 12) _ _ (by decide) rfl, field_high (k := 11) _ _ (by decide) rfl, field_high (k := 5) _ _ (by decide) rfl, field_high (k := 0) _ _ (by decide) rfl]; exact field_low _ _
  have h1 : fld W 0 4 = 0#4 := by subst hW; unfold fld; exact field_low _ _
  have h2 : fld W 4 3 = ofNat 3 ty.code := by subst hW; unfold fld; rw [field_high (k := 0) _ _ (by decide) rfl]; exact field_low _ _
  have h3 : fld W 19 5 = s := by subst hW; unfold fld; rw [field_high (k := 15) _ _ (by decide) rfl, field_high (k := 12) _ _ (by decide) rfl, field_high (k := 7) _ _ (by decide) rfl, field_high (k := 6) _ _ (by decide) rfl, field_high (k := 0) _ _ (by decide) rfl]; exact field_low _ _
  have h4 : fld W 13 6 = a := by subst hW; unfold fld; rw [field_high (k := 9) _ _ (by decide) rfl, field_high (k := 6) _ _ (by decide) rfl, field_high (k := 1) _ _ (by decide) rfl, field_high (k := 0) _ _ (by decide) rfl]; exact field_low _ _
  have h5 : flag W 12 = t := by subst hW; unfold flag; rw [bit_high (k := 8) _ _ (by decide) rfl, bit_high (k := 5) _ _ (by decide) rfl, bit_high (k := 0) _ _ (by decide) rfl]; exact bit_low _ _
  have h6 : fld W 7 5 = i := by subst hW; unfold fld; rw [field_high (k := 3) _ _ (by decide) rfl, field_high (k := 0) _ _ (by decide) rfl]; exact field_low _ _
  have h7 : fld W 25 7 = 0x33#7 := by subst hW; unfold fld; rw [field_high (k := 21) _ _ (by decide) rfl, field_high (k := 18) _ _ (by decide) rfl, field_high (k := 13) _ _ (by decide) rfl, field_high (k := 12) _ _ (by decide) rfl, field_high (k := 6) _ _ (by decide) rfl, field_high (k := 1) _ _ (by decide) rfl, field_high (k := 0) _ _ (by decide) rfl]; exact BitVec.extractLsb'_eq_self
  have ch2 : TyI.ofCode? (fld W 4 3).toNat = some ty := by rw [h2]; cases ty <;> rfl
  have hd : decodeMap .V W = .ok (.vget s a t i ty) := by
    change decodeV W = _
    unfold decodeV; rw [h7]
    refine Eq.trans (b := zeroed (fld W 24 1 = 0 ∧ fld W 0 4 = 0) <| reading (TyI.ofCode? (fld W 4 3).toNat) fun ty => .ok (.vget (fld W 19 5) (fld W 13 6) (flag W 12) (fld W 7 5) ty)) rfl ?_
    rw [ch2, h0, h1, h3, h4, h5, h6]; rfl
  unfold decode; rw [hd]; exact if_pos hf

theorem mldw (cid : BitVec 6) (pa : BitVec 6) (pb : BitVec 6) (y : BitVec 4) (ret : RetAct) : Statement (.mldw cid pa pb y ret) := by
  intro k hk hf; cases hk; refine ⟨_, rfl, ?_⟩
  generalize hW : (1#7 ++ cid ++ pa ++ pb ++ y ++ ofNat 3 ret.code : Word32) = W
  have h0 : fld W 0 3 = ofNat 3 ret.code := by subst hW; unfold fld; exact field_low _ _
  have h1 : fld W 19 6 = cid := by subst hW; unfold fld; rw [field_high (k := 16) _ _ (by decide) rfl, field_high (k := 12) _ _ (by decide) rfl, field_high (k := 6) _ _ (by decide) rfl, field_high (k := 0) _ _ (by decide) rfl]; exact field_low _ _
  have h2 : fld W 13 6 = pa := by subst hW; unfold fld; rw [field_high (k := 10) _ _ (by decide) rfl, field_high (k := 6) _ _ (by decide) rfl, field_high (k := 0) _ _ (by decide) rfl]; exact field_low _ _
  have h3 : fld W 7 6 = pb := by subst hW; unfold fld; rw [field_high (k := 4) _ _ (by decide) rfl, field_high (k := 0) _ _ (by decide) rfl]; exact field_low _ _
  have h4 : fld W 3 4 = y := by subst hW; unfold fld; rw [field_high (k := 0) _ _ (by decide) rfl]; exact field_low _ _
  have h5 : fld W 25 7 = 1#7 := by subst hW; unfold fld; rw [field_high (k := 22) _ _ (by decide) rfl, field_high (k := 18) _ _ (by decide) rfl, field_high (k := 12) _ _ (by decide) rfl, field_high (k := 6) _ _ (by decide) rfl, field_high (k := 0) _ _ (by decide) rfl]; exact BitVec.extractLsb'_eq_self
  have ch0 : RetAct.ofCode? (fld W 0 3).toNat = some ret := by rw [h0]; cases ret <;> rfl
  have hd : decodeMap .M W = .ok (.mldw cid pa pb y ret) := by
    change decodeM W = _
    unfold decodeM; rw [h5]
    refine Eq.trans (b := reading (RetAct.ofCode? (fld W 0 3).toNat) fun ret => .ok (.mldw (fld W 19 6) (fld W 13 6) (fld W 7 6) (fld W 3 4) ret)) rfl ?_
    rw [ch0, h1, h2, h3, h4]; rfl
  unfold decode; rw [hd]; exact if_pos hf

theorem mma (cid : BitVec 6) (pa : BitVec 6) (pb : BitVec 6) (y : BitVec 4) (ret : RetAct) : Statement (.mma cid pa pb y ret) := by
  intro k hk hf; cases hk; refine ⟨_, rfl, ?_⟩
  generalize hW : (2#7 ++ cid ++ pa ++ pb ++ y ++ ofNat 3 ret.code : Word32) = W
  have h0 : fld W 0 3 = ofNat 3 ret.code := by subst hW; unfold fld; exact field_low _ _
  have h1 : fld W 19 6 = cid := by subst hW; unfold fld; rw [field_high (k := 16) _ _ (by decide) rfl, field_high (k := 12) _ _ (by decide) rfl, field_high (k := 6) _ _ (by decide) rfl, field_high (k := 0) _ _ (by decide) rfl]; exact field_low _ _
  have h2 : fld W 13 6 = pa := by subst hW; unfold fld; rw [field_high (k := 10) _ _ (by decide) rfl, field_high (k := 6) _ _ (by decide) rfl, field_high (k := 0) _ _ (by decide) rfl]; exact field_low _ _
  have h3 : fld W 7 6 = pb := by subst hW; unfold fld; rw [field_high (k := 4) _ _ (by decide) rfl, field_high (k := 0) _ _ (by decide) rfl]; exact field_low _ _
  have h4 : fld W 3 4 = y := by subst hW; unfold fld; rw [field_high (k := 0) _ _ (by decide) rfl]; exact field_low _ _
  have h5 : fld W 25 7 = 2#7 := by subst hW; unfold fld; rw [field_high (k := 22) _ _ (by decide) rfl, field_high (k := 18) _ _ (by decide) rfl, field_high (k := 12) _ _ (by decide) rfl, field_high (k := 6) _ _ (by decide) rfl, field_high (k := 0) _ _ (by decide) rfl]; exact BitVec.extractLsb'_eq_self
  have ch0 : RetAct.ofCode? (fld W 0 3).toNat = some ret := by rw [h0]; cases ret <;> rfl
  have hd : decodeMap .M W = .ok (.mma cid pa pb y ret) := by
    change decodeM W = _
    unfold decodeM; rw [h5]
    refine Eq.trans (b := reading (RetAct.ofCode? (fld W 0 3).toNat) fun ret => .ok (.mma (fld W 19 6) (fld W 13 6) (fld W 7 6) (fld W 3 4) ret)) rfl ?_
    rw [ch0, h1, h2, h3, h4]; rfl
  unfold decode; rw [hd]; exact if_pos hf

theorem mmag (cid : BitVec 6) (pa : BitVec 6) (pb : BitVec 6) (y : BitVec 4) (ret : RetAct) : Statement (.mmag cid pa pb y ret) := by
  intro k hk hf; cases hk; refine ⟨_, rfl, ?_⟩
  generalize hW : (3#7 ++ cid ++ pa ++ pb ++ y ++ ofNat 3 ret.code : Word32) = W
  have h0 : fld W 0 3 = ofNat 3 ret.code := by subst hW; unfold fld; exact field_low _ _
  have h1 : fld W 19 6 = cid := by subst hW; unfold fld; rw [field_high (k := 16) _ _ (by decide) rfl, field_high (k := 12) _ _ (by decide) rfl, field_high (k := 6) _ _ (by decide) rfl, field_high (k := 0) _ _ (by decide) rfl]; exact field_low _ _
  have h2 : fld W 13 6 = pa := by subst hW; unfold fld; rw [field_high (k := 10) _ _ (by decide) rfl, field_high (k := 6) _ _ (by decide) rfl, field_high (k := 0) _ _ (by decide) rfl]; exact field_low _ _
  have h3 : fld W 7 6 = pb := by subst hW; unfold fld; rw [field_high (k := 4) _ _ (by decide) rfl, field_high (k := 0) _ _ (by decide) rfl]; exact field_low _ _
  have h4 : fld W 3 4 = y := by subst hW; unfold fld; rw [field_high (k := 0) _ _ (by decide) rfl]; exact field_low _ _
  have h5 : fld W 25 7 = 3#7 := by subst hW; unfold fld; rw [field_high (k := 22) _ _ (by decide) rfl, field_high (k := 18) _ _ (by decide) rfl, field_high (k := 12) _ _ (by decide) rfl, field_high (k := 6) _ _ (by decide) rfl, field_high (k := 0) _ _ (by decide) rfl]; exact BitVec.extractLsb'_eq_self
  have ch0 : RetAct.ofCode? (fld W 0 3).toNat = some ret := by rw [h0]; cases ret <;> rfl
  have hd : decodeMap .M W = .ok (.mmag cid pa pb y ret) := by
    change decodeM W = _
    unfold decodeM; rw [h5]
    refine Eq.trans (b := reading (RetAct.ofCode? (fld W 0 3).toNat) fun ret => .ok (.mmag (fld W 19 6) (fld W 13 6) (fld W 7 6) (fld W 3 4) ret)) rfl ?_
    rw [ch0, h1, h2, h3, h4]; rfl
  unfold decode; rw [hd]; exact if_pos hf

theorem mmah (cid : BitVec 6) (pa : BitVec 6) (pb : BitVec 6) (y : BitVec 4) (ret : RetAct) : Statement (.mmah cid pa pb y ret) := by
  intro k hk hf; cases hk; refine ⟨_, rfl, ?_⟩
  generalize hW : (4#7 ++ cid ++ pa ++ pb ++ y ++ ofNat 3 ret.code : Word32) = W
  have h0 : fld W 0 3 = ofNat 3 ret.code := by subst hW; unfold fld; exact field_low _ _
  have h1 : fld W 19 6 = cid := by subst hW; unfold fld; rw [field_high (k := 16) _ _ (by decide) rfl, field_high (k := 12) _ _ (by decide) rfl, field_high (k := 6) _ _ (by decide) rfl, field_high (k := 0) _ _ (by decide) rfl]; exact field_low _ _
  have h2 : fld W 13 6 = pa := by subst hW; unfold fld; rw [field_high (k := 10) _ _ (by decide) rfl, field_high (k := 6) _ _ (by decide) rfl, field_high (k := 0) _ _ (by decide) rfl]; exact field_low _ _
  have h3 : fld W 7 6 = pb := by subst hW; unfold fld; rw [field_high (k := 4) _ _ (by decide) rfl, field_high (k := 0) _ _ (by decide) rfl]; exact field_low _ _
  have h4 : fld W 3 4 = y := by subst hW; unfold fld; rw [field_high (k := 0) _ _ (by decide) rfl]; exact field_low _ _
  have h5 : fld W 25 7 = 4#7 := by subst hW; unfold fld; rw [field_high (k := 22) _ _ (by decide) rfl, field_high (k := 18) _ _ (by decide) rfl, field_high (k := 12) _ _ (by decide) rfl, field_high (k := 6) _ _ (by decide) rfl, field_high (k := 0) _ _ (by decide) rfl]; exact BitVec.extractLsb'_eq_self
  have ch0 : RetAct.ofCode? (fld W 0 3).toNat = some ret := by rw [h0]; cases ret <;> rfl
  have hd : decodeMap .M W = .ok (.mmah cid pa pb y ret) := by
    change decodeM W = _
    unfold decodeM; rw [h5]
    refine Eq.trans (b := reading (RetAct.ofCode? (fld W 0 3).toNat) fun ret => .ok (.mmah (fld W 19 6) (fld W 13 6) (fld W 7 6) (fld W 3 4) ret)) rfl ?_
    rw [ch0, h1, h2, h3, h4]; rfl
  unfold decode; rw [hd]; exact if_pos hf

theorem mzero (cid : BitVec 6) (pa : BitVec 6) (pb : BitVec 6) (y : BitVec 4) (ret : RetAct) : Statement (.mzero cid pa pb y ret) := by
  intro k hk hf; cases hk; refine ⟨_, rfl, ?_⟩
  generalize hW : (5#7 ++ cid ++ pa ++ pb ++ y ++ ofNat 3 ret.code : Word32) = W
  have h0 : fld W 0 3 = ofNat 3 ret.code := by subst hW; unfold fld; exact field_low _ _
  have h1 : fld W 19 6 = cid := by subst hW; unfold fld; rw [field_high (k := 16) _ _ (by decide) rfl, field_high (k := 12) _ _ (by decide) rfl, field_high (k := 6) _ _ (by decide) rfl, field_high (k := 0) _ _ (by decide) rfl]; exact field_low _ _
  have h2 : fld W 13 6 = pa := by subst hW; unfold fld; rw [field_high (k := 10) _ _ (by decide) rfl, field_high (k := 6) _ _ (by decide) rfl, field_high (k := 0) _ _ (by decide) rfl]; exact field_low _ _
  have h3 : fld W 7 6 = pb := by subst hW; unfold fld; rw [field_high (k := 4) _ _ (by decide) rfl, field_high (k := 0) _ _ (by decide) rfl]; exact field_low _ _
  have h4 : fld W 3 4 = y := by subst hW; unfold fld; rw [field_high (k := 0) _ _ (by decide) rfl]; exact field_low _ _
  have h5 : fld W 25 7 = 5#7 := by subst hW; unfold fld; rw [field_high (k := 22) _ _ (by decide) rfl, field_high (k := 18) _ _ (by decide) rfl, field_high (k := 12) _ _ (by decide) rfl, field_high (k := 6) _ _ (by decide) rfl, field_high (k := 0) _ _ (by decide) rfl]; exact BitVec.extractLsb'_eq_self
  have ch0 : RetAct.ofCode? (fld W 0 3).toNat = some ret := by rw [h0]; cases ret <;> rfl
  have hd : decodeMap .M W = .ok (.mzero cid pa pb y ret) := by
    change decodeM W = _
    unfold decodeM; rw [h5]
    refine Eq.trans (b := reading (RetAct.ofCode? (fld W 0 3).toNat) fun ret => .ok (.mzero (fld W 19 6) (fld W 13 6) (fld W 7 6) (fld W 3 4) ret)) rfl ?_
    rw [ch0, h1, h2, h3, h4]; rfl
  unfold decode; rw [hd]; exact if_pos hf

theorem mhand (e : BitVec 4) (tile : BitVec 3) (row0 : BitVec 7) (conv : HConv) : Statement (.mhand e tile row0 conv) := by
  intro k hk hf; cases hk; refine ⟨_, rfl, ?_⟩
  generalize hW : (6#7 ++ e ++ tile ++ row0 ++ ofNat 3 conv.code ++ 0#8 : Word32) = W
  have h0 : fld W 0 8 = 0#8 := by subst hW; unfold fld; exact field_low _ _
  have h1 : fld W 8 3 = ofNat 3 conv.code := by subst hW; unfold fld; rw [field_high (k := 0) _ _ (by decide) rfl]; exact field_low _ _
  have h2 : fld W 21 4 = e := by subst hW; unfold fld; rw [field_high (k := 13) _ _ (by decide) rfl, field_high (k := 10) _ _ (by decide) rfl, field_high (k := 3) _ _ (by decide) rfl, field_high (k := 0) _ _ (by decide) rfl]; exact field_low _ _
  have h3 : fld W 18 3 = tile := by subst hW; unfold fld; rw [field_high (k := 10) _ _ (by decide) rfl, field_high (k := 7) _ _ (by decide) rfl, field_high (k := 0) _ _ (by decide) rfl]; exact field_low _ _
  have h4 : fld W 11 7 = row0 := by subst hW; unfold fld; rw [field_high (k := 3) _ _ (by decide) rfl, field_high (k := 0) _ _ (by decide) rfl]; exact field_low _ _
  have h5 : fld W 25 7 = 6#7 := by subst hW; unfold fld; rw [field_high (k := 17) _ _ (by decide) rfl, field_high (k := 14) _ _ (by decide) rfl, field_high (k := 7) _ _ (by decide) rfl, field_high (k := 4) _ _ (by decide) rfl, field_high (k := 0) _ _ (by decide) rfl]; exact BitVec.extractLsb'_eq_self
  have ch1 : HConv.ofCode? (fld W 8 3).toNat = some conv := by rw [h1]; cases conv <;> rfl
  have hd : decodeMap .M W = .ok (.mhand e tile row0 conv) := by
    change decodeM W = _
    unfold decodeM; rw [h5]
    refine Eq.trans (b := zeroed (fld W 0 8 = 0) <| reading (HConv.ofCode? (fld W 8 3).toNat) fun conv => .ok (.mhand (fld W 21 4) (fld W 18 3) (fld W 11 7) conv)) rfl ?_
    rw [ch1, h0, h2, h3, h4]; rfl
  unfold decode; rw [hd]; exact if_pos hf

theorem cpy (cid : BitVec 6) (pa : BitVec 6) (pb : BitVec 6) (y : BitVec 4) (ret : RetAct) : Statement (.cpy cid pa pb y ret) := by
  intro k hk hf; cases hk; refine ⟨_, rfl, ?_⟩
  generalize hW : (1#7 ++ cid ++ pa ++ pb ++ y ++ ofNat 3 ret.code : Word32) = W
  have h0 : fld W 0 3 = ofNat 3 ret.code := by subst hW; unfold fld; exact field_low _ _
  have h1 : fld W 19 6 = cid := by subst hW; unfold fld; rw [field_high (k := 16) _ _ (by decide) rfl, field_high (k := 12) _ _ (by decide) rfl, field_high (k := 6) _ _ (by decide) rfl, field_high (k := 0) _ _ (by decide) rfl]; exact field_low _ _
  have h2 : fld W 13 6 = pa := by subst hW; unfold fld; rw [field_high (k := 10) _ _ (by decide) rfl, field_high (k := 6) _ _ (by decide) rfl, field_high (k := 0) _ _ (by decide) rfl]; exact field_low _ _
  have h3 : fld W 7 6 = pb := by subst hW; unfold fld; rw [field_high (k := 4) _ _ (by decide) rfl, field_high (k := 0) _ _ (by decide) rfl]; exact field_low _ _
  have h4 : fld W 3 4 = y := by subst hW; unfold fld; rw [field_high (k := 0) _ _ (by decide) rfl]; exact field_low _ _
  have h5 : fld W 25 7 = 1#7 := by subst hW; unfold fld; rw [field_high (k := 22) _ _ (by decide) rfl, field_high (k := 18) _ _ (by decide) rfl, field_high (k := 12) _ _ (by decide) rfl, field_high (k := 6) _ _ (by decide) rfl, field_high (k := 0) _ _ (by decide) rfl]; exact BitVec.extractLsb'_eq_self
  have ch0 : RetAct.ofCode? (fld W 0 3).toNat = some ret := by rw [h0]; cases ret <;> rfl
  have hd : decodeMap .C W = .ok (.cpy cid pa pb y ret) := by
    change decodeC W = _
    unfold decodeC; rw [h5]
    refine Eq.trans (b := reading (RetAct.ofCode? (fld W 0 3).toNat) fun ret => .ok (.cpy (fld W 19 6) (fld W 13 6) (fld W 7 6) (fld W 3 4) ret)) rfl ?_
    rw [ch0, h1, h2, h3, h4]; rfl
  unfold decode; rw [hd]; exact if_pos hf

theorem csel (cid : BitVec 6) (pa : BitVec 6) (pb : BitVec 6) (y : BitVec 4) (ret : RetAct) : Statement (.csel cid pa pb y ret) := by
  intro k hk hf; cases hk; refine ⟨_, rfl, ?_⟩
  generalize hW : (2#7 ++ cid ++ pa ++ pb ++ y ++ ofNat 3 ret.code : Word32) = W
  have h0 : fld W 0 3 = ofNat 3 ret.code := by subst hW; unfold fld; exact field_low _ _
  have h1 : fld W 19 6 = cid := by subst hW; unfold fld; rw [field_high (k := 16) _ _ (by decide) rfl, field_high (k := 12) _ _ (by decide) rfl, field_high (k := 6) _ _ (by decide) rfl, field_high (k := 0) _ _ (by decide) rfl]; exact field_low _ _
  have h2 : fld W 13 6 = pa := by subst hW; unfold fld; rw [field_high (k := 10) _ _ (by decide) rfl, field_high (k := 6) _ _ (by decide) rfl, field_high (k := 0) _ _ (by decide) rfl]; exact field_low _ _
  have h3 : fld W 7 6 = pb := by subst hW; unfold fld; rw [field_high (k := 4) _ _ (by decide) rfl, field_high (k := 0) _ _ (by decide) rfl]; exact field_low _ _
  have h4 : fld W 3 4 = y := by subst hW; unfold fld; rw [field_high (k := 0) _ _ (by decide) rfl]; exact field_low _ _
  have h5 : fld W 25 7 = 2#7 := by subst hW; unfold fld; rw [field_high (k := 22) _ _ (by decide) rfl, field_high (k := 18) _ _ (by decide) rfl, field_high (k := 12) _ _ (by decide) rfl, field_high (k := 6) _ _ (by decide) rfl, field_high (k := 0) _ _ (by decide) rfl]; exact BitVec.extractLsb'_eq_self
  have ch0 : RetAct.ofCode? (fld W 0 3).toNat = some ret := by rw [h0]; cases ret <;> rfl
  have hd : decodeMap .C W = .ok (.csel cid pa pb y ret) := by
    change decodeC W = _
    unfold decodeC; rw [h5]
    refine Eq.trans (b := reading (RetAct.ofCode? (fld W 0 3).toNat) fun ret => .ok (.csel (fld W 19 6) (fld W 13 6) (fld W 7 6) (fld W 3 4) ret)) rfl ?_
    rw [ch0, h1, h2, h3, h4]; rfl
  unfold decode; rw [hd]; exact if_pos hf

theorem cgth (cid : BitVec 6) (pa : BitVec 6) (pb : BitVec 6) (y : BitVec 4) (ret : RetAct) : Statement (.cgth cid pa pb y ret) := by
  intro k hk hf; cases hk; refine ⟨_, rfl, ?_⟩
  generalize hW : (3#7 ++ cid ++ pa ++ pb ++ y ++ ofNat 3 ret.code : Word32) = W
  have h0 : fld W 0 3 = ofNat 3 ret.code := by subst hW; unfold fld; exact field_low _ _
  have h1 : fld W 19 6 = cid := by subst hW; unfold fld; rw [field_high (k := 16) _ _ (by decide) rfl, field_high (k := 12) _ _ (by decide) rfl, field_high (k := 6) _ _ (by decide) rfl, field_high (k := 0) _ _ (by decide) rfl]; exact field_low _ _
  have h2 : fld W 13 6 = pa := by subst hW; unfold fld; rw [field_high (k := 10) _ _ (by decide) rfl, field_high (k := 6) _ _ (by decide) rfl, field_high (k := 0) _ _ (by decide) rfl]; exact field_low _ _
  have h3 : fld W 7 6 = pb := by subst hW; unfold fld; rw [field_high (k := 4) _ _ (by decide) rfl, field_high (k := 0) _ _ (by decide) rfl]; exact field_low _ _
  have h4 : fld W 3 4 = y := by subst hW; unfold fld; rw [field_high (k := 0) _ _ (by decide) rfl]; exact field_low _ _
  have h5 : fld W 25 7 = 3#7 := by subst hW; unfold fld; rw [field_high (k := 22) _ _ (by decide) rfl, field_high (k := 18) _ _ (by decide) rfl, field_high (k := 12) _ _ (by decide) rfl, field_high (k := 6) _ _ (by decide) rfl, field_high (k := 0) _ _ (by decide) rfl]; exact BitVec.extractLsb'_eq_self
  have ch0 : RetAct.ofCode? (fld W 0 3).toNat = some ret := by rw [h0]; cases ret <;> rfl
  have hd : decodeMap .C W = .ok (.cgth cid pa pb y ret) := by
    change decodeC W = _
    unfold decodeC; rw [h5]
    refine Eq.trans (b := reading (RetAct.ofCode? (fld W 0 3).toNat) fun ret => .ok (.cgth (fld W 19 6) (fld W 13 6) (fld W 7 6) (fld W 3 4) ret)) rfl ?_
    rw [ch0, h1, h2, h3, h4]; rfl
  unfold decode; rw [hd]; exact if_pos hf

theorem csct (cid : BitVec 6) (pa : BitVec 6) (pb : BitVec 6) (y : BitVec 4) (ret : RetAct) : Statement (.csct cid pa pb y ret) := by
  intro k hk hf; cases hk; refine ⟨_, rfl, ?_⟩
  generalize hW : (4#7 ++ cid ++ pa ++ pb ++ y ++ ofNat 3 ret.code : Word32) = W
  have h0 : fld W 0 3 = ofNat 3 ret.code := by subst hW; unfold fld; exact field_low _ _
  have h1 : fld W 19 6 = cid := by subst hW; unfold fld; rw [field_high (k := 16) _ _ (by decide) rfl, field_high (k := 12) _ _ (by decide) rfl, field_high (k := 6) _ _ (by decide) rfl, field_high (k := 0) _ _ (by decide) rfl]; exact field_low _ _
  have h2 : fld W 13 6 = pa := by subst hW; unfold fld; rw [field_high (k := 10) _ _ (by decide) rfl, field_high (k := 6) _ _ (by decide) rfl, field_high (k := 0) _ _ (by decide) rfl]; exact field_low _ _
  have h3 : fld W 7 6 = pb := by subst hW; unfold fld; rw [field_high (k := 4) _ _ (by decide) rfl, field_high (k := 0) _ _ (by decide) rfl]; exact field_low _ _
  have h4 : fld W 3 4 = y := by subst hW; unfold fld; rw [field_high (k := 0) _ _ (by decide) rfl]; exact field_low _ _
  have h5 : fld W 25 7 = 4#7 := by subst hW; unfold fld; rw [field_high (k := 22) _ _ (by decide) rfl, field_high (k := 18) _ _ (by decide) rfl, field_high (k := 12) _ _ (by decide) rfl, field_high (k := 6) _ _ (by decide) rfl, field_high (k := 0) _ _ (by decide) rfl]; exact BitVec.extractLsb'_eq_self
  have ch0 : RetAct.ofCode? (fld W 0 3).toNat = some ret := by rw [h0]; cases ret <;> rfl
  have hd : decodeMap .C W = .ok (.csct cid pa pb y ret) := by
    change decodeC W = _
    unfold decodeC; rw [h5]
    refine Eq.trans (b := reading (RetAct.ofCode? (fld W 0 3).toNat) fun ret => .ok (.csct (fld W 19 6) (fld W 13 6) (fld W 7 6) (fld W 3 4) ret)) rfl ?_
    rw [ch0, h1, h2, h3, h4]; rfl
  unfold decode; rw [hd]; exact if_pos hf

theorem cqf (cid : BitVec 6) (pa : BitVec 6) (pb : BitVec 6) (y : BitVec 4) (ret : RetAct) : Statement (.cqf cid pa pb y ret) := by
  intro k hk hf; cases hk; refine ⟨_, rfl, ?_⟩
  generalize hW : (5#7 ++ cid ++ pa ++ pb ++ y ++ ofNat 3 ret.code : Word32) = W
  have h0 : fld W 0 3 = ofNat 3 ret.code := by subst hW; unfold fld; exact field_low _ _
  have h1 : fld W 19 6 = cid := by subst hW; unfold fld; rw [field_high (k := 16) _ _ (by decide) rfl, field_high (k := 12) _ _ (by decide) rfl, field_high (k := 6) _ _ (by decide) rfl, field_high (k := 0) _ _ (by decide) rfl]; exact field_low _ _
  have h2 : fld W 13 6 = pa := by subst hW; unfold fld; rw [field_high (k := 10) _ _ (by decide) rfl, field_high (k := 6) _ _ (by decide) rfl, field_high (k := 0) _ _ (by decide) rfl]; exact field_low _ _
  have h3 : fld W 7 6 = pb := by subst hW; unfold fld; rw [field_high (k := 4) _ _ (by decide) rfl, field_high (k := 0) _ _ (by decide) rfl]; exact field_low _ _
  have h4 : fld W 3 4 = y := by subst hW; unfold fld; rw [field_high (k := 0) _ _ (by decide) rfl]; exact field_low _ _
  have h5 : fld W 25 7 = 5#7 := by subst hW; unfold fld; rw [field_high (k := 22) _ _ (by decide) rfl, field_high (k := 18) _ _ (by decide) rfl, field_high (k := 12) _ _ (by decide) rfl, field_high (k := 6) _ _ (by decide) rfl, field_high (k := 0) _ _ (by decide) rfl]; exact BitVec.extractLsb'_eq_self
  have ch0 : RetAct.ofCode? (fld W 0 3).toNat = some ret := by rw [h0]; cases ret <;> rfl
  have hd : decodeMap .C W = .ok (.cqf cid pa pb y ret) := by
    change decodeC W = _
    unfold decodeC; rw [h5]
    refine Eq.trans (b := reading (RetAct.ofCode? (fld W 0 3).toNat) fun ret => .ok (.cqf (fld W 19 6) (fld W 13 6) (fld W 7 6) (fld W 3 4) ret)) rfl ?_
    rw [ch0, h1, h2, h3, h4]; rfl
  unfold decode; rw [hd]; exact if_pos hf

theorem ccol (cid : BitVec 6) (pa : BitVec 6) (pb : BitVec 6) (y : BitVec 4) (ret : RetAct) : Statement (.ccol cid pa pb y ret) := by
  intro k hk hf; cases hk; refine ⟨_, rfl, ?_⟩
  generalize hW : (6#7 ++ cid ++ pa ++ pb ++ y ++ ofNat 3 ret.code : Word32) = W
  have h0 : fld W 0 3 = ofNat 3 ret.code := by subst hW; unfold fld; exact field_low _ _
  have h1 : fld W 19 6 = cid := by subst hW; unfold fld; rw [field_high (k := 16) _ _ (by decide) rfl, field_high (k := 12) _ _ (by decide) rfl, field_high (k := 6) _ _ (by decide) rfl, field_high (k := 0) _ _ (by decide) rfl]; exact field_low _ _
  have h2 : fld W 13 6 = pa := by subst hW; unfold fld; rw [field_high (k := 10) _ _ (by decide) rfl, field_high (k := 6) _ _ (by decide) rfl, field_high (k := 0) _ _ (by decide) rfl]; exact field_low _ _
  have h3 : fld W 7 6 = pb := by subst hW; unfold fld; rw [field_high (k := 4) _ _ (by decide) rfl, field_high (k := 0) _ _ (by decide) rfl]; exact field_low _ _
  have h4 : fld W 3 4 = y := by subst hW; unfold fld; rw [field_high (k := 0) _ _ (by decide) rfl]; exact field_low _ _
  have h5 : fld W 25 7 = 6#7 := by subst hW; unfold fld; rw [field_high (k := 22) _ _ (by decide) rfl, field_high (k := 18) _ _ (by decide) rfl, field_high (k := 12) _ _ (by decide) rfl, field_high (k := 6) _ _ (by decide) rfl, field_high (k := 0) _ _ (by decide) rfl]; exact BitVec.extractLsb'_eq_self
  have ch0 : RetAct.ofCode? (fld W 0 3).toNat = some ret := by rw [h0]; cases ret <;> rfl
  have hd : decodeMap .C W = .ok (.ccol cid pa pb y ret) := by
    change decodeC W = _
    unfold decodeC; rw [h5]
    refine Eq.trans (b := reading (RetAct.ofCode? (fld W 0 3).toNat) fun ret => .ok (.ccol (fld W 19 6) (fld W 13 6) (fld W 7 6) (fld W 3 4) ret)) rfl ?_
    rw [ch0, h1, h2, h3, h4]; rfl
  unfold decode; rw [hd]; exact if_pos hf

theorem wait (d : BitVec 5) : Statement (.wait d) := by
  intro k hk hf; cases hk; refine ⟨_, rfl, ?_⟩
  generalize hW : (1#7 ++ d ++ 0#20 : Word32) = W
  have h0 : fld W 0 20 = 0#20 := by subst hW; unfold fld; exact field_low _ _
  have h1 : fld W 20 5 = d := by subst hW; unfold fld; rw [field_high (k := 0) _ _ (by decide) rfl]; exact field_low _ _
  have h2 : fld W 25 7 = 1#7 := by subst hW; unfold fld; rw [field_high (k := 5) _ _ (by decide) rfl, field_high (k := 0) _ _ (by decide) rfl]; exact BitVec.extractLsb'_eq_self
  have hd : decodeMap .X W = .ok (.wait d) := by
    change decodeX W = _
    unfold decodeX; rw [h2]
    refine Eq.trans (b := zeroed (fld W 0 20 = 0) <| .ok (.wait (fld W 20 5))) rfl ?_
    rw [h0, h1]; rfl
  unfold decode; rw [hd]; exact if_pos hf

theorem watch (a : BitVec 5) (b : BitVec 5) (ta : Bool) (tb : Bool) (on : Bool) (n : BitVec 3) : Statement (.watch a b ta tb on n) := by
  intro k hk hf; cases hk; refine ⟨_, rfl, ?_⟩
  generalize hW : (2#7 ++ 0#5 ++ a ++ b ++ ofBool ta ++ ofBool tb ++ 0#4 ++ ofBool on ++ n : Word32) = W
  have h0 : fld W 20 5 = 0#5 := by subst hW; unfold fld; rw [field_high (k := 17) _ _ (by decide) rfl, field_high (k := 16) _ _ (by decide) rfl, field_high (k := 12) _ _ (by decide) rfl, field_high (k := 11) _ _ (by decide) rfl, field_high (k := 10) _ _ (by decide) rfl, field_high (k := 5) _ _ (by decide) rfl, field_high (k := 0) _ _ (by decide) rfl]; exact field_low _ _
  have h1 : fld W 4 4 = 0#4 := by subst hW; unfold fld; rw [field_high (k := 1) _ _ (by decide) rfl, field_high (k := 0) _ _ (by decide) rfl]; exact field_low _ _
  have h2 : fld W 15 5 = a := by subst hW; unfold fld; rw [field_high (k := 12) _ _ (by decide) rfl, field_high (k := 11) _ _ (by decide) rfl, field_high (k := 7) _ _ (by decide) rfl, field_high (k := 6) _ _ (by decide) rfl, field_high (k := 5) _ _ (by decide) rfl, field_high (k := 0) _ _ (by decide) rfl]; exact field_low _ _
  have h3 : fld W 10 5 = b := by subst hW; unfold fld; rw [field_high (k := 7) _ _ (by decide) rfl, field_high (k := 6) _ _ (by decide) rfl, field_high (k := 2) _ _ (by decide) rfl, field_high (k := 1) _ _ (by decide) rfl, field_high (k := 0) _ _ (by decide) rfl]; exact field_low _ _
  have h4 : flag W 9 = ta := by subst hW; unfold flag; rw [bit_high (k := 6) _ _ (by decide) rfl, bit_high (k := 5) _ _ (by decide) rfl, bit_high (k := 1) _ _ (by decide) rfl, bit_high (k := 0) _ _ (by decide) rfl]; exact bit_low _ _
  have h5 : flag W 8 = tb := by subst hW; unfold flag; rw [bit_high (k := 5) _ _ (by decide) rfl, bit_high (k := 4) _ _ (by decide) rfl, bit_high (k := 0) _ _ (by decide) rfl]; exact bit_low _ _
  have h6 : flag W 3 = on := by subst hW; unfold flag; rw [bit_high (k := 0) _ _ (by decide) rfl]; exact bit_low _ _
  have h7 : fld W 0 3 = n := by subst hW; unfold fld; exact field_low _ _
  have h8 : fld W 25 7 = 2#7 := by subst hW; unfold fld; rw [field_high (k := 22) _ _ (by decide) rfl, field_high (k := 21) _ _ (by decide) rfl, field_high (k := 17) _ _ (by decide) rfl, field_high (k := 16) _ _ (by decide) rfl, field_high (k := 15) _ _ (by decide) rfl, field_high (k := 10) _ _ (by decide) rfl, field_high (k := 5) _ _ (by decide) rfl, field_high (k := 0) _ _ (by decide) rfl]; exact BitVec.extractLsb'_eq_self
  have hd : decodeMap .X W = .ok (.watch a b ta tb on n) := by
    change decodeX W = _
    unfold decodeX; rw [h8]
    refine Eq.trans (b := zeroed (fld W 20 5 = 0 ∧ fld W 4 4 = 0) <| .ok (.watch (fld W 15 5) (fld W 10 5) (flag W 9) (flag W 8) (flag W 3) (fld W 0 3))) rfl ?_
    rw [h0, h1, h2, h3, h4, h5, h6, h7]; rfl
  unfold decode; rw [hd]; exact if_pos hf

theorem semadd (a : BitVec 5) (ta : Bool) (ck : Bool) (n : BitVec 6) : Statement (.semadd a ta ck n) := by
  intro k hk hf; cases hk; refine ⟨_, rfl, ?_⟩
  generalize hW : (3#7 ++ 0#5 ++ a ++ 0#5 ++ ofBool ta ++ 0#1 ++ ofBool ck ++ 0#1 ++ n : Word32) = W
  have h0 : fld W 20 5 = 0#5 := by subst hW; unfold fld; rw [field_high (k := 14) _ _ (by decide) rfl, field_high (k := 13) _ _ (by decide) rfl, field_high (k := 12) _ _ (by decide) rfl, field_high (k := 11) _ _ (by decide) rfl, field_high (k := 10) _ _ (by decide) rfl, field_high (k := 5) _ _ (by decide) rfl, field_high (k := 0) _ _ (by decide) rfl]; exact field_low _ _
  have h1 : fld W 10 5 = 0#5 := by subst hW; unfold fld; rw [field_high (k := 4) _ _ (by decide) rfl, field_high (k := 3) _ _ (by decide) rfl, field_high (k := 2) _ _ (by decide) rfl, field_high (k := 1) _ _ (by decide) rfl, field_high (k := 0) _ _ (by decide) rfl]; exact field_low _ _
  have h2 : fld W 8 1 = 0#1 := by subst hW; unfold fld; rw [field_high (k := 2) _ _ (by decide) rfl, field_high (k := 1) _ _ (by decide) rfl, field_high (k := 0) _ _ (by decide) rfl]; exact field_low _ _
  have h3 : fld W 15 5 = a := by subst hW; unfold fld; rw [field_high (k := 9) _ _ (by decide) rfl, field_high (k := 8) _ _ (by decide) rfl, field_high (k := 7) _ _ (by decide) rfl, field_high (k := 6) _ _ (by decide) rfl, field_high (k := 5) _ _ (by decide) rfl, field_high (k := 0) _ _ (by decide) rfl]; exact field_low _ _
  have h4 : flag W 9 = ta := by subst hW; unfold flag; rw [bit_high (k := 3) _ _ (by decide) rfl, bit_high (k := 2) _ _ (by decide) rfl, bit_high (k := 1) _ _ (by decide) rfl, bit_high (k := 0) _ _ (by decide) rfl]; exact bit_low _ _
  have h5 : flag W 7 = ck := by subst hW; unfold flag; rw [bit_high (k := 1) _ _ (by decide) rfl, bit_high (k := 0) _ _ (by decide) rfl]; exact bit_low _ _
  have h6 : fld W 0 6 = n := by subst hW; unfold fld; exact field_low _ _
  have h7 : fld W 25 7 = 3#7 := by subst hW; unfold fld; rw [field_high (k := 19) _ _ (by decide) rfl, field_high (k := 18) _ _ (by decide) rfl, field_high (k := 17) _ _ (by decide) rfl, field_high (k := 16) _ _ (by decide) rfl, field_high (k := 15) _ _ (by decide) rfl, field_high (k := 10) _ _ (by decide) rfl, field_high (k := 5) _ _ (by decide) rfl, field_high (k := 0) _ _ (by decide) rfl]; exact BitVec.extractLsb'_eq_self
  have h8 : fld W 6 1 = 0#1 := by subst hW; unfold fld; rw [field_high (k := 0) _ _ (by decide) rfl]; exact field_low _ _
  have hd : decodeMap .X W = .ok (.semadd a ta ck n) := by
    change decodeX W = _
    unfold decodeX; rw [h7]
    change decodeX03 W = _
    unfold decodeX03; rw [h8]
    refine Eq.trans (b := zeroed (fld W 20 5 = 0 ∧ fld W 10 5 = 0 ∧ fld W 8 1 = 0) <| .ok (.semadd (fld W 15 5) (flag W 9) (flag W 7) (fld W 0 6))) rfl ?_
    rw [h0, h1, h2, h3, h4, h5, h6]; rfl
  unfold decode; rw [hd]; exact if_pos hf

theorem semaddRemote (a : BitVec 5) (b : BitVec 5) (ta : Bool) (tb : Bool) (ck : Bool) (n : BitVec 6) : Statement (.semaddRemote a b ta tb ck n) := by
  intro k hk hf; cases hk; refine ⟨_, rfl, ?_⟩
  generalize hW : (3#7 ++ 0#5 ++ a ++ b ++ ofBool ta ++ ofBool tb ++ ofBool ck ++ 1#1 ++ n : Word32) = W
  have h0 : fld W 20 5 = 0#5 := by subst hW; unfold fld; rw [field_high (k := 14) _ _ (by decide) rfl, field_high (k := 13) _ _ (by decide) rfl, field_high (k := 12) _ _ (by decide) rfl, field_high (k := 11) _ _ (by decide) rfl, field_high (k := 10) _ _ (by decide) rfl, field_high (k := 5) _ _ (by decide) rfl, field_high (k := 0) _ _ (by decide) rfl]; exact field_low _ _
  have h1 : fld W 15 5 = a := by subst hW; unfold fld; rw [field_high (k := 9) _ _ (by decide) rfl, field_high (k := 8) _ _ (by decide) rfl, field_high (k := 7) _ _ (by decide) rfl, field_high (k := 6) _ _ (by decide) rfl, field_high (k := 5) _ _ (by decide) rfl, field_high (k := 0) _ _ (by decide) rfl]; exact field_low _ _
  have h2 : fld W 10 5 = b := by subst hW; unfold fld; rw [field_high (k := 4) _ _ (by decide) rfl, field_high (k := 3) _ _ (by decide) rfl, field_high (k := 2) _ _ (by decide) rfl, field_high (k := 1) _ _ (by decide) rfl, field_high (k := 0) _ _ (by decide) rfl]; exact field_low _ _
  have h3 : flag W 9 = ta := by subst hW; unfold flag; rw [bit_high (k := 3) _ _ (by decide) rfl, bit_high (k := 2) _ _ (by decide) rfl, bit_high (k := 1) _ _ (by decide) rfl, bit_high (k := 0) _ _ (by decide) rfl]; exact bit_low _ _
  have h4 : flag W 8 = tb := by subst hW; unfold flag; rw [bit_high (k := 2) _ _ (by decide) rfl, bit_high (k := 1) _ _ (by decide) rfl, bit_high (k := 0) _ _ (by decide) rfl]; exact bit_low _ _
  have h5 : flag W 7 = ck := by subst hW; unfold flag; rw [bit_high (k := 1) _ _ (by decide) rfl, bit_high (k := 0) _ _ (by decide) rfl]; exact bit_low _ _
  have h6 : fld W 0 6 = n := by subst hW; unfold fld; exact field_low _ _
  have h7 : fld W 25 7 = 3#7 := by subst hW; unfold fld; rw [field_high (k := 19) _ _ (by decide) rfl, field_high (k := 18) _ _ (by decide) rfl, field_high (k := 17) _ _ (by decide) rfl, field_high (k := 16) _ _ (by decide) rfl, field_high (k := 15) _ _ (by decide) rfl, field_high (k := 10) _ _ (by decide) rfl, field_high (k := 5) _ _ (by decide) rfl, field_high (k := 0) _ _ (by decide) rfl]; exact BitVec.extractLsb'_eq_self
  have h8 : fld W 6 1 = 1#1 := by subst hW; unfold fld; rw [field_high (k := 0) _ _ (by decide) rfl]; exact field_low _ _
  have hd : decodeMap .X W = .ok (.semaddRemote a b ta tb ck n) := by
    change decodeX W = _
    unfold decodeX; rw [h7]
    change decodeX03 W = _
    unfold decodeX03; rw [h8]
    refine Eq.trans (b := zeroed (fld W 20 5 = 0) <| .ok (.semaddRemote (fld W 15 5) (fld W 10 5) (flag W 9) (flag W 8) (flag W 7) (fld W 0 6))) rfl ?_
    rw [h0, h1, h2, h3, h4, h5, h6]; rfl
  unfold decode; rw [hd]; exact if_pos hf

theorem semwt (a : BitVec 5) (ta : Bool) (n : BitVec 6) : Statement (.semwt a ta n) := by
  intro k hk hf; cases hk; refine ⟨_, rfl, ?_⟩
  generalize hW : (4#7 ++ 0#5 ++ a ++ 0#5 ++ ofBool ta ++ 0#3 ++ n : Word32) = W
  have h0 : fld W 20 5 = 0#5 := by subst hW; unfold fld; rw [field_high (k := 14) _ _ (by decide) rfl, field_high (k := 11) _ _ (by decide) rfl, field_high (k := 10) _ _ (by decide) rfl, field_high (k := 5) _ _ (by decide) rfl, field_high (k := 0) _ _ (by decide) rfl]; exact field_low _ _
  have h1 : fld W 10 5 = 0#5 := by subst hW; unfold fld; rw [field_high (k := 4) _ _ (by decide) rfl, field_high (k := 1) _ _ (by decide) rfl, field_high (k := 0) _ _ (by decide) rfl]; exact field_low _ _
  have h2 : fld W 6 3 = 0#3 := by subst hW; unfold fld; rw [field_high (k := 0) _ _ (by decide) rfl]; exact field_low _ _
  have h3 : fld W 15 5 = a := by subst hW; unfold fld; rw [field_high (k := 9) _ _ (by decide) rfl, field_high (k := 6) _ _ (by decide) rfl, field_high (k := 5) _ _ (by decide) rfl, field_high (k := 0) _ _ (by decide) rfl]; exact field_low _ _
  have h4 : flag W 9 = ta := by subst hW; unfold flag; rw [bit_high (k := 3) _ _ (by decide) rfl, bit_high (k := 0) _ _ (by decide) rfl]; exact bit_low _ _
  have h5 : fld W 0 6 = n := by subst hW; unfold fld; exact field_low _ _
  have h6 : fld W 25 7 = 4#7 := by subst hW; unfold fld; rw [field_high (k := 19) _ _ (by decide) rfl, field_high (k := 16) _ _ (by decide) rfl, field_high (k := 15) _ _ (by decide) rfl, field_high (k := 10) _ _ (by decide) rfl, field_high (k := 5) _ _ (by decide) rfl, field_high (k := 0) _ _ (by decide) rfl]; exact BitVec.extractLsb'_eq_self
  have hd : decodeMap .X W = .ok (.semwt a ta n) := by
    change decodeX W = _
    unfold decodeX; rw [h6]
    refine Eq.trans (b := zeroed (fld W 20 5 = 0 ∧ fld W 10 5 = 0 ∧ fld W 6 3 = 0) <| .ok (.semwt (fld W 15 5) (flag W 9) (fld W 0 6))) rfl ?_
    rw [h0, h1, h2, h3, h4, h5]; rfl
  unfold decode; rw [hd]; exact if_pos hf

theorem semtst (d : BitVec 5) (a : BitVec 5) (ta : Bool) (n : BitVec 6) : Statement (.semtst d a ta n) := by
  intro k hk hf; cases hk; refine ⟨_, rfl, ?_⟩
  generalize hW : (5#7 ++ d ++ a ++ 0#5 ++ ofBool ta ++ 0#3 ++ n : Word32) = W
  have h0 : fld W 10 5 = 0#5 := by subst hW; unfold fld; rw [field_high (k := 4) _ _ (by decide) rfl, field_high (k := 1) _ _ (by decide) rfl, field_high (k := 0) _ _ (by decide) rfl]; exact field_low _ _
  have h1 : fld W 6 3 = 0#3 := by subst hW; unfold fld; rw [field_high (k := 0) _ _ (by decide) rfl]; exact field_low _ _
  have h2 : fld W 20 5 = d := by subst hW; unfold fld; rw [field_high (k := 14) _ _ (by decide) rfl, field_high (k := 11) _ _ (by decide) rfl, field_high (k := 10) _ _ (by decide) rfl, field_high (k := 5) _ _ (by decide) rfl, field_high (k := 0) _ _ (by decide) rfl]; exact field_low _ _
  have h3 : fld W 15 5 = a := by subst hW; unfold fld; rw [field_high (k := 9) _ _ (by decide) rfl, field_high (k := 6) _ _ (by decide) rfl, field_high (k := 5) _ _ (by decide) rfl, field_high (k := 0) _ _ (by decide) rfl]; exact field_low _ _
  have h4 : flag W 9 = ta := by subst hW; unfold flag; rw [bit_high (k := 3) _ _ (by decide) rfl, bit_high (k := 0) _ _ (by decide) rfl]; exact bit_low _ _
  have h5 : fld W 0 6 = n := by subst hW; unfold fld; exact field_low _ _
  have h6 : fld W 25 7 = 5#7 := by subst hW; unfold fld; rw [field_high (k := 19) _ _ (by decide) rfl, field_high (k := 16) _ _ (by decide) rfl, field_high (k := 15) _ _ (by decide) rfl, field_high (k := 10) _ _ (by decide) rfl, field_high (k := 5) _ _ (by decide) rfl, field_high (k := 0) _ _ (by decide) rfl]; exact BitVec.extractLsb'_eq_self
  have hd : decodeMap .X W = .ok (.semtst d a ta n) := by
    change decodeX W = _
    unfold decodeX; rw [h6]
    refine Eq.trans (b := zeroed (fld W 10 5 = 0 ∧ fld W 6 3 = 0) <| .ok (.semtst (fld W 20 5) (fld W 15 5) (flag W 9) (fld W 0 6))) rfl ?_
    rw [h0, h1, h2, h3, h4, h5]; rfl
  unfold decode; rw [hd]; exact if_pos hf

theorem semset (a : BitVec 5) (ta : Bool) (n : BitVec 6) : Statement (.semset a ta n) := by
  intro k hk hf; cases hk; refine ⟨_, rfl, ?_⟩
  generalize hW : (6#7 ++ 0#5 ++ a ++ 0#5 ++ ofBool ta ++ 0#3 ++ n : Word32) = W
  have h0 : fld W 20 5 = 0#5 := by subst hW; unfold fld; rw [field_high (k := 14) _ _ (by decide) rfl, field_high (k := 11) _ _ (by decide) rfl, field_high (k := 10) _ _ (by decide) rfl, field_high (k := 5) _ _ (by decide) rfl, field_high (k := 0) _ _ (by decide) rfl]; exact field_low _ _
  have h1 : fld W 10 5 = 0#5 := by subst hW; unfold fld; rw [field_high (k := 4) _ _ (by decide) rfl, field_high (k := 1) _ _ (by decide) rfl, field_high (k := 0) _ _ (by decide) rfl]; exact field_low _ _
  have h2 : fld W 6 3 = 0#3 := by subst hW; unfold fld; rw [field_high (k := 0) _ _ (by decide) rfl]; exact field_low _ _
  have h3 : fld W 15 5 = a := by subst hW; unfold fld; rw [field_high (k := 9) _ _ (by decide) rfl, field_high (k := 6) _ _ (by decide) rfl, field_high (k := 5) _ _ (by decide) rfl, field_high (k := 0) _ _ (by decide) rfl]; exact field_low _ _
  have h4 : flag W 9 = ta := by subst hW; unfold flag; rw [bit_high (k := 3) _ _ (by decide) rfl, bit_high (k := 0) _ _ (by decide) rfl]; exact bit_low _ _
  have h5 : fld W 0 6 = n := by subst hW; unfold fld; exact field_low _ _
  have h6 : fld W 25 7 = 6#7 := by subst hW; unfold fld; rw [field_high (k := 19) _ _ (by decide) rfl, field_high (k := 16) _ _ (by decide) rfl, field_high (k := 15) _ _ (by decide) rfl, field_high (k := 10) _ _ (by decide) rfl, field_high (k := 5) _ _ (by decide) rfl, field_high (k := 0) _ _ (by decide) rfl]; exact BitVec.extractLsb'_eq_self
  have hd : decodeMap .X W = .ok (.semset a ta n) := by
    change decodeX W = _
    unfold decodeX; rw [h6]
    refine Eq.trans (b := zeroed (fld W 20 5 = 0 ∧ fld W 10 5 = 0 ∧ fld W 6 3 = 0) <| .ok (.semset (fld W 15 5) (flag W 9) (fld W 0 6))) rfl ?_
    rw [h0, h1, h2, h3, h4, h5]; rfl
  unfold decode; rw [hd]; exact if_pos hf

theorem semrd (d : BitVec 5) (n : BitVec 6) : Statement (.semrd d n) := by
  intro k hk hf; cases hk; refine ⟨_, rfl, ?_⟩
  generalize hW : (7#7 ++ d ++ 0#14 ++ n : Word32) = W
  have h0 : fld W 6 14 = 0#14 := by subst hW; unfold fld; rw [field_high (k := 0) _ _ (by decide) rfl]; exact field_low _ _
  have h1 : fld W 20 5 = d := by subst hW; unfold fld; rw [field_high (k := 14) _ _ (by decide) rfl, field_high (k := 0) _ _ (by decide) rfl]; exact field_low _ _
  have h2 : fld W 0 6 = n := by subst hW; unfold fld; exact field_low _ _
  have h3 : fld W 25 7 = 7#7 := by subst hW; unfold fld; rw [field_high (k := 19) _ _ (by decide) rfl, field_high (k := 5) _ _ (by decide) rfl, field_high (k := 0) _ _ (by decide) rfl]; exact BitVec.extractLsb'_eq_self
  have hd : decodeMap .X W = .ok (.semrd d n) := by
    change decodeX W = _
    unfold decodeX; rw [h3]
    refine Eq.trans (b := zeroed (fld W 6 14 = 0) <| .ok (.semrd (fld W 20 5) (fld W 0 6))) rfl ?_
    rw [h0, h1, h2]; rfl
  unfold decode; rw [hd]; exact if_pos hf

theorem bar (l : BitVec 3) : Statement (.bar l) := by
  intro k hk hf; cases hk; refine ⟨_, rfl, ?_⟩
  generalize hW : (8#7 ++ 0#22 ++ l : Word32) = W
  have h0 : fld W 3 22 = 0#22 := by subst hW; unfold fld; rw [field_high (k := 0) _ _ (by decide) rfl]; exact field_low _ _
  have h1 : fld W 0 3 = l := by subst hW; unfold fld; exact field_low _ _
  have h2 : fld W 25 7 = 8#7 := by subst hW; unfold fld; rw [field_high (k := 22) _ _ (by decide) rfl, field_high (k := 0) _ _ (by decide) rfl]; exact BitVec.extractLsb'_eq_self
  have hd : decodeMap .X W = .ok (.bar l) := by
    change decodeX W = _
    unfold decodeX; rw [h2]
    refine Eq.trans (b := zeroed (fld W 3 22 = 0) <| .ok (.bar (fld W 0 3))) rfl ?_
    rw [h0, h1]; rfl
  unfold decode; rw [hd]; exact if_pos hf

theorem fence (src : BitVec 8) (dst : BitVec 8) (sc : Scope) : Statement (.fence src dst sc) := by
  intro k hk hf; cases hk; refine ⟨_, rfl, ?_⟩
  generalize hW : (9#7 ++ src ++ dst ++ ofNat 3 sc.code ++ 0#6 : Word32) = W
  have h0 : fld W 0 6 = 0#6 := by subst hW; unfold fld; exact field_low _ _
  have h1 : fld W 6 3 = ofNat 3 sc.code := by subst hW; unfold fld; rw [field_high (k := 0) _ _ (by decide) rfl]; exact field_low _ _
  have h2 : fld W 17 8 = src := by subst hW; unfold fld; rw [field_high (k := 11) _ _ (by decide) rfl, field_high (k := 8) _ _ (by decide) rfl, field_high (k := 0) _ _ (by decide) rfl]; exact field_low _ _
  have h3 : fld W 9 8 = dst := by subst hW; unfold fld; rw [field_high (k := 3) _ _ (by decide) rfl, field_high (k := 0) _ _ (by decide) rfl]; exact field_low _ _
  have h4 : fld W 25 7 = 9#7 := by subst hW; unfold fld; rw [field_high (k := 19) _ _ (by decide) rfl, field_high (k := 16) _ _ (by decide) rfl, field_high (k := 8) _ _ (by decide) rfl, field_high (k := 0) _ _ (by decide) rfl]; exact BitVec.extractLsb'_eq_self
  have ch1 : Scope.ofCode? (fld W 6 3).toNat = some sc := by rw [h1]; cases sc <;> rfl
  have hd : decodeMap .X W = .ok (.fence src dst sc) := by
    change decodeX W = _
    unfold decodeX; rw [h4]
    refine Eq.trans (b := zeroed (fld W 0 6 = 0) <| reading (Scope.ofCode? (fld W 6 3).toNat) fun sc => .ok (.fence (fld W 17 8) (fld W 9 8) sc)) rfl ?_
    rw [ch1, h0, h2, h3]; rfl
  unfold decode; rw [hd]; exact if_pos hf

theorem drain (sc : Scope) : Statement (.drain sc) := by
  intro k hk hf; cases hk; refine ⟨_, rfl, ?_⟩
  generalize hW : (0xa#7 ++ 0#16 ++ ofNat 3 sc.code ++ 0#6 : Word32) = W
  have h0 : fld W 9 16 = 0#16 := by subst hW; unfold fld; rw [field_high (k := 3) _ _ (by decide) rfl, field_high (k := 0) _ _ (by decide) rfl]; exact field_low _ _
  have h1 : fld W 0 6 = 0#6 := by subst hW; unfold fld; exact field_low _ _
  have h2 : fld W 6 3 = ofNat 3 sc.code := by subst hW; unfold fld; rw [field_high (k := 0) _ _ (by decide) rfl]; exact field_low _ _
  have h3 : fld W 25 7 = 0xa#7 := by subst hW; unfold fld; rw [field_high (k := 19) _ _ (by decide) rfl, field_high (k := 16) _ _ (by decide) rfl, field_high (k := 0) _ _ (by decide) rfl]; exact BitVec.extractLsb'_eq_self
  have ch2 : Scope.ofCode? (fld W 6 3).toNat = some sc := by rw [h2]; cases sc <;> rfl
  have hd : decodeMap .X W = .ok (.drain sc) := by
    change decodeX W = _
    unfold decodeX; rw [h3]
    refine Eq.trans (b := zeroed (fld W 9 16 = 0 ∧ fld W 0 6 = 0) <| reading (Scope.ofCode? (fld W 6 3).toNat) fun sc => .ok (.drain sc)) rfl ?_
    rw [ch2, h0, h1]; rfl
  unfold decode; rw [hd]; exact if_pos hf

theorem cwait (n : BitVec 6) : Statement (.cwait n) := by
  intro k hk hf; cases hk; refine ⟨_, rfl, ?_⟩
  generalize hW : (0xb#7 ++ 0#19 ++ n : Word32) = W
  have h0 : fld W 6 19 = 0#19 := by subst hW; unfold fld; rw [field_high (k := 0) _ _ (by decide) rfl]; exact field_low _ _
  have h1 : fld W 0 6 = n := by subst hW; unfold fld; exact field_low _ _
  have h2 : fld W 25 7 = 0xb#7 := by subst hW; unfold fld; rw [field_high (k := 19) _ _ (by decide) rfl, field_high (k := 0) _ _ (by decide) rfl]; exact BitVec.extractLsb'_eq_self
  have hd : decodeMap .X W = .ok (.cwait n) := by
    change decodeX W = _
    unfold decodeX; rw [h2]
    refine Eq.trans (b := zeroed (fld W 6 19 = 0) <| .ok (.cwait (fld W 0 6))) rfl ?_
    rw [h0, h1]; rfl
  unfold decode; rw [hd]; exact if_pos hf

theorem gset (a : BitVec 5) (ta : Bool) (g : BitVec 4) : Statement (.gset a ta g) := by
  intro k hk hf; cases hk; refine ⟨_, rfl, ?_⟩
  generalize hW : (0xc#7 ++ 0#5 ++ a ++ 0#5 ++ ofBool ta ++ 0#5 ++ g : Word32) = W
  have h0 : fld W 20 5 = 0#5 := by subst hW; unfold fld; rw [field_high (k := 16) _ _ (by decide) rfl, field_high (k := 11) _ _ (by decide) rfl, field_high (k := 10) _ _ (by decide) rfl, field_high (k := 5) _ _ (by decide) rfl, field_high (k := 0) _ _ (by decide) rfl]; exact field_low _ _
  have h1 : fld W 10 5 = 0#5 := by subst hW; unfold fld; rw [field_high (k := 6) _ _ (by decide) rfl, field_high (k := 1) _ _ (by decide) rfl, field_high (k := 0) _ _ (by decide) rfl]; exact field_low _ _
  have h2 : fld W 4 5 = 0#5 := by subst hW; unfold fld; rw [field_high (k := 0) _ _ (by decide) rfl]; exact field_low _ _
  have h3 : fld W 15 5 = a := by subst hW; unfold fld; rw [field_high (k := 11) _ _ (by decide) rfl, field_high (k := 6) _ _ (by decide) rfl, field_high (k := 5) _ _ (by decide) rfl, field_high (k := 0) _ _ (by decide) rfl]; exact field_low _ _
  have h4 : flag W 9 = ta := by subst hW; unfold flag; rw [bit_high (k := 5) _ _ (by decide) rfl, bit_high (k := 0) _ _ (by decide) rfl]; exact bit_low _ _
  have h5 : fld W 0 4 = g := by subst hW; unfold fld; exact field_low _ _
  have h6 : fld W 25 7 = 0xc#7 := by subst hW; unfold fld; rw [field_high (k := 21) _ _ (by decide) rfl, field_high (k := 16) _ _ (by decide) rfl, field_high (k := 15) _ _ (by decide) rfl, field_high (k := 10) _ _ (by decide) rfl, field_high (k := 5) _ _ (by decide) rfl, field_high (k := 0) _ _ (by decide) rfl]; exact BitVec.extractLsb'_eq_self
  have hd : decodeMap .X W = .ok (.gset a ta g) := by
    change decodeX W = _
    unfold decodeX; rw [h6]
    refine Eq.trans (b := zeroed (fld W 20 5 = 0 ∧ fld W 10 5 = 0 ∧ fld W 4 5 = 0) <| .ok (.gset (fld W 15 5) (flag W 9) (fld W 0 4))) rfl ?_
    rw [h0, h1, h2, h3, h4, h5]; rfl
  unfold decode; rw [hd]; exact if_pos hf

theorem kld (a : BitVec 5) (ta : Bool) : Statement (.kld a ta) := by
  intro k hk hf; cases hk; refine ⟨_, rfl, ?_⟩
  generalize hW : (0xd#7 ++ 0#5 ++ a ++ 0#5 ++ ofBool ta ++ 0#9 : Word32) = W
  have h0 : fld W 20 5 = 0#5 := by subst hW; unfold fld; rw [field_high (k := 11) _ _ (by decide) rfl, field_high (k := 10) _ _ (by decide) rfl, field_high (k := 5) _ _ (by decide) rfl, field_high (k := 0) _ _ (by decide) rfl]; exact field_low _ _
  have h1 : fld W 10 5 = 0#5 := by subst hW; unfold fld; rw [field_high (k := 1) _ _ (by decide) rfl, field_high (k := 0) _ _ (by decide) rfl]; exact field_low _ _
  have h2 : fld W 0 9 = 0#9 := by subst hW; unfold fld; exact field_low _ _
  have h3 : fld W 15 5 = a := by subst hW; unfold fld; rw [field_high (k := 6) _ _ (by decide) rfl, field_high (k := 5) _ _ (by decide) rfl, field_high (k := 0) _ _ (by decide) rfl]; exact field_low _ _
  have h4 : flag W 9 = ta := by subst hW; unfold flag; rw [bit_high (k := 0) _ _ (by decide) rfl]; exact bit_low _ _
  have h5 : fld W 25 7 = 0xd#7 := by subst hW; unfold fld; rw [field_high (k := 16) _ _ (by decide) rfl, field_high (k := 15) _ _ (by decide) rfl, field_high (k := 10) _ _ (by decide) rfl, field_high (k := 5) _ _ (by decide) rfl, field_high (k := 0) _ _ (by decide) rfl]; exact BitVec.extractLsb'_eq_self
  have hd : decodeMap .X W = .ok (.kld a ta) := by
    change decodeX W = _
    unfold decodeX; rw [h5]
    refine Eq.trans (b := zeroed (fld W 20 5 = 0 ∧ fld W 10 5 = 0 ∧ fld W 0 9 = 0) <| .ok (.kld (fld W 15 5) (flag W 9))) rfl ?_
    rw [h0, h1, h2, h3, h4]; rfl
  unfold decode; rw [hd]; exact if_pos hf

theorem cbkld (a : BitVec 5) (ta : Bool) : Statement (.cbkld a ta) := by
  intro k hk hf; cases hk; refine ⟨_, rfl, ?_⟩
  generalize hW : (0xe#7 ++ 0#5 ++ a ++ 0#5 ++ ofBool ta ++ 0#9 : Word32) = W
  have h0 : fld W 20 5 = 0#5 := by subst hW; unfold fld; rw [field_high (k := 11) _ _ (by decide) rfl, field_high (k := 10) _ _ (by decide) rfl, field_high (k := 5) _ _ (by decide) rfl, field_high (k := 0) _ _ (by decide) rfl]; exact field_low _ _
  have h1 : fld W 10 5 = 0#5 := by subst hW; unfold fld; rw [field_high (k := 1) _ _ (by decide) rfl, field_high (k := 0) _ _ (by decide) rfl]; exact field_low _ _
  have h2 : fld W 0 9 = 0#9 := by subst hW; unfold fld; exact field_low _ _
  have h3 : fld W 15 5 = a := by subst hW; unfold fld; rw [field_high (k := 6) _ _ (by decide) rfl, field_high (k := 5) _ _ (by decide) rfl, field_high (k := 0) _ _ (by decide) rfl]; exact field_low _ _
  have h4 : flag W 9 = ta := by subst hW; unfold flag; rw [bit_high (k := 0) _ _ (by decide) rfl]; exact bit_low _ _
  have h5 : fld W 25 7 = 0xe#7 := by subst hW; unfold fld; rw [field_high (k := 16) _ _ (by decide) rfl, field_high (k := 15) _ _ (by decide) rfl, field_high (k := 10) _ _ (by decide) rfl, field_high (k := 5) _ _ (by decide) rfl, field_high (k := 0) _ _ (by decide) rfl]; exact BitVec.extractLsb'_eq_self
  have hd : decodeMap .X W = .ok (.cbkld a ta) := by
    change decodeX W = _
    unfold decodeX; rw [h5]
    refine Eq.trans (b := zeroed (fld W 20 5 = 0 ∧ fld W 10 5 = 0 ∧ fld W 0 9 = 0) <| .ok (.cbkld (fld W 15 5) (flag W 9))) rfl ?_
    rw [h0, h1, h2, h3, h4]; rfl
  unfold decode; rw [hd]; exact if_pos hf

theorem yld (a : BitVec 5) (ta : Bool) (y : BitVec 4) : Statement (.yld a ta y) := by
  intro k hk hf; cases hk; refine ⟨_, rfl, ?_⟩
  generalize hW : (0xf#7 ++ 0#5 ++ a ++ 0#5 ++ ofBool ta ++ 0#5 ++ y : Word32) = W
  have h0 : fld W 20 5 = 0#5 := by subst hW; unfold fld; rw [field_high (k := 16) _ _ (by decide) rfl, field_high (k := 11) _ _ (by decide) rfl, field_high (k := 10) _ _ (by decide) rfl, field_high (k := 5) _ _ (by decide) rfl, field_high (k := 0) _ _ (by decide) rfl]; exact field_low _ _
  have h1 : fld W 10 5 = 0#5 := by subst hW; unfold fld; rw [field_high (k := 6) _ _ (by decide) rfl, field_high (k := 1) _ _ (by decide) rfl, field_high (k := 0) _ _ (by decide) rfl]; exact field_low _ _
  have h2 : fld W 4 5 = 0#5 := by subst hW; unfold fld; rw [field_high (k := 0) _ _ (by decide) rfl]; exact field_low _ _
  have h3 : fld W 15 5 = a := by subst hW; unfold fld; rw [field_high (k := 11) _ _ (by decide) rfl, field_high (k := 6) _ _ (by decide) rfl, field_high (k := 5) _ _ (by decide) rfl, field_high (k := 0) _ _ (by decide) rfl]; exact field_low _ _
  have h4 : flag W 9 = ta := by subst hW; unfold flag; rw [bit_high (k := 5) _ _ (by decide) rfl, bit_high (k := 0) _ _ (by decide) rfl]; exact bit_low _ _
  have h5 : fld W 0 4 = y := by subst hW; unfold fld; exact field_low _ _
  have h6 : fld W 25 7 = 0xf#7 := by subst hW; unfold fld; rw [field_high (k := 21) _ _ (by decide) rfl, field_high (k := 16) _ _ (by decide) rfl, field_high (k := 15) _ _ (by decide) rfl, field_high (k := 10) _ _ (by decide) rfl, field_high (k := 5) _ _ (by decide) rfl, field_high (k := 0) _ _ (by decide) rfl]; exact BitVec.extractLsb'_eq_self
  have hd : decodeMap .X W = .ok (.yld a ta y) := by
    change decodeX W = _
    unfold decodeX; rw [h6]
    refine Eq.trans (b := zeroed (fld W 20 5 = 0 ∧ fld W 10 5 = 0 ∧ fld W 4 5 = 0) <| .ok (.yld (fld W 15 5) (flag W 9) (fld W 0 4))) rfl ?_
    rw [h0, h1, h2, h3, h4, h5]; rfl
  unfold decode; rw [hd]; exact if_pos hf

theorem yset (a : BitVec 5) (ta : Bool) (w : BitVec 3) (y : BitVec 4) : Statement (.yset a ta w y) := by
  intro k hk hf; cases hk; refine ⟨_, rfl, ?_⟩
  generalize hW : (0x10#7 ++ 0#5 ++ a ++ 0#5 ++ ofBool ta ++ 0#2 ++ w ++ y : Word32) = W
  have h0 : fld W 20 5 = 0#5 := by subst hW; unfold fld; rw [field_high (k := 16) _ _ (by decide) rfl, field_high (k := 13) _ _ (by decide) rfl, field_high (k := 11) _ _ (by decide) rfl, field_high (k := 10) _ _ (by decide) rfl, field_high (k := 5) _ _ (by decide) rfl, field_high (k := 0) _ _ (by decide) rfl]; exact field_low _ _
  have h1 : fld W 10 5 = 0#5 := by subst hW; unfold fld; rw [field_high (k := 6) _ _ (by decide) rfl, field_high (k := 3) _ _ (by decide) rfl, field_high (k := 1) _ _ (by decide) rfl, field_high (k := 0) _ _ (by decide) rfl]; exact field_low _ _
  have h2 : fld W 7 2 = 0#2 := by subst hW; unfold fld; rw [field_high (k := 3) _ _ (by decide) rfl, field_high (k := 0) _ _ (by decide) rfl]; exact field_low _ _
  have h3 : fld W 15 5 = a := by subst hW; unfold fld; rw [field_high (k := 11) _ _ (by decide) rfl, field_high (k := 8) _ _ (by decide) rfl, field_high (k := 6) _ _ (by decide) rfl, field_high (k := 5) _ _ (by decide) rfl, field_high (k := 0) _ _ (by decide) rfl]; exact field_low _ _
  have h4 : flag W 9 = ta := by subst hW; unfold flag; rw [bit_high (k := 5) _ _ (by decide) rfl, bit_high (k := 2) _ _ (by decide) rfl, bit_high (k := 0) _ _ (by decide) rfl]; exact bit_low _ _
  have h5 : fld W 4 3 = w := by subst hW; unfold fld; rw [field_high (k := 0) _ _ (by decide) rfl]; exact field_low _ _
  have h6 : fld W 0 4 = y := by subst hW; unfold fld; exact field_low _ _
  have h7 : fld W 25 7 = 0x10#7 := by subst hW; unfold fld; rw [field_high (k := 21) _ _ (by decide) rfl, field_high (k := 18) _ _ (by decide) rfl, field_high (k := 16) _ _ (by decide) rfl, field_high (k := 15) _ _ (by decide) rfl, field_high (k := 10) _ _ (by decide) rfl, field_high (k := 5) _ _ (by decide) rfl, field_high (k := 0) _ _ (by decide) rfl]; exact BitVec.extractLsb'_eq_self
  have hd : decodeMap .X W = .ok (.yset a ta w y) := by
    change decodeX W = _
    unfold decodeX; rw [h7]
    refine Eq.trans (b := zeroed (fld W 20 5 = 0 ∧ fld W 10 5 = 0 ∧ fld W 7 2 = 0) <| .ok (.yset (fld W 15 5) (flag W 9) (fld W 4 3) (fld W 0 4))) rfl ?_
    rw [h0, h1, h2, h3, h4, h5, h6]; rfl
  unfold decode; rw [hd]; exact if_pos hf

theorem cbset (a : BitVec 5) (ta : Bool) (n : BitVec 3) : Statement (.cbset a ta n) := by
  intro k hk hf; cases hk; refine ⟨_, rfl, ?_⟩
  generalize hW : (0x11#7 ++ 0#5 ++ a ++ 0#5 ++ ofBool ta ++ 0#6 ++ n : Word32) = W
  have h0 : fld W 20 5 = 0#5 := by subst hW; unfold fld; rw [field_high (k := 17) _ _ (by decide) rfl, field_high (k := 11) _ _ (by decide) rfl, field_high (k := 10) _ _ (by decide) rfl, field_high (k := 5) _ _ (by decide) rfl, field_high (k := 0) _ _ (by decide) rfl]; exact field_low _ _
  have h1 : fld W 10 5 = 0#5 := by subst hW; unfold fld; rw [field_high (k := 7) _ _ (by decide) rfl, field_high (k := 1) _ _ (by decide) rfl, field_high (k := 0) _ _ (by decide) rfl]; exact field_low _ _
  have h2 : fld W 3 6 = 0#6 := by subst hW; unfold fld; rw [field_high (k := 0) _ _ (by decide) rfl]; exact field_low _ _
  have h3 : fld W 15 5 = a := by subst hW; unfold fld; rw [field_high (k := 12) _ _ (by decide) rfl, field_high (k := 6) _ _ (by decide) rfl, field_high (k := 5) _ _ (by decide) rfl, field_high (k := 0) _ _ (by decide) rfl]; exact field_low _ _
  have h4 : flag W 9 = ta := by subst hW; unfold flag; rw [bit_high (k := 6) _ _ (by decide) rfl, bit_high (k := 0) _ _ (by decide) rfl]; exact bit_low _ _
  have h5 : fld W 0 3 = n := by subst hW; unfold fld; exact field_low _ _
  have h6 : fld W 25 7 = 0x11#7 := by subst hW; unfold fld; rw [field_high (k := 22) _ _ (by decide) rfl, field_high (k := 16) _ _ (by decide) rfl, field_high (k := 15) _ _ (by decide) rfl, field_high (k := 10) _ _ (by decide) rfl, field_high (k := 5) _ _ (by decide) rfl, field_high (k := 0) _ _ (by decide) rfl]; exact BitVec.extractLsb'_eq_self
  have hd : decodeMap .X W = .ok (.cbset a ta n) := by
    change decodeX W = _
    unfold decodeX; rw [h6]
    refine Eq.trans (b := zeroed (fld W 20 5 = 0 ∧ fld W 10 5 = 0 ∧ fld W 3 6 = 0) <| .ok (.cbset (fld W 15 5) (flag W 9) (fld W 0 3))) rfl ?_
    rw [h0, h1, h2, h3, h4, h5]; rfl
  unfold decode; rw [hd]; exact if_pos hf

theorem cbwait (d : BitVec 5) (n : BitVec 3) : Statement (.cbwait d n) := by
  intro k hk hf; cases hk; refine ⟨_, rfl, ?_⟩
  generalize hW : (0x12#7 ++ d ++ 0#17 ++ n : Word32) = W
  have h0 : fld W 3 17 = 0#17 := by subst hW; unfold fld; rw [field_high (k := 0) _ _ (by decide) rfl]; exact field_low _ _
  have h1 : fld W 20 5 = d := by subst hW; unfold fld; rw [field_high (k := 17) _ _ (by decide) rfl, field_high (k := 0) _ _ (by decide) rfl]; exact field_low _ _
  have h2 : fld W 0 3 = n := by subst hW; unfold fld; exact field_low _ _
  have h3 : fld W 25 7 = 0x12#7 := by subst hW; unfold fld; rw [field_high (k := 22) _ _ (by decide) rfl, field_high (k := 5) _ _ (by decide) rfl, field_high (k := 0) _ _ (by decide) rfl]; exact BitVec.extractLsb'_eq_self
  have hd : decodeMap .X W = .ok (.cbwait d n) := by
    change decodeX W = _
    unfold decodeX; rw [h3]
    refine Eq.trans (b := zeroed (fld W 3 17 = 0) <| .ok (.cbwait (fld W 20 5) (fld W 0 3))) rfl ?_
    rw [h0, h1, h2]; rfl
  unfold decode; rw [hd]; exact if_pos hf

theorem cbrel (n : BitVec 3) : Statement (.cbrel n) := by
  intro k hk hf; cases hk; refine ⟨_, rfl, ?_⟩
  generalize hW : (0x13#7 ++ 0#22 ++ n : Word32) = W
  have h0 : fld W 3 22 = 0#22 := by subst hW; unfold fld; rw [field_high (k := 0) _ _ (by decide) rfl]; exact field_low _ _
  have h1 : fld W 0 3 = n := by subst hW; unfold fld; exact field_low _ _
  have h2 : fld W 25 7 = 0x13#7 := by subst hW; unfold fld; rw [field_high (k := 22) _ _ (by decide) rfl, field_high (k := 0) _ _ (by decide) rfl]; exact BitVec.extractLsb'_eq_self
  have hd : decodeMap .X W = .ok (.cbrel n) := by
    change decodeX W = _
    unfold decodeX; rw [h2]
    refine Eq.trans (b := zeroed (fld W 3 22 = 0) <| .ok (.cbrel (fld W 0 3))) rfl ?_
    rw [h0, h1]; rfl
  unfold decode; rw [hd]; exact if_pos hf

theorem cqpush (a : BitVec 5) (ta : Bool) (ck : Bool) : Statement (.cqpush a ta ck) := by
  intro k hk hf; cases hk; refine ⟨_, rfl, ?_⟩
  generalize hW : (0x14#7 ++ 0#5 ++ a ++ 0#5 ++ ofBool ta ++ 0#1 ++ ofBool ck ++ 0#7 : Word32) = W
  have h0 : fld W 20 5 = 0#5 := by subst hW; unfold fld; rw [field_high (k := 13) _ _ (by decide) rfl, field_high (k := 12) _ _ (by decide) rfl, field_high (k := 11) _ _ (by decide) rfl, field_high (k := 10) _ _ (by decide) rfl, field_high (k := 5) _ _ (by decide) rfl, field_high (k := 0) _ _ (by decide) rfl]; exact field_low _ _
  have h1 : fld W 10 5 = 0#5 := by subst hW; unfold fld; rw [field_high (k := 3) _ _ (by decide) rfl, field_high (k := 2) _ _ (by decide) rfl, field_high (k := 1) _ _ (by decide) rfl, field_high (k := 0) _ _ (by decide) rfl]; exact field_low _ _
  have h2 : fld W 8 1 = 0#1 := by subst hW; unfold fld; rw [field_high (k := 1) _ _ (by decide) rfl, field_high (k := 0) _ _ (by decide) rfl]; exact field_low _ _
  have h3 : fld W 0 7 = 0#7 := by subst hW; unfold fld; exact field_low _ _
  have h4 : fld W 15 5 = a := by subst hW; unfold fld; rw [field_high (k := 8) _ _ (by decide) rfl, field_high (k := 7) _ _ (by decide) rfl, field_high (k := 6) _ _ (by decide) rfl, field_high (k := 5) _ _ (by decide) rfl, field_high (k := 0) _ _ (by decide) rfl]; exact field_low _ _
  have h5 : flag W 9 = ta := by subst hW; unfold flag; rw [bit_high (k := 2) _ _ (by decide) rfl, bit_high (k := 1) _ _ (by decide) rfl, bit_high (k := 0) _ _ (by decide) rfl]; exact bit_low _ _
  have h6 : flag W 7 = ck := by subst hW; unfold flag; rw [bit_high (k := 0) _ _ (by decide) rfl]; exact bit_low _ _
  have h7 : fld W 25 7 = 0x14#7 := by subst hW; unfold fld; rw [field_high (k := 18) _ _ (by decide) rfl, field_high (k := 17) _ _ (by decide) rfl, field_high (k := 16) _ _ (by decide) rfl, field_high (k := 15) _ _ (by decide) rfl, field_high (k := 10) _ _ (by decide) rfl, field_high (k := 5) _ _ (by decide) rfl, field_high (k := 0) _ _ (by decide) rfl]; exact BitVec.extractLsb'_eq_self
  have hd : decodeMap .X W = .ok (.cqpush a ta ck) := by
    change decodeX W = _
    unfold decodeX; rw [h7]
    refine Eq.trans (b := zeroed (fld W 20 5 = 0 ∧ fld W 10 5 = 0 ∧ fld W 8 1 = 0 ∧ fld W 0 7 = 0) <| .ok (.cqpush (fld W 15 5) (flag W 9) (flag W 7))) rfl ?_
    rw [h0, h1, h2, h3, h4, h5, h6]; rfl
  unfold decode; rw [hd]; exact if_pos hf

theorem tdec (a : BitVec 5) (ta : Bool) (ck : Bool) : Statement (.tdec a ta ck) := by
  intro k hk hf; cases hk; refine ⟨_, rfl, ?_⟩
  generalize hW : (0x15#7 ++ 0#5 ++ a ++ 0#5 ++ ofBool ta ++ 0#1 ++ ofBool ck ++ 0#7 : Word32) = W
  have h0 : fld W 20 5 = 0#5 := by subst hW; unfold fld; rw [field_high (k := 13) _ _ (by decide) rfl, field_high (k := 12) _ _ (by decide) rfl, field_high (k := 11) _ _ (by decide) rfl, field_high (k := 10) _ _ (by decide) rfl, field_high (k := 5) _ _ (by decide) rfl, field_high (k := 0) _ _ (by decide) rfl]; exact field_low _ _
  have h1 : fld W 10 5 = 0#5 := by subst hW; unfold fld; rw [field_high (k := 3) _ _ (by decide) rfl, field_high (k := 2) _ _ (by decide) rfl, field_high (k := 1) _ _ (by decide) rfl, field_high (k := 0) _ _ (by decide) rfl]; exact field_low _ _
  have h2 : fld W 8 1 = 0#1 := by subst hW; unfold fld; rw [field_high (k := 1) _ _ (by decide) rfl, field_high (k := 0) _ _ (by decide) rfl]; exact field_low _ _
  have h3 : fld W 0 7 = 0#7 := by subst hW; unfold fld; exact field_low _ _
  have h4 : fld W 15 5 = a := by subst hW; unfold fld; rw [field_high (k := 8) _ _ (by decide) rfl, field_high (k := 7) _ _ (by decide) rfl, field_high (k := 6) _ _ (by decide) rfl, field_high (k := 5) _ _ (by decide) rfl, field_high (k := 0) _ _ (by decide) rfl]; exact field_low _ _
  have h5 : flag W 9 = ta := by subst hW; unfold flag; rw [bit_high (k := 2) _ _ (by decide) rfl, bit_high (k := 1) _ _ (by decide) rfl, bit_high (k := 0) _ _ (by decide) rfl]; exact bit_low _ _
  have h6 : flag W 7 = ck := by subst hW; unfold flag; rw [bit_high (k := 0) _ _ (by decide) rfl]; exact bit_low _ _
  have h7 : fld W 25 7 = 0x15#7 := by subst hW; unfold fld; rw [field_high (k := 18) _ _ (by decide) rfl, field_high (k := 17) _ _ (by decide) rfl, field_high (k := 16) _ _ (by decide) rfl, field_high (k := 15) _ _ (by decide) rfl, field_high (k := 10) _ _ (by decide) rfl, field_high (k := 5) _ _ (by decide) rfl, field_high (k := 0) _ _ (by decide) rfl]; exact BitVec.extractLsb'_eq_self
  have hd : decodeMap .X W = .ok (.tdec a ta ck) := by
    change decodeX W = _
    unfold decodeX; rw [h7]
    refine Eq.trans (b := zeroed (fld W 20 5 = 0 ∧ fld W 10 5 = 0 ∧ fld W 8 1 = 0 ∧ fld W 0 7 = 0) <| .ok (.tdec (fld W 15 5) (flag W 9) (flag W 7))) rfl ?_
    rw [h0, h1, h2, h3, h4, h5, h6]; rfl
  unfold decode; rw [hd]; exact if_pos hf

theorem yield (y : BitVec 4) : Statement (.yield y) := by
  intro k hk hf; cases hk; refine ⟨_, rfl, ?_⟩
  generalize hW : (0x17#7 ++ 0#21 ++ y : Word32) = W
  have h0 : fld W 4 21 = 0#21 := by subst hW; unfold fld; rw [field_high (k := 0) _ _ (by decide) rfl]; exact field_low _ _
  have h1 : fld W 0 4 = y := by subst hW; unfold fld; exact field_low _ _
  have h2 : fld W 25 7 = 0x17#7 := by subst hW; unfold fld; rw [field_high (k := 21) _ _ (by decide) rfl, field_high (k := 0) _ _ (by decide) rfl]; exact BitVec.extractLsb'_eq_self
  have hd : decodeMap .X W = .ok (.yield y) := by
    change decodeX W = _
    unfold decodeX; rw [h2]
    refine Eq.trans (b := zeroed (fld W 4 21 = 0) <| .ok (.yield (fld W 0 4))) rfl ?_
    rw [h0, h1]; rfl
  unfold decode; rw [hd]; exact if_pos hf

theorem sqpush (a : BitVec 5) (b : BitVec 5) (ta : Bool) (tb : Bool) (ck : Bool) : Statement (.sqpush a b ta tb ck) := by
  intro k hk hf; cases hk; refine ⟨_, rfl, ?_⟩
  generalize hW : (0x18#7 ++ 0#5 ++ a ++ b ++ ofBool ta ++ ofBool tb ++ ofBool ck ++ 0#7 : Word32) = W
  have h0 : fld W 20 5 = 0#5 := by subst hW; unfold fld; rw [field_high (k := 13) _ _ (by decide) rfl, field_high (k := 12) _ _ (by decide) rfl, field_high (k := 11) _ _ (by decide) rfl, field_high (k := 10) _ _ (by decide) rfl, field_high (k := 5) _ _ (by decide) rfl, field_high (k := 0) _ _ (by decide) rfl]; exact field_low _ _
  have h1 : fld W 0 7 = 0#7 := by subst hW; unfold fld; exact field_low _ _
  have h2 : fld W 15 5 = a := by subst hW; unfold fld; rw [field_high (k := 8) _ _ (by decide) rfl, field_high (k := 7) _ _ (by decide) rfl, field_high (k := 6) _ _ (by decide) rfl, field_high (k := 5) _ _ (by decide) rfl, field_high (k := 0) _ _ (by decide) rfl]; exact field_low _ _
  have h3 : fld W 10 5 = b := by subst hW; unfold fld; rw [field_high (k := 3) _ _ (by decide) rfl, field_high (k := 2) _ _ (by decide) rfl, field_high (k := 1) _ _ (by decide) rfl, field_high (k := 0) _ _ (by decide) rfl]; exact field_low _ _
  have h4 : flag W 9 = ta := by subst hW; unfold flag; rw [bit_high (k := 2) _ _ (by decide) rfl, bit_high (k := 1) _ _ (by decide) rfl, bit_high (k := 0) _ _ (by decide) rfl]; exact bit_low _ _
  have h5 : flag W 8 = tb := by subst hW; unfold flag; rw [bit_high (k := 1) _ _ (by decide) rfl, bit_high (k := 0) _ _ (by decide) rfl]; exact bit_low _ _
  have h6 : flag W 7 = ck := by subst hW; unfold flag; rw [bit_high (k := 0) _ _ (by decide) rfl]; exact bit_low _ _
  have h7 : fld W 25 7 = 0x18#7 := by subst hW; unfold fld; rw [field_high (k := 18) _ _ (by decide) rfl, field_high (k := 17) _ _ (by decide) rfl, field_high (k := 16) _ _ (by decide) rfl, field_high (k := 15) _ _ (by decide) rfl, field_high (k := 10) _ _ (by decide) rfl, field_high (k := 5) _ _ (by decide) rfl, field_high (k := 0) _ _ (by decide) rfl]; exact BitVec.extractLsb'_eq_self
  have hd : decodeMap .X W = .ok (.sqpush a b ta tb ck) := by
    change decodeX W = _
    unfold decodeX; rw [h7]
    refine Eq.trans (b := zeroed (fld W 20 5 = 0 ∧ fld W 0 7 = 0) <| .ok (.sqpush (fld W 15 5) (fld W 10 5) (flag W 9) (flag W 8) (flag W 7))) rfl ?_
    rw [h0, h1, h2, h3, h4, h5, h6]; rfl
  unfold decode; rw [hd]; exact if_pos hf

theorem tktst (p : BitVec 4) : Statement (.tktst p) := by
  intro k hk hf; cases hk; refine ⟨_, rfl, ?_⟩
  generalize hW : (0x19#7 ++ 0#21 ++ p : Word32) = W
  have h0 : fld W 4 21 = 0#21 := by subst hW; unfold fld; rw [field_high (k := 0) _ _ (by decide) rfl]; exact field_low _ _
  have h1 : fld W 0 4 = p := by subst hW; unfold fld; exact field_low _ _
  have h2 : fld W 25 7 = 0x19#7 := by subst hW; unfold fld; rw [field_high (k := 21) _ _ (by decide) rfl, field_high (k := 0) _ _ (by decide) rfl]; exact BitVec.extractLsb'_eq_self
  have hd : decodeMap .X W = .ok (.tktst p) := by
    change decodeX W = _
    unfold decodeX; rw [h2]
    refine Eq.trans (b := zeroed (fld W 4 21 = 0) <| .ok (.tktst (fld W 0 4))) rfl ?_
    rw [h0, h1]; rfl
  unfold decode; rw [hd]; exact if_pos hf

theorem tkget (d : BitVec 5) : Statement (.tkget d) := by
  intro k hk hf; cases hk; refine ⟨_, rfl, ?_⟩
  generalize hW : (0x1a#7 ++ d ++ 0#20 : Word32) = W
  have h0 : fld W 0 20 = 0#20 := by subst hW; unfold fld; exact field_low _ _
  have h1 : fld W 20 5 = d := by subst hW; unfold fld; rw [field_high (k := 0) _ _ (by decide) rfl]; exact field_low _ _
  have h2 : fld W 25 7 = 0x1a#7 := by subst hW; unfold fld; rw [field_high (k := 5) _ _ (by decide) rfl, field_high (k := 0) _ _ (by decide) rfl]; exact BitVec.extractLsb'_eq_self
  have hd : decodeMap .X W = .ok (.tkget d) := by
    change decodeX W = _
    unfold decodeX; rw [h2]
    refine Eq.trans (b := zeroed (fld W 0 20 = 0) <| .ok (.tkget (fld W 20 5))) rfl ?_
    rw [h0, h1]; rfl
  unfold decode; rw [hd]; exact if_pos hf

theorem sxapp (a : BitVec 5) (b : BitVec 5) (ta : Bool) (tb : Bool) (ck : Bool) (cnt : BitVec 5) : Statement (.sxapp a b ta tb ck cnt) := by
  intro k hk hf; cases hk; refine ⟨_, rfl, ?_⟩
  generalize hW : (0x1b#7 ++ 0#5 ++ a ++ b ++ ofBool ta ++ ofBool tb ++ ofBool ck ++ 0#2 ++ cnt : Word32) = W
  have h0 : fld W 20 5 = 0#5 := by subst hW; unfold fld; rw [field_high (k := 15) _ _ (by decide) rfl, field_high (k := 13) _ _ (by decide) rfl, field_high (k := 12) _ _ (by decide) rfl, field_high (k := 11) _ _ (by decide) rfl, field_high (k := 10) _ _ (by decide) rfl, field_high (k := 5) _ _ (by decide) rfl, field_high (k := 0) _ _ (by decide) rfl]; exact field_low _ _
  have h1 : fld W 5 2 = 0#2 := by subst hW; unfold fld; rw [field_high (k := 0) _ _ (by decide) rfl]; exact field_low _ _
  have h2 : fld W 15 5 = a := by subst hW; unfold fld; rw [field_high (k := 10) _ _ (by decide) rfl, field_high (k := 8) _ _ (by decide) rfl, field_high (k := 7) _ _ (by decide) rfl, field_high (k := 6) _ _ (by decide) rfl, field_high (k := 5) _ _ (by decide) rfl, field_high (k := 0) _ _ (by decide) rfl]; exact field_low _ _
  have h3 : fld W 10 5 = b := by subst hW; unfold fld; rw [field_high (k := 5) _ _ (by decide) rfl, field_high (k := 3) _ _ (by decide) rfl, field_high (k := 2) _ _ (by decide) rfl, field_high (k := 1) _ _ (by decide) rfl, field_high (k := 0) _ _ (by decide) rfl]; exact field_low _ _
  have h4 : flag W 9 = ta := by subst hW; unfold flag; rw [bit_high (k := 4) _ _ (by decide) rfl, bit_high (k := 2) _ _ (by decide) rfl, bit_high (k := 1) _ _ (by decide) rfl, bit_high (k := 0) _ _ (by decide) rfl]; exact bit_low _ _
  have h5 : flag W 8 = tb := by subst hW; unfold flag; rw [bit_high (k := 3) _ _ (by decide) rfl, bit_high (k := 1) _ _ (by decide) rfl, bit_high (k := 0) _ _ (by decide) rfl]; exact bit_low _ _
  have h6 : flag W 7 = ck := by subst hW; unfold flag; rw [bit_high (k := 2) _ _ (by decide) rfl, bit_high (k := 0) _ _ (by decide) rfl]; exact bit_low _ _
  have h7 : fld W 0 5 = cnt := by subst hW; unfold fld; exact field_low _ _
  have h8 : fld W 25 7 = 0x1b#7 := by subst hW; unfold fld; rw [field_high (k := 20) _ _ (by decide) rfl, field_high (k := 18) _ _ (by decide) rfl, field_high (k := 17) _ _ (by decide) rfl, field_high (k := 16) _ _ (by decide) rfl, field_high (k := 15) _ _ (by decide) rfl, field_high (k := 10) _ _ (by decide) rfl, field_high (k := 5) _ _ (by decide) rfl, field_high (k := 0) _ _ (by decide) rfl]; exact BitVec.extractLsb'_eq_self
  have hd : decodeMap .X W = .ok (.sxapp a b ta tb ck cnt) := by
    change decodeX W = _
    unfold decodeX; rw [h8]
    refine Eq.trans (b := zeroed (fld W 20 5 = 0 ∧ fld W 5 2 = 0) <| .ok (.sxapp (fld W 15 5) (fld W 10 5) (flag W 9) (flag W 8) (flag W 7) (fld W 0 5))) rfl ?_
    rw [h0, h1, h2, h3, h4, h5, h6, h7]; rfl
  unfold decode; rw [hd]; exact if_pos hf

theorem sxqry (d : BitVec 5) (a : BitVec 5) (b : BitVec 5) (ta : Bool) (tb : Bool) (n : BitVec 5) : Statement (.sxqry d a b ta tb n) := by
  intro k hk hf; cases hk; refine ⟨_, rfl, ?_⟩
  generalize hW : (0x1c#7 ++ d ++ a ++ b ++ ofBool ta ++ ofBool tb ++ 0#3 ++ n : Word32) = W
  have h0 : fld W 5 3 = 0#3 := by subst hW; unfold fld; rw [field_high (k := 0) _ _ (by decide) rfl]; exact field_low _ _
  have h1 : fld W 20 5 = d := by subst hW; unfold fld; rw [field_high (k := 15) _ _ (by decide) rfl, field_high (k := 12) _ _ (by decide) rfl, field_high (k := 11) _ _ (by decide) rfl, field_high (k := 10) _ _ (by decide) rfl, field_high (k := 5) _ _ (by decide) rfl, field_high (k := 0) _ _ (by decide) rfl]; exact field_low _ _
  have h2 : fld W 15 5 = a := by subst hW; unfold fld; rw [field_high (k := 10) _ _ (by decide) rfl, field_high (k := 7) _ _ (by decide) rfl, field_high (k := 6) _ _ (by decide) rfl, field_high (k := 5) _ _ (by decide) rfl, field_high (k := 0) _ _ (by decide) rfl]; exact field_low _ _
  have h3 : fld W 10 5 = b := by subst hW; unfold fld; rw [field_high (k := 5) _ _ (by decide) rfl, field_high (k := 2) _ _ (by decide) rfl, field_high (k := 1) _ _ (by decide) rfl, field_high (k := 0) _ _ (by decide) rfl]; exact field_low _ _
  have h4 : flag W 9 = ta := by subst hW; unfold flag; rw [bit_high (k := 4) _ _ (by decide) rfl, bit_high (k := 1) _ _ (by decide) rfl, bit_high (k := 0) _ _ (by decide) rfl]; exact bit_low _ _
  have h5 : flag W 8 = tb := by subst hW; unfold flag; rw [bit_high (k := 3) _ _ (by decide) rfl, bit_high (k := 0) _ _ (by decide) rfl]; exact bit_low _ _
  have h6 : fld W 0 5 = n := by subst hW; unfold fld; exact field_low _ _
  have h7 : fld W 25 7 = 0x1c#7 := by subst hW; unfold fld; rw [field_high (k := 20) _ _ (by decide) rfl, field_high (k := 17) _ _ (by decide) rfl, field_high (k := 16) _ _ (by decide) rfl, field_high (k := 15) _ _ (by decide) rfl, field_high (k := 10) _ _ (by decide) rfl, field_high (k := 5) _ _ (by decide) rfl, field_high (k := 0) _ _ (by decide) rfl]; exact BitVec.extractLsb'_eq_self
  have hd : decodeMap .X W = .ok (.sxqry d a b ta tb n) := by
    change decodeX W = _
    unfold decodeX; rw [h7]
    refine Eq.trans (b := zeroed (fld W 5 3 = 0) <| .ok (.sxqry (fld W 20 5) (fld W 15 5) (fld W 10 5) (flag W 9) (flag W 8) (fld W 0 5))) rfl ?_
    rw [h0, h1, h2, h3, h4, h5, h6]; rfl
  unfold decode; rw [hd]; exact if_pos hf

theorem sxcfg (a : BitVec 5) (b : BitVec 5) (ta : Bool) (tb : Bool) : Statement (.sxcfg a b ta tb) := by
  intro k hk hf; cases hk; refine ⟨_, rfl, ?_⟩
  generalize hW : (0x1d#7 ++ 0#5 ++ a ++ b ++ ofBool ta ++ ofBool tb ++ 0#8 : Word32) = W
  have h0 : fld W 20 5 = 0#5 := by subst hW; unfold fld; rw [field_high (k := 12) _ _ (by decide) rfl, field_high (k := 11) _ _ (by decide) rfl, field_high (k := 10) _ _ (by decide) rfl, field_high (k := 5) _ _ (by decide) rfl, field_high (k := 0) _ _ (by decide) rfl]; exact field_low _ _
  have h1 : fld W 0 8 = 0#8 := by subst hW; unfold fld; exact field_low _ _
  have h2 : fld W 15 5 = a := by subst hW; unfold fld; rw [field_high (k := 7) _ _ (by decide) rfl, field_high (k := 6) _ _ (by decide) rfl, field_high (k := 5) _ _ (by decide) rfl, field_high (k := 0) _ _ (by decide) rfl]; exact field_low _ _
  have h3 : fld W 10 5 = b := by subst hW; unfold fld; rw [field_high (k := 2) _ _ (by decide) rfl, field_high (k := 1) _ _ (by decide) rfl, field_high (k := 0) _ _ (by decide) rfl]; exact field_low _ _
  have h4 : flag W 9 = ta := by subst hW; unfold flag; rw [bit_high (k := 1) _ _ (by decide) rfl, bit_high (k := 0) _ _ (by decide) rfl]; exact bit_low _ _
  have h5 : flag W 8 = tb := by subst hW; unfold flag; rw [bit_high (k := 0) _ _ (by decide) rfl]; exact bit_low _ _
  have h6 : fld W 25 7 = 0x1d#7 := by subst hW; unfold fld; rw [field_high (k := 17) _ _ (by decide) rfl, field_high (k := 16) _ _ (by decide) rfl, field_high (k := 15) _ _ (by decide) rfl, field_high (k := 10) _ _ (by decide) rfl, field_high (k := 5) _ _ (by decide) rfl, field_high (k := 0) _ _ (by decide) rfl]; exact BitVec.extractLsb'_eq_self
  have hd : decodeMap .X W = .ok (.sxcfg a b ta tb) := by
    change decodeX W = _
    unfold decodeX; rw [h6]
    refine Eq.trans (b := zeroed (fld W 20 5 = 0 ∧ fld W 0 8 = 0) <| .ok (.sxcfg (fld W 15 5) (fld W 10 5) (flag W 9) (flag W 8))) rfl ?_
    rw [h0, h1, h2, h3, h4, h5]; rfl
  unfold decode; rw [hd]; exact if_pos hf

theorem sxsave (a : BitVec 5) (b : BitVec 5) (ta : Bool) (tb : Bool) : Statement (.sxsave a b ta tb) := by
  intro k hk hf; cases hk; refine ⟨_, rfl, ?_⟩
  generalize hW : (0x1e#7 ++ 0#5 ++ a ++ b ++ ofBool ta ++ ofBool tb ++ 0#8 : Word32) = W
  have h0 : fld W 20 5 = 0#5 := by subst hW; unfold fld; rw [field_high (k := 12) _ _ (by decide) rfl, field_high (k := 11) _ _ (by decide) rfl, field_high (k := 10) _ _ (by decide) rfl, field_high (k := 5) _ _ (by decide) rfl, field_high (k := 0) _ _ (by decide) rfl]; exact field_low _ _
  have h1 : fld W 0 8 = 0#8 := by subst hW; unfold fld; exact field_low _ _
  have h2 : fld W 15 5 = a := by subst hW; unfold fld; rw [field_high (k := 7) _ _ (by decide) rfl, field_high (k := 6) _ _ (by decide) rfl, field_high (k := 5) _ _ (by decide) rfl, field_high (k := 0) _ _ (by decide) rfl]; exact field_low _ _
  have h3 : fld W 10 5 = b := by subst hW; unfold fld; rw [field_high (k := 2) _ _ (by decide) rfl, field_high (k := 1) _ _ (by decide) rfl, field_high (k := 0) _ _ (by decide) rfl]; exact field_low _ _
  have h4 : flag W 9 = ta := by subst hW; unfold flag; rw [bit_high (k := 1) _ _ (by decide) rfl, bit_high (k := 0) _ _ (by decide) rfl]; exact bit_low _ _
  have h5 : flag W 8 = tb := by subst hW; unfold flag; rw [bit_high (k := 0) _ _ (by decide) rfl]; exact bit_low _ _
  have h6 : fld W 25 7 = 0x1e#7 := by subst hW; unfold fld; rw [field_high (k := 17) _ _ (by decide) rfl, field_high (k := 16) _ _ (by decide) rfl, field_high (k := 15) _ _ (by decide) rfl, field_high (k := 10) _ _ (by decide) rfl, field_high (k := 5) _ _ (by decide) rfl, field_high (k := 0) _ _ (by decide) rfl]; exact BitVec.extractLsb'_eq_self
  have hd : decodeMap .X W = .ok (.sxsave a b ta tb) := by
    change decodeX W = _
    unfold decodeX; rw [h6]
    refine Eq.trans (b := zeroed (fld W 20 5 = 0 ∧ fld W 0 8 = 0) <| .ok (.sxsave (fld W 15 5) (fld W 10 5) (flag W 9) (flag W 8))) rfl ?_
    rw [h0, h1, h2, h3, h4, h5]; rfl
  unfold decode; rw [hd]; exact if_pos hf

theorem sxload (a : BitVec 5) (b : BitVec 5) (ta : Bool) (tb : Bool) : Statement (.sxload a b ta tb) := by
  intro k hk hf; cases hk; refine ⟨_, rfl, ?_⟩
  generalize hW : (0x1f#7 ++ 0#5 ++ a ++ b ++ ofBool ta ++ ofBool tb ++ 0#8 : Word32) = W
  have h0 : fld W 20 5 = 0#5 := by subst hW; unfold fld; rw [field_high (k := 12) _ _ (by decide) rfl, field_high (k := 11) _ _ (by decide) rfl, field_high (k := 10) _ _ (by decide) rfl, field_high (k := 5) _ _ (by decide) rfl, field_high (k := 0) _ _ (by decide) rfl]; exact field_low _ _
  have h1 : fld W 0 8 = 0#8 := by subst hW; unfold fld; exact field_low _ _
  have h2 : fld W 15 5 = a := by subst hW; unfold fld; rw [field_high (k := 7) _ _ (by decide) rfl, field_high (k := 6) _ _ (by decide) rfl, field_high (k := 5) _ _ (by decide) rfl, field_high (k := 0) _ _ (by decide) rfl]; exact field_low _ _
  have h3 : fld W 10 5 = b := by subst hW; unfold fld; rw [field_high (k := 2) _ _ (by decide) rfl, field_high (k := 1) _ _ (by decide) rfl, field_high (k := 0) _ _ (by decide) rfl]; exact field_low _ _
  have h4 : flag W 9 = ta := by subst hW; unfold flag; rw [bit_high (k := 1) _ _ (by decide) rfl, bit_high (k := 0) _ _ (by decide) rfl]; exact bit_low _ _
  have h5 : flag W 8 = tb := by subst hW; unfold flag; rw [bit_high (k := 0) _ _ (by decide) rfl]; exact bit_low _ _
  have h6 : fld W 25 7 = 0x1f#7 := by subst hW; unfold fld; rw [field_high (k := 17) _ _ (by decide) rfl, field_high (k := 16) _ _ (by decide) rfl, field_high (k := 15) _ _ (by decide) rfl, field_high (k := 10) _ _ (by decide) rfl, field_high (k := 5) _ _ (by decide) rfl, field_high (k := 0) _ _ (by decide) rfl]; exact BitVec.extractLsb'_eq_self
  have hd : decodeMap .X W = .ok (.sxload a b ta tb) := by
    change decodeX W = _
    unfold decodeX; rw [h6]
    refine Eq.trans (b := zeroed (fld W 20 5 = 0 ∧ fld W 0 8 = 0) <| .ok (.sxload (fld W 15 5) (fld W 10 5) (flag W 9) (flag W 8))) rfl ?_
    rw [h0, h1, h2, h3, h4, h5]; rfl
  unfold decode; rw [hd]; exact if_pos hf

theorem sxstat (d : BitVec 5) (a : BitVec 5) (ta : Bool) : Statement (.sxstat d a ta) := by
  intro k hk hf; cases hk; refine ⟨_, rfl, ?_⟩
  generalize hW : (0x20#7 ++ d ++ a ++ 0#5 ++ ofBool ta ++ 0#9 : Word32) = W
  have h0 : fld W 10 5 = 0#5 := by subst hW; unfold fld; rw [field_high (k := 1) _ _ (by decide) rfl, field_high (k := 0) _ _ (by decide) rfl]; exact field_low _ _
  have h1 : fld W 0 9 = 0#9 := by subst hW; unfold fld; exact field_low _ _
  have h2 : fld W 20 5 = d := by subst hW; unfold fld; rw [field_high (k := 11) _ _ (by decide) rfl, field_high (k := 10) _ _ (by decide) rfl, field_high (k := 5) _ _ (by decide) rfl, field_high (k := 0) _ _ (by decide) rfl]; exact field_low _ _
  have h3 : fld W 15 5 = a := by subst hW; unfold fld; rw [field_high (k := 6) _ _ (by decide) rfl, field_high (k := 5) _ _ (by decide) rfl, field_high (k := 0) _ _ (by decide) rfl]; exact field_low _ _
  have h4 : flag W 9 = ta := by subst hW; unfold flag; rw [bit_high (k := 0) _ _ (by decide) rfl]; exact bit_low _ _
  have h5 : fld W 25 7 = 0x20#7 := by subst hW; unfold fld; rw [field_high (k := 16) _ _ (by decide) rfl, field_high (k := 15) _ _ (by decide) rfl, field_high (k := 10) _ _ (by decide) rfl, field_high (k := 5) _ _ (by decide) rfl, field_high (k := 0) _ _ (by decide) rfl]; exact BitVec.extractLsb'_eq_self
  have hd : decodeMap .X W = .ok (.sxstat d a ta) := by
    change decodeX W = _
    unfold decodeX; rw [h5]
    refine Eq.trans (b := zeroed (fld W 10 5 = 0 ∧ fld W 0 9 = 0) <| .ok (.sxstat (fld W 20 5) (fld W 15 5) (flag W 9))) rfl ?_
    rw [h0, h1, h2, h3, h4]; rfl
  unfold decode; rw [hd]; exact if_pos hf

theorem evsel (a : BitVec 5) (ta : Bool) (n : BitVec 3) : Statement (.evsel a ta n) := by
  intro k hk hf; cases hk; refine ⟨_, rfl, ?_⟩
  generalize hW : (0x21#7 ++ 0#5 ++ a ++ 0#5 ++ ofBool ta ++ 0#6 ++ n : Word32) = W
  have h0 : fld W 20 5 = 0#5 := by subst hW; unfold fld; rw [field_high (k := 17) _ _ (by decide) rfl, field_high (k := 11) _ _ (by decide) rfl, field_high (k := 10) _ _ (by decide) rfl, field_high (k := 5) _ _ (by decide) rfl, field_high (k := 0) _ _ (by decide) rfl]; exact field_low _ _
  have h1 : fld W 10 5 = 0#5 := by subst hW; unfold fld; rw [field_high (k := 7) _ _ (by decide) rfl, field_high (k := 1) _ _ (by decide) rfl, field_high (k := 0) _ _ (by decide) rfl]; exact field_low _ _
  have h2 : fld W 3 6 = 0#6 := by subst hW; unfold fld; rw [field_high (k := 0) _ _ (by decide) rfl]; exact field_low _ _
  have h3 : fld W 15 5 = a := by subst hW; unfold fld; rw [field_high (k := 12) _ _ (by decide) rfl, field_high (k := 6) _ _ (by decide) rfl, field_high (k := 5) _ _ (by decide) rfl, field_high (k := 0) _ _ (by decide) rfl]; exact field_low _ _
  have h4 : flag W 9 = ta := by subst hW; unfold flag; rw [bit_high (k := 6) _ _ (by decide) rfl, bit_high (k := 0) _ _ (by decide) rfl]; exact bit_low _ _
  have h5 : fld W 0 3 = n := by subst hW; unfold fld; exact field_low _ _
  have h6 : fld W 25 7 = 0x21#7 := by subst hW; unfold fld; rw [field_high (k := 22) _ _ (by decide) rfl, field_high (k := 16) _ _ (by decide) rfl, field_high (k := 15) _ _ (by decide) rfl, field_high (k := 10) _ _ (by decide) rfl, field_high (k := 5) _ _ (by decide) rfl, field_high (k := 0) _ _ (by decide) rfl]; exact BitVec.extractLsb'_eq_self
  have hd : decodeMap .X W = .ok (.evsel a ta n) := by
    change decodeX W = _
    unfold decodeX; rw [h6]
    refine Eq.trans (b := zeroed (fld W 20 5 = 0 ∧ fld W 10 5 = 0 ∧ fld W 3 6 = 0) <| .ok (.evsel (fld W 15 5) (flag W 9) (fld W 0 3))) rfl ?_
    rw [h0, h1, h2, h3, h4, h5]; rfl
  unfold decode; rw [hd]; exact if_pos hf

theorem sqpop (d : BitVec 5) : Statement (.sqpop d) := by
  intro k hk hf; cases hk; refine ⟨_, rfl, ?_⟩
  generalize hW : (0x22#7 ++ d ++ 0#20 : Word32) = W
  have h0 : fld W 0 20 = 0#20 := by subst hW; unfold fld; exact field_low _ _
  have h1 : fld W 20 5 = d := by subst hW; unfold fld; rw [field_high (k := 0) _ _ (by decide) rfl]; exact field_low _ _
  have h2 : fld W 25 7 = 0x22#7 := by subst hW; unfold fld; rw [field_high (k := 5) _ _ (by decide) rfl, field_high (k := 0) _ _ (by decide) rfl]; exact BitVec.extractLsb'_eq_self
  have hd : decodeMap .X W = .ok (.sqpop d) := by
    change decodeX W = _
    unfold decodeX; rw [h2]
    refine Eq.trans (b := zeroed (fld W 0 20 = 0) <| .ok (.sqpop (fld W 20 5))) rfl ?_
    rw [h0, h1]; rfl
  unfold decode; rw [hd]; exact if_pos hf

theorem tkput (a : BitVec 5) (b : BitVec 5) (ta : Bool) (tb : Bool) : Statement (.tkput a b ta tb) := by
  intro k hk hf; cases hk; refine ⟨_, rfl, ?_⟩
  generalize hW : (0x23#7 ++ 0#5 ++ a ++ b ++ ofBool ta ++ ofBool tb ++ 0#8 : Word32) = W
  have h0 : fld W 20 5 = 0#5 := by subst hW; unfold fld; rw [field_high (k := 12) _ _ (by decide) rfl, field_high (k := 11) _ _ (by decide) rfl, field_high (k := 10) _ _ (by decide) rfl, field_high (k := 5) _ _ (by decide) rfl, field_high (k := 0) _ _ (by decide) rfl]; exact field_low _ _
  have h1 : fld W 0 8 = 0#8 := by subst hW; unfold fld; exact field_low _ _
  have h2 : fld W 15 5 = a := by subst hW; unfold fld; rw [field_high (k := 7) _ _ (by decide) rfl, field_high (k := 6) _ _ (by decide) rfl, field_high (k := 5) _ _ (by decide) rfl, field_high (k := 0) _ _ (by decide) rfl]; exact field_low _ _
  have h3 : fld W 10 5 = b := by subst hW; unfold fld; rw [field_high (k := 2) _ _ (by decide) rfl, field_high (k := 1) _ _ (by decide) rfl, field_high (k := 0) _ _ (by decide) rfl]; exact field_low _ _
  have h4 : flag W 9 = ta := by subst hW; unfold flag; rw [bit_high (k := 1) _ _ (by decide) rfl, bit_high (k := 0) _ _ (by decide) rfl]; exact bit_low _ _
  have h5 : flag W 8 = tb := by subst hW; unfold flag; rw [bit_high (k := 0) _ _ (by decide) rfl]; exact bit_low _ _
  have h6 : fld W 25 7 = 0x23#7 := by subst hW; unfold fld; rw [field_high (k := 17) _ _ (by decide) rfl, field_high (k := 16) _ _ (by decide) rfl, field_high (k := 15) _ _ (by decide) rfl, field_high (k := 10) _ _ (by decide) rfl, field_high (k := 5) _ _ (by decide) rfl, field_high (k := 0) _ _ (by decide) rfl]; exact BitVec.extractLsb'_eq_self
  have hd : decodeMap .X W = .ok (.tkput a b ta tb) := by
    change decodeX W = _
    unfold decodeX; rw [h6]
    refine Eq.trans (b := zeroed (fld W 20 5 = 0 ∧ fld W 0 8 = 0) <| .ok (.tkput (fld W 15 5) (fld W 10 5) (flag W 9) (flag W 8))) rfl ?_
    rw [h0, h1, h2, h3, h4, h5]; rfl
  unfold decode; rw [hd]; exact if_pos hf

theorem fixedLatencyLanding (c : CoreRef) : Statement (.fixedLatencyLanding c) := by
  intro k hk; cases hk

theorem variableLatencyLanding (c : CoreRef) (k : Nat) : Statement (.variableLatencyLanding c k) := by
  intro k hk; cases hk

theorem scratchpadStorePerform (c : CoreRef) : Statement (.scratchpadStorePerform c) := by
  intro k hk; cases hk

theorem writePerformAtHome (c : CoreRef) (k : Nat) : Statement (.writePerformAtHome c k) := by
  intro k hk; cases hk

theorem remoteSemaddArrival (c : CoreRef) (k : Nat) : Statement (.remoteSemaddArrival c k) := by
  intro k hk; cases hk

theorem tokenLanding (c : CoreRef) : Statement (.tokenLanding c) := by
  intro k hk; cases hk

theorem suffixOpPerform (die : BitVec 2) (k : Nat) : Statement (.suffixOpPerform die k) := by
  intro k hk; cases hk

theorem pageWalk (die : BitVec 2) : Statement (.pageWalk die) := by
  intro k hk; cases hk

theorem imemReload (c : CoreRef) : Statement (.imemReload c) := by
  intro k hk; cases hk

theorem engineDispatch (c : CoreRef) (e : Eng) : Statement (.engineDispatch c e) := by
  intro k hk; cases hk

theorem engineRetire (c : CoreRef) (k : Nat) : Statement (.engineRetire c k) := by
  intro k hk; cases hk

theorem gatherPartReply (c : CoreRef) (k : Nat) (owner : BitVec 2) : Statement (.gatherPartReply c k owner) := by
  intro k hk; cases hk

theorem chunkReceive (die : BitVec 2) (group : BitVec 6) (stage : Bool) (src : BitVec 8) (chunk : Nat) (good : Bool) (data : List (BitVec 32)) : Statement (.chunkReceive die group stage src chunk good data) := by
  intro k hk; cases hk

theorem taskDecrement (k : Nat) : Statement (.taskDecrement k) := by
  intro k hk; cases hk

theorem schedulerPlace (die : BitVec 2) (core : BitVec 8) : Statement (.schedulerPlace die core) := by
  intro k hk; cases hk

theorem dieFreeRequest (die : BitVec 2) (core : BitVec 8) : Statement (.dieFreeRequest die core) := by
  intro k hk; cases hk

theorem phaseSliceExpiry (die : BitVec 2) : Statement (.phaseSliceExpiry die) := by
  intro k hk; cases hk

theorem quantumExpiry (c : CoreRef) : Statement (.quantumExpiry c) := by
  intro k hk; cases hk

theorem taskRetire (c : CoreRef) : Statement (.taskRetire c) := by
  intro k hk; cases hk

theorem trapEntry (c : CoreRef) (cause : BitVec 8) (val : BitVec 64) : Statement (.trapEntry c cause val) := by
  intro k hk; cases hk

theorem taskKill (c : CoreRef) : Statement (.taskKill c) := by
  intro k hk; cases hk

theorem taskSuspend (c : CoreRef) : Statement (.taskSuspend c) := by
  intro k hk; cases hk

theorem yieldRequeue (c : CoreRef) : Statement (.yieldRequeue c) := by
  intro k hk; cases hk

theorem checkpointSnapshot (c : CoreRef) : Statement (.checkpointSnapshot c) := by
  intro k hk; cases hk

theorem datapathError (c : CoreRef) : Statement (.datapathError c) := by
  intro k hk; cases hk

theorem pageMigration (va : BitVec 48) (frame : BitVec 36) : Statement (.pageMigration va frame) := by
  intro k hk; cases hk

theorem linkDown (die : BitVec 2) (link : Bool) : Statement (.linkDown die link) := by
  intro k hk; cases hk

theorem functionReady (die : BitVec 2) (bit : BitVec 5) : Statement (.functionReady die bit) := by
  intro k hk; cases hk

theorem powerLimitChange (die : BitVec 2) (isl : BitVec 5) (cur : BitVec 2) : Statement (.powerLimitChange die isl cur) := by
  intro k hk; cases hk

theorem hostMemWrite (pa : BitVec 52) (data : List Byte) : Statement (.hostMemWrite pa data) := by
  intro k hk; cases hk

theorem hostMemRead (pa : BitVec 52) (len : Nat) : Statement (.hostMemRead pa len) := by
  intro k hk; cases hk

theorem hifErrClear (v : Word) : Statement (.hifErrClear v) := by
  intro k hk; cases hk

theorem featureAcceptWrite (i : BitVec 2) (v : Word) : Statement (.featureAcceptWrite i v) := by
  intro k hk; cases hk

theorem hifTdecWrite (size : Nat) (v : Word) : Statement (.hifTdecWrite size v) := by
  intro k hk; cases hk

theorem ptrootWrite (v : Word) : Statement (.ptrootWrite v) := by
  intro k hk; cases hk

theorem tlbInvalidateVpn (vpn : BitVec 32) : Statement (.tlbInvalidateVpn vpn) := by
  intro k hk; cases hk

theorem l2SplitWrite (die : BitVec 2) (v : Word) : Statement (.l2SplitWrite die v) := by
  intro k hk; cases hk

theorem l2SplitApply (die : BitVec 2) : Statement (.l2SplitApply die) := by
  intro k hk; cases hk

theorem fabricRankWrite (reg : BitVec 3) (v : Word) : Statement (.fabricRankWrite reg v) := by
  intro k hk; cases hk

theorem keyLoad (slot : BitVec 6) : Statement (.keyLoad slot) := by
  intro k hk; cases hk

theorem keyClear (slot : BitVec 6) : Statement (.keyClear slot) := by
  intro k hk; cases hk

theorem compStart (n : BitVec 6) (v : Word) : Statement (.compStart n v) := by
  intro k hk; cases hk

theorem poisonClear (v : Word) : Statement (.poisonClear v) := by
  intro k hk; cases hk

theorem fgrpWrite (g : BitVec 6) (v : Word) : Statement (.fgrpWrite g v) := by
  intro k hk; cases hk

theorem devselWrite (die : BitVec 2) (i : BitVec 4) (v : Word) : Statement (.devselWrite die i v) := by
  intro k hk; cases hk

theorem ckeSaveStart (v : Word) : Statement (.ckeSaveStart v) := by
  intro k hk; cases hk

theorem ckeRestoreStart (v : Word) : Statement (.ckeRestoreStart v) := by
  intro k hk; cases hk

theorem islRequestWrite (die : BitVec 2) (isl : BitVec 5) (v : Word) : Statement (.islRequestWrite die isl v) := by
  intro k hk; cases hk

theorem hifRegisterWrite (off : BitVec 16) (size : Nat) (v : Word) : Statement (.hifRegisterWrite off size v) := by
  intro k hk; cases hk

theorem faultRingRoom (die : BitVec 2) : Statement (.faultRingRoom die) := by
  intro k hk; cases hk

theorem poisonedAcknowledgementPath (c : CoreRef) : Statement (.poisonedAcknowledgementPath c) := by
  intro k hk; cases hk

theorem nop : Statement (.nop) := by
  intro k hk hf; cases hk; exact ⟨0, rfl, rfl⟩

theorem ret : Statement (.ret) := by
  intro k hk hf; cases hk; refine ⟨_, rfl, ?_⟩
  generalize hW : (0x1d#7 ++ 0#17 ++ 2#8 : Word32) = W
  have h0 : fld W 8 17 = 0#17 := by subst hW; unfold fld; rw [field_high (k := 0) _ _ (by decide) rfl]; exact field_low _ _
  have h1 : fld W 25 7 = 0x1d#7 := by subst hW; unfold fld; rw [field_high (k := 17) _ _ (by decide) rfl, field_high (k := 0) _ _ (by decide) rfl]; exact BitVec.extractLsb'_eq_self
  have h2 : fld W 0 8 = 2#8 := by subst hW; unfold fld; exact field_low _ _
  have hd : decodeMap .S W = .ok (.ret) := by
    change decodeS W = _
    unfold decodeS; rw [h1]
    change decodeS1D W = _
    unfold decodeS1D; rw [h2]
    refine Eq.trans (b := zeroed (fld W 8 17 = 0) <| .ok (.ret)) rfl ?_
    rw [h0]; rfl
  unfold decode; rw [hd]; exact if_pos hf

theorem clrrb : Statement (.clrrb) := by
  intro k hk hf; cases hk; refine ⟨_, rfl, ?_⟩
  generalize hW : (0x20#7 ++ 2#5 ++ 0#20 : Word32) = W
  have h0 : fld W 0 20 = 0#20 := by subst hW; unfold fld; exact field_low _ _
  have h1 : fld W 25 7 = 0x20#7 := by subst hW; unfold fld; rw [field_high (k := 5) _ _ (by decide) rfl, field_high (k := 0) _ _ (by decide) rfl]; exact BitVec.extractLsb'_eq_self
  have h2 : fld W 20 5 = 2#5 := by subst hW; unfold fld; rw [field_high (k := 0) _ _ (by decide) rfl]; exact field_low _ _
  have hd : decodeMap .S W = .ok (.clrrb) := by
    change decodeS W = _
    unfold decodeS; rw [h1]
    change decodeS20 W = _
    unfold decodeS20; rw [h2]
    refine Eq.trans (b := zeroed (fld W 0 20 = 0) <| .ok (.clrrb)) rfl ?_
    rw [h0]; rfl
  unfold decode; rw [hd]; exact if_pos hf

theorem rett : Statement (.rett) := by
  intro k hk hf; cases hk; refine ⟨_, rfl, ?_⟩
  generalize hW : (0x25#7 ++ 0#25 : Word32) = W
  have h0 : fld W 0 25 = 0#25 := by subst hW; unfold fld; exact field_low _ _
  have h1 : fld W 25 7 = 0x25#7 := by subst hW; unfold fld; rw [field_high (k := 0) _ _ (by decide) rfl]; exact BitVec.extractLsb'_eq_self
  have hd : decodeMap .S W = .ok (.rett) := by
    change decodeS W = _
    unfold decodeS; rw [h1]
    refine Eq.trans (b := zeroed (fld W 0 25 = 0) <| .ok (.rett)) rfl ?_
    rw [h0]; rfl
  unfold decode; rw [hd]; exact if_pos hf

theorem endTask : Statement (.endTask) := by
  intro k hk hf; cases hk; refine ⟨_, rfl, ?_⟩
  generalize hW : (0x26#7 ++ 0#25 : Word32) = W
  have h0 : fld W 0 25 = 0#25 := by subst hW; unfold fld; exact field_low _ _
  have h1 : fld W 25 7 = 0x26#7 := by subst hW; unfold fld; rw [field_high (k := 0) _ _ (by decide) rfl]; exact BitVec.extractLsb'_eq_self
  have hd : decodeMap .S W = .ok (.endTask) := by
    change decodeS W = _
    unfold decodeS; rw [h1]
    refine Eq.trans (b := zeroed (fld W 0 25 = 0) <| .ok (.endTask)) rfl ?_
    rw [h0]; rfl
  unfold decode; rw [hd]; exact if_pos hf

theorem ckpt : Statement (.ckpt) := by
  intro k hk hf; cases hk; refine ⟨_, rfl, ?_⟩
  generalize hW : (0x16#7 ++ 0#25 : Word32) = W
  have h0 : fld W 0 25 = 0#25 := by subst hW; unfold fld; exact field_low _ _
  have h1 : fld W 25 7 = 0x16#7 := by subst hW; unfold fld; rw [field_high (k := 0) _ _ (by decide) rfl]; exact BitVec.extractLsb'_eq_self
  have hd : decodeMap .X W = .ok (.ckpt) := by
    change decodeX W = _
    unfold decodeX; rw [h1]
    refine Eq.trans (b := zeroed (fld W 0 25 = 0) <| .ok (.ckpt)) rfl ?_
    rw [h0]; rfl
  unfold decode; rw [hd]; exact if_pos hf

theorem fwload : Statement (.fwload) := by
  intro k hk; cases hk

theorem reset : Statement (.reset) := by
  intro k hk; cases hk

theorem run : Statement (.run) := by
  intro k hk; cases hk

theorem hifTdecQueueHead : Statement (.hifTdecQueueHead) := by
  intro k hk; cases hk

theorem tlbInvalidateAll : Statement (.tlbInvalidateAll) := by
  intro k hk; cases hk

theorem tlbInvalidationDone : Statement (.tlbInvalidationDone) := by
  intro k hk; cases hk

theorem keyCommandDone : Statement (.keyCommandDone) := by
  intro k hk; cases hk

theorem poisonClearDone : Statement (.poisonClearDone) := by
  intro k hk; cases hk

theorem ckeAbort : Statement (.ckeAbort) := by
  intro k hk; cases hk

theorem ckeRunBegin : Statement (.ckeRunBegin) := by
  intro k hk; cases hk

theorem ckeRunEnd : Statement (.ckeRunEnd) := by
  intro k hk; cases hk

end Sys2Proof.Laws.RoundTrip
end

