-- ==== Sys2Proof/Safety.lean ====
section
/-! DEFINITION. What a run's safety means, in the terms the statements use. -/

namespace Sys2Proof.Machine

open Sys2Proof

/-- A step that answers a next state. -/
def Answers (o : Out State) (s' : State) : Prop := o = .next s'

/-- The memories of the machine keep their canonical form. -/
def MemoryOk (s : State) : Prop := Memory.wf s.mem = true

end Sys2Proof.Machine
end

