-- ==== Sys2Proof/Certificates/Slice0/Obligations.lean ====
section
/-! DEFINITION. The statements about the machine, and the few words that they share: which registers an operation needs, and the
state in which it leaves the machine. Each docstring names the rules of spec/ behind the statement. -/

open Sys2Proof Sys2Proof.Machine

/-! ### The words of the statements -/

/-- A register operand: an S or an A register, with the trap-if-empty bit of its field (false where the field has none). -/
structure Sys2Proof.Claims.Operand where
  isA  : Bool
  n    : BitVec 5
  trap : Bool

/-- An S operand. -/
def Sys2Proof.Claims.S (n : BitVec 5) (trap : Bool := false) : Claims.Operand := ⟨false, n, trap⟩

/-- An A operand; on a companion core the field names the S register of the number (R322). -/
def Sys2Proof.Claims.A (n : BitVec 5) (trap : Bool := false) : Claims.Operand := ⟨true, n, trap⟩

/-- The register of an operand holds a value: its full/empty bit is set. S0 has no such bit (R124, R127). -/
def Sys2Proof.Claims.Operand.full (s : State) (o : Claims.Operand) : Bool :=
  if o.isA && !s.me.isComp then s.core.regs.aFull.getLsbD o.n.toNat else o.n == 0 || s.core.regs.sFull.getLsbD o.n.toNat

/-- TRAP_VAL of a trap-if-empty read: the number, with 0x100 for an A register (R127). -/
def Sys2Proof.Claims.Operand.trapVal (s : State) (o : Claims.Operand) : Word :=
  if o.isA && !s.me.isComp then 0x100 ||| o.n.setWidth 64 else o.n.setWidth 64

/-- Every operand of a list holds a value. -/
def Sys2Proof.Claims.allFull (s : State) (l : List Claims.Operand) : Bool := l.all (Claims.Operand.full s)

/-- The machine after a slot's instruction whose result is on its way: on a main core the result joins those in flight, to land when
`lat` bundles have issued; on a companion core it lands at once (R123, R324). Nothing else changes but the note of the slot's outcome. -/
def Sys2Proof.Claims.answer (s : State) (lat : Nat) (what : Land) (flags : BitVec 5 := 0) : State :=
  let x := if s.me.isComp then s.core.landFlight ⟨0, what, flags⟩
    else { s.core with regs := { s.core.regs with flight := s.core.regs.flight ++ [⟨lat, what, flags⟩] } }
  { s with core := { x with issue := { s.core.issue with res := .issued } } }

/-- The machine after a slot's instruction that changed the registers of its core at once, and nothing else. -/
def Sys2Proof.Claims.regsAt (s : State) (r : Regs) : State :=
  { s with core := { s.core with regs := r, issue := { s.core.issue with res := .issued } } }

/-- The machine after an instruction without effect. -/
def Sys2Proof.Claims.same (s : State) : State := Claims.regsAt s s.core.regs

/-- The machine while a bundle waits: a cycle passes and the counter of the waiting's source counts it (R54, R399). That a move in which a bundle holds is one cycle is
the model's choice (log 10). -/
def Sys2Proof.Claims.waits (s : State) (code : BitVec 8) : State := ((s.tick 1).count code 1).mark .held

/-- The machine after a trap at the bundle (R355, R358). -/
def Sys2Proof.Claims.traps (s : State) (cause : BitVec 8) (val : Word) : State :=
  (s.trapEnter cause val s.core.regs.pc).mark (.trapped cause)

/-- An instruction whose whole effect is a result on its way. -/
structure Sys2Proof.Claims.Row where
  ops   : List Claims.Operand
  lat   : Nat
  what  : State → Land
  flags : State → BitVec 5 := fun _ => 0

/-- An S result of two S sources. -/
def Sys2Proof.Claims.row2 (d a b : BitVec 5) (ta tb : Bool) (lat : Nat) (f : Word → Word → Word) : Option Claims.Row :=
  some { ops := [Claims.S a ta, Claims.S b tb, Claims.S d], lat := lat, what := fun s => .s d (f (s.core.regs.sVal a) (s.core.regs.sVal b)) }

/-- An S result of one S source, with latency 1. -/
def Sys2Proof.Claims.row1 (d a : BitVec 5) (ta : Bool) (f : Word → Word) : Option Claims.Row :=
  some { ops := [Claims.S a ta, Claims.S d], lat := 1, what := fun s => .s d (f (s.core.regs.sVal a)) }

/-! ### Decoding -/

/-- Words written out from the encodings of the spec decode to the instructions they stand for (R72-R95). -/
def Obligations.DecodeSamples : Prop :=
  decode .S 0x366FFFFC = .ok (.br 3 false 0xFFFFC) ∧ decode .S 0x3A038000 = .ok (.jr 7 false)
    ∧ decode .S 0x28515A02 = .ok (.ld 5 2 true 1 2 true 2) ∧ decode .S 0x4E429810 = .ok (.fadd 4 5 6 false false true)
    ∧ decode .A 0x0E548100 = .ok (.amode 5 1 2 1) ∧ decode .V 0x2B4882E0 = .ok (.vcmp .lt 9 4 5 .fp32 0)
    ∧ decode .M 0x0C642100 = .ok (.mhand 3 1 4 .bf16) ∧ decode .X 0x10000001 = .ok (.bar 1) ∧ decode .S 0 = .ok .nop

/-- Decoding what the encoder makes of a well-formed instruction of a slot gives that instruction back, for every instruction and every
operand (R69, R72-R95). -/
def Obligations.DecodeEncode : Prop := ∀ i : Instr, Laws.RoundTrip.Statement i

/-- The first opcode above those of a slot kind's map (R72, R81, R83, R89, R92). -/
def Sys2Proof.Claims.opcodesEnd : SlotKind → Nat
  | .S => 0x2A
  | .A => 0x0D
  | .V => 0x34
  | .M | .C => 0x07
  | .X => 0x24

/-- What the decoder accepts is well formed, and is an instruction of the slot kind that it was asked for, or a NOP (R69). Opcode 0 with another bit set is refused, and so is an opcode that the slot's map does not give (R69). -/
def Obligations.DecoderAnswers : Prop :=
  (∀ (k : SlotKind) (w : Word32) (i : Instr), decode k w = .ok i → i.wellFormed = true ∧ (i = .nop ∨ i.slotKind = some k))
    ∧ (∀ (k : SlotKind) (w : Word32),
      (w ≠ 0 → w.toNat / 2 ^ 25 = 0 → decode k w = .error .zeroOpcode)
        ∧ (Claims.opcodesEnd k ≤ w.toNat / 2 ^ 25 ∨ (k = .V ∧ 0x29 ≤ w.toNat / 2 ^ 25 ∧ w.toNat / 2 ^ 25 < 0x30) →
          decode k w = .error .reservedOpcode))

/-! ### A step -/

/-- A step whose agenda has an event or an instruction first is the meaning of that instruction; one whose agenda has a register write of a core or an engine first makes
that write (log 3). -/
def Obligations.StepRunsEvent : Prop :=
  ∀ (s : State) (i : Instr) (l : List Move) (off : BitVec 16) (n : Nat) (v : Word),
    (s.agenda = .event i :: l → step s = exec i { s with agenda := l })
      ∧ (s.agenda = .register off n v :: l → step s = .next (State.registerWrite { s with agenda := l } off n v))

/-- The map that a slot's word is read by (R67). -/
def Sys2Proof.Claims.kindOf : Slot → SlotKind
  | .s => .S
  | .a => .A
  | .v0 | .v1 => .V
  | .m => .M
  | .c0 | .c1 => .C
  | .x => .X

/-- A slot's word is an instruction that the core implements (R69). -/
def Sys2Proof.Claims.legal (s : State) (x : SlotInstr) : Prop := decode (Claims.kindOf x.slot) x.word = .ok x.instr ∧ s.illegal x.instr = false

/-- The slot instructions of a main core's bundle, in slot order. -/
def Sys2Proof.Claims.bundle (s : State) (off : Nat) (is : Vector Instr 8) : List SlotInstr :=
  [⟨.s, s.textWord off, is[0]⟩, ⟨.a, s.textWord (off + 4), is[1]⟩, ⟨.v0, s.textWord (off + 8), is[2]⟩, ⟨.v1, s.textWord (off + 12), is[3]⟩,
    ⟨.m, s.textWord (off + 16), is[4]⟩, ⟨.c0, s.textWord (off + 20), is[5]⟩, ⟨.c1, s.textWord (off + 24), is[6]⟩, ⟨.x, s.textWord (off + 28), is[7]⟩]

/-- The outcome of a slot's instruction before any slot of its bundle issues. -/
def Sys2Proof.Claims.tried (s : State) (ck : Bool) (x : SlotInstr) : Issued := Out.result (exec x.instr (s.withSlot x.slot x.word ck))

/-- No acquire of the core has still to perform, so that an instruction that reads memory may issue (R298, R308). -/
def Sys2Proof.Claims.mayRead (s : State) (is : List Instr) : Prop := (∀ e ∈ s.core.memq, e.op.isAcquire = false ∨ e.lost = true) ∨ ∀ i ∈ is, i.readsMemory = false

/-- The bundle at the program counter of a main core in task mode holds the instructions `is`, which the core implements, every slot of it may issue,
no condition makes the bundle illegal and nothing in it waits for a channel group: a step runs each instruction on the state that the slots before it left, and then the end of the
bundle; the core's turn is over (R67, R68, R71). -/
def Obligations.StepRunsBundle : Prop :=
  ∀ (s t : State) (off : Nat) (is : Vector Instr 8),
    s.agenda = [] → s.due < unitPeriod → s.comp = false → s.core.task.isSome = true → s.core.life = .running → s.sup = false →
    s.core.rerun = none → s.core.reports = [] → s.textOff = some off → Claims.mayRead s is.toList →
    (∀ x ∈ Claims.bundle s off is, Claims.legal s x) → s.badBundle is[0] is.toList = none →
    (∀ x ∈ Claims.bundle s off is, Claims.tried s (is.toList.any Instr.checkpoints) x = .issued) →
    runSlots exec (is.toList.any Instr.checkpoints) (Claims.bundle s off is) (s.fencedBy is.toList) = .next t →
    let u := (t.closeBundle (is.toList.any Instr.checkpoints && s.prot)).finish is.toList
    u.held = s.held → step s = .next (State.handOn { u with due := u.due + 1 })

/-- The pair at the program counter of a companion core: the S word performs first, the X word on the state that it leaves, and then the pair
ends (R324, R325). -/
def Obligations.StepRunsPair : Prop :=
  ∀ (s t u : State) (off : Nat) (a b : Instr),
    s.agenda = [] → s.due < unitPeriod → s.comp = true → s.core.task.isSome = true → s.core.life = .running → s.sup = false →
    s.core.rerun = none → s.core.reports = [] → s.core.issue = {} → s.textOff = some off →
    Claims.legal s ⟨.s, s.textWord off, a⟩ → Claims.legal s ⟨.x, s.textWord (off + 4), b⟩ → s.badBundle a [a, b] = none →
    Claims.mayRead s [a] → exec a (s.withSlot .s (s.textWord off) false) = .next t → t.core.issue.res = .issued →
    Claims.mayRead t [b] → exec b (t.withSlot .x (s.textWord (off + 4)) false) = .next u → u.core.issue.res = .issued →
    let v := u.finish [a, b]
    v.held = s.held → step s = .next (State.handOn { v with due := v.due + 1 })

/-! ### Reset -/

/-- After reset no core holds a task, every queue is empty, no feature is accepted and no function is ready (R33-R35); memory lists nothing, and
registers hold what a task finds at entry (R25, R117), which the log's entry 2 extends to every core. -/
def Obligations.ResetState : Prop :=
  State.reset.core.task = none ∧ State.reset.others = [] ∧ State.reset.mem = [] ∧ State.reset.lines = []
    ∧ State.reset.dev.accept = Vector.replicate 4 0 ∧ State.reset.dev.run = false ∧ State.reset.dev.decs = []
    ∧ (∀ d : BitVec 2, (State.reset.die d).ready = 0 ∧ (State.reset.die d).queues = Vector.replicate 16 [] ∧ (State.reset.die d).sfx = [])
    ∧ State.reset.core.regs.status = 0 ∧ State.reset.core.regs.pc = 0 ∧ State.reset.core.regs.flight = []
    ∧ (∀ n : BitVec 5, State.reset.core.regs.sVal n = 0 ∧ State.reset.core.regs.sIsFull n = true)
    ∧ State.reset.p 0 = BitVec.allOnes 1024

/-! ### Registers -/

/-- S0 reads as zero and P0 as all ones in every state; a result that lands on S0 or P0 leaves the whole core as it was (R117). -/
def Obligations.ZeroRegisters : Prop :=
  ∀ (s : State) (x : Core) (v : Word) (q m : PReg),
    s.core.regs.sVal 0 = 0 ∧ s.core.regs.sIsFull 0 = true ∧ s.p 0 = BitVec.allOnes 1024
      ∧ x.landOne (.s 0 v) = x ∧ x.landOne (.p 0 q m) = x

/-- A vector result lands under a mask: each byte whose mask bit is set is that of the result, each other byte keeps its value, and no other vector register
changes; a predicate result lands bit by bit (R176, R178). A local store performs: each byte that its mask enables is the store's, every other byte of the scratchpad keeps its
value, whatever the mask (R126, R277). -/
def Obligations.MaskedLanding : Prop :=
  (∀ (x : Core) (n k : BitVec 6) (v : VReg) (m : PReg) (i : Nat), i < 1024 →
      (((x.landOne (.v n v m)).regs.v[n.toNat]'n.isLt).extractLsb' (8 * i) 8 =
          if m.getLsbD i then v.extractLsb' (8 * i) 8 else (x.regs.v[n.toNat]'n.isLt).extractLsb' (8 * i) 8)
        ∧ (k ≠ n → (x.landOne (.v n v m)).regs.v[k.toNat]'k.isLt = x.regs.v[k.toNat]'k.isLt)
        ∧ (∀ (p : BitVec 4) (q : PReg), p ≠ 0 → ((x.landOne (.p p q m)).regs.p[p.toNat]'p.isLt).getLsbD i =
            if m.getLsbD i then q.getLsbD i else (x.regs.p[p.toNat]'p.isLt).getLsbD i))
    ∧ (∀ (x : Core) (sl : Slot) (off : Nat) (data : VReg) (m : PReg) (dbg : Bool) (a : Nat),
      Sparse.get 0 (x.landOne (.store sl off data m dbg)).scratch a =
        if off ≤ a ∧ a < off + 1024 ∧ m.getLsbD (a - off) then data.extractLsb' (8 * (a - off)) 8 else Sparse.get 0 x.scratch a)

/-- The values that the results of a list send to an S register, in order. -/
def Sys2Proof.Claims.valuesFor (n : BitVec 5) (l : List InFlight) : List Word :=
  l.filterMap fun f => match f.what with
    | .s k v | .late k v => if k = n then some v else none
    | _ => none

/-- Whatever is in flight, each bundle that issues brings every result one closer; those that it brings to zero land at its end, in order, and are in flight no more, and
every other result stays in flight, a store that is left with its bytes, though an MTSR that lands may take its debug mark (R132). So an S register other than S0 holds the last of the values that land in it then, and keeps its own where none does; a result lands
nowhere before (R123, R125). -/
def Obligations.LatencyCount : Prop :=
  ∀ (s : State) (n : BitVec 5), n ≠ 0 →
    let t := s.age.landResults
    t.core.regs.flight.map InFlight.unmark = ((s.core.regs.flight.map fun f => { f with left := f.left - 1 }).filter fun f => f.left != 0 || f.isStore).map InFlight.unmark
      ∧ t.core.regs.sVal n = (Claims.valuesFor n (s.core.regs.flight.filter fun f => f.left ≤ 1)).getLastD (s.core.regs.sVal n)
      ∧ ((∀ f ∈ s.core.regs.flight, 1 < f.left) → t.core.regs.s = s.core.regs.s ∧ t.core.regs.a = s.core.regs.a ∧ t.core.regs.v = s.core.regs.v
        ∧ t.core.regs.p = s.core.regs.p ∧ t.core.regs.status = s.core.regs.status ∧ t.core.regs.fpstat = s.core.regs.fpstat)

/-- Vector and predicate names: V0 to V31 and P0 to P7 name themselves; V32 to V63 and P8 to P15 rotate by VRB and PRB, each base a permutation of its half (R110). -/
def Obligations.RotatedNames : Prop :=
  ∀ (vrb : BitVec 5) (prb : BitVec 3),
    (∀ k : BitVec 6, k.toNat < 32 → physV vrb k = k) ∧ (∀ k : BitVec 4, k.toNat < 8 → physP prb k = k)
      ∧ (∀ k : BitVec 6, 32 ≤ k.toNat → (physV vrb k).toNat = 32 + (k.toNat - 32 + vrb.toNat) % 32)
      ∧ (∀ k : BitVec 4, 8 ≤ k.toNat → (physP prb k).toNat = 8 + (k.toNat - 8 + prb.toNat) % 8)
      ∧ (∀ k l : BitVec 6, physV vrb k = physV vrb l → k = l) ∧ (∀ k l : BitVec 4, physP prb k = physP prb l → k = l)

/-! ### The S slot: arithmetic -/

/-- The S instructions of the ALU, unary, immediate and bit-field groups with a fixed latency, as their tables give them (R134, R136-R140, R144). -/
def Sys2Proof.Claims.scalarRow : Instr → Option Claims.Row
  | .add d a b ta tb => Claims.row2 d a b ta tb 1 fun x y => x + y
  | .sub d a b ta tb => Claims.row2 d a b ta tb 1 fun x y => x - y
  | .and d a b ta tb => Claims.row2 d a b ta tb 1 fun x y => x &&& y
  | .or d a b ta tb => Claims.row2 d a b ta tb 1 fun x y => x ||| y
  | .xor d a b ta tb => Claims.row2 d a b ta tb 1 fun x y => x ^^^ y
  | .andn d a b ta tb => Claims.row2 d a b ta tb 1 fun x y => x &&& ~~~y
  | .shl d a b ta tb => Claims.row2 d a b ta tb 1 fun x y => x <<< (y.toNat % 64)
  | .shr d a b ta tb => Claims.row2 d a b ta tb 1 fun x y => x >>> (y.toNat % 64)
  | .sra d a b ta tb => Claims.row2 d a b ta tb 1 fun x y => x.sshiftRight (y.toNat % 64)
  | .rol d a b ta tb => Claims.row2 d a b ta tb 1 fun x y => x.rotateLeft (y.toNat % 64)
  | .min d a b ta tb => Claims.row2 d a b ta tb 1 fun x y => if x.slt y then x else y
  | .max d a b ta tb => Claims.row2 d a b ta tb 1 fun x y => if x.slt y then y else x
  | .minu d a b ta tb => Claims.row2 d a b ta tb 1 fun x y => if x.ult y then x else y
  | .maxu d a b ta tb => Claims.row2 d a b ta tb 1 fun x y => if x.ult y then y else x
  | .mul d a b ta tb => Claims.row2 d a b ta tb 3 fun x y => x * y
  | .mulh d a b ta tb => Claims.row2 d a b ta tb 3 fun x y => (x.signExtend 128 * y.signExtend 128).extractLsb' 64 64
  | .mulhu d a b ta tb => Claims.row2 d a b ta tb 3 fun x y => (x.setWidth 128 * y.setWidth 128).extractLsb' 64 64
  | .brev d a ta => Claims.row1 d a ta fun x => x.reverse
  | .sextb d a ta => Claims.row1 d a ta fun x => (x.setWidth 8).signExtend 64
  | .sexth d a ta => Claims.row1 d a ta fun x => (x.setWidth 16).signExtend 64
  | .sextw d a ta => Claims.row1 d a ta fun x => (x.setWidth 32).signExtend 64
  | .zextb d a ta => Claims.row1 d a ta fun x => (x.setWidth 8).setWidth 64
  | .zexth d a ta => Claims.row1 d a ta fun x => (x.setWidth 16).setWidth 64
  | .zextw d a ta => Claims.row1 d a ta fun x => (x.setWidth 32).setWidth 64
  | .mov d a ta => Claims.row1 d a ta fun x => x
  | .addi d a ta imm => Claims.row1 d a ta fun x => x + imm.signExtend 64
  | .andi d a ta imm => Claims.row1 d a ta fun x => x &&& imm.signExtend 64
  | .ori d a ta imm => Claims.row1 d a ta fun x => x ||| imm.setWidth 64
  | .xori d a ta imm => Claims.row1 d a ta fun x => x ^^^ imm.setWidth 64
  | .shli d a ta sh => Claims.row1 d a ta fun x => x <<< sh.toNat
  | .shri d a ta sh => Claims.row1 d a ta fun x => x >>> sh.toNat
  | .srai d a ta sh => Claims.row1 d a ta fun x => x.sshiftRight sh.toNat
  | .li d imm => some { ops := [Claims.S d], lat := 1, what := fun _ => .s d (imm.signExtend 64) }
  | .liu d imm => some { ops := [Claims.S d], lat := 1, what := fun s => .s d ((s.core.regs.sVal d <<< 20) ||| imm.setWidth 64) }
  | .fsh d a b ta tb c => some {
      ops := [Claims.S a ta, Claims.S b tb, Claims.S c, Claims.S d], lat := 1
      what := fun s => .s d (((s.core.regs.sVal a ++ s.core.regs.sVal b) >>> ((s.core.regs.sVal c).toNat % 64)).setWidth 64) }
  | .fshi d a b ta tb n => Claims.row2 d a b ta tb 1 fun x y => ((x ++ y) >>> n.toNat).setWidth 64
  | .sel d a b ta tb p => some {
      ops := [Claims.S a ta, Claims.S b tb, Claims.S d], lat := 1
      what := fun s => .s d (if (s.p p).getLsbD 0 then s.core.regs.sVal a else s.core.regs.sVal b) }
  | _ => none

/-- What one LI and then one LIU for each further field leave in their register (R138). -/
def Sys2Proof.Claims.built (first : BitVec 20) (rest : List (BitVec 20)) : Word :=
  rest.foldl (fun x f => (x <<< 20) ||| f.setWidth 64) (first.signExtend 64)

/-- LI sets Sd to the sign-extended immediate and LIU shifts Sd left by 20 and puts the immediate below; both with latency 1. Their words are opcode 0x0A and 0x0B in the SL layout. LI with bits 63 to 60 of a
constant and LIU with the three fields below them build it; leading instructions whose fields are zero may be left out where the first field left is below 0x80000; so is the base of the window built (R138). -/
def Obligations.LoadImmediate : Prop :=
  (∀ (d : BitVec 5) (imm : BitVec 20) (s : State), s.core.regs.sIsFull d = true →
      exec (.li d imm) s = .next (Claims.answer s 1 (.s d (imm.signExtend 64)))
        ∧ exec (.liu d imm) s = .next (Claims.answer s 1 (.s d ((s.core.regs.sVal d <<< 20) ||| imm.setWidth 64))))
    ∧ (∀ (d : BitVec 5) (imm : BitVec 20), decode .S (0x0A#7 ++ d ++ imm) = .ok (.li d imm) ∧ decode .S (0x0B#7 ++ d ++ imm) = .ok (.liu d imm))
    ∧ (∀ v : Word, let f3 : BitVec 20 := (v.extractLsb' 60 4).setWidth 20
        let f2 := v.extractLsb' 40 20
        let f1 := v.extractLsb' 20 20
        let f0 := v.extractLsb' 0 20
        Claims.built f3 [f2, f1, f0] = v ∧ (f3 = 0 → f2.toNat < 0x80000 → Claims.built f2 [f1, f0] = v)
          ∧ (f3 = 0 → f2 = 0 → f1.toNat < 0x80000 → Claims.built f1 [f0] = v) ∧ (f3 = 0 → f2 = 0 → f1 = 0 → f0.toNat < 0x80000 → Claims.built f0 [] = v))
    ∧ decode .S 0x144000F0 = .ok (.li 4 0xF0) ∧ decode .S 0x16400000 = .ok (.liu 4 0) ∧ Claims.built 0xF0 [0, 0] = 0x0000F00000000000

/-- A number of leading zeros: the bits above it are zero and the bit at it, if there is one, is set; likewise trailing zeros; and a count of ones (R136). -/
def Sys2Proof.Claims.isClz (x : Word) (n : Nat) : Prop := n ≤ 64 ∧ (∀ i < n, x.getLsbD (63 - i) = false) ∧ (n < 64 → x.getLsbD (63 - n) = true)
def Sys2Proof.Claims.isCtz (x : Word) (n : Nat) : Prop := n ≤ 64 ∧ (∀ i < n, x.getLsbD i = false) ∧ (n < 64 → x.getLsbD n = true)
def Sys2Proof.Claims.ones (x : Word) : Nat := ((List.range 64).filter fun i => x.getLsbD i).length

/-- CLZ, CTZ and POPC, with their registers full: the counts of R136, with latency 1, and nothing else changes. BFX and BFI, with their registers full, bit by bit: BFX reads a field cut at bit 63 and zeros above it; BFI writes it and keeps the bits of d outside it (R139). -/
def Obligations.BitCountsAndFields : Prop :=
  (∀ (d a : BitVec 5) (ta : Bool) (s : State), Claims.allFull s [Claims.S a ta, Claims.S d] = true →
      (∃ n, Claims.isClz (s.core.regs.sVal a) n ∧ exec (.clz d a ta) s = .next (Claims.answer s 1 (.s d (BitVec.ofNat 64 n))))
        ∧ (∃ n, Claims.isCtz (s.core.regs.sVal a) n ∧ exec (.ctz d a ta) s = .next (Claims.answer s 1 (.s d (BitVec.ofNat 64 n))))
        ∧ exec (.popc d a ta) s = .next (Claims.answer s 1 (.s d (BitVec.ofNat 64 (Claims.ones (s.core.regs.sVal a))))))
    ∧ (∀ (d a : BitVec 5) (ta : Bool) (p wm1 : BitVec 6) (s : State), Claims.allFull s [Claims.S a ta, Claims.S d] = true →
      (∃ v : Word, exec (.bfx d a ta p wm1) s = .next (Claims.answer s 1 (.s d v))
          ∧ ∀ i < 64, v.getLsbD i = (decide (i < wm1.toNat + 1 ∧ p.toNat + i ≤ 63) && (s.core.regs.sVal a).getLsbD (p.toNat + i)))
        ∧ (∃ v : Word, exec (.bfi d a ta p wm1) s = .next (Claims.answer s 1 (.s d v))
          ∧ ∀ i < 64, v.getLsbD i = if p.toNat ≤ i ∧ i < p.toNat + wm1.toNat + 1 then (s.core.regs.sVal a).getLsbD (i - p.toNat)
              else (s.core.regs.sVal d).getLsbD i))

/-- The bit of a register's full/empty bits. -/
def Sys2Proof.Claims.bitOf (d : BitVec 5) : BitVec 32 := 1#32 <<< d.toNat

/-- The machine after a variable-latency producer issues: its destination is noted to become empty as the bundle ends (on a companion core it
is empty at once), unless it is S0, and its operation joins those outstanding (R124). -/
def Sys2Proof.Claims.outstanding (s : State) (d : BitVec 5) (op : MemOp) : State :=
  let e : MemEntry := { sup := s.core.regs.status.getLsbD 0, op := op, no := (s.core.rerun.map Rerun.no).getD 0 }
  let empty := if d = 0 then 0#32 else Claims.bitOf d
  { s with core := { s.core with
      regs := { s.core.regs with sFull := if s.me.isComp then s.core.regs.sFull &&& ~~~empty else s.core.regs.sFull }
      memq := s.core.memq ++ [e]
      issue := { s.core.issue with res := .issued, clearS := if s.me.isComp then s.core.issue.clearS else s.core.issue.clearS ||| empty } } }

/-- The results of the divisions, the corners included (R134, R135). -/
def Sys2Proof.Claims.division : Instr → Option (BitVec 5 × BitVec 5 × BitVec 5 × Bool × Bool × Word × (Word → Word → Word))
  | .div d a b ta tb => some (d, a, b, ta, tb, 0x11, fun x y => if y = 0 then 0xFFFFFFFFFFFFFFFF else BitVec.ofInt 64 (x.toInt.tdiv y.toInt))
  | .divu d a b ta tb => some (d, a, b, ta, tb, 0x12, fun x y => if y = 0 then 0xFFFFFFFFFFFFFFFF else BitVec.ofNat 64 (x.toNat / y.toNat))
  | .rem d a b ta tb => some (d, a, b, ta, tb, 0x13, fun x y => if y = 0 then x else BitVec.ofInt 64 (x.toInt.tmod y.toInt))
  | .remu d a b ta tb => some (d, a, b, ta, tb, 0x14, fun x y => if y = 0 then x else BitVec.ofNat 64 (x.toNat % y.toNat))
  | _ => none

/-- A division with its registers full issues, and its result is outstanding, whatever the operands while STATUS.DIVZT is 0 and for every divisor but 0 while it
is 1; under DIVZT a divisor of 0 raises trap 0x0B with the function code (R124, R135). -/
def Obligations.DivisionResult : Prop :=
  ∀ (i : Instr) (s : State) (d a b : BitVec 5) (ta tb : Bool) (fn : Word) (f : Word → Word → Word),
    Claims.division i = some (d, a, b, ta, tb, fn, f) → Claims.allFull s [Claims.S a ta, Claims.S b tb, Claims.S d] = true →
    (s.core.regs.status.getLsbD 3 = false ∨ s.core.regs.sVal b ≠ 0 →
        exec i s = .next (Claims.outstanding s d (.value d (f (s.core.regs.sVal a) (s.core.regs.sVal b)) 0)))
      ∧ (s.core.regs.status.getLsbD 3 = true → s.core.regs.sVal b = 0 → s.core.issue.pass = false → exec i s = .next (Claims.traps s 0x0B fn))

/-! ### The S slot: predicates and floating point -/

/-- A whole predicate, all ones or all zeros (R141), on the register that its name means now (R110, R111). -/
def Sys2Proof.Claims.whole (s : State) (p : BitVec 4) (b : Bool) : Land :=
  .p (physP s.core.regs.prb p) (if b then BitVec.allOnes 1024 else 0) (BitVec.allOnes 1024)

/-- A scalar comparison (R142). -/
def Sys2Proof.Claims.compares : SCond → Word → Word → Bool
  | .eq, x, y => x == y
  | .ne, x, y => x != y
  | .lt, x, y => x.slt y
  | .ge, x, y => !x.slt y
  | .ltu, x, y => x.ult y
  | .geu, x, y => !x.ult y

/-- A combination of predicates (R143). -/
def Sys2Proof.Claims.combines : PLogOp → PReg → PReg → PReg
  | .and, x, y => x &&& y
  | .or, x, y => x ||| y
  | .xor, x, y => x ^^^ y
  | .andn, x, y => x &&& ~~~y
  | .orn, x, y => x ||| ~~~y

/-- The instructions that write a predicate from scalar code with latency 1 (R141-R143). -/
def Sys2Proof.Claims.predicateRow : Instr → Option Claims.Row
  | .scmp p a b ta tb cc => some { ops := [Claims.S a ta, Claims.S b tb], lat := 1
                                   what := fun s => Claims.whole s p (Claims.compares cc (s.core.regs.sVal a) (s.core.regs.sVal b)) }
  | .scmpi p a ta cc imm => some { ops := [Claims.S a ta], lat := 1
                                   what := fun s => Claims.whole s p (Claims.compares cc (s.core.regs.sVal a) (imm.signExtend 64)) }
  | .plog p pa pb f => some { ops := [], lat := 1
                              what := fun s => .p (physP s.core.regs.prb p) (Claims.combines f (s.p pa) (s.p pb)) (BitVec.allOnes 1024) }
  | _ => none

/-- The scalar instructions of the two tables (ALU, unary, immediate and bit-field groups; SCMP, SCMPI and PLOG), with every register that they name full, issue with their result or predicate on its way; nothing else changes, no flag among it (R133, R134, R136-R144). -/
def Obligations.ScalarResult : Prop :=
  ∀ (i : Instr) (r : Claims.Row) (s : State), Claims.scalarRow i = some r ∨ Claims.predicateRow i = some r → Claims.allFull s r.ops = true →
    exec i s = .next (Claims.answer s r.lat (r.what s) (r.flags s))

/-- The pattern of a scalar float operand: an FP32 value is in the low half, and the high half is ignored (R145). -/
def Sys2Proof.Claims.pattern (dbl : Bool) (w : Word) : Nat := if dbl then w.toNat else w.toNat % 2 ^ 32

/-- A float operation of two sources. -/
def Sys2Proof.Claims.float2 (dbl : Bool) (f : FloatFmt → Nat → Nat → Nat × Flags) (x y : Word) : Nat × Flags :=
  f (if dbl then fFP64 else fFP32) (Claims.pattern dbl x) (Claims.pattern dbl y)

/-- A float result of two sources with latency 4, and its flags (R123, R145). -/
def Sys2Proof.Claims.rowF (d a b : BitVec 5) (ta tb dbl : Bool) (f : FloatFmt → Nat → Nat → Nat × Flags) : Option Claims.Row :=
  some {
    ops := [Claims.S a ta, Claims.S b tb, Claims.S d], lat := 4
    what := fun s => .s d (BitVec.ofNat 64 (Claims.float2 dbl f (s.core.regs.sVal a) (s.core.regs.sVal b)).1)
    flags := fun s => (Claims.float2 dbl f (s.core.regs.sVal a) (s.core.regs.sVal b)).2 }

/-- The scalar float instructions with a fixed latency (R145-R149). -/
def Sys2Proof.Claims.floatRow : Instr → Option Claims.Row
  | .fadd d a b ta tb dbl => Claims.rowF d a b ta tb dbl FloatFmt.add
  | .fsub d a b ta tb dbl => Claims.rowF d a b ta tb dbl FloatFmt.sub
  | .fmul d a b ta tb dbl => Claims.rowF d a b ta tb dbl FloatFmt.mul
  | .fmin d a b ta tb dbl => Claims.rowF d a b ta tb dbl fun f => f.minmax false false
  | .fmax d a b ta tb dbl => Claims.rowF d a b ta tb dbl fun f => f.minmax true false
  | .fminn d a b ta tb dbl => Claims.rowF d a b ta tb dbl fun f => f.minmax false true
  | .fmaxn d a b ta tb dbl => Claims.rowF d a b ta tb dbl fun f => f.minmax true true
  | .fcvt d a ta cv rnd => some {
      ops := [Claims.S a ta, Claims.S d], lat := 4
      what := fun s => .s d (fcvt cv rnd (s.core.regs.sVal a)).1, flags := fun s => (fcvt cv rnd (s.core.regs.sVal a)).2 }
  | .fcmp true d a b ta tb dbl cc => some {
      ops := [Claims.S a ta, Claims.S b tb, Claims.S (d.setWidth 5)], lat := 4
      what := fun s => .s (d.setWidth 5) (if ((if dbl then fFP64 else fFP32).compare cc (Claims.pattern dbl (s.core.regs.sVal a))
        (Claims.pattern dbl (s.core.regs.sVal b))).1 then 1 else 0)
      flags := fun s => ((if dbl then fFP64 else fFP32).compare cc (Claims.pattern dbl (s.core.regs.sVal a)) (Claims.pattern dbl (s.core.regs.sVal b))).2 }
  | .fcmp false d a b ta tb dbl cc => some {
      ops := [Claims.S a ta, Claims.S b tb], lat := 1
      what := fun s => Claims.whole s d ((if dbl then fFP64 else fFP32).compare cc (Claims.pattern dbl (s.core.regs.sVal a))
        (Claims.pattern dbl (s.core.regs.sVal b))).1
      flags := fun s => ((if dbl then fFP64 else fFP32).compare cc (Claims.pattern dbl (s.core.regs.sVal a)) (Claims.pattern dbl (s.core.regs.sVal b))).2 }
  | _ => none

/-- Each scalar float instruction of fixed latency (FADD to FMAXN, FCVT, FCMP) with its registers full issues, with its result and the FPSTAT bits that it sets on their way; FDIV and FSQRT with theirs outstanding. Nothing
else changes (R124, R145-R149). -/
def Obligations.FloatResult : Prop :=
  ∀ (s : State),
    (∀ (i : Instr) (r : Claims.Row), Claims.floatRow i = some r → Claims.allFull s r.ops = true →
        exec i s = .next (Claims.answer s r.lat (r.what s) (r.flags s)))
      ∧ (∀ (d a b : BitVec 5) (ta tb dbl : Bool), Claims.allFull s [Claims.S a ta, Claims.S b tb, Claims.S d] = true →
        exec (.fdiv d a b ta tb dbl) s = .next (let r := Claims.float2 dbl FloatFmt.div (s.core.regs.sVal a) (s.core.regs.sVal b);
          Claims.outstanding s d (.value d (BitVec.ofNat 64 r.1) r.2)))
      ∧ (∀ (d a : BitVec 5) (ta dbl : Bool), Claims.allFull s [Claims.S a ta, Claims.S d] = true →
        exec (.fsqrt d a ta dbl) s = .next (let r := (if dbl then fFP64 else fFP32).sqrt (Claims.pattern dbl (s.core.regs.sVal a));
          Claims.outstanding s d (.value d (BitVec.ofNat 64 r.1) r.2)))

/-! ### The A slot and the rotation bases -/

/-- Reverses the low w bits of a number. -/
def Sys2Proof.Claims.reversed (w x : Nat) : Nat := ((List.range w).map fun i => if x.testBit (w - 1 - i) then 2 ^ i else 0).sum

/-- An advance can issue: in bit-reversed mode its step is a positive power of two no larger than 2^30 (R158); a companion core has no modes (R322). -/
def Sys2Proof.Claims.advances (s : State) (n : BitVec 5) : Prop :=
  s.me.isComp = true ∨ (s.core.regs.aMode[n.toNat]'n.isLt).mode ≠ 2 ∨ ∃ e ≤ 30, s.stepOf n = BitVec.ofNat 64 (2 ^ e)

/-- The advance of an A register: linear adds the step; modulo with a length lands inside the window and is congruent to the sum, and with length 0 is linear; bit-reversed
counts up in the reversed field and keeps every other bit (R157, R158). -/
def Obligations.Advance : Prop :=
  ∀ (s : State) (n : BitVec 5),
    let m := s.core.regs.aMode[n.toNat]'n.isLt
    let a := s.core.regs.aVal n
    let base := s.core.regs.wBase[(m.param.setWidth 3 : BitVec 3).toNat]'(m.param.setWidth 3 : BitVec 3).isLt
    let len := s.core.regs.wLen[(m.param.setWidth 3 : BitVec 3).toNat]'(m.param.setWidth 3 : BitVec 3).isLt
    (m.mode = 0 → s.advanced n = a + s.stepOf n)
      ∧ (m.mode = 1 → len = 0 → s.advanced n = a + s.stepOf n)
      ∧ (m.mode = 1 → len ≠ 0 → (s.advanced n - base).toNat < len.toNat
          ∧ (len.toNat : Int) ∣ ((s.advanced n - base).toNat : Int) - (a - base + s.stepOf n).toInt)
      ∧ (∀ e w : Nat, m.mode = 2 → e ≤ 30 → s.stepOf n = BitVec.ofNat 64 (2 ^ e) → m.param.toNat = w → 1 ≤ w → w ≤ 32 →
          (∀ i < 64, i < e ∨ e + w ≤ i → (s.advanced n).getLsbD i = a.getLsbD i)
            ∧ (s.advanced n).toNat / 2 ^ e % 2 ^ w = Claims.reversed w ((Claims.reversed w (a.toNat / 2 ^ e % 2 ^ w) + 1) % 2 ^ w))

/-- The A-slot instructions, and those of the S slot that write the rotation bases, as their tables give them (R113, R156, R159). -/
def Sys2Proof.Claims.addressRow : Instr → Option Claims.Row
  | .amov d a ta => some { ops := [Claims.S a ta, Claims.A d], lat := 1, what := fun s => .a d (s.core.regs.sVal a) }
  | .aadd d a b ta tb => some { ops := [Claims.A a ta, Claims.S b tb, Claims.A d], lat := 1
                                what := fun s => .a d (s.core.regs.aVal a + s.core.regs.sVal b) }
  | .aaddi d a ta imm => some { ops := [Claims.A a ta, Claims.A d], lat := 1, what := fun s => .a d (s.core.regs.aVal a + imm.signExtend 64) }
  | .ali d imm => some { ops := [Claims.A d], lat := 1, what := fun _ => .a d (imm.signExtend 64) }
  | .aliu d imm => some { ops := [Claims.A d], lat := 1, what := fun s => .a d ((s.core.regs.aVal d <<< 20) ||| imm.setWidth 64) }
  | .amode d mode dk param => some { ops := [Claims.A d], lat := 1, what := fun _ => .aMode d ⟨mode, dk, param⟩ }
  | .dset dk imm => some { ops := [], lat := 1, what := fun _ => .d dk (imm.signExtend 32) }
  | .dmov dk a ta => some { ops := [Claims.S a ta], lat := 1, what := fun s => .d dk ((s.core.regs.sVal a).setWidth 32) }
  | .wsetb wk a ta => some { ops := [Claims.S a ta], lat := 1, what := fun s => .wBase wk (s.core.regs.sVal a) }
  | .wsetl wk a ta => some { ops := [Claims.S a ta], lat := 1, what := fun s => .wLen wk ((s.core.regs.sVal a).setWidth 32) }
  | .ard d a ta => some { ops := [Claims.A a ta, Claims.S d], lat := 1, what := fun s => .s d (s.core.regs.aVal a) }
  | _ => none

/-- Each A-slot instruction of the table, and ARD, with its registers full issues with its result on its way; ASTEP likewise where its advance can issue. Nothing else changes; an A register's value
and its mode are separate (R156-R159). An ASTEP in bit-reversed mode whose step is no positive power of two up to 2^30 traps with cause 0x07, and TRAP_VAL is the step, sign-extended (R158). -/
def Obligations.AddressResult : Prop :=
  (∀ (s : State),
      (∀ (i : Instr) (r : Claims.Row), Claims.addressRow i = some r → Claims.allFull s r.ops = true →
          exec i s = .next (Claims.answer s r.lat (r.what s) (r.flags s)))
        ∧ (∀ d : BitVec 5, Claims.allFull s [Claims.A d] = true → Claims.advances s d →
          exec (.astep d) s = .next (Claims.answer s 1 (.a d (s.advanced d)))))
    ∧ (∀ (s : State) (d : BitVec 5), s.core.issue.pass = false → Claims.allFull s [Claims.A d] = true → ¬ Claims.advances s d →
      exec (.astep d) s = .next (Claims.traps s 0x07 (s.stepOf d)))

/-- SETVRB, SETPRB and CLRRB on a main core put the new bases on their way with latency 1; a base lands in VRB or PRB (R113). A scalar result lands: an S register takes it and keeps its full/empty bit, unless it is the value of a variable-latency producer, which fills the register; an A register takes it; every other S and A register, its full/empty bit and the
memories keep their values (R117, R124). Results for the other registers land whole in the register they name, and nothing else of the core changes: modes, strides, windows, patterns, descriptors and one word of them, scale tables, codebooks, version slots, a result-buffer entry, a comparator, and an event's source, with which its counter
starts at 0 (R117, R123, R131, R159, R275, R276, R286, R287, R293). While a checkpoint stands, the write of a result-buffer entry may also note in the journal what it replaces, or set STATUS.JOVF (R373). -/
def Obligations.RegisterLandings : Prop :=
  (∀ (s : State) (n : BitVec 5) (k : BitVec 3) (x : Core), s.me.isComp = false →
      exec (.setvrb n) s = .next (Claims.answer s 1 (.sr 0x020 (n.setWidth 64)))
        ∧ exec (.setprb k) s = .next (Claims.answer s 1 (.sr 0x021 (k.setWidth 64)))
        ∧ exec .clrrb s = .next (Claims.answer (Claims.answer s 1 (.sr 0x020 0)) 1 (.sr 0x021 0))
        ∧ x.landOne (.sr 0x020 (n.setWidth 64)) = { x with regs := { x.regs with vrb := n } }
        ∧ x.landOne (.sr 0x021 (k.setWidth 64)) = { x with regs := { x.regs with prb := k } })
    ∧ ((∀ (x : Core) (n k : BitVec 5) (v : Word),
        (n ≠ 0 → (x.landOne (.s n v)).regs.sVal n = v ∧ (x.landOne (.late n v)).regs.sVal n = v ∧ (x.landOne (.late n v)).regs.sIsFull n = true)
          ∧ (k ≠ n → (x.landOne (.s n v)).regs.sVal k = x.regs.sVal k ∧ (x.landOne (.late n v)).regs.sVal k = x.regs.sVal k
            ∧ (x.landOne (.late n v)).regs.sIsFull k = x.regs.sIsFull k)
          ∧ (x.landOne (.s n v)).regs.sFull = x.regs.sFull
          ∧ (x.landOne (.s n v)).regs.a = x.regs.a ∧ (x.landOne (.s n v)).scratch = x.scratch ∧ (x.landOne (.late n v)).regs.a = x.regs.a ∧ (x.landOne (.late n v)).scratch = x.scratch
          ∧ (x.landOne (.a n v)).regs.aVal n = v ∧ (k ≠ n → (x.landOne (.a n v)).regs.aVal k = x.regs.aVal k)
          ∧ (x.landOne (.a n v)).regs.s = x.regs.s ∧ (x.landOne (.a n v)).scratch = x.scratch)
      ∧ (∀ (x : Core) (n : BitVec 5) (m : AMode) (k : BitVec 4) (w : BitVec 3) (h : Word32) (v : Word) (y : BitVec 256) (t : BitVec 512) (c : BitVec 8192)
        (nb : BitVec 3) (slot : NSlot),
        x.landOne (.aMode n m) = { x with regs := { x.regs with aMode := x.regs.aMode.set n.toNat m n.isLt } }
          ∧ x.landOne (.d k h) = { x with regs := { x.regs with d := x.regs.d.set k.toNat h k.isLt } }
          ∧ x.landOne (.wBase w v) = { x with regs := { x.regs with wBase := x.regs.wBase.set w.toNat v w.isLt } }
          ∧ x.landOne (.wLen w h) = { x with regs := { x.regs with wLen := x.regs.wLen.set w.toNat h w.isLt } }
          ∧ x.landOne (.g k v) = { x with regs := { x.regs with g := x.regs.g.set k.toNat v k.isLt } }
          ∧ x.landOne (.y k y) = { x with regs := { x.regs with y := x.regs.y.set k.toNat y k.isLt } }
          ∧ x.landOne (.k t) = { x with regs := { x.regs with k := t } }
          ∧ x.landOne (.codebook c) = { x with regs := { x.regs with codebook := c } }
          ∧ x.landOne (.n nb slot) = { x with regs := { x.regs with n := x.regs.n.set nb.toNat slot nb.isLt } })
      ∧ (∀ (x : Core) (e : BitVec 4) (v : VReg) (y : BitVec 4) (w n : BitVec 3) (h : Word32) (r : Option (Nat × Nat)) (src : BitVec 8),
        (let t := x.landOne (.rb e v);
          t.rb = x.rb.set e.toNat v e.isLt ∧ t = { x with rb := t.rb, journal := t.journal, regs := { x.regs with status := t.regs.status } }
            ∧ (∀ i, i ≠ 2 → t.regs.status.getLsbD i = x.regs.status.getLsbD i) ∧ (x.snapshot = none → t = { x with rb := t.rb }))
          ∧ (∃ d : BitVec 256, x.landOne (.yWord y w h) = { x with regs := { x.regs with y := x.regs.y.set y.toNat d y.isLt } }
            ∧ ∀ k : BitVec 3, d.extractLsb' (32 * k.toNat) 32 = if k = w then h else (x.regs.y[y.toNat]'y.isLt).extractLsb' (32 * k.toNat) 32)
          ∧ x.landOne (.watch n r) = { x with regs := { x.regs with comp := x.regs.comp.set n.toNat r n.isLt } }
          ∧ x.landOne (.evsel n src) = { x with evSrc := x.evSrc.set n.toNat src n.isLt, ev := x.ev.set n.toNat 0 n.isLt }))

/-! ### Control -/

/-- A slot's instruction changed what the bundle does to control, and nothing else. -/
def Sys2Proof.Claims.controls (s : State) (c : Control) : State :=
  { s with core := { s.core with issue := { s.core.issue with res := .issued, control := c } } }

/-- A conditional transfer is taken: bit 0 of the predicate differs from the negate bit (R100). -/
def Sys2Proof.Claims.takes (s : State) (p : BitVec 4) (neg : Bool) : Bool := (s.p p).getLsbD 0 ^^ neg

/-- The bytes of a bundle, or of a companion core's pair (R67, R325). -/
def Sys2Proof.Claims.bundleBytes (s : State) : Word := if s.me.isComp then 8 else 32

/-- The target of a displacement in bundles (R101, R325). -/
def Sys2Proof.Claims.target (s : State) (disp : BitVec 20) : Word := s.core.regs.pc + Claims.bundleBytes s * disp.signExtend 64

/-- The link: past both delay slots (R101, R102). -/
def Sys2Proof.Claims.link (s : State) : Word := s.core.regs.pc + 3 * Claims.bundleBytes s

/-- BR, CALL and LEXIT: not taken, nothing changes; taken, the transfer is noted, CALL sends the link to S31 and LEXIT pops the innermost loop at issue (R100, R101). JR, JALR and RET transfer to the register's value as it is at issue, JALR with a link; a target that is not aligned to a bundle traps with cause 0x07 and the
target (R102, R103, R325). Under P0 a transfer is always taken, and under P0 with the negate bit never (R100). -/
def Obligations.Transfers : Prop :=
  (∀ (s : State) (p : BitVec 4) (neg : Bool) (disp : BitVec 20),
      (Claims.takes s p neg = false → exec (.br p neg disp) s = .next (Claims.same s) ∧ exec (.call p neg disp) s = .next (Claims.same s)
          ∧ exec (.lexit p neg disp) s = .next (Claims.same s))
        ∧ (Claims.takes s p neg = true → exec (.br p neg disp) s = .next (Claims.controls s (.taken (Claims.target s disp))))
        ∧ (Claims.takes s p neg = true → s.core.regs.sIsFull 31 = true →
            exec (.call p neg disp) s = .next (Claims.answer (Claims.controls s (.taken (Claims.target s disp))) 1 (.s 31 (Claims.link s))))
        ∧ (Claims.takes s p neg = true → s.core.regs.loops ≠ [] →
            exec (.lexit p neg disp) s = .next (let t := Claims.controls s (.taken (Claims.target s disp));
              { t with core := { t.core with regs := { t.core.regs with loops := s.core.regs.loops.dropLast } } }))
        ∧ (Claims.takes s p neg = true → s.core.regs.loops = [] → s.core.issue.pass = false → exec (.lexit p neg disp) s = .next (Claims.traps s 0x02 6)))
    ∧ (∀ (s : State) (d a : BitVec 5) (ta : Bool), s.core.regs.sIsFull a = true → s.core.regs.sIsFull d = true →
      ((s.core.regs.sVal a).toNat % (Claims.bundleBytes s).toNat = 0 →
          exec (.jr a ta) s = .next (Claims.controls s (.taken (s.core.regs.sVal a)))
            ∧ exec (.jalr d a ta) s = .next (Claims.answer (Claims.controls s (.taken (s.core.regs.sVal a))) 1 (.s d (Claims.link s)))
            ∧ (a = 31 → exec .ret s = .next (Claims.controls s (.taken (s.core.regs.sVal 31)))))
        ∧ ((s.core.regs.sVal a).toNat % (Claims.bundleBytes s).toNat ≠ 0 → s.core.issue.pass = false →
          exec (.jr a ta) s = .next (Claims.traps s 0x07 (s.core.regs.sVal a))
            ∧ exec (.jalr d a ta) s = .next (Claims.traps s 0x07 (s.core.regs.sVal a))
            ∧ (a = 31 → exec .ret s = .next (Claims.traps s 0x07 (s.core.regs.sVal 31)))))
    ∧ (∀ s : State, Claims.takes s 0 false = true ∧ Claims.takes s 0 true = false)

/-- The machine after a loop starts with a count: a count of 0 skips the body and pushes nothing, any other pushes the loop and goes on at its start (R105). -/
def Sys2Proof.Claims.loopStarts (s : State) (rot : Bool) (len : BitVec 10) (c : Word) : State :=
  let start := s.core.regs.pc + Claims.bundleBytes s
  let stop := s.core.regs.pc + Claims.bundleBytes s * len.setWidth 64
  if c = 0 then Claims.controls s (.loopTo (stop + Claims.bundleBytes s))
  else
    let t := Claims.controls s (.loopTo start);
    { t with core := { t.core with regs := { t.core.regs with loops := s.core.regs.loops ++ [⟨start, stop, c, rot⟩] } } }

/-- LOOP, LOOPI and LOOPQ with room on the loop stack start their loops, LOOPQ with the head of the count queue, which it pops and for which it waits; with four loops active they
trap (R104-R106, R109). -/
def Obligations.LoopIssue : Prop :=
  ∀ (s : State) (rot t : Bool) (len : BitVec 10) (n : BitVec 5) (k : BitVec 12),
    (s.core.regs.loops.length < 4 →
        (s.core.regs.sIsFull n = true → exec (.loop rot len t n) s = .next (Claims.loopStarts s rot len (s.core.regs.sVal n)))
          ∧ exec (.loopi rot len k) s = .next (Claims.loopStarts s rot len (k.setWidth 64))
          ∧ (∀ (c : Word32) (q : List Word32), s.core.regs.countQ = c :: q → exec (.loopq rot len) s = .next
              (let u := Claims.loopStarts s rot len (c.setWidth 64);
                { u with core := { u.core with regs := { u.core.regs with countQ := q } } }))
          ∧ (s.core.regs.countQ = [] → s.core.issue.pass = false → exec (.loopq rot len) s = .next (Claims.waits s 0x08)))
      ∧ (4 ≤ s.core.regs.loops.length → s.core.issue.pass = false →
          exec (.loopi rot len k) s = .next (Claims.traps s 0x02 5)
            ∧ (s.core.regs.sIsFull n = true → exec (.loop rot len t n) s = .next (Claims.traps s 0x02 5))
            ∧ (s.core.regs.countQ ≠ [] → exec (.loopq rot len) s = .next (Claims.traps s 0x02 5)))

/-- The bundle after an issued one (R98): the two bundles after a taken transfer are its delay slots, and then the target; without loops or a pending transfer the next bundle
in sequence. The close of the innermost loop at its end bundle (R98, R107, R112): its count goes down by one, a rotating loop takes one from each base, and a count that is not yet 0 goes back
to the start; at 0 the loop is popped. No other loop closes. -/
def Obligations.NextBundle : Prop :=
  (∀ (r : Regs) (u t : Word) (tr : Bool), r.loops = [] →
      ((r.advance u (.taken t) tr).pc = r.pc + u ∧ (r.advance u (.taken t) tr).pend = some ⟨t, 2⟩)
        ∧ (r.pend = some ⟨t, 2⟩ → (r.advance u .seq tr).pc = r.pc + u ∧ (r.advance u .seq tr).pend = some ⟨t, 1⟩)
        ∧ (r.pend = some ⟨t, 1⟩ → (r.advance u .seq tr).pc = t ∧ (r.advance u .seq tr).pend = none)
        ∧ (r.pend = none → (r.advance u .seq tr).pc = r.pc + u ∧ (r.advance u .seq tr).pend = none)
        ∧ ((r.advance u (.loopTo t) tr).pc = t)
        ∧ (r.advance u .seq tr).s = r.s ∧ (r.advance u .seq tr).v = r.v ∧ (r.advance u .seq tr).status = r.status)
    ∧ (∀ (r : Regs) (l : List Loop) (top : Loop) (u : Word), r.pend = none → r.loops = l ++ [top] →
      (r.pc = top.stop →
          (top.count ≠ 1 → (r.advance u .seq false).pc = top.start ∧ (r.advance u .seq false).loops = l ++ [{ top with count := top.count - 1 }])
            ∧ (top.count = 1 → (r.advance u .seq false).pc = r.pc + u ∧ (r.advance u .seq false).loops = l)
            ∧ (r.advance u .seq false).vrb = (if top.rot then r.vrb - 1 else r.vrb) ∧ (r.advance u .seq false).prb = (if top.rot then r.prb - 1 else r.prb))
        ∧ (r.pc ≠ top.stop → (r.advance u .seq false).pc = r.pc + u ∧ (r.advance u .seq false).loops = r.loops
            ∧ (r.advance u .seq false).vrb = r.vrb ∧ (r.advance u .seq false).prb = r.prb))

/-- NOP changes nothing; END notes that the task has ended, and once its bundle has issued the core issues no more; a bundle that takes a checkpoint freezes for it first (R69, R115, R371, R372). -/
def Obligations.NopAndEnd : Prop :=
  ∀ (s : State) (all : List Instr),
    exec .nop s = .next (Claims.same s)
      ∧ exec .endTask s = .next { s with core := { s.core with issue := { s.core.issue with res := .issued, ended := true } } }
      ∧ (s.core.issue.ended = true → (s.finish all).core.life = (if s.core.issue.ckpt || s.core.regs.ckptDue then .checkpoint else .ended) ∧ (s.finish all).canIssue = false)

/-! ### The V slots -/

/-- The elements of w bytes of a vector register, lowest first (R175). -/
def Sys2Proof.Claims.lanes (w : Nat) (v : VReg) : List Nat := (List.range (1024 / w)).map fun i => (v.extractLsb' (8 * w * i) (8 * w)).toNat

/-- The model's elements of a register are its fields in order, and putting elements together gives them back, each reduced to its width (R175). A mask enables an element as the bit of its lowest byte says, and the mask of the result covers the element's bytes (R176). -/
def Obligations.Elements : Prop :=
  (∀ (v : VReg) (w : Nat) (l : List Nat), w = 1 ∨ w = 2 ∨ w = 4 ∨ w = 8 → l.length = 1024 / w →
      elems w v = Claims.lanes w v ∧ elems w (vecOf w l) = l.map fun x => x % 2 ^ (8 * w))
    ∧ (∀ (m : PReg) (w i b : Nat), w = 1 ∨ w = 2 ∨ w = 4 ∨ w = 8 → i < 1024 / w → b < w →
      (enabledElems w m)[i]? = some (m.getLsbD (w * i)) ∧ (elemMask w m).getLsbD (w * i + b) = m.getLsbD (w * i))

/-- A vector result: the elements that the instruction computes, masked, and the flags of the enabled elements (R176-R178). -/
def Sys2Proof.Claims.rowV (lat : Nat) (d : BitVec 6) (w : Nat) (m : BitVec 4) (ops : List Claims.Operand) (f : State → List (Nat × Flags)) : Option Claims.Row :=
  some {
    ops := ops, lat := lat
    what := fun s => .v (physV s.core.regs.vrb d) (vecOf w ((f s).map Prod.fst)) (elemMask w (s.p m))
    flags := fun s => vecFlags (enabledElems w (s.p m)) (f s) }

/-- An elementwise result of one source. -/
def Sys2Proof.Claims.each1 (w : Nat) (a : BitVec 6) (f : Nat → Nat × Flags) (s : State) : List (Nat × Flags) := (elems w (s.v a)).map f

/-- An elementwise result of two sources. -/
def Sys2Proof.Claims.each2 (w : Nat) (a b : BitVec 6) (f : Nat → Nat → Nat × Flags) (s : State) : List (Nat × Flags) :=
  (elems w (s.v a)).zipWith f (elems w (s.v b))

/-- An elementwise result of two sources and the destination. -/
def Sys2Proof.Claims.each3 (w : Nat) (a b d : BitVec 6) (f : Nat → Nat → Nat → Nat × Flags) (s : State) : List (Nat × Flags) :=
  (List.range (1024 / w)).map fun i => f ((elems w (s.v a)).getD i 0) ((elems w (s.v b)).getD i 0) ((elems w (s.v d)).getD i 0)

/-- An operation on a type: an integer function without flags, or a float one (R180). -/
def Sys2Proof.Claims.rowT (d a b : BitVec 6) (ty : TyF) (m : BitVec 4) (int : Nat → Nat → Nat) (flt : FloatFmt → Nat → Nat → Nat × Flags) : Option Claims.Row :=
  Claims.rowV (match ty with
    | .i8 | .i16 | .i32 | .i64 => 2
    | .fp16 | .bf16 | .fp32 | .fp64 => 4) d ty.bytes m [] (Claims.each2 ty.bytes a b (match fmtF ty with
      | some f => flt f
      | none => fun x y => (int x y, 0)))

/-- An integer operation with latency 2 (R183). -/
def Sys2Proof.Claims.rowI (d a b : BitVec 6) (ty : TyI) (m : BitVec 4) (f : Nat → Nat → Nat) : Option Claims.Row :=
  Claims.rowV 2 d ty.bytes m [] (Claims.each2 ty.bytes a b fun x y => (f x y, 0))

/-- The vector arithmetic and logic (R180-R185, R189, R191). Elements are numbers below 2^n, n the bits of the type; results are taken modulo 2^n. -/
def Sys2Proof.Claims.vectorRow : Instr → Option Claims.Row
  | .vadd d a b ty m => Claims.rowT d a b ty m (fun x y => x + y) FloatFmt.add
  | .vsub d a b ty m => Claims.rowT d a b ty m (fun x y => x + (2 ^ (8 * ty.bytes) - y)) FloatFmt.sub
  | .vmul d a b ty m => Claims.rowT d a b ty m (fun x y => x * y) FloatFmt.mul
  | .vmin d a b ty m => Claims.rowT d a b ty m (fun x y => if sintOf (8 * ty.bytes) x < sintOf (8 * ty.bytes) y then x else y) fun f => f.minmax false false
  | .vmax d a b ty m => Claims.rowT d a b ty m (fun x y => if sintOf (8 * ty.bytes) x < sintOf (8 * ty.bytes) y then y else x) fun f => f.minmax true false
  | .vminn d a b ty m => Claims.rowV ty.lat d ty.bytes m [] (Claims.each2 ty.bytes a b (match fmtN ty with
      | some f => f.minmax false true
      | none => fun x y => (if x < y then x else y, 0)))
  | .vmaxn d a b ty m => Claims.rowV ty.lat d ty.bytes m [] (Claims.each2 ty.bytes a b (match fmtN ty with
      | some f => f.minmax true true
      | none => fun x y => (if x < y then y else x, 0)))
  | .vfma d a b ty m => Claims.rowV 4 d ty.bytes m [] (Claims.each3 ty.bytes a b d ((fmtL ty).fma false))
  | .vfms d a b ty m => Claims.rowV 4 d ty.bytes m [] (Claims.each3 ty.bytes a b d ((fmtL ty).fma true))
  | .vabs d a ty m => Claims.rowV 2 d ty.bytes m [] (Claims.each1 ty.bytes a fun x =>
      (if (fmtF ty).isSome then x % 2 ^ (8 * ty.bytes - 1) else if sintOf (8 * ty.bytes) x < 0 then 2 ^ (8 * ty.bytes) - x else x, 0))
  | .vneg d a ty m => Claims.rowV 2 d ty.bytes m [] (Claims.each1 ty.bytes a fun x =>
      (if (fmtF ty).isSome then x ^^^ 2 ^ (8 * ty.bytes - 1) else 2 ^ (8 * ty.bytes) - x, 0))
  | .vaddSat d a b ty m => Claims.rowV 2 d ty.bytes m [] (Claims.each2 ty.bytes a b (satOp ty false))
  | .vsubSat d a b ty m => Claims.rowV 2 d ty.bytes m [] (Claims.each2 ty.bytes a b (satOp ty true))
  | .vand d a b ty m => Claims.rowI d a b ty m fun x y => x &&& y
  | .vor d a b ty m => Claims.rowI d a b ty m fun x y => x ||| y
  | .vxor d a b ty m => Claims.rowI d a b ty m fun x y => x ^^^ y
  | .vandn d a b ty m => Claims.rowI d a b ty m fun x y => x &&& (2 ^ (8 * ty.bytes) - 1 - y)
  | .vshl d a b ty m => Claims.rowI d a b ty m fun x y => x * 2 ^ (y % (8 * ty.bytes))
  | .vshr d a b ty m => Claims.rowI d a b ty m fun x y => x / 2 ^ (y % (8 * ty.bytes))
  | .vsra d a b ty m => Claims.rowI d a b ty m fun x y => (BitVec.ofInt (8 * ty.bytes) (sintOf (8 * ty.bytes) x / 2 ^ (y % (8 * ty.bytes)))).toNat
  | .vfsh d a b ty m => Claims.rowV 2 d ty.bytes m [] (Claims.each3 ty.bytes a b d fun x y c =>
      ((x * 2 ^ (8 * ty.bytes) + y) / 2 ^ (c % (8 * ty.bytes)), 0))
  | .vbfx d a b ty m => Claims.rowI d a b ty m fun x y => x / 2 ^ (y % (8 * ty.bytes)) % 2 ^ (y / (8 * ty.bytes) % (8 * ty.bytes) + 1)
  | .vmov d a ty m => Claims.rowV 2 d ty.bytes m [] (Claims.each1 ty.bytes a fun x => (x, 0))
  | .vspl d t sr ty m => Claims.rowV 2 d ty.bytes m [Claims.S sr t] fun s => List.replicate (1024 / ty.bytes) ((s.core.regs.sVal sr).toNat, 0)
  | .vidx d ty m => Claims.rowV 2 d ty.bytes m [] fun _ => (List.range (1024 / ty.bytes)).map fun i => (i, 0)
  | .vcls d a ty m => Claims.rowV 2 d ty.bytes m [] (Claims.each1 ty.bytes a fun x => (classOf (fmtL ty) x, 0))
  | .vscale d a b ty m => Claims.rowV 4 d ty.bytes m [] fun s => Claims.each2 ty.bytes a b
      (fun x y => blockScale (fmtL ty) ((fmtL ty).value x) (scaleEntry s.core.regs.k y)) s
  | .vln d a ty m => Claims.rowV 10 d ty.bytes m [] (Claims.each1 ty.bytes a ((fmtT ty).trans .ln))
  | .vexp d a ty m => Claims.rowV 10 d ty.bytes m [] (Claims.each1 ty.bytes a ((fmtT ty).trans .exp))
  | .vlog2 d a ty m => Claims.rowV 10 d ty.bytes m [] (Claims.each1 ty.bytes a ((fmtT ty).trans .log2))
  | .vexp2 d a ty m => Claims.rowV 10 d ty.bytes m [] (Claims.each1 ty.bytes a ((fmtT ty).trans .exp2))
  | .vrcp d a ty m => Claims.rowV 10 d ty.bytes m [] (Claims.each1 ty.bytes a ((fmtT ty).trans .rcp))
  | .vrsq d a ty m => Claims.rowV 10 d ty.bytes m [] (Claims.each1 ty.bytes a ((fmtT ty).trans .rsq))
  | .vsqrt d a ty m => Claims.rowV 10 d ty.bytes m [] (Claims.each1 ty.bytes a ((fmtT ty).trans .sqrt))
  | .vtanh d a ty m => Claims.rowV 10 d ty.bytes m [] (Claims.each1 ty.bytes a ((fmtT ty).trans .tanh))
  | .vsigm d a ty m => Claims.rowV 10 d ty.bytes m [] (Claims.each1 ty.bytes a ((fmtT ty).trans .sigm))
  | _ => none

/-- Each elementwise vector instruction of the table issues, with its S operand full where it has one, and its masked result and flags are on their way; nothing else changes. The transcendental functions are the
library's of R198, whose choice of rounding is the model's (log 8) (R123, R175-R185, R189, R191, R197, R198). -/
def Obligations.VectorResult : Prop :=
  ∀ (i : Instr) (r : Claims.Row) (s : State), Claims.vectorRow i = some r → Claims.allFull s r.ops = true →
    exec i s = .next (Claims.answer s r.lat (r.what s) (r.flags s))

/-- The comparison of two elements and its flags (R186). -/
def Sys2Proof.Claims.lessOrSo (cc : VCond) (ty : TyF) (x y : Nat) : Bool × Flags :=
  match fmtF ty with
  | some f => f.compare (match cc with
      | .eq => .eq
      | .ne => .ne
      | .lt => .lt
      | .le => .le) x y
  | none => (match cc with
      | .eq => decide (x = y)
      | .ne => decide (x ≠ y)
      | .lt => decide (sintOf (8 * ty.bytes) x < sintOf (8 * ty.bytes) y)
      | .le => decide (sintOf (8 * ty.bytes) x ≤ sintOf (8 * ty.bytes) y), 0)

/-- VCMP writes the result to every bit of each enabled element's bytes; VSEL writes every element, of the first source where the selector's lowest bit of the element is set and of the
second elsewhere; VGET reads the element whose number is the index modulo the element count. Each issues with its result on its way, and nothing else changes (R186, R188, R190). VRND: word l of the register is the draw of lane l under the core's seed and random counter, and the counter goes up by one as it issues (R195, R196). VCVT converts the elements of
the slots of the wider format, each by R193's rule, and sets the flags that any of the conversions raises; only with stochastic rounding does the counter go up (R178, R193, R194). -/
def Obligations.VectorOther : Prop :=
  (∀ (s : State) (a b d : BitVec 6) (m p : BitVec 4),
      (∀ (cc : VCond) (ty : TyF), exec (.vcmp cc p a b ty m) s = .next
          (let r := (elems ty.bytes (s.v a)).zipWith (Claims.lessOrSo cc ty) (elems ty.bytes (s.v b));
            Claims.answer s 2 (.p (physP s.core.regs.prb p)
              (BitVec.ofNat 1024 (joinBits ty.bytes (r.map fun x => if x.1 then 2 ^ ty.bytes - 1 else 0))) (elemMask ty.bytes (s.p m)))
              (vecFlags (enabledElems ty.bytes (s.p m)) (r.map fun x => (0, x.2)))))
        ∧ (∀ ty : TyI, ∃ v : VReg, exec (.vsel d a b ty m) s = .next (Claims.answer s 2 (.v (physV s.core.regs.vrb d) v (BitVec.allOnes 1024)))
          ∧ ∀ i < 1024, v.extractLsb' (8 * i) 8 =
            if (s.p m).getLsbD (ty.bytes * (i / ty.bytes)) then (s.v a).extractLsb' (8 * i) 8 else (s.v b).extractLsb' (8 * i) 8)
        ∧ (∀ (ty : TyI) (sd si : BitVec 5) (t : Bool), Claims.allFull s [Claims.S si t, Claims.S sd] = true →
          exec (.vget sd a t si ty) s = .next (Claims.answer s 3 (.s sd (BitVec.ofNat 64
            ((elems ty.bytes (s.v a)).getD ((s.core.regs.sVal si).toNat % (1024 / ty.bytes)) 0))))))
    ∧ (∀ (s : State) (d a : BitVec 6) (m : BitVec 4), s.me.isComp = false →
      (∀ ty : TyI, exec (.vrnd d ty m) s = .next
          (let t := Claims.answer s 3 (.v (physV s.core.regs.vrb d)
              (vecOf 4 ((List.range 256).map fun l => (draw s.core.regs.seed l s.core.regs.rnd).toNat)) (elemMask ty.bytes (s.p m)));
            { t with core := { t.core with regs := { t.core.regs with rnd := s.core.regs.rnd + 1 } } }))
        ∧ (∀ (dst src : Fmt) (sat : Bool) (rnd : Rnd), ∃ (v : VReg) (fl : Flags), exec (.vcvt d a dst src sat rnd) s = .next
            (let t := Claims.answer s 3 (.v (physV s.core.regs.vrb d) v (BitVec.allOnes 1024)) fl;
              { t with core := { t.core with regs := { t.core.regs with rnd := if rnd = .sr then s.core.regs.rnd + 1 else s.core.regs.rnd } } })
          ∧ ((Instr.vcvt d a dst src sat rnd).wellFormed = true →
            let w := Nat.max (fmtBits src) (fmtBits dst)
            let slot (i : Nat) : Nat × Flags :=
              convertOne dst src sat rnd (if rnd = .sr then slotRandom s.core.regs.seed s.core.regs.rnd (w * i / 8) else 0) ((s.v a).extractLsb' (w * i) (fmtBits src)).toNat;
            (∀ i < 8192 / w, (v.extractLsb' (w * i) w).toNat = (slot i).1 % 2 ^ fmtBits dst)
              ∧ ∀ b < 5, fl.getLsbD b = true ↔ ∃ i < 8192 / w, (slot i).2.getLsbD b = true)))

/-- The vector access's effective address: the offset counts 64 bytes (R200). -/
def Sys2Proof.Claims.vaddr (s : State) (a : BitVec 5) (off : BitVec 7) : Word :=
  (if s.me.isComp then s.core.regs.sVal a else s.core.regs.aVal a) + (off.signExtend 64 <<< 6)

/-- A local operand of n bytes lies in the part of the window that the task may use, at its alignment (R26, R152, R274). -/
def Sys2Proof.Claims.inWindow (s : State) (ea : Word) (n align : Nat) : Prop :=
  ea.toNat % align = 0 ∧ 0xF00000000000 ≤ ea.toNat ∧ ea.toNat + n ≤ 0xF00000000000 + s.core.window s.me.isComp

/-- No unit of a range holds an uncorrectable error (log 16), and no store is pending on it in debug pending mode (R132, R201). -/
def Sys2Proof.Claims.readable (s : State) (off n : Nat) : Prop :=
  (∀ u ∈ s.core.badUnits, u < off / 64 ∨ (off + n + 63) / 64 ≤ u) ∧ s.pendingWord off n = none

/-- The byte of the scratchpad that the bundle's loads find at an offset: what is there, or what stood there before the stores that a BAR holding the
bundle has performed (R126, R282). -/
def Sys2Proof.Claims.byte (s : State) (o : Nat) : Byte := ((s.core.regs.before.lookup o).map Prod.fst).getD (Sparse.get 0 s.core.scratch o)

/-- The bytes that a local load may return: each is the scratchpad's, or that of a write that nothing orders before the load, or the one that such a write has
replaced; with no such write they are the scratchpad's (R126, R305, R307, log 61). -/
def Sys2Proof.Claims.maySee (s : State) (b : ScratchAccess) (bs : List Byte) : Prop :=
  bs.length = b.size
    ∧ (∀ i x, bs[i]? = some x → Claims.byte s (b.off + i) = x ∨ ∃ t ∈ s.core.regs.stores, t.acc.now = false ∧ t.acc.passedBy b = true
      ∧ (t.at (b.off + i) = some x ∨ ((t.at (b.off + i)).isSome = true ∧ ∃ old, t.old = some old ∧ old[b.off + i - t.acc.off]? = some x)))
    ∧ ((∀ t ∈ s.core.regs.stores, t.acc.now = true ∨ t.acc.passedBy b = false) → bs = (List.range b.size).map fun i => Claims.byte s (b.off + i))

/-- The bytes with which a local store may perform: each is its own, or that of another store of another alias class, issued in an earlier bundle, that is not ordered
against it; and the offsets at which such a store stays, with its number (R126, R305, log 61). -/
def Sys2Proof.Claims.mayWrite (s : State) (b : ScratchAccess) (data bytes : VReg) (kept : List (Nat × Nat)) : Prop :=
  let other (t : LocalStore) : Prop := t ∈ s.core.regs.stores ∧ t.acc.now = false ∧ t.acc.passedBy b = true
  (∀ i, i < b.size → bytes.extractLsb' (8 * i) 8 = data.extractLsb' (8 * i) 8 ∨ ∃ t, other t ∧ t.at (b.off + i) = some (bytes.extractLsb' (8 * i) 8))
    ∧ (∀ p ∈ kept, ∃ t, other t ∧ t.no = p.2 ∧ (t.at p.1).isSome = true)
    ∧ ((∀ t ∈ s.core.regs.stores, t.acc.now = true ∨ t.acc.passedBy b = false) → bytes = data ∧ kept = [])

/-- The machine with what it has noted, of the stores on record, that the task's loads have read, and with nothing else changed; with no racing store it is the machine
itself (R304, log 61). -/
def Sys2Proof.Claims.noted (s : State) (b : ScratchAccess) (t : State) : Prop :=
  let forget (l : List LocalStore) := l.map fun x => { x with saw := [] }
  (∃ (n : Nat) (l : List LocalStore), forget l = forget s.core.regs.stores
      ∧ t = { s with fresh := n, core := { s.core with regs := { s.core.regs with stores := l } } })
    ∧ ((∀ x ∈ s.core.regs.stores, x.acc.now = true ∨ x.acc.passedBy b = false) → t = s)

/-- The machine after a local load: its value is on its way, and on a main core it is noted that later stores of another class may meet it (R305). -/
def Sys2Proof.Claims.loads (s : State) (lat : Nat) (b : ScratchAccess) (sz : BitVec 2) (sxt : Bool) (what : Land) : State :=
  let t := Claims.answer s lat what
  if s.me.isComp then t else { t with core := { t.core with regs := { t.core.regs with loads := t.core.regs.loads ++ [⟨b, sz, sxt, lat, what⟩] } } }

/-- The machine after a local store: it is on its way with its bytes, and on a main core it is noted, and the loads in flight that it meets may change (R126, R305). -/
def Sys2Proof.Claims.puts (s : State) (slot : Slot) (b : ScratchAccess) (data bytes : VReg) (kept : List (Nat × Nat)) (mask : PReg) : State :=
  if s.me.isComp then Claims.answer s 2 (.store slot b.off data mask s.core.regs.dbgPend)
  else
    let t : LocalStore := { no := s.fresh, acc := b, data := bytes, mask := mask, kept := kept }
    let g := s.core.regs.meetLoads t
    let u := Claims.answer { s with fresh := s.fresh + 1, core := { s.core with regs := g.1 } } 2 (.store slot b.off bytes mask s.core.regs.dbgPend)
    { u with core := { u.core with regs := u.core.regs.noteWrite { t with seen := g.2 } } }

/-- VLD and VST on a main core whose A register is full and whose 1,024 bytes lie in the window at a multiple of 64: the load sends the bytes as they are now, or those of a store that it may pass, to its register, the store sends its register's
bytes under the mask to the scratchpad; a post-modify sends the advanced address. Nothing else changes (R126, R200, R201). An address that is no multiple of 64 traps with cause 0x07, one whose bytes do not all lie in the window with 0x09, a load of a word that a store has
pending in debug pending mode with 0x06, and one of a unit with an uncorrectable error with 0x0A; a post-modify whose step no bit-reversed advance takes with 0x07 and the step (R132, R158, R200, R201). VLDRB reads a result-buffer entry that no MHAND has pending; a pending one traps with cause 0x05, and TRAP_VAL holds the bundles left and the entry (R131, R202). -/
def Obligations.VectorMemory : Prop :=
  (∀ (s : State) (d : BitVec 6) (a : BitVec 5) (pm : Bool) (ac : BitVec 2) (off : BitVec 7) (m : BitVec 4), s.me.isComp = false →
      Claims.allFull s [Claims.A a] = true → (pm = true → Claims.advances s a) → Claims.inWindow s (Claims.vaddr s a off) 1024 64 →
      let o := (Claims.vaddr s a off).toNat - 0xF00000000000
      let t := if pm then Claims.answer s 1 (.a a (s.advanced a)) else s
      let b : ScratchAccess := { path := 1, ac := ac, off := o, size := 1024 }
      (Claims.readable s o 1024 → ∃ bs u, Claims.maySee s b bs ∧ Claims.noted t b u ∧ exec (.vld d a pm ac off m) s = .next
          (Claims.loads u 6 b 0 false (.v (physV s.core.regs.vrb d) (BitVec.ofNat 8192 (leNat bs)) (s.p m))))
        ∧ ∃ bytes kept, Claims.mayWrite s b (s.v d) bytes kept ∧ exec (.vst d a pm ac off m) s = .next (Claims.puts t s.core.issue.slot b (s.v d) bytes kept (s.p m)))
    ∧ (∀ (s : State) (d : BitVec 6) (a : BitVec 5) (pm : Bool) (ac : BitVec 2) (off : BitVec 7) (m : BitVec 4), s.me.isComp = false → s.core.issue.pass = false →
      Claims.allFull s [Claims.A a] = true →
      let ea := Claims.vaddr s a off
      let o := ea.toNat - 0xF00000000000
      (pm = true → ¬ Claims.advances s a →
          exec (.vld d a pm ac off m) s = .next (Claims.traps s 0x07 (s.stepOf a)) ∧ exec (.vst d a pm ac off m) s = .next (Claims.traps s 0x07 (s.stepOf a)))
        ∧ ((pm = true → Claims.advances s a) →
          (ea.toNat % 64 ≠ 0 → exec (.vld d a pm ac off m) s = .next (Claims.traps s 0x07 ea) ∧ exec (.vst d a pm ac off m) s = .next (Claims.traps s 0x07 ea))
            ∧ (ea.toNat % 64 = 0 → ¬ Claims.inWindow s ea 1024 64 →
              exec (.vld d a pm ac off m) s = .next (Claims.traps s 0x09 ea) ∧ exec (.vst d a pm ac off m) s = .next (Claims.traps s 0x09 ea))
            ∧ (∀ w, Claims.inWindow s ea 1024 64 → s.pendingWord o 1024 = some w → exec (.vld d a pm ac off m) s = .next (Claims.traps s 0x06 (0xF00000000000 + BitVec.ofNat 64 w)))
            ∧ (∀ u, Claims.inWindow s ea 1024 64 → s.pendingWord o 1024 = none → u ∈ s.core.badUnits → o / 64 ≤ u → u < (o + 1087) / 64 →
              (∀ k ∈ s.core.badUnits, o / 64 ≤ k → u ≤ k) → exec (.vld d a pm ac off m) s = .next (Claims.traps s 0x0A (0xF00000000000 + BitVec.ofNat 64 (64 * u))))))
    ∧ (∀ (s : State) (d : BitVec 6) (e m : BitVec 4),
      (s.rbWait e = 0 → exec (.vldrb d e m) s = .next (Claims.answer s 2 (.v (physV s.core.regs.vrb d) (s.core.rb[e.toNat]'e.isLt) (s.p m))))
        ∧ (s.rbWait e ≠ 0 → s.core.issue.pass = false → exec (.vldrb d e m) s = .next (Claims.traps s 0x05 (BitVec.ofNat 64 (s.rbWait e * 256 + e.toNat))))
        ∧ (let pending := s.core.regs.flight ++ (s.core.captured.map Captured.flight).getD [];
          (∀ f ∈ pending, ∀ v, f.what = .rb e v → f.left ≤ s.rbWait e) ∧ (s.rbWait e ≠ 0 → ∃ f ∈ pending, ∃ v, f.what = .rb e v ∧ f.left = s.rbWait e)))

/-! ### Full and empty registers -/

/-- The instructions of the tables above that only send a result. -/
def Sys2Proof.Claims.row (i : Instr) : Option Claims.Row :=
  ((((Claims.scalarRow i).or (Claims.predicateRow i)).or (Claims.floatRow i)).or (Claims.addressRow i)).or (Claims.vectorRow i)

/-- An instruction of those tables that names an empty register, while its bundle's checks are being made: it holds its bundle if the register is read without the trap-if-empty bit or written,
and only a cycle is counted; if every empty register is read with the bit set it traps with cause 0x04 and the first of them as TRAP_VAL. Nothing of the instruction takes effect (R127). What a held bundle leaves: in task mode the cycle counter and the counters of its event go on; no register, result in
flight, memory byte, queue or other core changes (R54, R120, R127, R399). -/
def Obligations.EmptyRegister : Prop :=
  (∀ (i : Instr) (r : Claims.Row) (s : State), Claims.row i = some r → s.core.issue.pass = false →
      (∀ o ∈ r.ops, o.full s = false → o.trap = false → exec i s = .next (Claims.waits s 0x03))
        ∧ (∀ (l t : List Claims.Operand) (o : Claims.Operand), r.ops = l ++ o :: t → Claims.allFull s l = true → o.full s = false →
            (∀ q ∈ r.ops, q.full s = false → q.trap = true) → exec i s = .next (Claims.traps s 0x04 (o.trapVal s))))
    ∧ (∀ (s : State) (code : BitVec 8),
      let t := Claims.waits s code
      t.core.regs = s.core.regs ∧ t.core.scratch = s.core.scratch ∧ t.core.memq = s.core.memq ∧ t.core.cmds = s.core.cmds ∧ t.core.task = s.core.task
        ∧ t.mem = s.mem ∧ t.lines = s.lines ∧ t.dies = s.dies ∧ t.dev = s.dev ∧ t.others = s.others
        ∧ t.core.cycles = (if s.core.regs.status.getLsbD 0 then s.core.cycles else s.core.cycles + 1) ∧ t.core.issue.res = .held)

/-! ### The S slot: memory -/

/-- The effective address of an LD or ST: the offset counts accesses (R151). -/
def Sys2Proof.Claims.address (s : State) (a : BitVec 5) (sz : BitVec 2) (off : BitVec 9) : Word :=
  (if s.me.isComp then s.core.regs.sVal a else s.core.regs.aVal a) + off.signExtend 64 * (2 ^ sz.toNat)

/-- The register update of a post-modify: a main core advances the A register, a companion core adds the access size (R151, R322). -/
def Sys2Proof.Claims.post (s : State) (a : BitVec 5) (pm : Bool) (size : Nat) : State :=
  if pm then Claims.answer s 1 (if s.me.isComp then .s a (s.core.regs.sVal a + BitVec.ofNat 64 size) else .a a (s.advanced a)) else s

/-- The value of a load: the bytes, low first, sign-extended or not (R150). -/
def Sys2Proof.Claims.loaded (sz : BitVec 2) (sxt : Bool) (bs : List Byte) : Word :=
  if sxt then ((BitVec.ofNat (8 * 2 ^ sz.toNat) (leNat bs)).signExtend 64) else BitVec.ofNat 64 (leNat bs)

/-- LD and ST in the local window, with their registers full and their advance possible: the load sends the value of its bytes as they are now, or of a store that it may pass, with latency 4; the store sends its low bytes to the
scratchpad, or those of a store that may pass it, to perform at the end of the next bundle. The post-modify is on its way too, and nothing else changes (R126, R150-R152, R305). A store meets no load in flight unless its class differs, no FENCE stands between and their bytes meet. Every local access that its checks refuse traps, with a
post-modify or without: a step that no bit-reversed advance takes with cause 0x07 and the step, a misaligned address with cause 0x07, one outside the part of the window that the task may use with cause 0x09; TRAP_VAL is the address
(R26, R151, R152, R158). A load of a word that a store has pending in debug pending mode traps with cause 0x06 and the word's address, and one of a unit with an uncorrectable error, where none is pending, with cause 0x0A and the unit's (R132, R153; the
unit as the extent is the model's reading, log 16). -/
def Obligations.LocalAccess : Prop :=
  (∀ (s : State) (d a : BitVec 5) (pm : Bool) (ac sz : BitVec 2) (sxt : Bool) (off : BitVec 9),
      Claims.allFull s [Claims.A a, Claims.S d] = true → (pm = true → Claims.advances s a) →
      Claims.inWindow s (Claims.address s a sz off) (2 ^ sz.toNat) (2 ^ sz.toNat) →
      let o := (Claims.address s a sz off).toNat - 0xF00000000000
      let b : ScratchAccess := { path := 0, ac := ac, off := o, size := 2 ^ sz.toNat }
      let t := Claims.post s a pm (2 ^ sz.toNat)
      (Claims.readable s o (2 ^ sz.toNat) → ∃ bs u, Claims.maySee t b bs ∧ Claims.noted t b u
          ∧ exec (.ld d a pm ac sz sxt off) s = .next (Claims.loads u 4 b sz sxt (.s d (Claims.loaded sz sxt bs))))
        ∧ ∃ bytes kept, Claims.mayWrite t b ((s.core.regs.sVal d).setWidth 8192) bytes kept
          ∧ exec (.st d a pm ac sz off) s = .next (Claims.puts t .s b ((s.core.regs.sVal d).setWidth 8192) bytes kept (BitVec.ofNat 1024 (2 ^ 2 ^ sz.toNat - 1))))
    ∧ (∀ (g : Regs) (t : LocalStore), (∀ q ∈ g.loads, q.acc.now = true ∨ q.acc.passedBy t.acc = false) →
      (g.meetLoads t).2 = [] ∧ (g.meetLoads t).1.loads = g.loads ∧ (g.meetLoads t).1.flight = g.flight)
    ∧ (∀ (s : State) (d a : BitVec 5) (pm : Bool) (ac sz : BitVec 2) (sxt : Bool) (off : BitVec 9), s.core.issue.pass = false →
      Claims.allFull s [Claims.A a, Claims.S d] = true →
      let ea := Claims.address s a sz off
      0xF00000000000 ≤ ea.toNat → ea.toNat < 0xF00000200000 →
      (pm = true → ¬ Claims.advances s a →
          exec (.ld d a pm ac sz sxt off) s = .next (Claims.traps s 0x07 (s.stepOf a)) ∧ exec (.st d a pm ac sz off) s = .next (Claims.traps s 0x07 (s.stepOf a)))
        ∧ ((pm = true → Claims.advances s a) →
          (ea.toNat % 2 ^ sz.toNat ≠ 0 → exec (.ld d a pm ac sz sxt off) s = .next (Claims.traps s 0x07 ea)
              ∧ exec (.st d a pm ac sz off) s = .next (Claims.traps s 0x07 ea))
            ∧ (ea.toNat % 2 ^ sz.toNat = 0 → 0xF00000000000 + s.core.window s.me.isComp < ea.toNat + 2 ^ sz.toNat →
              exec (.ld d a pm ac sz sxt off) s = .next (Claims.traps s 0x09 ea) ∧ exec (.st d a pm ac sz off) s = .next (Claims.traps s 0x09 ea))
            ∧ (∀ w, Claims.inWindow s ea (2 ^ sz.toNat) (2 ^ sz.toNat) → s.pendingWord (ea.toNat - 0xF00000000000) (2 ^ sz.toNat) = some w →
              exec (.ld d a pm ac sz sxt off) s = .next (Claims.traps s 0x06 (0xF00000000000 + BitVec.ofNat 64 w)))
            ∧ (∀ u, Claims.inWindow s ea (2 ^ sz.toNat) (2 ^ sz.toNat) → s.pendingWord (ea.toNat - 0xF00000000000) (2 ^ sz.toNat) = none → u ∈ s.core.badUnits →
              u = (ea.toNat - 0xF00000000000) / 64 → exec (.ld d a pm ac sz sxt off) s = .next (Claims.traps s 0x0A (0xF00000000000 + BitVec.ofNat 64 (64 * u))))))

/-- A global address translates for an access and passes its checks: it is aligned, its high bits are zero, the core has the page's translation, and the rights and the physical checks
hold (R151, R153, R212, R213). -/
def Sys2Proof.Claims.translates (s : State) (ea : Word) (size : Nat) (write : Bool) (e : TlbEntry) : Prop :=
  ea.toNat % size = 0 ∧ bits ea 48 16 = 0 ∧ s.cached ea.toNat write = some e ∧ s.rights s.who write e = none
    ∧ s.physCheck s.who write (e.leafAt s ea.toNat).pa size = none

/-- The place of a translated access: its address, and the physical address and key of the page (R152, R214, R218). -/
def Sys2Proof.Claims.at (s : State) (ea : Word) (e : TlbEntry) : Place :=
  ⟨ea, BitVec.ofNat 52 (e.leafAt s ea.toNat).pa, BitVec.ofNat 6 (e.leafAt s ea.toNat).key, match region (e.leafAt s ea.toNat).pa with
    | .device _ => true
    | _ => false⟩

/-- An address outside the local window. -/
def Sys2Proof.Claims.outside (ea : Word) : Prop := ea.toNat < 0xF00000000000 ∨ 0xF00000200000 ≤ ea.toNat

/-- The page reaches the core's own scratchpad through region 0x1, at an offset whose n bytes the task may use: the access acts there as one in the window does
(R126, R305, log 76). -/
def Sys2Proof.Claims.ownAt (s : State) (p : Place) (n o : Nat) : Prop := region p.pa.toNat = .scratch s.me o ∧ o + n ≤ s.core.window s.me.isComp

/-- The machine after a memory operation of the core joins those outstanding, without a destination (R124, R152). -/
def Sys2Proof.Claims.stored (s : State) (op : MemOp) : State :=
  let e : MemEntry := { sup := s.core.regs.status.getLsbD 0, op := op, no := (s.core.rerun.map Rerun.no).getD 0 }
  { s with core := { s.core with memq := s.core.memq ++ [e], issue := { s.core.issue with res := .issued } } }

/-- A load or a store of one form. -/
def Sys2Proof.Claims.access (write : Bool) (d a : BitVec 5) (pm : Bool) (ac sz : BitVec 2) (sxt : Bool) (off : BitVec 9) : Instr :=
  if write then .st d a pm ac sz off else .ld d a pm ac sz sxt off

/-- The trap cause of a translation or a check that fails for good: a page that is not present 0x08, poison 0x0A, anything else 0x09 (R153, R377). -/
def Sys2Proof.Claims.causeOf : Flt → BitVec 8
  | .absent | .wait => 0x08
  | .poison => 0x0A
  | .perm | .staging | .aperture => 0x09

/-- The machine while a bundle waits for a walk (R153, R216, R399). -/
def Sys2Proof.Claims.walks (s : State) (ea : Word) (write : Bool) : State := (((s.askWalk (ea.setWidth 48) write).tick 1).count 0x0B 1).mark .held

/-- The machine after a trap that a failing walk raises: the walk counts on its die, and the miss on its core (R153, R399, R400). -/
def Sys2Proof.Claims.walkTraps (s : State) (cause : BitVec 8) (val : Word) : State :=
  State.mark (((s.count 0x0A 1).dieEvent s.me.die 0x0C 1).trapEnter cause val s.core.regs.pc) (.trapped cause)

/-- A global LD or ST whose registers are full and whose address translates and passes its checks: the load is outstanding and its register is empty from the end of the bundle on; the store is outstanding with
its data; the post-modify is on its way, and a page that only the die's cache held is in the core's. Nothing else changes: no byte of memory changes before the store performs (R124, R151-R153, R215). One that reaches the core's own scratchpad through region 0x1 reads and stores there as one in the window does, which is the model's
reading (log 76). A global access, with a post-modify or without, that does not translate for good, or that the rights or the physical checks refuse, traps before it issues: misaligned 0x07; high address bits or a page that is not present 0x08;
a permission 0x09; TRAP_VAL is the address. One that a walk can still translate, or that waits for the channel group of a table, waits (R39, R151, R153, R216). When a task's queued load performs at a line that no cache holds, its register takes the value of its bytes and becomes full; from a poisoned line it stays empty, and cause 0x0A with the address is due at the
next boundary (R124, R150, R153). -/
def Obligations.GlobalAccess : Prop :=
  (∀ (s : State) (d a : BitVec 5) (pm : Bool) (ac sz : BitVec 2) (sxt : Bool) (off : BitVec 9) (e : TlbEntry),
      Claims.allFull s [Claims.A a, Claims.S d] = true → (pm = true → Claims.advances s a) → Claims.outside (Claims.address s a sz off) →
      let ea := Claims.address s a sz off
      let n := 2 ^ sz.toNat
      let p := Claims.at s ea e
      let t := Claims.post s a pm n
      let acc (o : Nat) : ScratchAccess := { path := 0, ac := ac, off := o, size := n }
      (Claims.translates s ea n false e →
          ((∀ o, ¬ Claims.ownAt s p n o) → exec (.ld d a pm ac sz sxt off) s = .next (State.refill (Claims.outstanding t d (.load d p ac sz sxt)) ea false))
            ∧ (∀ o, Claims.ownAt s p n o →
              (Claims.readable s o n → ∃ bs u, Claims.maySee t (acc o) bs ∧ Claims.noted t (acc o) u
                  ∧ exec (.ld d a pm ac sz sxt off) s = .next (State.refill (Claims.outstanding u d (.value d (Claims.loaded sz sxt bs) 0)) ea false))
                ∧ (s.pendingWord o n = none → ¬ Claims.readable s o n →
                  exec (.ld d a pm ac sz sxt off) s = .next (State.refill (Claims.outstanding t d (.load d p ac sz sxt)) ea false))
                ∧ (∀ w, s.pendingWord o n = some w → s.core.issue.pass = false →
                  exec (.ld d a pm ac sz sxt off) s = .next (Claims.traps s 0x06 (0xF00000000000 + BitVec.ofNat 64 w)))))
        ∧ (Claims.translates s ea n true e →
          ((∀ o, ¬ Claims.ownAt s p n o) → exec (.st d a pm ac sz off) s = .next (State.refill (Claims.stored t (.store p ac sz (s.core.regs.sVal d))) ea true))
            ∧ (∀ o, Claims.ownAt s p n o → ∃ bytes kept, Claims.mayWrite t (acc o) ((s.core.regs.sVal d).setWidth 8192) bytes kept
              ∧ exec (.st d a pm ac sz off) s = .next (State.refill (Claims.puts t .s (acc o) ((s.core.regs.sVal d).setWidth 8192) bytes kept
                (BitVec.ofNat 1024 (2 ^ 2 ^ sz.toNat - 1))) ea true))))
    ∧ (∀ (s : State) (write : Bool) (d a : BitVec 5) (pm : Bool) (ac sz : BitVec 2) (sxt : Bool) (off : BitVec 9), s.core.issue.pass = false →
      Claims.allFull s [Claims.A a, Claims.S d] = true → (pm = true → Claims.advances s a) →
      let ea := Claims.address s a sz off
      let i := Claims.access write d a pm ac sz sxt off
      Claims.outside ea →
      (ea.toNat % 2 ^ sz.toNat ≠ 0 → exec i s = .next (Claims.traps s 0x07 ea))
        ∧ (ea.toNat % 2 ^ sz.toNat = 0 → bits ea 48 16 ≠ 0 → exec i s = .next (Claims.traps s 0x08 ea))
        ∧ (ea.toNat % 2 ^ sz.toNat = 0 → bits ea 48 16 = 0 →
          (s.cached ea.toNat write = none → ∀ f, s.walk ea.toNat = .error f → (f = .absent ∨ f = .perm ∨ f = .wait)
              ∧ exec i s = .next (if f = .wait then Claims.walks s ea write else Claims.walkTraps s (Claims.causeOf f) ea))
            ∧ (s.cached ea.toNat write = none → ∀ e p, s.walk ea.toNat = .ok (e, p) → exec i s = .next (match s.rights s.who write e with
              | none => Claims.walks s ea write
              | some f => Claims.walkTraps s (Claims.causeOf f) ea))
            ∧ (∀ e f, s.cached ea.toNat write = some e → s.rights s.who write e = some f → (f = .absent ∨ f = .perm) ∧ exec i s = .next (Claims.traps s (Claims.causeOf f) ea))
            ∧ (∀ e f, s.cached ea.toNat write = some e → s.rights s.who write e = none → s.physCheck s.who write (e.leafAt s ea.toNat).pa (2 ^ sz.toNat) = some f →
              exec i s = .next (Claims.traps s 0x09 ea))))
    ∧ (∀ (s : State) (k : Nat) (e : MemEntry) (d : BitVec 5) (p : Place) (ac sz : BitVec 2) (sxt : Bool) (o : Nat), s.mayPerform k = some e → e.op = .load d p ac sz sxt →
      e.sup = false → region p.pa.toNat = .device o → p.key = 0 → p.pa.toNat % 128 + 2 ^ sz.toNat ≤ 128 → (∀ c, Sparse.find? (s.getCore c).l1 (p.pa.toNat / 128) = none) →
      ∃ t, exec (.variableLatencyLanding s.me k) s = .next t ∧ t.core.memq = dropAt s.core.memq k ∧ t.mem = s.mem ∧ t.core.scratch = s.core.scratch
        ∧ ((s.lineMeta (p.pa.toNat / 128)).poison = true → t.core.reports = s.core.reports ++ [⟨0x0A, p.va⟩] ∧ t.core.regs = s.core.regs)
        ∧ ((s.lineMeta (p.pa.toNat / 128)).poison = false → s.core.captured = none → d ≠ 0 → t.core.reports = s.core.reports ∧ t.core.regs.sIsFull d = true
          ∧ t.core.regs.sVal d = Claims.loaded sz sxt (Sparse.range 0 s.mem p.pa.toNat (2 ^ sz.toNat)) ∧ ∀ n, n ≠ d → t.core.regs.sVal n = s.core.regs.sVal n))

/-- No version slot that a mask names awaits an earlier version instruction (R294, log 19). -/
def Sys2Proof.Claims.slotsFree (s : State) (mask : BitVec 8) : Prop := ∀ e ∈ s.core.memq, e.op.names &&& mask = 0

/-- The versioned instructions of the S slot with their registers full, their version slots free, and their unit aligned, translated and on a line that carries versions: each is outstanding with its register empty from the end of
the bundle on, and a page that only the die's cache held is in the core's (R215); VALST and CASV, commit-class, issue under protection only in a checkpoint bundle. CLRV sends the clearing of its slots with latency 1: when it lands each slot of the mask is clear, each other slot and all memory as it was (R124, R294-R301). -/
def Obligations.VersionedIssue : Prop :=
  (∀ (x : Core) (mask : BitVec 8) (k : BitVec 3), let t := x.landOne (.clrv mask)
      t.regs.n[k.toNat]'k.isLt = (if mask.getLsbD k.toNat then none else x.regs.n[k.toNat]'k.isLt) ∧ t.regs.s = x.regs.s ∧ t.regs.v = x.regs.v ∧ t.scratch = x.scratch
        ∧ t.tiles = x.tiles ∧ t.memq = x.memq)
    ∧ ∀ (s : State) (d a b : BitVec 5) (ta tb : Bool) (k : BitVec 3) (mask : BitVec 8) (e : TlbEntry),
    let ea := if s.me.isComp then s.core.regs.sVal a else s.core.regs.aVal a
    Claims.allFull s [Claims.A a ta, Claims.S b tb, Claims.S d] = true →
    (Claims.slotsFree s mask → exec (.valid d mask) s = .next (Claims.outstanding s d (.valid d mask)) ∧ exec (.clrv mask) s = .next (Claims.answer s 1 (.clrv mask)))
      ∧ (Claims.outside ea → versioned (Claims.at s ea e).pa.toNat = true →
        (Claims.translates s ea 8 false e → Claims.slotsFree s (1#8 <<< k.toNat) →
            exec (.ldv d a ta k) s = .next (State.refill (Claims.outstanding s d (.ldv d (Claims.at s ea e) k)) ea false))
          ∧ (s.core.regs.status.getLsbD 1 = false ∨ s.core.issue.protectOk = true → Claims.translates s ea 8 true e →
            (Claims.slotsFree s mask → exec (.valst d a b ta tb mask) s = .next (State.refill (Claims.outstanding s d (.valst d (Claims.at s ea e) (s.core.regs.sVal b) mask)) ea true))
              ∧ (Claims.slotsFree s (1#8 <<< k.toNat) →
                exec (.casv d a b ta tb k) s = .next (State.refill (Claims.outstanding s d (.casv d (Claims.at s ea e) (s.core.regs.sVal b) k)) ea true))))

/-! ### Special registers and traps by instruction -/

/-- The task's own fields that special registers show (R118). -/
def Sys2Proof.Claims.ofTask (s : State) (f : Task → Nat) : Word :=
  match s.core.task with
  | some t => BitVec.ofNat 64 (f t)
  | none => 0

/-- The special registers and their values (R118). -/
def Sys2Proof.Claims.specials (s : State) : List (BitVec 12 × Word) :=
  let r := s.core.regs
  [(0x000, s.me.idx.setWidth 64), (0x001, BitVec.ofNat 64 s.me.cluster), (0x002, s.me.die.setWidth 64), (0x008, Claims.ofTask s fun t => t.addr.toNat),
    (0x009, if s.me.isComp then 0 else Claims.ofTask s Task.index)]
    ++ ((List.range 8).map fun i => (BitVec.ofNat 12 (0x010 + i), Claims.ofTask s fun t => t.coord i))
    ++ [(0x020, r.vrb.setWidth 64), (0x021, r.prb.setWidth 64), (0x022, BitVec.ofNat 64 r.loops.length), (0x030, r.status), (0x031, r.fpstat.setWidth 64),
      (0x032, r.tileFlags.setWidth 64), (0x040, s.core.cycles), (0x041, s.core.bundles), (0x050, r.seed), (0x051, if r.dbgPend then 1 else 0),
      (0x060, r.trapPc), (0x061, r.trapCause), (0x062, r.trapVal)]
    ++ ((List.range 8).map fun i => (BitVec.ofNat 12 (0x070 + i), s.core.ev.toList.getD i 0))

/-- MFSR reads each assigned register: CYCLES, BUNDLES and the event counters as variable-latency producers, every other with latency 1; an unassigned number raises trap 0x01
(R118-R120, R154). -/
def Obligations.SpecialRead : Prop :=
  ∀ (s : State) (d : BitVec 5) (n : BitVec 12), s.core.regs.sIsFull d = true →
    (∀ v, (n, v) ∈ Claims.specials s → exec (.mfsr d n) s = .next
        (if n = 0x040 ∨ n = 0x041 ∨ (0x070 ≤ n.toNat ∧ n.toNat ≤ 0x077) then Claims.outstanding s d (.value d v 0) else Claims.answer s 1 (.s d v)))
      ∧ (n ∉ (Claims.specials s).map Prod.fst → s.core.issue.pass = false → exec (.mfsr d n) s = .next (Claims.traps s 0x01 s.wordVal))

/-- The registers that an MTSR may name, in every mode and in supervisor mode only (R118). -/
def Sys2Proof.Claims.writable : List (BitVec 12) :=
  [0x020, 0x021, 0x030, 0x031, 0x032, 0x050, 0x051, 0x070, 0x071, 0x072, 0x073, 0x074, 0x075, 0x076, 0x077]
def Sys2Proof.Claims.supervisorOnly : List (BitVec 12) := [0x060, 0x061, 0x062]

/-- MTSR to a register that it may write is on its way with latency 1; setting DBG_PEND needs feature bit 4. To a register marked RO, or an unassigned number, it raises trap 0x01, and in task mode
to a trap register trap 0x03 (R37, R119, R132, R154). What an MTSR leaves in the fields of its register: STATUS.DIVZT takes the written bit, WQ_OVF and OHRANGE clear where a 1 is written, and SUP, PROT, JOVF and the reserved bits keep their
values; FPSTAT and TILE_FLAGS take the written flags; a write of SEED starts the random counter again (R8, R121, R122, R154, R195). -/
def Obligations.SpecialWrite : Prop :=
  (∀ (s : State) (a : BitVec 5) (ta : Bool) (n : BitVec 12), s.core.regs.sIsFull a = true →
      (n ∈ Claims.writable ∨ (n ∈ Claims.supervisorOnly ∧ s.core.regs.status.getLsbD 0 = true) → (n = 0x051 → s.core.regs.sVal a = 0 ∨ s.feature 4 = true) →
          exec (.mtsr a ta n) s = .next (Claims.answer s 1 (.sr n (s.core.regs.sVal a))))
        ∧ (n ∉ Claims.writable → n ∉ Claims.supervisorOnly → s.core.issue.pass = false → exec (.mtsr a ta n) s = .next (Claims.traps s 0x01 s.wordVal))
        ∧ (n ∈ Claims.supervisorOnly → s.core.regs.status.getLsbD 0 = false → s.core.issue.pass = false → exec (.mtsr a ta n) s = .next (Claims.traps s 0x03 s.wordVal)))
    ∧ (∀ (x : Core) (v : Word) (i : Nat),
      ((x.landOne (.sr 0x030 v)).regs.status.getLsbD 3 = v.getLsbD 3)
        ∧ ((x.landOne (.sr 0x030 v)).regs.status.getLsbD 4 = (x.regs.status.getLsbD 4 && !v.getLsbD 4))
        ∧ ((x.landOne (.sr 0x030 v)).regs.status.getLsbD 5 = (x.regs.status.getLsbD 5 && !v.getLsbD 5))
        ∧ (i < 3 ∨ 6 ≤ i → (x.landOne (.sr 0x030 v)).regs.status.getLsbD i = x.regs.status.getLsbD i)
        ∧ (x.landOne (.sr 0x031 v)).regs.fpstat = v.setWidth 5 ∧ (x.landOne (.sr 0x032 v)).regs.tileFlags = v.setWidth 32
        ∧ (x.landOne (.sr 0x050 v)).regs.seed = v ∧ (x.landOne (.sr 0x050 v)).regs.rnd = 0)

/-- The machine with a trap that an instruction raises, due before the next bundle: of the task, or of firmware where the core is in supervisor mode, which keeps the first (R355, R361). -/
def Sys2Proof.Claims.raises (s : State) (r : Report) : State :=
  let t := Claims.same s
  { t with core := if s.core.regs.status.getLsbD 0 then { t.core with fwTrap := s.core.fwTrap.or (some r) } else { t.core with reports := s.core.reports ++ [r] } }

/-- TRAP and SYS issue in full and leave a trap of cause 0x10 or 0x11 with the zero-extended code, due before the next bundle (R155, R355). A report that heads those due at a core's boundary, in task mode, is taken: the core enters supervisor mode for it and forgets it (R355, R357, R358). A trap that firmware has raised is taken at firmware's boundary, as one
that kills the task (R361). -/
def Obligations.TrapInstructions : Prop :=
  (∀ (s : State) (code : BitVec 20),
      exec (.trap code) s = .next (Claims.raises s ⟨0x10, code.setWidth 64⟩) ∧ exec (.sys code) s = .next (Claims.raises s ⟨0x11, code.setWidth 64⟩))
    ∧ (∀ (s : State) (r : Report) (l : List Report), s.core.reports = r :: l → s.core.task.isSome = true → s.sup = false → s.core.life = .running →
      exec (.trapEntry s.me r.cause r.val) s = .next (State.trapEnter { s with core := { s.core with reports := l } } r.cause r.val s.core.regs.pc))
    ∧ (∀ (s : State) (r : Report), s.core.fwTrap = some r → s.sup = true →
      let t := State.trapEnter { s with core := { s.core with fwTrap := none } } r.cause r.val s.core.regs.pc
      t.held = s.held → exec (.trapEntry s.me r.cause r.val) s = .next t ∧ (s.core.task.isSome = true → t.core.task = none))

/-- Taking a trap in task mode: STATUS.SUP is set and the other status bits stay, execution goes on at offset 0 of the firmware, TRAP_PC, TRAP_CAUSE and TRAP_VAL are set; the pending transfer, the loop stack, the
rotation bases and the results in flight are captured, and nothing of the task lands; its slots' accesses are ordered before those after the trap (R305, R306). The other registers, the scratchpad, memory, queues and other cores keep their values (R358). That firmware starts with an empty loop stack and no
pending transfer, on the task's rotation bases, is the model's reading (log 31). A trap in supervisor mode kills
the task instead: its core is free, with the registers of a core that runs nothing (log 31), and the die's kill register counts it and names the record (R361-R363). -/
def Obligations.TrapEntry : Prop :=
  (∀ (s : State) (cause : BitVec 8) (val pc : Word), s.sup = false →
      let t := s.trapEnter cause val pc
      t.sup = true ∧ (∀ i, i ≠ 0 → t.core.regs.status.getLsbD i = s.core.regs.status.getLsbD i) ∧ t.core.regs.pc = 0
        ∧ t.core.regs.trapPc = pc ∧ t.core.regs.trapCause = cause.setWidth 64 ∧ t.core.regs.trapVal = val
        ∧ t.core.regs.pend = none ∧ t.core.regs.loops = [] ∧ t.core.regs.flight = [] ∧ t.core.regs.loads = [] ∧ t.core.regs.before = [] ∧ t.core.regs.ckptDue = false
        ∧ (∀ x ∈ t.core.regs.stores ++ (t.core.captured.map Captured.stores).getD [], x.acc.path.toNat ≤ 1 → ∀ b : ScratchAccess, b.path.toNat ≤ 1 → x.acc.passedBy b = false)
        ∧ (∃ c, t.core.captured = some c ∧ c.pend = s.core.regs.pend ∧ c.loops = s.core.regs.loops ∧ c.vrb = s.core.regs.vrb ∧ c.prb = s.core.regs.prb
          ∧ c.flight = s.core.regs.flight ∧ c.shadow = s.core.regs.shadow ∧ c.ckptDue = s.core.regs.ckptDue ∧ c.before = s.core.regs.before)
        ∧ t.core.regs.s = s.core.regs.s ∧ t.core.regs.sFull = s.core.regs.sFull ∧ t.core.regs.a = s.core.regs.a ∧ t.core.regs.v = s.core.regs.v
        ∧ t.core.regs.p = s.core.regs.p ∧ t.core.regs.y = s.core.regs.y ∧ t.core.regs.fpstat = s.core.regs.fpstat ∧ t.core.regs.sem = s.core.regs.sem
        ∧ t.core.scratch = s.core.scratch ∧ t.core.memq = s.core.memq.map (fun e => { e with closed := true }) ∧ t.core.cmds = s.core.cmds ∧ t.core.task = s.core.task
        ∧ t.mem = s.mem ∧ t.lines = s.lines ∧ t.dies = s.dies ∧ t.dev = s.dev ∧ t.others = s.others)
    ∧ (∀ (s : State) (cause : BitVec 8) (val pc : Word) (t : Task), s.sup = true → s.core.task = some t →
      let u := s.trapEnter cause val pc
      u.core.task = none ∧ u.core.regs = Regs.zero ∧ u.me = s.me
        ∧ (u.die s.me.die).kill = (((s.die s.me.die).kill + 0x0001000000000000) &&& 0xFFFF000000000000) ||| (t.addr.setWidth 64 &&& 0xFFFFFFFFFF80))

/-- RETT is privileged: in task mode it raises trap 0x03; in supervisor mode it marks its bundle's end as the return (R119, R360). The return gives back the captured control state and results in flight, clears STATUS.SUP
and goes on at TRAP_PC; a value that arrived meanwhile lands before the first bundle issues (R359, R360). That the captured control state replaces firmware's own whole is the model's reading (log 31), and so is that a return to where END
had issued finds the task ended (log 17). -/
def Obligations.TrapReturn : Prop :=
  ∀ (s : State) (c : Captured),
    (s.sup = true → exec .rett s = .next (Claims.controls s .rett))
      ∧ (s.sup = false → s.core.issue.pass = false → exec .rett s = .next (Claims.traps s 0x03 s.wordVal))
      ∧ (s.core.captured = some c →
          let t := s.trapReturn
          (t.sup = false ∧ t.core.regs.pc = s.core.regs.trapPc ∧ t.core.regs.pend = c.pend ∧ t.core.regs.loops = c.loops ∧ t.core.regs.flight.map InFlight.unmark = (c.flight.filter fun f => f.left != 0).map InFlight.unmark
            ∧ t.core.captured = none ∧ t.core.regs.ckptDue = c.ckptDue ∧ t.core.life = (if c.endPc = some s.core.regs.trapPc then .ended else .running)
            ∧ (∀ n : BitVec 5, n ≠ 0 → t.core.regs.sVal n = (Claims.valuesFor n (c.flight.filter fun f => f.left == 0)).getLastD (s.core.regs.sVal n)
              ∧ ((∃ v, ∃ f ∈ c.flight, f.left = 0 ∧ f.what = .late n v) → t.core.regs.sIsFull n = true))
            ∧ t.mem = s.mem ∧ t.dies = s.dies ∧ t.dev = s.dev ∧ t.others = s.others)
          ∧ ((∀ f ∈ c.flight, f.left ≠ 0) → (∀ i, i ≠ 0 → t.core.regs.status.getLsbD i = s.core.regs.status.getLsbD i) ∧ t.core.regs.vrb = c.vrb ∧ t.core.regs.prb = c.prb
            ∧ t.core.regs.before = c.before ∧ t.core.regs.flight = c.flight ∧ t.core.regs.s = s.core.regs.s ∧ t.core.regs.sFull = s.core.regs.sFull ∧ t.core.regs.a = s.core.regs.a ∧ t.core.regs.v = s.core.regs.v
            ∧ t.core.regs.p = s.core.regs.p ∧ t.core.regs.fpstat = s.core.regs.fpstat ∧ t.core.scratch = s.core.scratch))

/-! ### The matrix slot, the copy slots and the counters -/

/-- What a move of the machine leaves: a move that meets a channel group that is not ready changes nothing and is made again later (R39). -/
def Sys2Proof.Claims.orWaits (s t : State) : State := if t.held && !s.held then s else t

/-- The machine once the slot's instruction has issued. -/
def Sys2Proof.Claims.issued (s : State) : State := { s with core := { s.core with issue := { s.core.issue with res := .issued } } }

/-- The machine with one more result on its way, as in `answer`, before the slot's outcome is noted. -/
def Sys2Proof.Claims.sends (s : State) (lat : Nat) (what : Land) : State :=
  { s with core := if s.me.isComp then s.core.landFlight ⟨0, what, 0⟩
      else { s.core with regs := { s.core.regs with flight := s.core.regs.flight ++ [⟨lat, what, 0⟩] } } }

/-- The value that a field naming an A register reads (R322). -/
def Sys2Proof.Claims.addr (s : State) (a : BitVec 5) : Word := if s.me.isComp then s.core.regs.sVal a else s.core.regs.aVal a

/-- A commit-class instruction may issue (R292, R375). -/
def Sys2Proof.Claims.mayCommit (s : State) (ck : Bool) : Prop := s.core.regs.status.getLsbD 1 = false ∨ ck = true

/-- An engine command: what it does, its identifier, those that it waits for, its descriptor, what it does when it retires, whether it is commit-class, and its
issue codes. -/
structure Sys2Proof.Claims.Command where
  op     : CmdOp
  cid    : BitVec 6
  pa     : BitVec 6
  pb     : BitVec 6
  y      : BitVec 4
  ret    : RetAct
  commit : Bool
  codes  : State → List Nat

/-- The engine commands (R89, R225, R228, R234, R238, R240, R243, R245, R257, R260, R262, R388). A command with a retire action is commit-class, CQF and CCOL always (R233). -/
def Sys2Proof.Claims.command : Instr → Option Claims.Command
  | .mldw c pa pb y r => some ⟨.mldw, c, pa, pb, y, r, r != .none, fun s => mldwCodes (s.y y) ++ rtgtCodes r (s.y y)⟩
  | .mma c pa pb y r => some ⟨.mma, c, pa, pb, y, r, r != .none, fun s => prodCodes s .mma (s.y y) ++ rtgtCodes r (s.y y)⟩
  | .mmag c pa pb y r => some ⟨.mmag, c, pa, pb, y, r, r != .none, fun s => prodCodes s .mmag (s.y y) ++ rtgtCodes r (s.y y)⟩
  | .mmah c pa pb y r => some ⟨.mmah, c, pa, pb, y, r, r != .none, fun s => prodCodes s .mmah (s.y y) ++ rtgtCodes r (s.y y)⟩
  | .mzero c pa pb y r => some ⟨.mzero, c, pa, pb, y, r, r != .none, fun s => mzeroCodes (s.y y) ++ rtgtCodes r (s.y y)⟩
  | .cpy c pa pb y r => some ⟨.cpy, c, pa, pb, y, r, r != .none, fun s => cpyCodes (s.y y) ++ rtgtCodes r (s.y y)⟩
  | .csel c pa pb y r => some ⟨.csel, c, pa, pb, y, r, r != .none, fun s => cselCodes (s.y y) ++ rtgtCodes r (s.y y)⟩
  | .cgth c pa pb y r => some ⟨.cgth, c, pa, pb, y, r, r != .none, fun s => gathCodes (s.y y) (s.y (y + 1)) [3] [0, 1, 2, 3, 6] ++ rtgtCodes r (s.y y)⟩
  | .csct c pa pb y r => some ⟨.csct, c, pa, pb, y, r, r != .none, fun s => gathCodes (s.y y) (s.y (y + 1)) [0, 2, 3] [3] ++ rtgtCodes r (s.y y)⟩
  | .cqf c pa pb y r => some ⟨.cqf, c, pa, pb, y, r, true, fun s => cqfCodes (s.y y) ++ rtgtCodes r (s.y y)⟩
  | .ccol c pa pb y r => some ⟨.ccol, c, pa, pb, y, r, true, fun s => ccolCodes (s.y y) (s.y (y + 1)) ++ rtgtCodes r (s.y y)⟩
  | _ => none

/-- The command as its engine queues it: what it names is read at issue, and it waits for the outstanding commands whose identifiers it gives (R226, R227). -/
def Sys2Proof.Claims.queued (s : State) (c : Claims.Command) : Cmd where
  op := c.op
  eng := match s.core.issue.slot with
    | .c0 => .c0
    | .c1 => .c1
    | _ => .m
  cid := c.cid
  preds := (s.core.cmds.filter fun o => (c.pa != 0 && o.cid == c.pa) || (c.pb != 0 && o.cid == c.pb)).map Cmd.seqNo
  desc := s.core.regs.y[c.y.toNat]'c.y.isLt
  desc2 := s.core.regs.y[(c.y + 1).toNat]'(c.y + 1).isLt
  ret := c.ret
  kTab := s.core.regs.k
  codebook := s.core.regs.codebook
  gPat := s.core.regs.g.toList.getD (bits (s.core.regs.y[c.y.toNat]'c.y.isLt) 224 16 % 16) 0
  seqNo := s.core.cmdNo

/-- The engine of a command has room, its identifier is free, no tile that it uses is busy, it may commit, and the features and registers that its operation needs are there
(R37, R39, R226, R227, R230, R233, R240). -/
def Sys2Proof.Claims.accepts (s : State) (c : Claims.Command) : Prop :=
  (s.core.cmds.filter fun o => o.eng == (Claims.queued s c).eng && (o.st == .queued || o.st == .parked)).length < 16
    ∧ (c.cid = 0 ∨ ∀ o ∈ s.core.cmds, o.cid ≠ c.cid) ∧ s.tileBusy (Claims.queued s c) = false
    ∧ (s.core.regs.status.getLsbD 1 = false ∨ c.commit = false ∨ s.core.issue.protectOk = true)
    ∧ ((c.op = .cgth ∨ c.op = .csct ∨ c.op = .ccol) → c.y ≠ 15) ∧ (c.op = .ccol → s.feature 2 = true ∧ s.isReady s.me.die 19 = true)

/-- Fields of a command's descriptor, and of the companion of a gather or a scatter, that break a limit of R225 or of the command's own entry, each with the code that R232's
table gives it (R224, R225, R232, R234, R238, R240, R257, R260, R262, R388). That a nonzero w2, w3 or w6 of CQF has code 0x14, and PARAM [15:10] of it 0x11, is the model's reading of R245
(log 33). -/
def Sys2Proof.Claims.badField (s : State) (c : Claims.Command) (code : Nat) : Prop :=
  let d := s.core.regs.y[c.y.toNat]'c.y.isLt
  let d2 := s.core.regs.y[(c.y + 1).toNat]'(c.y + 1).isLt
  let loc (i : Nat) : Nat := (d.extractLsb' (32 * i + 16) 3).toNat
  let fmt (i : Nat) : Nat := (d.extractLsb' (32 * i + 19) 4).toNat
  let spare (i : Nat) : Nat := (d.extractLsb' (32 * i + 24) 8).toNat
  let word (i : Nat) : Nat := (d.extractLsb' (32 * i) 32).toNat
  let word2 (i : Nat) : Nat := (d2.extractLsb' (32 * i) 32).toNat
  let param := (d.extractLsb' 224 16).toNat
  let side (i : Nat) : Prop := (code = 0x10 ∧ loc i = 7) ∨ (code = 0x11 ∧ spare i ≠ 0) ∨ (code = 0x12 ∧ fmt i = 15 ∧ loc i ≠ 3)
    ∨ (code = 0x13 ∧ loc i = 0 ∧ fmt i = 3 ∧ word (i - 1) % 4 ≠ 0)
  let tail : Prop := (code = 0x11 ∧ word2 7 ≠ 0) ∨ (code = 0x13 ∧ word2 6 % 4 ≠ 0) ∨ (code = 0x11 ∧ 2 ^ 21 ≤ word2 6)
  (code = 0x11 ∧ c.ret = .none ∧ d.extractLsb' 240 16 ≠ 0) ∨ match c.op with
  | .mldw => side 1 ∨ side 3 ∨ (code = 0x14 ∧ loc 3 ≠ 5) ∨ (code = 0x15 ∧ param % 4 = 3) ∨ (code = 0x11 ∧ 2 ^ 14 ≤ param)
  | .mma => side 1 ∨ side 3 ∨ (code = 0x14 ∧ (loc 1 ≠ 0 ∨ loc 3 ≠ 4)) ∨ (code = 0x11 ∧ 2 ^ 10 ≤ param)
  | .mmag => side 3 ∨ (code = 0x14 ∧ loc 3 ≠ 4) ∨ (code = 0x11 ∧ (word 0 ≠ 0 ∨ word 1 ≠ 0 ∨ word 5 ≠ 0 ∨ 2 ^ 10 ≤ param))
  | .mmah => side 1 ∨ side 3 ∨ (code = 0x14 ∧ (loc 1 ≠ 0 ∨ loc 3 ≠ 4 ∨ fmt 1 ≠ 3)) ∨ (code = 0x11 ∧ 2 ^ 10 ≤ param)
  | .mzero => side 3 ∨ (code = 0x14 ∧ loc 3 ≠ 4) ∨ (code = 0x11 ∧ (word 0 ≠ 0 ∨ word 1 ≠ 0 ∨ word 5 ≠ 0 ∨ param ≠ 0))
  | .cpy => side 1 ∨ side 3 ∨ (code = 0x14 ∧ loc 1 = 5) ∨ (code = 0x15 ∧ 4 < param % 8) ∨ (code = 0x11 ∧ 2 ^ 4 ≤ param)
  | .csel => side 1 ∨ side 3 ∨ (code = 0x14 ∧ loc 3 = 4) ∨ (code = 0x15 ∧ (param % 128 = 0 ∨ 64 < param % 128)) ∨ (code = 0x11 ∧ 2 ^ 11 ≤ param)
  | .cgth => side 1 ∨ side 3 ∨ (code = 0x14 ∧ loc 1 ≠ 3) ∨ (code = 0x15 ∧ 4 < param % 8) ∨ (code = 0x11 ∧ 2 ^ 5 ≤ param) ∨ tail
  | .csct => side 1 ∨ side 3 ∨ (code = 0x14 ∧ loc 3 ≠ 3) ∨ (code = 0x15 ∧ 4 < param % 8) ∨ (code = 0x11 ∧ 2 ^ 5 ≤ param) ∨ tail
  | .cqf => side 1 ∨ (code = 0x14 ∧ (fmt 1 ≠ 3 ∨ word 2 ≠ 0 ∨ word 3 ≠ 0 ∨ word 6 ≠ 0)) ∨ (code = 0x15 ∧ 143 < param % 256) ∨ (code = 0x11 ∧ 2 ^ 10 ≤ param)
  | .ccol => side 1 ∨ side 3 ∨ (code = 0x14 ∧ fmt 1 ≠ 7 ∧ fmt 1 ≠ 8) ∨ (code = 0x15 ∧ param % 4 = 3) ∨ (code = 0x11 ∧ 2 ^ 9 ≤ param)

/-- An engine command that its engine accepts joins the queue if no issue code applies, with the commands that it follows, and nothing else changes but the note of who used its identifier last (R307, log 61); else it traps with cause 0x0C, and TRAP_VAL holds the engine, the identifier and the lowest
code that applies (R89, R226, R232). The codes that apply contain those of the bad fields of its family (R224, R225, R232; the code of CQF's own reserved words is the model's reading, log 33). While its engine's queue holds 16 commands its bundle holds (R226). -/
def Obligations.EngineIssue : Prop :=
  ∀ (i : Instr) (c : Claims.Command) (s : State), Claims.command i = some c →
    (∀ n, Claims.badField s c n → n ∈ c.codes s)
      ∧ (Claims.accepts s c →
        (c.codes s = [] → exec i s = .next (Claims.issued (
            let q := { Claims.queued s c with after := s.follows (Claims.queued s c) c.pa c.pb };
            { s with core := { s.core with
              cmds := s.core.cmds ++ [q], cmdNo := s.core.cmdNo + 1
              cids := if c.cid = 0 then s.core.cids else Sparse.put s.core.cids c.cid.toNat (q.seqNo :: q.after) } })))
          ∧ (∀ n ∈ c.codes s, (∀ k ∈ c.codes s, n ≤ k) → s.core.issue.pass = false →
            exec i s = .next (Claims.traps s 0x0C (BitVec.ofNat 64 ((match (Claims.queued s c).eng with
              | .c0 => 1
              | .c1 => 2
              | .m => 3) * 2 ^ 14 + c.cid.toNat * 2 ^ 8 + n % 256)))))
      ∧ ((s.core.cmds.filter fun o => o.eng == (Claims.queued s c).eng && (o.st == .queued || o.st == .parked)).length = 16 →
        s.core.issue.pass = false → exec i s = .next (Claims.waits s 0x06))

/-- MHAND sends the converted rows of a tile that no outstanding command writes to a result-buffer entry with latency 12, with the FPSTAT flags that any of the conversions raises, and holds its bundle while one does (R131, R268). GSET, CQPUSH, TDEC and EVSEL with
their operands full and legal send a pattern, push a count, put a decrement on its way, select an event's source; CQPUSH holds while the queue holds 64 counts, and a value that GSET or EVSEL does not take traps with cause
0x01 (R254-R256, R290-R293, R399). Nothing else changes. -/
def Obligations.OtherIssue : Prop :=
  ∀ (s : State) (a : BitVec 5) (ta ck : Bool),
    (∀ (e : BitVec 4) (tile : BitVec 3) (row0 : BitVec 7) (cv : HConv),
        ((∀ c ∈ s.core.cmds, tile.toNat ∉ c.wrts) → ∃ (v : VReg) (fl : Flags), exec (.mhand e tile row0 cv) s = .next (Claims.answer s 12 (.rb e v) fl)
            ∧ (∀ q < handRows cv, ∀ j < 128, (v.extractLsb' (64 / handRows cv * (128 * q + j)) (64 / handRows cv)).toNat =
              (handElt cv (s.core.tileWord tile.toNat (row0.toNat + q) j)).1 % 2 ^ (64 / handRows cv))
            ∧ (∀ b < 5, fl.getLsbD b = true ↔ ∃ q < handRows cv, ∃ j < 128, (handElt cv (s.core.tileWord tile.toNat (row0.toNat + q) j)).2.getLsbD b = true)
            ∧ (cv = .raw ∨ cv = .i16 ∨ cv = .i8 → fl = 0))
          ∧ (∀ c ∈ s.core.cmds, tile.toNat ∈ c.wrts → s.core.issue.pass = false → exec (.mhand e tile row0 cv) s = .next (Claims.waits s 0x04)))
      ∧ (s.core.regs.sIsFull a = true →
        (∀ g : BitVec 4, (patternOk (s.core.regs.sVal a) = true → exec (.gset a ta g) s = .next (Claims.answer s 1 (.g g (s.core.regs.sVal a))))
            ∧ (patternOk (s.core.regs.sVal a) = false → s.core.issue.pass = false → exec (.gset a ta g) s = .next (Claims.traps s 0x01 (s.core.regs.sVal a))))
          ∧ (Claims.mayCommit s ck → s.core.regs.countQ.length < 64 → exec (.cqpush a ta ck) s = .next (Claims.regsAt s { s.core.regs with
            countQ := s.core.regs.countQ ++ [(s.core.regs.sVal a).setWidth 32] }))
          ∧ (s.core.regs.countQ.length = 64 → s.core.issue.pass = false → exec (.cqpush a ta ck) s = .next (Claims.waits s 0x00))
          ∧ (∀ e d, Claims.mayCommit s ck → Claims.translates s (s.core.regs.sVal a) 128 true e → region (Claims.at s (s.core.regs.sVal a) e).pa.toNat = .device d →
            exec (.tdec a ta ck) s = .next (State.refill (Claims.stored (s.releases 64)
              (.tdec ((s.core.regs.sVal a).setWidth 48) (Claims.at s (s.core.regs.sVal a) e).pa (Claims.at s (s.core.regs.sVal a) e).key)) (s.core.regs.sVal a) true))
          ∧ (∀ n : BitVec 3, ((s.core.regs.sVal a).toNat < 16 → exec (.evsel a ta n) s = .next (Claims.answer s 1 (.evsel n ((s.core.regs.sVal a).setWidth 8))))
            ∧ (16 ≤ (s.core.regs.sVal a).toNat → s.core.issue.pass = false → exec (.evsel a ta n) s = .next (Claims.traps s 0x01 (s.core.regs.sVal a)))))

/-! ### Synchronisation -/

/-- WATCH arms a comparator on a range in the window, or disarms it, with latency 1; a range outside the window traps with cause 0x09 (R276). That one of length 0 arms without a check of its start is the model's reading (log 45). WAIT takes the head token with latency 1, an acquire of the bytes that the token's write has
written, and holds while there is none (R278, R309, log 61). A write whose bytes meet the one armed range pushes a token with the comparator and the lowest offset that meets it, or sets WQ_OVF while 32 tokens wait (R277). -/
def Obligations.WakeQueue : Prop :=
  ∀ (s : State) (a b d : BitVec 5) (ta tb : Bool) (n : BitVec 3),
    (s.core.regs.sIsFull a = true → s.core.regs.sIsFull b = true →
        (s.core.regs.sVal b = 0 ∨ (s.core.regs.sVal a).toNat + (s.core.regs.sVal b).toNat ≤ s.core.window s.me.isComp →
            exec (.watch a b ta tb true n) s = .next (Claims.answer s 1 (.watch n (some ((s.core.regs.sVal a).toNat, (s.core.regs.sVal b).toNat)))))
          ∧ (s.core.regs.sVal b ≠ 0 → s.core.window s.me.isComp < (s.core.regs.sVal a).toNat + (s.core.regs.sVal b).toNat → s.core.issue.pass = false →
            exec (.watch a b ta tb true n) s = .next (Claims.traps s 0x09 (s.core.regs.sVal a))))
      ∧ exec (.watch a b ta tb false n) s = .next (Claims.answer s 1 (.watch n none))
      ∧ (s.core.regs.sIsFull d = true → ∀ (h : Word32) (q : List Word32), s.core.regs.wakeQ = h :: q → exec (.wait d) s = .next
          (Claims.issued ((Claims.sends { s with core := { s.core with regs := { s.core.regs with wakeQ := q } } } 1 (.s d (h.setWidth 64))).observesToken h)))
      ∧ (s.core.regs.wakeQ = [] → s.core.issue.pass = false → s.core.regs.sIsFull d = true → exec (.wait d) s = .next (Claims.waits s 0x07))
      ∧ (∀ (x : Core) (lo len o : Nat) (l r : List Nat), x.regs.comp = (Vector.replicate 8 none).set n.toNat (some (lo, len)) n.isLt →
          (∀ p ∈ l, p < lo ∨ lo + len ≤ p) → lo ≤ o → o < lo + len →
          (x.regs.wakeQ.length < 32 → x.wake (l ++ o :: r) = { x with regs := { x.regs with wakeQ := x.regs.wakeQ ++ [BitVec.ofNat 32 (n.toNat * 2 ^ 28 + o)] } })
            ∧ (32 ≤ x.regs.wakeQ.length → (x.wake (l ++ o :: r)).regs = { x.regs with status := x.regs.status ||| 32 })
            ∧ x.wake l = x)

/-- The registers with a semaphore changed. -/
def Sys2Proof.Claims.semIs (s : State) (n : BitVec 6) (v : Word) : Regs := { s.core.regs with sem := s.core.regs.sem.set n.toNat v n.isLt }

/-- The semaphore instructions, with their registers full (R124, R279, R280), where an add is a release and a take an acquire that observes the adds to its semaphore (R308, log 61): SEMADD adds at once where no write of the task is outstanding and else when they have performed, behind the remote adds of the task whose target is this core; SEMADD.r sends its add to a legal core; SEMWT takes where the
semaphore is large enough, an acquire, and else holds its bundle; SEMTST says whether it took; SEMSET sets; SEMRD reads as a variable-latency producer. Nothing else changes. -/
def Obligations.Semaphores : Prop :=
  ∀ (s : State) (a b d : BitVec 5) (ta tb ck : Bool) (n : BitVec 6),
    s.core.regs.sIsFull a = true → s.core.regs.sIsFull b = true → s.core.regs.sIsFull d = true →
    let v := s.core.regs.sVal a
    let now := s.core.regs.sem[n.toNat]'n.isLt
    let mine (x : RemoteAdd) : Bool := decide (x.target.toNat % 2 ^ 8 = s.me.idx.toNat ∧ x.target.toNat / 2 ^ 8 % 4 = s.me.die.toNat)
    let z := s.releases n.toNat
    let w := s.releases (if (s.core.regs.sVal b).toNat % 2 ^ 8 = s.me.idx.toNat ∧ (s.core.regs.sVal b).toNat / 2 ^ 8 % 4 = s.me.die.toNat then n.toNat else 64)
    (Claims.mayCommit s ck → s.core.adds.any mine = false → (∀ e ∈ s.core.memq, e.op.isWrite = false) → exec (.semadd a ta ck n) s = .next (Claims.regsAt z (Claims.semIs z n (now + v))))
      ∧ (Claims.mayCommit s ck → s.core.adds.any mine = false → (∃ e ∈ s.core.memq, e.op.isWrite = true) → exec (.semadd a ta ck n) s = .next (Claims.stored z (.semadd n v)))
      ∧ (Claims.mayCommit s ck → s.core.adds.any mine = true → exec (.semadd a ta ck n) s = .next
          (Claims.issued { z with core := { z.core with adds := s.core.adds ++ [⟨n, v, BitVec.ofNat 64 (s.me.die.toNat * 256 + s.me.idx.toNat), s.writesAhead, s.job⟩] } }))
      ∧ (Claims.mayCommit s ck → (s.core.regs.sVal b).toNat < 2 ^ 10 → (s.core.regs.sVal b).toNat % 2 ^ 8 < 144 → exec (.semaddRemote a b ta tb ck n) s = .next
          (Claims.issued { w with core := { w.core with adds := s.core.adds ++ [⟨n, v, s.core.regs.sVal b, s.writesAhead, s.job⟩] } }))
      ∧ (¬ ((s.core.regs.sVal b).toNat < 2 ^ 10 ∧ (s.core.regs.sVal b).toNat % 2 ^ 8 < 144) → s.core.issue.pass = false →
          exec (.semaddRemote a b ta tb true n) s = .next (Claims.traps s 0x01 (s.core.regs.sVal b)))
      ∧ (v.toInt ≤ now.toInt → exec (.semwt a ta n) s = .next
            (Claims.issued ((({ s with core := { s.core with regs := Claims.semIs s n (now - v) } } : State).observes [n.toNat]).acquire .package))
          ∧ exec (.semtst d a ta n) s = .next
            (Claims.issued (Claims.sends ((({ s with core := { s.core with regs := Claims.semIs s n (now - v) } } : State).observes [n.toNat]).acquire .package) 1 (.s d 1))))
      ∧ (now.toInt < v.toInt → exec (.semtst d a ta n) s = .next (Claims.answer s 1 (.s d 0))
          ∧ (s.core.issue.pass = false → exec (.semwt a ta n) s = .next (Claims.waits s 0x07)))
      ∧ exec (.semset a ta n) s = .next (Claims.regsAt s (Claims.semIs s n v))
      ∧ exec (.semrd d n) s = .next (Claims.outstanding s d (.value d now 0))

/-- BAR on a level with a barrier: a task whose earlier writes have performed, or that has arrived already, passes once every member has arrived or ended, a release and then an acquire at the level's scope (R308, R309); it holds its bundle until then. On another level BAR traps with cause 0x01 (R282). That its arrival stands while its bundle
holds (log 37), and that it holds without arriving while a write is outstanding (log 36), are the model's readings. -/
def Obligations.Barrier : Prop :=
  ∀ (s : State) (l : BitVec 3) (t : Task), s.core.task = some t →
    let now := s.core.regs.arrived[l.toNat]'l.isLt
    let arrive (s : State) (k : Nat) : State := { s with core := { s.core with regs := { s.core.regs with arrived := s.core.regs.arrived.set l.toNat k l.isLt } } }
    (t.barLevel l.toNat = true →
        ((now % 2 = 1 ∨ ∀ e ∈ s.core.memq, e.op.isWrite = false) →
            (s.allArrived t l (now / 2 + 1) = true → exec (.bar l) s = .next (Claims.issued
                (((arrive (s.releases 64) (now / 2 * 2 + 2)).observes [64]).acquire (t.scopeOf l.toNat))))
              ∧ (s.allArrived t l (now / 2 + 1) = false → s.core.issue.pass = false → exec (.bar l) s = .next (Claims.waits (arrive s (now / 2 * 2 + 1)) 0x07)))
          ∧ (now % 2 = 0 → (∃ e ∈ s.core.memq, e.op.isWrite = true) → s.core.issue.pass = false → exec (.bar l) s = .next (Claims.waits s 0x07)))
      ∧ (t.barLevel l.toNat = false → s.core.issue.pass = false → exec (.bar l) s = .next (Claims.traps s 0x01 (l.setWidth 64)))

/-- FENCE issues once nothing of its source paths is outstanding (R283). Where path S is a destination, the L1 lines that accesses of its source paths have written leave the cache (R303, R307; the drop is the model's choice, log 35); it orders the local accesses of the paths that both its masks name and its scope contains (R302, R305, R307); it holds while an S access is outstanding, or a decrement that its source paths name: of TDECs (path S) or of retire actions (path C). DRAIN issues once every command, write, decrement and remote add of the task has
performed, and reports a write that met poison first (R280, R284). CWAIT issues once its command, or every command, has retired (R285). -/
def Obligations.FencesAndDrains : Prop :=
  ∀ (s : State) (src dst : BitVec 8) (sc : Scope) (n : BitVec 6),
    let f := src &&& scopePaths sc
    let g := dst &&& scopePaths sc
    ((src.getLsbD 0 = true → (∀ e ∈ s.core.memq, e.op.isValue = true ∧ e.lost = false) ∧ ∀ x ∈ s.dev.decs, x.core = some s.me → x.eng = none → x.fired = true) →
        (src.getLsbD 3 = true → ∀ x ∈ s.dev.decs, x.core = some s.me → x.eng ≠ none → x.fired = true) →
        (src.getLsbD 6 = true → ∀ o ∈ (s.die s.me.die).sfxOps, o.core ≠ s.me.idx) →
        (src.getLsbD 7 = true → s.dev.hostHeld = [] ∧ s.dev.tdecQ = [] ∧ ∀ x ∈ s.dev.decs, x.host = true → x.fired = true) →
        exec (.fence src dst sc) s = .next (Claims.issued ((if dst.getLsbD 0 then s.dropStale f else s).fenceLocal f g)))
      ∧ (∀ p q : BitVec 3, p.toNat ≤ 1 → q.toNat ≤ 1 → (∀ k ∈ [p.toNat, q.toNat], src.getLsbD k = true ∧ dst.getLsbD k = true) → ∀ b : ScratchAccess, b.path = q →
        (∀ t ∈ (s.fenceLocal f g).core.regs.stores, t.acc.path = p → t.acc.now = false → t.acc.passedBy b = false)
          ∧ (∀ t ∈ (s.fenceLocal f g).core.regs.loads, t.acc.path = p → t.acc.now = false → t.acc.passedBy b = false))
      ∧ (s.fusedCluster s.me = false → let t := s.dropStale f;
          t.core.regs = s.core.regs ∧ t.mem = s.mem ∧ ∀ k, Sparse.find? t.core.l1 k = if ∃ p : BitVec 3, f.getLsbD p.toNat = true ∧ (p, k) ∈ s.core.stale then none else Sparse.find? s.core.l1 k)
      ∧ (src.getLsbD 0 = true → (∃ e ∈ s.core.memq, e.op.isValue = false) → (∀ e ∈ s.core.memq, e.lost = false) → s.core.issue.pass = false →
        exec (.fence src dst sc) s = .next (Claims.waits s 0x07))
      ∧ (∀ x ∈ s.dev.decs, x.core = some s.me → x.fired = false → src.getLsbD (if x.eng.isSome then 3 else 0) = true → (∀ e ∈ s.core.memq, e.lost = false) → s.core.issue.pass = false →
        exec (.fence src dst sc) s = .next (Claims.waits s 0x07))
      ∧ (s.core.cmds = [] → (∀ e ∈ s.core.memq, e.op.isWrite = false) → (∀ x ∈ s.dev.decs, x.core ≠ some s.me) → s.core.adds = [] →
        (∀ o ∈ (s.die s.me.die).sfxOps, o.core ≠ s.me.idx) →
        (s.core.lostWrites = [] → s.core.lostTokens = [] → s.core.lostAdds = [] → exec (.drain sc) s = .next (Claims.same s))
          ∧ (∀ (va : Word) (r : List Word), s.core.lostWrites = va :: r → s.core.issue.pass = false →
            exec (.drain sc) s = .next (Claims.traps { s with core := { s.core with lostWrites := r } } 0x0A va)))
      ∧ (s.core.cmds ≠ [] → (∀ e ∈ s.core.memq, e.lost = false) → s.core.issue.pass = false → exec (.drain sc) s = .next (Claims.waits s 0x07))
      ∧ ((if n = 0 then s.core.cmds = [] else ∀ c ∈ s.core.cmds, c.cid ≠ n) → exec (.cwait n) s = .next (Claims.same s))
      ∧ ((∃ c ∈ s.core.cmds, n = 0 ∨ c.cid = n) → s.core.issue.pass = false → exec (.cwait n) s = .next (Claims.waits s 0x00))

/-- No unit of a range of the scratchpad holds an uncorrectable error (log 16). -/
def Sys2Proof.Claims.good (s : State) (ea : Word) (n : Nat) : Prop :=
  ∀ u ∈ s.core.badUnits, u < (ea.toNat - 0xF00000000000) / 64 ∨ (ea.toNat - 0xF00000000000 + n + 63) / 64 ≤ u

/-- A read of the scratchpad by the X slot: on path S without a class, or, of a suffix instruction, on path X (R274, R302). -/
def Sys2Proof.Claims.reads (path : BitVec 3) (ea : Word) (n : Nat) : ScratchAccess :=
  { path := path, ac := 0, off := ea.toNat - 0xF00000000000, size := n, plain := path == 0 }

/-- The words that bytes spell, low byte first (R6). -/
def Sys2Proof.Claims.wordAt (bs : List Byte) (i : Nat) : Nat := leNat ((bs.drop (4 * i)).take 4)

/-- An image that CBSET takes (R288). -/
def Sys2Proof.Claims.bufferImage (s : State) (bs : List Byte) : Prop :=
  let f (i : Nat) : Nat := Claims.wordAt bs i
  f 0 % 64 = 0 ∧ f 1 % 64 = 0 ∧ 64 ≤ f 1 ∧ f 1 ≤ 2 ^ 20 ∧ 1 ≤ f 2 ∧ f 2 ≤ 256 ∧ f 3 = 0 ∧ f 0 + f 1 * f 2 ≤ s.core.window s.me.isComp

/-- YSET sends a word of a descriptor register; YLD, KLD and CBKLD with a full operand that lies aligned in the window send the bytes that they read to theirs, with latencies 4, 4 and 6 (R286, R287). Those are the bytes that are there, or ones that a write which nothing orders before the read may
leave (R274, R305, R307): which writes those are is the model's reading (log 61). CBSET of a legal image configures a buffer that no outstanding command names, and traps on any other;
CBWAIT takes the next filled slot of a configured buffer, an acquire of its bytes, and sends its address; CBREL frees the slot taken longest ago, or changes nothing (R288, R289). -/
def Obligations.TablesAndBuffers : Prop :=
  ∀ (s : State) (a d : BitVec 5) (ta : Bool) (y : BitVec 4) (n : BitVec 3),
    let ea := Claims.addr s a
    let b := s.core.regs.cb[n.toNat]'n.isLt
    let put (s : State) (c : CBuf) : Regs := { s.core.regs with cb := s.core.regs.cb.set n.toNat c n.isLt }
    let read (k : Nat) : ScratchAccess := Claims.reads 0 ea k
    (s.core.regs.sIsFull a = true → exec (.yset a ta n y) s = .next (Claims.answer s 1 (.yWord y n ((s.core.regs.sVal a).setWidth 32))))
      ∧ (Claims.allFull s [Claims.A a ta] = true →
        (Claims.inWindow s ea 32 32 → Claims.good s ea 32 → ∃ bs u, Claims.maySee s (read 32) bs ∧ Claims.noted s (read 32) u
            ∧ exec (.yld a ta y) s = .next (Claims.answer u 4 (.y y (BitVec.ofNat 256 (leNat bs)))))
          ∧ (Claims.inWindow s ea 64 64 → Claims.good s ea 64 → ∃ bs u, Claims.maySee s (read 64) bs ∧ Claims.noted s (read 64) u
            ∧ exec (.kld a ta) s = .next (Claims.answer u 4 (.k (BitVec.ofNat 512 (leNat bs)))))
          ∧ (Claims.inWindow s ea 1024 64 → Claims.good s ea 1024 → ∃ bs u, Claims.maySee s (read 1024) bs ∧ Claims.noted s (read 1024) u
            ∧ exec (.cbkld a ta) s = .next (Claims.answer u 6 (.codebook (BitVec.ofNat 8192 (leNat bs)))))
          ∧ (Claims.inWindow s ea 16 16 → Claims.good s ea 16 → s.cbNamed n = false → ∃ bs u, Claims.maySee s (read 16) bs ∧ Claims.noted s (read 16) u
            ∧ (Claims.bufferImage s bs → exec (.cbset a ta n) s = .next (Claims.regsAt u
              (put u ⟨true, Claims.wordAt bs 0, Claims.wordAt bs 1, Claims.wordAt bs 2, 0, 0, 0, []⟩)))
            ∧ (¬ Claims.bufferImage s bs → s.core.issue.pass = false → exec (.cbset a ta n) s = .next (Claims.traps s 0x01 ea)))
          ∧ (ea.toNat % 32 ≠ 0 → s.core.issue.pass = false → exec (.yld a ta y) s = .next (Claims.traps s 0x07 ea)))
      ∧ (s.core.regs.sIsFull d = true → b.configured = true → b.t ∈ b.full → exec (.cbwait d n) s = .next
        (Claims.issued ((Claims.sends { s with core := { s.core with regs := put s { b with t := b.t + 1, full := b.full.filter fun k => k != b.t } } } 1
          (.s d (0xF00000000000 + BitVec.ofNat 64 (b.base + b.t.toNat % b.count * b.size)))).observesRange (b.base + b.t.toNat % b.count * b.size) b.size)))
      ∧ (s.core.regs.sIsFull d = true → b.configured = false → s.core.issue.pass = false → exec (.cbwait d n) s = .next (Claims.traps s 0x01 s.wordVal))
      ∧ (s.core.regs.sIsFull d = true → b.configured = true → b.t ∉ b.full → s.core.issue.pass = false → exec (.cbwait d n) s = .next (Claims.waits s 0x07))
      ∧ exec (.cbrel n) s = .next (if b.configured = true ∧ b.r ≠ b.t then Claims.regsAt s (put s { b with r := b.r + 1 }) else Claims.same s)

/-- Requests and tokens (R39, R327-R331), with feature bit 1, the generation core's ready bit and full registers: SQPUSH on a main core, a release (R308, log 61), appends its request at the cluster's companion core where no write of the task is outstanding; SQPOP there takes the head request, an acquire; TKPUT appends a token to a mailbox of its
cluster that has room, or notes that it was discarded; TKTST tests for a token that no claim takes, and TKGET claims the next one. Where there is no room, no request or no free claim the bundle holds. -/
def Obligations.TokenIssue : Prop :=
  ∀ (s : State) (a b d : BitVec 5) (ta tb ck : Bool) (p : BitVec 4),
    let va := s.core.regs.sVal a
    let vb := s.core.regs.sVal b
    (s.me.isComp = false → s.feature 1 = true → s.isReady s.me.die 20 = false → s.core.issue.pass = false → s.core.regs.sIsFull d = true →
        exec (.tktst p) s = .next (Claims.waits s 0x00) ∧ exec (.tkget d) s = .next (Claims.waits s 0x00))
      ∧ (s.me.isComp = false → s.feature 1 = true → s.isReady s.me.die 20 = true →
        (s.core.regs.sIsFull a = true → s.core.regs.sIsFull b = true → va.toNat < 2 ^ 48 → s.runsJob s.me.comp s.job = true → s.requestsFull = false → Claims.mayCommit s ck →
            let t : State := State.releases { s with core := { s.core with regs := { s.core.regs with asked := s.core.regs.asked + 1 } } } 64;
            let r := va ||| (s.me.idx.setWidth 64 <<< 48);
            ((∀ e ∈ s.core.memq, e.op.isWrite = false) → exec (.sqpush a b ta tb ck) s = .next
                (Claims.issued (t.setCore s.me.comp { t.getCore s.me.comp with requests := (t.getCore s.me.comp).requests ++ [(r, vb)] })))
              ∧ ((∃ e ∈ s.core.memq, e.op.isWrite = true) → exec (.sqpush a b ta tb ck) s = .next (Claims.stored t (.sqpush r vb))))
          ∧ (s.core.regs.sIsFull a = true → s.core.regs.sIsFull b = true → va.toNat < 2 ^ 48 → s.runsJob s.me.comp s.job = true → s.requestsFull = true → s.core.issue.pass = false →
            exec (.sqpush a b ta tb true) s = .next (Claims.waits s 0x00))
          ∧ exec (.tktst p) s = .next (Claims.answer s 1 (Claims.whole s p (decide (s.core.regs.claims.length < s.core.regs.mailbox.length))))
          ∧ decode .X (0x19#7 ++ 0#21 ++ p) = .ok (.tktst p) ∧ decode .X 0x32000005 = .ok (.tktst 5)
          ∧ (s.core.regs.sIsFull d = true → s.core.regs.claims.length < 8 → exec (.tkget d) s = .next (Claims.issued { s with core := { s.core with
              regs := { s.core.regs with claims := s.core.regs.claims ++ [d] }
              issue := { s.core.issue with clearS := s.core.issue.clearS ||| (if d = 0 then 0#32 else Claims.bitOf d) } } }))
          ∧ (s.core.regs.sIsFull d = true → s.core.regs.claims.length = 8 → s.core.issue.pass = false → exec (.tkget d) s = .next (Claims.waits s 0x00)))
      ∧ (s.me.isComp = true →
        (∀ (x y : Word) (q : List (Word × Word)), 1 ≤ d.toNat → d.toNat ≤ 30 → s.core.regs.sIsFull d = true → s.core.regs.sIsFull (d + 1) = true → s.core.requests = (x, y) :: q →
            exec (.sqpop d) s = .next (Claims.issued
              ((Claims.sends (Claims.sends { s with core := { s.core with requests := q } } 1 (.s d x)) 1 (.s (d + 1) y)).acquire .cluster)))
          ∧ (1 ≤ d.toNat → d.toNat ≤ 30 → s.core.regs.sIsFull d = true → s.core.regs.sIsFull (d + 1) = true → s.core.requests = [] → s.core.issue.pass = false →
            exec (.sqpop d) s = .next (Claims.waits s 0x00))
          ∧ (s.core.regs.sIsFull a = true → s.core.regs.sIsFull b = true → va.toNat < 144 → va.toNat / 12 = s.me.cluster → (∀ e ∈ s.core.memq, e.op.isWrite = false) →
            (∀ o ∈ (s.die s.me.die).sfxOps, o.core ≠ s.me.idx) →
            let c : CoreRef := ⟨s.me.die, va.setWidth 8⟩;
            (s.runsJob c s.job = true → (s.getCore c).regs.mailbox.length < 8 → exec (.tkput a b ta tb) s = .next
                (let x := s.getCore c;
                  Claims.issued (s.setCore c { x with regs := { x.regs with mailbox := x.regs.mailbox ++ [vb], asked := x.regs.asked - 1 } })))
              ∧ (s.runsJob c s.job = false → exec (.tkput a b ta tb) s = .next
                (Claims.issued { s with core := { s.core with lostTokens := s.core.lostTokens ++ [va] } }))))

/-- A suffix-memory operation is handed to the die's unit (R353). -/
def Sys2Proof.Claims.handed (s : State) (ctx : Word) (k : SfxKind) : State :=
  Claims.issued { s with dies := s.dies.set s.me.die.toNat { s.die s.me.die with
    sfxOps := (s.die s.me.die).sfxOps ++ [{ core := s.me.idx, job := s.job, sup := s.core.regs.status.getLsbD 0, ctx := ctx.setWidth 12, kind := k
                                            no := (s.core.rerun.map Rerun.no).getD 0 }] } s.me.die.isLt }

/-- The same for an operation with a result: its register is to become empty (R124). -/
def Sys2Proof.Claims.handedFor (s : State) (ctx : Word) (d : BitVec 5) (k : SfxKind) : State :=
  let empty := if d = 0 then 0#32 else Claims.bitOf d
  Claims.handed { s with core := { s.core with
    regs := { s.core.regs with sFull := if s.me.isComp then s.core.regs.sFull &&& ~~~empty else s.core.regs.sFull }
    issue := { s.core.issue with clearS := if s.me.isComp then s.core.issue.clearS else s.core.issue.clearS ||| empty } } } ctx k

/-- The n words that bytes spell. -/
def Sys2Proof.Claims.words (bs : List Byte) (n : Nat) : List Word32 := (List.range n).map fun i => BitVec.ofNat 32 (Claims.wordAt bs i)

/-- The instructions of the suffix memory, with feature bit 0, their unit ready and room for an operation, full registers, a context below 4096 and legal operands, hand their operation to the unit and change nothing else; SXQRY and SXSTAT empty their register (R344-R351). SXCFG and SXAPP read their words on path X, as R302 and R307 order it (log 61). A context above
4095 traps with cause 0x0D and code 1; while 8 operations of the core wait the bundle holds (R344, R345). -/
def Obligations.SuffixIssue : Prop :=
  ∀ (s : State) (a b d : BitVec 5) (ta tb ck : Bool) (n : BitVec 5), s.feature 0 = true → s.isReady s.me.die 18 = true →
    s.core.regs.sIsFull a = true →
    let va := s.core.regs.sVal a
    let vb := s.core.regs.sVal b
    let ea := Claims.addr s b
    let mine := ((s.die s.me.die).sfxOps.filter fun o => o.core == s.me.idx).length
    (mine < 8 → va.toNat < 4096 →
        (Claims.allFull s [Claims.A b tb] = true →
            (Claims.inWindow s ea 16 16 → ∃ bs, Claims.maySee s (Claims.reads 6 ea 16) bs ∧ (cfgBad (Claims.words bs 4) = false → exec (.sxcfg a b ta tb) s = .next
                (let w := Claims.words bs 4;
                  Claims.handed s va (.cfg (w.getD 0 0).toNat (w.getD 1 0).toNat (w.getD 2 0).toNat))))
              ∧ (1 ≤ n.toNat → Claims.inWindow s ea (4 * n.toNat) 4 → Claims.mayCommit s ck → ∃ bs, Claims.maySee s (Claims.reads 6 ea (4 * n.toNat)) bs
                ∧ ((∀ w ∈ Claims.words bs n.toNat, w.toNat < 2 ^ 24) → exec (.sxapp a b ta tb ck n) s = .next (Claims.handed s va (.app (Claims.words bs n.toNat)))))
              ∧ (1 ≤ n.toNat → Claims.inWindow s ea (4 * n.toNat) 4 → s.core.regs.sIsFull d = true →
                exec (.sxqry d a b ta tb n) s = .next (Claims.handedFor s va d (.qry d (ea.toNat - 0xF00000000000) n.toNat))))
          ∧ (s.core.regs.sIsFull d = true → exec (.sxstat d a ta) s = .next (Claims.handedFor s va d (.stat d)))
          ∧ (s.core.regs.sIsFull b = true → vb.toNat % 128 = 0 → vb.toNat < 2 ^ 48 →
            exec (.sxsave a b ta tb) s = .next (Claims.handed s va (.save vb)) ∧ exec (.sxload a b ta tb) s = .next (Claims.handed s va (.load vb))))
      ∧ (mine < 8 → 4096 ≤ va.toNat → s.core.regs.sIsFull d = true → s.core.issue.pass = false →
        exec (.sxstat d a ta) s = .next (Claims.traps s 0x0D (BitVec.ofNat 64 (0x20 * 2 ^ 24 + va.toNat % 2 ^ 12 * 2 ^ 12 + 1))))
      ∧ (mine = 8 → s.core.regs.sIsFull d = true → s.core.issue.pass = false → exec (.sxstat d a ta) s = .next (Claims.waits s 0x00))

/-! ### Checkpoints and YIELD -/

/-- CKPT with feature bit 3 on a main core marks its bundle under protection and has no effect without it (R372). YIELD on a main core with every register full, nothing in flight and legal ranges starts the task's quantum again while it lasts, and where the scheduler wants the core notes the ranges and
the requeue (R54, R369-R371). A core frozen after a checkpoint bundle whose commit-class work is done takes its snapshot, with JOVF clear and an empty journal, and goes on (R372, R373), or meets the datapath error that waited for it (R374); that such an error waits is the model's reading (log 23). SEMADD, CQPUSH and TDEC, which could issue else, raise trap 0x0F under protection without ck (R292). -/
def Obligations.ProtectionIssue : Prop :=
  (∀ (s : State) (a b : BitVec 5) (ta tb : Bool) (n : BitVec 6), s.core.regs.status.getLsbD 1 = true → s.core.issue.pass = false → s.core.regs.sIsFull a = true →
      exec (.semadd a ta false n) s = .next (Claims.traps s 0x0F s.wordVal)
        ∧ (s.core.regs.sIsFull b = true → (s.core.regs.sVal b).toNat < 2 ^ 10 → (s.core.regs.sVal b).toNat % 2 ^ 8 < 144 →
          exec (.semaddRemote a b ta tb false n) s = .next (Claims.traps s 0x0F s.wordVal))
        ∧ (s.core.regs.countQ.length < 64 → exec (.cqpush a ta false) s = .next (Claims.traps s 0x0F s.wordVal))
        ∧ (∀ e d, Claims.translates s (s.core.regs.sVal a) 128 true e → region (Claims.at s (s.core.regs.sVal a) e).pa.toNat = .device d →
          exec (.tdec a ta false) s = .next (Claims.traps s 0x0F s.wordVal)))
    ∧ decode .X 0x2A030080 = .ok (.tdec 6 false true)
    ∧ ∀ (s : State) (y : BitVec 4) (t : Task), s.me.isComp = false → s.core.task = some t →
    (s.feature 3 = true → exec .ckpt s = .next (Claims.issued (if s.core.regs.status.getLsbD 1 then
        { s with core := { s.core with issue := { s.core.issue with ckpt := true } } } else s)))
      ∧ (s.core.regs.sFull = BitVec.allOnes 32 → s.core.regs.aFull = BitVec.allOnes 32 → s.core.regs.flight = [] →
        let l := ((List.range 4).map fun i => (bits (s.core.regs.y[y.toNat]'y.isLt) (64 * i) 32, bits (s.core.regs.y[y.toNat]'y.isLt) (64 * i + 32) 32)).filter fun p => p.2 != 0;
        (∀ p ∈ l, p.1 % 64 = 0 ∧ p.2 % 64 = 0 ∧ p.1 + p.2 ≤ s.core.window false) →
        (s.yieldRequeues = false → exec (.yield y) s = .next (Claims.issued { s with core := { s.core with quantum := (s.die s.me.die).quantumOf t.gen * 1024 } }))
          ∧ (s.yieldRequeues = true → exec (.yield y) s = .next (Claims.issued { s with core := { s.core with
              yielded := l, issue := { s.core.issue with yields := true } } }))
          ∧ (s.core.quantum ≠ 0 → s.yieldRequeues = false))
      ∧ (s.core.life = .checkpoint → s.mayCheckpoint = true → s.core.captured = none →
        let r := { s.core.regs with status := s.core.regs.status &&& ~~~4#64 }
        (s.core.errDue = false → ∃ u, exec (.checkpointSnapshot s.me) s = .next u ∧ u.core.life = (if s.core.regs.ended then .ended else .running) ∧ u.core.snapshot = some r ∧ u.core.regs = r ∧ u.core.journal = []
          ∧ u.core.memq = s.core.memq.map (fun e => { e with snap := true }) ∧ u.core.cmds = s.core.cmds.map (fun c => { c with snap := true })
          ∧ u.core.scratch = s.core.scratch ∧ u.mem = s.mem ∧ u.dev = s.dev ∧ u.others = s.others)
          ∧ (s.core.errDue = true → ∀ u, exec (.checkpointSnapshot s.me) { s with core := { s.core with errDue := false } } = .next u →
            exec (.checkpointSnapshot s.me) s = .next (Claims.orWaits s u.datapathError)))

/-! ### Memory -/

/-- Memory after reset is in canonical form: the addresses that it lists rise strictly and no byte that it lists is the value of an unlisted one. -/
def Obligations.ResetMemoryCanonical : Prop := Memory.wf State.reset.mem = true

/-- Every step from a state whose memory is in canonical form keeps it in canonical form. -/
def Obligations.MemoryCanonical : Prop :=
  ∀ s t : State, Memory.wf s.mem = true → step s = .next t → Memory.wf t.mem = true

/-- One write at a line's home, without encryption: a poisoned line, or one that meets an uncorrectable error, keeps every byte and its version, is poisoned afterwards, and the answer says so; any other line takes the bytes, its version goes up by one, and every other byte
and line keeps its value (R221, R377). A queued store whose turn has come performs so: its bytes are its data, low first (R6, R152). -/
def Obligations.LineWrite : Prop :=
  ∀ (s : State) (pa : Nat) (bs : List Byte), pa % 128 + bs.length ≤ 128 →
    let r := s.writeLine 0 pa bs
    let m := s.lineMeta (pa / 128)
    (m.poison = true ∨ pa / 128 ∈ s.flaws → r.2 = true ∧ r.1.mem = s.mem ∧ r.1.lineMeta (pa / 128) = ⟨m.version, true⟩)
      ∧ (m.poison = false → pa / 128 ∉ s.flaws → r.2 = false ∧ r.1.lineMeta (pa / 128) = ⟨m.version + 1, false⟩
        ∧ ∀ a, Sparse.get 0 r.1.mem a = if pa ≤ a ∧ a < pa + bs.length then bs.getD (a - pa) 0 else Sparse.get 0 s.mem a)
      ∧ (∀ k, k ≠ pa / 128 → r.1.lineMeta k = s.lineMeta k)
      ∧ (∀ (k d : Nat) (e : MemEntry) (p : Place) (ac sz : BitVec 2) (v : Word), s.core.memq[k]? = some e → e.op = .store p ac sz v → s.mayPerform k = some e →
        p.pa.toNat = pa → region pa = .device d → p.key = 0 → pa % 2 ^ sz.toNat = 0 → m.poison = false → pa / 128 ∉ s.flaws →
        ∃ t, exec (.writePerformAtHome s.me k) s = .next t ∧ t.lineMeta (pa / 128) = ⟨m.version + 1, false⟩ ∧ t.core.regs = s.core.regs
          ∧ ∀ a, Sparse.get 0 t.mem a = if pa ≤ a ∧ a < pa + 2 ^ sz.toNat then v.extractLsb' (8 * (a - pa)) 8 else Sparse.get 0 s.mem a)

/-! ### Events -/

/-- What a core's units do, for the core in focus (for another core the same with the focus on it): due results land, and due local stores perform, noted with what they replace and with the tokens that they push (R123, R126, R277, R305); a value that arrives lands and its register becomes full (R124); a remote add performs at its target, or is noted as
discarded (R280, R281); a token fills the oldest claim (R331); the quantum stops at zero (R54); firmware's kill frees the core (R362). -/
def Obligations.CoreEvents : Prop :=
  ∀ (s : State) (k : Nat),
    let due (store : Bool) := s.core.regs.flight.filter fun f => f.left == 0 && f.isStore == store
    let rest (store : Bool) : Core := { s.core with regs := { s.core.regs with flight := s.core.regs.flight.filter fun f => !(f.left == 0 && f.isStore == store) } }
    exec (.fixedLatencyLanding s.me) s = .next { s with core := (rest false).landAll (due false) }
      ∧ (∃ l : List LocalStore, (l.map fun x => { x with old := none, woke := [] }) = (s.core.regs.stores.map fun x => { x with old := none, woke := [] })
        ∧ exec (.scratchpadStorePerform s.me) s = .next { s with core :=
          let y := (rest true).landAll (due true)
          { y with regs := { y.regs with stores := l } } })
      ∧ (∀ (e : MemEntry) (d : BitVec 5) (v : Word) (fl : Flags), s.core.memq[k]? = some e → e.op = .value d v fl → e.lost = false →
        s.core.captured = none → s.core.rerun = none → s.core.snapshot = none →
        exec (.variableLatencyLanding s.me k) s = .next { s with core := (s.core.unqueue k).landFlight ⟨0, .late d v, fl⟩ })
      ∧ (∀ a : RemoteAdd, s.core.adds[k]? = some a → a.after = 0 → (∀ b ∈ s.core.adds.take k, b.target ≠ a.target) →
        (s.getCore ⟨BitVec.ofNat 2 (a.target.toNat / 2 ^ 8 % 4), BitVec.ofNat 8 (a.target.toNat % 2 ^ 8)⟩).issue.due = false →
        let t : State := { s with core := { s.core with adds := dropAt s.core.adds k } };
        let c : CoreRef := ⟨BitVec.ofNat 2 (a.target.toNat / 2 ^ 8 % 4), BitVec.ofNat 8 (a.target.toNat % 2 ^ 8)⟩;
        (s.runsJob c a.job = true → exec (.remoteSemaddArrival s.me k) s = .next
            (t.setCore c { t.getCore c with regs := { (t.getCore c).regs with
              sem := (t.getCore c).regs.sem.set a.sem.toNat ((t.getCore c).regs.sem[a.sem.toNat]'a.sem.isLt + a.value) a.sem.isLt }, issue := { (t.getCore c).issue with due := (t.getCore c).issue.res == .held } }))
          ∧ (s.runsJob c a.job = false → exec (.remoteSemaddArrival s.me k) s = .next { t with core := { t.core with lostAdds := t.core.lostAdds ++ [a.target] } }))
      ∧ (∀ (v : Word) (m : List Word) (d : BitVec 5) (l : List (BitVec 5)), s.core.regs.mailbox = v :: m → s.core.regs.claims = d :: l → s.core.captured = none →
        exec (.tokenLanding s.me) s = .next
          (State.acquire { s with core := { s.core with regs := { s.core.regs with mailbox := m, claims := l } }.landFlight ⟨0, .late d v, 0⟩ } .cluster))
      ∧ (s.core.task.isSome = true → s.me.isComp = false → exec (.quantumExpiry s.me) s = .next { s with core := { s.core with quantum := 0 } })
      ∧ (∀ t : Task, s.core.task = some t → s.core.regs.status.getLsbD 0 = true → s.core.life = .supervisor →
        (s.kill (s.core.regs.trapCause.setWidth 8) s.core.regs.trapPc s.core.regs.trapVal).held = s.held → ∃ u, exec (.taskKill s.me) s = .next u
        ∧ u.core.task = none ∧ u.core.regs = Regs.zero
        ∧ (u.die s.me.die).kill = (((s.die s.me.die).kill + 0x0001000000000000) &&& 0xFFFF000000000000) ||| (t.addr.setWidth 64 &&& 0xFFFFFFFFFF80))
      ∧ (∀ c, c ≠ s.me → ∀ i ∈ [Instr.fixedLatencyLanding c, .scratchpadStorePerform c, .tokenLanding c, .taskKill c, .taskRetire c, .imemReload c, .checkpointSnapshot c,
            .datapathError c, .taskSuspend c, .yieldRequeue c], ∀ t, exec i (s.focus c) = .next t → exec i s = .next (t.focus s.me))

/-- What of the device only the host, or a store to its registers, changes. -/
def Sys2Proof.Claims.keepsHost (s t : State) : Prop :=
  t.dev.run = s.dev.run ∧ t.dev.accept = s.dev.accept ∧ t.dev.fwAddr = s.dev.fwAddr ∧ t.dev.fwLen = s.dev.fwLen ∧ t.dev.fwMain = s.dev.fwMain ∧ t.dev.fwComp = s.dev.fwComp
    ∧ t.dev.ptroot = s.dev.ptroot ∧ t.dev.fabRank = s.dev.fabRank ∧ t.dev.fabGrp = s.dev.fabGrp ∧ t.dev.keySlots = s.dev.keySlots ∧ t.dev.apt = s.dev.apt

/-- The core in focus keeps everything, but for the model's note of the lines that its L1 may hold as they were (R303, log 35). -/
def Sys2Proof.Claims.keptCore (s t : State) : Prop := t.core = { s.core with stale := t.core.stale }

/-- A later register write of the host must wait: flow control holds a counter write before it, or an earlier register write, or one that is to be dropped, waits itself
(R40, log 43). -/
def Sys2Proof.Claims.linkHeld (s : State) : Prop :=
  (1024 ≤ s.dev.tdecQ.length ∧ ∃ x, HostWrite.tdec x ∈ s.dev.hostHeld) ∨ (∃ o n x, HostWrite.reg o n x ∈ s.dev.hostHeld) ∨ HostWrite.drop ∈ s.dev.hostHeld

/-- A host write of a register has the effect of its row, and changes nothing else: HIF_ERR clears the bits written as 1 (R34); HIF_ACCEPT takes the offered features until RUN is set, and then sets ACCLATE (R37); PTROOT and the fabric registers take an aligned value until RUN is set (R205,
R212); a device counter's selection starts it at 0 and takes no reserved source (R400); an island's request comes into force unless the device holds it (R404), and a limit holds it (R405); a group that is enabled is stored, with the fields of R386's map. A write of another size, or to no register, is ignored (R32), and the registers that
have an event of their own do as it does. While an earlier write of the host holds the link, the write waits behind it and changes no register (R40; which writes hold it is the model's reading, log 43). That CUR follows the request, or rises to the limit, in the same move is the model's reading (log 41), and so is that HIF_FW_ADDR and
HIF_FW_LEN take any value (log 6). -/
def Obligations.HostRegisterWrites : Prop :=
  ∀ (s : State) (v : Word) (d : BitVec 2) (i : BitVec 4) (g : BitVec 6) (isl : BitVec 5) (lim : BitVec 2) (reg : BitVec 3),
    exec (.hifErrClear v) s = .next { s with dev := { s.dev with err := s.dev.err &&& ~~~(v.setWidth 8) } }
      ∧ exec (.featureAcceptWrite d v) s = .next (if s.dev.run then { s with dev := { s.dev with err := s.dev.err ||| 2 } }
          else { s with dev := { s.dev with accept := s.dev.accept.set d.toNat (if d = 0 then v &&& 0x7F else 0) d.isLt } })
      ∧ exec (.ptrootWrite v) s = .next (if s.dev.run = false ∧ v.toNat % 65536 = 0 then { s with dev := { s.dev with ptroot := v } } else s)
      ∧ exec (.fabricRankWrite reg v) s = .next (if s.dev.run ∨ 5 ≤ reg.toNat then s
          else if reg = 0 then { s with dev := { s.dev with fabRank := v &&& 0x1FF } }
          else { s with dev := { s.dev with fabGrp := s.dev.fabGrp.setIfInBounds (reg.toNat - 1) v } })
      ∧ exec .run s = .next { s with dev := { s.dev with run := true } }
      ∧ (v.getLsbD 0 = true → exec (.fgrpWrite g v) s = .next { s with dev := { s.dev with fgrp := s.dev.fgrp.set g.toNat (v &&& 0x000FFFFFFFFFFFC1) g.isLt } })
      ∧ (∃ t, exec (.devselWrite d i v) s = .next t ∧ (t.die d).devCnt = (s.die d).devCnt.set i.toNat 0 i.isLt
          ∧ (t.die d).devSel = (s.die d).devSel.set i.toNat (if v.toNat % 256 < 0x10 then v.setWidth 8 else 0) i.isLt ∧ t.dev = s.dev ∧ t.core = s.core ∧ t.mem = s.mem)
      ∧ (∃ t, exec (.islRequestWrite d isl v) s = .next t ∧ t.dev = s.dev ∧ t.core = s.core ∧ t.mem = s.mem
          ∧ ((t.die d).isl[isl.toNat]'isl.isLt).req = v.setWidth 2
          ∧ (((s.die d).isl[isl.toNat]'isl.isLt).thr = false → ((t.die d).isl[isl.toNat]'isl.isLt).cur = v.setWidth 2 ∧ ((t.die d).isl[isl.toNat]'isl.isLt).thr = false))
      ∧ (∃ t, exec (.powerLimitChange d isl lim) s = .next t ∧ t.dev = s.dev ∧ t.core = s.core ∧ t.mem = s.mem
          ∧ ((t.die d).isl[isl.toNat]'isl.isLt).req = ((s.die d).isl[isl.toNat]'isl.isLt).req
          ∧ (((t.die d).isl[isl.toNat]'isl.isLt).thr = true ↔ ((s.die d).isl[isl.toNat]'isl.isLt).req < lim)
          ∧ (((s.die d).isl[isl.toNat]'isl.isLt).req < lim → ((t.die d).isl[isl.toNat]'isl.isLt).cur = lim))
      ∧ (¬ Claims.linkHeld s →
        (∀ (off : BitVec 16) (n : Nat), n ≠ 8 ∨ off.toNat % 8 ≠ 0 → exec (.hifRegisterWrite off n v) s = .next s)
          ∧ exec (.hifRegisterWrite 0x0000 8 v) s = .next s ∧ exec (.hifRegisterWrite 0x0010 8 v) s = exec (.hifErrClear v) s
          ∧ exec (.hifRegisterWrite 0x0120 8 v) s = exec (.featureAcceptWrite 0 v) s ∧ exec (.hifRegisterWrite 0x0500 8 v) s = exec (.ptrootWrite v) s
          ∧ exec (.hifRegisterWrite 0x0300 8 v) s = .next { s with dev := { s.dev with fwAddr := v } }
          ∧ exec (.hifRegisterWrite 0x0308 8 v) s = .next { s with dev := { s.dev with fwLen := v } }
          ∧ exec (.hifRegisterWrite 0x0660 8 v) s = exec (.poisonClear v) s)
      ∧ (Claims.linkHeld s → ∀ (off : BitVec 16) (n : Nat), ∃ t, exec (.hifRegisterWrite off n v) s = .next t ∧ HostWrite.reg off n v ∈ t.dev.hostHeld ∧ Claims.keepsHost s t)

/-- Host traffic while no host write is held: a write into one line of device memory whose channel is ready and that no checkpoint run holds stores its bytes and raises the line's version (R30, R221); a read returns the bytes (R312); a counter write of a legal address queues while there is room, any other
sets TDDROP; the counter window reads as zero, and a write of another offset of it is ignored (R30, R40). A frame whose page has migrated is the new one (R380; that the host's accesses are re-aimed too is the model's reading, log 39). A poison clear is noted, and when it is done, once its channel is ready (R39), its line is zero, its version 0 and its poison gone (R378). A decrement whose turn has come takes 1 from a counter that is not 1, in its own line, and is done (R41), by a wrap
at -2^31, which is the model's choice (log 72). An L2 split waits for the die's cores; then the die's staging reads zero and it is in force
(R209). -/
def Obligations.HostMemory : Prop :=
  ∀ (s : State) (pa : PAddr) (bs : List Byte) (v : Word), s.dev.hostHeld = [] →
    (let h := s.reaim pa.toNat;
        pa.toNat + bs.length ≤ 4 * dieBytes → pa.toNat % 128 + bs.length ≤ 128 → 0 < bs.length → s.channelReady (s.reaim (128 * (pa.toNat / 128))) = true →
        s.ckeHolds (s.reaim (128 * (pa.toNat / 128))) = false → (s.lineMeta (h / 128)).poison = false → h / 128 ∉ s.flaws →
        ∃ t, exec (.hostMemWrite pa bs) s = .next t ∧ t.dev = s.dev ∧ Claims.keptCore s t ∧ t.dies = s.dies
          ∧ t.lineMeta (h / 128) = ⟨(s.lineMeta (h / 128)).version + 1, false⟩
          ∧ ∀ a, Sparse.get 0 t.mem a = if h ≤ a ∧ a < h + bs.length then bs.getD (a - h) 0 else Sparse.get 0 s.mem a)
      ∧ (pa.toNat + bs.length ≤ 4 * dieBytes → 0 < bs.length →
        (∀ a, pa.toNat ≤ a → a < pa.toNat + bs.length → s.channelReady (s.reaim (128 * (a / 128))) = true ∧ (s.lineMeta (s.reaim a / 128)).poison = false) →
        exec (.hostMemRead pa bs.length) s = .next { s with
          dev := { s.dev with hostRead := (List.range bs.length).map fun i => Sparse.get 0 s.mem (s.reaim (pa.toNat + i)) }, fresh := s.fresh + bs.length })
      ∧ (∀ off n : Nat, counterRead off n = 0 ∧ (off ≠ 0 → s.counterWrite off n v = s))
      ∧ (s.dev.run = true → v.toNat % 128 = 0 → v.toNat < 2 ^ 48 → s.dev.tdecQ.length < 1024 →
        exec (.hifTdecWrite 8 v) s = .next { s with dev := { s.dev with tdecQ := s.dev.tdecQ ++ [v] } })
      ∧ (s.dev.run = false ∨ v.toNat % 128 ≠ 0 ∨ 2 ^ 48 ≤ v.toNat → exec (.hifTdecWrite 8 v) s = .next { s with dev := { s.dev with err := s.dev.err ||| 1 } })
      ∧ (∀ d, region (v.toNat / 128 % 2 ^ 45 * 128) = .device d → s.dev.pclr = none →
        exec (.poisonClear v) s = .next { s with dev := { s.dev with pclr := some (BitVec.ofNat 45 (v.toNat / 128 % 2 ^ 45)) } })
      ∧ (∀ l, s.dev.pclr = some l → s.channelReady (128 * l.toNat) = false → exec .poisonClearDone s = .next s)
      ∧ (∀ l, s.dev.pclr = some l → s.channelReady (128 * l.toNat) = true → ∃ t, exec .poisonClearDone s = .next t ∧ t.dev.pclr = none ∧ t.lineMeta l.toNat = ⟨0, false⟩
        ∧ (∀ k, k ≠ l.toNat → t.lineMeta k = s.lineMeta k) ∧ ∀ a, Sparse.get 0 t.mem a = if a / 128 = l.toNat then 0 else Sparse.get 0 s.mem a)
      ∧ (∀ (k : Nat) (x : Dec), s.dev.decs[k]? = some x → x.fired = false → x.key = 0 → s.channelReady x.pa.toNat = true → x.pa.toNat % 4 = 0 →
        (s.lineMeta (x.pa.toNat / 128)).poison = false → x.pa.toNat / 128 ∉ s.flaws →
        let old := BitVec.ofNat 32 (leNat (Sparse.range 0 s.mem x.pa.toNat 4))
        old ≠ 1 → (x.list = 0 ∨ ∀ y ∈ s.dev.decs.take k, y.list ≠ x.list ∨ y.fired = true) → ∃ t, exec (.taskDecrement k) s = .next t ∧ t.dev.decs = dropAt s.dev.decs k
          ∧ (x.core = none → Claims.keptCore s t) ∧ t.core.regs = s.core.regs ∧ t.core.scratch = s.core.scratch ∧ t.core.memq = s.core.memq ∧ (x.eng = none → t.core.cmds = s.core.cmds)
          ∧ BitVec.ofNat 32 (leNat (Sparse.range 0 t.mem x.pa.toNat 4)) = old - 1 ∧ ∀ a, a < x.pa.toNat ∨ x.pa.toNat + 4 ≤ a → Sparse.get 0 t.mem a = Sparse.get 0 s.mem a)
      ∧ (∀ d : BitVec 2, ∃ t, exec (.l2SplitWrite d v) s = .next t ∧ t.mem = s.mem ∧ t.dev = s.dev
        ∧ (t.die d).l2want = some ((v &&& 0x3F00) ||| BitVec.ofNat 64 (Nat.min 12 (v.toNat % 16))) ∧ (t.die d).l2split = (s.die d).l2split)
      ∧ (∀ (d : BitVec 2) (w : Word), (s.die d).l2want = some w → s.dieBusy d = false → ∃ t, exec (.l2SplitApply d) s = .next t ∧ (t.die d).l2split = w ∧ (t.die d).l2want = none
        ∧ ∀ a, Sparse.get 0 t.mem a = (match region a with
          | .staging k _ => if k = d.toNat then 0 else Sparse.get 0 s.mem a
          | _ => Sparse.get 0 s.mem a))
      ∧ (∀ d : BitVec 2, s.dieBusy d = true → exec (.l2SplitApply d) s = .next s)

/-- Commands of the device: a key command is taken while none is busy and zeroes the key data when it is done, with the slot loaded or cleared and the status of R219; an invalidation is taken while none is busy and drops the entries that cover its page, or all, when it is done (R215); a run of the checkpoint engine is taken
while none is busy and its dies are ready, begins once no task runs there, and ends with BUSY clear once the channel groups of its dies are ready (R39, R401, R402); a function's bit of HIF_READY rises unless its feature is absent, or not in force before RUN (R38, log 26), or its link has fallen, and a link's bit falls with LINKDN set (R34, R39). TDDROP alone may rise beside, where a counter write that is to be dropped waited for the event (R34, R40). -/
def Obligations.DeviceCommands : Prop :=
  ∀ (s : State) (slot : BitVec 6) (vpn : BitVec 32) (v : Word) (d : BitVec 2),
    (s.dev.keyCmd.getLsbD 16 = false →
        exec (.keyLoad slot) s = .next { s with dev := { s.dev with keyCmd := 0x10000 ||| (slot.setWidth 64 <<< 8) ||| 1 } }
          ∧ exec (.keyClear slot) s = .next { s with dev := { s.dev with keyCmd := 0x10000 ||| (slot.setWidth 64 <<< 8) ||| 2 } })
      ∧ (s.dev.keyCmd.getLsbD 16 = true → exec (.keyLoad slot) s = .next s ∧ exec (.keyClear slot) s = .next s)
      ∧ (∀ op : BitVec 2, s.dev.keyCmd = 0x10000 ||| (slot.setWidth 64 <<< 8) ||| op.setWidth 64 → op = 1 ∨ op = 2 →
        let st := if slot = 0 then 1 else if s.feature 5 then 0 else 2
        ∃ t, exec .keyCommandDone s = .next t ∧ t.dev.keyData = 0 ∧ t.dev.keyCmd = BitVec.ofNat 64 (st * 2 ^ 14 + slot.toNat * 2 ^ 8)
          ∧ (st = 0 → t.key? slot.toNat = if op = 1 then some s.dev.keyData else none) ∧ (∀ k, k ≠ slot.toNat → t.key? k = s.key? k) ∧ t.mem = s.mem ∧ t.core = s.core)
      ∧ (s.dev.tlbInv = none → exec (.tlbInvalidateVpn vpn) s = .next { s with dev := { s.dev with tlbInv := some (some vpn) } }
          ∧ exec .tlbInvalidateAll s = .next { s with dev := { s.dev with tlbInv := some none } })
      ∧ (s.dev.tlbInv ≠ none → exec (.tlbInvalidateVpn vpn) s = .next s ∧ exec .tlbInvalidateAll s = .next s)
      ∧ (∀ w, s.dev.tlbInv = some w → ∃ t, exec .tlbInvalidationDone s = .next t ∧ t.dev = { s.dev with tlbInv := none } ∧ t.mem = s.mem ∧ t.core.regs = s.core.regs
        ∧ (∀ e, e ∈ t.core.tlb ↔ e ∈ s.core.tlb ∧ ∃ p : BitVec 32, w = some p ∧ (p.toNat < e.vpn ∨ e.vpn + e.count ≤ p.toNat))
        ∧ (∀ e, e ∈ (t.die d).tlb ↔ e ∈ (s.die d).tlb ∧ ∃ p : BitVec 32, w = some p ∧ (p.toNat < e.vpn ∨ e.vpn + e.count ≤ p.toNat)))
      ∧ (s.dev.cke.ctl.getLsbD 0 = false → (∃ k < 4, v.getLsbD (8 + k) = true) → (∀ k < 4, v.getLsbD (8 + k) = true → s.isReady (BitVec.ofNat 2 k) 21 = true) →
        exec (.ckeSaveStart v) s = .next { s with dev := { s.dev with cke := { s.dev.cke with ctl := (v &&& 0xFFF00) ||| 1, lines := 0, running := false } } }
          ∧ exec (.ckeRestoreStart v) s = .next { s with dev := { s.dev with cke := { s.dev.cke with ctl := (v &&& 0xFFF00) ||| 9, lines := 0, running := false } } })
      ∧ (s.dev.cke.ctl.getLsbD 0 = true → exec (.ckeSaveStart v) s = .next s ∧ exec (.ckeRestoreStart v) s = .next s)
      ∧ (s.dev.cke.ctl.getLsbD 0 = true → s.dev.cke.running = false → (∀ k < 4, s.dev.cke.ctl.getLsbD (8 + k) = true → s.dieBusy (BitVec.ofNat 2 k) = false) →
        exec .ckeRunBegin s = .next { s with dev := { s.dev with cke := { s.dev.cke with running := true } } })
      ∧ (let ready : Prop := ∀ k < 4, s.dev.cke.ctl.getLsbD (8 + k) = true → ∀ g < 4, s.isReady (BitVec.ofNat 2 k) (12 + g) = true;
        (s.dev.cke.running = true → ready → ∃ t, exec .ckeRunEnd s = .next t ∧ t.dev.cke.ctl = s.dev.cke.ctl &&& ~~~1 ∧ t.dev.cke.running = false ∧ Claims.keptCore s t)
          ∧ (¬ ready → exec .ckeRunEnd s = .next s))
      ∧ (s.dev.cke.ctl.getLsbD 0 = true → ∃ t, exec .ckeAbort s = .next t ∧ t.dev.cke.ctl = (s.dev.cke.ctl &&& ~~~1) ||| 2 ∧ t.dev.cke.running = false ∧ Claims.keptCore s t)
      ∧ (s.dev.cke.ctl.getLsbD 0 = false → exec .ckeAbort s = .next s)
      ∧ (∀ b : BitVec 5, b.toNat < 22 → (b = 16 → (s.die d).fell.getLsbD 0 = false) → (b = 17 → (s.die d).fell.getLsbD 1 = false) →
        (b = 18 → s.feature 0 = true) → (b = 19 → s.feature 2 = true) → (b = 20 → s.feature 1 = true) → (b = 18 ∨ b = 19 ∨ b = 20 → s.dev.run = true) →
        ∃ t, exec (.functionReady d b) s = .next t ∧ (t.die d).ready = (s.die d).ready ||| (1#22 <<< b.toNat) ∧ Claims.keptCore s t
          ∧ ∀ j, j ≠ 0 → t.dev.err.getLsbD j = s.dev.err.getLsbD j)
      ∧ (∀ link : Bool, s.isReady d (if link then 17 else 16) = true → ∃ t, exec (.linkDown d link) s = .next t ∧ t.isReady d (if link then 17 else 16) = false
        ∧ t.dev.err.getLsbD 3 = true ∧ (∀ j, j ≠ 0 → j ≠ 3 → t.dev.err.getLsbD j = s.dev.err.getLsbD j) ∧ t.core.regs = s.core.regs)

/-- A reset leaves the device as State.reset has it, but for device memory and its lines, for the firmware (the fields fwMain and fwComp), and for the context save areas' contents that the model keeps beside memory (the field saved, log 20): every byte outside L2 staging keeps its value (R33, R35). That this clears every other field, the frames of migrated pages
(the field moved) among them, is the model's reading of R35 (log 42). Loading firmware resets the device likewise; an image that fails its check, by its CRC-32C trailer (R35, in the form of log 6) or otherwise, leaves the firmware as it was and sets FWBAD (R34, R35). -/
def Obligations.DeviceReset : Prop :=
  ∀ s : State,
    (∃ t, exec .reset s = .next t ∧ t.me = State.reset.me ∧ t.core = State.reset.core ∧ t.others = [] ∧ t.dies = State.reset.dies ∧ t.lines = s.lines
        ∧ t.dev = { State.reset.dev with fwMain := s.dev.fwMain, fwComp := s.dev.fwComp, saved := s.dev.saved }
        ∧ ∀ a, Sparse.find? t.mem a = if isStaging a then none else Sparse.find? s.mem a)
      ∧ (∃ t, exec .fwload s = .next t ∧ t.core = State.reset.core ∧ t.dies = State.reset.dies ∧ t.lines = s.lines ∧ t.dev.run = false
        ∧ (t.dev.err = 0 ∨ (t.dev.err = 4 ∧ t.dev.fwMain = s.dev.fwMain ∧ t.dev.fwComp = s.dev.fwComp))
        ∧ (s.dev.fwAddr.toNat % 4096 ≠ 0 ∨ 2 ^ 26 < s.dev.fwLen.toNat → t.dev.err = 4)
        ∧ (let img := s.fwImage;
          img.length < 4 ∨ (crc32c (img.take (img.length - 4))).toNat ≠ leNat (img.drop (img.length - 4)) → t.dev.err = 4))

/-- The instructions that do change it: writes of those registers, the end of a key command, and the resets. -/
def Sys2Proof.Claims.changesHost : Instr → Bool
  | .featureAcceptWrite _ _ | .ptrootWrite _ | .fabricRankWrite _ _ | .hifRegisterWrite _ _ _ | .keyCommandDone | .run | .reset | .fwload => true
  | _ => false

/-- No instruction of a task, in any mode, and no event but those changes the accepted features, the page-table root, the fabric registers, the apertures, the key slots, RUN or the firmware (R33, R35, R37, R205, R212, R219, R222). -/
def Obligations.HostRegistersKept : Prop :=
  ∀ (i : Instr) (s t : State), Claims.changesHost i = false → exec i s = .next t → Claims.keepsHost s t

/-- The events whose whole effect the other statements do not give. -/
def Sys2Proof.Claims.unitEvent : Instr → Bool
  | .suffixOpPerform _ _ | .pageWalk _ | .imemReload _ | .engineDispatch _ _ | .engineRetire _ _ | .gatherPartReply _ _ _ | .chunkReceive _ _ _ _ _ _ _ | .schedulerPlace _ _
  | .dieFreeRequest _ _ | .taskRetire _ | .taskSuspend _ | .yieldRequeue _ | .datapathError _ | .pageMigration _ _ | .faultRingRoom _ | .poisonedAcknowledgementPath _
  | .compStart _ _ | .hifTdecQueueHead | .phaseSliceExpiry _ => true
  | _ => false

/-- Each event of the units that `unitEvent` lists completes in every state, leaves the host's registers as they were, and keeps memory in canonical form; of a core without a task, a die without waiting walks, postings or operations, and a queue without an entry, nothing moves (R41, R65, R216, R226, R227, R353, R365, R397). -/
def Obligations.UnitEvents : Prop :=
  (∀ (i : Instr) (s : State), Claims.unitEvent i = true → ∃ t, exec i s = .next t ∧ Claims.keepsHost s t ∧ (Memory.wf s.mem = true → Memory.wf t.mem = true))
    ∧ (∀ (s : State) (d : BitVec 2) (k : Nat) (e : Eng), s.core.task = none → s.core.cmds = [] → (s.die d).posts = [] → (s.die d).sfxOps = [] → s.dev.tdecQ = [] → s.walkNext d = none → s.core.life ≠ .checkpoint →
      ∀ i ∈ [Instr.taskRetire s.me, .imemReload s.me, .datapathError s.me, .taskSuspend s.me, .yieldRequeue s.me, .engineDispatch s.me e, .engineRetire s.me k, .faultRingRoom d,
        .suffixOpPerform d k, .hifTdecQueueHead, .pageWalk d], exec i s = .next s)

/-- The engines. An engine's next command dispatches: one that conflicts with an earlier matrix command waits, and MZERO zeroes the words of the tile that its descriptor names and no other (R226, R251, R262), all in the move of its dispatch, as the model chooses for every command (log 7). A command that has made its accesses and whose retire action is none, or an add to its own core's
semaphore, retires: it leaves the queue, its semaphore goes up by one, and nothing else of the registers, the scratchpad or memory changes (R227, R228); a gather or a scatter retires once its last element is done, with its status word (R242). A part that returns is noted, and the elements that wait for it go on (R244). A
chunk of another device that a group's episode expects is kept, as zeros if it is malformed or fails its check, and one that comes before the group's command here is held (R393, R394, log 34). -/
def Obligations.EngineEvents : Prop :=
  (∀ (s : State) (e : Eng) (c : Cmd), s.core.task.isSome = true →
      (s.core.cmds = [c] → c.eng = e → c.st = .queued → c.preds = [] → s.nextCmd e = some c ∧ s.conflicts c = false)
        ∧ (s.nextCmd e = some c → s.conflicts c = true → exec (.engineDispatch s.me e) s = .next { s with core := { s.core with
            cmds := s.core.cmds.map fun x => if x.seqNo = c.seqNo then { c with st := .waiting } else x } })
        ∧ (s.nextCmd e = some c → s.conflicts c = false → c.op = .mzero →
          let b := sideB c.desc
          let word (i j : Nat) : Nat := b.tile * 16384 + (b.row0 + i) * 128 + b.col0 + j
          ∃ t, exec (.engineDispatch s.me e) s = .next t ∧ t.core.cmds = (s.core.cmds.map fun x => if x.seqNo = c.seqNo then { c with st := .running } else x)
            ∧ (∀ i j, i < descRows c.desc → j < descCols c.desc → Sparse.get 0 t.core.tiles (word i j) = 0)
            ∧ (∀ k, (∀ i j, i < descRows c.desc → j < descCols c.desc → k ≠ word i j) → Sparse.get 0 t.core.tiles k = Sparse.get 0 s.core.tiles k)
            ∧ t.core.scratch = s.core.scratch ∧ t.mem = s.mem ∧ t.core.regs.s = s.core.regs.s ∧ t.core.regs.v = s.core.regs.v))
    ∧ (∀ (s : State) (k : Nat) (x : Cmd), s.core.cmds[k]? = some x →
      (x.st ≠ .running → exec (.engineRetire s.me k) s = .next s)
        ∧ (x.st = .running → x.op ≠ .ccol → x.op ≠ .cgth → x.op ≠ .csct → x.ret = .none ∨ (x.ret = .sem ∧ s.core.issue.due = false) → x.slot = none → x.ohrange = false → x.tflags = 0 →
          let n : BitVec 6 := BitVec.ofNat 6 (descRtgt x.desc / 2 ^ 10)
          ∃ t, exec (.engineRetire s.me k) s = .next t ∧ t.core.cmds = s.core.cmds.filter (fun o => o.seqNo != x.seqNo)
            ∧ (x.ret = .none → t.core.regs = s.core.regs)
            ∧ (x.ret = .sem → t.core.regs = { s.core.regs with sem := s.core.regs.sem.set n.toNat (s.core.regs.sem[n.toNat]'n.isLt + 1) n.isLt, stores := t.core.regs.stores }
              ∧ (t.core.regs.stores.map fun u => { u with rel := [] }) = s.core.regs.stores.map fun u => { u with rel := [] })
            ∧ t.core.scratch = s.core.scratch ∧ t.core.tiles = s.core.tiles ∧ t.mem = s.mem ∧ t.dies = s.dies ∧ t.dev = s.dev ∧ t.others = s.others)
        ∧ (x.st = .running → x.op = .cgth ∨ x.op = .csct → x.done ≠ descRows x.desc * descCols x.desc → exec (.engineRetire s.me k) s = .next s
          ∧ ∀ owner : BitVec 2, exec (.gatherPartReply s.me k owner) s = .next (s.runGather { x with parts := x.parts ||| (1#4 <<< owner.toNat) })
            ∧ (descEmpty x.desc = true → s.findSlot { x with parts := x.parts ||| (1#4 <<< owner.toNat) } (sideB x.desc).fmt = .plain → exec (.gatherPartReply s.me k owner) s = .next { s with core := { s.core with cmds := s.core.cmds.map fun o =>
                if o.seqNo = x.seqNo then { x with parts := x.parts ||| (1#4 <<< owner.toNat) } else o } }))
        ∧ (x.st = .running → x.op = .cgth ∨ x.op = .csct → x.done = descRows x.desc * descCols x.desc → descEmpty x.desc = false → x.ret = .none →
          let off := descWord x.desc2 6 % 2 ^ 21
          off + 4 ≤ s.core.window false → off % 64 ≤ 60 → ∃ t, exec (.engineRetire s.me k) s = .next t ∧ t.core.cmds = s.core.cmds.filter (fun o => o.seqNo != x.seqNo)
            ∧ ∀ a, Sparse.get 0 t.core.scratch a = if off ≤ a ∧ a < off + 4 then (leBytes 4 x.gath.toNat).getD (a - off) 0 else Sparse.get 0 s.core.scratch a))
    ∧ (∀ (s : State) (d : BitVec 2) (g : BitVec 6) (stage good : Bool) (src : BitVec 8) (k : Nat) (data : List (BitVec 32)) (e : Episode), (s.die d).fuller = [e] →
      e.group = g → e.expects stage src.toNat k = true → s.ownEntry (e.table.getD src.toNat 0) = false →
      let ok := good && decide (data.length = e.chunkLen k)
      ∃ t, exec (.chunkReceive d g stage src k good data) s = .next t
        ∧ (t.die d).fuller = [{ e with chunks := e.chunks ++ [⟨stage, src.toNat, k, ok, if ok then data else List.replicate (e.chunkLen k) 0⟩] }]
        ∧ t.core = s.core ∧ t.mem = s.mem ∧ t.dev = s.dev ∧ (∀ o, o ≠ d → t.die o = s.die o))
    ∧ (∀ (s : State) (d : BitVec 2) (g : BitVec 6) (stage good : Bool) (src : BitVec 8) (k : Nat) (data : List (BitVec 32)) (m : BitVec 16), (s.die d).fuller = [] →
      (s.memberTable g)[src.toNat]? = some m → s.ownEntry m = false → (s.dev.fgrp[g.toNat]'g.isLt).getLsbD 0 = true →
      exec (.chunkReceive d g stage src k good data) s = .next (s.onDie d fun x => { x with early := x.early ++ [(g, ⟨stage, src.toNat, k, good, data⟩)] }))

/-- The conditions under which nothing of a task is outstanding at its core (R364, R371, R397). -/
def Sys2Proof.Claims.settled (s : State) : Prop :=
  s.core.cmds = [] ∧ s.core.memq = [] ∧ s.core.adds = [] ∧ (∀ o ∈ (s.die s.me.die).sfxOps, o.core ≠ s.me.idx) ∧ (∀ x ∈ s.dev.decs, x.core ≠ some s.me)
    ∧ s.core.regs.asked = 0 ∧ s.core.regs.claims = []

/-- The scheduler. Of the records in a die's queues the first that a free core may run is selected, from the first queue of R51's order that has one; the core starts it, in the entry state of R25 where it starts afresh. A core that its own die leaves idle runs a record that another die gives it (R53). A phase's slice
that has run out goes to the other phase if that has work (R50). -/
def Obligations.SchedulerEvents : Prop :=
  (∀ (s : State) (c : CoreRef) (q : Nat) (pre post : List Nat) (e : QEntry) (l r : List QEntry), queueOrder (s.die c.die).gen = pre ++ q :: post →
      (∀ p ∈ pre, (s.die c.die).queue p = []) → (s.die c.die).queue q = l ++ e :: r → (∀ x ∈ l ++ [e], x.gang = [] ∧ x.task.stages = 0) →
      (∀ x ∈ l, s.placeable x.task c = false) → s.placeable e.task c = true →
      s.select c (fun _ => true) true = ((s.dequeue c.die q e).ageQueues c.die q, some (.one e q)))
    ∧ (∀ (s : State) (d : BitVec 2) (n : BitVec 8), s.settleDie d = s →
      (s.coreFree ⟨d, n⟩ = false → exec (.schedulerPlace d n) s = .next s ∧ exec (.dieFreeRequest d n) s = .next s)
        ∧ (∀ (u : State) (e : QEntry) (q : Nat), s.coreFree ⟨d, n⟩ = true → (s.getCore ⟨d, n⟩).preload = none → s.resumedFor ⟨d, n⟩ = none →
          s.select ⟨d, n⟩ (fun _ => true) true = (u, some (.one e q)) →
          exec (.schedulerPlace d n) s = .next (Claims.orWaits s (u.placeTask e.task ⟨d, n⟩ none))
            ∧ exec (.dieFreeRequest d n) s = .next (Claims.orWaits s (u.placeTask e.task ⟨d, n⟩ none))
            ∧ (e.task.bothBanks = true → u.placeTask e.task ⟨d, n⟩ none = (u.bindGroups e.task ⟨d, n⟩).within ⟨d, n⟩ fun s => s.startTask e.task none))
        ∧ (∀ (u v : State) (t : Task), s.coreFree ⟨d, n⟩ = true → s.placeOn ⟨d, n⟩ = (u, false) → u.reserved ⟨d, n⟩ = none →
          State.askDies (u.die d).gen [d + 1, d + 2, d + 3] u = (v, some t) → exec (.dieFreeRequest d n) s = .next (Claims.orWaits s (v.placeTask t ⟨d, n⟩ none))))
    ∧ (∀ (s : State) (t : Task) (bank : Sparse Byte) (x : Text), let u := s.enter t bank x
      u.core.task = some t ∧ u.core.scratch = bank ∧ u.core.text = x.words ∧ u.core.regs.pc = x.base + BitVec.ofNat 64 x.entry
        ∧ u.core.regs.sVal 1 = BitVec.ofNat 64 t.args ∧ u.core.regs.sVal 2 = t.addr.setWidth 64 ∧ u.core.regs.sVal 3 = (if s.me.isComp then 0 else BitVec.ofNat 64 t.index)
        ∧ (∀ n : BitVec 5, 4 ≤ n.toNat → u.core.regs.sVal n = 0) ∧ (∀ n : BitVec 5, u.core.regs.sIsFull n = true) ∧ u.core.regs.a = Vector.replicate 32 0 ∧ u.core.regs.v = Vector.replicate 64 0
        ∧ u.core.regs.loops = [] ∧ u.core.regs.flight = [] ∧ u.core.regs.seed = BitVec.ofNat 64 t.seedVal ∧ u.core.cmds = [] ∧ u.core.memq = [] ∧ u.mem = s.mem ∧ u.dies = s.dies ∧ u.dev = s.dev)
    ∧ (∀ (s : State) (d : BitVec 2), ∃ t, exec (.phaseSliceExpiry d) s = .next t ∧ t.mem = s.mem ∧ t.core = s.core
      ∧ (t.die d).gen = (if s.phaseWork d (!(s.die d).gen) then !(s.die d).gen else (s.die d).gen)
      ∧ (t.die d).slice = (if (t.die d).gen then (s.die d).qntGen else (s.die d).qntPrompt).toNat * 1024)

/-- What ends or interrupts a task. A main core's task that has ended with nothing outstanding retires: its completion is stored and its core is free; one with no completion address and no successors changes no memory (R43, R397). A suspended task leaves once nothing is outstanding: it is saved, its record is armed
and the entry posted; where no ring takes the entry, or the save fails, it is killed (R364, R365, R367). A task that yields is saved and goes to the tail of its queue, or is killed if the save fails; a report that is due takes it back to run (R371). A datapath error that meets a checkpoint in progress waits for it; else it kills an unprotected task with cause 0x20, and takes a protected one back to its last checkpoint, the journal
undone, for its first pass (R374). That it waits for a checkpoint, and that it kills a task that has no snapshot, are the model's readings (log 23); TRAP_VAL is then a free value (log 18). While the channel group of the fault ring is not ready a suspension waits (R39). -/
def Obligations.TaskEvents : Prop :=
  ∀ (s : State) (t : Task), s.core.task = some t → s.me.isComp = false →
    (s.core.life = .ended → s.core.reports = [] → s.core.regs.flight = [] → Claims.settled s → s.core.lostWrites = [] → s.core.lostTokens = [] → s.core.lostAdds = [] →
        exec (.taskRetire s.me) s = .next (Claims.orWaits s
            (let e : State := { s with core := { s.core with regs := { s.core.regs with loops := [], pend := none, shadow := 0, vrb := 0, prb := 0 } } };
              (((e.complete t).dieEvent s.me.die 0x03 1).noteEnded t).freeCore))
          ∧ (t.complAddr = 0 → t.succCount = 0 → ∃ u, exec (.taskRetire s.me) s = .next u ∧ u.core.task = none ∧ u.core.regs = Regs.zero ∧ u.mem = s.mem ∧ u.lines = s.lines))
      ∧ (let cause : BitVec 8 := s.core.regs.trapCause.setWidth 8;
        let ready : Prop := (s.die s.me.die).faultRing.getLsbD 0 = true → s.channelReady (s.ringBase s.me.die) = true;
        (¬ ready → exec (.taskSuspend s.me) s = .next s) ∧ (ready →
        (s.core.life = .supervisor → s.canPost s.me.die = false → exec (.taskSuspend s.me) s = .next (Claims.orWaits s (s.kill cause s.core.regs.trapPc s.core.regs.trapVal)))
          ∧ (s.core.life = .supervisor → s.canPost s.me.die = true → s.core.memq ≠ [] →
            exec (.taskSuspend s.me) s = .next { s with core := { s.core with life := .suspending } })
          ∧ (s.core.life = .suspending → s.core.memq ≠ [] → exec (.taskSuspend s.me) s = .next s)
          ∧ (s.core.life = .suspending → Claims.settled s → exec (.taskSuspend s.me) s = .next (Claims.orWaits s (match s.saveFull t s.core.taskRegs cause.toNat s.core.regs.trapVal with
            | (u, none) => if u.canPost u.me.die then ((u.armRecord t).post u.me.die ⟨t, cause, s.core.regs.trapVal, s.core.taskRegs.pc⟩).freeCore
                else u.kill cause s.core.taskRegs.pc s.core.regs.trapVal
            | (u, some e) => u.kill e.cause s.core.taskRegs.pc e.val)))))
      ∧ (s.core.life = .yielding → s.core.reports ≠ [] → exec (.yieldRequeue s.me) s = .next { s with core := { s.core with
            life := .running, quantum := (s.die s.me.die).quantumOf t.gen * 1024 } })
      ∧ (s.core.life = .yielding → s.core.reports = [] → Claims.settled s → exec (.yieldRequeue s.me) s = .next (Claims.orWaits s (match s.saveYield t s.core.yielded with
          | (u, none) => ((u.enqueue u.me.die t.queue { task := t }).dieEvent u.me.die 0x04 1).freeCore
          | (u, some e) => u.kill e.cause u.core.regs.pc e.val)))
      ∧ (s.core.life = .checkpoint → exec (.datapathError s.me) s = .next { s with core := { s.core with errDue := true } })
      ∧ (s.core.snapshot = none → s.core.life ≠ .checkpoint → exec (.datapathError s.me) s = .next
          (Claims.orWaits s (State.kill { s with fresh := s.fresh + 1 } 0x20 s.core.taskRegs.pc (Config.openWord s.fresh))))
      ∧ (∀ g : Regs, s.core.snapshot = some g → s.sup = false → s.core.life ≠ .suspending → s.core.life ≠ .checkpoint → s.core.captured = none → s.core.regs.status.getLsbD 2 = false →
        s.core.rerun = none → g.flight = [] → g.ended = false →
          ∃ u, exec (.datapathError s.me) s = .next u ∧ u.core.regs = g ∧ u.core.life = .running ∧ u.core.reports = [] ∧ u.core.journal = [] ∧ u.core.snapshot = some g
            ∧ u.core.rerun = some { pass := 1, no := 1, sig1 := 0, cnt1 := 0 } ∧ u.core.cmds = s.core.cmds.filter Cmd.snap
            ∧ (s.core.journal = [] → u.core.scratch = s.core.scratch ∧ u.core.tiles = s.core.tiles ∧ u.core.rb = s.core.rb) ∧ u.mem = s.mem ∧ u.dev = s.dev)

/-- What the units of a die and of the device do. An append to a configured context of the suffix memory appends its tokens, whole; one to a context that is not configured is reported with cause 0x0D and code 0x10 (R342, R345, R347, R353). A walk serves the page that waits, and every request of the die for that page that it answers is
done; its translation is cached (R215, R216); one whose entries lie in a channel group that is not ready stays (R39). A reload takes 4 KiB of text around the program counter (R65). A posted entry that waits is appended, the entry first and then the tail, once the ring has room; with a ring that cannot be used its task is killed (R365). An acknowledgement that is lost leaves its access outstanding (R379), a plain store performed, which is the model's reading (log 40). A write of a companion core's start register starts the record that it names, once the core is free and
its unit ready, and waits for a channel group (R39, R326); one whose record cannot be read sets RECBAD and counts a kill, which is the model's reading (log 53). The head of the counter-write queue becomes a decrement of the record that it names, or is dropped with TDDROP (R40, R41). A page that
migrates takes its bytes and its entry with it, and no translation cache and no first-level cache keeps the old frame (R380); that it does so in one move is the model's reading (log 39). -/
def Obligations.DieEvents : Prop :=
  (∀ (s : State) (k : Nat) (o : SfxOp) (toks : List Word32), let d := s.me.die
      let c := (s.die d).ctx o.ctx
      (s.die d).sfxOps[k]? = some o → o.core = s.me.idx → (∀ p ∈ (s.die d).sfxOps.take k, p.core ≠ o.core) → o.parked = false → o.kind = .app toks → o.ctx.toNat ∉ (s.die d).sfxFlaws → c.fail = false →
      (c.conf = true → c.job = o.job → c.len + toks.length < 2 ^ 24 → ∃ t, exec (.suffixOpPerform d k) s = .next t
          ∧ (t.die d).ctx o.ctx = toks.foldl (fun c x => c.append (x.setWidth 24)) c ∧ (∀ n, n ≠ o.ctx → (t.die d).ctx n = (s.die d).ctx n)
          ∧ (t.die d).sfxOps = dropAt (s.die d).sfxOps k ∧ t.core = s.core ∧ t.mem = s.mem ∧ t.dev = s.dev)
        ∧ (c.conf = false → o.sup = false → ∃ t, exec (.suffixOpPerform d k) s = .next t ∧ (t.die d).sfxOps = dropAt (s.die d).sfxOps k ∧ (t.die d).sfx = (s.die d).sfx ∧ t.mem = s.mem
          ∧ t.core.reports = s.core.reports ++ [⟨0x0D, BitVec.ofNat 64 (0x1B * 2 ^ 24 + o.ctx.toNat * 2 ^ 12 + 0x10)⟩]))
    ∧ (∀ (s : State) (r : WalkReq) (l : List WalkReq), s.walkNext s.me.die = some s.me → s.core.walks = r :: l →
      (s.walk r.va.toNat = .error .wait → exec (.pageWalk s.me.die) s = .next s) ∧ (s.walk r.va.toNat ≠ .error .wait →
      ∃ t, exec (.pageWalk s.me.die) s = .next t ∧ t.core.regs = s.core.regs
        ∧ (∀ c : CoreRef, c.die = s.me.die → ∀ w ∈ (t.getCore c).walks, ¬ (w.va.toNat / 2 ^ 16 = r.va.toNat / 2 ^ 16 ∧ (w.write = false ∨ r.write = true)))
        ∧ (∀ e p, s.walk r.va.toNat = .ok (e, p) → s.rights s.who r.write e = none →
          ∃ dirty : Bool, ((e.dirty || r.write) = true → dirty = true) ∧ { e with dirty := dirty } ∈ t.core.tlb)))
    ∧ (∀ (s u : State) (t : Task) (bs : List Byte), s.core.task = some t →
      let off := (s.core.regs.pc - s.core.base).toNat / 4096 * 4096
      (s.sup = true → exec (.imemReload s.me) s = .next s)
        ∧ (s.sup = false → (s.count 0x0C 1).recBytes t.job (s.core.base.toNat + off) (Nat.min 4096 (s.core.textLen - off)) = (u, .ok bs) →
          (s.count 0x0C 1).core.base = s.core.base → exec (.imemReload s.me) s = .next
            (Claims.orWaits s { u with core := { u.core with text := Sparse.setRange 0 u.core.text (off / 4) (wordsOf bs) } })))
    ∧ (∀ (s : State) (d : BitVec 2) (e : Post) (l : List Post), (s.die d).posts = e :: l →
      let b := s.ringBase d
      let tail := (s.ringFill d).1
      let entry := b + 16 + 16 * (tail % 255)
      let ready : Prop := (s.die d).faultRing.getLsbD 0 = true → s.channelReady b = true;
      (¬ ready → exec (.faultRingRoom d) s = .next s) ∧ (ready →
      (s.canPost d = false → exec (.faultRingRoom d) s = .next (Claims.orWaits s ((s.onDie d fun x => { x with posts := l }).killAway d e)))
        ∧ (s.canPost d = true → (s.ringFill d).2 = 255 → exec (.faultRingRoom d) s = .next s)
        ∧ (s.canPost d = true → (s.ringFill d).2 ≠ 255 → (∃ o, region b = .device o) → b + 4096 ≤ 4 * dieBytes → (∀ k, b / 128 ≤ k → k < b / 128 + 32 → (s.lineMeta k).poison = false ∧ k ∉ s.flaws) →
          ∃ t, exec (.faultRingRoom d) s = .next t ∧ (t.die d).posts = l ∧ t.core = s.core ∧ t.dev = s.dev
            ∧ ∀ a, Sparse.get 0 t.mem a = if entry ≤ a ∧ a < entry + 16 then (leBytes 8 (e.val.toNat % 2 ^ 48 + e.cause.toNat * 2 ^ 48) ++ leBytes 8 e.task.addr.toNat).getD (a - entry) 0
                else if b ≤ a ∧ a < b + 4 then (leBytes 4 (tail + 1)).getD (a - b) 0 else Sparse.get 0 s.mem a)))
    ∧ (∀ (s : State) (e : MemEntry) (l : List MemEntry), s.core.memq = e :: l → s.mayPerform 0 = some e →
      (∀ d p ac sz x, e.op = .load d p ac sz x → exec (.poisonedAcknowledgementPath s.me) s = .next { s with core := { s.core with memq := { e with lost := true } :: l } })
        ∧ (∀ p ac sz v, e.op = .store p ac sz v → exec (.poisonedAcknowledgementPath s.me) s = .next
          (let t := s.performOp e; { t with core := { t.core with memq := setAt t.core.memq 0 { e with lost := true } } })))
    ∧ (∀ (s : State) (n : BitVec 6) (v : Word), let c : CoreRef := ⟨BitVec.ofNat 2 (n.toNat / 12), BitVec.ofNat 8 (144 + n.toNat % 12)⟩
      let a : BitVec 48 := BitVec.ofNat 48 (v.toNat / 128 % 2 ^ 41 * 128)
      (48 ≤ n.toNat ∨ (s.getCore c).task.isSome = true ∨ s.dev.run = false ∨ s.feature 1 = false ∨ s.isReady c.die 20 = false ∨ (∃ x ∈ s.dev.compHeld, x.1 = n ∧ x.2 ≠ v) →
          exec (.compStart n v) s = .next s)
        ∧ (n.toNat < 48 → (s.getCore c).task = none → s.dev.run = true → s.feature 1 = true → s.isReady c.die 20 = true → (∀ x ∈ s.dev.compHeld, x.1 ≠ n) →
          exec (.compStart n v) s = .next (let t := s.startCompanion c a
              if t.held && !s.held then { s with dev := { s.dev with compHeld := s.dev.compHeld ++ [(n, v)] } } else t)
            ∧ ∀ u f, s.translate ⟨none, true⟩ false (a.setWidth 64) = (u, .error f) → f ≠ .wait → u.held = s.held → exec (.compStart n v) s = .next ((u.setErr 7).noteKill c.die a)))
    ∧ (∀ (s u : State) (v : Word) (q : List Word), s.dev.tdecQ = v :: q → u.dev.hostHeld = [] →
      u.held = s.held →
      (∀ f, s.translate ⟨none, true⟩ true v = (u, .error f) → (f ≠ .wait → exec .hifTdecQueueHead s = .next { u with dev := { u.dev with tdecQ := q, err := u.dev.err ||| 1 } })
          ∧ (f = .wait → s.held = false → exec .hifTdecQueueHead s = .next s))
        ∧ (∀ (l : Leaf) (o : Nat), s.translate ⟨none, true⟩ true v = (u, .ok l) → region l.pa = .device o → u.rootJob v.toNat ≠ 0 → (u.lineMeta (l.pa / 128)).poison = false → u.channelReady l.pa = true →
          exec .hifTdecQueueHead s = .next (Claims.orWaits s (State.decrementAt { u with dev := { u.dev with tdecQ := q, decs := u.dev.decs ++
            [{ record := v.setWidth 48, pa := BitVec.ofNat 52 l.pa, key := BitVec.ofNat 6 l.key, job := u.rootJob v.toNat, host := true, core := none }] } } u.dev.decs.length))))
    ∧ (∀ (s : State) (va : BitVec 48) (frame : BitVec 36),
      (∀ f, s.walk va.toNat = .error f → exec (.pageMigration va frame) s = .next s)
        ∧ (∀ e p, s.walk va.toNat = .ok (e, p) → e.count = 1 → e.vpn < 2 ^ 32 → bits e.leaf 14 6 = 0 → p % 8 = 0 →
          let old := s.reaim (e.frame * 2 ^ 16) / 2 ^ 16
          old ≠ frame.toNat → p / 2 ^ 16 ≠ frame.toNat → p / 2 ^ 16 ≠ old → s.channelReady (old * 2 ^ 16) = true → s.channelReady (frame.toNat * 2 ^ 16) = true →
          (∀ k, frame.toNat * 512 ≤ k → k < frame.toNat * 512 + 512 → (s.lineMeta k).poison = false ∧ k ∉ s.flaws) →
          (∃ o, region p = .device o) → (s.lineMeta (p / 128)).poison = false → p / 128 ∉ s.flaws →
          (∃ o, region (old * 2 ^ 16) = .device o) → (∃ o, region (old * 2 ^ 16 + 65535) = .device o) → (∃ o, region (frame.toNat * 2 ^ 16) = .device o) → (∃ o, region (frame.toNat * 2 ^ 16 + 65535) = .device o) →
          ∃ t, exec (.pageMigration va frame) s = .next t
            ∧ (∀ i < 65536, Sparse.get 0 t.mem (frame.toNat * 2 ^ 16 + i) = Sparse.get 0 s.mem (old * 2 ^ 16 + i))
            ∧ (∀ x ∈ t.core.l1, x.1 / 512 ≠ old ∧ x.1 / 512 ≠ frame.toNat)
            ∧ pteFrame (t.pte p) = frame.toNat ∧ (∀ x ∈ t.core.tlb, x.vpn + x.count ≤ e.vpn ∨ e.vpn < x.vpn) ∧ t.core.regs.s = s.core.regs.s ∧ t.core.scratch = s.core.scratch))
end

