-- ==== Sys2Proof/Laws/Sparse.lean ====
section
/-! SUPPORT. Sparse maps: reading after writing, and the canonical form kept by every operation. -/

namespace Sys2Proof.Machine

open Sys2Proof

variable {β : Type}

/-! ### Reading after writing -/

theorem Sparse.find?_put (m : Sparse β) (a b : Nat) (v : β) :
    Sparse.find? (Sparse.put m a v) b = if b = a then some v else Sparse.find? m b := by
  induction m with
  | nil => simp [Sparse.put, Sparse.find?]
  | cons e t ih =>
    obtain ⟨k, w⟩ := e
    unfold Sparse.put
    split
    · rfl
    · split
      · next h1 h2 => subst h2; by_cases hb : b = a <;> simp [Sparse.find?, hb]
      · next h1 h2 =>
        by_cases hb : b = k
        · have : b ≠ a := by omega
          simp [Sparse.find?, hb]; omega
        · simp [Sparse.find?, hb, ih]

theorem Sparse.find?_del (m : Sparse β) (a b : Nat) :
    Sparse.find? (Sparse.del m a) b = if b = a then none else Sparse.find? m b := by
  induction m with
  | nil => simp [Sparse.del, Sparse.find?]
  | cons e t ih =>
    obtain ⟨k, w⟩ := e
    by_cases hk : a = k
    · subst hk
      by_cases hb : b = a
      · subst hb; simp [Sparse.del, ih]
      · simp [Sparse.del, Sparse.find?, ih, hb]
    · by_cases hb : b = k
      · have : b ≠ a := by omega
        simp [Sparse.del, Sparse.find?, hk, hb]; omega
      · simp [Sparse.del, Sparse.find?, hk, hb, ih]

/-- A written key reads as written, and every other key as before. -/
theorem Sparse.get_set [DecidableEq β] (dflt : β) (m : Sparse β) (a b : Nat) (v : β) :
    Sparse.get dflt (Sparse.set dflt m a v) b = if b = a then v else Sparse.get dflt m b := by
  unfold Sparse.get Sparse.set
  split
  · next h => rw [Sparse.find?_del]; split <;> simp_all
  · rw [Sparse.find?_put]; split <;> rfl

/-- A range written reads as written, and every key outside it as before. -/
theorem Sparse.get_setRange [DecidableEq β] (dflt : β) (l : List β) (m : Sparse β) (a b : Nat) :
    Sparse.get dflt (Sparse.setRange dflt m a l) b =
      if a ≤ b ∧ b < a + l.length then l.getD (b - a) dflt else Sparse.get dflt m b := by
  induction l generalizing m a with
  | nil => simp [Sparse.setRange]
  | cons v t ih =>
    rw [Sparse.setRange, ih, Sparse.get_set]
    by_cases h : b = a
    · simp [h]
    · by_cases h1 : a + 1 ≤ b ∧ b < a + 1 + t.length
      · have e : b - a = (b - (a + 1)) + 1 := by omega
        have h2 : a ≤ b ∧ b < a + (v :: t).length := by simp; omega
        rw [if_pos h1, if_pos h2, e]; simp
      · have h2 : ¬ (a ≤ b ∧ b < a + (v :: t).length) := by simp; omega
        rw [if_neg h1, if_neg h2, if_neg h]

theorem Sparse.range_length (dflt : β) (m : Sparse β) (a n : Nat) : (Sparse.range dflt m a n).length = n := by
  induction n generalizing a with
  | zero => rfl
  | succ n ih => simp [Sparse.range, ih]

theorem Sparse.range_getD (dflt : β) (m : Sparse β) (a n i : Nat) (h : i < n) :
    (Sparse.range dflt m a n).getD i dflt = Sparse.get dflt m (a + i) := by
  induction n generalizing a i with
  | zero => omega
  | succ n ih =>
    cases i with
    | zero => simp [Sparse.range]
    | succ i =>
      have := ih (a + 1) i (by omega)
      simp only [Sparse.range, List.getD_cons_succ, this]
      congr 1; omega

/-- Reading a range that was written gives what was written. -/
theorem Sparse.range_eq_map (dflt : β) (m : Sparse β) (a n : Nat) : Sparse.range dflt m a n = (List.range n).map fun i => Sparse.get dflt m (a + i) := by
  induction n generalizing a with
  | zero => rfl
  | succ n ih => rw [Sparse.range, ih, List.range_succ_eq_map]; simp [Function.comp_def, Nat.add_assoc, Nat.add_comm 1]

theorem Sparse.range_setRange [DecidableEq β] (dflt : β) (m : Sparse β) (a : Nat) (l : List β) :
    Sparse.range dflt (Sparse.setRange dflt m a l) a l.length = l := by
  apply List.ext_getElem
  · simp [Sparse.range_length]
  · intro i h1 h2
    have h := Sparse.range_getD dflt (Sparse.setRange dflt m a l) a l.length i h2
    rw [Sparse.get_setRange] at h
    rw [if_pos (by omega)] at h
    simpa [List.getD_eq_getElem, h1, h2] using h

/-! ### The canonical form -/

theorem Sparse.above_mono {lo hi : Nat} (h : lo ≤ hi) : ∀ m : Sparse β, Sparse.above hi m = true → Sparse.above lo m = true
  | [], _ => rfl
  | (k, _) :: t, e => by
    simp only [Sparse.above, Bool.and_eq_true, decide_eq_true_eq] at e ⊢
    exact ⟨by omega, e.2⟩

theorem Sparse.above_put {lo : Nat} (m : Sparse β) (a : Nat) (v : β) (h : Sparse.above lo m = true) (ha : lo < a) :
    Sparse.above lo (Sparse.put m a v) = true := by
  induction m generalizing lo with
  | nil => simp [Sparse.put, Sparse.above, ha]
  | cons e t ih =>
    obtain ⟨k, w⟩ := e
    simp only [Sparse.above, Bool.and_eq_true, decide_eq_true_eq] at h
    unfold Sparse.put
    split
    · next h1 => simp [Sparse.above, ha, h1, h.2]
    · split
      · next h1 h2 => subst h2; simp [Sparse.above, ha, h.2]
      · next h1 h2 =>
        have : k < a := by omega
        simp [Sparse.above, h.1, ih h.2 this]

theorem Sparse.sorted_put (m : Sparse β) (a : Nat) (v : β) (h : Sparse.sorted m = true) : Sparse.sorted (Sparse.put m a v) = true := by
  cases m with
  | nil => rfl
  | cons e t =>
    obtain ⟨k, w⟩ := e
    simp only [Sparse.sorted] at h
    unfold Sparse.put
    split
    · next h1 => simp [Sparse.sorted, Sparse.above, h1, h]
    · split
      · next h1 h2 => subst h2; simpa [Sparse.sorted] using h
      · next h1 h2 => simpa [Sparse.sorted] using Sparse.above_put t a v h (by omega)

theorem Sparse.above_sorted {lo : Nat} (m : Sparse β) (h : Sparse.above lo m = true) : Sparse.sorted m = true := by
  cases m with
  | nil => rfl
  | cons e t => obtain ⟨k, w⟩ := e; simp only [Sparse.above, Bool.and_eq_true] at h; exact h.2

theorem Sparse.above_filter {lo : Nat} (p : Nat × β → Bool) (m : Sparse β) (h : Sparse.above lo m = true) :
    Sparse.above lo (m.filter p) = true := by
  induction m generalizing lo with
  | nil => rfl
  | cons e t ih =>
    obtain ⟨k, w⟩ := e
    simp only [Sparse.above, Bool.and_eq_true, decide_eq_true_eq] at h
    by_cases hp : p (k, w)
    · simp [hp, Sparse.above, h.1, ih h.2]
    · simp only [List.filter_cons, hp]
      exact ih (Sparse.above_mono (by omega) t h.2)

theorem Sparse.sorted_filter (p : Nat × β → Bool) (m : Sparse β) (h : Sparse.sorted m = true) : Sparse.sorted (m.filter p) = true := by
  cases m with
  | nil => rfl
  | cons e t =>
    obtain ⟨k, w⟩ := e
    simp only [Sparse.sorted] at h
    by_cases hp : p (k, w)
    · simp [hp, Sparse.sorted, Sparse.above_filter p t h]
    · simp only [List.filter_cons, hp]
      exact Sparse.above_sorted _ (Sparse.above_filter p t h)

theorem Sparse.del_eq_filter (m : Sparse β) (a : Nat) : Sparse.del m a = m.filter fun e => decide (a ≠ e.1) := by
  induction m with
  | nil => rfl
  | cons e t ih =>
    obtain ⟨k, w⟩ := e
    by_cases h : a = k
    · subst h; simpa [Sparse.del] using ih
    · simp [Sparse.del, h, ih]

/-- A filter keeps the canonical form. -/
theorem Sparse.wf_filter [DecidableEq β] (dflt : β) (p : Nat × β → Bool) (m : Sparse β) (h : Sparse.wf dflt m = true) :
    Sparse.wf dflt (m.filter p) = true := by
  simp only [Sparse.wf, Bool.and_eq_true] at h ⊢
  refine ⟨Sparse.sorted_filter p m h.1, ?_⟩
  simp only [List.all_eq_true, List.mem_filter] at h ⊢
  exact fun e he => h.2 e he.1

theorem Sparse.mem_put (m : Sparse β) (a : Nat) (v : β) (e : Nat × β) (h : e ∈ Sparse.put m a v) : e = (a, v) ∨ e ∈ m := by
  induction m with
  | nil => simpa [Sparse.put] using h
  | cons x t ih =>
    obtain ⟨k, w⟩ := x
    unfold Sparse.put at h
    split at h
    · simpa using h
    · split at h
      · simp only [List.mem_cons] at h ⊢
        exact h.imp_right Or.inr
      · simp only [List.mem_cons] at h ⊢
        rcases h with h | h
        · exact .inr (.inl h)
        · exact (ih h).imp_right Or.inr

/-- A write keeps the canonical form. -/
theorem Sparse.wf_set [DecidableEq β] (dflt : β) (m : Sparse β) (a : Nat) (v : β) (h : Sparse.wf dflt m = true) :
    Sparse.wf dflt (Sparse.set dflt m a v) = true := by
  unfold Sparse.set
  split
  · rw [Sparse.del_eq_filter]; exact Sparse.wf_filter dflt _ m h
  · next hv =>
    simp only [Sparse.wf, Bool.and_eq_true, List.all_eq_true, decide_eq_true_eq] at h ⊢
    refine ⟨Sparse.sorted_put m a v h.1, fun e he => ?_⟩
    rcases Sparse.mem_put m a v e he with rfl | he
    · exact hv
    · exact h.2 e he

/-- A write of consecutive values keeps the canonical form. -/
theorem Sparse.wf_setRange [DecidableEq β] (dflt : β) (l : List β) (m : Sparse β) (a : Nat) (h : Sparse.wf dflt m = true) :
    Sparse.wf dflt (Sparse.setRange dflt m a l) = true := by
  induction l generalizing m a with
  | nil => exact h
  | cons v t ih => exact ih _ _ (Sparse.wf_set dflt m a v h)

/-- The empty map is in canonical form. -/
theorem Sparse.wf_nil [DecidableEq β] (dflt : β) : Sparse.wf dflt ([] : Sparse β) = true := rfl

/-! ### Bytes -/

theorem leBytes_length (n x : Nat) : (leBytes n x).length = n := by
  induction n generalizing x with
  | zero => rfl
  | succ n ih => simp [leBytes, ih]

/-- The bytes of a number spell its value modulo 256 to the number of bytes (R6). -/
theorem leNat_leBytes (n x : Nat) : leNat (leBytes n x) = x % 256 ^ n := by
  induction n generalizing x with
  | zero => simp [leBytes, leNat, Nat.mod_one]
  | succ n ih =>
    simp only [leBytes, leNat, ih, BitVec.toNat_ofNat]
    change x % 256 + _ = _
    rw [Nat.pow_succ, Nat.mul_comm (256 ^ n) 256, Nat.mod_mul]

end Sys2Proof.Machine
end

