-- ==== Sys2Proof/Laws/Alias.lean ====
section
/-! SUPPORT. What accesses that nothing orders may see of each other in the scratchpad (R305, R307): every byte is the one of R126, or that of a write that
races the access, or the one that such a write has replaced; without such a write it is the one of R126. -/

namespace Sys2Proof.Machine

open Sys2Proof

/-- A byte that an access may find at an offset on account of a write: the write's own, or the one that the write has replaced. -/
def LocalStore.offers (t : LocalStore) (o : Nat) (x : Byte) : Prop :=
  t.at o = some x ∨ ((t.at o).isSome = true ∧ ∃ old, t.old = some old ∧ old[o - t.acc.off]? = some x)

theorem LocalStore.over_length (t : LocalStore) (w : Nat) (cur : List Byte) (h : cur.length = 4) : (t.over w cur).length = 4 := by simp [LocalStore.over, h]

theorem LocalStore.under_length (t : LocalStore) (old : List Byte) (w : Nat) (cur : List Byte) (h : cur.length = 4) : (t.under old w cur).length = 4 := by
  simp [LocalStore.under, h]

theorem zip_range_get {α : Type} {l : List α} {n i : Nat} {x : α} (h : l[i]? = some x) (hi : i < n) : (l.zip (List.range n))[i]? = some (x, i) := by
  rw [List.getElem?_zip_eq_some]; exact ⟨h, by simp [hi]⟩

/-- A word with the bytes of a write. -/
theorem LocalStore.over_get {t : LocalStore} {w i : Nat} {cur : List Byte} {x : Byte} (h : (t.over w cur)[i]? = some x) :
    cur[i]? = some x ∨ t.at (4 * w + i) = some x := by
  simp only [LocalStore.over, List.getElem?_map, Option.map_eq_some_iff] at h
  obtain ⟨⟨y, j⟩, hz, hx⟩ := h
  rw [List.getElem?_zip_eq_some] at hz
  obtain ⟨hy, hj⟩ := hz
  have hij : j = i := by rw [List.getElem?_eq_some_iff] at hj; obtain ⟨_, hj⟩ := hj; simpa using hj.symm
  subst hij
  cases q : t.at (4 * w + j) with
  | none => left; rw [q] at hx; simpa [← hx] using hy
  | some z => right; rw [q] at hx; simpa using hx

/-- A word with the bytes that a write replaced. -/
theorem LocalStore.under_get {t : LocalStore} {old : List Byte} {w i : Nat} {cur : List Byte} {x : Byte} (ho : t.old = some old)
    (h : (t.under old w cur)[i]? = some x) : cur[i]? = some x ∨ t.offers (4 * w + i) x := by
  simp only [LocalStore.under, List.getElem?_map, Option.map_eq_some_iff] at h
  obtain ⟨⟨y, j⟩, hz, hx⟩ := h
  rw [List.getElem?_zip_eq_some] at hz
  obtain ⟨hy, hj⟩ := hz
  have hij : j = i := by rw [List.getElem?_eq_some_iff] at hj; obtain ⟨_, hj⟩ := hj; simpa using hj.symm
  subst hij
  simp only at hx hy
  split at hx
  · next hs =>
    cases q : old[4 * w + j - t.acc.off]? with
    | none => left; simp [List.getD, q] at hx; simpa [← hx] using hy
    | some z => right; right; refine ⟨hs, old, ho, ?_⟩; simp [List.getD, q] at hx; rw [q, hx]
  · left; simpa [← hx] using hy

/-- What an access reads of a word. -/
theorem ScratchAccess.word_spec (b : ScratchAccess) (key w : Nat) (l : List LocalStore) (cur : List Byte) (h : cur.length = 4) :
    (b.word key w l cur).1.length = 4
      ∧ ∀ i x, (b.word key w l cur).1[i]? = some x → cur[i]? = some x ∨ ∃ t ∈ l, t.acc.passedBy b = true ∧ t.offers (4 * w + i) x := by
  have lift {t : LocalStore} {l : List LocalStore} {i : Nat} {x : Byte} :
      (∃ u ∈ l, u.acc.passedBy b = true ∧ u.offers (4 * w + i) x) → ∃ u ∈ t :: l, u.acc.passedBy b = true ∧ u.offers (4 * w + i) x :=
    fun ⟨u, m, p⟩ => ⟨u, List.mem_cons_of_mem _ m, p⟩
  induction l generalizing cur with
  | nil => exact ⟨h, fun i x q => .inl q⟩
  | cons t l ih =>
    have same : (b.word key w l cur).1.length = 4
        ∧ ∀ i x, (b.word key w l cur).1[i]? = some x → cur[i]? = some x ∨ ∃ u ∈ t :: l, u.acc.passedBy b = true ∧ u.offers (4 * w + i) x :=
      ⟨(ih cur h).1, fun i x q => ((ih cur h).2 i x q).imp_right lift⟩
    have stop : cur.length = 4 ∧ ∀ i x, cur[i]? = some x → cur[i]? = some x ∨ ∃ u ∈ t :: l, u.acc.passedBy b = true ∧ u.offers (4 * w + i) x :=
      ⟨h, fun i x q => .inl q⟩
    unfold ScratchAccess.word
    dsimp only
    split
    · exact same
    · split
      · exact same
      · exact stop
      · next hp ho =>
        split
        · exact ⟨t.over_length w cur h, fun i x q => (LocalStore.over_get q).imp_right fun a => ⟨t, by simp, hp, .inl a⟩⟩
        · exact same
      · next old hp ho =>
        split
        · exact stop
        · have hl := t.under_length old w cur h
          refine ⟨(ih _ hl).1, fun i x q => ?_⟩
          rcases (ih _ hl).2 i x q with r | r
          · exact (LocalStore.under_get ho r).imp_right fun a => ⟨t, by simp, hp, a⟩
          · exact .inr (lift r)

/-- The byte of the scratchpad that a load of the bundle reads (R126, R282). -/
def State.baseByte (s : State) (o : Nat) : Byte := ((s.core.regs.before.lookup o).map Prod.fst).getD (Sparse.get 0 s.core.scratch o)

theorem State.baseBytes_eq (s : State) (off n : Nat) : s.baseBytes off n = (List.range n).map fun i => s.baseByte (off + i) := by
  have hr : ∀ m, Sparse.range 0 s.core.scratch off m = (List.range m).map fun i => Sparse.get 0 s.core.scratch (off + i) := fun m => Sparse.range_eq_map 0 _ _ _
  unfold State.baseBytes State.baseByte Core.scratchRead
  dsimp only
  split
  · next h => rw [hr, List.isEmpty_iff.mp h]; simp
  · rw [hr]
    apply List.ext_getElem?
    intro i
    by_cases hi : i < n
    · rw [List.getElem?_map, zip_range_get (x := Sparse.get 0 s.core.scratch (off + i)) (by simp [hi]) hi]; simp [hi]
    · simp [hi]

/-- Without a write that it may pass an access reads the bytes of R126. -/
theorem State.raceRead_of_none {s : State} {b : ScratchAccess} {key : Nat} (h : s.races b = false) : s.raceRead b key = s.baseBytes b.off b.size := by
  simp [State.raceRead, h]

theorem flatMap_four {α β : Type} (f : α → List β) (l : List α) (h : ∀ x ∈ l, (f x).length = 4) (i : Nat) :
    (l.flatMap f)[i]? = l[i / 4]?.bind fun x => (f x)[i % 4]? := by
  induction l generalizing i with
  | nil => simp
  | cons a l ih =>
    have ha : (f a).length = 4 := h a (by simp)
    rw [List.flatMap_cons]
    by_cases hi : i < 4
    · rw [List.getElem?_append_left (by omega)]
      have h0 : i / 4 = 0 := by omega
      have h1 : i % 4 = i := by omega
      simp [h0, h1]
    · rw [List.getElem?_append_right (by omega), ha, ih (fun x hx => h x (by simp [hx]))]
      have h0 : i / 4 = (i - 4) / 4 + 1 := by omega
      have h1 : i % 4 = (i - 4) % 4 := by omega
      simp [h0, h1]

/-- What an access of the core's own scratchpad reads: each byte is that of R126, or one that a racing write offers (R305, R307). -/
theorem State.raceRead_spec (s : State) (b : ScratchAccess) (key : Nat) :
    (s.raceRead b key).length = b.size
      ∧ ∀ i x, (s.raceRead b key)[i]? = some x →
          s.baseByte (b.off + i) = x ∨ ∃ t ∈ s.writesMet, t.acc.passedBy b = true ∧ t.offers (b.off + i) x := by
  unfold State.raceRead
  split
  case isFalse => 
    rw [State.baseBytes_eq]
    refine ⟨by simp, fun i x h => .inl ?_⟩
    by_cases hi : i < b.size
    · simpa [hi] using h
    · simp [hi] at h
  case isTrue =>
    have hw : ∀ k, (b.word key k s.writesMet (s.baseBytes (4 * k) 4)).1.length = 4
        ∧ ∀ i x, (b.word key k s.writesMet (s.baseBytes (4 * k) 4)).1[i]? = some x →
          (s.baseBytes (4 * k) 4)[i]? = some x ∨ ∃ t ∈ s.writesMet, t.acc.passedBy b = true ∧ t.offers (4 * k + i) x :=
      fun k => b.word_spec key k s.writesMet _ (by rw [State.baseBytes_eq]; simp)
    have hf : ∀ e ∈ s.wordsRead b key, e.1.length = 4 := by
      intro e he
      obtain ⟨k, -, rfl⟩ := List.mem_map.mp he
      exact (hw _).1
    have hg : ∀ i, ((s.wordsRead b key).flatMap Prod.fst)[i]? = (s.wordsRead b key)[i / 4]?.bind fun e => e.1[i % 4]? := flatMap_four _ _ hf
    have hl : ((s.wordsRead b key).flatMap Prod.fst).length = 4 * ((b.off + b.size + 3) / 4 - b.off / 4) := by
      rw [List.length_flatMap, List.map_congr_left (g := fun _ => 4) hf]
      simp [State.wordsRead, Function.comp_def, Nat.mul_comm]
    refine ⟨by rw [List.length_take, List.length_drop, hl]; omega, fun i x h => ?_⟩
    rw [List.getElem?_take] at h
    split at h
    · rw [List.getElem?_drop, hg] at h
      obtain ⟨e, he, hx⟩ := Option.bind_eq_some_iff.mp h
      simp only [State.wordsRead, List.getElem?_map, Option.map_eq_some_iff] at he
      obtain ⟨k, hk, rfl⟩ := he
      have hk' : k = (b.off % 4 + i) / 4 := by rw [List.getElem?_eq_some_iff] at hk; obtain ⟨_, hk⟩ := hk; simpa using hk.symm
      have ho : 4 * (b.off / 4 + k) + (b.off % 4 + i) % 4 = b.off + i := by omega
      rcases (hw _).2 _ _ hx with q | ⟨t, m, p, q⟩
      · left
        rw [State.baseBytes_eq] at q
        have h4 : (b.off % 4 + i) % 4 < 4 := Nat.mod_lt _ (by decide)
        rw [List.getElem?_map, List.getElem?_range h4, Option.map_some, ho] at q
        exact Option.some_inj.mp q
      · exact .inr ⟨t, m, p, ho ▸ q⟩
    · cases h

theorem lookup_mem {β : Type} {l : List (Nat × β)} {k : Nat} {v : β} (h : l.lookup k = some v) : (k, v) ∈ l := by
  induction l with
  | nil => simp at h
  | cons e l ih =>
    obtain ⟨a, w⟩ := e
    rw [List.lookup_cons] at h
    split at h
    · next hk => simp only [beq_iff_eq] at hk; simp_all
    · exact List.mem_cons_of_mem _ (ih h)

/-- The final write at an offset is on record. -/
theorem Regs.finalAt_mem {r : Regs} {o : Nat} {t : LocalStore} (h : r.finalAt o = some t) : t ∈ r.stores := by
  unfold Regs.finalAt at h
  split at h
  · cases h
  · next u hu =>
    split at h
    · cases h; simpa using List.mem_of_find?_eq_some hu
    · exact List.mem_of_find?_eq_some h

/-- The bytes of a new store, with those of the stores that stay (R305). -/
theorem State.settled_get (s : State) (b : ScratchAccess) (bs : List Byte) :
    (s.settled b bs).length = bs.length
      ∧ ∀ i x, (s.settled b bs)[i]? = some x → bs[i]? = some x ∨ ∃ t ∈ s.stays b, t.at (b.off + i) = some x := by
  refine ⟨by simp [State.settled], fun i x h => ?_⟩
  simp only [State.settled, List.getElem?_map, Option.map_eq_some_iff] at h
  obtain ⟨⟨y, j⟩, hz, hx⟩ := h
  rw [List.getElem?_zip_eq_some] at hz
  obtain ⟨hy, hj⟩ := hz
  have hij : j = i := by rw [List.getElem?_eq_some_iff] at hj; obtain ⟨_, hj⟩ := hj; simpa using hj.symm
  subst hij
  simp only at hx hy
  cases q : (s.staying b).lookup (b.off + j) with
  | none => left; rw [q] at hx; simpa [← hx] using hy
  | some z =>
    right
    rw [q] at hx
    have hm := lookup_mem q
    unfold State.staying at hm
    split at hm
    · simp at hm
    · obtain ⟨k, -, hk⟩ := List.mem_filterMap.mp hm
      obtain ⟨t, ht, he⟩ := Option.map_eq_some_iff.mp hk
      obtain ⟨ho, hv⟩ := Prod.mk.inj he
      rw [ho] at ht hv
      obtain ⟨hf, hc⟩ := Option.filter_eq_some_iff.mp ht
      simp only [Bool.and_eq_true, Bool.not_eq_true'] at hc
      obtain ⟨⟨⟨⟨⟨c1, c2⟩, c3⟩, c4⟩, -⟩, -⟩ := hc
      refine ⟨t, ?_, ?_⟩
      · simp only [State.stays, List.mem_filter, Bool.and_eq_true, Bool.not_eq_true']
        exact ⟨Regs.finalAt_mem hf, ⟨c1, c2⟩, c3⟩
      · cases r : t.at (b.off + j) with
        | none => rw [r] at c4; cases c4
        | some w => rw [r] at hv; simp [← hx, ← hv]

/-- A load that no write on record races leaves no trace on the record. -/
theorem State.sawLoad_of_none {s : State} {b : ScratchAccess} (h : s.races b = false) : s.sawLoad b = s := by simp [State.sawLoad, h]

end Sys2Proof.Machine
end

