-- ==== Sys2Proof/Laws/Issue.lean ====
section
/-! SUPPORT. Issuing and landing: which operations keep the issue state of a bundle, what each verdict answers, and the small operations on
elements, masks and bit counts. -/

namespace Sys2Proof.Machine

open Sys2Proof

/-! ### Operations of a core that keep the issue state -/

theorem Core.record_issue (x : Core) (u) : (x.record u).issue = x.issue := by
  unfold Core.record; split; rfl; split <;> rfl

theorem Core.foldl_same {α β : Type} {f : Core → α → Core} (p : Core → β) (k : ∀ x a, p (f x a) = p x) (l : List α) (x : Core) : p (l.foldl f x) = p x := by
  induction l generalizing x with
  | nil => rfl
  | cons a l ih => rw [List.foldl_cons, ih, k]

theorem Core.recordScratch_issue (x : Core) (o n) : (x.recordScratch o n).issue = x.issue :=
  Core.foldl_same Core.issue (fun y a => by dsimp only; split <;> simp only [Core.record_issue]) _ _

theorem Core.wake_issue (x : Core) (l) : (x.wake l).issue = x.issue := by
  unfold Core.wake
  generalize List.range 8 = r
  induction r generalizing x with
  | nil => rfl
  | cons a t ih =>
    rw [List.foldl_cons, ih]
    split
    · rfl
    · split
      · rfl
      · split <;> rfl

theorem Core.writeSr_issue (x : Core) (n v) : (x.writeSr n v).issue = x.issue := by
  simp only [Core.writeSr, apply_ite Core.issue, ite_self]

theorem Core.scratchStore_issue (x : Core) (off bs) : (x.scratchStore off bs).issue = x.issue := by
  unfold Core.scratchStore; dsimp only; rw [Core.wake_issue]; exact Core.recordScratch_issue _ _ _

theorem Core.landOne_issue (x : Core) (l) : (x.landOne l).issue = x.issue := by
  cases l with
  | sr n v => exact Core.writeSr_issue _ _ _
  | rb n v => exact Core.record_issue _ _
  | store => simp only [Core.landOne]; rw [Core.scratchStore_issue]
  | s n v => simp only [Core.landOne]; split <;> rfl
  | p n v m => simp only [Core.landOne]; split <;> rfl
  | late n v => simp only [Core.landOne]; split <;> rfl
  | _ => rfl

theorem Core.landAll_issue (x : Core) (l) : (x.landAll l).issue = x.issue := by
  unfold Core.landAll
  induction l generalizing x with
  | nil => rfl
  | cons a t ih => rw [List.foldl_cons, ih]; exact Core.landOne_issue _ _

/-! ### Operations of a core that keep the scratchpad -/

theorem Core.wake_scratch (x : Core) (l) : (x.wake l).scratch = x.scratch := by
  unfold Core.wake
  have : ∀ (r : List Nat) (y : Core), (r.foldl (fun x i =>
    match (x.regs.comp.toList).getD i none with
    | none => x
    | some (lo, len) =>
      match l.find? (fun o => decide (lo ≤ o ∧ o < lo + len)) with
      | none => x
      | some o =>
        if 32 ≤ x.regs.wakeQ.length then
          { x with regs := { x.regs with status := x.regs.status ||| 32 }
                   ev := if x.regs.status.getLsbD 0 then x.ev else x.ev.zipWith (fun c src => if src = 0x0D#8 then c + 1 else c) x.evSrc }
        else { x with regs := { x.regs with wakeQ := x.regs.wakeQ ++ [BitVec.ofNat 32 (i * 2 ^ 28 + o)] } }) y).scratch = y.scratch := by
    intro r
    induction r with
    | nil => intro y; rfl
    | cons a t ih =>
      intro y
      rw [List.foldl_cons, ih]
      split
      · rfl
      · split
        · rfl
        · split <;> rfl
  exact this _ _

theorem Core.record_scratch (x : Core) (u) : (x.record u).scratch = x.scratch := by
  unfold Core.record; split; rfl; split <;> rfl

theorem Core.recordScratch_scratch (x : Core) (o n) : (x.recordScratch o n).scratch = x.scratch := by
  exact Core.foldl_same Core.scratch (fun y a => by dsimp only; split <;> simp only [Core.record_scratch]) _ _

/-! ### Verdicts -/

theorem State.issueWith_pass {s : State} {v f} (h : s.core.issue.pass = true) : s.issueWith v f = .next ((f s).mark .issued) := by
  unfold State.issueWith; rw [if_pos h]

theorem State.issueWith_go {s : State} {f} : s.issueWith .go f = .next ((f s).mark .issued) := by
  unfold State.issueWith; split <;> rfl

theorem State.issueWith_hold {s : State} {c f} (h : s.core.issue.pass = false) : s.issueWith (.hold c) f = .next (((s.tick 1).count c 1).mark .held) := by
  unfold State.issueWith; rw [h]; rfl

theorem State.issueWith_walk {s : State} {va w f} (h : s.core.issue.pass = false) :
    s.issueWith (.walk va w) f = .next ((((s.askWalk va w).tick 1).count 0x0B 1).mark .held) := by
  unfold State.issueWith; rw [h]; rfl

theorem State.issueWith_trap {s : State} {c val f} (h : s.core.issue.pass = false) :
    s.issueWith (.trap c val) f = .next ((s.trapEnter c val s.core.regs.pc).mark (.trapped c)) := by
  unfold State.issueWith; rw [h]; rfl

/-- A meaning always answers a next state. -/
theorem State.issueWith_next (s : State) (v : Verdict) (f) : ∃ t, s.issueWith v f = .next t := by
  unfold State.issueWith
  split
  · exact ⟨_, rfl⟩
  · cases v <;> exact ⟨_, rfl⟩

theorem Verdict.go_andThen (v : Verdict) : Verdict.andThen .go v = v := rfl

theorem Verdict.trap_andThen (c x) (v : Verdict) : Verdict.andThen (.trap c x) v = .trap c x := rfl

/-! ### Operands that are full -/

theorem State.needS_go {s : State} {n t} (h : s.core.regs.sIsFull n = true) : s.needS n t = .go := by simp [State.needS, h]

theorem State.destS_go {s : State} {n} (h : s.core.regs.sIsFull n = true) : s.destS n = .go := by simp [State.destS, waitFor, h]

theorem State.needA_go {s : State} {n t} (h : (if s.comp then s.core.regs.sIsFull n else s.core.regs.aIsFull n) = true) : s.needA n t = .go := by
  unfold State.needA State.needS; split <;> simp_all

theorem State.destA_go {s : State} {n} (h : (if s.comp then s.core.regs.sIsFull n else s.core.regs.aIsFull n) = true) : s.destA n = .go := by
  unfold State.destA State.destS waitFor; split <;> simp_all

/-! ### Counting bits -/

theorem leadingZeros_spec (x : Nat) (n : Nat) : leadingZeros x n ≤ n ∧ (∀ i < leadingZeros x n, x.testBit (n - 1 - i) = false) ∧ (leadingZeros x n < n → x.testBit (n - 1 - leadingZeros x n) = true) := by
  induction n with
  | zero => simp [leadingZeros]
  | succ n ih =>
    simp only [leadingZeros]
    split
    · next h => simp [h]
    · next h =>
      obtain ⟨a, b, c⟩ := ih
      refine ⟨by omega, ?_, ?_⟩
      · intro i hi
        by_cases h0 : i = 0
        · subst h0; simpa using h
        · have := b (i - 1) (by omega)
          rwa [show n - 1 - (i - 1) = n + 1 - 1 - i by omega] at this
      · intro h1
        have := c (by omega)
        rwa [show n - 1 - leadingZeros x n = n + 1 - 1 - (1 + leadingZeros x n) by omega] at this

theorem trailingZeros_spec (x : Nat) (n k : Nat) : trailingZeros x n k ≤ n ∧ (∀ i < trailingZeros x n k, x.testBit (k + i) = false) ∧ (trailingZeros x n k < n → x.testBit (k + trailingZeros x n k) = true) := by
  induction n generalizing k with
  | zero => simp [trailingZeros]
  | succ n ih =>
    simp only [trailingZeros]
    split
    · next h => simp [h]
    · next h =>
      obtain ⟨a, b, c⟩ := ih (k + 1)
      refine ⟨by omega, ?_, ?_⟩
      · intro i hi
        by_cases h0 : i = 0
        · subst h0; simpa using h
        · have := b (i - 1) (by omega)
          rwa [show k + 1 + (i - 1) = k + i by omega] at this
      · intro h1
        have := c (by omega)
        rwa [show k + 1 + trailingZeros x n (k+1) = k + (1 + trailingZeros x n (k+1)) by omega] at this

theorem onesOf_spec (x : Nat) (n : Nat) : onesOf x n = ((List.range n).filter fun i => x.testBit i).length := by
  induction n with
  | zero => rfl
  | succ n ih => rw [onesOf, ih, List.range_succ, List.filter_append]; by_cases h : x.testBit n <;> simp [h]; omega

/-! ### Elements -/

theorem splitBits_eq (w n x : Nat) : splitBits w n x = (List.range n).map fun i => x / 2 ^ (w * i) % 2 ^ w := by
  induction n generalizing x with
  | zero => rfl
  | succ n ih =>
    rw [splitBits, ih, List.range_succ_eq_map, List.map_cons, List.map_map]
    simp [Function.comp_def, Nat.div_div_eq_div_mul, ← Nat.pow_add, Nat.mul_succ, Nat.add_comm]

theorem joinBits_lt (w) (l : List Nat) : joinBits w l < 2 ^ (w * l.length) := by
  induction l with
  | nil => simp [joinBits]
  | cons x t ih =>
    simp only [joinBits, List.length_cons, Nat.mul_succ, Nat.pow_add]
    have : x % 2^w < 2^w := Nat.mod_lt _ (by positivity)
    calc _ < 2^w + 2^w * joinBits w t := by omega
      _ = 2^w * (joinBits w t + 1) := by ring
      _ ≤ 2^w * 2^(w * t.length) := Nat.mul_le_mul_left _ ih
      _ = _ := by ring

theorem splitBits_joinBits (w) (l : List Nat) : splitBits w l.length (joinBits w l) = l.map (· % 2 ^ w) := by
  induction l with
  | nil => rfl
  | cons x t ih =>
    simp only [List.length_cons, splitBits, joinBits, List.map_cons]
    have h : x % 2^w < 2^w := Nat.mod_lt _ (by positivity)
    rw [Nat.add_mul_mod_self_left, Nat.mod_mod, Nat.add_mul_div_left _ _ (by positivity), Nat.div_eq_of_lt h, Nat.zero_add, ih]

theorem elems_length (w v) : (elems w v).length = 1024 / w := by simp [elems, splitBits_eq]

theorem elems_lt (w v x) (h : x ∈ elems w v) : x < 2 ^ (8 * w) := by
  simp only [elems, splitBits_eq, List.mem_map] at h
  obtain ⟨i, -, rfl⟩ := h
  exact Nat.mod_lt _ (by positivity)

theorem testBit_mod2 (x i : Nat) : (x / 2^i % 2 == 1) = x.testBit i := by
  rw [Nat.testBit_eq_decide_div_mod_eq]; rfl

theorem enabledElems_get (m : PReg) (w i) (hi : i < 1024 / w) (hw : 0 < w): (enabledElems w m)[i]? = some (m.getLsbD (w*i)) := by
  simp only [enabledElems, splitBits_eq, List.getElem?_map, List.getElem?_range hi, Option.map_some, BitVec.getLsbD, ← testBit_mod2]
  congr 2
  rw [Nat.mod_mod_of_dvd]; exact dvd_pow_self 2 (by omega)

theorem zip3_eq (f) (x y z : List Nat) (n) (hx : x.length = n) (hy : y.length = n) (hz : z.length = n) :
   zip3 f x y z = (List.range n).map fun i => f (x.getD i 0) (y.getD i 0) (z.getD i 0) := by
  induction n generalizing x y z with
  | zero => match x, hx with | [], _ => rfl
  | succ n ih =>
    match x, y, z, hx, hy, hz with
    | a :: x, b :: y, c :: z, hx, hy, hz =>
      rw [zip3, ih x y z (by simpa using hx) (by simpa using hy) (by simpa using hz), List.range_succ_eq_map, List.map_cons, List.map_map]
      rfl

theorem digits_get (f : Nat → Nat) (hf : ∀ j, f j < 256) (l : List Nat) (acc : Nat) (k : Nat) (h : k < l.length) :
    (l.foldr (fun i acc => acc * 256 + f i) acc) / 256 ^ k % 256 = f (l[k]'h) := by
  induction l generalizing k with
  | nil => simp at h
  | cons a t ih =>
    simp only [List.foldr_cons]
    cases k with
    | zero => simp; have := hf a; omega
    | succ k =>
      have := ih k (by simpa using h)
      rw [Nat.pow_succ', ← Nat.div_div_eq_div_mul]
      rw [show (List.foldr (fun i acc => acc * 256 + f i) acc t * 256 + f a) / 256 = List.foldr (fun i acc => acc * 256 + f i) acc t from by have := hf a; omega]
      simpa using this

theorem mergeBytes_get (old new : VReg) (m : PReg) (i : Nat) (h : i < 1024) :
    (mergeBytes old new m).extractLsb' (8 * i) 8 = if m.getLsbD i then new.extractLsb' (8 * i) 8 else old.extractLsb' (8 * i) 8 := by
  apply BitVec.eq_of_toNat_eq
  have := digits_get (fun i => if m.getLsbD i then (new.toNat >>> (8 * i)) % 256 else (old.toNat >>> (8 * i)) % 256)
    (by intro j; split <;> omega) (List.range 1024) 0 i (by simpa using h)
  simp only [List.getElem_range] at this
  rw [mergeBytes, BitVec.extractLsb'_toNat, BitVec.toNat_ofNat]
  generalize (List.range 1024).foldr _ 0 = N at this ⊢
  rw [Nat.shiftRight_eq_div_pow]
  have e (K : Nat) (hK : K = 8192) : N % 2 ^ K / 2 ^ (8 * i) % 2 ^ 8 = N / 256 ^ i % 256 := by
    rw [show (2:Nat) ^ K = 2 ^ (8*i) * 2 ^ (K - 8*i) from by rw [← Nat.pow_add]; congr 1; omega]
    rw [Nat.mod_mul_right_div_self, Nat.mod_mod_of_dvd _ (Nat.pow_dvd_pow 2 (show 8 ≤ K - 8 * i by omega)), Nat.pow_mul]
  rw [e _ rfl, this]
  split <;> simp [BitVec.extractLsb'_toNat]

theorem maskedStore_get (l : List (Nat × Byte × Bool)) (off : Nat) (m : Sparse Byte) (a : Nat) :
   Sparse.get 0 (l.foldl (fun m e => if e.2.2 then Sparse.set 0 m (off + e.1) e.2.1 else m) m) a =
     match l.reverse.find? (fun e => e.2.2 && decide (off + e.1 = a)) with
     | some e => e.2.1
     | none => Sparse.get 0 m a := by
  induction l generalizing m with
  | nil => rfl
  | cons e t ih =>
    simp only [List.foldl_cons, ih, List.reverse_cons, List.find?_append]
    cases h : t.reverse.find? (fun e => e.2.2 && decide (off + e.1 = a)) with
    | some x => simp
    | none =>
      simp only [Option.none_or]
      by_cases he : e.2.2
      · by_cases ho : off + e.1 = a
        · simp [he, ho, Sparse.get_set]
        · simp [he, ho, Sparse.get_set]; intro h; exact absurd h.symm ho
      · simp [he]

end Sys2Proof.Machine
end

