-- ==== Sys2Proof/Laws/Keeps.lean ====
section
/-! SUPPORT. What an operation keeps: memory in canonical form, and the registers that only the host writes. The relation composes, and the
operations that write memory are shown to keep it here. -/

namespace Sys2Proof.Machine

open Sys2Proof

/-- The registers of the device that only the host, or a store to them, writes. -/
def Device.host (d : Device) :
    Bool × Vector Word 4 × Word × Word × Sparse Word32 × Sparse Word32 × Word × Word × Vector Word 4 × Sparse (BitVec 513) × Vector Aperture 64 :=
  (d.run, d.accept, d.fwAddr, d.fwLen, d.fwMain, d.fwComp, d.ptroot, d.fabRank, d.fabGrp, d.keySlots, d.apt)

/-- From s to t, memory stays in canonical form and the host's registers keep their values. -/
structure Keeps (s t : State) : Prop where
  mem  : Memory.wf s.mem = true → Memory.wf t.mem = true
  host : t.dev.host = s.dev.host

theorem Keeps.refl (s : State) : Keeps s s := ⟨id, rfl⟩

theorem Keeps.trans {s t u : State} (h : Keeps s t) (k : Keeps t u) : Keeps s u :=
  ⟨fun w => k.mem (h.mem w), k.host.trans h.host⟩

/-! Each operation is said so: what has kept them up to a state keeps them over the operation. -/

theorem Keeps.mk' {a s : State} {me : CoreRef} {core : Core} {others : Sparse Core} {dies : Vector Die 4} {lines : Sparse LineMeta} {flaws : List Nat}
    {agenda : List Move} {due fresh : Nat} {held : Bool} (h : Keeps a s) :
    Keeps a ⟨me, core, others, dies, s.dev, s.mem, lines, flaws, agenda, due, fresh, held⟩ := ⟨h.mem, h.host⟩

theorem Keeps.core {a s : State} {core : Core} (h : Keeps a s) : Keeps a { s with core := core } := ⟨h.mem, h.host⟩

theorem Keeps.setCore {a s : State} {c : CoreRef} {x : Core} (h : Keeps a s) : Keeps a (s.setCore c x) := by
  unfold State.setCore; split <;> exact ⟨h.mem, h.host⟩

theorem Keeps.onCore {a s : State} {c : CoreRef} {f : Core → Core} (h : Keeps a s) : Keeps a (s.onCore c f) := h.setCore

theorem Keeps.onRegs {a s : State} {f : Regs → Regs} (h : Keeps a s) : Keeps a (s.onRegs f) := ⟨h.mem, h.host⟩

theorem Keeps.onDie {a s : State} {d : BitVec 2} {f : Die → Die} (h : Keeps a s) : Keeps a (s.onDie d f) := ⟨h.mem, h.host⟩

theorem Keeps.onDev {a s : State} {f : Device → Device} (k : (f s.dev).host = s.dev.host) (h : Keeps a s) : Keeps a (s.onDev f) :=
  ⟨h.mem, Eq.trans k h.host⟩

theorem Keeps.focus {a s : State} {c : CoreRef} (h : Keeps a s) : Keeps a (s.focus c) := by
  unfold State.focus; split
  · exact h
  · exact ⟨h.mem, h.host⟩

theorem Keeps.within {a s : State} {c : CoreRef} {f : State → State} (k : ∀ b t, Keeps b t → Keeps b (f t)) (h : Keeps a s) : Keeps a (s.within c f) := by
  unfold State.within; split
  · exact k _ _ h
  · exact (k _ _ h.focus).focus

theorem Keeps.orHold {a s : State} {f : State → State} (k : ∀ b t, Keeps b t → Keeps b (f t)) (h : Keeps a s) : Keeps a (s.orHold f) := by
  unfold State.orHold; dsimp only; split
  · exact h
  · exact k _ _ h

theorem Keeps.foldl {α : Type} {f : State → α → State} {l : List α} {a s : State} (k : ∀ b t x, Keeps b t → Keeps b (f t x)) (h : Keeps a s) :
    Keeps a (l.foldl f s) := by
  induction l generalizing s with
  | nil => exact h
  | cons x l ih => exact ih (k _ _ _ h)

/-- The state of a pair. -/
theorem Keeps.fst {α : Type} {a t : State} {p : State × α} {r : α} (e : p = (t, r)) (h : Keeps a p.1) : Keeps a t := by
  rw [e] at h; exact h

/-- The answer of a meaning. -/
theorem Keeps.next {a t u : State} (e : (Host.Outcome.next t : Out State) = .next u) (h : Keeps a t) : Keeps a u := by
  cases e; exact h

end Sys2Proof.Machine
end

