-- ==== Sys2Proof/Laws/KeepsOps.lean ====
section
/-! SUPPORT. The shared operations on memory, translation, traps, and a core, and the issue of a meaning, keep memory in canonical form and the registers of the host. -/

namespace Sys2Proof.Machine

open Sys2Proof

set_option linter.all false

theorem State.dieEvent_keeps {a0 s : State} {d code n} (h : Keeps a0 s) : Keeps a0 (State.dieEvent s d code n) := by
  unfold State.dieEvent
  try dsimp only
  repeat' (first
    | with_reducible exact Keeps.refl _
    | with_reducible assumption
    | intro _
    | with_reducible apply Keeps.onDie
    | with_reducible apply Keeps.foldl
    | (with_reducible apply Keeps.fst; case e => with_reducible assumption)
    | split
    | with_reducible apply Keeps.core
    | with_reducible apply Keeps.mk')

/-- Storing bytes of a line keeps the canonical form. -/
theorem State.stored_wf {s : State} {key pa v bs} (h : Memory.wf s.mem = true) : Memory.wf (s.stored key pa v bs) = true := by
  unfold State.stored
  dsimp only
  split <;> exact Sparse.wf_setRange _ _ _ _ h

theorem State.writeLine_keeps {a0 s : State} {key pa bs} (h : Keeps a0 s) : Keeps a0 (State.writeLine s key pa bs).1 := by
  unfold State.writeLine
  dsimp only
  split
  · exact h
  · split
    · exact ⟨h.mem, h.host⟩
    · exact ⟨fun w => State.stored_wf (h.mem w), h.host⟩

theorem State.writeLines_keeps {a0 s : State} {key : Nat} {l : List (Nat × Nat)} {bs : List Byte} (h : Keeps a0 s) :
    Keeps a0 (State.writeLines s key l bs).1 := by
  induction l generalizing s bs with
  | nil => exact h
  | cons a l ih => exact ih (State.writeLine_keeps h)

theorem State.writeBare_keeps {a0 s : State} {key : Nat} {l : List (Nat × Nat)} {bs : List Byte} (h : Keeps a0 s) : Keeps a0 (State.writeBare s key l bs) := by
  induction l generalizing s bs with
  | nil => exact h
  | cons a l ih => exact ih ⟨fun w => State.stored_wf (h.mem w), h.host⟩

theorem State.writePlain_keeps {a0 s : State} {key pa bs} (h : Keeps a0 s) : Keeps a0 (State.writePlain s key pa bs).1 := by
  unfold State.writePlain
  dsimp only
  split
  · exact State.writeLines_keeps h
  · exact State.writeBare_keeps h

theorem Keeps.writeRuns {a0 : State} (key : Nat) (f : State → Nat → Nat) (l : List (Nat × List Byte)) (r : State × Bool) (h : Keeps a0 r.1) :
    Keeps a0 (l.foldl (fun r p => ((r.1.writeLine key (f r.1 p.1) p.2).1, r.2 || (r.1.writeLine key (f r.1 p.1) p.2).2)) r).1 := by
  induction l generalizing r with
  | nil => exact h
  | cons x l ih => exact ih _ (State.writeLine_keeps h)

theorem State.physWrite_keeps {a0 s : State} {w key pa bs} (h : Keeps a0 s) : Keeps a0 (State.physWrite s w key pa bs).1 := by
  unfold State.physWrite
  split
  · split
    · exact Keeps.onCore (f := fun x => _) h
    · exact h
  · exact ⟨h.mem, h.host⟩
  · split
    · exact h
    · exact Keeps.writeRuns _ (fun _ => s.reaim) _ (s, false) h
  · exact State.writePlain_keeps h

theorem State.tlbPut_keeps {a0 s : State} {e} (h : Keeps a0 s) : Keeps a0 (State.tlbPut s e) := by
  unfold State.tlbPut
  try dsimp only
  repeat' (first
    | with_reducible exact Keeps.refl _
    | with_reducible assumption
    | intro _
    | with_reducible apply Keeps.onDie
    | with_reducible apply Keeps.foldl
    | (with_reducible apply Keeps.fst; case e => with_reducible assumption)
    | split
    | with_reducible apply Keeps.core
    | with_reducible apply Keeps.mk')

theorem State.touchEntry_keeps {a0 s : State} {p e write} (h : Keeps a0 s) : Keeps a0 (State.touchEntry s p e write) := by
  unfold State.touchEntry
  try dsimp only
  repeat' (first
    | with_reducible exact Keeps.refl _
    | with_reducible assumption
    | intro _
    | with_reducible apply State.writePlain_keeps
    | with_reducible apply Keeps.foldl
    | (with_reducible apply Keeps.fst; case e => with_reducible assumption)
    | split
    | with_reducible apply Keeps.core
    | with_reducible apply Keeps.mk')

theorem State.count_keeps {a0 s : State} {code n} (h : Keeps a0 s) : Keeps a0 (State.count s code n) := by
  unfold State.count
  try dsimp only
  repeat' (first
    | with_reducible exact Keeps.refl _
    | with_reducible assumption
    | intro _
    | with_reducible apply Keeps.foldl
    | (with_reducible apply Keeps.fst; case e => with_reducible assumption)
    | split
    | with_reducible apply Keeps.core
    | with_reducible apply Keeps.mk')

theorem State.serve_keeps {a0 s : State} {e} (h : Keeps a0 s) : Keeps a0 (State.serve s e) := by
  unfold State.serve
  refine Keeps.foldl (fun b t k h => ?_) h
  split
  · exact Keeps.mk' (Keeps.onCore h)
  · exact h

theorem State.refill_keeps {a0 s : State} {va write} (h : Keeps a0 s) : Keeps a0 (State.refill s va write) := by
  unfold State.refill
  dsimp only
  split
  · exact h
  · split
    · exact h
    · exact Keeps.mk' (State.count_keeps h)

theorem State.walkNow_keeps {a0 s : State} {w write va} (h : Keeps a0 s) : Keeps a0 (State.walkNow s w write va).1 := by
  unfold State.walkNow
  split
  · exact h
  · exact State.dieEvent_keeps h
  · dsimp only
    split
    · exact State.dieEvent_keeps h
    · exact State.serve_keeps (State.tlbPut_keeps (State.touchEntry_keeps (State.dieEvent_keeps h)))

theorem State.translate_keeps {a0 s : State} {w write va} (h : Keeps a0 s) : Keeps a0 (State.translate s w write va).1 := by
  have hr : Keeps a0 (if w.sup = true then s else s.refill va write) := by
    split
    · exact h
    · exact State.refill_keeps h
  have hc : ∀ t, Keeps a0 t → Keeps a0 (if w.sup = true then t else t.count 0x0A 1) := fun t h => by
    split
    · exact h
    · exact State.count_keeps h
  unfold State.translate
  split
  · exact h
  · split
    · dsimp only
      split <;> exact hr
    · split
      · next e => exact Keeps.fst e (State.walkNow_keeps h)
      · next e => exact hc _ (Keeps.fst e (State.walkNow_keeps h))
      · next e => exact hc _ (Keeps.fst e (State.walkNow_keeps h))

theorem State.hold_keeps {a0 s : State}  (h : Keeps a0 s) : Keeps a0 (State.hold s) := by
  unfold State.hold
  try dsimp only
  repeat' (first
    | with_reducible exact Keeps.refl _
    | with_reducible assumption
    | intro _
    | with_reducible apply Keeps.foldl
    | (with_reducible apply Keeps.fst; case e => with_reducible assumption)
    | split
    | with_reducible apply Keeps.core
    | with_reducible apply Keeps.mk')

theorem State.translateHeld_keeps {a0 s : State} {w write va} (h : Keeps a0 s) : Keeps a0 (State.translateHeld s w write va).1 := by
  unfold State.translateHeld
  try dsimp only
  repeat' (first
    | with_reducible exact Keeps.refl _
    | with_reducible assumption
    | intro _
    | with_reducible apply State.hold_keeps
    | with_reducible apply State.translate_keeps
    | with_reducible apply Keeps.foldl
    | (with_reducible apply Keeps.fst; case e => with_reducible assumption)
    | split
    | with_reducible apply Keeps.core
    | with_reducible apply Keeps.mk')

theorem State.reach_keeps {a0 s : State} {w write va n} (h : Keeps a0 s) : Keeps a0 (State.reach s w write va n).1 := by
  unfold State.reach
  try dsimp only
  repeat' (first
    | with_reducible exact Keeps.refl _
    | with_reducible assumption
    | intro _
    | with_reducible apply State.hold_keeps
    | with_reducible apply State.translateHeld_keeps
    | with_reducible apply Keeps.foldl
    | (with_reducible apply Keeps.fst; case e => with_reducible assumption)
    | split
    | with_reducible apply Keeps.core
    | with_reducible apply Keeps.mk')

theorem State.vRead_keeps {a0 s : State} {w va n} (h : Keeps a0 s) : Keeps a0 (State.vRead s w va n).1 := by
  unfold State.vRead
  try dsimp only
  repeat' (first
    | with_reducible exact Keeps.refl _
    | with_reducible assumption
    | intro _
    | with_reducible apply State.reach_keeps
    | with_reducible apply Keeps.foldl
    | (with_reducible apply Keeps.fst; case e => with_reducible assumption)
    | split
    | with_reducible apply Keeps.core
    | with_reducible apply Keeps.mk')

theorem State.vWrite_keeps {a0 s : State} {w va bs} (h : Keeps a0 s) : Keeps a0 (State.vWrite s w va bs).1 := by
  unfold State.vWrite
  try dsimp only
  repeat' (first
    | with_reducible exact Keeps.refl _
    | with_reducible assumption
    | intro _
    | with_reducible apply State.reach_keeps
    | with_reducible apply State.physWrite_keeps
    | with_reducible apply Keeps.foldl
    | (with_reducible apply Keeps.fst; case e => with_reducible assumption)
    | split
    | with_reducible apply Keeps.core
    | with_reducible apply Keeps.mk')

theorem State.vReadLong_keeps {a0 s : State} {w : Who} {fuel : Nat} {va : Word} {n : Nat} (h : Keeps a0 s) : Keeps a0 (State.vReadLong w fuel s va n).1 := by
  induction fuel generalizing s va n with
  | zero => exact h
  | succ k ih =>
    unfold State.vReadLong
    dsimp only
    repeat' (first
      | with_reducible assumption
      | with_reducible apply ih
      | with_reducible apply State.vRead_keeps
      | (with_reducible apply Keeps.fst; case e => with_reducible assumption)
      | split)

theorem State.vWriteLong_keeps {a0 s : State} {w : Who} {fuel : Nat} {va : Word} {bs : List Byte} (h : Keeps a0 s) :
    Keeps a0 (State.vWriteLong w fuel s va bs).1 := by
  induction fuel generalizing s va bs with
  | zero => exact h
  | succ k ih =>
    unfold State.vWriteLong
    dsimp only
    repeat' (first
      | with_reducible assumption
      | with_reducible apply ih
      | with_reducible apply State.vWrite_keeps
      | (with_reducible apply Keeps.fst; case e => with_reducible assumption)
      | split)

theorem State.vReadAll_keeps {a0 s : State} {w va n} (h : Keeps a0 s) : Keeps a0 (State.vReadAll s w va n).1 := by
  unfold State.vReadAll
  try dsimp only
  repeat' (first
    | with_reducible exact Keeps.refl _
    | with_reducible assumption
    | intro _
    | with_reducible apply State.vReadLong_keeps
    | with_reducible apply Keeps.foldl
    | (with_reducible apply Keeps.fst; case e => with_reducible assumption)
    | split
    | with_reducible apply Keeps.core
    | with_reducible apply Keeps.mk')

theorem State.vWriteAll_keeps {a0 s : State} {w va bs} (h : Keeps a0 s) : Keeps a0 (State.vWriteAll s w va bs).1 := by
  unfold State.vWriteAll
  try dsimp only
  repeat' (first
    | with_reducible exact Keeps.refl _
    | with_reducible assumption
    | intro _
    | with_reducible apply State.vWriteLong_keeps
    | with_reducible apply Keeps.foldl
    | (with_reducible apply Keeps.fst; case e => with_reducible assumption)
    | split
    | with_reducible apply Keeps.core
    | with_reducible apply Keeps.mk')

theorem State.noteEnded_keeps {a0 s : State} {t} (h : Keeps a0 s) : Keeps a0 (State.noteEnded s t) := by
  unfold State.noteEnded
  try dsimp only
  repeat' (first
    | with_reducible exact Keeps.refl _
    | with_reducible assumption
    | intro _
    | with_reducible apply Keeps.foldl
    | (with_reducible apply Keeps.onDev; case k => simp only [Device.host, Device.setBinding])
    | (with_reducible apply Keeps.fst; case e => with_reducible assumption)
    | split
    | with_reducible apply Keeps.core
    | with_reducible apply Keeps.mk')

theorem State.tick_keeps {a0 s : State} {n} (h : Keeps a0 s) : Keeps a0 (State.tick s n) := by
  unfold State.tick
  try dsimp only
  repeat' (first
    | with_reducible exact Keeps.refl _
    | with_reducible assumption
    | intro _
    | with_reducible apply State.count_keeps
    | with_reducible apply Keeps.foldl
    | (with_reducible apply Keeps.fst; case e => with_reducible assumption)
    | split
    | with_reducible apply Keeps.core
    | with_reducible apply Keeps.mk')

theorem State.send_keeps {a0 s : State} {lat what flags} (h : Keeps a0 s) : Keeps a0 (State.send s lat what flags) := by
  unfold State.send
  try dsimp only
  repeat' (first
    | with_reducible exact Keeps.refl _
    | with_reducible assumption
    | intro _
    | with_reducible apply Keeps.onRegs
    | with_reducible apply Keeps.foldl
    | (with_reducible apply Keeps.fst; case e => with_reducible assumption)
    | split
    | with_reducible apply Keeps.core
    | with_reducible apply Keeps.mk')

theorem State.clearFull_keeps {a0 s : State} {d} (h : Keeps a0 s) : Keeps a0 (State.clearFull s d) := by
  unfold State.clearFull
  try dsimp only
  repeat' (first
    | with_reducible exact Keeps.refl _
    | with_reducible assumption
    | intro _
    | with_reducible apply Keeps.onRegs
    | with_reducible apply Keeps.foldl
    | (with_reducible apply Keeps.fst; case e => with_reducible assumption)
    | split
    | with_reducible apply Keeps.core
    | with_reducible apply Keeps.mk')

theorem State.queueOp_keeps {a0 s : State} {op} (h : Keeps a0 s) : Keeps a0 (State.queueOp s op) := by
  unfold State.queueOp
  try dsimp only
  repeat' (first
    | with_reducible exact Keeps.refl _
    | with_reducible assumption
    | intro _
    | with_reducible apply Keeps.foldl
    | (with_reducible apply Keeps.fst; case e => with_reducible assumption)
    | split
    | with_reducible apply Keeps.core
    | with_reducible apply Keeps.mk')

theorem State.produce_keeps {a0 s : State} {d v flags} (h : Keeps a0 s) : Keeps a0 (State.produce s d v flags) := by
  unfold State.produce
  try dsimp only
  repeat' (first
    | with_reducible exact Keeps.refl _
    | with_reducible assumption
    | intro _
    | with_reducible apply State.queueOp_keeps
    | with_reducible apply State.clearFull_keeps
    | with_reducible apply Keeps.foldl
    | (with_reducible apply Keeps.fst; case e => with_reducible assumption)
    | split
    | with_reducible apply Keeps.core
    | with_reducible apply Keeps.mk')

theorem State.clearCluster_keeps {a0 s : State} {c} (h : Keeps a0 s) : Keeps a0 (State.clearCluster s c) := by
  unfold State.clearCluster
  try dsimp only
  repeat' (first
    | with_reducible exact Keeps.refl _
    | with_reducible assumption
    | intro _
    | with_reducible apply Keeps.onCore
    | with_reducible apply Keeps.foldl
    | (with_reducible apply Keeps.fst; case e => with_reducible assumption)
    | split
    | with_reducible apply Keeps.core
    | with_reducible apply Keeps.mk')

theorem State.acquire_keeps {a0 s : State} {sc} (h : Keeps a0 s) : Keeps a0 (State.acquire s sc) := by
  have h1 : Keeps a0 (s.observes [toOthers]) := Keeps.onRegs h
  unfold State.acquire
  split
  · exact h
  · generalize s.observes [toOthers] = u at h1
    have h2 : Keeps a0 { u with core := u.core.clearL1 } := Keeps.core h1
    extract_lets v w
    have hw : Keeps a0 w := by
      show Keeps a0 (if _ then _ else _)
      split
      · exact h2
      · exact h1
    split
    · exact State.clearCluster_keeps hw
    · exact hw

theorem State.forget_keeps {a0 s : State}  (h : Keeps a0 s) : Keeps a0 (State.forget s) := by
  unfold State.forget
  try dsimp only
  repeat' (first
    | with_reducible exact Keeps.refl _
    | with_reducible assumption
    | intro _
    | with_reducible apply Keeps.onDie
    | with_reducible apply Keeps.foldl
    | (with_reducible apply Keeps.onDev; case k => simp only [Device.host, Device.setBinding])
    | (with_reducible apply Keeps.fst; case e => with_reducible assumption)
    | split
    | with_reducible apply Keeps.core
    | with_reducible apply Keeps.mk')

theorem State.freeCore_keeps {a0 s : State}  (h : Keeps a0 s) : Keeps a0 (State.freeCore s) := by
  unfold State.freeCore
  try dsimp only
  repeat' (first
    | with_reducible exact Keeps.refl _
    | with_reducible assumption
    | intro _
    | with_reducible apply State.clearCluster_keeps
    | with_reducible apply State.forget_keeps
    | with_reducible apply Keeps.foldl
    | (with_reducible apply Keeps.fst; case e => with_reducible assumption)
    | split
    | with_reducible apply Keeps.core
    | with_reducible apply Keeps.mk')

theorem State.noteKill_keeps {a0 s : State} {d addr} (h : Keeps a0 s) : Keeps a0 (State.noteKill s d addr) := by
  unfold State.noteKill
  try dsimp only
  repeat' (first
    | with_reducible exact Keeps.refl _
    | with_reducible assumption
    | intro _
    | with_reducible apply Keeps.onDie
    | with_reducible apply Keeps.foldl
    | (with_reducible apply Keeps.fst; case e => with_reducible assumption)
    | split
    | with_reducible apply Keeps.core
    | with_reducible apply Keeps.mk')

theorem State.killHeader_keeps {a0 s : State} {t cause pc val} (h : Keeps a0 s) : Keeps a0 (State.killHeader s t cause pc val) := by
  unfold State.killHeader
  try dsimp only
  repeat' (first
    | with_reducible exact Keeps.refl _
    | with_reducible assumption
    | intro _
    | with_reducible apply State.vWrite_keeps
    | with_reducible apply Keeps.foldl
    | (with_reducible apply Keeps.fst; case e => with_reducible assumption)
    | split
    | with_reducible apply Keeps.core
    | with_reducible apply Keeps.mk')

theorem State.kill_keeps {a0 s : State} {cause pc val} (h : Keeps a0 s) : Keeps a0 (State.kill s cause pc val) := by
  unfold State.kill
  try dsimp only
  repeat' (first
    | with_reducible exact Keeps.refl _
    | with_reducible assumption
    | intro _
    | with_reducible apply State.killHeader_keeps
    | with_reducible apply State.freeCore_keeps
    | with_reducible apply State.noteKill_keeps
    | with_reducible apply State.noteEnded_keeps
    | with_reducible apply Keeps.foldl
    | (with_reducible apply Keeps.fst; case e => with_reducible assumption)
    | split
    | with_reducible apply Keeps.core
    | with_reducible apply Keeps.mk')

theorem State.trapEnter_keeps {a0 s : State} {cause val pc} (h : Keeps a0 s) : Keeps a0 (State.trapEnter s cause val pc) := by
  unfold State.trapEnter
  split
  · exact State.kill_keeps h
  · exact Keeps.core h

theorem State.trapReturn_keeps {a0 s : State} (h : Keeps a0 s) : Keeps a0 (State.trapReturn s) := Keeps.core h

theorem State.walkFails_keeps {a0 s : State} (h : Keeps a0 s) : Keeps a0 s.walkFails := State.dieEvent_keeps (State.count_keeps h)

theorem State.lateReport_keeps {a0 s : State} {cause val fw} (h : Keeps a0 s) : Keeps a0 (State.lateReport s cause val fw) := by
  unfold State.lateReport
  try dsimp only
  repeat' (first
    | with_reducible exact Keeps.refl _
    | with_reducible assumption
    | intro _
    | with_reducible apply Keeps.foldl
    | (with_reducible apply Keeps.fst; case e => with_reducible assumption)
    | split
    | with_reducible apply Keeps.core
    | with_reducible apply Keeps.mk')

theorem State.mark_keeps {a0 s : State} {r} (h : Keeps a0 s) : Keeps a0 (State.mark s r) := by
  unfold State.mark
  try dsimp only
  repeat' (first
    | with_reducible exact Keeps.refl _
    | with_reducible assumption
    | intro _
    | with_reducible apply Keeps.foldl
    | (with_reducible apply Keeps.fst; case e => with_reducible assumption)
    | split
    | with_reducible apply Keeps.core
    | with_reducible apply Keeps.mk')

theorem State.askWalk_keeps {a0 s : State} {va write} (h : Keeps a0 s) : Keeps a0 (State.askWalk s va write) := by
  unfold State.askWalk
  try dsimp only
  repeat' (first
    | with_reducible exact Keeps.refl _
    | with_reducible assumption
    | intro _
    | with_reducible apply State.count_keeps
    | with_reducible apply Keeps.foldl
    | (with_reducible apply Keeps.fst; case e => with_reducible assumption)
    | split
    | with_reducible apply Keeps.core
    | with_reducible apply Keeps.mk')

theorem State.issueWith_keeps {a0 s t : State} {v : Verdict} {f : State → State} (e : s.issueWith v f = .next t) (k : ∀ b u, Keeps b u → Keeps b (f u))
    (h : Keeps a0 s) : Keeps a0 t := by
  unfold State.issueWith at e
  split at e
  · exact Keeps.next e (State.mark_keeps (k _ _ h))
  · split at e
    · exact Keeps.next e (State.mark_keeps (k _ _ h))
    · exact Keeps.next e (State.mark_keeps (State.count_keeps (State.tick_keeps h)))
    · exact Keeps.next e (State.mark_keeps (State.count_keeps (State.tick_keeps (State.askWalk_keeps h))))
    · exact Keeps.next e (State.mark_keeps (State.trapEnter_keeps h))
    · exact Keeps.next e (State.mark_keeps (State.trapEnter_keeps (State.walkFails_keeps h)))

end Sys2Proof.Machine
end

