-- ==== Sys2Proof/Laws/KeepsIssue.lean ====
section
/-! SUPPORT. The end of a bundle, the scalar, address, branch, load and store, vector and special-register meanings keep them. -/

namespace Sys2Proof.Machine

open Sys2Proof

set_option linter.all false

theorem State.postModify_keeps {a0 s : State} {n pm size} (h : Keeps a0 s) : Keeps a0 (State.postModify s n pm size) := by
  unfold State.postModify
  try dsimp only
  repeat' (first
    | with_reducible exact Keeps.refl _
    | with_reducible assumption
    | intro _
    | with_reducible apply State.send_keeps
    | with_reducible apply Keeps.foldl
    | (with_reducible apply Keeps.fst; case e => with_reducible assumption)
    | split
    | with_reducible apply Keeps.core
    | with_reducible apply Keeps.mk')

theorem State.sendStore_keeps {a0 s : State} {slot off data mask} (h : Keeps a0 s) : Keeps a0 (State.sendStore s slot off data mask) := by
  unfold State.sendStore
  try dsimp only
  repeat' (first
    | with_reducible exact Keeps.refl _
    | with_reducible assumption
    | intro _
    | with_reducible apply State.send_keeps
    | with_reducible apply Keeps.foldl
    | (with_reducible apply Keeps.fst; case e => with_reducible assumption)
    | split
    | with_reducible apply Keeps.core
    | with_reducible apply Keeps.mk')

theorem State.saw_keeps {a0 s : State} {b k} (h : Keeps a0 s) : Keeps a0 (State.saw s b k) := by
  unfold State.saw
  exact Keeps.onRegs h

theorem State.sawLoad_keeps {a0 s : State} {b} (h : Keeps a0 s) : Keeps a0 (State.sawLoad s b) := by
  unfold State.sawLoad
  split
  · exact Keeps.mk' (State.saw_keeps h)
  · exact h

theorem State.releases_keeps {a0 s : State} {n} (h : Keeps a0 s) : Keeps a0 (State.releases s n) := Keeps.onRegs h

theorem State.observes_keeps {a0 s : State} {l} (h : Keeps a0 s) : Keeps a0 (State.observes s l) := Keeps.onRegs h

theorem State.sendLoad_keeps {a0 s : State} {lat b sz sx what} (h : Keeps a0 s) : Keeps a0 (State.sendLoad s lat b sz sx what) := by
  unfold State.sendLoad
  try dsimp only
  repeat' (first
    | with_reducible exact Keeps.refl _
    | with_reducible assumption
    | intro _
    | with_reducible apply State.sawLoad_keeps
    | with_reducible apply Keeps.onRegs
    | with_reducible apply State.send_keeps
    | with_reducible apply Keeps.foldl
    | (with_reducible apply Keeps.fst; case e => with_reducible assumption)
    | split
    | with_reducible apply Keeps.core
    | with_reducible apply Keeps.mk')

theorem State.localStore_keeps {a0 s : State} {slot b data mask} (h : Keeps a0 s) : Keeps a0 (State.localStore s slot b data mask) := by
  unfold State.localStore
  try dsimp only
  repeat' (first
    | with_reducible exact Keeps.refl _
    | with_reducible assumption
    | intro _
    | with_reducible apply State.sendStore_keeps
    | with_reducible apply Keeps.onRegs
    | with_reducible apply Keeps.foldl
    | (with_reducible apply Keeps.fst; case e => with_reducible assumption)
    | split
    | with_reducible apply Keeps.core
    | with_reducible apply Keeps.mk')

theorem State.fenceLocal_keeps {a0 s : State} {src dst} (h : Keeps a0 s) : Keeps a0 (State.fenceLocal s src dst) := by
  unfold State.fenceLocal
  try dsimp only
  repeat' (first
    | with_reducible exact Keeps.refl _
    | with_reducible assumption
    | intro _
    | with_reducible apply Keeps.onRegs
    | with_reducible apply Keeps.foldl
    | (with_reducible apply Keeps.fst; case e => with_reducible assumption)
    | split
    | with_reducible apply Keeps.core
    | with_reducible apply Keeps.mk')

theorem execLdv_keeps {a0 s u0 : State} {d a ta k} (e : execLdv d a ta k s = .next u0) (h : Keeps a0 s) : Keeps a0 u0 := by
  unfold execLdv at e
  try dsimp only at e
  repeat' (first
    | refine State.issueWith_keeps e ?_ ?_
    | refine Keeps.next e ?_
    | split at e
    | with_reducible exact Keeps.refl _
    | with_reducible assumption
    | intro _
    | with_reducible apply State.refill_keeps
    | with_reducible apply State.queueOp_keeps
    | with_reducible apply State.clearFull_keeps
    | with_reducible apply Keeps.foldl
    | (with_reducible apply Keeps.fst; case e => with_reducible assumption)
    | split
    | with_reducible apply Keeps.core
    | with_reducible apply Keeps.mk')

theorem execValid_keeps {a0 s u0 : State} {d mask} (e : execValid d mask s = .next u0) (h : Keeps a0 s) : Keeps a0 u0 := by
  unfold execValid at e
  try dsimp only at e
  repeat' (first
    | refine State.issueWith_keeps e ?_ ?_
    | refine Keeps.next e ?_
    | split at e
    | with_reducible exact Keeps.refl _
    | with_reducible assumption
    | intro _
    | with_reducible apply State.queueOp_keeps
    | with_reducible apply State.clearFull_keeps
    | with_reducible apply Keeps.foldl
    | (with_reducible apply Keeps.fst; case e => with_reducible assumption)
    | split
    | with_reducible apply Keeps.core
    | with_reducible apply Keeps.mk')

theorem execValst_keeps {a0 s u0 : State} {d a b ta tb mask} (e : execValst d a b ta tb mask s = .next u0) (h : Keeps a0 s) : Keeps a0 u0 := by
  unfold execValst at e
  try dsimp only at e
  repeat' (first
    | refine State.issueWith_keeps e ?_ ?_
    | refine Keeps.next e ?_
    | split at e
    | with_reducible exact Keeps.refl _
    | with_reducible assumption
    | intro _
    | with_reducible apply State.refill_keeps
    | with_reducible apply State.queueOp_keeps
    | with_reducible apply State.clearFull_keeps
    | with_reducible apply Keeps.foldl
    | (with_reducible apply Keeps.fst; case e => with_reducible assumption)
    | split
    | with_reducible apply Keeps.core
    | with_reducible apply Keeps.mk')

theorem execCasv_keeps {a0 s u0 : State} {d a b ta tb k} (e : execCasv d a b ta tb k s = .next u0) (h : Keeps a0 s) : Keeps a0 u0 := by
  unfold execCasv at e
  try dsimp only at e
  repeat' (first
    | refine State.issueWith_keeps e ?_ ?_
    | refine Keeps.next e ?_
    | split at e
    | with_reducible exact Keeps.refl _
    | with_reducible assumption
    | intro _
    | with_reducible apply State.refill_keeps
    | with_reducible apply State.queueOp_keeps
    | with_reducible apply State.clearFull_keeps
    | with_reducible apply Keeps.foldl
    | (with_reducible apply Keeps.fst; case e => with_reducible assumption)
    | split
    | with_reducible apply Keeps.core
    | with_reducible apply Keeps.mk')

theorem execClrv_keeps {a0 s u0 : State} {mask} (e : execClrv mask s = .next u0) (h : Keeps a0 s) : Keeps a0 u0 := by
  unfold execClrv at e
  try dsimp only at e
  repeat' (first
    | refine State.issueWith_keeps e ?_ ?_
    | refine Keeps.next e ?_
    | split at e
    | with_reducible exact Keeps.refl _
    | with_reducible assumption
    | intro _
    | with_reducible apply State.send_keeps
    | with_reducible apply Keeps.foldl
    | (with_reducible apply Keeps.fst; case e => with_reducible assumption)
    | split
    | with_reducible apply Keeps.core
    | with_reducible apply Keeps.mk')

theorem State.l1Update_keeps {a0 s : State} {pa bs} (h : Keeps a0 s) : Keeps a0 (State.l1Update s pa bs) := by
  unfold State.l1Update
  try dsimp only
  repeat' (first
    | with_reducible exact Keeps.refl _
    | with_reducible assumption
    | intro _
    | with_reducible apply Keeps.onCore
    | with_reducible apply Keeps.foldl
    | (with_reducible apply Keeps.fst; case e => with_reducible assumption)
    | split
    | with_reducible apply Keeps.core
    | with_reducible apply Keeps.mk')

theorem State.l1Fused_keeps {a0 s : State} {pa bs} (h : Keeps a0 s) : Keeps a0 (State.l1Fused s pa bs) := by
  unfold State.l1Fused
  try dsimp only
  repeat' (first
    | with_reducible exact Keeps.refl _
    | with_reducible assumption
    | intro _
    | with_reducible apply Keeps.onCore
    | with_reducible apply Keeps.foldl
    | (with_reducible apply Keeps.fst; case e => with_reducible assumption)
    | split
    | with_reducible apply Keeps.core
    | with_reducible apply Keeps.mk')

theorem State.besideL1_keeps {a0 s : State} {path pa bs} (h : Keeps a0 s) : Keeps a0 (State.besideL1 s path pa bs) :=
  State.l1Fused_keeps (Keeps.onCore h)

theorem State.cacheWrites_keeps {a0 s : State} {path l} (h : Keeps a0 s) : Keeps a0 (State.cacheWrites s path l) := by
  unfold State.cacheWrites
  refine Keeps.foldl (fun b t p h => ?_) h
  split
  · exact h
  · split
    · exact State.besideL1_keeps h
    · have h1 : Keeps b (t.l1Update p.1 p.2) := State.l1Update_keeps h
      generalize t.l1Update p.1 p.2 = u at h1
      dsimp only
      split
      · exact State.l1Fused_keeps h1
      · exact h1

theorem State.dropLines_keeps {a0 s : State} {pa n} (h : Keeps a0 s) : Keeps a0 (State.dropLines s pa n) := by
  unfold State.dropLines
  split
  · exact Keeps.foldl (fun b t p h => Keeps.onCore h) h
  · exact h

theorem State.loadBytes_keeps {a0 s : State} {w p n} (h : Keeps a0 s) : Keeps a0 (State.loadBytes s w p n).1 := by
  unfold State.loadBytes
  dsimp only
  split
  · exact State.dropLines_keeps h
  · split
    · exact h
    · split
      · exact State.count_keeps h
      · exact Keeps.mk' (Keeps.onCore (State.count_keeps h))

theorem State.arrive_keeps {a0 s : State} {sup l flags} (h : Keeps a0 s) : Keeps a0 (State.arrive s sup l flags) := by
  unfold State.arrive
  try dsimp only
  repeat' (first
    | with_reducible exact Keeps.refl _
    | with_reducible assumption
    | intro _
    | with_reducible apply Keeps.foldl
    | (with_reducible apply Keeps.fst; case e => with_reducible assumption)
    | split
    | with_reducible apply Keeps.core
    | with_reducible apply Keeps.mk')

theorem State.result_keeps {a0 s : State} {e d v flags} (h : Keeps a0 s) : Keeps a0 (State.result s e d v flags) := by
  unfold State.result
  try dsimp only
  repeat' (first
    | with_reducible exact Keeps.refl _
    | with_reducible assumption
    | intro _
    | with_reducible apply State.arrive_keeps
    | with_reducible apply Keeps.foldl
    | (with_reducible apply Keeps.fst; case e => with_reducible assumption)
    | split
    | with_reducible apply Keeps.core
    | with_reducible apply Keeps.mk')

theorem State.resultN_keeps {a0 s : State} {e k x} (h : Keeps a0 s) : Keeps a0 (State.resultN s e k x) := by
  unfold State.resultN
  try dsimp only
  repeat' (first
    | with_reducible exact Keeps.refl _
    | with_reducible assumption
    | intro _
    | with_reducible apply State.arrive_keeps
    | with_reducible apply Keeps.foldl
    | (with_reducible apply Keeps.fst; case e => with_reducible assumption)
    | split
    | with_reducible apply Keeps.core
    | with_reducible apply Keeps.mk')

theorem State.storeAt_keeps {a0 s : State} {w p bs} (h : Keeps a0 s) : Keeps a0 (State.storeAt s w p bs) := by
  unfold State.storeAt
  try dsimp only
  repeat' (first
    | with_reducible exact Keeps.refl _
    | with_reducible assumption
    | intro _
    | with_reducible apply State.cacheWrites_keeps
    | with_reducible apply State.physWrite_keeps
    | with_reducible apply Keeps.foldl
    | (with_reducible apply Keeps.fst; case e => with_reducible assumption)
    | split
    | with_reducible apply Keeps.core
    | with_reducible apply Keeps.mk')

theorem State.performOp_keeps {a0 s : State} {e} (h : Keeps a0 s) : Keeps a0 (State.performOp s e) := by
  unfold State.performOp
  try dsimp only
  repeat' (first
    | with_reducible exact Keeps.refl _
    | with_reducible assumption
    | intro _
    | with_reducible apply State.releases_keeps
    | with_reducible apply State.acquire_keeps
    | with_reducible apply State.storeAt_keeps
    | with_reducible apply State.result_keeps
    | with_reducible apply State.resultN_keeps
    | with_reducible apply Keeps.onCore
    | with_reducible apply State.lateReport_keeps
    | with_reducible apply State.loadBytes_keeps
    | with_reducible apply Keeps.foldl
    | (with_reducible apply Keeps.onDev; case k => simp only [Device.host, Device.setBinding])
    | (with_reducible apply Keeps.fst; case e => with_reducible assumption)
    | split
    | with_reducible apply Keeps.core
    | with_reducible apply Keeps.mk')

theorem State.performAt_keeps {a0 s : State} {k} (h : Keeps a0 s) : Keeps a0 (State.performAt s k) := by
  unfold State.performAt
  try dsimp only
  repeat' (first
    | with_reducible exact Keeps.refl _
    | with_reducible assumption
    | intro _
    | with_reducible apply State.performOp_keeps
    | with_reducible apply State.refill_keeps
    | with_reducible apply Keeps.foldl
    | (with_reducible apply Keeps.fst; case e => with_reducible assumption)
    | split
    | with_reducible apply Keeps.core
    | with_reducible apply Keeps.mk')

theorem execVariableLatencyLanding_keeps {a0 s u0 : State} {c k} (e : execVariableLatencyLanding c k s = .next u0) (h : Keeps a0 s) : Keeps a0 u0 := by
  unfold execVariableLatencyLanding at e
  try dsimp only at e
  repeat' (first
    | refine State.issueWith_keeps e ?_ ?_
    | refine Keeps.next e ?_
    | split at e
    | with_reducible exact Keeps.refl _
    | with_reducible assumption
    | intro _
    | with_reducible apply State.performAt_keeps
    | with_reducible apply Keeps.within
    | with_reducible apply Keeps.foldl
    | (with_reducible apply Keeps.fst; case e => with_reducible assumption)
    | split
    | with_reducible apply Keeps.core
    | with_reducible apply Keeps.mk')

theorem execWritePerformAtHome_keeps {a0 s u0 : State} {c k} (e : execWritePerformAtHome c k s = .next u0) (h : Keeps a0 s) : Keeps a0 u0 := by
  unfold execWritePerformAtHome at e
  try dsimp only at e
  repeat' (first
    | refine State.issueWith_keeps e ?_ ?_
    | refine Keeps.next e ?_
    | split at e
    | with_reducible exact Keeps.refl _
    | with_reducible assumption
    | intro _
    | with_reducible apply State.performAt_keeps
    | with_reducible apply Keeps.within
    | with_reducible apply Keeps.foldl
    | (with_reducible apply Keeps.fst; case e => with_reducible assumption)
    | split
    | with_reducible apply Keeps.core
    | with_reducible apply Keeps.mk')

theorem State.landResults_keeps {a0 s : State}  (h : Keeps a0 s) : Keeps a0 (State.landResults s) := by
  unfold State.landResults
  try dsimp only
  repeat' (first
    | with_reducible exact Keeps.refl _
    | with_reducible assumption
    | intro _
    | with_reducible apply Keeps.onRegs
    | with_reducible apply Keeps.foldl
    | (with_reducible apply Keeps.fst; case e => with_reducible assumption)
    | split
    | with_reducible apply Keeps.core
    | with_reducible apply Keeps.mk')

theorem State.landStores_keeps {a0 s : State}  (h : Keeps a0 s) : Keeps a0 (State.landStores s) := by
  unfold State.landStores
  try dsimp only
  repeat' (first
    | with_reducible exact Keeps.refl _
    | with_reducible assumption
    | intro _
    | with_reducible apply State.performOwn_keeps
    | with_reducible apply Keeps.onRegs
    | with_reducible apply Keeps.foldl
    | (with_reducible apply Keeps.fst; case e => with_reducible assumption)
    | split
    | with_reducible apply Keeps.core
    | with_reducible apply Keeps.mk')

theorem State.age_keeps {a0 s : State}  (h : Keeps a0 s) : Keeps a0 (State.age s) := by
  unfold State.age
  try dsimp only
  repeat' (first
    | with_reducible exact Keeps.refl _
    | with_reducible assumption
    | intro _
    | with_reducible apply Keeps.onRegs
    | with_reducible apply Keeps.foldl
    | (with_reducible apply Keeps.fst; case e => with_reducible assumption)
    | split
    | with_reducible apply Keeps.core
    | with_reducible apply Keeps.mk')

theorem State.finish_keeps {a0 s : State} {all} (h : Keeps a0 s) : Keeps a0 (State.finish s all) := by
  unfold State.finish
  try dsimp only
  repeat' (first
    | with_reducible exact Keeps.refl _
    | with_reducible assumption
    | intro _
    | with_reducible apply State.landResults_keeps
    | with_reducible apply State.age_keeps
    | with_reducible apply State.landStores_keeps
    | with_reducible apply State.tick_keeps
    | with_reducible apply State.trapReturn_keeps
    | with_reducible apply State.count_keeps
    | with_reducible apply Keeps.onRegs
    | with_reducible apply Keeps.foldl
    | (with_reducible apply Keeps.fst; case e => with_reducible assumption)
    | split
    | with_reducible apply Keeps.core
    | with_reducible apply Keeps.mk')

theorem State.withSlot_keeps {a0 s : State} {sl w ckpt pass} (h : Keeps a0 s) : Keeps a0 (State.withSlot s sl w ckpt pass) := by
  unfold State.withSlot
  try dsimp only
  repeat' (first
    | with_reducible exact Keeps.refl _
    | with_reducible assumption
    | intro _
    | with_reducible apply Keeps.foldl
    | (with_reducible apply Keeps.fst; case e => with_reducible assumption)
    | split
    | with_reducible apply Keeps.core
    | with_reducible apply Keeps.mk')

theorem State.settleHeld_keeps {a0 s : State} {all} (h : Keeps a0 s) : Keeps a0 (State.settleHeld s all) := by
  unfold State.settleHeld
  try dsimp only
  repeat' (first
    | with_reducible exact Keeps.refl _
    | with_reducible assumption
    | intro _
    | with_reducible apply State.landStores_keeps
    | with_reducible apply Keeps.onRegs
    | with_reducible apply Keeps.foldl
    | (with_reducible apply Keeps.fst; case e => with_reducible assumption)
    | split
    | with_reducible apply Keeps.core
    | with_reducible apply Keeps.mk')

theorem State.holdOn_keeps {a0 s : State}  (h : Keeps a0 s) : Keeps a0 (State.holdOn s) := by
  unfold State.holdOn
  try dsimp only
  repeat' (first
    | with_reducible exact Keeps.refl _
    | with_reducible assumption
    | intro _
    | with_reducible apply State.mark_keeps
    | with_reducible apply State.tick_keeps
    | with_reducible apply Keeps.foldl
    | (with_reducible apply Keeps.fst; case e => with_reducible assumption)
    | split
    | with_reducible apply Keeps.core
    | with_reducible apply Keeps.mk')

theorem State.bundleTrap_keeps {a0 s u0 : State} {cause val} (e : State.bundleTrap s cause val = .next u0) (h : Keeps a0 s) : Keeps a0 u0 := by
  unfold State.bundleTrap at e
  try dsimp only at e
  repeat' (first
    | refine State.issueWith_keeps e ?_ ?_
    | refine Keeps.next e ?_
    | split at e
    | with_reducible exact Keeps.refl _
    | with_reducible assumption
    | intro _
    | with_reducible apply State.mark_keeps
    | with_reducible apply State.trapEnter_keeps
    | with_reducible apply Keeps.foldl
    | (with_reducible apply Keeps.fst; case e => with_reducible assumption)
    | split
    | with_reducible apply Keeps.core
    | with_reducible apply Keeps.mk')

theorem State.closeBundle_keeps {a0 s : State} {ck} (h : Keeps a0 s) : Keeps a0 (State.closeBundle s ck) := by
  unfold State.closeBundle
  try dsimp only
  repeat' (first
    | with_reducible exact Keeps.refl _
    | with_reducible assumption
    | intro _
    | with_reducible apply Keeps.foldl
    | (with_reducible apply Keeps.fst; case e => with_reducible assumption)
    | split
    | with_reducible apply Keeps.core
    | with_reducible apply Keeps.mk')

theorem State.fencedBy_keeps {a0 s : State} {all} (h : Keeps a0 s) : Keeps a0 (State.fencedBy s all) := by
  unfold State.fencedBy
  try dsimp only
  repeat' (first
    | with_reducible exact Keeps.refl _
    | with_reducible assumption
    | intro _
    | with_reducible apply State.fenceLocal_keeps
    | with_reducible apply Keeps.foldl
    | (with_reducible apply Keeps.fst; case e => with_reducible assumption)
    | split
    | with_reducible apply Keeps.core
    | with_reducible apply Keeps.mk')

theorem State.setControl_keeps {a0 s : State} {c} (h : Keeps a0 s) : Keeps a0 (State.setControl s c) := by
  unfold State.setControl
  try dsimp only
  repeat' (first
    | with_reducible exact Keeps.refl _
    | with_reducible assumption
    | intro _
    | with_reducible apply Keeps.foldl
    | (with_reducible apply Keeps.fst; case e => with_reducible assumption)
    | split
    | with_reducible apply Keeps.core
    | with_reducible apply Keeps.mk')

theorem execBr_keeps {a0 s u0 : State} {p neg disp} (e : execBr p neg disp s = .next u0) (h : Keeps a0 s) : Keeps a0 u0 := by
  unfold execBr at e
  try dsimp only at e
  repeat' (first
    | refine State.issueWith_keeps e ?_ ?_
    | refine Keeps.next e ?_
    | split at e
    | with_reducible exact Keeps.refl _
    | with_reducible assumption
    | intro _
    | with_reducible apply State.setControl_keeps
    | with_reducible apply Keeps.foldl
    | (with_reducible apply Keeps.fst; case e => with_reducible assumption)
    | split
    | with_reducible apply Keeps.core
    | with_reducible apply Keeps.mk')

theorem execCall_keeps {a0 s u0 : State} {p neg disp} (e : execCall p neg disp s = .next u0) (h : Keeps a0 s) : Keeps a0 u0 := by
  unfold execCall at e
  try dsimp only at e
  repeat' (first
    | refine State.issueWith_keeps e ?_ ?_
    | refine Keeps.next e ?_
    | split at e
    | with_reducible exact Keeps.refl _
    | with_reducible assumption
    | intro _
    | with_reducible apply State.setControl_keeps
    | with_reducible apply State.send_keeps
    | with_reducible apply Keeps.foldl
    | (with_reducible apply Keeps.fst; case e => with_reducible assumption)
    | split
    | with_reducible apply Keeps.core
    | with_reducible apply Keeps.mk')

theorem execLexit_keeps {a0 s u0 : State} {p neg disp} (e : execLexit p neg disp s = .next u0) (h : Keeps a0 s) : Keeps a0 u0 := by
  unfold execLexit at e
  try dsimp only at e
  repeat' (first
    | refine State.issueWith_keeps e ?_ ?_
    | refine Keeps.next e ?_
    | split at e
    | with_reducible exact Keeps.refl _
    | with_reducible assumption
    | intro _
    | with_reducible apply State.setControl_keeps
    | with_reducible apply Keeps.onRegs
    | with_reducible apply Keeps.foldl
    | (with_reducible apply Keeps.fst; case e => with_reducible assumption)
    | split
    | with_reducible apply Keeps.core
    | with_reducible apply Keeps.mk')

theorem execJr_keeps {a0 s u0 : State} {a ta} (e : execJr a ta s = .next u0) (h : Keeps a0 s) : Keeps a0 u0 := by
  unfold execJr at e
  try dsimp only at e
  repeat' (first
    | refine State.issueWith_keeps e ?_ ?_
    | refine Keeps.next e ?_
    | split at e
    | with_reducible exact Keeps.refl _
    | with_reducible assumption
    | intro _
    | with_reducible apply State.setControl_keeps
    | with_reducible apply Keeps.foldl
    | (with_reducible apply Keeps.fst; case e => with_reducible assumption)
    | split
    | with_reducible apply Keeps.core
    | with_reducible apply Keeps.mk')

theorem execJalr_keeps {a0 s u0 : State} {d a ta} (e : execJalr d a ta s = .next u0) (h : Keeps a0 s) : Keeps a0 u0 := by
  unfold execJalr at e
  try dsimp only at e
  repeat' (first
    | refine State.issueWith_keeps e ?_ ?_
    | refine Keeps.next e ?_
    | split at e
    | with_reducible exact Keeps.refl _
    | with_reducible assumption
    | intro _
    | with_reducible apply State.setControl_keeps
    | with_reducible apply State.send_keeps
    | with_reducible apply Keeps.foldl
    | (with_reducible apply Keeps.fst; case e => with_reducible assumption)
    | split
    | with_reducible apply Keeps.core
    | with_reducible apply Keeps.mk')

theorem execRet_keeps {a0 s u0 : State}  (e : execRet s = .next u0) (h : Keeps a0 s) : Keeps a0 u0 := by
  unfold execRet at e
  try dsimp only at e
  repeat' (first
    | refine State.issueWith_keeps e ?_ ?_
    | refine Keeps.next e ?_
    | split at e
    | with_reducible exact Keeps.refl _
    | with_reducible assumption
    | intro _
    | with_reducible apply State.setControl_keeps
    | with_reducible apply Keeps.foldl
    | (with_reducible apply Keeps.fst; case e => with_reducible assumption)
    | split
    | with_reducible apply Keeps.core
    | with_reducible apply Keeps.mk')

theorem State.startLoop_keeps {a0 s : State} {rot len c} (h : Keeps a0 s) : Keeps a0 (State.startLoop s rot len c) := by
  unfold State.startLoop
  try dsimp only
  repeat' (first
    | with_reducible exact Keeps.refl _
    | with_reducible assumption
    | intro _
    | with_reducible apply State.setControl_keeps
    | with_reducible apply Keeps.onRegs
    | with_reducible apply Keeps.foldl
    | (with_reducible apply Keeps.fst; case e => with_reducible assumption)
    | split
    | with_reducible apply Keeps.core
    | with_reducible apply Keeps.mk')

theorem execLoop_keeps {a0 s u0 : State} {rot len t n} (e : execLoop rot len t n s = .next u0) (h : Keeps a0 s) : Keeps a0 u0 := by
  unfold execLoop at e
  try dsimp only at e
  repeat' (first
    | refine State.issueWith_keeps e ?_ ?_
    | refine Keeps.next e ?_
    | split at e
    | with_reducible exact Keeps.refl _
    | with_reducible assumption
    | intro _
    | with_reducible apply State.startLoop_keeps
    | with_reducible apply Keeps.foldl
    | (with_reducible apply Keeps.fst; case e => with_reducible assumption)
    | split
    | with_reducible apply Keeps.core
    | with_reducible apply Keeps.mk')

theorem execLoopi_keeps {a0 s u0 : State} {rot len n} (e : execLoopi rot len n s = .next u0) (h : Keeps a0 s) : Keeps a0 u0 := by
  unfold execLoopi at e
  try dsimp only at e
  repeat' (first
    | refine State.issueWith_keeps e ?_ ?_
    | refine Keeps.next e ?_
    | split at e
    | with_reducible exact Keeps.refl _
    | with_reducible assumption
    | intro _
    | with_reducible apply State.startLoop_keeps
    | with_reducible apply Keeps.foldl
    | (with_reducible apply Keeps.fst; case e => with_reducible assumption)
    | split
    | with_reducible apply Keeps.core
    | with_reducible apply Keeps.mk')

theorem execLoopq_keeps {a0 s u0 : State} {rot len} (e : execLoopq rot len s = .next u0) (h : Keeps a0 s) : Keeps a0 u0 := by
  unfold execLoopq at e
  try dsimp only at e
  repeat' (first
    | refine State.issueWith_keeps e ?_ ?_
    | refine Keeps.next e ?_
    | split at e
    | with_reducible exact Keeps.refl _
    | with_reducible assumption
    | intro _
    | with_reducible apply State.startLoop_keeps
    | with_reducible apply Keeps.onRegs
    | with_reducible apply Keeps.foldl
    | (with_reducible apply Keeps.fst; case e => with_reducible assumption)
    | split
    | with_reducible apply Keeps.core
    | with_reducible apply Keeps.mk')

theorem execSetvrb_keeps {a0 s u0 : State} {n} (e : execSetvrb n s = .next u0) (h : Keeps a0 s) : Keeps a0 u0 := by
  unfold execSetvrb at e
  try dsimp only at e
  repeat' (first
    | refine State.issueWith_keeps e ?_ ?_
    | refine Keeps.next e ?_
    | split at e
    | with_reducible exact Keeps.refl _
    | with_reducible assumption
    | intro _
    | with_reducible apply State.send_keeps
    | with_reducible apply Keeps.foldl
    | (with_reducible apply Keeps.fst; case e => with_reducible assumption)
    | split
    | with_reducible apply Keeps.core
    | with_reducible apply Keeps.mk')

theorem execSetprb_keeps {a0 s u0 : State} {n} (e : execSetprb n s = .next u0) (h : Keeps a0 s) : Keeps a0 u0 := by
  unfold execSetprb at e
  try dsimp only at e
  repeat' (first
    | refine State.issueWith_keeps e ?_ ?_
    | refine Keeps.next e ?_
    | split at e
    | with_reducible exact Keeps.refl _
    | with_reducible assumption
    | intro _
    | with_reducible apply State.send_keeps
    | with_reducible apply Keeps.foldl
    | (with_reducible apply Keeps.fst; case e => with_reducible assumption)
    | split
    | with_reducible apply Keeps.core
    | with_reducible apply Keeps.mk')

theorem execClrrb_keeps {a0 s u0 : State}  (e : execClrrb s = .next u0) (h : Keeps a0 s) : Keeps a0 u0 := by
  unfold execClrrb at e
  try dsimp only at e
  repeat' (first
    | refine State.issueWith_keeps e ?_ ?_
    | refine Keeps.next e ?_
    | split at e
    | with_reducible exact Keeps.refl _
    | with_reducible assumption
    | intro _
    | with_reducible apply State.send_keeps
    | with_reducible apply Keeps.foldl
    | (with_reducible apply Keeps.fst; case e => with_reducible assumption)
    | split
    | with_reducible apply Keeps.core
    | with_reducible apply Keeps.mk')

theorem execEndTask_keeps {a0 s u0 : State}  (e : execEndTask s = .next u0) (h : Keeps a0 s) : Keeps a0 u0 := by
  unfold execEndTask at e
  try dsimp only at e
  repeat' (first
    | refine State.issueWith_keeps e ?_ ?_
    | refine Keeps.next e ?_
    | split at e
    | with_reducible exact Keeps.refl _
    | with_reducible assumption
    | intro _
    | with_reducible apply Keeps.foldl
    | (with_reducible apply Keeps.fst; case e => with_reducible assumption)
    | split
    | with_reducible apply Keeps.core
    | with_reducible apply Keeps.mk')

theorem State.alu2_keeps {a0 s u0 : State} {d a b ta tb lat f} (e : State.alu2 s d a b ta tb lat f = .next u0) (h : Keeps a0 s) : Keeps a0 u0 := by
  unfold State.alu2 at e
  try dsimp only at e
  repeat' (first
    | refine State.issueWith_keeps e ?_ ?_
    | refine Keeps.next e ?_
    | split at e
    | with_reducible exact Keeps.refl _
    | with_reducible assumption
    | intro _
    | with_reducible apply State.send_keeps
    | with_reducible apply Keeps.foldl
    | (with_reducible apply Keeps.fst; case e => with_reducible assumption)
    | split
    | with_reducible apply Keeps.core
    | with_reducible apply Keeps.mk')

theorem State.alu1_keeps {a0 s u0 : State} {d a ta f} (e : State.alu1 s d a ta f = .next u0) (h : Keeps a0 s) : Keeps a0 u0 := by
  unfold State.alu1 at e
  try dsimp only at e
  repeat' (first
    | refine State.issueWith_keeps e ?_ ?_
    | refine Keeps.next e ?_
    | split at e
    | with_reducible exact Keeps.refl _
    | with_reducible assumption
    | intro _
    | with_reducible apply State.send_keeps
    | with_reducible apply Keeps.foldl
    | (with_reducible apply Keeps.fst; case e => with_reducible assumption)
    | split
    | with_reducible apply Keeps.core
    | with_reducible apply Keeps.mk')

theorem execAdd_keeps {a0 s u0 : State} {d a b ta tb} (e : execAdd d a b ta tb s = .next u0) (h : Keeps a0 s) : Keeps a0 u0 := by
  unfold execAdd at e
  try dsimp only at e
  repeat' (first
    | (refine State.alu2_keeps e ?_)
    | refine State.issueWith_keeps e ?_ ?_
    | refine Keeps.next e ?_
    | split at e
    | with_reducible exact Keeps.refl _
    | with_reducible assumption
    | intro _
    | with_reducible apply Keeps.foldl
    | (with_reducible apply Keeps.fst; case e => with_reducible assumption)
    | split
    | with_reducible apply Keeps.core
    | with_reducible apply Keeps.mk')

theorem execSub_keeps {a0 s u0 : State} {d a b ta tb} (e : execSub d a b ta tb s = .next u0) (h : Keeps a0 s) : Keeps a0 u0 := by
  unfold execSub at e
  try dsimp only at e
  repeat' (first
    | (refine State.alu2_keeps e ?_)
    | refine State.issueWith_keeps e ?_ ?_
    | refine Keeps.next e ?_
    | split at e
    | with_reducible exact Keeps.refl _
    | with_reducible assumption
    | intro _
    | with_reducible apply Keeps.foldl
    | (with_reducible apply Keeps.fst; case e => with_reducible assumption)
    | split
    | with_reducible apply Keeps.core
    | with_reducible apply Keeps.mk')

theorem execAnd_keeps {a0 s u0 : State} {d a b ta tb} (e : execAnd d a b ta tb s = .next u0) (h : Keeps a0 s) : Keeps a0 u0 := by
  unfold execAnd at e
  try dsimp only at e
  repeat' (first
    | (refine State.alu2_keeps e ?_)
    | refine State.issueWith_keeps e ?_ ?_
    | refine Keeps.next e ?_
    | split at e
    | with_reducible exact Keeps.refl _
    | with_reducible assumption
    | intro _
    | with_reducible apply Keeps.foldl
    | (with_reducible apply Keeps.fst; case e => with_reducible assumption)
    | split
    | with_reducible apply Keeps.core
    | with_reducible apply Keeps.mk')

theorem execOr_keeps {a0 s u0 : State} {d a b ta tb} (e : execOr d a b ta tb s = .next u0) (h : Keeps a0 s) : Keeps a0 u0 := by
  unfold execOr at e
  try dsimp only at e
  repeat' (first
    | (refine State.alu2_keeps e ?_)
    | refine State.issueWith_keeps e ?_ ?_
    | refine Keeps.next e ?_
    | split at e
    | with_reducible exact Keeps.refl _
    | with_reducible assumption
    | intro _
    | with_reducible apply Keeps.foldl
    | (with_reducible apply Keeps.fst; case e => with_reducible assumption)
    | split
    | with_reducible apply Keeps.core
    | with_reducible apply Keeps.mk')

theorem execXor_keeps {a0 s u0 : State} {d a b ta tb} (e : execXor d a b ta tb s = .next u0) (h : Keeps a0 s) : Keeps a0 u0 := by
  unfold execXor at e
  try dsimp only at e
  repeat' (first
    | (refine State.alu2_keeps e ?_)
    | refine State.issueWith_keeps e ?_ ?_
    | refine Keeps.next e ?_
    | split at e
    | with_reducible exact Keeps.refl _
    | with_reducible assumption
    | intro _
    | with_reducible apply Keeps.foldl
    | (with_reducible apply Keeps.fst; case e => with_reducible assumption)
    | split
    | with_reducible apply Keeps.core
    | with_reducible apply Keeps.mk')

theorem execAndn_keeps {a0 s u0 : State} {d a b ta tb} (e : execAndn d a b ta tb s = .next u0) (h : Keeps a0 s) : Keeps a0 u0 := by
  unfold execAndn at e
  try dsimp only at e
  repeat' (first
    | (refine State.alu2_keeps e ?_)
    | refine State.issueWith_keeps e ?_ ?_
    | refine Keeps.next e ?_
    | split at e
    | with_reducible exact Keeps.refl _
    | with_reducible assumption
    | intro _
    | with_reducible apply Keeps.foldl
    | (with_reducible apply Keeps.fst; case e => with_reducible assumption)
    | split
    | with_reducible apply Keeps.core
    | with_reducible apply Keeps.mk')

theorem execShl_keeps {a0 s u0 : State} {d a b ta tb} (e : execShl d a b ta tb s = .next u0) (h : Keeps a0 s) : Keeps a0 u0 := by
  unfold execShl at e
  try dsimp only at e
  repeat' (first
    | (refine State.alu2_keeps e ?_)
    | refine State.issueWith_keeps e ?_ ?_
    | refine Keeps.next e ?_
    | split at e
    | with_reducible exact Keeps.refl _
    | with_reducible assumption
    | intro _
    | with_reducible apply Keeps.foldl
    | (with_reducible apply Keeps.fst; case e => with_reducible assumption)
    | split
    | with_reducible apply Keeps.core
    | with_reducible apply Keeps.mk')

theorem execShr_keeps {a0 s u0 : State} {d a b ta tb} (e : execShr d a b ta tb s = .next u0) (h : Keeps a0 s) : Keeps a0 u0 := by
  unfold execShr at e
  try dsimp only at e
  repeat' (first
    | (refine State.alu2_keeps e ?_)
    | refine State.issueWith_keeps e ?_ ?_
    | refine Keeps.next e ?_
    | split at e
    | with_reducible exact Keeps.refl _
    | with_reducible assumption
    | intro _
    | with_reducible apply Keeps.foldl
    | (with_reducible apply Keeps.fst; case e => with_reducible assumption)
    | split
    | with_reducible apply Keeps.core
    | with_reducible apply Keeps.mk')

theorem execSra_keeps {a0 s u0 : State} {d a b ta tb} (e : execSra d a b ta tb s = .next u0) (h : Keeps a0 s) : Keeps a0 u0 := by
  unfold execSra at e
  try dsimp only at e
  repeat' (first
    | (refine State.alu2_keeps e ?_)
    | refine State.issueWith_keeps e ?_ ?_
    | refine Keeps.next e ?_
    | split at e
    | with_reducible exact Keeps.refl _
    | with_reducible assumption
    | intro _
    | with_reducible apply Keeps.foldl
    | (with_reducible apply Keeps.fst; case e => with_reducible assumption)
    | split
    | with_reducible apply Keeps.core
    | with_reducible apply Keeps.mk')

theorem execRol_keeps {a0 s u0 : State} {d a b ta tb} (e : execRol d a b ta tb s = .next u0) (h : Keeps a0 s) : Keeps a0 u0 := by
  unfold execRol at e
  try dsimp only at e
  repeat' (first
    | (refine State.alu2_keeps e ?_)
    | refine State.issueWith_keeps e ?_ ?_
    | refine Keeps.next e ?_
    | split at e
    | with_reducible exact Keeps.refl _
    | with_reducible assumption
    | intro _
    | with_reducible apply Keeps.foldl
    | (with_reducible apply Keeps.fst; case e => with_reducible assumption)
    | split
    | with_reducible apply Keeps.core
    | with_reducible apply Keeps.mk')

theorem execMin_keeps {a0 s u0 : State} {d a b ta tb} (e : execMin d a b ta tb s = .next u0) (h : Keeps a0 s) : Keeps a0 u0 := by
  unfold execMin at e
  try dsimp only at e
  repeat' (first
    | (refine State.alu2_keeps e ?_)
    | refine State.issueWith_keeps e ?_ ?_
    | refine Keeps.next e ?_
    | split at e
    | with_reducible exact Keeps.refl _
    | with_reducible assumption
    | intro _
    | with_reducible apply Keeps.foldl
    | (with_reducible apply Keeps.fst; case e => with_reducible assumption)
    | split
    | with_reducible apply Keeps.core
    | with_reducible apply Keeps.mk')

theorem execMax_keeps {a0 s u0 : State} {d a b ta tb} (e : execMax d a b ta tb s = .next u0) (h : Keeps a0 s) : Keeps a0 u0 := by
  unfold execMax at e
  try dsimp only at e
  repeat' (first
    | (refine State.alu2_keeps e ?_)
    | refine State.issueWith_keeps e ?_ ?_
    | refine Keeps.next e ?_
    | split at e
    | with_reducible exact Keeps.refl _
    | with_reducible assumption
    | intro _
    | with_reducible apply Keeps.foldl
    | (with_reducible apply Keeps.fst; case e => with_reducible assumption)
    | split
    | with_reducible apply Keeps.core
    | with_reducible apply Keeps.mk')

theorem execMinu_keeps {a0 s u0 : State} {d a b ta tb} (e : execMinu d a b ta tb s = .next u0) (h : Keeps a0 s) : Keeps a0 u0 := by
  unfold execMinu at e
  try dsimp only at e
  repeat' (first
    | (refine State.alu2_keeps e ?_)
    | refine State.issueWith_keeps e ?_ ?_
    | refine Keeps.next e ?_
    | split at e
    | with_reducible exact Keeps.refl _
    | with_reducible assumption
    | intro _
    | with_reducible apply Keeps.foldl
    | (with_reducible apply Keeps.fst; case e => with_reducible assumption)
    | split
    | with_reducible apply Keeps.core
    | with_reducible apply Keeps.mk')

theorem execMaxu_keeps {a0 s u0 : State} {d a b ta tb} (e : execMaxu d a b ta tb s = .next u0) (h : Keeps a0 s) : Keeps a0 u0 := by
  unfold execMaxu at e
  try dsimp only at e
  repeat' (first
    | (refine State.alu2_keeps e ?_)
    | refine State.issueWith_keeps e ?_ ?_
    | refine Keeps.next e ?_
    | split at e
    | with_reducible exact Keeps.refl _
    | with_reducible assumption
    | intro _
    | with_reducible apply Keeps.foldl
    | (with_reducible apply Keeps.fst; case e => with_reducible assumption)
    | split
    | with_reducible apply Keeps.core
    | with_reducible apply Keeps.mk')

theorem execMul_keeps {a0 s u0 : State} {d a b ta tb} (e : execMul d a b ta tb s = .next u0) (h : Keeps a0 s) : Keeps a0 u0 := by
  unfold execMul at e
  try dsimp only at e
  repeat' (first
    | (refine State.alu2_keeps e ?_)
    | refine State.issueWith_keeps e ?_ ?_
    | refine Keeps.next e ?_
    | split at e
    | with_reducible exact Keeps.refl _
    | with_reducible assumption
    | intro _
    | with_reducible apply Keeps.foldl
    | (with_reducible apply Keeps.fst; case e => with_reducible assumption)
    | split
    | with_reducible apply Keeps.core
    | with_reducible apply Keeps.mk')

theorem execMulh_keeps {a0 s u0 : State} {d a b ta tb} (e : execMulh d a b ta tb s = .next u0) (h : Keeps a0 s) : Keeps a0 u0 := by
  unfold execMulh at e
  try dsimp only at e
  repeat' (first
    | (refine State.alu2_keeps e ?_)
    | refine State.issueWith_keeps e ?_ ?_
    | refine Keeps.next e ?_
    | split at e
    | with_reducible exact Keeps.refl _
    | with_reducible assumption
    | intro _
    | with_reducible apply Keeps.foldl
    | (with_reducible apply Keeps.fst; case e => with_reducible assumption)
    | split
    | with_reducible apply Keeps.core
    | with_reducible apply Keeps.mk')

theorem execMulhu_keeps {a0 s u0 : State} {d a b ta tb} (e : execMulhu d a b ta tb s = .next u0) (h : Keeps a0 s) : Keeps a0 u0 := by
  unfold execMulhu at e
  try dsimp only at e
  repeat' (first
    | (refine State.alu2_keeps e ?_)
    | refine State.issueWith_keeps e ?_ ?_
    | refine Keeps.next e ?_
    | split at e
    | with_reducible exact Keeps.refl _
    | with_reducible assumption
    | intro _
    | with_reducible apply Keeps.foldl
    | (with_reducible apply Keeps.fst; case e => with_reducible assumption)
    | split
    | with_reducible apply Keeps.core
    | with_reducible apply Keeps.mk')

theorem State.divide_keeps {a0 s u0 : State} {d a b ta tb fn f} (e : State.divide s d a b ta tb fn f = .next u0) (h : Keeps a0 s) : Keeps a0 u0 := by
  unfold State.divide at e
  try dsimp only at e
  repeat' (first
    | refine State.issueWith_keeps e ?_ ?_
    | refine Keeps.next e ?_
    | split at e
    | with_reducible exact Keeps.refl _
    | with_reducible assumption
    | intro _
    | with_reducible apply State.produce_keeps
    | with_reducible apply Keeps.foldl
    | (with_reducible apply Keeps.fst; case e => with_reducible assumption)
    | split
    | with_reducible apply Keeps.core
    | with_reducible apply Keeps.mk')

theorem execDiv_keeps {a0 s u0 : State} {d a b ta tb} (e : execDiv d a b ta tb s = .next u0) (h : Keeps a0 s) : Keeps a0 u0 := by
  unfold execDiv at e
  try dsimp only at e
  repeat' (first
    | (refine State.divide_keeps e ?_)
    | refine State.issueWith_keeps e ?_ ?_
    | refine Keeps.next e ?_
    | split at e
    | with_reducible exact Keeps.refl _
    | with_reducible assumption
    | intro _
    | with_reducible apply Keeps.foldl
    | (with_reducible apply Keeps.fst; case e => with_reducible assumption)
    | split
    | with_reducible apply Keeps.core
    | with_reducible apply Keeps.mk')

theorem execDivu_keeps {a0 s u0 : State} {d a b ta tb} (e : execDivu d a b ta tb s = .next u0) (h : Keeps a0 s) : Keeps a0 u0 := by
  unfold execDivu at e
  try dsimp only at e
  repeat' (first
    | (refine State.divide_keeps e ?_)
    | refine State.issueWith_keeps e ?_ ?_
    | refine Keeps.next e ?_
    | split at e
    | with_reducible exact Keeps.refl _
    | with_reducible assumption
    | intro _
    | with_reducible apply Keeps.foldl
    | (with_reducible apply Keeps.fst; case e => with_reducible assumption)
    | split
    | with_reducible apply Keeps.core
    | with_reducible apply Keeps.mk')

theorem execRem_keeps {a0 s u0 : State} {d a b ta tb} (e : execRem d a b ta tb s = .next u0) (h : Keeps a0 s) : Keeps a0 u0 := by
  unfold execRem at e
  try dsimp only at e
  repeat' (first
    | (refine State.divide_keeps e ?_)
    | refine State.issueWith_keeps e ?_ ?_
    | refine Keeps.next e ?_
    | split at e
    | with_reducible exact Keeps.refl _
    | with_reducible assumption
    | intro _
    | with_reducible apply Keeps.foldl
    | (with_reducible apply Keeps.fst; case e => with_reducible assumption)
    | split
    | with_reducible apply Keeps.core
    | with_reducible apply Keeps.mk')

theorem execRemu_keeps {a0 s u0 : State} {d a b ta tb} (e : execRemu d a b ta tb s = .next u0) (h : Keeps a0 s) : Keeps a0 u0 := by
  unfold execRemu at e
  try dsimp only at e
  repeat' (first
    | (refine State.divide_keeps e ?_)
    | refine State.issueWith_keeps e ?_ ?_
    | refine Keeps.next e ?_
    | split at e
    | with_reducible exact Keeps.refl _
    | with_reducible assumption
    | intro _
    | with_reducible apply Keeps.foldl
    | (with_reducible apply Keeps.fst; case e => with_reducible assumption)
    | split
    | with_reducible apply Keeps.core
    | with_reducible apply Keeps.mk')

theorem execClz_keeps {a0 s u0 : State} {d a ta} (e : execClz d a ta s = .next u0) (h : Keeps a0 s) : Keeps a0 u0 := by
  unfold execClz at e
  try dsimp only at e
  repeat' (first
    | (refine State.alu1_keeps e ?_)
    | refine State.issueWith_keeps e ?_ ?_
    | refine Keeps.next e ?_
    | split at e
    | with_reducible exact Keeps.refl _
    | with_reducible assumption
    | intro _
    | with_reducible apply Keeps.foldl
    | (with_reducible apply Keeps.fst; case e => with_reducible assumption)
    | split
    | with_reducible apply Keeps.core
    | with_reducible apply Keeps.mk')

theorem execCtz_keeps {a0 s u0 : State} {d a ta} (e : execCtz d a ta s = .next u0) (h : Keeps a0 s) : Keeps a0 u0 := by
  unfold execCtz at e
  try dsimp only at e
  repeat' (first
    | (refine State.alu1_keeps e ?_)
    | refine State.issueWith_keeps e ?_ ?_
    | refine Keeps.next e ?_
    | split at e
    | with_reducible exact Keeps.refl _
    | with_reducible assumption
    | intro _
    | with_reducible apply Keeps.foldl
    | (with_reducible apply Keeps.fst; case e => with_reducible assumption)
    | split
    | with_reducible apply Keeps.core
    | with_reducible apply Keeps.mk')

theorem execPopc_keeps {a0 s u0 : State} {d a ta} (e : execPopc d a ta s = .next u0) (h : Keeps a0 s) : Keeps a0 u0 := by
  unfold execPopc at e
  try dsimp only at e
  repeat' (first
    | (refine State.alu1_keeps e ?_)
    | refine State.issueWith_keeps e ?_ ?_
    | refine Keeps.next e ?_
    | split at e
    | with_reducible exact Keeps.refl _
    | with_reducible assumption
    | intro _
    | with_reducible apply Keeps.foldl
    | (with_reducible apply Keeps.fst; case e => with_reducible assumption)
    | split
    | with_reducible apply Keeps.core
    | with_reducible apply Keeps.mk')

theorem execBrev_keeps {a0 s u0 : State} {d a ta} (e : execBrev d a ta s = .next u0) (h : Keeps a0 s) : Keeps a0 u0 := by
  unfold execBrev at e
  try dsimp only at e
  repeat' (first
    | (refine State.alu1_keeps e ?_)
    | refine State.issueWith_keeps e ?_ ?_
    | refine Keeps.next e ?_
    | split at e
    | with_reducible exact Keeps.refl _
    | with_reducible assumption
    | intro _
    | with_reducible apply Keeps.foldl
    | (with_reducible apply Keeps.fst; case e => with_reducible assumption)
    | split
    | with_reducible apply Keeps.core
    | with_reducible apply Keeps.mk')

theorem execSextb_keeps {a0 s u0 : State} {d a ta} (e : execSextb d a ta s = .next u0) (h : Keeps a0 s) : Keeps a0 u0 := by
  unfold execSextb at e
  try dsimp only at e
  repeat' (first
    | (refine State.alu1_keeps e ?_)
    | refine State.issueWith_keeps e ?_ ?_
    | refine Keeps.next e ?_
    | split at e
    | with_reducible exact Keeps.refl _
    | with_reducible assumption
    | intro _
    | with_reducible apply Keeps.foldl
    | (with_reducible apply Keeps.fst; case e => with_reducible assumption)
    | split
    | with_reducible apply Keeps.core
    | with_reducible apply Keeps.mk')

theorem execSexth_keeps {a0 s u0 : State} {d a ta} (e : execSexth d a ta s = .next u0) (h : Keeps a0 s) : Keeps a0 u0 := by
  unfold execSexth at e
  try dsimp only at e
  repeat' (first
    | (refine State.alu1_keeps e ?_)
    | refine State.issueWith_keeps e ?_ ?_
    | refine Keeps.next e ?_
    | split at e
    | with_reducible exact Keeps.refl _
    | with_reducible assumption
    | intro _
    | with_reducible apply Keeps.foldl
    | (with_reducible apply Keeps.fst; case e => with_reducible assumption)
    | split
    | with_reducible apply Keeps.core
    | with_reducible apply Keeps.mk')

theorem execSextw_keeps {a0 s u0 : State} {d a ta} (e : execSextw d a ta s = .next u0) (h : Keeps a0 s) : Keeps a0 u0 := by
  unfold execSextw at e
  try dsimp only at e
  repeat' (first
    | (refine State.alu1_keeps e ?_)
    | refine State.issueWith_keeps e ?_ ?_
    | refine Keeps.next e ?_
    | split at e
    | with_reducible exact Keeps.refl _
    | with_reducible assumption
    | intro _
    | with_reducible apply Keeps.foldl
    | (with_reducible apply Keeps.fst; case e => with_reducible assumption)
    | split
    | with_reducible apply Keeps.core
    | with_reducible apply Keeps.mk')

theorem execZextb_keeps {a0 s u0 : State} {d a ta} (e : execZextb d a ta s = .next u0) (h : Keeps a0 s) : Keeps a0 u0 := by
  unfold execZextb at e
  try dsimp only at e
  repeat' (first
    | (refine State.alu1_keeps e ?_)
    | refine State.issueWith_keeps e ?_ ?_
    | refine Keeps.next e ?_
    | split at e
    | with_reducible exact Keeps.refl _
    | with_reducible assumption
    | intro _
    | with_reducible apply Keeps.foldl
    | (with_reducible apply Keeps.fst; case e => with_reducible assumption)
    | split
    | with_reducible apply Keeps.core
    | with_reducible apply Keeps.mk')

theorem execZexth_keeps {a0 s u0 : State} {d a ta} (e : execZexth d a ta s = .next u0) (h : Keeps a0 s) : Keeps a0 u0 := by
  unfold execZexth at e
  try dsimp only at e
  repeat' (first
    | (refine State.alu1_keeps e ?_)
    | refine State.issueWith_keeps e ?_ ?_
    | refine Keeps.next e ?_
    | split at e
    | with_reducible exact Keeps.refl _
    | with_reducible assumption
    | intro _
    | with_reducible apply Keeps.foldl
    | (with_reducible apply Keeps.fst; case e => with_reducible assumption)
    | split
    | with_reducible apply Keeps.core
    | with_reducible apply Keeps.mk')

theorem execZextw_keeps {a0 s u0 : State} {d a ta} (e : execZextw d a ta s = .next u0) (h : Keeps a0 s) : Keeps a0 u0 := by
  unfold execZextw at e
  try dsimp only at e
  repeat' (first
    | (refine State.alu1_keeps e ?_)
    | refine State.issueWith_keeps e ?_ ?_
    | refine Keeps.next e ?_
    | split at e
    | with_reducible exact Keeps.refl _
    | with_reducible assumption
    | intro _
    | with_reducible apply Keeps.foldl
    | (with_reducible apply Keeps.fst; case e => with_reducible assumption)
    | split
    | with_reducible apply Keeps.core
    | with_reducible apply Keeps.mk')

theorem execMov_keeps {a0 s u0 : State} {d a ta} (e : execMov d a ta s = .next u0) (h : Keeps a0 s) : Keeps a0 u0 := by
  unfold execMov at e
  try dsimp only at e
  repeat' (first
    | (refine State.alu1_keeps e ?_)
    | refine State.issueWith_keeps e ?_ ?_
    | refine Keeps.next e ?_
    | split at e
    | with_reducible exact Keeps.refl _
    | with_reducible assumption
    | intro _
    | with_reducible apply Keeps.foldl
    | (with_reducible apply Keeps.fst; case e => with_reducible assumption)
    | split
    | with_reducible apply Keeps.core
    | with_reducible apply Keeps.mk')

theorem execAddi_keeps {a0 s u0 : State} {d a ta imm} (e : execAddi d a ta imm s = .next u0) (h : Keeps a0 s) : Keeps a0 u0 := by
  unfold execAddi at e
  try dsimp only at e
  repeat' (first
    | (refine State.alu1_keeps e ?_)
    | refine State.issueWith_keeps e ?_ ?_
    | refine Keeps.next e ?_
    | split at e
    | with_reducible exact Keeps.refl _
    | with_reducible assumption
    | intro _
    | with_reducible apply Keeps.foldl
    | (with_reducible apply Keeps.fst; case e => with_reducible assumption)
    | split
    | with_reducible apply Keeps.core
    | with_reducible apply Keeps.mk')

theorem execAndi_keeps {a0 s u0 : State} {d a ta imm} (e : execAndi d a ta imm s = .next u0) (h : Keeps a0 s) : Keeps a0 u0 := by
  unfold execAndi at e
  try dsimp only at e
  repeat' (first
    | (refine State.alu1_keeps e ?_)
    | refine State.issueWith_keeps e ?_ ?_
    | refine Keeps.next e ?_
    | split at e
    | with_reducible exact Keeps.refl _
    | with_reducible assumption
    | intro _
    | with_reducible apply Keeps.foldl
    | (with_reducible apply Keeps.fst; case e => with_reducible assumption)
    | split
    | with_reducible apply Keeps.core
    | with_reducible apply Keeps.mk')

theorem execOri_keeps {a0 s u0 : State} {d a ta imm} (e : execOri d a ta imm s = .next u0) (h : Keeps a0 s) : Keeps a0 u0 := by
  unfold execOri at e
  try dsimp only at e
  repeat' (first
    | (refine State.alu1_keeps e ?_)
    | refine State.issueWith_keeps e ?_ ?_
    | refine Keeps.next e ?_
    | split at e
    | with_reducible exact Keeps.refl _
    | with_reducible assumption
    | intro _
    | with_reducible apply Keeps.foldl
    | (with_reducible apply Keeps.fst; case e => with_reducible assumption)
    | split
    | with_reducible apply Keeps.core
    | with_reducible apply Keeps.mk')

theorem execXori_keeps {a0 s u0 : State} {d a ta imm} (e : execXori d a ta imm s = .next u0) (h : Keeps a0 s) : Keeps a0 u0 := by
  unfold execXori at e
  try dsimp only at e
  repeat' (first
    | (refine State.alu1_keeps e ?_)
    | refine State.issueWith_keeps e ?_ ?_
    | refine Keeps.next e ?_
    | split at e
    | with_reducible exact Keeps.refl _
    | with_reducible assumption
    | intro _
    | with_reducible apply Keeps.foldl
    | (with_reducible apply Keeps.fst; case e => with_reducible assumption)
    | split
    | with_reducible apply Keeps.core
    | with_reducible apply Keeps.mk')

theorem execShli_keeps {a0 s u0 : State} {d a ta sh} (e : execShli d a ta sh s = .next u0) (h : Keeps a0 s) : Keeps a0 u0 := by
  unfold execShli at e
  try dsimp only at e
  repeat' (first
    | (refine State.alu1_keeps e ?_)
    | refine State.issueWith_keeps e ?_ ?_
    | refine Keeps.next e ?_
    | split at e
    | with_reducible exact Keeps.refl _
    | with_reducible assumption
    | intro _
    | with_reducible apply Keeps.foldl
    | (with_reducible apply Keeps.fst; case e => with_reducible assumption)
    | split
    | with_reducible apply Keeps.core
    | with_reducible apply Keeps.mk')

theorem execShri_keeps {a0 s u0 : State} {d a ta sh} (e : execShri d a ta sh s = .next u0) (h : Keeps a0 s) : Keeps a0 u0 := by
  unfold execShri at e
  try dsimp only at e
  repeat' (first
    | (refine State.alu1_keeps e ?_)
    | refine State.issueWith_keeps e ?_ ?_
    | refine Keeps.next e ?_
    | split at e
    | with_reducible exact Keeps.refl _
    | with_reducible assumption
    | intro _
    | with_reducible apply Keeps.foldl
    | (with_reducible apply Keeps.fst; case e => with_reducible assumption)
    | split
    | with_reducible apply Keeps.core
    | with_reducible apply Keeps.mk')

theorem execSrai_keeps {a0 s u0 : State} {d a ta sh} (e : execSrai d a ta sh s = .next u0) (h : Keeps a0 s) : Keeps a0 u0 := by
  unfold execSrai at e
  try dsimp only at e
  repeat' (first
    | (refine State.alu1_keeps e ?_)
    | refine State.issueWith_keeps e ?_ ?_
    | refine Keeps.next e ?_
    | split at e
    | with_reducible exact Keeps.refl _
    | with_reducible assumption
    | intro _
    | with_reducible apply Keeps.foldl
    | (with_reducible apply Keeps.fst; case e => with_reducible assumption)
    | split
    | with_reducible apply Keeps.core
    | with_reducible apply Keeps.mk')

theorem execLi_keeps {a0 s u0 : State} {d imm} (e : execLi d imm s = .next u0) (h : Keeps a0 s) : Keeps a0 u0 := by
  unfold execLi at e
  try dsimp only at e
  repeat' (first
    | refine State.issueWith_keeps e ?_ ?_
    | refine Keeps.next e ?_
    | split at e
    | with_reducible exact Keeps.refl _
    | with_reducible assumption
    | intro _
    | with_reducible apply State.send_keeps
    | with_reducible apply Keeps.foldl
    | (with_reducible apply Keeps.fst; case e => with_reducible assumption)
    | split
    | with_reducible apply Keeps.core
    | with_reducible apply Keeps.mk')

theorem execLiu_keeps {a0 s u0 : State} {d imm} (e : execLiu d imm s = .next u0) (h : Keeps a0 s) : Keeps a0 u0 := by
  unfold execLiu at e
  try dsimp only at e
  repeat' (first
    | refine State.issueWith_keeps e ?_ ?_
    | refine Keeps.next e ?_
    | split at e
    | with_reducible exact Keeps.refl _
    | with_reducible assumption
    | intro _
    | with_reducible apply State.send_keeps
    | with_reducible apply Keeps.foldl
    | (with_reducible apply Keeps.fst; case e => with_reducible assumption)
    | split
    | with_reducible apply Keeps.core
    | with_reducible apply Keeps.mk')

theorem execBfx_keeps {a0 s u0 : State} {d a ta p wm1} (e : execBfx d a ta p wm1 s = .next u0) (h : Keeps a0 s) : Keeps a0 u0 := by
  unfold execBfx at e
  try dsimp only at e
  repeat' (first
    | (refine State.alu1_keeps e ?_)
    | refine State.issueWith_keeps e ?_ ?_
    | refine Keeps.next e ?_
    | split at e
    | with_reducible exact Keeps.refl _
    | with_reducible assumption
    | intro _
    | with_reducible apply Keeps.foldl
    | (with_reducible apply Keeps.fst; case e => with_reducible assumption)
    | split
    | with_reducible apply Keeps.core
    | with_reducible apply Keeps.mk')

theorem execBfi_keeps {a0 s u0 : State} {d a ta p wm1} (e : execBfi d a ta p wm1 s = .next u0) (h : Keeps a0 s) : Keeps a0 u0 := by
  unfold execBfi at e
  try dsimp only at e
  repeat' (first
    | refine State.issueWith_keeps e ?_ ?_
    | refine Keeps.next e ?_
    | split at e
    | with_reducible exact Keeps.refl _
    | with_reducible assumption
    | intro _
    | with_reducible apply State.send_keeps
    | with_reducible apply Keeps.foldl
    | (with_reducible apply Keeps.fst; case e => with_reducible assumption)
    | split
    | with_reducible apply Keeps.core
    | with_reducible apply Keeps.mk')

theorem execFsh_keeps {a0 s u0 : State} {d a b ta tb c} (e : execFsh d a b ta tb c s = .next u0) (h : Keeps a0 s) : Keeps a0 u0 := by
  unfold execFsh at e
  try dsimp only at e
  repeat' (first
    | refine State.issueWith_keeps e ?_ ?_
    | refine Keeps.next e ?_
    | split at e
    | with_reducible exact Keeps.refl _
    | with_reducible assumption
    | intro _
    | with_reducible apply State.send_keeps
    | with_reducible apply Keeps.foldl
    | (with_reducible apply Keeps.fst; case e => with_reducible assumption)
    | split
    | with_reducible apply Keeps.core
    | with_reducible apply Keeps.mk')

theorem execFshi_keeps {a0 s u0 : State} {d a b ta tb n} (e : execFshi d a b ta tb n s = .next u0) (h : Keeps a0 s) : Keeps a0 u0 := by
  unfold execFshi at e
  try dsimp only at e
  repeat' (first
    | (refine State.alu2_keeps e ?_)
    | refine State.issueWith_keeps e ?_ ?_
    | refine Keeps.next e ?_
    | split at e
    | with_reducible exact Keeps.refl _
    | with_reducible assumption
    | intro _
    | with_reducible apply Keeps.foldl
    | (with_reducible apply Keeps.fst; case e => with_reducible assumption)
    | split
    | with_reducible apply Keeps.core
    | with_reducible apply Keeps.mk')

theorem State.sendP_keeps {a0 s : State} {lat p v flags} (h : Keeps a0 s) : Keeps a0 (State.sendP s lat p v flags) := by
  unfold State.sendP
  try dsimp only
  repeat' (first
    | with_reducible exact Keeps.refl _
    | with_reducible assumption
    | intro _
    | with_reducible apply State.send_keeps
    | with_reducible apply Keeps.foldl
    | (with_reducible apply Keeps.fst; case e => with_reducible assumption)
    | split
    | with_reducible apply Keeps.core
    | with_reducible apply Keeps.mk')

theorem execScmp_keeps {a0 s u0 : State} {p a b ta tb cc} (e : execScmp p a b ta tb cc s = .next u0) (h : Keeps a0 s) : Keeps a0 u0 := by
  unfold execScmp at e
  try dsimp only at e
  repeat' (first
    | refine State.issueWith_keeps e ?_ ?_
    | refine Keeps.next e ?_
    | split at e
    | with_reducible exact Keeps.refl _
    | with_reducible assumption
    | intro _
    | with_reducible apply State.sendP_keeps
    | with_reducible apply Keeps.foldl
    | (with_reducible apply Keeps.fst; case e => with_reducible assumption)
    | split
    | with_reducible apply Keeps.core
    | with_reducible apply Keeps.mk')

theorem execScmpi_keeps {a0 s u0 : State} {p a ta cc imm} (e : execScmpi p a ta cc imm s = .next u0) (h : Keeps a0 s) : Keeps a0 u0 := by
  unfold execScmpi at e
  try dsimp only at e
  repeat' (first
    | refine State.issueWith_keeps e ?_ ?_
    | refine Keeps.next e ?_
    | split at e
    | with_reducible exact Keeps.refl _
    | with_reducible assumption
    | intro _
    | with_reducible apply State.sendP_keeps
    | with_reducible apply Keeps.foldl
    | (with_reducible apply Keeps.fst; case e => with_reducible assumption)
    | split
    | with_reducible apply Keeps.core
    | with_reducible apply Keeps.mk')

theorem execPlog_keeps {a0 s u0 : State} {p pa pb f} (e : execPlog p pa pb f s = .next u0) (h : Keeps a0 s) : Keeps a0 u0 := by
  unfold execPlog at e
  try dsimp only at e
  repeat' (first
    | refine State.issueWith_keeps e ?_ ?_
    | refine Keeps.next e ?_
    | split at e
    | with_reducible exact Keeps.refl _
    | with_reducible assumption
    | intro _
    | with_reducible apply State.sendP_keeps
    | with_reducible apply Keeps.foldl
    | (with_reducible apply Keeps.fst; case e => with_reducible assumption)
    | split
    | with_reducible apply Keeps.core
    | with_reducible apply Keeps.mk')

theorem execSel_keeps {a0 s u0 : State} {d a b ta tb p} (e : execSel d a b ta tb p s = .next u0) (h : Keeps a0 s) : Keeps a0 u0 := by
  unfold execSel at e
  try dsimp only at e
  repeat' (first
    | refine State.issueWith_keeps e ?_ ?_
    | refine Keeps.next e ?_
    | split at e
    | with_reducible exact Keeps.refl _
    | with_reducible assumption
    | intro _
    | with_reducible apply State.send_keeps
    | with_reducible apply Keeps.foldl
    | (with_reducible apply Keeps.fst; case e => with_reducible assumption)
    | split
    | with_reducible apply Keeps.core
    | with_reducible apply Keeps.mk')

theorem State.sendA_keeps {a0 s u0 : State} {v d f} (e : State.sendA s v d f = .next u0) (h : Keeps a0 s) : Keeps a0 u0 := by
  unfold State.sendA at e
  try dsimp only at e
  repeat' (first
    | refine State.issueWith_keeps e ?_ ?_
    | refine Keeps.next e ?_
    | split at e
    | with_reducible exact Keeps.refl _
    | with_reducible assumption
    | intro _
    | with_reducible apply State.send_keeps
    | with_reducible apply Keeps.foldl
    | (with_reducible apply Keeps.fst; case e => with_reducible assumption)
    | split
    | with_reducible apply Keeps.core
    | with_reducible apply Keeps.mk')

theorem execAmov_keeps {a0 s u0 : State} {d a ta} (e : execAmov d a ta s = .next u0) (h : Keeps a0 s) : Keeps a0 u0 := by
  unfold execAmov at e
  try dsimp only at e
  repeat' (first
    | (refine State.sendA_keeps e ?_)
    | refine State.issueWith_keeps e ?_ ?_
    | refine Keeps.next e ?_
    | split at e
    | with_reducible exact Keeps.refl _
    | with_reducible assumption
    | intro _
    | with_reducible apply Keeps.foldl
    | (with_reducible apply Keeps.fst; case e => with_reducible assumption)
    | split
    | with_reducible apply Keeps.core
    | with_reducible apply Keeps.mk')

theorem execAadd_keeps {a0 s u0 : State} {d a b ta tb} (e : execAadd d a b ta tb s = .next u0) (h : Keeps a0 s) : Keeps a0 u0 := by
  unfold execAadd at e
  try dsimp only at e
  repeat' (first
    | (refine State.sendA_keeps e ?_)
    | refine State.issueWith_keeps e ?_ ?_
    | refine Keeps.next e ?_
    | split at e
    | with_reducible exact Keeps.refl _
    | with_reducible assumption
    | intro _
    | with_reducible apply Keeps.foldl
    | (with_reducible apply Keeps.fst; case e => with_reducible assumption)
    | split
    | with_reducible apply Keeps.core
    | with_reducible apply Keeps.mk')

theorem execAaddi_keeps {a0 s u0 : State} {d a ta imm} (e : execAaddi d a ta imm s = .next u0) (h : Keeps a0 s) : Keeps a0 u0 := by
  unfold execAaddi at e
  try dsimp only at e
  repeat' (first
    | (refine State.sendA_keeps e ?_)
    | refine State.issueWith_keeps e ?_ ?_
    | refine Keeps.next e ?_
    | split at e
    | with_reducible exact Keeps.refl _
    | with_reducible assumption
    | intro _
    | with_reducible apply Keeps.foldl
    | (with_reducible apply Keeps.fst; case e => with_reducible assumption)
    | split
    | with_reducible apply Keeps.core
    | with_reducible apply Keeps.mk')

theorem execAli_keeps {a0 s u0 : State} {d imm} (e : execAli d imm s = .next u0) (h : Keeps a0 s) : Keeps a0 u0 := by
  unfold execAli at e
  try dsimp only at e
  repeat' (first
    | (refine State.sendA_keeps e ?_)
    | refine State.issueWith_keeps e ?_ ?_
    | refine Keeps.next e ?_
    | split at e
    | with_reducible exact Keeps.refl _
    | with_reducible assumption
    | intro _
    | with_reducible apply Keeps.foldl
    | (with_reducible apply Keeps.fst; case e => with_reducible assumption)
    | split
    | with_reducible apply Keeps.core
    | with_reducible apply Keeps.mk')

theorem execAliu_keeps {a0 s u0 : State} {d imm} (e : execAliu d imm s = .next u0) (h : Keeps a0 s) : Keeps a0 u0 := by
  unfold execAliu at e
  try dsimp only at e
  repeat' (first
    | (refine State.sendA_keeps e ?_)
    | refine State.issueWith_keeps e ?_ ?_
    | refine Keeps.next e ?_
    | split at e
    | with_reducible exact Keeps.refl _
    | with_reducible assumption
    | intro _
    | with_reducible apply Keeps.foldl
    | (with_reducible apply Keeps.fst; case e => with_reducible assumption)
    | split
    | with_reducible apply Keeps.core
    | with_reducible apply Keeps.mk')

theorem execAstep_keeps {a0 s u0 : State} {d} (e : execAstep d s = .next u0) (h : Keeps a0 s) : Keeps a0 u0 := by
  unfold execAstep at e
  try dsimp only at e
  repeat' (first
    | (refine State.sendA_keeps e ?_)
    | refine State.issueWith_keeps e ?_ ?_
    | refine Keeps.next e ?_
    | split at e
    | with_reducible exact Keeps.refl _
    | with_reducible assumption
    | intro _
    | with_reducible apply Keeps.foldl
    | (with_reducible apply Keeps.fst; case e => with_reducible assumption)
    | split
    | with_reducible apply Keeps.core
    | with_reducible apply Keeps.mk')

theorem execAmode_keeps {a0 s u0 : State} {a mode dk param} (e : execAmode a mode dk param s = .next u0) (h : Keeps a0 s) : Keeps a0 u0 := by
  unfold execAmode at e
  try dsimp only at e
  repeat' (first
    | refine State.issueWith_keeps e ?_ ?_
    | refine Keeps.next e ?_
    | split at e
    | with_reducible exact Keeps.refl _
    | with_reducible assumption
    | intro _
    | with_reducible apply State.send_keeps
    | with_reducible apply Keeps.foldl
    | (with_reducible apply Keeps.fst; case e => with_reducible assumption)
    | split
    | with_reducible apply Keeps.core
    | with_reducible apply Keeps.mk')

theorem execDset_keeps {a0 s u0 : State} {dk imm} (e : execDset dk imm s = .next u0) (h : Keeps a0 s) : Keeps a0 u0 := by
  unfold execDset at e
  try dsimp only at e
  repeat' (first
    | refine State.issueWith_keeps e ?_ ?_
    | refine Keeps.next e ?_
    | split at e
    | with_reducible exact Keeps.refl _
    | with_reducible assumption
    | intro _
    | with_reducible apply State.send_keeps
    | with_reducible apply Keeps.foldl
    | (with_reducible apply Keeps.fst; case e => with_reducible assumption)
    | split
    | with_reducible apply Keeps.core
    | with_reducible apply Keeps.mk')

theorem execDmov_keeps {a0 s u0 : State} {dk a ta} (e : execDmov dk a ta s = .next u0) (h : Keeps a0 s) : Keeps a0 u0 := by
  unfold execDmov at e
  try dsimp only at e
  repeat' (first
    | refine State.issueWith_keeps e ?_ ?_
    | refine Keeps.next e ?_
    | split at e
    | with_reducible exact Keeps.refl _
    | with_reducible assumption
    | intro _
    | with_reducible apply State.send_keeps
    | with_reducible apply Keeps.foldl
    | (with_reducible apply Keeps.fst; case e => with_reducible assumption)
    | split
    | with_reducible apply Keeps.core
    | with_reducible apply Keeps.mk')

theorem execWsetb_keeps {a0 s u0 : State} {wk a ta} (e : execWsetb wk a ta s = .next u0) (h : Keeps a0 s) : Keeps a0 u0 := by
  unfold execWsetb at e
  try dsimp only at e
  repeat' (first
    | refine State.issueWith_keeps e ?_ ?_
    | refine Keeps.next e ?_
    | split at e
    | with_reducible exact Keeps.refl _
    | with_reducible assumption
    | intro _
    | with_reducible apply State.send_keeps
    | with_reducible apply Keeps.foldl
    | (with_reducible apply Keeps.fst; case e => with_reducible assumption)
    | split
    | with_reducible apply Keeps.core
    | with_reducible apply Keeps.mk')

theorem execWsetl_keeps {a0 s u0 : State} {wk a ta} (e : execWsetl wk a ta s = .next u0) (h : Keeps a0 s) : Keeps a0 u0 := by
  unfold execWsetl at e
  try dsimp only at e
  repeat' (first
    | refine State.issueWith_keeps e ?_ ?_
    | refine Keeps.next e ?_
    | split at e
    | with_reducible exact Keeps.refl _
    | with_reducible assumption
    | intro _
    | with_reducible apply State.send_keeps
    | with_reducible apply Keeps.foldl
    | (with_reducible apply Keeps.fst; case e => with_reducible assumption)
    | split
    | with_reducible apply Keeps.core
    | with_reducible apply Keeps.mk')

theorem execArd_keeps {a0 s u0 : State} {d a ta} (e : execArd d a ta s = .next u0) (h : Keeps a0 s) : Keeps a0 u0 := by
  unfold execArd at e
  try dsimp only at e
  repeat' (first
    | refine State.issueWith_keeps e ?_ ?_
    | refine Keeps.next e ?_
    | split at e
    | with_reducible exact Keeps.refl _
    | with_reducible assumption
    | intro _
    | with_reducible apply State.send_keeps
    | with_reducible apply Keeps.foldl
    | (with_reducible apply Keeps.fst; case e => with_reducible assumption)
    | split
    | with_reducible apply Keeps.core
    | with_reducible apply Keeps.mk')

theorem State.sendV_keeps {a0 s : State} {lat d w m r} (h : Keeps a0 s) : Keeps a0 (State.sendV s lat d w m r) := by
  unfold State.sendV
  try dsimp only
  repeat' (first
    | with_reducible exact Keeps.refl _
    | with_reducible assumption
    | intro _
    | with_reducible apply State.send_keeps
    | with_reducible apply Keeps.foldl
    | (with_reducible apply Keeps.fst; case e => with_reducible assumption)
    | split
    | with_reducible apply Keeps.core
    | with_reducible apply Keeps.mk')

end Sys2Proof.Machine
end

