-- ==== Sys2Proof/Laws/KeepsEngine.lean ====
section
/-! SUPPORT. The engine commands, their runs, their retirement, and the synchronization meanings keep them. -/

namespace Sys2Proof.Machine

open Sys2Proof

set_option linter.all false

theorem State.vec_keeps {a0 s u0 : State} {lat d w m f} (e : State.vec s lat d w m f = .next u0) (h : Keeps a0 s) : Keeps a0 u0 := by
  unfold State.vec at e
  try dsimp only at e
  repeat' (first
    | refine State.issueWith_keeps e ?_ ?_
    | refine Keeps.next e ?_
    | split at e
    | with_reducible exact Keeps.refl _
    | with_reducible assumption
    | intro _
    | with_reducible apply State.sendV_keeps
    | with_reducible apply Keeps.foldl
    | (with_reducible apply Keeps.fst; case e => with_reducible assumption)
    | split
    | with_reducible apply Keeps.core
    | with_reducible apply Keeps.mk')

theorem State.vec1_keeps {a0 s u0 : State} {lat d a w m f} (e : State.vec1 s lat d a w m f = .next u0) (h : Keeps a0 s) : Keeps a0 u0 := by
  unfold State.vec1 at e
  try dsimp only at e
  repeat' (first
    | (refine State.vec_keeps e ?_)
    | refine State.issueWith_keeps e ?_ ?_
    | refine Keeps.next e ?_
    | split at e
    | with_reducible exact Keeps.refl _
    | with_reducible assumption
    | intro _
    | with_reducible apply Keeps.foldl
    | (with_reducible apply Keeps.fst; case e => with_reducible assumption)
    | split
    | with_reducible apply Keeps.core
    | with_reducible apply Keeps.mk')

theorem State.vec2_keeps {a0 s u0 : State} {lat d a b w m f} (e : State.vec2 s lat d a b w m f = .next u0) (h : Keeps a0 s) : Keeps a0 u0 := by
  unfold State.vec2 at e
  try dsimp only at e
  repeat' (first
    | (refine State.vec_keeps e ?_)
    | refine State.issueWith_keeps e ?_ ?_
    | refine Keeps.next e ?_
    | split at e
    | with_reducible exact Keeps.refl _
    | with_reducible assumption
    | intro _
    | with_reducible apply Keeps.foldl
    | (with_reducible apply Keeps.fst; case e => with_reducible assumption)
    | split
    | with_reducible apply Keeps.core
    | with_reducible apply Keeps.mk')

theorem State.vecF_keeps {a0 s u0 : State} {d a b ty m int flt} (e : State.vecF s d a b ty m int flt = .next u0) (h : Keeps a0 s) : Keeps a0 u0 := by
  unfold State.vecF at e
  try dsimp only at e
  repeat' (first
    | (refine State.vec2_keeps e ?_)
    | refine State.issueWith_keeps e ?_ ?_
    | refine Keeps.next e ?_
    | split at e
    | with_reducible exact Keeps.refl _
    | with_reducible assumption
    | intro _
    | with_reducible apply Keeps.foldl
    | (with_reducible apply Keeps.fst; case e => with_reducible assumption)
    | split
    | with_reducible apply Keeps.core
    | with_reducible apply Keeps.mk')

theorem execVadd_keeps {a0 s u0 : State} {d a b ty m} (e : execVadd d a b ty m s = .next u0) (h : Keeps a0 s) : Keeps a0 u0 := by
  unfold execVadd at e
  try dsimp only at e
  repeat' (first
    | (refine State.vecF_keeps e ?_)
    | refine State.issueWith_keeps e ?_ ?_
    | refine Keeps.next e ?_
    | split at e
    | with_reducible exact Keeps.refl _
    | with_reducible assumption
    | intro _
    | with_reducible apply Keeps.foldl
    | (with_reducible apply Keeps.fst; case e => with_reducible assumption)
    | split
    | with_reducible apply Keeps.core
    | with_reducible apply Keeps.mk')

theorem execVsub_keeps {a0 s u0 : State} {d a b ty m} (e : execVsub d a b ty m s = .next u0) (h : Keeps a0 s) : Keeps a0 u0 := by
  unfold execVsub at e
  try dsimp only at e
  repeat' (first
    | (refine State.vecF_keeps e ?_)
    | refine State.issueWith_keeps e ?_ ?_
    | refine Keeps.next e ?_
    | split at e
    | with_reducible exact Keeps.refl _
    | with_reducible assumption
    | intro _
    | with_reducible apply Keeps.foldl
    | (with_reducible apply Keeps.fst; case e => with_reducible assumption)
    | split
    | with_reducible apply Keeps.core
    | with_reducible apply Keeps.mk')

theorem execVmul_keeps {a0 s u0 : State} {d a b ty m} (e : execVmul d a b ty m s = .next u0) (h : Keeps a0 s) : Keeps a0 u0 := by
  unfold execVmul at e
  try dsimp only at e
  repeat' (first
    | (refine State.vecF_keeps e ?_)
    | refine State.issueWith_keeps e ?_ ?_
    | refine Keeps.next e ?_
    | split at e
    | with_reducible exact Keeps.refl _
    | with_reducible assumption
    | intro _
    | with_reducible apply Keeps.foldl
    | (with_reducible apply Keeps.fst; case e => with_reducible assumption)
    | split
    | with_reducible apply Keeps.core
    | with_reducible apply Keeps.mk')

theorem execVfma_keeps {a0 s u0 : State} {d a b ty m} (e : execVfma d a b ty m s = .next u0) (h : Keeps a0 s) : Keeps a0 u0 := by
  unfold execVfma at e
  try dsimp only at e
  repeat' (first
    | (refine State.vec_keeps e ?_)
    | refine State.issueWith_keeps e ?_ ?_
    | refine Keeps.next e ?_
    | split at e
    | with_reducible exact Keeps.refl _
    | with_reducible assumption
    | intro _
    | with_reducible apply Keeps.foldl
    | (with_reducible apply Keeps.fst; case e => with_reducible assumption)
    | split
    | with_reducible apply Keeps.core
    | with_reducible apply Keeps.mk')

theorem execVfms_keeps {a0 s u0 : State} {d a b ty m} (e : execVfms d a b ty m s = .next u0) (h : Keeps a0 s) : Keeps a0 u0 := by
  unfold execVfms at e
  try dsimp only at e
  repeat' (first
    | (refine State.vec_keeps e ?_)
    | refine State.issueWith_keeps e ?_ ?_
    | refine Keeps.next e ?_
    | split at e
    | with_reducible exact Keeps.refl _
    | with_reducible assumption
    | intro _
    | with_reducible apply Keeps.foldl
    | (with_reducible apply Keeps.fst; case e => with_reducible assumption)
    | split
    | with_reducible apply Keeps.core
    | with_reducible apply Keeps.mk')

theorem execVmin_keeps {a0 s u0 : State} {d a b ty m} (e : execVmin d a b ty m s = .next u0) (h : Keeps a0 s) : Keeps a0 u0 := by
  unfold execVmin at e
  try dsimp only at e
  repeat' (first
    | (refine State.vecF_keeps e ?_)
    | refine State.issueWith_keeps e ?_ ?_
    | refine Keeps.next e ?_
    | split at e
    | with_reducible exact Keeps.refl _
    | with_reducible assumption
    | intro _
    | with_reducible apply Keeps.foldl
    | (with_reducible apply Keeps.fst; case e => with_reducible assumption)
    | split
    | with_reducible apply Keeps.core
    | with_reducible apply Keeps.mk')

theorem execVmax_keeps {a0 s u0 : State} {d a b ty m} (e : execVmax d a b ty m s = .next u0) (h : Keeps a0 s) : Keeps a0 u0 := by
  unfold execVmax at e
  try dsimp only at e
  repeat' (first
    | (refine State.vecF_keeps e ?_)
    | refine State.issueWith_keeps e ?_ ?_
    | refine Keeps.next e ?_
    | split at e
    | with_reducible exact Keeps.refl _
    | with_reducible assumption
    | intro _
    | with_reducible apply Keeps.foldl
    | (with_reducible apply Keeps.fst; case e => with_reducible assumption)
    | split
    | with_reducible apply Keeps.core
    | with_reducible apply Keeps.mk')

theorem execVminn_keeps {a0 s u0 : State} {d a b ty m} (e : execVminn d a b ty m s = .next u0) (h : Keeps a0 s) : Keeps a0 u0 := by
  unfold execVminn at e
  try dsimp only at e
  repeat' (first
    | (refine State.vec2_keeps e ?_)
    | refine State.issueWith_keeps e ?_ ?_
    | refine Keeps.next e ?_
    | split at e
    | with_reducible exact Keeps.refl _
    | with_reducible assumption
    | intro _
    | with_reducible apply Keeps.foldl
    | (with_reducible apply Keeps.fst; case e => with_reducible assumption)
    | split
    | with_reducible apply Keeps.core
    | with_reducible apply Keeps.mk')

theorem execVmaxn_keeps {a0 s u0 : State} {d a b ty m} (e : execVmaxn d a b ty m s = .next u0) (h : Keeps a0 s) : Keeps a0 u0 := by
  unfold execVmaxn at e
  try dsimp only at e
  repeat' (first
    | (refine State.vec2_keeps e ?_)
    | refine State.issueWith_keeps e ?_ ?_
    | refine Keeps.next e ?_
    | split at e
    | with_reducible exact Keeps.refl _
    | with_reducible assumption
    | intro _
    | with_reducible apply Keeps.foldl
    | (with_reducible apply Keeps.fst; case e => with_reducible assumption)
    | split
    | with_reducible apply Keeps.core
    | with_reducible apply Keeps.mk')

theorem execVabs_keeps {a0 s u0 : State} {d a ty m} (e : execVabs d a ty m s = .next u0) (h : Keeps a0 s) : Keeps a0 u0 := by
  unfold execVabs at e
  try dsimp only at e
  repeat' (first
    | (refine State.vec1_keeps e ?_)
    | refine State.issueWith_keeps e ?_ ?_
    | refine Keeps.next e ?_
    | split at e
    | with_reducible exact Keeps.refl _
    | with_reducible assumption
    | intro _
    | with_reducible apply Keeps.foldl
    | (with_reducible apply Keeps.fst; case e => with_reducible assumption)
    | split
    | with_reducible apply Keeps.core
    | with_reducible apply Keeps.mk')

theorem execVneg_keeps {a0 s u0 : State} {d a ty m} (e : execVneg d a ty m s = .next u0) (h : Keeps a0 s) : Keeps a0 u0 := by
  unfold execVneg at e
  try dsimp only at e
  repeat' (first
    | (refine State.vec1_keeps e ?_)
    | refine State.issueWith_keeps e ?_ ?_
    | refine Keeps.next e ?_
    | split at e
    | with_reducible exact Keeps.refl _
    | with_reducible assumption
    | intro _
    | with_reducible apply Keeps.foldl
    | (with_reducible apply Keeps.fst; case e => with_reducible assumption)
    | split
    | with_reducible apply Keeps.core
    | with_reducible apply Keeps.mk')

theorem execVaddSat_keeps {a0 s u0 : State} {d a b ty m} (e : execVaddSat d a b ty m s = .next u0) (h : Keeps a0 s) : Keeps a0 u0 := by
  unfold execVaddSat at e
  try dsimp only at e
  repeat' (first
    | (refine State.vec2_keeps e ?_)
    | refine State.issueWith_keeps e ?_ ?_
    | refine Keeps.next e ?_
    | split at e
    | with_reducible exact Keeps.refl _
    | with_reducible assumption
    | intro _
    | with_reducible apply Keeps.foldl
    | (with_reducible apply Keeps.fst; case e => with_reducible assumption)
    | split
    | with_reducible apply Keeps.core
    | with_reducible apply Keeps.mk')

theorem execVsubSat_keeps {a0 s u0 : State} {d a b ty m} (e : execVsubSat d a b ty m s = .next u0) (h : Keeps a0 s) : Keeps a0 u0 := by
  unfold execVsubSat at e
  try dsimp only at e
  repeat' (first
    | (refine State.vec2_keeps e ?_)
    | refine State.issueWith_keeps e ?_ ?_
    | refine Keeps.next e ?_
    | split at e
    | with_reducible exact Keeps.refl _
    | with_reducible assumption
    | intro _
    | with_reducible apply Keeps.foldl
    | (with_reducible apply Keeps.fst; case e => with_reducible assumption)
    | split
    | with_reducible apply Keeps.core
    | with_reducible apply Keeps.mk')

theorem State.vecI_keeps {a0 s u0 : State} {d a b ty m f} (e : State.vecI s d a b ty m f = .next u0) (h : Keeps a0 s) : Keeps a0 u0 := by
  unfold State.vecI at e
  try dsimp only at e
  repeat' (first
    | (refine State.vec2_keeps e ?_)
    | refine State.issueWith_keeps e ?_ ?_
    | refine Keeps.next e ?_
    | split at e
    | with_reducible exact Keeps.refl _
    | with_reducible assumption
    | intro _
    | with_reducible apply Keeps.foldl
    | (with_reducible apply Keeps.fst; case e => with_reducible assumption)
    | split
    | with_reducible apply Keeps.core
    | with_reducible apply Keeps.mk')

theorem execVand_keeps {a0 s u0 : State} {d a b ty m} (e : execVand d a b ty m s = .next u0) (h : Keeps a0 s) : Keeps a0 u0 := by
  unfold execVand at e
  try dsimp only at e
  repeat' (first
    | (refine State.vecI_keeps e ?_)
    | refine State.issueWith_keeps e ?_ ?_
    | refine Keeps.next e ?_
    | split at e
    | with_reducible exact Keeps.refl _
    | with_reducible assumption
    | intro _
    | with_reducible apply Keeps.foldl
    | (with_reducible apply Keeps.fst; case e => with_reducible assumption)
    | split
    | with_reducible apply Keeps.core
    | with_reducible apply Keeps.mk')

theorem execVor_keeps {a0 s u0 : State} {d a b ty m} (e : execVor d a b ty m s = .next u0) (h : Keeps a0 s) : Keeps a0 u0 := by
  unfold execVor at e
  try dsimp only at e
  repeat' (first
    | (refine State.vecI_keeps e ?_)
    | refine State.issueWith_keeps e ?_ ?_
    | refine Keeps.next e ?_
    | split at e
    | with_reducible exact Keeps.refl _
    | with_reducible assumption
    | intro _
    | with_reducible apply Keeps.foldl
    | (with_reducible apply Keeps.fst; case e => with_reducible assumption)
    | split
    | with_reducible apply Keeps.core
    | with_reducible apply Keeps.mk')

theorem execVxor_keeps {a0 s u0 : State} {d a b ty m} (e : execVxor d a b ty m s = .next u0) (h : Keeps a0 s) : Keeps a0 u0 := by
  unfold execVxor at e
  try dsimp only at e
  repeat' (first
    | (refine State.vecI_keeps e ?_)
    | refine State.issueWith_keeps e ?_ ?_
    | refine Keeps.next e ?_
    | split at e
    | with_reducible exact Keeps.refl _
    | with_reducible assumption
    | intro _
    | with_reducible apply Keeps.foldl
    | (with_reducible apply Keeps.fst; case e => with_reducible assumption)
    | split
    | with_reducible apply Keeps.core
    | with_reducible apply Keeps.mk')

theorem execVandn_keeps {a0 s u0 : State} {d a b ty m} (e : execVandn d a b ty m s = .next u0) (h : Keeps a0 s) : Keeps a0 u0 := by
  unfold execVandn at e
  try dsimp only at e
  repeat' (first
    | (refine State.vecI_keeps e ?_)
    | refine State.issueWith_keeps e ?_ ?_
    | refine Keeps.next e ?_
    | split at e
    | with_reducible exact Keeps.refl _
    | with_reducible assumption
    | intro _
    | with_reducible apply Keeps.foldl
    | (with_reducible apply Keeps.fst; case e => with_reducible assumption)
    | split
    | with_reducible apply Keeps.core
    | with_reducible apply Keeps.mk')

theorem execVshl_keeps {a0 s u0 : State} {d a b ty m} (e : execVshl d a b ty m s = .next u0) (h : Keeps a0 s) : Keeps a0 u0 := by
  unfold execVshl at e
  try dsimp only at e
  repeat' (first
    | (refine State.vecI_keeps e ?_)
    | refine State.issueWith_keeps e ?_ ?_
    | refine Keeps.next e ?_
    | split at e
    | with_reducible exact Keeps.refl _
    | with_reducible assumption
    | intro _
    | with_reducible apply Keeps.foldl
    | (with_reducible apply Keeps.fst; case e => with_reducible assumption)
    | split
    | with_reducible apply Keeps.core
    | with_reducible apply Keeps.mk')

theorem execVshr_keeps {a0 s u0 : State} {d a b ty m} (e : execVshr d a b ty m s = .next u0) (h : Keeps a0 s) : Keeps a0 u0 := by
  unfold execVshr at e
  try dsimp only at e
  repeat' (first
    | (refine State.vecI_keeps e ?_)
    | refine State.issueWith_keeps e ?_ ?_
    | refine Keeps.next e ?_
    | split at e
    | with_reducible exact Keeps.refl _
    | with_reducible assumption
    | intro _
    | with_reducible apply Keeps.foldl
    | (with_reducible apply Keeps.fst; case e => with_reducible assumption)
    | split
    | with_reducible apply Keeps.core
    | with_reducible apply Keeps.mk')

theorem execVsra_keeps {a0 s u0 : State} {d a b ty m} (e : execVsra d a b ty m s = .next u0) (h : Keeps a0 s) : Keeps a0 u0 := by
  unfold execVsra at e
  try dsimp only at e
  repeat' (first
    | (refine State.vecI_keeps e ?_)
    | refine State.issueWith_keeps e ?_ ?_
    | refine Keeps.next e ?_
    | split at e
    | with_reducible exact Keeps.refl _
    | with_reducible assumption
    | intro _
    | with_reducible apply Keeps.foldl
    | (with_reducible apply Keeps.fst; case e => with_reducible assumption)
    | split
    | with_reducible apply Keeps.core
    | with_reducible apply Keeps.mk')

theorem execVfsh_keeps {a0 s u0 : State} {d a b ty m} (e : execVfsh d a b ty m s = .next u0) (h : Keeps a0 s) : Keeps a0 u0 := by
  unfold execVfsh at e
  try dsimp only at e
  repeat' (first
    | (refine State.vec_keeps e ?_)
    | refine State.issueWith_keeps e ?_ ?_
    | refine Keeps.next e ?_
    | split at e
    | with_reducible exact Keeps.refl _
    | with_reducible assumption
    | intro _
    | with_reducible apply Keeps.foldl
    | (with_reducible apply Keeps.fst; case e => with_reducible assumption)
    | split
    | with_reducible apply Keeps.core
    | with_reducible apply Keeps.mk')

theorem execVbfx_keeps {a0 s u0 : State} {d a b ty m} (e : execVbfx d a b ty m s = .next u0) (h : Keeps a0 s) : Keeps a0 u0 := by
  unfold execVbfx at e
  try dsimp only at e
  repeat' (first
    | (refine State.vecI_keeps e ?_)
    | refine State.issueWith_keeps e ?_ ?_
    | refine Keeps.next e ?_
    | split at e
    | with_reducible exact Keeps.refl _
    | with_reducible assumption
    | intro _
    | with_reducible apply Keeps.foldl
    | (with_reducible apply Keeps.fst; case e => with_reducible assumption)
    | split
    | with_reducible apply Keeps.core
    | with_reducible apply Keeps.mk')

theorem execVcmp_keeps {a0 s u0 : State} {cc p a b ty m} (e : execVcmp cc p a b ty m s = .next u0) (h : Keeps a0 s) : Keeps a0 u0 := by
  unfold execVcmp at e
  try dsimp only at e
  repeat' (first
    | refine State.issueWith_keeps e ?_ ?_
    | refine Keeps.next e ?_
    | split at e
    | with_reducible exact Keeps.refl _
    | with_reducible assumption
    | intro _
    | with_reducible apply State.send_keeps
    | with_reducible apply Keeps.foldl
    | (with_reducible apply Keeps.fst; case e => with_reducible assumption)
    | split
    | with_reducible apply Keeps.core
    | with_reducible apply Keeps.mk')

theorem execVsel_keeps {a0 s u0 : State} {d a b ty m} (e : execVsel d a b ty m s = .next u0) (h : Keeps a0 s) : Keeps a0 u0 := by
  unfold execVsel at e
  try dsimp only at e
  repeat' (first
    | refine State.issueWith_keeps e ?_ ?_
    | refine Keeps.next e ?_
    | split at e
    | with_reducible exact Keeps.refl _
    | with_reducible assumption
    | intro _
    | with_reducible apply State.send_keeps
    | with_reducible apply Keeps.foldl
    | (with_reducible apply Keeps.fst; case e => with_reducible assumption)
    | split
    | with_reducible apply Keeps.core
    | with_reducible apply Keeps.mk')

theorem execVmov_keeps {a0 s u0 : State} {d a ty m} (e : execVmov d a ty m s = .next u0) (h : Keeps a0 s) : Keeps a0 u0 := by
  unfold execVmov at e
  try dsimp only at e
  repeat' (first
    | (refine State.vec1_keeps e ?_)
    | refine State.issueWith_keeps e ?_ ?_
    | refine Keeps.next e ?_
    | split at e
    | with_reducible exact Keeps.refl _
    | with_reducible assumption
    | intro _
    | with_reducible apply Keeps.foldl
    | (with_reducible apply Keeps.fst; case e => with_reducible assumption)
    | split
    | with_reducible apply Keeps.core
    | with_reducible apply Keeps.mk')

theorem execVspl_keeps {a0 s u0 : State} {d t sr ty m} (e : execVspl d t sr ty m s = .next u0) (h : Keeps a0 s) : Keeps a0 u0 := by
  unfold execVspl at e
  try dsimp only at e
  repeat' (first
    | refine State.issueWith_keeps e ?_ ?_
    | refine Keeps.next e ?_
    | split at e
    | with_reducible exact Keeps.refl _
    | with_reducible assumption
    | intro _
    | with_reducible apply State.sendV_keeps
    | with_reducible apply Keeps.foldl
    | (with_reducible apply Keeps.fst; case e => with_reducible assumption)
    | split
    | with_reducible apply Keeps.core
    | with_reducible apply Keeps.mk')

theorem execVidx_keeps {a0 s u0 : State} {d ty m} (e : execVidx d ty m s = .next u0) (h : Keeps a0 s) : Keeps a0 u0 := by
  unfold execVidx at e
  try dsimp only at e
  repeat' (first
    | (refine State.vec_keeps e ?_)
    | refine State.issueWith_keeps e ?_ ?_
    | refine Keeps.next e ?_
    | split at e
    | with_reducible exact Keeps.refl _
    | with_reducible assumption
    | intro _
    | with_reducible apply Keeps.foldl
    | (with_reducible apply Keeps.fst; case e => with_reducible assumption)
    | split
    | with_reducible apply Keeps.core
    | with_reducible apply Keeps.mk')

theorem execVget_keeps {a0 s u0 : State} {d a t i ty} (e : execVget d a t i ty s = .next u0) (h : Keeps a0 s) : Keeps a0 u0 := by
  unfold execVget at e
  try dsimp only at e
  repeat' (first
    | refine State.issueWith_keeps e ?_ ?_
    | refine Keeps.next e ?_
    | split at e
    | with_reducible exact Keeps.refl _
    | with_reducible assumption
    | intro _
    | with_reducible apply State.send_keeps
    | with_reducible apply Keeps.foldl
    | (with_reducible apply Keeps.fst; case e => with_reducible assumption)
    | split
    | with_reducible apply Keeps.core
    | with_reducible apply Keeps.mk')

theorem execVcls_keeps {a0 s u0 : State} {d a ty m} (e : execVcls d a ty m s = .next u0) (h : Keeps a0 s) : Keeps a0 u0 := by
  unfold execVcls at e
  try dsimp only at e
  repeat' (first
    | (refine State.vec1_keeps e ?_)
    | refine State.issueWith_keeps e ?_ ?_
    | refine Keeps.next e ?_
    | split at e
    | with_reducible exact Keeps.refl _
    | with_reducible assumption
    | intro _
    | with_reducible apply Keeps.foldl
    | (with_reducible apply Keeps.fst; case e => with_reducible assumption)
    | split
    | with_reducible apply Keeps.core
    | with_reducible apply Keeps.mk')

theorem State.drew_keeps {a0 s : State}  (h : Keeps a0 s) : Keeps a0 (State.drew s) := by
  unfold State.drew
  try dsimp only
  repeat' (first
    | with_reducible exact Keeps.refl _
    | with_reducible assumption
    | intro _
    | with_reducible apply Keeps.onRegs
    | with_reducible apply Keeps.foldl
    | (with_reducible apply Keeps.fst; case e => with_reducible assumption)
    | split
    | with_reducible apply Keeps.core
    | with_reducible apply Keeps.mk')

theorem execVrnd_keeps {a0 s u0 : State} {d ty m} (e : execVrnd d ty m s = .next u0) (h : Keeps a0 s) : Keeps a0 u0 := by
  unfold execVrnd at e
  try dsimp only at e
  repeat' (first
    | refine State.issueWith_keeps e ?_ ?_
    | refine Keeps.next e ?_
    | split at e
    | with_reducible exact Keeps.refl _
    | with_reducible assumption
    | intro _
    | with_reducible apply State.drew_keeps
    | with_reducible apply State.send_keeps
    | with_reducible apply Keeps.foldl
    | (with_reducible apply Keeps.fst; case e => with_reducible assumption)
    | split
    | with_reducible apply Keeps.core
    | with_reducible apply Keeps.mk')

theorem execVcvt_keeps {a0 s u0 : State} {d a dst src sat rnd} (e : execVcvt d a dst src sat rnd s = .next u0) (h : Keeps a0 s) : Keeps a0 u0 := by
  unfold execVcvt at e
  try dsimp only at e
  repeat' (first
    | refine State.issueWith_keeps e ?_ ?_
    | refine Keeps.next e ?_
    | split at e
    | with_reducible exact Keeps.refl _
    | with_reducible assumption
    | intro _
    | with_reducible apply State.drew_keeps
    | with_reducible apply State.send_keeps
    | with_reducible apply Keeps.foldl
    | (with_reducible apply Keeps.fst; case e => with_reducible assumption)
    | split
    | with_reducible apply Keeps.core
    | with_reducible apply Keeps.mk')

theorem execVscale_keeps {a0 s u0 : State} {d a b ty m} (e : execVscale d a b ty m s = .next u0) (h : Keeps a0 s) : Keeps a0 u0 := by
  unfold execVscale at e
  try dsimp only at e
  repeat' (first
    | (refine State.vec_keeps e ?_)
    | refine State.issueWith_keeps e ?_ ?_
    | refine Keeps.next e ?_
    | split at e
    | with_reducible exact Keeps.refl _
    | with_reducible assumption
    | intro _
    | with_reducible apply Keeps.foldl
    | (with_reducible apply Keeps.fst; case e => with_reducible assumption)
    | split
    | with_reducible apply Keeps.core
    | with_reducible apply Keeps.mk')

theorem State.vecT_keeps {a0 s u0 : State} {fn d a ty m} (e : State.vecT s fn d a ty m = .next u0) (h : Keeps a0 s) : Keeps a0 u0 := by
  unfold State.vecT at e
  try dsimp only at e
  repeat' (first
    | (refine State.vec1_keeps e ?_)
    | refine State.issueWith_keeps e ?_ ?_
    | refine Keeps.next e ?_
    | split at e
    | with_reducible exact Keeps.refl _
    | with_reducible assumption
    | intro _
    | with_reducible apply Keeps.foldl
    | (with_reducible apply Keeps.fst; case e => with_reducible assumption)
    | split
    | with_reducible apply Keeps.core
    | with_reducible apply Keeps.mk')

theorem execVln_keeps {a0 s u0 : State} {d a ty m} (e : execVln d a ty m s = .next u0) (h : Keeps a0 s) : Keeps a0 u0 := by
  unfold execVln at e
  try dsimp only at e
  repeat' (first
    | (refine State.vecT_keeps e ?_)
    | refine State.issueWith_keeps e ?_ ?_
    | refine Keeps.next e ?_
    | split at e
    | with_reducible exact Keeps.refl _
    | with_reducible assumption
    | intro _
    | with_reducible apply Keeps.foldl
    | (with_reducible apply Keeps.fst; case e => with_reducible assumption)
    | split
    | with_reducible apply Keeps.core
    | with_reducible apply Keeps.mk')

theorem execVexp_keeps {a0 s u0 : State} {d a ty m} (e : execVexp d a ty m s = .next u0) (h : Keeps a0 s) : Keeps a0 u0 := by
  unfold execVexp at e
  try dsimp only at e
  repeat' (first
    | (refine State.vecT_keeps e ?_)
    | refine State.issueWith_keeps e ?_ ?_
    | refine Keeps.next e ?_
    | split at e
    | with_reducible exact Keeps.refl _
    | with_reducible assumption
    | intro _
    | with_reducible apply Keeps.foldl
    | (with_reducible apply Keeps.fst; case e => with_reducible assumption)
    | split
    | with_reducible apply Keeps.core
    | with_reducible apply Keeps.mk')

theorem execVlog2_keeps {a0 s u0 : State} {d a ty m} (e : execVlog2 d a ty m s = .next u0) (h : Keeps a0 s) : Keeps a0 u0 := by
  unfold execVlog2 at e
  try dsimp only at e
  repeat' (first
    | (refine State.vecT_keeps e ?_)
    | refine State.issueWith_keeps e ?_ ?_
    | refine Keeps.next e ?_
    | split at e
    | with_reducible exact Keeps.refl _
    | with_reducible assumption
    | intro _
    | with_reducible apply Keeps.foldl
    | (with_reducible apply Keeps.fst; case e => with_reducible assumption)
    | split
    | with_reducible apply Keeps.core
    | with_reducible apply Keeps.mk')

theorem execVexp2_keeps {a0 s u0 : State} {d a ty m} (e : execVexp2 d a ty m s = .next u0) (h : Keeps a0 s) : Keeps a0 u0 := by
  unfold execVexp2 at e
  try dsimp only at e
  repeat' (first
    | (refine State.vecT_keeps e ?_)
    | refine State.issueWith_keeps e ?_ ?_
    | refine Keeps.next e ?_
    | split at e
    | with_reducible exact Keeps.refl _
    | with_reducible assumption
    | intro _
    | with_reducible apply Keeps.foldl
    | (with_reducible apply Keeps.fst; case e => with_reducible assumption)
    | split
    | with_reducible apply Keeps.core
    | with_reducible apply Keeps.mk')

theorem execVrcp_keeps {a0 s u0 : State} {d a ty m} (e : execVrcp d a ty m s = .next u0) (h : Keeps a0 s) : Keeps a0 u0 := by
  unfold execVrcp at e
  try dsimp only at e
  repeat' (first
    | (refine State.vecT_keeps e ?_)
    | refine State.issueWith_keeps e ?_ ?_
    | refine Keeps.next e ?_
    | split at e
    | with_reducible exact Keeps.refl _
    | with_reducible assumption
    | intro _
    | with_reducible apply Keeps.foldl
    | (with_reducible apply Keeps.fst; case e => with_reducible assumption)
    | split
    | with_reducible apply Keeps.core
    | with_reducible apply Keeps.mk')

theorem execVrsq_keeps {a0 s u0 : State} {d a ty m} (e : execVrsq d a ty m s = .next u0) (h : Keeps a0 s) : Keeps a0 u0 := by
  unfold execVrsq at e
  try dsimp only at e
  repeat' (first
    | (refine State.vecT_keeps e ?_)
    | refine State.issueWith_keeps e ?_ ?_
    | refine Keeps.next e ?_
    | split at e
    | with_reducible exact Keeps.refl _
    | with_reducible assumption
    | intro _
    | with_reducible apply Keeps.foldl
    | (with_reducible apply Keeps.fst; case e => with_reducible assumption)
    | split
    | with_reducible apply Keeps.core
    | with_reducible apply Keeps.mk')

theorem execVsqrt_keeps {a0 s u0 : State} {d a ty m} (e : execVsqrt d a ty m s = .next u0) (h : Keeps a0 s) : Keeps a0 u0 := by
  unfold execVsqrt at e
  try dsimp only at e
  repeat' (first
    | (refine State.vecT_keeps e ?_)
    | refine State.issueWith_keeps e ?_ ?_
    | refine Keeps.next e ?_
    | split at e
    | with_reducible exact Keeps.refl _
    | with_reducible assumption
    | intro _
    | with_reducible apply Keeps.foldl
    | (with_reducible apply Keeps.fst; case e => with_reducible assumption)
    | split
    | with_reducible apply Keeps.core
    | with_reducible apply Keeps.mk')

theorem execVtanh_keeps {a0 s u0 : State} {d a ty m} (e : execVtanh d a ty m s = .next u0) (h : Keeps a0 s) : Keeps a0 u0 := by
  unfold execVtanh at e
  try dsimp only at e
  repeat' (first
    | (refine State.vecT_keeps e ?_)
    | refine State.issueWith_keeps e ?_ ?_
    | refine Keeps.next e ?_
    | split at e
    | with_reducible exact Keeps.refl _
    | with_reducible assumption
    | intro _
    | with_reducible apply Keeps.foldl
    | (with_reducible apply Keeps.fst; case e => with_reducible assumption)
    | split
    | with_reducible apply Keeps.core
    | with_reducible apply Keeps.mk')

theorem execVsigm_keeps {a0 s u0 : State} {d a ty m} (e : execVsigm d a ty m s = .next u0) (h : Keeps a0 s) : Keeps a0 u0 := by
  unfold execVsigm at e
  try dsimp only at e
  repeat' (first
    | (refine State.vecT_keeps e ?_)
    | refine State.issueWith_keeps e ?_ ?_
    | refine Keeps.next e ?_
    | split at e
    | with_reducible exact Keeps.refl _
    | with_reducible assumption
    | intro _
    | with_reducible apply Keeps.foldl
    | (with_reducible apply Keeps.fst; case e => with_reducible assumption)
    | split
    | with_reducible apply Keeps.core
    | with_reducible apply Keeps.mk')

theorem execVld_keeps {a0 s u0 : State} {d a pm ac off m} (e : execVld d a pm ac off m s = .next u0) (h : Keeps a0 s) : Keeps a0 u0 := by
  unfold execVld at e
  try dsimp only at e
  repeat' (first
    | refine State.issueWith_keeps e ?_ ?_
    | refine Keeps.next e ?_
    | split at e
    | with_reducible exact Keeps.refl _
    | with_reducible assumption
    | intro _
    | with_reducible apply State.postModify_keeps
    | with_reducible apply State.sendLoad_keeps
    | with_reducible apply Keeps.foldl
    | (with_reducible apply Keeps.fst; case e => with_reducible assumption)
    | split
    | with_reducible apply Keeps.core
    | with_reducible apply Keeps.mk')

theorem execVst_keeps {a0 s u0 : State} {d a pm ac off m} (e : execVst d a pm ac off m s = .next u0) (h : Keeps a0 s) : Keeps a0 u0 := by
  unfold execVst at e
  try dsimp only at e
  repeat' (first
    | refine State.issueWith_keeps e ?_ ?_
    | refine Keeps.next e ?_
    | split at e
    | with_reducible exact Keeps.refl _
    | with_reducible assumption
    | intro _
    | with_reducible apply State.postModify_keeps
    | with_reducible apply State.localStore_keeps
    | with_reducible apply Keeps.foldl
    | (with_reducible apply Keeps.fst; case e => with_reducible assumption)
    | split
    | with_reducible apply Keeps.core
    | with_reducible apply Keeps.mk')

theorem execVldrb_keeps {a0 s u0 : State} {d e m} (e : execVldrb d e m s = .next u0) (h : Keeps a0 s) : Keeps a0 u0 := by
  unfold execVldrb at e
  try dsimp only at e
  repeat' (first
    | refine State.issueWith_keeps e ?_ ?_
    | refine Keeps.next e ?_
    | split at e
    | with_reducible exact Keeps.refl _
    | with_reducible assumption
    | intro _
    | with_reducible apply State.send_keeps
    | with_reducible apply Keeps.foldl
    | (with_reducible apply Keeps.fst; case e => with_reducible assumption)
    | split
    | with_reducible apply Keeps.core
    | with_reducible apply Keeps.mk')

theorem State.issueCmd_keeps {a0 s u0 : State} {c commit first codes} (e : State.issueCmd s c commit first codes = .next u0) (h : Keeps a0 s) : Keeps a0 u0 := by
  unfold State.issueCmd at e
  try dsimp only at e
  repeat' (first
    | refine State.issueWith_keeps e ?_ ?_
    | refine Keeps.next e ?_
    | split at e
    | with_reducible exact Keeps.refl _
    | with_reducible assumption
    | intro _
    | with_reducible apply Keeps.foldl
    | (with_reducible apply Keeps.fst; case e => with_reducible assumption)
    | split
    | with_reducible apply Keeps.core
    | with_reducible apply Keeps.mk')

theorem State.spot_keeps {a0 s : State} {x write a n} (h : Keeps a0 s) : Keeps a0 (State.spot s x write a n).1 := by
  unfold State.spot
  try dsimp only
  repeat' (first
    | with_reducible exact Keeps.refl _
    | with_reducible assumption
    | intro _
    | with_reducible apply State.translate_keeps
    | with_reducible apply Keeps.foldl
    | (with_reducible apply Keeps.fst; case e => with_reducible assumption)
    | split
    | with_reducible apply Keeps.core
    | with_reducible apply Keeps.mk')

theorem State.resolveFmt_keeps {a0 s : State} {x write} (h : Keeps a0 s) : Keeps a0 (State.resolveFmt s x write).1 := by
  unfold State.resolveFmt
  try dsimp only
  repeat' (first
    | with_reducible exact Keeps.refl _
    | with_reducible assumption
    | intro _
    | with_reducible apply State.spot_keeps
    | with_reducible apply Keeps.foldl
    | (with_reducible apply Keeps.fst; case e => with_reducible assumption)
    | split
    | with_reducible apply Keeps.core
    | with_reducible apply Keeps.mk')

theorem State.readElem_keeps {a0 s : State} {c x fmt i j} (h : Keeps a0 s) : Keeps a0 (State.readElem s c x fmt i j).1 := by
  unfold State.readElem
  try dsimp only
  repeat' (first
    | with_reducible exact Keeps.refl _
    | with_reducible assumption
    | intro _
    | with_reducible apply State.spot_keeps
    | with_reducible apply Keeps.foldl
    | (with_reducible apply Keeps.fst; case e => with_reducible assumption)
    | split
    | with_reducible apply Keeps.core
    | with_reducible apply Keeps.mk')

theorem State.ownWrite_keeps {a0 s : State} {c off bs} (h : Keeps a0 s) : Keeps a0 (State.ownWrite s c off bs) := by
  unfold State.ownWrite
  exact Keeps.mk' h

theorem State.writeRun_keeps {a0 s : State} {c r} (h : Keeps a0 s) : Keeps a0 (State.writeRun c s r) := by
  unfold State.writeRun
  split
  · exact h
  · extract_lets old new q t
    have ht : Keeps a0 t := State.cacheWrites_keeps (State.physWrite_keeps h)
    split
    · exact Keeps.core ht
    · exact ht

theorem State.writeUnit_keeps {a0 s : State} {c u l} (h : Keeps a0 s) : Keeps a0 (State.writeUnit s c u l) := by
  unfold State.writeUnit
  split
  · dsimp only
    split
    · exact h
    · split
      · exact State.ownWrite_keeps h
      · exact Keeps.onCore h
  · exact Keeps.foldl (fun b t r h => State.writeRun_keeps h) h

theorem State.applyWrites_keeps {a0 s : State} {path l} (h : Keeps a0 s) : Keeps a0 (State.applyWrites s path l) := by
  unfold State.applyWrites
  try dsimp only
  repeat' (first
    | with_reducible exact Keeps.refl _
    | with_reducible assumption
    | intro _
    | with_reducible apply State.writeUnit_keeps
    | with_reducible apply Keeps.foldl
    | (with_reducible apply Keeps.fst; case e => with_reducible assumption)
    | split
    | with_reducible apply Keeps.core
    | with_reducible apply Keeps.mk')

theorem State.placeElem_keeps {a0 s : State} {x fmt i j cols base v} (h : Keeps a0 s) : Keeps a0 (State.placeElem s x fmt i j cols base v).1 := by
  unfold State.placeElem
  try dsimp only
  repeat' (first
    | with_reducible exact Keeps.refl _
    | with_reducible assumption
    | intro _
    | with_reducible apply State.spot_keeps
    | with_reducible apply Keeps.foldl
    | (with_reducible apply Keeps.fst; case e => with_reducible assumption)
    | split
    | with_reducible apply Keeps.core
    | with_reducible apply Keeps.mk')

theorem State.countRetired_keeps {a0 s : State} {e} (h : Keeps a0 s) : Keeps a0 (State.countRetired s e) := by
  unfold State.countRetired
  try dsimp only
  repeat' (first
    | with_reducible exact Keeps.refl _
    | with_reducible assumption
    | intro _
    | with_reducible apply State.count_keeps
    | with_reducible apply Keeps.foldl
    | (with_reducible apply Keeps.fst; case e => with_reducible assumption)
    | split
    | with_reducible apply Keeps.core
    | with_reducible apply Keeps.mk')

theorem State.failCmd_keeps {a0 s : State} {c cause va code} (h : Keeps a0 s) : Keeps a0 (State.failCmd s c cause va code) := by
  unfold State.failCmd
  try dsimp only
  repeat' (first
    | with_reducible exact Keeps.refl _
    | with_reducible assumption
    | intro _
    | with_reducible apply State.countRetired_keeps
    | with_reducible apply Keeps.foldl
    | (with_reducible apply Keeps.fst; case e => with_reducible assumption)
    | split
    | with_reducible apply Keeps.core
    | with_reducible apply Keeps.mk')

theorem State.setCmd_keeps {a0 s : State} {c} (h : Keeps a0 s) : Keeps a0 (State.setCmd s c) := by
  unfold State.setCmd
  try dsimp only
  repeat' (first
    | with_reducible exact Keeps.refl _
    | with_reducible assumption
    | intro _
    | with_reducible apply Keeps.foldl
    | (with_reducible apply Keeps.fst; case e => with_reducible assumption)
    | split
    | with_reducible apply Keeps.core
    | with_reducible apply Keeps.mk')

theorem State.stopCmd_keeps {a0 s : State} {c e} (h : Keeps a0 s) : Keeps a0 (State.stopCmd s c e) := by
  unfold State.stopCmd
  try dsimp only
  repeat' (first
    | with_reducible exact Keeps.refl _
    | with_reducible assumption
    | intro _
    | with_reducible apply State.setCmd_keeps
    | with_reducible apply State.failCmd_keeps
    | with_reducible apply Keeps.foldl
    | (with_reducible apply Keeps.fst; case e => with_reducible assumption)
    | split
    | with_reducible apply Keeps.core
    | with_reducible apply Keeps.mk')

theorem State.settleCmd_keeps {a0 s : State} {c e} (h : Keeps a0 s) : Keeps a0 (State.settleCmd s c e) := by
  unfold State.settleCmd
  try dsimp only
  repeat' (first
    | with_reducible exact Keeps.refl _
    | with_reducible assumption
    | intro _
    | with_reducible apply State.setCmd_keeps
    | with_reducible apply State.stopCmd_keeps
    | with_reducible apply Keeps.foldl
    | (with_reducible apply Keeps.fst; case e => with_reducible assumption)
    | split
    | with_reducible apply Keeps.core
    | with_reducible apply Keeps.mk')

theorem State.cmdReleases_keeps {a0 s : State} {c n} (h : Keeps a0 s) : Keeps a0 (State.cmdReleases s c n) := by
  unfold State.cmdReleases
  exact Keeps.onRegs h

theorem State.retireAct_keeps {a0 s t : State} {c} (e : State.retireAct s c = some t) (h : Keeps a0 s) : Keeps a0 t := by
  unfold State.retireAct at e
  dsimp only at e
  split at e
  · cases e; exact h
  · cases e; exact State.cmdReleases_keeps h.core
  · split at e
    · cases e
    · cases e; exact State.cmdReleases_keeps h.onCore
  · split at e
    · cases e
    · rename_i q
      have k := Keeps.fst q (State.translate_keeps h)
      split at e
      · split at e
        · cases e
        · cases e; exact Keeps.onDev rfl (State.cmdReleases_keeps k)
      · cases e

theorem State.retireSets_keeps {a0 s : State} {c} (h : Keeps a0 s) : Keeps a0 (State.retireSets s c) := by
  unfold State.retireSets
  try dsimp only
  repeat' (first
    | with_reducible exact Keeps.refl _
    | with_reducible assumption
    | intro _
    | with_reducible apply Keeps.onRegs
    | with_reducible apply Keeps.foldl
    | (with_reducible apply Keeps.fst; case e => with_reducible assumption)
    | split
    | with_reducible apply Keeps.core
    | with_reducible apply Keeps.mk')

theorem State.leaveCmd_keeps {a0 s : State} {c} (h : Keeps a0 s) : Keeps a0 (State.leaveCmd s c) := by
  unfold State.leaveCmd
  exact Keeps.core (State.countRetired_keeps h)

theorem State.retireCmd_keeps {a0 s : State} {c} (h : Keeps a0 s) : Keeps a0 (State.retireCmd s c) := by
  unfold State.retireCmd
  have h1 : Keeps a0 (s.retireSets c) := State.retireSets_keeps h
  dsimp only
  split
  · exact State.failCmd_keeps h1
  · next e =>
    have h2 := State.retireAct_keeps e h1
    split
    · exact State.setCmd_keeps h2
    · exact State.leaveCmd_keeps h2

theorem copyLoop_keeps {a0 x2 : State} {c fa fb cols base x1 x3 x4} (h : Keeps a0 x2) : Keeps a0 (copyLoop c fa fb cols base x1 x2 x3 x4).1 := by
  induction x1 generalizing x2 x3 x4 with
  | zero =>
    unfold copyLoop
    try dsimp only
    repeat' (first
      | with_reducible exact Keeps.refl _
      | with_reducible assumption
      | intro _
      | with_reducible apply State.placeElem_keeps
      | with_reducible apply State.readElem_keeps
      | with_reducible apply Keeps.foldl
      | (with_reducible apply Keeps.fst; case e => with_reducible assumption)
      | split
      | with_reducible apply Keeps.core
      | with_reducible apply Keeps.mk')
  | succ k ih =>
    unfold copyLoop
    try dsimp only
    repeat' (first
      | with_reducible exact Keeps.refl _
      | with_reducible assumption
      | intro _
      | with_reducible apply ih
      | with_reducible apply State.placeElem_keeps
      | with_reducible apply State.readElem_keeps
      | with_reducible apply Keeps.foldl
      | (with_reducible apply Keeps.fst; case e => with_reducible assumption)
      | split
      | with_reducible apply Keeps.core
      | with_reducible apply Keeps.mk')

theorem State.findSlot_keeps {a0 s t : State} {c fb k b} (e : State.findSlot s c fb = .taken k b t) (h : Keeps a0 s) : Keeps a0 t := by
  unfold State.findSlot at e
  dsimp only at e
  repeat' (split at e)
  all_goals first
    | (cases e; exact h)
    | (cases e; exact h.onRegs)
    | cases e

theorem State.runEmpty_keeps {a0 s : State} {c} (h : Keeps a0 s) : Keeps a0 (State.runEmpty s c) := by
  unfold State.runEmpty
  try dsimp only
  repeat' (first
    | with_reducible exact Keeps.refl _
    | with_reducible assumption
    | intro _
    | with_reducible apply State.setCmd_keeps
    | with_reducible apply Keeps.foldl
    | (with_reducible apply Keeps.fst; case e => with_reducible assumption)
    | (with_reducible apply State.findSlot_keeps; case e => with_reducible assumption)
    | split
    | with_reducible apply Keeps.core
    | with_reducible apply Keeps.mk')

theorem State.runCpy_keeps {a0 s : State} {c} (h : Keeps a0 s) : Keeps a0 (State.runCpy s c) := by
  unfold State.runCpy
  try dsimp only
  repeat' (first
    | with_reducible exact Keeps.refl _
    | with_reducible assumption
    | intro _
    | with_reducible apply State.runEmpty_keeps
    | with_reducible apply State.failCmd_keeps
    | with_reducible apply State.applyWrites_keeps
    | with_reducible apply State.stopCmd_keeps
    | with_reducible apply State.settleCmd_keeps
    | with_reducible apply copyLoop_keeps
    | with_reducible apply State.resolveFmt_keeps
    | with_reducible apply Keeps.foldl
    | (with_reducible apply Keeps.fst; case e => with_reducible assumption)
    | (with_reducible apply State.findSlot_keeps; case e => with_reducible assumption)
    | split
    | with_reducible apply Keeps.core
    | with_reducible apply Keeps.mk')

theorem execCpy_keeps {a0 s u0 : State} {cid pa pb y ret} (e : execCpy cid pa pb y ret s = .next u0) (h : Keeps a0 s) : Keeps a0 u0 := by
  unfold execCpy at e
  try dsimp only at e
  repeat' (first
    | (refine State.issueCmd_keeps e ?_)
    | refine State.issueWith_keeps e ?_ ?_
    | refine Keeps.next e ?_
    | split at e
    | with_reducible exact Keeps.refl _
    | with_reducible assumption
    | intro _
    | with_reducible apply Keeps.foldl
    | (with_reducible apply Keeps.fst; case e => with_reducible assumption)
    | split
    | with_reducible apply Keeps.core
    | with_reducible apply Keeps.mk')

theorem cselLine_keeps {a0 x2 : State} {c fmt col m x1 x3 x4} (h : Keeps a0 x2) : Keeps a0 (cselLine c fmt col m x1 x2 x3 x4).1 := by
  induction x1 generalizing x2 x3 x4 with
  | zero =>
    unfold cselLine
    try dsimp only
    repeat' (first
      | with_reducible exact Keeps.refl _
      | with_reducible assumption
      | intro _
      | with_reducible apply State.readElem_keeps
      | with_reducible apply Keeps.foldl
      | (with_reducible apply Keeps.fst; case e => with_reducible assumption)
      | split
      | with_reducible apply Keeps.core
      | with_reducible apply Keeps.mk')
  | succ k ih =>
    unfold cselLine
    try dsimp only
    repeat' (first
      | with_reducible exact Keeps.refl _
      | with_reducible assumption
      | intro _
      | with_reducible apply ih
      | with_reducible apply State.readElem_keeps
      | with_reducible apply Keeps.foldl
      | (with_reducible apply Keeps.fst; case e => with_reducible assumption)
      | split
      | with_reducible apply Keeps.core
      | with_reducible apply Keeps.mk')

theorem cselOutput_keeps {a0 x2 : State} {c m x1 x3 x4} (h : Keeps a0 x2) : Keeps a0 (cselOutput c m x1 x2 x3 x4).1 := by
  induction x1 generalizing x2 x3 x4 with
  | nil =>
    unfold cselOutput
    try dsimp only
    repeat' (first
      | with_reducible exact Keeps.refl _
      | with_reducible assumption
      | intro _
      | with_reducible apply State.placeElem_keeps
      | with_reducible apply Keeps.foldl
      | (with_reducible apply Keeps.fst; case e => with_reducible assumption)
      | split
      | with_reducible apply Keeps.core
      | with_reducible apply Keeps.mk')
  | cons y l ih =>
    unfold cselOutput
    try dsimp only
    repeat' (first
      | with_reducible exact Keeps.refl _
      | with_reducible assumption
      | intro _
      | with_reducible apply ih
      | with_reducible apply State.placeElem_keeps
      | with_reducible apply Keeps.foldl
      | (with_reducible apply Keeps.fst; case e => with_reducible assumption)
      | split
      | with_reducible apply Keeps.core
      | with_reducible apply Keeps.mk')

theorem cselLoop_keeps {a0 x2 : State} {c len k x1 x3 x4} (h : Keeps a0 x2) : Keeps a0 (cselLoop c len k x1 x2 x3 x4).1 := by
  induction x1 generalizing x2 x3 x4 with
  | zero =>
    unfold cselLoop
    try dsimp only
    repeat' (first
      | with_reducible exact Keeps.refl _
      | with_reducible assumption
      | intro _
      | with_reducible apply cselOutput_keeps
      | with_reducible apply cselLine_keeps
      | with_reducible apply Keeps.foldl
      | (with_reducible apply Keeps.fst; case e => with_reducible assumption)
      | split
      | with_reducible apply Keeps.core
      | with_reducible apply Keeps.mk')
  | succ k ih =>
    unfold cselLoop
    try dsimp only
    repeat' (first
      | with_reducible exact Keeps.refl _
      | with_reducible assumption
      | intro _
      | with_reducible apply ih
      | with_reducible apply cselOutput_keeps
      | with_reducible apply cselLine_keeps
      | with_reducible apply Keeps.foldl
      | (with_reducible apply Keeps.fst; case e => with_reducible assumption)
      | split
      | with_reducible apply Keeps.core
      | with_reducible apply Keeps.mk')

theorem State.runCsel_keeps {a0 s : State} {c} (h : Keeps a0 s) : Keeps a0 (State.runCsel s c) := by
  unfold State.runCsel
  try dsimp only
  repeat' (first
    | with_reducible exact Keeps.refl _
    | with_reducible assumption
    | intro _
    | with_reducible apply State.setCmd_keeps
    | with_reducible apply State.applyWrites_keeps
    | with_reducible apply State.settleCmd_keeps
    | with_reducible apply cselLoop_keeps
    | with_reducible apply Keeps.foldl
    | (with_reducible apply Keeps.fst; case e => with_reducible assumption)
    | split
    | with_reducible apply Keeps.core
    | with_reducible apply Keeps.mk')

theorem execCsel_keeps {a0 s u0 : State} {cid pa pb y ret} (e : execCsel cid pa pb y ret s = .next u0) (h : Keeps a0 s) : Keeps a0 u0 := by
  unfold execCsel at e
  try dsimp only at e
  repeat' (first
    | (refine State.issueCmd_keeps e ?_)
    | refine State.issueWith_keeps e ?_ ?_
    | refine Keeps.next e ?_
    | split at e
    | with_reducible exact Keeps.refl _
    | with_reducible assumption
    | intro _
    | with_reducible apply Keeps.foldl
    | (with_reducible apply Keeps.fst; case e => with_reducible assumption)
    | split
    | with_reducible apply Keeps.core
    | with_reducible apply Keeps.mk')

theorem State.gathRow_keeps {a0 s : State} {c i} (h : Keeps a0 s) : Keeps a0 (State.gathRow s c i).1 := by
  unfold State.gathRow
  try dsimp only
  repeat' (first
    | with_reducible exact Keeps.refl _
    | with_reducible assumption
    | intro _
    | with_reducible apply State.readElem_keeps
    | with_reducible apply Keeps.foldl
    | (with_reducible apply Keeps.fst; case e => with_reducible assumption)
    | split
    | with_reducible apply Keeps.core
    | with_reducible apply Keeps.mk')

theorem rowRead_keeps {a0 x2 : State} {c x fa fb i x1 x3 x4} (h : Keeps a0 x2) : Keeps a0 (rowRead c x fa fb i x1 x2 x3 x4).1 := by
  induction x1 generalizing x2 x3 x4 with
  | zero =>
    unfold rowRead
    try dsimp only
    repeat' (first
      | with_reducible exact Keeps.refl _
      | with_reducible assumption
      | intro _
      | with_reducible apply State.readElem_keeps
      | with_reducible apply Keeps.foldl
      | (with_reducible apply Keeps.fst; case e => with_reducible assumption)
      | split
      | with_reducible apply Keeps.core
      | with_reducible apply Keeps.mk')
  | succ k ih =>
    unfold rowRead
    try dsimp only
    repeat' (first
      | with_reducible exact Keeps.refl _
      | with_reducible assumption
      | intro _
      | with_reducible apply ih
      | with_reducible apply State.readElem_keeps
      | with_reducible apply Keeps.foldl
      | (with_reducible apply Keeps.fst; case e => with_reducible assumption)
      | split
      | with_reducible apply Keeps.core
      | with_reducible apply Keeps.mk')

theorem rowPlace_keeps {a0 x2 : State} {x fb i cols base x1 x3 x4} (h : Keeps a0 x2) : Keeps a0 (rowPlace x fb i cols base x1 x2 x3 x4).1 := by
  induction x1 generalizing x2 x3 x4 with
  | nil =>
    unfold rowPlace
    try dsimp only
    repeat' (first
      | with_reducible exact Keeps.refl _
      | with_reducible assumption
      | intro _
      | with_reducible apply State.placeElem_keeps
      | with_reducible apply Keeps.foldl
      | (with_reducible apply Keeps.fst; case e => with_reducible assumption)
      | split
      | with_reducible apply Keeps.core
      | with_reducible apply Keeps.mk')
  | cons y l ih =>
    unfold rowPlace
    try dsimp only
    repeat' (first
      | with_reducible exact Keeps.refl _
      | with_reducible assumption
      | intro _
      | with_reducible apply ih
      | with_reducible apply State.placeElem_keeps
      | with_reducible apply Keeps.foldl
      | (with_reducible apply Keeps.fst; case e => with_reducible assumption)
      | split
      | with_reducible apply Keeps.core
      | with_reducible apply Keeps.mk')

theorem gathLoop_keeps {a0 : State} {c : Cmd} {fa fb cols : Nat} {base : Option Nat} {fuel : Nat} {g : GathRun} (h : Keeps a0 g.s) :
    Keeps a0 (gathLoop c fa fb cols base fuel g).s := by
  induction fuel generalizing g with
  | zero => exact h
  | succ k ih =>
    unfold gathLoop
    dsimp only
    repeat' (first
      | with_reducible assumption
      | with_reducible apply ih
      | with_reducible apply State.gathRow_keeps
      | with_reducible apply rowPlace_keeps
      | with_reducible apply rowRead_keeps
      | (with_reducible apply Keeps.fst; case e => with_reducible assumption)
      | split
      | dsimp only)

theorem State.runGather_keeps {a0 s : State} {c} (h : Keeps a0 s) : Keeps a0 (State.runGather s c) := by
  unfold State.runGather
  try dsimp only
  repeat' (first
    | with_reducible exact Keeps.refl _
    | with_reducible assumption
    | intro _
    | with_reducible apply State.setCmd_keeps
    | with_reducible apply State.runEmpty_keeps
    | with_reducible apply State.failCmd_keeps
    | with_reducible apply State.applyWrites_keeps
    | with_reducible apply State.stopCmd_keeps
    | with_reducible apply State.settleCmd_keeps
    | with_reducible apply State.resolveFmt_keeps
    | with_reducible apply Keeps.foldl
    | (with_reducible apply Keeps.fst; case e => with_reducible assumption)
    | (with_reducible apply State.findSlot_keeps; case e => with_reducible assumption)
    | with_reducible apply gathLoop_keeps
    | split
    | with_reducible apply Keeps.core
    | with_reducible apply Keeps.mk')

theorem execCgth_keeps {a0 s u0 : State} {cid pa pb y ret} (e : execCgth cid pa pb y ret s = .next u0) (h : Keeps a0 s) : Keeps a0 u0 := by
  unfold execCgth at e
  try dsimp only at e
  repeat' (first
    | (refine State.issueCmd_keeps e ?_)
    | refine State.issueWith_keeps e ?_ ?_
    | refine Keeps.next e ?_
    | split at e
    | with_reducible exact Keeps.refl _
    | with_reducible assumption
    | intro _
    | with_reducible apply Keeps.foldl
    | (with_reducible apply Keeps.fst; case e => with_reducible assumption)
    | split
    | with_reducible apply Keeps.core
    | with_reducible apply Keeps.mk')

theorem execCsct_keeps {a0 s u0 : State} {cid pa pb y ret} (e : execCsct cid pa pb y ret s = .next u0) (h : Keeps a0 s) : Keeps a0 u0 := by
  unfold execCsct at e
  try dsimp only at e
  repeat' (first
    | (refine State.issueCmd_keeps e ?_)
    | refine State.issueWith_keeps e ?_ ?_
    | refine Keeps.next e ?_
    | split at e
    | with_reducible exact Keeps.refl _
    | with_reducible assumption
    | intro _
    | with_reducible apply Keeps.foldl
    | (with_reducible apply Keeps.fst; case e => with_reducible assumption)
    | split
    | with_reducible apply Keeps.core
    | with_reducible apply Keeps.mk')

theorem State.runCqf_keeps {a0 s : State} {c} (h : Keeps a0 s) : Keeps a0 (State.runCqf s c) := by
  unfold State.runCqf
  try dsimp only
  repeat' (first
    | with_reducible exact Keeps.refl _
    | with_reducible assumption
    | intro _
    | with_reducible apply State.setCmd_keeps
    | with_reducible apply State.failCmd_keeps
    | with_reducible apply State.stopCmd_keeps
    | with_reducible apply Keeps.onCore
    | with_reducible apply rowRead_keeps
    | with_reducible apply Keeps.foldl
    | (with_reducible apply Keeps.fst; case e => with_reducible assumption)
    | split
    | with_reducible apply Keeps.core
    | with_reducible apply Keeps.mk')

theorem execCqf_keeps {a0 s u0 : State} {cid pa pb y ret} (e : execCqf cid pa pb y ret s = .next u0) (h : Keeps a0 s) : Keeps a0 u0 := by
  unfold execCqf at e
  try dsimp only at e
  repeat' (first
    | (refine State.issueCmd_keeps e ?_)
    | refine State.issueWith_keeps e ?_ ?_
    | refine Keeps.next e ?_
    | split at e
    | with_reducible exact Keeps.refl _
    | with_reducible assumption
    | intro _
    | with_reducible apply Keeps.foldl
    | (with_reducible apply Keeps.fst; case e => with_reducible assumption)
    | split
    | with_reducible apply Keeps.core
    | with_reducible apply Keeps.mk')

theorem mldwRead_keeps {a0 x2 : State} {c fa fb i x1 x3 x4} (h : Keeps a0 x2) : Keeps a0 (mldwRead c fa fb i x1 x2 x3 x4).1 := by
  induction x1 generalizing x2 x3 x4 with
  | zero =>
    unfold mldwRead
    try dsimp only
    repeat' (first
      | with_reducible exact Keeps.refl _
      | with_reducible assumption
      | intro _
      | with_reducible apply State.readElem_keeps
      | with_reducible apply Keeps.foldl
      | (with_reducible apply Keeps.fst; case e => with_reducible assumption)
      | split
      | with_reducible apply Keeps.core
      | with_reducible apply Keeps.mk')
  | succ k ih =>
    unfold mldwRead
    try dsimp only
    repeat' (first
      | with_reducible exact Keeps.refl _
      | with_reducible assumption
      | intro _
      | with_reducible apply ih
      | with_reducible apply State.readElem_keeps
      | with_reducible apply Keeps.foldl
      | (with_reducible apply Keeps.fst; case e => with_reducible assumption)
      | split
      | with_reducible apply Keeps.core
      | with_reducible apply Keeps.mk')

theorem State.mldwPut_keeps {a0 s : State} {c fb k vals} (h : Keeps a0 s) : Keeps a0 (State.mldwPut s c fb k vals) := by
  unfold State.mldwPut
  try dsimp only
  repeat' (first
    | with_reducible exact Keeps.refl _
    | with_reducible assumption
    | intro _
    | with_reducible apply Keeps.foldl
    | (with_reducible apply Keeps.fst; case e => with_reducible assumption)
    | split
    | with_reducible apply Keeps.core
    | with_reducible apply Keeps.mk')

theorem mldwLoop_keeps {a0 x2 : State} {c fa fb x1 x3 x4} (h : Keeps a0 x2) : Keeps a0 (mldwLoop c fa fb x1 x2 x3 x4).1 := by
  induction x1 generalizing x2 x3 x4 with
  | zero =>
    unfold mldwLoop
    try dsimp only
    repeat' (first
      | with_reducible exact Keeps.refl _
      | with_reducible assumption
      | intro _
      | with_reducible apply State.mldwPut_keeps
      | with_reducible apply mldwRead_keeps
      | with_reducible apply State.readElem_keeps
      | with_reducible apply Keeps.foldl
      | (with_reducible apply Keeps.fst; case e => with_reducible assumption)
      | split
      | with_reducible apply Keeps.core
      | with_reducible apply Keeps.mk')
  | succ k ih =>
    unfold mldwLoop
    try dsimp only
    repeat' (first
      | with_reducible exact Keeps.refl _
      | with_reducible assumption
      | intro _
      | with_reducible apply ih
      | with_reducible apply State.mldwPut_keeps
      | with_reducible apply mldwRead_keeps
      | with_reducible apply State.readElem_keeps
      | with_reducible apply Keeps.foldl
      | (with_reducible apply Keeps.fst; case e => with_reducible assumption)
      | split
      | with_reducible apply Keeps.core
      | with_reducible apply Keeps.mk')

theorem mldwGather_keeps {a0 x2 : State} {c fa fb x1 x3 x4} (h : Keeps a0 x2) : Keeps a0 (mldwGather c fa fb x1 x2 x3 x4).1 := by
  induction x1 generalizing x2 x3 x4 with
  | zero =>
    unfold mldwGather
    try dsimp only
    repeat' (first
      | with_reducible exact Keeps.refl _
      | with_reducible assumption
      | intro _
      | with_reducible apply mldwRead_keeps
      | with_reducible apply Keeps.foldl
      | (with_reducible apply Keeps.fst; case e => with_reducible assumption)
      | split
      | with_reducible apply Keeps.core
      | with_reducible apply Keeps.mk')
  | succ k ih =>
    unfold mldwGather
    try dsimp only
    repeat' (first
      | with_reducible exact Keeps.refl _
      | with_reducible assumption
      | intro _
      | with_reducible apply ih
      | with_reducible apply mldwRead_keeps
      | with_reducible apply Keeps.foldl
      | (with_reducible apply Keeps.fst; case e => with_reducible assumption)
      | split
      | with_reducible apply Keeps.core
      | with_reducible apply Keeps.mk')

theorem State.runMldw_keeps {a0 s : State} {c} (h : Keeps a0 s) : Keeps a0 (State.runMldw s c) := by
  unfold State.runMldw
  try dsimp only
  repeat' (first
    | with_reducible exact Keeps.refl _
    | with_reducible assumption
    | intro _
    | with_reducible apply State.setCmd_keeps
    | with_reducible apply State.mldwPut_keeps
    | with_reducible apply State.failCmd_keeps
    | with_reducible apply State.stopCmd_keeps
    | with_reducible apply State.settleCmd_keeps
    | with_reducible apply mldwLoop_keeps
    | with_reducible apply mldwGather_keeps
    | with_reducible apply State.resolveFmt_keeps
    | with_reducible apply Keeps.foldl
    | (with_reducible apply Keeps.fst; case e => with_reducible assumption)
    | split
    | with_reducible apply Keeps.core
    | with_reducible apply Keeps.mk')

theorem execMldw_keeps {a0 s u0 : State} {cid pa pb y ret} (e : execMldw cid pa pb y ret s = .next u0) (h : Keeps a0 s) : Keeps a0 u0 := by
  unfold execMldw at e
  try dsimp only at e
  repeat' (first
    | (refine State.issueCmd_keeps e ?_)
    | refine State.issueWith_keeps e ?_ ?_
    | refine Keeps.next e ?_
    | split at e
    | with_reducible exact Keeps.refl _
    | with_reducible assumption
    | intro _
    | with_reducible apply Keeps.foldl
    | (with_reducible apply Keeps.fst; case e => with_reducible assumption)
    | split
    | with_reducible apply Keeps.core
    | with_reducible apply Keeps.mk')

theorem execGset_keeps {a0 s u0 : State} {a ta g} (e : execGset a ta g s = .next u0) (h : Keeps a0 s) : Keeps a0 u0 := by
  unfold execGset at e
  try dsimp only at e
  repeat' (first
    | refine State.issueWith_keeps e ?_ ?_
    | refine Keeps.next e ?_
    | split at e
    | with_reducible exact Keeps.refl _
    | with_reducible assumption
    | intro _
    | with_reducible apply State.send_keeps
    | with_reducible apply Keeps.foldl
    | (with_reducible apply Keeps.fst; case e => with_reducible assumption)
    | split
    | with_reducible apply Keeps.core
    | with_reducible apply Keeps.mk')

theorem rowElts_keeps {a0 x2 : State} {c fmt i x1 x3 x4} (h : Keeps a0 x2) : Keeps a0 (rowElts c fmt i x1 x2 x3 x4).1 := by
  induction x1 generalizing x2 x3 x4 with
  | zero =>
    unfold rowElts
    try dsimp only
    repeat' (first
      | with_reducible exact Keeps.refl _
      | with_reducible assumption
      | intro _
      | with_reducible apply State.readElem_keeps
      | with_reducible apply Keeps.foldl
      | (with_reducible apply Keeps.fst; case e => with_reducible assumption)
      | split
      | with_reducible apply Keeps.core
      | with_reducible apply Keeps.mk')
  | succ k ih =>
    unfold rowElts
    try dsimp only
    repeat' (first
      | with_reducible exact Keeps.refl _
      | with_reducible assumption
      | intro _
      | with_reducible apply ih
      | with_reducible apply State.readElem_keeps
      | with_reducible apply Keeps.foldl
      | (with_reducible apply Keeps.fst; case e => with_reducible assumption)
      | split
      | with_reducible apply Keeps.core
      | with_reducible apply Keeps.mk')

theorem State.rowOfA_keeps {a0 s : State} {c i} (h : Keeps a0 s) : Keeps a0 (State.rowOfA s c i).1 := by
  unfold State.rowOfA
  try dsimp only
  repeat' (first
    | with_reducible exact Keeps.refl _
    | with_reducible assumption
    | intro _
    | with_reducible apply rowElts_keeps
    | with_reducible apply State.readElem_keeps
    | with_reducible apply Keeps.foldl
    | (with_reducible apply Keeps.fst; case e => with_reducible assumption)
    | split
    | with_reducible apply Keeps.core
    | with_reducible apply Keeps.mk')

theorem prodLoop_keeps {a0 x2 : State} {c bank nb x1 x3} (h : Keeps a0 x2) : Keeps a0 (prodLoop c bank nb x1 x2 x3).1 := by
  induction x1 generalizing x2 x3 with
  | zero =>
    unfold prodLoop
    try dsimp only
    repeat' (first
      | with_reducible exact Keeps.refl _
      | with_reducible assumption
      | intro _
      | with_reducible apply State.rowOfA_keeps
      | with_reducible apply Keeps.foldl
      | (with_reducible apply Keeps.fst; case e => with_reducible assumption)
      | split
      | with_reducible apply Keeps.core
      | with_reducible apply Keeps.mk')
  | succ k ih =>
    unfold prodLoop
    try dsimp only
    repeat' (first
      | with_reducible exact Keeps.refl _
      | with_reducible assumption
      | intro _
      | with_reducible apply ih
      | with_reducible apply State.rowOfA_keeps
      | with_reducible apply Keeps.foldl
      | (with_reducible apply Keeps.fst; case e => with_reducible assumption)
      | split
      | with_reducible apply Keeps.core
      | with_reducible apply Keeps.mk')

theorem State.runProduct_keeps {a0 s : State} {c} (h : Keeps a0 s) : Keeps a0 (State.runProduct s c) := by
  unfold State.runProduct
  try dsimp only
  repeat' (first
    | with_reducible exact Keeps.refl _
    | with_reducible assumption
    | intro _
    | with_reducible apply State.setCmd_keeps
    | with_reducible apply State.failCmd_keeps
    | with_reducible apply State.settleCmd_keeps
    | with_reducible apply prodLoop_keeps
    | with_reducible apply Keeps.foldl
    | (with_reducible apply Keeps.fst; case e => with_reducible assumption)
    | split
    | with_reducible apply Keeps.core
    | with_reducible apply Keeps.mk')

theorem execMma_keeps {a0 s u0 : State} {cid pa pb y ret} (e : execMma cid pa pb y ret s = .next u0) (h : Keeps a0 s) : Keeps a0 u0 := by
  unfold execMma at e
  try dsimp only at e
  repeat' (first
    | (refine State.issueCmd_keeps e ?_)
    | refine State.issueWith_keeps e ?_ ?_
    | refine Keeps.next e ?_
    | split at e
    | with_reducible exact Keeps.refl _
    | with_reducible assumption
    | intro _
    | with_reducible apply Keeps.foldl
    | (with_reducible apply Keeps.fst; case e => with_reducible assumption)
    | split
    | with_reducible apply Keeps.core
    | with_reducible apply Keeps.mk')

theorem execMmag_keeps {a0 s u0 : State} {cid pa pb y ret} (e : execMmag cid pa pb y ret s = .next u0) (h : Keeps a0 s) : Keeps a0 u0 := by
  unfold execMmag at e
  try dsimp only at e
  repeat' (first
    | (refine State.issueCmd_keeps e ?_)
    | refine State.issueWith_keeps e ?_ ?_
    | refine Keeps.next e ?_
    | split at e
    | with_reducible exact Keeps.refl _
    | with_reducible assumption
    | intro _
    | with_reducible apply Keeps.foldl
    | (with_reducible apply Keeps.fst; case e => with_reducible assumption)
    | split
    | with_reducible apply Keeps.core
    | with_reducible apply Keeps.mk')

theorem execMmah_keeps {a0 s u0 : State} {cid pa pb y ret} (e : execMmah cid pa pb y ret s = .next u0) (h : Keeps a0 s) : Keeps a0 u0 := by
  unfold execMmah at e
  try dsimp only at e
  repeat' (first
    | (refine State.issueCmd_keeps e ?_)
    | refine State.issueWith_keeps e ?_ ?_
    | refine Keeps.next e ?_
    | split at e
    | with_reducible exact Keeps.refl _
    | with_reducible assumption
    | intro _
    | with_reducible apply Keeps.foldl
    | (with_reducible apply Keeps.fst; case e => with_reducible assumption)
    | split
    | with_reducible apply Keeps.core
    | with_reducible apply Keeps.mk')

theorem State.runMzero_keeps {a0 s : State} {c} (h : Keeps a0 s) : Keeps a0 (State.runMzero s c) := by
  unfold State.runMzero
  try dsimp only
  repeat' (first
    | with_reducible exact Keeps.refl _
    | with_reducible assumption
    | intro _
    | with_reducible apply State.setCmd_keeps
    | with_reducible apply Keeps.foldl
    | (with_reducible apply Keeps.fst; case e => with_reducible assumption)
    | split
    | with_reducible apply Keeps.core
    | with_reducible apply Keeps.mk')

theorem execMzero_keeps {a0 s u0 : State} {cid pa pb y ret} (e : execMzero cid pa pb y ret s = .next u0) (h : Keeps a0 s) : Keeps a0 u0 := by
  unfold execMzero at e
  try dsimp only at e
  repeat' (first
    | (refine State.issueCmd_keeps e ?_)
    | refine State.issueWith_keeps e ?_ ?_
    | refine Keeps.next e ?_
    | split at e
    | with_reducible exact Keeps.refl _
    | with_reducible assumption
    | intro _
    | with_reducible apply Keeps.foldl
    | (with_reducible apply Keeps.fst; case e => with_reducible assumption)
    | split
    | with_reducible apply Keeps.core
    | with_reducible apply Keeps.mk')

theorem execMhand_keeps {a0 s u0 : State} {e tile row0 conv} (e : execMhand e tile row0 conv s = .next u0) (h : Keeps a0 s) : Keeps a0 u0 := by
  unfold execMhand at e
  try dsimp only at e
  repeat' (first
    | refine State.issueWith_keeps e ?_ ?_
    | refine Keeps.next e ?_
    | split at e
    | with_reducible exact Keeps.refl _
    | with_reducible assumption
    | intro _
    | with_reducible apply State.send_keeps
    | with_reducible apply Keeps.foldl
    | (with_reducible apply Keeps.fst; case e => with_reducible assumption)
    | split
    | with_reducible apply Keeps.core
    | with_reducible apply Keeps.mk')

theorem execCcol_keeps {a0 s u0 : State} {cid pa pb y ret} (e : execCcol cid pa pb y ret s = .next u0) (h : Keeps a0 s) : Keeps a0 u0 := by
  unfold execCcol at e
  try dsimp only at e
  repeat' (first
    | (refine State.issueCmd_keeps e ?_)
    | refine State.issueWith_keeps e ?_ ?_
    | refine Keeps.next e ?_
    | split at e
    | with_reducible exact Keeps.refl _
    | with_reducible assumption
    | intro _
    | with_reducible apply Keeps.foldl
    | (with_reducible apply Keeps.fst; case e => with_reducible assumption)
    | split
    | with_reducible apply Keeps.core
    | with_reducible apply Keeps.mk')

theorem State.takeChunk_keeps {a0 s t : State} {d g c} (e : State.takeChunk s d g c = some t) (h : Keeps a0 s) : Keeps a0 t := by
  unfold State.takeChunk at e
  obtain ⟨r, -, rfl⟩ := Option.map_eq_some_iff.mp e
  dsimp only
  split
  · exact h.onDie
  · exact State.dieEvent_keeps h.onDie

theorem State.takeEarly_keeps {a0 x3 : State} {die x1 x2} (h : Keeps a0 x3) : Keeps a0 (State.takeEarly die x1 x2 x3) := by
  induction x1 generalizing x2 x3 with
  | nil =>
    unfold State.takeEarly
    try dsimp only
    repeat' (first
      | with_reducible exact Keeps.refl _
      | with_reducible assumption
      | intro _
      | with_reducible apply Keeps.onDie
      | (with_reducible apply State.takeChunk_keeps; case e => with_reducible assumption)
      | with_reducible apply Keeps.foldl
      | (with_reducible apply Keeps.fst; case e => with_reducible assumption)
      | split
      | with_reducible apply Keeps.core
      | with_reducible apply Keeps.mk')
  | cons y l ih =>
    unfold State.takeEarly
    try dsimp only
    repeat' (first
      | with_reducible exact Keeps.refl _
      | with_reducible assumption
      | intro _
      | with_reducible apply ih
      | with_reducible apply Keeps.onDie
      | (with_reducible apply State.takeChunk_keeps; case e => with_reducible assumption)
      | with_reducible apply Keeps.foldl
      | (with_reducible apply Keeps.fst; case e => with_reducible assumption)
      | split
      | with_reducible apply Keeps.core
      | with_reducible apply Keeps.mk')

theorem execChunkReceive_keeps {a0 s u0 : State} {die group stage src chunk good data} (e : execChunkReceive die group stage src chunk good data s = .next u0) (h : Keeps a0 s) : Keeps a0 u0 := by
  unfold execChunkReceive at e
  try dsimp only at e
  repeat' (first
    | refine State.issueWith_keeps e ?_ ?_
    | refine Keeps.next e ?_
    | split at e
    | with_reducible exact Keeps.refl _
    | with_reducible assumption
    | intro _
    | with_reducible apply Keeps.onDie
    | (with_reducible apply State.takeChunk_keeps; case e => with_reducible assumption)
    | with_reducible apply Keeps.foldl
    | (with_reducible apply Keeps.fst; case e => with_reducible assumption)
    | split
    | with_reducible apply Keeps.core
    | with_reducible apply Keeps.mk')

theorem ccolRead_keeps {a0 x2 : State} {c x1 x3 x4} (h : Keeps a0 x2) : Keeps a0 (ccolRead c x1 x2 x3 x4).1 := by
  induction x1 generalizing x2 x3 x4 with
  | zero =>
    unfold ccolRead
    try dsimp only
    repeat' (first
      | with_reducible exact Keeps.refl _
      | with_reducible assumption
      | intro _
      | with_reducible apply State.readElem_keeps
      | with_reducible apply Keeps.foldl
      | (with_reducible apply Keeps.fst; case e => with_reducible assumption)
      | split
      | with_reducible apply Keeps.core
      | with_reducible apply Keeps.mk')
  | succ k ih =>
    unfold ccolRead
    try dsimp only
    repeat' (first
      | with_reducible exact Keeps.refl _
      | with_reducible assumption
      | intro _
      | with_reducible apply ih
      | with_reducible apply State.readElem_keeps
      | with_reducible apply Keeps.foldl
      | (with_reducible apply Keeps.fst; case e => with_reducible assumption)
      | split
      | with_reducible apply Keeps.core
      | with_reducible apply Keeps.mk')

theorem State.failCcols_keeps {a0 s : State} {hit code} (h : Keeps a0 s) : Keeps a0 (State.failCcols s hit code) := by
  unfold State.failCcols
  try dsimp only
  repeat' (first
    | with_reducible exact Keeps.refl _
    | with_reducible assumption
    | intro _
    | with_reducible apply State.failCmd_keeps
    | with_reducible apply Keeps.within
    | with_reducible apply Keeps.foldl
    | (with_reducible apply Keeps.onDev; case k => simp only [Device.host, Device.setBinding])
    | (with_reducible apply Keeps.fst; case e => with_reducible assumption)
    | split
    | with_reducible apply Keeps.core
    | with_reducible apply Keeps.mk')

theorem State.onEpisodes_keeps {a0 s : State} {f} (h : Keeps a0 s) : Keeps a0 (State.onEpisodes s f) := by
  unfold State.onEpisodes
  try dsimp only
  repeat' (first
    | with_reducible exact Keeps.refl _
    | with_reducible assumption
    | intro _
    | with_reducible apply Keeps.onDie
    | with_reducible apply Keeps.foldl
    | (with_reducible apply Keeps.fst; case e => with_reducible assumption)
    | split
    | with_reducible apply Keeps.core
    | with_reducible apply Keeps.mk')

theorem State.dropEpisode_keeps {a0 s : State} {g num t} (h : Keeps a0 s) : Keeps a0 (State.dropEpisode s g num t) := by
  unfold State.dropEpisode
  try dsimp only
  repeat' (first
    | with_reducible exact Keeps.refl _
    | with_reducible assumption
    | intro _
    | with_reducible apply Keeps.onDie
    | with_reducible apply Keeps.foldl
    | (with_reducible apply Keeps.fst; case e => with_reducible assumption)
    | split
    | with_reducible apply Keeps.core
    | with_reducible apply Keeps.mk')

theorem State.failEpisode_keeps {a0 s : State} {g num code t} (h : Keeps a0 s) : Keeps a0 (State.failEpisode s g num code t) := by
  unfold State.failEpisode
  try dsimp only
  repeat' (first
    | with_reducible exact Keeps.refl _
    | with_reducible assumption
    | intro _
    | with_reducible apply State.dropEpisode_keeps
    | with_reducible apply State.onEpisodes_keeps
    | with_reducible apply State.failCcols_keeps
    | with_reducible apply Keeps.foldl
    | (with_reducible apply Keeps.fst; case e => with_reducible assumption)
    | split
    | with_reducible apply Keeps.core
    | with_reducible apply Keeps.mk')

theorem ccolWrite_keeps {a0 x2 : State} {c x1 x3 x4} (h : Keeps a0 x2) : Keeps a0 (ccolWrite c x1 x2 x3 x4).1 := by
  induction x1 generalizing x2 x3 x4 with
  | nil =>
    unfold ccolWrite
    try dsimp only
    repeat' (first
      | with_reducible exact Keeps.refl _
      | with_reducible assumption
      | intro _
      | with_reducible apply State.placeElem_keeps
      | with_reducible apply Keeps.foldl
      | (with_reducible apply Keeps.fst; case e => with_reducible assumption)
      | split
      | with_reducible apply Keeps.core
      | with_reducible apply Keeps.mk')
  | cons y l ih =>
    unfold ccolWrite
    try dsimp only
    repeat' (first
      | with_reducible exact Keeps.refl _
      | with_reducible assumption
      | intro _
      | with_reducible apply ih
      | with_reducible apply State.placeElem_keeps
      | with_reducible apply Keeps.foldl
      | (with_reducible apply Keeps.fst; case e => with_reducible assumption)
      | split
      | with_reducible apply Keeps.core
      | with_reducible apply Keeps.mk')

theorem State.joinEpisode_keeps {a0 s : State} {c r t} (h : Keeps a0 s) : Keeps a0 (State.joinEpisode s c r t) := by
  unfold State.joinEpisode
  try dsimp only
  repeat' (first
    | with_reducible exact Keeps.refl _
    | with_reducible assumption
    | intro _
    | with_reducible apply State.setCmd_keeps
    | with_reducible apply State.failEpisode_keeps
    | with_reducible apply Keeps.onDie
    | with_reducible apply State.takeEarly_keeps
    | with_reducible apply Keeps.foldl
    | (with_reducible apply Keeps.fst; case e => with_reducible assumption)
    | split
    | with_reducible apply Keeps.core
    | with_reducible apply Keeps.mk')

theorem State.ccolLoad_keeps {a0 s : State} {c e} (h : Keeps a0 s) : Keeps a0 (State.ccolLoad s c e) := by
  unfold State.ccolLoad
  try dsimp only
  repeat' (first
    | with_reducible exact Keeps.refl _
    | with_reducible assumption
    | intro _
    | with_reducible apply State.setCmd_keeps
    | with_reducible apply State.onEpisodes_keeps
    | with_reducible apply State.stopCmd_keeps
    | with_reducible apply ccolRead_keeps
    | with_reducible apply Keeps.foldl
    | (with_reducible apply Keeps.fst; case e => with_reducible assumption)
    | split
    | with_reducible apply Keeps.core
    | with_reducible apply Keeps.mk')

theorem State.engPlace_keeps {a0 s : State} {fmt x1 x2} (h : Keeps a0 s) : Keeps a0 (State.engPlace s fmt x1 x2).1 := by
  induction x1 generalizing s x2 with
  | nil =>
    unfold State.engPlace
    try dsimp only
    repeat' (first
      | with_reducible exact Keeps.refl _
      | with_reducible assumption
      | intro _
      | with_reducible apply State.spot_keeps
      | with_reducible apply Keeps.foldl
      | (with_reducible apply Keeps.fst; case e => with_reducible assumption)
      | split
      | with_reducible apply Keeps.core
      | with_reducible apply Keeps.mk')
  | cons y l ih =>
    unfold State.engPlace
    try dsimp only
    repeat' (first
      | with_reducible exact Keeps.refl _
      | with_reducible assumption
      | intro _
      | with_reducible apply ih
      | with_reducible apply State.spot_keeps
      | with_reducible apply Keeps.foldl
      | (with_reducible apply Keeps.fst; case e => with_reducible assumption)
      | split
      | with_reducible apply Keeps.core
      | with_reducible apply Keeps.mk')

theorem State.engWrite_keeps {a0 s : State} {c va fmt bs} (h : Keeps a0 s) : Keeps a0 (State.engWrite s c va fmt bs).1 := by
  unfold State.engWrite
  try dsimp only
  repeat' (first
    | with_reducible exact Keeps.refl _
    | with_reducible assumption
    | intro _
    | with_reducible apply State.applyWrites_keeps
    | with_reducible apply State.engPlace_keeps
    | with_reducible apply Keeps.foldl
    | (with_reducible apply Keeps.fst; case e => with_reducible assumption)
    | split
    | with_reducible apply Keeps.core
    | with_reducible apply Keeps.mk')

theorem State.reportStep_keeps {a0 s : State} {c bad j} (h : Keeps a0 s) : Keeps a0 (State.reportStep s c bad j).1 := by
  unfold State.reportStep
  try dsimp only
  repeat' (first
    | with_reducible exact Keeps.refl _
    | with_reducible assumption
    | intro _
    | with_reducible apply State.engWrite_keeps
    | with_reducible apply State.readElem_keeps
    | with_reducible apply Keeps.foldl
    | (with_reducible apply Keeps.fst; case e => with_reducible assumption)
    | split
    | with_reducible apply Keeps.core
    | with_reducible apply Keeps.mk')

theorem State.reportFrom_keeps {a0 x3 : State} {c bad x1 x2} (h : Keeps a0 x3) : Keeps a0 (State.reportFrom c bad x1 x2 x3).1 := by
  induction x1 generalizing x2 x3 with
  | zero =>
    unfold State.reportFrom
    try dsimp only
    repeat' (first
      | with_reducible exact Keeps.refl _
      | with_reducible assumption
      | intro _
      | with_reducible apply State.reportStep_keeps
      | with_reducible apply Keeps.foldl
      | (with_reducible apply Keeps.fst; case e => with_reducible assumption)
      | split
      | with_reducible apply Keeps.core
      | with_reducible apply Keeps.mk')
  | succ k ih =>
    unfold State.reportFrom
    try dsimp only
    repeat' (first
      | with_reducible exact Keeps.refl _
      | with_reducible assumption
      | intro _
      | with_reducible apply ih
      | with_reducible apply State.reportStep_keeps
      | with_reducible apply Keeps.foldl
      | (with_reducible apply Keeps.fst; case e => with_reducible assumption)
      | split
      | with_reducible apply Keeps.core
      | with_reducible apply Keeps.mk')

theorem State.ccolStore_keeps {a0 s : State} {c e} (h : Keeps a0 s) : Keeps a0 (State.ccolStore s c e) := by
  unfold State.ccolStore
  try dsimp only
  repeat' (first
    | with_reducible exact Keeps.refl _
    | with_reducible assumption
    | intro _
    | with_reducible apply State.setCmd_keeps
    | with_reducible apply State.applyWrites_keeps
    | with_reducible apply State.stopCmd_keeps
    | with_reducible apply State.settleCmd_keeps
    | with_reducible apply State.reportFrom_keeps
    | with_reducible apply ccolWrite_keeps
    | with_reducible apply Keeps.foldl
    | (with_reducible apply Keeps.fst; case e => with_reducible assumption)
    | split
    | with_reducible apply Keeps.core
    | with_reducible apply Keeps.mk')

theorem State.ccolGo_keeps {a0 s : State} {c} (h : Keeps a0 s) : Keeps a0 (State.ccolGo s c) := by
  unfold State.ccolGo
  try dsimp only
  repeat' (first
    | with_reducible exact Keeps.refl _
    | with_reducible assumption
    | intro _
    | with_reducible apply State.ccolStore_keeps
    | with_reducible apply State.ccolLoad_keeps
    | with_reducible apply Keeps.foldl
    | (with_reducible apply Keeps.fst; case e => with_reducible assumption)
    | split
    | with_reducible apply Keeps.core
    | with_reducible apply Keeps.mk')

theorem State.runCcol_keeps {a0 s : State} {c} (h : Keeps a0 s) : Keeps a0 (State.runCcol s c) := by
  unfold State.runCcol
  try dsimp only
  repeat' (first
    | with_reducible exact Keeps.refl _
    | with_reducible assumption
    | intro _
    | with_reducible apply State.setCmd_keeps
    | with_reducible apply State.failCmd_keeps
    | with_reducible apply State.ccolGo_keeps
    | with_reducible apply State.joinEpisode_keeps
    | with_reducible apply Keeps.foldl
    | (with_reducible apply Keeps.fst; case e => with_reducible assumption)
    | split
    | with_reducible apply Keeps.core
    | with_reducible apply Keeps.mk')

theorem State.retireCcol_keeps {a0 s : State} {c} (h : Keeps a0 s) : Keeps a0 (State.retireCcol s c) := by
  unfold State.retireCcol
  try dsimp only
  repeat' (first
    | with_reducible exact Keeps.refl _
    | with_reducible assumption
    | intro _
    | with_reducible apply State.dropEpisode_keeps
    | with_reducible apply State.ccolGo_keeps
    | with_reducible apply State.onEpisodes_keeps
    | with_reducible apply State.retireCmd_keeps
    | with_reducible apply Keeps.foldl
    | (with_reducible apply Keeps.fst; case e => with_reducible assumption)
    | split
    | with_reducible apply Keeps.core
    | with_reducible apply Keeps.mk')

theorem State.clearGroup_keeps {a0 s : State} {g} (h : Keeps a0 s) : Keeps a0 (State.clearGroup s g) := by
  unfold State.clearGroup
  try dsimp only
  repeat' (first
    | with_reducible exact Keeps.refl _
    | with_reducible assumption
    | intro _
    | with_reducible apply Keeps.onDie
    | with_reducible apply State.failCcols_keeps
    | with_reducible apply Keeps.foldl
    | (with_reducible apply Keeps.fst; case e => with_reducible assumption)
    | split
    | with_reducible apply Keeps.core
    | with_reducible apply Keeps.mk')

theorem State.runCmd_keeps {a0 s : State} {c} (h : Keeps a0 s) : Keeps a0 (State.runCmd s c) := by
  unfold State.runCmd
  try dsimp only
  repeat' (first
    | with_reducible exact Keeps.refl _
    | with_reducible assumption
    | intro _
    | with_reducible apply State.runCqf_keeps
    | with_reducible apply State.runCpy_keeps
    | with_reducible apply State.runCcol_keeps
    | with_reducible apply State.runCsel_keeps
    | with_reducible apply State.runMzero_keeps
    | with_reducible apply State.runProduct_keeps
    | with_reducible apply State.runGather_keeps
    | with_reducible apply State.runMldw_keeps
    | with_reducible apply Keeps.foldl
    | (with_reducible apply Keeps.fst; case e => with_reducible assumption)
    | split
    | with_reducible apply Keeps.core
    | with_reducible apply Keeps.mk')

theorem State.dispatch_keeps {a0 s : State} {e} (h : Keeps a0 s) : Keeps a0 (State.dispatch s e) := by
  unfold State.dispatch
  try dsimp only
  repeat' (first
    | with_reducible exact Keeps.refl _
    | with_reducible assumption
    | intro _
    | with_reducible apply State.setCmd_keeps
    | with_reducible apply State.runCmd_keeps
    | with_reducible apply Keeps.foldl
    | (with_reducible apply Keeps.fst; case e => with_reducible assumption)
    | split
    | with_reducible apply Keeps.core
    | with_reducible apply Keeps.mk')

theorem execEngineDispatch_keeps {a0 s u0 : State} {c e} (e : execEngineDispatch c e s = .next u0) (h : Keeps a0 s) : Keeps a0 u0 := by
  unfold execEngineDispatch at e
  try dsimp only at e
  repeat' (first
    | refine State.issueWith_keeps e ?_ ?_
    | refine Keeps.next e ?_
    | split at e
    | with_reducible exact Keeps.refl _
    | with_reducible assumption
    | intro _
    | with_reducible apply State.dispatch_keeps
    | with_reducible apply Keeps.within
    | with_reducible apply Keeps.foldl
    | (with_reducible apply Keeps.fst; case e => with_reducible assumption)
    | split
    | with_reducible apply Keeps.core
    | with_reducible apply Keeps.mk')

theorem execGatherPartReply_keeps {a0 s u0 : State} {c k owner} (e : execGatherPartReply c k owner s = .next u0) (h : Keeps a0 s) : Keeps a0 u0 := by
  unfold execGatherPartReply at e
  try dsimp only at e
  repeat' (first
    | refine State.issueWith_keeps e ?_ ?_
    | refine Keeps.next e ?_
    | split at e
    | with_reducible exact Keeps.refl _
    | with_reducible assumption
    | intro _
    | with_reducible apply State.runGather_keeps
    | with_reducible apply Keeps.within
    | with_reducible apply Keeps.foldl
    | (with_reducible apply Keeps.fst; case e => with_reducible assumption)
    | split
    | with_reducible apply Keeps.core
    | with_reducible apply Keeps.mk')

theorem State.gathStatus_keeps {a0 s t : State} {c} (e : State.gathStatus s c = some t) (h : Keeps a0 s) : Keeps a0 t := by
  unfold State.gathStatus at e
  dsimp only at e
  split at e
  · cases e; exact h
  · split at e
    · cases e
    · cases e; exact h.mk'

theorem execEngineRetire_keeps {a0 s u0 : State} {c k} (e : execEngineRetire c k s = .next u0) (h : Keeps a0 s) : Keeps a0 u0 := by
  unfold execEngineRetire at e
  try dsimp only at e
  repeat' (first
    | refine State.issueWith_keeps e ?_ ?_
    | refine Keeps.next e ?_
    | split at e
    | with_reducible exact Keeps.refl _
    | with_reducible assumption
    | intro _
    | with_reducible apply State.failCmd_keeps
    | with_reducible apply State.retireCcol_keeps
    | with_reducible apply State.retireCmd_keeps
    | (with_reducible apply State.gathStatus_keeps; case e => with_reducible assumption)
    | with_reducible apply Keeps.within
    | with_reducible apply Keeps.foldl
    | (with_reducible apply Keeps.fst; case e => with_reducible assumption)
    | split
    | with_reducible apply Keeps.core
    | with_reducible apply Keeps.mk')

theorem execFixedLatencyLanding_keeps {a0 s u0 : State} {c} (e : execFixedLatencyLanding c s = .next u0) (h : Keeps a0 s) : Keeps a0 u0 := by
  unfold execFixedLatencyLanding at e
  try dsimp only at e
  repeat' (first
    | refine State.issueWith_keeps e ?_ ?_
    | refine Keeps.next e ?_
    | split at e
    | with_reducible exact Keeps.refl _
    | with_reducible assumption
    | intro _
    | with_reducible apply State.landResults_keeps
    | with_reducible apply Keeps.within
    | with_reducible apply Keeps.foldl
    | (with_reducible apply Keeps.fst; case e => with_reducible assumption)
    | split
    | with_reducible apply Keeps.core
    | with_reducible apply Keeps.mk')

theorem execScratchpadStorePerform_keeps {a0 s u0 : State} {c} (e : execScratchpadStorePerform c s = .next u0) (h : Keeps a0 s) : Keeps a0 u0 := by
  unfold execScratchpadStorePerform at e
  try dsimp only at e
  repeat' (first
    | refine State.issueWith_keeps e ?_ ?_
    | refine Keeps.next e ?_
    | split at e
    | with_reducible exact Keeps.refl _
    | with_reducible assumption
    | intro _
    | with_reducible apply State.landStores_keeps
    | with_reducible apply Keeps.within
    | with_reducible apply Keeps.foldl
    | (with_reducible apply Keeps.fst; case e => with_reducible assumption)
    | split
    | with_reducible apply Keeps.core
    | with_reducible apply Keeps.mk')

theorem execNop_keeps {a0 s u0 : State}  (e : execNop s = .next u0) (h : Keeps a0 s) : Keeps a0 u0 := by
  unfold execNop at e
  try dsimp only at e
  repeat' (first
    | refine State.issueWith_keeps e ?_ ?_
    | refine Keeps.next e ?_
    | split at e
    | with_reducible exact Keeps.refl _
    | with_reducible assumption
    | intro _
    | with_reducible apply Keeps.foldl
    | (with_reducible apply Keeps.fst; case e => with_reducible assumption)
    | split
    | with_reducible apply Keeps.core
    | with_reducible apply Keeps.mk')

theorem execLd_keeps {a0 s u0 : State} {d a pm ac sz sx off} (e : execLd d a pm ac sz sx off s = .next u0) (h : Keeps a0 s) : Keeps a0 u0 := by
  unfold execLd at e
  try dsimp only at e
  repeat' (first
    | refine State.issueWith_keeps e ?_ ?_
    | refine Keeps.next e ?_
    | split at e
    | with_reducible exact Keeps.refl _
    | with_reducible assumption
    | intro _
    | with_reducible apply State.refill_keeps
    | with_reducible apply State.sawLoad_keeps
    | with_reducible apply State.produce_keeps
    | with_reducible apply State.postModify_keeps
    | with_reducible apply State.queueOp_keeps
    | with_reducible apply State.sendLoad_keeps
    | with_reducible apply State.clearFull_keeps
    | with_reducible apply Keeps.foldl
    | (with_reducible apply Keeps.fst; case e => with_reducible assumption)
    | split
    | with_reducible apply Keeps.core
    | with_reducible apply Keeps.mk')

theorem execSt_keeps {a0 s u0 : State} {d a pm ac sz off} (e : execSt d a pm ac sz off s = .next u0) (h : Keeps a0 s) : Keeps a0 u0 := by
  unfold execSt at e
  try dsimp only at e
  repeat' (first
    | refine State.issueWith_keeps e ?_ ?_
    | refine Keeps.next e ?_
    | split at e
    | with_reducible exact Keeps.refl _
    | with_reducible assumption
    | intro _
    | with_reducible apply State.refill_keeps
    | with_reducible apply State.postModify_keeps
    | with_reducible apply State.queueOp_keeps
    | with_reducible apply State.localStore_keeps
    | with_reducible apply Keeps.foldl
    | (with_reducible apply Keeps.fst; case e => with_reducible assumption)
    | split
    | with_reducible apply Keeps.core
    | with_reducible apply Keeps.mk')

theorem execMfsr_keeps {a0 s u0 : State} {d n} (e : execMfsr d n s = .next u0) (h : Keeps a0 s) : Keeps a0 u0 := by
  unfold execMfsr at e
  try dsimp only at e
  repeat' (first
    | refine State.issueWith_keeps e ?_ ?_
    | refine Keeps.next e ?_
    | split at e
    | with_reducible exact Keeps.refl _
    | with_reducible assumption
    | intro _
    | with_reducible apply State.produce_keeps
    | with_reducible apply State.send_keeps
    | with_reducible apply Keeps.foldl
    | (with_reducible apply Keeps.fst; case e => with_reducible assumption)
    | split
    | with_reducible apply Keeps.core
    | with_reducible apply Keeps.mk')

theorem execMtsr_keeps {a0 s u0 : State} {a ta n} (e : execMtsr a ta n s = .next u0) (h : Keeps a0 s) : Keeps a0 u0 := by
  unfold execMtsr at e
  try dsimp only at e
  repeat' (first
    | refine State.issueWith_keeps e ?_ ?_
    | refine Keeps.next e ?_
    | split at e
    | with_reducible exact Keeps.refl _
    | with_reducible assumption
    | intro _
    | with_reducible apply State.send_keeps
    | with_reducible apply Keeps.foldl
    | (with_reducible apply Keeps.fst; case e => with_reducible assumption)
    | split
    | with_reducible apply Keeps.core
    | with_reducible apply Keeps.mk')

theorem State.report_keeps {a0 s : State} {cause val} (h : Keeps a0 s) : Keeps a0 (State.report s cause val) := by
  unfold State.report
  try dsimp only
  repeat' (first
    | with_reducible exact Keeps.refl _
    | with_reducible assumption
    | intro _
    | with_reducible apply State.lateReport_keeps
    | with_reducible apply Keeps.foldl
    | (with_reducible apply Keeps.fst; case e => with_reducible assumption)
    | split
    | with_reducible apply Keeps.core
    | with_reducible apply Keeps.mk')

theorem execTrap_keeps {a0 s u0 : State} {code} (e : execTrap code s = .next u0) (h : Keeps a0 s) : Keeps a0 u0 := by
  unfold execTrap at e
  try dsimp only at e
  repeat' (first
    | refine State.issueWith_keeps e ?_ ?_
    | refine Keeps.next e ?_
    | split at e
    | with_reducible exact Keeps.refl _
    | with_reducible assumption
    | intro _
    | with_reducible apply State.report_keeps
    | with_reducible apply Keeps.foldl
    | (with_reducible apply Keeps.fst; case e => with_reducible assumption)
    | split
    | with_reducible apply Keeps.core
    | with_reducible apply Keeps.mk')

theorem execSys_keeps {a0 s u0 : State} {code} (e : execSys code s = .next u0) (h : Keeps a0 s) : Keeps a0 u0 := by
  unfold execSys at e
  try dsimp only at e
  repeat' (first
    | refine State.issueWith_keeps e ?_ ?_
    | refine Keeps.next e ?_
    | split at e
    | with_reducible exact Keeps.refl _
    | with_reducible assumption
    | intro _
    | with_reducible apply State.report_keeps
    | with_reducible apply Keeps.foldl
    | (with_reducible apply Keeps.fst; case e => with_reducible assumption)
    | split
    | with_reducible apply Keeps.core
    | with_reducible apply Keeps.mk')

theorem execRett_keeps {a0 s u0 : State}  (e : execRett s = .next u0) (h : Keeps a0 s) : Keeps a0 u0 := by
  unfold execRett at e
  try dsimp only at e
  repeat' (first
    | refine State.issueWith_keeps e ?_ ?_
    | refine Keeps.next e ?_
    | split at e
    | with_reducible exact Keeps.refl _
    | with_reducible assumption
    | intro _
    | with_reducible apply Keeps.foldl
    | (with_reducible apply Keeps.fst; case e => with_reducible assumption)
    | split
    | with_reducible apply Keeps.core
    | with_reducible apply Keeps.mk')

theorem execWatch_keeps {a0 s u0 : State} {a b ta tb on n} (e : execWatch a b ta tb on n s = .next u0) (h : Keeps a0 s) : Keeps a0 u0 := by
  unfold execWatch at e
  try dsimp only at e
  repeat' (first
    | refine State.issueWith_keeps e ?_ ?_
    | refine Keeps.next e ?_
    | split at e
    | with_reducible exact Keeps.refl _
    | with_reducible assumption
    | intro _
    | with_reducible apply State.send_keeps
    | with_reducible apply Keeps.foldl
    | (with_reducible apply Keeps.fst; case e => with_reducible assumption)
    | split
    | with_reducible apply Keeps.core
    | with_reducible apply Keeps.mk')

theorem State.observesToken_keeps {a0 s : State} {token} (h : Keeps a0 s) : Keeps a0 (State.observesToken s token) := by
  unfold State.observesToken
  split
  · exact h
  · exact Keeps.onRegs (Keeps.onRegs h)

theorem execWait_keeps {a0 s u0 : State} {d} (e : execWait d s = .next u0) (h : Keeps a0 s) : Keeps a0 u0 := by
  unfold execWait at e
  exact State.issueWith_keeps e (fun _ _ h => State.observesToken_keeps (State.send_keeps (Keeps.onRegs h))) h

theorem State.setSem_keeps {a0 s : State} {n v} (h : Keeps a0 s) : Keeps a0 (State.setSem s n v) := by
  unfold State.setSem
  try dsimp only
  repeat' (first
    | with_reducible exact Keeps.refl _
    | with_reducible assumption
    | intro _
    | with_reducible apply Keeps.onRegs
    | with_reducible apply Keeps.foldl
    | (with_reducible apply Keeps.fst; case e => with_reducible assumption)
    | split
    | with_reducible apply Keeps.core
    | with_reducible apply Keeps.mk')

theorem execSemadd_keeps {a0 s u0 : State} {a ta ck n} (e : execSemadd a ta ck n s = .next u0) (h : Keeps a0 s) : Keeps a0 u0 := by
  unfold execSemadd at e
  refine State.issueWith_keeps e (fun a u h => ?_) h
  have h1 : Keeps a (u.releases n.toNat) := State.releases_keeps h
  generalize u.releases n.toNat = u at h1
  dsimp only
  split
  · exact Keeps.core h1
  · split
    · exact State.setSem_keeps h1
    · exact State.queueOp_keeps h1

theorem execSemaddRemote_keeps {a0 s u0 : State} {a b ta tb ck n} (e : execSemaddRemote a b ta tb ck n s = .next u0) (h : Keeps a0 s) : Keeps a0 u0 := by
  unfold execSemaddRemote at e
  exact State.issueWith_keeps e (fun _ _ h => Keeps.core (State.releases_keeps h)) h

theorem execRemoteSemaddArrival_keeps {a0 s u0 : State} {c k} (e : execRemoteSemaddArrival c k s = .next u0) (h : Keeps a0 s) : Keeps a0 u0 := by
  unfold execRemoteSemaddArrival at e
  try dsimp only at e
  repeat' (first
    | refine State.issueWith_keeps e ?_ ?_
    | refine Keeps.next e ?_
    | split at e
    | with_reducible exact Keeps.refl _
    | with_reducible assumption
    | intro _
    | with_reducible apply Keeps.onCore
    | with_reducible apply Keeps.foldl
    | (with_reducible apply Keeps.fst; case e => with_reducible assumption)
    | split
    | with_reducible apply Keeps.core
    | with_reducible apply Keeps.mk')

theorem execSemwt_keeps {a0 s u0 : State} {a ta n} (e : execSemwt a ta n s = .next u0) (h : Keeps a0 s) : Keeps a0 u0 := by
  unfold execSemwt at e
  exact State.issueWith_keeps e (fun _ _ h => State.acquire_keeps (State.observes_keeps (State.setSem_keeps h))) h

theorem execSemtst_keeps {a0 s u0 : State} {d a ta n} (e : execSemtst d a ta n s = .next u0) (h : Keeps a0 s) : Keeps a0 u0 := by
  unfold execSemtst at e
  refine State.issueWith_keeps e (fun a u h => ?_) h
  split
  · exact State.send_keeps (State.acquire_keeps (State.observes_keeps (State.setSem_keeps h)))
  · exact State.send_keeps h

theorem execSemset_keeps {a0 s u0 : State} {a ta n} (e : execSemset a ta n s = .next u0) (h : Keeps a0 s) : Keeps a0 u0 := by
  unfold execSemset at e
  try dsimp only at e
  repeat' (first
    | refine State.issueWith_keeps e ?_ ?_
    | refine Keeps.next e ?_
    | split at e
    | with_reducible exact Keeps.refl _
    | with_reducible assumption
    | intro _
    | with_reducible apply State.setSem_keeps
    | with_reducible apply Keeps.foldl
    | (with_reducible apply Keeps.fst; case e => with_reducible assumption)
    | split
    | with_reducible apply Keeps.core
    | with_reducible apply Keeps.mk')

theorem execSemrd_keeps {a0 s u0 : State} {d n} (e : execSemrd d n s = .next u0) (h : Keeps a0 s) : Keeps a0 u0 := by
  unfold execSemrd at e
  try dsimp only at e
  repeat' (first
    | refine State.issueWith_keeps e ?_ ?_
    | refine Keeps.next e ?_
    | split at e
    | with_reducible exact Keeps.refl _
    | with_reducible assumption
    | intro _
    | with_reducible apply State.produce_keeps
    | with_reducible apply Keeps.foldl
    | (with_reducible apply Keeps.fst; case e => with_reducible assumption)
    | split
    | with_reducible apply Keeps.core
    | with_reducible apply Keeps.mk')

theorem State.setArrived_keeps {a0 s : State} {l k} (h : Keeps a0 s) : Keeps a0 (State.setArrived s l k) := by
  unfold State.setArrived
  try dsimp only
  repeat' (first
    | with_reducible exact Keeps.refl _
    | with_reducible assumption
    | intro _
    | with_reducible apply Keeps.onRegs
    | with_reducible apply Keeps.foldl
    | (with_reducible apply Keeps.fst; case e => with_reducible assumption)
    | split
    | with_reducible apply Keeps.core
    | with_reducible apply Keeps.mk')

theorem State.passBar_keeps {a0 s : State} {t l k} (h : Keeps a0 s) : Keeps a0 (State.passBar s t l k) :=
  State.acquire_keeps (State.observes_keeps (State.setArrived_keeps (State.releases_keeps h)))

theorem execBar_keeps {a0 s u0 : State} {l} (e : execBar l s = .next u0) (h : Keeps a0 s) : Keeps a0 u0 := by
  unfold execBar at e
  dsimp only at e
  split at e
  · exact State.issueWith_keeps e (fun _ _ h => h) h
  · split at e
    · exact State.issueWith_keeps e (fun _ _ h => h) h
    · split at e
      · exact State.issueWith_keeps e (fun _ _ h => State.passBar_keeps h) h
      · split at e
        · exact State.issueWith_keeps e (fun _ _ h => State.passBar_keeps h) h
        · exact State.issueWith_keeps e (fun _ _ h => State.passBar_keeps h) (State.setArrived_keeps h)

theorem State.killLost_keeps {a0 s u0 : State}  (e : State.killLost s = .next u0) (h : Keeps a0 s) : Keeps a0 u0 := by
  unfold State.killLost at e
  try dsimp only at e
  repeat' (first
    | refine State.issueWith_keeps e ?_ ?_
    | refine Keeps.next e ?_
    | split at e
    | with_reducible exact Keeps.refl _
    | with_reducible assumption
    | intro _
    | with_reducible apply State.kill_keeps
    | with_reducible apply State.mark_keeps
    | with_reducible apply Keeps.foldl
    | (with_reducible apply Keeps.fst; case e => with_reducible assumption)
    | split
    | with_reducible apply Keeps.core
    | with_reducible apply Keeps.mk')

theorem State.dropStale_keeps {a0 s : State} {l} (h : Keeps a0 s) : Keeps a0 (State.dropStale s l) := by
  unfold State.dropStale
  try dsimp only
  repeat' (first
    | with_reducible assumption
    | intro _
    | with_reducible apply Keeps.onCore
    | with_reducible apply Keeps.foldl
    | split
    | with_reducible apply Keeps.core
    | with_reducible apply Keeps.mk')

theorem State.fence_keeps {a0 s : State} {src dst sc} (h : Keeps a0 s) : Keeps a0 (State.fence s src dst sc) := by
  unfold State.fence
  refine State.fenceLocal_keeps ?_
  split
  · exact State.dropStale_keeps h
  · exact h

theorem execFence_keeps {a0 s u0 : State} {src dst sc} (e : execFence src dst sc s = .next u0) (h : Keeps a0 s) : Keeps a0 u0 := by
  unfold execFence at e
  split at e
  · exact State.killLost_keeps e h
  · exact State.issueWith_keeps e (fun _ _ h => State.fence_keeps h) h

theorem execDrain_keeps {a0 s u0 : State} {sc} (e : execDrain sc s = .next u0) (h : Keeps a0 s) : Keeps a0 u0 := by
  unfold execDrain at e
  try dsimp only at e
  repeat' (first
    | (refine State.killLost_keeps e ?_)
    | refine State.issueWith_keeps e ?_ ?_
    | refine Keeps.next e ?_
    | split at e
    | with_reducible exact Keeps.refl _
    | with_reducible assumption
    | intro _
    | with_reducible apply Keeps.foldl
    | (with_reducible apply Keeps.fst; case e => with_reducible assumption)
    | split
    | with_reducible apply Keeps.core
    | with_reducible apply Keeps.mk')

theorem execCwait_keeps {a0 s u0 : State} {n} (e : execCwait n s = .next u0) (h : Keeps a0 s) : Keeps a0 u0 := by
  unfold execCwait at e
  try dsimp only at e
  repeat' (first
    | refine State.issueWith_keeps e ?_ ?_
    | refine Keeps.next e ?_
    | split at e
    | with_reducible exact Keeps.refl _
    | with_reducible assumption
    | intro _
    | with_reducible apply Keeps.foldl
    | (with_reducible apply Keeps.fst; case e => with_reducible assumption)
    | split
    | with_reducible apply Keeps.core
    | with_reducible apply Keeps.mk')

end Sys2Proof.Machine
end

