-- ==== Sys2Proof/Laws/KeepsUnits.lean ====
section
/-! SUPPORT. The buffer, event and table meanings keep them. -/

namespace Sys2Proof.Machine

open Sys2Proof

set_option linter.all false

theorem execYset_keeps {a0 s u0 : State} {a ta w y} (e : execYset a ta w y s = .next u0) (h : Keeps a0 s) : Keeps a0 u0 := by
  unfold execYset at e
  try dsimp only at e
  repeat' (first
    | refine State.issueWith_keeps e ?_ ?_
    | refine Keeps.next e ?_
    | split at e
    | with_reducible exact Keeps.refl _
    | with_reducible assumption
    | intro _
    | with_reducible apply State.send_keeps
    | with_reducible apply Keeps.foldl
    | (with_reducible apply Keeps.fst; case e => with_reducible assumption)
    | split
    | with_reducible apply Keeps.core
    | with_reducible apply Keeps.mk')

theorem State.sawLocal_keeps {a0 s : State} {ea n} (h : Keeps a0 s) : Keeps a0 (State.sawLocal s ea n) := by
  unfold State.sawLocal
  split
  · exact State.saw_keeps h
  · exact h

theorem State.observesRange_keeps {a0 s : State} {o n} (h : Keeps a0 s) : Keeps a0 (State.observesRange s o n) := by
  unfold State.observesRange
  exact Keeps.onRegs h

theorem execYld_keeps {a0 s u0 : State} {a ta y} (e : execYld a ta y s = .next u0) (h : Keeps a0 s) : Keeps a0 u0 := by
  unfold execYld at e
  exact State.issueWith_keeps e (fun _ _ h => State.send_keeps (State.sawLocal_keeps h)) h

theorem execKld_keeps {a0 s u0 : State} {a ta} (e : execKld a ta s = .next u0) (h : Keeps a0 s) : Keeps a0 u0 := by
  unfold execKld at e
  exact State.issueWith_keeps e (fun _ _ h => State.send_keeps (State.sawLocal_keeps h)) h

theorem execCbkld_keeps {a0 s u0 : State} {a ta} (e : execCbkld a ta s = .next u0) (h : Keeps a0 s) : Keeps a0 u0 := by
  unfold execCbkld at e
  exact State.issueWith_keeps e (fun _ _ h => State.send_keeps (State.sawLocal_keeps h)) h

theorem State.setCbuf_keeps {a0 s : State} {n x} (h : Keeps a0 s) : Keeps a0 (State.setCbuf s n x) := by
  unfold State.setCbuf
  try dsimp only
  repeat' (first
    | with_reducible exact Keeps.refl _
    | with_reducible assumption
    | intro _
    | with_reducible apply Keeps.onRegs
    | with_reducible apply Keeps.foldl
    | (with_reducible apply Keeps.fst; case e => with_reducible assumption)
    | split
    | with_reducible apply Keeps.core
    | with_reducible apply Keeps.mk')

theorem execCbset_keeps {a0 s u0 : State} {a ta n} (e : execCbset a ta n s = .next u0) (h : Keeps a0 s) : Keeps a0 u0 := by
  unfold execCbset at e
  exact State.issueWith_keeps e (fun _ _ h => State.setCbuf_keeps (State.sawLocal_keeps h)) h

theorem execCbwait_keeps {a0 s u0 : State} {d n} (e : execCbwait d n s = .next u0) (h : Keeps a0 s) : Keeps a0 u0 := by
  unfold execCbwait at e
  exact State.issueWith_keeps e (fun _ _ h => State.observesRange_keeps (State.send_keeps (State.setCbuf_keeps h))) h

theorem execCbrel_keeps {a0 s u0 : State} {n} (e : execCbrel n s = .next u0) (h : Keeps a0 s) : Keeps a0 u0 := by
  unfold execCbrel at e
  try dsimp only at e
  repeat' (first
    | refine State.issueWith_keeps e ?_ ?_
    | refine Keeps.next e ?_
    | split at e
    | with_reducible exact Keeps.refl _
    | with_reducible assumption
    | intro _
    | with_reducible apply State.setCbuf_keeps
    | with_reducible apply Keeps.foldl
    | (with_reducible apply Keeps.fst; case e => with_reducible assumption)
    | split
    | with_reducible apply Keeps.core
    | with_reducible apply Keeps.mk')

theorem execCqpush_keeps {a0 s u0 : State} {a ta ck} (e : execCqpush a ta ck s = .next u0) (h : Keeps a0 s) : Keeps a0 u0 := by
  unfold execCqpush at e
  try dsimp only at e
  repeat' (first
    | refine State.issueWith_keeps e ?_ ?_
    | refine Keeps.next e ?_
    | split at e
    | with_reducible exact Keeps.refl _
    | with_reducible assumption
    | intro _
    | with_reducible apply Keeps.onRegs
    | with_reducible apply Keeps.foldl
    | (with_reducible apply Keeps.fst; case e => with_reducible assumption)
    | split
    | with_reducible apply Keeps.core
    | with_reducible apply Keeps.mk')

theorem execTdec_keeps {a0 s u0 : State} {a ta ck} (e : execTdec a ta ck s = .next u0) (h : Keeps a0 s) : Keeps a0 u0 := by
  unfold execTdec at e
  exact State.issueWith_keeps e (fun _ _ h => State.refill_keeps (State.queueOp_keeps (State.releases_keeps h))) h

theorem execEvsel_keeps {a0 s u0 : State} {a ta n} (e : execEvsel a ta n s = .next u0) (h : Keeps a0 s) : Keeps a0 u0 := by
  unfold execEvsel at e
  try dsimp only at e
  repeat' (first
    | refine State.issueWith_keeps e ?_ ?_
    | refine Keeps.next e ?_
    | split at e
    | with_reducible exact Keeps.refl _
    | with_reducible assumption
    | intro _
    | with_reducible apply State.send_keeps
    | with_reducible apply Keeps.foldl
    | (with_reducible apply Keeps.fst; case e => with_reducible assumption)
    | split
    | with_reducible apply Keeps.core
    | with_reducible apply Keeps.mk')

end Sys2Proof.Machine
end

