-- ==== Sys2Proof/Laws/KeepsSfx.lean ====
section
/-! SUPPORT. The suffix meanings and the operations of the suffix units keep them. -/

namespace Sys2Proof.Machine

open Sys2Proof

set_option linter.all false

theorem execSqpush_keeps {a0 s u0 : State} {a b ta tb ck} (e : execSqpush a b ta tb ck s = .next u0) (h : Keeps a0 s) : Keeps a0 u0 := by
  unfold execSqpush at e
  dsimp only at e
  refine State.issueWith_keeps e (fun a0 s h => ?_) h
  have h1 := State.releases_keeps (n := toOthers) (Keeps.onRegs (f := fun x => { x with asked := x.asked + 1 }) h)
  generalize (s.onRegs fun x => { x with asked := x.asked + 1 }).releases toOthers = t at h1
  split
  · exact Keeps.onCore h1
  · exact State.queueOp_keeps h1

theorem execTktst_keeps {a0 s u0 : State} {p} (e : execTktst p s = .next u0) (h : Keeps a0 s) : Keeps a0 u0 := by
  unfold execTktst at e
  try dsimp only at e
  repeat' (first
    | refine State.issueWith_keeps e ?_ ?_
    | refine Keeps.next e ?_
    | split at e
    | with_reducible exact Keeps.refl _
    | with_reducible assumption
    | intro _
    | with_reducible apply State.send_keeps
    | with_reducible apply Keeps.foldl
    | (with_reducible apply Keeps.fst; case e => with_reducible assumption)
    | split
    | with_reducible apply Keeps.core
    | with_reducible apply Keeps.mk')

theorem execTkget_keeps {a0 s u0 : State} {d} (e : execTkget d s = .next u0) (h : Keeps a0 s) : Keeps a0 u0 := by
  unfold execTkget at e
  try dsimp only at e
  repeat' (first
    | refine State.issueWith_keeps e ?_ ?_
    | refine Keeps.next e ?_
    | split at e
    | with_reducible exact Keeps.refl _
    | with_reducible assumption
    | intro _
    | with_reducible apply State.clearFull_keeps
    | with_reducible apply Keeps.onRegs
    | with_reducible apply Keeps.foldl
    | (with_reducible apply Keeps.fst; case e => with_reducible assumption)
    | split
    | with_reducible apply Keeps.core
    | with_reducible apply Keeps.mk')

theorem execTokenLanding_keeps {a0 s u0 : State} {c} (e : execTokenLanding c s = .next u0) (h : Keeps a0 s) : Keeps a0 u0 := by
  unfold execTokenLanding at e
  try dsimp only at e
  repeat' (first
    | refine State.issueWith_keeps e ?_ ?_
    | refine Keeps.next e ?_
    | split at e
    | with_reducible exact Keeps.refl _
    | with_reducible assumption
    | intro _
    | with_reducible apply State.acquire_keeps
    | with_reducible apply State.arrive_keeps
    | with_reducible apply Keeps.onRegs
    | with_reducible apply Keeps.within
    | with_reducible apply Keeps.foldl
    | (with_reducible apply Keeps.fst; case e => with_reducible assumption)
    | split
    | with_reducible apply Keeps.core
    | with_reducible apply Keeps.mk')

theorem execSqpop_keeps {a0 s u0 : State} {d} (e : execSqpop d s = .next u0) (h : Keeps a0 s) : Keeps a0 u0 := by
  unfold execSqpop at e
  try dsimp only at e
  repeat' (first
    | refine State.issueWith_keeps e ?_ ?_
    | refine Keeps.next e ?_
    | split at e
    | with_reducible exact Keeps.refl _
    | with_reducible assumption
    | intro _
    | with_reducible apply State.acquire_keeps
    | with_reducible apply State.send_keeps
    | with_reducible apply Keeps.foldl
    | (with_reducible apply Keeps.fst; case e => with_reducible assumption)
    | split
    | with_reducible apply Keeps.core
    | with_reducible apply Keeps.mk')

theorem execTkput_keeps {a0 s u0 : State} {a b ta tb} (e : execTkput a b ta tb s = .next u0) (h : Keeps a0 s) : Keeps a0 u0 := by
  unfold execTkput at e
  try dsimp only at e
  repeat' (first
    | refine State.issueWith_keeps e ?_ ?_
    | refine Keeps.next e ?_
    | split at e
    | with_reducible exact Keeps.refl _
    | with_reducible assumption
    | intro _
    | with_reducible apply Keeps.onCore
    | with_reducible apply Keeps.foldl
    | (with_reducible apply Keeps.fst; case e => with_reducible assumption)
    | split
    | with_reducible apply Keeps.core
    | with_reducible apply Keeps.mk')

theorem State.setCtx_keeps {a0 s : State} {d n c} (h : Keeps a0 s) : Keeps a0 (State.setCtx s d n c) := by
  unfold State.setCtx
  try dsimp only
  repeat' (first
    | with_reducible exact Keeps.refl _
    | with_reducible assumption
    | intro _
    | with_reducible apply Keeps.onDie
    | with_reducible apply Keeps.foldl
    | (with_reducible apply Keeps.fst; case e => with_reducible assumption)
    | split
    | with_reducible apply Keeps.core
    | with_reducible apply Keeps.mk')

theorem State.sfxIssue_keeps {a0 s : State} {a k} (h : Keeps a0 s) : Keeps a0 (State.sfxIssue s a k) := by
  unfold State.sfxIssue
  try dsimp only
  repeat' (first
    | with_reducible exact Keeps.refl _
    | with_reducible assumption
    | intro _
    | with_reducible apply Keeps.onDie
    | with_reducible apply Keeps.foldl
    | (with_reducible apply Keeps.fst; case e => with_reducible assumption)
    | split
    | with_reducible apply Keeps.core
    | with_reducible apply Keeps.mk')

theorem execSxcfg_keeps {a0 s u0 : State} {a b ta tb} (e : execSxcfg a b ta tb s = .next u0) (h : Keeps a0 s) : Keeps a0 u0 := by
  unfold execSxcfg at e
  try dsimp only at e
  repeat' (first
    | refine State.issueWith_keeps e ?_ ?_
    | refine Keeps.next e ?_
    | split at e
    | with_reducible exact Keeps.refl _
    | with_reducible assumption
    | intro _
    | with_reducible apply State.sfxIssue_keeps
    | with_reducible apply Keeps.foldl
    | (with_reducible apply Keeps.fst; case e => with_reducible assumption)
    | split
    | with_reducible apply Keeps.core
    | with_reducible apply Keeps.mk')

theorem execSxapp_keeps {a0 s u0 : State} {a b ta tb ck cnt} (e : execSxapp a b ta tb ck cnt s = .next u0) (h : Keeps a0 s) : Keeps a0 u0 := by
  unfold execSxapp at e
  try dsimp only at e
  repeat' (first
    | refine State.issueWith_keeps e ?_ ?_
    | refine Keeps.next e ?_
    | split at e
    | with_reducible exact Keeps.refl _
    | with_reducible assumption
    | intro _
    | with_reducible apply State.sfxIssue_keeps
    | with_reducible apply Keeps.foldl
    | (with_reducible apply Keeps.fst; case e => with_reducible assumption)
    | split
    | with_reducible apply Keeps.core
    | with_reducible apply Keeps.mk')

theorem execSxqry_keeps {a0 s u0 : State} {d a b ta tb n} (e : execSxqry d a b ta tb n s = .next u0) (h : Keeps a0 s) : Keeps a0 u0 := by
  unfold execSxqry at e
  try dsimp only at e
  repeat' (first
    | refine State.issueWith_keeps e ?_ ?_
    | refine Keeps.next e ?_
    | split at e
    | with_reducible exact Keeps.refl _
    | with_reducible assumption
    | intro _
    | with_reducible apply State.clearFull_keeps
    | with_reducible apply State.sfxIssue_keeps
    | with_reducible apply Keeps.foldl
    | (with_reducible apply Keeps.fst; case e => with_reducible assumption)
    | split
    | with_reducible apply Keeps.core
    | with_reducible apply Keeps.mk')

theorem execSxstat_keeps {a0 s u0 : State} {d a ta} (e : execSxstat d a ta s = .next u0) (h : Keeps a0 s) : Keeps a0 u0 := by
  unfold execSxstat at e
  try dsimp only at e
  repeat' (first
    | refine State.issueWith_keeps e ?_ ?_
    | refine Keeps.next e ?_
    | split at e
    | with_reducible exact Keeps.refl _
    | with_reducible assumption
    | intro _
    | with_reducible apply State.clearFull_keeps
    | with_reducible apply State.sfxIssue_keeps
    | with_reducible apply Keeps.foldl
    | (with_reducible apply Keeps.fst; case e => with_reducible assumption)
    | split
    | with_reducible apply Keeps.core
    | with_reducible apply Keeps.mk')

theorem execSxsave_keeps {a0 s u0 : State} {a b ta tb} (e : execSxsave a b ta tb s = .next u0) (h : Keeps a0 s) : Keeps a0 u0 := by
  unfold execSxsave at e
  try dsimp only at e
  repeat' (first
    | refine State.issueWith_keeps e ?_ ?_
    | refine Keeps.next e ?_
    | split at e
    | with_reducible exact Keeps.refl _
    | with_reducible assumption
    | intro _
    | with_reducible apply State.sfxIssue_keeps
    | with_reducible apply Keeps.foldl
    | (with_reducible apply Keeps.fst; case e => with_reducible assumption)
    | split
    | with_reducible apply Keeps.core
    | with_reducible apply Keeps.mk')

theorem execSxload_keeps {a0 s u0 : State} {a b ta tb} (e : execSxload a b ta tb s = .next u0) (h : Keeps a0 s) : Keeps a0 u0 := by
  unfold execSxload at e
  try dsimp only at e
  repeat' (first
    | refine State.issueWith_keeps e ?_ ?_
    | refine Keeps.next e ?_
    | split at e
    | with_reducible exact Keeps.refl _
    | with_reducible assumption
    | intro _
    | with_reducible apply State.sfxIssue_keeps
    | with_reducible apply Keeps.foldl
    | (with_reducible apply Keeps.fst; case e => with_reducible assumption)
    | split
    | with_reducible apply Keeps.core
    | with_reducible apply Keeps.mk')

/-- The state in which an operation ends. -/
def SfxEnd.state : SfxEnd → State
  | .done s => s
  | .fail s _ _ => s
  | .park s _ _ => s

theorem sfxStore_keeps {a0 s : State} {o va fuel i} (h : Keeps a0 s) : Keeps a0 (sfxStore o va fuel s i).state := by
  induction fuel generalizing s i with
  | zero => exact h
  | succ k ih =>
    unfold sfxStore
    dsimp only
    split
    · exact h
    · split
      · rename_i e; exact Keeps.fst e (State.reach_keeps h)
      · rename_i e; exact Keeps.fst e (State.reach_keeps h)
      · rename_i e
        have k := Keeps.fst e (State.reach_keeps h)
        apply ih
        split
        · exact (State.cacheWrites_keeps (State.physWrite_keeps k)).core
        · exact State.cacheWrites_keeps (State.physWrite_keeps k)

theorem sfxFetch_keeps {a0 s : State} {o va fuel i acc} (h : Keeps a0 s) :
    (∀ x, sfxFetch o va fuel s i acc = .inl x → Keeps a0 x.state) ∧ ∀ t bs, sfxFetch o va fuel s i acc = .inr (t, bs) → Keeps a0 t := by
  induction fuel generalizing s i acc with
  | zero => refine ⟨fun x e => ?_, fun t bs e => ?_⟩ <;> (unfold sfxFetch at e; cases e); exact h
  | succ k ih =>
    unfold sfxFetch
    dsimp only
    split
    · rename_i q
      have k := Keeps.fst q (State.vRead_keeps h)
      refine ⟨fun x e => ?_, fun t bs e => ?_⟩ <;> cases e; exact k
    · rename_i q
      have k := Keeps.fst q (State.vRead_keeps h)
      refine ⟨fun x e => ?_, fun t bs e => ?_⟩ <;> cases e; exact k
    · rename_i q
      have k := Keeps.fst q (State.vRead_keeps h)
      refine ⟨fun x e => ?_, fun t bs e => ?_⟩ <;> cases e; exact k
    · rename_i q
      exact ih (Keeps.fst q (State.vRead_keeps h))

theorem State.sfxSave_keeps {a0 s : State} {d o va} (h : Keeps a0 s) : Keeps a0 (State.sfxSave s d o va).state := by
  unfold State.sfxSave
  dsimp only
  have k : Keeps a0 { s with fresh := s.fresh + 1 } := h.mk'
  cases o.image.isEmpty
  · simp only [Bool.false_eq_true, if_false]
    split
    · exact h
    · exact sfxStore_keeps h
  · simp only [if_true]
    split
    · exact k
    · exact sfxStore_keeps k

theorem State.sfxLoad_keeps {a0 s : State} {d o va} (h : Keeps a0 s) : Keeps a0 (State.sfxLoad s d o va).state := by
  unfold State.sfxLoad
  split
  · rename_i q
    split at q
    · exact (sfxFetch_keeps h).1 _ q
    · cases q
  · rename_i t head q
    have k : Keeps a0 t := by
      split at q
      · exact (sfxFetch_keeps h).2 _ _ q
      · cases q; exact h
    split
    · exact k
    · split
      · rename_i q; exact (sfxFetch_keeps k).1 _ q
      · rename_i q
        have k2 := (sfxFetch_keeps k).2 _ _ q
        repeat' (first
          | exact k2
          | exact State.setCtx_keeps k2
          | split)

theorem State.sfxResult_keeps {a0 s : State} {o n v} (h : Keeps a0 s) : Keeps a0 (State.sfxResult s o n v) := State.result_keeps h

theorem State.putDrafts_keeps {a0 s : State} {snap off bs} (h : Keeps a0 s) : Keeps a0 (State.putDrafts s snap off bs) := by
  unfold State.putDrafts
  dsimp only
  split
  · exact Keeps.core h
  · exact Keeps.mk' h

theorem State.sfxPerform_keeps {a0 s : State} {d o} (h : Keeps a0 s) : Keeps a0 (State.sfxPerform s d o).state := by
  unfold State.sfxPerform
  dsimp only
  split
  · show Keeps a0 (if _ then _ else s)
    split
    · exact Keeps.onDie (State.setCtx_keeps h)
    · exact h
  · exact h
  · split
    · split
      · exact State.setCtx_keeps h
      · split
        · exact h
        · exact State.setCtx_keeps h
    · split
      · exact h
      · exact State.setCtx_keeps h
    · dsimp only [SfxEnd.state]
      refine State.sfxResult_keeps ?_
      split
      · exact State.setCtx_keeps h
      · exact State.putDrafts_keeps (State.setCtx_keeps h)
    · exact State.sfxResult_keeps h
    · exact State.sfxSave_keeps h
    · exact State.sfxLoad_keeps h

theorem execSuffixOpPerform_keeps {a0 s u0 : State} {die k} (e : execSuffixOpPerform die k s = .next u0) (h : Keeps a0 s) : Keeps a0 u0 := by
  unfold execSuffixOpPerform at e
  dsimp only at e
  refine Keeps.next e ?_
  refine Keeps.orHold (fun a0 s h => ?_) h
  split
  · exact h
  · rename_i o _
    refine Keeps.within (fun b t h => ?_) h
    have k2 : Keeps b (t.sfxPerform die o).state := State.sfxPerform_keeps h
    split
    · rename_i q; rw [q] at k2; exact Keeps.onDie k2
    · rename_i q; rw [q] at k2; exact State.lateReport_keeps (Keeps.onDie k2)
    · rename_i q
      rw [q] at k2
      refine State.lateReport_keeps ?_
      split
      · exact State.sfxResult_keeps (Keeps.onDie k2)
      · exact Keeps.onDie k2

end Sys2Proof.Machine
end

