-- ==== Sys2Proof/Laws/KeepsRecords.lean ====
section
/-! SUPPORT. Reading and checking records, and the completion of a task, keep them. -/

namespace Sys2Proof.Machine

open Sys2Proof

set_option linter.all false

theorem State.setErr_keeps {a0 s : State} {i} (h : Keeps a0 s) : Keeps a0 (State.setErr s i) := by
  unfold State.setErr
  try dsimp only
  repeat' (first
    | with_reducible exact Keeps.refl _
    | with_reducible assumption
    | intro _
    | with_reducible apply Keeps.foldl
    | (with_reducible apply Keeps.onDev; case k => simp only [Device.host, Device.setBinding])
    | (with_reducible apply Keeps.fst; case e => with_reducible assumption)
    | split
    | with_reducible apply Keeps.core
    | with_reducible apply Keeps.mk')

theorem State.recBytes_keeps {a0 s : State} {job va n} (h : Keeps a0 s) : Keeps a0 (State.recBytes s job va n).1 := by
  unfold State.recBytes
  try dsimp only
  repeat' (first
    | with_reducible exact Keeps.refl _
    | with_reducible assumption
    | intro _
    | with_reducible apply State.vReadAll_keeps
    | with_reducible apply Keeps.foldl
    | (with_reducible apply Keeps.fst; case e => with_reducible assumption)
    | split
    | with_reducible apply Keeps.core
    | with_reducible apply Keeps.mk')

theorem State.readCode_keeps {a0 s : State} {job va} (h : Keeps a0 s) : Keeps a0 (State.readCode s job va).1 := by
  unfold State.readCode
  try dsimp only
  repeat' (first
    | with_reducible exact Keeps.refl _
    | with_reducible assumption
    | intro _
    | with_reducible apply State.recBytes_keeps
    | with_reducible apply Keeps.foldl
    | (with_reducible apply Keeps.fst; case e => with_reducible assumption)
    | split
    | with_reducible apply Keeps.core
    | with_reducible apply Keeps.mk')

theorem State.readPreloads_keeps {a0 s : State} {job va n} (h : Keeps a0 s) : Keeps a0 (State.readPreloads s job va n).1 := by
  unfold State.readPreloads
  try dsimp only
  repeat' (first
    | with_reducible exact Keeps.refl _
    | with_reducible assumption
    | intro _
    | with_reducible apply State.recBytes_keeps
    | with_reducible apply Keeps.foldl
    | (with_reducible apply Keeps.fst; case e => with_reducible assumption)
    | split
    | with_reducible apply Keeps.core
    | with_reducible apply Keeps.mk')

theorem State.readLaunch_keeps {a0 s : State} {job va} (h : Keeps a0 s) : Keeps a0 (State.readLaunch s job va).1 := by
  unfold State.readLaunch
  try dsimp only
  repeat' (first
    | with_reducible exact Keeps.refl _
    | with_reducible assumption
    | intro _
    | with_reducible apply State.recBytes_keeps
    | with_reducible apply Keeps.foldl
    | (with_reducible apply Keeps.fst; case e => with_reducible assumption)
    | split
    | with_reducible apply Keeps.core
    | with_reducible apply Keeps.mk')

theorem State.launchCheck_keeps {a0 s : State} {d t} (h : Keeps a0 s) : Keeps a0 (State.launchCheck s d t).1 := by
  unfold State.launchCheck
  try dsimp only
  repeat' (first
    | with_reducible exact Keeps.refl _
    | with_reducible assumption
    | intro _
    | with_reducible apply Keeps.onDie
    | with_reducible apply State.readCode_keeps
    | with_reducible apply State.readPreloads_keeps
    | with_reducible apply State.vWrite_keeps
    | with_reducible apply Keeps.foldl
    | (with_reducible apply Keeps.fst; case e => with_reducible assumption)
    | split
    | with_reducible apply Keeps.core
    | with_reducible apply Keeps.mk')

theorem State.completionStore_keeps {a0 s : State} {t v} (h : Keeps a0 s) : Keeps a0 (State.completionStore s t v) := by
  unfold State.completionStore
  try dsimp only
  repeat' (first
    | with_reducible exact Keeps.refl _
    | with_reducible assumption
    | intro _
    | with_reducible apply State.setErr_keeps
    | with_reducible apply State.vWrite_keeps
    | with_reducible apply Keeps.foldl
    | (with_reducible apply Keeps.fst; case e => with_reducible assumption)
    | split
    | with_reducible apply Keeps.core
    | with_reducible apply Keeps.mk')

theorem State.rejectTask_keeps {a0 s : State} {t} (h : Keeps a0 s) : Keeps a0 (State.rejectTask s t) := by
  unfold State.rejectTask
  try dsimp only
  repeat' (first
    | with_reducible exact Keeps.refl _
    | with_reducible assumption
    | intro _
    | with_reducible apply State.completionStore_keeps
    | with_reducible apply Keeps.foldl
    | (with_reducible apply Keeps.fst; case e => with_reducible assumption)
    | split
    | with_reducible apply Keeps.core
    | with_reducible apply Keeps.mk')

theorem State.succDec_keeps {a0 s : State} {job list a} (h : Keeps a0 s) : Keeps a0 (State.succDec s job list a) := by
  unfold State.succDec
  try dsimp only
  repeat' (first
    | with_reducible exact Keeps.refl _
    | with_reducible assumption
    | intro _
    | with_reducible apply State.setErr_keeps
    | with_reducible apply State.translateHeld_keeps
    | with_reducible apply Keeps.foldl
    | (with_reducible apply Keeps.onDev; case k => simp only [Device.host, Device.setBinding])
    | (with_reducible apply Keeps.fst; case e => with_reducible assumption)
    | split
    | with_reducible apply Keeps.core
    | with_reducible apply Keeps.mk')

theorem State.successors_keeps {a0 s : State} {t} (h : Keeps a0 s) : Keeps a0 (State.successors s t).1 := by
  unfold State.successors
  try dsimp only
  repeat' (first
    | with_reducible exact Keeps.refl _
    | with_reducible assumption
    | intro _
    | with_reducible apply State.recBytes_keeps
    | with_reducible apply Keeps.foldl
    | (with_reducible apply Keeps.fst; case e => with_reducible assumption)
    | split
    | with_reducible apply Keeps.core
    | with_reducible apply Keeps.mk')

theorem State.complete_keeps {a0 s : State} {t} (h : Keeps a0 s) : Keeps a0 (State.complete s t) := by
  unfold State.complete
  try dsimp only
  repeat' (first
    | with_reducible exact Keeps.refl _
    | with_reducible assumption
    | intro _
    | with_reducible apply State.completionStore_keeps
    | with_reducible apply State.succDec_keeps
    | with_reducible apply State.setErr_keeps
    | with_reducible apply State.successors_keeps
    | with_reducible apply Keeps.foldl
    | (with_reducible apply Keeps.fst; case e => with_reducible assumption)
    | split
    | with_reducible apply Keeps.core
    | with_reducible apply Keeps.mk')

end Sys2Proof.Machine
end

