-- ==== Sys2Proof/Laws/KeepsSave.lean ====
section
/-! SUPPORT. Saving and restoring a context, and the fault ring, keep them. -/

namespace Sys2Proof.Machine

open Sys2Proof

set_option linter.all false

theorem State.areaPlace_keeps {a0 s : State} {w write va} (h : Keeps a0 s) : Keeps a0 (State.areaPlace s w write va).1 := by
  unfold State.areaPlace
  try dsimp only
  repeat' (first
    | with_reducible exact Keeps.refl _
    | with_reducible assumption
    | intro _
    | with_reducible apply State.hold_keeps
    | with_reducible apply State.translateHeld_keeps
    | with_reducible apply Keeps.foldl
    | (with_reducible apply Keeps.fst; case e => with_reducible assumption)
    | split
    | with_reducible apply Keeps.core
    | with_reducible apply Keeps.mk')

theorem State.areaLine_keeps {a0 s : State} {w va bs} (h : Keeps a0 s) : Keeps a0 (State.areaLine s w va bs).1 := by
  unfold State.areaLine
  try dsimp only
  repeat' (first
    | with_reducible exact Keeps.refl _
    | with_reducible assumption
    | intro _
    | with_reducible apply State.writePlain_keeps
    | with_reducible apply State.areaPlace_keeps
    | with_reducible apply Keeps.foldl
    | (with_reducible apply Keeps.fst; case e => with_reducible assumption)
    | split
    | with_reducible apply Keeps.core
    | with_reducible apply Keeps.mk')

theorem State.areaWrite_keeps {a0 x2 : State} {w x1 x3 x4} (h : Keeps a0 x2) : Keeps a0 (State.areaWrite w x1 x2 x3 x4).1 := by
  induction x1 generalizing x2 x3 x4 with
  | zero =>
    unfold State.areaWrite
    try dsimp only
    repeat' (first
      | with_reducible exact Keeps.refl _
      | with_reducible assumption
      | intro _
      | with_reducible apply State.areaLine_keeps
      | with_reducible apply Keeps.foldl
      | (with_reducible apply Keeps.fst; case e => with_reducible assumption)
      | split
      | with_reducible apply Keeps.core
      | with_reducible apply Keeps.mk')
  | succ k ih =>
    unfold State.areaWrite
    try dsimp only
    repeat' (first
      | with_reducible exact Keeps.refl _
      | with_reducible assumption
      | intro _
      | with_reducible apply ih
      | with_reducible apply State.areaLine_keeps
      | with_reducible apply Keeps.foldl
      | (with_reducible apply Keeps.fst; case e => with_reducible assumption)
      | split
      | with_reducible apply Keeps.core
      | with_reducible apply Keeps.mk')

theorem State.areaBlocks_keeps {a0 x2 : State} {w base x1} (h : Keeps a0 x2) : Keeps a0 (State.areaBlocks w base x1 x2).1 := by
  induction x1 generalizing x2 with
  | nil =>
    unfold State.areaBlocks
    try dsimp only
    repeat' (first
      | with_reducible exact Keeps.refl _
      | with_reducible assumption
      | intro _
      | with_reducible apply State.areaWrite_keeps
      | with_reducible apply Keeps.foldl
      | (with_reducible apply Keeps.fst; case e => with_reducible assumption)
      | split
      | with_reducible apply Keeps.core
      | with_reducible apply Keeps.mk')
  | cons y l ih =>
    unfold State.areaBlocks
    try dsimp only
    repeat' (first
      | with_reducible exact Keeps.refl _
      | with_reducible assumption
      | intro _
      | with_reducible apply ih
      | with_reducible apply State.areaWrite_keeps
      | with_reducible apply Keeps.foldl
      | (with_reducible apply Keeps.fst; case e => with_reducible assumption)
      | split
      | with_reducible apply Keeps.core
      | with_reducible apply Keeps.mk')

theorem State.areaRead_keeps {a0 x2 : State} {w x1 x3 x4} (h : Keeps a0 x2) : Keeps a0 (State.areaRead w x1 x2 x3 x4).1 := by
  induction x1 generalizing x2 x3 x4 with
  | zero =>
    unfold State.areaRead
    try dsimp only
    repeat' (first
      | with_reducible exact Keeps.refl _
      | with_reducible assumption
      | intro _
      | with_reducible apply State.areaPlace_keeps
      | with_reducible apply Keeps.foldl
      | (with_reducible apply Keeps.fst; case e => with_reducible assumption)
      | split
      | with_reducible apply Keeps.core
      | with_reducible apply Keeps.mk')
  | succ k ih =>
    unfold State.areaRead
    try dsimp only
    repeat' (first
      | with_reducible exact Keeps.refl _
      | with_reducible assumption
      | intro _
      | with_reducible apply ih
      | with_reducible apply State.areaPlace_keeps
      | with_reducible apply Keeps.foldl
      | (with_reducible apply Keeps.fst; case e => with_reducible assumption)
      | split
      | with_reducible apply Keeps.core
      | with_reducible apply Keeps.mk')

theorem State.areaBlock_keeps {a0 s : State} {t off n} (h : Keeps a0 s) : Keeps a0 (State.areaBlock s t off n).1 := by
  unfold State.areaBlock
  try dsimp only
  repeat' (first
    | with_reducible exact Keeps.refl _
    | with_reducible assumption
    | intro _
    | with_reducible apply State.areaRead_keeps
    | with_reducible apply Keeps.foldl
    | (with_reducible apply Keeps.fst; case e => with_reducible assumption)
    | split
    | with_reducible apply Keeps.core
    | with_reducible apply Keeps.mk')

theorem Keeps.keep {a s : State} {v : Saved} (h : Keeps a s) : Keeps a (s.onDev fun d => d.keep v) := ⟨h.mem, h.host⟩

theorem State.saveFull_keeps {a0 s : State} {t r cause val} (h : Keeps a0 s) : Keeps a0 (State.saveFull s t r cause val).1 := by
  unfold State.saveFull
  dsimp only
  split
  · rename_i e
    exact Keeps.fst e (State.areaBlocks_keeps h.mk')
  · rename_i e
    exact Keeps.keep (Keeps.fst e (State.areaBlocks_keeps h.mk'))

theorem State.saveYield_keeps {a0 s : State} {t ranges} (h : Keeps a0 s) : Keeps a0 (State.saveYield s t ranges).1 := by
  unfold State.saveYield
  dsimp only
  split
  · rename_i e
    exact Keeps.fst e (State.areaBlocks_keeps h.mk')
  · rename_i e
    exact Keeps.keep (Keeps.fst e (State.areaBlocks_keeps h.mk'))

theorem State.restoreRanges_keeps {a0 x2 : State} {t x1} (h : Keeps a0 x2) : Keeps a0 (State.restoreRanges t x1 x2).1 := by
  induction x1 generalizing x2 with
  | nil =>
    unfold State.restoreRanges
    try dsimp only
    repeat' (first
      | with_reducible exact Keeps.refl _
      | with_reducible assumption
      | intro _
      | with_reducible apply State.areaBlock_keeps
      | with_reducible apply Keeps.foldl
      | (with_reducible apply Keeps.fst; case e => with_reducible assumption)
      | split
      | with_reducible apply Keeps.core
      | with_reducible apply Keeps.mk')
  | cons y l ih =>
    unfold State.restoreRanges
    try dsimp only
    repeat' (first
      | with_reducible exact Keeps.refl _
      | with_reducible assumption
      | intro _
      | with_reducible apply ih
      | with_reducible apply State.areaBlock_keeps
      | with_reducible apply Keeps.foldl
      | (with_reducible apply Keeps.fst; case e => with_reducible assumption)
      | split
      | with_reducible apply Keeps.core
      | with_reducible apply Keeps.mk')

theorem State.requeueSfx_keeps {a0 s : State} {v} (h : Keeps a0 s) : Keeps a0 (State.requeueSfx s v) := by
  unfold State.requeueSfx
  try dsimp only
  repeat' (first
    | with_reducible exact Keeps.refl _
    | with_reducible assumption
    | intro _
    | with_reducible apply Keeps.onDie
    | with_reducible apply Keeps.foldl
    | (with_reducible apply Keeps.fst; case e => with_reducible assumption)
    | split
    | with_reducible apply Keeps.core
    | with_reducible apply Keeps.mk')

theorem State.restore_keeps {a0 s : State} {t kind} (h : Keeps a0 s) : Keeps a0 (State.restore s t kind).1 := by
  have hm : ∀ (v : Option Saved) (u : State), Keeps a0 u → Keeps a0 (match v with
      | none => u
      | some v => (({ u with core := u.core.addSaved v } : State).requeueSfx v).onDev fun d => d.release v) := fun v u h => by
    cases v
    · exact h
    · exact Keeps.onDev rfl (State.requeueSfx_keeps (Keeps.core h))
  unfold State.restore
  dsimp only
  split
  · split
    · rename_i e; exact Keeps.fst e (State.areaBlock_keeps h)
    · rename_i e
      refine State.areaLine_keeps (hm _ _ (Keeps.onRegs (Keeps.core (Keeps.fst e (State.areaBlock_keeps h)))))
  · split
    · rename_i e; exact Keeps.fst e (State.areaBlock_keeps h)
    · rename_i e
      have h1 := Keeps.fst e (State.areaBlock_keeps h)
      split
      · rename_i e; exact Keeps.fst e (State.areaBlock_keeps h1)
      · rename_i e
        have h2 := Keeps.fst e (State.areaBlock_keeps h1)
        split
        · rename_i e; exact Keeps.fst e (State.restoreRanges_keeps (Keeps.core h2))
        · rename_i e
          have h3 := Keeps.fst e (State.restoreRanges_keeps (Keeps.core h2))
          exact State.areaLine_keeps (hm _ _ (Keeps.onRegs h3))

theorem State.areaKind_keeps {a0 s : State} {t} (h : Keeps a0 s) : Keeps a0 (State.areaKind s t).1 := by
  unfold State.areaKind
  try dsimp only
  repeat' (first
    | with_reducible exact Keeps.refl _
    | with_reducible assumption
    | intro _
    | with_reducible apply State.areaBlock_keeps
    | with_reducible apply Keeps.foldl
    | (with_reducible apply Keeps.fst; case e => with_reducible assumption)
    | split
    | with_reducible apply Keeps.core
    | with_reducible apply Keeps.mk')

theorem State.armRecord_keeps {a0 s : State} {t} (h : Keeps a0 s) : Keeps a0 (State.armRecord s t) := by
  unfold State.armRecord
  try dsimp only
  repeat' (first
    | with_reducible exact Keeps.refl _
    | with_reducible assumption
    | intro _
    | with_reducible apply State.vWrite_keeps
    | with_reducible apply Keeps.foldl
    | (with_reducible apply Keeps.fst; case e => with_reducible assumption)
    | split
    | with_reducible apply Keeps.core
    | with_reducible apply Keeps.mk')

theorem State.ringAppend_keeps {a0 s : State} {d e} (h : Keeps a0 s) : Keeps a0 (State.ringAppend s d e) := by
  unfold State.ringAppend
  try dsimp only
  repeat' (first
    | with_reducible exact Keeps.refl _
    | with_reducible assumption
    | intro _
    | with_reducible apply State.writePlain_keeps
    | with_reducible apply Keeps.foldl
    | (with_reducible apply Keeps.fst; case e => with_reducible assumption)
    | split
    | with_reducible apply Keeps.core
    | with_reducible apply Keeps.mk')

theorem State.post_keeps {a0 s : State} {d e} (h : Keeps a0 s) : Keeps a0 (State.post s d e) := by
  unfold State.post
  try dsimp only
  repeat' (first
    | with_reducible exact Keeps.refl _
    | with_reducible assumption
    | intro _
    | with_reducible apply State.ringAppend_keeps
    | with_reducible apply Keeps.onDie
    | with_reducible apply Keeps.foldl
    | (with_reducible apply Keeps.fst; case e => with_reducible assumption)
    | split
    | with_reducible apply Keeps.core
    | with_reducible apply Keeps.mk')

end Sys2Proof.Machine
end

