-- ==== Sys2Proof/Laws/KeepsStart.lean ====
section
/-! SUPPORT. Starting a task keeps them. -/

namespace Sys2Proof.Machine

open Sys2Proof

set_option linter.all false

theorem State.kernelOf_keeps {a0 s : State} {t} (h : Keeps a0 s) : Keeps a0 (State.kernelOf s t).1 := by
  unfold State.kernelOf
  try dsimp only
  repeat' (first
    | with_reducible exact Keeps.refl _
    | with_reducible assumption
    | intro _
    | with_reducible apply State.recBytes_keeps
    | with_reducible apply Keeps.foldl
    | (with_reducible apply Keeps.fst; case e => with_reducible assumption)
    | split
    | with_reducible apply Keeps.core
    | with_reducible apply Keeps.mk')

theorem State.loadText_keeps {a0 s : State} {t} (h : Keeps a0 s) : Keeps a0 (State.loadText s t).1 := by
  unfold State.loadText
  try dsimp only
  repeat' (first
    | with_reducible exact Keeps.refl _
    | with_reducible assumption
    | intro _
    | with_reducible apply State.recBytes_keeps
    | with_reducible apply State.kernelOf_keeps
    | with_reducible apply Keeps.foldl
    | (with_reducible apply Keeps.fst; case e => with_reducible assumption)
    | split
    | with_reducible apply Keeps.core
    | with_reducible apply Keeps.mk')

theorem State.copyRanges_keeps {a0 x2 : State} {t x1 x3} (h : Keeps a0 x2) : Keeps a0 (State.copyRanges t x1 x2 x3).1 := by
  induction x1 generalizing x2 x3 with
  | nil =>
    unfold State.copyRanges
    try dsimp only
    repeat' (first
      | with_reducible exact Keeps.refl _
      | with_reducible assumption
      | intro _
      | with_reducible apply State.recBytes_keeps
      | with_reducible apply Keeps.foldl
      | (with_reducible apply Keeps.fst; case e => with_reducible assumption)
      | split
      | with_reducible apply Keeps.core
      | with_reducible apply Keeps.mk')
  | cons y l ih =>
    unfold State.copyRanges
    try dsimp only
    repeat' (first
      | with_reducible exact Keeps.refl _
      | with_reducible assumption
      | intro _
      | with_reducible apply ih
      | with_reducible apply State.recBytes_keeps
      | with_reducible apply Keeps.foldl
      | (with_reducible apply Keeps.fst; case e => with_reducible assumption)
      | split
      | with_reducible apply Keeps.core
      | with_reducible apply Keeps.mk')

theorem State.preloadBank_keeps {a0 s : State} {t} (h : Keeps a0 s) : Keeps a0 (State.preloadBank s t).1 := by
  unfold State.preloadBank
  try dsimp only
  repeat' (first
    | with_reducible exact Keeps.refl _
    | with_reducible assumption
    | intro _
    | with_reducible apply State.copyRanges_keeps
    | with_reducible apply State.readPreloads_keeps
    | with_reducible apply Keeps.foldl
    | (with_reducible apply Keeps.fst; case e => with_reducible assumption)
    | split
    | with_reducible apply Keeps.core
    | with_reducible apply Keeps.mk')

theorem State.takeSnapshot_keeps {a0 s : State}  (h : Keeps a0 s) : Keeps a0 (State.takeSnapshot s) := by
  unfold State.takeSnapshot
  try dsimp only
  repeat' (first
    | with_reducible exact Keeps.refl _
    | with_reducible assumption
    | intro _
    | with_reducible apply Keeps.onDie
    | with_reducible apply Keeps.foldl
    | (with_reducible apply Keeps.fst; case e => with_reducible assumption)
    | split
    | with_reducible apply Keeps.core
    | with_reducible apply Keeps.mk')

theorem State.stopBefore_keeps {a0 s : State} {t e pc} (h : Keeps a0 s) : Keeps a0 (State.stopBefore s t e pc) := by
  unfold State.stopBefore
  try dsimp only
  repeat' (first
    | with_reducible exact Keeps.refl _
    | with_reducible assumption
    | intro _
    | with_reducible apply State.hold_keeps
    | with_reducible apply State.post_keeps
    | with_reducible apply State.kill_keeps
    | with_reducible apply State.freeCore_keeps
    | with_reducible apply State.armRecord_keeps
    | with_reducible apply Keeps.foldl
    | (with_reducible apply Keeps.fst; case e => with_reducible assumption)
    | split
    | with_reducible apply Keeps.core
    | with_reducible apply Keeps.mk')

theorem State.enter_keeps {a0 s : State} {t bank x} (h : Keeps a0 s) : Keeps a0 (State.enter s t bank x) := by
  unfold State.enter
  try dsimp only
  repeat' (first
    | with_reducible exact Keeps.refl _
    | with_reducible assumption
    | intro _
    | with_reducible apply Keeps.foldl
    | (with_reducible apply Keeps.fst; case e => with_reducible assumption)
    | split
    | with_reducible apply Keeps.core
    | with_reducible apply Keeps.mk')

theorem State.begin_keeps {a0 s : State} {kind} (h : Keeps a0 s) : Keeps a0 (State.begin s kind) := by
  unfold State.begin
  dsimp only
  generalize e : State.acquire _ Scope.package = u
  have hu : Keeps a0 u := e ▸ State.acquire_keeps (Keeps.core h)
  have hv : Keeps a0 (if u.core.regs.ended then { u with core := { u.core with life := .ended } } else u) := by
    split
    · exact Keeps.core hu
    · exact hu
  generalize (if u.core.regs.ended then ({ u with core := { u.core with life := .ended } } : State) else u) = v at hv
  split
  · exact hv
  · refine State.takeSnapshot_keeps ?_
    split
    · exact Keeps.onRegs hv
    · exact hv

theorem State.startBank_keeps {a0 s : State} {t resume pre} (h : Keeps a0 s) : Keeps a0 (State.startBank s t resume pre).1 := by
  unfold State.startBank
  try dsimp only
  repeat' (first
    | with_reducible exact Keeps.refl _
    | with_reducible assumption
    | intro _
    | with_reducible apply State.preloadBank_keeps
    | with_reducible apply Keeps.foldl
    | (with_reducible apply Keeps.fst; case e => with_reducible assumption)
    | split
    | with_reducible apply Keeps.core
    | with_reducible apply Keeps.mk')

theorem State.startText_keeps {a0 s : State} {t pre bad} (h : Keeps a0 s) : Keeps a0 (State.startText s t pre bad).1 := by
  unfold State.startText
  try dsimp only
  repeat' (first
    | with_reducible exact Keeps.refl _
    | with_reducible assumption
    | intro _
    | with_reducible apply State.loadText_keeps
    | with_reducible apply Keeps.foldl
    | (with_reducible apply Keeps.fst; case e => with_reducible assumption)
    | split
    | with_reducible apply Keeps.core
    | with_reducible apply Keeps.mk')

theorem State.entryPc_keeps {a0 s : State} {t} (h : Keeps a0 s) : Keeps a0 (State.entryPc s t).1 := by
  unfold State.entryPc
  try dsimp only
  repeat' (first
    | with_reducible exact Keeps.refl _
    | with_reducible assumption
    | intro _
    | with_reducible apply State.kernelOf_keeps
    | with_reducible apply Keeps.foldl
    | (with_reducible apply Keeps.fst; case e => with_reducible assumption)
    | split
    | with_reducible apply Keeps.core
    | with_reducible apply Keeps.mk')

theorem State.startWith_keeps {a0 s : State} {t bank kind tx} (h : Keeps a0 s) : Keeps a0 (State.startWith s t bank kind tx) := by
  unfold State.startWith
  try dsimp only
  repeat' (first
    | with_reducible exact Keeps.refl _
    | with_reducible assumption
    | intro _
    | with_reducible apply State.kill_keeps
    | with_reducible apply State.stopBefore_keeps
    | with_reducible apply State.enter_keeps
    | with_reducible apply State.begin_keeps
    | with_reducible apply State.restore_keeps
    | with_reducible apply State.entryPc_keeps
    | with_reducible apply Keeps.foldl
    | (with_reducible apply Keeps.fst; case e => with_reducible assumption)
    | split
    | with_reducible apply Keeps.core
    | with_reducible apply Keeps.mk')

theorem State.startKind_keeps {a0 s : State} {t} (h : Keeps a0 s) : Keeps a0 (State.startKind s t).1 := by
  unfold State.startKind
  try dsimp only
  repeat' (first
    | with_reducible exact Keeps.refl _
    | with_reducible assumption
    | intro _
    | with_reducible apply State.areaKind_keeps
    | with_reducible apply Keeps.foldl
    | (with_reducible apply Keeps.fst; case e => with_reducible assumption)
    | split
    | with_reducible apply Keeps.core
    | with_reducible apply Keeps.mk')

theorem State.startClear_keeps {a0 s : State} {t} (h : Keeps a0 s) : Keeps a0 (State.startClear s t) := by
  unfold State.startClear
  try dsimp only
  repeat' (first
    | with_reducible exact Keeps.refl _
    | with_reducible assumption
    | intro _
    | with_reducible apply State.clearCluster_keeps
    | with_reducible apply State.dieEvent_keeps
    | with_reducible apply Keeps.foldl
    | (with_reducible apply Keeps.fst; case e => with_reducible assumption)
    | split
    | with_reducible apply Keeps.core
    | with_reducible apply Keeps.mk')

theorem State.startTask_keeps {a0 s : State} {t pre} (h : Keeps a0 s) : Keeps a0 (State.startTask s t pre) := by
  unfold State.startTask
  try dsimp only
  repeat' (first
    | with_reducible exact Keeps.refl _
    | with_reducible assumption
    | intro _
    | with_reducible apply State.startWith_keeps
    | with_reducible apply State.kill_keeps
    | with_reducible apply State.enter_keeps
    | with_reducible apply State.startClear_keeps
    | with_reducible apply State.startBank_keeps
    | with_reducible apply State.entryPc_keeps
    | with_reducible apply State.startKind_keeps
    | with_reducible apply State.startText_keeps
    | with_reducible apply Keeps.foldl
    | (with_reducible apply Keeps.fst; case e => with_reducible assumption)
    | split
    | with_reducible apply Keeps.core
    | with_reducible apply Keeps.mk')

end Sys2Proof.Machine
end

