-- ==== Sys2Proof/Laws/KeepsSched.lean ====
section
/-! SUPPORT. The queues, rings and gangs of the scheduler keep them. -/

namespace Sys2Proof.Machine

open Sys2Proof

set_option linter.all false

theorem State.enqueue_keeps {a0 s : State} {d q e front} (h : Keeps a0 s) : Keeps a0 (State.enqueue s d q e front) := by
  unfold State.enqueue
  try dsimp only
  repeat' (first
    | with_reducible exact Keeps.refl _
    | with_reducible assumption
    | intro _
    | with_reducible apply Keeps.onDie
    | with_reducible apply Keeps.foldl
    | (with_reducible apply Keeps.fst; case e => with_reducible assumption)
    | split
    | with_reducible apply Keeps.core
    | with_reducible apply Keeps.mk')

theorem State.dequeue_keeps {a0 s : State} {d q e} (h : Keeps a0 s) : Keeps a0 (State.dequeue s d q e) := by
  unfold State.dequeue
  try dsimp only
  repeat' (first
    | with_reducible exact Keeps.refl _
    | with_reducible assumption
    | intro _
    | with_reducible apply Keeps.onDie
    | with_reducible apply Keeps.foldl
    | (with_reducible apply Keeps.fst; case e => with_reducible assumption)
    | split
    | with_reducible apply Keeps.core
    | with_reducible apply Keeps.mk')

theorem State.passHead_keeps {a0 s : State} {d q} (h : Keeps a0 s) : Keeps a0 (State.passHead s d q) := by
  unfold State.passHead
  try dsimp only
  repeat' (first
    | with_reducible exact Keeps.refl _
    | with_reducible assumption
    | intro _
    | with_reducible apply State.enqueue_keeps
    | with_reducible apply State.dieEvent_keeps
    | with_reducible apply Keeps.onDie
    | with_reducible apply Keeps.foldl
    | (with_reducible apply Keeps.fst; case e => with_reducible assumption)
    | split
    | with_reducible apply Keeps.core
    | with_reducible apply Keeps.mk')

theorem State.ageQueues_keeps {a0 s : State} {d q} (h : Keeps a0 s) : Keeps a0 (State.ageQueues s d q) := by
  unfold State.ageQueues
  try dsimp only
  repeat' (first
    | with_reducible exact Keeps.refl _
    | with_reducible assumption
    | intro _
    | with_reducible apply State.passHead_keeps
    | with_reducible apply Keeps.foldl
    | (with_reducible apply Keeps.fst; case e => with_reducible assumption)
    | split
    | with_reducible apply Keeps.core
    | with_reducible apply Keeps.mk')

theorem State.bindGroups_keeps {a0 s : State} {t c} (h : Keeps a0 s) : Keeps a0 (State.bindGroups s t c) := by
  unfold State.bindGroups
  try dsimp only
  repeat' (first
    | with_reducible exact Keeps.refl _
    | with_reducible assumption
    | intro _
    | with_reducible apply Keeps.foldl
    | (with_reducible apply Keeps.onDev; case k => simp only [Device.host, Device.setBinding])
    | (with_reducible apply Keeps.fst; case e => with_reducible assumption)
    | split
    | with_reducible apply Keeps.core
    | with_reducible apply Keeps.mk')

theorem State.ringFail_keeps {a0 s : State} {d t k} (h : Keeps a0 s) : Keeps a0 (State.ringFail s d t k) := by
  unfold State.ringFail
  try dsimp only
  repeat' (first
    | with_reducible exact Keeps.refl _
    | with_reducible assumption
    | intro _
    | with_reducible apply Keeps.onDie
    | with_reducible apply State.setErr_keeps
    | with_reducible apply Keeps.foldl
    | (with_reducible apply Keeps.fst; case e => with_reducible assumption)
    | split
    | with_reducible apply Keeps.core
    | with_reducible apply Keeps.mk')

theorem State.ringView_keeps {a0 s : State} {d t k} (h : Keeps a0 s) : Keeps a0 (State.ringView s d t k).1 := by
  unfold State.ringView
  try dsimp only
  repeat' (first
    | with_reducible exact Keeps.refl _
    | with_reducible assumption
    | intro _
    | with_reducible apply State.translateHeld_keeps
    | with_reducible apply State.vReadAll_keeps
    | with_reducible apply Keeps.foldl
    | (with_reducible apply Keeps.fst; case e => with_reducible assumption)
    | split
    | with_reducible apply Keeps.core
    | with_reducible apply Keeps.mk')

theorem State.ringWrite_keeps {a0 s : State} {t k off v} (h : Keeps a0 s) : Keeps a0 (State.ringWrite s t k off v).1 := by
  unfold State.ringWrite
  try dsimp only
  repeat' (first
    | with_reducible exact Keeps.refl _
    | with_reducible assumption
    | intro _
    | with_reducible apply State.vWrite_keeps
    | with_reducible apply Keeps.foldl
    | (with_reducible apply Keeps.fst; case e => with_reducible assumption)
    | split
    | with_reducible apply Keeps.core
    | with_reducible apply Keeps.mk')

theorem State.ringNote_keeps {a0 s : State} {d t k} (h : Keeps a0 s) : Keeps a0 (State.ringNote s d t k) := by
  unfold State.ringNote
  try dsimp only
  repeat' (first
    | with_reducible assumption
    | with_reducible apply Keeps.onDie
    | split)

theorem State.ringForget_keeps {a0 s : State} {d t k} (h : Keeps a0 s) : Keeps a0 (State.ringForget s d t k) := by
  unfold State.ringForget
  try dsimp only
  repeat' (first
    | with_reducible assumption
    | with_reducible apply Keeps.onDie
    | split)

theorem State.ringPush_keeps {a0 s : State} {d t} (h : Keeps a0 s) : Keeps a0 (State.ringPush s d t).1 := by
  unfold State.ringPush
  try dsimp only
  repeat' (first
    | with_reducible exact Keeps.refl _
    | with_reducible assumption
    | intro _
    | with_reducible apply State.ringNote_keeps
    | with_reducible apply State.dieEvent_keeps
    | with_reducible apply State.ringFail_keeps
    | with_reducible apply State.ringWrite_keeps
    | with_reducible apply State.ringView_keeps
    | with_reducible apply Keeps.foldl
    | (with_reducible apply Keeps.fst; case e => with_reducible assumption)
    | split
    | with_reducible apply Keeps.core
    | with_reducible apply Keeps.mk')

theorem State.ringPop_keeps {a0 s : State} {d t k} (h : Keeps a0 s) : Keeps a0 (State.ringPop s d t k).1 := by
  unfold State.ringPop
  try dsimp only
  repeat' (first
    | with_reducible exact Keeps.refl _
    | with_reducible assumption
    | intro _
    | with_reducible apply State.ringForget_keeps
    | with_reducible apply State.ringFail_keeps
    | with_reducible apply State.ringWrite_keeps
    | with_reducible apply State.ringView_keeps
    | with_reducible apply State.vReadAll_keeps
    | with_reducible apply Keeps.foldl
    | (with_reducible apply Keeps.fst; case e => with_reducible assumption)
    | split
    | with_reducible apply Keeps.core
    | with_reducible apply Keeps.mk')

theorem State.gatherCheck_keeps {a0 s : State} {d t} (h : Keeps a0 s) : Keeps a0 (State.gatherCheck s d t) := by
  unfold State.gatherCheck
  try dsimp only
  repeat' (first
    | with_reducible exact Keeps.refl _
    | with_reducible assumption
    | intro _
    | with_reducible apply State.enqueue_keeps
    | with_reducible apply Keeps.onDie
    | with_reducible apply Keeps.foldl
    | (with_reducible apply Keeps.fst; case e => with_reducible assumption)
    | split
    | with_reducible apply Keeps.core
    | with_reducible apply Keeps.mk')

theorem State.gatherAt_keeps {a0 s : State} {t g u} (h : Keeps a0 s) : Keeps a0 (State.gatherAt s t g u) := by
  unfold State.gatherAt
  try dsimp only
  repeat' (first
    | with_reducible exact Keeps.refl _
    | with_reducible assumption
    | intro _
    | with_reducible apply State.gatherCheck_keeps
    | with_reducible apply State.enqueue_keeps
    | with_reducible apply Keeps.onDie
    | with_reducible apply Keeps.foldl
    | (with_reducible apply Keeps.fst; case e => with_reducible assumption)
    | split
    | with_reducible apply Keeps.core
    | with_reducible apply Keeps.mk')

theorem State.takeIn_keeps {a0 s : State} {d t held} (h : Keeps a0 s) : Keeps a0 (State.takeIn s d t held).1 := by
  unfold State.takeIn
  try dsimp only
  repeat' (first
    | with_reducible exact Keeps.refl _
    | with_reducible assumption
    | intro _
    | with_reducible apply State.enqueue_keeps
    | with_reducible apply State.gatherAt_keeps
    | with_reducible apply State.ringPush_keeps
    | with_reducible apply Keeps.foldl
    | (with_reducible apply Keeps.fst; case e => with_reducible assumption)
    | split
    | with_reducible apply Keeps.core
    | with_reducible apply Keeps.mk')

theorem State.reject_keeps {a0 s : State} {t placed} (h : Keeps a0 s) : Keeps a0 (State.reject s t placed) := by
  unfold State.reject
  try dsimp only
  repeat' (first
    | with_reducible exact Keeps.refl _
    | with_reducible assumption
    | intro _
    | with_reducible apply State.gatherCheck_keeps
    | with_reducible apply State.rejectTask_keeps
    | with_reducible apply State.noteEnded_keeps
    | with_reducible apply Keeps.foldl
    | (with_reducible apply Keeps.fst; case e => with_reducible assumption)
    | split
    | with_reducible apply Keeps.core
    | with_reducible apply Keeps.mk')

theorem State.checkRecord_keeps {a0 s : State} {d t0 comp} (h : Keeps a0 s) : Keeps a0 (State.checkRecord s d t0 comp).1 := by
  unfold State.checkRecord
  try dsimp only
  repeat' (first
    | with_reducible exact Keeps.refl _
    | with_reducible assumption
    | intro _
    | with_reducible apply State.reject_keeps
    | with_reducible apply State.rejectTask_keeps
    | with_reducible apply State.readCode_keeps
    | with_reducible apply State.launchCheck_keeps
    | with_reducible apply State.readLaunch_keeps
    | with_reducible apply Keeps.foldl
    | (with_reducible apply Keeps.fst; case e => with_reducible assumption)
    | split
    | with_reducible apply Keeps.core
    | with_reducible apply Keeps.mk')

theorem State.readRecord_keeps {a0 s : State} {d addr job} (h : Keeps a0 s) : Keeps a0 (State.readRecord s d addr job).1 := by
  unfold State.readRecord
  try dsimp only
  repeat' (first
    | with_reducible exact Keeps.refl _
    | with_reducible assumption
    | intro _
    | with_reducible apply State.setErr_keeps
    | with_reducible apply State.noteKill_keeps
    | with_reducible apply State.vRead_keeps
    | with_reducible apply Keeps.foldl
    | (with_reducible apply Keeps.fst; case e => with_reducible assumption)
    | split
    | with_reducible apply Keeps.core
    | with_reducible apply Keeps.mk')

theorem State.resumeCompanion_keeps {a0 s : State}  (h : Keeps a0 s) : Keeps a0 (State.resumeCompanion s) := by
  unfold State.resumeCompanion
  split
  · exact h
  · split
    · exact State.startTask_keeps h
    · exact State.acquire_keeps (State.trapReturn_keeps h)

theorem State.makeReady_keeps {a0 s : State} {d addr job held} (h : Keeps a0 s) : Keeps a0 (State.makeReady s d addr job held).1 := by
  unfold State.makeReady
  try dsimp only
  repeat' (first
    | with_reducible exact Keeps.refl _
    | with_reducible assumption
    | intro _
    | with_reducible apply State.resumeCompanion_keeps
    | with_reducible apply State.checkRecord_keeps
    | with_reducible apply State.takeIn_keeps
    | with_reducible apply State.readRecord_keeps
    | with_reducible apply Keeps.within
    | with_reducible apply Keeps.foldl
    | (with_reducible apply Keeps.fst; case e => with_reducible assumption)
    | split
    | with_reducible apply Keeps.core
    | with_reducible apply Keeps.mk')

theorem State.dropReserve_keeps {a0 s : State} {d e} (h : Keeps a0 s) : Keeps a0 (State.dropReserve s d e) := by
  unfold State.dropReserve
  try dsimp only
  repeat' (first
    | with_reducible exact Keeps.refl _
    | with_reducible assumption
    | intro _
    | with_reducible apply Keeps.onDie
    | with_reducible apply Keeps.foldl
    | (with_reducible apply Keeps.fst; case e => with_reducible assumption)
    | split
    | with_reducible apply Keeps.core
    | with_reducible apply Keeps.mk')

theorem State.forwardQueue_keeps {a0 s : State} {d q} (h : Keeps a0 s) : Keeps a0 (State.forwardQueue s d q) := by
  unfold State.forwardQueue
  try dsimp only
  repeat' (first
    | with_reducible exact Keeps.refl _
    | with_reducible assumption
    | intro _
    | with_reducible apply State.dequeue_keeps
    | with_reducible apply State.enqueue_keeps
    | with_reducible apply State.dropReserve_keeps
    | with_reducible apply Keeps.foldl
    | (with_reducible apply Keeps.fst; case e => with_reducible assumption)
    | split
    | with_reducible apply Keeps.core
    | with_reducible apply Keeps.mk')

theorem State.ringMove_keeps {a0 x2 : State} {d t k x1} (h : Keeps a0 x2) : Keeps a0 (State.ringMove d t k x1 x2) := by
  induction x1 generalizing x2 with
  | zero =>
    unfold State.ringMove
    try dsimp only
    repeat' (first
      | with_reducible exact Keeps.refl _
      | with_reducible assumption
      | intro _
      | with_reducible apply State.enqueue_keeps
      | with_reducible apply State.ringPop_keeps
      | with_reducible apply State.readRecord_keeps
      | with_reducible apply Keeps.foldl
      | (with_reducible apply Keeps.fst; case e => with_reducible assumption)
      | split
      | with_reducible apply Keeps.core
      | with_reducible apply Keeps.mk')
  | succ k ih =>
    unfold State.ringMove
    try dsimp only
    repeat' (first
      | with_reducible exact Keeps.refl _
      | with_reducible assumption
      | intro _
      | with_reducible apply ih
      | with_reducible apply State.enqueue_keeps
      | with_reducible apply State.ringPop_keeps
      | with_reducible apply State.readRecord_keeps
      | with_reducible apply Keeps.foldl
      | (with_reducible apply Keeps.fst; case e => with_reducible assumption)
      | split
      | with_reducible apply Keeps.core
      | with_reducible apply Keeps.mk')

theorem State.settleRings_keeps {a0 s : State} {d} (h : Keeps a0 s) : Keeps a0 (State.settleRings s d) := by
  unfold State.settleRings
  try dsimp only
  repeat' (first
    | with_reducible exact Keeps.refl _
    | with_reducible assumption
    | intro _
    | with_reducible apply State.ringMove_keeps
    | with_reducible apply Keeps.foldl
    | (with_reducible apply Keeps.fst; case e => with_reducible assumption)
    | split
    | with_reducible apply Keeps.core
    | with_reducible apply Keeps.mk')

theorem State.settleDie_keeps {a0 s : State} {d} (h : Keeps a0 s) : Keeps a0 (State.settleDie s d) := by
  unfold State.settleDie
  try dsimp only
  repeat' (first
    | with_reducible exact Keeps.refl _
    | with_reducible assumption
    | intro _
    | with_reducible apply State.settleRings_keeps
    | with_reducible apply State.forwardQueue_keeps
    | with_reducible apply Keeps.foldl
    | (with_reducible apply Keeps.fst; case e => with_reducible assumption)
    | split
    | with_reducible apply Keeps.core
    | with_reducible apply Keeps.mk')

theorem State.placeAll_keeps {a0 x2 : State} {x1} (h : Keeps a0 x2) : Keeps a0 (State.placeAll x1 x2) := by
  induction x1 generalizing x2 with
  | nil =>
    unfold State.placeAll
    try dsimp only
    repeat' (first
      | with_reducible exact Keeps.refl _
      | with_reducible assumption
      | intro _
      | with_reducible apply State.bindGroups_keeps
      | with_reducible apply State.startTask_keeps
      | with_reducible apply Keeps.within
      | with_reducible apply Keeps.foldl
      | (with_reducible apply Keeps.fst; case e => with_reducible assumption)
      | split
      | with_reducible apply Keeps.core
      | with_reducible apply Keeps.mk')
  | cons y l ih =>
    unfold State.placeAll
    try dsimp only
    repeat' (first
      | with_reducible exact Keeps.refl _
      | with_reducible assumption
      | intro _
      | with_reducible apply ih
      | with_reducible apply State.bindGroups_keeps
      | with_reducible apply State.startTask_keeps
      | with_reducible apply Keeps.within
      | with_reducible apply Keeps.foldl
      | (with_reducible apply Keeps.fst; case e => with_reducible assumption)
      | split
      | with_reducible apply Keeps.core
      | with_reducible apply Keeps.mk')

end Sys2Proof.Machine
end

