-- ==== Sys2Proof/Laws/KeepsPlace.lean ====
section
/-! SUPPORT. Placing tasks, decrements, slices and quanta keep them. -/

namespace Sys2Proof.Machine

open Sys2Proof

set_option linter.all false

theorem State.gangStart_keeps {a0 s : State} {d e} (h : Keeps a0 s) : Keeps a0 (State.gangStart s d e).1 := by
  unfold State.gangStart
  try dsimp only
  repeat' (first
    | with_reducible exact Keeps.refl _
    | with_reducible assumption
    | intro _
    | with_reducible apply State.dieEvent_keeps
    | with_reducible apply State.placeAll_keeps
    | with_reducible apply Keeps.onDie
    | with_reducible apply Keeps.foldl
    | (with_reducible apply Keeps.fst; case e => with_reducible assumption)
    | split
    | with_reducible apply Keeps.core
    | with_reducible apply Keeps.mk')

theorem State.scan_keeps {a0 x3 : State} {d q fits gangs can x1 x2} (h : Keeps a0 x3) : Keeps a0 (State.scan d q fits gangs can x1 x2 x3).1 := by
  induction x1 generalizing x2 x3 with
  | nil =>
    unfold State.scan
    try dsimp only
    repeat' (first
      | with_reducible exact Keeps.refl _
      | with_reducible assumption
      | intro _
      | with_reducible apply State.dequeue_keeps
      | with_reducible apply State.gangStart_keeps
      | with_reducible apply Keeps.foldl
      | (with_reducible apply Keeps.fst; case e => with_reducible assumption)
      | split
      | with_reducible apply Keeps.core
      | with_reducible apply Keeps.mk')
  | cons y l ih =>
    unfold State.scan
    try dsimp only
    repeat' (first
      | with_reducible exact Keeps.refl _
      | with_reducible assumption
      | intro _
      | with_reducible apply ih
      | with_reducible apply State.dequeue_keeps
      | with_reducible apply State.gangStart_keeps
      | with_reducible apply Keeps.foldl
      | (with_reducible apply Keeps.fst; case e => with_reducible assumption)
      | split
      | with_reducible apply Keeps.core
      | with_reducible apply Keeps.mk')

theorem State.selectIn_keeps {a0 x2 : State} {d fits gangs can x1} (h : Keeps a0 x2) : Keeps a0 (State.selectIn d fits gangs can x1 x2).1 := by
  induction x1 generalizing x2 with
  | nil =>
    unfold State.selectIn
    try dsimp only
    repeat' (first
      | with_reducible exact Keeps.refl _
      | with_reducible assumption
      | intro _
      | with_reducible apply State.ageQueues_keeps
      | with_reducible apply State.scan_keeps
      | with_reducible apply Keeps.foldl
      | (with_reducible apply Keeps.fst; case e => with_reducible assumption)
      | split
      | with_reducible apply Keeps.core
      | with_reducible apply Keeps.mk')
  | cons y l ih =>
    unfold State.selectIn
    try dsimp only
    repeat' (first
      | with_reducible exact Keeps.refl _
      | with_reducible assumption
      | intro _
      | with_reducible apply ih
      | with_reducible apply State.ageQueues_keeps
      | with_reducible apply State.scan_keeps
      | with_reducible apply Keeps.foldl
      | (with_reducible apply Keeps.fst; case e => with_reducible assumption)
      | split
      | with_reducible apply Keeps.core
      | with_reducible apply Keeps.mk')

theorem State.select_keeps {a0 s : State} {c fits gangs} (h : Keeps a0 s) : Keeps a0 (State.select s c fits gangs).1 := by
  unfold State.select
  try dsimp only
  repeat' (first
    | with_reducible exact Keeps.refl _
    | with_reducible assumption
    | intro _
    | with_reducible apply State.selectIn_keeps
    | with_reducible apply Keeps.foldl
    | (with_reducible apply Keeps.fst; case e => with_reducible assumption)
    | split
    | with_reducible apply Keeps.core
    | with_reducible apply Keeps.mk')

theorem State.preloadTask_keeps {a0 s : State} {e q l} (h : Keeps a0 s) : Keeps a0 (State.preloadTask s e q l) := by
  unfold State.preloadTask
  try dsimp only
  repeat' (first
    | with_reducible exact Keeps.refl _
    | with_reducible assumption
    | intro _
    | with_reducible apply State.kernelOf_keeps
    | with_reducible apply State.preloadBank_keeps
    | with_reducible apply State.areaKind_keeps
    | with_reducible apply State.loadText_keeps
    | with_reducible apply Keeps.foldl
    | (with_reducible apply Keeps.fst; case e => with_reducible assumption)
    | split
    | with_reducible apply Keeps.core
    | with_reducible apply Keeps.mk')

theorem State.placeTask_keeps {a0 s : State} {t c pre} (h : Keeps a0 s) : Keeps a0 (State.placeTask s t c pre) := by
  unfold State.placeTask
  have h1 : Keeps a0 ((s.bindGroups t c).within c fun s => s.startTask t pre) :=
    Keeps.within (fun _ _ h => State.startTask_keeps h) (State.bindGroups_keeps h)
  generalize ((s.bindGroups t c).within c fun s => s.startTask t pre) = u at h1
  dsimp only
  split
  · exact h1
  · split
    · rename_i e
      exact Keeps.within (fun _ _ h => State.preloadTask_keeps h) (State.bindGroups_keeps (Keeps.fst e (State.select_keeps (State.settleRings_keeps h1))))
    · rename_i e
      exact Keeps.fst e (State.select_keeps (State.settleRings_keeps h1))

theorem State.placeOn_keeps {a0 s : State} {c} (h : Keeps a0 s) : Keeps a0 (State.placeOn s c).1 := by
  unfold State.placeOn
  try dsimp only
  repeat' (first
    | with_reducible exact Keeps.refl _
    | with_reducible assumption
    | intro _
    | with_reducible apply State.dequeue_keeps
    | with_reducible apply State.ageQueues_keeps
    | with_reducible apply State.placeTask_keeps
    | with_reducible apply Keeps.onCore
    | with_reducible apply State.select_keeps
    | with_reducible apply Keeps.foldl
    | (with_reducible apply Keeps.fst; case e => with_reducible assumption)
    | split
    | with_reducible apply Keeps.core
    | with_reducible apply Keeps.mk')

theorem execSchedulerPlace_keeps {a0 s u0 : State} {die core} (e : execSchedulerPlace die core s = .next u0) (h : Keeps a0 s) : Keeps a0 u0 := by
  unfold execSchedulerPlace at e
  refine Keeps.next e ?_
  refine Keeps.orHold (fun b t h => ?_) h
  dsimp only
  split
  · exact State.placeOn_keeps (State.settleDie_keeps h)
  · exact State.settleDie_keeps h

theorem State.askDies_keeps {a0 x2 : State} {gen x1} (h : Keeps a0 x2) : Keeps a0 (State.askDies gen x1 x2).1 := by
  induction x1 generalizing x2 with
  | nil =>
    unfold State.askDies
    try dsimp only
    repeat' (first
      | with_reducible exact Keeps.refl _
      | with_reducible assumption
      | intro _
      | with_reducible apply State.settleDie_keeps
      | with_reducible apply State.selectIn_keeps
      | with_reducible apply Keeps.foldl
      | (with_reducible apply Keeps.fst; case e => with_reducible assumption)
      | split
      | with_reducible apply Keeps.core
      | with_reducible apply Keeps.mk')
  | cons y l ih =>
    unfold State.askDies
    try dsimp only
    repeat' (first
      | with_reducible exact Keeps.refl _
      | with_reducible assumption
      | intro _
      | with_reducible apply ih
      | with_reducible apply State.settleDie_keeps
      | with_reducible apply State.selectIn_keeps
      | with_reducible apply Keeps.foldl
      | (with_reducible apply Keeps.fst; case e => with_reducible assumption)
      | split
      | with_reducible apply Keeps.core
      | with_reducible apply Keeps.mk')

theorem execDieFreeRequest_keeps {a0 s u0 : State} {die core} (e : execDieFreeRequest die core s = .next u0) (h : Keeps a0 s) : Keeps a0 u0 := by
  unfold execDieFreeRequest at e
  refine Keeps.next e ?_
  refine Keeps.orHold (fun b t k => ?_) h
  dsimp only
  have h1 : Keeps b (t.settleDie die) := State.settleDie_keeps k
  generalize t.settleDie die = s1 at h1
  clear e h k
  repeat' (first
    | with_reducible assumption
    | with_reducible apply State.placeTask_keeps
    | with_reducible apply State.placeOn_keeps
    | with_reducible apply State.askDies_keeps
    | with_reducible apply State.preloadTask_keeps
    | (with_reducible apply Keeps.fst; case e => with_reducible assumption)
    | split)

theorem State.lostDec_keeps {a0 s : State} {x} (h : Keeps a0 s) : Keeps a0 (State.lostDec s x) := by
  unfold State.lostDec
  try dsimp only
  repeat' (first
    | with_reducible exact Keeps.refl _
    | with_reducible assumption
    | intro _
    | with_reducible apply State.setErr_keeps
    | with_reducible apply Keeps.onCore
    | with_reducible apply Keeps.foldl
    | (with_reducible apply Keeps.fst; case e => with_reducible assumption)
    | split
    | with_reducible apply Keeps.core
    | with_reducible apply Keeps.mk')

theorem State.onCores_keeps {a0 s : State} {f} (h : Keeps a0 s) : Keeps a0 (State.onCores s f) := by
  unfold State.onCores
  exact Keeps.mk' h

theorem State.decSeen_keeps {a0 s : State} {x bs} (h : Keeps a0 s) : Keeps a0 (State.decSeen s x bs) := by
  unfold State.decSeen
  dsimp only
  split
  · exact Keeps.within (fun _ _ h => State.besideL1_keeps h) h
  · split
    · exact State.onCores_keeps h
    · exact h

theorem State.onActing_keeps {a0 s : State} {x f} (k : ∀ b u y, Keeps b u → Keeps b (f u y)) (h : Keeps a0 s) : Keeps a0 (State.onActing s x f) := by
  unfold State.onActing
  split
  · refine Keeps.within (fun b u h => ?_) h
    split
    · exact k _ _ _ h
    · exact h
  · exact h

theorem State.actDone_keeps {a0 s : State} {x} (h : Keeps a0 s) : Keeps a0 (State.actDone s x) :=
  State.onActing_keeps (fun _ _ _ h => State.leaveCmd_keeps h) h

theorem State.decFails_keeps {a0 s : State} {x} (h : Keeps a0 s) : Keeps a0 (State.decFails s x) := by
  unfold State.decFails
  split
  · exact State.onActing_keeps (fun _ _ _ h => State.failCmd_keeps h) h
  · exact State.lostDec_keeps h

theorem State.decrementAt_keeps {a0 s : State} {k} (h : Keeps a0 s) : Keeps a0 (State.decrementAt s k) := by
  have out : ∀ u, Keeps a0 u → Keeps a0 (u.onDev fun d => { d with decs := dropAt d.decs k }) := fun u h => Keeps.onDev rfl h
  unfold State.decrementAt
  split
  · exact h
  · dsimp only
    split
    · split
      · rename_i e; exact Keeps.fst e (State.makeReady_keeps h)
      · rename_i e; exact out _ (Keeps.fst e (State.makeReady_keeps h))
    · split
      · exact h
      · split
        · rename_i e
          have h1 := Keeps.fst e (State.writeLine_keeps h)
          split
          · exact State.decFails_keeps (out _ h1)
          · exact State.actDone_keeps (State.lostDec_keeps (out _ h1))
        · rename_i e
          have h0 := Keeps.fst e (State.writeLine_keeps h)
          have h1 : ∀ x bs, Keeps a0 ((State.decSeen _ x bs).actDone x) := fun x bs => State.actDone_keeps (State.decSeen_keeps h0)
          split
          · exact out _ (h1 _ _)
          · split
            · rename_i e2; exact out _ (Keeps.fst e2 (State.makeReady_keeps (h1 _ _)))
            · rename_i e2; exact Keeps.onDev rfl (Keeps.fst e2 (State.makeReady_keeps (h1 _ _)))

theorem execTaskDecrement_keeps {a0 s u0 : State} {k} (e : execTaskDecrement k s = .next u0) (h : Keeps a0 s) : Keeps a0 u0 := by
  unfold execTaskDecrement at e
  try dsimp only at e
  repeat' (first
    | refine State.issueWith_keeps e ?_ ?_
    | (refine Keeps.next e ?_; clear e)
    | split at e
    | with_reducible exact Keeps.refl _
    | with_reducible assumption
    | intro _
    | with_reducible apply State.decrementAt_keeps
    | with_reducible apply Keeps.orHold
    | with_reducible apply Keeps.foldl
    | (with_reducible apply Keeps.fst; case e => with_reducible assumption)
    | split
    | with_reducible apply Keeps.core
    | with_reducible apply Keeps.mk')

theorem execPhaseSliceExpiry_keeps {a0 s u0 : State} {die} (e : execPhaseSliceExpiry die s = .next u0) (h : Keeps a0 s) : Keeps a0 u0 := by
  unfold execPhaseSliceExpiry at e
  try dsimp only at e
  repeat' (first
    | refine State.issueWith_keeps e ?_ ?_
    | refine Keeps.next e ?_
    | split at e
    | with_reducible exact Keeps.refl _
    | with_reducible assumption
    | intro _
    | with_reducible apply Keeps.onDie
    | with_reducible apply Keeps.foldl
    | (with_reducible apply Keeps.fst; case e => with_reducible assumption)
    | split
    | with_reducible apply Keeps.core
    | with_reducible apply Keeps.mk')

theorem execQuantumExpiry_keeps {a0 s u0 : State} {c} (e : execQuantumExpiry c s = .next u0) (h : Keeps a0 s) : Keeps a0 u0 := by
  unfold execQuantumExpiry at e
  try dsimp only at e
  repeat' (first
    | refine State.issueWith_keeps e ?_ ?_
    | refine Keeps.next e ?_
    | split at e
    | with_reducible exact Keeps.refl _
    | with_reducible assumption
    | intro _
    | with_reducible apply Keeps.onCore
    | with_reducible apply Keeps.foldl
    | (with_reducible apply Keeps.fst; case e => with_reducible assumption)
    | split
    | with_reducible apply Keeps.core
    | with_reducible apply Keeps.mk')

end Sys2Proof.Machine
end

