-- ==== Sys2Proof/Laws/KeepsTraps.lean ====
section
/-! SUPPORT. Traps, suspensions, yields, checkpoints and retirement keep them. -/

namespace Sys2Proof.Machine

open Sys2Proof

set_option linter.all false

theorem execTrapEntry_keeps {a0 s u0 : State} {c cause val} (e : execTrapEntry c cause val s = .next u0) (h : Keeps a0 s) : Keeps a0 u0 := by
  unfold execTrapEntry at e
  try dsimp only at e
  repeat' (first
    | refine State.issueWith_keeps e ?_ ?_
    | (refine Keeps.next e ?_; clear e)
    | split at e
    | with_reducible exact Keeps.refl _
    | with_reducible assumption
    | intro _
    | with_reducible apply State.trapEnter_keeps
    | with_reducible apply Keeps.within
    | with_reducible apply Keeps.orHold
    | with_reducible apply Keeps.foldl
    | (with_reducible apply Keeps.fst; case e => with_reducible assumption)
    | split
    | with_reducible apply Keeps.core
    | with_reducible apply Keeps.mk')

theorem execTaskKill_keeps {a0 s u0 : State} {c} (e : execTaskKill c s = .next u0) (h : Keeps a0 s) : Keeps a0 u0 := by
  unfold execTaskKill at e
  try dsimp only at e
  repeat' (first
    | refine State.issueWith_keeps e ?_ ?_
    | (refine Keeps.next e ?_; clear e)
    | split at e
    | with_reducible exact Keeps.refl _
    | with_reducible assumption
    | intro _
    | with_reducible apply State.kill_keeps
    | with_reducible apply Keeps.within
    | with_reducible apply Keeps.orHold
    | with_reducible apply Keeps.foldl
    | (with_reducible apply Keeps.fst; case e => with_reducible assumption)
    | split
    | with_reducible apply Keeps.core
    | with_reducible apply Keeps.mk')

theorem State.suspendNow_keeps {a0 s : State} {t} (h : Keeps a0 s) : Keeps a0 (State.suspendNow s t) := by
  unfold State.suspendNow
  try dsimp only
  repeat' (first
    | with_reducible exact Keeps.refl _
    | with_reducible assumption
    | intro _
    | with_reducible apply State.post_keeps
    | with_reducible apply State.kill_keeps
    | with_reducible apply State.freeCore_keeps
    | with_reducible apply State.armRecord_keeps
    | with_reducible apply State.saveFull_keeps
    | with_reducible apply Keeps.foldl
    | (with_reducible apply Keeps.fst; case e => with_reducible assumption)
    | split
    | with_reducible apply Keeps.core
    | with_reducible apply Keeps.mk')

theorem execTaskSuspend_keeps {a0 s u0 : State} {c} (e : execTaskSuspend c s = .next u0) (h : Keeps a0 s) : Keeps a0 u0 := by
  unfold execTaskSuspend at e
  try dsimp only at e
  repeat' (first
    | refine State.issueWith_keeps e ?_ ?_
    | (refine Keeps.next e ?_; clear e)
    | split at e
    | with_reducible exact Keeps.refl _
    | with_reducible assumption
    | intro _
    | with_reducible apply State.hold_keeps
    | with_reducible apply State.post_keeps
    | with_reducible apply State.kill_keeps
    | with_reducible apply State.suspendNow_keeps
    | with_reducible apply State.armRecord_keeps
    | with_reducible apply Keeps.within
    | with_reducible apply Keeps.orHold
    | with_reducible apply Keeps.foldl
    | (with_reducible apply Keeps.fst; case e => with_reducible assumption)
    | split
    | with_reducible apply Keeps.core
    | with_reducible apply Keeps.mk')

theorem State.killAway_keeps {a0 s : State} {d e} (h : Keeps a0 s) : Keeps a0 (State.killAway s d e) := by
  have drop : ∀ v : Option Saved, Keeps a0 (match v with
      | some v => s.onDev fun d => d.release v
      | none => s) := fun v => by
    cases v
    · exact h
    · exact Keeps.onDev rfl h
  unfold State.killAway
  split
  · exact Keeps.within (fun _ _ h => State.kill_keeps h) h
  · exact State.noteEnded_keeps (State.noteKill_keeps (State.killHeader_keeps (drop _)))

theorem execFaultRingRoom_keeps {a0 s u0 : State} {die} (e : execFaultRingRoom die s = .next u0) (h : Keeps a0 s) : Keeps a0 u0 := by
  unfold execFaultRingRoom at e
  try dsimp only at e
  repeat' (first
    | refine State.issueWith_keeps e ?_ ?_
    | (refine Keeps.next e ?_; clear e)
    | split at e
    | with_reducible exact Keeps.refl _
    | with_reducible assumption
    | intro _
    | with_reducible apply State.hold_keeps
    | with_reducible apply State.ringAppend_keeps
    | with_reducible apply Keeps.onDie
    | with_reducible apply State.killAway_keeps
    | with_reducible apply Keeps.orHold
    | with_reducible apply Keeps.foldl
    | (with_reducible apply Keeps.fst; case e => with_reducible assumption)
    | split
    | with_reducible apply Keeps.core
    | with_reducible apply Keeps.mk')

theorem execYield_keeps {a0 s u0 : State} {y} (e : execYield y s = .next u0) (h : Keeps a0 s) : Keeps a0 u0 := by
  unfold execYield at e
  try dsimp only at e
  repeat' (first
    | refine State.issueWith_keeps e ?_ ?_
    | refine Keeps.next e ?_
    | split at e
    | with_reducible exact Keeps.refl _
    | with_reducible assumption
    | intro _
    | with_reducible apply Keeps.foldl
    | (with_reducible apply Keeps.fst; case e => with_reducible assumption)
    | split
    | with_reducible apply Keeps.core
    | with_reducible apply Keeps.mk')

theorem execYieldRequeue_keeps {a0 s u0 : State} {c} (e : execYieldRequeue c s = .next u0) (h : Keeps a0 s) : Keeps a0 u0 := by
  unfold execYieldRequeue at e
  try dsimp only at e
  repeat' (first
    | refine State.issueWith_keeps e ?_ ?_
    | (refine Keeps.next e ?_; clear e)
    | split at e
    | with_reducible exact Keeps.refl _
    | with_reducible assumption
    | intro _
    | with_reducible apply State.enqueue_keeps
    | with_reducible apply State.dieEvent_keeps
    | with_reducible apply State.kill_keeps
    | with_reducible apply State.freeCore_keeps
    | with_reducible apply State.saveYield_keeps
    | with_reducible apply Keeps.within
    | with_reducible apply Keeps.orHold
    | with_reducible apply Keeps.foldl
    | (with_reducible apply Keeps.fst; case e => with_reducible assumption)
    | split
    | with_reducible apply Keeps.core
    | with_reducible apply Keeps.mk')

theorem execCkpt_keeps {a0 s u0 : State}  (e : execCkpt s = .next u0) (h : Keeps a0 s) : Keeps a0 u0 := by
  unfold execCkpt at e
  try dsimp only at e
  repeat' (first
    | refine State.issueWith_keeps e ?_ ?_
    | refine Keeps.next e ?_
    | split at e
    | with_reducible exact Keeps.refl _
    | with_reducible assumption
    | intro _
    | with_reducible apply Keeps.foldl
    | (with_reducible apply Keeps.fst; case e => with_reducible assumption)
    | split
    | with_reducible apply Keeps.core
    | with_reducible apply Keeps.mk')

theorem State.rollback_keeps {a0 s : State} {r} (h : Keeps a0 s) : Keeps a0 (State.rollback s r) := by
  unfold State.rollback
  try dsimp only
  repeat' (first
    | with_reducible exact Keeps.refl _
    | with_reducible assumption
    | intro _
    | with_reducible apply Keeps.onDie
    | with_reducible apply Keeps.foldl
    | (with_reducible apply Keeps.fst; case e => with_reducible assumption)
    | split
    | with_reducible apply Keeps.core
    | with_reducible apply Keeps.mk')

theorem State.beginPass_keeps {a0 s : State} {r n sig cnt} (h : Keeps a0 s) : Keeps a0 (State.beginPass s r n sig cnt) := by
  unfold State.beginPass
  try dsimp only
  repeat' (first
    | with_reducible exact Keeps.refl _
    | with_reducible assumption
    | intro _
    | with_reducible apply State.rollback_keeps
    | with_reducible apply Keeps.foldl
    | (with_reducible apply Keeps.fst; case e => with_reducible assumption)
    | split
    | with_reducible apply Keeps.core
    | with_reducible apply Keeps.mk')

theorem State.unbindGroups_keeps {a0 s : State} {t l} (h : Keeps a0 s) : Keeps a0 (State.unbindGroups s t l) :=
  Keeps.foldl (fun _ _ _ h => Keeps.onDev rfl h) h

theorem State.returnPreload_keeps {a0 s : State}  (h : Keeps a0 s) : Keeps a0 (State.returnPreload s) := by
  unfold State.returnPreload
  split
  · exact h
  · exact State.enqueue_keeps (State.unbindGroups_keeps (Keeps.core h))

theorem State.performAll_keeps {a0 x2 : State} {x1} (h : Keeps a0 x2) : Keeps a0 (State.performAll x1 x2) := by
  induction x1 generalizing x2 with
  | zero =>
    unfold State.performAll
    try dsimp only
    repeat' (first
      | with_reducible exact Keeps.refl _
      | with_reducible assumption
      | intro _
      | with_reducible apply State.performAt_keeps
      | with_reducible apply Keeps.foldl
      | (with_reducible apply Keeps.fst; case e => with_reducible assumption)
      | split
      | with_reducible apply Keeps.core
      | with_reducible apply Keeps.mk')
  | succ k ih =>
    unfold State.performAll
    try dsimp only
    repeat' (first
      | with_reducible exact Keeps.refl _
      | with_reducible assumption
      | intro _
      | with_reducible apply ih
      | with_reducible apply State.performAt_keeps
      | with_reducible apply Keeps.foldl
      | (with_reducible apply Keeps.fst; case e => with_reducible assumption)
      | split
      | with_reducible apply Keeps.core
      | with_reducible apply Keeps.mk')

theorem State.retireCore_keeps {a0 s : State} {t r} (h : Keeps a0 s) : Keeps a0 (State.retireCore s t r) := by
  unfold State.retireCore
  try dsimp only
  repeat' (first
    | with_reducible exact Keeps.refl _
    | with_reducible assumption
    | intro _
    | with_reducible apply State.performAll_keeps
    | with_reducible apply State.rollback_keeps
    | with_reducible apply State.enqueue_keeps
    | with_reducible apply State.dieEvent_keeps
    | with_reducible apply State.kill_keeps
    | with_reducible apply State.freeCore_keeps
    | with_reducible apply State.returnPreload_keeps
    | with_reducible apply Keeps.onDie
    | with_reducible apply State.saveFull_keeps
    | with_reducible apply Keeps.foldl
    | (with_reducible apply Keeps.fst; case e => with_reducible assumption)
    | split
    | with_reducible apply Keeps.core
    | with_reducible apply Keeps.mk')

theorem State.passDone_keeps {a0 s : State} {r} (h : Keeps a0 s) : Keeps a0 (State.passDone s r) := by
  unfold State.passDone
  try dsimp only
  repeat' (first
    | with_reducible exact Keeps.refl _
    | with_reducible assumption
    | intro _
    | with_reducible apply State.beginPass_keeps
    | with_reducible apply State.retireCore_keeps
    | with_reducible apply Keeps.foldl
    | (with_reducible apply Keeps.fst; case e => with_reducible assumption)
    | split
    | with_reducible apply Keeps.core
    | with_reducible apply Keeps.mk')

theorem State.datapathError_keeps {a0 s : State}  (h : Keeps a0 s) : Keeps a0 (State.datapathError s) := by
  unfold State.datapathError
  try dsimp only
  repeat' (first
    | with_reducible exact Keeps.refl _
    | with_reducible assumption
    | intro _
    | with_reducible apply State.rollback_keeps
    | with_reducible apply State.dieEvent_keeps
    | with_reducible apply State.kill_keeps
    | with_reducible apply State.beginPass_keeps
    | with_reducible apply State.retireCore_keeps
    | with_reducible apply Keeps.foldl
    | (with_reducible apply Keeps.fst; case e => with_reducible assumption)
    | split
    | with_reducible apply Keeps.core
    | with_reducible apply Keeps.mk')

theorem execDatapathError_keeps {a0 s u0 : State} {c} (e : execDatapathError c s = .next u0) (h : Keeps a0 s) : Keeps a0 u0 := by
  unfold execDatapathError at e
  try dsimp only at e
  repeat' (first
    | refine State.issueWith_keeps e ?_ ?_
    | (refine Keeps.next e ?_; clear e)
    | split at e
    | with_reducible exact Keeps.refl _
    | with_reducible assumption
    | intro _
    | with_reducible apply State.datapathError_keeps
    | with_reducible apply Keeps.within
    | with_reducible apply Keeps.orHold
    | with_reducible apply Keeps.foldl
    | (with_reducible apply Keeps.fst; case e => with_reducible assumption)
    | split
    | with_reducible apply Keeps.core
    | with_reducible apply Keeps.mk')

theorem execCheckpointSnapshot_keeps {a0 s u0 : State} {c} (e : execCheckpointSnapshot c s = .next u0) (h : Keeps a0 s) : Keeps a0 u0 := by
  unfold execCheckpointSnapshot at e
  try dsimp only at e
  repeat' (first
    | refine State.issueWith_keeps e ?_ ?_
    | (refine Keeps.next e ?_; clear e)
    | split at e
    | with_reducible exact Keeps.refl _
    | with_reducible assumption
    | intro _
    | with_reducible apply State.datapathError_keeps
    | with_reducible apply State.takeSnapshot_keeps
    | with_reducible apply Keeps.within
    | with_reducible apply Keeps.orHold
    | with_reducible apply Keeps.foldl
    | (with_reducible apply Keeps.fst; case e => with_reducible assumption)
    | split
    | with_reducible apply Keeps.core
    | with_reducible apply Keeps.mk')

theorem State.settleEnd_keeps {a0 s : State}  (h : Keeps a0 s) : Keeps a0 (State.settleEnd s) := by
  unfold State.settleEnd
  try dsimp only
  repeat' (first
    | with_reducible exact Keeps.refl _
    | with_reducible assumption
    | intro _
    | with_reducible apply Keeps.onRegs
    | with_reducible apply Keeps.foldl
    | (with_reducible apply Keeps.fst; case e => with_reducible assumption)
    | split
    | with_reducible apply Keeps.core
    | with_reducible apply Keeps.mk')

theorem execTaskRetire_keeps {a0 s u0 : State} {c} (e : execTaskRetire c s = .next u0) (h : Keeps a0 s) : Keeps a0 u0 := by
  unfold execTaskRetire at e
  try dsimp only at e
  repeat' (first
    | refine State.issueWith_keeps e ?_ ?_
    | (refine Keeps.next e ?_; clear e)
    | split at e
    | with_reducible exact Keeps.refl _
    | with_reducible assumption
    | intro _
    | with_reducible apply State.dieEvent_keeps
    | with_reducible apply State.kill_keeps
    | with_reducible apply State.complete_keeps
    | with_reducible apply State.freeCore_keeps
    | with_reducible apply State.settleEnd_keeps
    | with_reducible apply State.lateReport_keeps
    | with_reducible apply State.noteEnded_keeps
    | with_reducible apply Keeps.within
    | with_reducible apply Keeps.orHold
    | with_reducible apply Keeps.foldl
    | (with_reducible apply Keeps.fst; case e => with_reducible assumption)
    | split
    | with_reducible apply Keeps.core
    | with_reducible apply Keeps.mk')

end Sys2Proof.Machine
end

