-- ==== Sys2Proof/Laws/KeepsHost.lean ====
section
/-! SUPPORT. What the host and the device do keeps them; a write of a register of the host, a reset and a key command keep memory in canonical form. -/

namespace Sys2Proof.Machine

open Sys2Proof

set_option linter.all false

/-- A new memory in canonical form. -/
theorem Keeps.withMem {a s : State} {me : CoreRef} {core : Core} {others : Sparse Core} {dies : Vector Die 4} {mem : Sparse Byte}
    {lines : Sparse LineMeta} {flaws : List Nat} {agenda : List Move} {due fresh : Nat} {held : Bool} (k : Memory.wf s.mem = true → Memory.wf mem = true)
    (h : Keeps a s) : Keeps a ⟨me, core, others, dies, s.dev, mem, lines, flaws, agenda, due, fresh, held⟩ := ⟨fun w => k (h.mem w), h.host⟩

theorem Memory.wf_foldl {α : Type} {f : Sparse Byte → α → Sparse Byte} (k : ∀ m x, Memory.wf m = true → Memory.wf (f m x) = true) (l : List α)
    (m : Sparse Byte) (h : Memory.wf m = true) : Memory.wf (l.foldl f m) = true := by
  induction l generalizing m with
  | nil => exact h
  | cons x l ih => exact ih _ (k _ _ h)

theorem Memory.wf_setRange {m : Sparse Byte} {a l} (h : Memory.wf m = true) : Memory.wf (Sparse.setRange 0 m a l) = true :=
  Sparse.wf_setRange 0 l m a h

theorem State.onDev_wf {s : State} {f} (h : Memory.wf s.mem = true) : Memory.wf (s.onDev f).mem = true := h

theorem State.onDie_wf {s : State} {d f} (h : Memory.wf s.mem = true) : Memory.wf (s.onDie d f).mem = true := h

theorem State.callLink_keeps {a0 s : State} (h : Keeps a0 s) : Keeps a0 (State.callLink s) := by
  unfold State.callLink
  split
  · exact h
  · exact Keeps.mk' h

theorem State.hostPerform_keeps {a0 s : State} {w} (h : Keeps a0 s) : Keeps a0 (State.hostPerform s w) := by
  unfold State.hostPerform
  split
  · exact State.onCores_keeps (State.writeLines_keeps h)
  · exact Keeps.onDev rfl h
  · exact State.callLink_keeps h
  · exact State.setErr_keeps h
  · exact Keeps.mk' (Keeps.onDev rfl h)

theorem State.hostRelease_keeps {a0 x3 : State} {x1 x2} (h : Keeps a0 x3) : Keeps a0 (State.hostRelease x1 x2 x3) := by
  induction x1 generalizing x2 x3 with
  | nil =>
    unfold State.hostRelease
    try dsimp only
    repeat' (first
      | with_reducible exact Keeps.refl _
      | with_reducible assumption
      | intro _
      | with_reducible apply State.hostPerform_keeps
      | with_reducible apply Keeps.foldl
      | (with_reducible apply Keeps.onDev; case k => simp only [Device.host, Device.setBinding])
      | (with_reducible apply Keeps.fst; case e => with_reducible assumption)
      | split
      | with_reducible apply Keeps.core
      | with_reducible apply Keeps.mk')
  | cons y l ih =>
    unfold State.hostRelease
    try dsimp only
    repeat' (first
      | with_reducible exact Keeps.refl _
      | with_reducible assumption
      | intro _
      | with_reducible apply ih
      | with_reducible apply State.hostPerform_keeps
      | with_reducible apply Keeps.foldl
      | (with_reducible apply Keeps.onDev; case k => simp only [Device.host, Device.setBinding])
      | (with_reducible apply Keeps.fst; case e => with_reducible assumption)
      | split
      | with_reducible apply Keeps.core
      | with_reducible apply Keeps.mk')

theorem State.release_keeps {a0 s : State}  (h : Keeps a0 s) : Keeps a0 (State.release s) := by
  unfold State.release
  try dsimp only
  repeat' (first
    | with_reducible exact Keeps.refl _
    | with_reducible assumption
    | intro _
    | with_reducible apply State.hostRelease_keeps
    | with_reducible apply Keeps.foldl
    | (with_reducible apply Keeps.fst; case e => with_reducible assumption)
    | split
    | with_reducible apply Keeps.core
    | with_reducible apply Keeps.mk')

theorem State.hostArrive_keeps {a0 s : State} {w} (h : Keeps a0 s) : Keeps a0 (State.hostArrive s w) := by
  unfold State.hostArrive
  try dsimp only
  repeat' (first
    | with_reducible exact Keeps.refl _
    | with_reducible assumption
    | intro _
    | with_reducible apply State.release_keeps
    | with_reducible apply Keeps.foldl
    | (with_reducible apply Keeps.onDev; case k => simp only [Device.host, Device.setBinding])
    | (with_reducible apply Keeps.fst; case e => with_reducible assumption)
    | split
    | with_reducible apply Keeps.core
    | with_reducible apply Keeps.mk')

theorem execHostMemWrite_keeps {a0 s u0 : State} {pa data} (e : execHostMemWrite pa data s = .next u0) (h : Keeps a0 s) : Keeps a0 u0 := by
  unfold execHostMemWrite at e
  try dsimp only at e
  repeat' (first
    | refine State.issueWith_keeps e ?_ ?_
    | refine Keeps.next e ?_
    | split at e
    | with_reducible exact Keeps.refl _
    | with_reducible assumption
    | intro _
    | with_reducible apply State.hostArrive_keeps
    | with_reducible apply Keeps.foldl
    | (with_reducible apply Keeps.fst; case e => with_reducible assumption)
    | split
    | with_reducible apply Keeps.core
    | with_reducible apply Keeps.mk')

theorem execHostMemRead_keeps {a0 s u0 : State} {pa len} (e : execHostMemRead pa len s = .next u0) (h : Keeps a0 s) : Keeps a0 u0 := by
  unfold execHostMemRead at e
  try dsimp only at e
  repeat' (first
    | refine State.issueWith_keeps e ?_ ?_
    | refine Keeps.next e ?_
    | split at e
    | with_reducible exact Keeps.refl _
    | with_reducible assumption
    | intro _
    | with_reducible apply State.hostArrive_keeps
    | with_reducible apply Keeps.foldl
    | (with_reducible apply Keeps.fst; case e => with_reducible assumption)
    | split
    | with_reducible apply Keeps.core
    | with_reducible apply Keeps.mk')

theorem State.counterWrite_keeps {a0 s : State} {off size v} (h : Keeps a0 s) : Keeps a0 (State.counterWrite s off size v) := by
  unfold State.counterWrite
  try dsimp only
  repeat' (first
    | with_reducible exact Keeps.refl _
    | with_reducible assumption
    | intro _
    | with_reducible apply State.hostArrive_keeps
    | with_reducible apply State.setErr_keeps
    | with_reducible apply Keeps.foldl
    | (with_reducible apply Keeps.fst; case e => with_reducible assumption)
    | split
    | with_reducible apply Keeps.core
    | with_reducible apply Keeps.mk')

theorem execHifTdecWrite_keeps {a0 s u0 : State} {size v} (e : execHifTdecWrite size v s = .next u0) (h : Keeps a0 s) : Keeps a0 u0 := by
  unfold execHifTdecWrite at e
  try dsimp only at e
  repeat' (first
    | refine State.issueWith_keeps e ?_ ?_
    | refine Keeps.next e ?_
    | split at e
    | with_reducible exact Keeps.refl _
    | with_reducible assumption
    | intro _
    | with_reducible apply State.counterWrite_keeps
    | with_reducible apply Keeps.foldl
    | (with_reducible apply Keeps.fst; case e => with_reducible assumption)
    | split
    | with_reducible apply Keeps.core
    | with_reducible apply Keeps.mk')

theorem execHifTdecQueueHead_keeps {a0 s u0 : State}  (e : execHifTdecQueueHead s = .next u0) (h : Keeps a0 s) : Keeps a0 u0 := by
  unfold execHifTdecQueueHead at e
  try dsimp only at e
  repeat' (first
    | refine State.issueWith_keeps e ?_ ?_
    | (refine Keeps.next e ?_; clear e)
    | split at e
    | with_reducible exact Keeps.refl _
    | with_reducible assumption
    | intro _
    | with_reducible apply State.decrementAt_keeps
    | with_reducible apply State.setErr_keeps
    | with_reducible apply State.hold_keeps
    | with_reducible apply State.release_keeps
    | with_reducible apply State.translateHeld_keeps
    | with_reducible apply Keeps.orHold
    | with_reducible apply Keeps.foldl
    | (with_reducible apply Keeps.onDev; case k => simp only [Device.host, Device.setBinding])
    | (with_reducible apply Keeps.fst; case e => with_reducible assumption)
    | split
    | with_reducible apply Keeps.core
    | with_reducible apply Keeps.mk')

theorem execHifErrClear_keeps {a0 s u0 : State} {v} (e : execHifErrClear v s = .next u0) (h : Keeps a0 s) : Keeps a0 u0 := by
  unfold execHifErrClear at e
  try dsimp only at e
  repeat' (first
    | refine State.issueWith_keeps e ?_ ?_
    | refine Keeps.next e ?_
    | split at e
    | with_reducible exact Keeps.refl _
    | with_reducible assumption
    | intro _
    | with_reducible apply Keeps.foldl
    | (with_reducible apply Keeps.onDev; case k => simp only [Device.host, Device.setBinding])
    | (with_reducible apply Keeps.fst; case e => with_reducible assumption)
    | split
    | with_reducible apply Keeps.core
    | with_reducible apply Keeps.mk')

theorem execFeatureAcceptWrite_mem {s u0 : State} {i v} (e : execFeatureAcceptWrite i v s = .next u0) (h : Memory.wf s.mem = true) :
    Memory.wf u0.mem = true := by
  unfold execFeatureAcceptWrite at e
  split at e <;> cases e <;> exact h

theorem execRun_mem {s u0 : State} (e : execRun s = .next u0) (h : Memory.wf s.mem = true) : Memory.wf u0.mem = true := by
  cases e; exact h

theorem State.resetDevice_mem {s : State} (h : Memory.wf s.mem = true) : Memory.wf s.resetDevice.mem = true := Sparse.wf_filter 0 _ _ h

theorem execReset_mem {s u0 : State} (e : execReset s = .next u0) (h : Memory.wf s.mem = true) : Memory.wf u0.mem = true := by
  unfold execReset at e
  injection e with e
  rw [← e]; exact State.resetDevice_mem h

theorem execFwload_mem {s u0 : State} (e : execFwload s = .next u0) (h : Memory.wf s.mem = true) : Memory.wf u0.mem = true := by
  unfold execFwload at e
  injection e with e
  rw [← e]
  dsimp only
  split
  · exact State.resetDevice_mem (s := s.onDev _) h
  · exact State.resetDevice_mem h

theorem execFunctionReady_keeps {a0 s u0 : State} {die bit} (e : execFunctionReady die bit s = .next u0) (h : Keeps a0 s) : Keeps a0 u0 := by
  unfold execFunctionReady at e
  try dsimp only at e
  repeat' (first
    | refine State.issueWith_keeps e ?_ ?_
    | refine Keeps.next e ?_
    | split at e
    | with_reducible exact Keeps.refl _
    | with_reducible assumption
    | intro _
    | with_reducible apply Keeps.onDie
    | with_reducible apply State.release_keeps
    | with_reducible apply Keeps.foldl
    | (with_reducible apply Keeps.fst; case e => with_reducible assumption)
    | split
    | with_reducible apply Keeps.core
    | with_reducible apply Keeps.mk')

theorem State.ckeFail_keeps {a0 s : State} (h : Keeps a0 s) : Keeps a0 (State.ckeFail s) := ⟨h.mem, h.host⟩

theorem replaceSpan_wf {m new : Sparse Byte} {base n} (h : Memory.wf m = true) : Memory.wf (replaceSpan m base n new) = true :=
  Memory.wf_foldl (fun m _ w => Sparse.wf_set 0 m _ _ w) _ _ (Sparse.wf_filter 0 _ _ h)

theorem State.saveDie_keeps {a0 s : State} {t d} (h : Keeps a0 s) : Keeps a0 (State.saveDie s t d) :=
  h.withMem fun w => replaceSpan_wf (replaceSpan_wf w)

theorem State.restoreDie_keeps {a0 s : State} {t d} (h : Keeps a0 s) : Keeps a0 (State.restoreDie s t d) := h.withMem fun w => replaceSpan_wf w

theorem openSpan_wf {m : Sparse Byte} {base n k} (h : Memory.wf m = true) : Memory.wf (openSpan m base n k) = true :=
  Memory.wf_foldl (fun m _ w => Sparse.wf_set 0 m _ _ w) _ _ h

theorem State.openTier_keeps {a0 s : State} {t d k} (h : Keeps a0 s) : Keeps a0 (State.openTier s t d k) := h.withMem fun w => openSpan_wf (openSpan_wf w)

theorem State.partRestore_keeps {a0 s : State} {t d k} (h : Keeps a0 s) : Keeps a0 (State.partRestore s t d k) :=
  h.withMem fun w => Memory.wf_foldl (fun m _ w => Sparse.wf_set 0 m _ _ w) _ _ (Sparse.wf_filter 0 _ _ w)

theorem State.ckeStop_keeps {a0 s : State} (h : Keeps a0 s) : Keeps a0 (State.ckeStop s) := by
  unfold State.ckeStop
  dsimp only
  split
  · exact h
  · refine State.release_keeps (Keeps.onDev rfl (State.ckeFail_keeps ?_))
    have k : Keeps a0 (s.dev.cke.dies.foldl (fun t d => t.openTier s.dev.cke.tier d (s.fresh + 1))
        (if s.dev.cke.running && s.dev.cke.ctl.getLsbD 3 then s.dev.cke.dies.foldl (fun t d => t.partRestore s.dev.cke.tier d s.fresh) s else s)) := by
      refine Keeps.foldl (fun b t d h => State.openTier_keeps h) ?_
      split
      · exact Keeps.foldl (fun b t d h => State.partRestore_keeps h) h
      · exact h
    exact ⟨k.mem, k.host⟩

theorem State.ckeWrite_keeps {a0 s : State} {v r b} (h : Keeps a0 s) : Keeps a0 (State.ckeWrite s v r b) := by
  unfold State.ckeWrite
  dsimp only
  split
  · exact h
  · cases b <;> exact ⟨h.mem, h.host⟩

theorem execCkeSaveStart_keeps {a0 s u0 : State} {v} (e : execCkeSaveStart v s = .next u0) (h : Keeps a0 s) : Keeps a0 u0 := by
  unfold execCkeSaveStart at e
  try dsimp only at e
  repeat' (first
    | refine State.issueWith_keeps e ?_ ?_
    | refine Keeps.next e ?_
    | split at e
    | with_reducible exact Keeps.refl _
    | with_reducible assumption
    | intro _
    | with_reducible apply State.ckeWrite_keeps
    | with_reducible apply Keeps.foldl
    | (with_reducible apply Keeps.fst; case e => with_reducible assumption)
    | split
    | with_reducible apply Keeps.core
    | with_reducible apply Keeps.mk')

theorem execCkeRestoreStart_keeps {a0 s u0 : State} {v} (e : execCkeRestoreStart v s = .next u0) (h : Keeps a0 s) : Keeps a0 u0 := by
  unfold execCkeRestoreStart at e
  try dsimp only at e
  repeat' (first
    | refine State.issueWith_keeps e ?_ ?_
    | refine Keeps.next e ?_
    | split at e
    | with_reducible exact Keeps.refl _
    | with_reducible assumption
    | intro _
    | with_reducible apply State.ckeWrite_keeps
    | with_reducible apply Keeps.foldl
    | (with_reducible apply Keeps.fst; case e => with_reducible assumption)
    | split
    | with_reducible apply Keeps.core
    | with_reducible apply Keeps.mk')

theorem execCkeAbort_keeps {a0 s u0 : State}  (e : execCkeAbort s = .next u0) (h : Keeps a0 s) : Keeps a0 u0 := by
  unfold execCkeAbort at e
  try dsimp only at e
  repeat' (first
    | refine State.issueWith_keeps e ?_ ?_
    | refine Keeps.next e ?_
    | split at e
    | with_reducible exact Keeps.refl _
    | with_reducible assumption
    | intro _
    | with_reducible apply State.ckeStop_keeps
    | with_reducible apply Keeps.foldl
    | (with_reducible apply Keeps.fst; case e => with_reducible assumption)
    | split
    | with_reducible apply Keeps.core
    | with_reducible apply Keeps.mk')

theorem execCkeRunBegin_keeps {a0 s u0 : State} (e : execCkeRunBegin s = .next u0) (h : Keeps a0 s) : Keeps a0 u0 := by
  unfold execCkeRunBegin at e
  refine Keeps.next e ?_
  clear e
  dsimp only
  split
  · exact h
  · exact ⟨h.mem, h.host⟩

theorem execCkeRunEnd_keeps {a0 s u0 : State} (e : execCkeRunEnd s = .next u0) (h : Keeps a0 s) : Keeps a0 u0 := by
  unfold execCkeRunEnd at e
  refine Keeps.next e ?_
  clear e
  dsimp only
  split
  · exact h
  · refine State.release_keeps ?_
    have k : Keeps a0 (s.dev.cke.dies.foldl (fun t d => if s.dev.cke.ctl.getLsbD 3 then t.restoreDie s.dev.cke.tier d else t.saveDie s.dev.cke.tier d) s) := by
      refine Keeps.foldl (fun b t d h => ?_) h
      split
      · exact State.restoreDie_keeps h
      · exact State.saveDie_keeps h
    exact ⟨k.mem, k.host⟩

theorem execLinkDown_keeps {a0 s u0 : State} {die link} (e : execLinkDown die link s = .next u0) (h : Keeps a0 s) : Keeps a0 u0 := by
  unfold execLinkDown at e
  try dsimp only at e
  repeat' (first
    | refine State.issueWith_keeps e ?_ ?_
    | refine Keeps.next e ?_
    | split at e
    | with_reducible exact Keeps.refl _
    | with_reducible assumption
    | intro _
    | with_reducible apply State.onCores_keeps
    | with_reducible apply Keeps.onDie
    | with_reducible apply State.ckeStop_keeps
    | with_reducible apply State.setErr_keeps
    | with_reducible apply Keeps.foldl
    | (with_reducible apply Keeps.fst; case e => with_reducible assumption)
    | split
    | with_reducible apply Keeps.core
    | with_reducible apply Keeps.mk')

theorem execIslRequestWrite_keeps {a0 s u0 : State} {die isl v} (e : execIslRequestWrite die isl v s = .next u0) (h : Keeps a0 s) : Keeps a0 u0 := by
  unfold execIslRequestWrite at e
  try dsimp only at e
  repeat' (first
    | refine State.issueWith_keeps e ?_ ?_
    | refine Keeps.next e ?_
    | split at e
    | with_reducible exact Keeps.refl _
    | with_reducible assumption
    | intro _
    | with_reducible apply Keeps.onDie
    | with_reducible apply Keeps.foldl
    | (with_reducible apply Keeps.fst; case e => with_reducible assumption)
    | split
    | with_reducible apply Keeps.core
    | with_reducible apply Keeps.mk')

theorem execPowerLimitChange_keeps {a0 s u0 : State} {die isl cur} (e : execPowerLimitChange die isl cur s = .next u0) (h : Keeps a0 s) : Keeps a0 u0 := by
  unfold execPowerLimitChange at e
  try dsimp only at e
  repeat' (first
    | refine State.issueWith_keeps e ?_ ?_
    | refine Keeps.next e ?_
    | split at e
    | with_reducible exact Keeps.refl _
    | with_reducible assumption
    | intro _
    | with_reducible apply Keeps.onDie
    | with_reducible apply Keeps.foldl
    | (with_reducible apply Keeps.fst; case e => with_reducible assumption)
    | split
    | with_reducible apply Keeps.core
    | with_reducible apply Keeps.mk')

theorem execPoisonedAcknowledgementPath_keeps {a0 s u0 : State} {c} (e : execPoisonedAcknowledgementPath c s = .next u0) (h : Keeps a0 s) : Keeps a0 u0 := by
  unfold execPoisonedAcknowledgementPath at e
  try dsimp only at e
  repeat' (first
    | refine State.issueWith_keeps e ?_ ?_
    | refine Keeps.next e ?_
    | split at e
    | with_reducible exact Keeps.refl _
    | with_reducible assumption
    | intro _
    | with_reducible apply State.performOp_keeps
    | with_reducible apply Keeps.within
    | with_reducible apply Keeps.foldl
    | (with_reducible apply Keeps.fst; case e => with_reducible assumption)
    | split
    | with_reducible apply Keeps.core
    | with_reducible apply Keeps.mk')

theorem execPtrootWrite_mem {s u0 : State} {v} (e : execPtrootWrite v s = .next u0) (h : Memory.wf s.mem = true) : Memory.wf u0.mem = true := by
  unfold execPtrootWrite at e
  split at e <;> cases e <;> exact h

theorem State.startInvalidation_keeps {a0 s : State} {w} (h : Keeps a0 s) : Keeps a0 (State.startInvalidation s w) := by
  unfold State.startInvalidation
  split
  · exact h
  · exact ⟨h.mem, h.host⟩

theorem execTlbInvalidateVpn_keeps {a0 s u0 : State} {vpn} (e : execTlbInvalidateVpn vpn s = .next u0) (h : Keeps a0 s) : Keeps a0 u0 := by
  unfold execTlbInvalidateVpn at e
  try dsimp only at e
  repeat' (first
    | refine State.issueWith_keeps e ?_ ?_
    | refine Keeps.next e ?_
    | split at e
    | with_reducible exact Keeps.refl _
    | with_reducible assumption
    | intro _
    | with_reducible apply State.startInvalidation_keeps
    | with_reducible apply Keeps.foldl
    | (with_reducible apply Keeps.fst; case e => with_reducible assumption)
    | split
    | with_reducible apply Keeps.core
    | with_reducible apply Keeps.mk')

theorem execTlbInvalidateAll_keeps {a0 s u0 : State}  (e : execTlbInvalidateAll s = .next u0) (h : Keeps a0 s) : Keeps a0 u0 := by
  unfold execTlbInvalidateAll at e
  try dsimp only at e
  repeat' (first
    | refine State.issueWith_keeps e ?_ ?_
    | refine Keeps.next e ?_
    | split at e
    | with_reducible exact Keeps.refl _
    | with_reducible assumption
    | intro _
    | with_reducible apply State.startInvalidation_keeps
    | with_reducible apply Keeps.foldl
    | (with_reducible apply Keeps.fst; case e => with_reducible assumption)
    | split
    | with_reducible apply Keeps.core
    | with_reducible apply Keeps.mk')

theorem State.dropTranslations_keeps {a0 s : State} {what} (h : Keeps a0 s) : Keeps a0 (State.dropTranslations s what) := by
  unfold State.dropTranslations
  try dsimp only
  repeat' (first
    | with_reducible exact Keeps.refl _
    | with_reducible assumption
    | intro _
    | with_reducible apply State.onCores_keeps
    | with_reducible apply Keeps.foldl
    | (with_reducible apply Keeps.fst; case e => with_reducible assumption)
    | split
    | with_reducible apply Keeps.core
    | with_reducible apply Keeps.mk')

theorem execTlbInvalidationDone_keeps {a0 s u0 : State} (e : execTlbInvalidationDone s = .next u0) (h : Keeps a0 s) : Keeps a0 u0 := by
  unfold execTlbInvalidationDone at e
  refine Keeps.next e ?_
  clear e
  split
  · exact h
  · rename_i w _
    have k := State.dropTranslations_keeps (what := w) h
    exact ⟨k.mem, k.host⟩

theorem execL2SplitWrite_keeps {a0 s u0 : State} {die v} (e : execL2SplitWrite die v s = .next u0) (h : Keeps a0 s) : Keeps a0 u0 := by
  unfold execL2SplitWrite at e
  try dsimp only at e
  repeat' (first
    | refine State.issueWith_keeps e ?_ ?_
    | refine Keeps.next e ?_
    | split at e
    | with_reducible exact Keeps.refl _
    | with_reducible assumption
    | intro _
    | with_reducible apply Keeps.onDie
    | with_reducible apply Keeps.foldl
    | (with_reducible apply Keeps.fst; case e => with_reducible assumption)
    | split
    | with_reducible apply Keeps.core
    | with_reducible apply Keeps.mk')

theorem execL2SplitApply_keeps {a0 s u0 : State} {die} (e : execL2SplitApply die s = .next u0) (h : Keeps a0 s) : Keeps a0 u0 := by
  unfold execL2SplitApply at e
  refine Keeps.next e ?_
  clear e
  split
  · exact h
  · split
    · exact h
    · exact Keeps.onDie (h.withMem fun w => Sparse.wf_filter 0 _ _ w)

theorem execFabricRankWrite_mem {s u0 : State} {r v} (e : execFabricRankWrite r v s = .next u0) (h : Memory.wf s.mem = true) : Memory.wf u0.mem = true := by
  unfold execFabricRankWrite at e
  split at e
  · cases e; exact h
  · split at e
    · cases e; exact h
    · split at e <;> cases e <;> exact h

theorem State.dropWalks_keeps {a0 s : State} {die va} (h : Keeps a0 s) : Keeps a0 (State.dropWalks s die va) := by
  unfold State.dropWalks
  refine Keeps.foldl (fun b t k h => ?_) h
  split
  · exact Keeps.onCore h
  · exact h

theorem execPageWalk_keeps {a0 s u0 : State} {die} (e : execPageWalk die s = .next u0) (h : Keeps a0 s) : Keeps a0 u0 := by
  unfold execPageWalk at e
  refine Keeps.next e ?_
  clear e
  split
  · exact h
  · split
    · exact h
    · dsimp only
      rename_i c _ _ r _ _
      have h1 : Keeps a0 ((s.focus c).walkNow (s.focus c).who r.write r.va.toNat).1 := State.walkNow_keeps (Keeps.focus h)
      generalize (s.focus c).walkNow (s.focus c).who r.write r.va.toNat = q at h1
      split
      · exact h
      · exact State.dropWalks_keeps (Keeps.onDie (Keeps.focus h1))
      · exact Keeps.onDie (Keeps.focus h1)

theorem execImemReload_keeps {a0 s u0 : State} {c} (e : execImemReload c s = .next u0) (h : Keeps a0 s) : Keeps a0 u0 := by
  unfold execImemReload at e
  try dsimp only at e
  repeat' (first
    | refine State.issueWith_keeps e ?_ ?_
    | (refine Keeps.next e ?_; clear e)
    | split at e
    | with_reducible exact Keeps.refl _
    | with_reducible assumption
    | intro _
    | with_reducible apply State.trapEnter_keeps
    | with_reducible apply State.count_keeps
    | with_reducible apply State.recBytes_keeps
    | with_reducible apply Keeps.within
    | with_reducible apply Keeps.orHold
    | with_reducible apply Keeps.foldl
    | (with_reducible apply Keeps.fst; case e => with_reducible assumption)
    | split
    | with_reducible apply Keeps.core
    | with_reducible apply Keeps.mk')

theorem State.moveLine_keeps {a0 s : State} {k l n} (h : Keeps a0 s) : Keeps a0 (State.moveLine s k l n) := by
  unfold State.moveLine
  dsimp only
  generalize (if k = 0 then _ else _ : List Byte) = raw
  have q : Keeps a0 (s.writeLine 0 (128 * n) raw).1 := State.writeLine_keeps h
  split
  · exact q
  · exact ⟨q.mem, q.host⟩

theorem execPageMigration_keeps {a0 s u0 : State} {va frame} (e : execPageMigration va frame s = .next u0) (h : Keeps a0 s) : Keeps a0 u0 := by
  unfold execPageMigration at e
  refine Keeps.next e ?_
  clear e
  split
  · exact h
  · dsimp only
    split
    · exact h
    · refine State.dieEvent_keeps (Keeps.onDev rfl (State.onCores_keeps (Keeps.foldl (fun _ _ _ h => State.dropTranslations_keeps h) ?_)))
      exact Keeps.foldl (fun _ _ _ h => State.writePlain_keeps h)
        (Keeps.foldl (fun _ _ _ h => Keeps.foldl (fun _ _ _ h => State.moveLine_keeps h) h) h)

theorem State.keyCommand_keeps {a0 s : State} {a b} (h : Keeps a0 s) : Keeps a0 (State.keyCommand s a b) := by
  unfold State.keyCommand
  split
  · exact h
  · exact ⟨h.mem, h.host⟩

theorem execKeyLoad_keeps {a0 s u0 : State} {slot} (e : execKeyLoad slot s = .next u0) (h : Keeps a0 s) : Keeps a0 u0 := by
  unfold execKeyLoad at e
  try dsimp only at e
  repeat' (first
    | refine State.issueWith_keeps e ?_ ?_
    | refine Keeps.next e ?_
    | split at e
    | with_reducible exact Keeps.refl _
    | with_reducible assumption
    | intro _
    | with_reducible apply State.keyCommand_keeps
    | with_reducible apply Keeps.foldl
    | (with_reducible apply Keeps.fst; case e => with_reducible assumption)
    | split
    | with_reducible apply Keeps.core
    | with_reducible apply Keeps.mk')

theorem execKeyClear_keeps {a0 s u0 : State} {slot} (e : execKeyClear slot s = .next u0) (h : Keeps a0 s) : Keeps a0 u0 := by
  unfold execKeyClear at e
  try dsimp only at e
  repeat' (first
    | refine State.issueWith_keeps e ?_ ?_
    | refine Keeps.next e ?_
    | split at e
    | with_reducible exact Keeps.refl _
    | with_reducible assumption
    | intro _
    | with_reducible apply State.keyCommand_keeps
    | with_reducible apply Keeps.foldl
    | (with_reducible apply Keeps.fst; case e => with_reducible assumption)
    | split
    | with_reducible apply Keeps.core
    | with_reducible apply Keeps.mk')

theorem execKeyCommandDone_mem {s u0 : State} (e : execKeyCommandDone s = .next u0) (h : Memory.wf s.mem = true) : Memory.wf u0.mem = true := by
  unfold execKeyCommandDone at e
  injection e with e
  rw [← e]
  dsimp only
  split <;> exact h

theorem execPoisonClear_keeps {a0 s u0 : State} {v} (e : execPoisonClear v s = .next u0) (h : Keeps a0 s) : Keeps a0 u0 := by
  unfold execPoisonClear at e
  refine Keeps.next e ?_
  clear e
  split
  · split
    · exact h
    · exact ⟨h.mem, h.host⟩
  · exact h

theorem execPoisonClearDone_keeps {a0 s u0 : State} (e : execPoisonClearDone s = .next u0) (h : Keeps a0 s) : Keeps a0 u0 := by
  unfold execPoisonClearDone at e
  refine Keeps.next e ?_
  clear e
  split
  · exact h
  · split
    · exact h
    · refine Keeps.onDev ?_ (h.withMem fun w => ?_)
      · simp only [Device.host]
      · with_reducible exact Memory.wf_setRange w

theorem execFgrpWrite_keeps {a0 s u0 : State} {g v} (e : execFgrpWrite g v s = .next u0) (h : Keeps a0 s) : Keeps a0 u0 := by
  unfold execFgrpWrite at e
  refine Keeps.next e ?_
  clear e
  dsimp only
  split
  · exact ⟨h.mem, h.host⟩
  · exact State.clearGroup_keeps ⟨h.mem, h.host⟩

theorem execDevselWrite_keeps {a0 s u0 : State} {die i v} (e : execDevselWrite die i v s = .next u0) (h : Keeps a0 s) : Keeps a0 u0 := by
  unfold execDevselWrite at e
  try dsimp only at e
  repeat' (first
    | refine State.issueWith_keeps e ?_ ?_
    | refine Keeps.next e ?_
    | split at e
    | with_reducible exact Keeps.refl _
    | with_reducible assumption
    | intro _
    | with_reducible apply Keeps.onDie
    | with_reducible apply Keeps.foldl
    | (with_reducible apply Keeps.fst; case e => with_reducible assumption)
    | split
    | with_reducible apply Keeps.core
    | with_reducible apply Keeps.mk')

theorem State.startCompanion_keeps {a0 s : State} {c addr} (h : Keeps a0 s) : Keeps a0 (State.startCompanion s c addr) := by
  unfold State.startCompanion
  try dsimp only
  repeat' (first
    | with_reducible exact Keeps.refl _
    | with_reducible assumption
    | intro _
    | with_reducible apply State.startTask_keeps
    | with_reducible apply State.rejectTask_keeps
    | with_reducible apply State.setErr_keeps
    | with_reducible apply State.noteKill_keeps
    | with_reducible apply State.checkRecord_keeps
    | with_reducible apply State.kernelOf_keeps
    | with_reducible apply State.translateHeld_keeps
    | with_reducible apply State.readRecord_keeps
    | with_reducible apply Keeps.within
    | with_reducible apply Keeps.foldl
    | (with_reducible apply Keeps.fst; case e => with_reducible assumption)
    | split
    | with_reducible apply Keeps.core
    | with_reducible apply Keeps.mk')

theorem execCompStart_keeps {a0 s u0 : State} {n v} (e : execCompStart n v s = .next u0) (h : Keeps a0 s) : Keeps a0 u0 := by
  unfold execCompStart at e
  try dsimp only at e
  repeat' (first
    | refine State.issueWith_keeps e ?_ ?_
    | refine Keeps.next e ?_
    | split at e
    | with_reducible exact Keeps.refl _
    | with_reducible assumption
    | intro _
    | with_reducible apply State.startCompanion_keeps
    | with_reducible apply Keeps.foldl
    | (with_reducible apply Keeps.onDev; case k => simp only [Device.host, Device.setBinding])
    | (with_reducible apply Keeps.fst; case e => with_reducible assumption)
    | split
    | with_reducible apply Keeps.core
    | with_reducible apply Keeps.mk')

theorem Out.state_mem {s : State} {o : Out State} (k : ∀ u, o = .next u → Memory.wf s.mem = true → Memory.wf u.mem = true) (h : Memory.wf s.mem = true) :
    Memory.wf (o.state s).mem = true := by
  unfold Out.state
  split
  · exact k _ rfl h
  · exact h

theorem Out.state_keeps {a s : State} {o : Out State} (k : ∀ u, o = .next u → Keeps a s → Keeps a u) (h : Keeps a s) : Keeps a (o.state s) := by
  unfold Out.state
  split
  · exact k _ rfl h
  · exact h

theorem State.ctlWrite_mem {s : State} {v} (h : Memory.wf s.mem = true) : Memory.wf (State.ctlWrite s v).mem = true := by
  unfold State.ctlWrite
  split
  · exact Out.state_mem (fun _ e => execFwload_mem e) h
  · split
    · exact State.resetDevice_mem h
    · split
      · exact Out.state_mem (fun _ e => execRun_mem e) h
      · exact h

theorem State.ite_mem {c : Prop} [Decidable c] {a b : State} (ha : Memory.wf a.mem = true) (hb : Memory.wf b.mem = true) :
    Memory.wf (if c then a else b).mem = true := by
  split
  · exact ha
  · exact hb

theorem State.regWrite_mem {s : State} {off v} (h : Memory.wf s.mem = true) : Memory.wf (State.regWrite s off v).mem = true := by
  have k : ∀ {t : State}, Keeps s t → Memory.wf t.mem = true := fun k => k.mem h
  have r : Keeps s s := Keeps.refl s
  unfold State.regWrite
  dsimp only
  repeat' (first
    | with_reducible apply State.ite_mem
    | with_reducible exact State.ctlWrite_mem h
    | with_reducible exact Out.state_mem (fun _ e => execFeatureAcceptWrite_mem e) h
    | with_reducible exact Out.state_mem (fun _ e => execPtrootWrite_mem e) h
    | with_reducible exact Out.state_mem (fun _ e => execFabricRankWrite_mem e) h
    | with_reducible exact k (Out.state_keeps (fun _ e => execHifErrClear_keeps e) r)
    | with_reducible exact k (Out.state_keeps (fun _ e => execL2SplitWrite_keeps e) r)
    | with_reducible exact k (Out.state_keeps (fun _ e => execPoisonClear_keeps e) r)
    | with_reducible exact k (Out.state_keeps (fun _ e => execCompStart_keeps e) r)
    | with_reducible exact k (Out.state_keeps (fun _ e => execFgrpWrite_keeps e) r)
    | with_reducible exact k (Out.state_keeps (fun _ e => execDevselWrite_keeps e) r)
    | with_reducible exact k (Out.state_keeps (fun _ e => execIslRequestWrite_keeps e) r)
    | with_reducible exact k (State.startInvalidation_keeps r)
    | with_reducible exact k (State.keyCommand_keeps r)
    | with_reducible exact k (State.ckeStop_keeps r)
    | with_reducible exact k (State.ckeWrite_keeps r)
    | with_reducible exact h
    | with_reducible apply State.ite_mem
    | with_reducible apply State.onDev_wf
    | with_reducible apply State.onDie_wf
    | with_reducible exact h)

theorem State.registerWrite_mem {s : State} {off size v} (h : Memory.wf s.mem = true) : Memory.wf (State.registerWrite s off size v).mem = true := by
  unfold State.registerWrite
  split
  · exact State.regWrite_mem h
  · exact h

theorem State.linkWrite_mem {s : State} (h : Memory.wf s.mem = true) : Memory.wf (State.linkWrite s).mem = true := by
  unfold State.linkWrite
  split
  · split
    · exact h
    · exact (State.release_keeps (Keeps.refl _)).mem (State.registerWrite_mem h)
  · exact h

theorem execHifRegisterWrite_mem {s u0 : State} {off size v} (e : execHifRegisterWrite off size v s = .next u0) (h : Memory.wf s.mem = true) :
    Memory.wf u0.mem = true := by
  unfold execHifRegisterWrite at e
  injection e with e
  rw [← e]
  split
  · exact (State.hostArrive_keeps (Keeps.refl _)).mem h
  · exact State.registerWrite_mem h

end Sys2Proof.Machine
end

