-- ==== Sys2Proof/Laws/KeepsFloat.lean ====
section
/-! SUPPORT. The scalar floating-point meanings keep them. -/

namespace Sys2Proof.Machine

open Sys2Proof

set_option linter.all false

theorem State.fpu2_keeps {a0 s u0 : State} {d a b ta tb dbl f} (e : State.fpu2 s d a b ta tb dbl f = .next u0) (h : Keeps a0 s) : Keeps a0 u0 := by
  unfold State.fpu2 at e
  try dsimp only at e
  repeat' (first
    | refine State.issueWith_keeps e ?_ ?_
    | refine Keeps.next e ?_
    | split at e
    | with_reducible exact Keeps.refl _
    | with_reducible assumption
    | intro _
    | with_reducible apply State.send_keeps
    | with_reducible apply Keeps.foldl
    | (with_reducible apply Keeps.fst; case e => with_reducible assumption)
    | split
    | with_reducible apply Keeps.core
    | with_reducible apply Keeps.mk')

theorem execFadd_keeps {a0 s u0 : State} {d a b ta tb dbl} (e : execFadd d a b ta tb dbl s = .next u0) (h : Keeps a0 s) : Keeps a0 u0 := by
  unfold execFadd at e
  try dsimp only at e
  repeat' (first
    | (refine State.fpu2_keeps e ?_)
    | refine State.issueWith_keeps e ?_ ?_
    | refine Keeps.next e ?_
    | split at e
    | with_reducible exact Keeps.refl _
    | with_reducible assumption
    | intro _
    | with_reducible apply Keeps.foldl
    | (with_reducible apply Keeps.fst; case e => with_reducible assumption)
    | split
    | with_reducible apply Keeps.core
    | with_reducible apply Keeps.mk')

theorem execFsub_keeps {a0 s u0 : State} {d a b ta tb dbl} (e : execFsub d a b ta tb dbl s = .next u0) (h : Keeps a0 s) : Keeps a0 u0 := by
  unfold execFsub at e
  try dsimp only at e
  repeat' (first
    | (refine State.fpu2_keeps e ?_)
    | refine State.issueWith_keeps e ?_ ?_
    | refine Keeps.next e ?_
    | split at e
    | with_reducible exact Keeps.refl _
    | with_reducible assumption
    | intro _
    | with_reducible apply Keeps.foldl
    | (with_reducible apply Keeps.fst; case e => with_reducible assumption)
    | split
    | with_reducible apply Keeps.core
    | with_reducible apply Keeps.mk')

theorem execFmul_keeps {a0 s u0 : State} {d a b ta tb dbl} (e : execFmul d a b ta tb dbl s = .next u0) (h : Keeps a0 s) : Keeps a0 u0 := by
  unfold execFmul at e
  try dsimp only at e
  repeat' (first
    | (refine State.fpu2_keeps e ?_)
    | refine State.issueWith_keeps e ?_ ?_
    | refine Keeps.next e ?_
    | split at e
    | with_reducible exact Keeps.refl _
    | with_reducible assumption
    | intro _
    | with_reducible apply Keeps.foldl
    | (with_reducible apply Keeps.fst; case e => with_reducible assumption)
    | split
    | with_reducible apply Keeps.core
    | with_reducible apply Keeps.mk')

theorem execFmin_keeps {a0 s u0 : State} {d a b ta tb dbl} (e : execFmin d a b ta tb dbl s = .next u0) (h : Keeps a0 s) : Keeps a0 u0 := by
  unfold execFmin at e
  try dsimp only at e
  repeat' (first
    | (refine State.fpu2_keeps e ?_)
    | refine State.issueWith_keeps e ?_ ?_
    | refine Keeps.next e ?_
    | split at e
    | with_reducible exact Keeps.refl _
    | with_reducible assumption
    | intro _
    | with_reducible apply Keeps.foldl
    | (with_reducible apply Keeps.fst; case e => with_reducible assumption)
    | split
    | with_reducible apply Keeps.core
    | with_reducible apply Keeps.mk')

theorem execFmax_keeps {a0 s u0 : State} {d a b ta tb dbl} (e : execFmax d a b ta tb dbl s = .next u0) (h : Keeps a0 s) : Keeps a0 u0 := by
  unfold execFmax at e
  try dsimp only at e
  repeat' (first
    | (refine State.fpu2_keeps e ?_)
    | refine State.issueWith_keeps e ?_ ?_
    | refine Keeps.next e ?_
    | split at e
    | with_reducible exact Keeps.refl _
    | with_reducible assumption
    | intro _
    | with_reducible apply Keeps.foldl
    | (with_reducible apply Keeps.fst; case e => with_reducible assumption)
    | split
    | with_reducible apply Keeps.core
    | with_reducible apply Keeps.mk')

theorem execFminn_keeps {a0 s u0 : State} {d a b ta tb dbl} (e : execFminn d a b ta tb dbl s = .next u0) (h : Keeps a0 s) : Keeps a0 u0 := by
  unfold execFminn at e
  try dsimp only at e
  repeat' (first
    | (refine State.fpu2_keeps e ?_)
    | refine State.issueWith_keeps e ?_ ?_
    | refine Keeps.next e ?_
    | split at e
    | with_reducible exact Keeps.refl _
    | with_reducible assumption
    | intro _
    | with_reducible apply Keeps.foldl
    | (with_reducible apply Keeps.fst; case e => with_reducible assumption)
    | split
    | with_reducible apply Keeps.core
    | with_reducible apply Keeps.mk')

theorem execFmaxn_keeps {a0 s u0 : State} {d a b ta tb dbl} (e : execFmaxn d a b ta tb dbl s = .next u0) (h : Keeps a0 s) : Keeps a0 u0 := by
  unfold execFmaxn at e
  try dsimp only at e
  repeat' (first
    | (refine State.fpu2_keeps e ?_)
    | refine State.issueWith_keeps e ?_ ?_
    | refine Keeps.next e ?_
    | split at e
    | with_reducible exact Keeps.refl _
    | with_reducible assumption
    | intro _
    | with_reducible apply Keeps.foldl
    | (with_reducible apply Keeps.fst; case e => with_reducible assumption)
    | split
    | with_reducible apply Keeps.core
    | with_reducible apply Keeps.mk')

theorem execFdiv_keeps {a0 s u0 : State} {d a b ta tb dbl} (e : execFdiv d a b ta tb dbl s = .next u0) (h : Keeps a0 s) : Keeps a0 u0 := by
  unfold execFdiv at e
  try dsimp only at e
  repeat' (first
    | refine State.issueWith_keeps e ?_ ?_
    | refine Keeps.next e ?_
    | split at e
    | with_reducible exact Keeps.refl _
    | with_reducible assumption
    | intro _
    | with_reducible apply State.produce_keeps
    | with_reducible apply Keeps.foldl
    | (with_reducible apply Keeps.fst; case e => with_reducible assumption)
    | split
    | with_reducible apply Keeps.core
    | with_reducible apply Keeps.mk')

theorem execFsqrt_keeps {a0 s u0 : State} {d a ta dbl} (e : execFsqrt d a ta dbl s = .next u0) (h : Keeps a0 s) : Keeps a0 u0 := by
  unfold execFsqrt at e
  try dsimp only at e
  repeat' (first
    | refine State.issueWith_keeps e ?_ ?_
    | refine Keeps.next e ?_
    | split at e
    | with_reducible exact Keeps.refl _
    | with_reducible assumption
    | intro _
    | with_reducible apply State.produce_keeps
    | with_reducible apply Keeps.foldl
    | (with_reducible apply Keeps.fst; case e => with_reducible assumption)
    | split
    | with_reducible apply Keeps.core
    | with_reducible apply Keeps.mk')

theorem execFcmp_keeps {a0 s u0 : State} {toS d a b ta tb dbl cc} (e : execFcmp toS d a b ta tb dbl cc s = .next u0) (h : Keeps a0 s) : Keeps a0 u0 := by
  unfold execFcmp at e
  try dsimp only at e
  repeat' (first
    | refine State.issueWith_keeps e ?_ ?_
    | refine Keeps.next e ?_
    | split at e
    | with_reducible exact Keeps.refl _
    | with_reducible assumption
    | intro _
    | with_reducible apply State.sendP_keeps
    | with_reducible apply State.send_keeps
    | with_reducible apply Keeps.foldl
    | (with_reducible apply Keeps.fst; case e => with_reducible assumption)
    | split
    | with_reducible apply Keeps.core
    | with_reducible apply Keeps.mk')

theorem execFcvt_keeps {a0 s u0 : State} {d a ta cv rnd} (e : execFcvt d a ta cv rnd s = .next u0) (h : Keeps a0 s) : Keeps a0 u0 := by
  unfold execFcvt at e
  try dsimp only at e
  repeat' (first
    | refine State.issueWith_keeps e ?_ ?_
    | refine Keeps.next e ?_
    | split at e
    | with_reducible exact Keeps.refl _
    | with_reducible assumption
    | intro _
    | with_reducible apply State.send_keeps
    | with_reducible apply Keeps.foldl
    | (with_reducible apply Keeps.fst; case e => with_reducible assumption)
    | split
    | with_reducible apply Keeps.core
    | with_reducible apply Keeps.mk')

end Sys2Proof.Machine
end

