-- ==== Sys2Proof/Laws/KeepsRun.lean ====
section
/-! SUPPORT. The run loop keeps memory in canonical form when every instruction does: bundles, turns, moves of units, and one step. -/

namespace Sys2Proof.Machine

open Sys2Proof

variable {ex : Instr → State → Out State}

/-- An answer, where it is a next state, has memory in canonical form. -/
def Out.wf (o : Out State) : Prop := ∀ u, o = .next u → Memory.wf u.mem = true

theorem Out.wf_next {u : State} (h : Memory.wf u.mem = true) : Out.wf (.next u) := fun _ e => by cases e; exact h

theorem State.logStep_mem (s t : State) : (State.logStep s t).mem = t.mem := by
  unfold State.logStep; split <;> rfl

theorem runSlots_mem (k : ∀ i s, Memory.wf s.mem = true → Out.wf (ex i s)) {ck l s} (h : Memory.wf s.mem = true) : Out.wf (runSlots ex ck l s) := by
  induction l generalizing s with
  | nil => exact Out.wf_next h
  | cons x t ih =>
    unfold runSlots
    split
    · rename_i s' e
      refine ih ?_
      rw [State.logStep_mem]
      exact k x.instr (s.withSlot x.slot x.word ck true) h _ e
    · intro u e
      rename_i n
      exact absurd e (n u)

theorem State.blocked_mem {s : State} {outs bad o} (e : s.blocked outs bad = some o) (k : ∀ o ∈ outs, Out.wf o) (h : Memory.wf s.mem = true) : Out.wf o := by
  unfold State.blocked at e
  split at e
  · rename_i q; cases e; exact k _ (List.mem_of_find?_eq_some q)
  · split at e
    · cases e; exact Out.wf_next ((State.mark_keeps (State.trapEnter_keeps (Keeps.refl s))).mem h)
    · split at e
      · rename_i q; cases e; exact k _ (List.mem_of_find?_eq_some q)
      · exact k _ (List.mem_of_find?_eq_some e)

theorem State.bundleTrap_mem {s : State} {c v} (h : Memory.wf s.mem = true) : Out.wf (s.bundleTrap c v) :=
  Out.wf_next ((State.mark_keeps (State.trapEnter_keeps (Keeps.refl s))).mem h)

theorem State.holdOn_mem {s : State} (h : Memory.wf s.mem = true) : Memory.wf s.holdOn.mem = true := (State.holdOn_keeps (Keeps.refl s)).mem h

theorem Out.wf_ite {c : Prop} [Decidable c] {a b : Out State} (ha : Out.wf a) (hb : Out.wf b) : Out.wf (if c then a else b) := by
  split
  · exact ha
  · exact hb

theorem slotOut_mem (k : ∀ i s, Memory.wf s.mem = true → Out.wf (ex i s)) {s : State} {a} (h : Memory.wf s.mem = true) : Out.wf (slotOut ex s a) := by
  unfold slotOut
  split
  · exact Out.wf_next (State.holdOn_mem (s := s.withSlot a.slot a.word false) h)
  · exact k a.instr (s.withSlot a.slot a.word false) h

theorem issueX_mem (k : ∀ i s, Memory.wf s.mem = true → Out.wf (ex i s)) {s0 s : State} {a b} (h0 : Memory.wf s0.mem = true) (h : Memory.wf s.mem = true) :
    Out.wf (issueX ex s0 s a b) := by
  unfold issueX
  dsimp only
  split
  · rename_i t e
    have ht : Memory.wf t.mem = true := slotOut_mem k h t e
    split
    · exact Out.wf_next ((State.finish_keeps (Keeps.refl t)).mem ht)
    · split
      · exact Out.wf_next ht
      · exact Out.wf_next h0
    · split
      · exact Out.wf_next ht
      · rename_i c _ _
        have hu := State.bundleTrap_mem (c := c) (v := t.core.regs.trapVal) h0
        split
        · rename_i u q; exact Out.wf_next (hu u q)
        · exact hu
  · exact slotOut_mem k h

theorem issuePair_mem (k : ∀ i s, Memory.wf s.mem = true → Out.wf (ex i s)) {s : State} {l} (h : Memory.wf s.mem = true) : Out.wf (issuePair ex s l) := by
  unfold issuePair
  split
  · rename_i a b
    split
    · exact issueX_mem k h h
    · split
      · rename_i t q
        have ht : Memory.wf t.mem = true := slotOut_mem k h t q
        have hr : Out.wf (if t.core.issue.res = .issued then issueX ex s t a b else .next t) := Out.wf_ite (issueX_mem k h ht) (Out.wf_next ht)
        have hx : Out.wf (slotOut ex (if t.core.issue.res = .issued then t else s) b) := slotOut_mem k (State.ite_mem ht h)
        refine Out.wf_ite (Out.wf_next ht) (Out.wf_ite (Out.wf_ite hr hx) ?_)
        split
        · exact Out.wf_next ((State.mark_keeps (State.trapEnter_keeps (Keeps.refl s))).mem h)
        · exact Out.wf_ite hr hx
      · exact slotOut_mem k h
  · exact Out.wf_next h

theorem issueBundle_mem (k : ∀ i s, Memory.wf s.mem = true → Out.wf (ex i s)) {s : State} (h : Memory.wf s.mem = true) : Out.wf (issueBundle ex s) := by
  unfold issueBundle
  split
  · exact State.bundleTrap_mem h
  · dsimp only
    split
    · exact Out.wf_next (State.holdOn_mem h)
    · split
      · split
        · rename_i q
          obtain ⟨x, -, rfl⟩ := List.mem_map.mp (List.mem_of_find?_eq_some q)
          exact k _ _ h
        · exact State.bundleTrap_mem h
      · split
        · exact issuePair_mem k h
        · split
          · rename_i s' q
            refine Out.wf_next ((State.settleHeld_keeps (Keeps.refl s')).mem ?_)
            refine State.blocked_mem q (fun o m => ?_) h s' rfl
            obtain ⟨x, -, rfl⟩ := List.mem_map.mp m
            exact k _ _ h
          · rename_i o _ q
            refine State.blocked_mem q (fun o m => ?_) h
            obtain ⟨x, -, rfl⟩ := List.mem_map.mp m
            exact k _ _ h
          · split
            · rename_i s' e
              refine Out.wf_next ((State.finish_keeps (Keeps.refl _)).mem ?_)
              exact runSlots_mem k ((State.fencedBy_keeps (Keeps.refl s)).mem h) s' e
            · exact runSlots_mem k ((State.fencedBy_keeps (Keeps.refl s)).mem h)

theorem Out.orHeld_mem {s : State} {o : Out State} (h : Memory.wf s.mem = true) (k : Out.wf o) : Out.wf (Out.orHeld s o) := by
  unfold Out.orHeld
  split
  · rename_i t
    split
    · exact Out.wf_next h
    · exact k
  · exact k

theorem State.issueTurn_mem (k : ∀ i s, Memory.wf s.mem = true → Out.wf (ex i s)) {s : State} (h : Memory.wf s.mem = true) : Out.wf (s.issueTurn ex) := by
  have b : Out.wf (Out.orHeld s (issueBundle ex s)) := Out.orHeld_mem h (issueBundle_mem k h)
  unfold State.issueTurn
  split
  · exact Out.wf_next h
  · split
    · split
      · split
        · exact Out.wf_next ((State.passDone_keeps (Keeps.refl s)).mem h)
        · exact Out.wf_next h
      · exact b
    · split
      · exact k _ _ h
      · exact b

theorem firstMove_mem (k : ∀ i s, Memory.wf s.mem = true → Out.wf (ex i s)) {s : State} {l o} (e : firstMove ex s l = some o) (h : Memory.wf s.mem = true) :
    Out.wf o := by
  induction l with
  | nil => cases e
  | cons i l ih =>
    unfold firstMove at e
    split at e
    · rename_i t q
      split at e
      · exact ih e
      · cases e; exact Out.wf_next (k i s h t q)
    · cases e; exact k i s h

theorem State.idleMove_mem (k : ∀ i s, Memory.wf s.mem = true → Out.wf (ex i s)) {s : State} (h : Memory.wf s.mem = true) : Out.wf (s.idleMove ex) := by
  unfold State.idleMove
  split
  · rename_i q; exact firstMove_mem k q h
  · split
    · exact Out.wf_next ((Keeps.refl s).focus.mem h)
    · exact Out.wf_next h

theorem State.handOn_mem {s : State} (h : Memory.wf s.mem = true) : Memory.wf s.handOn.mem = true := by
  have p : Keeps s s.pass := ⟨id, rfl⟩
  unfold State.handOn
  split
  · split
    · exact (Keeps.refl s).focus.mem h
    · exact p.focus.mem h
  · exact p.mem h

theorem State.ownTurn_mem (k : ∀ i s, Memory.wf s.mem = true → Out.wf (ex i s)) {s : State} (h : Memory.wf s.mem = true) : Out.wf (s.ownTurn ex) := by
  unfold State.ownTurn
  split
  · exact State.idleMove_mem k h
  · split
    · split
      · rename_i q; exact firstMove_mem k q h
      · exact Out.wf_next h
    · split
      · rename_i t e
        have ht : Memory.wf t.mem = true := State.issueTurn_mem k h t e
        dsimp only
        split
        · split
          · rename_i u q
            exact Out.wf_next (State.handOn_mem (firstMove_mem k q ht u rfl))
          · rename_i _ q; exact firstMove_mem k q ht
          · exact Out.wf_next (State.handOn_mem ht)
        · exact Out.wf_next (State.handOn_mem ht)
      · exact State.issueTurn_mem k h

/-- One step keeps memory in canonical form when every instruction does. -/
theorem runStep_mem (k : ∀ i s, Memory.wf s.mem = true → Out.wf (ex i s)) {s : State} (h : Memory.wf s.mem = true) : Out.wf (runStep ex s) := by
  unfold runStep
  split
  · exact k _ _ h
  · exact State.issueTurn_mem k ((Keeps.refl _).focus.mem h)
  · exact Out.wf_next (State.registerWrite_mem h)
  · exact Out.wf_next (State.linkWrite_mem h)
  · exact State.ownTurn_mem k h

end Sys2Proof.Machine
end

