-- ==== Sys2Proof/Laws/State.lean ====
section
/-! SUPPORT. What each named update of the state leaves and gives: one lemma for a field and an update, all by definition, so that no proof unfolds
a record update. -/

namespace Sys2Proof.Machine

open Sys2Proof

/-! ### `State.onRegs` -/

@[simp] theorem State.onRegs_me (s : State) (f : Regs → Regs) : (s.onRegs f).me = s.me := rfl
@[simp] theorem State.onRegs_others (s : State) (f : Regs → Regs) : (s.onRegs f).others = s.others := rfl
@[simp] theorem State.onRegs_dies (s : State) (f : Regs → Regs) : (s.onRegs f).dies = s.dies := rfl
@[simp] theorem State.onRegs_dev (s : State) (f : Regs → Regs) : (s.onRegs f).dev = s.dev := rfl
@[simp] theorem State.onRegs_mem (s : State) (f : Regs → Regs) : (s.onRegs f).mem = s.mem := rfl
@[simp] theorem State.onRegs_lines (s : State) (f : Regs → Regs) : (s.onRegs f).lines = s.lines := rfl
@[simp] theorem State.onRegs_flaws (s : State) (f : Regs → Regs) : (s.onRegs f).flaws = s.flaws := rfl
@[simp] theorem State.onRegs_agenda (s : State) (f : Regs → Regs) : (s.onRegs f).agenda = s.agenda := rfl
@[simp] theorem State.onRegs_due (s : State) (f : Regs → Regs) : (s.onRegs f).due = s.due := rfl
@[simp] theorem State.onRegs_fresh (s : State) (f : Regs → Regs) : (s.onRegs f).fresh = s.fresh := rfl
@[simp] theorem State.onRegs_held (s : State) (f : Regs → Regs) : (s.onRegs f).held = s.held := rfl
@[simp] theorem State.onRegs_core_tiles (s : State) (f : Regs → Regs) : (s.onRegs f).core.tiles = s.core.tiles := rfl
@[simp] theorem State.onRegs_core_bankRow (s : State) (f : Regs → Regs) : (s.onRegs f).core.bankRow = s.core.bankRow := rfl
@[simp] theorem State.onRegs_core_rb (s : State) (f : Regs → Regs) : (s.onRegs f).core.rb = s.core.rb := rfl
@[simp] theorem State.onRegs_core_scratch (s : State) (f : Regs → Regs) : (s.onRegs f).core.scratch = s.core.scratch := rfl
@[simp] theorem State.onRegs_core_ev (s : State) (f : Regs → Regs) : (s.onRegs f).core.ev = s.core.ev := rfl
@[simp] theorem State.onRegs_core_evSrc (s : State) (f : Regs → Regs) : (s.onRegs f).core.evSrc = s.core.evSrc := rfl
@[simp] theorem State.onRegs_core_cycles (s : State) (f : Regs → Regs) : (s.onRegs f).core.cycles = s.core.cycles := rfl
@[simp] theorem State.onRegs_core_bundles (s : State) (f : Regs → Regs) : (s.onRegs f).core.bundles = s.core.bundles := rfl
@[simp] theorem State.onRegs_core_task (s : State) (f : Regs → Regs) : (s.onRegs f).core.task = s.core.task := rfl
@[simp] theorem State.onRegs_core_life (s : State) (f : Regs → Regs) : (s.onRegs f).core.life = s.core.life := rfl
@[simp] theorem State.onRegs_core_quantum (s : State) (f : Regs → Regs) : (s.onRegs f).core.quantum = s.core.quantum := rfl
@[simp] theorem State.onRegs_core_base (s : State) (f : Regs → Regs) : (s.onRegs f).core.base = s.core.base := rfl
@[simp] theorem State.onRegs_core_textLen (s : State) (f : Regs → Regs) : (s.onRegs f).core.textLen = s.core.textLen := rfl
@[simp] theorem State.onRegs_core_text (s : State) (f : Regs → Regs) : (s.onRegs f).core.text = s.core.text := rfl
@[simp] theorem State.onRegs_core_captured (s : State) (f : Regs → Regs) : (s.onRegs f).core.captured = s.core.captured := rfl
@[simp] theorem State.onRegs_core_memq (s : State) (f : Regs → Regs) : (s.onRegs f).core.memq = s.core.memq := rfl
@[simp] theorem State.onRegs_core_adds (s : State) (f : Regs → Regs) : (s.onRegs f).core.adds = s.core.adds := rfl
@[simp] theorem State.onRegs_core_cmds (s : State) (f : Regs → Regs) : (s.onRegs f).core.cmds = s.core.cmds := rfl
@[simp] theorem State.onRegs_core_cmdNo (s : State) (f : Regs → Regs) : (s.onRegs f).core.cmdNo = s.core.cmdNo := rfl
@[simp] theorem State.onRegs_core_reports (s : State) (f : Regs → Regs) : (s.onRegs f).core.reports = s.core.reports := rfl
@[simp] theorem State.onRegs_core_fwTrap (s : State) (f : Regs → Regs) : (s.onRegs f).core.fwTrap = s.core.fwTrap := rfl
@[simp] theorem State.onRegs_core_errDue (s : State) (f : Regs → Regs) : (s.onRegs f).core.errDue = s.core.errDue := rfl
@[simp] theorem State.onRegs_core_lostWrites (s : State) (f : Regs → Regs) : (s.onRegs f).core.lostWrites = s.core.lostWrites := rfl
@[simp] theorem State.onRegs_core_lostAdds (s : State) (f : Regs → Regs) : (s.onRegs f).core.lostAdds = s.core.lostAdds := rfl
@[simp] theorem State.onRegs_core_lostTokens (s : State) (f : Regs → Regs) : (s.onRegs f).core.lostTokens = s.core.lostTokens := rfl
@[simp] theorem State.onRegs_core_yielded (s : State) (f : Regs → Regs) : (s.onRegs f).core.yielded = s.core.yielded := rfl
@[simp] theorem State.onRegs_core_requests (s : State) (f : Regs → Regs) : (s.onRegs f).core.requests = s.core.requests := rfl
@[simp] theorem State.onRegs_core_preload (s : State) (f : Regs → Regs) : (s.onRegs f).core.preload = s.core.preload := rfl
@[simp] theorem State.onRegs_core_snapshot (s : State) (f : Regs → Regs) : (s.onRegs f).core.snapshot = s.core.snapshot := rfl
@[simp] theorem State.onRegs_core_journal (s : State) (f : Regs → Regs) : (s.onRegs f).core.journal = s.core.journal := rfl
@[simp] theorem State.onRegs_core_rerun (s : State) (f : Regs → Regs) : (s.onRegs f).core.rerun = s.core.rerun := rfl
@[simp] theorem State.onRegs_core_tlb (s : State) (f : Regs → Regs) : (s.onRegs f).core.tlb = s.core.tlb := rfl
@[simp] theorem State.onRegs_core_walks (s : State) (f : Regs → Regs) : (s.onRegs f).core.walks = s.core.walks := rfl
@[simp] theorem State.onRegs_core_l1 (s : State) (f : Regs → Regs) : (s.onRegs f).core.l1 = s.core.l1 := rfl
@[simp] theorem State.onRegs_core_badUnits (s : State) (f : Regs → Regs) : (s.onRegs f).core.badUnits = s.core.badUnits := rfl
@[simp] theorem State.onRegs_core_issue (s : State) (f : Regs → Regs) : (s.onRegs f).core.issue = s.core.issue := rfl
@[simp] theorem State.onRegs_core_regs (s : State) (f : Regs → Regs) : (s.onRegs f).core.regs = f s.core.regs := rfl

/-! ### `State.onDie` -/

@[simp] theorem State.onDie_me (s : State) (d : BitVec 2) (f : Die → Die) : (s.onDie d f).me = s.me := rfl
@[simp] theorem State.onDie_core (s : State) (d : BitVec 2) (f : Die → Die) : (s.onDie d f).core = s.core := rfl
@[simp] theorem State.onDie_others (s : State) (d : BitVec 2) (f : Die → Die) : (s.onDie d f).others = s.others := rfl
@[simp] theorem State.onDie_dev (s : State) (d : BitVec 2) (f : Die → Die) : (s.onDie d f).dev = s.dev := rfl
@[simp] theorem State.onDie_mem (s : State) (d : BitVec 2) (f : Die → Die) : (s.onDie d f).mem = s.mem := rfl
@[simp] theorem State.onDie_lines (s : State) (d : BitVec 2) (f : Die → Die) : (s.onDie d f).lines = s.lines := rfl
@[simp] theorem State.onDie_flaws (s : State) (d : BitVec 2) (f : Die → Die) : (s.onDie d f).flaws = s.flaws := rfl
@[simp] theorem State.onDie_agenda (s : State) (d : BitVec 2) (f : Die → Die) : (s.onDie d f).agenda = s.agenda := rfl
@[simp] theorem State.onDie_due (s : State) (d : BitVec 2) (f : Die → Die) : (s.onDie d f).due = s.due := rfl
@[simp] theorem State.onDie_fresh (s : State) (d : BitVec 2) (f : Die → Die) : (s.onDie d f).fresh = s.fresh := rfl
@[simp] theorem State.onDie_held (s : State) (d : BitVec 2) (f : Die → Die) : (s.onDie d f).held = s.held := rfl

/-! ### `State.onDev` -/

@[simp] theorem State.onDev_me (s : State) (f : Device → Device) : (s.onDev f).me = s.me := rfl
@[simp] theorem State.onDev_core (s : State) (f : Device → Device) : (s.onDev f).core = s.core := rfl
@[simp] theorem State.onDev_others (s : State) (f : Device → Device) : (s.onDev f).others = s.others := rfl
@[simp] theorem State.onDev_dies (s : State) (f : Device → Device) : (s.onDev f).dies = s.dies := rfl
@[simp] theorem State.onDev_mem (s : State) (f : Device → Device) : (s.onDev f).mem = s.mem := rfl
@[simp] theorem State.onDev_lines (s : State) (f : Device → Device) : (s.onDev f).lines = s.lines := rfl
@[simp] theorem State.onDev_flaws (s : State) (f : Device → Device) : (s.onDev f).flaws = s.flaws := rfl
@[simp] theorem State.onDev_agenda (s : State) (f : Device → Device) : (s.onDev f).agenda = s.agenda := rfl
@[simp] theorem State.onDev_due (s : State) (f : Device → Device) : (s.onDev f).due = s.due := rfl
@[simp] theorem State.onDev_fresh (s : State) (f : Device → Device) : (s.onDev f).fresh = s.fresh := rfl
@[simp] theorem State.onDev_held (s : State) (f : Device → Device) : (s.onDev f).held = s.held := rfl
@[simp] theorem State.onDev_dev (s : State) (f : Device → Device) : (s.onDev f).dev = f s.dev := rfl

/-! ### `State.mark` -/

@[simp] theorem State.mark_me (s : State) (r : Issued) : (s.mark r).me = s.me := rfl
@[simp] theorem State.mark_others (s : State) (r : Issued) : (s.mark r).others = s.others := rfl
@[simp] theorem State.mark_dies (s : State) (r : Issued) : (s.mark r).dies = s.dies := rfl
@[simp] theorem State.mark_dev (s : State) (r : Issued) : (s.mark r).dev = s.dev := rfl
@[simp] theorem State.mark_mem (s : State) (r : Issued) : (s.mark r).mem = s.mem := rfl
@[simp] theorem State.mark_lines (s : State) (r : Issued) : (s.mark r).lines = s.lines := rfl
@[simp] theorem State.mark_flaws (s : State) (r : Issued) : (s.mark r).flaws = s.flaws := rfl
@[simp] theorem State.mark_agenda (s : State) (r : Issued) : (s.mark r).agenda = s.agenda := rfl
@[simp] theorem State.mark_due (s : State) (r : Issued) : (s.mark r).due = s.due := rfl
@[simp] theorem State.mark_fresh (s : State) (r : Issued) : (s.mark r).fresh = s.fresh := rfl
@[simp] theorem State.mark_held (s : State) (r : Issued) : (s.mark r).held = s.held := rfl
@[simp] theorem State.mark_core_regs (s : State) (r : Issued) : (s.mark r).core.regs = s.core.regs := rfl
@[simp] theorem State.mark_core_tiles (s : State) (r : Issued) : (s.mark r).core.tiles = s.core.tiles := rfl
@[simp] theorem State.mark_core_bankRow (s : State) (r : Issued) : (s.mark r).core.bankRow = s.core.bankRow := rfl
@[simp] theorem State.mark_core_rb (s : State) (r : Issued) : (s.mark r).core.rb = s.core.rb := rfl
@[simp] theorem State.mark_core_scratch (s : State) (r : Issued) : (s.mark r).core.scratch = s.core.scratch := rfl
@[simp] theorem State.mark_core_ev (s : State) (r : Issued) : (s.mark r).core.ev = s.core.ev := rfl
@[simp] theorem State.mark_core_evSrc (s : State) (r : Issued) : (s.mark r).core.evSrc = s.core.evSrc := rfl
@[simp] theorem State.mark_core_cycles (s : State) (r : Issued) : (s.mark r).core.cycles = s.core.cycles := rfl
@[simp] theorem State.mark_core_bundles (s : State) (r : Issued) : (s.mark r).core.bundles = s.core.bundles := rfl
@[simp] theorem State.mark_core_task (s : State) (r : Issued) : (s.mark r).core.task = s.core.task := rfl
@[simp] theorem State.mark_core_life (s : State) (r : Issued) : (s.mark r).core.life = s.core.life := rfl
@[simp] theorem State.mark_core_quantum (s : State) (r : Issued) : (s.mark r).core.quantum = s.core.quantum := rfl
@[simp] theorem State.mark_core_base (s : State) (r : Issued) : (s.mark r).core.base = s.core.base := rfl
@[simp] theorem State.mark_core_textLen (s : State) (r : Issued) : (s.mark r).core.textLen = s.core.textLen := rfl
@[simp] theorem State.mark_core_text (s : State) (r : Issued) : (s.mark r).core.text = s.core.text := rfl
@[simp] theorem State.mark_core_captured (s : State) (r : Issued) : (s.mark r).core.captured = s.core.captured := rfl
@[simp] theorem State.mark_core_memq (s : State) (r : Issued) : (s.mark r).core.memq = s.core.memq := rfl
@[simp] theorem State.mark_core_adds (s : State) (r : Issued) : (s.mark r).core.adds = s.core.adds := rfl
@[simp] theorem State.mark_core_cmds (s : State) (r : Issued) : (s.mark r).core.cmds = s.core.cmds := rfl
@[simp] theorem State.mark_core_cmdNo (s : State) (r : Issued) : (s.mark r).core.cmdNo = s.core.cmdNo := rfl
@[simp] theorem State.mark_core_reports (s : State) (r : Issued) : (s.mark r).core.reports = s.core.reports := rfl
@[simp] theorem State.mark_core_fwTrap (s : State) (r : Issued) : (s.mark r).core.fwTrap = s.core.fwTrap := rfl
@[simp] theorem State.mark_core_errDue (s : State) (r : Issued) : (s.mark r).core.errDue = s.core.errDue := rfl
@[simp] theorem State.mark_core_lostWrites (s : State) (r : Issued) : (s.mark r).core.lostWrites = s.core.lostWrites := rfl
@[simp] theorem State.mark_core_lostAdds (s : State) (r : Issued) : (s.mark r).core.lostAdds = s.core.lostAdds := rfl
@[simp] theorem State.mark_core_lostTokens (s : State) (r : Issued) : (s.mark r).core.lostTokens = s.core.lostTokens := rfl
@[simp] theorem State.mark_core_yielded (s : State) (r : Issued) : (s.mark r).core.yielded = s.core.yielded := rfl
@[simp] theorem State.mark_core_requests (s : State) (r : Issued) : (s.mark r).core.requests = s.core.requests := rfl
@[simp] theorem State.mark_core_preload (s : State) (r : Issued) : (s.mark r).core.preload = s.core.preload := rfl
@[simp] theorem State.mark_core_snapshot (s : State) (r : Issued) : (s.mark r).core.snapshot = s.core.snapshot := rfl
@[simp] theorem State.mark_core_journal (s : State) (r : Issued) : (s.mark r).core.journal = s.core.journal := rfl
@[simp] theorem State.mark_core_rerun (s : State) (r : Issued) : (s.mark r).core.rerun = s.core.rerun := rfl
@[simp] theorem State.mark_core_tlb (s : State) (r : Issued) : (s.mark r).core.tlb = s.core.tlb := rfl
@[simp] theorem State.mark_core_walks (s : State) (r : Issued) : (s.mark r).core.walks = s.core.walks := rfl
@[simp] theorem State.mark_core_l1 (s : State) (r : Issued) : (s.mark r).core.l1 = s.core.l1 := rfl
@[simp] theorem State.mark_core_badUnits (s : State) (r : Issued) : (s.mark r).core.badUnits = s.core.badUnits := rfl
@[simp] theorem State.mark_issue_res (s : State) (r : Issued) : (s.mark r).core.issue.res = r := rfl

/-! ### `State.queueOp` -/

@[simp] theorem State.queueOp_me (s : State) (op : MemOp) : (s.queueOp op).me = s.me := rfl
@[simp] theorem State.queueOp_others (s : State) (op : MemOp) : (s.queueOp op).others = s.others := rfl
@[simp] theorem State.queueOp_dies (s : State) (op : MemOp) : (s.queueOp op).dies = s.dies := rfl
@[simp] theorem State.queueOp_dev (s : State) (op : MemOp) : (s.queueOp op).dev = s.dev := rfl
@[simp] theorem State.queueOp_mem (s : State) (op : MemOp) : (s.queueOp op).mem = s.mem := rfl
@[simp] theorem State.queueOp_lines (s : State) (op : MemOp) : (s.queueOp op).lines = s.lines := rfl
@[simp] theorem State.queueOp_flaws (s : State) (op : MemOp) : (s.queueOp op).flaws = s.flaws := rfl
@[simp] theorem State.queueOp_agenda (s : State) (op : MemOp) : (s.queueOp op).agenda = s.agenda := rfl
@[simp] theorem State.queueOp_due (s : State) (op : MemOp) : (s.queueOp op).due = s.due := rfl
@[simp] theorem State.queueOp_fresh (s : State) (op : MemOp) : (s.queueOp op).fresh = s.fresh := rfl
@[simp] theorem State.queueOp_held (s : State) (op : MemOp) : (s.queueOp op).held = s.held := rfl
@[simp] theorem State.queueOp_core_regs (s : State) (op : MemOp) : (s.queueOp op).core.regs = s.core.regs := rfl
@[simp] theorem State.queueOp_core_tiles (s : State) (op : MemOp) : (s.queueOp op).core.tiles = s.core.tiles := rfl
@[simp] theorem State.queueOp_core_bankRow (s : State) (op : MemOp) : (s.queueOp op).core.bankRow = s.core.bankRow := rfl
@[simp] theorem State.queueOp_core_rb (s : State) (op : MemOp) : (s.queueOp op).core.rb = s.core.rb := rfl
@[simp] theorem State.queueOp_core_scratch (s : State) (op : MemOp) : (s.queueOp op).core.scratch = s.core.scratch := rfl
@[simp] theorem State.queueOp_core_ev (s : State) (op : MemOp) : (s.queueOp op).core.ev = s.core.ev := rfl
@[simp] theorem State.queueOp_core_evSrc (s : State) (op : MemOp) : (s.queueOp op).core.evSrc = s.core.evSrc := rfl
@[simp] theorem State.queueOp_core_cycles (s : State) (op : MemOp) : (s.queueOp op).core.cycles = s.core.cycles := rfl
@[simp] theorem State.queueOp_core_bundles (s : State) (op : MemOp) : (s.queueOp op).core.bundles = s.core.bundles := rfl
@[simp] theorem State.queueOp_core_task (s : State) (op : MemOp) : (s.queueOp op).core.task = s.core.task := rfl
@[simp] theorem State.queueOp_core_life (s : State) (op : MemOp) : (s.queueOp op).core.life = s.core.life := rfl
@[simp] theorem State.queueOp_core_quantum (s : State) (op : MemOp) : (s.queueOp op).core.quantum = s.core.quantum := rfl
@[simp] theorem State.queueOp_core_base (s : State) (op : MemOp) : (s.queueOp op).core.base = s.core.base := rfl
@[simp] theorem State.queueOp_core_textLen (s : State) (op : MemOp) : (s.queueOp op).core.textLen = s.core.textLen := rfl
@[simp] theorem State.queueOp_core_text (s : State) (op : MemOp) : (s.queueOp op).core.text = s.core.text := rfl
@[simp] theorem State.queueOp_core_captured (s : State) (op : MemOp) : (s.queueOp op).core.captured = s.core.captured := rfl
@[simp] theorem State.queueOp_core_adds (s : State) (op : MemOp) : (s.queueOp op).core.adds = s.core.adds := rfl
@[simp] theorem State.queueOp_core_cmds (s : State) (op : MemOp) : (s.queueOp op).core.cmds = s.core.cmds := rfl
@[simp] theorem State.queueOp_core_cmdNo (s : State) (op : MemOp) : (s.queueOp op).core.cmdNo = s.core.cmdNo := rfl
@[simp] theorem State.queueOp_core_reports (s : State) (op : MemOp) : (s.queueOp op).core.reports = s.core.reports := rfl
@[simp] theorem State.queueOp_core_fwTrap (s : State) (op : MemOp) : (s.queueOp op).core.fwTrap = s.core.fwTrap := rfl
@[simp] theorem State.queueOp_core_errDue (s : State) (op : MemOp) : (s.queueOp op).core.errDue = s.core.errDue := rfl
@[simp] theorem State.queueOp_core_lostWrites (s : State) (op : MemOp) : (s.queueOp op).core.lostWrites = s.core.lostWrites := rfl
@[simp] theorem State.queueOp_core_lostAdds (s : State) (op : MemOp) : (s.queueOp op).core.lostAdds = s.core.lostAdds := rfl
@[simp] theorem State.queueOp_core_lostTokens (s : State) (op : MemOp) : (s.queueOp op).core.lostTokens = s.core.lostTokens := rfl
@[simp] theorem State.queueOp_core_yielded (s : State) (op : MemOp) : (s.queueOp op).core.yielded = s.core.yielded := rfl
@[simp] theorem State.queueOp_core_requests (s : State) (op : MemOp) : (s.queueOp op).core.requests = s.core.requests := rfl
@[simp] theorem State.queueOp_core_preload (s : State) (op : MemOp) : (s.queueOp op).core.preload = s.core.preload := rfl
@[simp] theorem State.queueOp_core_snapshot (s : State) (op : MemOp) : (s.queueOp op).core.snapshot = s.core.snapshot := rfl
@[simp] theorem State.queueOp_core_journal (s : State) (op : MemOp) : (s.queueOp op).core.journal = s.core.journal := rfl
@[simp] theorem State.queueOp_core_rerun (s : State) (op : MemOp) : (s.queueOp op).core.rerun = s.core.rerun := rfl
@[simp] theorem State.queueOp_core_tlb (s : State) (op : MemOp) : (s.queueOp op).core.tlb = s.core.tlb := rfl
@[simp] theorem State.queueOp_core_walks (s : State) (op : MemOp) : (s.queueOp op).core.walks = s.core.walks := rfl
@[simp] theorem State.queueOp_core_l1 (s : State) (op : MemOp) : (s.queueOp op).core.l1 = s.core.l1 := rfl
@[simp] theorem State.queueOp_core_badUnits (s : State) (op : MemOp) : (s.queueOp op).core.badUnits = s.core.badUnits := rfl
@[simp] theorem State.queueOp_core_issue (s : State) (op : MemOp) : (s.queueOp op).core.issue = s.core.issue := rfl
@[simp] theorem State.queueOp_core_memq (s : State) (op : MemOp) : (s.queueOp op).core.memq = s.core.memq ++ [{ sup := s.sup, op := op, no := (s.core.rerun.map Rerun.no).getD 0 }] := rfl

/-! ### `State.setControl` -/

@[simp] theorem State.setControl_me (s : State) (c : Control) : (s.setControl c).me = s.me := rfl
@[simp] theorem State.setControl_others (s : State) (c : Control) : (s.setControl c).others = s.others := rfl
@[simp] theorem State.setControl_dies (s : State) (c : Control) : (s.setControl c).dies = s.dies := rfl
@[simp] theorem State.setControl_dev (s : State) (c : Control) : (s.setControl c).dev = s.dev := rfl
@[simp] theorem State.setControl_mem (s : State) (c : Control) : (s.setControl c).mem = s.mem := rfl
@[simp] theorem State.setControl_lines (s : State) (c : Control) : (s.setControl c).lines = s.lines := rfl
@[simp] theorem State.setControl_flaws (s : State) (c : Control) : (s.setControl c).flaws = s.flaws := rfl
@[simp] theorem State.setControl_agenda (s : State) (c : Control) : (s.setControl c).agenda = s.agenda := rfl
@[simp] theorem State.setControl_due (s : State) (c : Control) : (s.setControl c).due = s.due := rfl
@[simp] theorem State.setControl_fresh (s : State) (c : Control) : (s.setControl c).fresh = s.fresh := rfl
@[simp] theorem State.setControl_held (s : State) (c : Control) : (s.setControl c).held = s.held := rfl
@[simp] theorem State.setControl_core_regs (s : State) (c : Control) : (s.setControl c).core.regs = s.core.regs := rfl
@[simp] theorem State.setControl_core_tiles (s : State) (c : Control) : (s.setControl c).core.tiles = s.core.tiles := rfl
@[simp] theorem State.setControl_core_bankRow (s : State) (c : Control) : (s.setControl c).core.bankRow = s.core.bankRow := rfl
@[simp] theorem State.setControl_core_rb (s : State) (c : Control) : (s.setControl c).core.rb = s.core.rb := rfl
@[simp] theorem State.setControl_core_scratch (s : State) (c : Control) : (s.setControl c).core.scratch = s.core.scratch := rfl
@[simp] theorem State.setControl_core_ev (s : State) (c : Control) : (s.setControl c).core.ev = s.core.ev := rfl
@[simp] theorem State.setControl_core_evSrc (s : State) (c : Control) : (s.setControl c).core.evSrc = s.core.evSrc := rfl
@[simp] theorem State.setControl_core_cycles (s : State) (c : Control) : (s.setControl c).core.cycles = s.core.cycles := rfl
@[simp] theorem State.setControl_core_bundles (s : State) (c : Control) : (s.setControl c).core.bundles = s.core.bundles := rfl
@[simp] theorem State.setControl_core_task (s : State) (c : Control) : (s.setControl c).core.task = s.core.task := rfl
@[simp] theorem State.setControl_core_life (s : State) (c : Control) : (s.setControl c).core.life = s.core.life := rfl
@[simp] theorem State.setControl_core_quantum (s : State) (c : Control) : (s.setControl c).core.quantum = s.core.quantum := rfl
@[simp] theorem State.setControl_core_base (s : State) (c : Control) : (s.setControl c).core.base = s.core.base := rfl
@[simp] theorem State.setControl_core_textLen (s : State) (c : Control) : (s.setControl c).core.textLen = s.core.textLen := rfl
@[simp] theorem State.setControl_core_text (s : State) (c : Control) : (s.setControl c).core.text = s.core.text := rfl
@[simp] theorem State.setControl_core_captured (s : State) (c : Control) : (s.setControl c).core.captured = s.core.captured := rfl
@[simp] theorem State.setControl_core_memq (s : State) (c : Control) : (s.setControl c).core.memq = s.core.memq := rfl
@[simp] theorem State.setControl_core_adds (s : State) (c : Control) : (s.setControl c).core.adds = s.core.adds := rfl
@[simp] theorem State.setControl_core_cmds (s : State) (c : Control) : (s.setControl c).core.cmds = s.core.cmds := rfl
@[simp] theorem State.setControl_core_cmdNo (s : State) (c : Control) : (s.setControl c).core.cmdNo = s.core.cmdNo := rfl
@[simp] theorem State.setControl_core_reports (s : State) (c : Control) : (s.setControl c).core.reports = s.core.reports := rfl
@[simp] theorem State.setControl_core_fwTrap (s : State) (c : Control) : (s.setControl c).core.fwTrap = s.core.fwTrap := rfl
@[simp] theorem State.setControl_core_errDue (s : State) (c : Control) : (s.setControl c).core.errDue = s.core.errDue := rfl
@[simp] theorem State.setControl_core_lostWrites (s : State) (c : Control) : (s.setControl c).core.lostWrites = s.core.lostWrites := rfl
@[simp] theorem State.setControl_core_lostAdds (s : State) (c : Control) : (s.setControl c).core.lostAdds = s.core.lostAdds := rfl
@[simp] theorem State.setControl_core_lostTokens (s : State) (c : Control) : (s.setControl c).core.lostTokens = s.core.lostTokens := rfl
@[simp] theorem State.setControl_core_yielded (s : State) (c : Control) : (s.setControl c).core.yielded = s.core.yielded := rfl
@[simp] theorem State.setControl_core_requests (s : State) (c : Control) : (s.setControl c).core.requests = s.core.requests := rfl
@[simp] theorem State.setControl_core_preload (s : State) (c : Control) : (s.setControl c).core.preload = s.core.preload := rfl
@[simp] theorem State.setControl_core_snapshot (s : State) (c : Control) : (s.setControl c).core.snapshot = s.core.snapshot := rfl
@[simp] theorem State.setControl_core_journal (s : State) (c : Control) : (s.setControl c).core.journal = s.core.journal := rfl
@[simp] theorem State.setControl_core_rerun (s : State) (c : Control) : (s.setControl c).core.rerun = s.core.rerun := rfl
@[simp] theorem State.setControl_core_tlb (s : State) (c : Control) : (s.setControl c).core.tlb = s.core.tlb := rfl
@[simp] theorem State.setControl_core_walks (s : State) (c : Control) : (s.setControl c).core.walks = s.core.walks := rfl
@[simp] theorem State.setControl_core_l1 (s : State) (c : Control) : (s.setControl c).core.l1 = s.core.l1 := rfl
@[simp] theorem State.setControl_core_badUnits (s : State) (c : Control) : (s.setControl c).core.badUnits = s.core.badUnits := rfl
@[simp] theorem State.setControl_control (s : State) (c : Control) : (s.setControl c).core.issue.control = c := rfl

/-! ### `State.lateReport` -/

@[simp] theorem State.lateReport_me (s : State) (c : BitVec 8) (v : Word) : (s.lateReport c v).me = s.me := rfl
@[simp] theorem State.lateReport_others (s : State) (c : BitVec 8) (v : Word) : (s.lateReport c v).others = s.others := rfl
@[simp] theorem State.lateReport_dies (s : State) (c : BitVec 8) (v : Word) : (s.lateReport c v).dies = s.dies := rfl
@[simp] theorem State.lateReport_dev (s : State) (c : BitVec 8) (v : Word) : (s.lateReport c v).dev = s.dev := rfl
@[simp] theorem State.lateReport_mem (s : State) (c : BitVec 8) (v : Word) : (s.lateReport c v).mem = s.mem := rfl
@[simp] theorem State.lateReport_lines (s : State) (c : BitVec 8) (v : Word) : (s.lateReport c v).lines = s.lines := rfl
@[simp] theorem State.lateReport_flaws (s : State) (c : BitVec 8) (v : Word) : (s.lateReport c v).flaws = s.flaws := rfl
@[simp] theorem State.lateReport_agenda (s : State) (c : BitVec 8) (v : Word) : (s.lateReport c v).agenda = s.agenda := rfl
@[simp] theorem State.lateReport_due (s : State) (c : BitVec 8) (v : Word) : (s.lateReport c v).due = s.due := rfl
@[simp] theorem State.lateReport_fresh (s : State) (c : BitVec 8) (v : Word) : (s.lateReport c v).fresh = s.fresh := rfl
@[simp] theorem State.lateReport_held (s : State) (c : BitVec 8) (v : Word) : (s.lateReport c v).held = s.held := rfl
@[simp] theorem State.lateReport_core_regs (s : State) (c : BitVec 8) (v : Word) : (s.lateReport c v).core.regs = s.core.regs := rfl
@[simp] theorem State.lateReport_core_tiles (s : State) (c : BitVec 8) (v : Word) : (s.lateReport c v).core.tiles = s.core.tiles := rfl
@[simp] theorem State.lateReport_core_bankRow (s : State) (c : BitVec 8) (v : Word) : (s.lateReport c v).core.bankRow = s.core.bankRow := rfl
@[simp] theorem State.lateReport_core_rb (s : State) (c : BitVec 8) (v : Word) : (s.lateReport c v).core.rb = s.core.rb := rfl
@[simp] theorem State.lateReport_core_scratch (s : State) (c : BitVec 8) (v : Word) : (s.lateReport c v).core.scratch = s.core.scratch := rfl
@[simp] theorem State.lateReport_core_ev (s : State) (c : BitVec 8) (v : Word) : (s.lateReport c v).core.ev = s.core.ev := rfl
@[simp] theorem State.lateReport_core_evSrc (s : State) (c : BitVec 8) (v : Word) : (s.lateReport c v).core.evSrc = s.core.evSrc := rfl
@[simp] theorem State.lateReport_core_cycles (s : State) (c : BitVec 8) (v : Word) : (s.lateReport c v).core.cycles = s.core.cycles := rfl
@[simp] theorem State.lateReport_core_bundles (s : State) (c : BitVec 8) (v : Word) : (s.lateReport c v).core.bundles = s.core.bundles := rfl
@[simp] theorem State.lateReport_core_task (s : State) (c : BitVec 8) (v : Word) : (s.lateReport c v).core.task = s.core.task := rfl
@[simp] theorem State.lateReport_core_life (s : State) (c : BitVec 8) (v : Word) : (s.lateReport c v).core.life = s.core.life := rfl
@[simp] theorem State.lateReport_core_quantum (s : State) (c : BitVec 8) (v : Word) : (s.lateReport c v).core.quantum = s.core.quantum := rfl
@[simp] theorem State.lateReport_core_base (s : State) (c : BitVec 8) (v : Word) : (s.lateReport c v).core.base = s.core.base := rfl
@[simp] theorem State.lateReport_core_textLen (s : State) (c : BitVec 8) (v : Word) : (s.lateReport c v).core.textLen = s.core.textLen := rfl
@[simp] theorem State.lateReport_core_text (s : State) (c : BitVec 8) (v : Word) : (s.lateReport c v).core.text = s.core.text := rfl
@[simp] theorem State.lateReport_core_captured (s : State) (c : BitVec 8) (v : Word) : (s.lateReport c v).core.captured = s.core.captured := rfl
@[simp] theorem State.lateReport_core_memq (s : State) (c : BitVec 8) (v : Word) : (s.lateReport c v).core.memq = s.core.memq := rfl
@[simp] theorem State.lateReport_core_adds (s : State) (c : BitVec 8) (v : Word) : (s.lateReport c v).core.adds = s.core.adds := rfl
@[simp] theorem State.lateReport_core_cmds (s : State) (c : BitVec 8) (v : Word) : (s.lateReport c v).core.cmds = s.core.cmds := rfl
@[simp] theorem State.lateReport_core_cmdNo (s : State) (c : BitVec 8) (v : Word) : (s.lateReport c v).core.cmdNo = s.core.cmdNo := rfl
@[simp] theorem State.lateReport_core_fwTrap (s : State) (c : BitVec 8) (v : Word) : (s.lateReport c v).core.fwTrap = s.core.fwTrap := rfl
@[simp] theorem State.lateReport_core_errDue (s : State) (c : BitVec 8) (v : Word) : (s.lateReport c v).core.errDue = s.core.errDue := rfl
@[simp] theorem State.lateReport_core_lostWrites (s : State) (c : BitVec 8) (v : Word) : (s.lateReport c v).core.lostWrites = s.core.lostWrites := rfl
@[simp] theorem State.lateReport_core_lostAdds (s : State) (c : BitVec 8) (v : Word) : (s.lateReport c v).core.lostAdds = s.core.lostAdds := rfl
@[simp] theorem State.lateReport_core_lostTokens (s : State) (c : BitVec 8) (v : Word) : (s.lateReport c v).core.lostTokens = s.core.lostTokens := rfl
@[simp] theorem State.lateReport_core_yielded (s : State) (c : BitVec 8) (v : Word) : (s.lateReport c v).core.yielded = s.core.yielded := rfl
@[simp] theorem State.lateReport_core_requests (s : State) (c : BitVec 8) (v : Word) : (s.lateReport c v).core.requests = s.core.requests := rfl
@[simp] theorem State.lateReport_core_preload (s : State) (c : BitVec 8) (v : Word) : (s.lateReport c v).core.preload = s.core.preload := rfl
@[simp] theorem State.lateReport_core_snapshot (s : State) (c : BitVec 8) (v : Word) : (s.lateReport c v).core.snapshot = s.core.snapshot := rfl
@[simp] theorem State.lateReport_core_journal (s : State) (c : BitVec 8) (v : Word) : (s.lateReport c v).core.journal = s.core.journal := rfl
@[simp] theorem State.lateReport_core_rerun (s : State) (c : BitVec 8) (v : Word) : (s.lateReport c v).core.rerun = s.core.rerun := rfl
@[simp] theorem State.lateReport_core_tlb (s : State) (c : BitVec 8) (v : Word) : (s.lateReport c v).core.tlb = s.core.tlb := rfl
@[simp] theorem State.lateReport_core_walks (s : State) (c : BitVec 8) (v : Word) : (s.lateReport c v).core.walks = s.core.walks := rfl
@[simp] theorem State.lateReport_core_l1 (s : State) (c : BitVec 8) (v : Word) : (s.lateReport c v).core.l1 = s.core.l1 := rfl
@[simp] theorem State.lateReport_core_badUnits (s : State) (c : BitVec 8) (v : Word) : (s.lateReport c v).core.badUnits = s.core.badUnits := rfl
@[simp] theorem State.lateReport_core_issue (s : State) (c : BitVec 8) (v : Word) : (s.lateReport c v).core.issue = s.core.issue := rfl
@[simp] theorem State.lateReport_core_reports (s : State) (c : BitVec 8) (v : Word) : (s.lateReport c v).core.reports = s.core.reports ++ [⟨c, v⟩] := rfl

/-! ### `State.withSlot` -/

@[simp] theorem State.withSlot_me (s : State) (sl : Slot) (w : Word32) (k p : Bool) : (s.withSlot sl w k p).me = s.me := rfl
@[simp] theorem State.withSlot_others (s : State) (sl : Slot) (w : Word32) (k p : Bool) : (s.withSlot sl w k p).others = s.others := rfl
@[simp] theorem State.withSlot_dies (s : State) (sl : Slot) (w : Word32) (k p : Bool) : (s.withSlot sl w k p).dies = s.dies := rfl
@[simp] theorem State.withSlot_dev (s : State) (sl : Slot) (w : Word32) (k p : Bool) : (s.withSlot sl w k p).dev = s.dev := rfl
@[simp] theorem State.withSlot_mem (s : State) (sl : Slot) (w : Word32) (k p : Bool) : (s.withSlot sl w k p).mem = s.mem := rfl
@[simp] theorem State.withSlot_lines (s : State) (sl : Slot) (w : Word32) (k p : Bool) : (s.withSlot sl w k p).lines = s.lines := rfl
@[simp] theorem State.withSlot_flaws (s : State) (sl : Slot) (w : Word32) (k p : Bool) : (s.withSlot sl w k p).flaws = s.flaws := rfl
@[simp] theorem State.withSlot_agenda (s : State) (sl : Slot) (w : Word32) (k p : Bool) : (s.withSlot sl w k p).agenda = s.agenda := rfl
@[simp] theorem State.withSlot_due (s : State) (sl : Slot) (w : Word32) (k p : Bool) : (s.withSlot sl w k p).due = s.due := rfl
@[simp] theorem State.withSlot_fresh (s : State) (sl : Slot) (w : Word32) (k p : Bool) : (s.withSlot sl w k p).fresh = s.fresh := rfl
@[simp] theorem State.withSlot_held (s : State) (sl : Slot) (w : Word32) (k p : Bool) : (s.withSlot sl w k p).held = s.held := rfl
@[simp] theorem State.withSlot_core_regs (s : State) (sl : Slot) (w : Word32) (k p : Bool) : (s.withSlot sl w k p).core.regs = s.core.regs := rfl
@[simp] theorem State.withSlot_core_tiles (s : State) (sl : Slot) (w : Word32) (k p : Bool) : (s.withSlot sl w k p).core.tiles = s.core.tiles := rfl
@[simp] theorem State.withSlot_core_bankRow (s : State) (sl : Slot) (w : Word32) (k p : Bool) : (s.withSlot sl w k p).core.bankRow = s.core.bankRow := rfl
@[simp] theorem State.withSlot_core_rb (s : State) (sl : Slot) (w : Word32) (k p : Bool) : (s.withSlot sl w k p).core.rb = s.core.rb := rfl
@[simp] theorem State.withSlot_core_scratch (s : State) (sl : Slot) (w : Word32) (k p : Bool) : (s.withSlot sl w k p).core.scratch = s.core.scratch := rfl
@[simp] theorem State.withSlot_core_ev (s : State) (sl : Slot) (w : Word32) (k p : Bool) : (s.withSlot sl w k p).core.ev = s.core.ev := rfl
@[simp] theorem State.withSlot_core_evSrc (s : State) (sl : Slot) (w : Word32) (k p : Bool) : (s.withSlot sl w k p).core.evSrc = s.core.evSrc := rfl
@[simp] theorem State.withSlot_core_cycles (s : State) (sl : Slot) (w : Word32) (k p : Bool) : (s.withSlot sl w k p).core.cycles = s.core.cycles := rfl
@[simp] theorem State.withSlot_core_bundles (s : State) (sl : Slot) (w : Word32) (k p : Bool) : (s.withSlot sl w k p).core.bundles = s.core.bundles := rfl
@[simp] theorem State.withSlot_core_task (s : State) (sl : Slot) (w : Word32) (k p : Bool) : (s.withSlot sl w k p).core.task = s.core.task := rfl
@[simp] theorem State.withSlot_core_life (s : State) (sl : Slot) (w : Word32) (k p : Bool) : (s.withSlot sl w k p).core.life = s.core.life := rfl
@[simp] theorem State.withSlot_core_quantum (s : State) (sl : Slot) (w : Word32) (k p : Bool) : (s.withSlot sl w k p).core.quantum = s.core.quantum := rfl
@[simp] theorem State.withSlot_core_base (s : State) (sl : Slot) (w : Word32) (k p : Bool) : (s.withSlot sl w k p).core.base = s.core.base := rfl
@[simp] theorem State.withSlot_core_textLen (s : State) (sl : Slot) (w : Word32) (k p : Bool) : (s.withSlot sl w k p).core.textLen = s.core.textLen := rfl
@[simp] theorem State.withSlot_core_text (s : State) (sl : Slot) (w : Word32) (k p : Bool) : (s.withSlot sl w k p).core.text = s.core.text := rfl
@[simp] theorem State.withSlot_core_captured (s : State) (sl : Slot) (w : Word32) (k p : Bool) : (s.withSlot sl w k p).core.captured = s.core.captured := rfl
@[simp] theorem State.withSlot_core_memq (s : State) (sl : Slot) (w : Word32) (k p : Bool) : (s.withSlot sl w k p).core.memq = s.core.memq := rfl
@[simp] theorem State.withSlot_core_adds (s : State) (sl : Slot) (w : Word32) (k p : Bool) : (s.withSlot sl w k p).core.adds = s.core.adds := rfl
@[simp] theorem State.withSlot_core_cmds (s : State) (sl : Slot) (w : Word32) (k p : Bool) : (s.withSlot sl w k p).core.cmds = s.core.cmds := rfl
@[simp] theorem State.withSlot_core_cmdNo (s : State) (sl : Slot) (w : Word32) (k p : Bool) : (s.withSlot sl w k p).core.cmdNo = s.core.cmdNo := rfl
@[simp] theorem State.withSlot_core_reports (s : State) (sl : Slot) (w : Word32) (k p : Bool) : (s.withSlot sl w k p).core.reports = s.core.reports := rfl
@[simp] theorem State.withSlot_core_fwTrap (s : State) (sl : Slot) (w : Word32) (k p : Bool) : (s.withSlot sl w k p).core.fwTrap = s.core.fwTrap := rfl
@[simp] theorem State.withSlot_core_errDue (s : State) (sl : Slot) (w : Word32) (k p : Bool) : (s.withSlot sl w k p).core.errDue = s.core.errDue := rfl
@[simp] theorem State.withSlot_core_lostWrites (s : State) (sl : Slot) (w : Word32) (k p : Bool) : (s.withSlot sl w k p).core.lostWrites = s.core.lostWrites := rfl
@[simp] theorem State.withSlot_core_lostAdds (s : State) (sl : Slot) (w : Word32) (k p : Bool) : (s.withSlot sl w k p).core.lostAdds = s.core.lostAdds := rfl
@[simp] theorem State.withSlot_core_lostTokens (s : State) (sl : Slot) (w : Word32) (k p : Bool) : (s.withSlot sl w k p).core.lostTokens = s.core.lostTokens := rfl
@[simp] theorem State.withSlot_core_yielded (s : State) (sl : Slot) (w : Word32) (k p : Bool) : (s.withSlot sl w k p).core.yielded = s.core.yielded := rfl
@[simp] theorem State.withSlot_core_requests (s : State) (sl : Slot) (w : Word32) (k p : Bool) : (s.withSlot sl w k p).core.requests = s.core.requests := rfl
@[simp] theorem State.withSlot_core_preload (s : State) (sl : Slot) (w : Word32) (k p : Bool) : (s.withSlot sl w k p).core.preload = s.core.preload := rfl
@[simp] theorem State.withSlot_core_snapshot (s : State) (sl : Slot) (w : Word32) (k p : Bool) : (s.withSlot sl w k p).core.snapshot = s.core.snapshot := rfl
@[simp] theorem State.withSlot_core_journal (s : State) (sl : Slot) (w : Word32) (k p : Bool) : (s.withSlot sl w k p).core.journal = s.core.journal := rfl
@[simp] theorem State.withSlot_core_rerun (s : State) (sl : Slot) (w : Word32) (k p : Bool) : (s.withSlot sl w k p).core.rerun = s.core.rerun := rfl
@[simp] theorem State.withSlot_core_tlb (s : State) (sl : Slot) (w : Word32) (k p : Bool) : (s.withSlot sl w k p).core.tlb = s.core.tlb := rfl
@[simp] theorem State.withSlot_core_walks (s : State) (sl : Slot) (w : Word32) (k p : Bool) : (s.withSlot sl w k p).core.walks = s.core.walks := rfl
@[simp] theorem State.withSlot_core_l1 (s : State) (sl : Slot) (w : Word32) (k p : Bool) : (s.withSlot sl w k p).core.l1 = s.core.l1 := rfl
@[simp] theorem State.withSlot_core_badUnits (s : State) (sl : Slot) (w : Word32) (k p : Bool) : (s.withSlot sl w k p).core.badUnits = s.core.badUnits := rfl
@[simp] theorem State.withSlot_pass (s : State) (sl : Slot) (w : Word32) (k p : Bool) : (s.withSlot sl w k p).core.issue.pass = p := rfl
@[simp] theorem State.withSlot_protectOk (s : State) (sl : Slot) (w : Word32) (k p : Bool) : (s.withSlot sl w k p).core.issue.protectOk = k := rfl
@[simp] theorem State.withSlot_slot (s : State) (sl : Slot) (w : Word32) (k p : Bool) : (s.withSlot sl w k p).core.issue.slot = sl := rfl
@[simp] theorem State.withSlot_word (s : State) (sl : Slot) (w : Word32) (k p : Bool) : (s.withSlot sl w k p).core.issue.word = w := rfl

/-! ### `State.dieEvent` -/

@[simp] theorem State.dieEvent_me (s : State) (d : BitVec 2) (c : BitVec 8) (n : Nat) : (s.dieEvent d c n).me = s.me := rfl
@[simp] theorem State.dieEvent_core (s : State) (d : BitVec 2) (c : BitVec 8) (n : Nat) : (s.dieEvent d c n).core = s.core := rfl
@[simp] theorem State.dieEvent_others (s : State) (d : BitVec 2) (c : BitVec 8) (n : Nat) : (s.dieEvent d c n).others = s.others := rfl
@[simp] theorem State.dieEvent_dev (s : State) (d : BitVec 2) (c : BitVec 8) (n : Nat) : (s.dieEvent d c n).dev = s.dev := rfl
@[simp] theorem State.dieEvent_mem (s : State) (d : BitVec 2) (c : BitVec 8) (n : Nat) : (s.dieEvent d c n).mem = s.mem := rfl
@[simp] theorem State.dieEvent_lines (s : State) (d : BitVec 2) (c : BitVec 8) (n : Nat) : (s.dieEvent d c n).lines = s.lines := rfl
@[simp] theorem State.dieEvent_flaws (s : State) (d : BitVec 2) (c : BitVec 8) (n : Nat) : (s.dieEvent d c n).flaws = s.flaws := rfl
@[simp] theorem State.dieEvent_agenda (s : State) (d : BitVec 2) (c : BitVec 8) (n : Nat) : (s.dieEvent d c n).agenda = s.agenda := rfl
@[simp] theorem State.dieEvent_due (s : State) (d : BitVec 2) (c : BitVec 8) (n : Nat) : (s.dieEvent d c n).due = s.due := rfl
@[simp] theorem State.dieEvent_fresh (s : State) (d : BitVec 2) (c : BitVec 8) (n : Nat) : (s.dieEvent d c n).fresh = s.fresh := rfl
@[simp] theorem State.dieEvent_held (s : State) (d : BitVec 2) (c : BitVec 8) (n : Nat) : (s.dieEvent d c n).held = s.held := rfl

/-! ### `State.setErr` -/

@[simp] theorem State.setErr_me (s : State) (i : Nat) : (s.setErr i).me = s.me := rfl
@[simp] theorem State.setErr_core (s : State) (i : Nat) : (s.setErr i).core = s.core := rfl
@[simp] theorem State.setErr_others (s : State) (i : Nat) : (s.setErr i).others = s.others := rfl
@[simp] theorem State.setErr_dies (s : State) (i : Nat) : (s.setErr i).dies = s.dies := rfl
@[simp] theorem State.setErr_mem (s : State) (i : Nat) : (s.setErr i).mem = s.mem := rfl
@[simp] theorem State.setErr_lines (s : State) (i : Nat) : (s.setErr i).lines = s.lines := rfl
@[simp] theorem State.setErr_flaws (s : State) (i : Nat) : (s.setErr i).flaws = s.flaws := rfl
@[simp] theorem State.setErr_agenda (s : State) (i : Nat) : (s.setErr i).agenda = s.agenda := rfl
@[simp] theorem State.setErr_due (s : State) (i : Nat) : (s.setErr i).due = s.due := rfl
@[simp] theorem State.setErr_fresh (s : State) (i : Nat) : (s.setErr i).fresh = s.fresh := rfl
@[simp] theorem State.setErr_held (s : State) (i : Nat) : (s.setErr i).held = s.held := rfl

/-! ### Who runs, under the updates -/

@[simp] theorem State.mark_comp (s : State) (r : Issued) : (s.mark r).comp = s.comp := rfl
@[simp] theorem State.mark_sup (s : State) (r : Issued) : (s.mark r).sup = s.sup := rfl
@[simp] theorem State.mark_prot (s : State) (r : Issued) : (s.mark r).prot = s.prot := rfl
@[simp] theorem State.mark_job (s : State) (r : Issued) : (s.mark r).job = s.job := rfl
@[simp] theorem State.mark_unit (s : State) (r : Issued) : (s.mark r).unit = s.unit := rfl
@[simp] theorem State.queueOp_comp (s : State) (op : MemOp) : (s.queueOp op).comp = s.comp := rfl
@[simp] theorem State.queueOp_sup (s : State) (op : MemOp) : (s.queueOp op).sup = s.sup := rfl
@[simp] theorem State.queueOp_prot (s : State) (op : MemOp) : (s.queueOp op).prot = s.prot := rfl
@[simp] theorem State.queueOp_job (s : State) (op : MemOp) : (s.queueOp op).job = s.job := rfl
@[simp] theorem State.queueOp_unit (s : State) (op : MemOp) : (s.queueOp op).unit = s.unit := rfl
@[simp] theorem State.setControl_comp (s : State) (c : Control) : (s.setControl c).comp = s.comp := rfl
@[simp] theorem State.setControl_sup (s : State) (c : Control) : (s.setControl c).sup = s.sup := rfl
@[simp] theorem State.setControl_prot (s : State) (c : Control) : (s.setControl c).prot = s.prot := rfl
@[simp] theorem State.setControl_job (s : State) (c : Control) : (s.setControl c).job = s.job := rfl
@[simp] theorem State.setControl_unit (s : State) (c : Control) : (s.setControl c).unit = s.unit := rfl
@[simp] theorem State.onDie_comp (s : State) (d : BitVec 2) (f : Die → Die) : (s.onDie d f).comp = s.comp := rfl
@[simp] theorem State.onDie_sup (s : State) (d : BitVec 2) (f : Die → Die) : (s.onDie d f).sup = s.sup := rfl
@[simp] theorem State.onDie_prot (s : State) (d : BitVec 2) (f : Die → Die) : (s.onDie d f).prot = s.prot := rfl
@[simp] theorem State.onDie_job (s : State) (d : BitVec 2) (f : Die → Die) : (s.onDie d f).job = s.job := rfl
@[simp] theorem State.onDie_unit (s : State) (d : BitVec 2) (f : Die → Die) : (s.onDie d f).unit = s.unit := rfl
@[simp] theorem State.onDev_comp (s : State) (f : Device → Device) : (s.onDev f).comp = s.comp := rfl
@[simp] theorem State.onDev_sup (s : State) (f : Device → Device) : (s.onDev f).sup = s.sup := rfl
@[simp] theorem State.onDev_prot (s : State) (f : Device → Device) : (s.onDev f).prot = s.prot := rfl
@[simp] theorem State.onDev_job (s : State) (f : Device → Device) : (s.onDev f).job = s.job := rfl
@[simp] theorem State.onDev_unit (s : State) (f : Device → Device) : (s.onDev f).unit = s.unit := rfl
@[simp] theorem State.withSlot_comp (s : State) (sl : Slot) (w : Word32) (k p : Bool) : (s.withSlot sl w k p).comp = s.comp := rfl
@[simp] theorem State.withSlot_sup (s : State) (sl : Slot) (w : Word32) (k p : Bool) : (s.withSlot sl w k p).sup = s.sup := rfl
@[simp] theorem State.withSlot_prot (s : State) (sl : Slot) (w : Word32) (k p : Bool) : (s.withSlot sl w k p).prot = s.prot := rfl
@[simp] theorem State.withSlot_job (s : State) (sl : Slot) (w : Word32) (k p : Bool) : (s.withSlot sl w k p).job = s.job := rfl
@[simp] theorem State.withSlot_unit (s : State) (sl : Slot) (w : Word32) (k p : Bool) : (s.withSlot sl w k p).unit = s.unit := rfl
@[simp] theorem State.onRegs_comp (s : State) (f : Regs → Regs) : (s.onRegs f).comp = s.comp := rfl
@[simp] theorem State.onRegs_job (s : State) (f : Regs → Regs) : (s.onRegs f).job = s.job := rfl
@[simp] theorem State.onRegs_unit (s : State) (f : Regs → Regs) : (s.onRegs f).unit = s.unit := rfl

/-! ### Dies -/

@[simp] theorem State.onDie_die (s : State) (d e : BitVec 2) (f : Die → Die) : (s.onDie d f).die e = if e = d then f (s.die d) else s.die e := by
  unfold State.onDie State.die
  split
  · next h => subst h; simp
  · next h =>
    have : d.toNat ≠ e.toNat := fun x => h (BitVec.eq_of_toNat_eq x.symm)
    simp [this]

/-! ### Cores -/

theorem CoreRef.num_inj {a b : CoreRef} (h : a.num = b.num) : a = b := by
  obtain ⟨d, i⟩ := a
  obtain ⟨e, j⟩ := b
  simp only [CoreRef.num] at h
  have := i.isLt
  have := j.isLt
  have hd : d = e := BitVec.eq_of_toNat_eq (by omega)
  have hi : i = j := BitVec.eq_of_toNat_eq (by omega)
  rw [hd, hi]

theorem CoreRef.ofNum_num (c : CoreRef) : CoreRef.ofNum c.num = c := by
  obtain ⟨d, i⟩ := c
  have := i.isLt
  have := d.isLt
  simp only [CoreRef.ofNum, CoreRef.num, CoreRef.mk.injEq]
  constructor <;> apply BitVec.eq_of_toNat_eq <;> simp <;> omega

@[simp] theorem State.getCore_me (s : State) : s.getCore s.me = s.core := by simp [State.getCore]

@[simp] theorem State.setCore_me (s : State) (c : CoreRef) (x : Core) : (s.setCore c x).me = s.me := by unfold State.setCore; split <;> rfl

/-- A core that was set is the core that was given; every other core is as before. -/
theorem State.getCore_setCore (s : State) (c d : CoreRef) (x : Core) : (s.setCore c x).getCore d = if d = c then x else s.getCore d := by
  unfold State.setCore State.getCore
  by_cases h : c = s.me
  · by_cases hd : d = c <;> simp_all
  · by_cases hd : d = c
    · subst hd; simp [h, Sparse.find?_put]
    · have hn : d.num ≠ c.num := fun e => hd (CoreRef.num_inj e)
      simp [h, hd, Sparse.find?_put, hn]

theorem State.setCore_fields (s : State) (c : CoreRef) (x : Core) :
    (s.setCore c x).dies = s.dies ∧ (s.setCore c x).dev = s.dev ∧ (s.setCore c x).mem = s.mem ∧ (s.setCore c x).lines = s.lines := by
  unfold State.setCore; split <;> simp

@[simp] theorem State.setCore_mem (s : State) (c : CoreRef) (x : Core) : (s.setCore c x).mem = s.mem := (s.setCore_fields c x).2.2.1
@[simp] theorem State.onCore_mem (s : State) (c : CoreRef) (f : Core → Core) : (s.onCore c f).mem = s.mem := s.setCore_mem c _
@[simp] theorem State.setCore_lines (s : State) (c : CoreRef) (x : Core) : (s.setCore c x).lines = s.lines := (s.setCore_fields c x).2.2.2
@[simp] theorem State.onCore_lines (s : State) (c : CoreRef) (f : Core → Core) : (s.onCore c f).lines = s.lines := s.setCore_lines c _
@[simp] theorem State.setCore_dev (s : State) (c : CoreRef) (x : Core) : (s.setCore c x).dev = s.dev := (s.setCore_fields c x).2.1
@[simp] theorem State.onCore_dev (s : State) (c : CoreRef) (f : Core → Core) : (s.onCore c f).dev = s.dev := s.setCore_dev c _

theorem State.getCore_onCore (s : State) (c d : CoreRef) (f : Core → Core) : (s.onCore c f).getCore d = if d = c then f (s.getCore c) else s.getCore d :=
  s.getCore_setCore c d _

@[simp] theorem State.focus_me (s : State) (c : CoreRef) : (s.focus c).me = c := by unfold State.focus; split <;> simp_all
@[simp] theorem State.focus_dev (s : State) (c : CoreRef) : (s.focus c).dev = s.dev := by unfold State.focus; split <;> rfl
@[simp] theorem State.focus_dies (s : State) (c : CoreRef) : (s.focus c).dies = s.dies := by unfold State.focus; split <;> rfl
@[simp] theorem State.focus_mem (s : State) (c : CoreRef) : (s.focus c).mem = s.mem := by unfold State.focus; split <;> rfl
@[simp] theorem State.focus_lines (s : State) (c : CoreRef) : (s.focus c).lines = s.lines := by unfold State.focus; split <;> rfl

/-- A core that comes into focus is the core that it was. -/
theorem State.focus_core (s : State) (c : CoreRef) : (s.focus c).core = s.getCore c := by
  unfold State.focus
  split
  · next h => subst h; simp
  · rfl

/-- Bringing a core into focus changes no core. -/
theorem State.getCore_focus (s : State) (c d : CoreRef) : (s.focus c).getCore d = s.getCore d := by
  unfold State.focus
  split
  · rfl
  · next h =>
    by_cases hd : d = c
    · subst hd; simp [State.getCore]
    · by_cases hm : d = s.me
      · subst hm; simp [State.getCore, hd, Sparse.find?_put]
      · have h1 : d.num ≠ s.me.num := fun e => hm (CoreRef.num_inj e)
        have h2 : d.num ≠ c.num := fun e => hd (CoreRef.num_inj e)
        simp [State.getCore, hd, hm, Sparse.find?_put, Sparse.find?_del, h1, h2]

end Sys2Proof.Machine
end

