-- ==== Sys2Proof/Tests/Slice0.lean ====
section
/-! SUPPORT. The model's own tests. Words and results are written out from the spec's encodings and examples, whose rules the comments name; the
theorems named `test_witness_…` show states and operands that meet the hypotheses of the statements. -/

open Sys2Proof Sys2Proof.Machine

namespace Sys2Proof.Tests

set_option Elab.async false

/-! ### Well-formed and ill-formed instructions -/

theorem test_wf_operand_ranges :
    ([.ld 1 2 false 0 3 true 0, .loop false 0 false 1, .loopi true 0 5, .loopq false 0, .mfsr 1 0x003, .mtsr 1 false 0x022, .mtsr 1 false 0x0FF,
      .fcvt 1 2 false .i64Fp64 .sr, .watch 1 0 false false false 0, .watch 0 0 true false false 0, .fence 0 1 .cluster, .fence 1 0 .cluster,
      .sxapp 1 2 false false false 0, .sxapp 1 2 false false false 17, .sxqry 1 2 3 false false 0, .sxqry 1 2 3 false false 17, .sqpop 0,
      .sqpop 31, .mhand 0 0 1 .raw, .mhand 0 0 2 .bf16, .mhand 0 0 4 .i8] : List Instr).all (fun i => !i.wellFormed) = true := by decide

theorem test_wf_amode_and_formats :
    ([.amode 1 0 0 1, .amode 1 1 0 8, .amode 1 2 0 0, .amode 1 2 0 33, .amode 1 3 0 0, .vcvt 1 2 .cf32 .fp32 false .rne, .vcvt 1 2 .fp32 .page false .rne,
      .vcvt 1 2 .fp32 .fp32 false .rne, .vcvt 1 2 .int8 .fp32 true .rne] : List Instr).all (fun i => !i.wellFormed) = true := by decide

theorem test_wf_commands :
    ([.mldw 5 5 0 1 .none, .mma 5 0 5 1 .none, .mmag 5 5 0 1 .none, .mmah 5 5 0 1 .none, .mzero 5 5 0 1 .none, .cpy 5 5 0 1 .none, .csel 5 5 0 1 .none,
      .cgth 5 5 0 1 .none, .cgth 5 0 0 15 .none, .csct 5 5 0 1 .none, .csct 5 0 0 15 .none, .cqf 5 5 0 1 .none, .ccol 5 5 0 1 .none,
      .ccol 5 0 0 15 .none] : List Instr).all (fun i => !i.wellFormed) = true := by decide

/-- The core number of no core. -/
def noCore : CoreRef := ⟨0, 156⟩

theorem test_wf_events :
    ([.fixedLatencyLanding noCore, .variableLatencyLanding noCore 0, .scratchpadStorePerform noCore, .writePerformAtHome noCore 0, .remoteSemaddArrival noCore 0,
      .tokenLanding noCore, .imemReload noCore, .engineDispatch noCore .m, .engineRetire noCore 0, .gatherPartReply noCore 0 0, .schedulerPlace 0 144,
      .dieFreeRequest 0 144, .quantumExpiry noCore, .taskRetire noCore, .trapEntry noCore 0 0, .taskKill noCore, .taskSuspend noCore, .yieldRequeue noCore,
      .checkpointSnapshot noCore, .datapathError noCore, .functionReady 0 22, .fabricRankWrite 5 0, .compStart 48 0,
      .poisonedAcknowledgementPath noCore] : List Instr).all (fun i => !i.wellFormed) = true := by decide

theorem test_wf_legal :
    ([.ld 1 2 false 0 3 false 0, .ld 1 2 false 0 2 true 0, .loop false 1 false 1, .mfsr 1 0x077, .mtsr 1 false 0x077, .amode 1 0 0 0, .amode 1 1 0 7, .amode 1 2 0 1,
      .amode 1 2 0 32, .vcvt 1 2 .fp32 .int8 true .rne, .cpy 0 0 0 1 .none, .cpy 5 6 7 15 .none, .cgth 5 0 0 14 .none, .sqpop 1, .sqpop 30, .sxapp 1 2 false false false 16,
      .mhand 0 0 126 .raw, .compStart 47 0, .functionReady 0 21] : List Instr).all Instr.wellFormed = true := by decide

/-! ### Words that the spec writes out -/

/-- R134, R136-R139, R142-R144: the S slot's ALU, unary, immediate, bit-field, compare and select words. -/
theorem test_decode_scalar :
    decode .S 0x02429800 = .ok (.add 4 5 6 false false) ∧ decode .S 0x02742412 = .ok (.divu 7 8 9 false false)
      ∧ decode .S 0x188381C0 = .ok (.bfx 8 7 false 0 7) ∧ decode .S 0x144000F0 = .ok (.li 4 0xF0) ∧ decode .S 0x16400000 = .ok (.liu 4 0)
      ∧ decode .S 0x22321064 = .ok (.scmpi 3 4 false .lt 100) := by decide

/-- R148-R154: float, memory and special-register words. -/
theorem test_decode_float_memory :
    decode .S 0x4E429810 = .ok (.fadd 4 5 6 false false true) ∧ decode .S 0x28515A02 = .ok (.ld 5 2 true 1 2 true 2)
      ∧ decode .S 0x2A618DFE = .ok (.st 6 3 false 0 3 0x1FE) ∧ decode .S 0x42400031 = .ok (.mfsr 4 0x031) := by decide

/-- R101-R103: control transfers. -/
theorem test_decode_control :
    decode .S 0x366FFFFC = .ok (.br 3 false 0xFFFFC) ∧ decode .S 0x3A038000 = .ok (.jr 7 false) ∧ decode .S 0x3A000002 = .ok .ret := by decide

/-- R159: the A slot. -/
theorem test_decode_address : decode .A 0x0E548100 = .ok (.amode 5 1 2 1) := by decide

/-- R181-R193: the V slots. -/
theorem test_decode_vector :
    decode .V 0x32392020 = .ok (.vspl 7 false 9 .w32 0) ∧ decode .V 0x66488520 = .ok (.vget 9 4 false 10 .w32)
      ∧ decode .V 0x2E308F00 = .ok (.vcvt 6 4 .bf16 .fp32 false .rne) ∧ decode .V 0x2B4882E0 = .ok (.vcmp .lt 9 4 5 .fp32 0)
      ∧ decode .V 0x3C516640 = .ok (.vaddSat 10 11 12 .ui8 0) := by decide

/-- R89, R90, R234: the engine slots. -/
theorem test_decode_engines : decode .C 0x02180021 = .ok (.cpy 3 0 0 4 .sem) ∧ decode .M 0x0C642100 = .ok (.mhand 3 1 4 .bf16) := by decide

/-- R276-R293: the X slot's synchronisation words. -/
theorem test_decode_sync :
    decode .X 0x0404240A = .ok (.watch 8 9 false false true 2) ∧ decode .X 0x140000C0 = .ok (.drain .package) ∧ decode .X 0x10000001 = .ok (.bar 1)
      ∧ decode .X 0x06030004 = .ok (.semadd 6 false false 4) ∧ decode .X 0x06031C44 = .ok (.semaddRemote 6 7 false false false 4)
      ∧ decode .X 0x08030004 = .ok (.semwt 6 false 4) ∧ decode .X 0x0A530004 = .ok (.semtst 5 6 false 4) ∧ decode .X 0x28030000 = .ok (.cqpush 6 false false)
      ∧ decode .X 0x2A030080 = .ok (.tdec 6 false true) ∧ decode .X 0x42030002 = .ok (.evsel 6 false 2) ∧ decode .X 0x16000000 = .ok (.cwait 0)
      ∧ decode .X 0x1E020003 = .ok (.yld 4 false 3) := by decide

/-- R295-R298, R327-R331, R347-R349: versions, tokens and the suffix memory. -/
theorem test_decode_versions_tokens_suffix :
    decode .S 0x2C518002 = .ok (.ldv 5 3 false 2) ∧ decode .S 0x32519802 = .ok (.casv 5 3 6 false false 2) ∧ decode .X 0x30031C00 = .ok (.sqpush 6 7 false false false)
      ∧ decode .X 0x44400000 = .ok (.sqpop 4) ∧ decode .X 0x46021400 = .ok (.tkput 4 5 false false) ∧ decode .X 0x34900000 = .ok (.tkget 9)
      ∧ decode .X 0x36021C0B = .ok (.sxapp 4 7 false false false 11) ∧ decode .X 0x38522004 = .ok (.sxqry 5 4 8 false false 4)
      ∧ decode .X 0x32000005 = .ok (.tktst 5) := by decide

/-- R69: a reserved function, a nonzero reserved bit and a word outside the S map. -/
theorem test_decode_refuses :
    (decode .S 0x02429815 = .ok (.add 4 5 6 false false)) = False ∧ decode .S 1 = .error .zeroOpcode ∧ decode .S 0xFE000000 = .error .reservedOpcode := by
  refine ⟨?_, by decide, by decide⟩
  simp only [eq_iff_iff, iff_false]; decide

/-! ### States for the witnesses -/

/-- A task of job 1. -/
def task : Task := ⟨0x1000, 1, 0, 0, 0⟩

/-- Core 0 of die 0 runs a task whose text is one bundle. -/
def main : State := { State.reset with core := { Core.zero with task := some task, textLen := 32 } }

/-- The companion core of cluster 0 of die 0 runs a task whose text is one pair. -/
def comp : State := { State.reset with me := ⟨0, 144⟩, core := { Core.zero with task := some task, textLen := 8 } }

/-- A state whose core is changed, and one whose registers are. -/
def onCore (s : State) (f : Core → Core) : State := { s with core := f s.core }
def onRegs (s : State) (f : Regs → Regs) : State := onCore s fun x => { x with regs := f x.regs }

/-- An S register, an A register and STATUS set. -/
def setS (s : State) (n : BitVec 5) (v : Word) : State := onRegs s fun r => { r with s := r.s.set n.toNat v n.isLt }
def setA (s : State) (n : BitVec 5) (v : Word) : State := onRegs s fun r => { r with a := r.a.set n.toNat v n.isLt }
def status (s : State) (v : Word) : State := onRegs s fun r => { r with status := v }

/-- The page at virtual address 0x10000, for job 1, with rights to read and to write, in device memory of die 0. -/
def page : TlbEntry := ⟨1, 1, 5, 7, 1, true⟩
def mapped (s : State) : State := onCore s fun x => { x with tlb := [page] }

/-- A store that is outstanding, and a load that is. -/
def aStore : MemEntry := { sup := false, op := .store ⟨0x10000, 0x50000, 0, true⟩ 0 3 0xAB }
def aLoad : MemEntry := { sup := false, op := .load 4 ⟨0x10000, 0x50000, 0, true⟩ 0 3 false }

/-- The features of a device that accepts all seven, with every function of its dies ready. -/
def ready (s : State) : State := { s with
  dev := { s.dev with accept := s.dev.accept.set 0 0x7F, run := true }
  dies := s.dies.map fun d => { d with ready := BitVec.allOnes 22 } }

/-! ### Witnesses: decoding, steps, reset, registers -/

theorem test_witness_DecodeEncode :
    (Instr.add 31 31 31 true true).slotKind = some .S ∧ (Instr.add 31 31 31 true true).wellFormed = true
      ∧ (Instr.amode 31 2 15 32).slotKind = some .A ∧ (Instr.amode 31 2 15 32).wellFormed = true
      ∧ (Instr.cgth 63 62 61 14 .tdec).slotKind = some .C ∧ (Instr.cgth 63 62 61 14 .tdec).wellFormed = true := by decide

theorem test_witness_DecoderAnswers :
    decode .S 0x144000F0 = .ok (.li 4 0xF0)
      ∧ ((1 : Word32) ≠ 0 ∧ (1 : Word32).toNat / 2 ^ 25 = 0) ∧ ((0x1FFFFFF : Word32) ≠ 0 ∧ (0x1FFFFFF : Word32).toNat / 2 ^ 25 = 0)
      ∧ Claims.opcodesEnd .S ≤ (0x54000000 : Word32).toNat / 2 ^ 25 ∧ Claims.opcodesEnd .A ≤ (0x1A000000 : Word32).toNat / 2 ^ 25
      ∧ Claims.opcodesEnd .V ≤ (0x68000000 : Word32).toNat / 2 ^ 25 ∧ Claims.opcodesEnd .M ≤ (0x0E000000 : Word32).toNat / 2 ^ 25
      ∧ Claims.opcodesEnd .C ≤ (0xFFFFFFFF : Word32).toNat / 2 ^ 25 ∧ Claims.opcodesEnd .X ≤ (0x48000000 : Word32).toNat / 2 ^ 25
      ∧ (0x29 ≤ (0x52000000 : Word32).toNat / 2 ^ 25 ∧ (0x5FFFFFFF : Word32).toNat / 2 ^ 25 < 0x30) := by decide

theorem test_witness_StepRunsEvent : ({ State.reset with agenda := [.event .run] } : State).agenda = .event .run :: []
    ∧ ({ State.reset with agenda := [.register 0x0300 8 1] } : State).agenda = .register 0x0300 8 1 :: [] := ⟨rfl, rfl⟩

theorem test_witness_StepRunsBundle : let s := main; let is : Vector Instr 8 := Vector.replicate 8 .nop
    (s.agenda = [] ∧ s.due < unitPeriod ∧ s.comp = false ∧ s.core.task.isSome = true ∧ s.core.life = .running ∧ s.sup = false ∧ s.core.rerun = none
      ∧ s.core.reports = [] ∧ s.textOff = some 0 ∧ s.badBundle is[0] is.toList = none)
      ∧ (Claims.mayRead s is.toList ∧ ∀ x ∈ Claims.bundle s 0 is, Claims.legal s x)
      ∧ (∀ x ∈ Claims.bundle s 0 is, Claims.tried s (is.toList.any Instr.checkpoints) x = .issued)
      ∧ ∃ t, runSlots exec (is.toList.any Instr.checkpoints) (Claims.bundle s 0 is) (s.fencedBy is.toList) = .next t
        ∧ ((t.closeBundle (is.toList.any Instr.checkpoints && s.prot)).finish is.toList).held = s.held := by
  unfold Claims.legal Claims.mayRead
  exact ⟨by decide, by decide, by decide, _, rfl, by decide⟩

theorem test_witness_StepRunsPair : let s := comp
    (s.agenda = [] ∧ s.due < unitPeriod ∧ s.comp = true ∧ s.core.task.isSome = true ∧ s.core.life = .running ∧ s.sup = false ∧ s.core.rerun = none
      ∧ s.core.reports = [] ∧ s.core.issue = {} ∧ s.textOff = some 0 ∧ s.badBundle .nop [.nop, .nop] = none)
      ∧ Claims.legal s ⟨.s, s.textWord 0, .nop⟩ ∧ Claims.legal s ⟨.x, s.textWord 4, .nop⟩
      ∧ Claims.mayRead s [.nop] ∧ ∃ t, exec .nop (s.withSlot .s (s.textWord 0) false) = .next t ∧ t.core.issue.res = .issued ∧ Claims.mayRead t [.nop]
        ∧ ∃ u, exec .nop (t.withSlot .x (s.textWord 4) false) = .next u ∧ u.core.issue.res = .issued ∧ (u.finish [.nop, .nop]).held = s.held := by
  unfold Claims.legal Claims.mayRead
  exact ⟨by decide, by decide, by decide, by decide, _, rfl, rfl, by decide, _, rfl, rfl, by decide⟩

theorem test_witness_MaskedLanding :
    1023 < 1024 ∧ (0 : BitVec 6) ≠ 63 ∧ (15 : BitVec 4) ≠ 0 ∧ ((5 ≤ 5 ∧ 5 < 5 + 1024) ∧ (1 : PReg).getLsbD (5 - 5) = true) ∧ ¬ (5 ≤ 4) := by decide +kernel

theorem test_witness_LatencyCount :
    (31 : BitVec 5) ≠ 0 ∧ (∀ f ∈ (onRegs main fun r => { r with flight := [⟨2, .s 31 7, 0⟩, ⟨4, .late 31 8, 0⟩] }).core.regs.flight, 1 < f.left) := by decide

/-- R123, R125: of three results of one register the two that are due land in order, and the third stays. -/
theorem test_latency : let s := (onRegs main fun r => { r with flight := [⟨1, .s 1 7, 0⟩, ⟨2, .s 1 8, 0⟩, ⟨1, .s 1 9, 0⟩] }).age.landResults
    s.core.regs.sVal 1 = 9 ∧ s.core.regs.flight = [⟨1, .s 1 8, 0⟩] := by decide

theorem test_witness_RotatedNames :
    (31 : BitVec 6).toNat < 32 ∧ (7 : BitVec 4).toNat < 8 ∧ 32 ≤ (32 : BitVec 6).toNat ∧ 32 ≤ (63 : BitVec 6).toNat ∧ 8 ≤ (8 : BitVec 4).toNat
      ∧ physV 31 63 = physV 31 63 ∧ physP 7 15 = physP 7 15 := by decide

/-- R110, R112: with VRB 31 the name V32 is register 63, and V33 is register 32. -/
theorem test_rotation : physV 31 32 = 63 ∧ physV 31 33 = 32 ∧ physP 7 8 = 15 ∧ physP 7 9 = 8 := by decide

/-! ### Witnesses: the S slot -/

theorem test_witness_LoadImmediate :
    main.core.regs.sIsFull 31 = true
      ∧ (((0x0FFFFFFFFFFFFFFF : Word).extractLsb' 60 4).setWidth 20 = (0 : BitVec 20) ∧ ((0x07FFFF0000000000 : Word).extractLsb' 40 20).toNat < 0x80000)
      ∧ ((0x0000007FFFF00000 : Word).extractLsb' 40 20 = 0 ∧ ((0x0000007FFFF00000 : Word).extractLsb' 20 20).toNat < 0x80000)
      ∧ ((0x7FFFF : Word).extractLsb' 20 20 = 0 ∧ ((0x7FFFF : Word).extractLsb' 0 20).toNat < 0x80000) := by decide

theorem test_witness_BitCountsAndFields :
    Claims.allFull main [Claims.S 31 true, Claims.S 30] = true ∧ 63 < 64
      ∧ (63 < (63 : BitVec 6).toNat + 1 ∧ (0 : BitVec 6).toNat + 63 ≤ 63) ∧ ((63 : BitVec 6).toNat ≤ 63 ∧ 63 < (63 : BitVec 6).toNat + (63 : BitVec 6).toNat + 1) := by decide

theorem test_witness_DivisionResult :
    (∀ i ∈ ([.div 1 2 3 false true, .divu 1 2 3 false true, .rem 1 2 3 false true, .remu 1 2 3 false true] : List Instr), (Claims.division i).isSome = true)
      ∧ Claims.allFull main [Claims.S 2, Claims.S 3 true, Claims.S 1] = true ∧ main.core.regs.status.getLsbD 3 = false
      ∧ ((setS (status main 8) 3 1).core.regs.sVal 3 ≠ 0 ∧ Claims.allFull (setS (status main 8) 3 1) [Claims.S 2, Claims.S 3 true, Claims.S 1] = true)
      ∧ ((status main 8).core.regs.status.getLsbD 3 = true ∧ (status main 8).core.regs.sVal 3 = 0 ∧ (status main 8).core.issue.pass = false
        ∧ Claims.allFull (status main 8) [Claims.S 2, Claims.S 3 true, Claims.S 1] = true) := by decide

/-- Whether an instruction is in a table with its registers full. -/
def tabled (f : Instr → Option Claims.Row) (s : State) (i : Instr) : Bool :=
  match f i with
  | some r => Claims.allFull s r.ops
  | none => false

theorem test_witness_ScalarResult :
    ([.add 1 2 3 true false, .sub 1 2 3 false false, .and 1 2 3 false false, .or 1 2 3 false false, .xor 1 2 3 false false, .andn 1 2 3 false false,
      .shl 1 2 3 false false, .shr 1 2 3 false false, .sra 1 2 3 false false, .rol 1 2 3 false false, .min 1 2 3 false false, .max 1 2 3 false false,
      .minu 1 2 3 false false, .maxu 1 2 3 false false, .mul 1 2 3 false false, .mulh 1 2 3 false false, .mulhu 1 2 3 false false, .brev 1 2 false,
      .sextb 1 2 false, .sexth 1 2 false, .sextw 1 2 false, .zextb 1 2 false, .zexth 1 2 false, .zextw 1 2 false, .mov 1 2 false, .addi 1 2 false 0x3FFF,
      .andi 1 2 false 1, .ori 1 2 false 1, .xori 1 2 false 1, .shli 1 2 false 63, .shri 1 2 false 63, .srai 1 2 false 63, .li 1 0xFFFFF, .liu 1 0,
      .fsh 1 2 3 false false 4, .fshi 1 2 3 false false 63, .sel 1 2 3 false false 15] : List Instr).all (tabled Claims.scalarRow main) = true
      ∧ ([.scmp 15 2 3 false false .geu, .scmpi 1 2 true .lt 0x7FF, .plog 15 8 7 .orn] : List Instr).all (tabled Claims.predicateRow main) = true := by decide

theorem test_witness_FloatResult :
    ([.fadd 1 2 3 false false true, .fsub 1 2 3 false false false, .fmul 1 2 3 false false true, .fmin 1 2 3 false false true, .fmax 1 2 3 false false true,
      .fminn 1 2 3 false false true, .fmaxn 1 2 3 false false true, .fcvt 1 2 false .i64Fp64 .rtz, .fcmp true 15 2 3 false false true .un,
      .fcmp false 15 2 3 false false false .ne] : List Instr).all (tabled Claims.floatRow main) = true
      ∧ Claims.allFull main [Claims.S 2, Claims.S 3 true, Claims.S 1] = true ∧ Claims.allFull main [Claims.S 31 true, Claims.S 0] = true := by decide

/-- An A register's mode set. -/
def mode (s : State) (n : BitVec 5) (m : AMode) : State := onRegs s fun r => { r with aMode := r.aMode.set n.toNat m n.isLt }

/-- A step register set. -/
def stepReg (s : State) (k : BitVec 4) (v : Word32) : State := onRegs s fun r => { r with d := r.d.set k.toNat v k.isLt }

theorem test_witness_Advance :
    (main.core.regs.aMode[0]).mode = 0
      ∧ ((mode main 31 ⟨1, 0, 7⟩).core.regs.aMode[31]).mode = 1
      ∧ ((onRegs (mode main 31 ⟨1, 0, 7⟩) fun r => { r with wLen := r.wLen.set 7 1 }).core.regs.wLen[7]).toNat ≠ 0
      ∧ (((mode (stepReg main 15 0x40000000) 3 ⟨2, 15, 32⟩).core.regs.aMode[3]).mode = 2 ∧ (mode (stepReg main 15 0x40000000) 3 ⟨2, 15, 32⟩).stepOf 3 = BitVec.ofNat 64 (2 ^ 30)
        ∧ ((mode (stepReg main 15 0x40000000) 3 ⟨2, 15, 32⟩).core.regs.aMode[3]).param.toNat = 32 ∧ (63 < 64 ∧ 30 + 32 ≤ 63))
      ∧ (((mode (stepReg main 1 1) 3 ⟨2, 1, 1⟩).core.regs.aMode[3]).mode = 2 ∧ (mode (stepReg main 1 1) 3 ⟨2, 1, 1⟩).stepOf 3 = BitVec.ofNat 64 (2 ^ 0)) := by decide

theorem test_witness_AddressResult :
    (([.amov 31 2 false, .aadd 1 2 3 false false, .aaddi 1 2 false 0x2000, .ali 1 0xFFFFF, .aliu 1 1, .amode 1 1 0 7, .dset 15 0x80000, .dmov 15 2 false,
      .wsetb 7 2 false, .wsetl 7 2 false, .ard 1 31 true] : List Instr).all (tabled Claims.addressRow main) = true)
      ∧ (Claims.allFull main [Claims.A 0] = true ∧ Claims.advances main 0)
      ∧ (Claims.allFull (mode (stepReg main 15 0x40000000) 3 ⟨2, 15, 32⟩) [Claims.A 3] = true ∧ Claims.advances (mode (stepReg main 15 0x40000000) 3 ⟨2, 15, 32⟩) 3)
      ∧ ((mode main 3 ⟨2, 15, 32⟩).core.issue.pass = false ∧ Claims.allFull (mode main 3 ⟨2, 15, 32⟩) [Claims.A 3] = true ∧ ¬ Claims.advances (mode main 3 ⟨2, 15, 32⟩) 3) := by
  unfold Claims.advances; decide

theorem test_witness_RegisterLandings : main.me.isComp = false ∧ (31 : BitVec 5) ≠ 0 ∧ (30 : BitVec 5) ≠ 31 := by decide

/-! ### Witnesses: control -/

/-- A loop. -/
def aLoop : Loop := ⟨0, 0, 2, true⟩

theorem test_witness_Transfers :
    (Claims.takes main 0 true = false ∧ Claims.takes main 0 false = true ∧ main.core.regs.sIsFull 31 = true)
      ∧ (onRegs main fun r => { r with loops := [aLoop] }).core.regs.loops ≠ []
      ∧ (main.core.regs.loops = [] ∧ main.core.issue.pass = false)
      ∧ ((setS main 31 0xFFE0).core.regs.sIsFull 31 = true ∧ ((setS main 31 0xFFE0).core.regs.sVal 31).toNat % (Claims.bundleBytes main).toNat = 0)
      ∧ (((setS main 31 0xFFFF).core.regs.sVal 31).toNat % (Claims.bundleBytes main).toNat ≠ 0 ∧ (setS main 31 0xFFFF).core.issue.pass = false)
      ∧ (((setS comp 7 8).core.regs.sVal 7).toNat % (Claims.bundleBytes comp).toNat = 0)
      ∧ (((setS comp 7 4).core.regs.sVal 7).toNat % (Claims.bundleBytes comp).toNat ≠ 0) := by decide +kernel

/-- Four loops. -/
def fourLoops : State := onRegs main fun r => { r with loops := [aLoop, aLoop, aLoop, aLoop], countQ := [3] }

theorem test_witness_LoopIssue :
    ((onRegs main fun r => { r with loops := [aLoop, aLoop, aLoop], countQ := [3] }).core.regs.loops.length < 4 ∧ main.core.regs.sIsFull 31 = true)
      ∧ (onRegs main fun r => { r with countQ := [3] }).core.regs.countQ = 3 :: []
      ∧ (main.core.regs.countQ = [] ∧ main.core.issue.pass = false)
      ∧ (4 ≤ fourLoops.core.regs.loops.length ∧ fourLoops.core.issue.pass = false ∧ fourLoops.core.regs.sIsFull 31 = true ∧ fourLoops.core.regs.countQ ≠ []) := by decide

theorem test_witness_NextBundle :
    (Regs.zero.loops = [] ∧ Regs.zero.pend = none ∧ ({ Regs.zero with pend := some ⟨64, 2⟩ } : Regs).pend = some ⟨64, 2⟩
        ∧ ({ Regs.zero with pend := some ⟨64, 1⟩ } : Regs).pend = some ⟨64, 1⟩)
      ∧ (({ Regs.zero with loops := [⟨0, 0, 2, true⟩] } : Regs).loops = [] ++ [⟨0, 0, 2, true⟩] ∧ Regs.zero.pc = (⟨0, 0, 2, true⟩ : Loop).stop
        ∧ (⟨0, 0, 2, true⟩ : Loop).count ≠ 1)
      ∧ (({ Regs.zero with loops := [⟨0, 0, 1, false⟩] } : Regs).loops = [] ++ [⟨0, 0, 1, false⟩] ∧ (⟨0, 0, 1, false⟩ : Loop).count = 1)
      ∧ ({ Regs.zero with pc := 32 } : Regs).pc ≠ (⟨0, 0, 1, false⟩ : Loop).stop := by decide

theorem test_witness_NopAndEnd : (onCore main fun x => { x with issue := { x.issue with ended := true } }).core.issue.ended = true := by decide

/-- R98: the second delay slot is followed by the target. -/
theorem test_delay_slots : (({ Regs.zero with pc := 0x40, pend := some ⟨0x100, 1⟩ } : Regs).advance 32 .seq false).pc = 0x100 := by decide

/-! ### Witnesses: the V slots -/

theorem test_witness_Elements : (List.range 512).length = 1024 / 2 ∧ 127 < 1024 / 8 ∧ 7 < 8 := by decide +kernel

theorem test_witness_VectorResult :
    ([.vadd 63 1 2 .i8 0, .vsub 63 1 2 .fp64 15, .vmul 1 2 3 .bf16 0, .vmin 1 2 3 .i64 0, .vmax 1 2 3 .fp16 0, .vminn 1 2 3 .ui8 0, .vmaxn 1 2 3 .fp32 0,
      .vfma 1 2 3 .fp64 0, .vfms 1 2 3 .fp16 0, .vabs 1 2 .i8 0, .vneg 1 2 .fp32 0, .vaddSat 1 2 3 .ui32 0, .vsubSat 1 2 3 .i64 0, .vand 1 2 3 .w8 0, .vor 1 2 3 .w64 0,
      .vxor 1 2 3 .w8 0, .vandn 1 2 3 .w8 0, .vshl 1 2 3 .w8 0, .vshr 1 2 3 .w16 0, .vsra 1 2 3 .w32 0, .vfsh 1 2 3 .w64 0, .vbfx 1 2 3 .w8 0, .vmov 1 2 .w8 0,
      .vspl 1 true 31 .w64 0, .vidx 1 .w8 0, .vcls 1 2 .fp64 0, .vscale 1 2 3 .fp32 0, .vln 1 2 .fp32 0, .vexp 1 2 .fp16 0, .vlog2 1 2 .bf16 0, .vexp2 1 2 .fp32 0,
      .vrcp 1 2 .fp32 0, .vrsq 1 2 .fp32 0, .vsqrt 1 2 .fp32 0, .vtanh 1 2 .fp32 0, .vsigm 1 2 .fp32 0] : List Instr).all (tabled Claims.vectorRow main) = true := by decide

theorem test_witness_VectorOther :
    1023 < 1024 ∧ Claims.allFull main [Claims.S 31 true, Claims.S 1] = true ∧ main.me.isComp = false
      ∧ (Instr.vcvt 63 1 .fp64 .int4 false .sr).wellFormed = true ∧ 127 < 8192 / Nat.max (fmtBits .int4) (fmtBits .fp64)
      ∧ 2047 < 8192 / Nat.max (fmtBits .int4) (fmtBits .int4) := by decide +kernel

/-- The last 1,024 bytes of the bank that a task of one bank may use. -/
def lastLine : State := setA main 31 0xF000000FFC00

/-- A store in flight in debug pending mode over the first word of the scratchpad, and a unit there with an uncorrectable error. -/
def pendingStore : State := setA (onRegs main fun r => { r with flight := [⟨1, .store .s 0 7 15 true, 0⟩] }) 31 0xF00000000000
def badUnit : State := setA (onCore main fun x => { x with badUnits := [15, 3] }) 31 0xF00000000000

/-- Firmware runs for a trap whose captured state holds one result in flight. -/
def firmware (l : List InFlight := [⟨3, .s 1 5, 0⟩]) : State :=
  onCore (status main 1) fun x => { x with life := .supervisor, captured := some { pend := none, shadow := 0, loops := [], vrb := 1, prb := 1, flight := l } }

theorem test_witness_VectorMemory :
    (lastLine.me.isComp = false ∧ Claims.allFull lastLine [Claims.A 31] = true ∧ Claims.advances lastLine 31 ∧ Claims.inWindow lastLine (Claims.vaddr lastLine 31 0) 1024 64
        ∧ Claims.readable lastLine 0xFFC00 1024)
      ∧ main.rbWait 15 = 0
      ∧ ((onRegs main fun r => { r with flight := [⟨11, .rb 15 0, 0⟩] }).rbWait 15 ≠ 0 ∧ (onRegs main fun r => { r with flight := [⟨11, .rb 15 0, 0⟩] }).core.issue.pass = false
        ∧ (onRegs main fun r => { r with flight := [⟨11, .rb 15 0, 0⟩] }).core.regs.flight = [⟨11, .rb 15 0, 0⟩])
      ∧ ((firmware [⟨11, .rb 15 0, 0⟩]).rbWait 15 = 11 ∧ (firmware [⟨11, .rb 15 0, 0⟩]).core.issue.pass = false)
      ∧ (Claims.allFull (mode main 31 ⟨2, 15, 32⟩) [Claims.A 31] = true ∧ ¬ Claims.advances (mode main 31 ⟨2, 15, 32⟩) 31)
      ∧ ((Claims.vaddr (setA main 31 0xF00000000004) 31 0).toNat % 64 ≠ 0)
      ∧ ((Claims.vaddr (setA main 31 0xF000000FFC40) 31 0).toNat % 64 = 0 ∧ ¬ Claims.inWindow (setA main 31 0xF000000FFC40) (Claims.vaddr (setA main 31 0xF000000FFC40) 31 0) 1024 64)
      ∧ (Claims.inWindow pendingStore (Claims.vaddr pendingStore 31 0) 1024 64 ∧ pendingStore.pendingWord 0 1024 = some 0)
      ∧ (Claims.inWindow badUnit (Claims.vaddr badUnit 31 0) 1024 64 ∧ badUnit.pendingWord 0 1024 = none ∧ 3 ∈ badUnit.core.badUnits ∧ 0 / 64 ≤ 3 ∧ 3 < (0 + 1087) / 64
        ∧ ∀ k ∈ badUnit.core.badUnits, 0 / 64 ≤ k → 3 ≤ k) := by
  unfold Claims.advances Claims.inWindow Claims.readable; decide +kernel

/-- R202, R358: firmware finds the entry of a captured MHAND pending, and R132 a captured store. -/
theorem test_pending_captured : (firmware [⟨11, .rb 15 0, 0⟩]).rbWait 15 = 11 ∧ (firmware [⟨1, .store .s 64 7 15 true, 0⟩]).pendingWord 60 8 = some 64 := by decide +kernel

/-! ### Witnesses: full and empty registers, memory -/

/-- A core with S5 empty. -/
def empty5 : State := onRegs main fun r => { r with sFull := ~~~0x20#32 }

theorem test_witness_EmptyRegister :
    (Claims.row (.add 1 5 3 false true) = some ⟨[Claims.S 5, Claims.S 3 true, Claims.S 1], 1, fun s => .s 1 (s.core.regs.sVal 5 + s.core.regs.sVal 3), fun _ => 0⟩
        ∧ empty5.core.issue.pass = false ∧ (Claims.S 5).full empty5 = false ∧ (Claims.S 5).trap = false)
      ∧ (Claims.row (.add 1 4 5 false true) = some ⟨[Claims.S 4] ++ Claims.S 5 true :: [Claims.S 1], 1, fun s => .s 1 (s.core.regs.sVal 4 + s.core.regs.sVal 5), fun _ => 0⟩
        ∧ Claims.allFull empty5 [Claims.S 4] = true ∧ (Claims.S 5 true).full empty5 = false ∧ (Claims.S 1).full empty5 = true) := by
  exact ⟨⟨rfl, by decide, by decide, by decide⟩, rfl, by decide, by decide, by decide⟩

/-- A store of 4 bytes in an earlier bundle, and a load in flight. -/
def aStored (ac : BitVec 2) (off : Nat) : LocalStore := { no := 0, acc := { path := 0, ac := ac, off := off, size := 4, now := false }, data := 0, mask := 0xF }
def inFlightLoad : LocalLoad := ⟨{ path := 0, ac := 0, off := 8, size := 8, now := false }, 3, false, 3, .s 1 0⟩

theorem test_witness_LocalAccess :
    (Claims.allFull (setA main 2 0xF000000FFFF8) [Claims.A 2, Claims.S 31] = true ∧ Claims.advances (setA main 2 0xF000000FFFF8) 2
        ∧ Claims.inWindow (setA main 2 0xF000000FFFF8) (Claims.address (setA main 2 0xF000000FFFF8) 2 3 0) (2 ^ 3) (2 ^ 3)
        ∧ Claims.readable (setA main 2 0xF000000FFFF8) 0xFFFF8 (2 ^ 3))
      ∧ (0xF00000000000 ≤ (Claims.address (setA main 2 0xF00000000001) 2 1 0).toNat ∧ (Claims.address (setA main 2 0xF00000000001) 2 1 0).toNat < 0xF00000200000
        ∧ (Claims.address (setA main 2 0xF00000000001) 2 1 0).toNat % 2 ^ 1 ≠ 0 ∧ (setA main 2 0xF00000000001).core.issue.pass = false)
      ∧ ((Claims.address (setA main 2 0xF00000100000) 2 0 0).toNat % 2 ^ 0 = 0
        ∧ 0xF00000000000 + (setA main 2 0xF00000100000).core.window (setA main 2 0xF00000100000).me.isComp < (Claims.address (setA main 2 0xF00000100000) 2 0 0).toNat + 2 ^ 0)
      ∧ (Claims.inWindow (setS comp 2 0xF0000003FFF8) (Claims.address (setS comp 2 0xF0000003FFF8) 2 3 0) 8 8 ∧ Claims.advances comp 2
        ∧ Claims.allFull comp [Claims.A 2, Claims.S 4] = true)
      ∧ (∀ q ∈ [inFlightLoad], q.acc.now = true ∨ q.acc.passedBy (aStored 1 4).acc = false)
      ∧ (0xF00000000000 ≤ (Claims.address (setA (mode main 2 ⟨2, 15, 32⟩) 2 0xF00000000000) 2 3 0).toNat ∧ ¬ Claims.advances (setA (mode main 2 ⟨2, 15, 32⟩) 2 0xF00000000000) 2
        ∧ Claims.allFull (setA (mode main 2 ⟨2, 15, 32⟩) 2 0xF00000000000) [Claims.A 2, Claims.S 31] = true ∧ Claims.advances (setA main 2 0xF00000000001) 2)
      ∧ (Claims.inWindow pendingStore (Claims.address pendingStore 31 3 0) 8 8 ∧ pendingStore.pendingWord 0 8 = some 0)
      ∧ (Claims.inWindow badUnit (Claims.address badUnit 31 3 24) 8 8 ∧ badUnit.pendingWord 192 8 = none ∧ 3 ∈ badUnit.core.badUnits ∧ 3 = 192 / 64
        ∧ Claims.allFull badUnit [Claims.A 31, Claims.S 30] = true ∧ Claims.advances badUnit 31) := by
  unfold Claims.advances Claims.inWindow Claims.readable; decide +kernel

/-- R305: a load of class 0 may pass an earlier store of class 1 to its bytes, not one of class 0, nor one to other bytes, nor one of its own bundle, nor one before a FENCE of both
paths; a FENCE that names path V alone orders no S accesses. -/
theorem test_alias_classes : let b : ScratchAccess := { path := 0, ac := 0, off := 8, size := 8 }
    let after (t : LocalStore) : State := onRegs main fun r => { r with stores := [t] }
    (after (aStored 1 12)).races b = true ∧ (after (aStored 0 12)).races b = false ∧ (after (aStored 1 16)).races b = false
      ∧ (onRegs main fun r => { r with stores := [{ aStored 1 12 with acc := { (aStored 1 12).acc with now := true } }] }).races b = false
      ∧ ((after (aStored 1 12)).fenceLocal 3 3).races b = false ∧ ((after (aStored 1 12)).fenceLocal 2 2).races b = true
      ∧ (((after (aStored 1 12)).trapEnter 0x10 0 0).trapReturn).races b = false := by decide +kernel

/-- R307: an S load may pass an engine's write of its bytes until a FENCE names path C at its source and path S at its destination. -/
theorem test_engine_write : let b : ScratchAccess := { path := 0, ac := 0, off := 8, size := 8 }
    let s : State := onRegs main fun r => { r with stores := [{ aStored 0 12 with acc := { (aStored 0 12).acc with path := 3 }, old := some [1, 2, 3, 4] }] }
    s.races b = true ∧ (s.fenceLocal 0x08 0x02).races b = true ∧ (s.fenceLocal 0x08 0x01).races b = false := by decide +kernel

/-- A main core that has the page of 0x10000, with an address in A2. -/
def at2 (va : Word) : State := setA (mapped main) 2 va

theorem test_witness_GlobalAccess :
    (Claims.allFull (at2 0x1FFF8) [Claims.A 2, Claims.S 31] = true ∧ Claims.advances (at2 0x1FFF8) 2 ∧ Claims.outside (Claims.address (at2 0x1FFF8) 2 3 0)
        ∧ Claims.translates (at2 0x1FFF8) (Claims.address (at2 0x1FFF8) 2 3 0) (2 ^ 3) false page ∧ Claims.translates (at2 0x1FFF8) (Claims.address (at2 0x1FFF8) 2 3 0) (2 ^ 3) true page)
      ∧ Claims.outside 0xEFFFFFFFFFFF ∧ Claims.outside 0xF00000200000
      ∧ ((at2 0x10001).core.issue.pass = false ∧ (Claims.address (at2 0x10001) 2 3 0).toNat % 2 ^ 3 ≠ 0)
      ∧ ((Claims.address (at2 0x1000000000000) 2 3 0).toNat % 2 ^ 3 = 0 ∧ bits (Claims.address (at2 0x1000000000000) 2 3 0) 48 16 ≠ 0 ∧ Claims.outside (Claims.address (at2 0x1000000000000) 2 3 0))
      ∧ (bits (0x20000 : Word) 48 16 = 0 ∧ (ready (at2 0x20000)).cached 0x20000 false = none ∧ (ready (at2 0x20000)).walk 0x20000 = .error .absent
        ∧ (at2 0x20000).cached 0x20000 false = none ∧ (at2 0x20000).walk 0x20000 = .error .wait) := by
  unfold Claims.advances Claims.outside Claims.translates; decide +kernel

/-- The page without rights, and one whose frame lies in the management window. -/
def denied : State := onCore (setA main 2 0x10000) fun x => { x with tlb := [⟨1, 1, 5, 1, 1, true⟩] }
def managed : State := onCore (setA main 2 0x10000) fun x => { x with tlb := [⟨1, 1, 0x300000000, 7, 1, true⟩] }

/-- The page lies in the core's own scratchpad, through region 0x1, and an address of its last 8 bytes is in A2; so too with a store pending there, and with an
uncorrectable error. -/
def peerPage : TlbEntry := ⟨1, 1, 0x100000000, 7, 1, true⟩
def ownPage (s : State) : State := onCore (setA s 2 0x1FFF8) fun x => { x with tlb := [peerPage] }

theorem test_witness_GlobalAccess_own :
    (Claims.translates (ownPage main) (Claims.address (ownPage main) 2 3 0) 8 true peerPage ∧ Claims.ownAt (ownPage main) (Claims.at (ownPage main) (Claims.address (ownPage main) 2 3 0) peerPage) 8 0xFFF8
        ∧ Claims.readable (ownPage main) 0xFFF8 8)
      ∧ ((ownPage (onRegs main fun r => { r with flight := [⟨1, .store .s 0xFFFC 7 15 true, 0⟩] })).pendingWord 0xFFF8 8 = some 0xFFFC ∧ main.core.issue.pass = false)
      ∧ ((ownPage (onCore main fun x => { x with badUnits := [0x3FF] })).pendingWord 0xFFF8 8 = none ∧ ¬ Claims.readable (ownPage (onCore main fun x => { x with badUnits := [0x3FF] })) 0xFFF8 8)
      ∧ ¬ Claims.ownAt (at2 0x1FFF8) (Claims.at (at2 0x1FFF8) 0x1FFF8 page) 8 0xFFF8 := by
  unfold Claims.translates Claims.ownAt Claims.readable; decide +kernel

/-- Tables whose root entry for address 0 belongs to job 1 and whose leaf entry maps page 1 to frame 5: the root at 0, the middle table at 0x10000, the last at 0x20000. -/
def tableBytes : List (Nat × Byte) :=
  (List.zip (List.range 8) (leBytes 8 0x204001)) ++ ((List.zip (List.range 8) (leBytes 8 0x400001)).map fun x => (0x10000 + x.1, x.2))
    ++ ((List.zip (List.range 8) (leBytes 8 0xA00027)).map fun x => (0x20008 + x.1, x.2))
def tables (s : State) : State := { s with mem := tableBytes }

theorem test_witness_GlobalAccess_refused :
    (denied.cached 0x10000 true = some ⟨1, 1, 5, 1, 1, true⟩ ∧ denied.rights denied.who true ⟨1, 1, 5, 1, 1, true⟩ = some .perm ∧ (Claims.address denied 2 3 0).toNat % 2 ^ 3 = 0)
      ∧ (managed.cached 0x10000 false = some ⟨1, 1, 0x300000000, 7, 1, true⟩ ∧ managed.rights managed.who false ⟨1, 1, 0x300000000, 7, 1, true⟩ = none
        ∧ managed.physCheck managed.who false ((⟨1, 1, 0x300000000, 7, 1, true⟩ : TlbEntry).leafAt managed 0x10000).pa (2 ^ 3) = some .perm)
      ∧ ((tables (ready main)).cached 0x10000 false = none ∧ ∃ e p, (tables (ready main)).walk 0x10000 = .ok (e, p)
        ∧ (tables (ready main)).rights (tables (ready main)).who false e = none) := by
  exact ⟨by decide +kernel, by decide +kernel, by decide +kernel, ⟨1, 1, 5, 0xA00027, 1, false⟩, 0x20008, by decide +kernel, by decide +kernel⟩

/-- A load that waits for memory, of a good line and of a poisoned one. -/
def loading (lines : Sparse LineMeta) : State := { ready (onCore main fun x => { x with memq := [aLoad] }) with lines := lines }

theorem test_witness_GlobalAccess_performs :
    ((loading []).mayPerform 0 = some aLoad ∧ aLoad.op = .load 4 ⟨0x10000, 0x50000, 0, true⟩ 0 3 false ∧ aLoad.sup = false ∧ region 0x50000 = .device 0 ∧ 0x50000 % 128 + 2 ^ 3 ≤ 128
        ∧ ((loading []).lineMeta (0x50000 / 128)).poison = false ∧ (loading []).core.captured = none ∧ (loading []).core.l1 = [] ∧ (loading []).others = [])
      ∧ ((loading [(0xA00, ⟨0, true⟩)]).mayPerform 0 = some aLoad ∧ ((loading [(0xA00, ⟨0, true⟩)]).lineMeta (0x50000 / 128)).poison = true) := by decide +kernel

theorem test_witness_VersionedIssue :
    (Claims.allFull (at2 0x10000) [Claims.A 2 true, Claims.S 3, Claims.S 4] = true ∧ Claims.slotsFree (at2 0x10000) 0xFF ∧ Claims.slotsFree (at2 0x10000) (1#8 <<< 7))
      ∧ (Claims.outside ((at2 0x10000).core.regs.aVal 2) ∧ versioned (Claims.at (at2 0x10000) ((at2 0x10000).core.regs.aVal 2) page).pa.toNat = true
        ∧ Claims.translates (at2 0x10000) ((at2 0x10000).core.regs.aVal 2) 8 false page ∧ Claims.translates (at2 0x10000) ((at2 0x10000).core.regs.aVal 2) 8 true page
        ∧ (at2 0x10000).core.regs.status.getLsbD 1 = false) := by
  unfold Claims.outside Claims.translates Claims.slotsFree; decide +kernel

/-! ### Witnesses: special registers and traps -/

theorem test_witness_SpecialRead :
    main.core.regs.sIsFull 31 = true ∧ (0x077, 0) ∈ Claims.specials main ∧ (0x040, 0) ∈ Claims.specials main ∧ (0x000, 0) ∈ Claims.specials main
      ∧ ((0x003 : BitVec 12) ∉ (Claims.specials main).map Prod.fst ∧ (0x078 : BitVec 12) ∉ (Claims.specials main).map Prod.fst ∧ main.core.issue.pass = false) := by decide +kernel

theorem test_witness_SpecialWrite :
    (main.core.regs.sIsFull 31 = true ∧ (0x077 : BitVec 12) ∈ Claims.writable)
      ∧ ((0x062 : BitVec 12) ∈ Claims.supervisorOnly ∧ (status main 1).core.regs.status.getLsbD 0 = true)
      ∧ ((ready main).feature 4 = true ∧ (ready main).core.regs.sIsFull 1 = true)
      ∧ ((0x022 : BitVec 12) ∉ Claims.writable ∧ (0x022 : BitVec 12) ∉ Claims.supervisorOnly ∧ main.core.issue.pass = false)
      ∧ main.core.regs.status.getLsbD 0 = false ∧ 63 ≥ 6 ∧ 2 < 3 := by decide +kernel

/-- A report that is due, and a trap that firmware has raised. -/
def reported : State := onCore main fun x => { x with reports := [⟨0x11, 7⟩] }
def fwTrapped : State := onCore (ready firmware) fun x => { x with fwTrap := some ⟨0x10, 7⟩ }

theorem test_witness_TrapInstructions :
    (reported.core.reports = ⟨0x11, 7⟩ :: [] ∧ reported.core.task.isSome = true ∧ reported.sup = false ∧ reported.core.life = .running)
      ∧ (fwTrapped.core.fwTrap = some ⟨0x10, 7⟩ ∧ fwTrapped.sup = true ∧ fwTrapped.core.task.isSome = true
        ∧ (State.trapEnter (onCore fwTrapped fun x => { x with fwTrap := none }) 0x10 7 fwTrapped.core.regs.pc).held = fwTrapped.held) := by decide +kernel

/-- R361: firmware's TRAP is taken at its next boundary and frees the core. -/
theorem test_firmware_trap : (match exec (.trapEntry fwTrapped.me 0x10 7) fwTrapped with
    | .next t => t.core.task.isNone
    | _ => false) = true := by decide +kernel

theorem test_witness_TrapEntry : main.sup = false ∧ (status main 1).sup = true ∧ (status main 1).core.task = some task ∧ 63 ≠ 0 := by decide +kernel

theorem test_witness_TrapReturn :
    firmware.sup = true ∧ (main.sup = false ∧ main.core.issue.pass = false)
      ∧ (firmware.core.captured = some { pend := none, shadow := 0, loops := [], vrb := 1, prb := 1, flight := [⟨3, .s 1 5, 0⟩] } ∧ ∀ f ∈ [(⟨3, .s 1 5, 0⟩ : InFlight)], f.left ≠ 0)
      ∧ (∃ v, ∃ f ∈ [(⟨0, .late 4 9, 0⟩ : InFlight), ⟨2, .s 1 5, 0⟩], f.left = 0 ∧ f.what = .late 4 v) := by
  exact ⟨by decide +kernel, by decide +kernel, by decide +kernel, 9, ⟨0, .late 4 9, 0⟩, by decide +kernel, rfl, rfl⟩

/-- R359, R360: a value that arrived while firmware ran is in its register before the first bundle issues, and the rest stays in flight. -/
theorem test_arrived : let t := (firmware [⟨0, .late 4 9, 0⟩, ⟨2, .s 1 5, 0⟩]).trapReturn
    t.core.regs.sVal 4 = 9 ∧ t.core.regs.sIsFull 4 = true ∧ t.core.regs.flight = [⟨2, .s 1 5, 0⟩] ∧ t.core.regs.vrb = 1 ∧ t.sup = false := by decide +kernel

/-- R358: a trap in task mode goes on at offset 0 of the firmware in supervisor mode, with the pc saved. -/
theorem test_trap_entry : let t := main.trapEnter 0x11 7 0x40
    t.sup = true ∧ t.core.regs.pc = 0 ∧ t.core.regs.trapPc = 0x40 ∧ t.core.regs.trapCause = 0x11 ∧ t.core.regs.trapVal = 7 := by decide +kernel

/-! ### Witnesses: engine commands -/

/-- A descriptor of eight words, lowest first. -/
def desc (ws : List Nat) : BitVec 256 := ws.reverse.foldl (fun d w => d * 0x100000000 + BitVec.ofNat 256 w) 0

/-- A core whose Y0 and Y1 hold two descriptors. -/
def withY (a b : List Nat) : State := onRegs (ready main) fun r => { r with y := (r.y.set 0 (desc a)).set 1 (desc b) }

/-- A command's issue codes are none and its engine accepts it. -/
def goes (i : Instr) (s : State) : Prop := ∃ c, Claims.command i = some c ∧ Claims.accepts s c ∧ c.codes s = []

/-- Descriptors: a copy of one INT32 in the scratchpad, a selection of one of FP32, a gather from memory, a scatter to it, a push of one count, an all-reduce. -/
def yCopy : State := withY [0, 0x180000, 64, 0x180000, 0x10001, 0, 0, 0] []
def ySel : State := withY [0, 0x400000, 64, 0x700000, 0x10001, 0, 0, 1] []
def yGath : State := withY [0x10000, 0x1B0000, 64, 0x180000, 0x10001, 0, 0, 0] [128, 0x180000, 0, 0, 0, 0, 0, 0]
def yScat : State := withY [64, 0x180000, 0x10000, 0x1B0000, 0x10001, 0, 0, 0] [128, 0x180000, 0, 0, 0, 0, 0, 0]
def yPush : State := withY [0, 0x180000, 0, 0, 0x10001, 0, 0, 0] []
def yColl : State := withY [0, 0x400000, 64, 0x400000, 0x10001, 0, 0, 0] []
def yLoad : State := withY [0, 0, 0, 0x050000, 0x10001, 0, 0, 0] []
def yProd : State := withY [0, 0, 0, 0x1C0000, 0x10001, 0, 0, 0] []
def yHot : State := withY [0, 0x180000, 0, 0x1C0000, 0x10001, 0, 0, 0] []

theorem test_witness_EngineIssue_copies :
    goes (.cpy 63 0 0 0 .none) yCopy ∧ goes (.csel 63 0 0 0 .none) ySel ∧ goes (.cgth 63 0 0 0 .none) yGath ∧ goes (.csct 63 0 0 0 .none) yScat
      ∧ goes (.cqf 63 0 0 0 .none) yPush ∧ goes (.ccol 63 0 0 0 .none) yColl := by
  unfold goes Claims.accepts
  exact ⟨⟨_, rfl, by decide +kernel, by decide +kernel⟩, ⟨_, rfl, by decide +kernel, by decide +kernel⟩, ⟨_, rfl, by decide +kernel, by decide +kernel⟩,
    ⟨_, rfl, by decide +kernel, by decide +kernel⟩, ⟨_, rfl, by decide +kernel, by decide +kernel⟩, ⟨_, rfl, by decide +kernel, by decide +kernel⟩⟩

theorem test_witness_EngineIssue_matrix :
    goes (.mldw 1 0 0 0 .sem) yLoad ∧ goes (.mma 1 0 0 0 .none) yProd ∧ goes (.mmag 1 0 0 0 .none) yProd ∧ goes (.mmah 1 0 0 0 .none) yHot
      ∧ goes (.mzero 1 0 0 0 .none) yProd := by
  unfold goes Claims.accepts
  exact ⟨⟨_, rfl, by decide +kernel, by decide +kernel⟩, ⟨_, rfl, by decide +kernel, by decide +kernel⟩, ⟨_, rfl, by decide +kernel, by decide +kernel⟩,
    ⟨_, rfl, by decide +kernel, by decide +kernel⟩, ⟨_, rfl, by decide +kernel, by decide +kernel⟩⟩

/-- A queued copy of engine C0, and a running matrix command that writes tile 1. -/
def queuedCopy (n : Nat) : Cmd := ⟨.cpy, .c0, 0, [], [], desc [0, 0x180000, 64, 0x180000, 0x10001, 0, 0, 0], 0, .none, 0, 0, 0, n, .queued, 0, none, 0, 0xFFFF0000, 0, false, false⟩
def zeroing : Cmd := ⟨.mzero, .m, 7, [], [], desc [0, 0, 0x4000, 0x1C0000, 0x10001, 0, 0, 0], 0, .none, 0, 0, 0, 0, .running, 0, none, 0, 0xFFFF0000, 0, false, false⟩

/-- The C0 slot of a core whose C0 queue is full. -/
def fullQueue : State := onCore yCopy fun x => { x with cmds := (List.range 16).map queuedCopy, issue := { x.issue with slot := .c0 } }

/-- A copy whose target names a weight bank: no copy goes there. -/
def yWrong : State := withY [0, 0x180000, 0, 0x1D0000, 0x10001, 0, 0, 0] []

/-- A copy whose word w1 sets a reserved bit. -/
def ySpare : State := withY [0, 0x1180000, 64, 0x180000, 0x10001, 0, 0, 0] []

theorem test_witness_EngineIssue_stops :
    (∃ c, Claims.command (.cpy 1 0 0 0 .none) = some c ∧ Claims.accepts yWrong c ∧ (0x14 ∈ c.codes yWrong ∧ ∀ k ∈ c.codes yWrong, 0x14 ≤ k) ∧ yWrong.core.issue.pass = false)
      ∧ (∃ c, Claims.command (.cqf 1 0 0 0 .none) = some c ∧ Claims.badField yWrong c 0x14) ∧ (∃ c, Claims.command (.cpy 1 0 0 0 .none) = some c ∧ Claims.badField ySpare c 0x11)
      ∧ ((fullQueue.core.cmds.filter fun o => o.eng == Eng.c0 && (o.st == .queued || o.st == .parked)).length = 16 ∧ fullQueue.core.issue.pass = false) := by
  unfold Claims.accepts Claims.badField
  exact ⟨⟨_, rfl, by decide +kernel, by decide +kernel⟩, ⟨_, rfl, by decide +kernel⟩, ⟨_, rfl, by decide +kernel⟩, by decide +kernel, by decide +kernel⟩

theorem test_witness_OtherIssue :
    (∀ c ∈ main.core.cmds, (1 : BitVec 3).toNat ∉ c.wrts)
      ∧ ((onCore main fun x => { x with cmds := [zeroing] }).core.cmds ≠ [] ∧ (∀ c ∈ (onCore main fun x => { x with cmds := [zeroing] }).core.cmds, (1 : BitVec 3).toNat ∈ c.wrts)
        ∧ main.core.issue.pass = false)
      ∧ (main.core.regs.sIsFull 31 = true ∧ patternOk ((setS main 31 1).core.regs.sVal 31) = true ∧ patternOk (main.core.regs.sVal 31) = false)
      ∧ (main.core.regs.status.getLsbD 1 = false ∧ (onRegs main fun r => { r with countQ := List.replicate 63 1 }).core.regs.countQ.length < 64
        ∧ (onRegs main fun r => { r with countQ := List.replicate 64 1 }).core.regs.countQ.length = 64)
      ∧ (Claims.translates (setS (mapped main) 31 0x1FF80) ((setS (mapped main) 31 0x1FF80).core.regs.sVal 31) 128 true page
        ∧ region (Claims.at (setS (mapped main) 31 0x1FF80) ((setS (mapped main) 31 0x1FF80).core.regs.sVal 31) page).pa.toNat = .device 0)
      ∧ (((setS main 31 15).core.regs.sVal 31).toNat < 16 ∧ 16 ≤ ((setS main 31 16).core.regs.sVal 31).toNat) := by
  unfold Claims.translates; decide +kernel

/-! ### Witnesses: synchronisation -/

theorem test_witness_WakeQueue :
    (main.core.regs.sIsFull 8 = true ∧ main.core.regs.sIsFull 9 = true ∧ main.core.regs.sVal 9 = 0)
      ∧ (((setS (setS main 8 0xFFFFF) 9 1).core.regs.sVal 8).toNat + ((setS (setS main 8 0xFFFFF) 9 1).core.regs.sVal 9).toNat ≤ main.core.window main.me.isComp)
      ∧ ((setS (setS main 8 0x100000) 9 1).core.regs.sVal 9 ≠ 0
        ∧ main.core.window main.me.isComp < ((setS (setS main 8 0x100000) 9 1).core.regs.sVal 8).toNat + ((setS (setS main 8 0x100000) 9 1).core.regs.sVal 9).toNat
        ∧ main.core.issue.pass = false)
      ∧ ((onRegs main fun r => { r with wakeQ := [5] }).core.regs.wakeQ = 5 :: [] ∧ main.core.regs.wakeQ = [])
      ∧ ((onRegs main fun r => { r with comp := r.comp.set 7 (some (64, 8)) }).core.regs.comp = (Vector.replicate 8 none).set 7 (some (64, 8))
        ∧ (∀ p ∈ [63, 72], p < 64 ∨ 64 + 8 ≤ p) ∧ 64 ≤ 71 ∧ 71 < 64 + 8 ∧ (List.replicate 31 (0 : Word32)).length < 32 ∧ 32 ≤ (List.replicate 32 (0 : Word32)).length) := by
  decide +kernel

theorem test_witness_Semaphores :
    (main.core.regs.sIsFull 31 = true ∧ main.core.regs.sIsFull 1 = true ∧ main.core.regs.status.getLsbD 1 = false ∧ ∀ e ∈ main.core.memq, e.op.isWrite = false)
      ∧ (∃ e ∈ (onCore main fun x => { x with memq := [aStore] }).core.memq, e.op.isWrite = true)
      ∧ ((onCore main fun x => { x with adds := [⟨3, 1, 0, 0, 1⟩] }).core.adds.any fun x => decide (x.target.toNat % 2 ^ 8 = main.me.idx.toNat ∧ x.target.toNat / 2 ^ 8 % 4 = main.me.die.toNat)) = true
      ∧ (((setS main 1 0x38F).core.regs.sVal 1).toNat < 2 ^ 10 ∧ ((setS main 1 0x38F).core.regs.sVal 1).toNat % 2 ^ 8 < 144)
      ∧ ¬ (((setS main 1 0x90).core.regs.sVal 1).toNat < 2 ^ 10 ∧ ((setS main 1 0x90).core.regs.sVal 1).toNat % 2 ^ 8 < 144)
      ∧ (main.core.regs.sVal 31).toInt ≤ (main.core.regs.sem[63]).toInt ∧ (main.core.regs.sem[63]).toInt < ((setS main 31 1).core.regs.sVal 31).toInt
      ∧ main.core.issue.pass = false := by decide +kernel

/-- A task alone in a gang of one core, level 0. -/
def ganged : Task := ⟨0x1000, 1, 0, 0x80 <<< 512 ||| 1 <<< 96, 0⟩
def inGang : State := onCore main fun x => { x with task := some ganged }

/-- The same with two tasks in the gang. -/
def inPair : State := onCore main fun x => { x with task := some { ganged with launch := 0x10081 <<< 512 ||| 1 <<< 96 } }

theorem test_witness_Barrier :
    (inGang.core.task = some ganged ∧ ganged.barLevel 0 = true ∧ (∀ e ∈ inGang.core.memq, e.op.isWrite = false) ∧ inGang.allArrived ganged 0 1 = true)
      ∧ (inPair.allArrived { ganged with launch := 0x10081 <<< 512 ||| 1 <<< 96 } 0 1 = false ∧ inPair.core.issue.pass = false
        ∧ ({ ganged with launch := 0x10081 <<< 512 ||| 1 <<< 96 } : Task).barLevel 0 = true)
      ∧ ((inGang.core.regs.arrived[0]) % 2 = 0 ∧ ∃ e ∈ (onCore inGang fun x => { x with memq := [aStore] }).core.memq, e.op.isWrite = true)
      ∧ (ganged.barLevel 7 = false ∧ task.barLevel 0 = false) := by decide +kernel

/-- A decrement of the core on its way: of a TDEC or of a retire action. -/
def fencing (eng : Option Nat) : State := { main with dev := { main.dev with decs := [⟨0x10000, 0x60000, 0, 1, false, some main.me, false, eng, 0⟩] } }

theorem test_witness_FencesAndDrains :
    ((0x01 : BitVec 8).getLsbD 0 = true ∧ (∀ e ∈ main.core.memq, e.op.isValue = true ∧ e.lost = false) ∧ (∀ x ∈ main.dev.decs, x.core ≠ some main.me)
        ∧ (∀ o ∈ (main.die main.me.die).sfxOps, o.core ≠ main.me.idx) ∧ main.dev.hostHeld = [] ∧ main.dev.tdecQ = [])
      ∧ ((∃ e ∈ (onCore main fun x => { x with memq := [aStore] }).core.memq, e.op.isValue = false) ∧ (∀ e ∈ (onCore main fun x => { x with memq := [aStore] }).core.memq, e.lost = false)
        ∧ main.core.issue.pass = false)
      ∧ (main.core.cmds = [] ∧ (∀ e ∈ main.core.memq, e.op.isWrite = false) ∧ main.core.adds = [] ∧ main.core.lostWrites = [] ∧ main.core.lostTokens = [] ∧ main.core.lostAdds = [])
      ∧ (onCore main fun x => { x with lostWrites := [0x50000] }).core.lostWrites = 0x50000 :: []
      ∧ ((onCore main fun x => { x with cmds := [zeroing] }).core.cmds ≠ [] ∧ (∀ c ∈ (onCore main fun x => { x with cmds := [zeroing] }).core.cmds, c.cid ≠ 63)
        ∧ ∃ c ∈ (onCore main fun x => { x with cmds := [zeroing] }).core.cmds, c.cid = 7)
      ∧ ((∀ k ∈ [(0 : BitVec 3).toNat, (1 : BitVec 3).toNat], (0x03 : BitVec 8).getLsbD k = true ∧ (0x03 : BitVec 8).getLsbD k = true)
        ∧ (aStored 1 12).acc.path = 0 ∧ (aStored 1 12).acc.now = false ∧ (aStored 1 12).acc.passedBy { path := 1, ac := 0, off := 0, size := 1024 } = true)
      ∧ ((fencing none).dev.decs = [(⟨0x10000, 0x60000, 0, 1, false, some main.me, false, none, 0⟩ : Dec)] ∧ (0x01 : BitVec 8).getLsbD (if (none : Option Nat).isSome then 3 else 0) = true
        ∧ (fencing (some 2)).dev.decs = [(⟨0x10000, 0x60000, 0, 1, false, some main.me, false, some 2, 0⟩ : Dec)] ∧ (0x08 : BitVec 8).getLsbD (if (some 2).isSome then 3 else 0) = true
        ∧ (fencing (some 2)).core.memq = [] ∧ (fencing (some 2)).core.issue.pass = false)
      ∧ main.fusedCluster main.me = false := by decide +kernel

/-- The scratchpad holds a buffer image at its start: base 64, slots of 64 bytes, 256 of them. -/
def imaged : State := setA (onCore main fun x => { x with scratch := [(0, 64), (4, 64), (9, 1)] }) 4 0xF00000000000

/-- Buffer 7 with its first slot filled, and with none. -/
def buffered (full : List Word32) : State := onRegs main fun r => { r with cb := r.cb.set 7 ⟨true, 64, 64, 256, 1, 0, 0, full⟩ }

theorem test_witness_TablesAndBuffers :
    (main.core.regs.sIsFull 31 = true ∧ Claims.allFull imaged [Claims.A 4 true] = true)
      ∧ (Claims.inWindow imaged (Claims.addr imaged 4) 32 32 ∧ Claims.good imaged (Claims.addr imaged 4) 32 ∧ Claims.inWindow imaged (Claims.addr imaged 4) 64 64
        ∧ Claims.good imaged (Claims.addr imaged 4) 64 ∧ Claims.inWindow imaged (Claims.addr imaged 4) 1024 64 ∧ Claims.good imaged (Claims.addr imaged 4) 1024)
      ∧ (Claims.inWindow imaged (Claims.addr imaged 4) 16 16 ∧ Claims.good imaged (Claims.addr imaged 4) 16 ∧ imaged.cbNamed 7 = false
        ∧ Claims.bufferImage imaged (imaged.localBytes 0 (Claims.addr imaged 4) 16) ∧ ¬ Claims.bufferImage main (main.localBytes 0 0xF00000000000 16))
      ∧ ((setA main 4 0xF00000000010).core.regs.aVal 4).toNat % 32 ≠ 0
      ∧ ((buffered [0]).core.regs.cb[7].configured = true ∧ (buffered [0]).core.regs.cb[7].t ∈ (buffered [0]).core.regs.cb[7].full ∧ main.core.regs.cb[7].configured = false
        ∧ (buffered []).core.regs.cb[7].t ∉ (buffered []).core.regs.cb[7].full ∧ main.core.issue.pass = false) := by
  unfold Claims.inWindow Claims.good Claims.bufferImage; decide +kernel

/-! ### Witnesses: tokens, the suffix memory, protection -/

/-- A main core whose cluster's companion core runs a task of the same job; with n requests waiting there. -/
def served (n : Nat) : State := (ready main).setCore ⟨0, 144⟩ { Core.zero with task := some task, requests := List.replicate n (1, 2) }

/-- A companion core whose cluster's core 11 runs a task of the same job. -/
def serving : State := setS ((ready comp).setCore ⟨0, 11⟩ { Core.zero with task := some task }) 4 11

theorem test_witness_TokenIssue :
    (State.feature { served 0 with dies := main.dies } 1 = true ∧ State.isReady { served 0 with dies := main.dies } 0 20 = false ∧ (served 63).isReady (served 63).me.die 20 = true)
      ∧ ((served 63).me.isComp = false ∧ (served 63).feature 1 = true ∧ (served 63).core.regs.sIsFull 6 = true ∧ (served 63).core.regs.sIsFull 7 = true
        ∧ ((served 63).core.regs.sVal 6).toNat < 2 ^ 48 ∧ (served 63).runsJob (served 63).me.comp (served 63).job = true ∧ (served 63).requestsFull = false
        ∧ (served 63).core.regs.status.getLsbD 1 = false ∧ ∀ e ∈ (served 63).core.memq, e.op.isWrite = false)
      ∧ ((served 64).requestsFull = true ∧ (served 64).core.issue.pass = false ∧ (served 64).feature 1 = true ∧ (served 64).runsJob (served 64).me.comp (served 64).job = true)
      ∧ (∃ e ∈ (onCore (served 0) fun x => { x with memq := [aStore] }).core.memq, e.op.isWrite = true)
      ∧ (main.core.regs.claims.length < 8 ∧ (onRegs main fun r => { r with claims := List.replicate 8 4 }).core.regs.claims.length = 8)
      ∧ (comp.me.isComp = true ∧ 1 ≤ (30 : BitVec 5).toNat ∧ (30 : BitVec 5).toNat ≤ 30 ∧ comp.core.regs.sIsFull 30 = true ∧ comp.core.regs.sIsFull 31 = true
        ∧ (onCore comp fun x => { x with requests := [(1, 2)] }).core.requests = (1, 2) :: [] ∧ comp.core.requests = [] ∧ comp.core.issue.pass = false)
      ∧ ((serving.core.regs.sVal 4).toNat < 144 ∧ (serving.core.regs.sVal 4).toNat / 12 = serving.me.cluster ∧ (∀ e ∈ serving.core.memq, e.op.isWrite = false)
        ∧ (∀ o ∈ (serving.die serving.me.die).sfxOps, o.core ≠ serving.me.idx) ∧ serving.runsJob ⟨0, 11⟩ serving.job = true ∧ (serving.getCore ⟨0, 11⟩).regs.mailbox.length < 8)
      ∧ (setS comp 4 11).runsJob ⟨0, 11⟩ comp.job = false := by decide +kernel

/-- A context number in S4 and an aligned local address in A7; n operations of the core at the unit. -/
def atUnit (n : Nat) (ctx : Word) (bytes : List (Nat × Byte)) : State :=
  setS (setA (onCore { ready main with dies := (ready main).dies.map fun d => { d with sfxOps := List.replicate n ⟨0, 1, false, 0, .stat 5, false, 0, [], 0, false⟩ } }
    fun x => { x with scratch := bytes }) 7 0xF00000000000) 4 ctx

theorem test_witness_SuffixIssue :
    ((atUnit 7 4095 []).feature 0 = true ∧ (atUnit 7 4095 []).isReady (atUnit 7 4095 []).me.die 18 = true ∧ (atUnit 7 4095 []).core.regs.sIsFull 4 = true
        ∧ (((atUnit 7 4095 []).die 0).sfxOps.filter fun o => o.core == (atUnit 7 4095 []).me.idx).length < 8 ∧ ((atUnit 7 4095 []).core.regs.sVal 4).toNat < 4096)
      ∧ (Claims.allFull (atUnit 0 1 []) [Claims.A 7 true] = true ∧ Claims.inWindow (atUnit 0 1 [(1, 1), (8, 1)]) (Claims.addr (atUnit 0 1 [(1, 1), (8, 1)]) 7) 16 16
        ∧ cfgBad (Claims.words ((atUnit 0 1 [(1, 1), (8, 1)]).localBytes 6 0xF00000000000 16) 4) = false)
      ∧ (1 ≤ (16 : BitVec 5).toNat ∧ Claims.inWindow (atUnit 0 1 []) (Claims.addr (atUnit 0 1 []) 7) (4 * (16 : BitVec 5).toNat) 4
        ∧ Claims.words ((atUnit 0 1 []).localBytes 6 0xF00000000000 64) (16 : BitVec 5).toNat = List.replicate 16 0 ∧ (0 : Word32).toNat < 2 ^ 24 ∧ (atUnit 0 1 []).core.regs.status.getLsbD 1 = false)
      ∧ (((setS main 5 0xFFFFFFFFFF80).core.regs.sVal 5).toNat % 128 = 0 ∧ ((setS main 5 0xFFFFFFFFFF80).core.regs.sVal 5).toNat < 2 ^ 48)
      ∧ (4096 ≤ ((atUnit 0 4096 []).core.regs.sVal 4).toNat ∧ (atUnit 0 4096 []).core.regs.sIsFull 5 = true ∧ (atUnit 0 4096 []).core.issue.pass = false)
      ∧ (((atUnit 8 1 []).die 0).sfxOps.filter fun o => o.core == (atUnit 8 1 []).me.idx).length = 8 := by
  unfold Claims.inWindow; decide +kernel

/-- A core that another record of its queue wants: its quantum is over. -/
def wanted : State := let s := ready main
  { s with dies := s.dies.map fun d => { d with queues := d.queues.set 7 [{ task := { task with addr := 0x2000, record := 7 <<< 52 } }] } }

theorem test_witness_ProtectionIssue :
    ((status main 2).core.regs.status.getLsbD 1 = true ∧ (status main 2).core.issue.pass = false ∧ (status main 2).core.regs.sIsFull 6 = true
        ∧ (status main 2).core.regs.countQ.length < 64 ∧ ((setS main 1 0x38F).core.regs.sVal 1).toNat % 2 ^ 8 < 144
        ∧ Claims.translates (setS (status (mapped main) 2) 6 0x10000) ((setS (status (mapped main) 2) 6 0x10000).core.regs.sVal 6) 128 true page)
      ∧ (main.me.isComp = false ∧ main.core.task = some task ∧ (ready main).feature 3 = true)
      ∧ (main.core.regs.sFull = BitVec.allOnes 32 ∧ main.core.regs.aFull = BitVec.allOnes 32 ∧ main.core.regs.flight = [] ∧ (onCore main fun x => { x with quantum := 1 }).yieldRequeues = false
        ∧ (onCore main fun x => { x with quantum := 1 }).core.quantum ≠ 0 ∧ wanted.yieldRequeues = true)
      ∧ ((onCore main fun x => { x with life := .checkpoint }).core.life = .checkpoint ∧ (onCore main fun x => { x with life := .checkpoint }).mayCheckpoint = true ∧ main.core.captured = none
        ∧ main.core.errDue = false ∧ (onCore main fun x => { x with life := .checkpoint, errDue := true }).core.errDue = true
        ∧ (onCore main fun x => { x with life := .checkpoint, errDue := true }).mayCheckpoint = true) := by
  unfold Claims.translates; decide +kernel

/-! ### Witnesses: memory and events -/

theorem test_witness_MemoryCanonical : Memory.wf main.mem = true ∧ ∃ t, step ({ State.reset with agenda := [.event .run] }) = Host.Outcome.next t :=
  ⟨by decide +kernel, _, rfl⟩

theorem test_witness_LineWrite : let s := onCore (ready main) fun x => { x with memq := [aStore] }
    (0x50078 % 128 + (leBytes 8 5).length ≤ 128 ∧ (s.lineMeta (0x50000 / 128)).poison = false ∧ 0x50000 / 128 ∉ s.flaws)
      ∧ (({ s with lines := [(0xA00, ⟨3, true⟩)] } : State).lineMeta 0xA00).poison = true
      ∧ (s.core.memq[0]? = some aStore ∧ aStore.op = .store ⟨0x10000, 0x50000, 0, true⟩ 0 3 0xAB ∧ s.mayPerform 0 = some aStore ∧ region 0x50000 = .device 0
        ∧ 0x50000 % 2 ^ (3 : BitVec 2).toNat = 0) := by decide +kernel

/-- A core of the same job elsewhere, which a remote add names. -/
def otherCore : State := main.setCore ⟨0, 5⟩ { Core.zero with task := some task }

theorem test_witness_CoreEvents :
    ((onCore main fun x => { x with memq := [⟨false, .value 5 7 0, 0, false, false, false⟩] }).core.memq[0]? = some ⟨false, .value 5 7 0, 0, false, false, false⟩
        ∧ main.core.captured = none ∧ main.core.rerun = none ∧ main.core.snapshot = none)
      ∧ (otherCore.getCore ⟨0, 5⟩).issue.due = false
      ∧ ((ready firmware).core.task = some task ∧ ((ready firmware).kill 0 0 0).held = (ready firmware).held)
      ∧ ((onCore otherCore fun x => { x with adds := [⟨3, 1, 5, 0, 1⟩] }).core.adds[0]? = some ⟨3, 1, 5, 0, 1⟩
        ∧ (∀ b ∈ (onCore otherCore fun x => { x with adds := [⟨3, 1, 5, 0, 1⟩] }).core.adds.take 0, b.target ≠ 5) ∧ otherCore.runsJob ⟨0, 5⟩ 1 = true ∧ main.runsJob ⟨0, 5⟩ 1 = false)
      ∧ ((onRegs main fun r => { r with mailbox := [9], claims := [4] }).core.regs.mailbox = 9 :: [] ∧ (onRegs main fun r => { r with mailbox := [9], claims := [4] }).core.regs.claims = 4 :: [])
      ∧ (main.core.task.isSome = true ∧ main.me.isComp = false)
      ∧ (firmware.core.task = some task ∧ firmware.core.regs.status.getLsbD 0 = true ∧ firmware.core.life = .supervisor)
      ∧ (⟨0, 5⟩ : CoreRef) ≠ main.me := by decide +kernel

theorem test_witness_HostRegisterWrites :
    (State.reset.dev.run = false ∧ (ready main).dev.run = true ∧ (0x30000 : Word).toNat % 65536 = 0) ∧ (5 ≤ (7 : BitVec 3).toNat ∧ ¬ 5 ≤ (4 : BitVec 3).toNat)
      ∧ ((1 : Word).getLsbD 0 = true) ∧ ((0x0F : Word).toNat % 256 < 0x10 ∧ ¬ (0x10 : Word).toNat % 256 < 0x10)
      ∧ (((main.die 0).isl[31]).thr = false ∧ ((main.die 0).isl[31]).req < (1 : BitVec 2)) ∧ (4 ≠ 8 ∧ (4 : BitVec 16).toNat % 8 ≠ 0)
      ∧ ¬ Claims.linkHeld main ∧ Claims.linkHeld { main with dev := { main.dev with hostHeld := [.drop] } } ∧ Claims.linkHeld { main with dev := { main.dev with hostHeld := [.reg 0x0300 8 1] } } := by
  refine ⟨by decide +kernel, by decide +kernel, by decide +kernel, by decide +kernel, by decide +kernel, by decide +kernel, ?_, .inr (.inr (.head _)), .inr (.inl ⟨_, _, _, .head _⟩)⟩
  rintro (⟨_, x, h⟩ | ⟨o, n, x, h⟩ | h) <;> cases h

/-- Flow control holds a counter write: the queue holds 1,024. -/
theorem test_witness_HostRegisterWrites_full : Claims.linkHeld { main with dev := { main.dev with tdecQ := List.replicate 1024 0x80, hostHeld := [.tdec 0x80] } } :=
  .inl ⟨by decide +kernel, _, .head _⟩

/-- A device with a counter of two at the record of a decrement. -/
def counted : State := { ready main with
  mem := [(0x60000, 2)]
  dev := { (ready main).dev with decs := [⟨0x10000, 0x60000, 0, 1, true, none, false, none, 0⟩], pclr := some 0xC00 }
  dies := (ready main).dies.map fun d => { d with l2want := some 1 } }

theorem test_witness_HostMemory :
    (main.dev.hostHeld = [] ∧ (0x2FFFFFFFFF : PAddr).toNat + [(5 : Byte)].length ≤ 4 * dieBytes ∧ (0x2FFFFFFFFF : PAddr).toNat % 128 + [(5 : Byte)].length ≤ 128
        ∧ (ready main).channelReady (128 * ((0x2FFFFFFFFF : PAddr).toNat / 128)) = true ∧ (ready main).ckeHolds (128 * ((0x2FFFFFFFFF : PAddr).toNat / 128)) = false
        ∧ ((ready main).lineMeta ((0x2FFFFFFFFF : PAddr).toNat / 128)).poison = false ∧ (0x2FFFFFFFFF : PAddr).toNat / 128 ∉ main.flaws)
      ∧ ((ready main).dev.run = true ∧ (0xFFFFFFFFFF80 : Word).toNat % 128 = 0 ∧ (0xFFFFFFFFFF80 : Word).toNat < 2 ^ 48 ∧ (ready main).dev.tdecQ.length < 1024)
      ∧ (State.reset.dev.run = false ∧ (0x40 : Word).toNat % 128 ≠ 0 ∧ 2 ^ 48 ≤ (0x1000000000000 : Word).toNat)
      ∧ (region ((0x60000 : Word).toNat / 128 % 2 ^ 45 * 128) = .device 0 ∧ main.dev.pclr = none ∧ counted.dev.pclr = some 0xC00 ∧ counted.channelReady (128 * 0xC00) = true ∧ main.channelReady (128 * 0xC00) = false)
      ∧ (counted.dev.decs[0]? = some ⟨0x10000, 0x60000, 0, 1, true, none, false, none, 0⟩ ∧ counted.channelReady 0x60000 = true ∧ 0x60000 % 4 = 0 ∧ (counted.lineMeta (0x60000 / 128)).poison = false
        ∧ 0x60000 / 128 ∉ counted.flaws ∧ BitVec.ofNat 32 (leNat (Sparse.range 0 counted.mem 0x60000 4)) ≠ 1)
      ∧ ((counted.die 1).l2want = some 1 ∧ counted.dieBusy 1 = false ∧ counted.dieBusy 0 = true)
      ∧ ((ready main).reaim 0x2FFFFFFFFF = 0x2FFFFFFFFF ∧ State.reaim { ready main with dev := { (ready main).dev with moved := [(5, 9)] } } 0x50012 = 0x90012) := by decide +kernel

/-- The device with a command in progress. -/
def onDevice (f : Device → Device) : State := { ready main with dev := f (ready main).dev }

theorem test_witness_DeviceCommands :
    (main.dev.keyCmd.getLsbD 16 = false ∧ (onDevice fun d => { d with keyCmd := 0x10000 ||| ((63 : BitVec 6).setWidth 64 <<< 8) ||| (1 : BitVec 2).setWidth 64 }).dev.keyCmd.getLsbD 16 = true)
      ∧ (main.dev.tlbInv = none ∧ (onDevice fun d => { d with tlbInv := some (some 1) }).dev.tlbInv ≠ none)
      ∧ (main.dev.cke.ctl.getLsbD 0 = false ∧ (∃ k < 4, (0x100 : Word).getLsbD (8 + k) = true) ∧ ∀ k < 4, (0x100 : Word).getLsbD (8 + k) = true → (ready main).isReady (BitVec.ofNat 2 k) 21 = true)
      ∧ ((onDevice fun d => { d with cke := ⟨0x201, 0, 0, false⟩ }).dev.cke.ctl.getLsbD 0 = true
        ∧ (∀ k < 4, (0x201 : Word).getLsbD (8 + k) = true → (onDevice fun d => { d with cke := ⟨0x201, 0, 0, false⟩ }).dieBusy (BitVec.ofNat 2 k) = false))
      ∧ ((onDevice fun d => { d with cke := ⟨0x201, 0, 0, true⟩ }).dev.cke.running = true
        ∧ (∀ k < 4, (0x201 : Word).getLsbD (8 + k) = true → ∀ g < 4, (ready main).isReady (BitVec.ofNat 2 k) (12 + g) = true)
        ∧ ¬ ∀ k < 4, (0x201 : Word).getLsbD (8 + k) = true → ∀ g < 4, main.isReady (BitVec.ofNat 2 k) (12 + g) = true)
      ∧ (ready main).dev.run = true ∧ ((21 : BitVec 5).toNat < 22 ∧ (main.die 0).fell.getLsbD 0 = false ∧ (main.die 0).fell.getLsbD 1 = false ∧ (ready main).feature 0 = true ∧ (ready main).feature 2 = true ∧ (ready main).feature 1 = true)
      ∧ ((ready main).isReady 3 17 = true ∧ (ready main).isReady 3 16 = true) := by decide +kernel

theorem test_witness_DeviceReset : main.fwImage.length < 4 ∧ main.dev.fwAddr.toNat % 4096 = 0 ∧ (onDevice fun d => { d with fwLen := 0x4000001 }).dev.fwLen.toNat > 2 ^ 26 := by decide +kernel

theorem test_witness_HostRegistersKept : Claims.changesHost (.add 1 2 3 false false) = false ∧ (∃ t, exec (.add 1 2 3 false false) main = .next t)
    ∧ Claims.changesHost (.taskRetire ⟨0, 0⟩) = false ∧ ∃ t, exec (.taskRetire ⟨0, 0⟩) main = .next t := ⟨rfl, ⟨_, rfl⟩, rfl, ⟨_, rfl⟩⟩

/-! ### Witnesses: the events of engines, scheduler, tasks and dies -/

theorem test_witness_UnitEvents :
    Claims.unitEvent (.taskRetire ⟨0, 0⟩) = true ∧ Memory.wf main.mem = true
      ∧ (State.reset.core.task = none ∧ State.reset.core.cmds = [] ∧ (State.reset.die 3).posts = [] ∧ (State.reset.die 3).sfxOps = [] ∧ State.reset.dev.tdecQ = [] ∧ State.reset.walkNext 3 = none
        ∧ State.reset.core.life ≠ .checkpoint)
      ∧ Instr.pageWalk 3 ∈ [Instr.taskRetire State.reset.me, .pageWalk 3] := by decide +kernel

/-- A queued MZERO of one word, one that must wait for it, and a gather that runs. -/
def zeroQueued (n : Nat) : Cmd := { zeroing with st := .queued, cid := 0, seqNo := n }
def gathering (done : Nat) : Cmd := { queuedCopy 3 with op := .cgth, st := .running, done := done, desc2 := desc [0, 0x1B0000, 0, 0, 0, 0, 0xFFFFC, 0] }
def withCmds (l : List Cmd) : State := onCore (ready main) fun x => { x with cmds := l }

/-- An episode of two members in which this die has rank 0 and expects chunk 0 of member 1. -/
def episode : Episode := { group := 2, num := 0, name := 0, rank := 0, rows := 1, cols := 1, op := 0, raw := true, table := [0x100, 0x200], data := some [0] }

/-- Group 2 is enabled, and its table at 0x7000 names two dies. -/
def grouped : State := { ready main with
  mem := [(0x7000, 2), (0x7009, 1), (0x700A, 1), (0x700B, 2)]
  dev := { (ready main).dev with fabRank := 0x101, fgrp := (ready main).dev.fgrp.set 2 0x7001 } }

theorem test_witness_EngineEvents :
    ((withCmds [zeroQueued 1]).core.cmds = [zeroQueued 1] ∧ (zeroQueued 1).eng = .m ∧ (zeroQueued 1).st = .queued ∧ (zeroQueued 1).preds = []
        ∧ (withCmds [zeroQueued 1]).nextCmd .m = some (zeroQueued 1) ∧ (withCmds [zeroQueued 1]).conflicts (zeroQueued 1) = false ∧ (zeroQueued 1).op = .mzero
        ∧ (withCmds [zeroQueued 1]).core.task.isSome = true)
      ∧ ((withCmds [zeroing, zeroQueued 1]).nextCmd .m = some (zeroQueued 1) ∧ (withCmds [zeroing, zeroQueued 1]).conflicts (zeroQueued 1) = true)
      ∧ ((withCmds [zeroQueued 1]).core.cmds[0]? = some (zeroQueued 1) ∧ (zeroQueued 1).st ≠ .running)
      ∧ ((withCmds [zeroing]).core.cmds[0]? = some zeroing ∧ zeroing.st = .running ∧ zeroing.op = .mzero ∧ zeroing.ret = .none ∧ zeroing.slot = none ∧ zeroing.ohrange = false ∧ zeroing.tflags = 0)
      ∧ ((gathering 0).st = .running ∧ (gathering 0).op = .cgth ∧ (gathering 0).done ≠ descRows (gathering 0).desc * descCols (gathering 0).desc)
      ∧ (descEmpty ({ gathering 0 with desc := desc [0, 0, 0, 0, 0x10000, 0, 0, 0] }).desc = true ∧ (sideB (desc [0, 0, 0, 0, 0x10000, 0, 0, 0])).loc ≠ 6)
      ∧ (grouped.die 1).fuller = [] ∧ (grouped.memberTable 2)[(1 : BitVec 8).toNat]? = some 0x201 ∧ grouped.ownEntry 0x201 = false ∧ (grouped.dev.fgrp[2]).getLsbD 0 = true
      ∧ ((gathering 1).done = descRows (gathering 1).desc * descCols (gathering 1).desc ∧ descEmpty (gathering 1).desc = false ∧ (gathering 1).ret = .none
        ∧ descWord (gathering 1).desc2 6 % 2 ^ 21 + 4 ≤ (withCmds [gathering 1]).core.window false ∧ descWord (gathering 1).desc2 6 % 2 ^ 21 % 64 ≤ 60)
      ∧ (episode.group = 2 ∧ episode.expects false (1 : BitVec 8).toNat 0 = true ∧ (ready main).ownEntry (episode.table.getD (1 : BitVec 8).toNat 0) = false
        ∧ ((({ main with dies := main.dies.set 3 { (main.die 3) with fuller := [episode] } }) : State).die 3).fuller = [episode]) := by decide +kernel

/-- Free cores, and a queue of die 0 with one record of priority 7; its task takes both banks. -/
def wide : Task := { task with addr := 0x2000, record := 7 <<< 52, launch := 2 <<< 32 }
def waiting : State := { ready State.reset with dies := (ready State.reset).dies.set 0 { ((ready State.reset).die 0) with queues := ((ready State.reset).die 0).queues.set 7 [{ task := wide }] } }

/-- A record that any die may run, in die 1's queue. -/
def freeTask : Task := { wide with launch := 4 <<< 512 ||| 2 <<< 32 ||| 1 <<< 96 }
def elsewhere : State := { ready State.reset with dies := (ready State.reset).dies.set 1 { ((ready State.reset).die 1) with queues := ((ready State.reset).die 1).queues.set 7 [{ task := freeTask }] } }

theorem test_witness_SchedulerEvents :
    (queueOrder (waiting.die 0).gen = [] ++ 7 :: (queueOrder false).tail ∧ (waiting.die 0).queue 7 = [] ++ { task := wide } :: []
        ∧ wide.stages = 0 ∧ waiting.placeable wide ⟨0, 143⟩ = true)
      ∧ waiting.coreFree ⟨0, 144⟩ = false
      ∧ (waiting.coreFree ⟨0, 143⟩ = true ∧ (waiting.getCore ⟨0, 143⟩).preload = none ∧ waiting.resumedFor ⟨0, 143⟩ = none
        ∧ (waiting.select ⟨0, 143⟩ (fun _ => true) true).2 = some (.one { task := wide } 7) ∧ wide.bothBanks = true)
      ∧ (elsewhere.coreFree ⟨0, 0⟩ = true ∧ (elsewhere.placeOn ⟨0, 0⟩).2 = false ∧ (elsewhere.placeOn ⟨0, 0⟩).1.reserved ⟨0, 0⟩ = none
        ∧ (State.askDies ((elsewhere.placeOn ⟨0, 0⟩).1.die 0).gen [1, 2, 3] (elsewhere.placeOn ⟨0, 0⟩).1).2 = some freeTask)
      ∧ 4 ≤ (31 : BitVec 5).toNat := by decide +kernel

theorem test_witness_SchedulerEvents_settled : waiting.settleDie 0 = waiting ∧ elsewhere.settleDie 0 = elsewhere := by decide +kernel

/-- A task that has ended, and the same core waiting to be suspended or requeued. -/
def life (l : Life) (s : State := ready main) : State := onCore s fun x => { x with life := l }

/-- The main core's die has a fault ring of device memory at 0x100000. -/
def ringed (s : State) : State := { s with dies := s.dies.map fun d => { d with faultRing := 0x100001 } }

theorem test_witness_TaskEvents :
    ((life .ended).core.task = some task ∧ (life .ended).me.isComp = false ∧ (life .ended).core.life = .ended ∧ (life .ended).core.reports = [] ∧ (life .ended).core.regs.flight = []
        ∧ Claims.settled (life .ended) ∧ (life .ended).core.lostWrites = [] ∧ (life .ended).core.lostTokens = [] ∧ (life .ended).core.lostAdds = [] ∧ task.complAddr = 0 ∧ task.succCount = 0)
      ∧ ((life .supervisor).core.life = .supervisor ∧ (life .supervisor).canPost (life .supervisor).me.die = false)
      ∧ ((ringed (life .supervisor)).canPost (ringed (life .supervisor)).me.die = true ∧ (onCore (ringed (life .supervisor)) fun x => { x with memq := [aLoad] }).core.memq ≠ [])
      ∧ ((onCore (life .suspending) fun x => { x with memq := [aLoad] }).core.life = .suspending ∧ (onCore (life .suspending) fun x => { x with memq := [aLoad] }).core.memq ≠ [])
      ∧ ((life .yielding reported).core.life = .yielding ∧ (life .yielding reported).core.reports ≠ [])
      ∧ (main.core.snapshot = none ∧ (onCore main fun x => { x with snapshot := some Regs.zero }).core.snapshot = some Regs.zero ∧ main.sup = false ∧ main.core.life ≠ .suspending
        ∧ main.core.captured = none ∧ main.core.regs.status.getLsbD 2 = false ∧ main.core.rerun = none ∧ Regs.zero.flight = [] ∧ Regs.zero.ended = false)
      ∧ (life .checkpoint).core.life = .checkpoint
      ∧ ((ringed main).die 0).faultRing.getLsbD 0 = true ∧ (ringed main).channelReady ((ringed main).ringBase 0) = false
      ∧ (ringed (ready main)).channelReady ((ringed (ready main)).ringBase 0) = true ∧ ((ready main).die 0).faultRing.getLsbD 0 = false := by
  unfold Claims.settled; decide +kernel

/-- A context of job 1, configured. -/
def context : SfxCtx := { conf := true, job := 1, quota := 64, pin := 1, minm := 1 }

/-- An append of two tokens to context 5 waits at die 0's unit; with or without the context. -/
def appending (l : List (Nat × SfxCtx)) : State := { ready main with dies := (ready main).dies.map fun d =>
  { d with sfx := l, sfxOps := [⟨0, 1, false, 5, .app [1, 2], false, 0, [], 0, false⟩] } }

/-- A core that waits for the walk of page 1, and a posted entry that waits for room. -/
def walking : State := onCore (tables (ready main)) fun x => { x with walks := [⟨0x10000, true⟩] }
def posting : State := { ringed (ready main) with dies := (ringed (ready main)).dies.map fun d => { d with posts := [⟨task, 0x10, 7, 0⟩] } }

theorem test_witness_DieEvents :
    (((appending [(5, context)]).die 0).sfxOps[0]? = some ⟨0, 1, false, 5, .app [1, 2], false, 0, [], 0, false⟩ ∧ (5 : BitVec 12).toNat ∉ ((appending [(5, context)]).die 0).sfxFlaws
        ∧ ((appending [(5, context)]).die 0).ctx 5 = context ∧ context.fail = false ∧ context.conf = true ∧ context.job = 1 ∧ context.len + [1, 2].length < 2 ^ 24
        ∧ (((appending []).die 0).ctx 5).conf = false ∧ (((appending []).die 0).ctx 5).fail = false)
      ∧ (walking.walkNext walking.me.die = some walking.me ∧ walking.core.walks = ⟨0x10000, true⟩ :: []
        ∧ walking.walk (0x10000 : BitVec 48).toNat = .ok (⟨1, 1, 5, 0xA00027, 1, false⟩, 0x20008) ∧ walking.rights walking.who true ⟨1, 1, 5, 0xA00027, 1, false⟩ = none)
      ∧ (main.core.task = some task ∧ main.sup = false ∧ (status main 1).sup = true ∧ (main.count 0x0C 1).core.base = main.core.base)
      ∧ ((onCore (ready main) fun x => { x with memq := [aLoad] }).mayPerform 0 = some aLoad ∧ (onCore (ready main) fun x => { x with memq := [aStore] }).mayPerform 0 = some aStore)
      ∧ (48 ≤ (48 : BitVec 6).toNat ∧ (47 : BitVec 6).toNat < 48 ∧ ((ready main).getCore ⟨3, 155⟩).task = none ∧ (ready main).dev.run = true ∧ (ready main).feature 1 = true ∧ (ready main).isReady 3 20 = true) := by
  decide +kernel

/-- A posted entry with room, one whose ring has been switched off, and a start that waits. -/
theorem test_witness_DieEvents_postings :
    ((posting.die 0).posts = ⟨task, 0x10, 7, 0⟩ :: [] ∧ posting.canPost 0 = true ∧ (posting.ringFill 0).2 ≠ 255 ∧ region (posting.ringBase 0) = .device 0
        ∧ posting.channelReady (posting.ringBase 0) = true ∧ posting.ringBase 0 + 4096 ≤ 4 * dieBytes ∧ posting.lines = [] ∧ posting.flaws = [])
      ∧ (State.canPost { posting with dies := posting.dies.map fun d => { d with faultRing := 0x100000 } } 0 = false)
      ∧ (State.canPost { posting with mem := [(0x100000, 255)] } 0 = true ∧ (State.ringFill { posting with mem := [(0x100000, 255)] } 0).2 = 255)
      ∧ (onDevice fun d => { d with compHeld := [(7, 0x2000)] }).dev.compHeld = [(7, 0x2000)] ∧ (ready main).dev.compHeld = [] := by
  exact ⟨by decide +kernel, by decide +kernel, by decide +kernel, by decide +kernel, by decide +kernel⟩

/-- A migration moves page 1 of these tables to frame 9. -/
theorem test_witness_DieEvents_migration : let s := tables (ready main); let e : TlbEntry := ⟨1, 1, 5, 0xA00027, 1, false⟩
    (s.walk (0x10000 : BitVec 48).toNat = .ok (e, 0x20008) ∧ e.count = 1 ∧ e.vpn < 2 ^ 32 ∧ s.reaim (e.frame * 2 ^ 16) / 2 ^ 16 = 5 ∧ 5 ≠ (9 : BitVec 36).toNat ∧ s.channelReady (5 * 2 ^ 16) = true ∧ s.channelReady ((9 : BitVec 36).toNat * 2 ^ 16) = true ∧ bits e.leaf 14 6 = 0 ∧ 0x20008 % 8 = 0
        ∧ 0x20008 / 2 ^ 16 ≠ (9 : BitVec 36).toNat ∧ 0x20008 / 2 ^ 16 ≠ e.frame ∧ s.lines = [] ∧ region 0x20008 = .device 0 ∧ (s.lineMeta (0x20008 / 128)).poison = false ∧ 0x20008 / 128 ∉ s.flaws
        ∧ region (e.frame * 2 ^ 16) = .device 0 ∧ region (e.frame * 2 ^ 16 + 65535) = .device 0 ∧ region ((9 : BitVec 36).toNat * 2 ^ 16) = .device 0
        ∧ region ((9 : BitVec 36).toNat * 2 ^ 16 + 65535) = .device 0) := by decide +kernel

/-- A counter write that waits: its address lies in page 1. -/
def queuedWrite : State := { tables (ready main) with dev := { (ready main).dev with tdecQ := [0x10080] } }

theorem test_witness_DieEvents_counters :
    (queuedWrite.translate ⟨none, true⟩ true 0x10080).1.held = queuedWrite.held ∧ queuedWrite.dev.hostHeld = [] ∧ ((tables main).translate ⟨none, true⟩ true 0x10080).2 = .error .wait
      ∧ queuedWrite.dev.tdecQ = 0x10080 :: [] ∧ ((tables (ready main)).translate ⟨none, true⟩ false 0x5000000000).2 = .error .absent
      ∧ (queuedWrite.translate ⟨none, true⟩ true 0x10080).2 = .ok ⟨0x50080, 0, 0, 0⟩ ∧ region 0x50080 = .device 0
      ∧ (queuedWrite.translate ⟨none, true⟩ true 0x10080).1.rootJob 0x10080 ≠ 0 ∧ (queuedWrite.translate ⟨none, true⟩ true 0x10080).1.channelReady 0x50080 = true := by decide +kernel

/-- A core whose text is page 1 of those tables. -/
def textAt1 : State := onRegs (onCore (tables (ready main)) fun x => { x with base := 0x10000 }) fun r => { r with pc := 0x10000 }

theorem test_witness_DieEvents_reload :
    ((textAt1.count 0x0C 1).recBytes task.job 0x10000 (Nat.min 4096 (textAt1.core.textLen - 0))).2 = .ok (List.replicate 32 0)
      ∧ (textAt1.core.regs.pc - textAt1.core.base).toNat / 4096 * 4096 = 0 ∧ (textAt1.count 0x0C 1).core.base = textAt1.core.base ∧ textAt1.sup = false := by decide +kernel

/-! ### Single steps and worked examples of the spec -/

/-- What a step leaves, tested. -/
def after (s : State) (f : State → Bool) : Bool :=
  match step s with
  | .next t => f t
  | _ => false

/-- R138: LI S4, 0xF0 is a core's first instruction after reset, and its result lands at the end of its bundle. -/
theorem test_step_li : after (State.reset.withFetchWord 32 0x144000F0) (fun t => t.core.regs.sVal 4 == 0xF0) = true := by decide +kernel

/-- R155: the bundle of TRAP 5 issues in full, and its report is due. -/
theorem test_step_trap : after (State.reset.withFetchWord 32 0x46000005) (fun t => t.core.reports == [⟨0x10, 5⟩]) = true := by decide +kernel

/-- R69: word 1 is illegal; the trap of cause 0x01 is taken at the bundle, with the slot and the word as its value. -/
theorem test_step_illegal : after (State.reset.withFetchWord 32 1) (fun t => t.sup && t.core.regs.trapCause == 0x01 && t.core.regs.trapVal == 1) = true := by decide +kernel

/-- R135: dividing the most negative number by -1, and by 0. -/
theorem test_division_corners :
    (Claims.division (.div 1 2 3 false false)).map (fun r => r.2.2.2.2.2.2 0x8000000000000000 0xFFFFFFFFFFFFFFFF) = some 0x8000000000000000
      ∧ (Claims.division (.rem 1 2 3 false false)).map (fun r => r.2.2.2.2.2.2 7 0) = some 7 := by decide

/-- R181: bytes 200 and 100 give 255 under VADD.sat.ui8, and 100 less 200 gives 0 under VSUB.sat.ui8. -/
theorem test_saturation : (satOp .ui8 false 200 100).1 = 255 ∧ (satOp .ui8 true 100 200).1 = 0 := by decide

/-- R193, R169: widening INT4 to UINT8 extends the sign whatever sat says; narrowing clamps. -/
theorem test_convert_integers : (convertOne .uint8 .int4 true .rne 0 0xF).1 % 256 = 0xFF ∧ (convertOne .int4 .int8 true .rne 0 0x7F).1 % 16 = 7 := by decide +kernel

/-- R35: CRC-32C of the nine digits, the check value of the code's definition. -/
theorem test_crc32c : crc32c [0x31, 0x32, 0x33, 0x34, 0x35, 0x36, 0x37, 0x38, 0x39] = 0xE3069283 := by decide +kernel

end Sys2Proof.Tests
end

section
/-! PROOFS. Control transfers (R98-R103, R325): what BR, CALL, LEXIT, JR, JALR and RET answer, each case by a lemma of its own, and the
statement about them. -/

namespace Sys2Proof.Machine

open Sys2Proof

/-! ### The meanings of the transfers -/

theorem exec_br (p : BitVec 4) (neg : Bool) (disp : BitVec 20) (s : State) : exec (.br p neg disp) s = execBr p neg disp s := rfl
theorem exec_call (p : BitVec 4) (neg : Bool) (disp : BitVec 20) (s : State) : exec (.call p neg disp) s = execCall p neg disp s := rfl
theorem exec_lexit (p : BitVec 4) (neg : Bool) (disp : BitVec 20) (s : State) : exec (.lexit p neg disp) s = execLexit p neg disp s := rfl
theorem exec_jr (a : BitVec 5) (ta : Bool) (s : State) : exec (.jr a ta) s = execJr a ta s := rfl
theorem exec_jalr (d a : BitVec 5) (ta : Bool) (s : State) : exec (.jalr d a ta) s = execJalr d a ta s := rfl

/-- RET is JR through S31, without the trap-if-empty bit (R102). -/
theorem exec_ret_eq_jr (s : State) : exec .ret s = exec (.jr 31 false) s := rfl

/-! ### The words of the statements, in the operations of the model -/

theorem claims_takes_eq (s : State) (p : BitVec 4) (neg : Bool) : Claims.takes s p neg = s.takes p neg := rfl
theorem claims_target_eq (s : State) (disp : BitVec 20) : Claims.target s disp = s.target disp := rfl
theorem claims_link_eq (s : State) : Claims.link s = s.link := rfl
theorem claims_bundleBytes_eq (s : State) : Claims.bundleBytes s = s.unit := rfl
theorem claims_same_eq (s : State) : Claims.same s = s.mark .issued := rfl
theorem claims_controls_eq (s : State) (c : Control) : Claims.controls s c = (s.setControl c).mark .issued := rfl

/-! ### Sending a result -/

theorem Core.landFlight_issue (x : Core) (f : InFlight) : (x.landFlight f).issue = x.issue := Core.landOne_issue x f.what

/-- A landing in an S register neither sees nor changes the issue state. -/
theorem Core.landFlight_s_issue (x : Core) (i : Issue) (lat : Nat) (d : BitVec 5) (v : Word) (flags : BitVec 5) :
    ({ x with issue := i } : Core).landFlight ⟨lat, .s d v, flags⟩ = { x.landFlight ⟨lat, .s d v, flags⟩ with issue := i } := by
  by_cases h : d = 0
  · simp only [Core.landFlight, Core.landOne, if_pos h]
  · simp only [Core.landFlight, Core.landOne, if_neg h]

theorem State.send_comp {s : State} (h : s.comp = true) (lat : Nat) (what : Land) (flags : BitVec 5) :
    s.send lat what flags = { s with core := s.core.landFlight ⟨0, what, flags⟩ } := by
  rw [State.send, if_pos h]

theorem State.send_main {s : State} (h : s.comp = false) (lat : Nat) (what : Land) (flags : BitVec 5) :
    s.send lat what flags = s.onRegs fun r => { r with flight := r.flight ++ [⟨lat, what, flags⟩] } := by
  rw [State.send, if_neg (by simp [h])]

/-- Sending a result and noting that the slot issued is what the statements call an answer: a landing keeps the issue state. -/
theorem State.mark_send (s : State) (lat : Nat) (what : Land) (flags : BitVec 5) :
    (s.send lat what flags).mark .issued = Claims.answer s lat what flags := by
  cases h : s.comp with
  | false =>
    have hm : s.me.isComp = false := h
    simp only [State.send_main h, Claims.answer, hm]
    rfl
  | true =>
    have hm : s.me.isComp = true := h
    simp only [State.send_comp h, Claims.answer, hm, State.mark, Core.landFlight_issue]
    rfl

theorem State.mark_mark (s : State) (r t : Issued) : (s.mark r).mark t = s.mark t := rfl

theorem State.send_mark (s : State) (r : Issued) (lat : Nat) (d : BitVec 5) (v : Word) :
    (s.mark r).send lat (.s d v) = (s.send lat (.s d v)).mark r := by
  cases h : s.comp with
  | false => rw [State.send_main h, State.send_main ((s.mark_comp r).trans h)]; rfl
  | true =>
    rw [State.send_comp h, State.send_comp ((s.mark_comp r).trans h)]
    simp only [State.mark, Core.landFlight_s_issue, Core.landFlight_issue]

/-- A transfer with a link leaves the transfer noted and the link on its way. -/
theorem State.mark_send_setControl (s : State) (c : Control) (lat : Nat) (d : BitVec 5) (v : Word) :
    ((s.setControl c).send lat (.s d v)).mark .issued = Claims.answer (Claims.controls s c) lat (.s d v) := by
  rw [claims_controls_eq, ← State.mark_send, State.send_mark, State.mark_mark]

/-! ### Conditional transfers -/

/-- The rotating half of the predicates does not hold P0 (R110). -/
theorem physP_zero (prb : BitVec 3) : physP prb 0 = 0 := rfl

/-- P0 reads as all ones (R117). -/
theorem State.p_zero (s : State) : s.p 0 = BitVec.allOnes 1024 := by
  rw [State.p]
  exact if_pos (physP_zero _)

theorem State.pBit_zero (s : State) : s.pBit 0 = true := by
  rw [State.pBit, State.p_zero, BitVec.getLsbD_allOnes, decide_eq_true (by decide)]

/-- Under P0 only the negate bit decides (R100). -/
theorem State.takes_zero (s : State) (neg : Bool) : s.takes 0 neg = !neg := by
  rw [State.takes, State.pBit_zero, Bool.true_bne]

section
variable {s : State} {p : BitVec 4} {neg : Bool} {disp : BitVec 20}

theorem exec_br_not_taken (h : s.takes p neg = false) : exec (.br p neg disp) s = .next (Claims.same s) := by
  simp [exec_br, execBr, State.issueWith_go, h, claims_same_eq]

theorem exec_br_taken (h : s.takes p neg = true) : exec (.br p neg disp) s = .next (Claims.controls s (.taken (s.target disp))) := by
  simp [exec_br, execBr, State.issueWith_go, h, claims_controls_eq]

theorem exec_call_not_taken (h : s.takes p neg = false) : exec (.call p neg disp) s = .next (Claims.same s) := by
  simp [exec_call, execCall, State.issueWith_go, h, claims_same_eq]

theorem exec_call_taken (h : s.takes p neg = true) (hf : s.core.regs.sIsFull 31 = true) :
    exec (.call p neg disp) s = .next (Claims.answer (Claims.controls s (.taken (s.target disp))) 1 (.s 31 s.link)) := by
  rw [exec_call, execCall, if_pos h, State.destS_go hf, State.issueWith_go, if_pos h, State.mark_send_setControl]

theorem exec_lexit_not_taken (h : s.takes p neg = false) : exec (.lexit p neg disp) s = .next (Claims.same s) := by
  simp [exec_lexit, execLexit, ensure, State.issueWith_go, h, claims_same_eq]

theorem exec_lexit_taken (h : s.takes p neg = true) (hl : s.core.regs.loops ≠ []) :
    exec (.lexit p neg disp) s
      = .next (((s.setControl (.taken (s.target disp))).onRegs fun r => { r with loops := r.loops.dropLast }).mark .issued) := by
  simp [exec_lexit, execLexit, ensure, State.issueWith_go, h, hl]

/-- LEXIT taken without an active loop is illegal (R109). -/
theorem exec_lexit_without_loop (h : s.takes p neg = true) (hl : s.core.regs.loops = []) (hp : s.core.issue.pass = false) :
    exec (.lexit p neg disp) s = .next (Claims.traps s 0x02 6) := by
  simp [exec_lexit, execLexit, ensure, State.issueWith_trap hp, h, hl, Claims.traps]

end

/-! ### Transfers through a register -/

theorem Verdict.go_and (v : Verdict) : Verdict.and .go v = v := rfl

theorem Verdict.and_go (v : Verdict) : v.and .go = v := by cases v <;> rfl

theorem State.jumpCheck_aligned {s : State} {t : Word} (h : t.toNat % s.unit.toNat = 0) : s.jumpCheck t = .go := by
  simp [State.jumpCheck, ensure, h]

theorem State.jumpCheck_misaligned {s : State} {t : Word} (h : t.toNat % s.unit.toNat ≠ 0) : s.jumpCheck t = .trap 0x07 t := by
  simp [State.jumpCheck, ensure, h]

section
variable {s : State} {a d : BitVec 5} {ta : Bool}

/-- With its register full, JR asks for nothing but an aligned target. -/
theorem exec_jr_full (ha : s.core.regs.sIsFull a = true) :
    exec (.jr a ta) s = s.issueWith (s.jumpCheck (s.s a)) fun s => s.setControl (.taken (s.s a)) := by
  rw [exec_jr, execJr, State.needS_go ha, Verdict.go_and]

/-- With its registers full, JALR asks for nothing but an aligned target. -/
theorem exec_jalr_full (ha : s.core.regs.sIsFull a = true) (hd : s.core.regs.sIsFull d = true) :
    exec (.jalr d a ta) s = s.issueWith (s.jumpCheck (s.s a)) fun s => (s.setControl (.taken (s.s a))).send 1 (.s d s.link) := by
  simp only [exec_jalr, execJalr, Verdict.all, State.needS_go ha, State.destS_go hd, Verdict.go_and, Verdict.and_go]

theorem exec_jr_aligned (ha : s.core.regs.sIsFull a = true) (h : (s.s a).toNat % s.unit.toNat = 0) :
    exec (.jr a ta) s = .next (Claims.controls s (.taken (s.s a))) := by
  rw [exec_jr_full ha, State.jumpCheck_aligned h, State.issueWith_go, claims_controls_eq]

theorem exec_jalr_aligned (ha : s.core.regs.sIsFull a = true) (hd : s.core.regs.sIsFull d = true) (h : (s.s a).toNat % s.unit.toNat = 0) :
    exec (.jalr d a ta) s = .next (Claims.answer (Claims.controls s (.taken (s.s a))) 1 (.s d s.link)) := by
  rw [exec_jalr_full ha hd, State.jumpCheck_aligned h, State.issueWith_go, State.mark_send_setControl]

theorem exec_jr_misaligned (ha : s.core.regs.sIsFull a = true) (h : (s.s a).toNat % s.unit.toNat ≠ 0) (hp : s.core.issue.pass = false) :
    exec (.jr a ta) s = .next (Claims.traps s 0x07 (s.s a)) := by
  rw [exec_jr_full ha, State.jumpCheck_misaligned h, State.issueWith_trap hp, Claims.traps]

theorem exec_jalr_misaligned (ha : s.core.regs.sIsFull a = true) (hd : s.core.regs.sIsFull d = true) (h : (s.s a).toNat % s.unit.toNat ≠ 0)
    (hp : s.core.issue.pass = false) : exec (.jalr d a ta) s = .next (Claims.traps s 0x07 (s.s a)) := by
  rw [exec_jalr_full ha hd, State.jumpCheck_misaligned h, State.issueWith_trap hp, Claims.traps]

end

/-! ### The statement -/

/-- Settles O20: the conditional transfers by whether they are taken, the jumps by whether their target is aligned, and P0, which reads as all
ones. -/
theorem transfers : Obligations.Transfers := by
  unfold Obligations.Transfers
  simp only [claims_takes_eq, claims_target_eq, claims_link_eq, claims_bundleBytes_eq]
  refine ⟨fun s p neg disp => ⟨fun h => ?_, fun h => ?_, fun h hf => ?_, fun h hl => ?_, fun h hl hp => ?_⟩,
    fun s d a ta ha hd => ⟨fun h => ?_, fun h hp => ?_⟩, fun s => ⟨s.takes_zero false, s.takes_zero true⟩⟩
  · exact ⟨exec_br_not_taken h, exec_call_not_taken h, exec_lexit_not_taken h⟩
  · exact exec_br_taken h
  · exact exec_call_taken h hf
  · exact exec_lexit_taken h hl
  · exact exec_lexit_without_loop h hl hp
  · refine ⟨exec_jr_aligned ha h, exec_jalr_aligned ha hd h, ?_⟩
    rintro rfl
    exact (exec_ret_eq_jr s).trans (exec_jr_aligned ha h)
  · refine ⟨exec_jr_misaligned ha h hp, exec_jalr_misaligned ha hd h hp, ?_⟩
    rintro rfl
    exact (exec_ret_eq_jr s).trans (exec_jr_misaligned ha h hp)

end Sys2Proof.Machine
end

section
/-! PROOFS. The instructions that load an immediate (R138): what LI and LIU answer, the words they have, and the constants that a sequence of
them builds, read from the top field down. -/

namespace Sys2Proof.Machine

open Sys2Proof

/-! ### Results -/

theorem exec_li (d : BitVec 5) (imm : BitVec 20) (s : State) : exec (.li d imm) s = execLi d imm s := rfl
theorem exec_liu (d : BitVec 5) (imm : BitVec 20) (s : State) : exec (.liu d imm) s = execLiu d imm s := rfl

section
variable {d : BitVec 5} {imm : BitVec 20} {s : State}

theorem exec_li_full (h : s.core.regs.sIsFull d = true) :
    exec (.li d imm) s = .next (Claims.answer s 1 (.s d (imm.signExtend 64))) := by
  rw [exec_li, execLi, State.destS_go h, State.issueWith_go, State.mark_send, sx]

theorem exec_liu_full (h : s.core.regs.sIsFull d = true) :
    exec (.liu d imm) s = .next (Claims.answer s 1 (.s d ((s.core.regs.sVal d <<< 20) ||| imm.setWidth 64))) := by
  rw [exec_liu, execLiu, State.needS_go h, State.issueWith_go, State.mark_send, State.s, zx]

end

/-! ### Words -/

/-- The encoder's word of LI, opcode 0x0A in the SL layout, decodes to it. -/
theorem decode_li (d : BitVec 5) (imm : BitVec 20) : decode .S (0x0A#7 ++ d ++ imm) = .ok (.li d imm) := by
  obtain ⟨w, hw, hd⟩ := Laws.RoundTrip.li d imm .S rfl rfl
  exact Option.some.inj hw ▸ hd

/-- The encoder's word of LIU, opcode 0x0B in the SL layout, decodes to it. -/
theorem decode_liu (d : BitVec 5) (imm : BitVec 20) : decode .S (0x0B#7 ++ d ++ imm) = .ok (.liu d imm) := by
  obtain ⟨w, hw, hd⟩ := Laws.RoundTrip.liu d imm .S rfl rfl
  exact Option.some.inj hw ▸ hd

/-! ### Constants

After the instruction for the field at bit k, the register holds `v >>> k`: LIU takes `v >>> (k + 20)` to `v >>> k`. -/

/-- What LIU does: the bits of v from k + 20 on, moved up, and the field at k below them are the bits of v from k on. -/
theorem shiftLeft_or_field (v : Word) (k : Nat) : (v >>> (k + 20)) <<< 20 ||| (v.extractLsb' k 20).setWidth 64 = v >>> k := by
  ext i hi
  by_cases h : i < 20
  · simp [h]
  · have : k + 20 + (i - 20) = k + i := by omega
    simp [h, this]

/-- With zeros above it, a field is what is left of v from it on. -/
theorem setWidth_field {v : Word} {k : Nat} (hz : v >>> (k + 20) = 0) : (v.extractLsb' k 20).setWidth 64 = v >>> k := by
  simpa [hz] using shiftLeft_or_field v k

/-- A zero field with zeros above it leaves zeros from it on. -/
theorem ushiftRight_eq_zero {v : Word} {k : Nat} (hz : v >>> (k + 20) = 0) (hf : v.extractLsb' k 20 = 0) : v >>> k = 0 := by
  rw [← setWidth_field hz, hf]; rfl

/-- Below 0x80000 the sign of an immediate is 0. -/
theorem signExtend_eq_setWidth {f : BitVec 20} (h : f.toNat < 0x80000) : f.signExtend 64 = f.setWidth 64 :=
  BitVec.signExtend_eq_setWidth_of_msb_false (BitVec.msb_eq_false_iff_two_mul_lt.mpr (by omega))

/-- What LI does with a first field that has zeros above it and the sign 0. -/
theorem signExtend_field {v : Word} {k : Nat} (hz : v >>> (k + 20) = 0) (h : (v.extractLsb' k 20).toNat < 0x80000) :
    (v.extractLsb' k 20).signExtend 64 = v >>> k := by
  rw [signExtend_eq_setWidth h, setWidth_field hz]

/-- What LI does with bits 63 to 60, which are never negative in 20 bits. -/
theorem signExtend_top (v : Word) : ((v.extractLsb' 60 4).setWidth 20).signExtend 64 = v >>> 60 := by
  have hv : v.toNat >>> 60 < 16 := by rw [Nat.shiftRight_eq_div_pow]; omega
  have hf : ((v.extractLsb' 60 4).setWidth 20).toNat = v.toNat >>> 60 := by simp; omega
  rw [signExtend_eq_setWidth (by omega)]
  apply BitVec.eq_of_toNat_eq
  rw [BitVec.toNat_setWidth, hf, BitVec.toNat_ushiftRight, Nat.mod_eq_of_lt (by omega)]

theorem ushiftRight_top_eq_zero {v : Word} (h : (v.extractLsb' 60 4).setWidth 20 = (0 : BitVec 20)) : v >>> 60 = 0 := by
  rw [← signExtend_top, h]; rfl

/-- The n fields of v below bit 20 n, from the top one down. -/
def fieldsBelow (v : Word) : Nat → List (BitVec 20)
  | 0 => []
  | n + 1 => v.extractLsb' (20 * n) 20 :: fieldsBelow v n

theorem foldl_fieldsBelow (v : Word) (n : Nat) :
    (fieldsBelow v n).foldl (fun (x : Word) f => (x <<< 20) ||| f.setWidth 64) (v >>> (20 * n)) = v := by
  induction n with
  | zero => exact BitVec.ushiftRight_zero v
  | succ n ih => rw [fieldsBelow, List.foldl_cons, Nat.mul_succ, shiftLeft_or_field, ih]

/-- One LI that gives v from bit 20 n on, and one LIU for each field below, build v. -/
theorem built_fieldsBelow {v : Word} {n : Nat} {first : BitVec 20} (h : first.signExtend 64 = v >>> (20 * n)) :
    Claims.built first (fieldsBelow v n) = v := by
  rw [Claims.built, h, foldl_fieldsBelow]

/-! ### The statement -/

/-- Settles O12: results through the issue laws, words through the encoder's round trip, and constants field by field from `shiftLeft_or_field`. -/
theorem loadImmediate : Obligations.LoadImmediate := by
  unfold Obligations.LoadImmediate
  refine ⟨fun d imm s h => ⟨exec_li_full h, exec_liu_full h⟩, fun d imm => ⟨decode_li d imm, decode_liu d imm⟩, fun v => ?_,
    decode_li 4 0xF0, decode_liu 4 0, by decide⟩
  refine ⟨built_fieldsBelow (n := 3) (signExtend_top v), fun h3 h2 => ?_, fun h3 h2 h1 => ?_, fun h3 h2 h1 h0 => ?_⟩
  · exact built_fieldsBelow (n := 2) (signExtend_field (ushiftRight_top_eq_zero h3) h2)
  · have z40 : v >>> 40 = 0 := ushiftRight_eq_zero (ushiftRight_top_eq_zero h3) h2
    exact built_fieldsBelow (n := 1) (signExtend_field z40 h1)
  · have z40 : v >>> 40 = 0 := ushiftRight_eq_zero (ushiftRight_top_eq_zero h3) h2
    have z20 : v >>> 20 = 0 := ushiftRight_eq_zero z40 h1
    exact built_fieldsBelow (n := 0) (signExtend_field z20 h0)

end Sys2Proof.Machine
end

section
/-! PROOFS. The versioned instructions of the S slot (R294-R301): that each of their checks passes under the hypotheses of the statement,
what each instruction answers then, and the landing of CLRV. -/

namespace Sys2Proof.Machine

open Sys2Proof

/-! ### The meanings of the versioned instructions -/

theorem exec_ldv (d a : BitVec 5) (ta : Bool) (k : BitVec 3) (s : State) : exec (.ldv d a ta k) s = execLdv d a ta k s := rfl
theorem exec_valid (d : BitVec 5) (mask : BitVec 8) (s : State) : exec (.valid d mask) s = execValid d mask s := rfl
theorem exec_valst (d a b : BitVec 5) (ta tb : Bool) (mask : BitVec 8) (s : State) :
    exec (.valst d a b ta tb mask) s = execValst d a b ta tb mask s := rfl
theorem exec_casv (d a b : BitVec 5) (ta tb : Bool) (k : BitVec 3) (s : State) :
    exec (.casv d a b ta tb k) s = execCasv d a b ta tb k s := rfl
theorem exec_clrv (mask : BitVec 8) (s : State) : exec (.clrv mask) s = execClrv mask s := rfl

/-! ### The words of the statement, in the operations of the model -/

theorem claims_full_S (s : State) (n : BitVec 5) (t : Bool) : Claims.Operand.full s (Claims.S n t) = s.core.regs.sIsFull n := rfl

theorem claims_full_A (s : State) (n : BitVec 5) (t : Bool) :
    Claims.Operand.full s (Claims.A n t) = if s.comp then s.core.regs.sIsFull n else s.core.regs.aIsFull n := by
  cases h : s.me.isComp <;> simp [Claims.Operand.full, Claims.A, State.comp, h, Regs.sIsFull, Regs.aIsFull]

theorem State.clearFull_zero (s : State) : s.clearFull 0 = s := rfl

theorem State.clearFull_comp {s : State} {d : BitVec 5} (hd : d ≠ 0) (h : s.comp = true) :
    s.clearFull d = s.onRegs fun r => { r with sFull := r.sFull &&& ~~~ Claims.bitOf d } := by
  rw [State.clearFull, if_neg hd, if_pos h]; rfl

theorem State.clearFull_main {s : State} {d : BitVec 5} (hd : d ≠ 0) (h : s.comp = false) :
    s.clearFull d
      = { s with core := { s.core with issue := { s.core.issue with clearS := s.core.issue.clearS ||| Claims.bitOf d } } } := by
  rw [State.clearFull, if_neg hd, if_neg (by simp [h])]; rfl

/-- Emptying the destination, queueing the operation and noting that the slot issued is what the statements call outstanding. -/
theorem State.mark_queueOp_clearFull (s : State) (d : BitVec 5) (op : MemOp) :
    ((s.clearFull d).queueOp op).mark .issued = Claims.outstanding s d op := by
  by_cases hd : d = 0
  · subst hd
    simp only [State.clearFull_zero, Claims.outstanding, if_pos, BitVec.not_zero, BitVec.and_allOnes, BitVec.or_zero, ite_self]
    rfl
  · cases h : s.comp with
    | true =>
      have hm : s.me.isComp = true := h
      simp only [State.clearFull_comp hd h, Claims.outstanding, if_neg hd, hm]
      rfl
    | false =>
      have hm : s.me.isComp = false := h
      simp only [State.clearFull_main hd h, Claims.outstanding, if_neg hd, hm]
      rfl

/-- What counts, and what a count changes, does not depend on the outcome noted for the slot. -/
theorem State.mark_count (s : State) (r : Issued) (code : BitVec 8) (n : Nat) : (s.count code n).mark r = (s.mark r).count code n := by
  by_cases h : s.sup ∨ code = 0
  · have h' : (s.mark r).sup ∨ code = 0 := h
    rw [State.count, if_pos h, State.count, if_pos h']
  · have h' : ¬ ((s.mark r).sup ∨ code = 0) := h
    rw [State.count, if_neg h, State.count, if_neg h']
    rfl

/-- Refilling a cache neither sees nor changes the outcome noted for the slot. -/
theorem State.mark_refill (s : State) (r : Issued) (va : Word) (write : Bool) : (s.refill va write).mark r = (s.mark r).refill va write := by
  have hd : (s.mark r).die (s.mark r).me.die = s.die s.me.die := rfl
  simp only [State.refill, hd, State.mark_core_tlb, State.mark_fresh, ← State.mark_count]
  split
  · rfl
  · split <;> rfl

/-- An operation at a translated unit joins those outstanding, and its page comes into the core's cache. -/
theorem State.mark_refill_outstanding (s : State) (d : BitVec 5) (op : MemOp) (ea : Word) (write : Bool) :
    (((s.clearFull d).queueOp op).refill ea write).mark .issued = (Claims.outstanding s d op).refill ea write := by
  rw [State.mark_refill, State.mark_queueOp_clearFull]

/-- A translated access acts at the place that the statements name. -/
theorem State.place_eq_at {s : State} {ea : Word} {size : Nat} {write : Bool} {e : TlbEntry} (h : Claims.translates s ea size write e) :
    s.place ea write = Claims.at s ea e := by
  obtain ⟨-, -, hcached, -, -⟩ := h
  rw [State.place, hcached]
  rfl

/-! ### Checks that pass -/

theorem State.slotsFree_go {s : State} {mask : BitVec 8} (h : Claims.slotsFree s mask) : s.slotsFree mask = .go := by
  simp only [State.slotsFree, waitFor]
  exact if_pos (List.all_eq_true.mpr fun e he => beq_iff_eq.mpr (h e he))

theorem State.needCheckpoint_go {s : State} (h : s.core.regs.status.getLsbD 1 = false ∨ s.core.issue.protectOk = true) :
    s.needCheckpoint = .go := by
  rw [State.needCheckpoint, ensure, State.prot]
  cases h with
  | inl hprot => rw [hprot]; rfl
  | inr hok => rw [hok, Bool.or_true]; rfl

theorem windowOff?_outside {ea : Word} (h : Claims.outside ea) : windowOff? ea = none := by
  have hb : windowBase.toNat = 0xF00000000000 := rfl
  unfold Claims.outside at h
  rw [windowOff?, hb]
  exact if_neg (by omega)

theorem State.globalCheck_go {s : State} {ea : Word} {size : Nat} {write : Bool} {e : TlbEntry} (h : Claims.translates s ea size write e) :
    s.globalCheck ea size write = .go := by
  obtain ⟨haligned, hhigh, hcached, hrights, hphys⟩ := h
  simp [State.globalCheck, haligned, hhigh, hcached, hrights, hphys]

theorem State.unitCheck_go {s : State} {ea : Word} {write : Bool} {e : TlbEntry} (ho : Claims.outside ea)
    (hv : versioned (Claims.at s ea e).pa.toNat = true) (ht : Claims.translates s ea 8 write e) : s.unitCheck ea write = .go := by
  have haligned : ea.toNat % 8 = 0 := ht.1
  simp [State.unitCheck, haligned, windowOff?_outside ho, State.globalCheck_go ht, Verdict.go_and, State.place_eq_at ht, ensure, hv]

/-! ### Answers -/

section
variable {s : State} {d a b : BitVec 5} {ta tb : Bool} {k : BitVec 3} {mask : BitVec 8} {e : TlbEntry}

theorem exec_valid_free (hd : s.core.regs.sIsFull d = true) (hf : Claims.slotsFree s mask) :
    exec (.valid d mask) s = .next (Claims.outstanding s d (.valid d mask)) := by
  rw [exec_valid, execValid, State.destS_go hd, State.slotsFree_go hf, Verdict.go_and, State.issueWith_go, State.mark_queueOp_clearFull]

theorem exec_clrv_free (hf : Claims.slotsFree s mask) : exec (.clrv mask) s = .next (Claims.answer s 1 (.clrv mask)) := by
  rw [exec_clrv, execClrv, State.slotsFree_go hf, State.issueWith_go, State.mark_send]

variable (ha : s.needA a ta = .go) (hd : s.core.regs.sIsFull d = true) (ho : Claims.outside (s.a a))
  (hv : versioned (Claims.at s (s.a a) e).pa.toNat = true)
include ha hd ho hv

theorem exec_ldv_translated (ht : Claims.translates s (s.a a) 8 false e) (hf : Claims.slotsFree s (1#8 <<< k.toNat)) :
    exec (.ldv d a ta k) s = .next ((Claims.outstanding s d (.ldv d (Claims.at s (s.a a) e) k)).refill (s.a a) false) := by
  simp only [exec_ldv, execLdv, Verdict.all, ha, State.destS_go hd, State.slotsFree_go hf, State.unitCheck_go ho hv ht, Verdict.go_and,
    State.issueWith_go, State.place_eq_at ht, State.mark_refill_outstanding]

variable (hb : s.core.regs.sIsFull b = true) (hc : s.core.regs.status.getLsbD 1 = false ∨ s.core.issue.protectOk = true)
  (ht : Claims.translates s (s.a a) 8 true e)
include hb hc ht

theorem exec_valst_translated (hf : Claims.slotsFree s mask) :
    exec (.valst d a b ta tb mask) s
      = .next ((Claims.outstanding s d (.valst d (Claims.at s (s.a a) e) (s.s b) mask)).refill (s.a a) true) := by
  simp only [exec_valst, execValst, Verdict.all, ha, State.needS_go hb, State.destS_go hd, State.slotsFree_go hf, State.needCheckpoint_go hc,
    State.unitCheck_go ho hv ht, Verdict.go_and, State.issueWith_go, State.place_eq_at ht, State.mark_refill_outstanding]

theorem exec_casv_translated (hf : Claims.slotsFree s (1#8 <<< k.toNat)) :
    exec (.casv d a b ta tb k) s
      = .next ((Claims.outstanding s d (.casv d (Claims.at s (s.a a) e) (s.s b) k)).refill (s.a a) true) := by
  simp only [exec_casv, execCasv, Verdict.all, ha, State.needS_go hb, State.destS_go hd, State.slotsFree_go hf, State.needCheckpoint_go hc,
    State.unitCheck_go ho hv ht, Verdict.go_and, State.issueWith_go, State.place_eq_at ht, State.mark_refill_outstanding]

end

/-! ### The landing of CLRV -/

theorem Core.landOne_clrv_slot (x : Core) (mask : BitVec 8) (k : BitVec 3) :
    (x.landOne (.clrv mask)).regs.n[k.toNat]'k.isLt = if mask.getLsbD k.toNat then none else x.regs.n[k.toNat]'k.isLt := by
  simp [Core.landOne]

/-! ### The statement -/

/-- Settles O31: the landing of CLRV slot by slot, and the five instructions by their checks, each of which passes. -/
theorem versionedIssue : Obligations.VersionedIssue := by
  unfold Obligations.VersionedIssue
  refine ⟨fun x mask k => ⟨x.landOne_clrv_slot mask k, rfl, rfl, rfl, rfl, rfl⟩, fun s d a b ta tb k mask e => ?_⟩
  intro ea hfull
  simp only [Claims.allFull, List.all_cons, List.all_nil, Bool.and_true, Bool.and_eq_true, claims_full_A, claims_full_S] at hfull
  obtain ⟨hA, hb, hd⟩ := hfull
  have ha : s.needA a ta = .go := State.needA_go hA
  refine ⟨fun hf => ⟨exec_valid_free hd hf, exec_clrv_free hf⟩, fun ho hv => ⟨fun ht hf => ?_, fun hprot ht => ?_⟩⟩
  · exact exec_ldv_translated ha hd ho hv ht hf
  · exact ⟨exec_valst_translated ha hd ho hv hb hprot ht, exec_casv_translated ha hd ho hv hb hprot ht⟩

end Sys2Proof.Machine
end

section
/-! PROOFS. Requests and tokens between main and companion cores (R327-R332): that each check of SQPUSH, TKTST, TKGET, SQPOP and TKPUT passes
or holds under the hypotheses of the statement, what each instruction answers then, and TKTST's words. -/

namespace Sys2Proof.Machine

open Sys2Proof

/-! ### The meanings of the instructions -/

theorem exec_sqpush (a b : BitVec 5) (ta tb ck : Bool) (s : State) : exec (.sqpush a b ta tb ck) s = execSqpush a b ta tb ck s := rfl
theorem exec_tktst (p : BitVec 4) (s : State) : exec (.tktst p) s = execTktst p s := rfl
theorem exec_tkget (d : BitVec 5) (s : State) : exec (.tkget d) s = execTkget d s := rfl
theorem exec_sqpop (d : BitVec 5) (s : State) : exec (.sqpop d) s = execSqpop d s := rfl
theorem exec_tkput (a b : BitVec 5) (ta tb : Bool) (s : State) : exec (.tkput a b ta tb) s = execTkput a b ta tb s := rfl

/-- The encoder's word of TKTST, opcode 0x19, decodes to it (R330). -/
theorem decode_tktst (p : BitVec 4) : decode .X (0x19#7 ++ 0#21 ++ p) = .ok (.tktst p) := by
  obtain ⟨w, hw, hd⟩ := Laws.RoundTrip.tktst p .X rfl rfl
  exact Option.some.inj hw ▸ hd

/-! ### The words of the statement, in the operations of the model -/

theorem claims_issued_eq (s : State) : Claims.issued s = s.mark .issued := rfl

theorem claims_stored_eq (s : State) (op : MemOp) : Claims.stored s op = (s.queueOp op).mark .issued := rfl

theorem claims_sends_eq (s : State) (lat : Nat) (what : Land) : Claims.sends s lat what = s.send lat what := by
  cases h : s.comp with
  | false =>
    have hm : s.me.isComp = false := h
    rw [State.send_main h, Claims.sends, hm]
    rfl
  | true =>
    have hm : s.me.isComp = true := h
    rw [State.send_comp h, Claims.sends, if_pos hm]

/-! ### Checks that pass, and checks that hold -/

theorem ensure_go {ok : Bool} (h : ok = true) (cause : BitVec 8) (val : Word) : ensure ok cause val = .go := if_pos h

theorem waitFor_go {ok : Bool} (h : ok = true) (code : BitVec 8) : waitFor ok code = .go := if_pos h

theorem waitFor_hold {ok : Bool} (h : ok = false) (code : BitVec 8) : waitFor ok code = .hold code := by rw [waitFor, h]; rfl

theorem Verdict.hold_and (code : BitVec 8) (v : Verdict) : Verdict.and (.hold code) v = .hold code := rfl

theorem State.needMain_go {s : State} (h : s.me.isComp = false) : s.needMain = .go := by
  rw [State.needMain, State.comp, h]; rfl

theorem State.needComp_go {s : State} (h : s.me.isComp = true) : s.needComp = .go := ensure_go h _ _

theorem State.needFeature_go {s : State} {i : Nat} (h : s.feature i = true) : s.needFeature i = .go := ensure_go h _ _

theorem State.needReady_go {s : State} {i : Nat} (h : s.isReady s.me.die i = true) : s.needReady i = .go := waitFor_go h _

/-- A function of the die that is not ready stalls (R39). -/
theorem State.needReady_hold {s : State} {i : Nat} (h : s.isReady s.me.die i = false) : s.needReady i = .hold 0x00 := waitFor_hold h _

theorem State.needCommit_go {s : State} {ck : Bool} (h : Claims.mayCommit s ck) : s.needCommit ck = .go := by
  refine ensure_go ?_ _ _
  cases h with
  | inl hprot => rw [State.prot, hprot]; rfl
  | inr hck => rw [hck, Bool.or_true]

/-- Below 2^48 the bits from 48 on are zero. -/
theorem bits_high_eq_zero {v : Word} (h : v.toNat < 2 ^ 48) : bits v 48 16 = 0 := by
  rw [bits, Nat.shiftRight_eq_div_pow, Nat.div_eq_of_lt h, Nat.zero_mod]

/-! ### Writes that a release waits for -/

/-- Taking while a test holds takes the whole list exactly when every entry passes. -/
theorem length_le_length_takeWhile_iff {α : Type} (f : α → Bool) (l : List α) :
    l.length ≤ (l.takeWhile f).length ↔ ∀ x ∈ l, f x = true := by
  rw [← List.takeWhile_eq_self_iff]
  exact ⟨(List.takeWhile_prefix f).eq_of_length_le, fun h => by rw [h]⟩

/-- A release waits for no operation exactly when none of those queued writes (R280). -/
theorem State.writesAhead_eq_zero_iff (s : State) : s.writesAhead = 0 ↔ ∀ e ∈ s.core.memq, e.op.isWrite = false := by
  rw [State.writesAhead, Nat.sub_eq_zero_iff_le, ← List.length_reverse (as := s.core.memq), length_le_length_takeWhile_iff]
  simp

theorem State.writesAhead_ne_zero {s : State} (h : ∃ e ∈ s.core.memq, e.op.isWrite = true) : s.writesAhead ≠ 0 := by
  rw [Ne, State.writesAhead_eq_zero_iff]
  obtain ⟨e, he, hw⟩ := h
  exact fun hall => Bool.false_ne_true ((hall e he).symm.trans hw)

/-- No suffix operation of the core waits at the die's unit. -/
theorem State.mySfx_eq_false {s : State} (h : ∀ o ∈ (s.die s.me.die).sfxOps, o.core ≠ s.me.idx) : s.mySfx = false := by
  simpa [State.mySfx] using h

/-! ### The main core's instructions -/

/-- The core with one request more outstanding, and its release for the cluster's companion core. -/
def State.asks (s : State) : State := (s.onRegs fun r => { r with asked := r.asked + 1 }).releases toOthers

section
variable {s : State} {a b d : BitVec 5} {ta tb ck : Bool} {p : BitVec 4}

/-! While the generation core is not ready, whatever needs it holds (R39). -/

theorem exec_tktst_unready (hm : s.me.isComp = false) (hf : s.feature 1 = true) (hr : s.isReady s.me.die 20 = false)
    (hp : s.core.issue.pass = false) : exec (.tktst p) s = .next (Claims.waits s 0x00) := by
  simp only [exec_tktst, execTktst, Verdict.all, State.needMain_go hm, State.needFeature_go hf, State.needReady_hold hr, Verdict.go_and,
    Verdict.hold_and, State.issueWith_hold hp, Claims.waits]

theorem exec_tkget_unready (hm : s.me.isComp = false) (hf : s.feature 1 = true) (hr : s.isReady s.me.die 20 = false)
    (hp : s.core.issue.pass = false) : exec (.tkget d) s = .next (Claims.waits s 0x00) := by
  simp only [exec_tkget, execTkget, Verdict.all, State.needMain_go hm, State.needFeature_go hf, State.needReady_hold hr, Verdict.go_and,
    Verdict.hold_and, State.issueWith_hold hp, Claims.waits]

variable (hm : s.me.isComp = false) (hf : s.feature 1 = true) (hr : s.isReady s.me.die 20 = true)
include hm hf hr

/-- A token that no claim takes stands in the mailbox when it holds more tokens than there are claims (R330). -/
theorem exec_tktst_ready : exec (.tktst p) s
    = .next (Claims.answer s 1 (Claims.whole s p (decide (s.core.regs.claims.length < s.core.regs.mailbox.length)))) := by
  simp only [exec_tktst, execTktst, Verdict.all, State.needMain_go hm, State.needFeature_go hf, State.needReady_go hr, Verdict.go_and,
    State.issueWith_go, State.mark_send, Claims.whole, decide_eq_true_eq]

/-- With its register full, TKGET asks for nothing but a free claim. -/
theorem exec_tkget_full (hd : s.core.regs.sIsFull d = true) : exec (.tkget d) s
    = s.issueWith (waitFor (decide (s.core.regs.claims.length < 8)) 0x00) fun s =>
        (s.clearFull d).onRegs fun r => { r with claims := r.claims ++ [d] } := by
  simp only [exec_tkget, execTkget, Verdict.all, State.needMain_go hm, State.needFeature_go hf, State.needReady_go hr, State.destS_go hd,
    Verdict.go_and, Verdict.and_go]

theorem exec_tkget_claims (hd : s.core.regs.sIsFull d = true) (hc : s.core.regs.claims.length < 8) :
    exec (.tkget d) s = .next (Claims.issued { s with core := { s.core with
      regs := { s.core.regs with claims := s.core.regs.claims ++ [d] }
      issue := { s.core.issue with clearS := s.core.issue.clearS ||| (if d = 0 then 0#32 else Claims.bitOf d) } } }) := by
  rw [exec_tkget_full hm hf hr hd, waitFor_go (decide_eq_true hc), State.issueWith_go, claims_issued_eq]
  by_cases h0 : d = 0
  · rw [h0, State.clearFull_zero, if_pos rfl, BitVec.or_zero]; rfl
  · rw [State.clearFull_main h0 hm, if_neg h0]; rfl

theorem exec_tkget_claimed (hd : s.core.regs.sIsFull d = true) (hc : s.core.regs.claims.length = 8) (hp : s.core.issue.pass = false) :
    exec (.tkget d) s = .next (Claims.waits s 0x00) := by
  rw [exec_tkget_full hm hf hr hd, waitFor_hold (decide_eq_false (by omega)), State.issueWith_hold hp, Claims.waits]

variable (ha : s.core.regs.sIsFull a = true) (hb : s.core.regs.sIsFull b = true) (hva : (s.s a).toNat < 2 ^ 48)
  (hj : s.runsJob s.me.comp s.job = true)
include ha hb hva hj

/-- With legal operands and a companion task of its job, SQPUSH asks for nothing but room in the queue and its commit class. -/
theorem exec_sqpush_served : exec (.sqpush a b ta tb ck) s
    = s.issueWith ((waitFor (!s.requestsFull) 0x00).and (s.needCommit ck)) fun s =>
        if s.asks.writesAhead = 0 then s.asks.onCore s.me.comp fun x => { x with requests := x.requests ++ [(s.request (s.s a), s.s b)] }
        else s.asks.queueOp (.sqpush (s.request (s.s a)) (s.s b)) := by
  have hbits : (bits (s.s a) 48 16 == 0) = true := beq_iff_eq.mpr (bits_high_eq_zero hva)
  simp only [exec_sqpush, execSqpush, Verdict.all, State.needMain_go hm, State.needFeature_go hf, State.needReady_go hr, State.needS_go ha,
    State.needS_go hb, ensure_go hbits, hj, ensure_go rfl, Bool.true_and, Verdict.go_and, Verdict.and_go]
  rfl

theorem exec_sqpush_full (hq : s.requestsFull = true) (hp : s.core.issue.pass = false) :
    exec (.sqpush a b ta tb ck) s = .next (Claims.waits s 0x00) := by
  rw [exec_sqpush_served hm hf hr ha hb hva hj, hq, Bool.not_true, waitFor_hold rfl, Verdict.hold_and, State.issueWith_hold hp, Claims.waits]

variable (hq : s.requestsFull = false) (hc : Claims.mayCommit s ck)
include hq hc

theorem exec_sqpush_appends (hw : ∀ e ∈ s.core.memq, e.op.isWrite = false) : exec (.sqpush a b ta tb ck) s
    = .next (Claims.issued (s.asks.onCore s.me.comp fun x => { x with requests := x.requests ++ [(s.request (s.s a), s.s b)] })) := by
  have hahead : s.asks.writesAhead = 0 := s.writesAhead_eq_zero_iff.mpr hw
  rw [exec_sqpush_served hm hf hr ha hb hva hj, hq, Bool.not_false, waitFor_go rfl, Verdict.go_and, State.needCommit_go hc,
    State.issueWith_go, if_pos hahead, claims_issued_eq]

/-- Behind a write of the task the request waits its turn among the task's operations, as its release asks (R280, R327). -/
theorem exec_sqpush_queues (hw : ∃ e ∈ s.core.memq, e.op.isWrite = true) : exec (.sqpush a b ta tb ck) s
    = .next (Claims.stored s.asks (.sqpush (s.request (s.s a)) (s.s b))) := by
  have hahead : s.asks.writesAhead ≠ 0 := State.writesAhead_ne_zero (s := s) hw
  rw [exec_sqpush_served hm hf hr ha hb hva hj, hq, Bool.not_false, waitFor_go rfl, Verdict.go_and, State.needCommit_go hc,
    State.issueWith_go, if_neg hahead, claims_stored_eq]

end

/-! ### The companion core's instructions -/

/-- The companion core without its head request, whose words are on their way to Sd and Sd+1, and its acquire of the push (R328). -/
def State.takeRequest (d : BitVec 5) (s : State) : State :=
  let r := s.core.requests.headD (0, 0)
  let t : State := { s with core := { s.core with requests := s.core.requests.drop 1 } }
  ((t.send 1 (.s d r.1)).send 1 (.s (d + 1) r.2)).acquire .cluster

theorem State.takeRequest_cons {s : State} {x y : Word} {q : List (Word × Word)} (hq : s.core.requests = (x, y) :: q) (d : BitVec 5) :
    s.takeRequest d
      = ((State.send { s with core := { s.core with requests := q } } 1 (.s d x)).send 1 (.s (d + 1) y)).acquire .cluster := by
  rw [State.takeRequest, hq]; rfl

section
variable {s : State} {d : BitVec 5} (hm : s.me.isComp = true) (h1 : 1 ≤ d.toNat) (h30 : d.toNat ≤ 30)
  (hd : s.core.regs.sIsFull d = true) (hd' : s.core.regs.sIsFull (d + 1) = true)
include hm h1 h30 hd hd'

/-- With its two registers full, SQPOP asks for nothing but a request. -/
theorem exec_sqpop_full : exec (.sqpop d) s = s.issueWith (waitFor (!s.core.requests.isEmpty) 0x00) (State.takeRequest d) := by
  have hr : decide (1 ≤ d.toNat ∧ d.toNat ≤ 30) = true := decide_eq_true ⟨h1, h30⟩
  simp only [exec_sqpop, execSqpop, Verdict.all, State.needComp_go hm, ensure_go hr, State.destS_go hd, State.destS_go hd', Verdict.go_and,
    Verdict.and_go]
  rfl

theorem exec_sqpop_cons {x y : Word} {q : List (Word × Word)} (hq : s.core.requests = (x, y) :: q) :
    exec (.sqpop d) s = .next (Claims.issued
      ((Claims.sends (Claims.sends { s with core := { s.core with requests := q } } 1 (.s d x)) 1 (.s (d + 1) y)).acquire .cluster)) := by
  have hsome : (!s.core.requests.isEmpty) = true := by rw [hq]; rfl
  rw [exec_sqpop_full hm h1 h30 hd hd', waitFor_go hsome, State.issueWith_go, State.takeRequest_cons hq, claims_issued_eq, claims_sends_eq,
    claims_sends_eq]

theorem exec_sqpop_nil (hq : s.core.requests = []) (hp : s.core.issue.pass = false) : exec (.sqpop d) s = .next (Claims.waits s 0x00) := by
  have hnone : (!s.core.requests.isEmpty) = false := by rw [hq]; rfl
  rw [exec_sqpop_full hm h1 h30 hd hd', waitFor_hold hnone, State.issueWith_hold hp, Claims.waits]

end

/-- The low eight bits of Sa name a main core of the companion's own cluster (R329). -/
theorem State.tokenCore_some {s : State} {v : Word} (h : v.toNat < 144) (hc : v.toNat / 12 = s.me.cluster) :
    s.tokenCore v = some ⟨s.me.die, v.setWidth 8⟩ := by
  rw [State.tokenCore, if_pos ⟨h, hc⟩, BitVec.ofNat_toNat]

section
variable {s : State} {a b : BitVec 5} {ta tb : Bool} {c : CoreRef} (hm : s.me.isComp = true) (ha : s.core.regs.sIsFull a = true)
  (hb : s.core.regs.sIsFull b = true) (hc : s.tokenCore (s.s a) = some c) (hw : ∀ e ∈ s.core.memq, e.op.isWrite = false)
  (hx : ∀ o ∈ (s.die s.me.die).sfxOps, o.core ≠ s.me.idx)
include hm ha hb hc hw hx

/-- With legal operands and every earlier write performed, TKPUT asks for nothing but room in a mailbox of a task of its job. -/
theorem exec_tkput_performed : exec (.tkput a b ta tb) s
    = s.issueWith (waitFor (!s.runsJob c s.job || decide ((s.getCore c).regs.mailbox.length < 8)) 0x00) fun t =>
        if s.runsJob c s.job then
          t.onCore c fun x => { x with regs := { x.regs with mailbox := x.regs.mailbox ++ [t.s b], asked := x.regs.asked - 1 } }
        else { t with core := { t.core with lostTokens := t.core.lostTokens ++ [t.s a] } } := by
  have hdone : (decide (s.writesAhead = 0) && !s.mySfx) = true := by
    rw [State.mySfx_eq_false hx, decide_eq_true (s.writesAhead_eq_zero_iff.mpr hw)]; rfl
  simp only [exec_tkput, execTkput, Verdict.all, hc, State.needComp_go hm, State.needS_go ha, State.needS_go hb, ensure_go rfl,
    Option.isSome_some, waitFor_go hdone, Verdict.go_and, Verdict.and_go]

theorem exec_tkput_sends (hj : s.runsJob c s.job = true) (hroom : (s.getCore c).regs.mailbox.length < 8) :
    exec (.tkput a b ta tb) s = .next (Claims.issued (s.onCore c fun x =>
      { x with regs := { x.regs with mailbox := x.regs.mailbox ++ [s.s b], asked := x.regs.asked - 1 } })) := by
  rw [exec_tkput_performed hm ha hb hc hw hx, hj, decide_eq_true hroom, Bool.or_true, waitFor_go rfl, State.issueWith_go, if_pos rfl,
    claims_issued_eq]

theorem exec_tkput_discards (hj : s.runsJob c s.job = false) : exec (.tkput a b ta tb) s
    = .next (Claims.issued { s with core := { s.core with lostTokens := s.core.lostTokens ++ [s.s a] } }) := by
  rw [exec_tkput_performed hm ha hb hc hw hx, hj, Bool.not_false, Bool.true_or, waitFor_go rfl, State.issueWith_go,
    if_neg Bool.false_ne_true, claims_issued_eq]

end

/-! ### The statement -/

/-- Settles O44: the main core's three instructions with the generation core ready or not, then the companion's two, each by its checks. -/
theorem tokenIssue : Obligations.TokenIssue := by
  unfold Obligations.TokenIssue
  intro s a b d ta tb ck p va vb
  refine ⟨fun hm hf hr hp _ => ⟨exec_tktst_unready hm hf hr hp, exec_tkget_unready hm hf hr hp⟩, fun hm hf hr =>
    ⟨fun ha hb hva hj hq hc => ⟨?_, ?_⟩, ?_, exec_tktst_ready hm hf hr, decode_tktst p, decode_tktst 5, exec_tkget_claims hm hf hr,
      exec_tkget_claimed hm hf hr⟩, fun hm => ⟨?_, ?_, fun ha hb hva hcl hw hx => ?_⟩⟩
  · exact exec_sqpush_appends hm hf hr ha hb hva hj hq hc
  · exact exec_sqpush_queues hm hf hr ha hb hva hj hq hc
  · exact exec_sqpush_full hm hf hr
  · exact fun x y q h1 h30 hd hd' hq => exec_sqpop_cons hm h1 h30 hd hd' hq
  · exact exec_sqpop_nil hm
  · have hc : s.tokenCore (s.s a) = some ⟨s.me.die, va.setWidth 8⟩ := State.tokenCore_some hva hcl
    exact ⟨exec_tkput_sends hm ha hb hc hw hx, exec_tkput_discards hm ha hb hc hw hx⟩

end Sys2Proof.Machine
end

section
/-! PROOFS. The round trip of the encoder (R69, R72-R95), for every constructor of the instructions. -/

namespace Sys2Proof.Machine

open Sys2Proof

/-- Settles O2: instruction by instruction, by the round trip of each; an event of the device has no slot, so that it has no word. -/
theorem decodeEncode : Obligations.DecodeEncode := by
  unfold Obligations.DecodeEncode
  intro i
  cases i with
  | add d a b ta tb => exact Laws.RoundTrip.add d a b ta tb
  | sub d a b ta tb => exact Laws.RoundTrip.sub d a b ta tb
  | and d a b ta tb => exact Laws.RoundTrip.and d a b ta tb
  | or d a b ta tb => exact Laws.RoundTrip.or d a b ta tb
  | xor d a b ta tb => exact Laws.RoundTrip.xor d a b ta tb
  | andn d a b ta tb => exact Laws.RoundTrip.andn d a b ta tb
  | shl d a b ta tb => exact Laws.RoundTrip.shl d a b ta tb
  | shr d a b ta tb => exact Laws.RoundTrip.shr d a b ta tb
  | sra d a b ta tb => exact Laws.RoundTrip.sra d a b ta tb
  | rol d a b ta tb => exact Laws.RoundTrip.rol d a b ta tb
  | min d a b ta tb => exact Laws.RoundTrip.min d a b ta tb
  | max d a b ta tb => exact Laws.RoundTrip.max d a b ta tb
  | minu d a b ta tb => exact Laws.RoundTrip.minu d a b ta tb
  | maxu d a b ta tb => exact Laws.RoundTrip.maxu d a b ta tb
  | mul d a b ta tb => exact Laws.RoundTrip.mul d a b ta tb
  | mulh d a b ta tb => exact Laws.RoundTrip.mulh d a b ta tb
  | mulhu d a b ta tb => exact Laws.RoundTrip.mulhu d a b ta tb
  | div d a b ta tb => exact Laws.RoundTrip.div d a b ta tb
  | divu d a b ta tb => exact Laws.RoundTrip.divu d a b ta tb
  | rem d a b ta tb => exact Laws.RoundTrip.rem d a b ta tb
  | remu d a b ta tb => exact Laws.RoundTrip.remu d a b ta tb
  | clz d a ta => exact Laws.RoundTrip.clz d a ta
  | ctz d a ta => exact Laws.RoundTrip.ctz d a ta
  | popc d a ta => exact Laws.RoundTrip.popc d a ta
  | brev d a ta => exact Laws.RoundTrip.brev d a ta
  | sextb d a ta => exact Laws.RoundTrip.sextb d a ta
  | sexth d a ta => exact Laws.RoundTrip.sexth d a ta
  | sextw d a ta => exact Laws.RoundTrip.sextw d a ta
  | zextb d a ta => exact Laws.RoundTrip.zextb d a ta
  | zexth d a ta => exact Laws.RoundTrip.zexth d a ta
  | zextw d a ta => exact Laws.RoundTrip.zextw d a ta
  | mov d a ta => exact Laws.RoundTrip.mov d a ta
  | addi d a ta imm => exact Laws.RoundTrip.addi d a ta imm
  | andi d a ta imm => exact Laws.RoundTrip.andi d a ta imm
  | ori d a ta imm => exact Laws.RoundTrip.ori d a ta imm
  | xori d a ta imm => exact Laws.RoundTrip.xori d a ta imm
  | shli d a ta sh => exact Laws.RoundTrip.shli d a ta sh
  | shri d a ta sh => exact Laws.RoundTrip.shri d a ta sh
  | srai d a ta sh => exact Laws.RoundTrip.srai d a ta sh
  | li d imm => exact Laws.RoundTrip.li d imm
  | liu d imm => exact Laws.RoundTrip.liu d imm
  | bfx d a ta p wm1 => exact Laws.RoundTrip.bfx d a ta p wm1
  | bfi d a ta p wm1 => exact Laws.RoundTrip.bfi d a ta p wm1
  | fsh d a b ta tb c => exact Laws.RoundTrip.fsh d a b ta tb c
  | fshi d a b ta tb n => exact Laws.RoundTrip.fshi d a b ta tb n
  | scmp p a b ta tb cc => exact Laws.RoundTrip.scmp p a b ta tb cc
  | scmpi p a ta cc imm => exact Laws.RoundTrip.scmpi p a ta cc imm
  | plog p pa pb f => exact Laws.RoundTrip.plog p pa pb f
  | sel d a b ta tb p => exact Laws.RoundTrip.sel d a b ta tb p
  | ld d a pm ac sz sx off => exact Laws.RoundTrip.ld d a pm ac sz sx off
  | st d a pm ac sz off => exact Laws.RoundTrip.st d a pm ac sz off
  | ldv d a ta k => exact Laws.RoundTrip.ldv d a ta k
  | valid d mask => exact Laws.RoundTrip.valid d mask
  | valst d a b ta tb mask => exact Laws.RoundTrip.valst d a b ta tb mask
  | casv d a b ta tb k => exact Laws.RoundTrip.casv d a b ta tb k
  | clrv mask => exact Laws.RoundTrip.clrv mask
  | br p neg disp => exact Laws.RoundTrip.br p neg disp
  | call p neg disp => exact Laws.RoundTrip.call p neg disp
  | lexit p neg disp => exact Laws.RoundTrip.lexit p neg disp
  | jr a ta => exact Laws.RoundTrip.jr a ta
  | jalr d a ta => exact Laws.RoundTrip.jalr d a ta
  | loop rot len t n => exact Laws.RoundTrip.loop rot len t n
  | loopi rot len n => exact Laws.RoundTrip.loopi rot len n
  | loopq rot len => exact Laws.RoundTrip.loopq rot len
  | setvrb n => exact Laws.RoundTrip.setvrb n
  | setprb n => exact Laws.RoundTrip.setprb n
  | mfsr d n => exact Laws.RoundTrip.mfsr d n
  | mtsr a ta n => exact Laws.RoundTrip.mtsr a ta n
  | trap code => exact Laws.RoundTrip.trap code
  | sys code => exact Laws.RoundTrip.sys code
  | fadd d a b ta tb dbl => exact Laws.RoundTrip.fadd d a b ta tb dbl
  | fsub d a b ta tb dbl => exact Laws.RoundTrip.fsub d a b ta tb dbl
  | fmul d a b ta tb dbl => exact Laws.RoundTrip.fmul d a b ta tb dbl
  | fdiv d a b ta tb dbl => exact Laws.RoundTrip.fdiv d a b ta tb dbl
  | fmin d a b ta tb dbl => exact Laws.RoundTrip.fmin d a b ta tb dbl
  | fmax d a b ta tb dbl => exact Laws.RoundTrip.fmax d a b ta tb dbl
  | fminn d a b ta tb dbl => exact Laws.RoundTrip.fminn d a b ta tb dbl
  | fmaxn d a b ta tb dbl => exact Laws.RoundTrip.fmaxn d a b ta tb dbl
  | fsqrt d a ta dbl => exact Laws.RoundTrip.fsqrt d a ta dbl
  | fcmp toS d a b ta tb dbl cc => exact Laws.RoundTrip.fcmp toS d a b ta tb dbl cc
  | fcvt d a ta cv rnd => exact Laws.RoundTrip.fcvt d a ta cv rnd
  | amov d a ta => exact Laws.RoundTrip.amov d a ta
  | aadd d a b ta tb => exact Laws.RoundTrip.aadd d a b ta tb
  | aaddi d a ta imm => exact Laws.RoundTrip.aaddi d a ta imm
  | ali d imm => exact Laws.RoundTrip.ali d imm
  | aliu d imm => exact Laws.RoundTrip.aliu d imm
  | astep d => exact Laws.RoundTrip.astep d
  | amode a mode dk param => exact Laws.RoundTrip.amode a mode dk param
  | dset dk imm => exact Laws.RoundTrip.dset dk imm
  | dmov dk a ta => exact Laws.RoundTrip.dmov dk a ta
  | wsetb wk a ta => exact Laws.RoundTrip.wsetb wk a ta
  | wsetl wk a ta => exact Laws.RoundTrip.wsetl wk a ta
  | ard d a ta => exact Laws.RoundTrip.ard d a ta
  | vadd d a b ty m => exact Laws.RoundTrip.vadd d a b ty m
  | vsub d a b ty m => exact Laws.RoundTrip.vsub d a b ty m
  | vmul d a b ty m => exact Laws.RoundTrip.vmul d a b ty m
  | vfma d a b ty m => exact Laws.RoundTrip.vfma d a b ty m
  | vfms d a b ty m => exact Laws.RoundTrip.vfms d a b ty m
  | vmin d a b ty m => exact Laws.RoundTrip.vmin d a b ty m
  | vmax d a b ty m => exact Laws.RoundTrip.vmax d a b ty m
  | vminn d a b ty m => exact Laws.RoundTrip.vminn d a b ty m
  | vmaxn d a b ty m => exact Laws.RoundTrip.vmaxn d a b ty m
  | vabs d a ty m => exact Laws.RoundTrip.vabs d a ty m
  | vneg d a ty m => exact Laws.RoundTrip.vneg d a ty m
  | vand d a b ty m => exact Laws.RoundTrip.vand d a b ty m
  | vor d a b ty m => exact Laws.RoundTrip.vor d a b ty m
  | vxor d a b ty m => exact Laws.RoundTrip.vxor d a b ty m
  | vandn d a b ty m => exact Laws.RoundTrip.vandn d a b ty m
  | vshl d a b ty m => exact Laws.RoundTrip.vshl d a b ty m
  | vshr d a b ty m => exact Laws.RoundTrip.vshr d a b ty m
  | vsra d a b ty m => exact Laws.RoundTrip.vsra d a b ty m
  | vfsh d a b ty m => exact Laws.RoundTrip.vfsh d a b ty m
  | vbfx d a b ty m => exact Laws.RoundTrip.vbfx d a b ty m
  | vcmp cc p a b ty m => exact Laws.RoundTrip.vcmp cc p a b ty m
  | vsel d a b ty m => exact Laws.RoundTrip.vsel d a b ty m
  | vcvt d a dst src sat rnd => exact Laws.RoundTrip.vcvt d a dst src sat rnd
  | vmov d a ty m => exact Laws.RoundTrip.vmov d a ty m
  | vspl d t sr ty m => exact Laws.RoundTrip.vspl d t sr ty m
  | vidx d ty m => exact Laws.RoundTrip.vidx d ty m
  | vcls d a ty m => exact Laws.RoundTrip.vcls d a ty m
  | vrnd d ty m => exact Laws.RoundTrip.vrnd d ty m
  | vscale d a b ty m => exact Laws.RoundTrip.vscale d a b ty m
  | vaddSat d a b ty m => exact Laws.RoundTrip.vaddSat d a b ty m
  | vsubSat d a b ty m => exact Laws.RoundTrip.vsubSat d a b ty m
  | vln d a ty m => exact Laws.RoundTrip.vln d a ty m
  | vexp d a ty m => exact Laws.RoundTrip.vexp d a ty m
  | vlog2 d a ty m => exact Laws.RoundTrip.vlog2 d a ty m
  | vexp2 d a ty m => exact Laws.RoundTrip.vexp2 d a ty m
  | vrcp d a ty m => exact Laws.RoundTrip.vrcp d a ty m
  | vrsq d a ty m => exact Laws.RoundTrip.vrsq d a ty m
  | vsqrt d a ty m => exact Laws.RoundTrip.vsqrt d a ty m
  | vtanh d a ty m => exact Laws.RoundTrip.vtanh d a ty m
  | vsigm d a ty m => exact Laws.RoundTrip.vsigm d a ty m
  | vld d a pm ac off m => exact Laws.RoundTrip.vld d a pm ac off m
  | vst d a pm ac off m => exact Laws.RoundTrip.vst d a pm ac off m
  | vldrb d e m => exact Laws.RoundTrip.vldrb d e m
  | vget sr a t idx ty => exact Laws.RoundTrip.vget sr a t idx ty
  | mldw cid pa pb y ret => exact Laws.RoundTrip.mldw cid pa pb y ret
  | mma cid pa pb y ret => exact Laws.RoundTrip.mma cid pa pb y ret
  | mmag cid pa pb y ret => exact Laws.RoundTrip.mmag cid pa pb y ret
  | mmah cid pa pb y ret => exact Laws.RoundTrip.mmah cid pa pb y ret
  | mzero cid pa pb y ret => exact Laws.RoundTrip.mzero cid pa pb y ret
  | mhand e tile row0 conv => exact Laws.RoundTrip.mhand e tile row0 conv
  | cpy cid pa pb y ret => exact Laws.RoundTrip.cpy cid pa pb y ret
  | csel cid pa pb y ret => exact Laws.RoundTrip.csel cid pa pb y ret
  | cgth cid pa pb y ret => exact Laws.RoundTrip.cgth cid pa pb y ret
  | csct cid pa pb y ret => exact Laws.RoundTrip.csct cid pa pb y ret
  | cqf cid pa pb y ret => exact Laws.RoundTrip.cqf cid pa pb y ret
  | ccol cid pa pb y ret => exact Laws.RoundTrip.ccol cid pa pb y ret
  | wait d => exact Laws.RoundTrip.wait d
  | watch a b ta tb on n => exact Laws.RoundTrip.watch a b ta tb on n
  | semadd a ta ck n => exact Laws.RoundTrip.semadd a ta ck n
  | semaddRemote a b ta tb ck n => exact Laws.RoundTrip.semaddRemote a b ta tb ck n
  | semwt a ta n => exact Laws.RoundTrip.semwt a ta n
  | semtst d a ta n => exact Laws.RoundTrip.semtst d a ta n
  | semset a ta n => exact Laws.RoundTrip.semset a ta n
  | semrd d n => exact Laws.RoundTrip.semrd d n
  | bar l => exact Laws.RoundTrip.bar l
  | fence src dst sc => exact Laws.RoundTrip.fence src dst sc
  | drain sc => exact Laws.RoundTrip.drain sc
  | cwait n => exact Laws.RoundTrip.cwait n
  | gset a ta g => exact Laws.RoundTrip.gset a ta g
  | kld a ta => exact Laws.RoundTrip.kld a ta
  | cbkld a ta => exact Laws.RoundTrip.cbkld a ta
  | yld a ta y => exact Laws.RoundTrip.yld a ta y
  | yset a ta w y => exact Laws.RoundTrip.yset a ta w y
  | cbset a ta n => exact Laws.RoundTrip.cbset a ta n
  | cbwait d n => exact Laws.RoundTrip.cbwait d n
  | cbrel n => exact Laws.RoundTrip.cbrel n
  | cqpush a ta ck => exact Laws.RoundTrip.cqpush a ta ck
  | tdec a ta ck => exact Laws.RoundTrip.tdec a ta ck
  | yield y => exact Laws.RoundTrip.yield y
  | sqpush a b ta tb ck => exact Laws.RoundTrip.sqpush a b ta tb ck
  | tktst p => exact Laws.RoundTrip.tktst p
  | tkget d => exact Laws.RoundTrip.tkget d
  | sxapp a b ta tb ck cnt => exact Laws.RoundTrip.sxapp a b ta tb ck cnt
  | sxqry d a b ta tb n => exact Laws.RoundTrip.sxqry d a b ta tb n
  | sxcfg a b ta tb => exact Laws.RoundTrip.sxcfg a b ta tb
  | sxsave a b ta tb => exact Laws.RoundTrip.sxsave a b ta tb
  | sxload a b ta tb => exact Laws.RoundTrip.sxload a b ta tb
  | sxstat d a ta => exact Laws.RoundTrip.sxstat d a ta
  | evsel a ta n => exact Laws.RoundTrip.evsel a ta n
  | sqpop d => exact Laws.RoundTrip.sqpop d
  | tkput a b ta tb => exact Laws.RoundTrip.tkput a b ta tb
  | fixedLatencyLanding c => exact Laws.RoundTrip.fixedLatencyLanding c
  | variableLatencyLanding c k => exact Laws.RoundTrip.variableLatencyLanding c k
  | scratchpadStorePerform c => exact Laws.RoundTrip.scratchpadStorePerform c
  | writePerformAtHome c k => exact Laws.RoundTrip.writePerformAtHome c k
  | remoteSemaddArrival c k => exact Laws.RoundTrip.remoteSemaddArrival c k
  | tokenLanding c => exact Laws.RoundTrip.tokenLanding c
  | suffixOpPerform die k => exact Laws.RoundTrip.suffixOpPerform die k
  | pageWalk die => exact Laws.RoundTrip.pageWalk die
  | imemReload c => exact Laws.RoundTrip.imemReload c
  | engineDispatch c e => exact Laws.RoundTrip.engineDispatch c e
  | engineRetire c k => exact Laws.RoundTrip.engineRetire c k
  | gatherPartReply c k owner => exact Laws.RoundTrip.gatherPartReply c k owner
  | chunkReceive die group stage src chunk good data => exact Laws.RoundTrip.chunkReceive die group stage src chunk good data
  | taskDecrement k => exact Laws.RoundTrip.taskDecrement k
  | schedulerPlace die core => exact Laws.RoundTrip.schedulerPlace die core
  | dieFreeRequest die core => exact Laws.RoundTrip.dieFreeRequest die core
  | phaseSliceExpiry die => exact Laws.RoundTrip.phaseSliceExpiry die
  | quantumExpiry c => exact Laws.RoundTrip.quantumExpiry c
  | taskRetire c => exact Laws.RoundTrip.taskRetire c
  | trapEntry c cause val => exact Laws.RoundTrip.trapEntry c cause val
  | taskKill c => exact Laws.RoundTrip.taskKill c
  | taskSuspend c => exact Laws.RoundTrip.taskSuspend c
  | yieldRequeue c => exact Laws.RoundTrip.yieldRequeue c
  | checkpointSnapshot c => exact Laws.RoundTrip.checkpointSnapshot c
  | datapathError c => exact Laws.RoundTrip.datapathError c
  | pageMigration va frame => exact Laws.RoundTrip.pageMigration va frame
  | linkDown die link => exact Laws.RoundTrip.linkDown die link
  | functionReady die bit => exact Laws.RoundTrip.functionReady die bit
  | powerLimitChange die isl cur => exact Laws.RoundTrip.powerLimitChange die isl cur
  | hostMemWrite pa data => exact Laws.RoundTrip.hostMemWrite pa data
  | hostMemRead pa len => exact Laws.RoundTrip.hostMemRead pa len
  | hifErrClear v => exact Laws.RoundTrip.hifErrClear v
  | featureAcceptWrite idx v => exact Laws.RoundTrip.featureAcceptWrite idx v
  | hifTdecWrite size v => exact Laws.RoundTrip.hifTdecWrite size v
  | ptrootWrite v => exact Laws.RoundTrip.ptrootWrite v
  | tlbInvalidateVpn vpn => exact Laws.RoundTrip.tlbInvalidateVpn vpn
  | l2SplitWrite die v => exact Laws.RoundTrip.l2SplitWrite die v
  | l2SplitApply die => exact Laws.RoundTrip.l2SplitApply die
  | fabricRankWrite reg v => exact Laws.RoundTrip.fabricRankWrite reg v
  | keyLoad slot => exact Laws.RoundTrip.keyLoad slot
  | keyClear slot => exact Laws.RoundTrip.keyClear slot
  | compStart n v => exact Laws.RoundTrip.compStart n v
  | poisonClear v => exact Laws.RoundTrip.poisonClear v
  | fgrpWrite g v => exact Laws.RoundTrip.fgrpWrite g v
  | devselWrite die idx v => exact Laws.RoundTrip.devselWrite die idx v
  | ckeSaveStart v => exact Laws.RoundTrip.ckeSaveStart v
  | ckeRestoreStart v => exact Laws.RoundTrip.ckeRestoreStart v
  | islRequestWrite die isl v => exact Laws.RoundTrip.islRequestWrite die isl v
  | hifRegisterWrite off size v => exact Laws.RoundTrip.hifRegisterWrite off size v
  | faultRingRoom die => exact Laws.RoundTrip.faultRingRoom die
  | poisonedAcknowledgementPath c => exact Laws.RoundTrip.poisonedAcknowledgementPath c
  | nop => exact Laws.RoundTrip.nop
  | ret => exact Laws.RoundTrip.ret
  | clrrb => exact Laws.RoundTrip.clrrb
  | rett => exact Laws.RoundTrip.rett
  | endTask => exact Laws.RoundTrip.endTask
  | ckpt => exact Laws.RoundTrip.ckpt
  | fwload => exact Laws.RoundTrip.fwload
  | reset => exact Laws.RoundTrip.reset
  | run => exact Laws.RoundTrip.run
  | hifTdecQueueHead => exact Laws.RoundTrip.hifTdecQueueHead
  | tlbInvalidateAll => exact Laws.RoundTrip.tlbInvalidateAll
  | tlbInvalidationDone => exact Laws.RoundTrip.tlbInvalidationDone
  | keyCommandDone => exact Laws.RoundTrip.keyCommandDone
  | poisonClearDone => exact Laws.RoundTrip.poisonClearDone
  | ckeAbort => exact Laws.RoundTrip.ckeAbort
  | ckeRunBegin => exact Laws.RoundTrip.ckeRunBegin
  | ckeRunEnd => exact Laws.RoundTrip.ckeRunEnd

end Sys2Proof.Machine
end

section
/-! PROOFS. Every instruction and event but the host's own writes keeps memory in canonical form and the host's registers; those writes keep
the canonical form, and with it every step does. -/

namespace Sys2Proof.Machine

open Sys2Proof

/-- An instruction or an event that is no write of the host keeps memory in canonical form and the registers of the host. -/
theorem exec_keeps {i : Instr} {s t : State} (hi : Claims.changesHost i = false) (e : exec i s = .next t) : Keeps s t := by
  cases i with
  | add _ _ _ _ _ => exact execAdd_keeps e (.refl s)
  | sub _ _ _ _ _ => exact execSub_keeps e (.refl s)
  | and _ _ _ _ _ => exact execAnd_keeps e (.refl s)
  | or _ _ _ _ _ => exact execOr_keeps e (.refl s)
  | xor _ _ _ _ _ => exact execXor_keeps e (.refl s)
  | andn _ _ _ _ _ => exact execAndn_keeps e (.refl s)
  | shl _ _ _ _ _ => exact execShl_keeps e (.refl s)
  | shr _ _ _ _ _ => exact execShr_keeps e (.refl s)
  | sra _ _ _ _ _ => exact execSra_keeps e (.refl s)
  | rol _ _ _ _ _ => exact execRol_keeps e (.refl s)
  | min _ _ _ _ _ => exact execMin_keeps e (.refl s)
  | max _ _ _ _ _ => exact execMax_keeps e (.refl s)
  | minu _ _ _ _ _ => exact execMinu_keeps e (.refl s)
  | maxu _ _ _ _ _ => exact execMaxu_keeps e (.refl s)
  | mul _ _ _ _ _ => exact execMul_keeps e (.refl s)
  | mulh _ _ _ _ _ => exact execMulh_keeps e (.refl s)
  | mulhu _ _ _ _ _ => exact execMulhu_keeps e (.refl s)
  | div _ _ _ _ _ => exact execDiv_keeps e (.refl s)
  | divu _ _ _ _ _ => exact execDivu_keeps e (.refl s)
  | rem _ _ _ _ _ => exact execRem_keeps e (.refl s)
  | remu _ _ _ _ _ => exact execRemu_keeps e (.refl s)
  | clz _ _ _ => exact execClz_keeps e (.refl s)
  | ctz _ _ _ => exact execCtz_keeps e (.refl s)
  | popc _ _ _ => exact execPopc_keeps e (.refl s)
  | brev _ _ _ => exact execBrev_keeps e (.refl s)
  | sextb _ _ _ => exact execSextb_keeps e (.refl s)
  | sexth _ _ _ => exact execSexth_keeps e (.refl s)
  | sextw _ _ _ => exact execSextw_keeps e (.refl s)
  | zextb _ _ _ => exact execZextb_keeps e (.refl s)
  | zexth _ _ _ => exact execZexth_keeps e (.refl s)
  | zextw _ _ _ => exact execZextw_keeps e (.refl s)
  | mov _ _ _ => exact execMov_keeps e (.refl s)
  | addi _ _ _ _ => exact execAddi_keeps e (.refl s)
  | andi _ _ _ _ => exact execAndi_keeps e (.refl s)
  | ori _ _ _ _ => exact execOri_keeps e (.refl s)
  | xori _ _ _ _ => exact execXori_keeps e (.refl s)
  | shli _ _ _ _ => exact execShli_keeps e (.refl s)
  | shri _ _ _ _ => exact execShri_keeps e (.refl s)
  | srai _ _ _ _ => exact execSrai_keeps e (.refl s)
  | li _ _ => exact execLi_keeps e (.refl s)
  | liu _ _ => exact execLiu_keeps e (.refl s)
  | bfx _ _ _ _ _ => exact execBfx_keeps e (.refl s)
  | bfi _ _ _ _ _ => exact execBfi_keeps e (.refl s)
  | fsh _ _ _ _ _ _ => exact execFsh_keeps e (.refl s)
  | fshi _ _ _ _ _ _ => exact execFshi_keeps e (.refl s)
  | scmp _ _ _ _ _ _ => exact execScmp_keeps e (.refl s)
  | scmpi _ _ _ _ _ => exact execScmpi_keeps e (.refl s)
  | plog _ _ _ _ => exact execPlog_keeps e (.refl s)
  | sel _ _ _ _ _ _ => exact execSel_keeps e (.refl s)
  | ld _ _ _ _ _ _ _ => exact execLd_keeps e (.refl s)
  | st _ _ _ _ _ _ => exact execSt_keeps e (.refl s)
  | ldv _ _ _ _ => exact execLdv_keeps e (.refl s)
  | valid _ _ => exact execValid_keeps e (.refl s)
  | valst _ _ _ _ _ _ => exact execValst_keeps e (.refl s)
  | casv _ _ _ _ _ _ => exact execCasv_keeps e (.refl s)
  | clrv _ => exact execClrv_keeps e (.refl s)
  | br _ _ _ => exact execBr_keeps e (.refl s)
  | call _ _ _ => exact execCall_keeps e (.refl s)
  | lexit _ _ _ => exact execLexit_keeps e (.refl s)
  | jr _ _ => exact execJr_keeps e (.refl s)
  | jalr _ _ _ => exact execJalr_keeps e (.refl s)
  | loop _ _ _ _ => exact execLoop_keeps e (.refl s)
  | loopi _ _ _ => exact execLoopi_keeps e (.refl s)
  | loopq _ _ => exact execLoopq_keeps e (.refl s)
  | setvrb _ => exact execSetvrb_keeps e (.refl s)
  | setprb _ => exact execSetprb_keeps e (.refl s)
  | mfsr _ _ => exact execMfsr_keeps e (.refl s)
  | mtsr _ _ _ => exact execMtsr_keeps e (.refl s)
  | trap _ => exact execTrap_keeps e (.refl s)
  | sys _ => exact execSys_keeps e (.refl s)
  | fadd _ _ _ _ _ _ => exact execFadd_keeps e (.refl s)
  | fsub _ _ _ _ _ _ => exact execFsub_keeps e (.refl s)
  | fmul _ _ _ _ _ _ => exact execFmul_keeps e (.refl s)
  | fdiv _ _ _ _ _ _ => exact execFdiv_keeps e (.refl s)
  | fmin _ _ _ _ _ _ => exact execFmin_keeps e (.refl s)
  | fmax _ _ _ _ _ _ => exact execFmax_keeps e (.refl s)
  | fminn _ _ _ _ _ _ => exact execFminn_keeps e (.refl s)
  | fmaxn _ _ _ _ _ _ => exact execFmaxn_keeps e (.refl s)
  | fsqrt _ _ _ _ => exact execFsqrt_keeps e (.refl s)
  | fcmp _ _ _ _ _ _ _ _ => exact execFcmp_keeps e (.refl s)
  | fcvt _ _ _ _ _ => exact execFcvt_keeps e (.refl s)
  | amov _ _ _ => exact execAmov_keeps e (.refl s)
  | aadd _ _ _ _ _ => exact execAadd_keeps e (.refl s)
  | aaddi _ _ _ _ => exact execAaddi_keeps e (.refl s)
  | ali _ _ => exact execAli_keeps e (.refl s)
  | aliu _ _ => exact execAliu_keeps e (.refl s)
  | astep _ => exact execAstep_keeps e (.refl s)
  | amode _ _ _ _ => exact execAmode_keeps e (.refl s)
  | dset _ _ => exact execDset_keeps e (.refl s)
  | dmov _ _ _ => exact execDmov_keeps e (.refl s)
  | wsetb _ _ _ => exact execWsetb_keeps e (.refl s)
  | wsetl _ _ _ => exact execWsetl_keeps e (.refl s)
  | ard _ _ _ => exact execArd_keeps e (.refl s)
  | vadd _ _ _ _ _ => exact execVadd_keeps e (.refl s)
  | vsub _ _ _ _ _ => exact execVsub_keeps e (.refl s)
  | vmul _ _ _ _ _ => exact execVmul_keeps e (.refl s)
  | vfma _ _ _ _ _ => exact execVfma_keeps e (.refl s)
  | vfms _ _ _ _ _ => exact execVfms_keeps e (.refl s)
  | vmin _ _ _ _ _ => exact execVmin_keeps e (.refl s)
  | vmax _ _ _ _ _ => exact execVmax_keeps e (.refl s)
  | vminn _ _ _ _ _ => exact execVminn_keeps e (.refl s)
  | vmaxn _ _ _ _ _ => exact execVmaxn_keeps e (.refl s)
  | vabs _ _ _ _ => exact execVabs_keeps e (.refl s)
  | vneg _ _ _ _ => exact execVneg_keeps e (.refl s)
  | vand _ _ _ _ _ => exact execVand_keeps e (.refl s)
  | vor _ _ _ _ _ => exact execVor_keeps e (.refl s)
  | vxor _ _ _ _ _ => exact execVxor_keeps e (.refl s)
  | vandn _ _ _ _ _ => exact execVandn_keeps e (.refl s)
  | vshl _ _ _ _ _ => exact execVshl_keeps e (.refl s)
  | vshr _ _ _ _ _ => exact execVshr_keeps e (.refl s)
  | vsra _ _ _ _ _ => exact execVsra_keeps e (.refl s)
  | vfsh _ _ _ _ _ => exact execVfsh_keeps e (.refl s)
  | vbfx _ _ _ _ _ => exact execVbfx_keeps e (.refl s)
  | vcmp _ _ _ _ _ _ => exact execVcmp_keeps e (.refl s)
  | vsel _ _ _ _ _ => exact execVsel_keeps e (.refl s)
  | vcvt _ _ _ _ _ _ => exact execVcvt_keeps e (.refl s)
  | vmov _ _ _ _ => exact execVmov_keeps e (.refl s)
  | vspl _ _ _ _ _ => exact execVspl_keeps e (.refl s)
  | vidx _ _ _ => exact execVidx_keeps e (.refl s)
  | vcls _ _ _ _ => exact execVcls_keeps e (.refl s)
  | vrnd _ _ _ => exact execVrnd_keeps e (.refl s)
  | vscale _ _ _ _ _ => exact execVscale_keeps e (.refl s)
  | vaddSat _ _ _ _ _ => exact execVaddSat_keeps e (.refl s)
  | vsubSat _ _ _ _ _ => exact execVsubSat_keeps e (.refl s)
  | vln _ _ _ _ => exact execVln_keeps e (.refl s)
  | vexp _ _ _ _ => exact execVexp_keeps e (.refl s)
  | vlog2 _ _ _ _ => exact execVlog2_keeps e (.refl s)
  | vexp2 _ _ _ _ => exact execVexp2_keeps e (.refl s)
  | vrcp _ _ _ _ => exact execVrcp_keeps e (.refl s)
  | vrsq _ _ _ _ => exact execVrsq_keeps e (.refl s)
  | vsqrt _ _ _ _ => exact execVsqrt_keeps e (.refl s)
  | vtanh _ _ _ _ => exact execVtanh_keeps e (.refl s)
  | vsigm _ _ _ _ => exact execVsigm_keeps e (.refl s)
  | vld _ _ _ _ _ _ => exact execVld_keeps e (.refl s)
  | vst _ _ _ _ _ _ => exact execVst_keeps e (.refl s)
  | vldrb _ _ _ => exact execVldrb_keeps e (.refl s)
  | vget _ _ _ _ _ => exact execVget_keeps e (.refl s)
  | mldw _ _ _ _ _ => exact execMldw_keeps e (.refl s)
  | mma _ _ _ _ _ => exact execMma_keeps e (.refl s)
  | mmag _ _ _ _ _ => exact execMmag_keeps e (.refl s)
  | mmah _ _ _ _ _ => exact execMmah_keeps e (.refl s)
  | mzero _ _ _ _ _ => exact execMzero_keeps e (.refl s)
  | mhand _ _ _ _ => exact execMhand_keeps e (.refl s)
  | cpy _ _ _ _ _ => exact execCpy_keeps e (.refl s)
  | csel _ _ _ _ _ => exact execCsel_keeps e (.refl s)
  | cgth _ _ _ _ _ => exact execCgth_keeps e (.refl s)
  | csct _ _ _ _ _ => exact execCsct_keeps e (.refl s)
  | cqf _ _ _ _ _ => exact execCqf_keeps e (.refl s)
  | ccol _ _ _ _ _ => exact execCcol_keeps e (.refl s)
  | wait _ => exact execWait_keeps e (.refl s)
  | watch _ _ _ _ _ _ => exact execWatch_keeps e (.refl s)
  | semadd _ _ _ _ => exact execSemadd_keeps e (.refl s)
  | semaddRemote _ _ _ _ _ _ => exact execSemaddRemote_keeps e (.refl s)
  | semwt _ _ _ => exact execSemwt_keeps e (.refl s)
  | semtst _ _ _ _ => exact execSemtst_keeps e (.refl s)
  | semset _ _ _ => exact execSemset_keeps e (.refl s)
  | semrd _ _ => exact execSemrd_keeps e (.refl s)
  | bar _ => exact execBar_keeps e (.refl s)
  | fence _ _ _ => exact execFence_keeps e (.refl s)
  | drain _ => exact execDrain_keeps e (.refl s)
  | cwait _ => exact execCwait_keeps e (.refl s)
  | gset _ _ _ => exact execGset_keeps e (.refl s)
  | kld _ _ => exact execKld_keeps e (.refl s)
  | cbkld _ _ => exact execCbkld_keeps e (.refl s)
  | yld _ _ _ => exact execYld_keeps e (.refl s)
  | yset _ _ _ _ => exact execYset_keeps e (.refl s)
  | cbset _ _ _ => exact execCbset_keeps e (.refl s)
  | cbwait _ _ => exact execCbwait_keeps e (.refl s)
  | cbrel _ => exact execCbrel_keeps e (.refl s)
  | cqpush _ _ _ => exact execCqpush_keeps e (.refl s)
  | tdec _ _ _ => exact execTdec_keeps e (.refl s)
  | yield _ => exact execYield_keeps e (.refl s)
  | sqpush _ _ _ _ _ => exact execSqpush_keeps e (.refl s)
  | tktst _ => exact execTktst_keeps e (.refl s)
  | tkget _ => exact execTkget_keeps e (.refl s)
  | sxapp _ _ _ _ _ _ => exact execSxapp_keeps e (.refl s)
  | sxqry _ _ _ _ _ _ => exact execSxqry_keeps e (.refl s)
  | sxcfg _ _ _ _ => exact execSxcfg_keeps e (.refl s)
  | sxsave _ _ _ _ => exact execSxsave_keeps e (.refl s)
  | sxload _ _ _ _ => exact execSxload_keeps e (.refl s)
  | sxstat _ _ _ => exact execSxstat_keeps e (.refl s)
  | evsel _ _ _ => exact execEvsel_keeps e (.refl s)
  | sqpop _ => exact execSqpop_keeps e (.refl s)
  | tkput _ _ _ _ => exact execTkput_keeps e (.refl s)
  | fixedLatencyLanding _ => exact execFixedLatencyLanding_keeps e (.refl s)
  | variableLatencyLanding _ _ => exact execVariableLatencyLanding_keeps e (.refl s)
  | scratchpadStorePerform _ => exact execScratchpadStorePerform_keeps e (.refl s)
  | writePerformAtHome _ _ => exact execWritePerformAtHome_keeps e (.refl s)
  | remoteSemaddArrival _ _ => exact execRemoteSemaddArrival_keeps e (.refl s)
  | tokenLanding _ => exact execTokenLanding_keeps e (.refl s)
  | suffixOpPerform _ _ => exact execSuffixOpPerform_keeps e (.refl s)
  | pageWalk _ => exact execPageWalk_keeps e (.refl s)
  | imemReload _ => exact execImemReload_keeps e (.refl s)
  | engineDispatch _ _ => exact execEngineDispatch_keeps e (.refl s)
  | engineRetire _ _ => exact execEngineRetire_keeps e (.refl s)
  | gatherPartReply _ _ _ => exact execGatherPartReply_keeps e (.refl s)
  | chunkReceive _ _ _ _ _ _ _ => exact execChunkReceive_keeps e (.refl s)
  | taskDecrement _ => exact execTaskDecrement_keeps e (.refl s)
  | schedulerPlace _ _ => exact execSchedulerPlace_keeps e (.refl s)
  | dieFreeRequest die core => exact execDieFreeRequest_keeps (show execDieFreeRequest die core s = .next t from e) (.refl s)
  | phaseSliceExpiry _ => exact execPhaseSliceExpiry_keeps e (.refl s)
  | quantumExpiry _ => exact execQuantumExpiry_keeps e (.refl s)
  | taskRetire _ => exact execTaskRetire_keeps e (.refl s)
  | trapEntry _ _ _ => exact execTrapEntry_keeps e (.refl s)
  | taskKill _ => exact execTaskKill_keeps e (.refl s)
  | taskSuspend _ => exact execTaskSuspend_keeps e (.refl s)
  | yieldRequeue _ => exact execYieldRequeue_keeps e (.refl s)
  | checkpointSnapshot _ => exact execCheckpointSnapshot_keeps e (.refl s)
  | datapathError _ => exact execDatapathError_keeps e (.refl s)
  | pageMigration _ _ => exact execPageMigration_keeps e (.refl s)
  | linkDown _ _ => exact execLinkDown_keeps e (.refl s)
  | functionReady _ _ => exact execFunctionReady_keeps e (.refl s)
  | powerLimitChange _ _ _ => exact execPowerLimitChange_keeps e (.refl s)
  | hostMemWrite _ _ => exact execHostMemWrite_keeps e (.refl s)
  | hostMemRead _ _ => exact execHostMemRead_keeps e (.refl s)
  | hifErrClear _ => exact execHifErrClear_keeps e (.refl s)
  | featureAcceptWrite _ _ => exact Bool.noConfusion hi
  | hifTdecWrite _ _ => exact execHifTdecWrite_keeps e (.refl s)
  | ptrootWrite _ => exact Bool.noConfusion hi
  | tlbInvalidateVpn _ => exact execTlbInvalidateVpn_keeps e (.refl s)
  | l2SplitWrite _ _ => exact execL2SplitWrite_keeps e (.refl s)
  | l2SplitApply _ => exact execL2SplitApply_keeps e (.refl s)
  | fabricRankWrite _ _ => exact Bool.noConfusion hi
  | keyLoad _ => exact execKeyLoad_keeps e (.refl s)
  | keyClear _ => exact execKeyClear_keeps e (.refl s)
  | compStart _ _ => exact execCompStart_keeps e (.refl s)
  | poisonClear _ => exact execPoisonClear_keeps e (.refl s)
  | fgrpWrite _ _ => exact execFgrpWrite_keeps e (.refl s)
  | devselWrite _ _ _ => exact execDevselWrite_keeps e (.refl s)
  | ckeSaveStart _ => exact execCkeSaveStart_keeps e (.refl s)
  | ckeRestoreStart _ => exact execCkeRestoreStart_keeps e (.refl s)
  | islRequestWrite _ _ _ => exact execIslRequestWrite_keeps e (.refl s)
  | hifRegisterWrite _ _ _ => exact Bool.noConfusion hi
  | faultRingRoom _ => exact execFaultRingRoom_keeps e (.refl s)
  | poisonedAcknowledgementPath _ => exact execPoisonedAcknowledgementPath_keeps e (.refl s)
  | nop => exact execNop_keeps e (.refl s)
  | ret => exact execRet_keeps e (.refl s)
  | clrrb => exact execClrrb_keeps e (.refl s)
  | rett => exact execRett_keeps e (.refl s)
  | endTask => exact execEndTask_keeps e (.refl s)
  | ckpt => exact execCkpt_keeps e (.refl s)
  | fwload => exact Bool.noConfusion hi
  | reset => exact Bool.noConfusion hi
  | run => exact Bool.noConfusion hi
  | hifTdecQueueHead => exact execHifTdecQueueHead_keeps e (.refl s)
  | tlbInvalidateAll => exact execTlbInvalidateAll_keeps e (.refl s)
  | tlbInvalidationDone => exact execTlbInvalidationDone_keeps e (.refl s)
  | keyCommandDone => exact Bool.noConfusion hi
  | poisonClearDone => exact execPoisonClearDone_keeps e (.refl s)
  | ckeAbort => exact execCkeAbort_keeps e (.refl s)
  | ckeRunBegin => exact execCkeRunBegin_keeps e (.refl s)
  | ckeRunEnd => exact execCkeRunEnd_keeps e (.refl s)

/-- A write of the host, the end of a key command, a reset and a firmware load keep memory in canonical form. -/
theorem exec_changesHost_wf {i : Instr} {s : State} (hi : Claims.changesHost i = true) (h : Memory.wf s.mem = true) : Out.wf (exec i s) := by
  intro u e
  cases i with
  | featureAcceptWrite _ _ => exact execFeatureAcceptWrite_mem e h
  | ptrootWrite _ => exact execPtrootWrite_mem e h
  | fabricRankWrite _ _ => exact execFabricRankWrite_mem e h
  | hifRegisterWrite _ _ _ => exact execHifRegisterWrite_mem e h
  | fwload => exact execFwload_mem e h
  | reset => exact execReset_mem e h
  | run => exact execRun_mem e h
  | keyCommandDone => exact execKeyCommandDone_mem e h
  | _ => exact Bool.noConfusion hi

/-- Every instruction and every event keeps memory in canonical form. -/
theorem exec_wf (i : Instr) (s : State) (h : Memory.wf s.mem = true) : Out.wf (exec i s) := by
  cases hi : Claims.changesHost i with
  | true => exact exec_changesHost_wf hi h
  | false => exact fun u e => (exec_keeps hi e).mem h

/-- Settles O48: a step runs instructions and events, each of which keeps the canonical form (`exec_wf`), through the laws of the run loop. -/
theorem memoryCanonical : Obligations.MemoryCanonical := by
  unfold Obligations.MemoryCanonical
  intro s t h e
  exact runStep_mem exec_wf h t e

/-- What `Keeps` says of the host's registers, in the words of the statements. -/
theorem Keeps.keepsHost {s t : State} (h : Keeps s t) : Claims.keepsHost s t := by
  have hh := h.host
  simp only [Device.host, Prod.mk.injEq] at hh
  obtain ⟨hrun, haccept, hfwAddr, hfwLen, hfwMain, hfwComp, hptroot, hrank, hgrp, hkeys, hapt⟩ := hh
  exact ⟨hrun, haccept, hfwAddr, hfwLen, hfwMain, hfwComp, hptroot, hrank, hgrp, hkeys, hapt⟩

/-- Settles O55: of every instruction and event but the eight that write them, by the laws of what each operation keeps. -/
theorem hostRegistersKept : Obligations.HostRegistersKept := by
  unfold Obligations.HostRegistersKept
  intro i s t hi e
  exact (exec_keeps hi e).keepsHost

end Sys2Proof.Machine
end

section
/-! PROOFS. The instructions that only send a result: each makes the checks of its operands and then sends what its table gives, so that one lemma
(`exec_row`) says what all of them do with full registers, and what with empty ones (R127). -/

namespace Sys2Proof.Machine

open Sys2Proof

/-! ### The checks of the operands -/

/-- The check that an operand of a table makes (R127). -/
def operandCheck (s : State) (o : Claims.Operand) : Verdict := if o.isA then s.needA o.n o.trap else s.needS o.n o.trap

theorem operandCheck_S (s : State) (n : BitVec 5) (t : Bool) : operandCheck s (Claims.S n t) = s.needS n t := rfl
theorem operandCheck_A (s : State) (n : BitVec 5) (t : Bool) : operandCheck s (Claims.A n t) = s.needA n t := rfl

/-- Writing an S register asks for what reading it without the trap-if-empty bit asks. -/
theorem State.destS_eq_needS (s : State) (n : BitVec 5) : s.destS n = s.needS n false := rfl

theorem State.destA_eq_needA (s : State) (n : BitVec 5) : s.destA n = s.needA n false := by
  unfold State.destA State.needA
  split
  · exact s.destS_eq_needS n
  · rfl

/-- An operand passes when it is full; an empty one traps with the trap-if-empty bit and holds without it. -/
theorem operandCheck_eq (s : State) (o : Claims.Operand) :
    operandCheck s o = if o.full s then .go else if o.trap then .trap 0x04 (o.trapVal s) else .hold 0x03 := by
  obtain ⟨isA, n, trap⟩ := o
  cases hc : s.me.isComp <;> cases isA <;>
    simp [operandCheck, Claims.Operand.full, Claims.Operand.trapVal, State.needA, State.needS, State.comp, hc, Regs.sIsFull, Regs.aIsFull]

/-- The checks of a list of operands. -/
def operandChecks (s : State) (l : List Claims.Operand) : Verdict := .all (l.map (operandCheck s))

theorem operandChecks_cons (s : State) (o : Claims.Operand) (l : List Claims.Operand) :
    operandChecks s (o :: l) = (operandCheck s o).and (operandChecks s l) := rfl

theorem operandChecks_one (s : State) (o : Claims.Operand) : operandChecks s [o] = operandCheck s o := Verdict.and_go _

theorem operandChecks_two (s : State) (o p : Claims.Operand) : operandChecks s [o, p] = (operandCheck s o).and (operandCheck s p) := by
  rw [operandChecks_cons, operandChecks_one]

theorem operandChecks_go {s : State} {l : List Claims.Operand} (h : Claims.allFull s l = true) : operandChecks s l = .go := by
  induction l with
  | nil => rfl
  | cons o l ih =>
    obtain ⟨ho, hl⟩ : o.full s = true ∧ Claims.allFull s l = true := by simpa [Claims.allFull] using h
    rw [operandChecks_cons, operandCheck_eq, if_pos ho, ih hl, Verdict.go_and]

/-- One operand that is empty and has no trap-if-empty bit holds the bundle, since a hold goes before every trap (R71). -/
theorem operandChecks_hold {s : State} {l : List Claims.Operand} {o : Claims.Operand} (hm : o ∈ l) (he : o.full s = false) (ht : o.trap = false) :
    operandChecks s l = .hold 0x03 := by
  induction l with
  | nil => cases hm
  | cons q l ih =>
    rw [operandChecks_cons, operandCheck_eq]
    cases hm with
    | head => simp [he, ht, Verdict.and]
    | tail _ hm =>
      rw [ih hm]
      cases q.full s <;> cases q.trap <;> rfl

/-- Where every empty operand has the trap-if-empty bit, no check holds the bundle. -/
theorem operandChecks_trap_or_go {s : State} {l : List Claims.Operand} (h : ∀ q ∈ l, q.full s = false → q.trap = true) :
    operandChecks s l = .go ∨ ∃ v, operandChecks s l = .trap 0x04 v := by
  induction l with
  | nil => exact .inl rfl
  | cons q l ih =>
    rw [operandChecks_cons, operandCheck_eq]
    cases hq : q.full s with
    | true => simpa [Verdict.go_and] using ih fun r hr => h r (.tail _ hr)
    | false =>
      right
      refine ⟨q.trapVal s, ?_⟩
      obtain hl | ⟨v, hl⟩ := ih fun r hr => h r (.tail _ hr) <;> simp [hl, h q (.head _) hq, Verdict.and]

/-- The first empty operand gives the trap, where each empty one has the trap-if-empty bit. -/
theorem operandChecks_trap {s : State} {l t : List Claims.Operand} {o : Claims.Operand} (hl : Claims.allFull s l = true) (ho : o.full s = false)
    (h : ∀ q ∈ l ++ o :: t, q.full s = false → q.trap = true) : operandChecks s (l ++ o :: t) = .trap 0x04 (o.trapVal s) := by
  induction l with
  | nil =>
    rw [List.nil_append, operandChecks_cons, operandCheck_eq]
    obtain ht | ⟨v, ht⟩ := operandChecks_trap_or_go (s := s) (l := t) fun q hq => h q (.tail _ hq) <;>
      simp [ht, ho, h o (.head _) ho, Verdict.and]
  | cons q l ih =>
    obtain ⟨hq, hl⟩ : q.full s = true ∧ Claims.allFull s l = true := by simpa [Claims.allFull] using hl
    rw [List.cons_append, operandChecks_cons, operandCheck_eq, if_pos hq, Verdict.go_and]
    exact ih hl fun r hr => h r (.tail _ hr)

theorem Verdict.and_assoc (a b c : Verdict) : (a.and b).and c = a.and (b.and c) := by
  cases a <;> cases b <;> cases c <;> rfl

theorem Verdict.and_self (a : Verdict) : a.and a = a := by cases a <;> rfl

/-! ### Rows -/

/-- An instruction makes the checks of a row's operands and then sends the row's result. -/
def Sends (i : Instr) (r : Claims.Row) : Prop :=
  ∀ s, exec i s = s.issueWith (operandChecks s r.ops) fun t => t.send r.lat (r.what t) (r.flags t)

/-- With its registers full such an instruction issues, with its result on its way. -/
theorem Sends.full {i : Instr} {r : Claims.Row} {s : State} (h : Sends i r) (hf : Claims.allFull s r.ops = true) :
    exec i s = .next (Claims.answer s r.lat (r.what s) (r.flags s)) := by
  rw [h, operandChecks_go hf, State.issueWith_go, State.mark_send]

theorem Sends.hold {i : Instr} {r : Claims.Row} {s : State} {o : Claims.Operand} (h : Sends i r) (hp : s.core.issue.pass = false) (hm : o ∈ r.ops)
    (he : o.full s = false) (ht : o.trap = false) : exec i s = .next (Claims.waits s 0x03) := by
  rw [h, operandChecks_hold hm he ht, State.issueWith_hold hp, Claims.waits]

theorem Sends.trap {i : Instr} {r : Claims.Row} {s : State} {l t : List Claims.Operand} {o : Claims.Operand} (h : Sends i r)
    (hp : s.core.issue.pass = false) (hr : r.ops = l ++ o :: t) (hl : Claims.allFull s l = true) (ho : o.full s = false)
    (ht : ∀ q ∈ r.ops, q.full s = false → q.trap = true) : exec i s = .next (Claims.traps s 0x04 (o.trapVal s)) := by
  rw [hr] at ht
  rw [h, hr, operandChecks_trap hl ho ht, State.issueWith_trap hp, Claims.traps]

/-! ### Scalar results -/

section
variable {i : Instr} {r : Claims.Row} {d a b : BitVec 5} {ta tb : Bool}

theorem sends_row2_of {lat : Nat} {f : Word → Word → Word} (g : Word → Word → Word) (he : ∀ s, exec i s = s.alu2 d a b ta tb lat g)
    (hfg : ∀ x y, g x y = f x y) (hr : Claims.row2 d a b ta tb lat f = some r) : Sends i r := by
  obtain rfl : g = f := funext fun x => funext (hfg x)
  obtain rfl := Option.some.inj hr
  exact he

theorem sends_row2 {lat : Nat} {f : Word → Word → Word} (he : ∀ s, exec i s = s.alu2 d a b ta tb lat f)
    (hr : Claims.row2 d a b ta tb lat f = some r) : Sends i r := sends_row2_of f he (fun _ _ => rfl) hr

theorem sends_row1 {f : Word → Word} (he : ∀ s, exec i s = s.alu1 d a ta f) (hr : Claims.row1 d a ta f = some r) : Sends i r := by
  obtain rfl := Option.some.inj hr
  exact he

end

/-- The signed comparison of two words (R134, R142). -/
theorem slt_eq_decide (x y : Word) : x.slt y = decide (x.toInt < y.toInt) := rfl

theorem ult_eq_decide (x y : Word) : x.ult y = decide (x.toNat < y.toNat) := rfl

/-- The low six bits of a shift amount. -/
theorem bits_low6 (y : Word) : bits y 0 6 = y.toNat % 64 := rfl

/-- The high half of a signed product (R134). -/
theorem mulh_eq (x y : Word) : BitVec.ofInt 64 (x.toInt * y.toInt / 2 ^ 64) = (x.signExtend 128 * y.signExtend 128).extractLsb' 64 64 := by
  have hprod : x.signExtend 128 * y.signExtend 128 = BitVec.ofInt 128 (x.toInt * y.toInt) := by
    rw [BitVec.signExtend, BitVec.signExtend, BitVec.ofInt_mul]
  apply BitVec.eq_of_toNat_eq
  rw [hprod, BitVec.extractLsb'_toNat, BitVec.toNat_ofInt, BitVec.toNat_ofInt, Nat.shiftRight_eq_div_pow]
  generalize x.toInt * y.toInt = p
  omega

/-- The high half of an unsigned product (R134). -/
theorem mulhu_eq (x y : Word) : BitVec.ofNat 64 (x.toNat * y.toNat / 2 ^ 64) = (x.setWidth 128 * y.setWidth 128).extractLsb' 64 64 := by
  have hlt : x.toNat * y.toNat < 2 ^ 64 * 2 ^ 64 := Nat.mul_lt_mul'' x.isLt y.isLt
  have hx : x.toNat % 2 ^ 128 = x.toNat := Nat.mod_eq_of_lt (Nat.lt_trans x.isLt (by decide))
  have hy : y.toNat % 2 ^ 128 = y.toNat := Nat.mod_eq_of_lt (Nat.lt_trans y.isLt (by decide))
  apply BitVec.eq_of_toNat_eq
  rw [BitVec.extractLsb'_toNat, BitVec.toNat_mul, BitVec.toNat_setWidth, BitVec.toNat_setWidth, BitVec.toNat_ofNat, hx, hy,
    Nat.shiftRight_eq_div_pow, Nat.mod_eq_of_lt (b := 2 ^ 128) (by omega)]

theorem scalarRow_sends {i : Instr} {r : Claims.Row} (h : Claims.scalarRow i = some r) : Sends i r := by
  cases i with
  | add => exact sends_row2 (f := fun x y => x + y) (fun _ => rfl) h
  | sub => exact sends_row2 (f := fun x y => x - y) (fun _ => rfl) h
  | and => exact sends_row2 (f := fun x y => x &&& y) (fun _ => rfl) h
  | or => exact sends_row2 (f := fun x y => x ||| y) (fun _ => rfl) h
  | xor => exact sends_row2 (f := fun x y => x ^^^ y) (fun _ => rfl) h
  | andn => exact sends_row2 (f := fun x y => x &&& ~~~y) (fun _ => rfl) h
  | shl => exact sends_row2_of (f := fun x y => x <<< (y.toNat % 64)) (fun x y => x <<< bits y 0 6) (fun _ => rfl) (fun x y => by simp [bits_low6]) h
  | shr => exact sends_row2_of (f := fun x y => x >>> (y.toNat % 64)) (fun x y => x >>> bits y 0 6) (fun _ => rfl) (fun x y => by simp [bits_low6]) h
  | sra => exact sends_row2_of (f := fun x y => x.sshiftRight (y.toNat % 64)) (fun x y => x.sshiftRight (bits y 0 6)) (fun _ => rfl) (fun x y => by simp [bits_low6]) h
  | rol => exact sends_row2_of (f := fun x y => x.rotateLeft (y.toNat % 64)) (fun x y => x.rotateLeft (bits y 0 6)) (fun _ => rfl) (fun x y => by simp [bits_low6]) h
  | min => exact sends_row2_of (f := fun x y => if x.slt y then x else y) (fun x y => if x.toInt < y.toInt then x else y) (fun _ => rfl) (fun x y => by simp [slt_eq_decide]) h
  | max => exact sends_row2_of (f := fun x y => if x.slt y then y else x) (fun x y => if x.toInt < y.toInt then y else x) (fun _ => rfl) (fun x y => by simp [slt_eq_decide]) h
  | minu => exact sends_row2_of (f := fun x y => if x.ult y then x else y) (fun x y => if x.toNat < y.toNat then x else y) (fun _ => rfl) (fun x y => by simp [ult_eq_decide]) h
  | maxu => exact sends_row2_of (f := fun x y => if x.ult y then y else x) (fun x y => if x.toNat < y.toNat then y else x) (fun _ => rfl) (fun x y => by simp [ult_eq_decide]) h
  | mul => exact sends_row2 (f := fun x y => x * y) (fun _ => rfl) h
  | mulh => exact sends_row2_of (fun x y => BitVec.ofInt 64 (x.toInt * y.toInt / 2 ^ 64)) (fun _ => rfl) mulh_eq h
  | mulhu => exact sends_row2_of (fun x y => BitVec.ofNat 64 (x.toNat * y.toNat / 2 ^ 64)) (fun _ => rfl) mulhu_eq h
  | brev d a ta => exact sends_row1 (f := fun x => x.reverse) (fun _ => rfl) h
  | sextb d a ta => exact sends_row1 (f := fun x => (x.setWidth 8).signExtend 64) (fun _ => rfl) h
  | sexth d a ta => exact sends_row1 (f := fun x => (x.setWidth 16).signExtend 64) (fun _ => rfl) h
  | sextw d a ta => exact sends_row1 (f := fun x => (x.setWidth 32).signExtend 64) (fun _ => rfl) h
  | zextb d a ta => exact sends_row1 (f := fun x => (x.setWidth 8).setWidth 64) (fun _ => rfl) h
  | zexth d a ta => exact sends_row1 (f := fun x => (x.setWidth 16).setWidth 64) (fun _ => rfl) h
  | zextw d a ta => exact sends_row1 (f := fun x => (x.setWidth 32).setWidth 64) (fun _ => rfl) h
  | mov d a ta => exact sends_row1 (f := fun x => x) (fun _ => rfl) h
  | addi d a ta imm => exact sends_row1 (f := fun x => x + imm.signExtend 64) (fun _ => rfl) h
  | andi d a ta imm => exact sends_row1 (f := fun x => x &&& imm.signExtend 64) (fun _ => rfl) h
  | ori d a ta imm => exact sends_row1 (f := fun x => x ||| imm.setWidth 64) (fun _ => rfl) h
  | xori d a ta imm => exact sends_row1 (f := fun x => x ^^^ imm.setWidth 64) (fun _ => rfl) h
  | shli d a ta sh => exact sends_row1 (f := fun x => x <<< sh.toNat) (fun _ => rfl) h
  | shri d a ta sh => exact sends_row1 (f := fun x => x >>> sh.toNat) (fun _ => rfl) h
  | srai d a ta sh => exact sends_row1 (f := fun x => x.sshiftRight sh.toNat) (fun _ => rfl) h
  | li d imm => obtain rfl := Option.some.inj h; exact fun s => by rw [operandChecks_one]; rfl
  | liu d imm => obtain rfl := Option.some.inj h; exact fun s => by rw [operandChecks_one]; rfl
  | fsh => obtain rfl := Option.some.inj h; exact fun _ => rfl
  | fshi d a b ta tb n => exact sends_row2 (f := fun x y => funnel x y n.toNat) (fun _ => rfl) h
  | sel => obtain rfl := Option.some.inj h; exact fun _ => rfl
  | _ => cases h

/-! ### Predicates from scalars -/

theorem SCond.holds_eq (cc : SCond) (x y : Word) : SCond.holds cc x y = Claims.compares cc x y := by
  cases cc with
  | eq => rfl
  | ne => rfl
  | lt => rfl
  | ge => simp [SCond.holds, Claims.compares, slt_eq_decide, ← decide_not]
  | ltu => rfl
  | geu => simp [SCond.holds, Claims.compares, ult_eq_decide, ← decide_not]

theorem predicateRow_sends {i : Instr} {r : Claims.Row} (h : Claims.predicateRow i = some r) : Sends i r := by
  cases i with
  | scmp => obtain rfl := Option.some.inj h; exact fun s => by simp only [← SCond.holds_eq]; rfl
  | scmpi => obtain rfl := Option.some.inj h; exact fun s => by simp only [← SCond.holds_eq, operandChecks_one]; rfl
  | plog p pa pb f => obtain rfl := Option.some.inj h; exact fun s => by cases f <;> rfl
  | _ => cases h

/-! ### Scalar floats -/

theorem sends_rowF {i : Instr} {r : Claims.Row} {d a b : BitVec 5} {ta tb dbl : Bool} (f : FloatFmt → Nat → Nat → Nat × Flags)
    (he : ∀ s, exec i s = s.fpu2 d a b ta tb dbl f) (hr : Claims.rowF d a b ta tb dbl f = some r) : Sends i r := by
  obtain rfl := Option.some.inj hr
  exact he

theorem floatRow_sends {i : Instr} {r : Claims.Row} (h : Claims.floatRow i = some r) : Sends i r := by
  cases i with
  | fadd => exact sends_rowF FloatFmt.add (fun _ => rfl) h
  | fsub => exact sends_rowF FloatFmt.sub (fun _ => rfl) h
  | fmul => exact sends_rowF FloatFmt.mul (fun _ => rfl) h
  | fmin => exact sends_rowF (fun f => f.minmax false false) (fun _ => rfl) h
  | fmax => exact sends_rowF (fun f => f.minmax true false) (fun _ => rfl) h
  | fminn => exact sends_rowF (fun f => f.minmax false true) (fun _ => rfl) h
  | fmaxn => exact sends_rowF (fun f => f.minmax true true) (fun _ => rfl) h
  | fcvt => obtain rfl := Option.some.inj h; exact fun _ => rfl
  | fcmp toS => cases toS <;> obtain rfl := Option.some.inj h <;> exact fun _ => rfl
  | _ => cases h

/-! ### The address unit -/

section
variable {i : Instr}

/-- An instruction that sends an A result after one further check. -/
theorem sends_a1 {o : Claims.Operand} {d : BitVec 5} {f : State → Word}
    (he : ∀ s, exec i s = s.sendA (operandCheck s o) d f) : Sends i { ops := [o, Claims.A d], lat := 1, what := fun s => .a d (f s) } := by
  intro s
  rw [he, operandChecks_two, operandCheck_A, ← State.destA_eq_needA]
  rfl

/-- An instruction that checks one operand and sends a result. -/
theorem sends_one {o : Claims.Operand} {w : State → Land}
    (he : ∀ s, exec i s = s.issueWith (operandCheck s o) fun t => t.send 1 (w t)) : Sends i { ops := [o], lat := 1, what := w } := by
  intro s
  rw [he, operandChecks_one]

end

theorem addressRow_sends {i : Instr} {r : Claims.Row} (h : Claims.addressRow i = some r) : Sends i r := by
  cases i with
  | amov d a ta => obtain rfl := Option.some.inj h; exact sends_a1 fun _ => rfl
  | aadd d a b ta tb =>
    obtain rfl := Option.some.inj h
    intro s
    rw [operandChecks_cons, operandChecks_two, ← Verdict.and_assoc, operandCheck_A, operandCheck_A, ← State.destA_eq_needA]
    rfl
  | aaddi d a ta imm => obtain rfl := Option.some.inj h; exact sends_a1 fun _ => rfl
  | ali d imm =>
    obtain rfl := Option.some.inj h
    refine sends_one fun s => ?_
    rw [operandCheck_A, ← State.destA_eq_needA]
    rfl
  | aliu d imm =>
    obtain rfl := Option.some.inj h
    refine sends_one fun s => ?_
    have hself : (s.needA d false).and (s.destA d) = s.needA d false := by rw [State.destA_eq_needA, Verdict.and_self]
    rw [operandCheck_A, ← hself]
    rfl
  | amode d mode dk param =>
    obtain rfl := Option.some.inj h
    refine sends_one fun s => ?_
    rw [operandCheck_A, ← State.destA_eq_needA]
    rfl
  | dset => obtain rfl := Option.some.inj h; exact fun _ => rfl
  | dmov => obtain rfl := Option.some.inj h; exact sends_one fun _ => rfl
  | wsetb => obtain rfl := Option.some.inj h; exact sends_one fun _ => rfl
  | wsetl => obtain rfl := Option.some.inj h; exact sends_one fun _ => rfl
  | ard d a ta =>
    obtain rfl := Option.some.inj h
    intro s
    rw [operandChecks_two, operandCheck_S, ← State.destS_eq_needS]
    rfl
  | _ => cases h

/-! ### Vectors -/

section
variable {i : Instr} {r : Claims.Row} {d a b : BitVec 6} {m : BitVec 4} {w lat : Nat}

theorem sends_rowV {f : State → List (Nat × Flags)} (he : ∀ s, exec i s = s.vec lat d w m f) (hr : Claims.rowV lat d w m [] f = some r) : Sends i r := by
  obtain rfl := Option.some.inj hr
  exact he

theorem sends_each1 (g : Nat → Nat × Flags) {f : Nat → Nat × Flags} (he : ∀ s, exec i s = s.vec1 lat d a w m g)
    (hfg : ∀ x < 2 ^ (8 * w), g x = f x) (hr : Claims.rowV lat d w m [] (Claims.each1 w a f) = some r) : Sends i r := by
  have heq : Claims.each1 w a f = Claims.each1 w a g := by
    funext s
    exact List.map_congr_left fun x hx => (hfg x (elems_lt w (s.v a) x hx)).symm
  rw [heq] at hr
  exact sends_rowV he hr

theorem sends_each2 (g : Nat → Nat → Nat × Flags) {f : Nat → Nat → Nat × Flags} (he : ∀ s, exec i s = s.vec2 lat d a b w m g)
    (hfg : ∀ x y, g x y = f x y) (hr : Claims.rowV lat d w m [] (Claims.each2 w a b f) = some r) : Sends i r := by
  obtain rfl : g = f := funext fun x => funext (hfg x)
  exact sends_rowV he hr

theorem sends_each3 {f : Nat → Nat → Nat → Nat × Flags}
    (he : ∀ s, exec i s = s.vec lat d w m fun s => zip3 f (elems w (s.v a)) (elems w (s.v b)) (elems w (s.v d)))
    (hr : Claims.rowV lat d w m [] (Claims.each3 w a b d f) = some r) : Sends i r := by
  have heq : Claims.each3 w a b d f = fun s => zip3 f (elems w (s.v a)) (elems w (s.v b)) (elems w (s.v d)) := by
    funext s
    exact (zip3_eq f _ _ _ (1024 / w) (elems_length _ _) (elems_length _ _) (elems_length _ _)).symm
  rw [heq] at hr
  exact sends_rowV he hr

theorem sends_rowI {ty : TyI} (g : Nat → Nat → Nat → Nat) (he : ∀ s, exec i s = s.vecI d a b ty m g)
    (hr : Claims.rowI d a b ty m (g (8 * ty.bytes)) = some r) : Sends i r := sends_rowV he hr

theorem sends_rowT {ty : TyF} {int : Nat → Nat → Nat} {flt : FloatFmt → Nat → Nat → Nat × Flags} (g : Nat → Nat → Nat)
    (he : ∀ s, exec i s = s.vecF d a b ty m g flt) (hfg : ∀ x y, g x y = int x y) (hr : Claims.rowT d a b ty m int flt = some r) : Sends i r := by
  obtain rfl : g = int := funext fun x => funext (hfg x)
  have hlat : Claims.rowT d a b ty m g flt = Claims.rowV ty.lat d ty.bytes m [] (Claims.each2 ty.bytes a b (match fmtF ty with
      | some f => flt f
      | none => fun x y => (g x y, 0))) := by cases ty <;> rfl
  exact sends_rowV he (hlat ▸ hr)

end

theorem intPick_min (key : Nat → Int) (x y : Nat) : intPick false key x y = if key x < key y then x else y := by
  by_cases h : key x < key y <;> simp [intPick, h]

theorem intPick_max (key : Nat → Int) (x y : Nat) : intPick true key x y = if key x < key y then y else x := by
  by_cases h : key x < key y <;> simp [intPick, h]

/-- The sign of an element (R161). -/
theorem sintOf_neg_iff {n x : Nat} (hx : x < 2 ^ n) : sintOf n x < 0 ↔ 2 ^ (n - 1) ≤ x := by
  have hx' : (x : Int) < 2 ^ n := by exact_mod_cast hx
  rw [sintOf, Nat.mod_eq_of_lt hx]
  split <;> omega

theorem intBits_eq_ofInt (n : Nat) (v : Int) : intBits n v = (BitVec.ofInt n v).toNat := by
  rw [intBits, BitVec.toNat_ofInt]
  push_cast
  rfl

/-- The absolute value of an integer element (R180). -/
theorem abs_eq {ty : TyF} {x : Nat} (hx : x < 2 ^ (8 * ty.bytes)) :
    (if 2 ^ (8 * ty.bytes - 1) ≤ x then 2 ^ (8 * ty.bytes) - x else x) = if sintOf (8 * ty.bytes) x < 0 then 2 ^ (8 * ty.bytes) - x else x := by
  simp only [sintOf_neg_iff hx]

theorem vectorRow_sends {i : Instr} {r : Claims.Row} (h : Claims.vectorRow i = some r) : Sends i r := by
  cases i with
  | vadd => exact sends_rowT _ (fun _ => rfl) (fun _ _ => rfl) h
  | vsub => exact sends_rowT _ (fun _ => rfl) (fun _ _ => rfl) h
  | vmul => exact sends_rowT _ (fun _ => rfl) (fun _ _ => rfl) h
  | vmin d a b ty m => exact sends_rowT (intPick false (sintOf (8 * ty.bytes))) (fun _ => rfl) (intPick_min _) h
  | vmax d a b ty m => exact sends_rowT (intPick true (sintOf (8 * ty.bytes))) (fun _ => rfl) (intPick_max _) h
  | vminn d a b ty m =>
    refine sends_each2 _ (fun _ => rfl) (fun x y => ?_) h
    cases fmtN ty with
    | some f => rfl
    | none => simp [intPick_min]
  | vmaxn d a b ty m =>
    refine sends_each2 _ (fun _ => rfl) (fun x y => ?_) h
    cases fmtN ty with
    | some f => rfl
    | none => simp [intPick_max]
  | vfma => exact sends_each3 (fun _ => rfl) h
  | vfms => exact sends_each3 (fun _ => rfl) h
  | vabs d a ty m =>
    refine sends_each1 _ (fun _ => rfl) (fun x hx => ?_) h
    rw [← abs_eq hx]
    cases fmtF ty <;> rfl
  | vneg d a ty m =>
    refine sends_each1 _ (fun _ => rfl) (fun x hx => ?_) h
    cases fmtF ty <;> rfl
  | vaddSat => exact sends_each2 _ (fun _ => rfl) (fun _ _ => rfl) h
  | vsubSat => exact sends_each2 _ (fun _ => rfl) (fun _ _ => rfl) h
  | vand d a b ty m => exact sends_rowI (fun _ x y => x &&& y) (fun _ => rfl) h
  | vor d a b ty m => exact sends_rowI (fun _ x y => x ||| y) (fun _ => rfl) h
  | vxor d a b ty m => exact sends_rowI (fun _ x y => x ^^^ y) (fun _ => rfl) h
  | vandn d a b ty m => exact sends_rowI (fun n x y => x &&& (2 ^ n - 1 - y)) (fun _ => rfl) h
  | vshl d a b ty m => exact sends_rowI (fun n x y => x * 2 ^ (y % n)) (fun _ => rfl) h
  | vshr d a b ty m => exact sends_rowI (fun n x y => x / 2 ^ (y % n)) (fun _ => rfl) h
  | vsra d a b ty m =>
    have hsra : (fun x y => (BitVec.ofInt (8 * ty.bytes) (sintOf (8 * ty.bytes) x / 2 ^ (y % (8 * ty.bytes)))).toNat)
        = fun x y => intBits (8 * ty.bytes) (sintOf (8 * ty.bytes) x / 2 ^ (y % (8 * ty.bytes))) :=
      funext fun x => funext fun y => (intBits_eq_ofInt _ _).symm
    have hrow : Claims.vectorRow (.vsra d a b ty m) = Claims.rowI d a b ty m
        (fun x y => (BitVec.ofInt (8 * ty.bytes) (sintOf (8 * ty.bytes) x / 2 ^ (y % (8 * ty.bytes)))).toNat) := rfl
    rw [hrow, hsra] at h
    exact sends_rowI (fun n x y => intBits n (sintOf n x / 2 ^ (y % n))) (fun _ => rfl) h
  | vbfx d a b ty m => exact sends_rowI (fun n x y => x / 2 ^ (y % n) % 2 ^ (y / n % n + 1)) (fun _ => rfl) h
  | vfsh => exact sends_each3 (fun _ => rfl) h
  | vmov => exact sends_each1 _ (fun _ => rfl) (fun _ _ => rfl) h
  | vcls => exact sends_each1 _ (fun _ => rfl) (fun _ _ => rfl) h
  | vspl d t sr ty m =>
    obtain rfl := Option.some.inj h
    intro s
    rw [operandChecks_one]
    rfl
  | vidx => exact sends_rowV (fun _ => rfl) h
  | vscale => exact sends_rowV (fun _ => rfl) h
  | vln => exact sends_each1 _ (fun _ => rfl) (fun _ _ => rfl) h
  | vexp => exact sends_each1 _ (fun _ => rfl) (fun _ _ => rfl) h
  | vlog2 => exact sends_each1 _ (fun _ => rfl) (fun _ _ => rfl) h
  | vexp2 => exact sends_each1 _ (fun _ => rfl) (fun _ _ => rfl) h
  | vrcp => exact sends_each1 _ (fun _ => rfl) (fun _ _ => rfl) h
  | vrsq => exact sends_each1 _ (fun _ => rfl) (fun _ _ => rfl) h
  | vsqrt => exact sends_each1 _ (fun _ => rfl) (fun _ _ => rfl) h
  | vtanh => exact sends_each1 _ (fun _ => rfl) (fun _ _ => rfl) h
  | vsigm => exact sends_each1 _ (fun _ => rfl) (fun _ _ => rfl) h
  | _ => cases h

/-! ### The tables together -/

theorem row_sends {i : Instr} {r : Claims.Row} (h : Claims.row i = some r) : Sends i r := by
  simp only [Claims.row, Option.or_eq_some_iff] at h
  obtain (((h | ⟨-, h⟩) | ⟨-, h⟩) | ⟨-, h⟩) | ⟨-, h⟩ := h
  · exact scalarRow_sends h
  · exact predicateRow_sends h
  · exact floatRow_sends h
  · exact addressRow_sends h
  · exact vectorRow_sends h

/-- Settles O15: each of the scalar instructions only sends a result, by the tables' lemmas. -/
theorem scalarResult : Obligations.ScalarResult := by
  unfold Obligations.ScalarResult
  rintro i r s (h | h) hf
  · exact (scalarRow_sends h).full hf
  · exact (predicateRow_sends h).full hf

/-- Settles O25: each elementwise vector instruction only sends a result. -/
theorem vectorResult : Obligations.VectorResult := by
  unfold Obligations.VectorResult
  exact fun i r s h hf => (vectorRow_sends h).full hf

end Sys2Proof.Machine
end

section
/-! PROOFS. Scalar results that no table gives whole: bit counts and bit fields (R136, R139), divisions (R135), floats of variable latency (R146) and the
stepping of A registers (R158); and what an empty register does to the instructions of the tables (R127). -/

namespace Sys2Proof.Machine

open Sys2Proof

/-! ### Bit counts and bit fields -/

section
variable {d a : BitVec 5} {ta : Bool}

theorem clz_sends : Sends (.clz d a ta)
    { ops := [Claims.S a ta, Claims.S d], lat := 1, what := fun s => .s d (BitVec.ofNat 64 (leadingZeros (s.core.regs.sVal a).toNat 64)) } :=
  fun _ => rfl

theorem ctz_sends : Sends (.ctz d a ta)
    { ops := [Claims.S a ta, Claims.S d], lat := 1, what := fun s => .s d (BitVec.ofNat 64 (trailingZeros (s.core.regs.sVal a).toNat 64 0)) } :=
  fun _ => rfl

theorem popc_sends : Sends (.popc d a ta)
    { ops := [Claims.S a ta, Claims.S d], lat := 1, what := fun s => .s d (BitVec.ofNat 64 (onesOf (s.core.regs.sVal a).toNat 64)) } :=
  fun _ => rfl

theorem bfx_sends {p wm1 : BitVec 6} : Sends (.bfx d a ta p wm1)
    { ops := [Claims.S a ta, Claims.S d], lat := 1
      what := fun s => .s d ((s.core.regs.sVal a >>> p.toNat) &&& lowMask (wm1.toNat + 1)) } := fun _ => rfl

/-- What BFI leaves in its register (R139). -/
def bfiValue (x y : Word) (p wm1 : BitVec 6) : Word :=
  (y &&& ~~~(lowMask (wm1.toNat + 1) <<< p.toNat)) ||| ((x <<< p.toNat) &&& (lowMask (wm1.toNat + 1) <<< p.toNat))

theorem bfi_sends {p wm1 : BitVec 6} : Sends (.bfi d a ta p wm1)
    { ops := [Claims.S a ta, Claims.S d], lat := 1
      what := fun s => .s d (bfiValue (s.core.regs.sVal a) (s.core.regs.sVal d) p wm1) } := fun _ => rfl

end

theorem isClz_leadingZeros (x : Word) : Claims.isClz x (leadingZeros x.toNat 64) := leadingZeros_spec x.toNat 64

theorem isCtz_trailingZeros (x : Word) : Claims.isCtz x (trailingZeros x.toNat 64 0) := by
  obtain ⟨hle, hzeros, hone⟩ := trailingZeros_spec x.toNat 64 0
  simp only [Nat.zero_add] at hzeros hone
  exact ⟨hle, hzeros, hone⟩

theorem onesOf_eq_ones (x : Word) : onesOf x.toNat 64 = Claims.ones x := onesOf_spec x.toNat 64

theorem lowMask_getLsbD (w i : Nat) : (lowMask w).getLsbD i = (decide (i < 64) && decide (i < w)) := by
  rw [lowMask, BitVec.getLsbD_ofNat, Nat.testBit_two_pow_sub_one]

theorem bfx_getLsbD (x : Word) (p wm1 : BitVec 6) {i : Nat} (hi : i < 64) :
    ((x >>> p.toNat) &&& lowMask (wm1.toNat + 1)).getLsbD i = (decide (i < wm1.toNat + 1 ∧ p.toNat + i ≤ 63) && x.getLsbD (p.toNat + i)) := by
  rw [BitVec.getLsbD_and, BitVec.getLsbD_ushiftRight, lowMask_getLsbD]
  by_cases hp : p.toNat + i ≤ 63
  · by_cases hw : i < wm1.toNat + 1 <;> simp [hi, hp, hw]
  · have hout : x.getLsbD (p.toNat + i) = false := BitVec.getLsbD_of_ge _ _ (by omega)
    simp [hp, hout]

theorem bfi_getLsbD (x y : Word) (p wm1 : BitVec 6) {i : Nat} (hi : i < 64) :
    (bfiValue x y p wm1).getLsbD i = if p.toNat ≤ i ∧ i < p.toNat + wm1.toNat + 1 then x.getLsbD (i - p.toNat) else y.getLsbD i := by
  rw [bfiValue]
  simp only [BitVec.getLsbD_or, BitVec.getLsbD_and, BitVec.getLsbD_not, BitVec.getLsbD_shiftLeft, lowMask_getLsbD]
  by_cases hlo : p.toNat ≤ i
  · by_cases hhi : i < p.toNat + wm1.toNat + 1
    · have h1 : i - p.toNat < 64 := by omega
      have h2 : i - p.toNat < wm1.toNat + 1 := by omega
      simp [hi, hlo, hhi, h1, h2, Nat.not_lt.mpr hlo]
    · have h2 : ¬ i - p.toNat < wm1.toNat + 1 := by omega
      simp [hi, hlo, hhi, h2]
  · simp [hi, hlo, Nat.lt_of_not_le hlo]

/-- Settles O13: the counts by what the model's counting functions count, the fields bit by bit. -/
theorem bitCountsAndFields : Obligations.BitCountsAndFields := by
  unfold Obligations.BitCountsAndFields
  refine ⟨fun d a ta s hf => ⟨⟨_, isClz_leadingZeros _, clz_sends.full hf⟩, ⟨_, isCtz_trailingZeros _, ctz_sends.full hf⟩, ?_⟩,
    fun d a ta p wm1 s hf => ⟨⟨_, bfx_sends.full hf, fun i hi => bfx_getLsbD _ p wm1 hi⟩, ⟨_, bfi_sends.full hf, fun i hi => bfi_getLsbD _ _ p wm1 hi⟩⟩⟩
  rw [← onesOf_eq_ones]
  exact popc_sends.full hf

/-! ### Results of variable latency -/

/-- A producer of a known value that passes its checks is outstanding. -/
theorem State.issueWith_produce {s : State} {v : Verdict} {f : State → State} {d : BitVec 5} {x : Word} {fl : BitVec 5} (hv : v = .go)
    (hf : f s = s.produce d x fl) : s.issueWith v f = .next (Claims.outstanding s d (.value d x fl)) := by
  rw [hv, State.issueWith_go, hf, State.produce, State.mark_queueOp_clearFull]

/-! ### Divisions -/

section
variable {s : State} {d a b : BitVec 5} {ta tb : Bool} {fn : Word} {f : Word → Word → Word}

/-- With its registers full a division asks for nothing but a divisor that DIVZT takes. -/
theorem State.divide_full (hf : Claims.allFull s [Claims.S a ta, Claims.S b tb, Claims.S d] = true) :
    s.divide d a b ta tb fn f = s.issueWith (ensure (!(s.core.regs.status.getLsbD 3 && s.s b == 0)) 0x0B fn)
      fun t => t.produce d (f (t.s a) (t.s b)) := by
  simp only [Claims.allFull, List.all_cons, List.all_nil, Bool.and_true, Bool.and_eq_true, claims_full_S] at hf
  obtain ⟨ha, hb, hd⟩ := hf
  simp only [State.divide, Verdict.all, State.needS_go ha, State.needS_go hb, State.destS_go hd, Verdict.go_and, Verdict.and_go]

theorem State.divide_issues (hf : Claims.allFull s [Claims.S a ta, Claims.S b tb, Claims.S d] = true)
    (hz : s.core.regs.status.getLsbD 3 = false ∨ s.core.regs.sVal b ≠ 0) :
    s.divide d a b ta tb fn f = .next (Claims.outstanding s d (.value d (f (s.core.regs.sVal a) (s.core.regs.sVal b)) 0)) := by
  rw [State.divide_full hf]
  have hz' : (s.core.regs.status.getLsbD 3 && s.core.regs.sVal b == 0) = false := by
    rcases hz with hz | hz
    · rw [hz, Bool.false_and]
    · rw [beq_eq_false_iff_ne.mpr hz, Bool.and_false]
  refine State.issueWith_produce ?_ rfl
  rw [ensure, State.s, hz']
  rfl

theorem State.divide_traps (hf : Claims.allFull s [Claims.S a ta, Claims.S b tb, Claims.S d] = true)
    (ht : s.core.regs.status.getLsbD 3 = true) (hz : s.core.regs.sVal b = 0) (hp : s.core.issue.pass = false) :
    s.divide d a b ta tb fn f = .next (Claims.traps s 0x0B fn) := by
  have hv : ensure (!(s.core.regs.status.getLsbD 3 && s.s b == 0)) 0x0B fn = .trap 0x0B fn := by
    rw [ensure, State.s, ht, hz]
    rfl
  rw [State.divide_full hf, hv, State.issueWith_trap hp, Claims.traps]

end

theorem sdiv_eq_tdiv (x y : Word) : x.sdiv y = BitVec.ofInt 64 (x.toInt.tdiv y.toInt) :=
  BitVec.eq_of_toInt_eq (by rw [BitVec.toInt_sdiv, BitVec.toInt_ofInt])

theorem udiv_eq_div (x y : Word) : x / y = BitVec.ofNat 64 (x.toNat / y.toNat) := by
  rw [← BitVec.toNat_udiv, BitVec.ofNat_toNat, BitVec.setWidth_eq]

theorem srem_eq_tmod (x y : Word) : x.srem y = BitVec.ofInt 64 (x.toInt.tmod y.toInt) := by
  rw [← BitVec.toInt_srem, BitVec.ofInt_toInt]

theorem umod_eq_mod (x y : Word) : x % y = BitVec.ofNat 64 (x.toNat % y.toNat) := by
  rw [← BitVec.toNat_umod, BitVec.ofNat_toNat, BitVec.setWidth_eq]

/-- Each of the four instructions divides with the function that the statement gives it (R134, R135). -/
theorem exec_division {i : Instr} {d a b : BitVec 5} {ta tb : Bool} {fn : Word} {f : Word → Word → Word}
    (h : Claims.division i = some (d, a, b, ta, tb, fn, f)) (s : State) : exec i s = s.divide d a b ta tb fn f := by
  cases i with
  | div => cases h; simp only [← sdiv_eq_tdiv]; rfl
  | divu => cases h; simp only [← udiv_eq_div]; rfl
  | rem => cases h; simp only [← srem_eq_tmod]; rfl
  | remu => cases h; simp only [← umod_eq_mod]; rfl
  | _ => cases h

/-- Settles O14: the four divisions are one operation with a function each, and it traps for a divisor of 0 under DIVZT alone. -/
theorem divisionResult : Obligations.DivisionResult := by
  unfold Obligations.DivisionResult
  intro i s d a b ta tb fn f h hf
  rw [exec_division h]
  exact ⟨State.divide_issues hf, fun ht hz hp => State.divide_traps hf ht hz hp⟩

/-! ### Floats of variable latency -/

section
variable {s : State} {d a b : BitVec 5} {ta tb dbl : Bool}

theorem exec_fdiv_full (hf : Claims.allFull s [Claims.S a ta, Claims.S b tb, Claims.S d] = true) :
    exec (.fdiv d a b ta tb dbl) s = .next (Claims.outstanding s d (.value d
      (BitVec.ofNat 64 (Claims.float2 dbl FloatFmt.div (s.core.regs.sVal a) (s.core.regs.sVal b)).1)
      (Claims.float2 dbl FloatFmt.div (s.core.regs.sVal a) (s.core.regs.sVal b)).2)) := by
  change execFdiv d a b ta tb dbl s = _
  exact State.issueWith_produce (operandChecks_go hf) rfl

theorem exec_fsqrt_full (hf : Claims.allFull s [Claims.S a ta, Claims.S d] = true) :
    exec (.fsqrt d a ta dbl) s = .next (Claims.outstanding s d (.value d
      (BitVec.ofNat 64 ((scalarFmt dbl).sqrt (scalarArg dbl (s.core.regs.sVal a))).1) ((scalarFmt dbl).sqrt (scalarArg dbl (s.core.regs.sVal a))).2)) := by
  change execFsqrt d a ta dbl s = _
  exact State.issueWith_produce (operandChecks_go hf) rfl

end

/-- Settles O16: the floats of fixed latency only send a result; FDIV and FSQRT produce theirs later. -/
theorem floatResult : Obligations.FloatResult := by
  unfold Obligations.FloatResult
  exact fun s => ⟨fun i r h hf => (floatRow_sends h).full hf, fun d a b ta tb dbl hf => exec_fdiv_full hf, fun d a ta dbl hf => exec_fsqrt_full hf⟩

/-! ### The stepping of A registers -/

/-- A number shares no bit with the one below it just when it is a power of two, or 0. -/
theorem and_pred_eq_zero_iff {n : Nat} (hn : n ≠ 0) : n &&& (n - 1) = 0 ↔ ∃ e, n = 2 ^ e := by
  constructor
  · intro h
    refine ⟨n.log2, ?_⟩
    by_contra hne
    have hle : 2 ^ n.log2 ≤ n := Nat.log2_self_le hn
    have hlt : n < 2 ^ (n.log2 + 1) := Nat.lt_log2_self
    have hbit : (n &&& (n - 1)).testBit n.log2 = true := by
      rw [Nat.testBit_and, Nat.testBit_of_two_pow_le_and_two_pow_add_one_gt hle hlt,
        Nat.testBit_of_two_pow_le_and_two_pow_add_one_gt (n := n - 1) (by omega) (by omega)]
      rfl
    simp [h] at hbit
  · rintro ⟨e, rfl⟩
    rw [Nat.and_two_pow_sub_one_eq_mod, Nat.mod_self]

/-- The steps that a bit-reversed advance takes are the positive powers of two up to 2^30 (R158). -/
theorem stepLegal_iff (x : Word) : (x.toNat ≠ 0 ∧ x.toNat ≤ 2 ^ 30 ∧ x &&& (x - 1) = 0) ↔ ∃ e ≤ 30, x = BitVec.ofNat 64 (2 ^ e) := by
  have hone {x : Word} (h0 : x.toNat ≠ 0) : x &&& (x - 1) = 0 ↔ x.toNat &&& (x.toNat - 1) = 0 := by
    have hsub : (x - 1).toNat = x.toNat - 1 := by bv_omega
    rw [← BitVec.toNat_inj, BitVec.toNat_and, hsub]
    rfl
  constructor
  · rintro ⟨h0, hle, h⟩
    obtain ⟨e, he⟩ := (and_pred_eq_zero_iff h0).mp ((hone h0).mp h)
    refine ⟨e, (Nat.pow_le_pow_iff_right (by decide)).mp (he ▸ hle), ?_⟩
    rw [← he, BitVec.ofNat_toNat, BitVec.setWidth_eq]
  · rintro ⟨e, he, rfl⟩
    have hpow : 2 ^ e ≤ 2 ^ 30 := Nat.pow_le_pow_right (by decide) he
    have hx : (BitVec.ofNat 64 (2 ^ e)).toNat = 2 ^ e := by
      rw [BitVec.toNat_ofNat]
      exact Nat.mod_eq_of_lt (Nat.lt_of_le_of_lt hpow (by decide))
    have h0 : (BitVec.ofNat 64 (2 ^ e)).toNat ≠ 0 := by rw [hx]; exact (Nat.two_pow_pos e).ne'
    exact ⟨h0, by rw [hx]; exact hpow, (hone h0).mpr ((and_pred_eq_zero_iff h0).mpr ⟨e, hx⟩)⟩

/-- The test that the model makes of a step. -/
theorem stepTest_iff (x : Word) :
    (decide (x.toNat ≠ 0) && decide (x.toNat ≤ 2 ^ 30) && x &&& (x - 1) == 0) = true ↔ ∃ e ≤ 30, x = BitVec.ofNat 64 (2 ^ e) := by
  rw [← stepLegal_iff]
  simp only [Bool.and_eq_true, decide_eq_true_eq, beq_iff_eq, and_assoc]

section
variable {s : State} {d : BitVec 5}

theorem State.advanceCheck_go (h : Claims.advances s d) : s.advanceCheck d = .go := by
  unfold State.advanceCheck
  rcases h with hc | hm | he
  · exact if_pos hc
  · rw [if_pos hm, ite_self]
  · dsimp only
    rw [ensure, if_pos ((stepTest_iff _).mpr he), ite_self, ite_self]

theorem State.advanceCheck_trap (h : ¬ Claims.advances s d) : s.advanceCheck d = .trap 0x07 (s.stepOf d) := by
  obtain ⟨hc, hm, he⟩ : ¬ s.me.isComp = true ∧ ¬ (s.core.regs.aMode[d.toNat]'d.isLt).mode ≠ 2 ∧ ¬ ∃ e ≤ 30, s.stepOf d = BitVec.ofNat 64 (2 ^ e) := by
    simpa only [Claims.advances, not_or] using h
  rw [← stepTest_iff] at he
  unfold State.advanceCheck
  rw [State.comp, if_neg hc, if_neg hm]
  exact if_neg he

/-- With its register full ASTEP asks for nothing but a step that its mode takes. -/
theorem exec_astep_full (hf : Claims.allFull s [Claims.A d] = true) :
    exec (.astep d) s = s.issueWith (s.advanceCheck d) fun t => t.send 1 (.a d (t.advanced d)) := by
  have hgo : s.needA d false = .go := by
    rw [← operandCheck_A, ← operandChecks_one]
    exact operandChecks_go hf
  change execAstep d s = _
  rw [execAstep, State.sendA, State.destA_eq_needA, hgo, Verdict.go_and, Verdict.and_go]

theorem exec_astep_advances (hf : Claims.allFull s [Claims.A d] = true) (h : Claims.advances s d) :
    exec (.astep d) s = .next (Claims.answer s 1 (.a d (s.advanced d))) := by
  rw [exec_astep_full hf, State.advanceCheck_go h, State.issueWith_go, State.mark_send]

theorem exec_astep_traps (hf : Claims.allFull s [Claims.A d] = true) (hp : s.core.issue.pass = false) (h : ¬ Claims.advances s d) :
    exec (.astep d) s = .next (Claims.traps s 0x07 (s.stepOf d)) := by
  rw [exec_astep_full hf, State.advanceCheck_trap h, State.issueWith_trap hp, Claims.traps]

end

/-- Settles O18: the table's instructions only send a result; ASTEP by whether its advance can issue. -/
theorem addressResult : Obligations.AddressResult := by
  unfold Obligations.AddressResult
  exact ⟨fun s => ⟨fun i r h hf => (addressRow_sends h).full hf, fun d hf h => exec_astep_advances hf h⟩,
    fun s d hp hf h => exec_astep_traps hf hp h⟩

/-! ### Empty registers -/

/-- Counting an event leaves everything but the counters. -/
theorem State.count_eq (s : State) (code : BitVec 8) (n : Nat) : ∃ ev, s.count code n = { s with core := { s.core with ev := ev } } := by
  unfold State.count
  split
  · exact ⟨s.core.ev, rfl⟩
  · exact ⟨_, rfl⟩

/-- Passing cycles leave everything but the counters and the quantum; in task mode the cycle counter takes them. -/
theorem State.tick_eq (s : State) (n : Nat) : ∃ ev, s.tick n = { s with core := { s.core with
    quantum := s.core.quantum - n, ev := ev, cycles := if s.core.regs.status.getLsbD 0 then s.core.cycles else s.core.cycles + BitVec.ofNat 64 n } } := by
  obtain ⟨ev, hev⟩ := State.count_eq { s with core := { s.core with quantum := s.core.quantum - n } } 0x01 n
  unfold State.tick
  dsimp only
  split
  · next hs => exact ⟨s.core.ev, by rw [if_pos (show s.core.regs.status.getLsbD 0 = true from hs)]⟩
  · next hs => exact ⟨ev, by rw [hev, if_neg (show ¬ s.core.regs.status.getLsbD 0 = true from hs)]⟩

/-- A held bundle leaves everything but the counters, the quantum and the note that it holds. -/
theorem claims_waits_eq (s : State) (code : BitVec 8) : ∃ ev, Claims.waits s code = { s with core := { s.core with
    quantum := s.core.quantum - 1, ev := ev, cycles := if s.core.regs.status.getLsbD 0 then s.core.cycles else s.core.cycles + 1
    issue := { s.core.issue with res := .held } } } := by
  obtain ⟨ev, hev⟩ := s.tick_eq 1
  obtain ⟨ev', hev'⟩ := (s.tick 1).count_eq code 1
  refine ⟨ev', ?_⟩
  rw [Claims.waits, hev', hev]
  rfl

/-- Settles O28: an instruction of the tables makes the checks of its operands (`row_sends`), and a held bundle only counts. -/
theorem emptyRegister : Obligations.EmptyRegister := by
  unfold Obligations.EmptyRegister
  refine ⟨fun i r s h hp => ⟨fun o hm he ht => (row_sends h).hold hp hm he ht, fun l t o hr hl ho ht => (row_sends h).trap hp hr hl ho ht⟩, fun s code => ?_⟩
  obtain ⟨ev, hev⟩ := claims_waits_eq s code
  rw [hev]
  exact ⟨rfl, rfl, rfl, rfl, rfl, rfl, rfl, rfl, rfl, rfl, rfl, rfl⟩

end Sys2Proof.Machine
end

section
/-! PROOFS. Names of rotating registers (R110), elements and masks of vector registers (R175, R176), and the landing of masked results and of local
stores (R126, R176, R277). -/

namespace Sys2Proof.Machine

open Sys2Proof

/-! ### Rotated names -/

section
variable {vrb : BitVec 5} {prb : BitVec 3}

theorem physV_fixed {k : BitVec 6} (h : k.toNat < 32) : physV vrb k = k := if_pos h

theorem physP_fixed {k : BitVec 4} (h : k.toNat < 8) : physP prb k = k := if_pos h

theorem physV_rotated {k : BitVec 6} (h : 32 ≤ k.toNat) : (physV vrb k).toNat = 32 + (k.toNat - 32 + vrb.toNat) % 32 := by
  rw [physV, if_neg (by omega), BitVec.toNat_ofNat]
  omega

theorem physP_rotated {k : BitVec 4} (h : 8 ≤ k.toNat) : (physP prb k).toNat = 8 + (k.toNat - 8 + prb.toNat) % 8 := by
  rw [physP, if_neg (by omega), BitVec.toNat_ofNat]
  omega

theorem physV_injective {k l : BitVec 6} (h : physV vrb k = physV vrb l) : k = l := by
  have ht := congrArg BitVec.toNat h
  have hk := k.isLt
  have hl := l.isLt
  apply BitVec.eq_of_toNat_eq
  rcases Nat.lt_or_ge k.toNat 32 with h1 | h1 <;> rcases Nat.lt_or_ge l.toNat 32 with h2 | h2
  · rwa [physV_fixed h1, physV_fixed h2] at ht
  · rw [physV_fixed h1, physV_rotated h2] at ht
    omega
  · rw [physV_rotated h1, physV_fixed h2] at ht
    omega
  · rw [physV_rotated h1, physV_rotated h2] at ht
    omega

theorem physP_injective {k l : BitVec 4} (h : physP prb k = physP prb l) : k = l := by
  have ht := congrArg BitVec.toNat h
  have hk := k.isLt
  have hl := l.isLt
  apply BitVec.eq_of_toNat_eq
  rcases Nat.lt_or_ge k.toNat 8 with h1 | h1 <;> rcases Nat.lt_or_ge l.toNat 8 with h2 | h2
  · rwa [physP_fixed h1, physP_fixed h2] at ht
  · rw [physP_fixed h1, physP_rotated h2] at ht
    omega
  · rw [physP_rotated h1, physP_fixed h2] at ht
    omega
  · rw [physP_rotated h1, physP_rotated h2] at ht
    omega

end

/-- Settles O11: the two halves of each mapping, and that each half keeps to itself. -/
theorem rotatedNames : Obligations.RotatedNames := by
  unfold Obligations.RotatedNames
  exact fun vrb prb => ⟨fun k h => physV_fixed h, fun k h => physP_fixed h, fun k h => physV_rotated h, fun k h => physP_rotated h,
    fun k l h => physV_injective h, fun k l h => physP_injective h⟩

/-! ### Fields of a joined number -/

theorem joinBits_field (w : Nat) (l : List Nat) {i : Nat} (hi : i < l.length) : joinBits w l / 2 ^ (w * i) % 2 ^ w = l[i] % 2 ^ w := by
  have h := splitBits_joinBits w l
  rw [splitBits_eq] at h
  have hget := congrArg (fun m => m[i]?) h
  simpa [List.getElem?_map, List.getElem?_range hi, List.getElem?_eq_getElem hi] using hget

theorem joinBits_testBit (w : Nat) (l : List Nat) {i b : Nat} (hi : i < l.length) (hb : b < w) :
    (joinBits w l).testBit (w * i + b) = l[i].testBit b := by
  have h := congrArg (fun x => x.testBit b) (joinBits_field w l hi)
  simpa [Nat.testBit_mod_two_pow, hb, Nat.testBit_div_two_pow, Nat.add_comm] using h

/-- A number below the width of a vector is the vector's. -/
theorem toNat_ofNat_joinBits {n w : Nat} {l : List Nat} (h : w * l.length = n) : (BitVec.ofNat n (joinBits w l)).toNat = joinBits w l := by
  rw [BitVec.toNat_ofNat]
  exact Nat.mod_eq_of_lt (h ▸ joinBits_lt w l)

theorem getLsbD_ofNat_joinBits {n w : Nat} {l : List Nat} (h : w * l.length = n) (i : Nat) :
    (BitVec.ofNat n (joinBits w l)).getLsbD i = (joinBits w l).testBit i := by
  rw [BitVec.getLsbD, toNat_ofNat_joinBits h]

/-! ### Elements and masks -/

/-- The widths of elements (R175). -/
def elemWidth (w : Nat) : Prop := w = 1 ∨ w = 2 ∨ w = 4 ∨ w = 8

section
variable {w : Nat}

theorem elemWidth.pos (hw : elemWidth w) : 0 < w := by rcases hw with rfl | rfl | rfl | rfl <;> decide

/-- Elements of a legal width fill a register. -/
theorem elemWidth.fill (hw : elemWidth w) : w * (1024 / w) = 1024 := by rcases hw with rfl | rfl | rfl | rfl <;> rfl

theorem TyF.elemWidth_bytes (ty : TyF) : elemWidth ty.bytes := by cases ty <;> simp [elemWidth, TyF.bytes]

theorem TyI.elemWidth_bytes (ty : TyI) : elemWidth ty.bytes := by cases ty <;> simp [elemWidth, TyI.bytes]

theorem elems_eq_lanes (w : Nat) (v : VReg) : elems w v = Claims.lanes w v := by
  rw [elems, splitBits_eq, Claims.lanes]
  simp only [BitVec.extractLsb'_toNat, Nat.shiftRight_eq_div_pow]

theorem elems_vecOf (hw : elemWidth w) {l : List Nat} (hl : l.length = 1024 / w) : elems w (vecOf w l) = l.map fun x => x % 2 ^ (8 * w) := by
  have hfill : 8 * w * l.length = 8192 := by rw [hl, Nat.mul_assoc, hw.fill]
  rw [elems, vecOf, toNat_ofNat_joinBits hfill, ← hl, splitBits_joinBits]

/-- A mask at element granularity has a bit for each byte of an element, as the bit of the element's lowest byte says. -/
theorem elemMask_getLsbD (hw : elemWidth w) (m : PReg) {i b : Nat} (hi : i < 1024 / w) (hb : b < w) :
    (elemMask w m).getLsbD (w * i + b) = m.getLsbD (w * i) := by
  have hfill := hw.fill
  have hlt : w * i + b < 1024 := by
    have : w * (i + 1) ≤ w * (1024 / w) := Nat.mul_le_mul_left w hi
    rw [Nat.mul_succ] at this
    omega
  unfold elemMask
  split
  · next hm => rw [hm, BitVec.getLsbD_allOnes, BitVec.getLsbD_allOnes, decide_eq_true hlt, decide_eq_true (by omega)]
  · have hlen : ((enabledElems w m).map fun b => if b then 2 ^ w - 1 else 0).length = 1024 / w := by simp [enabledElems, splitBits_eq]
    have hget := enabledElems_get m w i hi hw.pos
    rw [List.getElem?_eq_some_iff] at hget
    obtain ⟨hlt', hval⟩ := hget
    rw [getLsbD_ofNat_joinBits (by rw [hlen, hfill]), joinBits_testBit w _ (by rw [hlen]; exact hi) hb, List.getElem_map, hval]
    cases m.getLsbD (w * i) <;> simp [Nat.testBit_two_pow_sub_one, hb]

/-- The bit of a byte in a mask at element granularity. -/
theorem elemMask_byte (hw : elemWidth w) (m : PReg) {i : Nat} (hi : i < 1024) : (elemMask w m).getLsbD i = m.getLsbD (w * (i / w)) := by
  have h := elemMask_getLsbD hw m (i := i / w) (b := i % w) ((Nat.div_lt_iff_lt_mul hw.pos).mpr (by rw [Nat.mul_comm, hw.fill]; exact hi))
    (Nat.mod_lt _ hw.pos)
  rwa [Nat.div_add_mod] at h

end

/-- Settles O24: elements are the fields of the register, and a mask is read at each element's lowest byte. -/
theorem elements : Obligations.Elements := by
  unfold Obligations.Elements
  exact ⟨fun v w l hw hl => ⟨elems_eq_lanes w v, elems_vecOf hw hl⟩,
    fun m w i b hw hi hb => ⟨enabledElems_get m w i hi (elemWidth.pos hw), elemMask_getLsbD hw m hi hb⟩⟩

/-! ### Landings under a mask -/

theorem mergeV_get (old new : VReg) (m : PReg) {i : Nat} (h : i < 1024) :
    (mergeV old new m).extractLsb' (8 * i) 8 = if m.getLsbD i then new.extractLsb' (8 * i) 8 else old.extractLsb' (8 * i) 8 := by
  unfold mergeV
  split
  · next hm => rw [hm, BitVec.getLsbD_allOnes, decide_eq_true h, if_pos rfl]
  · exact mergeBytes_get old new m i h

theorem mergeP_getLsbD (old new m : PReg) {i : Nat} (h : i < 1024) :
    (mergeP old new m).getLsbD i = if m.getLsbD i then new.getLsbD i else old.getLsbD i := by
  rw [mergeP, BitVec.getLsbD_or, BitVec.getLsbD_and, BitVec.getLsbD_and, BitVec.getLsbD_not]
  cases m.getLsbD i <;> simp [h]

section
variable (x : Core) (m : PReg)

theorem Core.landOne_v_same (n : BitVec 6) (v : VReg) :
    (x.landOne (.v n v m)).regs.v[n.toNat]'n.isLt = mergeV (x.regs.v[n.toNat]'n.isLt) v m := by
  simp [Core.landOne]

theorem Core.landOne_v_other {n k : BitVec 6} (v : VReg) (h : k ≠ n) : (x.landOne (.v n v m)).regs.v[k.toNat]'k.isLt = x.regs.v[k.toNat]'k.isLt := by
  have hne : n.toNat ≠ k.toNat := fun e => h (BitVec.eq_of_toNat_eq e.symm)
  simp [Core.landOne, hne]

theorem Core.landOne_p_same {p : BitVec 4} (q : PReg) (h : p ≠ 0) :
    (x.landOne (.p p q m)).regs.p[p.toNat]'p.isLt = mergeP (x.regs.p[p.toNat]'p.isLt) q m := by
  simp only [Core.landOne, if_neg h]
  simp

end

/-! ### Local stores -/

/-- Past its highest bit a number has no more. -/
theorem testBit_of_shiftRight_eq_zero {x k i : Nat} (h : x >>> k = 0) (hi : k ≤ i) : x.testBit i = false := by
  have hbit : (x >>> k).testBit (i - k) = false := by rw [h, Nat.zero_testBit]
  rwa [Nat.testBit_shiftRight, Nat.add_sub_cancel' hi] at hbit

/-- The bytes of a store end at the highest one that its mask enables. -/
theorem filterMap_below_top {β : Type} (x : Nat) (f : Nat → β) (n : Nat) :
    ∃ k ≤ n, (List.range n).filterMap (fun i => if x >>> i = 0 then none else some (f i)) = (List.range k).map f ∧ (k = n ∨ x >>> k = 0) := by
  induction n with
  | zero => exact ⟨0, Nat.le_refl 0, rfl, .inl rfl⟩
  | succ n ih =>
    obtain ⟨k, hk, he, htop⟩ := ih
    rw [List.range_succ, List.filterMap_append, he]
    by_cases hx : x >>> n = 0
    · exact ⟨k, by omega, by simp [hx], .inr (htop.elim (fun h => h ▸ hx) id)⟩
    · have hkn : k = n := by
        refine htop.elim id fun h => absurd ?_ hx
        have hn : n = k + (n - k) := by omega
        rw [hn, Nat.shiftRight_add, h, Nat.zero_shiftRight]
      exact ⟨n + 1, Nat.le_refl _, by simp [hx, hkn, List.range_succ], .inl rfl⟩

theorem zip_range_map {β : Type} (f : Nat → β) (k : Nat) :
    (List.range ((List.range k).map f).length).zip ((List.range k).map f) = (List.range k).map fun i => (i, f i) := by
  rw [List.length_map, List.length_range]
  exact List.ext_getElem (by simp) fun i h1 h2 => by simp

/-- The bytes of a store, written where the mask enables them. -/
theorem maskedStore_range (off : Nat) (g : Nat → Byte) (en : Nat → Bool) (m : Sparse Byte) (k a : Nat) :
    Sparse.get 0 (((List.range k).map fun i => (i, g i, en i)).foldl (fun m e => if e.2.2 then Sparse.set 0 m (off + e.1) e.2.1 else m) m) a
      = if off ≤ a ∧ a < off + k ∧ en (a - off) = true then g (a - off) else Sparse.get 0 m a := by
  induction k with
  | zero => rw [if_neg (by omega)]; rfl
  | succ k ih =>
    rw [List.range_succ, List.map_append, List.foldl_append]
    simp only [List.map_cons, List.map_nil, List.foldl_cons, List.foldl_nil]
    by_cases ha : a = off + k
    · have hak : a - off = k := by omega
      cases hen : en k
      · rw [if_neg Bool.false_ne_true, ih, if_neg (by omega), if_neg (by rw [hak, hen]; simp)]
      · rw [if_pos rfl, Sparse.get_set, if_pos ha, if_pos ⟨by omega, by omega, by rw [hak, hen]⟩, hak]
    · have hcond : (off ≤ a ∧ a < off + (k + 1) ∧ en (a - off) = true) ↔ off ≤ a ∧ a < off + k ∧ en (a - off) = true := by
        constructor <;> rintro ⟨h1, h2, h3⟩ <;> exact ⟨h1, by omega, h3⟩
      simp only [hcond, ← ih]
      split
      · rw [Sparse.get_set, if_neg ha]
      · rfl

theorem Core.scratchStore_get (x : Core) (off k : Nat) (g : Nat → Byte) (en : Nat → Bool) (a : Nat) :
    Sparse.get 0 (x.scratchStore off ((List.range k).map fun i => (g i, en i))).scratch a
      = if off ≤ a ∧ a < off + k ∧ en (a - off) = true then g (a - off) else Sparse.get 0 x.scratch a := by
  unfold Core.scratchStore
  dsimp only
  rw [Core.wake_scratch, zip_range_map, maskedStore_range, Core.recordScratch_scratch]

theorem Core.landOne_store_get (x : Core) (sl : Slot) (off : Nat) (data : VReg) (m : PReg) (dbg : Bool) (a : Nat) :
    Sparse.get 0 (x.landOne (.store sl off data m dbg)).scratch a
      = if off ≤ a ∧ a < off + 1024 ∧ m.getLsbD (a - off) then data.extractLsb' (8 * (a - off)) 8 else Sparse.get 0 x.scratch a := by
  obtain ⟨k, hk, he, htop⟩ := filterMap_below_top m.toNat (fun i => (BitVec.ofNat 8 (data.toNat >>> (8 * i)), m.getLsbD i)) 1024
  have hcond : (off ≤ a ∧ a < off + k ∧ m.getLsbD (a - off) = true) ↔ off ≤ a ∧ a < off + 1024 ∧ m.getLsbD (a - off) = true := by
    refine ⟨fun ⟨h1, h2, h3⟩ => ⟨h1, by omega, h3⟩, fun ⟨h1, h2, h3⟩ => ⟨h1, ?_, h3⟩⟩
    by_contra hge
    rcases htop with rfl | htop
    · omega
    · have hbit : m.getLsbD (a - off) = false := testBit_of_shiftRight_eq_zero htop (by omega)
      rw [hbit] at h3
      cases h3
  simp only [Core.landOne, he, Core.scratchStore_get, hcond]
  rfl

/-- Settles O9: a merge takes each byte or bit from one side or the other, and a store writes the bytes up to the highest that its mask enables. -/
theorem maskedLanding : Obligations.MaskedLanding := by
  unfold Obligations.MaskedLanding
  refine ⟨fun x n k v m i hi => ⟨?_, fun h => x.landOne_v_other m v h, fun p q hp => ?_⟩, fun x sl off data m dbg a => x.landOne_store_get sl off data m dbg a⟩
  · rw [Core.landOne_v_same, mergeV_get _ _ _ hi]
  · rw [Core.landOne_p_same _ _ _ hp, mergeP_getLsbD _ _ _ hi]

end Sys2Proof.Machine
end

section
/-! PROOFS. The advance of an A register (R157, R158): linear, inside its window, and bit-reversed. -/

namespace Sys2Proof.Machine

open Sys2Proof

/-! ### Reversed fields -/

theorem brev_succ (w x : Nat) : brev (w + 1) x = brev w x * 2 + (x >>> w) % 2 := by
  rw [brev, List.range_succ, List.foldl_append]
  rfl

theorem brev_lt (w x : Nat) : brev w x < 2 ^ w := by
  induction w with
  | zero => exact Nat.one_pos
  | succ w ih => rw [brev_succ, Nat.pow_succ]; omega

theorem reversed_succ (w x : Nat) : Claims.reversed (w + 1) x = Claims.reversed w x * 2 + (x >>> w) % 2 := by
  have hbit : (if x.testBit (w + 1 - 1 - 0) then 2 ^ 0 else 0) = (x >>> w) % 2 := by
    rw [Nat.testBit_eq_decide_div_mod_eq, Nat.shiftRight_eq_div_pow, Nat.add_sub_cancel, Nat.sub_zero]
    rcases Nat.mod_two_eq_zero_or_one (x / 2 ^ w) with h | h <;> simp [h]
  have hrest : ((List.range w).map fun i => if x.testBit (w + 1 - 1 - (i + 1)) then 2 ^ (i + 1) else 0).sum = Claims.reversed w x * 2 := by
    rw [Claims.reversed, ← List.sum_map_mul_right]
    refine congrArg List.sum (List.map_congr_left fun i _ => ?_)
    rw [Nat.add_sub_cancel, Nat.sub_sub, Nat.add_comm 1 i]
    split <;> simp [Nat.pow_succ]
  rw [Claims.reversed, List.range_succ_eq_map, List.map_cons, List.map_map, List.sum_cons, hbit, Nat.add_comm, ← hrest]
  rfl

theorem brev_eq_reversed (w x : Nat) : brev w x = Claims.reversed w x := by
  induction w with
  | zero => rfl
  | succ w ih => rw [brev_succ, reversed_succ, ih]

/-! ### Replacing a field -/

/-- A number with the field of w bits at bit e replaced. -/
def putField (x e w f : Nat) : Nat := x - x / 2 ^ e % 2 ^ w * 2 ^ e + f * 2 ^ e

/-- A number is what lies above a field, the field, and what lies below it. -/
theorem putField_eq (x e w f : Nat) : putField x e w f = x / 2 ^ (e + w) * 2 ^ (e + w) + f * 2 ^ e + x % 2 ^ e := by
  have hlow : 2 ^ e * (x / 2 ^ e) + x % 2 ^ e = x := Nat.div_add_mod x (2 ^ e)
  have hhigh : 2 ^ w * (x / 2 ^ e / 2 ^ w) + x / 2 ^ e % 2 ^ w = x / 2 ^ e := Nat.div_add_mod (x / 2 ^ e) (2 ^ w)
  rw [Nat.div_div_eq_div_mul, ← Nat.pow_add] at hhigh
  have hx : x = x / 2 ^ (e + w) * 2 ^ (e + w) + x / 2 ^ e % 2 ^ w * 2 ^ e + x % 2 ^ e := by
    conv_lhs => rw [← hlow, ← hhigh]
    rw [Nat.pow_add]
    ring
  rw [putField]
  omega

section
variable {x e w f : Nat} (hf : f < 2 ^ w)
include hf

theorem putField_field : putField x e w f / 2 ^ e % 2 ^ w = f := by
  have hlow : x % 2 ^ e < 2 ^ e := Nat.mod_lt _ (Nat.two_pow_pos e)
  have he : x / 2 ^ (e + w) * 2 ^ (e + w) + f * 2 ^ e + x % 2 ^ e = 2 ^ e * (2 ^ w * (x / 2 ^ (e + w)) + f) + x % 2 ^ e := by rw [Nat.pow_add]; ring
  rw [putField_eq, he, Nat.mul_add_div (Nat.two_pow_pos e), Nat.div_eq_of_lt hlow, Nat.add_zero, Nat.mul_add_mod, Nat.mod_eq_of_lt hf]

theorem putField_above : putField x e w f / 2 ^ (e + w) = x / 2 ^ (e + w) := by
  have hlow : x % 2 ^ e < 2 ^ e := Nat.mod_lt _ (Nat.two_pow_pos e)
  have hlt : f * 2 ^ e + x % 2 ^ e < 2 ^ (e + w) := by
    have : (f + 1) * 2 ^ e ≤ 2 ^ w * 2 ^ e := Nat.mul_le_mul_right _ hf
    rw [Nat.succ_mul] at this
    rw [Nat.pow_add, Nat.mul_comm (2 ^ e)]
    omega
  rw [putField_eq, Nat.add_assoc, Nat.mul_comm, Nat.mul_add_div (Nat.two_pow_pos _), Nat.div_eq_of_lt hlt, Nat.add_zero]

omit hf in
theorem putField_below : putField x e w f % 2 ^ e = x % 2 ^ e := by
  have he : x / 2 ^ (e + w) * 2 ^ (e + w) + f * 2 ^ e + x % 2 ^ e = 2 ^ e * (2 ^ w * (x / 2 ^ (e + w)) + f) + x % 2 ^ e := by rw [Nat.pow_add]; ring
  rw [putField_eq, he, Nat.mul_add_mod, Nat.mod_mod]

/-- The bits outside the field stay. -/
theorem putField_testBit {i : Nat} (hi : i < e ∨ e + w ≤ i) : (putField x e w f).testBit i = x.testBit i := by
  rcases hi with hi | hi
  · have h := congrArg (fun y => y.testBit i) (putField_below (x := x) (e := e) (w := w) (f := f))
    simpa [Nat.testBit_mod_two_pow, hi] using h
  · have h := congrArg (fun y => y.testBit (i - (e + w))) (putField_above (x := x) (e := e) hf)
    simpa [Nat.testBit_div_two_pow, Nat.sub_add_cancel hi] using h

/-- A field below bit n keeps the number below 2^n. -/
theorem putField_lt {n : Nat} (hx : x < 2 ^ n) (hn : e + w ≤ n) : putField x e w f < 2 ^ n := by
  refine Nat.lt_pow_two_of_testBit _ fun i hi => ?_
  rw [putField_testBit hf (.inr (Nat.le_trans hn hi))]
  exact Nat.testBit_lt_two_pow (Nat.lt_of_lt_of_le hx (Nat.pow_le_pow_right (by decide) hi))

end

/-! ### The advance -/

section
variable {s : State} {n : BitVec 5}

theorem State.advanced_linear (h : (s.core.regs.aMode[n.toNat]'n.isLt).mode = 0) : s.advanced n = s.core.regs.aVal n + s.stepOf n := by
  simp [State.advanced, h]

/-- In modulo mode the window's registers decide. -/
theorem State.advanced_modulo (h : (s.core.regs.aMode[n.toNat]'n.isLt).mode = 1) :
    s.advanced n =
      let w : BitVec 3 := (s.core.regs.aMode[n.toNat]'n.isLt).param.setWidth 3
      let len := (s.core.regs.wLen[w.toNat]'w.isLt).toNat
      let base := s.core.regs.wBase[w.toNat]'w.isLt
      if len = 0 then s.core.regs.aVal n + s.stepOf n
      else base + BitVec.ofInt 64 ((s.core.regs.aVal n - base + s.stepOf n).toInt % (len : Int)) := by
  rw [State.advanced, if_pos h]

/-- In bit-reversed mode the field at the step's bit counts up in reverse. -/
theorem State.advanced_reversed {e w : Nat} (h : (s.core.regs.aMode[n.toNat]'n.isLt).mode = 2) (he : e ≤ 30)
    (hd : s.stepOf n = BitVec.ofNat 64 (2 ^ e)) (hw : (s.core.regs.aMode[n.toNat]'n.isLt).param.toNat = w) :
    s.advanced n = BitVec.ofNat 64 (putField (s.core.regs.aVal n).toNat e w
      (Claims.reversed w ((Claims.reversed w ((s.core.regs.aVal n).toNat / 2 ^ e % 2 ^ w) + 1) % 2 ^ w))) := by
  have hpow : 2 ^ e < 2 ^ 64 := Nat.pow_lt_pow_right (by decide) (by omega)
  have hlog : Nat.log2 (s.stepOf n).toNat = e := by rw [hd, BitVec.toNat_ofNat, Nat.mod_eq_of_lt hpow, Nat.log2_two_pow]
  have h1 : ¬ (s.core.regs.aMode[n.toNat]'n.isLt).mode = 1 := by rw [h]; decide
  rw [State.advanced, if_neg h1, if_pos h, hlog, hw]
  simp only [bits, Nat.shiftRight_eq_div_pow, brev_eq_reversed, putField]

end

/-- A remainder of a positive length lies in the window and is congruent to its number. -/
theorem ofInt_emod_toNat (x : Int) {len : BitVec 32} (h : len ≠ 0) :
    (BitVec.ofInt 64 (x % (len.toNat : Int))).toNat < len.toNat ∧ (len.toNat : Int) ∣ ((BitVec.ofInt 64 (x % (len.toNat : Int))).toNat : Int) - x := by
  have hlen : 0 < len.toNat := Nat.pos_of_ne_zero fun e => h (BitVec.eq_of_toNat_eq e)
  have hlt := len.isLt
  have hnonneg : 0 ≤ x % (len.toNat : Int) := Int.emod_nonneg _ (by omega)
  have hless : x % (len.toNat : Int) < len.toNat := Int.emod_lt_of_pos _ (by omega)
  have hval : ((BitVec.ofInt 64 (x % (len.toNat : Int))).toNat : Int) = x % (len.toNat : Int) := by
    rw [BitVec.toNat_ofInt]
    omega
  refine ⟨by omega, ?_⟩
  rw [hval]
  exact ⟨-(x / (len.toNat : Int)), by have := Int.emod_add_mul_ediv x len.toNat; rw [Int.mul_neg]; omega⟩

/-- Settles O17: the modulo advance by Euclidean division, the bit-reversed one as the replacement of a field. -/
theorem advance : Obligations.Advance := by
  unfold Obligations.Advance
  intro s n m a base len
  refine ⟨State.advanced_linear, fun h hl => ?_, fun h hl => ?_, fun e w h he hd hw h1 h32 => ?_⟩
  · rw [State.advanced_modulo h]
    exact if_pos (congrArg BitVec.toNat hl)
  · have hne : ¬ len.toNat = 0 := fun e => hl (BitVec.eq_of_toNat_eq e)
    have hadv : s.advanced n - base = BitVec.ofInt 64 ((a - base + s.stepOf n).toInt % (len.toNat : Int)) := by
      rw [State.advanced_modulo h]
      dsimp only
      rw [if_neg hne, BitVec.add_comm, BitVec.add_sub_cancel]
    rw [hadv]
    exact ofInt_emod_toNat _ hl
  · have hadv := State.advanced_reversed h he hd hw
    have hf : Claims.reversed w ((Claims.reversed w (a.toNat / 2 ^ e % 2 ^ w) + 1) % 2 ^ w) < 2 ^ w := brev_eq_reversed w _ ▸ brev_lt w _
    have hlt := putField_lt hf (x := a.toNat) (e := e) a.isLt (by omega)
    have hnat : (s.advanced n).toNat
        = putField a.toNat e w (Claims.reversed w ((Claims.reversed w (a.toNat / 2 ^ e % 2 ^ w) + 1) % 2 ^ w)) := by
      rw [hadv, BitVec.toNat_ofNat, Nat.mod_eq_of_lt hlt]
    refine ⟨fun i _ hi => ?_, ?_⟩
    · rw [BitVec.getLsbD, hnat, putField_testBit hf hi, BitVec.getLsbD]
    · rw [hnat, putField_field hf]

end Sys2Proof.Machine
end

section
/-! PROOFS. The vector instructions of no table (R186-R190, R193-R196): compare, select, lane read, random draws and conversion. -/

namespace Sys2Proof.Machine

open Sys2Proof

/-! ### Compare -/

theorem zipWith_congr_mem {α β γ : Type} {f g : α → β → γ} {l : List α} {m : List β} (h : ∀ x ∈ l, ∀ y ∈ m, f x y = g x y) :
    l.zipWith f m = l.zipWith g m := by
  induction l generalizing m with
  | nil => rfl
  | cons x l ih =>
    cases m with
    | nil => rfl
    | cons y m =>
      rw [List.zipWith_cons_cons, List.zipWith_cons_cons, h x (.head _) y (.head _), ih fun a ha b hb => h a (.tail _ ha) b (.tail _ hb)]

/-- Elements are equal just when their signed values are. -/
theorem sintOf_inj {n x y : Nat} (hx : x < 2 ^ n) (hy : y < 2 ^ n) : sintOf n x = sintOf n y ↔ x = y := by
  have hx' : (x : Int) < 2 ^ n := by exact_mod_cast hx
  have hy' : (y : Int) < 2 ^ n := by exact_mod_cast hy
  simp only [sintOf, Nat.mod_eq_of_lt hx, Nat.mod_eq_of_lt hy]
  split <;> split <;> omega

/-- The model's comparison of two elements is the statements' (R186). -/
theorem vcmpOne_eq (cc : VCond) (ty : TyF) {x y : Nat} (hx : x < 2 ^ (8 * ty.bytes)) (hy : y < 2 ^ (8 * ty.bytes)) :
    vcmpOne cc ty x y = Claims.lessOrSo cc ty x y := by
  unfold vcmpOne Claims.lessOrSo
  cases fmtF ty with
  | some f => cases cc <;> rfl
  | none =>
    have hinj := sintOf_inj hx hy
    cases cc with
    | eq => simp only [VCond.int, Bool.beq_eq_decide_eq, hinj]
    | ne => simp only [VCond.int, bne, Bool.beq_eq_decide_eq, hinj, ne_eq, decide_not]
    | lt => rfl
    | le => rfl

theorem exec_vcmp_answers (s : State) (cc : VCond) (p : BitVec 4) (a b : BitVec 6) (ty : TyF) (m : BitVec 4) :
    exec (.vcmp cc p a b ty m) s = .next
      (let r := (elems ty.bytes (s.v a)).zipWith (Claims.lessOrSo cc ty) (elems ty.bytes (s.v b));
        Claims.answer s 2 (.p (physP s.core.regs.prb p)
          (BitVec.ofNat 1024 (joinBits ty.bytes (r.map fun x => if x.1 then 2 ^ ty.bytes - 1 else 0))) (elemMask ty.bytes (s.p m)))
          (vecFlags (enabledElems ty.bytes (s.p m)) (r.map fun x => (0, x.2)))) := by
  rw [← zipWith_congr_mem fun x hx y hy => vcmpOne_eq cc ty (elems_lt _ _ x hx) (elems_lt _ _ y hy)]
  change execVcmp cc p a b ty m s = _
  rw [execVcmp, State.issueWith_go, State.mark_send]

/-! ### Select and lane read -/

theorem exec_vsel_answers (s : State) (d a b : BitVec 6) (ty : TyI) (m : BitVec 4) :
    exec (.vsel d a b ty m) s = .next
      (Claims.answer s 2 (.v (physV s.core.regs.vrb d) (mergeV (s.v b) (s.v a) (elemMask ty.bytes (s.p m))) (BitVec.allOnes 1024))) := by
  change execVsel d a b ty m s = _
  rw [execVsel, State.issueWith_go, State.mark_send]

theorem vget_sends (sd si : BitVec 5) (a : BitVec 6) (t : Bool) (ty : TyI) : Sends (.vget sd a t si ty)
    { ops := [Claims.S si t, Claims.S sd], lat := 3
      what := fun s => .s sd (BitVec.ofNat 64 ((elems ty.bytes (s.v a)).getD ((s.core.regs.sVal si).toNat % (1024 / ty.bytes)) 0)) } := by
  intro s
  rw [operandChecks_two]
  rfl

/-! ### Draws -/

theorem State.drew_send_main {s : State} (h : s.comp = false) (lat : Nat) (what : Land) (flags : BitVec 5) :
    (s.send lat what flags).drew.mark .issued = (let t := Claims.answer s lat what flags;
      { t with core := { t.core with regs := { t.core.regs with rnd := s.core.regs.rnd + 1 } } }) := by
  have hm : s.me.isComp = false := h
  simp only [State.send_main h, Claims.answer, hm]
  rfl

theorem exec_vrnd_answers {s : State} (h : s.comp = false) (d : BitVec 6) (ty : TyI) (m : BitVec 4) :
    exec (.vrnd d ty m) s = .next (let t := Claims.answer s 3 (.v (physV s.core.regs.vrb d)
        (vecOf 4 ((List.range 256).map fun l => (draw s.core.regs.seed l s.core.regs.rnd).toNat)) (elemMask ty.bytes (s.p m)));
      { t with core := { t.core with regs := { t.core.regs with rnd := s.core.regs.rnd + 1 } } }) := by
  change execVrnd d ty m s = _
  rw [execVrnd, State.issueWith_go, State.drew_send_main h]

/-! ### Conversion -/

/-- The bits of the wider of two formats. -/
def cvtWidth (dst src : Fmt) : Nat := Nat.max (fmtBits src) (fmtBits dst)

/-- The conversion of one slot of a register (R193, R196). -/
def cvtSlot (s : State) (a : BitVec 6) (dst src : Fmt) (sat : Bool) (rnd : Rnd) (i : Nat) : Nat × Flags :=
  convertOne dst src sat rnd (if rnd = .sr then slotRandom s.core.regs.seed s.core.regs.rnd (cvtWidth dst src * i / 8) else 0)
    ((s.v a).extractLsb' (cvtWidth dst src * i) (fmtBits src)).toNat

/-- The elements that VCVT writes, and their flags. -/
def cvtResults (s : State) (a : BitVec 6) (dst src : Fmt) (sat : Bool) (rnd : Rnd) : List (Nat × Flags) :=
  (List.range (8192 / cvtWidth dst src)).map fun i => ((cvtSlot s a dst src sat rnd i).1 % 2 ^ fmtBits dst, (cvtSlot s a dst src sat rnd i).2)

def cvtValue (s : State) (a : BitVec 6) (dst src : Fmt) (sat : Bool) (rnd : Rnd) : VReg :=
  BitVec.ofNat 8192 (joinBits (cvtWidth dst src) ((cvtResults s a dst src sat rnd).map Prod.fst))

def cvtFlags (s : State) (a : BitVec 6) (dst src : Fmt) (sat : Bool) (rnd : Rnd) : Flags :=
  (cvtResults s a dst src sat rnd).foldl (fun acc x => acc ||| x.2) 0

section
variable {s : State} {d a : BitVec 6} {dst src : Fmt} {sat : Bool} {rnd : Rnd}

/-- A slot's element of the source is the low bits of the slot. -/
theorem slot_source (v : VReg) (i ws w : Nat) (h : ws ≤ w) : v.toNat / 2 ^ (w * i) % 2 ^ w % 2 ^ ws = (v.extractLsb' (w * i) ws).toNat := by
  rw [Nat.mod_mod_of_dvd _ (Nat.pow_dvd_pow 2 h), BitVec.extractLsb'_toNat, Nat.shiftRight_eq_div_pow]

/-- What the model makes of a slot's number and its bits. -/
def cvtOfBits (s : State) (dst src : Fmt) (sat : Bool) (rnd : Rnd) (e : Nat × Nat) : Nat × Flags :=
  let x := convertOne dst src sat rnd (if rnd = .sr then slotRandom s.core.regs.seed s.core.regs.rnd (cvtWidth dst src * e.1 / 8) else 0)
    (e.2 % 2 ^ fmtBits src)
  (x.1 % 2 ^ fmtBits dst, x.2)

/-- The model's list of results is the slots' in order. -/
theorem cvtResults_eq : ((List.range (8192 / cvtWidth dst src)).zip (splitBits (cvtWidth dst src) (8192 / cvtWidth dst src) (s.v a).toNat)).map
    (cvtOfBits s dst src sat rnd) = cvtResults s a dst src sat rnd := by
  have hzip := zip_range_map (fun i => (s.v a).toNat / 2 ^ (cvtWidth dst src * i) % 2 ^ cvtWidth dst src) (8192 / cvtWidth dst src)
  rw [List.length_map, List.length_range] at hzip
  rw [splitBits_eq, hzip, List.map_map, cvtResults]
  refine List.map_congr_left fun i _ => ?_
  simp only [Function.comp_apply, cvtOfBits, cvtSlot, slot_source (s.v a) i (fmtBits src) (cvtWidth dst src) (Nat.le_max_left _ _)]

theorem exec_vcvt_answers (h : s.comp = false) :
    exec (.vcvt d a dst src sat rnd) s = .next
      (let t := Claims.answer s 3 (.v (physV s.core.regs.vrb d) (cvtValue s a dst src sat rnd) (BitVec.allOnes 1024)) (cvtFlags s a dst src sat rnd);
        { t with core := { t.core with regs := { t.core.regs with rnd := if rnd = .sr then s.core.regs.rnd + 1 else s.core.regs.rnd } } }) := by
  have hm : s.me.isComp = false := h
  have hexec : exec (.vcvt d a dst src sat rnd) s = .next (State.mark (if rnd = .sr
      then (s.send 3 (.v (physV s.core.regs.vrb d) (cvtValue s a dst src sat rnd) (BitVec.allOnes 1024)) (cvtFlags s a dst src sat rnd)).drew
      else s.send 3 (.v (physV s.core.regs.vrb d) (cvtValue s a dst src sat rnd) (BitVec.allOnes 1024)) (cvtFlags s a dst src sat rnd)) .issued) := by
    change execVcvt d a dst src sat rnd s = _
    rw [cvtValue, cvtFlags, ← cvtResults_eq, execVcvt, State.issueWith_go]
    rfl
  rw [hexec]
  by_cases hr : rnd = .sr
  · simp only [if_pos hr, State.drew_send_main h]
  · simp only [if_neg hr, State.mark_send, Claims.answer, hm]
    rfl

/-- The formats that VCVT takes have 4 to 64 bits. -/
theorem fmtBits_legal {f : Fmt} (h : f.vcvtLegal = true) : fmtBits f = 4 ∨ fmtBits f = 8 ∨ fmtBits f = 16 ∨ fmtBits f = 32 ∨ fmtBits f = 64 := by
  revert h
  cases f <;> decide

/-- Slots of the wider of two legal formats fill a register. -/
theorem cvtWidth_fill (hd : dst.vcvtLegal = true) (hs : src.vcvtLegal = true) : cvtWidth dst src * (8192 / cvtWidth dst src) = 8192 := by
  rcases fmtBits_legal hd with e | e | e | e | e <;> rcases fmtBits_legal hs with f | f | f | f | f <;> rw [cvtWidth, e, f] <;> rfl

theorem cvtValue_slot (hd : dst.vcvtLegal = true) (hs : src.vcvtLegal = true) {i : Nat} (hi : i < 8192 / cvtWidth dst src) :
    ((cvtValue s a dst src sat rnd).extractLsb' (cvtWidth dst src * i) (cvtWidth dst src)).toNat
      = (cvtSlot s a dst src sat rnd i).1 % 2 ^ fmtBits dst := by
  have hlen : ((cvtResults s a dst src sat rnd).map Prod.fst).length = 8192 / cvtWidth dst src := by simp [cvtResults]
  have hle : fmtBits dst ≤ cvtWidth dst src := Nat.le_max_right _ _
  rw [BitVec.extractLsb'_toNat, cvtValue, toNat_ofNat_joinBits (by rw [hlen, cvtWidth_fill hd hs]), Nat.shiftRight_eq_div_pow,
    joinBits_field _ _ (by rw [hlen]; exact hi)]
  simp only [cvtResults, List.map_map, List.getElem_map, List.getElem_range, Function.comp_apply]
  exact Nat.mod_eq_of_lt (Nat.lt_of_lt_of_le (Nat.mod_lt _ (Nat.two_pow_pos _)) (Nat.pow_le_pow_right (by decide) hle))

/-- A flag of an OR of flags is set where one of them has it. -/
theorem foldl_flags_getLsbD {l : List (Nat × Flags)} {f : Flags} {b : Nat} :
    (l.foldl (fun acc x => acc ||| x.2) f).getLsbD b = true ↔ f.getLsbD b = true ∨ ∃ x ∈ l, x.2.getLsbD b = true := by
  induction l generalizing f with
  | nil => simp
  | cons x l ih => rw [List.foldl_cons, ih, BitVec.getLsbD_or, Bool.or_eq_true, or_assoc, List.exists_mem_cons_iff]

theorem cvtFlags_getLsbD {b : Nat} :
    (cvtFlags s a dst src sat rnd).getLsbD b = true ↔ ∃ i < 8192 / cvtWidth dst src, (cvtSlot s a dst src sat rnd i).2.getLsbD b = true := by
  rw [cvtFlags, foldl_flags_getLsbD]
  simp [cvtResults]

end

/-- Settles O26: VCMP and VSEL by what they send, VGET as an instruction that only sends, VRND by its draws, and VCVT slot by slot. -/
theorem vectorOther : Obligations.VectorOther := by
  unfold Obligations.VectorOther
  refine ⟨fun s a b d m p => ⟨fun cc ty => exec_vcmp_answers s cc p a b ty m, fun ty => ⟨_, exec_vsel_answers s d a b ty m, fun i hi => ?_⟩,
    fun ty sd si t hf => (vget_sends sd si a t ty).full hf⟩, fun s d a m hc => ⟨fun ty => exec_vrnd_answers hc d ty m, fun dst src sat rnd =>
    ⟨_, _, exec_vcvt_answers hc, fun hwf => ?_⟩⟩⟩
  · rw [mergeV_get _ _ _ hi, elemMask_byte (TyI.elemWidth_bytes ty) _ hi]
  · obtain ⟨⟨⟨hdst, hsrc⟩, -⟩, -⟩ : ((dst.vcvtLegal = true ∧ src.vcvtLegal = true) ∧ (src != dst) = true)
        ∧ (!(sat && !dst.isFloat && src.isFloat)) = true := by
      simpa only [Instr.wellFormed, Bool.and_eq_true] using hwf
    exact ⟨fun i hi => cvtValue_slot hdst hsrc hi, fun b _ => cvtFlags_getLsbD⟩

end Sys2Proof.Machine
end

section
/-! PROOFS. What the decoder answers (R69, R72-R95): the slot kind of every accepted word, map by map, and the words that each map refuses by their
opcode. -/

namespace Sys2Proof.Machine

open Sys2Proof

/-! ### The slot kind of what a map accepts -/

/-- A map's answer for a word: a refusal, a NOP, or an instruction of the map's slot kind. -/
inductive AnswersFor (k : SlotKind) : Except Reject Instr → Prop
  | refusal (e : Reject) : AnswersFor k (.error e)
  | nop : AnswersFor k (.ok .nop)
  | row {i : Instr} (h : i.slotKind = some k) : AnswersFor k (.ok i)

section
variable {k : SlotKind} {r : Except Reject Instr}

theorem AnswersFor.zeroed {c : Prop} [Decidable c] (h : AnswersFor k r) : AnswersFor k (zeroed c r) := by
  unfold Sys2Proof.zeroed
  split
  · exact h
  · exact .refusal _

theorem AnswersFor.reading {α : Type} {v : Option α} {f : α → Except Reject Instr} (h : ∀ x, AnswersFor k (f x)) : AnswersFor k (reading v f) := by
  cases v with
  | some x => exact h x
  | none => exact .refusal _

theorem AnswersFor.zeroWord {w : Word32} : AnswersFor k (if w = 0 then .ok .nop else .error .zeroOpcode) := by
  split
  · exact .nop
  · exact .refusal _

theorem AnswersFor.of_ok {i : Instr} (h : AnswersFor k (.ok i)) : i = .nop ∨ i.slotKind = some k := by
  cases h with
  | nop => exact .inl rfl
  | row h => exact .inr h

end

theorem decodeS01_answers (w : Word32) : AnswersFor .S (decodeS01 w) := by
  unfold decodeS01
  split
  all_goals
    repeat' with_reducible first
      | exact .refusal _
      | apply AnswersFor.zeroed
      | refine AnswersFor.reading fun _ => ?_
      | apply AnswersFor.row
  all_goals rfl

theorem decodeS02_answers (w : Word32) : AnswersFor .S (decodeS02 w) := by
  unfold decodeS02
  split
  all_goals
    repeat' with_reducible first
      | exact .refusal _
      | apply AnswersFor.zeroed
      | refine AnswersFor.reading fun _ => ?_
      | apply AnswersFor.row
  all_goals rfl

theorem decodeS1D_answers (w : Word32) : AnswersFor .S (decodeS1D w) := by
  unfold decodeS1D
  split
  all_goals
    repeat' with_reducible first
      | exact .refusal _
      | apply AnswersFor.zeroed
      | refine AnswersFor.reading fun _ => ?_
      | apply AnswersFor.row
  all_goals rfl

theorem decodeS1E_answers (w : Word32) : AnswersFor .S (decodeS1E w) := by
  unfold decodeS1E
  split
  all_goals
    repeat' with_reducible first
      | exact .refusal _
      | apply AnswersFor.zeroed
      | refine AnswersFor.reading fun _ => ?_
      | apply AnswersFor.row
  all_goals rfl

theorem decodeS20_answers (w : Word32) : AnswersFor .S (decodeS20 w) := by
  unfold decodeS20
  split
  all_goals
    repeat' with_reducible first
      | exact .refusal _
      | apply AnswersFor.zeroed
      | refine AnswersFor.reading fun _ => ?_
      | apply AnswersFor.row
  all_goals rfl

theorem decodeS27_answers (w : Word32) : AnswersFor .S (decodeS27 w) := by
  unfold decodeS27
  split
  all_goals
    repeat' with_reducible first
      | exact .refusal _
      | apply AnswersFor.zeroed
      | refine AnswersFor.reading fun _ => ?_
      | apply AnswersFor.row
  all_goals rfl

theorem decodeX03_answers (w : Word32) : AnswersFor .X (decodeX03 w) := by
  unfold decodeX03
  split
  all_goals
    repeat' with_reducible first
      | exact .refusal _
      | apply AnswersFor.zeroed
      | refine AnswersFor.reading fun _ => ?_
      | apply AnswersFor.row
  all_goals rfl

theorem decodeS_answers (w : Word32) : AnswersFor .S (decodeS w) := by
  unfold decodeS
  split
  all_goals
    repeat' with_reducible first
      | exact .refusal _
      | exact .zeroWord
      | exact decodeS01_answers w
      | exact decodeS02_answers w
      | exact decodeS1D_answers w
      | exact decodeS1E_answers w
      | exact decodeS20_answers w
      | exact decodeS27_answers w
      | apply AnswersFor.zeroed
      | refine AnswersFor.reading fun _ => ?_
      | apply AnswersFor.row
  all_goals rfl

theorem decodeA_answers (w : Word32) : AnswersFor .A (decodeA w) := by
  unfold decodeA
  split
  all_goals
    repeat' with_reducible first
      | exact .refusal _
      | exact .zeroWord
      | apply AnswersFor.zeroed
      | refine AnswersFor.reading fun _ => ?_
      | apply AnswersFor.row
  all_goals rfl

theorem decodeV_answers (w : Word32) : AnswersFor .V (decodeV w) := by
  unfold decodeV
  split
  all_goals
    repeat' with_reducible first
      | exact .refusal _
      | exact .zeroWord
      | apply AnswersFor.zeroed
      | refine AnswersFor.reading fun _ => ?_
      | apply AnswersFor.row
  all_goals rfl

theorem decodeM_answers (w : Word32) : AnswersFor .M (decodeM w) := by
  unfold decodeM
  split
  all_goals
    repeat' with_reducible first
      | exact .refusal _
      | exact .zeroWord
      | apply AnswersFor.zeroed
      | refine AnswersFor.reading fun _ => ?_
      | apply AnswersFor.row
  all_goals rfl

theorem decodeC_answers (w : Word32) : AnswersFor .C (decodeC w) := by
  unfold decodeC
  split
  all_goals
    repeat' with_reducible first
      | exact .refusal _
      | exact .zeroWord
      | apply AnswersFor.zeroed
      | refine AnswersFor.reading fun _ => ?_
      | apply AnswersFor.row
  all_goals rfl

theorem decodeX_answers (w : Word32) : AnswersFor .X (decodeX w) := by
  unfold decodeX
  split
  all_goals
    repeat' with_reducible first
      | exact .refusal _
      | exact .zeroWord
      | exact decodeX03_answers w
      | apply AnswersFor.zeroed
      | refine AnswersFor.reading fun _ => ?_
      | apply AnswersFor.row
  all_goals rfl

theorem decodeMap_answers (k : SlotKind) (w : Word32) : AnswersFor k (decodeMap k w) := by
  cases k with
  | S => exact decodeS_answers w
  | A => exact decodeA_answers w
  | V => exact decodeV_answers w
  | M => exact decodeM_answers w
  | C => exact decodeC_answers w
  | X => exact decodeX_answers w

/-- A word is accepted when its map accepts it and its operands are in their ranges. -/
theorem decode_ok_iff (k : SlotKind) (w : Word32) (i : Instr) : decode k w = .ok i ↔ decodeMap k w = .ok i ∧ i.wellFormed = true := by
  unfold decode
  split
  · next j hj =>
    rw [hj, Except.ok.injEq]
    split
    · next hw => exact ⟨fun h => ⟨Except.ok.inj h, Except.ok.inj h ▸ hw⟩, fun h => congrArg Except.ok h.1⟩
    · next hw => exact ⟨fun h => (nomatch h), fun ⟨h, hi⟩ => absurd (h ▸ hi) hw⟩
  · next e he =>
    rw [he]
    exact ⟨fun h => (nomatch h), fun h => (nomatch h.1)⟩

theorem decode_error {k : SlotKind} {w : Word32} {e : Reject} (h : decodeMap k w = .error e) : decode k w = .error e := by
  rw [decode, h]

/-! ### Words that a map refuses by their opcode -/

theorem opcode_toNat (w : Word32) : (fld w 25 7).toNat = w.toNat / 2 ^ 25 := by
  have := w.isLt
  rw [fld, BitVec.extractLsb'_toNat, Nat.shiftRight_eq_div_pow]
  omega

/-- Opcode 0 with another bit set is refused by every map (R69). -/
theorem decodeMap_zeroOpcode (k : SlotKind) {w : Word32} (hw : w ≠ 0) (h : (fld w 25 7).toNat = 0) : decodeMap k w = .error .zeroOpcode := by
  cases k with
  | S => rw [decodeMap, decodeS, h]; exact if_neg hw
  | A => rw [decodeMap, decodeA, h]; exact if_neg hw
  | V => rw [decodeMap, decodeV, h]; exact if_neg hw
  | M => rw [decodeMap, decodeM, h]; exact if_neg hw
  | C => rw [decodeMap, decodeC, h]; exact if_neg hw
  | X => rw [decodeMap, decodeX, h]; exact if_neg hw

theorem decodeS_above {w : Word32} (h : 0x2A ≤ (fld w 25 7).toNat) : decodeS w = .error .reservedOpcode := by
  obtain ⟨m, hm⟩ := Nat.exists_eq_add_of_le' h
  rw [decodeS, hm]
  rfl

theorem decodeA_above {w : Word32} (h : 0x0D ≤ (fld w 25 7).toNat) : decodeA w = .error .reservedOpcode := by
  obtain ⟨m, hm⟩ := Nat.exists_eq_add_of_le' h
  rw [decodeA, hm]
  rfl

theorem decodeV_above {w : Word32} (h : 0x34 ≤ (fld w 25 7).toNat) : decodeV w = .error .reservedOpcode := by
  obtain ⟨m, hm⟩ := Nat.exists_eq_add_of_le' h
  rw [decodeV, hm]
  rfl

theorem decodeM_above {w : Word32} (h : 0x07 ≤ (fld w 25 7).toNat) : decodeM w = .error .reservedOpcode := by
  obtain ⟨m, hm⟩ := Nat.exists_eq_add_of_le' h
  rw [decodeM, hm]
  rfl

theorem decodeC_above {w : Word32} (h : 0x07 ≤ (fld w 25 7).toNat) : decodeC w = .error .reservedOpcode := by
  obtain ⟨m, hm⟩ := Nat.exists_eq_add_of_le' h
  rw [decodeC, hm]
  rfl

theorem decodeX_above {w : Word32} (h : 0x24 ≤ (fld w 25 7).toNat) : decodeX w = .error .reservedOpcode := by
  obtain ⟨m, hm⟩ := Nat.exists_eq_add_of_le' h
  rw [decodeX, hm]
  rfl

/-- The V map leaves 0x29 to 0x2F out (R83). -/
theorem decodeV_gap {w : Word32} (h : 0x29 ≤ (fld w 25 7).toNat) (h' : (fld w 25 7).toNat < 0x30) : decodeV w = .error .reservedOpcode := by
  unfold decodeV
  generalize (fld w 25 7).toNat = n at h h'
  interval_cases n <;> rfl

/-- An opcode above those of a map, and one in the gap of the V map, is refused as reserved (R72, R81, R83, R89, R92). -/
theorem decodeMap_reservedOpcode (k : SlotKind) {w : Word32}
    (h : Claims.opcodesEnd k ≤ (fld w 25 7).toNat ∨ (k = .V ∧ 0x29 ≤ (fld w 25 7).toNat ∧ (fld w 25 7).toNat < 0x30)) :
    decodeMap k w = .error .reservedOpcode := by
  rcases h with h | ⟨rfl, h, h'⟩
  · cases k with
    | S => exact decodeS_above h
    | A => exact decodeA_above h
    | V => exact decodeV_above h
    | M => exact decodeM_above h
    | C => exact decodeC_above h
    | X => exact decodeX_above h
  · exact decodeV_gap h h'

/-- Settles O3: the slot kinds map by map, the operand ranges by the decoder's last check, and the refusals by the opcode. -/
theorem decoderAnswers : Obligations.DecoderAnswers := by
  unfold Obligations.DecoderAnswers
  refine ⟨fun k w i h => ?_, fun k w => ⟨fun hw h => ?_, fun h => ?_⟩⟩
  · obtain ⟨hm, hwf⟩ := (decode_ok_iff k w i).mp h
    exact ⟨hwf, (hm ▸ decodeMap_answers k w).of_ok⟩
  · exact decode_error (decodeMap_zeroOpcode k hw ((opcode_toNat w).trans h))
  · rw [← opcode_toNat] at h
    exact decode_error (decodeMap_reservedOpcode k h)

end Sys2Proof.Machine
end

section
/-! PROOFS. One write at a line's home: what it leaves of the line and of memory, and how a queued store performs by it (R152, R221, R377). -/

namespace Sys2Proof.Machine

open Sys2Proof

/-! ### A write at a line's home -/

theorem State.writeLine_poisoned {s : State} {pa : Nat} (h : (s.lineMeta (pa / 128)).poison = true) (key : Nat) (bs : List Byte) :
    s.writeLine key pa bs = (s, true) := by simp [State.writeLine, h]

theorem State.writeLine_clean {s : State} {pa : Nat} (hp : (s.lineMeta (pa / 128)).poison = false) (hf : pa / 128 ∉ s.flaws) (key : Nat) (bs : List Byte) :
    s.writeLine key pa bs =
      ({ s with mem := s.stored key pa ((s.lineMeta (pa / 128)).version + 1) bs,
                lines := Sparse.set {} s.lines (pa / 128) { s.lineMeta (pa / 128) with version := (s.lineMeta (pa / 128)).version + 1 } }, false) := by
  simp [State.writeLine, hp, hf]

theorem State.lineMeta_eq {s t : State} (h : t.lines = s.lines) (k : Nat) : t.lineMeta k = s.lineMeta k := by
  rw [State.lineMeta, h, State.lineMeta]

theorem State.writeLine_lineMeta_other (s : State) (key pa k : Nat) (bs : List Byte) (h : k ≠ pa / 128) :
    (s.writeLine key pa bs).1.lineMeta k = s.lineMeta k := by
  rw [State.writeLine]
  split
  · rfl
  · split
    · simp [State.lineMeta, Sparse.get_set, h]
    · simp [State.lineMeta, Sparse.get_set, h]

/-- A line that holds poison, or that meets an uncorrectable error, keeps its bytes and its version and is poisoned (R377). -/
theorem State.writeLine_refused {s : State} {pa : Nat} (h : (s.lineMeta (pa / 128)).poison = true ∨ pa / 128 ∈ s.flaws) (key : Nat) (bs : List Byte) :
    (s.writeLine key pa bs).2 = true ∧ (s.writeLine key pa bs).1.mem = s.mem
      ∧ (s.writeLine key pa bs).1.lineMeta (pa / 128) = ⟨(s.lineMeta (pa / 128)).version, true⟩ := by
  by_cases hp : (s.lineMeta (pa / 128)).poison = true
  · have hm : s.lineMeta (pa / 128) = ⟨(s.lineMeta (pa / 128)).version, true⟩ := by rw [← hp]
    rw [State.writeLine_poisoned hp]
    exact ⟨rfl, rfl, hm⟩
  · have hf := h.resolve_left hp
    simp only [State.writeLine, hp, hf, if_true]
    exact ⟨rfl, rfl, by simp [State.lineMeta, Sparse.get_set]⟩

/-- Any other line takes the bytes, under the next version (R221). -/
theorem State.writeLine_performed {s : State} {pa : Nat} (hp : (s.lineMeta (pa / 128)).poison = false) (hf : pa / 128 ∉ s.flaws) (bs : List Byte) :
    (s.writeLine 0 pa bs).2 = false ∧ (s.writeLine 0 pa bs).1.lineMeta (pa / 128) = ⟨(s.lineMeta (pa / 128)).version + 1, false⟩
      ∧ ∀ a, Sparse.get 0 (s.writeLine 0 pa bs).1.mem a = if pa ≤ a ∧ a < pa + bs.length then bs.getD (a - pa) 0 else Sparse.get 0 s.mem a := by
  rw [State.writeLine_clean hp hf]
  refine ⟨rfl, ?_, fun a => Sparse.get_setRange 0 bs s.mem pa a⟩
  simp [State.lineMeta, Sparse.get_set]
  simpa [State.lineMeta] using hp

/-! ### A queued store -/

/-- A range of 1 byte to a line's whole that crosses no line is one piece. -/
theorem linePieces_one {fuel pa n : Nat} (hn : 0 < n) (h : pa % 128 + n ≤ 128) : linePieces (fuel + 2) pa n = [(pa, n)] := by
  have hm : Nat.min n (128 - pa % 128) = n := Nat.min_eq_left (by omega)
  have hz : n ≠ 0 := by omega
  simp [linePieces, hm, hz]

/-- An aligned access of up to 8 bytes lies in one line. -/
theorem aligned_in_line {pa : Nat} (sz : BitVec 2) (h : pa % 2 ^ sz.toNat = 0) : pa % 128 + 2 ^ sz.toNat ≤ 128 := by
  have hlt := sz.isLt
  have : sz.toNat = 0 ∨ sz.toNat = 1 ∨ sz.toNat = 2 ∨ sz.toNat = 3 := by omega
  rcases this with e | e | e | e <;> rw [e] at h ⊢ <;> omega

/-- A write of one line of device memory that passed its checks is the write at the line's home. -/
theorem State.physWrite_device {s : State} {w : Who} {key pa d : Nat} {bs : List Byte} (hr : region pa = .device d) (hn : 0 < bs.length)
    (hl : pa % 128 + bs.length ≤ 128) : s.physWrite w key pa bs = s.writeLine key pa bs := by
  have hv : versioned pa = true := by simp [versioned, hr]
  simp only [State.physWrite, hr, State.writePlain, linePieces_one hn hl, hv, if_true, State.writeLines, List.take_length, Bool.or_false]

/-- The L1 takes a store without a change of the registers, memory or lines. -/
theorem State.onCore_l1 (s : State) (c : CoreRef) (f : Core → Core) (h : ∀ x, (f x).regs = x.regs) :
    (s.onCore c f).core.regs = s.core.regs ∧ (s.onCore c f).mem = s.mem ∧ (s.onCore c f).lines = s.lines := by
  refine ⟨?_, by simp, by simp⟩
  by_cases hc : c = s.me
  · subst hc; simp [State.onCore, State.setCore, h]
  · simp [State.onCore, State.setCore, hc]

theorem Core.l1Write_regs (x : Core) (pa : Nat) (bs : List Byte) : (x.l1Write pa bs).regs = x.regs := by
  unfold Core.l1Write; split <;> rfl

theorem Core.noteStale_regs (x : Core) (path : BitVec 3) (line : Nat) : (x.noteStale path line).regs = x.regs := by
  unfold Core.noteStale; split <;> rfl

theorem State.l1Update_fields (s : State) (pa : Nat) (bs : List Byte) :
    (s.l1Update pa bs).core.regs = s.core.regs ∧ (s.l1Update pa bs).mem = s.mem ∧ (s.l1Update pa bs).lines = s.lines :=
  s.onCore_l1 _ _ fun x => x.l1Write_regs pa bs

theorem State.l1Fused_fields (s : State) (pa : Nat) (bs : List Byte) :
    (s.l1Fused pa bs).core.regs = s.core.regs ∧ (s.l1Fused pa bs).mem = s.mem ∧ (s.l1Fused pa bs).lines = s.lines := by
  unfold State.l1Fused
  split
  · exact s.onCore_l1 _ _ fun x => x.l1Write_regs pa bs
  · exact ⟨rfl, rfl, rfl⟩

theorem State.besideL1_fields (s : State) (path : BitVec 3) (pa : Nat) (bs : List Byte) :
    (s.besideL1 path pa bs).core.regs = s.core.regs ∧ (s.besideL1 path pa bs).mem = s.mem ∧ (s.besideL1 path pa bs).lines = s.lines := by
  obtain ⟨h1, h2, h3⟩ := State.l1Fused_fields (s.onCore (s.l1Of (pa / 128)) fun x => x.noteStale path (pa / 128)) pa bs
  obtain ⟨g1, g2, g3⟩ := s.onCore_l1 (s.l1Of (pa / 128)) (fun x => x.noteStale path (pa / 128)) fun x => x.noteStale_regs path (pa / 128)
  exact ⟨h1.trans g1, h2.trans g2, h3.trans g3⟩

/-- What the caches make of a write changes caches alone. -/
theorem State.cacheWrites_fields (s : State) (path : BitVec 3) (l : List (Nat × List Byte)) :
    (s.cacheWrites path l).core.regs = s.core.regs ∧ (s.cacheWrites path l).mem = s.mem ∧ (s.cacheWrites path l).lines = s.lines := by
  unfold State.cacheWrites
  induction l generalizing s with
  | nil => exact ⟨rfl, rfl, rfl⟩
  | cons p t ih =>
    rw [List.foldl_cons]
    refine ⟨(ih _).1.trans ?_, (ih _).2.1.trans ?_, (ih _).2.2.trans ?_⟩ <;>
      · split
        · rfl
        · split
          · simp only [State.besideL1_fields]
          · dsimp only
            split <;> simp only [State.l1Update_fields, State.l1Fused_fields]

/-- The bytes of a number are its fields of 8 bits, low first (R6). -/
theorem leBytes_getD {n x i : Nat} (h : i < n) : (leBytes n x).getD i 0 = BitVec.ofNat 8 (x / 2 ^ (8 * i)) := by
  induction n generalizing x i with
  | zero => omega
  | succ n ih =>
    cases i with
    | zero => simp [leBytes]
    | succ i =>
      rw [leBytes, List.getD_cons_succ, ih (by omega), Nat.div_div_eq_div_mul]
      congr 2
      rw [Nat.mul_succ, Nat.pow_add, Nat.mul_comm]

theorem leBytes_word_getD {n i : Nat} (v : Word) (h : i < n) : (leBytes n v.toNat).getD i 0 = v.extractLsb' (8 * i) 8 := by
  rw [leBytes_getD h, BitVec.extractLsb', Nat.shiftRight_eq_div_pow]

/-- The device's bytes of a store are those of its data; its line has the next version, and no register changes (R152, R221). -/
theorem State.storeAt_device {s : State} {w : Who} {p : Place} {bs : List Byte} {d : Nat} (hr : region p.pa.toNat = .device d) (hk : p.key = 0)
    (hn : 0 < bs.length) (hl : p.pa.toNat % 128 + bs.length ≤ 128) (hp : (s.lineMeta (p.pa.toNat / 128)).poison = false)
    (hf : p.pa.toNat / 128 ∉ s.flaws) :
    (s.storeAt w p bs).core.regs = s.core.regs
      ∧ (s.storeAt w p bs).lineMeta (p.pa.toNat / 128) = ⟨(s.lineMeta (p.pa.toNat / 128)).version + 1, false⟩
      ∧ ∀ a, Sparse.get 0 (s.storeAt w p bs).mem a =
          if p.pa.toNat ≤ a ∧ a < p.pa.toNat + bs.length then bs.getD (a - p.pa.toNat) 0 else Sparse.get 0 s.mem a := by
  obtain ⟨h2, hmeta, hmem⟩ := State.writeLine_performed hp hf bs
  have hw : s.physWrite w p.key.toNat p.pa.toNat bs = s.writeLine 0 p.pa.toNat bs := by rw [State.physWrite_device hr hn hl, hk]; rfl
  have hregs : (s.writeLine 0 p.pa.toNat bs).1.core = s.core := by rw [State.writeLine_clean hp hf]
  have hs : s.storeAt w p bs = (s.writeLine 0 p.pa.toNat bs).1.cacheWrites 0 (s.lineWrites p.pa.toNat bs) := by
    simp only [State.storeAt, hw, h2, Bool.false_eq_true, if_false]
  obtain ⟨c1, c2, c3⟩ := State.cacheWrites_fields (s.writeLine 0 p.pa.toNat bs).1 0 (s.lineWrites p.pa.toNat bs)
  rw [hs]
  exact ⟨by rw [c1, hregs], by rw [State.lineMeta_eq c3, hmeta], by rw [c2]; exact hmem⟩

/-- A queued operation without a result performs at its home when its turn comes. -/
theorem exec_writePerformAtHome {s : State} {k : Nat} {e : MemEntry} (hm : s.mayPerform k = some e) (hp : s.produces s.me k = false) :
    exec (.writePerformAtHome s.me k) s = .next (({ s with core := s.core.unqueue k } : State).performOp e) := by
  change execWritePerformAtHome s.me k s = _
  simp [execWritePerformAtHome, hp, State.within, State.performAt, hm]

/-- Settles O49: the write at the line's home by the line's state, and the queued store as such a write of its data's bytes. -/
theorem lineWrite : Obligations.LineWrite := by
  intro s pa bs _
  refine ⟨fun h => State.writeLine_refused h 0 bs, fun hp hf => State.writeLine_performed hp hf bs, fun k hk => s.writeLine_lineMeta_other 0 pa k bs hk, ?_⟩
  intro k d e p ac sz v hq hop hm hpa hr hkey hal hpoison hflaw
  subst hpa
  have hstore : s.produces s.me k = false := by simp [State.produces, hq, hop]
  have hlen : (leBytes (2 ^ sz.toNat) v.toNat).length = 2 ^ sz.toNat := leBytes_length _ _
  have hpos : 0 < 2 ^ sz.toNat := Nat.two_pow_pos _
  let u : State := { s with core := s.core.unqueue k }
  let w : Who := if e.sup then ⟨none, true⟩ else ⟨some u.job, false⟩
  obtain ⟨hregs, hmeta, hmem⟩ := State.storeAt_device (s := u) (w := w) (p := p) (bs := leBytes (2 ^ sz.toNat) v.toNat)
    hr hkey (by omega) (by rw [hlen]; exact aligned_in_line sz hal) hpoison hflaw
  refine ⟨_, exec_writePerformAtHome hm hstore, ?_⟩
  have hperf : u.performOp e = u.storeAt w p (leBytes (2 ^ sz.toNat) v.toNat) := by simp only [State.performOp, hop]; rfl
  rw [show ({ s with core := s.core.unqueue k } : State) = u from rfl, hperf]
  refine ⟨hmeta, hregs, fun a => ?_⟩
  rw [hmem, hlen]
  split
  · next ha => exact leBytes_word_getD v (by omega)
  · rfl

end Sys2Proof.Machine
end

section
/-! PROOFS. The events of the units: each completes in every state, and moves nothing where its unit is idle. -/

namespace Sys2Proof.Machine

open Sys2Proof

/-! ### What an event does to the core in focus -/

theorem State.within_me (s : State) (f : State → State) : s.within s.me f = f s := by simp [State.within]

/-- A move of a unit is made, or waits for a channel group (R39). -/
theorem State.orHold_eq (s : State) (f : State → State) : s.orHold f = Claims.orWaits s (f s) := rfl

theorem State.orHold_self {s : State} {f : State → State} (h : f s = s) : s.orHold f = s := by simp [State.orHold, h]

/-- A move that meets no channel group that is not ready is made. -/
theorem State.orWaits_held {s t : State} (h : t.held = s.held) : Claims.orWaits s t = t := by
  unfold Claims.orWaits
  rw [h]
  cases s.held <;> rfl

/-- Every event of the units completes. -/
theorem exec_unitEvent {i : Instr} (s : State) (h : Claims.unitEvent i = true) : ∃ t, exec i s = .next t := by
  cases i
  case suffixOpPerform | pageWalk | imemReload | engineDispatch | engineRetire | gatherPartReply | chunkReceive | schedulerPlace | dieFreeRequest | taskRetire
    | taskSuspend | yieldRequeue | datapathError | pageMigration | faultRingRoom | poisonedAcknowledgementPath | compStart | hifTdecQueueHead
    | phaseSliceExpiry => exact ⟨_, rfl⟩
  all_goals exact nomatch h

theorem unitEvent_keepsHostRegisters {i : Instr} (h : Claims.unitEvent i = true) : Claims.changesHost i = false := by
  cases i
  case suffixOpPerform | pageWalk | imemReload | engineDispatch | engineRetire | gatherPartReply | chunkReceive | schedulerPlace | dieFreeRequest | taskRetire
    | taskSuspend | yieldRequeue | datapathError | pageMigration | faultRingRoom | poisonedAcknowledgementPath | compStart | hifTdecQueueHead
    | phaseSliceExpiry => rfl
  all_goals exact nomatch h

/-! ### Idle units -/

/-- Without a task the core's events move nothing. -/
theorem exec_taskRetire_idle {s : State} (h : s.core.task = none) : exec (.taskRetire s.me) s = .next s := by
  change execTaskRetire s.me s = _
  rw [execTaskRetire, State.within_me, State.orHold_self]
  simp only [h]

theorem exec_imemReload_idle {s : State} (h : s.core.task = none) : exec (.imemReload s.me) s = .next s := by
  change execImemReload s.me s = _
  rw [execImemReload, State.within_me, State.orHold_self]
  simp only [h]

theorem exec_datapathError_idle {s : State} (h : s.core.task = none) (hl : s.core.life ≠ .checkpoint) : exec (.datapathError s.me) s = .next s := by
  change execDatapathError s.me s = _
  rw [execDatapathError, State.within_me, State.orHold_self]
  simp [State.datapathError, h, hl]

theorem exec_taskSuspend_idle {s : State} (h : s.core.task = none) : exec (.taskSuspend s.me) s = .next s := by
  change execTaskSuspend s.me s = _
  rw [execTaskSuspend, State.within_me, State.orHold_self]
  simp only [h]

theorem exec_yieldRequeue_idle {s : State} (h : s.core.task = none) : exec (.yieldRequeue s.me) s = .next s := by
  change execYieldRequeue s.me s = _
  rw [execYieldRequeue, State.within_me, State.orHold_self]
  simp only [h]

theorem exec_engineDispatch_idle {s : State} (e : Eng) (h : s.core.task = none) : exec (.engineDispatch s.me e) s = .next s := by
  change execEngineDispatch s.me e s = _
  simp [execEngineDispatch, State.within_me, h]

/-- Without a command, a posting, a suffix operation, a counter write or a request for a walk nothing moves. -/
theorem exec_engineRetire_idle {s : State} (k : Nat) (h : s.core.cmds = []) : exec (.engineRetire s.me k) s = .next s := by
  change execEngineRetire s.me k s = _
  simp [execEngineRetire, State.within_me, h]

theorem exec_faultRingRoom_idle {s : State} {d : BitVec 2} (h : (s.die d).posts = []) : exec (.faultRingRoom d) s = .next s := by
  change execFaultRingRoom d s = _
  rw [execFaultRingRoom, State.orHold_self]
  simp only [h]

theorem exec_suffixOpPerform_idle {s : State} {d : BitVec 2} (k : Nat) (h : (s.die d).sfxOps = []) : exec (.suffixOpPerform d k) s = .next s := by
  change execSuffixOpPerform d k s = _
  have hm : s.sfxMay d k = none := by simp [State.sfxMay, h]
  rw [execSuffixOpPerform, State.orHold_self]
  simp only [hm]

theorem exec_hifTdecQueueHead_idle {s : State} (h : s.dev.tdecQ = []) : exec .hifTdecQueueHead s = .next s := by
  change execHifTdecQueueHead s = _
  rw [execHifTdecQueueHead, State.orHold_self]
  simp only [h]

theorem exec_pageWalk_idle {s : State} {d : BitVec 2} (h : s.walkNext d = none) : exec (.pageWalk d) s = .next s := by
  change execPageWalk d s = _
  simp only [execPageWalk, h]

/-- Settles O56: every event completes and keeps the host's registers and canonical memory, as every operation does; an idle unit by its own case. -/
theorem unitEvents : Obligations.UnitEvents := by
  refine ⟨fun i s h => ?_, ?_⟩
  · obtain ⟨t, e⟩ := exec_unitEvent s h
    have hk : Keeps s t := exec_keeps (unitEvent_keepsHostRegisters h) e
    exact ⟨t, e, hk.keepsHost, hk.mem⟩
  · intro s d k e htask hcmds hposts hsfx hq hwalk hlife i hi
    simp only [List.mem_cons, List.not_mem_nil, or_false] at hi
    rcases hi with rfl | rfl | rfl | rfl | rfl | rfl | rfl | rfl | rfl | rfl | rfl
    · exact exec_taskRetire_idle htask
    · exact exec_imemReload_idle htask
    · exact exec_datapathError_idle htask hlife
    · exact exec_taskSuspend_idle htask
    · exact exec_yieldRequeue_idle htask
    · exact exec_engineDispatch_idle e htask
    · exact exec_engineRetire_idle k hcmds
    · exact exec_faultRingRoom_idle hposts
    · exact exec_suffixOpPerform_idle k hsfx
    · exact exec_hifTdecQueueHead_idle hq
    · exact exec_pageWalk_idle hwalk

end Sys2Proof.Machine
end

section
/-! PROOFS. Engine commands at issue: the fields that break a limit give their codes, and the queue takes a command that breaks none
(R225, R226, R232). -/

namespace Sys2Proof.Machine

open Sys2Proof

/-! ### Fields of a descriptor -/

/-- A field of a descriptor's word is that part of the word's value. -/
theorem descWord_field (d : BitVec 256) (i k n : Nat) (h : k + n ≤ 32) :
    (d.extractLsb' (32 * i + k) n).toNat = descWord d i / 2 ^ k % 2 ^ n := by
  have hp : 2 ^ 32 = 2 ^ k * 2 ^ (32 - k) := by rw [← Nat.pow_add]; congr 1; omega
  have hd : 2 ^ n ∣ 2 ^ (32 - k) := Nat.pow_dvd_pow 2 (by omega)
  rw [BitVec.extractLsb'_toNat, descWord, bits, Nat.shiftRight_eq_div_pow, Nat.shiftRight_eq_div_pow, Nat.pow_add, ← Nat.div_div_eq_div_mul, hp,
    Nat.mod_mul_right_div_self, Nat.mod_mod_of_dvd _ hd]

theorem descWord_eq (d : BitVec 256) (i : Nat) : (d.extractLsb' (32 * i) 32).toNat = descWord d i := by
  simp [BitVec.extractLsb'_toNat, descWord, bits]

theorem descWord_lt (d : BitVec 256) (i : Nat) : descWord d i < 2 ^ 32 := Nat.mod_lt _ (by decide)

theorem sideA_loc (d : BitVec 256) : (d.extractLsb' 48 3).toNat = (sideA d).loc := descWord_field d 1 16 3 (by decide)
theorem sideB_loc (d : BitVec 256) : (d.extractLsb' 112 3).toNat = (sideB d).loc := descWord_field d 3 16 3 (by decide)
theorem sideA_fmt (d : BitVec 256) : (d.extractLsb' 51 4).toNat = (sideA d).fmt := descWord_field d 1 19 4 (by decide)
theorem sideB_fmt (d : BitVec 256) : (d.extractLsb' 115 4).toNat = (sideB d).fmt := descWord_field d 3 19 4 (by decide)

theorem sideA_resv (d : BitVec 256) : (d.extractLsb' 56 8).toNat = (sideA d).resv :=
  (descWord_field d 1 24 8 (by decide)).trans (Nat.mod_eq_of_lt (by have := descWord_lt d 1; omega))

theorem sideB_resv (d : BitVec 256) : (d.extractLsb' 120 8).toNat = (sideB d).resv :=
  (descWord_field d 3 24 8 (by decide)).trans (Nat.mod_eq_of_lt (by have := descWord_lt d 3; omega))

theorem sideA_addr_mod (d : BitVec 256) : descWord d 0 % 4 = (sideA d).addr % 4 := by
  have e : (sideA d).addr = descWord d 0 + 2 ^ 32 * (descWord d 1 % 2 ^ 16) := rfl
  omega

theorem sideB_addr_mod (d : BitVec 256) : descWord d 2 % 4 = (sideB d).addr % 4 := by
  have e : (sideB d).addr = descWord d 2 + 2 ^ 32 * (descWord d 3 % 2 ^ 16) := rfl
  omega

theorem descParam_eq (d : BitVec 256) : (d.extractLsb' 224 16).toNat = descParam d := by
  simp [BitVec.extractLsb'_toNat, descParam, bits]

theorem descRtgt_eq_zero_iff (d : BitVec 256) : d.extractLsb' 240 16 = 0 ↔ descRtgt d = 0 := by
  rw [← BitVec.toNat_inj]
  simp [BitVec.extractLsb'_toNat, descRtgt, bits]

/-! ### The codes of the shared checks -/

@[simp] theorem mem_broken_nil (n : Nat) : ¬ n ∈ broken [] := by simp [broken]

@[simp] theorem mem_broken_cons (n m : Nat) (b : Bool) (l : List (Nat × Bool)) : n ∈ broken ((m, b) :: l) ↔ (n = m ∧ b = true) ∨ n ∈ broken l := by
  cases b <;> simp [broken]

/-- A field of an operand that breaks a limit of every operand, with its code (R225, R232). -/
def Side.breaks (x : Side) (code : Nat) : Prop :=
  (code = 0x10 ∧ x.loc = 7) ∨ (code = 0x11 ∧ x.resv ≠ 0) ∨ (code = 0x12 ∧ x.fmt = 15 ∧ x.loc ≠ 3)
    ∨ (code = 0x13 ∧ x.loc = 0 ∧ x.fmt = 3 ∧ x.addr % 4 ≠ 0)

theorem Side.breaks_mem {x : Side} {n : Nat} (h : x.breaks n) (rows cols : Nat) (locs : List Nat) : n ∈ sideCodes x rows cols locs := by
  simp only [sideCodes, mem_broken_cons]
  rcases h with ⟨rfl, h⟩ | ⟨rfl, h⟩ | ⟨rfl, h1, h2⟩ | ⟨rfl, h1, h2, h3⟩
  · exact .inl ⟨rfl, by simp [h]⟩
  · exact .inr (.inl ⟨rfl, by simp [h]⟩)
  · exact .inr (.inr (.inl ⟨rfl, by simp [h1, h2]⟩))
  · exact .inr (.inr (.inr (.inl ⟨rfl, by simp [h1, h2, h3, codeAlign]⟩)))

theorem sideCodes_loc {x : Side} {locs : List Nat} (h : x.loc ∉ locs) (rows cols : Nat) : 0x14 ∈ sideCodes x rows cols locs := by
  simp [sideCodes, h]

/-! ### The codes of each command's own checks -/

/-- What a gather's or scatter's companion descriptor keeps 0, aligned or in range (R240). -/
def tailBreaks (d2 : BitVec 256) (code : Nat) : Prop :=
  (code = 0x11 ∧ descWord d2 7 ≠ 0) ∨ (code = 0x13 ∧ descWord d2 6 % 4 ≠ 0) ∨ (code = 0x11 ∧ 2 ^ 21 ≤ descWord d2 6)

/-- `Claims.badField` in the model's words, without the check on RTGT. -/
def fieldBreaks (d d2 : BitVec 256) (code : Nat) : CmdOp → Prop
  | .mldw => (sideA d).breaks code ∨ (sideB d).breaks code ∨ (code = 0x14 ∧ (sideB d).loc ≠ 5) ∨ (code = 0x15 ∧ descParam d % 4 = 3)
      ∨ (code = 0x11 ∧ 2 ^ 14 ≤ descParam d)
  | .mma => (sideA d).breaks code ∨ (sideB d).breaks code ∨ (code = 0x14 ∧ ((sideA d).loc ≠ 0 ∨ (sideB d).loc ≠ 4)) ∨ (code = 0x11 ∧ 2 ^ 10 ≤ descParam d)
  | .mmag => (sideB d).breaks code ∨ (code = 0x14 ∧ (sideB d).loc ≠ 4)
      ∨ (code = 0x11 ∧ (descWord d 0 ≠ 0 ∨ descWord d 1 ≠ 0 ∨ descWord d 5 ≠ 0 ∨ 2 ^ 10 ≤ descParam d))
  | .mmah => (sideA d).breaks code ∨ (sideB d).breaks code ∨ (code = 0x14 ∧ ((sideA d).loc ≠ 0 ∨ (sideB d).loc ≠ 4 ∨ (sideA d).fmt ≠ 3))
      ∨ (code = 0x11 ∧ 2 ^ 10 ≤ descParam d)
  | .mzero => (sideB d).breaks code ∨ (code = 0x14 ∧ (sideB d).loc ≠ 4)
      ∨ (code = 0x11 ∧ (descWord d 0 ≠ 0 ∨ descWord d 1 ≠ 0 ∨ descWord d 5 ≠ 0 ∨ descParam d ≠ 0))
  | .cpy => (sideA d).breaks code ∨ (sideB d).breaks code ∨ (code = 0x14 ∧ (sideA d).loc = 5) ∨ (code = 0x15 ∧ 4 < descParam d % 8)
      ∨ (code = 0x11 ∧ 2 ^ 4 ≤ descParam d)
  | .csel => (sideA d).breaks code ∨ (sideB d).breaks code ∨ (code = 0x14 ∧ (sideB d).loc = 4)
      ∨ (code = 0x15 ∧ (descParam d % 128 = 0 ∨ 64 < descParam d % 128)) ∨ (code = 0x11 ∧ 2 ^ 11 ≤ descParam d)
  | .cgth => (sideA d).breaks code ∨ (sideB d).breaks code ∨ (code = 0x14 ∧ (sideA d).loc ≠ 3) ∨ (code = 0x15 ∧ 4 < descParam d % 8)
      ∨ (code = 0x11 ∧ 2 ^ 5 ≤ descParam d) ∨ tailBreaks d2 code
  | .csct => (sideA d).breaks code ∨ (sideB d).breaks code ∨ (code = 0x14 ∧ (sideB d).loc ≠ 3) ∨ (code = 0x15 ∧ 4 < descParam d % 8)
      ∨ (code = 0x11 ∧ 2 ^ 5 ≤ descParam d) ∨ tailBreaks d2 code
  | .cqf => (sideA d).breaks code ∨ (code = 0x14 ∧ ((sideA d).fmt ≠ 3 ∨ descWord d 2 ≠ 0 ∨ descWord d 3 ≠ 0 ∨ descWord d 6 ≠ 0))
      ∨ (code = 0x15 ∧ 143 < descParam d % 256) ∨ (code = 0x11 ∧ 2 ^ 10 ≤ descParam d)
  | .ccol => (sideA d).breaks code ∨ (sideB d).breaks code ∨ (code = 0x14 ∧ (sideA d).fmt ≠ 7 ∧ (sideA d).fmt ≠ 8) ∨ (code = 0x15 ∧ descParam d % 4 = 3)
      ∨ (code = 0x11 ∧ 2 ^ 9 ≤ descParam d)

theorem badField_breaks {s : State} {c : Claims.Command} {n : Nat} (h : Claims.badField s c n) :
    (n = 0x11 ∧ c.ret = .none ∧ descRtgt (s.y c.y) ≠ 0) ∨ fieldBreaks (s.y c.y) (s.y (c.y + 1)) n c.op := by
  rw [Claims.badField] at h
  refine h.imp (fun ⟨h1, h2, h3⟩ => ⟨h1, h2, fun e => h3 ((descRtgt_eq_zero_iff _).2 e)⟩) fun h => ?_
  revert h
  generalize c.op = op
  cases op <;>
    simp only [fieldBreaks, Side.breaks, tailBreaks, State.y, ← sideA_loc, ← sideB_loc, ← sideA_fmt, ← sideB_fmt, ← sideA_resv, ← sideB_resv, ← sideA_addr_mod,
      ← sideB_addr_mod, ← descWord_eq, ← descParam_eq] <;> exact id

theorem mldwCodes_mem {d d2 : BitVec 256} {n : Nat} (h : fieldBreaks d d2 n .mldw) : n ∈ mldwCodes d := by
  simp only [mldwCodes, List.mem_append, mem_broken_cons]
  rcases h with h | h | ⟨rfl, h⟩ | ⟨rfl, h⟩ | ⟨rfl, h⟩
  · simp [Side.breaks_mem h]
  · simp [Side.breaks_mem h]
  · exact .inl (.inr (sideCodes_loc (by simpa using h) 0 0))
  · simp [mldwMode, h]
  · simp [show 16384 ≤ descParam d from h]

theorem prodCodes_mma_mem {d d2 : BitVec 256} {n : Nat} (s : State) (h : fieldBreaks d d2 n .mma) : n ∈ prodCodes s .mma d := by
  simp only [prodCodes, List.mem_append, mem_broken_cons]
  rcases h with h | h | ⟨rfl, h | h⟩ | ⟨rfl, h⟩
  · simp [Side.breaks_mem h]
  · simp [Side.breaks_mem h]
  · exact .inl (.inl (sideCodes_loc (by simpa using h) _ _))
  · exact .inl (.inr (sideCodes_loc (by simpa using h) _ _))
  · simp [show 1024 ≤ descParam d from h]

theorem prodCodes_mmag_mem {d d2 : BitVec 256} {n : Nat} (s : State) (h : fieldBreaks d d2 n .mmag) : n ∈ prodCodes s .mmag d := by
  simp only [prodCodes, List.mem_append, mem_broken_cons]
  rcases h with h | ⟨rfl, h⟩ | ⟨rfl, h | h | h | h⟩
  · simp [Side.breaks_mem h]
  · exact .inl (.inr (sideCodes_loc (by simpa using h) _ _))
  · simp [h]
  · simp [h]
  · simp [h]
  · simp [show 1024 ≤ descParam d from h]

theorem prodCodes_mmah_mem {d d2 : BitVec 256} {n : Nat} (s : State) (h : fieldBreaks d d2 n .mmah) : n ∈ prodCodes s .mmah d := by
  simp only [prodCodes, List.mem_append, mem_broken_cons]
  rcases h with h | h | ⟨rfl, h | h | h⟩ | ⟨rfl, h⟩
  · simp [Side.breaks_mem h]
  · simp [Side.breaks_mem h]
  · exact .inl (.inl (sideCodes_loc (by simpa using h) _ _))
  · exact .inl (.inr (sideCodes_loc (by simpa using h) _ _))
  · simp [h]
  · simp [show 1024 ≤ descParam d from h]

theorem mzeroCodes_mem {d d2 : BitVec 256} {n : Nat} (h : fieldBreaks d d2 n .mzero) : n ∈ mzeroCodes d := by
  simp only [mzeroCodes, List.mem_append, mem_broken_cons]
  rcases h with h | ⟨rfl, h⟩ | ⟨rfl, h | h | h | h⟩
  · simp [Side.breaks_mem h]
  · exact .inl (sideCodes_loc (by simpa using h) _ _)
  · simp [h]
  · simp [h]
  · simp [h]
  · simp [h]

theorem cpyCodes_mem {d d2 : BitVec 256} {n : Nat} (h : fieldBreaks d d2 n .cpy) : n ∈ cpyCodes d := by
  simp only [cpyCodes, copyParam, List.mem_append, mem_broken_cons]
  rcases h with h | h | ⟨rfl, h⟩ | ⟨rfl, h⟩ | ⟨rfl, h⟩
  · simp [Side.breaks_mem h]
  · simp [Side.breaks_mem h]
  · exact .inl (.inl (.inl (.inl (sideCodes_loc (by simp [h]) _ _))))
  · simp [h]
  · simp [show 16 ≤ descParam d from h]

theorem cselCodes_mem {d d2 : BitVec 256} {n : Nat} (h : fieldBreaks d d2 n .csel) : n ∈ cselCodes d := by
  simp only [cselCodes, List.mem_append, mem_broken_cons]
  rcases h with h | h | ⟨rfl, h⟩ | ⟨rfl, h | h⟩ | ⟨rfl, h⟩
  · simp [Side.breaks_mem h]
  · simp [Side.breaks_mem h]
  · exact .inl (.inr (sideCodes_loc (by simp [h]) _ _))
  · simp [cselK, h]
  · simp [cselK, h]
  · simp [show 2048 ≤ descParam d from h]

theorem companionCodes_mem {d d2 : BitVec 256} {n : Nat} (h : tailBreaks d2 n) : n ∈ companionCodes d d2 := by
  simp only [companionCodes, List.mem_append, mem_broken_cons]
  rcases h with ⟨rfl, h⟩ | ⟨rfl, h⟩ | ⟨rfl, h⟩
  · simp [h]
  · simp [h]
  · simp [show 2097152 ≤ descWord d2 6 from h]

theorem gathCodes_cgth_mem {d d2 : BitVec 256} {n : Nat} (lb : List Nat) (h : fieldBreaks d d2 n .cgth) : n ∈ gathCodes d d2 [3] lb := by
  simp only [gathCodes, copyParam, List.mem_append, mem_broken_cons]
  rcases h with h | h | ⟨rfl, h⟩ | ⟨rfl, h⟩ | ⟨rfl, h⟩ | h
  · simp [Side.breaks_mem h]
  · simp [Side.breaks_mem h]
  · exact .inl (.inl (.inl (.inl (.inl (sideCodes_loc (by simpa using h) _ _)))))
  · simp [h]
  · simp [show 32 ≤ descParam d from h]
  · simp [companionCodes_mem h]

theorem gathCodes_csct_mem {d d2 : BitVec 256} {n : Nat} (la : List Nat) (h : fieldBreaks d d2 n .csct) : n ∈ gathCodes d d2 la [3] := by
  simp only [gathCodes, copyParam, List.mem_append, mem_broken_cons]
  rcases h with h | h | ⟨rfl, h⟩ | ⟨rfl, h⟩ | ⟨rfl, h⟩ | h
  · simp [Side.breaks_mem h]
  · simp [Side.breaks_mem h]
  · exact .inl (.inl (.inl (.inl (.inr (sideCodes_loc (by simpa using h) _ _)))))
  · simp [h]
  · simp [show 32 ≤ descParam d from h]
  · simp [companionCodes_mem h]

theorem cqfCodes_mem {d d2 : BitVec 256} {n : Nat} (h : fieldBreaks d d2 n .cqf) : n ∈ cqfCodes d := by
  simp only [cqfCodes, List.mem_append, mem_broken_cons]
  rcases h with h | ⟨rfl, h | h | h | h⟩ | ⟨rfl, h⟩ | ⟨rfl, h⟩
  · simp [Side.breaks_mem h]
  · simp [h]
  · simp [h]
  · simp [h]
  · simp [h]
  · simp [h]
  · simp [show 1024 ≤ descParam d from h]

theorem ccolCodes_mem {d d2 : BitVec 256} {n : Nat} (h : fieldBreaks d d2 n .ccol) : n ∈ ccolCodes d d2 := by
  simp only [ccolCodes, List.mem_append, mem_broken_cons]
  rcases h with h | h | ⟨rfl, h1, h2⟩ | ⟨rfl, h⟩ | ⟨rfl, h⟩
  · simp [Side.breaks_mem h]
  · simp [Side.breaks_mem h]
  · simp [h1, h2]
  · have hop : ccolOp d = 3 := BitVec.eq_of_toNat_eq (by simpa [ccolOp] using h)
    simp [hop]
  · simp [show 512 ≤ descParam d from h]

/-! ### The queue -/

theorem countIf_eq_length {β : Type} (p : β → Bool) (l : List β) : countIf p l = (l.filter p).length := by
  induction l with
  | nil => rfl
  | cons x t ih => cases h : p x <;> simp [countIf, h, ih, Nat.add_comm]

theorem rtgtCodes_mem {ret : RetAct} {d : BitVec 256} {n : Nat} (h : n = 0x11 ∧ ret = .none ∧ descRtgt d ≠ 0) : n ∈ rtgtCodes ret d := by
  obtain ⟨rfl, hr, hb⟩ := h
  simp [rtgtCodes, hr, hb]

/-- A bad field of a command gives its code at issue (R232). -/
theorem badField_mem {i : Instr} {c : Claims.Command} {s : State} {n : Nat} (hi : Claims.command i = some c) (h : Claims.badField s c n) : n ∈ c.codes s := by
  have hb := (badField_breaks h).symm
  cases i
  case mldw => obtain rfl := Option.some.inj hi; exact List.mem_append.2 (hb.imp mldwCodes_mem rtgtCodes_mem)
  case mma => obtain rfl := Option.some.inj hi; exact List.mem_append.2 (hb.imp (prodCodes_mma_mem s) rtgtCodes_mem)
  case mmag => obtain rfl := Option.some.inj hi; exact List.mem_append.2 (hb.imp (prodCodes_mmag_mem s) rtgtCodes_mem)
  case mmah => obtain rfl := Option.some.inj hi; exact List.mem_append.2 (hb.imp (prodCodes_mmah_mem s) rtgtCodes_mem)
  case mzero => obtain rfl := Option.some.inj hi; exact List.mem_append.2 (hb.imp mzeroCodes_mem rtgtCodes_mem)
  case cpy => obtain rfl := Option.some.inj hi; exact List.mem_append.2 (hb.imp cpyCodes_mem rtgtCodes_mem)
  case csel => obtain rfl := Option.some.inj hi; exact List.mem_append.2 (hb.imp cselCodes_mem rtgtCodes_mem)
  case cgth => obtain rfl := Option.some.inj hi; exact List.mem_append.2 (hb.imp (gathCodes_cgth_mem _) rtgtCodes_mem)
  case csct => obtain rfl := Option.some.inj hi; exact List.mem_append.2 (hb.imp (gathCodes_csct_mem _) rtgtCodes_mem)
  case cqf => obtain rfl := Option.some.inj hi; exact List.mem_append.2 (hb.imp cqfCodes_mem rtgtCodes_mem)
  case ccol => obtain rfl := Option.some.inj hi; exact List.mem_append.2 (hb.imp ccolCodes_mem rtgtCodes_mem)
  all_goals exact nomatch hi

/-! ### Issue -/

/-- The check that only some commands make: a second descriptor, or the feature and the readiness of the Fuller (R37, R39, R240). -/
def commandCheck (s : State) (c : Claims.Command) : Verdict :=
  match c.op with
  | .cgth | .csct => s.needPair c.y
  | .ccol => .all [s.needFeature 2, s.needReady 19, s.needPair c.y]
  | _ => .go

/-- Every engine command is issued alike. -/
theorem exec_command {i : Instr} {c : Claims.Command} (s : State) (hi : Claims.command i = some c) :
    exec i s = s.issueCmd (s.newCmd c.op c.cid c.pa c.pb c.y c.ret) c.commit (commandCheck s c) (c.codes s) := by
  cases i
  case mldw | mma | mmag | mmah | mzero | cpy | csel | cgth | csct | cqf | ccol => obtain rfl := Option.some.inj hi; rfl
  all_goals exact nomatch hi

/-- The command that a word makes is the statement's, with the commands that it follows. -/
theorem State.newCmd_eq (s : State) (c : Claims.Command) : s.newCmd c.op c.cid c.pa c.pb c.y c.ret =
    { Claims.queued s c with after := s.follows (Claims.queued s c) c.pa c.pb } := by
  have he : slotEng s.core.issue.slot = (Claims.queued s c).eng := rfl
  simp only [State.newCmd, he]
  rfl

section
variable (s : State) (c : Claims.Command)

theorem State.newCmd_eng : (s.newCmd c.op c.cid c.pa c.pb c.y c.ret).eng = (Claims.queued s c).eng := by rw [State.newCmd_eq]
theorem State.newCmd_cid : (s.newCmd c.op c.cid c.pa c.pb c.y c.ret).cid = c.cid := rfl
theorem State.tileBusy_newCmd : s.tileBusy (s.newCmd c.op c.cid c.pa c.pb c.y c.ret) = s.tileBusy (Claims.queued s c) := by rw [State.newCmd_eq]; rfl

end

theorem State.needPair_go {s : State} {y : BitVec 4} (h : y ≠ 15) : s.needPair y = .go := ensure_go (by simpa using h) _ _

theorem commandCheck_go {s : State} {c : Claims.Command} (hy : c.op = .cgth ∨ c.op = .csct ∨ c.op = .ccol → c.y ≠ 15)
    (hf : c.op = .ccol → s.feature 2 = true ∧ s.isReady s.me.die 19 = true) : commandCheck s c = .go := by
  rw [commandCheck]
  split
  · next h => exact State.needPair_go (hy (.inl h))
  · next h => exact State.needPair_go (hy (.inr (.inl h)))
  · next h =>
    obtain ⟨h2, h19⟩ := hf h
    rw [State.needPair_go (hy (.inr (.inr h))), State.needFeature, ensure_go h2, State.needReady, waitFor_go h19]
    rfl
  · rfl

/-- What a command that issues does: it joins the queue, and its identifier is noted (R226, R307). -/
def joinQueue (c : Cmd) (s : State) : State :=
  { s with core := { s.core with
    cmds := s.core.cmds ++ [c], cmdNo := s.core.cmdNo + 1
    cids := if c.cid = 0 then s.core.cids else Sparse.put s.core.cids c.cid.toNat (c.seqNo :: c.after) } }

/-- Of a command that its engine accepts only the issue codes decide. -/
theorem exec_command_accepted {i : Instr} {c : Claims.Command} {s : State} (hi : Claims.command i = some c) (ha : Claims.accepts s c) :
    exec i s = s.issueWith (codesVerdict (s.newCmd c.op c.cid c.pa c.pb c.y c.ret) (c.codes s)) (joinQueue (s.newCmd c.op c.cid c.pa c.pb c.y c.ret)) := by
  obtain ⟨hroom, hcid, htile, hcommit, hy, hf⟩ := ha
  have h1 : decide (s.queuedOn (Claims.queued s c).eng < 16) = true := by simpa [State.queuedOn, countIf_eq_length] using hroom
  have h2 : (c.cid == 0 || !s.cidBusy c.cid) = true := by simpa [State.cidBusy] using hcid
  have h3 : (!s.tileBusy (Claims.queued s c)) = true := by rw [htile]; rfl
  have h4 : (!s.prot || !c.commit || s.core.issue.protectOk) = true := by
    rw [State.prot]
    rcases hcommit with h | h | h <;> rw [h] <;> simp only [Bool.not_false, Bool.true_or, Bool.or_true]
  rw [exec_command s hi, State.issueCmd, State.newCmd_eng, State.newCmd_cid, State.tileBusy_newCmd, commandCheck_go hy hf, waitFor_go h1, waitFor_go h2,
    waitFor_go h3, ensure_go h4]
  simp only [Verdict.all, Verdict.go_and, Verdict.and_go]
  rfl

/-- A queue with 16 commands holds the next one, whatever else there is to say of it (R226). -/
theorem exec_command_full {i : Instr} {c : Claims.Command} {s : State} (hi : Claims.command i = some c)
    (h : (s.core.cmds.filter fun o => o.eng == (Claims.queued s c).eng && (o.st == .queued || o.st == .parked)).length = 16)
    (hp : s.core.issue.pass = false) : exec i s = .next (Claims.waits s 0x06) := by
  have h1 : decide (s.queuedOn (Claims.queued s c).eng < 16) = false := by simp [State.queuedOn, countIf_eq_length, h]
  rw [exec_command s hi, State.issueCmd, State.newCmd_eng, waitFor_hold h1, Verdict.all, Verdict.hold_and, State.issueWith_hold hp]
  rfl

/-! ### The lowest code -/

theorem foldl_min_le (l : List Nat) (a : Nat) : l.foldl Nat.min a ≤ a ∧ (∀ x ∈ l, l.foldl Nat.min a ≤ x) ∧ (l.foldl Nat.min a = a ∨ l.foldl Nat.min a ∈ l) := by
  induction l generalizing a with
  | nil => simp
  | cons x t ih =>
    obtain ⟨h1, h2, h3⟩ := ih (Nat.min a x)
    rw [List.foldl_cons]
    refine ⟨h1.trans (Nat.min_le_left a x), ?_, ?_⟩
    · rintro y (_ | ⟨_, hy⟩)
      · exact h1.trans (Nat.min_le_right a x)
      · exact h2 y hy
    · rcases h3 with h | h
      · rcases Nat.le_total a x with hx | hx
        · exact .inl (h.trans (Nat.min_eq_left hx))
        · rw [h, show Nat.min a x = x from Nat.min_eq_right hx]; simp
      · exact .inr (List.mem_cons_of_mem _ h)

/-- TRAP_VAL of a command that fails at issue names its lowest code (R232). -/
theorem codesVerdict_lowest {c : Cmd} {l : List Nat} {n : Nat} (hn : n ∈ l) (hle : ∀ k ∈ l, n ≤ k) :
    codesVerdict c l = .trap 0x0C (failVal c.eng c.cid 0 n) := by
  match l, hn with
  | x :: t, hn =>
    obtain ⟨h1, h2, h3⟩ := foldl_min_le t x
    have hmem : t.foldl Nat.min x ∈ x :: t := by
      rcases h3 with h | h
      · rw [h]; exact List.mem_cons_self
      · exact List.mem_cons_of_mem _ h
    have hmin : t.foldl Nat.min x = n := by
      refine Nat.le_antisymm ?_ (hle _ hmem)
      rcases List.mem_cons.1 hn with rfl | hn
      · exact h1
      · exact h2 _ hn
    rw [codesVerdict, hmin]

theorem failVal_zero (e : Eng) (cid : BitVec 6) (n : Nat) : failVal e cid 0 n = BitVec.ofNat 64 (engNum e * 2 ^ 14 + cid.toNat * 2 ^ 8 + n % 256) := by
  simp [failVal]

/-- Settles O37: the fields command by command, and the issue of every command by the checks that all of them share. -/
theorem engineIssue : Obligations.EngineIssue := by
  intro i c s hi
  refine ⟨fun n h => badField_mem hi h, fun ha => ⟨fun hc => ?_, fun n hn hle hp => ?_⟩, fun h hp => exec_command_full hi h hp⟩
  · rw [exec_command_accepted hi ha, hc, codesVerdict, State.issueWith_go, State.newCmd_eq]
    rfl
  · rw [exec_command_accepted hi ha, codesVerdict_lowest hn hle, State.issueWith_trap hp, failVal_zero, State.newCmd_eq]
    cases (Claims.queued s c).eng <;> rfl

end Sys2Proof.Machine
end

section
/-! PROOFS. Decoding of written-out words, the state after reset, the constant registers, loops, the next bundle and the end of a task. -/

namespace Sys2Proof.Machine

open Sys2Proof

/-! ### Decoding, the agenda and reset -/

/-- Settles O1: each word decodes by evaluation. -/
theorem decodeSamples : Obligations.DecodeSamples := by
  refine ⟨?_, ?_, ?_, ?_, ?_, ?_, ?_, ?_, ?_⟩ <;> rfl

/-- Settles O4: by the first entry of the agenda. -/
theorem stepRunsEvent : Obligations.StepRunsEvent := by
  intro s i l off n v
  constructor <;> intro h <;> rw [step, runStep, h]

theorem Regs.sVal_eq (r : Regs) (n : BitVec 5) : r.sVal n = if n = 0 then 0 else r.s[n.toNat]'n.isLt := rfl

/-- Every S register of the register file after reset reads as zero and is full (R25). -/
theorem Regs.zero_s (n : BitVec 5) : Regs.zero.sVal n = 0 ∧ Regs.zero.sIsFull n = true := by
  constructor
  · simp [Regs.sVal, Regs.zero]
  · revert n; decide

theorem State.reset_die (d : BitVec 2) : State.reset.die d = Die.zero := by simp [State.die, State.reset]

/-- Settles O7: field by field of the state after reset. -/
theorem resetState : Obligations.ResetState := by
  refine ⟨rfl, rfl, rfl, rfl, rfl, rfl, rfl, fun d => ?_, rfl, rfl, rfl, Regs.zero_s, State.p_zero _⟩
  rw [State.reset_die]
  exact ⟨rfl, rfl, rfl⟩

/-- Settles O47: the empty memory is in canonical form. -/
theorem resetMemoryCanonical : Obligations.ResetMemoryCanonical := rfl

/-- Settles O8: S0 and P0 read as their constants, and a landing on either does nothing. -/
theorem zeroRegisters : Obligations.ZeroRegisters := fun s _ _ _ _ => ⟨rfl, rfl, s.p_zero, rfl, rfl⟩

/-! ### Loops -/

theorem State.startLoop_issued (s : State) (rot : Bool) (len : BitVec 10) (c : Word) :
    (s.startLoop rot len c).mark .issued = Claims.loopStarts s rot len c := by
  unfold State.startLoop Claims.loopStarts
  by_cases h : c = 0
  · simp only [if_pos h, claims_controls_eq]; rfl
  · simp only [if_neg h, claims_controls_eq]; rfl

/-- A loop that starts leaves the count queue as its instruction has left it. -/
theorem State.startLoop_pop (s : State) (rot : Bool) (len : BitVec 10) (c : Word) :
    (s.onRegs fun r => { r with countQ := r.countQ.tail }).startLoop rot len c
      = (s.startLoop rot len c).onRegs fun r => { r with countQ := s.core.regs.countQ.tail } := by
  by_cases h : c = 0
  · simp only [State.startLoop, if_pos h]; rfl
  · simp only [State.startLoop, if_neg h]; rfl

theorem State.loopRoom_go {s : State} (h : s.core.regs.loops.length < 4) : s.loopRoom = .go := ensure_go (by simpa using h) _ _

theorem State.loopRoom_trap {s : State} (h : 4 ≤ s.core.regs.loops.length) : s.loopRoom = .trap 0x02 5 := by
  simp [State.loopRoom, ensure, h]

section
variable {s : State} {rot : Bool} {len : BitVec 10}

theorem exec_loop_room {t : Bool} {n : BitVec 5} (h : s.core.regs.loops.length < 4) (hn : s.core.regs.sIsFull n = true) :
    exec (.loop rot len t n) s = .next (Claims.loopStarts s rot len (s.core.regs.sVal n)) := by
  change execLoop rot len t n s = _
  rw [execLoop, State.loopRoom_go h, State.needS_go hn, Verdict.go_and, State.issueWith_go, State.startLoop_issued]
  rfl

theorem exec_loopi_room {k : BitVec 12} (h : s.core.regs.loops.length < 4) :
    exec (.loopi rot len k) s = .next (Claims.loopStarts s rot len (k.setWidth 64)) := by
  change execLoopi rot len k s = _
  rw [execLoopi, State.loopRoom_go h, State.issueWith_go, State.startLoop_issued]
  rfl

theorem exec_loopq_room {c : Word32} {q : List Word32} (h : s.core.regs.loops.length < 4) (hq : s.core.regs.countQ = c :: q) :
    exec (.loopq rot len) s = .next
      (let u := Claims.loopStarts s rot len (c.setWidth 64);
        { u with core := { u.core with regs := { u.core.regs with countQ := q } } }) := by
  change execLoopq rot len s = _
  have hw : (!s.core.regs.countQ.isEmpty) = true := by rw [hq]; rfl
  rw [execLoopq, State.loopRoom_go h, waitFor_go hw, Verdict.go_and, State.issueWith_go]
  dsimp only
  rw [State.startLoop_pop, hq,
    ← State.startLoop_issued]
  rfl

theorem exec_loopq_empty (h : s.core.regs.loops.length < 4) (hq : s.core.regs.countQ = []) (hp : s.core.issue.pass = false) :
    exec (.loopq rot len) s = .next (Claims.waits s 0x08) := by
  change execLoopq rot len s = _
  have hw : (!s.core.regs.countQ.isEmpty) = false := by rw [hq]; rfl
  rw [execLoopq, State.loopRoom_go h, waitFor_hold hw, Verdict.go_and, State.issueWith_hold hp]
  rfl

theorem exec_loop_full {t : Bool} {n : BitVec 5} (h : 4 ≤ s.core.regs.loops.length) (hn : s.core.regs.sIsFull n = true) (hp : s.core.issue.pass = false) :
    exec (.loop rot len t n) s = .next (Claims.traps s 0x02 5) := by
  change execLoop rot len t n s = _
  rw [execLoop, State.loopRoom_trap h, State.needS_go hn, Verdict.and_go, State.issueWith_trap hp]
  rfl

theorem exec_loopi_full {k : BitVec 12} (h : 4 ≤ s.core.regs.loops.length) (hp : s.core.issue.pass = false) :
    exec (.loopi rot len k) s = .next (Claims.traps s 0x02 5) := by
  change execLoopi rot len k s = _
  rw [execLoopi, State.loopRoom_trap h, State.issueWith_trap hp]
  rfl

theorem exec_loopq_full (h : 4 ≤ s.core.regs.loops.length) (hq : s.core.regs.countQ ≠ []) (hp : s.core.issue.pass = false) :
    exec (.loopq rot len) s = .next (Claims.traps s 0x02 5) := by
  change execLoopq rot len s = _
  have hw : (!s.core.regs.countQ.isEmpty) = true := by simpa using hq
  rw [execLoopq, State.loopRoom_trap h, waitFor_go hw, Verdict.and_go, State.issueWith_trap hp]
  rfl

end

/-- Settles O21: the three instructions by the room on the loop stack, and LOOPQ by its queue too. -/
theorem loopIssue : Obligations.LoopIssue := fun _ _ _ _ _ _ =>
  ⟨fun h => ⟨exec_loop_room h, exec_loopi_room h, fun _ _ hq => exec_loopq_room h hq, fun hq hp => exec_loopq_empty h hq hp⟩,
    fun h hp => ⟨exec_loopi_full h hp, fun hn => exec_loop_full h hn hp, fun hq => exec_loopq_full h hq hp⟩⟩

/-! ### The next bundle -/

/-- Without an active loop nothing closes. -/
theorem Regs.close_none {r : Regs} (h : r.loops = []) (pc next : Word) : r.close pc next = (r, next) := by simp [Regs.close, h]

/-- A bundle that does not end the innermost loop closes none. -/
theorem Regs.close_inside {r : Regs} {l : List Loop} {top : Loop} {pc : Word} (h : r.loops = l ++ [top]) (hpc : pc ≠ top.stop) (next : Word) :
    r.close pc next = (r, next) := by simp [Regs.close, h, Ne.symm hpc]

/-- The close of the innermost loop at its end bundle (R107, R112). -/
theorem Regs.close_end {r : Regs} {l : List Loop} {top : Loop} (h : r.loops = l ++ [top]) (next : Word) :
    r.close top.stop next =
      ({ r with vrb := if top.rot then r.vrb - 1 else r.vrb, prb := if top.rot then r.prb - 1 else r.prb
                loops := if top.count - 1 ≠ 0 then l ++ [{ top with count := top.count - 1 }] else l },
        if top.count - 1 ≠ 0 then top.start else next) := by
  simp only [Regs.close, h, List.getLast?_append, List.getLast?_singleton, Option.some_or, ne_eq, not_true_eq_false, if_false]
  cases top.rot <;> by_cases hc : top.count - 1#64 = 0#64 <;> simp [hc, h]

/-- Settles O22: the pending transfer by its bundles left, and the innermost loop by whether its end bundle issued. -/
theorem nextBundle : Obligations.NextBundle := by
  constructor
  · intro r u t tr hl
    have hc : ∀ (q : Regs) (pc next : Word), q.loops = r.loops → q.close pc next = (q, next) := fun q pc next h => Regs.close_none (h.trans hl) pc next
    refine ⟨?_, fun hp => ?_, fun hp => ?_, fun hp => ?_, ?_, ?_⟩
    · simp [Regs.advance, hc]
    · simp [Regs.advance, hp, hc]
    · simp [Regs.advance, hp, hc]
    · simp [Regs.advance, hp, hc]
    · simp [Regs.advance, hc]
    · cases hp : r.pend with
      | none => simp [Regs.advance, hp, hc]
      | some p => by_cases hle : p.left ≤ 1 <;> simp [Regs.advance, hp, hle, hc]
  · intro r l top u hp hl
    have hend : ∀ (q : Regs) (next : Word), q.loops = r.loops → q.close top.stop next = _ := fun q next h => Regs.close_end (h.trans hl) next
    refine ⟨fun hpc => ⟨fun h1 => ?_, fun h1 => ?_, ?_⟩, fun hpc => ?_⟩
    · have hn : ¬ top.count - 1#64 = 0#64 := fun e => h1 (by bv_omega)
      simp [Regs.advance, hp, hpc, hend, hn]
    · simp [Regs.advance, hp, hpc, hend, h1]
    · simp [Regs.advance, hp, hpc, hend]
    · have hin : ∀ (q : Regs) (next : Word), q.loops = r.loops → q.close r.pc next = (q, next) := fun q next h => Regs.close_inside (h.trans hl) hpc next
      simp [Regs.advance, hp, hin]

/-! ### What a write of the scratchpad changes -/

/-- A core after writes of its scratchpad: beside the bytes only the journal, STATUS, the wake queue and the event counters change (R277, R373). -/
def Core.Wrote (x y : Core) : Prop :=
  y = { x with scratch := y.scratch, journal := y.journal, ev := y.ev, regs := { x.regs with status := y.regs.status, wakeQ := y.regs.wakeQ } }

theorem Core.Wrote.refl (x : Core) : x.Wrote x := rfl

theorem Core.Wrote.trans {x y z : Core} (h : x.Wrote y) (g : y.Wrote z) : x.Wrote z := by
  unfold Core.Wrote at *
  rw [g, h]

theorem Core.Wrote.foldl {α : Type} {f : Core → α → Core} (k : ∀ (x : Core) (a : α), x.Wrote (f x a)) (l : List α) (x : Core) : x.Wrote (l.foldl f x) := by
  induction l generalizing x with
  | nil => exact .refl x
  | cons a t ih => exact (k x a).trans (ih _)

theorem Core.Wrote.scratch (x : Core) (m : Sparse Byte) : x.Wrote { x with scratch := m } := rfl

theorem Core.Wrote.record (x : Core) (u : Undo) : x.Wrote (x.record u) := by
  unfold Core.record
  split
  · rfl
  · split <;> rfl

theorem Core.Wrote.recordScratch (x : Core) (off : Nat) (on : List Bool) : x.Wrote (x.recordScratch off on) :=
  Core.Wrote.foldl (fun y i => by dsimp only; split; exacts [Core.Wrote.record _ _, .refl y]) _ _

theorem Core.Wrote.wake (x : Core) (l : List Nat) : x.Wrote (x.wake l) := by
  refine Core.Wrote.foldl (fun y i => ?_) _ _
  split
  · rfl
  · split
    · rfl
    · split <;> rfl

theorem Core.Wrote.scratchStore (x : Core) (off : Nat) (bs : List (Byte × Bool)) : x.Wrote (x.scratchStore off bs) :=
  ((Core.Wrote.recordScratch x off _).trans (Core.Wrote.scratch _ _)).trans (Core.Wrote.wake _ _)

theorem Core.Wrote.scratchUnits (fuel : Nat) (x : Core) (off : Nat) (bs : List Byte) : x.Wrote (Core.scratchUnits fuel x off bs) := by
  induction fuel generalizing x off bs with
  | zero => rfl
  | succ n ih =>
    unfold Core.scratchUnits
    split
    · rfl
    · exact (Core.Wrote.scratchStore x off _).trans (ih _ _ _)

theorem Core.Wrote.scratchWrite (x : Core) (off : Nat) (bs : List Byte) : x.Wrote (x.scratchWrite off bs) := Core.Wrote.scratchUnits _ _ _ _

/-- The registers of a core after writes of its scratchpad. -/
theorem Core.Wrote.regs {x y : Core} (h : x.Wrote y) : y.regs = { x.regs with status := y.regs.status, wakeQ := y.regs.wakeQ } := by
  unfold Core.Wrote at h
  rw [h]

theorem Core.Wrote.ckptDue {x y : Core} (h : x.Wrote y) : y.regs.ckptDue = x.regs.ckptDue := by rw [h.regs]

theorem Core.landOne_store_wrote (x : Core) (sl : Slot) (off : Nat) (data : VReg) (m : PReg) (d : Bool) : x.Wrote (x.landOne (.store sl off data m d)) := by
  simp only [Core.landOne]
  exact Core.Wrote.scratchStore _ _ _

/-! ### The end of a task -/

theorem Core.landOne_ckptDue (x : Core) (l : Land) : (x.landOne l).regs.ckptDue = x.regs.ckptDue := by
  cases l with
  | sr n v => simp only [Core.landOne, Core.writeSr, apply_ite Core.regs, apply_ite Regs.ckptDue, ite_self]
  | rb n v => simp only [Core.landOne, (Core.Wrote.record x _).ckptDue]
  | store sl off data m d => exact (x.landOne_store_wrote sl off data m d).ckptDue
  | s n v | p n v m | late n v => simp only [Core.landOne]; split <;> rfl
  | _ => rfl

theorem Core.landAll_ckptDue (x : Core) (l : List InFlight) : (x.landAll l).regs.ckptDue = x.regs.ckptDue :=
  Core.foldl_same (f := Core.landFlight) (fun x => x.regs.ckptDue) (fun x f => x.landOne_ckptDue f.what) l x

theorem Core.landStore_ckptDue (x : Core) (f : InFlight) : (x.landStore f).regs.ckptDue = x.regs.ckptDue := by
  unfold Core.landStore
  dsimp only
  split <;> exact x.landOne_ckptDue f.what

theorem State.landStores_ckptDue (s : State) : s.landStores.core.regs.ckptDue = s.core.regs.ckptDue :=
  Core.foldl_same (f := Core.landStore) (fun x => x.regs.ckptDue) Core.landStore_ckptDue _ _

theorem State.landResults_ckptDue (s : State) : s.landResults.core.regs.ckptDue = s.core.regs.ckptDue := Core.landAll_ckptDue _ _

theorem State.count_regs (s : State) (code : BitVec 8) (n : Nat) : (s.count code n).core.regs = s.core.regs := by
  obtain ⟨ev, h⟩ := s.count_eq code n
  rw [h]

theorem State.tick_regs (s : State) (n : Nat) : (s.tick n).core.regs = s.core.regs := by
  obtain ⟨ev, h⟩ := s.tick_eq n
  rw [h]

theorem State.age_ckptDue (s : State) : s.age.core.regs.ckptDue = s.core.regs.ckptDue := rfl

/-- A bundle that END ended leaves its core with no more to issue, at the checkpoint that it takes first (R115, R371). -/
theorem State.finish_ended {s : State} (h : s.core.issue.ended = true) (all : List Instr) :
    (s.finish all).core.life = if s.core.issue.ckpt || s.core.regs.ckptDue then .checkpoint else .ended := by
  simp only [State.finish, h, if_true, State.landResults_ckptDue, State.landStores_ckptDue, State.age_ckptDue, State.count_regs, State.tick_regs,
    apply_ite State.core, apply_ite Core.regs, ite_self]
  rfl

/-- Settles O23: NOP and END by their meanings, and the end of an ended bundle by `finish_ended`. -/
theorem nopAndEnd : Obligations.NopAndEnd := by
  intro s all
  refine ⟨?_, ?_, fun h => ?_⟩
  · change execNop s = _
    rw [execNop, State.issueWith_go, claims_same_eq]
  · change execEndTask s = _
    rw [execEndTask, State.issueWith_go]
    rfl
  · have hl := State.finish_ended h all
    refine ⟨hl, ?_⟩
    rw [State.canIssue, hl]
    cases s.core.issue.ckpt || s.core.regs.ckptDue <;> simp

end Sys2Proof.Machine
end

section
/-! PROOFS. Landings: which register a result lands in, what it leaves, and when the results in flight land (R117, R123-R125). -/

namespace Sys2Proof.Machine

open Sys2Proof

/-! ### What a landing leaves of the results in flight -/

theorem InFlight.unmark_unmark (f : InFlight) : f.unmark.unmark = f.unmark := by
  obtain ⟨left, what, flags⟩ := f
  cases what <;> rfl

/-- The results in flight without the debug marks of the stores among them (R132). -/
def Core.unmarked (x : Core) : List InFlight := x.regs.flight.map InFlight.unmark

theorem Core.writeSr_unmarked (x : Core) (n : BitVec 12) (v : Word) : (x.writeSr n v).unmarked = x.unmarked := by
  have hk : (if v.getLsbD 0 = true then x.regs.flight else x.regs.flight.map InFlight.unmark).map InFlight.unmark = x.regs.flight.map InFlight.unmark := by
    split
    · rfl
    · rw [List.map_map]
      exact List.map_congr_left fun f _ => f.unmark_unmark
  simp only [Core.writeSr, Core.unmarked, apply_ite Core.regs, apply_ite Regs.flight, apply_ite (List.map InFlight.unmark)]
  simp only [← apply_ite (List.map InFlight.unmark), hk, ite_self]

theorem Core.Wrote.flight {x y : Core} (h : x.Wrote y) : y.regs.flight = x.regs.flight := by rw [h.regs]
theorem Core.Wrote.s {x y : Core} (h : x.Wrote y) : y.regs.s = x.regs.s := by rw [h.regs]

theorem Core.landOne_unmarked (x : Core) (l : Land) : (x.landOne l).unmarked = x.unmarked := by
  cases l with
  | sr n v => exact x.writeSr_unmarked n v
  | rb n v => simp only [Core.landOne, Core.unmarked, (Core.Wrote.record x _).flight]
  | store sl off data m d => rw [Core.unmarked, (x.landOne_store_wrote sl off data m d).flight, Core.unmarked]
  | s n v | p n v m | late n v => simp only [Core.landOne]; split <;> rfl
  | _ => rfl

theorem Core.landAll_unmarked (x : Core) (l : List InFlight) : (x.landAll l).unmarked = x.unmarked :=
  Core.foldl_same (f := Core.landFlight) Core.unmarked (fun x f => x.landOne_unmarked f.what) l x

/-! ### The value of an S register -/

theorem Core.writeSr_s (x : Core) (n : BitVec 12) (v : Word) : (x.writeSr n v).regs.s = x.regs.s := by
  simp only [Core.writeSr, apply_ite Core.regs, apply_ite Regs.s, ite_self]

/-- The S registers after S register n takes a value. -/
theorem Regs.sVal_set {r r' : Regs} {n k : BitVec 5} {v : Word} (h : r'.s = r.s.set n.toNat v n.isLt) (hk : k ≠ 0) :
    r'.sVal k = if k = n then v else r.sVal k := by
  rw [Regs.sVal_eq, Regs.sVal_eq, if_neg hk, if_neg hk]
  split
  · next e => subst e; simp [h]
  · next e =>
    have : n.toNat ≠ k.toNat := fun e' => e (BitVec.eq_of_toNat_eq e'.symm)
    simp [h, this]

theorem Regs.sVal_congr {r r' : Regs} (h : r'.s = r.s) (k : BitVec 5) : r'.sVal k = r.sVal k := by rw [Regs.sVal_eq, Regs.sVal_eq, h]

/-- A result lands in the S register that it names and in no other. -/
theorem Core.landOne_sVal (x : Core) (f : InFlight) {n : BitVec 5} (hn : n ≠ 0) :
    (x.landOne f.what).regs.sVal n = (Claims.valuesFor n [f]).getLastD (x.regs.sVal n) := by
  obtain ⟨left, what, flags⟩ := f
  cases what with
  | s k v | late k v =>
    by_cases hk : k = 0
    · have h0 : ¬ (0 : BitVec 5) = n := fun e => hn e.symm
      simp only [hk, Core.landOne, Claims.valuesFor, if_true, List.filterMap_cons, List.filterMap_nil, if_neg h0, List.getLastD_nil]
    · rw [Regs.sVal_set (r := x.regs) (n := k) (v := v) (by simp only [Core.landOne, if_neg hk]) hn]
      by_cases hkn : k = n
      · simp [Claims.valuesFor, hkn]
      · simp [Claims.valuesFor, hkn, Ne.symm hkn]
  | sr k v => exact Regs.sVal_congr (x.writeSr_s k v) n
  | rb k v => exact Regs.sVal_congr (Core.Wrote.record x (.rb k (x.rb[k.toNat]'k.isLt))).s n
  | store sl off data m d => exact Regs.sVal_congr (x.landOne_store_wrote sl off data m d).s n
  | p k v m => simp only [Core.landOne]; split <;> rfl
  | _ => rfl

theorem Claims.valuesFor_append (n : BitVec 5) (l m : List InFlight) : Claims.valuesFor n (l ++ m) = Claims.valuesFor n l ++ Claims.valuesFor n m := by
  simp [Claims.valuesFor, List.filterMap_append]

/-- Of the results that land one after the other the last one stays (R125). -/
theorem Core.landAll_sVal (l : List InFlight) (x : Core) {n : BitVec 5} (hn : n ≠ 0) :
    (x.landAll l).regs.sVal n = (Claims.valuesFor n l).getLastD (x.regs.sVal n) := by
  induction l generalizing x with
  | nil => rfl
  | cons f t ih =>
    have hf : (x.landFlight f).regs.sVal n = (Claims.valuesFor n [f]).getLastD (x.regs.sVal n) := x.landOne_sVal f hn
    rw [Core.landAll, List.foldl_cons, ← Core.landAll, ih, hf, show f :: t = [f] ++ t from rfl, Claims.valuesFor_append]
    cases h : Claims.valuesFor n t with
    | nil => simp
    | cons v w => simp [List.getLastD_eq_getLast?]

/-! ### The results of a bundle -/

/-- Results that are still more than one bundle away: no landing, and no S, A, V or P register nor STATUS or FPSTAT changes (R123). -/
theorem State.landResults_none {s : State} (h : ∀ f ∈ s.core.regs.flight, (f.left == 0 && !f.isStore) = false) :
    s.landResults.core = { s.core with regs := { s.core.regs with flight := s.landResults.core.regs.flight } } := by
  have hn : s.core.regs.flight.filter (fun f => f.left == 0 && !f.isStore) = [] := List.filter_eq_nil_iff.2 fun f hf => by simp [h f hf]
  unfold State.landResults
  rw [hn]
  rfl

/-- The results in flight once a bundle has issued and those that are due have landed. -/
theorem State.landResults_unmarked (s : State) :
    s.landResults.core.unmarked = (s.core.regs.flight.filter fun f => !(f.left == 0 && !f.isStore)).map InFlight.unmark :=
  Core.landAll_unmarked _ _

theorem State.landResults_sVal (s : State) {n : BitVec 5} (hn : n ≠ 0) :
    s.landResults.core.regs.sVal n = (Claims.valuesFor n (s.core.regs.flight.filter fun f => f.left == 0 && !f.isStore)).getLastD (s.core.regs.sVal n) :=
  Core.landAll_sVal _ _ hn

theorem State.age_flight (s : State) : s.age.core.regs.flight = s.core.regs.flight.map fun f => { f with left := f.left - 1 } := rfl

/-- A store sends nothing to an S register, and ageing a result changes no value: those due after it are those with at most one bundle left. -/
theorem Claims.valuesFor_aged (n : BitVec 5) (l : List InFlight) :
    Claims.valuesFor n ((l.map fun f => { f with left := f.left - 1 }).filter fun f => f.left == 0 && !f.isStore)
      = Claims.valuesFor n (l.filter fun f => f.left ≤ 1) := by
  simp only [Claims.valuesFor, List.filterMap_filter, List.filterMap_map]
  congr 1
  funext f
  obtain ⟨left, what, flags⟩ := f
  have hd : left - 1 = 0 ↔ left ≤ 1 := by omega
  cases what <;> simp [hd, InFlight.isStore]

/-- Settles O10: the results in flight, the values that land in an S register, and what nothing that lands leaves. -/
theorem latencyCount : Obligations.LatencyCount := by
  intro s n hn
  refine ⟨?_, ?_, fun h => ?_⟩
  · have hp : (fun f : InFlight => !(f.left == 0 && !f.isStore)) = fun f => f.left != 0 || f.isStore := by
      funext f
      rw [Bool.not_and, Bool.not_not]
      rfl
    rw [← Core.unmarked, State.landResults_unmarked, State.age_flight, hp]
  · rw [State.landResults_sVal _ hn, State.age_flight, Claims.valuesFor_aged]
    rfl
  · have hnone : ∀ f ∈ s.age.core.regs.flight, (f.left == 0 && !f.isStore) = false := by
      intro f hf
      rw [State.age_flight] at hf
      obtain ⟨g, hg, rfl⟩ := List.mem_map.1 hf
      have hl := h g hg
      have : (g.left - 1 == 0) = false := by simp; omega
      simp [this]
    rw [State.landResults_none hnone]
    exact ⟨rfl, rfl, rfl, rfl, rfl, rfl⟩

/-! ### Rotation bases -/

section
variable {s : State} (h : s.me.isComp = false)
include h

theorem exec_setvrb_main (n : BitVec 5) : exec (.setvrb n) s = .next (Claims.answer s 1 (.sr 0x020 (n.setWidth 64))) := by
  change execSetvrb n s = _
  rw [execSetvrb, State.needMain_go h, State.issueWith_go, State.mark_send]
  rfl

theorem exec_setprb_main (n : BitVec 3) : exec (.setprb n) s = .next (Claims.answer s 1 (.sr 0x021 (n.setWidth 64))) := by
  change execSetprb n s = _
  rw [execSetprb, State.needMain_go h, State.issueWith_go, State.mark_send]
  rfl

theorem exec_clrrb_main : exec .clrrb s = .next (Claims.answer (Claims.answer s 1 (.sr 0x020 0)) 1 (.sr 0x021 0)) := by
  change execClrrb s = _
  have h1 : (s.send 1 (.sr 0x020 0)).comp = false := by rw [State.send_main h]; exact h
  have h2 : ((s.send 1 (.sr 0x020 0)).mark .issued).comp = false := h1
  rw [execClrrb, State.needMain_go h, State.issueWith_go, ← State.mark_send, ← State.mark_send, State.send_main h1, State.send_main h2]
  rfl

end

theorem Core.landOne_vrb (x : Core) (n : BitVec 5) : x.landOne (.sr 0x020 (n.setWidth 64)) = { x with regs := { x.regs with vrb := n } } := by
  have : (n.setWidth 64).setWidth 5 = n := by simp
  simp only [Core.landOne, Core.writeSr, this]
  rfl

theorem Core.landOne_prb (x : Core) (n : BitVec 3) : x.landOne (.sr 0x021 (n.setWidth 64)) = { x with regs := { x.regs with prb := n } } := by
  have : (n.setWidth 64).setWidth 3 = n := by simp
  simp only [Core.landOne, Core.writeSr, this]
  rfl

/-! ### S and A registers -/

/-- The full/empty bit of a register that becomes full, and those of the others. -/
theorem Regs.sIsFull_or {r r' : Regs} {n : BitVec 5} (h : r'.sFull = r.sFull ||| (1#32 <<< n.toNat)) (k : BitVec 5) :
    r'.sIsFull k = if k = n then true else r.sIsFull k := by
  have hb : (1#32 <<< n.toNat).getLsbD k.toNat = decide (k = n) := by
    have hk := k.isLt
    rw [BitVec.getLsbD_shiftLeft, BitVec.getLsbD_one, Bool.eq_iff_iff, decide_eq_true_eq, ← BitVec.toNat_inj]
    simp only [Bool.and_eq_true, decide_eq_true_eq, Bool.not_eq_true', decide_eq_false_iff_not]
    omega
  simp only [Regs.sIsFull, h, BitVec.getLsbD_or, hb]
  by_cases e : k = n <;> simp [e]

theorem Core.landOne_s {x : Core} {n : BitVec 5} (h : n ≠ 0) (v : Word) :
    x.landOne (.s n v) = { x with regs := { x.regs with s := x.regs.s.set n.toNat v n.isLt } } := by simp only [Core.landOne, if_neg h]

theorem Core.landOne_late {x : Core} {n : BitVec 5} (h : n ≠ 0) (v : Word) :
    x.landOne (.late n v) = { x with regs := { x.regs with s := x.regs.s.set n.toNat v n.isLt, sFull := x.regs.sFull ||| (1#32 <<< n.toNat) } } := by
  simp only [Core.landOne, if_neg h]

/-- An S register that takes a value; every other register of the core and its scratchpad keep theirs. -/
theorem Core.landOne_s_fields (x : Core) (n : BitVec 5) (v : Word) :
    (x.landOne (.s n v)).regs.sFull = x.regs.sFull ∧ (x.landOne (.s n v)).regs.a = x.regs.a ∧ (x.landOne (.s n v)).scratch = x.scratch
      ∧ (x.landOne (.late n v)).regs.a = x.regs.a ∧ (x.landOne (.late n v)).scratch = x.scratch := by
  by_cases h : n = 0
  · subst h; exact ⟨rfl, rfl, rfl, rfl, rfl⟩
  · rw [Core.landOne_s h, Core.landOne_late h]
    exact ⟨rfl, rfl, rfl, rfl, rfl⟩

theorem Core.landOne_s_same (x : Core) {n : BitVec 5} (h : n ≠ 0) (v : Word) :
    (x.landOne (.s n v)).regs.sVal n = v ∧ (x.landOne (.late n v)).regs.sVal n = v ∧ (x.landOne (.late n v)).regs.sIsFull n = true := by
  rw [Core.landOne_s h, Core.landOne_late h]
  exact ⟨(Regs.sVal_set rfl h).trans (if_pos rfl), (Regs.sVal_set rfl h).trans (if_pos rfl), (Regs.sIsFull_or rfl n).trans (if_pos rfl)⟩

theorem Core.landOne_s_other (x : Core) {n k : BitVec 5} (h : k ≠ n) (v : Word) :
    (x.landOne (.s n v)).regs.sVal k = x.regs.sVal k ∧ (x.landOne (.late n v)).regs.sVal k = x.regs.sVal k
      ∧ (x.landOne (.late n v)).regs.sIsFull k = x.regs.sIsFull k := by
  by_cases hn : n = 0
  · subst hn; exact ⟨rfl, rfl, rfl⟩
  · by_cases hk : k = 0
    · subst hk; exact ⟨rfl, rfl, rfl⟩
    · rw [Core.landOne_s hn, Core.landOne_late hn]
      exact ⟨(Regs.sVal_set rfl hk).trans (if_neg h), (Regs.sVal_set rfl hk).trans (if_neg h), (Regs.sIsFull_or rfl k).trans (if_neg h)⟩

theorem Core.landOne_a_other (x : Core) {n k : BitVec 5} (h : k ≠ n) (v : Word) : (x.landOne (.a n v)).regs.aVal k = x.regs.aVal k := by
  have : n.toNat ≠ k.toNat := fun e => h (BitVec.eq_of_toNat_eq e.symm)
  simp [Core.landOne, Regs.aVal, this]

/-! ### Other registers -/

/-- Bits above bit 1 of STATUS say nothing of the journal but JOVF, bit 2 (R373). -/
theorem Core.record_frame (x : Core) (u : Undo) :
    x.record u = { x with journal := (x.record u).journal, regs := { x.regs with status := (x.record u).regs.status } }
      ∧ (∀ i, i ≠ 2 → (x.record u).regs.status.getLsbD i = x.regs.status.getLsbD i) ∧ (x.snapshot = none → x.record u = x) := by
  unfold Core.record
  split
  · exact ⟨rfl, fun _ _ => rfl, fun _ => rfl⟩
  · next h =>
    have hs : x.snapshot ≠ none := fun e => h (.inl (by rw [e]; rfl))
    split
    · refine ⟨rfl, fun i hi => ?_, fun e => absurd e hs⟩
      rw [BitVec.getLsbD_or, show (4 : Word) = BitVec.twoPow 64 2 from rfl, BitVec.getLsbD_twoPow]
      simp [Ne.symm hi]
    · exact ⟨rfl, fun _ _ => rfl, fun e => absurd e hs⟩

/-- A word of a register of 256 bits, written: it reads as written, and the others as before (R275). -/
theorem setWord_extract (old : BitVec 256) (w k : BitVec 3) (v : Word32) :
    ((old &&& ~~~(0xFFFFFFFF#256 <<< (32 * w.toNat))) ||| (v.setWidth 256 <<< (32 * w.toNat))).extractLsb' (32 * k.toNat) 32
      = if k = w then v else old.extractLsb' (32 * k.toNat) 32 := by
  have hones : ∀ j, (0xFFFFFFFF#256).getLsbD j = decide (j < 32) := by
    intro j
    rw [show (0xFFFFFFFF#256) = (BitVec.allOnes 32).setWidth 256 from rfl, BitVec.getLsbD_setWidth, BitVec.getLsbD_allOnes]
    by_cases h : j < 32 <;> simp [h]
    omega
  have hk := k.isLt
  have hw := w.isLt
  apply BitVec.eq_of_getLsbD_eq
  intro i hi
  simp only [BitVec.getLsbD_extractLsb', BitVec.getLsbD_or, BitVec.getLsbD_and, BitVec.getLsbD_not, BitVec.getLsbD_shiftLeft, BitVec.getLsbD_setWidth, hones, hi,
    decide_true, Bool.true_and]
  have h1 : 32 * k.toNat + i < 256 := by omega
  by_cases h : k = w
  · subst h
    have h2 : ¬ 32 * k.toNat + i < 32 * k.toNat := by omega
    have h3 : 32 * k.toNat + i - 32 * k.toNat = i := by omega
    have h4 : i < 256 := by omega
    simp [h1, h2, h3, hi, h4]
  · have hne : k.toNat ≠ w.toNat := fun e => h (BitVec.eq_of_toNat_eq e)
    by_cases hlt : k.toNat < w.toNat
    · have h2 : 32 * k.toNat + i < 32 * w.toNat := by omega
      simp [h1, h2, h, hi]
    · have h2 : ¬ 32 * k.toNat + i < 32 * w.toNat := by omega
      have h3 : ¬ 32 * k.toNat + i - 32 * w.toNat < 32 := by omega
      have h4 : v.getLsbD (32 * k.toNat + i - 32 * w.toNat) = false := BitVec.getLsbD_of_ge _ _ (by omega)
      simp [h1, h2, h3, h4, h, hi]

/-- Settles O19: register kind by register kind. -/
theorem registerLandings : Obligations.RegisterLandings := by
  refine ⟨fun s n k x hs => ⟨exec_setvrb_main hs n, exec_setprb_main hs k, exec_clrrb_main hs, x.landOne_vrb n, x.landOne_prb k⟩, ?_, ?_, ?_⟩
  · intro x n k v
    obtain ⟨hfull, ha, hscr, hla, hls⟩ := x.landOne_s_fields n v
    exact ⟨fun h => x.landOne_s_same h v, fun h => x.landOne_s_other h v, hfull, ha, hscr, hla, hls, by simp [Core.landOne, Regs.aVal],
      fun h => x.landOne_a_other h v, rfl, rfl⟩
  · intro x n m k w h v y t c nb slot
    exact ⟨rfl, rfl, rfl, rfl, rfl, rfl, rfl, rfl, rfl⟩
  · intro x e v y w n h r src
    obtain ⟨hframe, hstatus, hnone⟩ := x.record_frame (.rb e (x.rb[e.toNat]'e.isLt))
    have hrb : (x.record (.rb e (x.rb[e.toNat]'e.isLt))).rb = x.rb := by rw [hframe]
    refine ⟨⟨?_, ?_, hstatus, fun hs => ?_⟩, ⟨_, rfl, fun k => setWord_extract _ w k h⟩, rfl, rfl⟩
    · simp only [Core.landOne, hrb]
    · simp only [Core.landOne]
      rw [hframe]
    · simp only [Core.landOne, hnone hs]

end Sys2Proof.Machine
end

section
/-! PROOFS. Special registers, TRAP and SYS, and what taking a trap and returning from it change (R118-R122, R154, R155, R355-R363). -/

namespace Sys2Proof.Machine

open Sys2Proof

/-! ### Reading special registers -/

/-- The numbers of the assigned special registers (R118). -/
def srNumbers : List (BitVec 12) :=
  [0x000, 0x001, 0x002, 0x008, 0x009] ++ (List.range 8).map (fun i => BitVec.ofNat 12 (0x010 + i))
    ++ [0x020, 0x021, 0x022, 0x030, 0x031, 0x032, 0x040, 0x041, 0x050, 0x051, 0x060, 0x061, 0x062]
    ++ (List.range 8).map (fun i => BitVec.ofNat 12 (0x070 + i))

theorem claims_ofTask_eq (s : State) (f : Task → Nat) : Claims.ofTask s f = s.taskField f := by
  unfold Claims.ofTask State.taskField
  cases s.core.task <;> rfl

/-- The statement's table of special registers is what the model reads from each. -/
theorem claims_specials_eq (s : State) : Claims.specials s = srNumbers.map fun n => (n, s.srRead n) := by
  simp only [Claims.specials, claims_ofTask_eq]
  rfl

theorem mem_srNumbers_iff (n : BitVec 12) : n ∈ srNumbers ↔ srAssigned n = true := by
  simp only [srNumbers, List.range, List.range.loop, List.map, List.cons_append, List.nil_append, List.mem_cons, List.not_mem_nil, or_false, ← BitVec.toNat_inj]
  simp [srAssigned]
  omega

theorem srCounter_iff (n : BitVec 12) : srCounter n = true ↔ n = 0x040 ∨ n = 0x041 ∨ (0x070 ≤ n.toNat ∧ n.toNat ≤ 0x077) := by
  simp [srCounter, or_assoc]

/-- Settles O32: by the table of the assigned registers, which is what `srRead` reads. -/
theorem specialRead : Obligations.SpecialRead := by
  intro s d n hd
  refine ⟨fun v hv => ?_, fun hn hp => ?_⟩
  · rw [claims_specials_eq] at hv
    obtain ⟨m, hm, e⟩ := List.mem_map.1 hv
    obtain ⟨rfl, rfl⟩ := Prod.mk.inj e
    change execMfsr d m s = _
    rw [execMfsr, ensure_go ((mem_srNumbers_iff m).1 hm), Verdict.go_and, State.destS_go hd, State.issueWith_go]
    by_cases hc : srCounter m = true
    · rw [if_pos hc, if_pos ((srCounter_iff m).1 hc), State.produce, State.mark_queueOp_clearFull]
    · rw [if_neg hc, if_neg (fun h => hc ((srCounter_iff m).2 h)), State.mark_send]
  · have ha : srAssigned n = false := by
      rw [Bool.eq_false_iff]
      intro h
      refine hn ?_
      rw [claims_specials_eq, List.map_map]
      exact List.mem_map.2 ⟨n, (mem_srNumbers_iff n).2 h, rfl⟩
    change execMfsr d n s = _
    rw [execMfsr, ha, State.destS_go hd, Verdict.and_go]
    exact State.issueWith_trap hp

/-! ### Writing special registers -/

/-- A trap stays the first of the checks that only trap (R71). -/
theorem Verdict.trap_all_two (c c1 : BitVec 8) (v v1 : Word) (b : Bool) :
    Verdict.all [.trap c v, .go, ensure b c1 v1] = .trap c v := by cases b <;> rfl

theorem Verdict.trap_all (c c1 c2 : BitVec 8) (v v1 v2 : Word) (a b : Bool) :
    Verdict.all [.trap c v, ensure a c1 v1, .go, ensure b c2 v2] = .trap c v := by cases a <;> cases b <;> rfl

theorem writable_legal {n : BitVec 12} (h : n ∈ Claims.writable) :
    (srAssigned n && !srReadOnly n) = true ∧ (n == 0x060 || n == 0x061 || n == 0x062) = false := by
  revert n; decide

theorem supervisorOnly_legal {n : BitVec 12} (h : n ∈ Claims.supervisorOnly) :
    (srAssigned n && !srReadOnly n) = true ∧ (n == 0x060 || n == 0x061 || n == 0x062) = true := by
  revert n; decide

/-- A number that MTSR may write is in one of the two lists (R118). -/
theorem mtsr_numbers {n : BitVec 12} (h : (srAssigned n && !srReadOnly n) = true) : n ∈ Claims.writable ∨ n ∈ Claims.supervisorOnly := by
  simp only [Claims.writable, Claims.supervisorOnly, List.mem_cons, List.not_mem_nil, or_false, ← BitVec.toNat_inj]
  simp [srAssigned, srReadOnly] at h
  simp
  omega

theorem exec_mtsr (a : BitVec 5) (ta : Bool) (n : BitVec 12) (s : State) : exec (.mtsr a ta n) s = execMtsr a ta n s := rfl

section
variable {s : State} {a : BitVec 5} {ta : Bool} {n : BitVec 12} (ha : s.core.regs.sIsFull a = true)
include ha

theorem exec_mtsr_written (hn : n ∈ Claims.writable ∨ (n ∈ Claims.supervisorOnly ∧ s.core.regs.status.getLsbD 0 = true))
    (hd : n = 0x051 → s.core.regs.sVal a = 0 ∨ s.feature 4 = true) : exec (.mtsr a ta n) s = .next (Claims.answer s 1 (.sr n (s.core.regs.sVal a))) := by
  have h1 : (srAssigned n && !srReadOnly n) = true := hn.elim (fun h => (writable_legal h).1) fun h => (supervisorOnly_legal h.1).1
  have h2 : (s.sup || !(n == 0x060 || n == 0x061 || n == 0x062)) = true := by
    rcases hn with h | ⟨_, h⟩
    · rw [(writable_legal h).2, Bool.not_false, Bool.or_true]
    · rw [State.sup, h, Bool.true_or]
  have h3 : (n != 0x051 || s.s a == 0 || s.feature 4) = true := by
    by_cases e : n = 0x051#12
    · rcases hd e with h | h
      · simp [show s.s a = 0 from h]
      · simp [h]
    · simp [e]
  rw [exec_mtsr, execMtsr, ensure_go h1, ensure_go h2, State.needS_go ha, ensure_go h3]
  simp only [Verdict.all, Verdict.go_and]
  rw [State.issueWith_go, State.mark_send]
  rfl

theorem exec_mtsr_illegal (hw : n ∉ Claims.writable) (hs : n ∉ Claims.supervisorOnly) (hp : s.core.issue.pass = false) :
    exec (.mtsr a ta n) s = .next (Claims.traps s 0x01 s.wordVal) := by
  have h1 : (srAssigned n && !srReadOnly n) = false := by
    rw [Bool.eq_false_iff]
    exact fun h => (mtsr_numbers h).elim hw hs
  rw [exec_mtsr, execMtsr, h1, State.needS_go ha, ensure, if_neg Bool.false_ne_true, Verdict.trap_all]
  exact State.issueWith_trap hp

theorem exec_mtsr_privileged (hs : n ∈ Claims.supervisorOnly) (hm : s.core.regs.status.getLsbD 0 = false) (hp : s.core.issue.pass = false) :
    exec (.mtsr a ta n) s = .next (Claims.traps s 0x03 s.wordVal) := by
  obtain ⟨h1, h2⟩ := supervisorOnly_legal hs
  have h3 : (s.sup || !(n == 0x060 || n == 0x061 || n == 0x062)) = false := by rw [h2, State.sup, hm]; rfl
  rw [exec_mtsr, execMtsr, ensure_go h1, h3, State.needS_go ha, Verdict.all, Verdict.go_and, ensure, if_neg Bool.false_ne_true, Verdict.trap_all_two]
  exact State.issueWith_trap hp

end

theorem statusWrite_getLsbD (old v : Word) (i : Nat) (hi : i < 64) :
    (statusWrite old v).getLsbD i = if i = 3 then v.getLsbD 3 else (old.getLsbD i && !((i == 4 || i == 5) && v.getLsbD i)) := by
  have h8 : (8#64) = BitVec.twoPow 64 3 := rfl
  have h30 : (0x30 : Word) = BitVec.twoPow 64 4 ||| BitVec.twoPow 64 5 := rfl
  rw [statusWrite, show (8 : Word) = 8#64 from rfl, h8, h30]
  simp only [BitVec.getLsbD_or, BitVec.getLsbD_and, BitVec.getLsbD_not, BitVec.getLsbD_twoPow, hi, decide_true, Bool.true_and]
  by_cases h3 : i = 3
  · subst h3; simp
  · by_cases h4 : i = 4
    · subst h4; simp
    · by_cases h5 : i = 5
      · subst h5; simp
      · simp [h3, h4, h5, Ne.symm h3, Ne.symm h4, Ne.symm h5]

/-- Settles O33: the numbers by the lists that name them, and STATUS bit by bit. -/
theorem specialWrite : Obligations.SpecialWrite := by
  refine ⟨fun s a ta n ha => ⟨fun hn hd => exec_mtsr_written ha hn hd, fun hw hs hp => exec_mtsr_illegal ha hw hs hp,
    fun hs hm hp => exec_mtsr_privileged ha hs hm hp⟩, fun x v i => ?_⟩
  have hst : (x.landOne (.sr 0x030 v)).regs.status = statusWrite x.regs.status v := rfl
  refine ⟨?_, ?_, ?_, fun hi => ?_, rfl, rfl, rfl, rfl⟩
  · rw [hst, statusWrite_getLsbD _ _ _ (by decide)]; rfl
  · rw [hst, statusWrite_getLsbD _ _ _ (by decide)]; rfl
  · rw [hst, statusWrite_getLsbD _ _ _ (by decide)]; rfl
  · rw [hst]
    by_cases h64 : i < 64
    · rw [statusWrite_getLsbD _ _ _ h64, if_neg (by omega)]
      have h4 : (i == 4) = false := by simp; omega
      have h5 : (i == 5) = false := by simp; omega
      simp [h4, h5]
    · rw [BitVec.getLsbD_of_ge _ _ (by omega), BitVec.getLsbD_of_ge _ _ (by omega)]

/-! ### Cores that are freed -/

/-- A change of the caches of a core that is in focus, or of another, changes nothing else of the core in focus. -/
theorem State.onCore_core (s : State) (c : CoreRef) (f : Core → Core) : (s.onCore c f).core = if c = s.me then f s.core else s.core := by
  unfold State.onCore State.setCore
  split
  · next h => subst h; simp
  · rfl

theorem State.onCore_me (s : State) (c : CoreRef) (f : Core → Core) : (s.onCore c f).me = s.me := State.setCore_me _ _ _
theorem State.onCore_dies (s : State) (c : CoreRef) (f : Core → Core) : (s.onCore c f).dies = s.dies := (s.setCore_fields c _).1
theorem State.onCore_held (s : State) (c : CoreRef) (f : Core → Core) : (s.onCore c f).held = s.held := by
  unfold State.onCore State.setCore
  split <;> rfl

/-- Clearing first-level caches changes those caches and nothing else. -/
theorem State.clearCluster_fields (s : State) (c : CoreRef) :
    (∃ l st, (s.clearCluster c).core = { s.core with l1 := l, stale := st }) ∧ (s.clearCluster c).me = s.me ∧ (s.clearCluster c).dies = s.dies
      ∧ (s.clearCluster c).dev = s.dev ∧ (s.clearCluster c).mem = s.mem ∧ (s.clearCluster c).lines = s.lines ∧ (s.clearCluster c).held = s.held := by
  unfold State.clearCluster
  generalize List.range 12 = r
  induction r generalizing s with
  | nil => exact ⟨⟨_, _, rfl⟩, rfl, rfl, rfl, rfl, rfl, rfl⟩
  | cons i t ih =>
    rw [List.foldl_cons]
    obtain ⟨⟨l, st, h1⟩, h2, h3, h4, h5, h6, h7⟩ := ih (s.onCore ⟨c.die, BitVec.ofNat 8 (12 * c.cluster + i)⟩ Core.clearL1)
    refine ⟨⟨l, st, h1.trans ?_⟩, h2.trans (State.onCore_me _ _ _), h3.trans (State.onCore_dies _ _ _), h4.trans (State.onCore_dev _ _ _),
      h5.trans (State.onCore_mem _ _ _), h6.trans (State.onCore_lines _ _ _), h7.trans (State.onCore_held _ _ _)⟩
    rw [State.onCore_core]
    split <;> rfl

/-- A core that is freed holds no task and the registers of a core that runs nothing; memory, and the fields of its die and of the device that its
task's operations do not wait in, stay (R208, R362). -/
theorem State.freeCore_fields (s : State) :
    (∃ l st, s.freeCore.core = { s.core.freed with l1 := l, stale := st }) ∧ s.freeCore.me = s.me ∧ s.freeCore.mem = s.mem ∧ s.freeCore.lines = s.lines
      ∧ s.freeCore.held = s.held ∧ s.freeCore.dies = s.forget.dies ∧ s.freeCore.dev = s.forget.dev := by
  unfold State.freeCore
  dsimp only
  split
  · obtain ⟨⟨l, st, h1⟩, h2, h3, h4, h5, h6, h7⟩ := State.clearCluster_fields { s.forget with core := s.forget.core.freed } s.forget.me
    exact ⟨⟨l, st, h1⟩, h2, h5, h6, h7, h3, h4⟩
  · exact ⟨⟨_, _, rfl⟩, rfl, rfl, rfl, rfl, rfl, rfl⟩

theorem State.freeCore_task (s : State) : s.freeCore.core.task = none := by
  obtain ⟨⟨l, st, h⟩, _⟩ := s.freeCore_fields
  rw [h]
  rfl

theorem State.freeCore_regs (s : State) : s.freeCore.core.regs = Regs.zero := by
  obtain ⟨⟨l, st, h⟩, _⟩ := s.freeCore_fields
  rw [h]
  rfl

theorem State.kill_task (s : State) (cause : BitVec 8) (pc val : Word) : (s.kill cause pc val).core.task = none := by
  unfold State.kill
  split <;> exact State.freeCore_task _

/-! ### Traps by instruction -/

/-- A trap that an instruction raises is due before the next bundle, of the task or of firmware. -/
theorem State.report_issued (s : State) (cause : BitVec 8) (val : Word) : (s.report cause val).mark .issued = Claims.raises s ⟨cause, val⟩ := by
  have hs : s.sup = s.core.regs.status.getLsbD 0 := rfl
  unfold State.report State.lateReport Claims.raises
  rw [Bool.true_and, hs]
  cases s.core.regs.status.getLsbD 0 <;> rfl

/-- A trap in task mode changes only its core. -/
theorem State.trapEnter_held {s : State} (h : s.sup = false) (cause : BitVec 8) (val pc : Word) : (s.trapEnter cause val pc).held = s.held := by
  rw [State.trapEnter, if_neg (by rw [h]; decide)]

/-- Settles O34: TRAP and SYS by what they report, the taking of a trap in either mode by the meaning of its event. -/
theorem trapInstructions : Obligations.TrapInstructions := by
  refine ⟨fun s code => ⟨?_, ?_⟩, fun s r l hr ht hsup hlife => ?_, fun s r hr hsup => ?_⟩
  · change execTrap code s = _
    rw [execTrap, State.issueWith_go, State.report_issued]
    rfl
  · change execSys code s = _
    rw [execSys, State.issueWith_go, State.report_issued]
    rfl
  · obtain ⟨t, ht⟩ := Option.isSome_iff_exists.1 ht
    change execTrapEntry s.me r.cause r.val s = _
    rw [execTrapEntry, State.within_me, State.orHold_eq]
    have hb : ¬ s.sup = true := by rw [hsup]; decide
    dsimp only
    rw [if_neg hb]
    split
    · next r' l' t' hr' ht' =>
      obtain ⟨rfl, rfl⟩ := List.cons.inj (hr.symm.trans hr')
      have h1 : ¬ (r ≠ ⟨r.cause, r.val⟩ ∨ (!(s.core.life == .running || s.core.life == .ended || s.core.life == .yielding)) = true) := by simp [hlife]
      have h2 : (s.core.life == .yielding) = false := by rw [hlife]; rfl
      rw [if_neg h1, h2]
      exact congrArg _ (State.orWaits_held (State.trapEnter_held (s := { s with core := { s.core with reports := l } }) hsup _ _ _))
    · next h => exact absurd ht (h r l t hr)
  · intro t hheld
    refine ⟨?_, fun _ => ?_⟩
    · change execTrapEntry s.me r.cause r.val s = _
      rw [execTrapEntry, State.within_me, State.orHold_eq]
      simp only [hsup, hr, if_true]
      rw [State.orWaits_held hheld]
    · change (State.trapEnter _ _ _ _).core.task = none
      rw [State.trapEnter, if_pos (by exact hsup)]
      exact State.kill_task _ _ _ _

/-! ### What every landing keeps -/

/-- What no landing changes: the mode, the control state, and the parts of a core that are no registers. -/
structure Core.Kept (x y : Core) : Prop where
  sup : y.regs.status.getLsbD 0 = x.regs.status.getLsbD 0
  pc : y.regs.pc = x.regs.pc
  pend : y.regs.pend = x.regs.pend
  loops : y.regs.loops = x.regs.loops
  ckptDue : y.regs.ckptDue = x.regs.ckptDue
  captured : x.captured = none → y.captured = none
  full : ∀ n, x.regs.sIsFull n = true → y.regs.sIsFull n = true
  life : y.life = x.life
  task : y.task = x.task

theorem Core.Kept.refl (x : Core) : x.Kept x := ⟨rfl, rfl, rfl, rfl, rfl, id, fun _ h => h, rfl, rfl⟩

theorem Core.Kept.trans {x y z : Core} (h : x.Kept y) (g : y.Kept z) : x.Kept z :=
  ⟨g.sup.trans h.sup, g.pc.trans h.pc, g.pend.trans h.pend, g.loops.trans h.loops, g.ckptDue.trans h.ckptDue, fun e => g.captured (h.captured e),
    fun n e => g.full n (h.full n e), g.life.trans h.life, g.task.trans h.task⟩

theorem Core.Kept.foldl {α : Type} {f : Core → α → Core} (k : ∀ (x : Core) (a : α), x.Kept (f x a)) (l : List α) (x : Core) : x.Kept (l.foldl f x) := by
  induction l generalizing x with
  | nil => exact .refl x
  | cons a t ih => exact (k x a).trans (ih _)

/-- A write of the scratchpad sets no bit of STATUS but JOVF and WQ_OVF (R277, R373). -/
theorem Core.record_sup (x : Core) (u : Undo) : (x.record u).regs.status.getLsbD 0 = x.regs.status.getLsbD 0 :=
  (x.record_frame u).2.1 0 (by decide)

theorem Core.wake_sup (x : Core) (l : List Nat) : (x.wake l).regs.status.getLsbD 0 = x.regs.status.getLsbD 0 := by
  unfold Core.wake
  generalize List.range 8 = r
  refine Core.foldl_same (fun x => x.regs.status.getLsbD 0) (fun y i => ?_) r x
  dsimp only
  split
  · rfl
  · split
    · rfl
    · split
      · change (y.regs.status ||| 32).getLsbD 0 = _
        rw [BitVec.getLsbD_or]
        simp
      · rfl

theorem Core.recordScratch_sup (x : Core) (off : Nat) (on : List Bool) : (x.recordScratch off on).regs.status.getLsbD 0 = x.regs.status.getLsbD 0 := by
  unfold Core.recordScratch
  exact Core.foldl_same (fun x => x.regs.status.getLsbD 0) (fun y i => by dsimp only; split; exacts [y.record_sup _, rfl]) _ _

theorem Core.scratchStore_sup (x : Core) (off : Nat) (bs : List (Byte × Bool)) : (x.scratchStore off bs).regs.status.getLsbD 0 = x.regs.status.getLsbD 0 := by
  unfold Core.scratchStore
  dsimp only
  rw [Core.wake_sup]
  exact x.recordScratch_sup off _

theorem Core.Wrote.kept {x y : Core} (h : x.Wrote y) (hs : y.regs.status.getLsbD 0 = x.regs.status.getLsbD 0) : x.Kept y := by
  have hr := h.regs
  refine ⟨hs, by rw [hr], by rw [hr], by rw [hr], by rw [hr], fun e => ?_, fun n e => ?_, ?_, ?_⟩
  · unfold Core.Wrote at h; rw [h]; exact e
  · rw [hr]; exact e
  · unfold Core.Wrote at h; rw [h]
  · unfold Core.Wrote at h; rw [h]

theorem Core.writeSr_kept (x : Core) (n : BitVec 12) (v : Word) : x.Kept (x.writeSr n v) := by
  refine ⟨?_, ?_, ?_, ?_, ?_, fun e => ?_, fun k e => ?_, ?_, ?_⟩
  · have : (statusWrite x.regs.status v).getLsbD 0 = x.regs.status.getLsbD 0 := by
      rw [statusWrite_getLsbD _ _ _ (by decide)]; simp
    simp only [Core.writeSr, apply_ite Core.regs, apply_ite Regs.status, apply_ite (BitVec.getLsbD · 0), this, ite_self]
  · simp only [Core.writeSr, apply_ite Core.regs, apply_ite Regs.pc, ite_self]
  · simp only [Core.writeSr, apply_ite Core.regs, apply_ite Regs.pend, ite_self]
  · simp only [Core.writeSr, apply_ite Core.regs, apply_ite Regs.loops, ite_self]
  · simp only [Core.writeSr, apply_ite Core.regs, apply_ite Regs.ckptDue, ite_self]
  · simp only [Core.writeSr, apply_ite Core.captured, e, Option.map_none, ite_self]
  · have hf : (x.writeSr n v).regs.sFull = x.regs.sFull := by
      simp only [Core.writeSr, apply_ite Core.regs, apply_ite Regs.sFull, ite_self]
    rw [Regs.sIsFull, hf]
    exact e
  · simp only [Core.writeSr, apply_ite Core.life, ite_self]
  · simp only [Core.writeSr, apply_ite Core.task, ite_self]

/-- No landing leaves an S register empty that was full. -/
theorem Core.landOne_kept (x : Core) (l : Land) : x.Kept (x.landOne l) := by
  cases l with
  | sr n v => exact x.writeSr_kept n v
  | rb n v =>
    have h := (Core.Wrote.record x (.rb n (x.rb[n.toNat]'n.isLt))).kept (x.record_sup _)
    exact ⟨h.sup, h.pc, h.pend, h.loops, h.ckptDue, h.captured, h.full, h.life, h.task⟩
  | store sl off data m d =>
    refine (x.landOne_store_wrote sl off data m d).kept ?_
    simp only [Core.landOne]
    exact x.scratchStore_sup _ _
  | late n v =>
    by_cases h : n = 0
    · subst h; exact .refl x
    · rw [Core.landOne_late h]
      refine ⟨rfl, rfl, rfl, rfl, rfl, id, fun k hk => ?_, rfl, rfl⟩
      rw [Regs.sIsFull_or (r := x.regs) (n := n) rfl k]
      split
      · rfl
      · exact hk
  | s n v => simp only [Core.landOne]; split <;> exact ⟨rfl, rfl, rfl, rfl, rfl, id, fun _ h => h, rfl, rfl⟩
  | p n v m => simp only [Core.landOne]; split <;> exact ⟨rfl, rfl, rfl, rfl, rfl, id, fun _ h => h, rfl, rfl⟩
  | _ => exact ⟨rfl, rfl, rfl, rfl, rfl, id, fun _ h => h, rfl, rfl⟩

theorem Core.landFlight_kept (x : Core) (f : InFlight) : x.Kept (x.landFlight f) := by
  have h := x.landOne_kept f.what
  exact ⟨h.sup, h.pc, h.pend, h.loops, h.ckptDue, h.captured, h.full, h.life, h.task⟩

theorem Core.landAll_kept (x : Core) (l : List InFlight) : x.Kept (x.landAll l) := Core.Kept.foldl Core.landFlight_kept l x

/-- A value of a variable-latency producer among the results that land fills its register (R124). -/
theorem Core.landAll_full {l : List InFlight} {f : InFlight} (hf : f ∈ l) {n : BitVec 5} {v : Word} (hw : f.what = .late n v) (x : Core) :
    (x.landAll l).regs.sIsFull n = true := by
  induction l generalizing x with
  | nil => exact absurd hf (List.not_mem_nil)
  | cons g t ih =>
    rw [Core.landAll, List.foldl_cons, ← Core.landAll]
    rcases List.mem_cons.1 hf with rfl | h
    · refine (Core.landAll_kept _ t).full n ?_
      by_cases h : n = 0
      · subst h; rfl
      · have : (x.landFlight f).regs.sIsFull n = (x.landOne f.what).regs.sIsFull n := rfl
        rw [this, hw]
        exact (x.landOne_s_same h v).2.2
    · exact ih h _

/-! ### Returning from a trap -/

/-- The core that returns to its task before the values that arrived meanwhile land (R360). -/
def Core.returning (x : Core) (c : Captured) : Core :=
  let ended := c.endPc == some x.regs.trapPc
  { x with
    regs := { x.regs with
      status := x.regs.status &&& ~~~1#64, pc := x.regs.trapPc, pend := c.pend, shadow := c.shadow, ended := ended, loops := c.loops, vrb := c.vrb, prb := c.prb
      flight := c.flight.filter (fun f => f.left != 0), stores := x.regs.across true ++ c.stores, loads := [], ckptDue := c.ckptDue, before := c.before }
    captured := none
    issue := { xLeft := c.xLeft == some x.regs.trapPc }
    life := if ended then .ended else .running }

theorem State.trapReturn_eq {s : State} {c : Captured} (hc : s.core.captured = some c) :
    s.trapReturn = { s with core := (s.core.returning c).landAll (c.flight.filter fun f => f.left == 0) } := by
  simp only [State.trapReturn, hc, Option.getD_some]
  rfl

theorem Core.returning_status (x : Core) (c : Captured) (i : Nat) :
    (x.returning c).regs.status.getLsbD i = (x.regs.status.getLsbD i && i != 0) := by
  have h : (x.returning c).regs.status = x.regs.status &&& ~~~1#64 := rfl
  rw [h, BitVec.getLsbD_and, BitVec.getLsbD_not, BitVec.getLsbD_one]
  by_cases hi : i < 64
  · cases i <;> simp [hi]
  · simp [BitVec.getLsbD_of_ge x.regs.status i (by omega)]

/-- The return restores the captured control state, leaves supervisor mode and lands what arrived (R359, R360). -/
theorem State.trapReturn_core {s : State} {c : Captured} (hc : s.core.captured = some c) :
    let x := s.trapReturn.core
    x.regs.status.getLsbD 0 = false ∧ x.regs.pc = s.core.regs.trapPc ∧ x.regs.pend = c.pend ∧ x.regs.loops = c.loops
      ∧ x.unmarked = (c.flight.filter fun f => f.left != 0).map InFlight.unmark ∧ x.captured = none ∧ x.regs.ckptDue = c.ckptDue
      ∧ x.life = if c.endPc = some s.core.regs.trapPc then .ended else .running := by
  have k := (s.core.returning c).landAll_kept (c.flight.filter fun f => f.left == 0)
  have hlife : (s.core.returning c).life = if c.endPc = some s.core.regs.trapPc then .ended else .running := by
    by_cases h : c.endPc = some s.core.regs.trapPc <;> simp [Core.returning, h]
  rw [State.trapReturn_eq hc]
  refine ⟨k.sup.trans ?_, k.pc, k.pend, k.loops, Core.landAll_unmarked _ _, k.captured rfl, k.ckptDue, k.life.trans hlife⟩
  rw [Core.returning_status]
  simp

/-- Settles O36: RETT by its check, and the return by what the landing of the values that arrived keeps. -/
theorem trapReturn : Obligations.TrapReturn := by
  intro s c
  refine ⟨fun hs => ?_, fun hs hp => ?_, fun hc => ⟨?_, fun hnone => ?_⟩⟩
  · change execRett s = _
    rw [execRett, ensure_go hs, State.issueWith_go]
    rfl
  · change execRett s = _
    rw [execRett, hs]
    exact State.issueWith_trap hp
  · obtain ⟨hsup, hpc, hpend, hloops, hflight, hcap, hckpt, hlife⟩ := State.trapReturn_core hc
    refine ⟨hsup, hpc, hpend, hloops, hflight, hcap, hckpt, hlife, fun n hn => ⟨?_, ?_⟩, ?_⟩
    · rw [State.trapReturn_eq hc]
      exact Core.landAll_sVal _ _ hn
    · rintro ⟨v, f, hf, hl, hw⟩
      rw [State.trapReturn_eq hc]
      exact Core.landAll_full (List.mem_filter.2 ⟨hf, by simp [hl]⟩) hw _
    · rw [State.trapReturn_eq hc]
      exact ⟨rfl, rfl, rfl, rfl⟩
  · have h0 : (c.flight.filter fun f => f.left == 0) = [] := List.filter_eq_nil_iff.2 fun f hf => by simp [hnone f hf]
    have h1 : (c.flight.filter fun f => f.left != 0) = c.flight := List.filter_eq_self.2 fun f hf => by simp [hnone f hf]
    rw [State.trapReturn_eq hc, h0]
    refine ⟨fun i hi => ?_, rfl, rfl, rfl, h1, rfl, rfl, rfl, rfl, rfl, rfl, rfl⟩
    change (s.core.returning c).regs.status.getLsbD i = _
    rw [Core.returning_status]
    simp [hi]

end Sys2Proof.Machine
end

section
/-! PROOFS. What accesses of memory change beside memory: of a core its scratchpad, its caches of translations and its counters, of a die its
translation cache and its counters, and of the device nothing (R203, R213-R216, R277, R399). -/

namespace Sys2Proof.Machine

open Sys2Proof

/-! ### The frame of memory accesses -/

/-- A core after accesses of memory by itself or by others. -/
structure Core.Touched (x y : Core) : Prop where
  eq : y = { x with scratch := y.scratch, journal := y.journal, ev := y.ev, tlb := y.tlb, walks := y.walks
                    regs := { x.regs with status := y.regs.status, wakeQ := y.regs.wakeQ } }
  sup : y.regs.status.getLsbD 0 = x.regs.status.getLsbD 0

theorem Core.Touched.refl (x : Core) : x.Touched x := ⟨rfl, rfl⟩

theorem Core.Touched.trans {x y z : Core} (h : x.Touched y) (g : y.Touched z) : x.Touched z := by
  obtain ⟨e1, s1⟩ := h
  obtain ⟨e2, s2⟩ := g
  refine ⟨?_, s2.trans s1⟩
  rw [e2, e1]

theorem Core.Touched.of_wrote {x y : Core} (h : x.Wrote y) (hs : y.regs.status.getLsbD 0 = x.regs.status.getLsbD 0) : x.Touched y := by
  refine ⟨?_, hs⟩
  unfold Core.Wrote at h
  rw [h]

/-- A write that is not journalled (R373). -/
theorem Core.Touched.unjournalled {x : Core} {f : Core → Core} (h : ({ x with snapshot := none } : Core).Touched (f { x with snapshot := none })) :
    x.Touched (x.unjournalled f) := by
  unfold Core.unjournalled
  generalize f { x with snapshot := none } = y at h ⊢
  refine ⟨?_, h.sup⟩
  dsimp only
  rw [h.eq]

theorem Core.Touched.regs {x y : Core} (h : x.Touched y) : y.regs = { x.regs with status := y.regs.status, wakeQ := y.regs.wakeQ } := by
  obtain ⟨e, _⟩ := h
  rw [e]

/-- A die after accesses of memory. -/
def Die.Touched (x y : Die) : Prop := y = { x with tlb := y.tlb, devCnt := y.devCnt }

theorem Die.Touched.refl (x : Die) : x.Touched x := rfl

theorem Die.Touched.trans {x y z : Die} (h : x.Touched y) (g : y.Touched z) : x.Touched z := by
  unfold Die.Touched at *
  rw [g, h]

theorem Die.Touched.kill {x y : Die} (h : x.Touched y) : y.kill = x.kill := by
  unfold Die.Touched at h
  rw [h]

/-- The machine after accesses of memory. -/
structure State.Touched (s t : State) : Prop where
  me : t.me = s.me
  dev : t.dev = s.dev
  due : t.due = s.due
  held : s.held = true → t.held = true
  die : ∀ d, (s.die d).Touched (t.die d)
  core : ∀ c, (s.getCore c).Touched (t.getCore c)

theorem Core.scratchUnits_sup (fuel : Nat) (x : Core) (off : Nat) (bs : List Byte) :
    (Core.scratchUnits fuel x off bs).regs.status.getLsbD 0 = x.regs.status.getLsbD 0 := by
  induction fuel generalizing x off bs with
  | zero => rfl
  | succ n ih =>
    unfold Core.scratchUnits
    split
    · rfl
    · exact (ih _ _ _).trans (x.scratchStore_sup off _)

theorem Core.scratchWrite_sup (x : Core) (off : Nat) (bs : List Byte) : (x.scratchWrite off bs).regs.status.getLsbD 0 = x.regs.status.getLsbD 0 :=
  Core.scratchUnits_sup _ _ _ _

namespace State.Touched

theorem refl (s : State) : s.Touched s := ⟨rfl, rfl, rfl, id, fun _ => .refl _, fun _ => .refl _⟩

theorem trans {s t u : State} (h : s.Touched t) (g : t.Touched u) : s.Touched u :=
  ⟨g.me.trans h.me, g.dev.trans h.dev, g.due.trans h.due, fun e => g.held (h.held e), fun d => (h.die d).trans (g.die d), fun c => (h.core c).trans (g.core c)⟩

/-- A change of memory, of lines, of the agenda and of the counter of fresh words touches no core and no die. -/
theorem of_fields {s t : State} (hme : t.me = s.me) (hcore : t.core = s.core) (hothers : t.others = s.others) (hdies : t.dies = s.dies) (hdev : t.dev = s.dev)
    (hdue : t.due = s.due) (hheld : t.held = s.held) : s.Touched t := by
  refine ⟨hme, hdev, hdue, fun e => hheld.trans e, fun d => ?_, fun c => ?_⟩
  · rw [show t.die d = s.die d by simp only [State.die, hdies]]; exact .refl _
  · rw [show t.getCore c = s.getCore c by simp only [State.getCore, hme, hcore, hothers]]; exact .refl _

/-- A change of a die. -/
theorem onDie {s : State} {d : BitVec 2} {f : Die → Die} (h : (s.die d).Touched (f (s.die d))) : s.Touched (s.onDie d f) := by
  refine ⟨rfl, rfl, rfl, id, fun e => ?_, fun _ => .refl _⟩
  rw [State.onDie_die]
  split
  · next he => subst he; exact h
  · exact .refl _

theorem dieEvent (s : State) (d : BitVec 2) (code : BitVec 8) (n : Nat) : s.Touched (s.dieEvent d code n) := onDie rfl

/-- A change of a core. -/
theorem onCore {s : State} {c : CoreRef} {f : Core → Core} (h : (s.getCore c).Touched (f (s.getCore c))) : s.Touched (s.onCore c f) := by
  refine ⟨State.onCore_me _ _ _, State.onCore_dev _ _ _, ?_, fun e => (State.onCore_held _ _ _).trans e, fun d => ?_, fun k => ?_⟩
  · unfold State.onCore State.setCore; split <;> rfl
  · rw [show (s.onCore c f).die d = s.die d by simp only [State.die, State.onCore_dies]]; exact .refl _
  · rw [State.getCore_onCore]
    split
    · next e => subst e; exact h
    · exact .refl _

/-- A change of the core in focus. -/
theorem setFocus {s : State} {x : Core} (h : s.core.Touched x) : s.Touched { s with core := x } := by
  refine ⟨rfl, rfl, rfl, id, fun d => .refl _, fun c => ?_⟩
  by_cases hc : c = s.me
  · subst hc; simpa [State.getCore] using h
  · simpa [State.getCore, hc] using Core.Touched.refl _

theorem foldl {α : Type} {f : State → α → State} (k : ∀ (s : State) (a : α), s.Touched (f s a)) (l : List α) (s : State) : s.Touched (l.foldl f s) := by
  induction l generalizing s with
  | nil => exact .refl s
  | cons a t ih => exact (k s a).trans (ih _)

/-- A fold whose state stands beside an answer. -/
theorem foldl_fst {α β : Type} {f : State × β → α → State × β} (k : ∀ (r : State × β) (a : α), r.1.Touched (f r a).1) (l : List α) (r : State × β) :
    r.1.Touched (l.foldl f r).1 := by
  induction l generalizing r with
  | nil => exact .refl r.1
  | cons a t ih => exact (k r a).trans (ih _)

/-! ### Counters -/

theorem count (s : State) (code : BitVec 8) (n : Nat) : s.Touched (s.count code n) := by
  unfold State.count
  split
  · exact .refl s
  · exact setFocus ⟨rfl, rfl⟩

theorem hold (s : State) : s.Touched s.hold := ⟨rfl, rfl, rfl, fun _ => rfl, fun _ => .refl _, fun _ => .refl _⟩

/-! ### Writes -/

theorem writeLine (s : State) (key pa : Nat) (bs : List Byte) : s.Touched (s.writeLine key pa bs).1 := by
  unfold State.writeLine
  dsimp only
  split
  · exact .refl s
  · split
    · refine trans ?_ (dieEvent _ _ _ _)
      exact of_fields rfl rfl rfl rfl rfl rfl rfl
    · exact of_fields rfl rfl rfl rfl rfl rfl rfl

theorem writeLines (key : Nat) (l : List (Nat × Nat)) (s : State) (bs : List Byte) : s.Touched (s.writeLines key l bs).1 := by
  induction l generalizing s bs with
  | nil => exact .refl s
  | cons p t ih => exact (writeLine s key p.1 _).trans (ih _ _)

theorem writeBare (key : Nat) (l : List (Nat × Nat)) (s : State) (bs : List Byte) : s.Touched (s.writeBare key l bs) := by
  induction l generalizing s bs with
  | nil => exact .refl s
  | cons p t ih =>
    refine trans ?_ (ih _ _)
    exact of_fields rfl rfl rfl rfl rfl rfl rfl

theorem writePlain (s : State) (key pa : Nat) (bs : List Byte) : s.Touched (s.writePlain key pa bs).1 := by
  unfold State.writePlain
  dsimp only
  split
  · exact writeLines _ _ _ _
  · exact writeBare _ _ _ _


/-- A write to a scratchpad by its own core, or by another party, which is not journalled (R373). -/
theorem scratchWrite (s : State) (c : CoreRef) (own : Bool) (off : Nat) (bs : List Byte) :
    s.Touched (s.onCore c fun x => if own then x.scratchWrite off bs else x.unjournalled fun x => x.scratchWrite off bs) := by
  refine onCore ?_
  split
  · exact .of_wrote (Core.Wrote.scratchWrite _ _ _) (Core.scratchWrite_sup _ _ _)
  · have h := Core.Touched.of_wrote (Core.Wrote.scratchWrite { s.getCore c with snapshot := none } off bs) (Core.scratchWrite_sup _ _ _)
    exact h.unjournalled

theorem physWrite (s : State) (w : Who) (key pa : Nat) (bs : List Byte) : s.Touched (s.physWrite w key pa bs).1 := by
  unfold State.physWrite
  split
  · next c off _ =>
    split
    · have h := scratchWrite s c (decide (c = s.me)) off (bs.take ((s.getCore c).window false - off))
      simpa only [decide_eq_true_eq] using h
    · exact .refl s
  · exact of_fields rfl rfl rfl rfl rfl rfl rfl
  · split
    · exact .refl s
    · next a _ =>
      exact foldl_fst (f := fun r (p : Nat × List Byte) => let q := r.1.writeLine a.key (s.reaim p.1) p.2; (q.1, r.2 || q.2)) (fun r p => writeLine r.1 _ _ _) _ (s, false)
  · exact writePlain _ _ _ _

/-! ### Translation -/

theorem touchEntry (s : State) (p : Nat) (e : Word) (write : Bool) : s.Touched (s.touchEntry p e write) := by
  unfold State.touchEntry
  generalize (e ||| if write then 0xC0#64 else 0x40#64) = e'
  dsimp only
  split
  · exact .refl s
  · exact writePlain _ _ _ _

theorem fresh {s t : State} (h : s.Touched t) (n : Nat) : s.Touched { t with fresh := n } := h.trans (of_fields rfl rfl rfl rfl rfl rfl rfl)

theorem tlbPut (s : State) (e : TlbEntry) : s.Touched (s.tlbPut e) := by
  unfold State.tlbPut
  refine trans ?_ (onDie rfl)
  exact fresh (t := { s with core := { s.core with tlb := tlbFill 64 s.fresh s.core.tlb e } }) (setFocus ⟨rfl, rfl⟩) _

theorem served (fresh : Nat) (e : TlbEntry) (x : Core) : x.Touched (x.served fresh e) := by
  unfold Core.served
  dsimp only
  split
  · exact ⟨rfl, rfl⟩
  · exact .refl x

theorem serve (s : State) (e : TlbEntry) : s.Touched (s.serve e) := by
  unfold State.serve
  refine foldl (fun t k => ?_) _ _
  split
  · exact fresh (onCore (served _ _ _)) _
  · exact .refl t

theorem walkNow (s : State) (w : Who) (write : Bool) (va : Nat) : s.Touched (s.walkNow w write va).1 := by
  unfold State.walkNow
  split
  · exact .refl s
  · exact dieEvent _ _ _ _
  · dsimp only
    split
    · exact dieEvent _ _ _ _
    · exact (((dieEvent _ _ _ _).trans (touchEntry _ _ _ _)).trans (tlbPut _ _)).trans (serve _ _)

theorem refill (s : State) (va : Word) (write : Bool) : s.Touched (s.refill va write) := by
  unfold State.refill
  dsimp only
  split
  · exact .refl s
  · split
    · exact .refl s
    · next e _ =>
      refine fresh (s := s) (t := { s.count 0x0A 1 with core := { (s.count 0x0A 1).core with tlb := tlbFill 64 s.fresh s.core.tlb e } }) ?_ _
      exact (count s 0x0A 1).trans (setFocus ⟨rfl, rfl⟩)

theorem translate (s : State) (w : Who) (write : Bool) (va : Word) : s.Touched (s.translate w write va).1 := by
  unfold State.translate
  split
  · exact .refl s
  · split
    · have h : s.Touched (if w.sup then s else s.refill va write) := by
        split
        · exact .refl s
        · exact refill _ _ _
      dsimp only
      split
      · exact h
      · exact h
    · have h := walkNow s w write va.toNat
      split
      · next e => rw [e] at h; exact h
      · next e =>
        rw [e] at h
        dsimp only
        split
        · exact h
        · exact h.trans (count _ _ _)
      · next e =>
        rw [e] at h
        dsimp only
        split
        · exact h
        · exact h.trans (count _ _ _)

theorem translateHeld (s : State) (w : Who) (write : Bool) (va : Word) : s.Touched (s.translateHeld w write va).1 := by
  unfold State.translateHeld
  have h := translate s w write va
  split
  · next e => rw [e] at h; exact h.trans (hold _)
  · exact h

theorem reach (s : State) (w : Who) (write : Bool) (va : Word) (n : Nat) : s.Touched (s.reach w write va n).1 := by
  unfold State.reach
  have h := translateHeld s w write va
  split
  · next e => rw [e] at h; exact h
  · next e =>
    rw [e] at h
    split
    · exact h
    · split
      · exact h
      · exact h.trans (hold _)

/-! ### Accesses by virtual address -/

theorem vRead (s : State) (w : Who) (va : Word) (n : Nat) : s.Touched (s.vRead w va n).1 := by
  unfold State.vRead
  have h := reach s w false va n
  split <;> next e => rw [e] at h; exact h

theorem vWrite (s : State) (w : Who) (va : Word) (bs : List Byte) : s.Touched (s.vWrite w va bs).1 := by
  unfold State.vWrite
  have h := reach s w true va bs.length
  split
  · next e => rw [e] at h; exact h
  · next e => rw [e] at h; exact h.trans (physWrite _ _ _ _ _)

theorem vReadLong (w : Who) (fuel : Nat) (s : State) (va : Word) (n : Nat) : s.Touched (State.vReadLong w fuel s va n).1 := by
  induction fuel generalizing s va n with
  | zero => exact .refl s
  | succ fuel ih =>
    unfold State.vReadLong
    split
    · exact .refl s
    · dsimp only
      have h := vRead s w va (Nat.min n (128 - va.toNat % 128))
      split
      · next e => rw [e] at h; exact h
      · next t bs e =>
        rw [e] at h
        have g := ih t (va + BitVec.ofNat 64 (Nat.min n (128 - va.toNat % 128))) (n - Nat.min n (128 - va.toNat % 128))
        split <;> next e' => rw [e'] at g; exact h.trans g

theorem vWriteLong (w : Who) (fuel : Nat) (s : State) (va : Word) (bs : List Byte) : s.Touched (State.vWriteLong w fuel s va bs).1 := by
  induction fuel generalizing s va bs with
  | zero => exact .refl s
  | succ fuel ih =>
    unfold State.vWriteLong
    split
    · exact .refl s
    · dsimp only
      have h := vWrite s w va (bs.take (Nat.min bs.length (128 - va.toNat % 128)))
      split
      · next e => rw [e] at h; exact h
      · next e => rw [e] at h; exact h
      · next e => rw [e] at h; exact h.trans (ih _ _ _)

theorem vReadAll (s : State) (w : Who) (va : Word) (n : Nat) : s.Touched (s.vReadAll w va n).1 := vReadLong _ _ _ _ _
theorem vWriteAll (s : State) (w : Who) (va : Word) (bs : List Byte) : s.Touched (s.vWriteAll w va bs).1 := vWriteLong _ _ _ _ _

end State.Touched

/-! ### Killing a task -/

/-- Changes of the bindings change nothing else. -/
theorem State.foldl_bindings {α : Type} {f : State → α → State} (k : ∀ s a, ∃ b, f s a = { s with dev := { s.dev with bindings := b } }) (l : List α) (s : State) :
    ∃ b, l.foldl f s = { s with dev := { s.dev with bindings := b } } := by
  induction l generalizing s with
  | nil => exact ⟨_, rfl⟩
  | cons a t ih =>
    obtain ⟨b, e⟩ := k s a
    obtain ⟨b', e'⟩ := ih (f s a)
    refine ⟨b', ?_⟩
    rw [List.foldl_cons, e', e]

/-- What the end of a record changes: bindings of the device, and what the dies know of its launch. -/
theorem State.noteEnded_eq (s : State) (t : Task) :
    ∃ b, s.noteEnded t = { s with dev := { s.dev with bindings := b } } ∨ s.noteEnded t = { s with
      dev := { s.dev with bindings := b }
      dies := s.dies.map fun d => { d with
        launches := d.launches.filter fun x => x.launchAddr != t.launchAddr
        ringFull := d.ringFull.filter fun x => x.1.toNat != t.launchAddr
        rings := d.rings.filter fun x => x.1.launchAddr != t.launchAddr } } := by
  unfold State.noteEnded
  dsimp only
  generalize hf : List.foldl _ s _ = u
  obtain ⟨b, e⟩ := State.foldl_bindings (f := fun s i => s.onDev fun d =>
    let b := d.binding t i
    d.setBinding { b with ended := if b.ended.contains t.index then b.ended else t.index :: b.ended }) (fun _ _ => ⟨_, rfl⟩) (List.range t.levels) s
  have hu : u = { s with dev := { s.dev with bindings := b } } := hf.symm.trans e
  subst hu
  split
  · exact ⟨_, .inr rfl⟩
  · exact ⟨_, .inl rfl⟩

theorem State.noteEnded_fields (s : State) (t : Task) :
    (s.noteEnded t).me = s.me ∧ (s.noteEnded t).core = s.core ∧ (s.noteEnded t).others = s.others ∧ (s.noteEnded t).mem = s.mem ∧ (s.noteEnded t).lines = s.lines
      ∧ (s.noteEnded t).held = s.held ∧ (∃ b, (s.noteEnded t).dev = { s.dev with bindings := b })
      ∧ ∀ d, ∃ l r g, (s.noteEnded t).die d = { s.die d with launches := l, ringFull := r, rings := g } := by
  obtain ⟨b, e | e⟩ := s.noteEnded_eq t <;> rw [e]
  · exact ⟨rfl, rfl, rfl, rfl, rfl, rfl, ⟨b, rfl⟩, fun d => ⟨_, _, _, rfl⟩⟩
  · refine ⟨rfl, rfl, rfl, rfl, rfl, rfl, ⟨b, rfl⟩, fun d => ?_⟩
    simp only [State.die, Vector.getElem_map]
    exact ⟨_, _, _, rfl⟩

/-- Of a die a task that leaves its core takes its suffix operations alone. -/
theorem State.forget_die (s : State) (d : BitVec 2) :
    ∃ o, s.forget.die d = { s.die d with sfxOps := o } := by
  change ∃ o, (s.onDie s.me.die fun d => { d with sfxOps := d.sfxOps.filter fun o => o.core != s.me.idx }).die d = _
  rw [State.onDie_die]
  split
  · next h => subst h; exact ⟨_, rfl⟩
  · exact ⟨_, rfl⟩

theorem State.freeCore_die (s : State) (d : BitVec 2) : ∃ o, s.freeCore.die d = { s.die d with sfxOps := o } := by
  obtain ⟨_, _, _, _, _, hd, _⟩ := s.freeCore_fields
  rw [show s.freeCore.die d = s.forget.die d by simp only [State.die, hd]]
  exact s.forget_die d

theorem State.noteKill_kill (s : State) (d : BitVec 2) (addr : BitVec 48) :
    ((s.noteKill d addr).die d).kill = (((s.die d).kill + 0x0001000000000000) &&& 0xFFFF000000000000) ||| (addr.setWidth 64 &&& 0xFFFFFFFFFF80) := by
  rw [State.noteKill, State.onDie_die, if_pos rfl]

theorem State.killHeader_touched (s : State) (t : Task) (cause : BitVec 8) (pc val : Word) : s.Touched (s.killHeader t cause pc val) := by
  unfold State.killHeader
  split
  · exact .refl s
  · exact .vWrite _ _ _ _

/-- A kill counts in its die's register, which then names the record (R362, R363). -/
theorem State.kill_kill {s : State} {t : Task} (h : s.core.task = some t) (cause : BitVec 8) (pc val : Word) :
    (s.kill cause pc val).me = s.me ∧ ((s.kill cause pc val).die s.me.die).kill
      = (((s.die s.me.die).kill + 0x0001000000000000) &&& 0xFFFF000000000000) ||| (t.addr.setWidth 64 &&& 0xFFFFFFFFFF80) := by
  have hh := s.killHeader_touched t cause pc val
  have hk := State.noteKill_kill (s.killHeader t cause pc val) s.me.die t.addr
  have hd : ((s.killHeader t cause pc val).die s.me.die).kill = (s.die s.me.die).kill := (hh.die s.me.die).kill
  have hme : ((s.killHeader t cause pc val).noteKill s.me.die t.addr).me = s.me := hh.me
  rw [State.kill, h]
  dsimp only
  generalize (s.killHeader t cause pc val).noteKill s.me.die t.addr = u at hk hme ⊢
  have hu : (if u.comp then u else u.noteEnded t).me = s.me ∧ ((if u.comp then u else u.noteEnded t).die s.me.die).kill = (u.die s.me.die).kill := by
    split
    · exact ⟨hme, rfl⟩
    · obtain ⟨h1, _, _, _, _, _, _, h8⟩ := u.noteEnded_fields t
      obtain ⟨l, r, g, e⟩ := h8 s.me.die
      exact ⟨h1.trans hme, by rw [e]⟩
  obtain ⟨o, e⟩ := State.freeCore_die (if u.comp then u else u.noteEnded t) s.me.die
  obtain ⟨_, hf, _⟩ := State.freeCore_fields (if u.comp then u else u.noteEnded t)
  exact ⟨hf.trans hu.1, by rw [e]; exact hu.2.trans (hk.trans (by rw [hd]))⟩

theorem State.kill_regs (s : State) (cause : BitVec 8) (pc val : Word) : (s.kill cause pc val).core.regs = Regs.zero := by
  unfold State.kill
  split <;> exact State.freeCore_regs _

/-! ### Taking a trap -/

/-- A trap orders the accesses of the S and V slots before it against those after it (R305). -/
theorem LocalStore.trapped_passedBy {t : LocalStore} (h : t.trapped.acc.path.toNat ≤ 1) {b : ScratchAccess} (hb : b.path.toNat ≤ 1) :
    t.trapped.acc.passedBy b = false := by
  have hp : t.acc.path.toNat ≤ 1 := h
  have hs : t.acc.slots = true := by simp [ScratchAccess.slots, hp]
  have hc : t.trapped.acc.closed.getLsbD b.path.toNat = true := by
    have : t.trapped.acc.closed = t.acc.closed ||| 3 := by simp [LocalStore.trapped, hs]
    rw [this, BitVec.getLsbD_or]
    have : b.path.toNat = 0 ∨ b.path.toNat = 1 := by omega
    rcases this with e | e <;> rw [e] <;> simp
  simp only [ScratchAccess.passedBy, hc, Bool.not_true, Bool.and_false, Bool.false_and]

theorem Regs.mem_across {r : Regs} {performed : Bool} {x : LocalStore} (h : x ∈ r.across performed) : ∃ t : LocalStore, x = t.trapped := by
  obtain ⟨t, _, e⟩ := List.mem_map.1 h
  exact ⟨t, e.symm⟩

/-- Setting STATUS.SUP sets it and no other bit. -/
theorem status_or_one (v : Word) (i : Nat) : (v ||| 1).getLsbD i = (v.getLsbD i || i == 0) := by
  rw [BitVec.getLsbD_or, show (1 : Word) = 1#64 from rfl, BitVec.getLsbD_one]
  cases i <;> simp

/-- Settles O35: a trap in task mode by what it sets, one in supervisor mode as the kill that it is. -/
theorem trapEntry : Obligations.TrapEntry := by
  refine ⟨fun s cause val pc hs => ?_, fun s cause val pc t hs ht => ?_⟩
  · have hb : ¬ s.sup = true := by rw [hs]; decide
    rw [State.trapEnter, if_neg hb]
    refine ⟨?_, fun i hi => ?_, rfl, rfl, rfl, rfl, rfl, rfl, rfl, rfl, rfl, rfl, ?_, ⟨_, rfl, rfl, rfl, rfl, rfl, rfl, rfl, rfl, rfl⟩, rfl, rfl, rfl, rfl, rfl, rfl, rfl, rfl,
      rfl, rfl, rfl, rfl, rfl, rfl, rfl, rfl, rfl⟩
    · exact (status_or_one _ 0).trans (by simp)
    · exact (status_or_one _ i).trans (by simp [hi])
    · intro x hx hp b hb
      have : ∃ t : LocalStore, x = t.trapped := by
        rcases List.mem_append.1 hx with h | h
        · exact Regs.mem_across h
        · exact Regs.mem_across h
      obtain ⟨t, rfl⟩ := this
      exact LocalStore.trapped_passedBy hp hb
  · rw [State.trapEnter, if_pos hs]
    obtain ⟨hme, hkill⟩ := State.kill_kill ht cause pc val
    exact ⟨State.kill_task _ _ _ _, State.kill_regs _ _ _ _, hme, hkill⟩

end Sys2Proof.Machine
end

section
/-! PROOFS. The hand of a tile, patterns, the count queue, decrements and event sources (R131, R254-R256, R268, R290-R293): what MHAND, GSET,
CQPUSH, TDEC and EVSEL answer. -/

namespace Sys2Proof.Machine

open Sys2Proof

/-- A check that fails. -/
theorem ensure_trap {ok : Bool} (h : ok = false) (cause : BitVec 8) (val : Word) : ensure ok cause val = .trap cause val := by
  rw [ensure, h]; rfl

/-! ### MHAND -/

/-- The elements that a MHAND hands, row by row, each with its flags (R268). -/
def State.handed (s : State) (tile : BitVec 3) (row0 : BitVec 7) (cv : HConv) : List (Nat × Flags) :=
  (List.range (handRows cv)).flatMap fun q => (List.range 128).map fun j => handElt cv (s.core.tileWord tile.toNat (row0.toNat + q) j)

section
variable {s : State} {tile : BitVec 3} {row0 : BitVec 7} {cv : HConv}

theorem handRows_width : 64 / handRows cv * (handRows cv * 128) = 8192 := by cases cv <;> rfl

theorem State.handed_length : (s.handed tile row0 cv).length = handRows cv * 128 := by
  simp [State.handed]

/-- The rows follow one another, 128 elements each. -/
theorem flatMap_rows_getElem? {α : Type} (f : Nat → Nat → α) {n q j : Nat} (hq : q < n) (hj : j < 128) :
    ((List.range n).flatMap fun q => (List.range 128).map (f q))[128 * q + j]? = some (f q j) := by
  induction n generalizing q f with
  | zero => omega
  | succ n ih =>
    rw [List.range_succ_eq_map (n := n), List.flatMap_cons, List.flatMap_map]
    cases q with
    | zero => rw [List.getElem?_append_left (by simpa using hj)]; simp [hj]
    | succ q =>
      rw [List.getElem?_append_right (by simp; omega), List.length_map, List.length_range, show 128 * (q + 1) + j - 128 = 128 * q + j by omega]
      exact ih (fun q => f (q + 1)) (by omega)

theorem State.handed_get {q j : Nat} (hq : q < handRows cv) (hj : j < 128) :
    (s.handed tile row0 cv)[128 * q + j]? = some (handElt cv (s.core.tileWord tile.toNat (row0.toNat + q) j)) :=
  flatMap_rows_getElem? (fun q j => handElt cv (s.core.tileWord tile.toNat (row0.toNat + q) j)) hq hj

theorem State.mem_handed {x : Nat × Flags} :
    x ∈ s.handed tile row0 cv ↔ ∃ q < handRows cv, ∃ j < 128, handElt cv (s.core.tileWord tile.toNat (row0.toNat + q) j) = x := by
  simp [State.handed]

/-- Only the float conversions raise flags (R268). -/
theorem handElt_flags (h : cv = .raw ∨ cv = .i16 ∨ cv = .i8) (x : Nat) : (handElt cv x).2 = 0 := by
  obtain rfl | rfl | rfl := h <;> rfl

theorem State.tileWritten_iff {t : Nat} : s.tileWritten t = true ↔ ∃ c ∈ s.core.cmds, t ∈ c.wrts := by
  simp [State.tileWritten]

variable {e : BitVec 4}

theorem exec_mhand (h : ∀ c ∈ s.core.cmds, tile.toNat ∉ c.wrts) : exec (.mhand e tile row0 cv) s = .next (Claims.answer s 12
    (.rb e (BitVec.ofNat 8192 (joinBits (64 / handRows cv) ((s.handed tile row0 cv).map Prod.fst))))
    ((s.handed tile row0 cv).foldl (fun (fl : Flags) x => fl ||| x.2) 0)) := by
  have hfree : (!s.tileWritten tile.toNat) = true := by
    rw [Bool.not_eq_true', ← Bool.not_eq_true, State.tileWritten_iff]
    rintro ⟨c, hc, hw⟩
    exact h c hc hw
  change execMhand e tile row0 cv s = _
  rw [execMhand, waitFor_go hfree, State.issueWith_go, State.mark_send]
  rfl

theorem exec_mhand_written {c : Cmd} (hc : c ∈ s.core.cmds) (hw : tile.toNat ∈ c.wrts) (hp : s.core.issue.pass = false) :
    exec (.mhand e tile row0 cv) s = .next (Claims.waits s 0x04) := by
  change execMhand e tile row0 cv s = _
  rw [execMhand, State.tileWritten_iff.mpr ⟨c, hc, hw⟩, Bool.not_true, waitFor_hold rfl, State.issueWith_hold hp, Claims.waits]

theorem handed_element {q j : Nat} (hq : q < handRows cv) (hj : j < 128) :
    ((BitVec.ofNat 8192 (joinBits (64 / handRows cv) ((s.handed tile row0 cv).map Prod.fst))).extractLsb'
        (64 / handRows cv * (128 * q + j)) (64 / handRows cv)).toNat
      = (handElt cv (s.core.tileWord tile.toNat (row0.toNat + q) j)).1 % 2 ^ (64 / handRows cv) := by
  have hlen : ((s.handed tile row0 cv).map Prod.fst).length = handRows cv * 128 := by rw [List.length_map, State.handed_length]
  have hget : ((s.handed tile row0 cv).map Prod.fst)[128 * q + j]? = some (handElt cv (s.core.tileWord tile.toNat (row0.toNat + q) j)).1 := by
    rw [List.getElem?_map, State.handed_get hq hj]; rfl
  obtain ⟨hi, hval⟩ := List.getElem?_eq_some_iff.mp hget
  rw [BitVec.extractLsb'_toNat, toNat_ofNat_joinBits (by rw [hlen, handRows_width]), Nat.shiftRight_eq_div_pow, joinBits_field _ _ hi, hval]

theorem handed_flags {b : Nat} : ((s.handed tile row0 cv).foldl (fun (fl : Flags) x => fl ||| x.2) 0).getLsbD b = true ↔
    ∃ q < handRows cv, ∃ j < 128, (handElt cv (s.core.tileWord tile.toNat (row0.toNat + q) j)).2.getLsbD b = true := by
  rw [foldl_flags_getLsbD]
  simp [State.handed]

theorem handed_flags_zero (h : cv = .raw ∨ cv = .i16 ∨ cv = .i8) :
    (s.handed tile row0 cv).foldl (fun (fl : Flags) x => fl ||| x.2) 0 = 0 := by
  refine List.foldlRecOn (motive := fun fl => fl = 0) _ _ rfl fun fl hfl x hx => ?_
  obtain ⟨q, -, j, -, rfl⟩ := State.mem_handed.mp hx
  rw [hfl, handElt_flags h]; rfl

end

/-! ### Patterns, counts, decrements and event sources -/

theorem State.recordCheck_go {s : State} {va : Word} {e : TlbEntry} {d : Nat} (ht : Claims.translates s va 128 true e)
    (hr : region (Claims.at s va e).pa.toNat = .device d) : s.recordCheck va = .go := by
  rw [State.recordCheck, State.globalCheck_go ht, State.place_eq_at ht, hr, Verdict.go_and]
  exact ensure_go rfl _ _

section
variable {s : State} {a : BitVec 5} {ta ck : Bool} (ha : s.core.regs.sIsFull a = true)
include ha

theorem exec_gset_legal (g : BitVec 4) (h : patternOk (s.s a) = true) : exec (.gset a ta g) s = .next (Claims.answer s 1 (.g g (s.s a))) := by
  change execGset a ta g s = _
  rw [execGset, State.needS_go ha, ensure_go h, Verdict.go_and, State.issueWith_go, State.mark_send]

theorem exec_gset_illegal (g : BitVec 4) (h : patternOk (s.s a) = false) (hp : s.core.issue.pass = false) :
    exec (.gset a ta g) s = .next (Claims.traps s 0x01 (s.s a)) := by
  change execGset a ta g s = _
  rw [execGset, State.needS_go ha, ensure_trap h, Verdict.go_and, State.issueWith_trap hp, Claims.traps]

theorem exec_cqpush_room (hc : Claims.mayCommit s ck) (hroom : s.core.regs.countQ.length < 64) : exec (.cqpush a ta ck) s
    = .next (Claims.regsAt s { s.core.regs with countQ := s.core.regs.countQ ++ [(s.s a).setWidth 32] }) := by
  change execCqpush a ta ck s = _
  simp only [execCqpush, Verdict.all, State.needS_go ha, waitFor_go (decide_eq_true hroom), State.needCommit_go hc, Verdict.go_and,
    State.issueWith_go]
  rfl

theorem exec_cqpush_full (hfull : s.core.regs.countQ.length = 64) (hp : s.core.issue.pass = false) :
    exec (.cqpush a ta ck) s = .next (Claims.waits s 0x00) := by
  change execCqpush a ta ck s = _
  simp only [execCqpush, Verdict.all, State.needS_go ha, waitFor_hold (decide_eq_false (by omega : ¬ s.core.regs.countQ.length < 64)),
    Verdict.hold_and, Verdict.go_and, State.issueWith_hold hp, Claims.waits]

theorem exec_tdec_translated {e : TlbEntry} {d : Nat} (hc : Claims.mayCommit s ck) (ht : Claims.translates s (s.s a) 128 true e)
    (hr : region (Claims.at s (s.s a) e).pa.toNat = .device d) : exec (.tdec a ta ck) s = .next (State.refill (Claims.stored (s.releases 64)
      (.tdec ((s.s a).setWidth 48) (Claims.at s (s.s a) e).pa (Claims.at s (s.s a) e).key)) (s.s a) true) := by
  change execTdec a ta ck s = _
  simp only [execTdec, Verdict.all, State.needS_go ha, State.recordCheck_go ht hr, State.needCommit_go hc, Verdict.go_and,
    State.issueWith_go, State.mark_refill, State.place_eq_at ht, claims_stored_eq]
  rfl

theorem exec_evsel_legal (n : BitVec 3) (h : (s.s a).toNat < 16) :
    exec (.evsel a ta n) s = .next (Claims.answer s 1 (.evsel n ((s.s a).setWidth 8))) := by
  change execEvsel a ta n s = _
  rw [execEvsel, State.needS_go ha, ensure_go (decide_eq_true h), Verdict.go_and, State.issueWith_go, State.mark_send]

theorem exec_evsel_illegal (n : BitVec 3) (h : 16 ≤ (s.s a).toNat) (hp : s.core.issue.pass = false) :
    exec (.evsel a ta n) s = .next (Claims.traps s 0x01 (s.s a)) := by
  change execEvsel a ta n s = _
  rw [execEvsel, State.needS_go ha, ensure_trap (decide_eq_false (Nat.not_lt.mpr h)), Verdict.go_and, State.issueWith_trap hp, Claims.traps]

end

/-- Settles O38: MHAND by the list of elements that it hands, the others each by its checks. -/
theorem otherIssue : Obligations.OtherIssue := by
  unfold Obligations.OtherIssue
  refine fun s a ta ck => ⟨fun e tile row0 cv => ⟨fun h => ⟨_, _, exec_mhand h, ?_, ?_, ?_⟩, fun c hc hw => exec_mhand_written hc hw⟩,
    fun ha => ⟨fun g => ⟨exec_gset_legal ha g, exec_gset_illegal ha g⟩, exec_cqpush_room ha, exec_cqpush_full ha,
      fun e d => exec_tdec_translated ha, fun n => ⟨exec_evsel_legal ha n, exec_evsel_illegal ha n⟩⟩⟩
  · exact fun q hq j hj => handed_element hq hj
  · exact fun b _ => handed_flags
  · exact handed_flags_zero

end Sys2Proof.Machine
end

section
/-! PROOFS. The wake queue, semaphores and barriers (R276-R282): what WATCH, WAIT, the semaphore instructions and BAR answer, and the tokens
that a write pushes. -/

namespace Sys2Proof.Machine

open Sys2Proof

/-! ### The wake queue -/

section
variable {s : State} {a b d : BitVec 5} {ta tb : Bool} {n : BitVec 3}

theorem exec_watch_full (ha : s.core.regs.sIsFull a = true) (hb : s.core.regs.sIsFull b = true) : exec (.watch a b ta tb true n) s
    = s.issueWith (ensure (s.s b == 0 || decide ((s.s a).toNat + (s.s b).toNat ≤ s.window)) 0x09 (s.s a)) fun s =>
        s.send 1 (.watch n (some ((s.s a).toNat, (s.s b).toNat))) := by
  change execWatch a b ta tb true n s = _
  simp only [execWatch, if_pos, Verdict.all, State.needS_go ha, State.needS_go hb, Verdict.go_and, Verdict.and_go]

theorem exec_watch_arms (ha : s.core.regs.sIsFull a = true) (hb : s.core.regs.sIsFull b = true)
    (h : s.s b = 0 ∨ (s.s a).toNat + (s.s b).toNat ≤ s.window) :
    exec (.watch a b ta tb true n) s = .next (Claims.answer s 1 (.watch n (some ((s.s a).toNat, (s.s b).toNat)))) := by
  rw [exec_watch_full ha hb, ensure_go (by simpa using h), State.issueWith_go, State.mark_send]

theorem exec_watch_outside (ha : s.core.regs.sIsFull a = true) (hb : s.core.regs.sIsFull b = true) (h0 : s.s b ≠ 0)
    (h : s.window < (s.s a).toNat + (s.s b).toNat) (hp : s.core.issue.pass = false) :
    exec (.watch a b ta tb true n) s = .next (Claims.traps s 0x09 (s.s a)) := by
  have hbad : (s.s b == 0 || decide ((s.s a).toNat + (s.s b).toNat ≤ s.window)) = false := by
    rw [Bool.or_eq_false_iff, beq_eq_false_iff_ne, decide_eq_false_iff_not]
    exact ⟨h0, Nat.not_le.mpr h⟩
  rw [exec_watch_full ha hb, ensure_trap hbad, State.issueWith_trap hp, Claims.traps]

theorem exec_watch_off : exec (.watch a b ta tb false n) s = .next (Claims.answer s 1 (.watch n none)) := by
  change execWatch a b ta tb false n s = _
  rw [execWatch, if_neg Bool.false_ne_true, State.issueWith_go, State.mark_send]

theorem exec_wait_token (hd : s.core.regs.sIsFull d = true) {h : Word32} {q : List Word32} (hq : s.core.regs.wakeQ = h :: q) :
    exec (.wait d) s = .next (Claims.issued
      ((Claims.sends { s with core := { s.core with regs := { s.core.regs with wakeQ := q } } } 1 (.s d (h.setWidth 64))).observesToken h)) := by
  change execWait d s = _
  rw [execWait, State.destS_go hd, waitFor_go (by rw [hq]; rfl), Verdict.go_and, State.issueWith_go, claims_issued_eq, claims_sends_eq]
  simp only [hq, List.headD_cons, State.onRegs, List.drop_one, List.tail_cons]

theorem exec_wait_empty (hd : s.core.regs.sIsFull d = true) (hq : s.core.regs.wakeQ = []) (hp : s.core.issue.pass = false) :
    exec (.wait d) s = .next (Claims.waits s 0x07) := by
  change execWait d s = _
  rw [execWait, State.destS_go hd, waitFor_hold (by rw [hq]; rfl), Verdict.go_and, State.issueWith_hold hp, Claims.waits]

end

/-- What one comparator makes of a write. -/
def Core.wakeOne (wrote : List Nat) (x : Core) (i : Nat) : Core :=
  match (x.regs.comp.toList).getD i none with
  | none => x
  | some (lo, len) =>
    match wrote.find? (fun o => decide (lo ≤ o ∧ o < lo + len)) with
    | none => x
    | some o =>
      if 32 ≤ x.regs.wakeQ.length then
        { x with regs := { x.regs with status := x.regs.status ||| 32 }
                 ev := if x.regs.status.getLsbD 0 then x.ev else x.ev.zipWith (fun c src => if src = 0x0D#8 then c + 1 else c) x.evSrc }
      else { x with regs := { x.regs with wakeQ := x.regs.wakeQ ++ [BitVec.ofNat 32 (i * 2 ^ 28 + o)] } }

theorem Core.wake_eq (x : Core) (wrote : List Nat) : x.wake wrote = (List.range 8).foldl (Core.wakeOne wrote) x := rfl

theorem Core.wakeOne_none {wrote : List Nat} {x : Core} {i : Nat} (h : (x.regs.comp.toList).getD i none = none) : x.wakeOne wrote i = x := by
  rw [Core.wakeOne, h]

theorem Core.wakeOne_comp (wrote : List Nat) (x : Core) (i : Nat) : (x.wakeOne wrote i).regs.comp = x.regs.comp := by
  unfold Core.wakeOne
  split
  · rfl
  · split
    · rfl
    · split <;> rfl

/-- A fold whose steps keep a property and whose steps but one do nothing under it is that one step. -/
theorem foldl_only {α β : Type} {f : α → β → α} (P : α → Prop) {b : β} (hP : ∀ x c, P x → P (f x c)) (hf : ∀ x c, P x → c ≠ b → f x c = x) :
    ∀ {l : List β}, l.Nodup → b ∈ l → ∀ {x : α}, P x → l.foldl f x = f x b := by
  have hrest : ∀ {l : List β}, b ∉ l → ∀ {x : α}, P x → l.foldl f x = x := by
    intro l hb
    induction l with
    | nil => exact fun _ => rfl
    | cons c l ih =>
      intro x hx
      rw [List.foldl_cons, hf x c hx fun h => hb (h ▸ List.mem_cons_self), ih (fun h => hb (List.mem_cons_of_mem _ h)) hx]
  intro l hn hm
  induction l with
  | nil => simp at hm
  | cons c l ih =>
    intro x hx
    obtain ⟨hc, hn⟩ := List.nodup_cons.mp hn
    rw [List.foldl_cons]
    by_cases hcb : c = b
    · subst hcb
      exact hrest hc (hP _ _ hx)
    · rw [hf x c hx hcb]
      exact ih hn ((List.mem_cons.mp hm).resolve_left (Ne.symm hcb)) hx

/-- The lowest offset of a write in a range is the first of the rising list. -/
theorem find?_lowest {lo len o : Nat} {l r : List Nat} (hl : ∀ p ∈ l, p < lo ∨ lo + len ≤ p) (hlo : lo ≤ o) (hhi : o < lo + len) :
    (l ++ o :: r).find? (fun o => decide (lo ≤ o ∧ o < lo + len)) = some o := by
  rw [List.find?_append, List.find?_eq_none.mpr, Option.none_or, List.find?_cons_of_pos (by simp [hlo, hhi])]
  intro p hp
  rw [decide_eq_true_eq]
  have := hl p hp
  omega

section
variable {x : Core} {n : BitVec 3} {lo len : Nat} (h : x.regs.comp = (Vector.replicate 8 none).set n.toNat (some (lo, len)) n.isLt)
include h

theorem comparator_armed : (x.regs.comp.toList).getD n.toNat none = some (lo, len) := by
  rw [h, Vector.toList_set, List.getD_eq_getElem?_getD, List.getElem?_set_self (by simpa using n.isLt)]; rfl

theorem comparator_off {i : Nat} (hi : i ≠ n.toNat) : (x.regs.comp.toList).getD i none = none := by
  rw [h, Vector.toList_set, List.getD_eq_getElem?_getD, List.getElem?_set_ne (Ne.symm hi), ← List.getD_eq_getElem?_getD, Vector.toList_replicate,
    List.getD_eq_getElem?_getD, List.getElem?_replicate]
  split <;> rfl

/-- With one comparator armed a write meets that one. -/
theorem Core.wake_armed (wrote : List Nat) : x.wake wrote = x.wakeOne wrote n.toNat := by
  rw [Core.wake_eq]
  refine foldl_only (fun y => y.regs.comp = x.regs.comp) (fun y i hy => (Core.wakeOne_comp wrote y i).trans hy)
    (fun y i hy hi => Core.wakeOne_none ?_) List.nodup_range (List.mem_range.mpr n.isLt) rfl
  exact comparator_off (hy.trans h) hi

variable {o : Nat} {l r : List Nat} (hl : ∀ p ∈ l, p < lo ∨ lo + len ≤ p)
include hl

theorem Core.wake_missed : x.wake l = x := by
  have hnone : l.find? (fun o => decide (lo ≤ o ∧ o < lo + len)) = none := by
    rw [List.find?_eq_none]
    intro p hp
    rw [decide_eq_true_eq]
    have := hl p hp
    omega
  rw [Core.wake_armed h, Core.wakeOne, comparator_armed h]
  simp only [hnone]

variable (hlo : lo ≤ o) (hhi : o < lo + len)
include hlo hhi

theorem Core.wake_pushes (hq : x.regs.wakeQ.length < 32) : x.wake (l ++ o :: r)
    = { x with regs := { x.regs with wakeQ := x.regs.wakeQ ++ [BitVec.ofNat 32 (n.toNat * 2 ^ 28 + o)] } } := by
  rw [Core.wake_armed h, Core.wakeOne, comparator_armed h]
  simp only [find?_lowest hl hlo hhi]
  rw [if_neg (by omega)]

theorem Core.wake_overflows (hq : 32 ≤ x.regs.wakeQ.length) :
    (x.wake (l ++ o :: r)).regs = { x.regs with status := x.regs.status ||| 32 } := by
  rw [Core.wake_armed h, Core.wakeOne, comparator_armed h]
  simp only [find?_lowest hl hlo hhi]
  rw [if_pos hq]

end

/-- Settles O39: WATCH and WAIT by their checks, and the push by the one comparator that a write can meet. -/
theorem wakeQueue : Obligations.WakeQueue := by
  unfold Obligations.WakeQueue
  refine fun s a b d ta tb n => ⟨fun ha hb => ⟨exec_watch_arms ha hb, exec_watch_outside ha hb⟩, exec_watch_off,
    fun hd h q => exec_wait_token hd, fun hq hp hd => exec_wait_empty hd hq hp, fun x lo len o l r hx hl hlo hhi => ⟨?_, ?_, ?_⟩⟩
  · exact Core.wake_pushes hx hl hlo hhi
  · exact Core.wake_overflows hx hl hlo hhi
  · exact Core.wake_missed hx hl

/-! ### Semaphores -/

theorem addTarget_eq_iff (w : Word) (c : CoreRef) : addTarget w = c ↔ w.toNat % 2 ^ 8 = c.idx.toNat ∧ w.toNat / 2 ^ 8 % 4 = c.die.toNat := by
  obtain ⟨die, idx⟩ := c
  have hd : bits w 8 2 = w.toNat / 2 ^ 8 % 4 := by rw [bits, Nat.shiftRight_eq_div_pow]; rfl
  have hi : bits w 0 8 = w.toNat % 2 ^ 8 := rfl
  rw [addTarget, hd, hi, CoreRef.mk.injEq, ← BitVec.toNat_inj, ← BitVec.toNat_inj (n := 8), BitVec.toNat_ofNat, BitVec.toNat_ofNat,
    Nat.mod_mod, Nat.mod_mod, and_comm]

theorem addTarget_beq (w : Word) (c : CoreRef) :
    (addTarget w == c) = decide (w.toNat % 2 ^ 8 = c.idx.toNat ∧ w.toNat / 2 ^ 8 % 4 = c.die.toNat) := by
  rw [Bool.eq_iff_iff, beq_iff_eq, decide_eq_true_eq, addTarget_eq_iff]

section
variable {s : State} {a b d : BitVec 5} {ta tb ck : Bool} {n : BitVec 6}

section
variable (ha : s.core.regs.sIsFull a = true)
include ha

section
variable (hc : Claims.mayCommit s ck)
include hc

/-- With its register full and its commit class, SEMADD is a release and an add. -/
theorem exec_semadd_full : exec (.semadd a ta ck n) s = .next (State.mark (
    if (s.core.adds.any fun x => decide (x.target.toNat % 2 ^ 8 = s.me.idx.toNat ∧ x.target.toNat / 2 ^ 8 % 4 = s.me.die.toNat)) then
      { s.releases n.toNat with core := { (s.releases n.toNat).core with
        adds := s.core.adds ++ [⟨n, s.s a, asTarget s.me, s.writesAhead, s.job⟩] } }
    else if s.writesAhead = 0 then (s.releases n.toNat).setSem n (s.sem n + s.s a)
    else (s.releases n.toNat).queueOp (.semadd n (s.s a))) .issued) := by
  change execSemadd a ta ck n s = _
  simp only [execSemadd, State.needS_go ha, State.needCommit_go hc, Verdict.go_and, State.issueWith_go, ← addTarget_beq]
  rfl

variable (hm : s.core.adds.any (fun x => decide (x.target.toNat % 2 ^ 8 = s.me.idx.toNat ∧ x.target.toNat / 2 ^ 8 % 4 = s.me.die.toNat)) = false)

include hm in
theorem exec_semadd_performs (hw : ∀ e ∈ s.core.memq, e.op.isWrite = false) :
    exec (.semadd a ta ck n) s = .next (Claims.regsAt (s.releases n.toNat) (Claims.semIs (s.releases n.toNat) n (s.sem n + s.s a))) := by
  rw [exec_semadd_full ha hc, hm, if_neg Bool.false_ne_true, if_pos (s.writesAhead_eq_zero_iff.mpr hw)]
  rfl

include hm in
theorem exec_semadd_queues (hw : ∃ e ∈ s.core.memq, e.op.isWrite = true) :
    exec (.semadd a ta ck n) s = .next (Claims.stored (s.releases n.toNat) (.semadd n (s.s a))) := by
  rw [exec_semadd_full ha hc, hm, if_neg Bool.false_ne_true, if_neg (State.writesAhead_ne_zero hw), claims_stored_eq]

theorem exec_semadd_behind
    (hm : s.core.adds.any (fun x => decide (x.target.toNat % 2 ^ 8 = s.me.idx.toNat ∧ x.target.toNat / 2 ^ 8 % 4 = s.me.die.toNat)) = true) :
    exec (.semadd a ta ck n) s = .next (Claims.issued { s.releases n.toNat with core := { (s.releases n.toNat).core with
      adds := s.core.adds ++ [⟨n, s.s a, asTarget s.me, s.writesAhead, s.job⟩] } }) := by
  rw [exec_semadd_full ha hc, hm, if_pos rfl, claims_issued_eq]

end

/-- The semaphore after a take, an acquire (R279, R308). -/
def State.takeSem (s : State) (n : BitVec 6) (v : Word) : State :=
  (({ s with core := { s.core with regs := Claims.semIs s n (s.sem n - v) } } : State).observes [n.toNat]).acquire .package

theorem exec_semwt_takes (h : (s.s a).toInt ≤ (s.sem n).toInt) : exec (.semwt a ta n) s = .next (Claims.issued (s.takeSem n (s.s a))) := by
  change execSemwt a ta n s = _
  rw [execSemwt, State.needS_go ha, waitFor_go (decide_eq_true h), Verdict.go_and, State.issueWith_go, claims_issued_eq]
  rfl

theorem exec_semwt_holds (h : (s.sem n).toInt < (s.s a).toInt) (hp : s.core.issue.pass = false) :
    exec (.semwt a ta n) s = .next (Claims.waits s 0x07) := by
  change execSemwt a ta n s = _
  rw [execSemwt, State.needS_go ha, waitFor_hold (decide_eq_false (Int.not_le.mpr h)), Verdict.go_and, State.issueWith_hold hp, Claims.waits]

theorem exec_semset_full : exec (.semset a ta n) s = .next (Claims.regsAt s (Claims.semIs s n (s.s a))) := by
  change execSemset a ta n s = _
  rw [execSemset, State.needS_go ha, State.issueWith_go]
  rfl

variable (hd : s.core.regs.sIsFull d = true)
include hd

theorem exec_semtst_full : exec (.semtst d a ta n) s = .next (State.mark (
    if (s.s a).toInt ≤ (s.sem n).toInt then (s.takeSem n (s.s a)).send 1 (.s d 1) else s.send 1 (.s d 0)) .issued) := by
  change execSemtst d a ta n s = _
  rw [execSemtst, State.needS_go ha, State.destS_go hd, Verdict.go_and, State.issueWith_go]
  rfl

theorem exec_semtst_takes (h : (s.s a).toInt ≤ (s.sem n).toInt) :
    exec (.semtst d a ta n) s = .next (Claims.issued (Claims.sends (s.takeSem n (s.s a)) 1 (.s d 1))) := by
  rw [exec_semtst_full ha hd, if_pos h, claims_issued_eq, claims_sends_eq]

theorem exec_semtst_fails (h : (s.sem n).toInt < (s.s a).toInt) : exec (.semtst d a ta n) s = .next (Claims.answer s 1 (.s d 0)) := by
  rw [exec_semtst_full ha hd, if_neg (Int.not_le.mpr h), State.mark_send]

end

section
variable (ha : s.core.regs.sIsFull a = true) (hb : s.core.regs.sIsFull b = true)
include ha hb

theorem exec_semaddRemote_legal (hc : Claims.mayCommit s ck) (h10 : (s.s b).toNat < 2 ^ 10) (h144 : (s.s b).toNat % 2 ^ 8 < 144) :
    let w := s.releases (if (s.s b).toNat % 2 ^ 8 = s.me.idx.toNat ∧ (s.s b).toNat / 2 ^ 8 % 4 = s.me.die.toNat then n.toNat else 64)
    exec (.semaddRemote a b ta tb ck n) s = .next (Claims.issued { w with core := { w.core with
      adds := s.core.adds ++ [⟨n, s.s a, s.s b, s.writesAhead, s.job⟩] } }) := by
  have hok : decide ((s.s b).toNat < 2 ^ 10 ∧ bits (s.s b) 0 8 < 144) = true := decide_eq_true ⟨h10, h144⟩
  change execSemaddRemote a b ta tb ck n s = _
  simp only [execSemaddRemote, Verdict.all, State.needS_go ha, State.needS_go hb, ensure_go hok, State.needCommit_go hc, Verdict.go_and,
    State.issueWith_go, addTarget_eq_iff]
  rfl

theorem exec_semaddRemote_illegal (h : ¬ ((s.s b).toNat < 2 ^ 10 ∧ (s.s b).toNat % 2 ^ 8 < 144)) (hp : s.core.issue.pass = false) :
    exec (.semaddRemote a b ta tb true n) s = .next (Claims.traps s 0x01 (s.s b)) := by
  have hbad : decide ((s.s b).toNat < 2 ^ 10 ∧ bits (s.s b) 0 8 < 144) = false := decide_eq_false h
  change execSemaddRemote a b ta tb true n s = _
  simp only [execSemaddRemote, Verdict.all, State.needS_go ha, State.needS_go hb, ensure_trap hbad, State.needCommit_go (Or.inr rfl),
    Verdict.go_and, Verdict.and_go, State.issueWith_trap hp, Claims.traps]

end

theorem exec_semrd_full (hd : s.core.regs.sIsFull d = true) : exec (.semrd d n) s = .next (Claims.outstanding s d (.value d (s.sem n) 0)) := by
  change execSemrd d n s = _
  exact State.issueWith_produce (State.destS_go hd) rfl

end

/-- Settles O40: the adds by what stands before them, the takes by whether the semaphore is large enough. -/
theorem semaphores : Obligations.Semaphores := by
  unfold Obligations.Semaphores
  intro s a b d ta tb ck n ha hb hd v now mine z w
  refine ⟨exec_semadd_performs ha, exec_semadd_queues ha, exec_semadd_behind ha, exec_semaddRemote_legal ha hb, exec_semaddRemote_illegal ha hb,
    fun h => ⟨exec_semwt_takes ha h, exec_semtst_takes ha hd h⟩, fun h => ⟨exec_semtst_fails ha hd h, exec_semwt_holds ha h⟩,
    exec_semset_full ha, exec_semrd_full hd⟩

/-! ### Barriers -/

theorem bar_arrives {s : State} {l : BitVec 3} (hn : s.core.regs.arrived[l.toNat]'l.isLt % 2 = 1 ∨ ∀ e ∈ s.core.memq, e.op.isWrite = false) :
    ¬ (s.core.regs.arrived[l.toNat]'l.isLt % 2 = 0 ∧ s.writesAhead ≠ 0) := by
  rintro ⟨h0, hw⟩
  obtain h1 | hall := hn
  · omega
  · exact hw (s.writesAhead_eq_zero_iff.mpr hall)

section
variable {s : State} {l : BitVec 3} {t : Task} (ht : s.core.task = some t)
include ht

theorem exec_bar_illegal (h : t.barLevel l.toNat = false) (hp : s.core.issue.pass = false) :
    exec (.bar l) s = .next (Claims.traps s 0x01 (l.setWidth 64)) := by
  change execBar l s = _
  simp only [execBar, ht, h, Bool.not_false, if_true, State.issueWith_trap hp, Claims.traps]

variable (h : t.barLevel l.toNat = true)
include h

/-- On a level with a barrier, BAR waits for the task's writes where it has not arrived, and then for the others. -/
theorem exec_bar_legal : exec (.bar l) s
    = if s.core.regs.arrived[l.toNat]'l.isLt % 2 = 0 ∧ s.writesAhead ≠ 0 then
        s.issueWith (.hold 0x07) fun s => s.passBar t l (s.core.regs.arrived[l.toNat]'l.isLt / 2 * 2 + 2)
      else if s.allArrived t l (s.core.regs.arrived[l.toNat]'l.isLt / 2 + 1) then
        s.issueWith .go fun u => u.passBar t l (s.core.regs.arrived[l.toNat]'l.isLt / 2 * 2 + 2)
      else (s.setArrived l (s.core.regs.arrived[l.toNat]'l.isLt / 2 * 2 + 1)).issueWith (.hold 0x07) fun u =>
        u.passBar t l (s.core.regs.arrived[l.toNat]'l.isLt / 2 * 2 + 2) := by
  change execBar l s = _
  simp only [execBar, ht, h, Bool.not_true, if_neg Bool.false_ne_true]
  split
  · simp only [State.issueWith]
  · rfl

theorem exec_bar_unperformed (hn : s.core.regs.arrived[l.toNat]'l.isLt % 2 = 0) (hw : ∃ e ∈ s.core.memq, e.op.isWrite = true)
    (hp : s.core.issue.pass = false) : exec (.bar l) s = .next (Claims.waits s 0x07) := by
  rw [exec_bar_legal ht h, if_pos ⟨hn, State.writesAhead_ne_zero hw⟩, State.issueWith_hold hp, Claims.waits]

variable (hn : s.core.regs.arrived[l.toNat]'l.isLt % 2 = 1 ∨ ∀ e ∈ s.core.memq, e.op.isWrite = false)
include hn

theorem exec_bar_passes (hall : s.allArrived t l (s.core.regs.arrived[l.toNat]'l.isLt / 2 + 1) = true) :
    exec (.bar l) s = .next (Claims.issued (s.passBar t l (s.core.regs.arrived[l.toNat]'l.isLt / 2 * 2 + 2))) := by
  rw [exec_bar_legal ht h, if_neg (bar_arrives hn), if_pos hall, State.issueWith_go, claims_issued_eq]

theorem exec_bar_waits (hall : s.allArrived t l (s.core.regs.arrived[l.toNat]'l.isLt / 2 + 1) = false) (hp : s.core.issue.pass = false) :
    exec (.bar l) s = .next (Claims.waits (s.setArrived l (s.core.regs.arrived[l.toNat]'l.isLt / 2 * 2 + 1)) 0x07) := by
  rw [exec_bar_legal ht h, if_neg (bar_arrives hn), if_neg (by rw [hall]; exact Bool.false_ne_true),
    State.issueWith_hold (s := s.setArrived l _) hp, Claims.waits]

end

/-- Settles O41: BAR by whether the level has a barrier, whether the task arrives, and whether all have arrived. -/
theorem barrier : Obligations.Barrier := by
  unfold Obligations.Barrier
  intro s l t ht now arrive
  exact ⟨fun h => ⟨fun hn => ⟨exec_bar_passes ht h hn, exec_bar_waits ht h hn⟩, exec_bar_unperformed ht h⟩, exec_bar_illegal ht⟩

end Sys2Proof.Machine
end

section
/-! PROOFS. Fences, drains and CWAIT (R283-R285, R302-R307): what they wait for, what a FENCE orders, and the L1 lines that it drops. -/

namespace Sys2Proof.Machine

open Sys2Proof

/-! ### What a FENCE orders -/

/-- Every scope contains the S and V paths (R302, R303). -/
theorem scopePaths_low (sc : Scope) {k : Nat} (hk : k ≤ 1) : (scopePaths sc).getLsbD k = true := by
  obtain rfl | rfl : k = 0 ∨ k = 1 := by omega
  · cases sc <;> rfl
  · cases sc <;> rfl

/-- A bit that two of a FENCE's paths both carry. -/
theorem and_scopePaths_low (x : BitVec 8) (sc : Scope) {k : Nat} (hk : k ≤ 1) : (x &&& scopePaths sc).getLsbD k = x.getLsbD k := by
  rw [BitVec.getLsbD_and, scopePaths_low sc hk, Bool.and_true]

/-- An access of an earlier bundle, on an S or V path that both masks name, is passed by no later access on such a path (R305). -/
theorem ScratchAccess.fence_passedBy {a b : ScratchAccess} {f g : BitVec 8} (hnow : (a.fence f g).now = false) (ha : (a.fence f g).path.toNat ≤ 1)
    (hfa : f.getLsbD (a.fence f g).path.toNat = true) (hga : g.getLsbD (a.fence f g).path.toNat = true)
    (hfb : f.getLsbD b.path.toNat = true) (hgb : g.getLsbD b.path.toNat = true) : (a.fence f g).passedBy b = false := by
  change a.now = false at hnow
  change a.path.toNat ≤ 1 at ha
  change f.getLsbD a.path.toNat = true at hfa
  change g.getLsbD a.path.toNat = true at hga
  have hclosed : (a.fence f g).closed.getLsbD b.path.toNat = true := by
    simp only [ScratchAccess.fence, hnow, hfa, hga, ha, Bool.false_or, Bool.not_true, Bool.false_eq_true, if_false, if_true,
      BitVec.getLsbD_or, BitVec.getLsbD_and, hfb, hgb, Bool.true_or, Bool.or_true, Bool.and_true]
  simp only [ScratchAccess.passedBy, hclosed, Bool.not_true, Bool.and_false, Bool.false_and]

/-! ### Lines that leave the L1 -/

theorem Sparse.find?_filter {β : Type} (m : Sparse β) (p : Nat → Bool) (k : Nat) :
    Sparse.find? (m.filter fun e => p e.1) k = if p k then Sparse.find? m k else none := by
  induction m with
  | nil => simp [Sparse.find?]
  | cons e m ih =>
    obtain ⟨a, v⟩ := e
    rw [List.filter_cons]
    by_cases hk : k = a
    · subst hk
      by_cases hp : p k = true
      · simp only [hp, if_pos, Sparse.find?]
      · rw [if_neg hp, ih, if_neg hp, if_neg hp]
    · split
      · simp only [Sparse.find?, if_neg hk, ih]
      · rw [ih]; simp only [Sparse.find?, if_neg hk]

theorem Core.dropStale_l1 (x : Core) (src : BitVec 8) (k : Nat) : Sparse.find? (x.dropStale src).l1 k
    = if ∃ p : BitVec 3, src.getLsbD p.toNat = true ∧ (p, k) ∈ x.stale then none else Sparse.find? x.l1 k := by
  have h := Sparse.find?_filter x.l1 (fun a => !x.stale.any fun p => src.getLsbD p.1.toNat && p.2 == a) k
  have hiff : (!x.stale.any fun p => src.getLsbD p.1.toNat && p.2 == k) = true ↔
      ¬ ∃ p : BitVec 3, src.getLsbD p.toNat = true ∧ (p, k) ∈ x.stale := by
    rw [Bool.not_eq_true', ← Bool.not_eq_true, List.any_eq_true, not_iff_not]
    constructor
    · rintro ⟨⟨p, l⟩, hm, hp⟩
      rw [Bool.and_eq_true, beq_iff_eq] at hp
      obtain ⟨hp, rfl⟩ := hp
      exact ⟨p, hp, hm⟩
    · rintro ⟨p, hp, hm⟩
      exact ⟨(p, k), hm, by rw [hp, beq_self_eq_true]; rfl⟩
  refine h.trans ?_
  by_cases hs : ∃ p : BitVec 3, src.getLsbD p.toNat = true ∧ (p, k) ∈ x.stale
  · rw [if_neg (fun q => hiff.mp q hs), if_pos hs]
  · rw [if_pos (hiff.mpr hs), if_neg hs]

theorem State.dropStale_unfused {s : State} (h : s.fusedCluster s.me = false) (f : BitVec 8) :
    s.dropStale f = { s with core := s.core.dropStale f } := by
  rw [State.dropStale, if_neg (by rw [h]; exact Bool.false_ne_true)]

/-! ### FENCE -/

section
variable {s : State} {src dst : BitVec 8} {sc : Scope}

/-- A FENCE whose task has lost no access makes its four checks. -/
theorem exec_fence_checks (h : src.getLsbD 0 = true → ∀ e ∈ s.core.memq, e.lost = false) : exec (.fence src dst sc) s
    = s.issueWith (.all [
        waitFor (!src.getLsbD 0 || (s.core.memq.all (fun e => e.op.isValue) && !s.pathDecs false)) 0x07,
        waitFor (!src.getLsbD 3 || !s.pathDecs true) 0x07,
        waitFor (!src.getLsbD 6 || !s.mySfx) 0x07,
        waitFor (!src.getLsbD 7 || (s.dev.hostHeld.isEmpty && s.dev.tdecQ.isEmpty && !s.dev.decs.any fun d => d.host && !d.fired)) 0x07])
      fun s => s.fence src dst sc := by
  have hlost : (src.getLsbD 0 && s.core.lostAccess && !s.core.issue.pass) = false := by
    cases h0 : src.getLsbD 0 with
    | false => rfl
    | true =>
      have : s.core.lostAccess = false := by simpa [Core.lostAccess] using h h0
      rw [this]; rfl
  change execFence src dst sc s = _
  rw [execFence, if_neg (by rw [hlost]; exact Bool.false_ne_true)]

theorem State.pathDecs_false_iff {eng : Bool} :
    s.pathDecs eng = false ↔ ∀ x ∈ s.dev.decs, x.core = some s.me → x.eng.isSome = eng → x.fired = true := by
  simp only [State.pathDecs, List.any_eq_false, Bool.and_eq_true, beq_iff_eq, Bool.not_eq_true', not_and, Bool.not_eq_false, and_imp]

theorem exec_fence_done
    (h0 : src.getLsbD 0 = true → (∀ e ∈ s.core.memq, e.op.isValue = true ∧ e.lost = false) ∧
      ∀ x ∈ s.dev.decs, x.core = some s.me → x.eng = none → x.fired = true)
    (h3 : src.getLsbD 3 = true → ∀ x ∈ s.dev.decs, x.core = some s.me → x.eng ≠ none → x.fired = true)
    (h6 : src.getLsbD 6 = true → ∀ o ∈ (s.die s.me.die).sfxOps, o.core ≠ s.me.idx)
    (h7 : src.getLsbD 7 = true → s.dev.hostHeld = [] ∧ s.dev.tdecQ = [] ∧ ∀ x ∈ s.dev.decs, x.host = true → x.fired = true) :
    exec (.fence src dst sc) s = .next (Claims.issued
      ((if dst.getLsbD 0 then s.dropStale (src &&& scopePaths sc) else s).fenceLocal (src &&& scopePaths sc) (dst &&& scopePaths sc))) := by
  have c0 : (!src.getLsbD 0 || (s.core.memq.all (fun e => e.op.isValue) && !s.pathDecs false)) = true := by
    cases hs : src.getLsbD 0 with
    | false => rfl
    | true =>
      obtain ⟨hm, hd⟩ := h0 hs
      have hv : s.core.memq.all (fun e => e.op.isValue) = true := List.all_eq_true.mpr fun e he => (hm e he).1
      rw [hv, State.pathDecs_false_iff.mpr fun x hx hc he => hd x hx hc (Option.isSome_eq_false_iff.mp he |> Option.isNone_iff_eq_none.mp)]
      rfl
  have c3 : (!src.getLsbD 3 || !s.pathDecs true) = true := by
    cases hs : src.getLsbD 3 with
    | false => rfl
    | true =>
      rw [State.pathDecs_false_iff.mpr fun x hx hc he => h3 hs x hx hc (Option.isSome_iff_ne_none.mp he)]
      rfl
  have c6 : (!src.getLsbD 6 || !s.mySfx) = true := by
    cases hs : src.getLsbD 6 with
    | false => rfl
    | true => rw [State.mySfx_eq_false (h6 hs)]; rfl
  have c7 : (!src.getLsbD 7 || (s.dev.hostHeld.isEmpty && s.dev.tdecQ.isEmpty && !s.dev.decs.any fun d => d.host && !d.fired)) = true := by
    cases hs : src.getLsbD 7 with
    | false => rfl
    | true =>
      obtain ⟨hh, ht, hd⟩ := h7 hs
      have : (s.dev.decs.any fun d => d.host && !d.fired) = false := by simpa using hd
      rw [hh, ht, this]; rfl
  rw [exec_fence_checks fun hs e he => ((h0 hs).1 e he).2, Verdict.all, waitFor_go c0, Verdict.all, waitFor_go c3, Verdict.all, waitFor_go c6,
    Verdict.all, waitFor_go c7, Verdict.all, Verdict.go_and, Verdict.go_and, Verdict.go_and, Verdict.go_and, State.issueWith_go, claims_issued_eq,
    State.fence, and_scopePaths_low dst sc (Nat.zero_le 1)]

/-- Of checks that hold with one code or pass, one that holds decides. -/
theorem Verdict.all_hold {code : BitVec 8} {l : List Bool} (h : false ∈ l) : Verdict.all (l.map fun ok => waitFor ok code) = .hold code := by
  induction l with
  | nil => simp at h
  | cons ok l ih =>
    rw [List.map_cons, Verdict.all]
    cases ok with
    | false => rw [waitFor_hold rfl, Verdict.hold_and]
    | true => rw [waitFor_go rfl, Verdict.go_and, ih (by simpa using h)]

theorem exec_fence_holds (hl : ∀ e ∈ s.core.memq, e.lost = false) (hp : s.core.issue.pass = false)
    (h : (!src.getLsbD 0 || (s.core.memq.all (fun e => e.op.isValue) && !s.pathDecs false)) = false ∨ (!src.getLsbD 3 || !s.pathDecs true) = false) :
    exec (.fence src dst sc) s = .next (Claims.waits s 0x07) := by
  have hv := Verdict.all_hold (code := 0x07) (l := [!src.getLsbD 0 || (s.core.memq.all (fun e => e.op.isValue) && !s.pathDecs false),
    !src.getLsbD 3 || !s.pathDecs true, !src.getLsbD 6 || !s.mySfx,
    !src.getLsbD 7 || (s.dev.hostHeld.isEmpty && s.dev.tdecQ.isEmpty && !s.dev.decs.any fun d => d.host && !d.fired)])
    (by obtain h | h := h <;> rw [h] <;> simp)
  simp only [List.map_cons, List.map_nil] at hv
  rw [exec_fence_checks fun _ => hl, hv, State.issueWith_hold hp, Claims.waits]

theorem exec_fence_access (h0 : src.getLsbD 0 = true) (hm : ∃ e ∈ s.core.memq, e.op.isValue = false) (hl : ∀ e ∈ s.core.memq, e.lost = false)
    (hp : s.core.issue.pass = false) : exec (.fence src dst sc) s = .next (Claims.waits s 0x07) := by
  obtain ⟨e, he, hv⟩ := hm
  have : s.core.memq.all (fun e => e.op.isValue) = false := List.all_eq_false.mpr ⟨e, he, by rw [hv]; exact Bool.false_ne_true⟩
  exact exec_fence_holds hl hp (.inl (by rw [h0, this]; rfl))

theorem exec_fence_decrement {x : Dec} (hx : x ∈ s.dev.decs) (hc : x.core = some s.me) (hf : x.fired = false)
    (h : src.getLsbD (if x.eng.isSome then 3 else 0) = true) (hl : ∀ e ∈ s.core.memq, e.lost = false) (hp : s.core.issue.pass = false) :
    exec (.fence src dst sc) s = .next (Claims.waits s 0x07) := by
  have hd : s.pathDecs x.eng.isSome = true := by
    rw [← Bool.not_eq_false, State.pathDecs_false_iff]
    intro hall
    exact Bool.false_ne_true (hf.symm.trans (hall x hx hc rfl))
  refine exec_fence_holds hl hp ?_
  cases he : x.eng.isSome with
  | false => rw [he] at hd h; exact .inl (by rw [hd, show src.getLsbD 0 = true from h]; simp)
  | true => rw [he] at hd h; exact .inr (by rw [hd, show src.getLsbD 3 = true from h]; rfl)

end

/-! ### DRAIN and CWAIT -/

section
variable {s : State} {sc : Scope}

/-- A DRAIN whose task has nothing outstanding. -/
theorem State.drained_of (hc : s.core.cmds = []) (hm : ∀ e ∈ s.core.memq, e.op.isWrite = false) (hd : ∀ x ∈ s.dev.decs, x.core ≠ some s.me)
    (ha : s.core.adds = []) (hx : ∀ o ∈ (s.die s.me.die).sfxOps, o.core ≠ s.me.idx) : s.drained = true := by
  have hw : s.core.memq.all (fun e => !e.op.isWrite) = true := by simpa using hm
  have hdec : s.myDecs = false := by simpa [State.myDecs] using hd
  rw [State.drained, hc, hw, hdec, ha, State.mySfx_eq_false hx]; rfl

theorem exec_drain_silent (h : s.drained = true) (hw : s.core.lostWrites = []) (ht : s.core.lostTokens = []) (ha : s.core.lostAdds = []) :
    exec (.drain sc) s = .next (Claims.same s) := by
  change execDrain sc s = _
  rw [execDrain, h, Bool.not_true, if_neg Bool.false_ne_true, State.drainReport, hw, ht, ha]
  exact State.issueWith_go.trans (by rw [claims_same_eq])

theorem exec_drain_reports (h : s.drained = true) {va : Word} {r : List Word} (hw : s.core.lostWrites = va :: r) (hp : s.core.issue.pass = false) :
    exec (.drain sc) s = .next (Claims.traps { s with core := { s.core with lostWrites := r } } 0x0A va) := by
  have hr : s.core.reported = { s.core with lostWrites := r } := by rw [Core.reported, hw]; rfl
  change execDrain sc s = _
  rw [execDrain, h, Bool.not_true, if_neg Bool.false_ne_true, State.drainReport, hw, hr]
  exact (State.issueWith_trap (s := { s with core := { s.core with lostWrites := r } }) hp).trans (by rw [Claims.traps])

theorem exec_drain_waits (h : s.drained = false) (hl : ∀ e ∈ s.core.memq, e.lost = false) (hp : s.core.issue.pass = false) :
    exec (.drain sc) s = .next (Claims.waits s 0x07) := by
  have hlost : s.core.lostWrite = false := by
    refine List.any_eq_false.mpr fun e he => ?_
    rw [hl e he]; exact Bool.false_ne_true
  change execDrain sc s = _
  rw [execDrain, h, Bool.not_false, if_pos rfl, hlost, if_neg Bool.false_ne_true, State.issueWith_hold hp, Claims.waits]

theorem exec_cwait_done {n : BitVec 6} (h : if n = 0 then s.core.cmds = [] else ∀ c ∈ s.core.cmds, c.cid ≠ n) :
    exec (.cwait n) s = .next (Claims.same s) := by
  have hdone : (if n = 0 then s.core.cmds.isEmpty else !s.cidBusy n) = true := by
    by_cases hn : n = 0
    · rw [if_pos hn] at h ⊢; rw [h]; rfl
    · rw [if_neg hn] at h ⊢; simpa [State.cidBusy] using h
  change execCwait n s = _
  rw [execCwait, waitFor_go hdone, State.issueWith_go, claims_same_eq]

theorem exec_cwait_waits {n : BitVec 6} (h : ∃ c ∈ s.core.cmds, n = 0 ∨ c.cid = n) (hp : s.core.issue.pass = false) :
    exec (.cwait n) s = .next (Claims.waits s 0x00) := by
  obtain ⟨c, hc, hn⟩ := h
  have hbusy : (if n = 0 then s.core.cmds.isEmpty else !s.cidBusy n) = false := by
    by_cases h0 : n = 0
    · rw [if_pos h0, List.isEmpty_eq_false_iff]; exact List.ne_nil_of_mem hc
    · rw [if_neg h0]
      have : s.cidBusy n = true := List.any_eq_true.mpr ⟨c, hc, beq_iff_eq.mpr (hn.resolve_left h0)⟩
      rw [this]; rfl
  change execCwait n s = _
  rw [execCwait, waitFor_hold hbusy, State.issueWith_hold hp, Claims.waits]

end

/-- Settles O42: FENCE by its four checks, what it orders access by access, DRAIN and CWAIT by what is outstanding. -/
theorem fencesAndDrains : Obligations.FencesAndDrains := by
  unfold Obligations.FencesAndDrains
  intro s src dst sc n f g
  refine ⟨exec_fence_done, fun p q hp hq hk b hb => ?_, fun hc => ⟨?_, ?_, ?_⟩, exec_fence_access, fun x hx hc hf h => exec_fence_decrement hx hc hf h,
    fun hc hm hd ha hx => ⟨exec_drain_silent (State.drained_of hc hm hd ha hx), fun va r => exec_drain_reports (State.drained_of hc hm hd ha hx)⟩,
    fun hc => exec_drain_waits ?_, exec_cwait_done, exec_cwait_waits⟩
  · obtain ⟨hsp, hdp⟩ := hk p.toNat (by simp)
    obtain ⟨hsq, hdq⟩ := hk q.toNat (by simp)
    have ordered (a : ScratchAccess) (ha : (a.fence f g).path = p) (hn : (a.fence f g).now = false) : (a.fence f g).passedBy b = false :=
      ScratchAccess.fence_passedBy hn (ha ▸ hp) (by rw [ha, and_scopePaths_low _ _ hp, hsp]) (by rw [ha, and_scopePaths_low _ _ hp, hdp])
        (by rw [hb, and_scopePaths_low _ _ hq, hsq]) (by rw [hb, and_scopePaths_low _ _ hq, hdq])
    refine ⟨fun t ht => ?_, fun t ht => ?_⟩
    · obtain ⟨u, -, rfl⟩ := List.mem_map.mp ht
      exact ordered u.acc
    · obtain ⟨u, -, rfl⟩ := List.mem_map.mp ht
      exact ordered u.acc
  · rw [State.dropStale_unfused hc]; rfl
  · rw [State.dropStale_unfused hc]
  · rw [State.dropStale_unfused hc]; exact Core.dropStale_l1 s.core f
  · have : s.core.cmds.isEmpty = false := List.isEmpty_eq_false_iff.mpr hc
    rw [State.drained, this]; rfl

end Sys2Proof.Machine
end

section
/-! PROOFS. Reads and writes of the local scratchpad (R126, R132, R152, R201, R274, R305): the checks on an operand, what an access reads and
what it notes, and what an issued load or store leaves. -/

namespace Sys2Proof.Machine

open Sys2Proof

/-! ### The checks on a local operand -/

theorem windowBase_toNat : windowBase.toNat = 0xF00000000000 := rfl

theorem Core.window_le (x : Core) (c : Bool) : x.window c ≤ 0x200000 := by
  unfold Core.window
  split
  · decide
  · split
    · split <;> decide
    · decide

theorem windowOff?_eq_some {ea : Word} (h1 : 0xF00000000000 ≤ ea.toNat) (h2 : ea.toNat < 0xF00000200000) :
    windowOff? ea = some (ea.toNat - 0xF00000000000) := by
  rw [windowOff?, windowBase_toNat, if_pos ⟨h1, h2⟩]

section
variable {s : State} {ea : Word} {n align : Nat}

theorem windowOff?_inWindow (h : Claims.inWindow s ea n align) (hn : 0 < n) : windowOff? ea = some (ea.toNat - 0xF00000000000) := by
  obtain ⟨-, hlo, hhi⟩ := h
  have := s.core.window_le s.me.isComp
  exact windowOff?_eq_some hlo (by omega)

theorem State.localCheck_go (h : Claims.inWindow s ea n align) (hn : 0 < n) : s.localCheck ea n align = .go := by
  have ho := windowOff?_inWindow h hn
  obtain ⟨halign, hlo, hhi⟩ := h
  have hfit : ea.toNat - 0xF00000000000 + n ≤ s.core.window s.me.isComp := by omega
  rw [State.localCheck, if_neg (not_not.mpr halign), ho]
  exact ensure_go (decide_eq_true hfit) _ _

theorem State.localCheck_misaligned (h : ea.toNat % align ≠ 0) : s.localCheck ea n align = .trap 0x07 ea := by
  rw [State.localCheck, if_pos h]

theorem State.localCheck_outside (halign : ea.toNat % align = 0) (h : ¬ Claims.inWindow s ea n align) : s.localCheck ea n align = .trap 0x09 ea := by
  rw [State.localCheck, if_neg (not_not.mpr halign)]
  by_cases hw : windowBase.toNat ≤ ea.toNat ∧ ea.toNat < windowBase.toNat + 0x200000
  · have ho : windowOff? ea = some (ea.toNat - 0xF00000000000) := by rw [windowOff?, if_pos hw, windowBase_toNat]
    rw [ho]
    refine ensure_trap (decide_eq_false fun hfit => h ⟨halign, ?_, ?_⟩) _ _
    · exact windowBase_toNat ▸ hw.1
    · have hlo : 0xF00000000000 ≤ ea.toNat := windowBase_toNat ▸ hw.1
      change ea.toNat - 0xF00000000000 + n ≤ s.core.window s.me.isComp at hfit
      omega
  · rw [windowOff?, if_neg hw]

/-- The units of 64 bytes that a range meets. -/
def unitsOf (off n : Nat) : List Nat := (List.range ((off + n + 63) / 64 - off / 64)).map fun i => off / 64 + i

theorem mem_unitsOf {off n u : Nat} : u ∈ unitsOf off n ↔ off / 64 ≤ u ∧ u < (off + n + 63) / 64 := by
  simp only [unitsOf, List.mem_map, List.mem_range]
  constructor
  · rintro ⟨i, hi, rfl⟩; omega
  · rintro ⟨h1, h2⟩; exact ⟨u - off / 64, by omega, by omega⟩

theorem State.unitsGood_eq (s : State) (off n : Nat) : s.unitsGood off n = match (unitsOf off n).find? fun u => s.core.badUnits.contains u with
    | some u => .trap 0x0A (windowBase + BitVec.ofNat 64 (64 * u))
    | none => .go := rfl

theorem State.unitsGood_go {off n : Nat} (h : ∀ u ∈ s.core.badUnits, u < off / 64 ∨ (off + n + 63) / 64 ≤ u) : s.unitsGood off n = .go := by
  have hnone : ((unitsOf off n).find? fun u => s.core.badUnits.contains u) = none := by
    rw [List.find?_eq_none]
    intro u hu hb
    have hm := mem_unitsOf.mp hu
    have := h u (List.contains_iff_mem.mp hb)
    omega
  rw [State.unitsGood_eq, hnone]

/-- The first unit of a range that holds an error is reported (R153, R201). -/
theorem State.unitsGood_trap {off n u : Nat} (hu : u ∈ s.core.badUnits) (h1 : off / 64 ≤ u) (h2 : u < (off + n + 63) / 64)
    (hmin : ∀ k ∈ s.core.badUnits, off / 64 ≤ k → k < u → False) :
    s.unitsGood off n = .trap 0x0A (windowBase + BitVec.ofNat 64 (64 * u)) := by
  have hsome : ((unitsOf off n).find? fun u => s.core.badUnits.contains u) = some u := by
    rw [List.find?_eq_some_iff_getElem]
    refine ⟨List.contains_iff_mem.mpr hu, u - off / 64, by simp [unitsOf]; omega, by simp [unitsOf]; omega, fun j hj => ?_⟩
    simp only [unitsOf, List.getElem_map, List.getElem_range, Bool.not_eq_true', ← Bool.not_eq_true, List.contains_iff_mem]
    exact fun hb => hmin _ hb (by omega) (by omega)
  rw [State.unitsGood_eq, hsome]

theorem State.readCheck_go (h : Claims.inWindow s ea n align) (hn : 0 < n) (hg : Claims.good s ea n) : s.readCheck ea n align = .go := by
  rw [State.readCheck, State.localCheck_go h hn, windowBase_toNat, Verdict.go_andThen, State.unitsGood_go hg]

theorem State.readCheck_misaligned (h : ea.toNat % align ≠ 0) : s.readCheck ea n align = .trap 0x07 ea := by
  rw [State.readCheck, State.localCheck_misaligned h]; rfl

theorem State.loadCheck_go {off : Nat} (h : Claims.readable s off n) : s.loadCheck off n = .go := by
  obtain ⟨hgood, hpend⟩ := h
  rw [State.loadCheck, State.pendCheck, hpend]
  exact State.unitsGood_go hgood

theorem State.loadCheck_pending {off w : Nat} (h : s.pendingWord off n = some w) :
    s.loadCheck off n = .trap 0x06 (windowBase + BitVec.ofNat 64 w) := by
  rw [State.loadCheck, State.pendCheck, h]; rfl

theorem State.loadCheck_bad {off u : Nat} (h : s.pendingWord off n = none) (hu : u ∈ s.core.badUnits) (h1 : off / 64 ≤ u)
    (h2 : u < (off + n + 63) / 64) (hmin : ∀ k ∈ s.core.badUnits, off / 64 ≤ k → k < u → False) :
    s.loadCheck off n = .trap 0x0A (windowBase + BitVec.ofNat 64 (64 * u)) := by
  rw [State.loadCheck, State.pendCheck, h]
  exact State.unitsGood_trap hu h1 h2 hmin

end

/-! ### What an access reads, and what it notes -/

section
variable {s : State} {b : ScratchAccess} {key : Nat}

theorem State.mem_writesMet {t : LocalStore} : t ∈ s.writesMet ↔ t ∈ s.core.regs.stores ∧ t.acc.now = false := by
  simp [State.writesMet]

theorem State.races_eq_false (h : ∀ t ∈ s.core.regs.stores, t.acc.now = true ∨ t.acc.passedBy b = false) : s.races b = false := by
  refine List.any_eq_false.mpr fun t ht => ?_
  obtain ⟨hm, hn⟩ := State.mem_writesMet.mp ht
  rw [Bool.not_eq_true]
  exact (h t hm).resolve_left (by rw [hn]; exact Bool.false_ne_true)

/-- What an access reads is what the statements let it see. -/
theorem State.raceRead_maySee (s : State) (b : ScratchAccess) (key : Nat) : Claims.maySee s b (s.raceRead b key) := by
  obtain ⟨hlen, hbytes⟩ := s.raceRead_spec b key
  refine ⟨hlen, fun i x hx => ?_, fun hall => ?_⟩
  · obtain h | ⟨t, ht, hp, ho⟩ := hbytes i x hx
    · exact .inl h
    · obtain ⟨hm, hn⟩ := State.mem_writesMet.mp ht
      exact .inr ⟨t, hm, hn, hp, ho⟩
  · rw [State.raceRead_of_none (State.races_eq_false hall), State.baseBytes_eq]
    rfl

/-- The machine after an access has noted what it saw, where a write races it. -/
def State.notes (s : State) (b : ScratchAccess) (key fresh : Nat) : State := if s.races b then { s.saw b key with fresh := fresh } else s

theorem State.notes_noted (s : State) (b : ScratchAccess) (key fresh : Nat) : Claims.noted s b (s.notes b key fresh) := by
  constructor
  · by_cases h : s.races b = true
    · refine ⟨fresh, (s.saw b key).core.regs.stores, ?_, by rw [State.notes, if_pos h]; rfl⟩
      simp only [State.saw, State.onRegs, List.map_map]
      rfl
    · exact ⟨s.fresh, s.core.regs.stores, rfl, by rw [State.notes, if_neg h]⟩
  · intro hall
    rw [State.notes, if_neg (by rw [State.races_eq_false hall]; exact Bool.false_ne_true)]

theorem State.sawLocal_eq (s : State) (ea : Word) (n : Nat) : s.sawLocal ea n = s.notes (xAccess 0 ea n) s.xKey s.fresh := rfl
theorem State.sawLoad_eq (s : State) (b : ScratchAccess) : s.sawLoad b = s.notes b s.loadKey (s.fresh + 1) := rfl

theorem claims_reads_eq (path : BitVec 3) (ea : Word) (n : Nat) : Claims.reads path ea n = xAccess path ea n := rfl

theorem State.localBytes_maySee (s : State) (ea : Word) (n : Nat) : Claims.maySee s (Claims.reads 0 ea n) (s.localBytes 0 ea n) :=
  s.raceRead_maySee _ _

theorem State.sawLocal_noted (s : State) (ea : Word) (n : Nat) : Claims.noted s (Claims.reads 0 ea n) (s.sawLocal ea n) := by
  rw [State.sawLocal_eq]; exact s.notes_noted _ _ _

end

/-! ### Reads of the X slot (R286-R288) -/

section
variable {s : State} {a d : BitVec 5} {ta : Bool} {y : BitVec 4} {n : BitVec 3}

theorem allFull_A (h : Claims.allFull s [Claims.A a ta] = true) : s.needA a ta = .go := by
  rw [← operandCheck_A, ← operandChecks_one]; exact operandChecks_go h

/-- The image that CBSET takes is the one of the statements. -/
theorem cbImageOk_iff (bs : List Byte) : cbImageOk bs s.window = true ↔ Claims.bufferImage s bs := decide_eq_true_iff

theorem exec_yset_full (h : s.core.regs.sIsFull a = true) : exec (.yset a ta n y) s = .next (Claims.answer s 1 (.yWord y n ((s.s a).setWidth 32))) := by
  change execYset a ta n y s = _
  rw [execYset, State.needS_go h, State.issueWith_go, State.mark_send]

section
variable (ha : Claims.allFull s [Claims.A a ta] = true)
include ha

theorem exec_yld_full (hw : Claims.inWindow s (s.a a) 32 32) (hg : Claims.good s (s.a a) 32) : exec (.yld a ta y) s
    = .next (Claims.answer (s.sawLocal (s.a a) 32) 4 (.y y (BitVec.ofNat 256 (leNat (s.localBytes 0 (s.a a) 32))))) := by
  change execYld a ta y s = _
  rw [execYld, allFull_A ha, State.readCheck_go hw (by decide) hg, Verdict.go_and, State.issueWith_go, State.mark_send]

theorem exec_kld_full (hw : Claims.inWindow s (s.a a) 64 64) (hg : Claims.good s (s.a a) 64) : exec (.kld a ta) s
    = .next (Claims.answer (s.sawLocal (s.a a) 64) 4 (.k (BitVec.ofNat 512 (leNat (s.localBytes 0 (s.a a) 64))))) := by
  change execKld a ta s = _
  rw [execKld, allFull_A ha, State.readCheck_go hw (by decide) hg, Verdict.go_and, State.issueWith_go, State.mark_send]

theorem exec_cbkld_full (hw : Claims.inWindow s (s.a a) 1024 64) (hg : Claims.good s (s.a a) 1024) : exec (.cbkld a ta) s
    = .next (Claims.answer (s.sawLocal (s.a a) 1024) 6 (.codebook (BitVec.ofNat 8192 (leNat (s.localBytes 0 (s.a a) 1024))))) := by
  change execCbkld a ta s = _
  rw [execCbkld, allFull_A ha, State.readCheck_go hw (by decide) hg, Verdict.go_and, State.issueWith_go, State.mark_send]

theorem exec_yld_misaligned (h : (s.a a).toNat % 32 ≠ 0) (hp : s.core.issue.pass = false) :
    exec (.yld a ta y) s = .next (Claims.traps s 0x07 (s.a a)) := by
  change execYld a ta y s = _
  rw [execYld, allFull_A ha, State.readCheck_misaligned h, Verdict.go_and, State.issueWith_trap hp, Claims.traps]

variable (hw : Claims.inWindow s (s.a a) 16 16) (hg : Claims.good s (s.a a) 16) (hn : s.cbNamed n = false)
include hw hg hn

/-- With its operand in place and its buffer free, CBSET asks for nothing but a legal image. -/
theorem exec_cbset_full : exec (.cbset a ta n) s
    = s.issueWith (ensure (cbImageOk (s.localBytes 0 (s.a a) 16) s.window) 0x01 (s.a a)) fun s =>
        (s.sawLocal (s.a a) 16).setCbuf n ⟨true, imageField (s.localBytes 0 (s.a a) 16) 0, imageField (s.localBytes 0 (s.a a) 16) 1,
          imageField (s.localBytes 0 (s.a a) 16) 2, 0, 0, 0, []⟩ := by
  change execCbset a ta n s = _
  simp only [execCbset, Verdict.all, allFull_A ha, hn, Bool.not_false, waitFor_go rfl, State.readCheck_go hw (by decide) hg, Verdict.go_and,
    Verdict.and_go, Verdict.andThen]

theorem exec_cbset_legal (hi : Claims.bufferImage s (s.localBytes 0 (s.a a) 16)) : exec (.cbset a ta n) s
    = .next (((s.sawLocal (s.a a) 16).setCbuf n ⟨true, imageField (s.localBytes 0 (s.a a) 16) 0, imageField (s.localBytes 0 (s.a a) 16) 1,
        imageField (s.localBytes 0 (s.a a) 16) 2, 0, 0, 0, []⟩).mark .issued) := by
  rw [exec_cbset_full ha hw hg hn, ensure_go ((cbImageOk_iff _).mpr hi), State.issueWith_go]

theorem exec_cbset_illegal (hi : ¬ Claims.bufferImage s (s.localBytes 0 (s.a a) 16)) (hp : s.core.issue.pass = false) :
    exec (.cbset a ta n) s = .next (Claims.traps s 0x01 (s.a a)) := by
  rw [exec_cbset_full ha hw hg hn, ensure_trap (Bool.eq_false_iff.mpr fun h => hi ((cbImageOk_iff _).mp h)), State.issueWith_trap hp, Claims.traps]

end

section
variable (hd : s.core.regs.sIsFull d = true)
include hd

theorem exec_cbwait_checks : exec (.cbwait d n) s
    = s.issueWith ((ensure (s.cbuf n).configured 0x01 s.wordVal).and
        (waitFor (!(s.cbuf n).configured || (s.cbuf n).full.contains (s.cbuf n).t) 0x07)) fun s' =>
        ((s'.setCbuf n { s.cbuf n with t := (s.cbuf n).t + 1, full := (s.cbuf n).full.filter fun k => k != (s.cbuf n).t }).send 1
          (.s d (windowBase + BitVec.ofNat 64 ((s.cbuf n).base + (s.cbuf n).t.toNat % (s.cbuf n).count * (s.cbuf n).size)))).observesRange
          ((s.cbuf n).base + (s.cbuf n).t.toNat % (s.cbuf n).count * (s.cbuf n).size) (s.cbuf n).size := by
  change execCbwait d n s = _
  simp only [execCbwait, Verdict.all, State.destS_go hd, Verdict.go_and, Verdict.and_go]

theorem exec_cbwait_filled (hc : (s.cbuf n).configured = true) (hf : (s.cbuf n).t ∈ (s.cbuf n).full) : exec (.cbwait d n) s
    = .next (Claims.issued ((Claims.sends
        (s.setCbuf n { s.cbuf n with t := (s.cbuf n).t + 1, full := (s.cbuf n).full.filter fun k => k != (s.cbuf n).t }) 1
        (.s d (windowBase + BitVec.ofNat 64 ((s.cbuf n).base + (s.cbuf n).t.toNat % (s.cbuf n).count * (s.cbuf n).size)))).observesRange
        ((s.cbuf n).base + (s.cbuf n).t.toNat % (s.cbuf n).count * (s.cbuf n).size) (s.cbuf n).size)) := by
  rw [exec_cbwait_checks hd, ensure_go hc, waitFor_go (by rw [List.contains_iff_mem.mpr hf, Bool.or_true]), Verdict.go_and, State.issueWith_go,
    claims_issued_eq, claims_sends_eq]

theorem exec_cbwait_unconfigured (hc : (s.cbuf n).configured = false) (hp : s.core.issue.pass = false) :
    exec (.cbwait d n) s = .next (Claims.traps s 0x01 s.wordVal) := by
  rw [exec_cbwait_checks hd, ensure_trap hc, hc, Bool.not_false, Bool.true_or, waitFor_go rfl, Verdict.and_go, State.issueWith_trap hp, Claims.traps]

theorem exec_cbwait_unfilled (hc : (s.cbuf n).configured = true) (hf : (s.cbuf n).t ∉ (s.cbuf n).full) (hp : s.core.issue.pass = false) :
    exec (.cbwait d n) s = .next (Claims.waits s 0x07) := by
  have hempty : (s.cbuf n).full.contains (s.cbuf n).t = false := Bool.eq_false_iff.mpr fun h => hf (List.contains_iff_mem.mp h)
  rw [exec_cbwait_checks hd, ensure_go hc, hc, hempty, Bool.not_true, Bool.false_or, waitFor_hold rfl, Verdict.go_and, State.issueWith_hold hp,
    Claims.waits]

end

theorem exec_cbrel : exec (.cbrel n) s = .next (
    if (s.cbuf n).configured = true ∧ (s.cbuf n).r ≠ (s.cbuf n).t then (s.setCbuf n { s.cbuf n with r := (s.cbuf n).r + 1 }).mark .issued
    else Claims.same s) := by
  change execCbrel n s = _
  rw [execCbrel, State.issueWith_go, claims_same_eq]
  simp only [Bool.and_eq_true, bne_iff_ne]
  split <;> rfl

end

/-- Settles O43: the table loads by what an X-slot access reads and notes, the buffers by their image and their state. -/
theorem tablesAndBuffers : Obligations.TablesAndBuffers := by
  unfold Obligations.TablesAndBuffers
  intro s a d ta y n ea b put read
  refine ⟨exec_yset_full, fun ha => ⟨fun hw hg => ⟨_, _, s.localBytes_maySee ea 32, s.sawLocal_noted ea 32, exec_yld_full ha hw hg⟩,
    fun hw hg => ⟨_, _, s.localBytes_maySee ea 64, s.sawLocal_noted ea 64, exec_kld_full ha hw hg⟩,
    fun hw hg => ⟨_, _, s.localBytes_maySee ea 1024, s.sawLocal_noted ea 1024, exec_cbkld_full ha hw hg⟩,
    fun hw hg hn => ⟨_, _, s.localBytes_maySee ea 16, s.sawLocal_noted ea 16, fun hi => ?_, exec_cbset_illegal ha hw hg hn⟩,
    exec_yld_misaligned ha⟩, exec_cbwait_filled, exec_cbwait_unconfigured, exec_cbwait_unfilled, exec_cbrel⟩
  exact exec_cbset_legal ha hw hg hn hi

end Sys2Proof.Machine
end

section
/-! PROOFS. Loads and stores of the local window by the S and V slots (R126, R131, R132, R150-R153, R200-R202, R305): what LD, ST, VLD and VST
leave, where they trap, and the wait of a result-buffer entry. -/

namespace Sys2Proof.Machine

open Sys2Proof

/-! ### The value of a load -/

theorem leNat_lt (l : List Byte) : leNat l < 2 ^ (8 * l.length) := by
  induction l with
  | nil => simp [leNat]
  | cons b l ih =>
    rw [leNat, List.length_cons, Nat.mul_succ, Nat.pow_add]
    have := b.isLt
    omega

/-- A byte of the number that bytes spell. -/
theorem leNat_byte (l : List Byte) (i : Nat) : leNat l / 2 ^ (8 * i) % 256 = (l.getD i 0).toNat := by
  induction l generalizing i with
  | nil => simp [leNat]
  | cons b l ih =>
    cases i with
    | zero => have := b.isLt; simp [leNat]; omega
    | succ i =>
      have hb := b.isLt
      rw [leNat, Nat.mul_succ, Nat.add_comm (8 * i) 8, Nat.pow_add, ← Nat.div_div_eq_div_mul, show (2 : Nat) ^ 8 = 256 from rfl,
        Nat.add_mul_div_left _ _ (by decide), Nat.div_eq_of_lt hb, Nat.zero_add, ih, List.getD_cons_succ]

theorem signExtend_ofNat {n x : Nat} (hn : 0 < n) (hx : x < 2 ^ n) :
    BitVec.ofInt 64 (if x < 2 ^ (n - 1) then (x : Int) else (x : Int) - 2 ^ n) = (BitVec.ofNat n x).signExtend 64 := by
  rw [BitVec.signExtend, BitVec.toInt_eq_toNat_cond, BitVec.toNat_ofNat, Nat.mod_eq_of_lt hx]
  have hpow : 2 ^ n = 2 * 2 ^ (n - 1) := by rw [← Nat.pow_succ']; congr 1; omega
  congr 1
  by_cases h : x < 2 ^ (n - 1)
  · rw [if_pos h, if_pos (by omega)]
  · rw [if_neg h, if_neg (by omega)]
    push_cast
    rfl

/-- The value that the model loads is that of the statements (R150). -/
theorem loadValue_eq_loaded {sz : BitVec 2} {sx : Bool} {bs : List Byte} (h : bs.length = 2 ^ sz.toNat) :
    loadValue sz sx bs = Claims.loaded sz sx bs := by
  have hlt : leNat bs < 2 ^ (8 * 2 ^ sz.toNat) := h ▸ leNat_lt bs
  rw [loadValue, Claims.loaded]
  cases sx with
  | false => rfl
  | true => exact signExtend_ofNat (Nat.mul_pos (by decide) (Nat.two_pow_pos _)) hlt

/-! ### The outcome noted for the slot, and local accesses -/

/-- A change of a core that a write of its scratchpad neither sees nor undoes. -/
structure Core.Beside (g : Core → Core) : Prop where
  record : ∀ x u, (g x).record u = g (x.record u)
  wakeOne : ∀ x l k, (g x).wakeOne l k = g (x.wakeOne l k)
  scratch : ∀ x m, { g x with scratch := m } = g { x with scratch := m }
  read : ∀ x, (g x).scratch = x.scratch

theorem Core.Beside.recordScratch {g : Core → Core} (h : Core.Beside g) (x : Core) (off : Nat) (on : List Bool) :
    (g x).recordScratch off on = g (x.recordScratch off on) := by
  unfold Core.recordScratch
  generalize List.range ((off + on.length + 63) / 64 - off / 64) = l
  induction l generalizing x with
  | nil => rfl
  | cons k l ih =>
    rw [List.foldl_cons, List.foldl_cons, ← ih]
    congr 1
    dsimp only
    split
    · rw [h.read, h.record]
    · rfl

theorem Core.Beside.wake {g : Core → Core} (h : Core.Beside g) (x : Core) (l : List Nat) : (g x).wake l = g (x.wake l) := by
  rw [Core.wake_eq, Core.wake_eq]
  generalize List.range 8 = r
  induction r generalizing x with
  | nil => rfl
  | cons k r ih => rw [List.foldl_cons, List.foldl_cons, h.wakeOne, ih]

theorem Core.Beside.scratchStore {g : Core → Core} (h : Core.Beside g) (x : Core) (off : Nat) (bs : List (Byte × Bool)) :
    (g x).scratchStore off bs = g (x.scratchStore off bs) := by
  unfold Core.scratchStore
  dsimp only
  rw [h.recordScratch, h.read, h.scratch, h.wake]

theorem Core.beside_issue (i : Issue) : Core.Beside fun x => { x with issue := i } where
  record x u := by
    unfold Core.record
    split
    · rfl
    · split <;> rfl
  wakeOne x l k := by
    unfold Core.wakeOne
    dsimp only
    split
    · rfl
    · split
      · rfl
      · split <;> rfl
  scratch _ _ := rfl
  read _ := rfl

/-- What a load or a store sends lands without regard to the issue state. -/
theorem Core.landFlight_issue_comm {x : Core} {i : Issue} {f : InFlight} (h : (∃ d v, f.what = .s d v) ∨ ∃ sl o v m b, f.what = .store sl o v m b) :
    ({ x with issue := i } : Core).landFlight f = { x.landFlight f with issue := i } := by
  obtain ⟨left, what, flags⟩ := f
  obtain ⟨d, v, hw⟩ | ⟨sl, o, v, m, b, hw⟩ := h
  · rw [show what = .s d v from hw]; exact Core.landFlight_s_issue x i left d v flags
  · rw [show what = .store sl o v m b from hw]
    simp only [Core.landFlight, Core.landOne, (Core.beside_issue i).scratchStore]

theorem State.answer_mark {s : State} {r : Issued} {lat : Nat} {what : Land}
    (h : s.comp = false ∨ (∃ d v, what = .s d v) ∨ ∃ sl o v m b, what = .store sl o v m b) :
    Claims.answer (s.mark r) lat what = Claims.answer s lat what := by
  rw [← State.mark_send, ← State.mark_send]
  cases hc : s.comp with
  | false => rw [State.send_main hc, State.send_main ((s.mark_comp r).trans hc)]; rfl
  | true =>
    have hw := h.resolve_left fun hn => Bool.false_ne_true (hn.symm.trans hc)
    rw [State.send_comp hc, State.send_comp ((s.mark_comp r).trans hc)]
    have hcore : (s.mark r).core = { s.core with issue := { s.core.issue with res := r } } := rfl
    rw [hcore, Core.landFlight_issue_comm (f := ⟨0, what, 0⟩) hw]
    simp only [State.mark, Core.landFlight_issue]

theorem State.notes_mark (s : State) (b : ScratchAccess) (key fresh : Nat) (r : Issued) :
    (s.mark r).notes b key fresh = (s.notes b key fresh).mark r := by
  have hr : (s.mark r).races b = s.races b := rfl
  rw [State.notes, State.notes, hr]
  split <;> rfl

theorem State.notes_comp (s : State) (b : ScratchAccess) (key fresh : Nat) : (s.notes b key fresh).comp = s.comp := by
  rw [State.notes]
  split <;> rfl

/-- The machine after a post-modify, and where there is none the machine itself. -/
theorem claims_post_eq (s : State) (a : BitVec 5) (pm : Bool) (n : Nat) :
    Claims.post s a pm n = if pm then (s.postModify a pm n).mark .issued else s.postModify a pm n := by
  cases pm with
  | false => rfl
  | true =>
    rw [Claims.post, if_pos rfl, if_pos rfl, State.postModify, Bool.not_true, if_neg Bool.false_ne_true]
    cases hc : s.comp with
    | false =>
      have hm : s.me.isComp = false := hc
      rw [if_neg Bool.false_ne_true, State.mark_send, hm, if_neg Bool.false_ne_true]
    | true =>
      have hm : s.me.isComp = true := hc
      rw [if_pos rfl, State.mark_send, hm, if_pos rfl]

theorem State.postModify_comp (s : State) (a : BitVec 5) (pm : Bool) (n : Nat) : (s.postModify a pm n).comp = s.comp := by
  have hsend (lat : Nat) (what : Land) : (s.send lat what).comp = s.comp := by
    cases hc : s.comp with
    | false => rw [State.send_main hc]; exact hc
    | true => rw [State.send_comp hc]; exact hc
  unfold State.postModify
  split
  · rfl
  · split
    · exact hsend _ _
    · exact hsend _ _

/-! ### Local loads -/

section
variable {p : State} {lat : Nat} {b : ScratchAccess} {sz : BitVec 2} {sx : Bool} {what : Land}

/-- What a local load notes of the stores on record: on a companion core nothing, since no access passes another there (R324). -/
def State.loadNotes (p : State) (b : ScratchAccess) : State := if p.comp then p else p.notes b p.loadKey (p.fresh + 1)

theorem State.loadNotes_noted (p : State) (b : ScratchAccess) : Claims.noted p b (p.loadNotes b) := by
  rw [State.loadNotes]
  split
  · exact ⟨⟨p.fresh, p.core.regs.stores, rfl, rfl⟩, fun _ => rfl⟩
  · exact p.notes_noted _ _ _

theorem State.loadNotes_comp (p : State) (b : ScratchAccess) : (p.loadNotes b).comp = p.comp := by
  rw [State.loadNotes]
  split
  · rfl
  · exact p.notes_comp _ _ _

theorem State.loadNotes_mark (p : State) (b : ScratchAccess) (r : Issued) : (p.mark r).loadNotes b = (p.loadNotes b).mark r := by
  rw [State.loadNotes, State.loadNotes, State.mark_comp]
  split
  · rfl
  · exact p.notes_mark b _ _ r

theorem State.sendLoad_eq : (p.sendLoad lat b sz sx what).mark .issued = Claims.loads (p.loadNotes b) lat b sz sx what := by
  have hcomp : (p.loadNotes b).me.isComp = p.comp := p.loadNotes_comp b
  rw [State.sendLoad, Claims.loads, hcomp]
  cases hc : p.comp with
  | true => rw [if_pos rfl, State.mark_send, State.loadNotes, if_pos hc]; rfl
  | false =>
    have hn : p.loadNotes b = p.sawLoad b := by rw [State.loadNotes, hc, if_neg Bool.false_ne_true, State.sawLoad_eq]
    rw [if_neg Bool.false_ne_true, hn, ← State.mark_send]
    rfl

theorem claims_loads_mark {r : Issued} (h : p.comp = false ∨ ∃ d v, what = .s d v) :
    Claims.loads (p.mark r) lat b sz sx what = Claims.loads p lat b sz sx what := by
  rw [Claims.loads, Claims.loads, State.answer_mark (h.imp_right .inl)]
  rfl

/-- A local load after a post-modify, as the statements have it. -/
theorem State.sendLoad_post {s : State} {a : BitVec 5} {pm : Bool} {n : Nat} (h : s.comp = false ∨ ∃ d v, what = .s d v) :
    ((s.postModify a pm n).sendLoad lat b sz sx what).mark .issued = Claims.loads ((Claims.post s a pm n).loadNotes b) lat b sz sx what := by
  rw [State.sendLoad_eq, claims_post_eq]
  cases pm with
  | false => rfl
  | true =>
    rw [if_pos rfl, State.loadNotes_mark, claims_loads_mark]
    exact h.imp_left fun hc => by rw [State.loadNotes_comp, State.postModify_comp, hc]

end

/-! ### Local stores -/

section
variable {s : State} {b : ScratchAccess}

theorem State.mem_stays {t : LocalStore} :
    t ∈ s.stays b ↔ t ∈ s.core.regs.stores ∧ (t.acc.slots = true ∧ t.acc.now = false) ∧ t.acc.passedBy b = true := by
  simp [State.stays, and_assoc]

/-- A store that stays at an offset is on record, of another class, and not ordered against the new one (R305). -/
theorem State.mem_staying {e : Nat × Byte × Nat} (h : e ∈ s.staying b) :
    ∃ t ∈ s.core.regs.stores, t.acc.now = false ∧ t.acc.passedBy b = true ∧ t.no = e.2.2 ∧ (t.at e.1).isSome = true := by
  unfold State.staying at h
  split at h
  · simp at h
  · obtain ⟨k, -, hk⟩ := List.mem_filterMap.mp h
    obtain ⟨t, ht, rfl⟩ := Option.map_eq_some_iff.mp hk
    obtain ⟨hf, hc⟩ := Option.filter_eq_some_iff.mp ht
    simp only [Bool.and_eq_true, Bool.not_eq_true'] at hc
    obtain ⟨⟨⟨⟨⟨-, hnow⟩, hpass⟩, hat⟩, -⟩, -⟩ := hc
    exact ⟨t, Regs.finalAt_mem hf, hnow, hpass, rfl, hat⟩

/-- The bytes with which a new store performs, the words of stores that stay among them (R305). -/
def State.storeBytes (s : State) (b : ScratchAccess) (data : VReg) : VReg :=
  if (s.stays b).isEmpty then data else BitVec.ofNat 8192 (leNat (s.settled b (leBytes b.size data.toNat)))

/-- The offsets at which another store stays, each with that one's number. -/
def State.storeKept (s : State) (b : ScratchAccess) : List (Nat × Nat) := (s.staying b).map fun e => (e.1, e.2.2)

theorem ofNat_leNat_byte {n : Nat} {l : List Byte} {i : Nat} (hi : 8 * i + 8 ≤ n) :
    (BitVec.ofNat n (leNat l)).extractLsb' (8 * i) 8 = l.getD i 0 := by
  obtain ⟨k, rfl⟩ := Nat.exists_eq_add_of_le hi
  apply BitVec.eq_of_toNat_eq
  rw [BitVec.extractLsb'_toNat, BitVec.toNat_ofNat, Nat.shiftRight_eq_div_pow, ← leNat_byte l i, Nat.add_assoc, Nat.pow_add,
    Nat.mod_mul_right_div_self, Nat.pow_add, show (2 : Nat) ^ 8 = 256 from rfl, Nat.mod_mul_right_mod]

theorem State.storeBytes_mayWrite (hsize : b.size ≤ 1024) (data : VReg) : Claims.mayWrite s b data (s.storeBytes b data) (s.storeKept b) := by
  have hnone (hall : ∀ t ∈ s.core.regs.stores, t.acc.now = true ∨ t.acc.passedBy b = false) : (s.stays b).isEmpty = true := by
    rw [List.isEmpty_iff, List.eq_nil_iff_forall_not_mem]
    intro t ht
    obtain ⟨hm, ⟨-, hn⟩, hp⟩ := State.mem_stays.mp ht
    obtain h | h := hall t hm
    · exact Bool.false_ne_true (hn.symm.trans h)
    · exact Bool.false_ne_true (h.symm.trans hp)
  refine ⟨fun i hi => ?_, fun p hp => ?_, fun hall => ⟨by rw [State.storeBytes, if_pos (hnone hall)], ?_⟩⟩
  · rw [State.storeBytes]
    split
    · exact .inl rfl
    · have hi' : i < 1024 := by omega
      obtain ⟨hlen, hget⟩ := s.settled_get b (leBytes b.size data.toNat)
      rw [leBytes_length] at hlen
      rw [ofNat_leNat_byte (by omega)]
      have hin : i < (s.settled b (leBytes b.size data.toNat)).length := by omega
      have hx := hget i _ (List.getElem?_eq_getElem hin)
      rw [List.getD_eq_getElem?_getD, List.getElem?_eq_getElem hin, Option.getD_some]
      refine hx.imp (fun h => ?_) fun ⟨t, ht, hat⟩ => ?_
      · have hb := leBytes_getD (x := data.toNat) hi
        rw [List.getD_eq_getElem?_getD, h, Option.getD_some] at hb
        rw [hb]
        apply BitVec.eq_of_toNat_eq
        rw [BitVec.toNat_ofNat, BitVec.extractLsb'_toNat, Nat.shiftRight_eq_div_pow]
      · obtain ⟨hm, ⟨-, hn⟩, hp⟩ := State.mem_stays.mp ht
        exact ⟨t, ⟨hm, hn, hp⟩, hat⟩
  · obtain ⟨e, he, rfl⟩ := List.mem_map.mp hp
    obtain ⟨t, hm, hn, hpass, hno, hat⟩ := State.mem_staying he
    exact ⟨t, ⟨hm, hn, hpass⟩, hno, hat⟩
  · rw [State.storeKept, State.staying, if_pos (hnone hall)]; rfl

variable {slot : Slot} {data : VReg} {mask : PReg}

theorem State.localStore_eq : (s.localStore slot b data mask).mark .issued
    = Claims.puts s slot b data (s.storeBytes b data) (s.storeKept b) mask := by
  have hcomp : s.me.isComp = s.comp := rfl
  rw [State.localStore, Claims.puts, hcomp]
  cases hc : s.comp with
  | true => rw [if_pos rfl, if_pos rfl, State.sendStore, State.mark_send]
  | false =>
    rw [if_neg Bool.false_ne_true, if_neg Bool.false_ne_true]
    simp only [← State.mark_send]
    rfl

theorem claims_puts_mark {r : Issued} {bytes : VReg} {kept : List (Nat × Nat)} :
    Claims.puts (s.mark r) slot b data bytes kept mask = Claims.puts s slot b data bytes kept mask := by
  have hcomp : (s.mark r).me.isComp = s.me.isComp := rfl
  rw [Claims.puts, Claims.puts, hcomp]
  cases hc : s.me.isComp with
  | true =>
    rw [if_pos rfl, if_pos rfl, State.answer_mark (.inr (.inr ⟨_, _, _, _, _, rfl⟩))]
    rfl
  | false =>
    rw [if_neg Bool.false_ne_true, if_neg Bool.false_ne_true]
    simp only [Claims.answer, hcomp, hc, Bool.false_eq_true, if_false]
    rfl

/-- A local store after a post-modify, as the statements have it. -/
theorem State.localStore_post {a : BitVec 5} {pm : Bool} {n : Nat} : ((s.postModify a pm n).localStore slot b data mask).mark .issued
    = Claims.puts (Claims.post s a pm n) slot b data ((Claims.post s a pm n).storeBytes b data) ((Claims.post s a pm n).storeKept b) mask := by
  rw [State.localStore_eq, claims_post_eq]
  cases pm with
  | false => rfl
  | true => rw [if_pos rfl, claims_puts_mark]; rfl

end

end Sys2Proof.Machine
end

section
/-! PROOFS. LD and ST in the local window, VLD and VST, and the result buffer (R126, R131, R132, R150-R152, R200-R202, R305): the statements. -/

namespace Sys2Proof.Machine

open Sys2Proof

/-! ### Verdicts that decide at once -/

/-- A verdict that lets an instruction go or traps, and holds for nothing. -/
def Verdict.AtOnce (v : Verdict) : Prop := v = .go ∨ ∃ c x, v = .trap c x

theorem Verdict.trap_and {v : Verdict} (h : v.AtOnce) (c : BitVec 8) (x : Word) : Verdict.and (.trap c x) v = .trap c x := by
  obtain rfl | ⟨c', x', rfl⟩ := h <;> rfl

theorem Verdict.AtOnce.andThen {v w : Verdict} (hv : v.AtOnce) (hw : w.AtOnce) : (v.andThen w).AtOnce := by
  obtain rfl | ⟨c, x, rfl⟩ := hv
  · exact hw
  · exact .inr ⟨c, x, rfl⟩

theorem ensure_atOnce (ok : Bool) (c : BitVec 8) (x : Word) : (ensure ok c x).AtOnce := by
  cases ok with
  | true => exact .inl rfl
  | false => exact .inr ⟨c, x, rfl⟩

theorem State.localCheck_atOnce (s : State) (ea : Word) (n align : Nat) : (s.localCheck ea n align).AtOnce := by
  unfold State.localCheck
  split
  · exact .inr ⟨_, _, rfl⟩
  · split
    · exact ensure_atOnce _ _ _
    · exact .inr ⟨_, _, rfl⟩

theorem State.loadCheck_atOnce (s : State) (off n : Nat) : (s.loadCheck off n).AtOnce := by
  refine Verdict.AtOnce.andThen ?_ ?_
  · unfold State.pendCheck
    split
    · exact .inr ⟨_, _, rfl⟩
    · exact .inl rfl
  · unfold State.unitsGood
    split
    · exact .inr ⟨_, _, rfl⟩
    · exact .inl rfl

theorem State.vldCheck_atOnce (s : State) (ea : Word) : (s.vldCheck ea).AtOnce :=
  (s.localCheck_atOnce _ _ _).andThen (s.loadCheck_atOnce _ _)

/-! ### A post-modify's step -/

section
variable {s : State} {a : BitVec 5} {pm : Bool}

theorem State.postCheck_go (h : pm = true → Claims.advances s a) : s.postCheck a pm = .go := by
  cases pm with
  | false => rfl
  | true => exact State.advanceCheck_go (h rfl)

theorem State.postCheck_trap (hpm : pm = true) (h : ¬ Claims.advances s a) : s.postCheck a pm = .trap 0x07 (s.stepOf a) := by
  rw [State.postCheck, if_pos hpm, State.advanceCheck_trap h]

end

/-! ### LD and ST: the checks -/

theorem State.ea_eq_address (s : State) (a : BitVec 5) (sz : BitVec 2) (off : BitVec 9) : s.ea a sz off = Claims.address s a sz off := by
  have hpow : BitVec.twoPow 64 sz.toNat = 2 ^ sz.toNat := by
    have := sz.isLt
    interval_cases sz.toNat <;> rfl
  rw [State.ea, Claims.address, BitVec.shiftLeft_eq_mul_twoPow, hpow]
  rfl

section
variable {s : State} {ea : Word} {sz : BitVec 2} {write : Bool}

section
variable (h1 : 0xF00000000000 ≤ ea.toNat) (h2 : ea.toNat < 0xF00000200000)
include h1 h2

theorem State.accessCheck_local_atOnce : (s.accessCheck ea sz write).AtOnce := by
  rw [State.accessCheck, windowOff?_eq_some h1 h2]
  dsimp only
  split
  · exact .inr ⟨_, _, rfl⟩
  · split
    · split
      · exact .inl rfl
      · exact s.loadCheck_atOnce _ _
    · exact .inr ⟨_, _, rfl⟩

theorem State.accessCheck_local_misaligned (h : ea.toNat % 2 ^ sz.toNat ≠ 0) : s.accessCheck ea sz write = .trap 0x07 ea := by
  rw [State.accessCheck, windowOff?_eq_some h1 h2]
  exact if_pos h

theorem State.accessCheck_local_outside (halign : ea.toNat % 2 ^ sz.toNat = 0)
    (h : 0xF00000000000 + s.core.window s.me.isComp < ea.toNat + 2 ^ sz.toNat) : s.accessCheck ea sz write = .trap 0x09 ea := by
  have hout : ¬ (ea.toNat - 0xF00000000000 + 2 ^ sz.toNat ≤ s.window) := by
    change ¬ (ea.toNat - 0xF00000000000 + 2 ^ sz.toNat ≤ s.core.window s.me.isComp)
    omega
  rw [State.accessCheck, windowOff?_eq_some h1 h2]
  dsimp only
  rw [if_neg (not_not.mpr halign), if_neg hout]

end

/-- An access that lies in the window asks nothing more of a store, and of a load that its bytes can be read. -/
theorem State.accessCheck_inWindow (hw : Claims.inWindow s ea (2 ^ sz.toNat) (2 ^ sz.toNat)) :
    s.accessCheck ea sz write = if write then .go else s.loadCheck (ea.toNat - 0xF00000000000) (2 ^ sz.toNat) := by
  have ho := windowOff?_inWindow hw (Nat.two_pow_pos _)
  obtain ⟨halign, hlo, hhi⟩ := hw
  have hfit : ea.toNat - 0xF00000000000 + 2 ^ sz.toNat ≤ s.window := by
    change ea.toNat - 0xF00000000000 + 2 ^ sz.toNat ≤ s.core.window s.me.isComp
    omega
  rw [State.accessCheck, ho]
  dsimp only
  rw [if_neg (not_not.mpr halign), if_pos hfit]

end

/-! ### LD and ST: the answers -/

section
variable {s : State} {d a : BitVec 5} {pm : Bool} {ac sz : BitVec 2} {sxt : Bool} {off : BitVec 9}
  (hf : Claims.allFull s [Claims.A a, Claims.S d] = true)
include hf

theorem allFull_A_S : s.needA a false = .go ∧ s.destS d = .go := by
  simp only [Claims.allFull, List.all_cons, List.all_nil, Bool.and_true, Bool.and_eq_true] at hf
  obtain ⟨ha, hd⟩ := hf
  exact ⟨allFull_A (by simpa [Claims.allFull] using ha), State.destS_go hd⟩

theorem exec_ld_trap {c : BitVec 8} {x : Word} (hp : s.core.issue.pass = false)
    (hv : (s.postCheck a pm).and (s.accessCheck (Claims.address s a sz off) sz false) = .trap c x) :
    exec (.ld d a pm ac sz sxt off) s = .next (Claims.traps s c x) := by
  obtain ⟨ha, hd⟩ := allFull_A_S hf
  change execLd d a pm ac sz sxt off s = _
  simp only [execLd, Verdict.all, ha, hd, State.ea_eq_address, Verdict.go_and, Verdict.and_go, hv, State.issueWith_trap hp, Claims.traps]

theorem exec_st_trap {c : BitVec 8} {x : Word} (hp : s.core.issue.pass = false)
    (hv : (s.postCheck a pm).and (s.accessCheck (Claims.address s a sz off) sz true) = .trap c x) :
    exec (.st d a pm ac sz off) s = .next (Claims.traps s c x) := by
  obtain ⟨ha, hd⟩ := allFull_A_S hf
  rw [State.destS_eq_needS] at hd
  change execSt d a pm ac sz off s = _
  simp only [execSt, Verdict.all, ha, hd, State.ea_eq_address, Verdict.go_and, Verdict.and_go, hv, State.issueWith_trap hp, Claims.traps]

variable (hpm : pm = true → Claims.advances s a)
include hpm

/-- The S-slot access of a local address. -/
def scalarAccess (ac sz : BitVec 2) (o : Nat) : ScratchAccess := { path := 0, ac := ac, off := o, size := 2 ^ sz.toNat }

variable (hw : Claims.inWindow s (Claims.address s a sz off) (2 ^ sz.toNat) (2 ^ sz.toNat))
include hw

theorem exec_ld_local (hr : Claims.readable s ((Claims.address s a sz off).toNat - 0xF00000000000) (2 ^ sz.toNat)) :
    let t := Claims.post s a pm (2 ^ sz.toNat)
    let b := scalarAccess ac sz ((Claims.address s a sz off).toNat - 0xF00000000000)
    exec (.ld d a pm ac sz sxt off) s = .next (Claims.loads (t.loadNotes b) 4 b sz sxt (.s d (Claims.loaded sz sxt (t.localLoad b)))) := by
  obtain ⟨ha, hd⟩ := allFull_A_S hf
  intro t b
  have hv : s.accessCheck (Claims.address s a sz off) sz false = .go := by
    rw [State.accessCheck_inWindow hw, if_neg Bool.false_ne_true, State.loadCheck_go hr]
  have hval : loadValue sz sxt ((s.postModify a pm (2 ^ sz.toNat)).localLoad b) = Claims.loaded sz sxt (t.localLoad b) := by
    have hread : (s.postModify a pm (2 ^ sz.toNat)).localLoad b = t.localLoad b := by
      change _ = (Claims.post s a pm (2 ^ sz.toNat)).localLoad b
      rw [claims_post_eq]
      split <;> rfl
    rw [hread]
    exact loadValue_eq_loaded (t.raceRead_maySee b _).1
  have ho := windowOff?_inWindow hw (Nat.two_pow_pos _)
  change execLd d a pm ac sz sxt off s = _
  simp only [execLd, Verdict.all, ha, hd, State.ea_eq_address, State.postCheck_go hpm, hv, Verdict.go_and, State.issueWith_go, ho]
  rw [State.sendLoad_post (.inr ⟨_, _, rfl⟩)]
  exact congrArg (fun v => Host.Outcome.next (Claims.loads (t.loadNotes b) 4 b sz sxt (.s d v))) hval

theorem exec_st_local :
    let t := Claims.post s a pm (2 ^ sz.toNat)
    let b := scalarAccess ac sz ((Claims.address s a sz off).toNat - 0xF00000000000)
    exec (.st d a pm ac sz off) s = .next (Claims.puts t .s b ((s.core.regs.sVal d).setWidth 8192)
      (t.storeBytes b ((s.core.regs.sVal d).setWidth 8192)) (t.storeKept b) (BitVec.ofNat 1024 (2 ^ 2 ^ sz.toNat - 1))) := by
  obtain ⟨ha, hd⟩ := allFull_A_S hf
  rw [State.destS_eq_needS] at hd
  intro t b
  have hv : s.accessCheck (Claims.address s a sz off) sz true = .go := by rw [State.accessCheck_inWindow hw, if_pos rfl]
  have ho := windowOff?_inWindow hw (Nat.two_pow_pos _)
  change execSt d a pm ac sz off s = _
  simp only [execSt, Verdict.all, ha, hd, State.ea_eq_address, State.postCheck_go hpm, hv, Verdict.go_and, State.issueWith_go, ho]
  rw [State.localStore_post]
  rfl

end

/-! ### Loads in flight that no store meets -/

theorem meetLoads_none (t : LocalStore) (l : List LocalLoad) (seen : List (BitVec 2 × Nat))
    (h : ∀ q ∈ l, q.acc.now = true ∨ q.acc.passedBy t.acc = false) : meetLoads t l seen = (l.map fun r => (r, r.what), seen) := by
  induction l with
  | nil => rfl
  | cons r l ih =>
    have hr : (r.acc.now || !r.acc.passedBy t.acc) = true := by
      obtain hn | hp := h r List.mem_cons_self
      · rw [hn, Bool.true_or]
      · rw [hp, Bool.not_false, Bool.or_true]
    rw [meetLoads, if_pos hr, ih fun q hq => h q (List.mem_cons_of_mem _ hq)]
    rfl

theorem Regs.meetLoads_none {g : Regs} {t : LocalStore} (h : ∀ q ∈ g.loads, q.acc.now = true ∨ q.acc.passedBy t.acc = false) :
    (g.meetLoads t).2 = [] ∧ (g.meetLoads t).1.loads = g.loads ∧ (g.meetLoads t).1.flight = g.flight := by
  have hq := Machine.meetLoads_none t g.loads [] h
  refine ⟨by rw [Regs.meetLoads, hq], ?_, ?_⟩
  · simp only [Regs.meetLoads, hq, List.map_map]
    exact List.map_id _
  · simp only [Regs.meetLoads, hq]
    refine (List.map_congr_left fun f hf => ?_).trans (List.map_id _)
    split
    · next r hr =>
      have hm := List.mem_of_find?_eq_some hr
      obtain ⟨q, -, rfl⟩ := List.mem_map.mp hm
      have heq := List.find?_some hr
      simp only [Bool.and_eq_true, beq_iff_eq] at heq
      obtain ⟨-, hwhat⟩ := heq
      rw [show q.what = f.what from hwhat]
      rfl
    · rfl

/-- Settles O29: LD and ST by their checks, one after the other, and a store that meets no load in flight. -/
theorem localAccess : Obligations.LocalAccess := by
  unfold Obligations.LocalAccess
  refine ⟨?_, fun g t => Regs.meetLoads_none, ?_⟩
  · intro s d a pm ac sz sxt off hf hpm hw o b t
    refine ⟨fun hr => ⟨_, _, t.raceRead_maySee b _, t.loadNotes_noted b, exec_ld_local hf hpm hw hr⟩,
      ⟨_, _, State.storeBytes_mayWrite ?_ _, exec_st_local hf hpm hw⟩⟩
    change 2 ^ sz.toNat ≤ 1024
    exact le_trans (Nat.pow_le_pow_right (by decide) (show sz.toNat ≤ 10 by omega)) (by decide)
  intro s d a pm ac sz sxt off hp hf ea h1 h2
  refine ⟨fun hpm hadv => ?_, fun hpm => ?_⟩
  · have hv (write : Bool) : (s.postCheck a pm).and (s.accessCheck ea sz write) = .trap 0x07 (s.stepOf a) := by
      rw [State.postCheck_trap hpm hadv, Verdict.trap_and (State.accessCheck_local_atOnce h1 h2)]
    exact ⟨exec_ld_trap hf hp (hv false), exec_st_trap hf hp (hv true)⟩
  · have hgo (v : Verdict) : (s.postCheck a pm).and v = v := by rw [State.postCheck_go hpm, Verdict.go_and]
    have hread (v : Verdict) (hw : Claims.inWindow s ea (2 ^ sz.toNat) (2 ^ sz.toNat))
        (h : s.loadCheck (ea.toNat - 0xF00000000000) (2 ^ sz.toNat) = v) : (s.postCheck a pm).and (s.accessCheck ea sz false) = v := by
      rw [hgo, State.accessCheck_inWindow hw, if_neg Bool.false_ne_true, h]
    refine ⟨fun h => ?_, fun halign hout => ?_, fun w hw hpend => ?_, fun u hw hpend hu hunit => ?_⟩
    · exact ⟨exec_ld_trap hf hp ((hgo _).trans (State.accessCheck_local_misaligned h1 h2 h)),
        exec_st_trap hf hp ((hgo _).trans (State.accessCheck_local_misaligned h1 h2 h))⟩
    · exact ⟨exec_ld_trap hf hp ((hgo _).trans (State.accessCheck_local_outside h1 h2 halign hout)),
        exec_st_trap hf hp ((hgo _).trans (State.accessCheck_local_outside h1 h2 halign hout))⟩
    · exact exec_ld_trap hf hp (hread _ hw (State.loadCheck_pending hpend))
    · have hpos := Nat.two_pow_pos sz.toNat
      refine exec_ld_trap hf hp (hread _ hw (State.loadCheck_bad hpend hu (by omega) (by omega) fun k _ hk hlt => by omega))

/-! ### VLD and VST -/

section
variable {s : State} {d : BitVec 6} {a : BitVec 5} {pm : Bool} {ac : BitVec 2} {off : BitVec 7} {m : BitVec 4}

theorem State.vea_eq (s : State) (a : BitVec 5) (off : BitVec 7) : s.vea a off = Claims.vaddr s a off := rfl

variable (hf : Claims.allFull s [Claims.A a] = true)
include hf

theorem exec_vld_trap {c : BitVec 8} {x : Word} (hp : s.core.issue.pass = false)
    (hv : (s.postCheck a pm).and (s.vldCheck (Claims.vaddr s a off)) = .trap c x) :
    exec (.vld d a pm ac off m) s = .next (Claims.traps s c x) := by
  change execVld d a pm ac off m s = _
  simp only [execVld, Verdict.all, allFull_A hf, State.vea_eq, Verdict.go_and, Verdict.and_go, hv, State.issueWith_trap hp, Claims.traps]

theorem exec_vst_trap {c : BitVec 8} {x : Word} (hp : s.core.issue.pass = false)
    (hv : (s.postCheck a pm).and (s.localCheck (Claims.vaddr s a off) 1024 64) = .trap c x) :
    exec (.vst d a pm ac off m) s = .next (Claims.traps s c x) := by
  change execVst d a pm ac off m s = _
  simp only [execVst, Verdict.all, allFull_A hf, State.vea_eq, Verdict.go_and, Verdict.and_go, hv, State.issueWith_trap hp, Claims.traps]

/-- The V-slot access of a local address. -/
def vectorAccess (ac : BitVec 2) (o : Nat) : ScratchAccess := { path := 1, ac := ac, off := o, size := 1024 }

variable (hpm : pm = true → Claims.advances s a) (hw : Claims.inWindow s (Claims.vaddr s a off) 1024 64)
include hpm hw

theorem exec_vld_local (hm : s.comp = false) (hr : Claims.readable s ((Claims.vaddr s a off).toNat - 0xF00000000000) 1024) :
    let b := vectorAccess ac ((Claims.vaddr s a off).toNat - 0xF00000000000)
    exec (.vld d a pm ac off m) s = .next (Claims.loads ((Claims.post s a pm 64).loadNotes b) 6 b 0 false
      (.v (physV s.core.regs.vrb d) (BitVec.ofNat 8192 (leNat (s.localLoad b))) (s.p m))) := by
  intro b
  have hv : s.vldCheck (Claims.vaddr s a off) = .go := by
    rw [State.vldCheck, State.localCheck_go hw (by decide), windowBase_toNat, Verdict.go_andThen, State.loadCheck_go hr]
  change execVld d a pm ac off m s = _
  simp only [execVld, Verdict.all, allFull_A hf, State.vea_eq, State.postCheck_go hpm, hv, Verdict.go_and, State.issueWith_go, windowBase_toNat]
  rw [State.sendLoad_post (.inl hm)]
  rfl

theorem exec_vst_local :
    let t := Claims.post s a pm 64
    let b := vectorAccess ac ((Claims.vaddr s a off).toNat - 0xF00000000000)
    exec (.vst d a pm ac off m) s = .next (Claims.puts t s.core.issue.slot b (s.v d) (t.storeBytes b (s.v d)) (t.storeKept b) (s.p m)) := by
  intro t b
  change execVst d a pm ac off m s = _
  simp only [execVst, Verdict.all, allFull_A hf, State.vea_eq, State.postCheck_go hpm, State.localCheck_go hw (by decide : 0 < 1024),
    Verdict.go_and, State.issueWith_go, windowBase_toNat]
  rw [State.localStore_post]
  rfl

end

/-! ### The result buffer -/

section
variable {e : BitVec 4}

/-- One pending result, as the wait of an entry counts it. -/
def waitStep (e : BitVec 4) (acc : Nat) (f : InFlight) : Nat :=
  match f.what with
  | .rb n _ => if n = e then Nat.max acc f.left else acc
  | _ => acc

theorem State.rbWait_eq (s : State) (e : BitVec 4) : s.rbWait e = s.core.pendingFlight.foldl (waitStep e) 0 := rfl

theorem waitStep_rb {acc : Nat} {f : InFlight} {v : VReg} (h : f.what = .rb e v) : waitStep e acc f = Nat.max acc f.left := by
  rw [waitStep, h]; exact if_pos rfl

theorem waitStep_or (acc : Nat) (f : InFlight) : waitStep e acc f = acc ∨ (∃ v, f.what = .rb e v) ∧ waitStep e acc f = Nat.max acc f.left := by
  by_cases h : ∃ v, f.what = .rb e v
  · obtain ⟨v, hv⟩ := h
    exact .inr ⟨⟨v, hv⟩, waitStep_rb hv⟩
  · left
    unfold waitStep
    split
    · next n v hv => exact if_neg fun (hn : n = e) => h ⟨v, hn ▸ hv⟩
    · rfl

theorem le_waitStep (acc : Nat) (f : InFlight) : acc ≤ waitStep e acc f := by
  obtain h | ⟨-, h⟩ := waitStep_or (e := e) acc f
  · exact h.ge
  · rw [h]; exact Nat.le_max_left _ _

/-- The wait of an entry bounds every pending result for it, and is that of one of them or the least. -/
theorem foldl_waitStep (l : List InFlight) (acc : Nat) :
    acc ≤ l.foldl (waitStep e) acc ∧ (∀ f ∈ l, ∀ v, f.what = .rb e v → f.left ≤ l.foldl (waitStep e) acc)
      ∧ (l.foldl (waitStep e) acc = acc ∨ ∃ f ∈ l, ∃ v, f.what = .rb e v ∧ f.left = l.foldl (waitStep e) acc) := by
  induction l generalizing acc with
  | nil => simp
  | cons g l ih =>
    obtain ⟨hacc, hall, hex⟩ := ih (waitStep e acc g)
    rw [List.foldl_cons]
    refine ⟨(le_waitStep acc g).trans hacc, ?_, ?_⟩
    · intro f hf v hv
      obtain rfl | hf := List.mem_cons.mp hf
      · refine le_trans ?_ hacc
        rw [waitStep_rb hv]
        exact Nat.le_max_right _ _
      · exact hall f hf v hv
    · obtain h | ⟨f, hf, hfv⟩ := hex
      · obtain hsame | ⟨⟨v, hv⟩, hmax⟩ := waitStep_or (e := e) acc g
        · exact .inl (h.trans hsame)
        · obtain hle | hle := le_total g.left acc
          · exact .inl (h.trans (hmax.trans (Nat.max_eq_left hle)))
          · exact .inr ⟨g, List.mem_cons_self, v, hv, (h.trans (hmax.trans (Nat.max_eq_right hle))).symm⟩
      · exact .inr ⟨f, List.mem_cons_of_mem _ hf, hfv⟩

/-- The wait of an entry is the longest of those pending for it. -/
theorem rbWait_longest (s : State) (e : BitVec 4) :
    (∀ f ∈ s.core.pendingFlight, ∀ v, f.what = .rb e v → f.left ≤ s.rbWait e)
      ∧ (s.rbWait e ≠ 0 → ∃ f ∈ s.core.pendingFlight, ∃ v, f.what = .rb e v ∧ f.left = s.rbWait e) := by
  obtain ⟨-, hall, hex⟩ := foldl_waitStep (e := e) s.core.pendingFlight 0
  rw [← State.rbWait_eq] at hall hex
  exact ⟨hall, fun hne => hex.resolve_left hne⟩

variable {s : State} {d : BitVec 6} {m : BitVec 4}

theorem exec_vldrb_valid (h : s.rbWait e = 0) :
    exec (.vldrb d e m) s = .next (Claims.answer s 2 (.v (physV s.core.regs.vrb d) (s.core.rb[e.toNat]'e.isLt) (s.p m))) := by
  change execVldrb d e m s = _
  rw [execVldrb, ensure_go (beq_iff_eq.mpr h), State.issueWith_go, State.mark_send]

theorem exec_vldrb_pending (h : s.rbWait e ≠ 0) (hp : s.core.issue.pass = false) :
    exec (.vldrb d e m) s = .next (Claims.traps s 0x05 (BitVec.ofNat 64 (s.rbWait e * 256 + e.toNat))) := by
  change execVldrb d e m s = _
  rw [execVldrb, ensure_trap (beq_eq_false_iff_ne.mpr h), State.issueWith_trap hp, Claims.traps]

end

/-- Settles O27: VLD and VST by their checks, one after the other, and VLDRB by the longest wait of its entry. -/
theorem vectorMemory : Obligations.VectorMemory := by
  unfold Obligations.VectorMemory
  refine ⟨?_, ?_, fun s d e m => ⟨exec_vldrb_valid, exec_vldrb_pending, rbWait_longest s e⟩⟩
  · intro s d a pm ac off m hm hf hpm hw
    have hpost : Claims.post s a pm 64 = if pm then Claims.answer s 1 (.a a (s.advanced a)) else s := by
      rw [Claims.post, hm]; rfl
    have hstores : (Claims.post s a pm 64).core.regs.stores = s.core.regs.stores := by
      rw [hpost]
      split
      · rw [Claims.answer, hm]; rfl
      · rfl
    dsimp only
    rw [← hpost]
    refine ⟨fun hr => ⟨_, _, s.raceRead_maySee _ _, State.loadNotes_noted _ _, exec_vld_local hf hpm hw hm hr⟩, ⟨_, _, ?_, exec_vst_local hf hpm hw⟩⟩
    have hmay := State.storeBytes_mayWrite (s := Claims.post s a pm 64) (b := vectorAccess ac ((Claims.vaddr s a off).toNat - 0xF00000000000))
      (le_refl 1024) (s.v d)
    unfold Claims.mayWrite at hmay ⊢
    rw [hstores] at hmay
    exact hmay
  intro s d a pm ac off m hm hp hf ea o
  refine ⟨fun hpm hadv => ?_, fun hpm => ?_⟩
  · exact ⟨exec_vld_trap hf hp (by rw [State.postCheck_trap hpm hadv, Verdict.trap_and (s.vldCheck_atOnce _)]),
      exec_vst_trap hf hp (by rw [State.postCheck_trap hpm hadv, Verdict.trap_and (s.localCheck_atOnce _ _ _)])⟩
  · have hgo (v : Verdict) : (s.postCheck a pm).and v = v := by rw [State.postCheck_go hpm, Verdict.go_and]
    have hcheck {c : BitVec 8} {x : Word} (h : s.localCheck ea 1024 64 = .trap c x) : s.vldCheck ea = .trap c x := by
      rw [State.vldCheck, h]; rfl
    have hread (v : Verdict) (hw : Claims.inWindow s ea 1024 64) (h : s.loadCheck o 1024 = v) : s.vldCheck ea = v := by
      rw [State.vldCheck, State.localCheck_go hw (by decide), windowBase_toNat, Verdict.go_andThen, h]
    refine ⟨fun h => ?_, fun halign hout => ?_, fun w hw hpend => ?_, fun u hw hpend hu h1 h2 hmin => ?_⟩
    · exact ⟨exec_vld_trap hf hp ((hgo _).trans (hcheck (State.localCheck_misaligned h))),
        exec_vst_trap hf hp ((hgo _).trans (State.localCheck_misaligned h))⟩
    · exact ⟨exec_vld_trap hf hp ((hgo _).trans (hcheck (State.localCheck_outside halign hout))),
        exec_vst_trap hf hp ((hgo _).trans (State.localCheck_outside halign hout))⟩
    · exact exec_vld_trap hf hp ((hgo _).trans (hread _ hw (State.loadCheck_pending hpend)))
    · refine exec_vld_trap hf hp ((hgo _).trans (hread _ hw (State.loadCheck_bad hpend hu h1 (by omega) fun k hk hle hlt => ?_)))
      exact Nat.not_le.mpr hlt (hmin k hk hle)

end Sys2Proof.Machine
end

section
/-! PROOFS. Global loads and stores of the S slot (R124, R151-R153, R215, R216): the checks that pass and those that trap or wait, what issues,
and the load that performs at its home. -/

namespace Sys2Proof.Machine

open Sys2Proof

/-! ### What a post-modify leaves -/

/-- A post-modify changes registers alone. -/
theorem State.postModify_regs (s : State) (a : BitVec 5) (pm : Bool) (n : Nat) :
    ∃ r, s.postModify a pm n = { s with core := { s.core with regs := r } } := by
  unfold State.postModify
  split
  · exact ⟨s.core.regs, rfl⟩
  · split
    · next hc =>
      rw [State.send_comp hc]
      refine ⟨(s.core.landFlight ⟨0, .s a (s.core.regs.sVal a + BitVec.ofNat 64 n), 0⟩).regs, ?_⟩
      by_cases ha : a = 0
      · simp only [Core.landFlight, Core.landOne, if_pos ha]
      · simp only [Core.landFlight, Core.landOne, if_neg ha]
    · next hc =>
      rw [State.send_main (Bool.eq_false_iff.mpr hc)]
      exact ⟨_, rfl⟩

section
variable (s : State) (a : BitVec 5) (pm : Bool) (n : Nat) (ea : Word)

theorem State.postModify_place (write : Bool) : (s.postModify a pm n).place ea write = s.place ea write := by
  obtain ⟨r, hr⟩ := s.postModify_regs a pm n
  rw [hr]; rfl

theorem State.postModify_ownOff? (k : Nat) (write : Bool) : (s.postModify a pm n).ownOff? ea k write = s.ownOff? ea k write := by
  obtain ⟨r, hr⟩ := s.postModify_regs a pm n
  rw [hr]; rfl

theorem State.postModify_ownLoad? (k : Nat) : (s.postModify a pm n).ownLoad? ea k = s.ownLoad? ea k := by
  obtain ⟨r, hr⟩ := s.postModify_regs a pm n
  rw [hr]; rfl

/-- What joins those outstanding after a post-modify does so without regard to the outcome noted. -/
theorem claims_outstanding_post (d : BitVec 5) (op : MemOp) :
    Claims.outstanding (Claims.post s a pm n) d op = Claims.outstanding (s.postModify a pm n) d op := by
  rw [claims_post_eq]
  split <;> rfl

theorem claims_stored_post (op : MemOp) : Claims.stored (Claims.post s a pm n) op = Claims.stored (s.postModify a pm n) op := by
  rw [claims_post_eq]
  split <;> rfl

/-- So does what joins them after a load of the own scratchpad. -/
theorem claims_outstanding_sawLoad_mark (p : State) (b : ScratchAccess) (d : BitVec 5) (op : MemOp) (r : Issued) :
    Claims.outstanding ((p.mark r).sawLoad b) d op = Claims.outstanding (p.sawLoad b) d op := by
  have hmark : (p.mark r).sawLoad b = (p.sawLoad b).mark r := p.notes_mark b p.loadKey (p.fresh + 1) r
  rw [hmark]
  rfl

end

/-! ### The checks of a global access -/

section
variable {s : State} {ea : Word} {sz : BitVec 2} {write : Bool}

/-- The own scratchpad through region 0x1 (log 76). -/
theorem State.ownOff?_eq_some_iff {e : TlbEntry} {size n o : Nat} (ht : Claims.translates s ea size write e) :
    s.ownOff? ea n write = some o ↔ Claims.ownAt s (Claims.at s ea e) n o := by
  rw [State.ownOff?, State.place_eq_at ht, Claims.ownAt]
  split
  · next c off hr =>
    rw [hr, Option.ite_none_right_eq_some, Region.scratch.injEq, Option.some.injEq]
    constructor
    · rintro ⟨⟨hc, hfit⟩, ho⟩
      exact ⟨⟨hc, ho⟩, ho ▸ hfit⟩
    · rintro ⟨⟨hc, ho⟩, hfit⟩
      exact ⟨⟨hc, ho ▸ hfit⟩, ho⟩
  · next hr =>
    constructor
    · exact fun h => by simp at h
    · rintro ⟨h, -⟩
      exact absurd h (hr s.me o)

variable (hout : Claims.outside ea)
include hout

theorem State.accessCheck_global : s.accessCheck ea sz write
    = (s.globalCheck ea (2 ^ sz.toNat) write).andThen (if write then .go else match s.ownOff? ea (2 ^ sz.toNat) false with
      | some o => s.pendCheck o (2 ^ sz.toNat)
      | none => .go) := by
  rw [State.accessCheck, windowOff?_outside hout] <;> rfl

/-- What the check of translation and rights refuses, the access is refused. -/
theorem State.accessCheck_global_fails {v : Verdict} (h : s.globalCheck ea (2 ^ sz.toNat) write = v) (hv : v ≠ .go) :
    s.accessCheck ea sz write = v := by
  rw [State.accessCheck_global hout, h]
  cases v with
  | go => exact absurd rfl hv
  | _ => rfl

theorem State.accessCheck_global_store {e : TlbEntry} (ht : Claims.translates s ea (2 ^ sz.toNat) true e) : s.accessCheck ea sz true = .go := by
  rw [State.accessCheck_global hout, State.globalCheck_go ht, if_pos rfl, Verdict.go_andThen]

theorem State.accessCheck_global_load {e : TlbEntry} (ht : Claims.translates s ea (2 ^ sz.toNat) false e) : s.accessCheck ea sz false
    = match s.ownOff? ea (2 ^ sz.toNat) false with
      | some o => s.pendCheck o (2 ^ sz.toNat)
      | none => .go := by
  rw [State.accessCheck_global hout, State.globalCheck_go ht, if_neg Bool.false_ne_true, Verdict.go_andThen]

end

theorem State.pendCheck_go {s : State} {off n : Nat} (h : s.pendingWord off n = none) : s.pendCheck off n = .go := by
  rw [State.pendCheck, h]

theorem State.pendCheck_trap {s : State} {off n w : Nat} (h : s.pendingWord off n = some w) :
    s.pendCheck off n = .trap 0x06 (windowBase + BitVec.ofNat 64 w) := by
  rw [State.pendCheck, h]

/-- A range that cannot be read although no store is pending on it holds an uncorrectable error. -/
theorem State.unitsGood_bad {s : State} {off n : Nat} (hp : s.pendingWord off n = none) (hr : ¬ Claims.readable s off n) :
    s.unitsGood off n ≠ .go := by
  rw [State.unitsGood_eq]
  split
  · exact Verdict.noConfusion
  · next hnone =>
    refine absurd ⟨fun u hu => ?_, hp⟩ hr
    have hnot := List.find?_eq_none.mp hnone u
    rw [mem_unitsOf, List.contains_iff_mem] at hnot
    by_contra hin
    exact hnot ⟨by omega, by omega⟩ hu

/-! ### What issues -/

section
variable {s : State} {d a : BitVec 5} {pm : Bool} {ac sz : BitVec 2} {sxt : Bool} {off : BitVec 9} {e : TlbEntry}
  (hf : Claims.allFull s [Claims.A a, Claims.S d] = true) (hpm : pm = true → Claims.advances s a)
  (hout : Claims.outside (Claims.address s a sz off))
include hf hpm hout

/-- A global load that passes its checks: it reads the own scratchpad where it can, and else it joins the operations outstanding. -/
theorem exec_ld_global (hv : s.accessCheck (Claims.address s a sz off) sz false = .go) : exec (.ld d a pm ac sz sxt off) s
    = .next (((match s.ownLoad? (Claims.address s a sz off) (2 ^ sz.toNat) with
      | some o => (((s.postModify a pm (2 ^ sz.toNat)).sawLoad (scalarAccess ac sz o)).produce d
          (loadValue sz sxt ((s.postModify a pm (2 ^ sz.toNat)).localLoad (scalarAccess ac sz o)))).refill (Claims.address s a sz off) false
      | none => (((s.postModify a pm (2 ^ sz.toNat)).clearFull d).queueOp
          (.load d (s.place (Claims.address s a sz off) false) ac sz sxt)).refill (Claims.address s a sz off) false)).mark .issued) := by
  obtain ⟨ha, hd⟩ := allFull_A_S hf
  change execLd d a pm ac sz sxt off s = _
  simp only [execLd, Verdict.all, ha, hd, State.ea_eq_address, State.postCheck_go hpm, hv, Verdict.go_and, State.issueWith_go,
    windowOff?_outside hout, State.postModify_ownLoad?, State.postModify_place]
  rfl

theorem exec_ld_outstanding (hv : s.accessCheck (Claims.address s a sz off) sz false = .go)
    (ht : Claims.translates s (Claims.address s a sz off) (2 ^ sz.toNat) false e)
    (ho : s.ownLoad? (Claims.address s a sz off) (2 ^ sz.toNat) = none) : exec (.ld d a pm ac sz sxt off) s
    = .next (State.refill (Claims.outstanding (Claims.post s a pm (2 ^ sz.toNat)) d (.load d (Claims.at s (Claims.address s a sz off) e) ac sz sxt))
        (Claims.address s a sz off) false) := by
  rw [exec_ld_global hf hpm hout hv, ho]
  dsimp only
  rw [State.mark_refill_outstanding, State.place_eq_at ht, claims_outstanding_post]

theorem exec_ld_own {o : Nat} (hv : s.accessCheck (Claims.address s a sz off) sz false = .go)
    (ho : s.ownLoad? (Claims.address s a sz off) (2 ^ sz.toNat) = some o) :
    let t := Claims.post s a pm (2 ^ sz.toNat)
    let b := scalarAccess ac sz o
    exec (.ld d a pm ac sz sxt off) s = .next (State.refill (Claims.outstanding (t.sawLoad b) d (.value d (Claims.loaded sz sxt (t.localLoad b)) 0))
      (Claims.address s a sz off) false) := by
  intro t b
  have hread : (s.postModify a pm (2 ^ sz.toNat)).localLoad b = t.localLoad b := by
    change _ = (Claims.post s a pm (2 ^ sz.toNat)).localLoad b
    rw [claims_post_eq]
    split <;> rfl
  have hsaw (op : MemOp) : Claims.outstanding ((s.postModify a pm (2 ^ sz.toNat)).sawLoad b) d op = Claims.outstanding (t.sawLoad b) d op := by
    change _ = Claims.outstanding ((Claims.post s a pm (2 ^ sz.toNat)).sawLoad b) d op
    rw [claims_post_eq]
    split
    · exact (claims_outstanding_sawLoad_mark _ b d op .issued).symm
    · rfl
  have hlen : (t.localLoad b).length = 2 ^ sz.toNat := (t.raceRead_maySee b _).1
  rw [exec_ld_global hf hpm hout hv, ho]
  dsimp only
  rw [State.produce, State.mark_refill_outstanding, hsaw, hread, loadValue_eq_loaded hlen]

/-- A global store that passes its checks. -/
theorem exec_st_global (hv : s.accessCheck (Claims.address s a sz off) sz true = .go) : exec (.st d a pm ac sz off) s
    = .next (((match s.ownOff? (Claims.address s a sz off) (2 ^ sz.toNat) true with
      | some o => ((s.postModify a pm (2 ^ sz.toNat)).localStore .s (scalarAccess ac sz o) ((s.core.regs.sVal d).setWidth 8192)
          (BitVec.ofNat 1024 (2 ^ 2 ^ sz.toNat - 1))).refill (Claims.address s a sz off) true
      | none => ((s.postModify a pm (2 ^ sz.toNat)).queueOp
          (.store (s.place (Claims.address s a sz off) true) ac sz (s.core.regs.sVal d))).refill (Claims.address s a sz off) true)).mark .issued) := by
  obtain ⟨ha, hd⟩ := allFull_A_S hf
  rw [State.destS_eq_needS] at hd
  change execSt d a pm ac sz off s = _
  simp only [execSt, Verdict.all, ha, hd, State.ea_eq_address, State.postCheck_go hpm, hv, Verdict.go_and, State.issueWith_go,
    windowOff?_outside hout, State.postModify_ownOff?, State.postModify_place]
  rfl

variable (ht : Claims.translates s (Claims.address s a sz off) (2 ^ sz.toNat) true e)
include ht

theorem exec_st_stored (ho : s.ownOff? (Claims.address s a sz off) (2 ^ sz.toNat) true = none) : exec (.st d a pm ac sz off) s
    = .next (State.refill (Claims.stored (Claims.post s a pm (2 ^ sz.toNat))
        (.store (Claims.at s (Claims.address s a sz off) e) ac sz (s.core.regs.sVal d))) (Claims.address s a sz off) true) := by
  rw [exec_st_global hf hpm hout (State.accessCheck_global_store hout ht), ho]
  dsimp only
  rw [State.mark_refill, ← claims_stored_eq, State.place_eq_at ht, claims_stored_post]

theorem exec_st_own {o : Nat} (ho : s.ownOff? (Claims.address s a sz off) (2 ^ sz.toNat) true = some o) :
    let t := Claims.post s a pm (2 ^ sz.toNat)
    let b := scalarAccess ac sz o
    exec (.st d a pm ac sz off) s = .next (State.refill (Claims.puts t .s b ((s.core.regs.sVal d).setWidth 8192)
      (t.storeBytes b ((s.core.regs.sVal d).setWidth 8192)) (t.storeKept b) (BitVec.ofNat 1024 (2 ^ 2 ^ sz.toNat - 1)))
      (Claims.address s a sz off) true) := by
  intro t b
  rw [exec_st_global hf hpm hout (State.accessCheck_global_store hout ht), ho]
  dsimp only
  rw [State.mark_refill, State.localStore_post]

end

/-! ### What traps or waits -/

section
variable {s : State} {ea : Word} {size : Nat} {write : Bool}

theorem error_of_ite {α ε : Type} {c : Prop} [Decidable c] {x y : Except ε α} {P : ε → Prop} (hx : ∀ f, x = .error f → P f)
    (hy : ∀ f, y = .error f → P f) : ∀ f, (if c then x else y) = .error f → P f := by
  intro f h
  split at h
  · exact hx f h
  · exact hy f h

theorem State.walk_error (va : Nat) : ∀ f, s.walk va = .error f → f = .absent ∨ f = .perm ∨ f = .wait := by
  unfold State.walk
  dsimp only
  repeat' refine error_of_ite ?_ ?_
  all_goals rintro f ⟨⟩
  all_goals simp

theorem State.rights_error {w : Who} {e : TlbEntry} {f : Flt} (h : s.rights w write e = some f) : f = .absent ∨ f = .perm := by
  unfold State.rights at h
  grind

theorem State.physCheck_cause {w : Who} {pa : Nat} {f : Flt} (h : s.physCheck w write pa size = some f) : f.cause = 0x09 := by
  have hf : f = .perm ∨ f = .staging ∨ f = .aperture := by
    unfold State.physCheck at h
    split at h <;> grind
  obtain rfl | rfl | rfl := hf <;> rfl

theorem claims_causeOf_eq (f : Flt) : Claims.causeOf f = f.cause := by cases f <;> rfl

theorem State.globalCheck_misaligned (h : ea.toNat % size ≠ 0) : s.globalCheck ea size write = .trap 0x07 ea := by
  rw [State.globalCheck, if_pos h]

variable (h : ea.toNat % size = 0)
include h

theorem State.globalCheck_high (hh : bits ea 48 16 ≠ 0) : s.globalCheck ea size write = .trap 0x08 ea := by
  rw [State.globalCheck, if_neg (not_not.mpr h), if_pos hh]

variable (hh : bits ea 48 16 = 0)
include hh

theorem State.globalCheck_walk_error (hc : s.cached ea.toNat write = none) {f : Flt} (hw : s.walk ea.toNat = .error f) :
    s.globalCheck ea size write = if f = .wait then .walk (ea.setWidth 48) write else .walkTrap f.cause ea := by
  rw [State.globalCheck, if_neg (not_not.mpr h), if_neg (not_not.mpr hh), hc, hw]
  cases f <;> rfl

theorem State.globalCheck_walk_ok (hc : s.cached ea.toNat write = none) {e : TlbEntry} {p : Nat} (hw : s.walk ea.toNat = .ok (e, p)) :
    s.globalCheck ea size write = match s.rights s.who write e with
      | some f => .walkTrap f.cause ea
      | none => .walk (ea.setWidth 48) write := by
  rw [State.globalCheck, if_neg (not_not.mpr h), if_neg (not_not.mpr hh), hc, hw] <;> rfl

theorem State.globalCheck_rights {e : TlbEntry} {f : Flt} (hc : s.cached ea.toNat write = some e) (hr : s.rights s.who write e = some f) :
    s.globalCheck ea size write = .trap f.cause ea := by
  simp only [State.globalCheck, if_neg (not_not.mpr h), if_neg (not_not.mpr hh), hc, hr]

theorem State.globalCheck_phys {e : TlbEntry} {f : Flt} (hc : s.cached ea.toNat write = some e) (hr : s.rights s.who write e = none)
    (hp : s.physCheck s.who write (e.leafAt s ea.toNat).pa size = some f) : s.globalCheck ea size write = .trap f.cause ea := by
  simp only [State.globalCheck, if_neg (not_not.mpr h), if_neg (not_not.mpr hh), hc, hr, hp]

end

section
variable {s : State} {write : Bool} {d a : BitVec 5} {pm : Bool} {ac sz : BitVec 2} {sxt : Bool} {off : BitVec 9}
  (hf : Claims.allFull s [Claims.A a, Claims.S d] = true) (hpm : pm = true → Claims.advances s a) (hp : s.core.issue.pass = false)
include hf hpm hp

/-- An access whose address check traps. -/
theorem exec_access_trap {c : BitVec 8} {x : Word} (hv : s.accessCheck (Claims.address s a sz off) sz write = .trap c x) :
    exec (Claims.access write d a pm ac sz sxt off) s = .next (Claims.traps s c x) := by
  have hall : (s.postCheck a pm).and (s.accessCheck (Claims.address s a sz off) sz write) = .trap c x := by
    rw [State.postCheck_go hpm, Verdict.go_and, hv]
  cases write with
  | false => exact exec_ld_trap hf hp hall
  | true => exact exec_st_trap hf hp hall

/-- An access whose address check asks for a walk, or finds that it fails. -/
theorem exec_access_checked {v : Verdict} (hv : s.accessCheck (Claims.address s a sz off) sz write = v) (hgo : v ≠ .go) :
    exec (Claims.access write d a pm ac sz sxt off) s = s.issueWith v id := by
  obtain ⟨ha, hd⟩ := allFull_A_S hf
  have hany (f : State → State) : s.issueWith v f = s.issueWith v id := by
    cases v with
    | go => exact absurd rfl hgo
    | _ => simp only [State.issueWith, hp, Bool.false_eq_true, if_false]
  cases write with
  | false =>
    change execLd d a pm ac sz sxt off s = _
    simp only [execLd, Verdict.all, ha, hd, State.ea_eq_address, State.postCheck_go hpm, hv, Verdict.go_and, Verdict.and_go]
    exact hany _
  | true =>
    rw [State.destS_eq_needS] at hd
    change execSt d a pm ac sz off s = _
    simp only [execSt, Verdict.all, ha, hd, State.ea_eq_address, State.postCheck_go hpm, hv, Verdict.go_and, Verdict.and_go]
    exact hany _

theorem exec_access_walk (hv : s.accessCheck (Claims.address s a sz off) sz write = .walk ((Claims.address s a sz off).setWidth 48) write) :
    exec (Claims.access write d a pm ac sz sxt off) s = .next (Claims.walks s (Claims.address s a sz off) write) := by
  rw [exec_access_checked hf hpm hp hv (by simp), State.issueWith_walk hp, Claims.walks]

theorem exec_access_walkTrap {c : BitVec 8} {x : Word} (hv : s.accessCheck (Claims.address s a sz off) sz write = .walkTrap c x) :
    exec (Claims.access write d a pm ac sz sxt off) s = .next (Claims.walkTraps s c x) := by
  rw [exec_access_checked hf hpm hp hv (by simp), State.issueWith, if_neg (by rw [hp]; exact Bool.false_ne_true)]
  rfl

end

end Sys2Proof.Machine
end

section
/-! PROOFS. A load that performs at its home (R124, R150, R153), and the statement about global accesses. -/

namespace Sys2Proof.Machine

open Sys2Proof

/-! ### The bytes of a load from device memory -/

/-- A load may fill a first-level cache and count, and changes nothing else of its core and no memory. -/
structure State.Loaded (s u : State) : Prop where
  core : ∃ l1 ev, u.core = { s.core with l1 := l1, ev := ev }
  mem : u.mem = s.mem

theorem State.Loaded.count (s : State) (code : BitVec 8) (n : Nat) : s.Loaded (s.count code n) := by
  obtain ⟨ev, h⟩ := s.count_eq code n
  rw [h]
  exact ⟨⟨s.core.l1, ev, rfl⟩, rfl⟩

theorem State.Loaded.fill (s : State) (c : CoreRef) (f : Core → Sparse (BitVec 1024)) (n : Nat) :
    s.Loaded { s.onCore c (fun x => { x with l1 := f x }) with fresh := n } := by
  refine ⟨?_, ?_⟩
  · by_cases h : c = s.me
    · exact ⟨f s.core, s.core.ev, by rw [State.onCore_core, if_pos h]⟩
    · exact ⟨s.core.l1, s.core.ev, by rw [State.onCore_core, if_neg h]⟩
  · exact (s.setCore_fields c _).2.2.1

theorem State.Loaded.trans {s t u : State} (h : s.Loaded t) (g : t.Loaded u) : s.Loaded u := by
  obtain ⟨⟨l1, ev, hc⟩, hm⟩ := h
  obtain ⟨⟨l1', ev', gc⟩, gm⟩ := g
  exact ⟨⟨l1', ev', by rw [gc, hc]⟩, gm.trans hm⟩

section
variable {s : State} {w : Who} {p : Place} {n o : Nat} (hr : region p.pa.toNat = .device o) (hk : p.key = 0) (hn : 0 < n)
  (hl : p.pa.toNat % 128 + n ≤ 128)
include hr hk hn hl

theorem State.physRead_device : s.physRead w p.key.toNat p.pa.toNat n
    = if (s.lineMeta (p.pa.toNat / 128)).poison then .error .poison else .ok (Sparse.range 0 s.mem p.pa.toNat n) := by
  have hv : versioned p.pa.toNat = true := by rw [versioned, hr]
  have hp : s.anyPoison p.pa.toNat n = (s.lineMeta (p.pa.toNat / 128)).poison := by
    rw [State.anyPoison, linePieces_one hn hl, List.any_cons, List.any_nil, Bool.or_false]
  have hread : s.readPlain p.key.toNat p.pa.toNat n = Sparse.range 0 s.mem p.pa.toNat n := by rw [hk]; exact if_pos rfl
  rw [State.physRead, hr]
  dsimp only
  rw [hv, hp, hread]
  simp only [true_and]

variable (hc : ∀ c, Sparse.find? (s.getCore c).l1 (p.pa.toNat / 128) = none)
include hc

theorem State.loadBytes_device : s.Loaded (s.loadBytes w p n).1 ∧ (s.loadBytes w p n).2
    = if (s.lineMeta (p.pa.toNat / 128)).poison then .error .poison else .ok (Sparse.range 0 s.mem p.pa.toNat n) := by
  have hread := State.physRead_device (s := s) (w := w) hr hk hn hl
  have hdrop : s.dropLines p.pa.toNat n = s := by rw [State.dropLines, hr]
  cases hplain : p.plain with
  | false =>
    simp only [State.loadBytes, hplain, Bool.not_false, if_true, hdrop]
    exact ⟨⟨⟨s.core.l1, s.core.ev, rfl⟩, rfl⟩, hread⟩
  | true =>
    simp only [State.loadBytes, hplain, Bool.not_true, Bool.false_eq_true, if_false, hc, hread]
    cases hp : (s.lineMeta (p.pa.toNat / 128)).poison with
    | true => exact ⟨.count s 0x09 1, rfl⟩
    | false => exact ⟨(State.Loaded.count s 0x09 1).trans (.fill _ _ _ _), rfl⟩

end

/-! ### A result that arrives -/

section
variable (s : State) (e : MemEntry) (d : BitVec 5) (v : Word)

/-- A result changes no memory, no scratchpad and no operation outstanding. -/
theorem State.result_frame : (s.result e d v).core.memq = s.core.memq ∧ (s.result e d v).mem = s.mem
    ∧ (s.result e d v).core.scratch = s.core.scratch ∧ (s.result e d v).core.reports = s.core.reports := by
  have hland (x : Core) : (x.landFlight ⟨0, .late d v, 0⟩).memq = x.memq ∧ (x.landFlight ⟨0, .late d v, 0⟩).scratch = x.scratch
      ∧ (x.landFlight ⟨0, .late d v, 0⟩).reports = x.reports := by
    by_cases hd : d = 0
    · refine ⟨?_, ?_, ?_⟩ <;> simp only [Core.landFlight, Core.landOne, if_pos hd]
    · refine ⟨?_, ?_, ?_⟩ <;> simp only [Core.landFlight, Core.landOne, if_neg hd]
  have harr (x : Core) : (x.arrive e.sup (.late d v) 0).memq = x.memq ∧ (x.arrive e.sup (.late d v) 0).scratch = x.scratch
      ∧ (x.arrive e.sup (.late d v) 0).reports = x.reports := by
    unfold Core.arrive
    split
    · split
      · exact hland x
      · exact ⟨rfl, rfl, rfl⟩
    · exact hland x
  obtain ⟨hm, hs, hr⟩ := harr { s.core with
    rerun := s.core.rerun.map fun r => if e.no = 0 then r else { r with log := Sparse.set [] r.log e.no (Sparse.get [] r.log e.no ++ leBytes 8 v.toNat) }
    snapshot := s.core.snapshot.map fun g => if e.snap then { g with flight := g.flight ++ [⟨0, .late d v, 0⟩] } else g }
  exact ⟨hm, rfl, hs, hr⟩

variable {s e d v}

/-- A result whose task no trap has interrupted fills its register and changes no other. -/
theorem State.result_regs (hc : s.core.captured = none) (hd : d ≠ 0) : (s.result e d v).core.regs.sIsFull d = true
    ∧ (s.result e d v).core.regs.sVal d = v ∧ ∀ n, n ≠ d → (s.result e d v).core.regs.sVal n = s.core.regs.sVal n := by
  obtain ⟨-, hval, hfull⟩ := Core.landOne_s_same s.core hd v
  have hsame (n : BitVec 5) : (s.result e d v).core.regs.sVal n = (s.core.landOne (.late d v)).regs.sVal n
      ∧ (s.result e d v).core.regs.sIsFull n = (s.core.landOne (.late d v)).regs.sIsFull n := by
    simp only [State.result, State.arrive, Core.arrive, hc, Core.landFlight, Core.landOne_late hd]
    exact ⟨rfl, rfl⟩
  exact ⟨(hsame d).2.trans hfull, (hsame d).1.trans hval, fun n hn => (hsame n).1.trans (Core.landOne_s_other s.core hn v).2.1⟩

end

/-! ### The load performs -/

section
variable {s : State} {k : Nat} {e : MemEntry} {d : BitVec 5} {p : Place} {ac sz : BitVec 2} {sxt : Bool} {o : Nat}

theorem State.produces_load (hm : s.mayPerform k = some e) (hop : e.op = .load d p ac sz sxt) : s.produces s.me k = true := by
  have hq : s.core.memq[k]? = some e := by
    unfold State.mayPerform at hm
    split at hm
    · simp at hm
    · next e' he =>
      split at hm
      · simp at hm
      · rw [he, Option.some.inj hm]
  rw [State.produces, State.getCore_me, hq]
  simp only [hop, Bool.not_false]

/-- The machine after a task's load has performed. -/
theorem State.performOp_load (s : State) (hop : e.op = .load d p ac sz sxt) (hsup : e.sup = false) : s.performOp e
    = match s.loadBytes ⟨some s.job, false⟩ p (2 ^ sz.toNat) with
      | (u, .error f) => { u with core := { u.core with reports := u.core.reports ++ [⟨f.cause, p.va⟩] } }
      | (u, .ok bs) => u.result e d (loadValue sz sxt bs) := by
  unfold State.performOp
  simp only [hop, hsup, Bool.false_eq_true, if_false, State.lateReport, Bool.false_and]
  rfl

theorem exec_variableLatencyLanding (hm : s.mayPerform k = some e) (hop : e.op = .load d p ac sz sxt) :
    exec (.variableLatencyLanding s.me k) s = .next (({ s with core := s.core.unqueue k } : State).performOp e) := by
  change execVariableLatencyLanding s.me k s = _
  rw [execVariableLatencyLanding, State.produces_load hm hop, if_pos rfl, State.within_me, State.performAt, hm]

end

theorem loadPerforms {s : State} {k : Nat} {e : MemEntry} {d : BitVec 5} {p : Place} {ac sz : BitVec 2} {sxt : Bool} {o : Nat}
    (hm : s.mayPerform k = some e) (hop : e.op = .load d p ac sz sxt) (hsup : e.sup = false) (hr : region p.pa.toNat = .device o) (hk : p.key = 0)
    (hl : p.pa.toNat % 128 + 2 ^ sz.toNat ≤ 128) (hc : ∀ c, Sparse.find? (s.getCore c).l1 (p.pa.toNat / 128) = none) :
    ∃ t, exec (.variableLatencyLanding s.me k) s = .next t ∧ t.core.memq = dropAt s.core.memq k ∧ t.mem = s.mem ∧ t.core.scratch = s.core.scratch
      ∧ ((s.lineMeta (p.pa.toNat / 128)).poison = true → t.core.reports = s.core.reports ++ [⟨0x0A, p.va⟩] ∧ t.core.regs = s.core.regs)
      ∧ ((s.lineMeta (p.pa.toNat / 128)).poison = false → s.core.captured = none → d ≠ 0 → t.core.reports = s.core.reports ∧ t.core.regs.sIsFull d = true
        ∧ t.core.regs.sVal d = Claims.loaded sz sxt (Sparse.range 0 s.mem p.pa.toNat (2 ^ sz.toNat)) ∧ ∀ n, n ≠ d → t.core.regs.sVal n = s.core.regs.sVal n) := by
  have hcore (c : CoreRef) : Sparse.find? (State.getCore { s with core := s.core.unqueue k } c).l1 (p.pa.toNat / 128) = none := by
    by_cases h : c = s.me
    · have hme := hc s.me
      rw [State.getCore_me] at hme
      rw [h, State.getCore_me (s := { s with core := s.core.unqueue k })]
      exact hme
    · have hne := hc c
      rw [State.getCore, if_neg h] at hne
      rw [State.getCore, if_neg (show c ≠ ({ s with core := s.core.unqueue k } : State).me from h)]
      exact hne
  obtain ⟨⟨⟨l1, ev, hload⟩, hmem⟩, hres⟩ := State.loadBytes_device (s := { s with core := s.core.unqueue k })
    (w := ⟨some (State.job { s with core := s.core.unqueue k }), false⟩) hr hk (Nat.two_pow_pos sz.toNat) hl hcore
  refine ⟨_, exec_variableLatencyLanding hm hop, ?_⟩
  rw [State.performOp_load _ hop hsup]
  generalize hb : State.loadBytes { s with core := s.core.unqueue k } ⟨some (State.job { s with core := s.core.unqueue k }), false⟩ p (2 ^ sz.toNat) = b
    at hload hmem hres
  obtain ⟨u, r⟩ := b
  change u.core = _ at hload
  change u.mem = s.mem at hmem
  change r = if (s.lineMeta (p.pa.toNat / 128)).poison then _ else _ at hres
  have hmemq : u.core.memq = dropAt s.core.memq k := by rw [hload]; rfl
  have hscratch : u.core.scratch = s.core.scratch := by rw [hload]; rfl
  have hreports : u.core.reports = s.core.reports := by rw [hload]; rfl
  have hregs : u.core.regs = s.core.regs := by rw [hload]; rfl
  have hcaptured : u.core.captured = s.core.captured := by rw [hload]; rfl
  cases hp : (s.lineMeta (p.pa.toNat / 128)).poison with
  | true =>
    rw [hp, if_pos rfl] at hres
    subst hres
    dsimp only
    refine ⟨hmemq, hmem, hscratch, fun _ => ⟨?_, hregs⟩, fun h => by simp at h⟩
    rw [hreports]
    rfl
  | false =>
    rw [hp, if_neg Bool.false_ne_true] at hres
    subst hres
    have hlen : (Sparse.range 0 s.mem p.pa.toNat (2 ^ sz.toNat)).length = 2 ^ sz.toNat := by rw [Sparse.range_eq_map]; simp
    obtain ⟨hq, hm', hs, hrep⟩ := u.result_frame e d (loadValue sz sxt (Sparse.range 0 s.mem p.pa.toNat (2 ^ sz.toNat)))
    refine ⟨hq.trans hmemq, hm'.trans hmem, hs.trans hscratch, fun h => by simp at h, fun _ hcap hd => ?_⟩
    obtain ⟨hfull, hval, hother⟩ := State.result_regs (s := u) (e := e)
      (v := loadValue sz sxt (Sparse.range 0 s.mem p.pa.toNat (2 ^ sz.toNat))) (hcaptured.trans hcap) hd
    refine ⟨hrep.trans hreports, hfull, hval.trans (loadValue_eq_loaded hlen), fun n hn => ?_⟩
    rw [← hregs]
    exact hother n hn

/-- Settles O30: what issues by where the access goes, what traps or waits by the checks one after the other, and the load that performs. -/
theorem globalAccess : Obligations.GlobalAccess := by
  unfold Obligations.GlobalAccess
  refine ⟨?_, ?_, ?_⟩
  · intro s d a pm ac sz sxt off e hf hpm hout ea n p t acc
    refine ⟨fun ht => ⟨fun hno => ?_, fun o ho => ⟨fun hread => ?_, fun hpend hread => ?_, fun w hpend hp => ?_⟩⟩,
      fun ht => ⟨fun hno => ?_, fun o ho => ?_⟩⟩
    · have hnone : s.ownOff? ea n false = none :=
        Option.eq_none_iff_forall_ne_some.mpr fun o ho => hno o ((State.ownOff?_eq_some_iff ht).mp ho)
      refine exec_ld_outstanding hf hpm hout ?_ ht ?_
      · rw [State.accessCheck_global_load hout ht, hnone]
      · rw [State.ownLoad?, hnone]; rfl
    · have hsome : s.ownOff? ea n false = some o := (State.ownOff?_eq_some_iff ht).mpr ho
      have hgood : s.unitsGood o n = .go := State.unitsGood_go hread.1
      refine ⟨_, _, t.raceRead_maySee (acc o) _, ?_, exec_ld_own hf hpm hout ?_ ?_⟩
      · rw [State.sawLoad_eq]; exact t.notes_noted _ _ _
      · rw [State.accessCheck_global_load hout ht, hsome]
        exact State.pendCheck_go hread.2
      · rw [State.ownLoad?, hsome]
        exact Option.filter_eq_some_iff.mpr ⟨rfl, decide_eq_true hgood⟩
    · have hsome : s.ownOff? ea n false = some o := (State.ownOff?_eq_some_iff ht).mpr ho
      refine exec_ld_outstanding hf hpm hout ?_ ht ?_
      · rw [State.accessCheck_global_load hout ht, hsome]
        exact State.pendCheck_go hpend
      · rw [State.ownLoad?, hsome]
        exact if_neg (by rw [decide_eq_true_eq]; exact State.unitsGood_bad hpend hread)
    · have hsome : s.ownOff? ea n false = some o := (State.ownOff?_eq_some_iff ht).mpr ho
      refine exec_access_trap (write := false) hf hpm hp ?_
      rw [State.accessCheck_global_load hout ht, hsome]
      exact State.pendCheck_trap hpend
    · refine exec_st_stored hf hpm hout ht (Option.eq_none_iff_forall_ne_some.mpr fun o ho => hno o ((State.ownOff?_eq_some_iff ht).mp ho))
    · refine ⟨_, _, State.storeBytes_mayWrite ?_ _, exec_st_own hf hpm hout ht ((State.ownOff?_eq_some_iff ht).mpr ho)⟩
      change 2 ^ sz.toNat ≤ 1024
      exact le_trans (Nat.pow_le_pow_right (by decide) (show sz.toNat ≤ 10 by omega)) (by decide)
  · intro s write d a pm ac sz sxt off hp hf hpm ea i hout
    have trap {c : BitVec 8} (h : s.globalCheck ea (2 ^ sz.toNat) write = .trap c ea) : exec i s = .next (Claims.traps s c ea) :=
      exec_access_trap hf hpm hp (State.accessCheck_global_fails hout h (by simp))
    have walks (h : s.globalCheck ea (2 ^ sz.toNat) write = .walk (ea.setWidth 48) write) : exec i s = .next (Claims.walks s ea write) :=
      exec_access_walk hf hpm hp (State.accessCheck_global_fails hout h (by simp))
    have walkTraps {c : BitVec 8} (h : s.globalCheck ea (2 ^ sz.toNat) write = .walkTrap c ea) : exec i s = .next (Claims.walkTraps s c ea) :=
      exec_access_walkTrap hf hpm hp (State.accessCheck_global_fails hout h (by simp))
    refine ⟨fun h => trap (State.globalCheck_misaligned h), fun h hh => trap (State.globalCheck_high h hh), fun h hh =>
      ⟨fun hc f hw => ⟨s.walk_error ea.toNat f hw, ?_⟩, fun hc e q hw => ?_, fun e f hc hr => ⟨State.rights_error hr, ?_⟩, fun e f hc hr hph => ?_⟩⟩
    · have hv := State.globalCheck_walk_error (write := write) h hh hc hw
      by_cases hf : f = .wait
      · rw [if_pos hf] at hv ⊢
        exact walks hv
      · rw [if_neg hf] at hv ⊢
        rw [claims_causeOf_eq]
        exact walkTraps hv
    · have hv := State.globalCheck_walk_ok (write := write) h hh hc hw
      cases hr : s.rights s.who write e with
      | none => rw [hr] at hv; exact walks hv
      | some f => rw [hr] at hv; dsimp only; rw [claims_causeOf_eq]; exact walkTraps hv
    · rw [claims_causeOf_eq]
      exact trap (State.globalCheck_rights h hh hc hr)
    · have hv := State.globalCheck_phys h hh hc hr hph
      rw [State.physCheck_cause hph] at hv
      exact trap hv
  · exact fun s k e d p ac sz sxt o hm hop hsup hr hk hl hc => loadPerforms hm hop hsup hr hk hl hc

end Sys2Proof.Machine
end

section
/-! PROOFS. Protection (R292, R369-R375): the commit-class instructions without ck, CKPT, YIELD, and the snapshot of a frozen core. -/

namespace Sys2Proof.Machine

open Sys2Proof

/-! ### Commit-class instructions under protection -/

theorem State.needCommit_trap {s : State} (h : s.core.regs.status.getLsbD 1 = true) : s.needCommit false = .trap 0x0F s.wordVal :=
  ensure_trap (by rw [State.prot, h]; rfl) _ _

section
variable {s : State} {a b : BitVec 5} {ta tb : Bool} {n : BitVec 6} (h : s.core.regs.status.getLsbD 1 = true) (hp : s.core.issue.pass = false)
  (ha : s.core.regs.sIsFull a = true)
include h hp ha

theorem exec_semadd_protected : exec (.semadd a ta false n) s = .next (Claims.traps s 0x0F s.wordVal) := by
  change execSemadd a ta false n s = _
  rw [execSemadd, State.needS_go ha, State.needCommit_trap h, Verdict.go_and, State.issueWith_trap hp, Claims.traps]

theorem exec_semaddRemote_protected (hb : s.core.regs.sIsFull b = true) (h10 : (s.s b).toNat < 2 ^ 10) (h144 : (s.s b).toNat % 2 ^ 8 < 144) :
    exec (.semaddRemote a b ta tb false n) s = .next (Claims.traps s 0x0F s.wordVal) := by
  have hok : decide ((s.s b).toNat < 2 ^ 10 ∧ bits (s.s b) 0 8 < 144) = true := decide_eq_true ⟨h10, h144⟩
  change execSemaddRemote a b ta tb false n s = _
  simp only [execSemaddRemote, Verdict.all, State.needS_go ha, State.needS_go hb, ensure_go hok, State.needCommit_trap h, Verdict.go_and,
    Verdict.and_go, State.issueWith_trap hp, Claims.traps]

theorem exec_cqpush_protected (hroom : s.core.regs.countQ.length < 64) : exec (.cqpush a ta false) s = .next (Claims.traps s 0x0F s.wordVal) := by
  change execCqpush a ta false s = _
  simp only [execCqpush, Verdict.all, State.needS_go ha, waitFor_go (decide_eq_true hroom), State.needCommit_trap h, Verdict.go_and,
    Verdict.and_go, State.issueWith_trap hp, Claims.traps]

theorem exec_tdec_protected {e : TlbEntry} {d : Nat} (ht : Claims.translates s (s.s a) 128 true e)
    (hr : region (Claims.at s (s.s a) e).pa.toNat = .device d) : exec (.tdec a ta false) s = .next (Claims.traps s 0x0F s.wordVal) := by
  change execTdec a ta false s = _
  simp only [execTdec, Verdict.all, State.needS_go ha, State.recordCheck_go ht hr, State.needCommit_trap h, Verdict.go_and,
    Verdict.and_go, State.issueWith_trap hp, Claims.traps]

end

/-! ### CKPT and YIELD -/

theorem State.rangeCheck_go {s : State} {p : Nat × Nat} (h1 : p.1 % 64 = 0) (h2 : p.2 % 64 = 0) (h3 : p.1 + p.2 ≤ s.core.window false) : s.rangeCheck p = .go := by
  have halign : (p.1 % 64 == 0 && p.2 % 64 == 0) = true := by rw [h1, h2]; rfl
  rw [State.rangeCheck, ensure_go halign, ensure_go (decide_eq_true h3), Verdict.go_and]

theorem firstOf_go {l : List Verdict} (h : ∀ v ∈ l, v = .go) : firstOf l = .go := by
  have hnone : (l.find? fun v => decide (v ≠ .go)) = none := by
    rw [List.find?_eq_none]
    intro v hv
    rw [decide_eq_true_eq, not_not]
    exact h v hv
  rw [firstOf, hnone]; rfl

section
variable {s : State} {y : BitVec 4} {t : Task} (hm : s.me.isComp = false)
include hm

theorem exec_ckpt (h : s.feature 3 = true) : exec .ckpt s = .next (Claims.issued (if s.core.regs.status.getLsbD 1 then
    { s with core := { s.core with issue := { s.core.issue with ckpt := true } } } else s)) := by
  change execCkpt s = _
  rw [execCkpt, State.needMain_go hm, State.needFeature_go h, Verdict.go_and, State.issueWith_go, claims_issued_eq]
  rfl

/-- With every register full, nothing in flight and legal ranges YIELD issues. -/
theorem exec_yield_checked (hs : s.core.regs.sFull = BitVec.allOnes 32) (ha : s.core.regs.aFull = BitVec.allOnes 32) (hf : s.core.regs.flight = [])
    (hl : ∀ p ∈ yieldRanges (s.y y), p.1 % 64 = 0 ∧ p.2 % 64 = 0 ∧ p.1 + p.2 ≤ s.core.window false) (ht : s.core.task = some t) :
    exec (.yield y) s = .next (Claims.issued (
      if s.yieldRequeues then { s with core := { s.core with yielded := yieldRanges (s.y y), issue := { s.core.issue with yields := true } } }
      else { s with core := { s.core with quantum := (s.die s.me.die).quantumOf t.gen * 1024 } })) := by
  have hfull : s.allFull = true := by rw [State.allFull, hs, ha]; rfl
  have hnone : s.nothingInFlight = .go := ensure_go (by rw [hf]; rfl) _ _
  have hranges : firstOf (s.nothingInFlight :: (yieldRanges (s.y y)).map s.rangeCheck) = .go := by
    refine firstOf_go fun v hv => ?_
    obtain rfl | hv := List.mem_cons.mp hv
    · exact hnone
    · obtain ⟨p, hp, rfl⟩ := List.mem_map.mp hv
      obtain ⟨h1, h2, h3⟩ := hl p hp
      exact State.rangeCheck_go h1 h2 h3
  change execYield y s = _
  simp only [execYield, Verdict.all, State.needMain_go hm, waitFor_go hfull, hranges, Verdict.go_and, State.issueWith_go, ht]
  rw [claims_issued_eq]

end

theorem State.yieldRequeues_quantum {s : State} (h : s.core.quantum ≠ 0) : s.yieldRequeues = false := by
  unfold State.yieldRequeues
  split
  · rfl
  · rw [beq_eq_false_iff_ne.mpr h]
    simp only [Bool.false_and]

/-! ### The snapshot of a checkpoint -/

/-- The machine after a frozen core has taken its snapshot, before it acts on an error. -/
def State.afterSnapshot (s : State) : State :=
  let u := s.takeSnapshot
  { u with core := { u.core with life := if u.core.regs.ended then .ended else .running, errDue := false } }

section
variable {s : State} (hl : s.core.life = .checkpoint) (hc : s.mayCheckpoint = true)
include hl hc

theorem exec_checkpointSnapshot : exec (.checkpointSnapshot s.me) s
    = .next (Claims.orWaits s (if s.core.errDue then s.afterSnapshot.datapathError else s.afterSnapshot)) := by
  have hgo : (s.core.life != .checkpoint || !s.mayCheckpoint) = false := by rw [hl, hc]; rfl
  change execCheckpointSnapshot s.me s = _
  rw [execCheckpointSnapshot, State.within_me, State.orHold_eq, hgo, if_neg Bool.false_ne_true]
  rfl

theorem exec_checkpointSnapshot_plain (h : s.core.errDue = false) : exec (.checkpointSnapshot s.me) s = .next s.afterSnapshot := by
  rw [exec_checkpointSnapshot hl hc, h, if_neg Bool.false_ne_true, State.orWaits_held (s := s) (t := s.afterSnapshot) rfl]

/-- An error that waited is acted on in the state that the snapshot leaves (R374). -/
theorem exec_checkpointSnapshot_error (h : s.core.errDue = true) {u : State}
    (hu : exec (.checkpointSnapshot s.me) { s with core := { s.core with errDue := false } } = .next u) :
    exec (.checkpointSnapshot s.me) s = .next (Claims.orWaits s u.datapathError) := by
  have hplain := exec_checkpointSnapshot_plain (s := { s with core := { s.core with errDue := false } }) hl hc rfl
  have heq : u = s.afterSnapshot := (Host.Outcome.next.inj (hu.symm.trans hplain)).trans rfl
  rw [exec_checkpointSnapshot hl hc, h, if_pos rfl, heq]

end

/-- Settles O46: the four instructions by the check of ck, CKPT and YIELD by their checks, and the snapshot by whether an error waited. -/
theorem protectionIssue : Obligations.ProtectionIssue := by
  unfold Obligations.ProtectionIssue
  refine ⟨fun s a b ta tb n h hp ha => ⟨exec_semadd_protected h hp ha, exec_semaddRemote_protected h hp ha, exec_cqpush_protected h hp ha,
    fun e d => exec_tdec_protected h hp ha⟩, by decide, fun s y t hm ht => ⟨exec_ckpt hm, ?_, fun hl hc hcap => ?_⟩⟩
  · intro hs ha hf l hr
    have hy := exec_yield_checked hm hs ha hf hr ht
    refine ⟨fun h => ?_, fun h => ?_, State.yieldRequeues_quantum⟩
    · rw [hy, h, if_neg Bool.false_ne_true]
    · rw [hy, h, if_pos rfl]
      rfl
  · intro r
    have hr : s.core.taskRegs = s.core.regs := by rw [Core.taskRegs, hcap]
    refine ⟨fun h => ⟨_, exec_checkpointSnapshot_plain hl hc h, rfl, ?_, rfl, rfl, rfl, rfl, rfl, rfl, rfl, rfl⟩,
      fun h u => exec_checkpointSnapshot_error hl hc h⟩
    change some { s.core.taskRegs with status := s.core.taskRegs.status &&& ~~~4#64 } = some r
    rw [hr]

end Sys2Proof.Machine
end

section
/-! PROOFS. Steps that issue a bundle or a pair (R67-R71, R324): what the checks of a legal bundle let through, and the turn that ends. -/

namespace Sys2Proof.Machine

open Sys2Proof

/-! ### The turn -/

theorem State.trapReturn_res (s : State) : s.trapReturn.core.issue.res = .issued := by
  simp only [State.trapReturn, Core.landAll_issue]

/-- At a bundle's end no slot's outcome stands. -/
theorem State.finish_res (s : State) (all : List Instr) : (s.finish all).core.issue.res = .issued := by
  unfold State.finish
  extract_lets x transfer s1 u1 x1 s2 extra s3 s4 ck
  by_cases he : x.ended = true
  · rw [if_pos he]
    rfl
  · rw [if_neg he]
    split
    · exact State.trapReturn_res _
    · by_cases hy : x.yields = true
      · rw [if_pos hy]
        rfl
      · rw [if_neg hy]
        by_cases hk : ck = true
        · rw [if_pos hk]
          rfl
        · rw [if_neg hk]
          rfl

section
variable {s u : State} (ha : s.agenda = []) (hdue : s.due < unitPeriod) (ht : s.core.task.isSome = true) (hl : s.core.life = .running)
  (hsup : s.sup = false) (hr : s.core.rerun = none) (hrep : s.core.reports = [])
include ha hdue ht hl hsup hr hrep

/-- With nothing due at its boundary the core in focus issues its bundle, and then it is the next core's turn (R68). -/
theorem step_issues (hu : issueBundle exec s = .next u) (hres : u.core.issue.res = .issued) (hh : u.held = s.held) :
    step s = .next (State.handOn { u with due := u.due + 1 }) := by
  have hcan : s.canIssue = true := by rw [State.canIssue, ht, hl]; rfl
  have hnone : s.core.dueTrap = none := by rw [Core.dueTrap, hl, hrep]; rfl
  have hheld : ¬ (u.held && !s.held) = true := by rw [hh]; cases s.held <;> decide
  have hturn : s.issueTurn exec = .next u := by
    rw [State.issueTurn, hcan, hsup, hr, hnone, hu, Bool.not_true, if_neg Bool.false_ne_true, if_neg Bool.false_ne_true]
    exact if_neg hheld
  rw [step, runStep, ha]
  dsimp only
  rw [State.ownTurn, hcan, Bool.not_true, if_neg Bool.false_ne_true, if_neg (Nat.not_le.mpr hdue), hturn]
  dsimp only
  rw [if_neg]
  rw [hres, hr]
  simp

end

/-! ### A legal bundle of a main core -/

theorem vector_toList_eight {α : Type} (v : Vector α 8) : v.toList = [v[0], v[1], v[2], v[3], v[4], v[5], v[6], v[7]] := by
  apply List.ext_getElem
  · simp
  · intro i h1 h2
    have hi : i < 8 := by simpa using h1
    rw [Vector.getElem_toList]
    interval_cases i <;> rfl

/-- The words of a bundle, each with what it decodes to. -/
def fetched (l : List SlotInstr) : List SlotWord := l.map fun x => ⟨x.slot, x.word, .ok x.instr⟩

/-- Words that the core implements pass the check of R69. -/
theorem find?_bad_fetched {s : State} {l : List SlotInstr} (h : ∀ x ∈ l, s.illegal x.instr = false) :
    ((fetched l).find? fun w => match w.instr with
      | .error _ => true
      | .ok i => s.illegal i) = none := by
  rw [List.find?_eq_none]
  intro w hw
  obtain ⟨x, hx, rfl⟩ := List.mem_map.mp hw
  dsimp only
  rw [h x hx]
  exact Bool.false_ne_true

/-- The slot instructions of such words are those words' instructions. -/
theorem filterMap_fetched {s : State} {l : List SlotInstr} (h : ∀ x ∈ l, s.illegal x.instr = false) :
    ((fetched l).filterMap fun w => match w.instr with
      | .ok i => if s.illegal i then none else some ⟨w.slot, w.word, i⟩
      | .error _ => none) = l := by
  rw [fetched, List.filterMap_map]
  refine (List.filterMap_congr fun x hx => ?_).trans (List.filterMap_some (l := l))
  dsimp only [Function.comp]
  rw [h x hx]
  rfl

theorem fetchSlots_bundle {s : State} {off : Nat} {is : Vector Instr 8} (hc : s.comp = false) (h : ∀ x ∈ Claims.bundle s off is, Claims.legal s x) :
    fetchSlots s s.slotsOf off = fetched (Claims.bundle s off is) := by
  simp only [Claims.bundle, List.forall_mem_cons, Claims.legal, Claims.kindOf] at h
  obtain ⟨⟨h0, -⟩, ⟨h1, -⟩, ⟨h2, -⟩, ⟨h3, -⟩, ⟨h4, -⟩, ⟨h5, -⟩, ⟨h6, -⟩, ⟨h7, -⟩, -⟩ := h
  simp only [State.slotsOf, hc, Bool.false_eq_true, if_false, fetchSlots, h0, h1, h2, h3, h4, h5, h6, h7, fetched, Claims.bundle, List.map_cons,
    List.map_nil]

theorem map_instr_bundle (s : State) (off : Nat) (is : Vector Instr 8) : (Claims.bundle s off is).map SlotInstr.instr = is.toList := by
  rw [vector_toList_eight]; rfl

theorem State.acquiring_mayRead {s : State} {is : List Instr} (h : Claims.mayRead s is) : (s.acquiring && is.any Instr.readsMemory) = false := by
  obtain h | h := h
  · have : s.acquiring = false := by
      rw [State.acquiring, List.any_eq_false]
      intro e he
      obtain h | h := h e he <;> rw [h] <;> simp
    rw [this]; rfl
  · have : is.any Instr.readsMemory = false := List.any_eq_false.mpr fun i hi => by rw [h i hi]; exact Bool.false_ne_true
    rw [this, Bool.and_false]

/-- Slots that all may issue block nothing. -/
theorem State.blocked_none {s : State} {outs : List (Out State)} (h : ∀ o ∈ outs, Out.result o = .issued) : s.blocked outs none = none := by
  have hf (p : Issued → Bool) (hp : p .issued = false) : (outs.find? fun o => p (Out.result o)) = none := by
    rw [List.find?_eq_none]
    intro o ho
    rw [h o ho, hp]
    exact Bool.false_ne_true
  rw [State.blocked, hf (fun r => decide (r = .held)) rfl]
  dsimp only
  rw [hf (fun r => decide (r = .trapped 0x03)) rfl]
  dsimp only
  exact hf (fun r => decide (r ≠ .issued)) rfl

theorem issueBundle_bundle {s t : State} {off : Nat} {is : Vector Instr 8} (hc : s.comp = false) (hoff : s.textOff = some off)
    (hread : Claims.mayRead s is.toList) (hleg : ∀ x ∈ Claims.bundle s off is, Claims.legal s x) (hbad : s.badBundle is[0] is.toList = none)
    (htry : ∀ x ∈ Claims.bundle s off is, Claims.tried s (is.toList.any Instr.checkpoints) x = .issued)
    (hrun : runSlots exec (is.toList.any Instr.checkpoints) (Claims.bundle s off is) (s.fencedBy is.toList) = .next t) :
    issueBundle exec s = .next ((t.closeBundle (is.toList.any Instr.checkpoints && s.prot)).finish is.toList) := by
  have hill : ∀ x ∈ Claims.bundle s off is, s.illegal x.instr = false := fun x hx => (hleg x hx).2
  have hhead : is.toList.headD .nop = is[0] := by rw [vector_toList_eight]; rfl
  have hblock : s.blocked ((Claims.bundle s off is).map fun x => exec x.instr (s.withSlot x.slot x.word (is.toList.any Instr.checkpoints))) none = none := by
    refine State.blocked_none fun o ho => ?_
    obtain ⟨x, hx, rfl⟩ := List.mem_map.mp ho
    exact htry x hx
  have hacq : (!s.comp && s.acquiring && is.toList.any Instr.readsMemory) = false := by
    rw [hc, Bool.not_false, Bool.true_and, State.acquiring_mayRead hread]
  rw [issueBundle, hoff]
  dsimp only
  rw [fetchSlots_bundle hc hleg]
  have hl := filterMap_fetched hill
  have hb := find?_bad_fetched hill
  simp only [fetched] at hl hb ⊢
  erw [hl, hb, map_instr_bundle, hacq]
  rw [if_neg Bool.false_ne_true]
  dsimp only
  rw [hc, if_neg Bool.false_ne_true, hhead, hbad, hblock, hrun]

/-- Settles O5: the checks of a legal bundle let every slot through, and the turn ends with the bundle. -/
theorem stepRunsBundle : Obligations.StepRunsBundle := by
  unfold Obligations.StepRunsBundle
  intro s t off is ha hdue hc ht hl hsup hr hrep hoff hread hleg hbad htry hrun u hh
  exact step_issues ha hdue ht hl hsup hr hrep (issueBundle_bundle hc hoff hread hleg hbad htry hrun) (State.finish_res _ _) hh

/-! ### A legal pair of a companion core -/

section
variable {s : State} {x : SlotInstr}

theorem slotOut_mayRead (h : Claims.mayRead s [x.instr]) : slotOut exec s x = exec x.instr (s.withSlot x.slot x.word false) := by
  have hacq := State.acquiring_mayRead h
  rw [List.any_cons, List.any_nil, Bool.or_false] at hacq
  rw [slotOut, hacq, if_neg Bool.false_ne_true]

end

section
variable {s t u : State} {a b : SlotInstr}

theorem issueX_issued {s0 : State} (hx : slotOut exec t b = .next u) (hu : u.core.issue.res = .issued) :
    issueX exec s0 t a b = .next (u.finish [a.instr, b.instr]) := by
  rw [issueX, hx]
  dsimp only
  rw [hu]

theorem issuePair_issued (hx : s.core.issue.xLeft = false) (ha : slotOut exec s a = .next t) (ht : t.core.issue.res = .issued)
    (hb : slotOut exec t b = .next u) (hu : u.core.issue.res = .issued) (hbad : s.badBundle a.instr [a.instr, b.instr] = none) :
    issuePair exec s [a, b] = .next (u.finish [a.instr, b.instr]) := by
  have hres : Out.result (.next u) = .issued := hu
  rw [issuePair, hx, if_neg Bool.false_ne_true, ha]
  dsimp only
  simp only [ht, if_true, issueX_issued hb hu, hb, hres, hbad, reduceCtorEq, false_and, if_false, true_or, or_true]

end

theorem fetchSlots_pair {s : State} {off : Nat} {a b : Instr} (hc : s.comp = true) (ha : Claims.legal s ⟨.s, s.textWord off, a⟩)
    (hb : Claims.legal s ⟨.x, s.textWord (off + 4), b⟩) :
    fetchSlots s s.slotsOf off = fetched [⟨.s, s.textWord off, a⟩, ⟨.x, s.textWord (off + 4), b⟩] := by
  obtain ⟨h0, -⟩ := ha
  obtain ⟨h1, -⟩ := hb
  simp only [Claims.kindOf] at h0 h1
  simp only [State.slotsOf, hc, if_true, fetchSlots, h0, h1, fetched, List.map_cons, List.map_nil]

theorem issueBundle_pair {s t u : State} {off : Nat} {a b : Instr} (hc : s.comp = true) (hoff : s.textOff = some off)
    (hi : s.core.issue.xLeft = false) (ha : Claims.legal s ⟨.s, s.textWord off, a⟩) (hb : Claims.legal s ⟨.x, s.textWord (off + 4), b⟩)
    (hbad : s.badBundle a [a, b] = none) (hra : Claims.mayRead s [a]) (hta : exec a (s.withSlot .s (s.textWord off) false) = .next t)
    (ht : t.core.issue.res = .issued) (hrb : Claims.mayRead t [b]) (hub : exec b (t.withSlot .x (s.textWord (off + 4)) false) = .next u)
    (hu : u.core.issue.res = .issued) : issueBundle exec s = .next (u.finish [a, b]) := by
  have hill : ∀ x ∈ [(⟨.s, s.textWord off, a⟩ : SlotInstr), ⟨.x, s.textWord (off + 4), b⟩], s.illegal x.instr = false := by
    simp only [List.forall_mem_cons]
    exact ⟨ha.2, hb.2, by simp⟩
  have hpair := issuePair_issued (a := ⟨.s, s.textWord off, a⟩) (b := ⟨.x, s.textWord (off + 4), b⟩) hi
    ((slotOut_mayRead hra).trans hta) ht ((slotOut_mayRead hrb).trans hub) hu hbad
  rw [issueBundle, hoff]
  dsimp only
  rw [fetchSlots_pair hc ha hb]
  have hl := filterMap_fetched hill
  have hf := find?_bad_fetched hill
  simp only [fetched] at hl hf ⊢
  erw [hl, hf, hc]
  rw [Bool.not_true, Bool.false_and, Bool.false_and, if_neg Bool.false_ne_true]
  dsimp only
  rw [if_pos rfl]
  exact hpair

/-- Settles O6: the S word issues, the X word issues in the state that it leaves, and the turn ends with the pair. -/
theorem stepRunsPair : Obligations.StepRunsPair := by
  unfold Obligations.StepRunsPair
  intro s t u off a b ha hdue hc ht hl hsup hr hrep hi hoff hla hlb hbad hra hta hti hrb hub hui v hh
  exact step_issues ha hdue ht hl hsup hr hrep
    (issueBundle_pair hc hoff (by rw [hi]) hla hlb hbad hra hta hti hrb hub hui) (State.finish_res _ _) hh

end Sys2Proof.Machine
end

section
/-! PROOFS. What the units of a core do (R54, R123, R124, R126, R280, R281, R331, R362). -/

namespace Sys2Proof.Machine

open Sys2Proof

/-! ### Local stores that perform -/

/-- A core with its local stores noted otherwise. -/
def Core.withStores (l : List LocalStore) (x : Core) : Core := { x with regs := { x.regs with stores := l } }

/-- A note of a local store without what performing adds to it. -/
def LocalStore.bare (t : LocalStore) : LocalStore := { t with old := none, woke := [] }

theorem Core.beside_withStores (l : List LocalStore) : Core.Beside (Core.withStores l) where
  record x u := by
    unfold Core.withStores Core.record
    split
    · rfl
    · split <;> rfl
  wakeOne x l k := by
    unfold Core.withStores Core.wakeOne
    dsimp only
    split
    · rfl
    · split
      · rfl
      · split <;> rfl
  scratch _ _ := rfl
  read _ := rfl

/-- A store performs without regard to the notes. -/
theorem Core.landFlight_withStores {f : InFlight} (h : f.isStore = true) (x : Core) (l : List LocalStore) :
    (Core.withStores l x).landFlight f = Core.withStores l (x.landFlight f) := by
  obtain ⟨left, what, flags⟩ := f
  cases what
  case store =>
    rw [Core.landFlight, Core.landFlight, Core.landOne, Core.landOne]
    dsimp only
    rw [(Core.beside_withStores l).scratchStore]
    generalize x.scratchStore _ _ = y
    rfl
  all_goals exact nomatch h

/-- A store that performs notes the tokens that it pushes, and nothing else. -/
theorem Core.landStore_withStores {f : InFlight} (h : f.isStore = true) (x : Core) (l : List LocalStore) :
    ∃ l' : List LocalStore, l'.map LocalStore.bare = l.map LocalStore.bare ∧ (Core.withStores l x).landStore f = Core.withStores l' (x.landFlight f) := by
  unfold Core.landStore
  rw [Core.landFlight_withStores h]
  dsimp only
  split
  · exact ⟨l, rfl, rfl⟩
  · refine ⟨_, ?_, rfl⟩
    rw [List.map_map]
    refine List.map_congr_left fun t _ => ?_
    dsimp only [Function.comp]
    split <;> rfl

theorem Core.landStores_withStores {due : List InFlight} (h : ∀ f ∈ due, f.isStore = true) (x : Core) (l : List LocalStore) :
    ∃ l' : List LocalStore, l'.map LocalStore.bare = l.map LocalStore.bare ∧ due.foldl Core.landStore (Core.withStores l x) = Core.withStores l' (x.landAll due) := by
  induction due generalizing x l with
  | nil => exact ⟨l, rfl, rfl⟩
  | cons f due ih =>
    obtain ⟨l₁, h₁, e₁⟩ := Core.landStore_withStores (h f List.mem_cons_self) x l
    obtain ⟨l₂, h₂, e₂⟩ := ih (fun g hg => h g (List.mem_cons_of_mem f hg)) (x.landFlight f) l₁
    exact ⟨l₂, h₂.trans h₁, by rw [List.foldl_cons, e₁, e₂]; rfl⟩

/-- What the stores that perform now replace is noted with them. -/
theorem Core.performing_withStores (x : Core) :
    ∃ l : List LocalStore, l.map LocalStore.bare = x.regs.stores.map LocalStore.bare ∧ x.performing = Core.withStores l x := by
  refine ⟨_, ?_, rfl⟩
  rw [List.map_map]
  refine List.map_congr_left fun t _ => ?_
  dsimp only [Function.comp]
  split <;> rfl

/-- The core in focus once the stores that are due have performed, but for the notes of the stores. -/
def State.storesLanded (s : State) : Core :=
  ({ s.core with regs := { s.core.regs with flight := s.core.regs.flight.filter fun f => !(f.left == 0 && f.isStore) } } : Core).landAll
    (s.core.regs.flight.filter fun f => f.left == 0 && f.isStore)

theorem State.landStores_core (s : State) : ∃ l : List LocalStore, l.map LocalStore.bare = s.core.regs.stores.map LocalStore.bare
    ∧ s.landStores = { s with core := Core.withStores l s.storesLanded } := by
  obtain ⟨l₁, h₁, e₁⟩ := s.core.performing_withStores
  have hdue : ∀ f ∈ s.core.regs.flight.filter fun f => f.left == 0 && f.isStore, f.isStore = true := fun f hf =>
    (Bool.and_eq_true_iff.mp (List.mem_filter.mp hf).2).2
  obtain ⟨l₂, h₂, e₂⟩ := Core.landStores_withStores hdue
    { s.core with regs := { s.core.regs with flight := s.core.regs.flight.filter fun f => !(f.left == 0 && f.isStore) } } l₁
  refine ⟨l₂, h₂.trans h₁, ?_⟩
  rw [State.storesLanded, ← e₂, State.landStores, e₁]
  rfl

/-! ### Values that arrive -/

/-- A value waits for no operation that is queued before it (R306). -/
theorem State.waitsFor_value (s : State) (a : MemEntry) (d : BitVec 5) (v : Word) (fl : Flags) : s.waitsFor a (.value d v fl) = false := by
  have hl : s.locations (.value d v fl) = ([], 0) := rfl
  have ho : s.overlap a.op (.value d v fl) = false := by simp [State.overlap, hl]
  have hc : s.checked a.op (.value d v fl) = false := by
    simp only [State.checked, hl, List.any_nil]
    refine List.any_eq_false.mpr fun k _ => ?_
    split <;> simp
  have hv : s.checked (.value d v fl) a.op = false := by simp [State.checked, MemOp.checks]
  simp [State.waitsFor, State.blocks, MemOp.isValue, ho, hc, hv]

theorem State.mayPerform_value {s : State} {k : Nat} {e : MemEntry} {d : BitVec 5} {v : Word} {fl : Flags} (he : s.core.memq[k]? = some e)
    (hop : e.op = .value d v fl) (hl : e.lost = false) : s.mayPerform k = some e := by
  rw [State.mayPerform, he]
  simp [hl, hop, State.waitsFor_value, State.homeReady, MemOp.isAdd]

theorem State.produces_value {s : State} {k : Nat} {e : MemEntry} {d : BitVec 5} {v : Word} {fl : Flags} (he : s.core.memq[k]? = some e)
    (hop : e.op = .value d v fl) : s.produces s.me k = true := by
  rw [State.produces, State.getCore_me, he]
  simp [hop]

/-- A value outside a rerun, a snapshot and a trap lands at once (R124). -/
theorem State.result_lands {s : State} (hc : s.core.captured = none) (hr : s.core.rerun = none) (hs : s.core.snapshot = none) (e : MemEntry)
    (d : BitVec 5) (v : Word) (fl : Flags) : s.result e d v fl = { s with core := s.core.landFlight ⟨0, .late d v, fl⟩ } := by
  have hx : ({ s.core with captured := none, rerun := none, snapshot := none } : Core) = s.core := by rw [← hc, ← hr, ← hs]
  simp only [State.result, State.arrive, Core.arrive, hc, hr, hs, Option.map_none, hx]

theorem exec_variableLatencyLanding_value {s : State} {k : Nat} {e : MemEntry} {d : BitVec 5} {v : Word} {fl : Flags} (he : s.core.memq[k]? = some e)
    (hop : e.op = .value d v fl) (hl : e.lost = false) (hc : s.core.captured = none) (hr : s.core.rerun = none) (hs : s.core.snapshot = none) :
    exec (.variableLatencyLanding s.me k) s = .next { s with core := (s.core.unqueue k).landFlight ⟨0, .late d v, fl⟩ } := by
  change execVariableLatencyLanding s.me k s = _
  rw [execVariableLatencyLanding, if_pos (State.produces_value he hop), State.within_me, State.performAt, State.mayPerform_value he hop hl]
  simp only [State.performOp, hop]
  rw [State.result_lands (s := { s with core := s.core.unqueue k }) hc hr hs]

theorem exec_tokenLanding_fills {s : State} {v : Word} {m : List Word} {d : BitVec 5} {l : List (BitVec 5)} (hm : s.core.regs.mailbox = v :: m)
    (hd : s.core.regs.claims = d :: l) (hc : s.core.captured = none) :
    exec (.tokenLanding s.me) s = .next (State.acquire
      { s with core := { s.core with regs := { s.core.regs with mailbox := m, claims := l } }.landFlight ⟨0, .late d v, 0⟩ } .cluster) := by
  change execTokenLanding s.me s = _
  rw [execTokenLanding, State.within_me, hm, hd]
  simp only [State.arrive, Core.arrive, State.onRegs, hc]

/-! ### Remote adds -/

/-- The core that the operand of a remote add names (R279). -/
theorem addTarget_eq (w : Word) : addTarget w = ⟨BitVec.ofNat 2 (w.toNat / 2 ^ 8 % 4), BitVec.ofNat 8 (w.toNat % 2 ^ 8)⟩ :=
  (addTarget_eq_iff w _).mpr ⟨by simp, by simp⟩

theorem State.onCore_focus (s : State) (f : Core → Core) : s.onCore s.me f = { s with core := f s.core } := by simp [State.onCore, State.setCore]

/-- A remote add performs at its target while the task of its job runs there, and is noted as discarded else (R280, R281). -/
theorem exec_remoteSemaddArrival_arrives {s : State} {k : Nat} {a : RemoteAdd} (ha : s.core.adds[k]? = some a) (hafter : a.after = 0)
    (hbefore : ∀ b ∈ s.core.adds.take k, b.target ≠ a.target) (hdue : (s.getCore (addTarget a.target)).semDue = false) :
    exec (.remoteSemaddArrival s.me k) s = .next
      (let t : State := { s with core := { s.core with adds := dropAt s.core.adds k } }
       if t.runsJob (addTarget a.target) a.job then t.onCore (addTarget a.target) fun x => x.semAdd a.sem a.value
       else { t with core := { t.core with lostAdds := t.core.lostAdds ++ [a.target] } }) := by
  change execRemoteSemaddArrival s.me k s = _
  have hany : ((s.core.adds.take k).any fun b => b.target == a.target) = false :=
    List.any_eq_false.mpr fun b hb => by simpa using hbefore b hb
  rw [execRemoteSemaddArrival, State.getCore_me]
  simp only [ha, hafter, hany, hdue, bne_self_eq_false, Bool.or_self, Bool.false_eq_true, if_false, State.onCore_focus]

/-- Whether a core runs a job does not turn on the adds that wait. -/
theorem State.runsJob_adds (s : State) (l : List RemoteAdd) (c : CoreRef) (job : BitVec 6) :
    State.runsJob { s with core := { s.core with adds := l } } c job = s.runsJob c job := by
  unfold State.runsJob State.getCore
  by_cases h : c = s.me
  · simp [h]
  · simp [h]

theorem Core.semDue_of_due {x : Core} (h : x.issue.due = false) : x.semDue = false := by rw [Core.semDue, h, Bool.false_and]

/-! ### Firmware's kill, and cores that are not in focus -/

theorem exec_taskKill_kills {s : State} {t : Task} (ht : s.core.task = some t) (hsup : s.core.regs.status.getLsbD 0 = true)
    (hlife : s.core.life = .supervisor)
    (hheld : (s.kill (s.core.regs.trapCause.setWidth 8) s.core.regs.trapPc s.core.regs.trapVal).held = s.held) : ∃ u, exec (.taskKill s.me) s = .next u
      ∧ u.core.task = none ∧ u.core.regs = Regs.zero
      ∧ (u.die s.me.die).kill = (((s.die s.me.die).kill + 0x0001000000000000) &&& 0xFFFF000000000000) ||| (t.addr.setWidth 64 &&& 0xFFFFFFFFFF80) := by
  refine ⟨s.kill (s.core.regs.trapCause.setWidth 8) s.core.regs.trapPc s.core.regs.trapVal, ?_, State.kill_task _ _ _ _, State.kill_regs _ _ _ _,
    (State.kill_kill ht _ _ _).2⟩
  change execTaskKill s.me s = _
  have hgo : (s.sup && s.core.life == .supervisor) = true := by rw [hlife, State.sup, hsup]; rfl
  rw [execTaskKill, State.within_me, State.orHold_eq, if_pos hgo, State.orWaits_held hheld]

/-- A move of a core that is not in focus is that move with the core in focus, the focus given back. -/
theorem within_of_focus {s t : State} {c : CoreRef} (h : c ≠ s.me) {f : State → State}
    (e : (.next ((s.focus c).within c f) : Out State) = .next t) : (.next (s.within c f) : Out State) = .next (t.focus s.me) := by
  have e' : f (s.focus c) = t := by
    have hw := (s.focus c).within_me f
    rw [State.focus_me] at hw
    exact hw.symm.trans (Host.Outcome.next.inj e)
  rw [State.within, if_neg h, e']

/-- Settles O50: each unit's move on the core in focus by its own lemma; for another core the focus is moved there and back. -/
theorem coreEvents : Obligations.CoreEvents := by
  intro s k
  refine ⟨?_, ?_, fun e d v fl he hop hl hc hr hs => exec_variableLatencyLanding_value he hop hl hc hr hs, ?_, fun v m d l hm hd hc =>
    exec_tokenLanding_fills hm hd hc, ?_, fun t ht hsup hlife hheld => exec_taskKill_kills ht hsup hlife hheld, ?_⟩
  · change execFixedLatencyLanding s.me s = _
    rw [execFixedLatencyLanding, State.within_me]
    simp only [State.landResults, State.onRegs, beq_false]
  · obtain ⟨l, hl, e⟩ := s.landStores_core
    refine ⟨l, hl, ?_⟩
    change execScratchpadStorePerform s.me s = _
    rw [execScratchpadStorePerform, State.within_me, e]
    simp only [beq_true]
    rfl
  · intro a ha hafter hbefore hdue
    rw [← addTarget_eq] at hdue ⊢
    have h := exec_remoteSemaddArrival_arrives ha hafter hbefore (Core.semDue_of_due hdue)
    simp only [State.runsJob_adds] at h
    refine ⟨fun hj => h.trans ?_, fun hj => h.trans ?_⟩
    · rw [if_pos hj]; rfl
    · rw [if_neg (ne_true_of_eq_false hj)]
  · intro htask hmain
    change execQuantumExpiry s.me s = _
    simp [execQuantumExpiry, State.onCore_focus, htask, hmain]
  · intro c hc i hi t e
    simp only [List.mem_cons, List.not_mem_nil, or_false] at hi
    rcases hi with rfl | rfl | rfl | rfl | rfl | rfl | rfl | rfl | rfl | rfl <;> exact within_of_focus hc e

end Sys2Proof.Machine
end

section
/-! PROOFS. Host writes of the management registers (R32-R34, R37, R40, R205, R212, R386, R400, R404, R405). -/

namespace Sys2Proof.Machine

open Sys2Proof

/-! ### What waits on the link (R40, log 43) -/

/-- A write of a register waits behind a host write exactly where the statements say so. -/
theorem State.linkHeld_iff (s : State) (off : BitVec 16) (n : Nat) (v : Word) : s.linkHeld off n v = true ↔ Claims.linkHeld s := by
  rw [State.linkHeld, List.any_eq_true, Claims.linkHeld]
  constructor
  · rintro ⟨w, hw, hb⟩
    cases w with
    | tdec x => exact .inl ⟨of_decide_eq_true hb, x, hw⟩
    | reg o m x => exact .inr (.inl ⟨o, m, x, hw⟩)
    | drop => exact .inr (.inr hw)
    | mem | read => exact nomatch hb
  · rintro (⟨hf, x, hw⟩ | ⟨o, m, x, hw⟩ | hw)
    · exact ⟨_, hw, decide_eq_true hf⟩
    · exact ⟨_, hw, rfl⟩
    · exact ⟨_, hw, rfl⟩

/-- Of the accesses on the link that perform, a write of a register stays until its own move. -/
theorem State.hostRelease_keeps_reg {w : HostWrite} (hr : w.isReg = true) (l kept : List HostWrite) (s : State) (h : w ∈ l ∨ w ∈ kept) :
    w ∈ (State.hostRelease l kept s).dev.hostHeld := by
  induction l generalizing kept s with
  | nil => exact List.mem_reverse.mpr (h.resolve_left (List.not_mem_nil))
  | cons u l ih =>
    rw [State.hostRelease]
    split
    · refine ih _ _ ?_
      rcases h with h | h
      · rcases List.mem_cons.mp h with rfl | h
        · exact .inr List.mem_cons_self
        · exact .inl h
      · exact .inr (List.mem_cons_of_mem _ h)
    · refine ih _ _ ?_
      rcases h with h | h
      · rcases List.mem_cons.mp h with rfl | h
        · exact .inr (by rw [if_pos hr]; exact List.mem_cons_self)
        · exact .inl h
      · exact .inr (by split; exacts [List.mem_cons_of_mem _ h, h])

theorem State.hostArrive_keeps_reg (s : State) (off : BitVec 16) (n : Nat) (v : Word) :
    HostWrite.reg off n v ∈ (s.hostArrive (.reg off n v)).dev.hostHeld :=
  State.hostRelease_keeps_reg rfl _ _ _ (.inl (List.mem_append_right _ (List.mem_singleton_self _)))

section
variable {s : State} (h : ¬ Claims.linkHeld s) (off : BitVec 16) (n : Nat) (v : Word)
include h

/-- With the link free a write of a register takes effect at once. -/
theorem exec_hifRegisterWrite_free : exec (.hifRegisterWrite off n v) s = .next (s.registerWrite off n v) := by
  change execHifRegisterWrite off n v s = _
  rw [execHifRegisterWrite, if_neg (fun hh => h ((s.linkHeld_iff off n v).mp hh))]

theorem exec_hifRegisterWrite_misfit (hn : n ≠ 8 ∨ off.toNat % 8 ≠ 0) : exec (.hifRegisterWrite off n v) s = .next s := by
  rw [exec_hifRegisterWrite_free h, State.registerWrite, if_neg (by omega)]

theorem exec_hifRegisterWrite_word (ho : off.toNat % 8 = 0) : exec (.hifRegisterWrite off 8 v) s = .next (s.regWrite off.toNat v) := by
  rw [exec_hifRegisterWrite_free h, State.registerWrite, if_pos ⟨rfl, ho⟩]

end

/-- Where the link is held, a write of a register joins what waits on it, and the host's registers stay. -/
theorem exec_hifRegisterWrite_held {s : State} (h : Claims.linkHeld s) (off : BitVec 16) (n : Nat) (v : Word) :
    ∃ t, exec (.hifRegisterWrite off n v) s = .next t ∧ HostWrite.reg off n v ∈ t.dev.hostHeld ∧ Claims.keepsHost s t := by
  refine ⟨s.hostArrive (.reg off n v), ?_, s.hostArrive_keeps_reg off n v, (State.hostArrive_keeps (.refl s)).keepsHost⟩
  change execHifRegisterWrite off n v s = _
  rw [execHifRegisterWrite, if_pos ((s.linkHeld_iff off n v).mpr h)]

/-! ### The registers with a behaviour of their own -/

theorem exec_featureAcceptWrite (d : BitVec 2) (v : Word) (s : State) : exec (.featureAcceptWrite d v) s =
    .next (if s.dev.run then { s with dev := { s.dev with err := s.dev.err ||| 2 } }
      else { s with dev := { s.dev with accept := s.dev.accept.set d.toNat (if d = 0 then v &&& 0x7F else 0) d.isLt } }) := rfl

theorem bits_zero (w : BitVec n) (len : Nat) : bits w 0 len = w.toNat % 2 ^ len := rfl

theorem exec_ptrootWrite (v : Word) (s : State) : exec (.ptrootWrite v) s =
    .next (if s.dev.run = false ∧ v.toNat % 65536 = 0 then { s with dev := { s.dev with ptroot := v } } else s) := by
  change execPtrootWrite v s = _
  rw [execPtrootWrite, bits_zero]
  cases hr : s.dev.run with
  | true => rw [if_pos (.inl rfl), if_neg (by simp)]
  | false =>
    by_cases hv : v.toNat % 65536 = 0
    · rw [if_neg (by simpa using hv), if_pos ⟨rfl, hv⟩]; rfl
    · rw [if_pos (.inr hv), if_neg fun h => hv h.2]

theorem exec_fabricRankWrite (reg : BitVec 3) (v : Word) (s : State) : exec (.fabricRankWrite reg v) s =
    .next (if s.dev.run ∨ 5 ≤ reg.toNat then s
      else if reg = 0 then { s with dev := { s.dev with fabRank := v &&& 0x1FF } }
      else { s with dev := { s.dev with fabGrp := s.dev.fabGrp.setIfInBounds (reg.toNat - 1) v } }) := by
  change execFabricRankWrite reg v s = _
  rw [execFabricRankWrite]
  by_cases hrun : s.dev.run = true
  · rw [if_pos hrun, if_pos (.inl hrun)]
  · rw [if_neg hrun]
    by_cases h5 : 5 ≤ reg.toNat
    · have h0 : reg ≠ 0 := fun h => by rw [h] at h5; exact absurd h5 (by decide)
      rw [if_neg h0, if_neg (by omega), if_pos (.inr h5)]
    · rw [if_neg (not_or.mpr ⟨hrun, h5⟩ : ¬(s.dev.run = true ∨ 5 ≤ reg.toNat)), if_pos (by omega : reg.toNat ≤ 4)]
      rfl

theorem exec_fgrpWrite_enabled (g : BitVec 6) (v : Word) (s : State) (h : v.getLsbD 0 = true) :
    exec (.fgrpWrite g v) s = .next { s with dev := { s.dev with fgrp := s.dev.fgrp.set g.toNat (v &&& 0x000FFFFFFFFFFFC1) g.isLt } } := by
  change execFgrpWrite g v s = _
  rw [execFgrpWrite, if_pos h]
  rfl

/-! ### Islands (R404, R405) -/

theorem Island.settle_req (x : Island) (cur : BitVec 2) : (x.settle cur).req = x.req := rfl

theorem Island.settle_thr (x : Island) (cur : BitVec 2) : (x.settle cur).thr = true ↔ x.req < cur := by simp [Island.settle]

theorem Island.settle_cur {x : Island} {cur : BitVec 2} (h : x.req < cur) : (x.settle cur).cur = cur := by
  have h' : ¬ cur < x.req := by bv_omega
  simp [Island.settle, h']

/-- Settles O51: each write by its own meaning; the offsets of the map lead to them, unless the link is held. -/
theorem hostRegisterWrites : Obligations.HostRegisterWrites := by
  intro s v d i g isl lim reg
  refine ⟨rfl, exec_featureAcceptWrite d v s, exec_ptrootWrite v s, exec_fabricRankWrite reg v s, rfl, exec_fgrpWrite_enabled g v s, ⟨_, rfl, ?_, ?_, rfl, rfl, rfl⟩,
    ⟨_, rfl, rfl, rfl, rfl, ?_, fun hthr => ?_⟩, ⟨_, rfl, rfl, rfl, rfl, ?_, ?_, fun hlim => ?_⟩, fun h => ⟨fun off n hn => exec_hifRegisterWrite_misfit h off n v hn,
      ?_, ?_, ?_, ?_, ?_, ?_, ?_⟩, fun h off n => exec_hifRegisterWrite_held h off n v⟩
  · simp
  · simp [bits_zero] <;> rfl
  · simp [Island.settle_req]
  · simp [hthr, Island.settle]
  · simp [Island.settle_req]
  · simp [Island.settle_thr]
  · simp [Island.settle_cur hlim]
  all_goals rw [exec_hifRegisterWrite_word h _ v (by decide)]; rfl

end Sys2Proof.Machine
end

section
/-! PROOFS. Host traffic, counter writes, poison clears, decrements and the L2 split (R30, R39-R41, R209, R312, R378, R380, R402). -/

namespace Sys2Proof.Machine

open Sys2Proof

/-! ### An access on a free link -/

/-- The machine with other accesses waiting on the link. -/
def State.onLink (s : State) (l : List HostWrite) : State := { s with dev := { s.dev with hostHeld := l } }

theorem State.onLink_free {s : State} (h : s.dev.hostHeld = []) : s.onLink [] = s := by rw [State.onLink, ← h]

/-- An access that finds the link free and may perform does so at once. -/
theorem State.hostArrive_performs {s : State} {w : HostWrite} (h : s.dev.hostHeld = []) (hr : w.isReg = false)
    (hm : (s.onLink [w]).hostMay w = true) : s.hostArrive w = ((s.onLink [w]).hostPerform w).onLink [] := by
  have hl : (s.onDev fun d => { d with hostHeld := d.hostHeld ++ [w] }) = s.onLink [w] := by rw [State.onDev, h]; rfl
  have hkept : (([] : List HostWrite).any fun k => k.blocks (s.onLink [w]).tdecFull w) = false := rfl
  rw [State.hostArrive, State.release, hl]
  change State.hostRelease [w] [] _ = _
  rw [State.hostRelease, if_neg (by rw [hkept, hm]; decide), hr, State.hostRelease]
  rfl

/-- A frame keeps the place of a line within it, and of a byte within the line. -/
theorem State.reaim_mod (s : State) (pa : Nat) : s.reaim pa % 65536 = pa % 65536 := by
  unfold State.reaim
  split
  · next m _ => simp only [show (2 : Nat) ^ 16 = 65536 from rfl]; omega
  · rfl

theorem linesOf_one {pa n : Nat} (hn : 0 < n) (h : pa % 128 + n ≤ 128) : linesOf pa n = [pa / 128] := by
  have hc : (pa + n + 127) / 128 - pa / 128 = 1 := by omega
  simp [linesOf, hc]

theorem mem_linesOf {pa n l : Nat} (h : l ∈ linesOf pa n) (hn : 0 < n) : ∃ a, pa ≤ a ∧ a < pa + n ∧ a / 128 = l := by
  simp only [linesOf, List.mem_map, List.mem_range] at h
  obtain ⟨i, hi, rfl⟩ := h
  exact ⟨if i = 0 then pa else 128 * (pa / 128 + i), by split <;> omega, by split <;> omega, by split <;> omega⟩

theorem Core.noteStale_stale (x : Core) (path : BitVec 3) (line : Nat) : x.noteStale path line = { x with stale := (x.noteStale path line).stale } := by
  unfold Core.noteStale
  split <;> rfl

/-- The host's write of one line is the write at the line's home, under the frame where the line lies now (R30, R380). -/
theorem exec_hostMemWrite_line {s : State} {pa : PAddr} {bs : List Byte} (hfree : s.dev.hostHeld = []) (hin : pa.toNat + bs.length ≤ 4 * dieBytes)
    (hl : pa.toNat % 128 + bs.length ≤ 128) (hn : 0 < bs.length) (hready : s.channelReady (s.reaim (128 * (pa.toNat / 128))) = true)
    (hcke : s.ckeHolds (s.reaim (128 * (pa.toNat / 128))) = false) (hp : (s.lineMeta (s.reaim pa.toNat / 128)).poison = false)
    (hf : s.reaim pa.toNat / 128 ∉ s.flaws) :
    exec (.hostMemWrite pa bs) s = .next ((s.writeLine 0 (s.reaim pa.toNat) bs).1.onCores fun x => x.noteStale 7 (s.reaim pa.toNat / 128)) := by
  have hmay : (s.onLink [.mem pa bs]).hostMay (.mem pa bs) = true := by
    simp only [State.hostMay, State.hostReady, linesOf_one hn hl, List.all_cons, List.all_nil, Bool.and_true, Bool.and_eq_true, Bool.not_eq_true']
    exact ⟨hready, hcke⟩
  change execHostMemWrite pa bs s = _
  rw [execHostMemWrite, inWindow, if_pos (decide_eq_true hin), State.hostArrive_performs hfree rfl hmay]
  simp only [State.hostPerform, linePieces_one hn hl, List.map_cons, List.map_nil, State.writeLines, List.take_length, List.foldl_cons, List.foldl_nil]
  have hr : (s.onLink [.mem pa bs]).reaim pa.toNat = s.reaim pa.toNat := rfl
  have hdone : ((s.writeLine 0 (s.reaim pa.toNat) bs).1.onCores fun x => x.noteStale 7 (s.reaim pa.toNat / 128)).dev.hostHeld = [] := by
    rw [State.writeLine_clean hp hf]; exact hfree
  rw [← State.onLink_free hdone]
  rw [hr, State.writeLine_clean hp hf, State.writeLine_clean (s := s.onLink [.mem pa bs]) hp hf]
  rfl

/-- A read of lines that are ready and not poisoned returns their bytes (R312). -/
theorem exec_hostMemRead_clean {s : State} {pa : PAddr} {n : Nat} (hfree : s.dev.hostHeld = []) (hin : pa.toNat + n ≤ 4 * dieBytes) (hn : 0 < n)
    (h : ∀ a, pa.toNat ≤ a → a < pa.toNat + n → s.channelReady (s.reaim (128 * (a / 128))) = true ∧ (s.lineMeta (s.reaim a / 128)).poison = false) :
    exec (.hostMemRead pa n) s = .next { s with
      dev := { s.dev with hostRead := (List.range n).map fun i => Sparse.get 0 s.mem (s.reaim (pa.toNat + i)) }, fresh := s.fresh + n } := by
  have hmay : (s.onLink [.read pa n]).hostMay (.read pa n) = true := by
    refine List.all_eq_true.mpr fun l hl => ?_
    obtain ⟨a, ha, hb, rfl⟩ := mem_linesOf hl hn
    exact (h a ha hb).1
  have hbytes : s.hostBytes pa.toNat n = (List.range n).map fun i => Sparse.get 0 s.mem (s.reaim (pa.toNat + i)) := by
    refine List.map_congr_left fun i hi => ?_
    have hi' := List.mem_range.mp hi
    exact if_neg (ne_true_of_eq_false (h (pa.toNat + i) (by omega) (by omega)).2)
  change execHostMemRead pa n s = _
  rw [execHostMemRead, inWindow, if_pos (decide_eq_true hin), State.hostArrive_performs hfree rfl hmay, ← hbytes]
  exact congrArg Host.Outcome.next (State.onLink_free
    (s := { s with dev := { s.dev with hostRead := s.hostBytes pa.toNat n }, fresh := s.fresh + n }) hfree)

/-! ### Counter writes (R40) -/

theorem exec_hifTdecWrite_queues {s : State} {v : Word} (hfree : s.dev.hostHeld = []) (hrun : s.dev.run = true) (ha : v.toNat % 128 = 0)
    (hv : v.toNat < 2 ^ 48) (hq : s.dev.tdecQ.length < 1024) :
    exec (.hifTdecWrite 8 v) s = .next { s with dev := { s.dev with tdecQ := s.dev.tdecQ ++ [v] } } := by
  have hmay : (s.onLink [.tdec v]).hostMay (.tdec v) = true := by
    have hfull : (s.onLink [.tdec v]).tdecFull = false := decide_eq_false (Nat.not_le.mpr hq)
    rw [State.hostMay, hfull]; rfl
  have hhigh : bits v 48 16 = 0 := by
    rw [bits, Nat.shiftRight_eq_div_pow, Nat.div_eq_of_lt hv, Nat.zero_mod]
  have hno : ¬(8 ≠ 8 ∨ (!s.dev.run) = true ∨ bits v 0 7 ≠ 0 ∨ bits v 48 16 ≠ 0) := by
    rw [hrun, hhigh, bits_zero]; simpa using ha
  change execHifTdecWrite 8 v s = _
  rw [execHifTdecWrite, State.counterWrite, if_neg (fun h => h rfl), if_neg hno, State.hostArrive_performs hfree rfl hmay]
  exact congrArg Host.Outcome.next (State.onLink_free (s := { s with dev := { s.dev with tdecQ := s.dev.tdecQ ++ [v] } }) hfree)

theorem exec_hifTdecWrite_drops {s : State} {v : Word} (hfree : s.dev.hostHeld = [])
    (h : s.dev.run = false ∨ v.toNat % 128 ≠ 0 ∨ 2 ^ 48 ≤ v.toNat) :
    exec (.hifTdecWrite 8 v) s = .next { s with dev := { s.dev with err := s.dev.err ||| 1 } } := by
  have hhigh (hv : 2 ^ 48 ≤ v.toNat) : bits v 48 16 ≠ 0 := by
    have := v.isLt
    rw [bits, Nat.shiftRight_eq_div_pow]
    omega
  have hdrop : 8 ≠ 8 ∨ (!s.dev.run) = true ∨ bits v 0 7 ≠ 0 ∨ bits v 48 16 ≠ 0 := by
    rcases h with h | h | h
    · exact .inr (.inl (by rw [h]; rfl))
    · exact .inr (.inr (.inl h))
    · exact .inr (.inr (.inr (hhigh h)))
  change execHifTdecWrite 8 v s = _
  rw [execHifTdecWrite, State.counterWrite, if_neg (fun h => h rfl), if_pos hdrop, State.hostArrive_performs hfree rfl rfl]
  exact congrArg Host.Outcome.next (State.onLink_free (s := { s with dev := { s.dev with err := s.dev.err ||| 1 } }) hfree)

/-! ### Poison clears (R378) -/

theorem exec_poisonClear_notes {s : State} {v : Word} {d : Nat} (hr : region (v.toNat / 128 % 2 ^ 45 * 128) = .device d) (h : s.dev.pclr = none) :
    exec (.poisonClear v) s = .next { s with dev := { s.dev with pclr := some (BitVec.ofNat 45 (v.toNat / 128 % 2 ^ 45)) } } := by
  have hb : bits v 7 45 = v.toNat / 128 % 2 ^ 45 := by rw [bits, Nat.shiftRight_eq_div_pow]
  change execPoisonClear v s = _
  rw [execPoisonClear, hb, hr, h]
  rfl

theorem exec_poisonClearDone_waits {s : State} {l : BitVec 45} (h : s.dev.pclr = some l) (hc : s.channelReady (128 * l.toNat) = false) :
    exec .poisonClearDone s = .next s := by
  change execPoisonClearDone s = _
  simp only [execPoisonClearDone, h, hc, Bool.not_false, if_true]

theorem Sparse.get_cleared (m : Sparse Byte) (lo n a : Nat) :
    Sparse.get 0 (Sparse.setRange 0 m lo (List.replicate n 0)) a = if lo ≤ a ∧ a < lo + n then 0 else Sparse.get 0 m a := by
  rw [Sparse.get_setRange, List.length_replicate]
  split
  · next h => rw [List.getD_replicate _ (by omega)]
  · rfl

/-- The machine once a poison clear of a line is done. -/
def State.clearedLine (s : State) (l : Nat) : State :=
  { s with mem := Sparse.setRange 0 s.mem (128 * l) (List.replicate 128 0), lines := Sparse.set {} s.lines l {}, dev := { s.dev with pclr := none } }

theorem State.clearedLine_lineMeta (s : State) (l k : Nat) : (s.clearedLine l).lineMeta k = if k = l then {} else s.lineMeta k := by
  rw [State.lineMeta, State.clearedLine, Sparse.get_set, State.lineMeta]

theorem State.clearedLine_mem (s : State) (l a : Nat) : Sparse.get 0 (s.clearedLine l).mem a = if a / 128 = l then 0 else Sparse.get 0 s.mem a := by
  rw [State.clearedLine, Sparse.get_cleared]
  exact if_congr (by omega) rfl rfl

theorem exec_poisonClearDone_clears {s : State} {l : BitVec 45} (h : s.dev.pclr = some l) (hc : s.channelReady (128 * l.toNat) = true) :
    exec .poisonClearDone s = .next (s.clearedLine l.toNat) := by
  change execPoisonClearDone s = _
  rw [execPoisonClearDone, h]
  dsimp only
  rw [if_neg (by rw [hc]; decide), State.clearedLine, State.onDev]

/-! ### The L2 split (R209) -/

theorem Sparse.get_filter {β : Type} (dflt : β) (m : Sparse β) (p : Nat → Bool) (k : Nat) :
    Sparse.get dflt (m.filter fun e => p e.1) k = if p k then Sparse.get dflt m k else dflt := by
  rw [Sparse.get, Sparse.find?_filter, Sparse.get]
  split <;> rfl

/-- An address of a die's staging. -/
def stagingOf (d : BitVec 2) (pa : Nat) : Bool :=
  match region pa with
  | .staging k _ => k == d.toNat
  | _ => false

theorem exec_l2SplitApply {s : State} {d : BitVec 2} {w : Word} (hw : (s.die d).l2want = some w) (hb : s.dieBusy d = false) :
    exec (.l2SplitApply d) s = .next (({ s with mem := s.mem.filter fun e => !stagingOf d e.1 } : State).onDie d fun x => { x with l2split := w, l2want := none }) := by
  change execL2SplitApply d s = _
  simp only [execL2SplitApply, hw, hb, Bool.false_eq_true, if_false]
  rfl

theorem exec_l2SplitApply_busy {s : State} {d : BitVec 2} (hb : s.dieBusy d = true) : exec (.l2SplitApply d) s = .next s := by
  change execL2SplitApply d s = _
  rw [execL2SplitApply]
  split
  · rfl
  · rw [if_pos hb]

/-! ### Moves of the cores alone -/

/-- A move that changes cores alone, each within a relation. -/
structure State.CoresOnly (P : Core → Core → Prop) (s t : State) : Prop where
  me : t.me = s.me
  dev : t.dev = s.dev
  dies : t.dies = s.dies
  mem : t.mem = s.mem
  lines : t.lines = s.lines
  flaws : t.flaws = s.flaws
  held : t.held = s.held
  core : ∀ c, P (s.getCore c) (t.getCore c)

namespace State.CoresOnly

variable {P Q : Core → Core → Prop} {s t u : State}

theorem trans (ht : ∀ x y z, P x y → P y z → P x z) (h : CoresOnly P s t) (g : CoresOnly P t u) : CoresOnly P s u :=
  ⟨g.me.trans h.me, g.dev.trans h.dev, g.dies.trans h.dies, g.mem.trans h.mem, g.lines.trans h.lines, g.flaws.trans h.flaws, g.held.trans h.held,
    fun c => ht _ _ _ (h.core c) (g.core c)⟩

theorem mono (h : CoresOnly P s t) (k : ∀ x y, P x y → Q x y) : CoresOnly Q s t := { h with core := fun c => k _ _ (h.core c) }

theorem refl (hr : ∀ x, P x x) (s : State) : CoresOnly P s s := ⟨rfl, rfl, rfl, rfl, rfl, rfl, rfl, fun _ => hr _⟩

theorem onCore (hr : ∀ x, P x x) (c : CoreRef) {f : Core → Core} (h : P (s.getCore c) (f (s.getCore c))) : CoresOnly P s (s.onCore c f) where
  me := s.onCore_me c f
  dev := s.onCore_dev c f
  dies := s.onCore_dies c f
  mem := s.onCore_mem c f
  lines := s.onCore_lines c f
  flaws := by unfold State.onCore State.setCore; split <;> rfl
  held := s.onCore_held c f
  core d := by
    rw [State.getCore_onCore]
    split
    · next hd => rw [hd]; exact h
    · exact hr _

theorem focused (hr : ∀ x, P x x) {x : Core} (h : P s.core x) : CoresOnly P s { s with core := x } := by
  have e : ({ s with core := x } : State) = s.onCore s.me fun _ => x := (s.onCore_focus fun _ => x).symm
  rw [e]
  exact onCore hr s.me (by rw [State.getCore_me]; exact h)

theorem focus (hr : ∀ x, P x x) (s : State) (c : CoreRef) : P (s.getCore c) (s.getCore c) ∧ (s.focus c).flaws = s.flaws ∧ (s.focus c).held = s.held :=
  ⟨hr _, by unfold State.focus; split <;> rfl, by unfold State.focus; split <;> rfl⟩

theorem within (hr : ∀ x, P x x) {c : CoreRef} {f : State → State} (h : CoresOnly P (s.focus c) (f (s.focus c))) : CoresOnly P s (s.within c f) := by
  by_cases hc : c = s.me
  · subst hc
    have hf : s.focus s.me = s := by rw [State.focus, if_pos rfl]
    rw [State.within_me]
    rwa [hf] at h
  · rw [State.within, if_neg hc]
    obtain ⟨hme, hdev, hdies, hmem, hlines, hflaws, hheld, hcore⟩ := h
    obtain ⟨-, fl, he⟩ := focus hr s c
    obtain ⟨-, fl', he'⟩ := focus hr (f (s.focus c)) s.me
    refine ⟨by simp, ?_, ?_, ?_, ?_, fl'.trans (hflaws.trans fl), he'.trans (hheld.trans he), fun d => ?_⟩
    · rw [State.focus_dev, hdev, State.focus_dev]
    · rw [State.focus_dies, hdies, State.focus_dies]
    · rw [State.focus_mem, hmem, State.focus_mem]
    · rw [State.focus_lines, hlines, State.focus_lines]
    · rw [State.getCore_focus, ← s.getCore_focus c]
      exact hcore d

/-- What the move leaves of the core in focus. -/
theorem here (h : CoresOnly P s t) : P s.core t.core := by
  have e := h.core s.me
  rwa [State.getCore_me, ← h.me, State.getCore_me] at e

end State.CoresOnly

/-! ### Decrements (R41, R227, R303) -/

/-- A core after what a write of memory makes of its caches. -/
def Core.Cached (x y : Core) : Prop := y = { x with l1 := y.l1, stale := y.stale }

theorem Core.Cached.refl (x : Core) : x.Cached x := rfl

theorem Core.Cached.trans (x y z : Core) (h : x.Cached y) (g : y.Cached z) : x.Cached z := by
  unfold Core.Cached at *
  rw [g, h]

theorem Core.Cached.noteStale (x : Core) (path : BitVec 3) (line : Nat) : x.Cached (x.noteStale path line) := by
  unfold Core.noteStale
  split <;> rfl

theorem Core.Cached.l1Write (x : Core) (pa : Nat) (bs : List Byte) : x.Cached (x.l1Write pa bs) := by
  unfold Core.l1Write
  split <;> rfl

/-- What the caches make of a write that no store of an S slot has made. -/
theorem State.besideL1_cached (s : State) (path : BitVec 3) (pa : Nat) (bs : List Byte) : State.CoresOnly Core.Cached s (s.besideL1 path pa bs) := by
  have h := State.CoresOnly.onCore (s := s) Core.Cached.refl (s.l1Of (pa / 128)) (f := fun x => x.noteStale path (pa / 128)) (.noteStale _ _ _)
  rw [State.besideL1, State.l1Fused]
  split
  · exact h.trans Core.Cached.trans (.onCore Core.Cached.refl _ (.l1Write _ _ _))
  · exact h

/-- A core after a command of its own has retired for a decrement. -/
def Core.Acted (x y : Core) : Prop := y = { x with l1 := y.l1, stale := y.stale, ev := y.ev, cmds := y.cmds }

theorem Core.Acted.refl (x : Core) : x.Acted x := rfl

theorem Core.Acted.trans (x y z : Core) (h : x.Acted y) (g : y.Acted z) : x.Acted z := by
  unfold Core.Acted at *
  rw [g, h]

theorem Core.Cached.acted (x y : Core) (h : x.Cached y) : x.Acted y := by
  unfold Core.Cached at h
  unfold Core.Acted
  rw [h]

theorem State.leaveCmd_acted (s : State) (c : Cmd) : State.CoresOnly Core.Acted s (s.leaveCmd c) := by
  obtain ⟨ev, h⟩ := s.count_eq (if c.eng = .m then 0x0E else 0x0F) 1
  rw [State.leaveCmd, State.countRetired, h]
  exact .focused Core.Acted.refl rfl

theorem State.actDone_acted (s : State) (x : Dec) : State.CoresOnly Core.Acted s (s.actDone x) := by
  rw [State.actDone, State.onActing]
  split
  · refine .within Core.Acted.refl ?_
    split
    · exact State.leaveCmd_acted _ _
    · exact .refl Core.Acted.refl _
  · exact .refl Core.Acted.refl _

theorem State.actDone_none {x : Dec} (s : State) (h : x.core = none ∨ x.eng = none) : s.actDone x = s := by
  rw [State.actDone, State.onActing]
  rcases h with h | h
  · rw [h]
  · rw [h]; cases x.core <;> rfl

theorem State.decSeen_cached {x : Dec} {c : CoreRef} (s : State) (h : x.core = some c) (bs : List Byte) : State.CoresOnly Core.Cached s (s.decSeen x bs) := by
  rw [State.decSeen, h]
  exact .within Core.Cached.refl (State.besideL1_cached _ _ _ _)

/-- A decrement of no core notes at most stale lines. -/
theorem State.decSeen_none {x : Dec} (s : State) (h : x.core = none) (bs : List Byte) :
    Claims.keptCore s (s.decSeen x bs) ∧ (s.decSeen x bs).dev = s.dev ∧ (s.decSeen x bs).mem = s.mem ∧ (s.decSeen x bs).held = s.held := by
  rw [State.decSeen, h]
  dsimp only
  split
  · exact ⟨s.core.noteStale_stale _ _, rfl, rfl, rfl⟩
  · exact ⟨rfl, rfl, rfl, rfl⟩

/-- What beside memory a decrement changes where it performs. -/
theorem State.decDone_frame (s : State) (x : Dec) (bs : List Byte) :
    ((s.decSeen x bs).actDone x).dev = s.dev ∧ ((s.decSeen x bs).actDone x).mem = s.mem ∧ ((s.decSeen x bs).actDone x).held = s.held
      ∧ s.core.Acted ((s.decSeen x bs).actDone x).core ∧ (x.core = none → Claims.keptCore s ((s.decSeen x bs).actDone x))
      ∧ (x.eng = none → ((s.decSeen x bs).actDone x).core.cmds = s.core.cmds) := by
  cases hc : x.core with
  | none =>
    obtain ⟨hk, hdev, hmem, hheld⟩ := s.decSeen_none hc bs
    rw [State.actDone_none _ (.inl hc)]
    refine ⟨hdev, hmem, hheld, ?_, fun _ => hk, fun _ => ?_⟩
    · unfold Claims.keptCore at hk; unfold Core.Acted; rw [hk]
    · unfold Claims.keptCore at hk; rw [hk]
  | some c =>
    have hs := s.decSeen_cached hc bs
    have h := (hs.mono Core.Cached.acted).trans Core.Acted.trans ((s.decSeen x bs).actDone_acted x)
    refine ⟨h.dev, h.mem, h.held, h.here, nofun, fun he => ?_⟩
    rw [State.actDone_none _ (.inr he)]
    have := hs.here
    unfold Core.Cached at this
    rw [this]

theorem Dec.behind_false {l : List Dec} {x : Dec} (h : x.list = 0 ∨ ∀ y ∈ l, y.list ≠ x.list ∨ y.fired = true) : Dec.behind l x = false := by
  rw [Dec.behind]
  rcases h with h | h
  · rw [h]; rfl
  · refine Bool.and_eq_false_iff.mpr (.inr (List.any_eq_false.mpr fun y hy => ?_))
    rcases h y hy with h | h <;> simp [h]

section
variable {s : State} {k : Nat} {x : Dec} (hx : s.dev.decs[k]? = some x) (hfired : x.fired = false) (hkey : x.key = 0)
  (hready : s.channelReady x.pa.toNat = true) (hpoison : (s.lineMeta (x.pa.toNat / 128)).poison = false) (hflaw : x.pa.toNat / 128 ∉ s.flaws)
  (hbehind : Dec.behind (s.dev.decs.take k) x = false) (hold : BitVec.ofNat 32 (leNat (Sparse.range 0 s.mem x.pa.toNat 4)) ≠ 1)
include hx hfired hkey hready hpoison hflaw hbehind hold

/-- A decrement whose turn has come, of a counter that it does not bring to 0, is its write, what the caches make of it, and its end. -/
theorem State.decrementAt_performs {bs : List Byte} (hbs : bs = leBytes 4 (BitVec.ofNat 32 (leNat (Sparse.range 0 s.mem x.pa.toNat 4)) - 1).toNat) :
    s.decrementAt k = ((((s.writeLine 0 x.pa.toNat bs).1.decSeen x bs).actDone x).onDev fun d => { d with decs := dropAt d.decs k }) := by
  subst hbs
  have hk : x.key.toNat = 0 := by rw [hkey]; rfl
  have hgo : ¬((!s.channelReady x.pa.toNat || Dec.behind (s.dev.decs.take k) x) = true) := by rw [hready, hbehind]; decide
  have hread : s.readPlain 0 x.pa.toNat 4 = Sparse.range 0 s.mem x.pa.toNat 4 := if_pos rfl
  rw [State.decrementAt, hx]
  dsimp only
  rw [if_neg (ne_true_of_eq_false hfired), if_neg hgo, hk, hread, State.writeLine_clean hpoison hflaw]
  exact if_pos hold

theorem exec_taskDecrement_counts : ∃ t, exec (.taskDecrement k) s = .next t ∧ t.dev.decs = dropAt s.dev.decs k
    ∧ (x.core = none → Claims.keptCore s t) ∧ t.core.regs = s.core.regs ∧ t.core.scratch = s.core.scratch ∧ t.core.memq = s.core.memq
    ∧ (x.eng = none → t.core.cmds = s.core.cmds)
    ∧ BitVec.ofNat 32 (leNat (Sparse.range 0 t.mem x.pa.toNat 4)) = BitVec.ofNat 32 (leNat (Sparse.range 0 s.mem x.pa.toNat 4)) - 1
    ∧ ∀ a, a < x.pa.toNat ∨ x.pa.toNat + 4 ≤ a → Sparse.get 0 t.mem a = Sparse.get 0 s.mem a := by
  generalize hbs : leBytes 4 (BitVec.ofNat 32 (leNat (Sparse.range 0 s.mem x.pa.toNat 4)) - 1).toNat = bs
  have hrun := State.decrementAt_performs hx hfired hkey hready hpoison hflaw hbehind hold hbs.symm
  obtain ⟨hdev, hmem, hheld, hacted, hkept, hcmds⟩ := (s.writeLine 0 x.pa.toNat bs).1.decDone_frame x bs
  have hlen : bs.length = 4 := by rw [← hbs]; exact leBytes_length _ _
  have hval : leNat bs = (BitVec.ofNat 32 (leNat (Sparse.range 0 s.mem x.pa.toNat 4)) - 1).toNat := by
    rw [← hbs, leNat_leBytes]; exact Nat.mod_eq_of_lt (BitVec.isLt _)
  have hw : (s.writeLine 0 x.pa.toNat bs).1.mem = Sparse.setRange 0 s.mem x.pa.toNat bs := by rw [State.writeLine_clean hpoison hflaw]; rfl
  have hcore : (s.writeLine 0 x.pa.toNat bs).1.core = s.core := by rw [State.writeLine_clean hpoison hflaw]
  have hwdev : (s.writeLine 0 x.pa.toNat bs).1.dev = s.dev := by rw [State.writeLine_clean hpoison hflaw]
  have hwheld : (s.writeLine 0 x.pa.toNat bs).1.held = s.held := by rw [State.writeLine_clean hpoison hflaw]
  unfold Core.Acted at hacted
  unfold Claims.keptCore at hkept ⊢
  rw [hcore] at hacted hkept hcmds
  refine ⟨((((s.writeLine 0 x.pa.toNat bs).1.decSeen x bs).actDone x).onDev fun d => { d with decs := dropAt d.decs k }), ?_, ?_, hkept, ?_, ?_, ?_, hcmds, ?_,
    fun a h => ?_⟩
  · change execTaskDecrement k s = _
    rw [execTaskDecrement, State.orHold_eq, hrun]
    exact congrArg Host.Outcome.next (State.orWaits_held (hheld.trans hwheld))
  · rw [State.onDev_dev, hdev, hwdev]
  · rw [State.onDev_core, hacted]
  · rw [State.onDev_core, hacted]
  · rw [State.onDev_core, hacted]
  · rw [State.onDev_mem, hmem, hw, ← hlen, Sparse.range_setRange, hval, hlen, BitVec.ofNat_toNat, BitVec.setWidth_eq]
  · rw [State.onDev_mem, hmem, hw, Sparse.get_setRange, if_neg (by omega)]

end

/-- Settles O52: the host's accesses on the free link, the poison clear, a decrement and the L2 split, each by its own lemma. -/
theorem hostMemory : Obligations.HostMemory := by
  intro s pa bs v hfree
  refine ⟨?_, fun hin hn h => exec_hostMemRead_clean hfree hin hn h, fun off n => ⟨rfl, fun ho => if_pos ho⟩,
    fun hrun ha hv hq => exec_hifTdecWrite_queues hfree hrun ha hv hq, fun h => exec_hifTdecWrite_drops hfree h,
    fun d hr h => exec_poisonClear_notes hr h, fun l h hc => exec_poisonClearDone_waits h hc, fun l h hc => ?_, ?_, fun d => ⟨_, rfl, rfl, rfl, ?_, ?_⟩,
    fun d w hw hb => ?_, fun d hb => exec_l2SplitApply_busy hb⟩
  · intro h hin hl hn hready hcke hp hf
    obtain ⟨-, hmeta, hmem⟩ := State.writeLine_performed hp hf bs
    refine ⟨_, exec_hostMemWrite_line hfree hin hl hn hready hcke hp hf, ?_, ?_, ?_, hmeta, hmem⟩
    · rw [State.writeLine_clean hp hf]; rfl
    · rw [State.writeLine_clean hp hf]; exact Core.noteStale_stale _ _ _
    · rw [State.writeLine_clean hp hf]; rfl
  · refine ⟨_, exec_poisonClearDone_clears h hc, rfl, ?_, fun k hk => ?_, fun a => s.clearedLine_mem _ a⟩
    · rw [State.clearedLine_lineMeta, if_pos rfl]
    · rw [State.clearedLine_lineMeta, if_neg hk]
  · intro k x hx hfired hkey hready _ hpoison hflaw old hold hbehind
    exact exec_taskDecrement_counts hx hfired hkey hready hpoison hflaw (Dec.behind_false hbehind) hold
  · simp [bits_zero]
  · simp
  · refine ⟨_, exec_l2SplitApply hw hb, by simp, by simp, fun a => ?_⟩
    refine (Sparse.get_filter 0 s.mem (fun a => !stagingOf d a) a).trans ?_
    rw [stagingOf]
    cases region a with
    | staging k o => by_cases hk : k = d.toNat <;> simp [hk]
    | _ => rfl

end Sys2Proof.Machine
end

section
/-! PROOFS. Commands of the device: keys, invalidations, the checkpoint engine, readiness and links (R34, R39, R215, R219, R379, R401, R402). -/

namespace Sys2Proof.Machine

open Sys2Proof

/-! ### Key commands (R219) -/

/-- HIF_KEY_CMD while a command is busy. -/
def keyWord (slot : BitVec 6) (op : BitVec 2) : Word := 0x10000 ||| (slot.setWidth 64 <<< 8) ||| op.setWidth 64

theorem bits_eq_extractLsb' (w : Word) (lo len : Nat) : bits w lo len = (w.extractLsb' lo len).toNat := by
  rw [bits, BitVec.extractLsb'_toNat]

theorem keyWord_busy (slot : BitVec 6) (op : BitVec 2) : (keyWord slot op).getLsbD 16 = true := by
  simp [keyWord]

theorem keyWord_slot (slot : BitVec 6) (op : BitVec 2) : bits (keyWord slot op) 8 6 = slot.toNat := by
  have h : (keyWord slot op).extractLsb' 8 6 = slot := by
    apply BitVec.eq_of_getLsbD_eq
    intro i hi
    have h2 : op.getLsbD (8 + i) = false := BitVec.getLsbD_of_ge _ _ (by omega)
    have h0 : (0x10000#64).getLsbD (8 + i) = false := by
      have : i = 0 ∨ i = 1 ∨ i = 2 ∨ i = 3 ∨ i = 4 ∨ i = 5 := by omega
      rcases this with rfl | rfl | rfl | rfl | rfl | rfl <;> rfl
    have hlt : 8 + i < 64 := by omega
    simp [keyWord, h2, hi, hlt]
    rw [← BitVec.getLsbD_eq_getElem, h0]
    nofun
  rw [bits_eq_extractLsb', h]

theorem keyWord_op (slot : BitVec 6) (op : BitVec 2) : bits (keyWord slot op) 0 2 = op.toNat := by
  have h : (keyWord slot op).extractLsb' 0 2 = op := by
    apply BitVec.eq_of_getLsbD_eq
    intro i hi
    have h0 : (0x10000#64).getLsbD i = false := by
      have : i = 0 ∨ i = 1 := by omega
      rcases this with rfl | rfl <;> rfl
    have h8 : i < 8 := by omega
    have hlt : i < 64 := by omega
    simp [keyWord, hi, h8, hlt]
    rw [← BitVec.getLsbD_eq_getElem, h0]
    nofun
  rw [bits_eq_extractLsb', h]

theorem State.key?_set (s : State) (d : Device) (slot k : Nat) (w : BitVec 513) (h : d.keySlots = Sparse.set 0 s.dev.keySlots slot w) :
    State.key? { s with dev := d } k = if k = slot then (if w.getLsbD 512 then some (w.setWidth 512) else none) else s.key? k := by
  rw [State.key?, h, Sparse.get_set, State.key?]
  split <;> rfl


theorem exec_keyCommand_taken {s : State} (slot : BitVec 6) (h : s.dev.keyCmd.getLsbD 16 = false) :
    exec (.keyLoad slot) s = .next { s with dev := { s.dev with keyCmd := 0x10000 ||| (slot.setWidth 64 <<< 8) ||| 1 } }
      ∧ exec (.keyClear slot) s = .next { s with dev := { s.dev with keyCmd := 0x10000 ||| (slot.setWidth 64 <<< 8) ||| 2 } } := by
  have hno : ¬(s.dev.keyCmd.getLsbD 16 = true) := ne_true_of_eq_false h
  exact ⟨congrArg Host.Outcome.next (if_neg hno), congrArg Host.Outcome.next (if_neg hno)⟩

theorem exec_keyCommand_busy {s : State} (slot : BitVec 6) (h : s.dev.keyCmd.getLsbD 16 = true) :
    exec (.keyLoad slot) s = .next s ∧ exec (.keyClear slot) s = .next s :=
  ⟨congrArg Host.Outcome.next (if_pos h), congrArg Host.Outcome.next (if_pos h)⟩

/-- The status of a command that is known: slot 0 takes no key, and without feature bit 5 no slot does. -/
theorem State.keyStat_known (s : State) (slot : BitVec 6) {op : BitVec 2} (h : op = 1 ∨ op = 2) :
    s.keyStat slot.toNat op.toNat = if slot = 0 then 1 else if s.feature 5 then 0 else 2 := by
  have ho : ¬(op.toNat ≠ 1 ∧ op.toNat ≠ 2) := by rcases h with rfl | rfl <;> decide
  have hz : slot.toNat = 0 ↔ slot = 0 := ⟨fun e => BitVec.eq_of_toNat_eq e, fun e => by rw [e]; rfl⟩
  rw [State.keyStat, if_neg ho]
  refine if_congr hz rfl ?_
  cases s.feature 5 <;> rfl

/-- What a key command leaves in its slot. -/
def keySlotValue (op : BitVec 2) (data : BitVec 512) : BitVec 513 := if op = 1 then (1#513 <<< 512) ||| data.setWidth 513 else 0

theorem keySlotValue_key {op : BitVec 2} (data : BitVec 512) :
    (if (keySlotValue op data).getLsbD 512 then some ((keySlotValue op data).setWidth 512) else none) = if op = 1 then some data else none := by
  rw [keySlotValue]
  by_cases h : op = 1
  · have hhigh : ((1#513 <<< 512) ||| data.setWidth 513).getLsbD 512 = true := by simp
    have hlow : ((1#513 <<< 512) ||| data.setWidth 513).setWidth 512 = data := by
      apply BitVec.eq_of_getLsbD_eq
      intro i hi
      simp [hi]
    rw [if_pos h, hhigh, hlow, if_pos rfl, if_pos h]
  · rw [if_neg h, if_neg h]
    simp

/-- The key slots after a command with a status. -/
def State.keySlotsAfter (s : State) (slot : BitVec 6) (op : BitVec 2) (st : Nat) : Sparse (BitVec 513) :=
  if st = 0 then Sparse.set 0 s.dev.keySlots slot.toNat (keySlotValue op s.dev.keyData) else s.dev.keySlots

theorem exec_keyCommandDone {s : State} {slot : BitVec 6} {op : BitVec 2} (hw : s.dev.keyCmd = keyWord slot op) (h : op = 1 ∨ op = 2) {st : Nat}
    (hst : s.keyStat slot.toNat op.toNat = st) : exec .keyCommandDone s = .next { s with dev := { s.dev with
      keySlots := s.keySlotsAfter slot op st, keyData := 0, keyCmd := BitVec.ofNat 64 (st * 2 ^ 14 + slot.toNat * 2 ^ 8) } } := by
  have hbusy : ¬((!(keyWord slot op).getLsbD 16) = true) := by rw [keyWord_busy]; decide
  change execKeyCommandDone s = _
  rw [execKeyCommandDone, hw]
  dsimp only
  rw [if_neg hbusy, keyWord_slot, keyWord_op, hst, State.keySlotsAfter]
  have hval : (if op.toNat = 1 then (1#513 <<< 512) ||| s.dev.keyData.setWidth 513 else 0) = keySlotValue op s.dev.keyData := by
    rcases h with rfl | rfl <;> rfl
  by_cases hz : st = 0
  · subst hz
    rw [if_pos rfl, ← hval]
    rfl
  · rw [if_neg hz, State.onDev, if_pos hz]

theorem State.key?_after (s : State) (slot : BitVec 6) (op : BitVec 2) (st k : Nat) (data : BitVec 512) (cmd : Word) :
    State.key? { s with dev := { s.dev with keySlots := s.keySlotsAfter slot op st, keyData := data, keyCmd := cmd } } k
      = if st = 0 ∧ k = slot.toNat then (if op = 1 then some s.dev.keyData else none) else s.key? k := by
  by_cases hz : st = 0
  · subst hz
    rw [State.key?_set s _ slot.toNat k (keySlotValue op s.dev.keyData)
      (show s.keySlotsAfter slot op 0 = _ from if_pos rfl), keySlotValue_key]
    simp
  · rw [if_neg fun h => hz h.1]
    simp only [State.key?, State.keySlotsAfter, if_neg hz]

/-! ### Invalidations (R215) -/

/-- A cached translation that an invalidation keeps. -/
def TlbEntry.outlives (what : Option (BitVec 32)) (e : TlbEntry) : Bool :=
  match what with
  | none => false
  | some v => !decide (e.vpn ≤ v.toNat ∧ v.toNat < e.vpn + e.count)

theorem TlbEntry.outlives_iff (what : Option (BitVec 32)) (e : TlbEntry) :
    e.outlives what = true ↔ ∃ p : BitVec 32, what = some p ∧ (p.toNat < e.vpn ∨ e.vpn + e.count ≤ p.toNat) := by
  cases what with
  | none => simp [TlbEntry.outlives]
  | some v => simp only [TlbEntry.outlives, Bool.not_eq_true', decide_eq_false_iff_not, Option.some.injEq, exists_eq_left']; omega

theorem State.dropTranslations_core (s : State) (what : Option (BitVec 32)) :
    (s.dropTranslations what).core = { s.core with tlb := s.core.tlb.filter (TlbEntry.outlives what) } := rfl

theorem State.dropTranslations_die (s : State) (what : Option (BitVec 32)) (d : BitVec 2) :
    (s.dropTranslations what).die d = { s.die d with tlb := (s.die d).tlb.filter (TlbEntry.outlives what) } := Vector.getElem_map ..

theorem exec_tlbInvalidate_taken {s : State} (vpn : BitVec 32) (h : s.dev.tlbInv = none) :
    exec (.tlbInvalidateVpn vpn) s = .next { s with dev := { s.dev with tlbInv := some (some vpn) } }
      ∧ exec .tlbInvalidateAll s = .next { s with dev := { s.dev with tlbInv := some none } } := by
  have hno : ¬(s.dev.tlbInv.isSome = true) := by rw [h]; decide
  exact ⟨congrArg Host.Outcome.next (if_neg hno), congrArg Host.Outcome.next (if_neg hno)⟩

theorem exec_tlbInvalidate_busy {s : State} (vpn : BitVec 32) (h : s.dev.tlbInv ≠ none) :
    exec (.tlbInvalidateVpn vpn) s = .next s ∧ exec .tlbInvalidateAll s = .next s := by
  have hsome := Option.isSome_iff_ne_none.mpr h
  exact ⟨congrArg Host.Outcome.next (if_pos hsome), congrArg Host.Outcome.next (if_pos hsome)⟩

theorem exec_tlbInvalidationDone {s : State} {w : Option (BitVec 32)} (h : s.dev.tlbInv = some w) :
    exec .tlbInvalidationDone s = .next ((s.dropTranslations w).onDev fun d => { d with tlbInv := none }) := by
  change execTlbInvalidationDone s = _
  rw [execTlbInvalidationDone, h]

/-! ### What held host accesses leave when they perform (R39, R40, R402) -/

/-- A move that lets held host accesses perform, but for memory: registers stay, and TDDROP may rise. -/
structure State.Released (s t : State) : Prop where
  kept : Claims.keptCore s t
  die : ∀ d, (s.die d).Touched (t.die d)
  cke : t.dev.cke = s.dev.cke
  err : ∀ j, j ≠ 0 → t.dev.err.getLsbD j = s.dev.err.getLsbD j

namespace State.Released

theorem refl (s : State) : s.Released s := ⟨rfl, fun _ => .refl _, rfl, fun _ _ => rfl⟩

theorem trans {s t u : State} (h : s.Released t) (g : t.Released u) : s.Released u := by
  obtain ⟨hk, hd, hc, he⟩ := h
  obtain ⟨gk, gd, gc, ge⟩ := g
  refine ⟨?_, fun d => (hd d).trans (gd d), gc.trans hc, fun j hj => (ge j hj).trans (he j hj)⟩
  unfold Claims.keptCore at *
  rw [gk, hk]

theorem writeLine (s : State) (key pa : Nat) (bs : List Byte) : s.Released (s.writeLine key pa bs).1 := by
  have ht := State.Touched.writeLine s key pa bs
  refine ⟨?_, ht.die, ?_, fun j _ => ?_⟩ <;>
    · unfold State.writeLine
      dsimp only
      split
      · rfl
      · split <;> rfl

theorem writeLines (key : Nat) (l : List (Nat × Nat)) (s : State) (bs : List Byte) : s.Released (s.writeLines key l bs).1 := by
  induction l generalizing s bs with
  | nil => exact refl s
  | cons p l ih => exact (writeLine s key p.1 (bs.take p.2)).trans (ih _ _)

theorem onCores {s : State} {f : Core → Core} (h : ∀ x, f x = { x with stale := (f x).stale }) : s.Released (s.onCores f) :=
  ⟨h _, fun _ => .refl _, rfl, fun _ _ => rfl⟩

theorem noteStales (l : List (Nat × Nat)) (x : Core) :
    l.foldl (fun x p => x.noteStale 7 (p.1 / 128)) x = { x with stale := (l.foldl (fun x p => x.noteStale 7 (p.1 / 128)) x).stale } := by
  induction l generalizing x with
  | nil => rfl
  | cons p l ih =>
    rw [List.foldl_cons, ih, Core.noteStale_stale]

theorem hostPerform (s : State) (w : HostWrite) : s.Released (s.hostPerform w) := by
  cases w with
  | mem pa data => exact (writeLines 0 _ s data).trans (onCores (noteStales _))
  | tdec v => exact ⟨rfl, fun _ => .refl _, rfl, fun _ _ => rfl⟩
  | reg o n v =>
    rw [State.hostPerform, State.callLink]
    split
    · exact refl s
    · exact ⟨rfl, fun _ => .refl _, rfl, fun _ _ => rfl⟩
  | drop => exact ⟨rfl, fun _ => .refl _, rfl, fun j hj => by simp [State.hostPerform, State.setErr, hj]⟩
  | read pa n => exact ⟨rfl, fun _ => .refl _, rfl, fun _ _ => rfl⟩

theorem hostRelease (l kept : List HostWrite) (s : State) : s.Released (State.hostRelease l kept s) := by
  induction l generalizing kept s with
  | nil => exact ⟨rfl, fun _ => .refl _, rfl, fun _ _ => rfl⟩
  | cons w l ih =>
    rw [State.hostRelease]
    split
    · exact ih _ _
    · exact (hostPerform s w).trans (ih _ _)

theorem release (s : State) : s.Released s.release := hostRelease _ _ s

end State.Released

/-! ### The checkpoint engine (R401, R402) -/

/-- A move that changes memory and its lines alone. -/
def State.MemoryOnly (s t : State) : Prop := t = { s with mem := t.mem, lines := t.lines }

theorem State.MemoryOnly.foldl {α : Type} {f : State → α → State} (k : ∀ s a, State.MemoryOnly s (f s a)) (l : List α) (s : State) :
    State.MemoryOnly s (l.foldl f s) := by
  induction l generalizing s with
  | nil => exact rfl
  | cons a l ih =>
    have h₁ := k s a
    have h₂ := ih (f s a)
    rw [List.foldl_cons]
    unfold State.MemoryOnly at *
    rw [h₂, h₁]

theorem State.openTier_memoryOnly (s : State) (tier d k : Nat) : State.MemoryOnly s (s.openTier tier d k) := by
  rw [State.MemoryOnly, State.openTier]

theorem State.partRestore_memoryOnly (s : State) (tier d k : Nat) : State.MemoryOnly s (s.partRestore tier d k) := by
  unfold State.MemoryOnly State.partRestore; rfl

theorem State.restoreDie_memoryOnly (s : State) (tier d : Nat) : State.MemoryOnly s (s.restoreDie tier d) := by
  unfold State.MemoryOnly State.restoreDie; rfl

theorem State.saveDie_memoryOnly (s : State) (tier d : Nat) : State.MemoryOnly s (s.saveDie tier d) := by
  unfold State.MemoryOnly State.saveDie; rfl

/-- The machine before the held accesses of a stopped run perform. -/
def State.ckeStopped (s : State) : State :=
  let k := s.dev.cke
  let t := k.dies.foldl (fun t d => t.openTier k.tier d (s.fresh + 1))
    (if k.running && k.ctl.getLsbD 3 then k.dies.foldl (fun t d => t.partRestore k.tier d s.fresh) s else s)
  { t with fresh := s.fresh + 2, dev := { t.dev with cke := { t.dev.cke with
      ctl := (t.dev.cke.ctl &&& ~~~1#64) ||| 2, running := false, lines := s.ckeMoved k s.fresh } } }

theorem State.ckeStop_busy {s : State} (h : s.dev.cke.ctl.getLsbD 0 = true) : s.ckeStop = s.ckeStopped.release := by
  rw [State.ckeStop]
  exact if_neg (by rw [h]; decide)

theorem State.ckeStop_idle {s : State} (h : s.dev.cke.ctl.getLsbD 0 = false) : s.ckeStop = s := by
  rw [State.ckeStop]
  exact if_pos (by rw [h]; decide)

/-- The transfers of a run that stops change memory and its lines alone. -/
theorem State.ckeStopped_frame (s : State) : Claims.keptCore s s.ckeStopped ∧ (∀ d, s.ckeStopped.die d = s.die d)
    ∧ s.ckeStopped.dev = { s.dev with cke := { s.dev.cke with
        ctl := (s.dev.cke.ctl &&& ~~~1#64) ||| 2, running := false, lines := s.ckeMoved s.dev.cke s.fresh } } := by
  have h₁ : State.MemoryOnly s (if s.dev.cke.running && s.dev.cke.ctl.getLsbD 3
      then s.dev.cke.dies.foldl (fun t d => t.partRestore s.dev.cke.tier d s.fresh) s else s) := by
    split
    · exact .foldl (fun t d => t.partRestore_memoryOnly _ d _) _ _
    · exact rfl
  have h₂ := State.MemoryOnly.foldl (fun t d => t.openTier_memoryOnly s.dev.cke.tier d (s.fresh + 1)) s.dev.cke.dies
    (if s.dev.cke.running && s.dev.cke.ctl.getLsbD 3 then s.dev.cke.dies.foldl (fun t d => t.partRestore s.dev.cke.tier d s.fresh) s else s)
  unfold State.MemoryOnly at h₁ h₂
  unfold State.ckeStopped
  dsimp only
  rw [h₂, h₁]
  exact ⟨rfl, fun _ => rfl, rfl⟩

/-- A stop of the engine keeps the core and the dies, and of the errors every bit but TDDROP. -/
theorem State.ckeStop_frame (s : State) : Claims.keptCore s s.ckeStop ∧ (∀ d, (s.die d).Touched (s.ckeStop.die d))
    ∧ ∀ j, j ≠ 0 → s.ckeStop.dev.err.getLsbD j = s.dev.err.getLsbD j := by
  cases h : s.dev.cke.ctl.getLsbD 0 with
  | false =>
    rw [State.ckeStop_idle h]
    exact ⟨rfl, fun _ => .refl _, fun _ _ => rfl⟩
  | true =>
    obtain ⟨hk, hd, hdev⟩ := s.ckeStopped_frame
    obtain ⟨gk, gd, -, ge⟩ := State.Released.release s.ckeStopped
    rw [State.ckeStop_busy h]
    refine ⟨?_, fun d => hd d ▸ gd d, fun j hj => (ge j hj).trans (by rw [hdev])⟩
    unfold Claims.keptCore at *
    rw [gk, hk]

theorem Cke.mem_dies {k : Cke} {d : Nat} : d ∈ k.dies ↔ d < 4 ∧ k.ctl.getLsbD (8 + d) = true := by
  rw [Cke.dies, List.mem_filter, List.mem_range]

theorem State.ckeReady_iff (s : State) :
    s.ckeReady = true ↔ ∀ k < 4, s.dev.cke.ctl.getLsbD (8 + k) = true → ∀ g < 4, s.isReady (BitVec.ofNat 2 k) (12 + g) = true := by
  simp only [State.ckeReady, List.all_eq_true, Cke.mem_dies, List.mem_range, and_imp]

theorem State.ckeWrite_taken {s : State} {v : Word} (hbusy : s.dev.cke.ctl.getLsbD 0 = false) (hdie : ∃ k < 4, v.getLsbD (8 + k) = true)
    (hready : ∀ k < 4, v.getLsbD (8 + k) = true → s.isReady (BitVec.ofNat 2 k) 21 = true) (restore : Bool) :
    s.ckeWrite v restore true = { s with dev := { s.dev with cke := { s.dev.cke with
      ctl := ((v &&& 0xFFF00) ||| (if restore then 8 else 0)) ||| 1, lines := 0, running := false } } } := by
  have hne : ((List.range 4).filter fun d => v.getLsbD (8 + d)).isEmpty = false := by
    obtain ⟨k, hk, hv⟩ := hdie
    rw [List.isEmpty_eq_false_iff_exists_mem]
    exact ⟨k, List.mem_filter.mpr ⟨List.mem_range.mpr hk, hv⟩⟩
  have hall : (((List.range 4).filter fun d => v.getLsbD (8 + d)).any fun d => !s.isReady (BitVec.ofNat 2 d) 21) = false := by
    refine List.any_eq_false.mpr fun k hk => ?_
    obtain ⟨hlt, hv⟩ := List.mem_filter.mp hk
    rw [hready k (List.mem_range.mp hlt) hv]
    decide
  rw [State.ckeWrite]
  dsimp only
  rw [if_neg (by rw [hbusy, hne, hall]; decide), if_pos rfl]
  rfl

theorem State.ckeWrite_busy {s : State} (h : s.dev.cke.ctl.getLsbD 0 = true) (v : Word) (restore start : Bool) : s.ckeWrite v restore start = s := by
  rw [State.ckeWrite]
  exact if_pos (.inl h)

theorem exec_ckeStart {s : State} {v : Word} (hbusy : s.dev.cke.ctl.getLsbD 0 = false) (hdie : ∃ k < 4, v.getLsbD (8 + k) = true)
    (hready : ∀ k < 4, v.getLsbD (8 + k) = true → s.isReady (BitVec.ofNat 2 k) 21 = true) :
    exec (.ckeSaveStart v) s = .next { s with dev := { s.dev with cke := { s.dev.cke with ctl := (v &&& 0xFFF00) ||| 1, lines := 0, running := false } } }
      ∧ exec (.ckeRestoreStart v) s = .next { s with dev := { s.dev with cke := { s.dev.cke with ctl := (v &&& 0xFFF00) ||| 9, lines := 0, running := false } } } := by
  have h0 : (v &&& 0xFFF00) ||| (0 : Word) = v &&& 0xFFF00 := BitVec.or_zero
  constructor
  · change execCkeSaveStart v s = _
    rw [execCkeSaveStart, State.ckeWrite_taken hbusy hdie hready, if_neg Bool.false_ne_true, h0]
  · change execCkeRestoreStart v s = _
    rw [execCkeRestoreStart, State.ckeWrite_taken hbusy hdie hready, if_pos rfl, BitVec.or_assoc]
    rfl

theorem exec_ckeRunBegin {s : State} (hbusy : s.dev.cke.ctl.getLsbD 0 = true) (hrun : s.dev.cke.running = false)
    (hidle : ∀ k < 4, s.dev.cke.ctl.getLsbD (8 + k) = true → s.dieBusy (BitVec.ofNat 2 k) = false) :
    exec .ckeRunBegin s = .next { s with dev := { s.dev with cke := { s.dev.cke with running := true } } } := by
  have hall : (s.dev.cke.dies.any fun d => s.dieBusy (BitVec.ofNat 2 d)) = false := by
    refine List.any_eq_false.mpr fun k hk => ?_
    obtain ⟨hlt, hv⟩ := Cke.mem_dies.mp hk
    rw [hidle k hlt hv]
    decide
  change execCkeRunBegin s = _
  rw [execCkeRunBegin]
  exact congrArg Host.Outcome.next (if_neg (by rw [hbusy, hrun, hall]; decide))

/-- A run whose channel groups are ready ends, and the held accesses perform. -/
theorem exec_ckeRunEnd_ends {s : State} (hrun : s.dev.cke.running = true) (hready : s.ckeReady = true) :
    ∃ t, exec .ckeRunEnd s = .next t ∧ t.dev.cke.ctl = s.dev.cke.ctl &&& ~~~1 ∧ t.dev.cke.running = false ∧ Claims.keptCore s t := by
  have hm : State.MemoryOnly s (s.dev.cke.dies.foldl
      (fun t d => if s.dev.cke.ctl.getLsbD 3 then t.restoreDie s.dev.cke.tier d else t.saveDie s.dev.cke.tier d) s) :=
    .foldl (fun t d => by split; exacts [t.restoreDie_memoryOnly _ _, t.saveDie_memoryOnly _ _]) _ _
  generalize hu : s.dev.cke.dies.foldl
      (fun t d => if s.dev.cke.ctl.getLsbD 3 then t.restoreDie s.dev.cke.tier d else t.saveDie s.dev.cke.tier d) s = u at hm
  unfold State.MemoryOnly at hm
  have hdev : u.dev = s.dev := by rw [hm]
  have hcore : u.core = s.core := by rw [hm]
  generalize hv : (u.onDev fun d => { d with cke := { d.cke with
    ctl := d.cke.ctl &&& ~~~1#64, running := false, lines := BitVec.ofNat 64 (s.dev.cke.dies.length * dieLines) } }) = v
  obtain ⟨gk, -, gc, -⟩ := State.Released.release v
  have hvcore : v.core = s.core := by rw [← hv, ← hcore]; rfl
  refine ⟨v.release, ?_, ?_, ?_, ?_⟩
  · change execCkeRunEnd s = _
    rw [execCkeRunEnd]
    dsimp only
    rw [if_neg (by rw [hrun, hready]; decide), hu, hv]
  · rw [gc, ← hv, State.onDev_dev, hdev]; rfl
  · rw [gc, ← hv]; rfl
  · unfold Claims.keptCore at *
    rw [gk, hvcore]

theorem exec_ckeRunEnd_waits {s : State} (h : ¬ s.ckeReady = true) : exec .ckeRunEnd s = .next s := by
  change execCkeRunEnd s = _
  rw [execCkeRunEnd]
  exact congrArg Host.Outcome.next (if_pos (by rw [Bool.not_eq_true] at h; rw [h]; simp))

theorem exec_ckeAbort_stops {s : State} (h : s.dev.cke.ctl.getLsbD 0 = true) :
    ∃ t, exec .ckeAbort s = .next t ∧ t.dev.cke.ctl = (s.dev.cke.ctl &&& ~~~1) ||| 2 ∧ t.dev.cke.running = false ∧ Claims.keptCore s t := by
  obtain ⟨-, -, hdev⟩ := s.ckeStopped_frame
  obtain ⟨-, -, gc, -⟩ := State.Released.release s.ckeStopped
  refine ⟨s.ckeStop, rfl, ?_, ?_, s.ckeStop_frame.1⟩
  · rw [State.ckeStop_busy h, gc, hdev]; rfl
  · rw [State.ckeStop_busy h, gc, hdev]

theorem exec_ckeAbort_idle {s : State} (h : s.dev.cke.ctl.getLsbD 0 = false) : exec .ckeAbort s = .next s :=
  congrArg Host.Outcome.next (State.ckeStop_idle h)

/-! ### Readiness and links (R34, R38, R39, R379) -/

/-- The feature of a function whose bit may rise is accepted, and in force. -/
theorem readyFeature_present {s : State} {b : BitVec 5} (h18 : b = 18 → s.feature 0 = true) (h19 : b = 19 → s.feature 2 = true)
    (h20 : b = 20 → s.feature 1 = true) (hrun : b = 18 ∨ b = 19 ∨ b = 20 → s.dev.run = true) :
    (match readyFeature b.toNat with | some f => !s.feature f || !s.dev.run | none => false) = false := by
  have b18 : b.toNat = 18 ↔ b = 18 := BitVec.toNat_inj (y := 18)
  have b19 : b.toNat = 19 ↔ b = 19 := BitVec.toNat_inj (y := 19)
  have b20 : b.toNat = 20 ↔ b = 20 := BitVec.toNat_inj (y := 20)
  rw [readyFeature]
  by_cases e18 : b = 18
  · rw [if_pos (b18.mpr e18)]
    simp [h18 e18, hrun (.inl e18)]
  · rw [if_neg fun e => e18 (b18.mp e)]
    by_cases e19 : b = 19
    · rw [if_pos (b19.mpr e19)]
      simp [h19 e19, hrun (.inr (.inl e19))]
    · rw [if_neg fun e => e19 (b19.mp e)]
      by_cases e20 : b = 20
      · rw [if_pos (b20.mpr e20)]
        simp [h20 e20, hrun (.inr (.inr e20))]
      · rw [if_neg fun e => e20 (b20.mp e)]

theorem Die.Touched.ready {x y : Die} (h : x.Touched y) : y.ready = x.ready := by
  unfold Die.Touched at h
  rw [h]

/-- The bit of a function that is there rises, and held accesses perform. -/
theorem exec_functionReady_rises {s : State} {d : BitVec 2} {b : BitVec 5} (hb : b.toNat < 22) (h16 : b = 16 → (s.die d).fell.getLsbD 0 = false)
    (h17 : b = 17 → (s.die d).fell.getLsbD 1 = false) (h18 : b = 18 → s.feature 0 = true) (h19 : b = 19 → s.feature 2 = true)
    (h20 : b = 20 → s.feature 1 = true) (hrun : b = 18 ∨ b = 19 ∨ b = 20 → s.dev.run = true) :
    exec (.functionReady d b) s = .next (s.onDie d fun x => { x with ready := x.ready ||| (1#22 <<< b.toNat) }).release := by
  have b16 : b.toNat = 16 ↔ b = 16 := BitVec.toNat_inj (y := 16)
  have b17 : b.toNat = 17 ↔ b = 17 := BitVec.toNat_inj (y := 17)
  have hfell : ((b.toNat == 16 && (s.die d).fell.getLsbD 0) || (b.toNat == 17 && (s.die d).fell.getLsbD 1)) = false := by
    have e16 : (b.toNat == 16 && (s.die d).fell.getLsbD 0) = false := by
      by_cases e : b = 16
      · rw [h16 e, Bool.and_false]
      · rw [beq_false_of_ne fun h => e (b16.mp h), Bool.false_and]
    have e17 : (b.toNat == 17 && (s.die d).fell.getLsbD 1) = false := by
      by_cases e : b = 17
      · rw [h17 e, Bool.and_false]
      · rw [beq_false_of_ne fun h => e (b17.mp h), Bool.false_and]
    rw [e16, e17]; rfl
  have hpresent := readyFeature_present h18 h19 h20 hrun
  change execFunctionReady d b s = _
  rw [execFunctionReady]
  refine congrArg Host.Outcome.next (if_neg ?_)
  rw [not_or, not_or]
  exact ⟨by omega, ne_true_of_eq_false hfell, ne_true_of_eq_false hpresent⟩

/-- The number of a link's bit in HIF_READY (R39). -/
def linkBit (link : Bool) : Nat := if link then 17 else 16

/-- The machine once a link has fallen, before a run of the checkpoint engine fails. -/
def State.linkFell (s : State) (d : BitVec 2) (link : Bool) : State :=
  ((s.onDie d fun x => { x with ready := x.ready &&& ~~~(1#22 <<< linkBit link), fell := x.fell ||| (if link then 2 else 1) }).setErr 3).onCores
    fun x => x.loseOver (d, link)

theorem exec_linkDown_ready {s : State} {d : BitVec 2} {link : Bool} (h : s.isReady d (linkBit link) = true) :
    exec (.linkDown d link) s = .next (s.linkFell d link).ckeStop := by
  change execLinkDown d link s = _
  rw [execLinkDown]
  exact congrArg Host.Outcome.next (if_neg (by rw [← linkBit, h]; decide))

/-- Settles O53: each command of the device by its own lemma; what held accesses leave when they perform is common to all. -/
theorem deviceCommands : Obligations.DeviceCommands := by
  intro s slot vpn v d
  refine ⟨fun h => exec_keyCommand_taken slot h, fun h => exec_keyCommand_busy slot h, ?_, fun h => exec_tlbInvalidate_taken vpn h,
    fun h => exec_tlbInvalidate_busy vpn h, fun w hw => ⟨_, exec_tlbInvalidationDone hw, rfl, rfl, rfl, fun e => ?_, fun e => ?_⟩,
    fun hbusy hdie hready => exec_ckeStart hbusy hdie hready, fun h => ?_, fun hbusy hrun hidle => exec_ckeRunBegin hbusy hrun hidle, ?_,
    fun h => exec_ckeAbort_stops h, fun h => exec_ckeAbort_idle h, ?_, ?_⟩
  · intro op hw hop st
    refine ⟨_, exec_keyCommandDone hw hop (s.keyStat_known slot hop), rfl, rfl, fun hst => ?_, fun k hk => ?_, rfl, rfl⟩
    · rw [State.key?_after, if_pos ⟨hst, rfl⟩]
    · rw [State.key?_after, if_neg fun h => hk h.2]
  · rw [State.onDev_core, State.dropTranslations_core, List.mem_filter, TlbEntry.outlives_iff]
  · have hdie : ((s.dropTranslations w).onDev fun d => { d with tlbInv := none }).die d = (s.dropTranslations w).die d := rfl
    rw [hdie, State.dropTranslations_die, List.mem_filter, TlbEntry.outlives_iff]
  · exact ⟨congrArg Host.Outcome.next (State.ckeWrite_busy h v false true), congrArg Host.Outcome.next (State.ckeWrite_busy h v true true)⟩
  · intro ready
    exact ⟨fun hrun hready => exec_ckeRunEnd_ends hrun (s.ckeReady_iff.mpr hready), fun h => exec_ckeRunEnd_waits (mt s.ckeReady_iff.mp h)⟩
  · intro b hb h16 h17 h18 h19 h20 hrun
    obtain ⟨hk, hd, -, he⟩ := State.Released.release (s.onDie d fun x => { x with ready := x.ready ||| (1#22 <<< b.toNat) })
    refine ⟨_, exec_functionReady_rises hb h16 h17 h18 h19 h20 hrun, ?_, hk, he⟩
    rw [(hd d).ready, State.onDie_die, if_pos rfl]
  · intro link h
    obtain ⟨hk, hd, he⟩ := (s.linkFell d link).ckeStop_frame
    have hdev : (s.linkFell d link).dev.err = s.dev.err ||| 8 := rfl
    have hdie : (s.linkFell d link).die d = { s.die d with ready := (s.die d).ready &&& ~~~(1#22 <<< linkBit link), fell := (s.die d).fell ||| (if link then 2 else 1) } := by
      have : (s.linkFell d link).die d = (s.onDie d fun x => { x with ready := x.ready &&& ~~~(1#22 <<< linkBit link), fell := x.fell ||| (if link then 2 else 1) }).die d := rfl
      rw [this, State.onDie_die, if_pos rfl]
    refine ⟨_, exec_linkDown_ready h, ?_, ?_, fun j hj hj3 => ?_, ?_⟩
    · rw [State.isReady, (hd d).ready, hdie]
      cases link <;> simp [linkBit]
    · rw [he 3 (by decide), hdev]; simp
    · have h8 : BitVec.getLsbD (8 : BitVec 8) j = false := by
        change (1#8 <<< 3).getLsbD j = false
        rw [BitVec.getLsbD_shiftLeft]
        simp only [BitVec.getLsbD_one, Bool.and_eq_false_iff, decide_eq_false_iff_not, Bool.not_eq_false', decide_eq_true_eq]
        omega
      rw [he j hj, hdev, BitVec.getLsbD_or, h8, Bool.or_false]
    · unfold Claims.keptCore at hk
      rw [hk]; rfl

end Sys2Proof.Machine
end

section
/-! PROOFS. A reset of the device, and a load of its firmware (R33, R35). -/

namespace Sys2Proof.Machine

open Sys2Proof

/-- A reset keeps the bytes of memory outside L2 staging. -/
theorem State.resetDevice_find? (s : State) (a : Nat) : Sparse.find? s.resetDevice.mem a = if isStaging a then none else Sparse.find? s.mem a := by
  refine (Sparse.find?_filter s.mem (fun a => !isStaging a) a).trans ?_
  cases isStaging a <;> rfl

/-- The image of a load of firmware passes its check. -/
def State.fwGood (s : State) : Bool :=
  decide (s.dev.fwAddr.toNat % 4096 = 0 ∧ s.dev.fwLen.toNat ≤ 2 ^ 26) && trailerOk s.fwImage && Config.firmwareCheck s.fwImage

/-- The device with the firmware of its image. -/
def State.fwTaken (s : State) : State :=
  s.onDev fun d => { d with fwMain := imageWords (Config.firmwareWords s.fwImage false), fwComp := imageWords (Config.firmwareWords s.fwImage true) }

theorem exec_fwload (s : State) : exec .fwload s = .next (if s.fwGood then s.fwTaken.resetDevice else s.resetDevice.setErr 2) := rfl

theorem State.fwGood_limits {s : State} (h : s.dev.fwAddr.toNat % 4096 ≠ 0 ∨ 2 ^ 26 < s.dev.fwLen.toNat) : s.fwGood = false := by
  have hno : ¬(s.dev.fwAddr.toNat % 4096 = 0 ∧ s.dev.fwLen.toNat ≤ 2 ^ 26) := by omega
  rw [State.fwGood, decide_eq_false hno, Bool.false_and, Bool.false_and]

theorem State.fwGood_trailer {s : State}
    (h : s.fwImage.length < 4 ∨ (crc32c (s.fwImage.take (s.fwImage.length - 4))).toNat ≠ leNat (s.fwImage.drop (s.fwImage.length - 4))) : s.fwGood = false := by
  have hno : ¬(4 ≤ s.fwImage.length ∧ (crc32c (s.fwImage.take (s.fwImage.length - 4))).toNat = leNat (s.fwImage.drop (s.fwImage.length - 4))) := by
    rintro ⟨h4, hc⟩
    rcases h with h | h
    · omega
    · exact h hc
  rw [State.fwGood, trailerOk, decide_eq_false hno, Bool.and_false, Bool.false_and]

theorem exec_fwload_bad {s : State} (h : s.fwGood = false) : exec .fwload s = .next (s.resetDevice.setErr 2) := by
  rw [exec_fwload, if_neg (ne_true_of_eq_false h)]

/-- Settles O54: the reset by its definition, and the load of firmware by the check of its image. -/
theorem deviceReset : Obligations.DeviceReset := by
  intro s
  refine ⟨⟨s.resetDevice, rfl, rfl, rfl, rfl, rfl, rfl, rfl, s.resetDevice_find?⟩, ?_⟩
  cases hg : s.fwGood with
  | true =>
    refine ⟨s.fwTaken.resetDevice, ?_, rfl, rfl, rfl, rfl, .inl rfl, fun h => ?_, fun h => ?_⟩
    · rw [exec_fwload, if_pos hg]
    · exact absurd hg (ne_true_of_eq_false (State.fwGood_limits h))
    · exact absurd hg (ne_true_of_eq_false (State.fwGood_trailer h))
  | false =>
    have hset : (s.resetDevice.setErr 2).dev.err = 0#8 ||| (1#8 <<< 2) := rfl
    have herr : (s.resetDevice.setErr 2).dev.err = 4 := hset.trans (by decide)
    exact ⟨s.resetDevice.setErr 2, exec_fwload_bad hg, rfl, rfl, rfl, rfl, .inr ⟨herr, rfl, rfl⟩, fun _ => herr, fun _ => herr⟩

end Sys2Proof.Machine
end

section
/-! PROOFS. The engines at work: dispatch, MZERO, retirement, gather parts and the chunks that a Fuller receives (R226-R228, R242, R244, R251, R262,
R393, R394). -/

namespace Sys2Proof.Machine

open Sys2Proof

/-! ### Dispatch (R226, R251) -/

theorem exec_engineDispatch {s : State} (h : s.core.task.isSome = true) (e : Eng) : exec (.engineDispatch s.me e) s = .next (s.dispatch e) := by
  change execEngineDispatch s.me e s = _
  rw [execEngineDispatch, State.within_me, if_pos h]

/-- The one command of a queue, which follows none, is the next and conflicts with none. -/
theorem State.nextCmd_only {s : State} {c : Cmd} (h : s.core.cmds = [c]) (hst : c.st = .queued) (hp : c.preds = []) : s.nextCmd c.eng = some c := by
  have hw : (c.st == CmdState.waiting) = false := by rw [hst]; rfl
  have hq : (c.st == CmdState.queued) = true := by rw [hst]; rfl
  have hk : (c.st == CmdState.parked) = false := by rw [hst]; rfl
  have hgone : s.predsGone c = true := by rw [State.predsGone, h, hp]; rfl
  simp only [State.nextCmd, h, List.find?_cons, List.find?_nil, hw, hq, hk, hgone, beq_self_eq_true, Bool.and_true, Bool.and_false, Bool.false_and, Bool.true_or,
    Bool.not_true, Bool.false_eq_true, if_false]

theorem State.conflicts_only {s : State} {c : Cmd} (h : s.core.cmds = [c]) : s.conflicts c = false := by
  rw [State.conflicts, h]
  simp

theorem exec_engineDispatch_waits {s : State} {e : Eng} {c : Cmd} (ht : s.core.task.isSome = true) (hn : s.nextCmd e = some c)
    (hc : s.conflicts c = true) : exec (.engineDispatch s.me e) s = .next (s.setCmd { c with st := .waiting }) := by
  rw [exec_engineDispatch ht, State.dispatch, hn]
  exact congrArg Host.Outcome.next (if_pos hc)

/-! ### MZERO (R262) -/

/-- A core after writes of its tiles. -/
def Core.Tiled (x y : Core) : Prop := y = { x with tiles := y.tiles, journal := y.journal, regs := { x.regs with status := y.regs.status } }

theorem Core.Tiled.trans {x y z : Core} (h : x.Tiled y) (g : y.Tiled z) : x.Tiled z := by
  unfold Core.Tiled at *
  rw [g, h]

theorem Core.Tiled.record (x : Core) (u : Undo) : x.Tiled (x.record u) := by
  unfold Core.record
  split
  · rfl
  · split <;> rfl

theorem Core.record_tiles (x : Core) (u : Undo) : (x.record u).tiles = x.tiles := by
  unfold Core.record
  split
  · rfl
  · split <;> rfl

theorem Core.Tiled.tileWrite (x : Core) (k : Nat) (v : Word32) : x.Tiled (x.tileWrite k v) :=
  (Core.Tiled.record x (.tile (k / 16) (Sparse.range 0 x.tiles (k / 16 * 16) 16))).trans rfl

theorem Core.tileWrite_get (x : Core) (k l : Nat) (v : Word32) :
    Sparse.get 0 (x.tileWrite k v).tiles l = if l = k then v else Sparse.get 0 x.tiles l := by
  unfold Core.tileWrite
  dsimp only
  rw [Sparse.get_set, Core.record_tiles]

theorem Core.tileZeros (keys : List Nat) (x : Core) : x.Tiled (keys.foldl (fun x k => x.tileWrite k 0) x)
    ∧ ∀ l, Sparse.get 0 (keys.foldl (fun x k => x.tileWrite k 0) x).tiles l = if l ∈ keys then 0 else Sparse.get 0 x.tiles l := by
  induction keys generalizing x with
  | nil => exact ⟨rfl, fun l => rfl⟩
  | cons k keys ih =>
    obtain ⟨hf, hg⟩ := ih (x.tileWrite k 0)
    refine ⟨(Core.Tiled.tileWrite x k 0).trans hf, fun l => ?_⟩
    rw [List.foldl_cons, hg, Core.tileWrite_get]
    by_cases hl : l ∈ keys
    · rw [if_pos hl, if_pos (List.mem_cons_of_mem _ hl)]
    · rw [if_neg hl]
      exact if_congr (by simp [hl]) rfl rfl

/-- The words of the tile that an MZERO names. -/
def mzeroWords (d : BitVec 256) : List Nat :=
  (List.range (descRows d)).flatMap fun i => (List.range (descCols d)).map fun j => (sideB d).tile * 16384 + ((sideB d).row0 + i) * 128 + (sideB d).col0 + j

theorem mem_mzeroWords {d : BitVec 256} {k : Nat} : k ∈ mzeroWords d ↔
    ∃ i j, i < descRows d ∧ j < descCols d ∧ k = (sideB d).tile * 16384 + ((sideB d).row0 + i) * 128 + (sideB d).col0 + j := by
  simp only [mzeroWords, List.mem_flatMap, List.mem_map, List.mem_range]
  constructor
  · rintro ⟨i, hi, j, hj, rfl⟩
    exact ⟨i, j, hi, hj, rfl⟩
  · rintro ⟨i, j, hi, hj, rfl⟩
    exact ⟨i, hi, j, hj, rfl⟩

theorem exec_engineDispatch_mzero {s : State} {e : Eng} {c : Cmd} (ht : s.core.task.isSome = true) (hn : s.nextCmd e = some c)
    (hc : s.conflicts c = false) (hop : c.op = .mzero) : exec (.engineDispatch s.me e) s = .next
      (({ s with core := (mzeroWords c.desc).foldl (fun x k => x.tileWrite k 0) s.core } : State).setCmd { c with st := .running }) := by
  have hrun : s.runCmd c = s.runMzero c := by rw [State.runCmd, hop]
  rw [exec_engineDispatch ht, State.dispatch, hn]
  dsimp only
  rw [if_neg (ne_true_of_eq_false hc), hrun]
  rfl

/-! ### Retirement (R227, R228) -/

section
variable {s : State} {k : Nat} {x : Cmd} (hx : s.core.cmds[k]? = some x)
include hx

theorem exec_engineRetire_waits (h : (x.st != .running || s.actWaits x) = true) : exec (.engineRetire s.me k) s = .next s := by
  change execEngineRetire s.me k s = _
  rw [execEngineRetire, State.within_me, hx]
  exact congrArg Host.Outcome.next (if_pos h)

theorem exec_engineRetire_plain (hst : x.st = .running) (hw : s.actWaits x = false) (h1 : x.op ≠ .ccol) (h2 : x.op ≠ .cgth) (h3 : x.op ≠ .csct) :
    exec (.engineRetire s.me k) s = .next (s.retireCmd x) := by
  change execEngineRetire s.me k s = _
  rw [execEngineRetire, State.within_me, hx]
  dsimp only
  rw [if_neg (by rw [hst, hw]; decide)]
  cases hop : x.op
  case ccol => exact absurd hop h1
  case cgth => exact absurd hop h2
  case csct => exact absurd hop h3
  all_goals rfl

/-- A gather or a scatter that has elements left does not retire. -/
theorem exec_engineRetire_unfinished (hop : x.op = .cgth ∨ x.op = .csct) (hd : x.done ≠ descRows x.desc * descCols x.desc) :
    exec (.engineRetire s.me k) s = .next s := by
  change execEngineRetire s.me k s = _
  rw [execEngineRetire, State.within_me, hx]
  dsimp only
  split
  · rfl
  · rcases hop with hop | hop <;> rw [hop] <;> exact congrArg Host.Outcome.next (if_pos (bne_iff_ne.mpr hd))

theorem exec_engineRetire_gather (hst : x.st = .running) (hw : s.actWaits x = false) (hop : x.op = .cgth ∨ x.op = .csct)
    (hd : x.done = descRows x.desc * descCols x.desc) {u : State} (hg : s.gathStatus x = some u) :
    exec (.engineRetire s.me k) s = .next (u.retireCmd x) := by
  have hdone : (x.done != descRows x.desc * descCols x.desc) = false := by rw [hd]; exact bne_self_eq_false _
  change execEngineRetire s.me k s = _
  rw [execEngineRetire, State.within_me, hx]
  dsimp only
  rw [if_neg (by rw [hst, hw]; decide)]
  rcases hop with hop | hop <;> rw [hop] <;> dsimp only <;> rw [if_neg (ne_true_of_eq_false hdone), hg]

theorem exec_gatherPartReply (hst : x.st = .running) (hop : x.op = .cgth ∨ x.op = .csct) (hd : x.done ≠ descRows x.desc * descCols x.desc) (owner : BitVec 2) :
    exec (.gatherPartReply s.me k owner) s = .next (s.runGather { x with parts := x.parts ||| (1#4 <<< owner.toNat) }) := by
  have hgo : ((x.op == .cgth || x.op == .csct) && x.st == .running && x.done != descRows x.desc * descCols x.desc) = true := by
    rw [bne_iff_ne.mpr hd, hst]
    rcases hop with hop | hop <;> rw [hop] <;> rfl
  change execGatherPartReply s.me k owner s = _
  rw [execGatherPartReply, State.within_me, hx]
  exact congrArg Host.Outcome.next (if_pos hgo)

end

/-- A gather or a scatter without elements, to no circular buffer, runs in one move. -/
theorem State.runGather_empty {s : State} {c : Cmd} (he : descEmpty c.desc = true) (hf : s.findSlot c (sideB c.desc).fmt = .plain) :
    s.runGather c = s.setCmd { c with st := .running } := by
  rw [State.runGather]
  dsimp only
  rw [if_pos he, State.runEmpty, hf]

theorem State.retireSets_plain {s : State} {c : Cmd} (hslot : c.slot = none) (ho : c.ohrange = false) (ht : c.tflags = 0) : s.retireSets c = s := by
  have hf : s.core.regs.tileFlags ||| ((0#4).setWidth 32 <<< (4 * (sideB c.desc).tile)) = s.core.regs.tileFlags := by simp
  have h0 : c.tflags = 0#4 := ht
  simp only [State.retireSets, State.onRegs, hslot, ho, h0, hf, Bool.false_eq_true, if_false]

theorem State.leaveCmd_eq (s : State) (c : Cmd) : ∃ ev, s.leaveCmd c = { s with core := { s.core with
    ev := ev, cmds := s.core.cmds.filter fun o => o.seqNo != c.seqNo } } := by
  obtain ⟨ev, h⟩ := s.count_eq (if c.eng = .m then 0x0E else 0x0F) 1
  exact ⟨ev, by rw [State.leaveCmd, State.countRetired, h]⟩

theorem State.retireCmd_none {s : State} {c : Cmd} (h : c.ret = .none) : s.retireCmd c = (s.retireSets c).leaveCmd c := by
  rw [State.retireCmd, State.retireAct, h]
  rfl

theorem State.retireCmd_sem {s : State} {c : Cmd} (h : c.ret = .sem) : s.retireCmd c =
    ((({ s.retireSets c with core := (s.retireSets c).core.semAdd (BitVec.ofNat 6 (descRtgt c.desc / 2 ^ 10)) 1 } : State).cmdReleases c
      (BitVec.ofNat 6 (descRtgt c.desc / 2 ^ 10)).toNat)).leaveCmd c := by
  rw [State.retireCmd, State.retireAct, h]
  rfl

theorem State.cmdReleases_eq (s : State) (c : Cmd) (n : Nat) : ∃ l : List LocalStore,
    (l.map fun u => { u with rel := [] }) = (s.core.regs.stores.map fun u => { u with rel := [] })
      ∧ s.cmdReleases c n = { s with core := { s.core with regs := { s.core.regs with stores := l } } } := by
  refine ⟨_, ?_, rfl⟩
  rw [List.map_map]
  refine List.map_congr_left fun t _ => ?_
  dsimp only [Function.comp]
  split <;> rfl

/-- The status word of a gather is written to its own core's scratchpad. -/
theorem State.ownWrite_eq (s : State) (c : Cmd) (off : Nat) (bs : List Byte) : ∃ y : Core, s.ownWrite c off (bs.map (·, true)) = { s with core := y, fresh := s.fresh + 1 }
    ∧ y.cmds = s.core.cmds
    ∧ ∀ a, Sparse.get 0 y.scratch a = if off ≤ a ∧ a < off + bs.length then bs.getD (a - off) 0 else Sparse.get 0 s.core.scratch a := by
  have hbs : bs.map (·, true) = (List.range bs.length).map fun i => (bs.getD i 0, true) := by
    refine List.ext_getElem (by simp) fun i h₁ h₂ => ?_
    have hi : i < bs.length := by simpa using h₁
    simp [hi]
  have hw := Core.Wrote.scratchStore s.core off (bs.map (·, true))
  have hget := fun a => Core.scratchStore_get s.core off bs.length (fun i => bs.getD i 0) (fun _ => true) a
  rw [← hbs] at hget
  rw [State.ownWrite]
  generalize s.core.scratchStore off (bs.map (·, true)) = y at hw hget
  unfold Core.Wrote at hw
  refine ⟨_, rfl, ?_, fun a => ?_⟩
  · rw [Core.noted, hw]
  · exact (hget a).trans (if_congr (by simp) rfl rfl)

/-! ### The chunks that a Fuller receives (R393, R394) -/

section
variable {s : State} {d : BitVec 2} {g : BitVec 6} {e : Episode} {c : Chunk}

/-- A chunk of another device is kept as it arrives, after its check. -/
theorem State.receive_away (h : e.expects c.stage c.src c.num = true) (ho : s.ownEntry (e.table.getD c.src 0) = false) :
    s.receive e c = some (e.check c) := by
  have hdata : s.chunkData e c.stage c.src c.num c.data = some c.data := by rw [State.chunkData, ho]; rfl
  rw [State.receive, hdata, h]
  rfl

/-- The one episode of a die that expects a chunk of another device takes it; one that it replaces counts. -/
theorem State.takeChunk_away (hf : (s.die d).fuller = [e]) (hg : e.group = g) (h : e.expects c.stage c.src c.num = true)
    (ho : s.ownEntry (e.table.getD c.src 0) = false) :
    s.takeChunk d g c = some (let t := s.onDie d fun x => { x with fuller := [{ e with chunks := e.chunks ++ [e.check c] }] }
      if (e.check c).good then t else t.dieEvent d 0x0D 1) := by
  have hin : s.receiveIn g c [e] = some ([{ e with chunks := e.chunks ++ [e.check c] }], e.check c) := by
    rw [State.receiveIn, if_pos hg, State.receive_away h ho]
  rw [State.takeChunk, hf, hin]
  rfl

theorem State.takeChunk_none (hf : (s.die d).fuller = []) : s.takeChunk d g c = none := by
  rw [State.takeChunk, hf]
  rfl

/-- A chunk of a member of another device comes before the group's command, and is held (log 34). -/
theorem State.heldEarly_away {m : BitVec 16} (hm : (s.memberTable g)[c.src]? = some m) (ho : s.ownEntry m = false)
    (he : (s.dev.fgrp[g.toNat]'g.isLt).getLsbD 0 = true) : s.heldEarly g c = true := by
  rw [State.heldEarly, he, hm]
  simp [ho]

end

theorem exec_chunkReceive_early {s : State} {d : BitVec 2} {g : BitVec 6} {stage good : Bool} {src : BitVec 8} {k : Nat} {data : List (BitVec 32)}
    {m : BitVec 16} (hf : (s.die d).fuller = []) (hm : (s.memberTable g)[src.toNat]? = some m) (ho : s.ownEntry m = false)
    (he : (s.dev.fgrp[g.toNat]'g.isLt).getLsbD 0 = true) :
    exec (.chunkReceive d g stage src k good data) s = .next (s.onDie d fun x => { x with early := x.early ++ [(g, ⟨stage, src.toNat, k, good, data⟩)] }) := by
  change execChunkReceive d g stage src k good data s = _
  rw [execChunkReceive, State.takeChunk_none hf]
  exact congrArg Host.Outcome.next (if_pos (State.heldEarly_away (c := ⟨stage, src.toNat, k, good, data⟩) hm ho he))

theorem exec_chunkReceive_taken {s : State} {d : BitVec 2} {g : BitVec 6} {stage good : Bool} {src : BitVec 8} {k : Nat} {data : List (BitVec 32)}
    {e : Episode} (hf : (s.die d).fuller = [e]) (hg : e.group = g) (h : e.expects stage src.toNat k = true)
    (ho : s.ownEntry (e.table.getD src.toNat 0) = false) :
    exec (.chunkReceive d g stage src k good data) s = .next
      (let c := e.check ⟨stage, src.toNat, k, good, data⟩
       let t := s.onDie d fun x => { x with fuller := [{ e with chunks := e.chunks ++ [c] }] }
       if c.good then t else t.dieEvent d 0x0D 1) := by
  change execChunkReceive d g stage src k good data s = _
  rw [execChunkReceive, State.takeChunk_away (c := ⟨stage, src.toNat, k, good, data⟩) hf hg h ho]

/-- Settles O57: dispatch, MZERO, retirement, gather parts and chunks, each by its own lemma. -/
theorem engineEvents : Obligations.EngineEvents := by
  refine ⟨fun s e c ht => ⟨?_, ?_, ?_⟩, fun s k x hx => ⟨?_, ?_, ?_, ?_⟩, ?_, ?_⟩
  · rintro hc rfl hst hp
    exact ⟨State.nextCmd_only hc hst hp, State.conflicts_only hc⟩
  · exact fun hn hc => exec_engineDispatch_waits ht hn hc
  · intro hn hc hop b word
    obtain ⟨hf, hg⟩ := Core.tileZeros (mzeroWords c.desc) s.core
    have hrun := exec_engineDispatch_mzero ht hn hc hop
    generalize (mzeroWords c.desc).foldl (fun x k => x.tileWrite k 0) s.core = y at hf hg hrun
    unfold Core.Tiled at hf
    refine ⟨_, hrun, ?_, fun i j hi hj => ?_, fun l hl => ?_, ?_, rfl, ?_, ?_⟩
    · rw [State.setCmd, hf]
    · exact (hg _).trans (if_pos (mem_mzeroWords.mpr ⟨i, j, hi, hj, rfl⟩))
    · refine (hg l).trans (if_neg fun hm => ?_)
      obtain ⟨i, j, hi, hj, he⟩ := mem_mzeroWords.mp hm
      exact hl i j hi hj he
    · rw [State.setCmd, hf]
    · rw [State.setCmd, hf]
    · rw [State.setCmd, hf]
  · exact fun hst => exec_engineRetire_waits hx (by rw [bne_iff_ne.mpr hst]; rfl)
  · intro hst h1 h2 h3 hret hslot ho htf n
    rcases hret with hret | ⟨hret, hdue⟩
    · have hw : s.actWaits x = false := by rw [State.actWaits, hret]
      obtain ⟨ev, hl⟩ := s.leaveCmd_eq x
      refine ⟨_, exec_engineRetire_plain hx hst hw h1 h2 h3, ?_⟩
      rw [State.retireCmd_none hret, State.retireSets_plain hslot ho htf, hl]
      refine ⟨rfl, fun _ => rfl, fun h => ?_, rfl, rfl, rfl, rfl, rfl, rfl⟩
      rw [hret] at h
      exact nomatch h
    · have hw : s.actWaits x = false := by rw [State.actWaits, hret]; exact Core.semDue_of_due hdue
      refine ⟨_, exec_engineRetire_plain hx hst hw h1 h2 h3, ?_⟩
      rw [State.retireCmd_sem hret, State.retireSets_plain hslot ho htf]
      obtain ⟨l, hmap, hrel⟩ := State.cmdReleases_eq { s with core := s.core.semAdd n 1 } x n.toNat
      obtain ⟨ev, hl⟩ := (State.cmdReleases { s with core := s.core.semAdd n 1 } x n.toNat).leaveCmd_eq x
      rw [hl, hrel]
      refine ⟨rfl, fun h => ?_, fun _ => ⟨rfl, hmap⟩, rfl, rfl, rfl, rfl, rfl, rfl⟩
      rw [hret] at h
      exact nomatch h
  · intro hst hop hd
    refine ⟨exec_engineRetire_unfinished hx hop hd, fun owner => ⟨exec_gatherPartReply hx hst hop hd owner, fun he hf => ?_⟩⟩
    rw [exec_gatherPartReply hx hst hop hd owner, State.runGather_empty (c := { x with parts := x.parts ||| (1#4 <<< owner.toNat) }) he hf,
      State.setCmd, ← hst]
  · intro hst hop hd he hret off hoff hunit
    have hw : s.actWaits x = false := by rw [State.actWaits, hret]
    obtain ⟨y, hy, hcmds, hget⟩ := s.ownWrite_eq x off (leBytes 4 x.gath.toNat)
    have hg : s.gathStatus x = some { s with core := y, fresh := s.fresh + 1 } := by
      rw [State.gathStatus, if_neg (ne_true_of_eq_false he)]
      exact (if_neg (Nat.not_lt.mpr hoff)).trans (congrArg some hy)
    obtain ⟨ev, hl⟩ := (State.retireSets { s with core := y, fresh := s.fresh + 1 } x).leaveCmd_eq x
    refine ⟨_, exec_engineRetire_gather hx hst hw hop hd hg, ?_, fun a => ?_⟩
    · rw [State.retireCmd_none hret, hl, ← hcmds]; rfl
    · rw [State.retireCmd_none hret, hl]
      have := hget a
      rw [leBytes_length] at this
      exact this
  · intro s d g stage good src k data e hf hg h ho ok
    refine ⟨_, exec_chunkReceive_taken hf hg h ho, ?_, ?_⟩
    · dsimp only
      have hc : e.check ⟨stage, src.toNat, k, good, data⟩ = ⟨stage, src.toNat, k, ok, if ok then data else List.replicate (e.chunkLen k) 0⟩ := rfl
      rw [hc]
      split
      · rw [State.onDie_die, if_pos rfl]
      · rw [State.dieEvent, State.onDie_die, if_pos rfl, State.onDie_die, if_pos rfl]
    · dsimp only
      split
      · refine ⟨rfl, rfl, rfl, fun o ho => ?_⟩
        rw [State.onDie_die, if_neg ho]
      · refine ⟨rfl, rfl, rfl, fun o ho => ?_⟩
        rw [State.dieEvent, State.onDie_die, if_neg ho, State.onDie_die, if_neg ho]
  · exact fun s d g stage good src k data m hf hm ho he => exec_chunkReceive_early hf hm ho he

end Sys2Proof.Machine
end

section
/-! PROOFS. The scheduler: selection, placement, the entry state of a task, and phase slices (R25, R50, R51, R53, R62). -/

namespace Sys2Proof.Machine

open Sys2Proof

/-! ### Selection (R51) -/

/-- A queue whose first records cannot run on the core gives the first that can. -/
theorem State.scan_first {d : BitVec 2} {q : Nat} {can : State → Task → Bool} {s : State} {e : QEntry} {l r : List QEntry}
    (hplain : ∀ x ∈ l ++ [e], x.gang = [] ∧ x.task.stages = 0) (hno : ∀ x ∈ l, can s x.task = false) (hyes : can s e.task = true) :
    State.scan d q (fun _ => true) true can (l ++ e :: r) [] s = (s.dequeue d q e, some (.one e q)) := by
  induction l with
  | nil =>
    obtain ⟨hg, hs⟩ := hplain e List.mem_cons_self
    simp [State.scan, hg, hs, hyes]
  | cons x l ih =>
    obtain ⟨hg, hs⟩ := hplain x List.mem_cons_self
    have hx := hno x List.mem_cons_self
    have hl := ih (fun y hy => hplain y (List.mem_cons_of_mem x hy)) fun y hy => hno y (List.mem_cons_of_mem x hy)
    simp [State.scan, hg, hs, hx, hl]

/-- Empty queues are passed over. -/
theorem State.selectIn_first {d : BitVec 2} {can : State → Task → Bool} {q : Nat} {pre post : List Nat} {s u : State} {p : Pick}
    (hpre : ∀ x ∈ pre, (s.die d).queue x = []) (h : State.scan d q (fun _ => true) true can ((s.die d).queue q) [] s = (u, some p)) :
    State.selectIn d (fun _ => true) true can (pre ++ q :: post) s = (u.ageQueues d q, some p) := by
  induction pre with
  | nil => rw [List.nil_append, State.selectIn, h]
  | cons x pre ih =>
    have hx := hpre x List.mem_cons_self
    rw [List.cons_append, State.selectIn, hx, State.scan]
    exact ih fun y hy => hpre y (List.mem_cons_of_mem x hy)

/-! ### Placement (R51, R53, R62) -/

section
variable {s : State} {d : BitVec 2} {n : BitVec 8} (hsettled : s.settleDie d = s)
include hsettled

theorem exec_schedulerPlace_busy (h : s.coreFree ⟨d, n⟩ = false) : exec (.schedulerPlace d n) s = .next s := by
  change execSchedulerPlace d n s = _
  rw [execSchedulerPlace]
  exact congrArg Host.Outcome.next (State.orHold_self (by rw [hsettled]; dsimp only; rw [h]; rfl))

theorem exec_dieFreeRequest_busy (h : s.coreFree ⟨d, n⟩ = false) : exec (.dieFreeRequest d n) s = .next s := by
  change execDieFreeRequest d n s = _
  rw [execDieFreeRequest]
  exact congrArg Host.Outcome.next (State.orHold_self (by rw [hsettled]; dsimp only; rw [h]; rfl))

theorem exec_schedulerPlace_free (h : s.coreFree ⟨d, n⟩ = true) : exec (.schedulerPlace d n) s = .next (Claims.orWaits s (s.placeOn ⟨d, n⟩).1) := by
  change execSchedulerPlace d n s = _
  rw [execSchedulerPlace, State.orHold_eq, hsettled, if_pos h]

theorem exec_dieFreeRequest_places {u : State} (h : s.coreFree ⟨d, n⟩ = true) (hp : s.placeOn ⟨d, n⟩ = (u, true)) :
    exec (.dieFreeRequest d n) s = .next (Claims.orWaits s u) := by
  change execDieFreeRequest d n s = _
  rw [execDieFreeRequest, State.orHold_eq, hsettled]
  dsimp only
  rw [h, hp]
  rfl

/-- A core that its own die leaves idle runs the record that another die gives it (R53). -/
theorem exec_dieFreeRequest_asks {u v : State} {t : Task} (h : s.coreFree ⟨d, n⟩ = true) (hp : s.placeOn ⟨d, n⟩ = (u, false))
    (hr : u.reserved ⟨d, n⟩ = none) (ha : State.askDies (u.die d).gen [d + 1, d + 2, d + 3] u = (v, some t)) :
    exec (.dieFreeRequest d n) s = .next (Claims.orWaits s (v.placeTask t ⟨d, n⟩ none)) := by
  change execDieFreeRequest d n s = _
  rw [execDieFreeRequest, State.orHold_eq, hsettled]
  dsimp only
  rw [h, hp]
  dsimp only
  rw [hr, ha]
  rfl

end

/-- A free core without a preloaded or a resumed task takes the record that is selected. -/
theorem State.placeOn_selected {s u : State} {c : CoreRef} {e : QEntry} {q : Nat} (hp : (s.getCore c).preload = none) (hr : s.resumedFor c = none)
    (h : s.select c (fun _ => true) true = (u, some (.one e q))) : s.placeOn c = (u.placeTask e.task c none, true) := by
  rw [State.placeOn, hp, hr, h]

theorem State.placeTask_bothBanks {s : State} {t : Task} (h : t.bothBanks = true) (c : CoreRef) :
    s.placeTask t c none = (s.bindGroups t c).within c fun s => s.startTask t none := by
  rw [State.placeTask]
  exact if_pos (by rw [h]; rfl)

/-! ### The entry state (R25) -/

theorem State.enter_regs (s : State) (t : Task) (bank : Sparse Byte) (x : Text) :
    (s.enter t bank x).core.regs = t.entryRegs s.me.isComp (x.base + BitVec.ofNat 64 x.entry) := rfl

theorem Task.entryRegs_args (t : Task) (comp : Bool) (pc : Word) : (t.entryRegs comp pc).sVal 1 = BitVec.ofNat 64 t.args := rfl

theorem Task.entryRegs_addr (t : Task) (comp : Bool) (pc : Word) : (t.entryRegs comp pc).sVal 2 = t.addr.setWidth 64 := rfl

theorem Task.entryRegs_index (t : Task) (comp : Bool) (pc : Word) :
    (t.entryRegs comp pc).sVal 3 = if comp then 0 else BitVec.ofNat 64 t.index := rfl

theorem Task.entryRegs_zero (t : Task) (comp : Bool) (pc : Word) {n : BitVec 5} (h : 4 ≤ n.toNat) : (t.entryRegs comp pc).sVal n = 0 := by
  have h1 : 1 ≠ n.toNat := by omega
  have h2 : 2 ≠ n.toNat := by omega
  have h3 : 3 ≠ n.toNat := by omega
  rw [Regs.sVal]
  split
  · rfl
  · simp [Task.entryRegs, Regs.zero, h1, h2, h3]

theorem Task.entryRegs_full (t : Task) (comp : Bool) (pc : Word) (n : BitVec 5) : (t.entryRegs comp pc).sIsFull n = true := by
  have hn : n.toNat < 32 := n.isLt
  have hf : (t.entryRegs comp pc).sFull = BitVec.allOnes 32 := rfl
  rw [Regs.sIsFull, hf, BitVec.getLsbD_allOnes, decide_eq_true hn, Bool.or_true]

/-! ### Phase slices (R50) -/

theorem exec_phaseSliceExpiry (s : State) (d : BitVec 2) : exec (.phaseSliceExpiry d) s = .next (s.onDie d fun x =>
    { x with gen := if s.phaseWork d (!(s.die d).gen) then !(s.die d).gen else (s.die d).gen
             slice := x.quantumOf (if s.phaseWork d (!(s.die d).gen) then !(s.die d).gen else (s.die d).gen) * 1024 }) := rfl

/-- Settles O58: the first record that can run is selected, and each event of the scheduler does what it says with it. -/
theorem schedulerEvents : Obligations.SchedulerEvents := by
  refine ⟨?_, fun s d n hsettled => ⟨fun h => ⟨exec_schedulerPlace_busy hsettled h, exec_dieFreeRequest_busy hsettled h⟩, ?_,
    fun u v t h hp hr ha => exec_dieFreeRequest_asks hsettled h hp hr ha⟩, fun s t bank x => ?_, fun s d => ⟨_, exec_phaseSliceExpiry s d, rfl, rfl, ?_, ?_⟩⟩
  · intro s c q pre post e l r horder hpre hq hplain hno hyes
    rw [State.select, horder]
    exact State.selectIn_first hpre (by rw [hq]; exact State.scan_first hplain hno hyes)
  · intro u e q h hp hr hsel
    have hplace := State.placeOn_selected hp hr hsel
    refine ⟨?_, exec_dieFreeRequest_places hsettled h hplace, fun hb => State.placeTask_bothBanks hb ⟨d, n⟩⟩
    rw [exec_schedulerPlace_free hsettled h, hplace]
  · intro u
    exact ⟨rfl, rfl, rfl, rfl, t.entryRegs_args _ _, t.entryRegs_addr _ _, t.entryRegs_index _ _, fun n hn => t.entryRegs_zero _ _ hn,
      fun n => t.entryRegs_full _ _ n, rfl, rfl, rfl, rfl, rfl, rfl, rfl, rfl, rfl, rfl⟩
  · rw [State.onDie_die, if_pos rfl]
  · rw [State.onDie_die, if_pos rfl]
    rfl

end Sys2Proof.Machine
end

section
/-! PROOFS. What ends or interrupts a task: retirement, suspension, a requeue by YIELD, and a datapath error (R43, R364, R365, R371, R374, R397). -/

namespace Sys2Proof.Machine

open Sys2Proof

/-! ### Where nothing of a task is outstanding -/

section
variable {s : State} (h : Claims.settled s)
include h

theorem Claims.settled_mySfx : s.mySfx = false := by
  obtain ⟨-, -, -, hx, -⟩ := h
  exact State.mySfx_eq_false hx

theorem Claims.settled_sfxStill : s.sfxStill = true := by
  obtain ⟨-, -, -, hx, -⟩ := h
  have hf : (s.die s.me.die).sfxOps.find? (fun o => o.core == s.me.idx) = none := List.find?_eq_none.mpr fun o ho => by simpa using hx o ho
  rw [State.sfxStill, hf]

theorem Claims.settled_decsOut : s.decsOut = false := by
  obtain ⟨-, -, -, -, hd, -⟩ := h
  rw [State.decsOut, List.any_eq_false]
  intro d hm
  simp [hd d hm]

theorem Claims.settled_tokensStill : s.core.tokensStill = true := by
  obtain ⟨-, -, -, -, -, ha, hc⟩ := h
  rw [Core.tokensStill, ha, hc]
  rfl

theorem Claims.settled_lostAccess : s.core.lostAccess = false := by
  obtain ⟨-, hm, -⟩ := h
  rw [Core.lostAccess, hm]
  rfl

theorem Claims.settled_stepOneDone : s.stepOneDone = true := by
  obtain ⟨-, hm, -, hx, -, -, hc⟩ := h
  have hs : (s.die s.me.die).sfxOps.all (fun o => o.core != s.me.idx || !o.kind.inStepOne) = true := by
    rw [List.all_eq_true]
    intro o ho
    rw [bne_iff_ne.mpr (hx o ho), Bool.true_or]
  rw [State.stepOneDone, hm, hc, hs]
  rfl

theorem Claims.settled_mayRetire : s.mayRetire = true := by
  have hsfx := Claims.settled_mySfx h
  have hdec := Claims.settled_decsOut h
  have htok := Claims.settled_tokensStill h
  obtain ⟨hc, hm, ha, -⟩ := h
  rw [State.mayRetire, hc, hm, ha, hsfx, hdec, htok]
  rfl

theorem Claims.settled_mayRequeue : s.mayRequeue = true := by
  have hsfx := Claims.settled_mySfx h
  have hdec := Claims.settled_decsOut h
  obtain ⟨hc, hm, ha, -⟩ := h
  rw [State.mayRequeue, hc, hm, ha, hsfx, hdec]
  rfl

/-- An engine without a command has nothing to dispatch. -/
theorem Claims.settled_enginesStill : s.enginesStill = true := by
  obtain ⟨hc, -⟩ := h
  have hd (e : Eng) : s.dispatch e = s := by simp [State.dispatch, State.nextCmd, hc]
  simp only [State.enginesStill, hd, hc]
  rfl

theorem Claims.settled_maySuspend : s.maySuspend = true := by
  have heng := Claims.settled_enginesStill h
  have hsfx := Claims.settled_sfxStill h
  have hdec := Claims.settled_decsOut h
  have htok := Claims.settled_tokensStill h
  obtain ⟨-, hm, ha, -⟩ := h
  rw [State.maySuspend, heng, hsfx, htok, hm, ha, hdec]
  rfl

end

/-! ### Retirement (R43, R115, R397) -/

/-- The machine once a task that retires has landed its results, and its loops, its transfer and its rotation are gone. -/
def State.endSettled (s : State) : State :=
  { s with core := { s.core with regs := { s.core.regs with loops := [], pend := none, shadow := 0, vrb := 0, prb := 0 } } }

theorem State.settleEnd_settled {s : State} (hf : s.core.regs.flight = []) (h : Claims.settled s) : s.settleEnd = s.endSettled := by
  have hr : ({ s.core.regs with flight := [] } : Regs) = s.core.regs := by rw [← hf]
  rw [State.settleEnd, hf]
  dsimp only
  rw [hr]
  exact if_pos (Claims.settled_stepOneDone h)

theorem State.completionStore_me (s : State) (t : Task) (v : Nat) : (s.completionStore t v).me = s.me := by
  have h := (State.Touched.vWrite s (jobWho t.job) (BitVec.ofNat 64 t.complAddr) (leBytes 8 v)).me
  unfold State.completionStore
  split
  · rfl
  · split
    · next e => rw [e] at h; exact h
    · next e => rw [e] at h; exact h

theorem State.successors_me (s : State) (t : Task) : (s.successors t).1.me = s.me := by
  have h := (State.Touched.vReadAll s (jobWho t.job) (BitVec.ofNat 64 (t.succ 0)) (8 * t.succCount)).me
  unfold State.successors State.recBytes
  split
  · rfl
  · dsimp only
    split
    · rfl
    · split
      · next e => rw [e] at h; exact h
      · next e => rw [e] at h; exact h

theorem State.succDec_me (s : State) (job : BitVec 6) (list a : Nat) : (s.succDec job list a).me = s.me := by
  have h := (State.Touched.translateHeld s (jobWho job) true (BitVec.ofNat 64 a)).me
  unfold State.succDec
  split
  · rfl
  · split
    · next e => rw [e] at h; exact h
    · next e =>
      rw [e] at h
      split
      · split <;> exact h
      · exact h

theorem State.complete_me (s : State) (t : Task) : (s.complete t).me = s.me := by
  have h := ((s.completionStore t t.seqVal).successors_me t).trans (s.completionStore_me t _)
  unfold State.complete
  split
  · next e => rw [e] at h; exact h
  · next u l e =>
    have hu : u.me = s.me := by rw [e] at h; exact h
    clear h
    have hl (v : State) (hv : v.me = s.me) : (l.foldl (fun r a => r.succDec t.job (u.fresh + 1) a) v).me = s.me := by
      clear e
      induction l generalizing v with
      | nil => exact hv
      | cons a l ih => exact ih _ ((v.succDec_me _ _ _).trans hv)
    exact hl _ hu

/-- A record without a completion address and without successors completes without a store. -/
theorem State.complete_silent {t : Task} (s : State) (ha : t.complAddr = 0) (hs : t.succCount = 0) : s.complete t = { s with fresh := s.fresh + 1 } := by
  have hst : s.completionStore t t.seqVal = s := if_pos (.inl ha)
  have hsucc : s.successors t = (s, some []) := by
    rw [State.successors, hs]
    rfl
  rw [State.complete, hst, hsucc]
  rfl

/-- What a main core's task leaves when it retires. -/
def State.retiredBy (s : State) (t : Task) : State := (((s.endSettled.complete t).dieEvent s.me.die 0x03 1).noteEnded t).freeCore

section
variable {s : State} {t : Task} (ht : s.core.task = some t) (hmain : s.me.isComp = false)
include ht hmain

theorem exec_taskRetire_retires (hl : s.core.life = .ended) (hr : s.core.reports = []) (hf : s.core.regs.flight = []) (h : Claims.settled s)
    (hw : s.core.lostWrites = []) (htok : s.core.lostTokens = []) (ha : s.core.lostAdds = []) :
    exec (.taskRetire s.me) s = .next (Claims.orWaits s (s.retiredBy t)) := by
  have he : Claims.settled s.endSettled := h
  have hgo : ¬((s.core.life != .ended || !s.core.reports.isEmpty) = true) := by rw [hl, hr]; decide
  have hreport : s.endSettled.drainReport .package = .go := by
    change (match s.core.lostWrites, s.core.lostTokens, s.core.lostAdds with
      | va :: _, _, _ => Verdict.trap 0x0A va
      | [], a :: _, _ => .trap 0x09 a
      | [], [], b :: _ => if 3 ≤ Scope.package.code then .trap 0x09 b else .go
      | [], [], [] => .go) = .go
    rw [hw, htok, ha]
  have hme : (s.endSettled.complete t).me = s.me := s.endSettled.complete_me t
  have hcomp : ¬((s.endSettled.complete t).comp = true) := by rw [State.comp, hme, hmain]; decide
  change execTaskRetire s.me s = _
  rw [execTaskRetire, State.within_me, State.orHold_eq, ht]
  dsimp only
  rw [if_neg hgo, State.settleEnd_settled hf h, if_neg (ne_true_of_eq_false (Claims.settled_lostAccess he)),
    if_neg (by rw [Claims.settled_mayRetire he]; decide), hreport]
  dsimp only
  rw [if_neg hcomp, hme]
  rfl

end

theorem State.retiredBy_silent {s : State} {t : Task} (ha : t.complAddr = 0) (hs : t.succCount = 0) :
    (s.retiredBy t).core.task = none ∧ (s.retiredBy t).core.regs = Regs.zero ∧ (s.retiredBy t).mem = s.mem ∧ (s.retiredBy t).lines = s.lines
      ∧ (s.retiredBy t).held = s.held := by
  unfold State.retiredBy
  rw [State.complete_silent _ ha hs]
  generalize hu : (({ s.endSettled with fresh := s.endSettled.fresh + 1 } : State).dieEvent s.me.die 0x03 1) = u
  have hm : u.mem = s.mem := by rw [← hu]; rfl
  have hl : u.lines = s.lines := by rw [← hu]; rfl
  have hh : u.held = s.held := by rw [← hu]; rfl
  obtain ⟨-, -, -, nm, nl, nh, -, -⟩ := u.noteEnded_fields t
  obtain ⟨-, -, fm, fl, fh, -, -⟩ := (u.noteEnded t).freeCore_fields
  exact ⟨State.freeCore_task _, State.freeCore_regs _, fm.trans (nm.trans hm), fl.trans (nl.trans hl), fh.trans (nh.trans hh)⟩

/-! ### Suspension (R364, R365) -/

theorem State.maySuspend_busy {u : State} (h : u.core.memq ≠ []) : u.maySuspend = false := by
  have he : u.core.memq.isEmpty = false := List.isEmpty_eq_false_iff.mpr h
  simp [State.maySuspend, he]

/-- A move that waits for a channel group changes nothing (R39). -/
theorem State.orWaits_hold (s : State) : Claims.orWaits s s.hold = s := by
  cases hh : s.held with
  | false => unfold Claims.orWaits; rw [hh]; rfl
  | true =>
    have hs : s.hold = s := by rw [State.hold, ← hh]
    rw [hs, State.orWaits_held rfl]

section
variable {s : State} {t : Task} (ht : s.core.task = some t) (hmain : s.me.isComp = false)
include ht

/-- While the ring's channel group is not ready nothing moves. -/
theorem exec_taskSuspend_held (h : s.ringHeld s.me.die = true) : exec (.taskSuspend s.me) s = .next s := by
  change execTaskSuspend s.me s = _
  rw [execTaskSuspend, State.within_me, State.orHold_eq, ht]
  dsimp only
  rw [if_pos h, s.orWaits_hold]

variable (hring : s.ringHeld s.me.die = false)
include hring

theorem exec_taskSuspend_kills (hl : s.core.life = .supervisor) (hp : s.canPost s.me.die = false) :
    exec (.taskSuspend s.me) s = .next (Claims.orWaits s (s.kill (s.core.regs.trapCause.setWidth 8) s.core.regs.trapPc s.core.regs.trapVal)) := by
  change execTaskSuspend s.me s = _
  rw [execTaskSuspend, State.within_me, State.orHold_eq, ht]
  dsimp only
  rw [if_neg (ne_true_of_eq_false hring), if_pos (by rw [hl]; rfl), if_pos (by rw [hp]; rfl)]

theorem exec_taskSuspend_waits (hl : s.core.life = .suspending) (hm : s.core.memq ≠ []) : exec (.taskSuspend s.me) s = .next s := by
  have hno : ¬((s.core.life == .suspending && !s.comp && s.maySuspend) = true) := by rw [State.maySuspend_busy hm, Bool.and_false]; decide
  change execTaskSuspend s.me s = _
  rw [execTaskSuspend, State.within_me, State.orHold_eq, ht]
  dsimp only
  rw [if_neg (ne_true_of_eq_false hring), if_neg (by rw [hl]; decide), if_neg hno]
  exact congrArg Host.Outcome.next (State.orWaits_held rfl)

include hmain

theorem exec_taskSuspend_begins (hl : s.core.life = .supervisor) (hp : s.canPost s.me.die = true) (hm : s.core.memq ≠ []) :
    exec (.taskSuspend s.me) s = .next { s with core := { s.core with life := .suspending } } := by
  have hcomp : ¬(s.me.isComp = true) := ne_true_of_eq_false hmain
  change execTaskSuspend s.me s = _
  rw [execTaskSuspend, State.within_me, State.orHold_eq, ht]
  dsimp only
  rw [if_neg (ne_true_of_eq_false hring), if_pos (by rw [hl]; rfl), if_neg (by rw [hp]; decide), State.comp, if_neg hcomp,
    if_neg (ne_true_of_eq_false (State.maySuspend_busy (u := { s with core := { s.core with life := .suspending } }) hm))]
  exact congrArg Host.Outcome.next (State.orWaits_held rfl)

theorem exec_taskSuspend_ends (hl : s.core.life = .suspending) (h : Claims.settled s) :
    exec (.taskSuspend s.me) s = .next (Claims.orWaits s (s.suspendNow t)) := by
  have hgo : (s.core.life == .suspending && !s.comp && s.maySuspend) = true := by
    rw [Claims.settled_maySuspend h, hl, State.comp, hmain]; rfl
  change execTaskSuspend s.me s = _
  rw [execTaskSuspend, State.within_me, State.orHold_eq, ht]
  dsimp only
  rw [if_neg (ne_true_of_eq_false hring), if_neg (by rw [hl]; decide), if_pos hgo]

end

theorem State.ringHeld_iff (s : State) (d : BitVec 2) :
    s.ringHeld d = false ↔ ((s.die d).faultRing.getLsbD 0 = true → s.channelReady (s.ringBase d) = true) := by
  rw [State.ringHeld]
  cases (s.die d).faultRing.getLsbD 0 <;> cases s.channelReady (s.ringBase d) <;> simp

theorem State.suspendNow_eq (s : State) (t : Task) : s.suspendNow t =
    match s.saveFull t s.core.taskRegs (s.core.regs.trapCause.setWidth 8 : BitVec 8).toNat s.core.regs.trapVal with
    | (u, none) => if u.canPost u.me.die then ((u.armRecord t).post u.me.die ⟨t, s.core.regs.trapCause.setWidth 8, s.core.regs.trapVal, s.core.taskRegs.pc⟩).freeCore
        else u.kill (s.core.regs.trapCause.setWidth 8) s.core.taskRegs.pc s.core.regs.trapVal
    | (u, some e) => u.kill e.cause s.core.taskRegs.pc e.val := by
  rw [State.suspendNow]
  rcases s.saveFull t s.core.taskRegs (s.core.regs.trapCause.setWidth 8 : BitVec 8).toNat s.core.regs.trapVal with ⟨u, _ | e⟩
  · dsimp only
    cases u.canPost u.me.die <;> rfl
  · rfl

/-! ### A requeue by YIELD (R371) -/

section
variable {s : State} {t : Task} (ht : s.core.task = some t) (hl : s.core.life = .yielding)
include ht hl

theorem exec_yieldRequeue_cancels (hr : s.core.reports ≠ []) : exec (.yieldRequeue s.me) s = .next { s with core := { s.core with
    life := .running, quantum := (s.die s.me.die).quantumOf t.gen * 1024 } } := by
  have he : s.core.reports.isEmpty = false := List.isEmpty_eq_false_iff.mpr hr
  change execYieldRequeue s.me s = _
  rw [execYieldRequeue, State.within_me, State.orHold_eq, ht]
  dsimp only
  rw [if_neg (by rw [hl]; decide), if_pos (by rw [he]; rfl)]
  exact congrArg Host.Outcome.next (State.orWaits_held rfl)

theorem exec_yieldRequeue_saves (hr : s.core.reports = []) (h : Claims.settled s) :
    exec (.yieldRequeue s.me) s = .next (Claims.orWaits s (match s.saveYield t s.core.yielded with
      | (u, none) => ((u.enqueue u.me.die t.queue { task := t }).dieEvent u.me.die 0x04 1).freeCore
      | (u, some e) => u.kill e.cause u.core.regs.pc e.val)) := by
  change execYieldRequeue s.me s = _
  rw [execYieldRequeue, State.within_me, State.orHold_eq, ht]
  dsimp only
  rw [if_neg (by rw [hl]; decide), if_neg (by rw [hr]; decide), if_neg (by rw [Claims.settled_mayRequeue h]; decide)]
  rcases s.saveYield t s.core.yielded with ⟨u, _ | e⟩ <;> rfl

end

/-! ### A datapath error (R374) -/

theorem exec_datapathError_waits {s : State} (hl : s.core.life = .checkpoint) :
    exec (.datapathError s.me) s = .next { s with core := { s.core with errDue := true } } := by
  change execDatapathError s.me s = _
  rw [execDatapathError, State.within_me, State.orHold_eq, if_pos (by rw [hl]; rfl)]
  exact congrArg Host.Outcome.next (State.orWaits_held rfl)

theorem exec_datapathError_acts {s : State} (hl : s.core.life ≠ .checkpoint) :
    exec (.datapathError s.me) s = .next (Claims.orWaits s s.datapathError) := by
  change execDatapathError s.me s = _
  rw [execDatapathError, State.within_me, State.orHold_eq, if_neg (by simpa using hl)]

/-- Without a snapshot an error kills the task. -/
theorem State.datapathError_kills {s : State} {t : Task} (ht : s.core.task = some t) (hmain : s.me.isComp = false) (hs : s.core.snapshot = none) :
    s.datapathError = State.kill { s with fresh := s.fresh + 1 } 0x20 s.core.taskRegs.pc (Config.openWord s.fresh) := by
  have hcomp : ¬(s.comp = true) := ne_true_of_eq_false hmain
  rw [State.datapathError, ht]
  dsimp only
  rw [if_neg hcomp, hs]

/-- A protected core runs again from its checkpoint, for its first pass. -/
theorem State.datapathError_reruns {s : State} {t : Task} {g : Regs} (ht : s.core.task = some t) (hmain : s.me.isComp = false)
    (hs : s.core.snapshot = some g) (hsup : s.sup = false) (hl : s.core.life ≠ .suspending) (hc : s.core.captured = none)
    (hj : s.core.regs.status.getLsbD 2 = false) (hr : s.core.rerun = none) (he : g.ended = false) :
    s.datapathError = (s.beginPass g 1 0 0).dieEvent s.me.die 0x09 1 := by
  have hcomp : ¬(s.comp = true) := ne_true_of_eq_false hmain
  have htask : s.core.taskRegs = s.core.regs := by rw [Core.taskRegs, hc]
  have hno : ¬(s.sup = true ∨ (s.core.life == .suspending) = true ∨ s.core.taskRegs.status.getLsbD 2 = true) := by
    rw [hsup, htask, hj]
    simpa using hl
  rw [State.datapathError, ht]
  dsimp only
  rw [if_neg hcomp, hs]
  dsimp only
  rw [if_neg hno, hr]
  dsimp only
  rw [if_neg (ne_true_of_eq_false he)]

/-- A core after entries of its undo journal have been put back. -/
def Core.Undone (x y : Core) : Prop := y = { x with scratch := y.scratch, tiles := y.tiles, bankRow := y.bankRow, rb := y.rb }

theorem Core.undo_undone (x : Core) (u : Undo) : x.Undone (x.undo u) := by cases u <;> rfl

theorem Core.undoAll_undone (l : List Undo) (x : Core) : x.Undone (l.foldl Core.undo x) := by
  induction l generalizing x with
  | nil => rfl
  | cons u l ih =>
    have h₁ := x.undo_undone u
    have h₂ := ih (x.undo u)
    unfold Core.Undone at *
    rw [List.foldl_cons, h₂, h₁]

/-- A core that is taken back to a snapshot on which no result was in flight. -/
theorem Core.rollback_clean {x : Core} {g : Regs} (hf : g.flight = []) (he : g.ended = false) :
    (x.rollback g).regs = g ∧ (x.rollback g).life = .running ∧ (x.rollback g).reports = [] ∧ (x.rollback g).journal = [] ∧ (x.rollback g).snapshot = x.snapshot
      ∧ (x.rollback g).cmds = x.cmds.filter Cmd.snap
      ∧ (x.journal = [] → (x.rollback g).scratch = x.scratch ∧ (x.rollback g).tiles = x.tiles ∧ (x.rollback g).rb = x.rb) := by
  have hu := Core.undoAll_undone x.journal x
  have hnil : x.journal = [] → x.journal.foldl Core.undo x = x := fun h => by rw [h]; rfl
  unfold Core.rollback
  generalize x.journal.foldl Core.undo x = y at hu hnil
  unfold Core.Undone at hu
  have hg : ({ g with flight := [], ended := false } : Regs) = g := by rw [← hf, ← he]
  simp only [hf, he, List.filter_nil, hg, Core.landAll, List.foldl_nil, Bool.false_eq_true, if_false, true_and]
  refine ⟨by rw [hu], by rw [hu], fun h => ?_⟩
  rw [hnil h]
  exact ⟨rfl, rfl, rfl⟩

/-- Settles O59: where nothing of the task is outstanding each event goes on; the other cases stop at its guards. -/
theorem taskEvents : Obligations.TaskEvents := by
  intro s t ht hmain
  refine ⟨fun hl hr hf h hw htok ha => ?_, ?_, fun hl hr => exec_yieldRequeue_cancels ht hl hr, fun hl hr h => ?_,
    fun hl => exec_datapathError_waits hl, fun hs hl => ?_, fun g hs hsup hl hck hc hj hr hf he => ?_⟩
  · have hrun := exec_taskRetire_retires ht hmain hl hr hf h hw htok ha
    refine ⟨hrun, fun hca hsc => ?_⟩
    obtain ⟨htask, hregs, hmem, hlines, hheld⟩ := s.retiredBy_silent hca hsc
    exact ⟨s.retiredBy t, hrun.trans (congrArg Host.Outcome.next (State.orWaits_held hheld)), htask, hregs, hmem, hlines⟩
  · dsimp only
    refine ⟨fun h => exec_taskSuspend_held ht ?_, fun h => ?_⟩
    · exact Bool.of_not_eq_false (mt (s.ringHeld_iff s.me.die).mp h)
    · have hring := (s.ringHeld_iff s.me.die).mpr h
      refine ⟨fun hl hp => exec_taskSuspend_kills ht hring hl hp, fun hl hp hm => exec_taskSuspend_begins ht hmain hring hl hp hm,
        fun hl hm => exec_taskSuspend_waits ht hring hl hm, fun hl hset => ?_⟩
      refine (exec_taskSuspend_ends ht hmain hring hl hset).trans (congrArg (fun u => Host.Outcome.next (Claims.orWaits s u)) ((s.suspendNow_eq t).trans ?_))
      rcases s.saveFull t s.core.taskRegs (s.core.regs.trapCause.setWidth 8 : BitVec 8).toNat s.core.regs.trapVal with ⟨u, _ | e⟩ <;> rfl
  · refine (exec_yieldRequeue_saves ht hl hr h).trans ?_
    rcases s.saveYield t s.core.yielded with ⟨u, _ | e⟩ <;> rfl
  · rw [exec_datapathError_acts hl, State.datapathError_kills ht hmain hs]
  · obtain ⟨h1, h2, h3, h4, h5, h6, h7⟩ := s.core.rollback_clean hf he
    have hcore : ((s.beginPass g 1 0 0).dieEvent s.me.die 0x09 1).core
        = { s.core.rollback g with rerun := some { pass := 1, no := 1, sig1 := 0, cnt1 := 0 } } := rfl
    refine ⟨(s.beginPass g 1 0 0).dieEvent s.me.die 0x09 1, ?_, ?_⟩
    · rw [exec_datapathError_acts hck, State.datapathError_reruns ht hmain hs hsup hl hc hj hr he]
      exact congrArg Host.Outcome.next (State.orWaits_held rfl)
    · rw [hcore]
      exact ⟨h1, h2, h3, h4, h5.trans hs, rfl, h6, h7, rfl, rfl⟩

end Sys2Proof.Machine
end

section
/-! PROOFS. The units of a die and of the device: suffix appends, reloads, the fault ring, lost acknowledgements, companion starts and the
counter queue (R40, R65, R326, R345, R347, R365, R379). -/

namespace Sys2Proof.Machine

open Sys2Proof

/-! ### The suffix memory (R345, R347) -/

section
variable {s : State} {k : Nat} {o : SfxOp} {toks : List Word32}

/-- The unit's first operation of a core may perform if it is not parked. -/
theorem State.sfxMay_first {d : BitVec 2} (h : (s.die d).sfxOps[k]? = some o) (hfirst : ∀ p ∈ (s.die d).sfxOps.take k, p.core ≠ o.core)
    (hpark : o.parked = false) : s.sfxMay d k = some o := by
  have hany : ((s.die d).sfxOps.take k).any (fun p => p.core == o.core) = false := by
    rw [List.any_eq_false]
    exact fun p hp => by simpa using hfirst p hp
  rw [State.sfxMay, h]
  dsimp only
  rw [hany, hpark]
  rfl

theorem State.sfxPerform_append {d : BitVec 2} (hk : o.kind = .app toks) (hflaw : o.ctx.toNat ∉ (s.die d).sfxFlaws)
    (hfail : ((s.die d).ctx o.ctx).fail = false) (hconf : ((s.die d).ctx o.ctx).conf = true) (hjob : ((s.die d).ctx o.ctx).job = o.job)
    (hroom : ((s.die d).ctx o.ctx).len + toks.length < 2 ^ 24) :
    s.sfxPerform d o = .done (s.setCtx d o.ctx (toks.foldl (fun c x => c.append (x.setWidth 24)) ((s.die d).ctx o.ctx))) := by
  simpa [State.sfxPerform, hk, hflaw, hfail, hconf, hjob] using hroom

theorem State.sfxPerform_unconfigured {d : BitVec 2} (hk : o.kind = .app toks) (hfail : ((s.die d).ctx o.ctx).fail = false)
    (hconf : ((s.die d).ctx o.ctx).conf = false) : s.sfxPerform d o = .fail s 0x0D 0x10 := by
  simp [State.sfxPerform, hk, hfail, hconf]

end

/-- The image part of TRAP_VAL is zero for a code that names no image. -/
theorem sfxVal_plain (image : Word) (op : Nat) (n : BitVec 12) : sfxVal image op n.toNat 0x10 = BitVec.ofNat 64 (op * 2 ^ 24 + n.toNat * 2 ^ 12 + 0x10) := by
  rw [sfxVal, if_neg (by decide), Nat.mod_eq_of_lt n.isLt, Nat.zero_add]

theorem Die.ctx_set (x : Die) (n m : BitVec 12) (c : SfxCtx) :
    ({ x with sfx := Sparse.set {} x.sfx n.toNat c } : Die).ctx m = if m = n then c else x.ctx m := by
  rw [Die.ctx, Sparse.get_set, Die.ctx]
  simp only [BitVec.toNat_inj]

section
variable {s t : State} {k : Nat} {o : SfxOp} {toks : List Word32} (h : s.sfxMay s.me.die k = some o) (hc : o.core = s.me.idx)
include h hc

/-- An operation of the core in focus leaves the unit as it performs. -/
theorem exec_suffixOpPerform_done (hp : s.sfxPerform s.me.die o = .done t) : exec (.suffixOpPerform s.me.die k) s =
    .next (Claims.orWaits s (t.onDie s.me.die fun d => { d with sfxOps := dropAt d.sfxOps k })) := by
  have hme : (⟨s.me.die, o.core⟩ : CoreRef) = s.me := by rw [hc]
  change execSuffixOpPerform s.me.die k s = _
  rw [execSuffixOpPerform, State.orHold_eq, h]
  dsimp only
  rw [hme, State.within_me, hp]

/-- An append of the core in focus that fails leaves the unit, and is reported. -/
theorem exec_suffixOpPerform_fails {cause : BitVec 8} {code : Nat} (hk : o.kind = .app toks) (hp : s.sfxPerform s.me.die o = .fail t cause code) :
    exec (.suffixOpPerform s.me.die k) s = .next (Claims.orWaits s ((t.onDie s.me.die fun d => { d with sfxOps := dropAt d.sfxOps k }).lateReport
      cause (sfxVal 0 0x1B o.ctx.toNat code) o.sup)) := by
  have hme : (⟨s.me.die, o.core⟩ : CoreRef) = s.me := by rw [hc]
  change execSuffixOpPerform s.me.die k s = _
  rw [execSuffixOpPerform, State.orHold_eq, h]
  dsimp only
  rw [hme, State.within_me, hp]
  dsimp only
  rw [hk]
  rfl

end

theorem exec_suffixOpPerform_appends {s : State} {k : Nat} {o : SfxOp} {toks : List Word32} (hmay : s.sfxMay s.me.die k = some o) (hc : o.core = s.me.idx)
    (hp : s.sfxPerform s.me.die o = .done (s.setCtx s.me.die o.ctx (toks.foldl (fun c x => c.append (x.setWidth 24)) ((s.die s.me.die).ctx o.ctx)))) :
    ∃ t, exec (.suffixOpPerform s.me.die k) s = .next t
      ∧ (t.die s.me.die).ctx o.ctx = toks.foldl (fun c x => c.append (x.setWidth 24)) ((s.die s.me.die).ctx o.ctx)
      ∧ (∀ n, n ≠ o.ctx → (t.die s.me.die).ctx n = (s.die s.me.die).ctx n)
      ∧ (t.die s.me.die).sfxOps = dropAt (s.die s.me.die).sfxOps k ∧ t.core = s.core ∧ t.mem = s.mem ∧ t.dev = s.dev := by
  have hrun := exec_suffixOpPerform_done hmay hc hp
  rw [State.setCtx] at hrun
  generalize toks.foldl (fun c x => c.append (x.setWidth 24)) ((s.die s.me.die).ctx o.ctx) = c at *
  refine ⟨_, hrun.trans (congrArg Host.Outcome.next (State.orWaits_held rfl)), ?_, fun n hn => ?_, ?_, rfl, rfl, rfl⟩
  · rw [State.onDie_die, if_pos rfl, State.onDie_die, if_pos rfl]
    exact ((s.die s.me.die).ctx_set o.ctx o.ctx c).trans (if_pos rfl)
  · rw [State.onDie_die, if_pos rfl, State.onDie_die, if_pos rfl]
    exact ((s.die s.me.die).ctx_set o.ctx n c).trans (if_neg hn)
  · rw [State.onDie_die, if_pos rfl, State.onDie_die, if_pos rfl]

theorem exec_suffixOpPerform_reports {s : State} {k : Nat} {o : SfxOp} {toks : List Word32} (hmay : s.sfxMay s.me.die k = some o) (hc : o.core = s.me.idx)
    (hk : o.kind = .app toks) (hp : s.sfxPerform s.me.die o = .fail s 0x0D 0x10) (hsup : o.sup = false) :
    ∃ t, exec (.suffixOpPerform s.me.die k) s = .next t ∧ (t.die s.me.die).sfxOps = dropAt (s.die s.me.die).sfxOps k
      ∧ (t.die s.me.die).sfx = (s.die s.me.die).sfx ∧ t.mem = s.mem
      ∧ t.core.reports = s.core.reports ++ [⟨0x0D, BitVec.ofNat 64 (0x1B * 2 ^ 24 + o.ctx.toNat * 2 ^ 12 + 0x10)⟩] := by
  have hrun := exec_suffixOpPerform_fails hmay hc hk hp
  rw [hsup, sfxVal_plain, State.lateReport, Bool.false_and, if_neg Bool.false_ne_true] at hrun
  have hdie := (s.onDie_die s.me.die s.me.die fun d => { d with sfxOps := dropAt d.sfxOps k }).trans (if_pos rfl)
  have hrest : ∀ u, u = s.onDie s.me.die (fun d => { d with sfxOps := dropAt d.sfxOps k }) → u.held = s.held ∧ u.mem = s.mem ∧ u.core = s.core := by
    rintro u rfl
    exact ⟨rfl, rfl, rfl⟩
  replace hrest := hrest _ rfl
  generalize s.onDie s.me.die (fun d => { d with sfxOps := dropAt d.sfxOps k }) = u at *
  obtain ⟨hheld, hmem, hcore⟩ := hrest
  exact ⟨_, hrun.trans (congrArg Host.Outcome.next (State.orWaits_held hheld)), (congrArg Die.sfxOps hdie :), (congrArg Die.sfx hdie :), hmem,
    congrArg (·.reports ++ _) hcore⟩

/-! ### A reload of text (R65) -/

section
variable {s : State} {t : Task} (ht : s.core.task = some t)
include ht

theorem exec_imemReload_firmware (hs : s.sup = true) : exec (.imemReload s.me) s = .next s := by
  change execImemReload s.me s = _
  rw [execImemReload, State.within_me, State.orHold_self]
  rw [ht]
  dsimp only
  rw [if_pos hs]

theorem exec_imemReload_loads {u : State} {bs : List Byte} (hs : s.sup = false)
    (h : (s.count 0x0C 1).recBytes t.job (s.core.base.toNat + (s.core.regs.pc - s.core.base).toNat / 4096 * 4096)
      (Nat.min 4096 (s.core.textLen - (s.core.regs.pc - s.core.base).toNat / 4096 * 4096)) = (u, .ok bs)) :
    exec (.imemReload s.me) s = .next (Claims.orWaits s { u with core := { u.core with
      text := Sparse.setRange 0 u.core.text ((s.core.regs.pc - s.core.base).toNat / 4096 * 4096 / 4) (wordsOf bs) } }) := by
  change execImemReload s.me s = _
  rw [execImemReload, State.within_me, State.orHold_eq, ht]
  dsimp only
  rw [if_neg (ne_true_of_eq_false hs)]
  have hbase : (s.count 0x0C 1).core.base = s.core.base := by
    obtain ⟨ev, hev⟩ := s.count_eq 0x0C 1
    rw [hev]
  rw [hbase, h]

end

/-! ### A lost acknowledgement (R379) -/

section
variable {s : State} {e : MemEntry} {l : List MemEntry} (hq : s.core.memq = e :: l) (hmay : s.mayPerform 0 = some e)
include hq hmay

theorem State.mayPerform_live : e.lost = false := by
  cases hlost : e.lost with
  | false => rfl
  | true => simp [State.mayPerform, hq, hlost] at hmay

/-- The oldest access of a queue, if it has not been lost, is the first to be lost. -/
theorem Core.firstAccess_head (hop : match e.op with
    | .value _ _ _ | .semadd _ _ | .valid _ _ | .sqpush _ _ => False
    | _ => True) : s.core.firstAccess = some 0 := by
  have hlive := State.mayPerform_live hq hmay
  rw [Core.firstAccess, hq, List.length_cons, List.range_succ_eq_map, List.find?_cons_of_pos]
  simp only [List.getElem?_cons_zero, hlive, Bool.not_false, Bool.true_and]
  cases ho : e.op <;> simp_all

theorem exec_poisonedAcknowledgementPath_load {d : BitVec 5} {p : Place} {ac sz : BitVec 2} {x : Bool} (ho : e.op = .load d p ac sz x) :
    exec (.poisonedAcknowledgementPath s.me) s = .next { s with core := { s.core with memq := { e with lost := true } :: l } } := by
  change execPoisonedAcknowledgementPath s.me s = _
  rw [execPoisonedAcknowledgementPath, State.within_me, Core.firstAccess_head hq hmay (by rw [ho]; trivial)]
  dsimp only
  rw [hmay]
  dsimp only
  rw [ho, hq]
  rfl

theorem exec_poisonedAcknowledgementPath_store {p : Place} {ac sz : BitVec 2} {v : Word} (ho : e.op = .store p ac sz v) :
    exec (.poisonedAcknowledgementPath s.me) s = .next
      { s.performOp e with core := { (s.performOp e).core with memq := setAt (s.performOp e).core.memq 0 { e with lost := true } } } := by
  change execPoisonedAcknowledgementPath s.me s = _
  rw [execPoisonedAcknowledgementPath, State.within_me, Core.firstAccess_head hq hmay (by rw [ho]; trivial)]
  dsimp only
  rw [hmay]
  dsimp only
  rw [ho]

end

theorem State.translateHeld_fails {s u : State} {w : Who} {write : Bool} {va : Word} {f : Flt} (h : s.translate w write va = (u, .error f)) (hf : f ≠ .wait) :
    s.translateHeld w write va = (u, .error f) := by
  rw [State.translateHeld, h]
  cases f with
  | wait => exact absurd rfl hf
  | _ => rfl

/-! ### A companion core's start register (R326) -/

/-- The bits of HIF_COMP_START that name the record. -/
theorem compStart_record (v : Word) : bits v 7 41 * 128 = v.toNat / 128 % 2 ^ 41 * 128 := by rw [bits, Nat.shiftRight_eq_div_pow]

section
variable {s : State} {n : BitVec 6} {v : Word} {c : CoreRef}

theorem exec_compStart_ignored (hc : c = ⟨BitVec.ofNat 2 (n.toNat / 12), BitVec.ofNat 8 (144 + n.toNat % 12)⟩)
    (h : 48 ≤ n.toNat ∨ (s.getCore c).task.isSome = true ∨ s.dev.run = false ∨ s.feature 1 = false ∨ s.isReady c.die 20 = false
      ∨ ∃ x ∈ s.dev.compHeld, x.1 = n ∧ x.2 ≠ v) : exec (.compStart n v) s = .next s := by
  subst hc
  refine congrArg Host.Outcome.next (if_pos ?_)
  have hheld : (∃ x ∈ s.dev.compHeld, x.1 = n ∧ x.2 ≠ v) → (s.dev.compHeld.any fun x => x.1 == n && x.2 != v) = true := by
    simp only [List.any_eq_true, Bool.and_eq_true, beq_iff_eq, bne_iff_ne]
    exact id
  simpa using h.imp_right fun h => h.imp_right fun h => h.imp_right fun h => h.imp_right fun h => h.imp_right hheld

/-- A start with no other write of the register standing goes on, or stands until the channel group that it needs is ready. -/
theorem exec_compStart_starts (hc : c = ⟨BitVec.ofNat 2 (n.toNat / 12), BitVec.ofNat 8 (144 + n.toNat % 12)⟩) (hn : n.toNat < 48)
    (hfree : (s.getCore c).task = none) (hrun : s.dev.run = true) (hfeat : s.feature 1 = true) (hready : s.isReady c.die 20 = true)
    (hheld : ∀ x ∈ s.dev.compHeld, x.1 ≠ n) : exec (.compStart n v) s = .next (
      if (s.startCompanion c (BitVec.ofNat 48 (v.toNat / 128 % 2 ^ 41 * 128))).held && !s.held
      then { s with dev := { s.dev with compHeld := s.dev.compHeld ++ [(n, v)] } } else s.startCompanion c (BitVec.ofNat 48 (v.toNat / 128 % 2 ^ 41 * 128))) := by
  have hfilter : s.dev.compHeld.filter (fun x => x.1 != n) = s.dev.compHeld :=
    List.filter_eq_self.mpr fun x hx => bne_iff_ne.mpr (hheld x hx)
  have hany : s.dev.compHeld.any (fun x => x.1 == n) = false := by
    rw [List.any_eq_false]
    exact fun x hx => by simpa using hheld x hx
  have hdiff : s.dev.compHeld.any (fun x => x.1 == n && x.2 != v) = false := by
    rw [List.any_eq_false]
    exact fun x hx => by simp [hheld x hx]
  have hgo : ¬ (48 ≤ n.toNat ∨ (s.getCore c).task.isSome = true ∨ (!s.dev.run) = true ∨ (!s.feature 1) = true ∨ (!s.isReady c.die 20) = true
      ∨ s.dev.compHeld.any (fun x => x.1 == n && x.2 != v) = true) := by
    rw [hfree, hrun, hfeat, hready, hdiff]
    simp only [Option.isSome_none, Bool.not_true, Bool.false_eq_true, or_self, or_false]
    exact Nat.not_le.mpr hn
  have hsame : (s.onDev fun d => { d with compHeld := d.compHeld.filter fun x => x.1 != n }) = s := by rw [State.onDev, hfilter]
  subst hc
  change execCompStart n v s = _
  rw [execCompStart]
  dsimp only
  rw [if_neg hgo, hsame, compStart_record]
  generalize s.startCompanion _ _ = t
  cases t.held && !s.held
  · rfl
  · rw [hany]; rfl

theorem State.startCompanion_unreadable {u : State} {a : BitVec 48} {f : Flt} (h : s.translate ⟨none, true⟩ false (a.setWidth 64) = (u, .error f))
    (hf : f ≠ .wait) : s.startCompanion c a = (u.setErr 7).noteKill c.die a := by
  rw [State.startCompanion, State.translateHeld_fails h hf]

end

/-! ### The counter-write queue (R40, R41) -/

theorem State.release_free {s : State} (h : s.dev.hostHeld = []) : s.release = s := by
  rw [State.release, h]
  exact State.onLink_free h

theorem State.release_queue {u : State} (q : List Word) (h : u.dev.hostHeld = []) :
    (u.onDev fun d => { d with tdecQ := q }).release = u.onDev fun d => { d with tdecQ := q } := State.release_free h

section
variable {s u : State} {v : Word} {q : List Word} (hq : s.dev.tdecQ = v :: q)
include hq

theorem exec_hifTdecQueueHead_waits (hheld : s.held = false) (hfree : u.dev.hostHeld = []) (h : s.translate ⟨none, true⟩ true v = (u, .error .wait)) :
    exec .hifTdecQueueHead s = .next s := by
  have hth : s.translateHeld ⟨none, true⟩ true v = (u.hold, .error .wait) := by rw [State.translateHeld, h]
  change execHifTdecQueueHead s = _
  rw [execHifTdecQueueHead, State.orHold_eq, hq]
  dsimp only
  rw [hth]
  dsimp only
  rw [State.release_queue (u := u.hold) q hfree, Claims.orWaits, hheld]
  rfl

variable (hfree : u.dev.hostHeld = [])
include hfree

theorem exec_hifTdecQueueHead_drops (hheld : u.held = s.held) {f : Flt} (h : s.translate ⟨none, true⟩ true v = (u, .error f)) (hf : f ≠ .wait) :
    exec .hifTdecQueueHead s = .next { u with dev := { u.dev with tdecQ := q, err := u.dev.err ||| 1 } } := by
  change execHifTdecQueueHead s = _
  rw [execHifTdecQueueHead, State.orHold_eq, hq]
  dsimp only
  rw [State.translateHeld_fails h hf]
  dsimp only
  rw [State.release_queue q hfree]
  exact congrArg Host.Outcome.next (State.orWaits_held hheld)

theorem exec_hifTdecQueueHead_decrements {l : Leaf} {o : Nat} (h : s.translate ⟨none, true⟩ true v = (u, .ok l)) (hr : region l.pa = .device o)
    (hjob : u.rootJob v.toNat ≠ 0) (hp : (u.lineMeta (l.pa / 128)).poison = false) (hready : u.channelReady l.pa = true) :
    exec .hifTdecQueueHead s = .next (Claims.orWaits s (State.decrementAt { u with dev := { u.dev with tdecQ := q, decs := u.dev.decs ++
      [{ record := v.setWidth 48, pa := BitVec.ofNat 52 l.pa, key := BitVec.ofNat 6 l.key, job := u.rootJob v.toNat, host := true, core := none }] } }
      u.dev.decs.length)) := by
  have hth : s.translateHeld ⟨none, true⟩ true v = (u, .ok l) := by rw [State.translateHeld, h]
  have hno : ¬ (u.rootJob v.toNat = 0 ∨ (u.lineMeta (l.pa / 128)).poison = true) := not_or.mpr ⟨hjob, ne_true_of_eq_false hp⟩
  change execHifTdecQueueHead s = _
  rw [execHifTdecQueueHead, State.orHold_eq, hq]
  dsimp only
  rw [hth]
  dsimp only
  rw [hr]
  dsimp only
  rw [if_neg hno, if_neg (by rw [hready]; decide), State.release_queue (u := u.onDev fun d => { d with decs := d.decs ++ _ }) q hfree]
  simp only [State.onDev, List.length_append, List.length_singleton, Nat.add_sub_cancel]

end

/-! ### The fault ring (R365) -/

section
variable {s : State} {d : BitVec 2} {e : Post} {l : List Post} (hposts : (s.die d).posts = e :: l)
include hposts

theorem exec_faultRingRoom_held (h : s.ringHeld d = true) : exec (.faultRingRoom d) s = .next s := by
  change execFaultRingRoom d s = _
  rw [execFaultRingRoom, State.orHold_eq, hposts]
  dsimp only
  rw [if_pos h, s.orWaits_hold]

variable (hring : s.ringHeld d = false)
include hring

theorem exec_faultRingRoom_kills (h : s.canPost d = false) :
    exec (.faultRingRoom d) s = .next (Claims.orWaits s ((s.onDie d fun x => { x with posts := l }).killAway d e)) := by
  change execFaultRingRoom d s = _
  rw [execFaultRingRoom, State.orHold_eq, hposts]
  dsimp only
  rw [if_neg (ne_true_of_eq_false hring), if_pos (by rw [h]; rfl)]

theorem exec_faultRingRoom_full (h : s.canPost d = true) (hfull : (s.ringFill d).2 = 255) : exec (.faultRingRoom d) s = .next s := by
  change execFaultRingRoom d s = _
  rw [execFaultRingRoom, State.orHold_self]
  rw [hposts]
  dsimp only
  rw [if_neg (ne_true_of_eq_false hring), if_neg (by rw [h]; decide), if_pos hfull]

theorem exec_faultRingRoom_appends (h : s.canPost d = true) (hroom : (s.ringFill d).2 ≠ 255) :
    exec (.faultRingRoom d) s = .next (Claims.orWaits s ((s.onDie d fun x => { x with posts := l }).ringAppend d e)) := by
  change execFaultRingRoom d s = _
  rw [execFaultRingRoom, State.orHold_eq, hposts]
  dsimp only
  rw [if_neg (ne_true_of_eq_false hring), if_neg (by rw [h]; decide), if_neg hroom]

end

/-- The writes that append an entry to a die's ring: the entry, then the tail. -/
theorem State.ringAppend_eq (s : State) (d : BitVec 2) (e : Post) : s.ringAppend d e =
    ((s.writePlain 0 (s.ringBase d + 16 + 16 * ((s.ringFill d).1 % 255)) (leBytes 8 (e.val.toNat % 2 ^ 48 + e.cause.toNat * 2 ^ 48) ++ leBytes 8 e.task.addr.toNat)).1.writePlain 0
      (s.ringBase d) (leBytes 4 ((s.ringFill d).1 + 1))).1 := rfl

/-- A write within one line of device memory that takes writes stores its bytes and nothing else. -/
theorem State.writePlain_stores {s : State} {pa o : Nat} {bs : List Byte} (hr : region pa = .device o) (hn : 0 < bs.length) (hl : pa % 128 + bs.length ≤ 128)
    (hp : (s.lineMeta (pa / 128)).poison = false) (hf : pa / 128 ∉ s.flaws) :
    ∃ lines, (s.writePlain 0 pa bs).1 = { s with mem := Sparse.setRange 0 s.mem pa bs, lines := lines }
      ∧ ∀ k, (Sparse.get {} lines k).poison = (s.lineMeta k).poison := by
  have hv : versioned pa = true := by simp [versioned, hr]
  refine ⟨Sparse.set {} s.lines (pa / 128) { s.lineMeta (pa / 128) with version := (s.lineMeta (pa / 128)).version + 1 }, ?_, fun k => ?_⟩
  · simp only [State.writePlain, linePieces_one hn hl, hv, if_true, State.writeLines, List.take_length, State.writeLine_clean hp hf]
    rfl
  · rw [Sparse.get_set]
    split
    · next h => subst h; rfl
    · rfl

theorem region_device {a : Nat} (h : a < 4 * dieBytes) : region a = .device (a / dieBytes) := by
  have hmax : 4 * dieBytes < 2 ^ 48 := by decide
  have htop : a / 2 ^ 48 = 0 := Nat.div_eq_of_lt (h.trans hmax)
  have hlow : a % 2 ^ 48 = a := Nat.mod_eq_of_lt (h.trans hmax)
  simp only [region, htop, hlow, if_true, if_pos h]

/-- A ring starts at a multiple of 4 KiB (R365). -/
theorem State.ringBase_aligned (s : State) (d : BitVec 2) : s.ringBase d % 4096 = 0 := by
  have h := s.reaim_mod (bits (s.die d).faultRing 12 40 * 4096)
  rw [State.ringBase]
  omega

/-- An entry appended to a ring whose lines take writes: its bytes, and the new tail (R365). -/
theorem State.ringAppend_stores {s : State} {d : BitVec 2} (e : Post) (hfit : s.ringBase d + 4096 ≤ 4 * dieBytes)
    (hclean : ∀ k, s.ringBase d / 128 ≤ k → k < s.ringBase d / 128 + 32 → (s.lineMeta k).poison = false ∧ k ∉ s.flaws) :
    ∃ mem lines, s.ringAppend d e = { s with mem := mem, lines := lines } ∧ ∀ a, Sparse.get 0 mem a =
      if s.ringBase d + 16 + 16 * ((s.ringFill d).1 % 255) ≤ a ∧ a < s.ringBase d + 16 + 16 * ((s.ringFill d).1 % 255) + 16
      then (leBytes 8 (e.val.toNat % 2 ^ 48 + e.cause.toNat * 2 ^ 48) ++ leBytes 8 e.task.addr.toNat).getD (a - (s.ringBase d + 16 + 16 * ((s.ringFill d).1 % 255))) 0
      else if s.ringBase d ≤ a ∧ a < s.ringBase d + 4 then (leBytes 4 ((s.ringFill d).1 + 1)).getD (a - s.ringBase d) 0 else Sparse.get 0 s.mem a := by
  have hal := s.ringBase_aligned d
  have hslot : (s.ringFill d).1 % 255 < 255 := Nat.mod_lt _ (by decide)
  rw [State.ringAppend_eq]
  generalize (s.ringFill d).1 + 1 = next
  generalize (s.ringFill d).1 % 255 = slot at *
  generalize s.ringBase d = b at *
  have hlen : (leBytes 8 (e.val.toNat % 2 ^ 48 + e.cause.toNat * 2 ^ 48) ++ leBytes 8 e.task.addr.toNat).length = 16 := rfl
  generalize leBytes 8 (e.val.toNat % 2 ^ 48 + e.cause.toNat * 2 ^ 48) ++ leBytes 8 e.task.addr.toNat = entry at *
  have htail : (leBytes 4 next).length = 4 := rfl
  generalize leBytes 4 next = tail at *
  obtain ⟨hp₁, hf₁⟩ := hclean ((b + 16 + 16 * slot) / 128) (by omega) (by omega)
  obtain ⟨hp₂, hf₂⟩ := hclean (b / 128) (le_refl _) (by omega)
  obtain ⟨lines₁, h₁, hlines₁⟩ := State.writePlain_stores (s := s) (bs := entry) (region_device (a := b + 16 + 16 * slot) (by omega)) (by omega) (by omega) hp₁ hf₁
  rw [h₁]
  obtain ⟨lines₂, h₂, -⟩ := State.writePlain_stores (s := { s with mem := Sparse.setRange 0 s.mem (b + 16 + 16 * slot) entry, lines := lines₁ }) (bs := tail)
    (region_device (a := b) (by omega)) (by omega) (by omega) ((hlines₁ _).trans hp₂) hf₂
  rw [h₂]
  refine ⟨_, _, rfl, fun a => ?_⟩
  rw [Sparse.get_setRange, Sparse.get_setRange, hlen, htail]
  by_cases he : b + 16 + 16 * slot ≤ a ∧ a < b + 16 + 16 * slot + 16
  · rw [if_neg (by omega), if_pos he, if_pos he]
  · rw [if_neg he, if_neg he]

theorem State.ringBase_posts (s : State) (d : BitVec 2) (l : List Post) : (s.onDie d fun x => { x with posts := l }).ringBase d = s.ringBase d := by
  rw [State.ringBase, State.onDie_die, if_pos rfl]
  rfl

theorem State.ringFill_posts (s : State) (d : BitVec 2) (l : List Post) : (s.onDie d fun x => { x with posts := l }).ringFill d = s.ringFill d := by
  rw [State.ringFill, State.ringBase_posts]
  rfl

theorem exec_faultRingRoom_stores {s : State} {d : BitVec 2} {e : Post} {l : List Post}
    (hrun : exec (.faultRingRoom d) s = .next (Claims.orWaits s ((s.onDie d fun x => { x with posts := l }).ringAppend d e)))
    (hfit : s.ringBase d + 4096 ≤ 4 * dieBytes)
    (hclean : ∀ k, s.ringBase d / 128 ≤ k → k < s.ringBase d / 128 + 32 → (s.lineMeta k).poison = false ∧ k ∉ s.flaws) :
    ∃ t, exec (.faultRingRoom d) s = .next t ∧ (t.die d).posts = l ∧ t.core = s.core ∧ t.dev = s.dev ∧ ∀ a, Sparse.get 0 t.mem a =
      if s.ringBase d + 16 + 16 * ((s.ringFill d).1 % 255) ≤ a ∧ a < s.ringBase d + 16 + 16 * ((s.ringFill d).1 % 255) + 16
      then (leBytes 8 (e.val.toNat % 2 ^ 48 + e.cause.toNat * 2 ^ 48) ++ leBytes 8 e.task.addr.toNat).getD (a - (s.ringBase d + 16 + 16 * ((s.ringFill d).1 % 255))) 0
      else if s.ringBase d ≤ a ∧ a < s.ringBase d + 4 then (leBytes 4 ((s.ringFill d).1 + 1)).getD (a - s.ringBase d) 0 else Sparse.get 0 s.mem a := by
  have hbase := s.ringBase_posts d l
  obtain ⟨mem, lines, happ, hmem⟩ := State.ringAppend_stores (s := s.onDie d fun x => { x with posts := l }) (d := d) e (by rw [hbase]; exact hfit)
    (by rw [hbase]; exact hclean)
  rw [hbase, s.ringFill_posts d l] at hmem
  rw [happ] at hrun
  refine ⟨_, hrun.trans (congrArg Host.Outcome.next (State.orWaits_held rfl)), ?_, rfl, rfl, hmem⟩
  have hdie := (s.onDie_die d d fun x => { x with posts := l }).trans (if_pos rfl)
  exact (congrArg Die.posts hdie :)

end Sys2Proof.Machine
end

section
/-! PROOFS. A page walk of a die: whom it serves, what it caches, and when it waits (R39, R213-R216). -/

namespace Sys2Proof.Machine

open Sys2Proof

/-! ### The cores that hold state -/

theorem Sparse.mem_of_find? {β : Type} {m : Sparse β} {a : Nat} {x : β} (h : Sparse.find? m a = some x) : (a, x) ∈ m := by
  induction m with
  | nil => exact absurd h (by nofun)
  | cons e m ih =>
    obtain ⟨k, y⟩ := e
    rw [Sparse.find?] at h
    split at h
    · next hk => cases h; exact hk ▸ List.mem_cons_self
    · exact List.mem_cons_of_mem _ (ih h)

/-- A core that is not among those that hold state is as at reset. -/
theorem State.mem_coreNums (s : State) (c : CoreRef) : c ∈ s.coreNums.map CoreRef.ofNum ∨ s.getCore c = Core.zero := by
  by_cases hc : c = s.me
  · rw [hc]
    exact Or.inl (List.mem_map.mpr ⟨s.me.num, List.mem_cons_self, CoreRef.ofNum_num s.me⟩)
  · rw [State.getCore, if_neg hc]
    cases hx : Sparse.find? s.others c.num with
    | none => exact Or.inr rfl
    | some x =>
      refine Or.inl (List.mem_map.mpr ⟨c.num, List.mem_cons_of_mem _ (List.mem_filter.mpr ⟨?_, ?_⟩), CoreRef.ofNum_num c⟩)
      · exact List.mem_map_of_mem (f := Prod.fst) (Sparse.mem_of_find? hx)
      · exact decide_eq_true fun h => hc (CoreRef.num_inj h)

theorem State.getCore_of_me {s : State} {c : CoreRef} (h : s.me = c) : s.getCore c = s.core := by rw [← h, State.getCore_me]

/-- A step of a fold over cores that changes the cores on the die of the core in focus. -/
structure State.DieStep (m : CoreRef) (g : State → Core → Core) (f : State → CoreRef → State) : Prop where
  me : ∀ t k, t.me = m → (f t k).me = m
  core : ∀ t k c, t.me = m → (f t k).getCore c = if c = k ∧ k.die = m.die then g t (t.getCore c) else t.getCore c

section
variable {m : CoreRef} {g : State → Core → Core} {f : State → CoreRef → State} (hf : State.DieStep m g f)
include hf

theorem State.DieStep.foldl_me (l : List CoreRef) {s : State} (hm : s.me = m) : (l.foldl f s).me = m := by
  induction l generalizing s with
  | nil => exact hm
  | cons k l ih => exact ih (hf.me s k hm)

theorem State.DieStep.foldl_keeps {Q : Core → Prop} (hg : ∀ t x, Q x → Q (g t x)) (c : CoreRef) (l : List CoreRef) {s : State} (hm : s.me = m)
    (h : Q (s.getCore c)) : Q ((l.foldl f s).getCore c) := by
  induction l generalizing s with
  | nil => exact h
  | cons k l ih =>
    refine ih (hf.me s k hm) ?_
    rw [hf.core s k c hm]
    split
    · exact hg _ _ h
    · exact h

/-- What each step makes of a core of the die, the fold makes of those that it visits. -/
theorem State.DieStep.foldl_makes {Q : Core → Prop} (hg : ∀ t x, Q (g t x)) {c : CoreRef} (hc : c.die = m.die) {l : List CoreRef} {s : State} (hm : s.me = m)
    (h : c ∈ l) : Q ((l.foldl f s).getCore c) := by
  induction l generalizing s with
  | nil => exact absurd h (List.not_mem_nil)
  | cons k l ih =>
    rcases List.mem_cons.mp h with hk | hl
    · subst hk
      refine State.DieStep.foldl_keeps hf (fun t x _ => hg t x) c l (hf.me s c hm) ?_
      rw [hf.core s c c hm, if_pos ⟨rfl, hc⟩]
      exact hg _ _
    · exact ih (hf.me s k hm) hl

/-- The fold over the cores that hold state makes of every core of the die what a core at reset is too. -/
theorem State.DieStep.foldl_all {Q : Core → Prop} (hz : Q Core.zero) (hg : ∀ t x, Q (g t x)) {c : CoreRef} (hc : c.die = m.die) {s : State} (hm : s.me = m) :
    Q (((s.coreNums.map CoreRef.ofNum).foldl f s).getCore c) := by
  rcases s.mem_coreNums c with hin | hzero
  · exact State.DieStep.foldl_makes hf hg hc hm hin
  · exact State.DieStep.foldl_keeps hf (fun t x _ => hg t x) c _ hm (by rw [hzero]; exact hz)

end

/-! ### What a walk makes of the requests that wait -/

/-- No request of a core waits for a granule, but a write where the walk was for a read. -/
def Core.walked (va : Nat) (write : Bool) (x : Core) : Prop := ∀ w ∈ x.walks, ¬ (w.va.toNat / 2 ^ 16 = va / 2 ^ 16 ∧ (w.write = false ∨ write = true))

theorem Core.zero_walked (va : Nat) (write : Bool) : Core.zero.walked va write := fun _ h => absurd h List.not_mem_nil

theorem Core.served_walked {e : TlbEntry} {va : Nat} {write : Bool} (hcov : e.covers va = true) (hd : write = true → e.dirty = true) (fresh : Nat) (x : Core) :
    (x.served fresh e).walked va write := by
  have hhit : ∀ w : WalkReq, w.va.toNat / 2 ^ 16 = va / 2 ^ 16 → (w.write = false ∨ write = true) → (e.covers w.va.toNat && (!w.write || e.dirty)) = true := by
    intro w hw hwr
    have hc : e.covers w.va.toNat = true := by rw [TlbEntry.covers, hw]; exact hcov
    rw [hc, Bool.true_and]
    rcases hwr with h | h
    · rw [h]; rfl
    · rw [hd h, Bool.or_true]
  intro w hw ⟨hg, hr⟩
  unfold Core.served at hw
  dsimp only at hw
  split at hw
  · have := (List.mem_filter.mp hw).2
    rw [hhit w hg hr] at this
    exact absurd this (by decide)
  · next hno => exact hno (List.any_eq_true.mpr ⟨w, hw, hhit w hg hr⟩)

theorem mem_tlbFill (n fresh : Nat) (l : List TlbEntry) (e : TlbEntry) : e ∈ tlbFill n fresh l e := by
  unfold tlbFill
  dsimp only
  split <;> exact List.mem_cons_self

theorem Core.served_cached {e : TlbEntry} {x : Core} (h : e ∈ x.tlb) (fresh : Nat) : e ∈ (x.served fresh e).tlb := by
  unfold Core.served
  dsimp only
  split
  · exact mem_tlbFill _ _ _ _
  · exact h

theorem Core.served_regs (fresh : Nat) (e : TlbEntry) (x : Core) : (x.served fresh e).regs = x.regs := by
  unfold Core.served
  dsimp only
  split <;> rfl

theorem State.serve_step (m : CoreRef) (e : TlbEntry) : State.DieStep m (fun t => Core.served t.fresh e)
    (fun s k => if k.die = s.me.die then { s.onCore k (Core.served s.fresh e) with fresh := s.fresh + 1 } else s) where
  me t k hm := by
    dsimp only
    split
    · exact (t.onCore_me k _).trans hm
    · exact hm
  core t k c hm := by
    dsimp only
    rw [hm]
    by_cases hk : k.die = m.die
    · rw [if_pos hk]
      change (t.onCore k _).getCore c = _
      rw [State.getCore_onCore]
      by_cases hc : c = k
      · rw [if_pos hc, if_pos ⟨hc, hk⟩, hc]
      · rw [if_neg hc, if_neg fun h => hc h.1]
    · rw [if_neg hk, if_neg fun h => hk h.2]

theorem State.dropWalks_step (m : CoreRef) (va : BitVec 48) : State.DieStep m (fun _ x => { x with walks := x.walks.filter fun w => w.va.toNat / 2 ^ 16 != va.toNat / 2 ^ 16 })
    (fun s k => if k.die = m.die then s.onCore k fun x => { x with walks := x.walks.filter fun w => w.va.toNat / 2 ^ 16 != va.toNat / 2 ^ 16 } else s) where
  me t k hm := by
    split
    · exact (t.onCore_me k _).trans hm
    · exact hm
  core t k c _ := by
    by_cases hk : k.die = m.die
    · rw [if_pos hk, State.getCore_onCore]
      by_cases hc : c = k
      · rw [if_pos hc, if_pos ⟨hc, hk⟩, hc]
      · rw [if_neg hc, if_neg fun h => hc h.1]
    · rw [if_neg hk, if_neg fun h => hk h.2]

/-! ### Writes of memory leave the cores alone -/

/-- The cores, and which is in focus, are as they were. -/
def State.SameCores (s t : State) : Prop := t.me = s.me ∧ t.core = s.core ∧ t.others = s.others

namespace State.SameCores

theorem refl (s : State) : s.SameCores s := ⟨rfl, rfl, rfl⟩

theorem trans {s t u : State} (h : s.SameCores t) (g : t.SameCores u) : s.SameCores u := ⟨g.1.trans h.1, g.2.1.trans h.2.1, g.2.2.trans h.2.2⟩

theorem getCore {s t : State} (h : s.SameCores t) (c : CoreRef) : t.getCore c = s.getCore c := by
  obtain ⟨hme, hcore, hothers⟩ := h
  rw [State.getCore, State.getCore, hme, hcore, hothers]

theorem writeLine (s : State) (key pa : Nat) (bs : List Byte) : s.SameCores (s.writeLine key pa bs).1 := by
  unfold State.writeLine
  dsimp only
  split
  · exact refl s
  · split
    · exact ⟨rfl, rfl, rfl⟩
    · exact ⟨rfl, rfl, rfl⟩

theorem writeLines (key : Nat) (l : List (Nat × Nat)) (s : State) (bs : List Byte) : s.SameCores (s.writeLines key l bs).1 := by
  induction l generalizing s bs with
  | nil => exact refl s
  | cons p l ih => exact (writeLine s key p.1 (bs.take p.2)).trans (ih _ _)

theorem writeBare (key : Nat) (l : List (Nat × Nat)) (s : State) (bs : List Byte) : s.SameCores (s.writeBare key l bs) := by
  induction l generalizing s bs with
  | nil => exact refl s
  | cons p l ih => exact ih { s with mem := s.stored key p.1 0 (bs.take p.2) } (bs.drop p.2)

theorem writePlain (s : State) (key pa : Nat) (bs : List Byte) : s.SameCores (s.writePlain key pa bs).1 := by
  unfold State.writePlain
  dsimp only
  split
  · exact writeLines _ _ _ _
  · exact writeBare _ _ _ _

theorem touchEntry (s : State) (p : Nat) (e : Word) (write : Bool) : s.SameCores (s.touchEntry p e write) := by
  unfold State.touchEntry
  generalize (e ||| if write then 0xC0#64 else 0x40#64) = e'
  dsimp only
  split
  · exact refl s
  · exact writePlain _ _ _ _

end State.SameCores

/-! ### A walk of the core in focus -/

theorem ok_of_ite {α ε : Type} {c : Prop} [Decidable c] {x y : Except ε α} {P : α → Prop} (hx : ∀ a, x = .ok a → P a) (hy : ∀ a, y = .ok a → P a) :
    ∀ a, (if c then x else y) = .ok a → P a := by
  intro a h
  split at h
  · exact hx a h
  · exact hy a h

/-- A walk's entry covers the address that it was made for (R214). -/
theorem State.walk_covers {s : State} {va : Nat} : ∀ q, s.walk va = .ok q → q.1.covers va = true := by
  unfold State.walk
  dsimp only
  repeat' refine ok_of_ite ?_ ?_
  all_goals rintro q ⟨⟩
  all_goals exact decide_eq_true ⟨by dsimp only; omega, by dsimp only; omega⟩

/-- A walk whose tables lead to no entry only counts. -/
theorem State.walkNow_fails {s : State} {w : Who} {write : Bool} {va : Nat} {f : Flt} (h : s.walk va = .error f) (hf : f ≠ .wait) :
    s.walkNow w write va = (s.dieEvent s.me.die 0x0C 1, .error f) := by
  rw [State.walkNow, h]
  cases f with
  | wait => exact absurd rfl hf
  | _ => rfl

/-- A walk that its entry's rights refuse only counts. -/
theorem State.walkNow_refused {s : State} {w : Who} {write : Bool} {va p : Nat} {e : TlbEntry} {f : Flt} (h : s.walk va = .ok (e, p))
    (hr : s.rights w write e = some f) : s.walkNow w write va = (s.dieEvent s.me.die 0x0C 1, .error f) := by
  have hr' : (s.dieEvent s.me.die 0x0C 1).rights w write e = some f := hr
  rw [State.walkNow, h]
  dsimp only
  rw [hr']

/-- The entry that a walk leaves in the caches. -/
def State.walkEntry (s : State) (write : Bool) (e : TlbEntry) : TlbEntry :=
  { e with dirty := e.dirty || (write || (s.dieEvent s.me.die 0x0C 1).writeWaits e) }

/-- A walk that reaches an entry with the rights: the bits are set, the caches filled, and the requests served. -/
theorem State.walkNow_grants {s : State} {w : Who} {write : Bool} {va p : Nat} {e : TlbEntry} (h : s.walk va = .ok (e, p)) (hr : s.rights w write e = none) :
    ∃ u : State, s.SameCores u ∧ s.walkNow w write va = ((u.tlbPut (s.walkEntry write e)).serve (s.walkEntry write e), .ok (s.walkEntry write e)) := by
  have hr' : (s.dieEvent s.me.die 0x0C 1).rights w write e = none := hr
  refine ⟨(s.dieEvent s.me.die 0x0C 1).touchEntry p e.leaf (write || (s.dieEvent s.me.die 0x0C 1).writeWaits e), ?_, ?_⟩
  · exact State.SameCores.trans ⟨rfl, rfl, rfl⟩ (.touchEntry _ _ _ _)
  · rw [State.walkNow, h]
    dsimp only
    rw [hr']
    rfl

theorem State.serve_leaves {Q : Core → Prop} (s : State) {e : TlbEntry} (hg : ∀ n x, Q x → Q (Core.served n e x)) (c : CoreRef) (h : Q (s.getCore c)) :
    Q ((s.serve e).getCore c) :=
  State.DieStep.foldl_keeps (State.serve_step s.me e) (fun t x => hg t.fresh x) c _ rfl h

theorem State.serve_makes {Q : Core → Prop} (s : State) {e : TlbEntry} (hz : Q Core.zero) (hg : ∀ n x, Q (Core.served n e x)) {c : CoreRef}
    (hc : c.die = s.me.die) : Q ((s.serve e).getCore c) :=
  State.DieStep.foldl_all (State.serve_step s.me e) hz (fun t x => hg t.fresh x) hc rfl

/-- What a walk of the core in focus leaves: its entry is cached, no register changes, and no request that it answers waits (R213, R215, R216). -/
theorem State.served_walk {s u : State} {e : TlbEntry} {va : Nat} {write : Bool} (hu : s.SameCores u) (hcov : e.covers va = true)
    (hd : write = true → e.dirty = true) :
    ((u.tlbPut e).serve e).core.regs = s.core.regs ∧ e ∈ ((u.tlbPut e).serve e).core.tlb
      ∧ ∀ c : CoreRef, c.die = s.me.die → (((u.tlbPut e).serve e).getCore c).walked va write := by
  have hme : (u.tlbPut e).me = s.me := hu.1
  have hput : (u.tlbPut e).core.regs = s.core.regs := by
    change u.core.regs = s.core.regs
    rw [hu.2.1]
  have htlb : e ∈ (u.tlbPut e).core.tlb := mem_tlbFill 64 u.fresh u.core.tlb e
  generalize u.tlbPut e = v at *
  have hserve := State.Touched.serve v e
  have hcore : (v.serve e).core = (v.serve e).getCore v.me := (State.getCore_of_me hserve.me).symm
  rw [hcore]
  refine ⟨?_, ?_, fun c hc => ?_⟩
  · exact v.serve_leaves (Q := fun x => x.regs = s.core.regs) (fun n x h => (Core.served_regs n e x).trans h) v.me (by rw [State.getCore_me, hput])
  · exact v.serve_leaves (Q := fun x => e ∈ x.tlb) (fun n x h => Core.served_cached h n) v.me (by rw [State.getCore_me]; exact htlb)
  · exact v.serve_makes (Core.zero_walked va write) (fun n x => Core.served_walked hcov hd n x) (by rw [hc, hme])

/-- What a walk that fails leaves: no request of the die for its granule waits. -/
theorem State.dropped_walk (s : State) (va : BitVec 48) (write : Bool) :
    (s.dropWalks s.me.die va).core.regs = s.core.regs ∧ ∀ c : CoreRef, c.die = s.me.die → ((s.dropWalks s.me.die va).getCore c).walked va.toNat write := by
  have hstep := State.dropWalks_step s.me va
  have hme : (s.dropWalks s.me.die va).me = s.me := hstep.foldl_me _ rfl
  have hcore : (s.dropWalks s.me.die va).core = (s.dropWalks s.me.die va).getCore s.me := (State.getCore_of_me hme).symm
  have hdone : ∀ x : Core, ({ x with walks := x.walks.filter fun w => w.va.toNat / 2 ^ 16 != va.toNat / 2 ^ 16 } : Core).walked va.toNat write := by
    intro x w hw h
    exact absurd h.1 (bne_iff_ne.mp (List.mem_filter.mp hw).2)
  rw [hcore]
  refine ⟨?_, fun c hc => ?_⟩
  · exact hstep.foldl_keeps (Q := fun x => x.regs = s.core.regs) (fun t x h => h) s.me _ rfl (by rw [State.getCore_me])
  · exact hstep.foldl_all (Core.zero_walked va.toNat write) (fun t x => hdone x) hc rfl

/-! ### The event (R216) -/

section
variable {s : State} {r : WalkReq} {l : List WalkReq} (hnext : s.walkNext s.me.die = some s.me) (hwalks : s.core.walks = r :: l)
include hnext hwalks

theorem exec_pageWalk_waits (h : s.walk r.va.toNat = .error .wait) : exec (.pageWalk s.me.die) s = .next s := by
  have hfocus : s.focus s.me = s := by rw [State.focus, if_pos rfl]
  have hnow : s.walkNow s.who r.write r.va.toNat = (s, .error .wait) := by rw [State.walkNow, h]
  change execPageWalk s.me.die s = _
  rw [execPageWalk, hnext]
  dsimp only
  rw [State.getCore_me, hwalks]
  dsimp only
  rw [hfocus, hnow]

theorem exec_pageWalk_fails {f : Flt} (h : s.walkNow s.who r.write r.va.toNat = (s.dieEvent s.me.die 0x0C 1, .error f)) (hf : f ≠ .wait) :
    ∃ t, exec (.pageWalk s.me.die) s = .next t ∧ t.core.regs = s.core.regs ∧ ∀ c : CoreRef, c.die = s.me.die → (t.getCore c).walked r.va.toNat r.write := by
  have hfocus : s.focus s.me = s := by rw [State.focus, if_pos rfl]
  have hback : (s.dieEvent s.me.die 0x0C 1).focus s.me = s.dieEvent s.me.die 0x0C 1 := by rw [State.focus]; exact if_pos rfl
  obtain ⟨hregs, hall⟩ := ((s.dieEvent s.me.die 0x0C 1).onDie s.me.die fun x => { x with walkLast := s.me.idx.toNat }).dropped_walk r.va r.write
  refine ⟨_, ?_, hregs, hall⟩
  change execPageWalk s.me.die s = _
  rw [execPageWalk, hnext]
  dsimp only
  rw [State.getCore_me, hwalks]
  dsimp only
  rw [hfocus, h]
  dsimp only
  rw [hback]
  cases f with
  | wait => exact absurd rfl hf
  | _ => rfl

theorem exec_pageWalk_serves {v : State} {e : TlbEntry} (h : s.walkNow s.who r.write r.va.toNat = (v, .ok e)) :
    exec (.pageWalk s.me.die) s = .next (v.onDie s.me.die fun x => { x with walkLast := s.me.idx.toNat }) := by
  have hfocus : s.focus s.me = s := by rw [State.focus, if_pos rfl]
  have htouch := State.Touched.walkNow s s.who r.write r.va.toNat
  rw [h] at htouch
  have hback : v.focus s.me = v := by rw [State.focus, if_pos htouch.me.symm]
  change execPageWalk s.me.die s = _
  rw [execPageWalk, hnext]
  dsimp only
  rw [State.getCore_me, hwalks]
  dsimp only
  rw [hfocus, h]
  dsimp only
  rw [hback]

/-- A walk that need not wait ends: it serves the requests that it answers, and caches its entry if the rights allow. -/
theorem exec_pageWalk_ends (h : s.walk r.va.toNat ≠ .error .wait) : ∃ t, exec (.pageWalk s.me.die) s = .next t ∧ t.core.regs = s.core.regs
    ∧ (∀ c : CoreRef, c.die = s.me.die → (t.getCore c).walked r.va.toNat r.write)
    ∧ ∀ e p, s.walk r.va.toNat = .ok (e, p) → s.rights s.who r.write e = none →
      ∃ dirty : Bool, ((e.dirty || r.write) = true → dirty = true) ∧ { e with dirty := dirty } ∈ t.core.tlb := by
  cases hw : s.walk r.va.toNat with
  | error f =>
    have hf : f ≠ .wait := fun e => h (e ▸ hw)
    obtain ⟨t, hrun, hregs, hall⟩ := exec_pageWalk_fails hnext hwalks (State.walkNow_fails hw hf) hf
    exact ⟨t, hrun, hregs, hall, fun e p he => absurd he (by nofun)⟩
  | ok q =>
    obtain ⟨e, p⟩ := q
    cases hr : s.rights s.who r.write e with
    | some f =>
      have hf : f ≠ .wait := fun e => by simpa [e] using State.rights_error hr
      obtain ⟨t, hrun, hregs, hall⟩ := exec_pageWalk_fails hnext hwalks (State.walkNow_refused hw hr) hf
      exact ⟨t, hrun, hregs, hall, fun e' p' he hr' => by cases he; rw [hr] at hr'; exact absurd hr' (by nofun)⟩
    | none =>
      obtain ⟨u, hu, hnow⟩ := State.walkNow_grants hw hr
      have hd : r.write = true → (s.walkEntry r.write e).dirty = true := fun h => by simp [State.walkEntry, h]
      obtain ⟨hregs, htlb, hall⟩ := State.served_walk (e := s.walkEntry r.write e) hu (State.walk_covers _ hw) hd
      refine ⟨_, exec_pageWalk_serves hnext hwalks hnow, hregs, hall, fun e' p' he _ => ?_⟩
      cases he
      refine ⟨_, fun h => ?_, htlb⟩
      rcases Bool.or_eq_true_iff.mp h with h | h
      · rw [h, Bool.true_or]
      · rw [h, Bool.true_or, Bool.or_true]

end

end Sys2Proof.Machine
end

section
/-! PROOFS. Page migration: the lines, the entry, the cached translations and lines, and what is on its way (R380); and the units of a die together. -/

namespace Sys2Proof.Machine

open Sys2Proof

/-! ### The lines of a page -/

/-- A line without a key moves to a home that takes writes: its bytes are stored there, and no other line's state changes (R221). -/
theorem State.moveLine_clean {s : State} {new : Nat} (line : Nat) (hp : (s.lineMeta new).poison = false) (hf : new ∉ s.flaws) :
    ∃ lines, s.moveLine 0 line new = { s with mem := Sparse.setRange 0 s.mem (128 * new) (Sparse.range 0 s.mem (128 * line) 128), lines := lines }
      ∧ ∀ k, k ≠ new → Sparse.get {} lines k = s.lineMeta k := by
  have hline : 128 * new / 128 = new := by omega
  have hw := State.writeLine_clean (s := s) (pa := 128 * new) (by rw [hline]; exact hp) (by rw [hline]; exact hf) 0 (s.linePlain 0 line)
  rw [hline] at hw
  have hmove : s.moveLine 0 line new = { s with
      mem := Sparse.setRange 0 s.mem (128 * new) (Sparse.range 0 s.mem (128 * line) 128)
      lines := Sparse.set {} (Sparse.set {} s.lines new { s.lineMeta new with version := (s.lineMeta new).version + 1 }) new
        { s.lineMeta line with version := (s.lineMeta line).version + 1 } } := by
    rw [State.moveLine, if_pos rfl]
    dsimp only
    rw [hw]
    rfl
  refine ⟨_, hmove, fun k hk => ?_⟩
  rw [Sparse.get_set, if_neg hk, Sparse.get_set, if_neg hk]
  rfl

/-- The moves of the first lines of a page. -/
def State.moveLines (s : State) (old new n : Nat) : State := (List.range n).foldl (fun s i => s.moveLine 0 (old * 512 + i) (new * 512 + i)) s

theorem State.moveLines_succ (s : State) (old new n : Nat) : s.moveLines old new (n + 1) = (s.moveLines old new n).moveLine 0 (old * 512 + n) (new * 512 + n) := by
  rw [State.moveLines, List.range_succ, List.foldl_append]
  rfl

/-- The lines of a page move to another frame, whose lines take writes. -/
theorem State.moveLines_clean {s : State} {old new : Nat} (_ : old ≠ new)
    (hclean : ∀ k, new * 512 ≤ k → k < new * 512 + 512 → (s.lineMeta k).poison = false ∧ k ∉ s.flaws) :
    ∀ n, n ≤ 512 → ∃ mem lines, s.moveLines old new n = { s with mem := mem, lines := lines }
      ∧ (∀ k, ¬ (new * 512 ≤ k ∧ k < new * 512 + n) → Sparse.get {} lines k = s.lineMeta k)
      ∧ ∀ a, Sparse.get 0 mem a = if new * 65536 ≤ a ∧ a < new * 65536 + 128 * n then Sparse.get 0 s.mem (old * 65536 + (a - new * 65536)) else Sparse.get 0 s.mem a := by
  intro n
  induction n with
  | zero => exact fun _ => ⟨s.mem, s.lines, rfl, fun _ _ => rfl, fun a => by rw [if_neg (by omega)]⟩
  | succ n ih =>
    intro hn
    obtain ⟨mem, lines, hmove, hlines, hmem⟩ := ih (by omega)
    obtain ⟨hp, hf⟩ := hclean (new * 512 + n) (by omega) (by omega)
    obtain ⟨lines', hline, hlines'⟩ := State.moveLine_clean (s := { s with mem := mem, lines := lines }) (new := new * 512 + n) (old * 512 + n)
      (by rw [State.lineMeta, hlines _ (by omega)]; exact hp) hf
    rw [State.moveLines_succ, hmove, hline]
    refine ⟨_, lines', rfl, fun k hk => ?_, fun a => ?_⟩
    · rw [hlines' k (by omega)]
      exact hlines k (by omega)
    · rw [Sparse.get_setRange, Sparse.range_length]
      by_cases ha : 128 * (new * 512 + n) ≤ a ∧ a < 128 * (new * 512 + n) + 128
      · rw [if_pos ha, Sparse.range_getD _ _ _ _ _ (by omega), hmem, if_neg (by omega), if_pos (by omega)]
        congr 1
        omega
      · rw [if_neg ha, hmem]
        by_cases hb : new * 65536 ≤ a ∧ a < new * 65536 + 128 * n
        · rw [if_pos hb, if_pos (by omega)]
        · rw [if_neg hb, if_neg (by omega)]

/-! ### The entry of a page -/

/-- A page-table entry that points to another frame (R213). -/
def entryInFrame (e : Word) (frame : Nat) : Word := (e &&& ~~~(0xFFFFFFFFF#64 <<< 21)) ||| (BitVec.ofNat 64 frame <<< 21)

theorem frameMask_getLsbD : ∀ i : Fin 36, (~~~(0xFFFFFFFFF#64 <<< 21)).getLsbD (21 + i) = false := by decide

theorem pteFrame_entryInFrame (e : Word) (frame : BitVec 36) : pteFrame (entryInFrame e frame.toNat) = frame.toNat := by
  rw [pteFrame, bits_eq_extractLsb', entryInFrame, BitVec.ofNat_toNat]
  congr 1
  apply BitVec.eq_of_getLsbD_eq
  intro i hi
  have hmask := frameMask_getLsbD ⟨i, hi⟩
  generalize ~~~(0xFFFFFFFFF#64 <<< 21) = mask at *
  have h1 : 21 + i < 64 := by omega
  have h2 : ¬ 21 + i < 21 := by omega
  have h3 : 21 + i - 21 = i := by omega
  have h4 : i < 64 := by omega
  rw [BitVec.getLsbD_extractLsb', BitVec.getLsbD_or, BitVec.getLsbD_and, hmask, BitVec.getLsbD_shiftLeft, h3, BitVec.getLsbD_setWidth]
  simp [hi, h1, h2, h4]

/-- The word that stands where it was stored. -/
theorem State.pte_stored {s : State} {p : Nat} {m : Sparse Byte} (w : Word) (h : s.mem = Sparse.setRange 0 m p (leBytes 8 w.toNat)) : s.pte p = w := by
  have hlen : (leBytes 8 w.toNat).length = 8 := rfl
  have hr := Sparse.range_setRange 0 m p (leBytes 8 w.toNat)
  rw [hlen] at hr
  rw [State.pte, h, hr, leNat_leBytes, Nat.mod_eq_of_lt (show w.toNat < 256 ^ 8 from w.isLt), BitVec.ofNat_toNat, BitVec.setWidth_eq]

/-- The entry of a page of one granule comes to name another frame (R213, R380). -/
def State.moveEntry (s : State) (p frame : Nat) : State := (s.writePlain 0 p (leBytes 8 (entryInFrame (s.pte p) frame).toNat)).1

theorem State.moveEntry_stores {s : State} {p o : Nat} (frame : Nat) (hal : p % 8 = 0) (hr : region p = .device o) (hp : (s.lineMeta (p / 128)).poison = false)
    (hf : p / 128 ∉ s.flaws) : ∃ lines, s.moveEntry p frame = { s with
      mem := Sparse.setRange 0 s.mem p (leBytes 8 (entryInFrame (s.pte p) frame).toNat), lines := lines } := by
  obtain ⟨lines, h, -⟩ := State.writePlain_stores (s := s) (bs := leBytes 8 (entryInFrame (s.pte p) frame).toNat) hr (Nat.zero_lt_succ 7)
    (show p % 128 + 8 ≤ 128 by omega) hp hf
  exact ⟨lines, h⟩

/-! ### What is on its way, and what is cached -/

/-- After a page of one granule has moved: the cached translations of it are gone, and so are the cached lines of both frames; what was on its way to the
old frame goes to the new one (R380). -/
def State.reroute (s : State) (vpn old new : Nat) : State :=
  let f := movedPa [(old, new)]
  let s := s.dropTranslations (some (BitVec.ofNat 32 vpn))
  let s := s.onCores (Core.moved f fun x => [(old, new)].any fun m => m.1 == x || m.2 == x)
  let s := s.onDev fun d => { d with
    decs := d.decs.map fun x => { x with pa := BitVec.ofNat 52 (f x.pa.toNat) }
    saved := d.saved.map (Saved.moved f)
    moved := ((d.moved.map fun m => (m.1, f (m.2 * 2 ^ 16) / 2 ^ 16)).filter fun m => !decide (new ≤ m.1 ∧ m.1 < new + 1)) ++ [(old, new)] }
  s.dieEvent (ownerDie (new * 2 ^ 16)) 0x0E 1

theorem State.reroute_mem (s : State) (vpn old new : Nat) : (s.reroute vpn old new).mem = s.mem := rfl

theorem State.reroute_core (s : State) (vpn old new : Nat) : (s.reroute vpn old new).core =
    Core.moved (movedPa [(old, new)]) (fun x => [(old, new)].any fun m => m.1 == x || m.2 == x) { s.core with tlb := s.core.tlb.filter (TlbEntry.outlives (some (BitVec.ofNat 32 vpn))) } := rfl

/-- What a migration leaves of the core in focus (R380). -/
theorem State.reroute_keeps (s : State) {vpn : Nat} (old new : Nat) (hv : vpn < 2 ^ 32) :
    (∀ x ∈ (s.reroute vpn old new).core.l1, x.1 / 512 ≠ old ∧ x.1 / 512 ≠ new)
      ∧ (∀ x ∈ (s.reroute vpn old new).core.tlb, x.vpn + x.count ≤ vpn ∨ vpn < x.vpn)
      ∧ (s.reroute vpn old new).core.regs.s = s.core.regs.s ∧ (s.reroute vpn old new).core.scratch = s.core.scratch := by
  rw [State.reroute_core]
  refine ⟨fun x hx => ?_, fun x hx => ?_, rfl, rfl⟩
  · have h := (List.mem_filter.mp hx).2
    simp only [List.any_cons, List.any_nil, Bool.or_false, Bool.not_or, Bool.and_eq_true, Bool.not_eq_true', beq_eq_false_iff_ne] at h
    exact ⟨Ne.symm h.1, Ne.symm h.2⟩
  · obtain ⟨v, hv', h⟩ := (TlbEntry.outlives_iff _ x).mp (List.mem_filter.mp hx).2
    cases hv'
    rw [BitVec.toNat_ofNat, Nat.mod_eq_of_lt hv] at h
    omega

/-! ### The event -/

theorem exec_pageMigration_unmapped {s : State} {va : BitVec 48} {f : Flt} (frame : BitVec 36) (h : s.walk va.toNat = .error f) :
    exec (.pageMigration va frame) s = .next s := by
  change execPageMigration va frame s = _
  rw [execPageMigration, h]

theorem movedPa_other {old new pa : Nat} (h : pa / 2 ^ 16 ≠ old) : movedPa [(old, new)] pa = pa := by
  have hno : (old == pa / 2 ^ 16) = false := beq_eq_false_iff_ne.mpr (Ne.symm h)
  rw [movedPa, List.find?_cons_of_neg (by dsimp only; rw [hno]; decide)]
  rfl

theorem State.framesOk_one {s : State} {old new o o' : Nat} (hne : old ≠ new) (ho : s.channelReady (old * 2 ^ 16) = true) (hn : s.channelReady (new * 2 ^ 16) = true)
    (hro : region (old * 2 ^ 16) = .device o) (hrn : region (new * 2 ^ 16) = .device o') : s.framesOk [(old, new)] = true := by
  have hbeq : (old == new) = false := beq_eq_false_iff_ne.mpr hne
  simp only [State.framesOk, List.all_cons, List.all_nil, List.any_cons, List.any_nil, ho, hn, hro, hrn, hbeq, Bool.and_self, Bool.or_self, Bool.not_false]

/-- A page of one granule moves: its lines, its entry, and what names its old frame. -/
theorem exec_pageMigration_moves {s : State} {va : BitVec 48} {frame : BitVec 36} {e : TlbEntry} {p old : Nat} (h : s.walk va.toNat = .ok (e, p)) (hc : e.count = 1)
    (hkey : bits e.leaf 14 6 = 0) (hold : s.reaim (e.frame * 2 ^ 16) / 2 ^ 16 = old) (hok : s.framesOk [(old, frame.toNat)] = true) (hp : p / 2 ^ 16 ≠ old) :
    exec (.pageMigration va frame) s = .next (((s.moveLines old frame.toNat 512).moveEntry p frame.toNat).reroute e.vpn old frame.toNat) := by
  have hpairs : s.framePairs e frame.toNat = [(old, frame.toNat)] := by rw [State.framePairs, hc, ← hold]; rfl
  have hgroup : groupOf e p va.toNat = (p, 1, 1) := by rw [groupOf, if_pos hc]
  change execPageMigration va frame s = _
  rw [execPageMigration, h]
  dsimp only
  rw [hpairs, hok, if_neg (by decide), hkey, hgroup, hc]
  have hentry : ∀ t : State, (List.range 1).foldl (fun s i => (s.writePlain 0 (movedPa [(old, frame.toNat)] (p + 8 * i))
      (leBytes 8 ((s.pte (p + 8 * i) &&& ~~~(0xFFFFFFFFF#64 <<< 21)) ||| (BitVec.ofNat 64 (frame.toNat + 1 * i) <<< 21)).toNat)).1) t = t.moveEntry p frame.toNat := by
    intro t
    change (t.writePlain 0 (movedPa [(old, frame.toNat)] p) _).1 = _
    rw [movedPa_other hp]
    rfl
  have hone : List.range 1 = [0] := rfl
  dsimp only
  rw [hentry, hone, List.foldl_cons, List.foldl_nil, List.foldl_cons, List.foldl_nil, Nat.add_zero]
  rfl

/-- What the move of a page leaves: the bytes of its frame in the new one, its entry, and no trace of the old one in the caches (R380). -/
theorem State.migrated_page {s : State} {frame : BitVec 36} {vpn p old o : Nat} (hv : vpn < 2 ^ 32) (hal : p % 8 = 0) (hne : old ≠ frame.toNat)
    (hpf : p / 2 ^ 16 ≠ frame.toNat) (hclean : ∀ k, frame.toNat * 512 ≤ k → k < frame.toNat * 512 + 512 → (s.lineMeta k).poison = false ∧ k ∉ s.flaws)
    (hr : region p = .device o) (hp : (s.lineMeta (p / 128)).poison = false) (hf : p / 128 ∉ s.flaws) {t : State}
    (ht : t = ((s.moveLines old frame.toNat 512).moveEntry p frame.toNat).reroute vpn old frame.toNat) :
    (∀ i < 65536, Sparse.get 0 t.mem (frame.toNat * 2 ^ 16 + i) = Sparse.get 0 s.mem (old * 2 ^ 16 + i))
      ∧ (∀ x ∈ t.core.l1, x.1 / 512 ≠ old ∧ x.1 / 512 ≠ frame.toNat)
      ∧ pteFrame (t.pte p) = frame.toNat ∧ (∀ x ∈ t.core.tlb, x.vpn + x.count ≤ vpn ∨ vpn < x.vpn) ∧ t.core.regs.s = s.core.regs.s ∧ t.core.scratch = s.core.scratch := by
  obtain ⟨mem, lines, hmove, hlines, hmem⟩ := State.moveLines_clean hne hclean 512 (le_refl _)
  have hmeta : (({ s with mem := mem, lines := lines } : State).lineMeta (p / 128)).poison = false := by
    rw [State.lineMeta, hlines _ (by omega)]
    exact hp
  obtain ⟨lines', hentry⟩ := State.moveEntry_stores (s := { s with mem := mem, lines := lines }) frame.toNat hal hr hmeta hf
  rw [hmove, hentry] at ht
  have hbytes : (leBytes 8 (entryInFrame (({ s with mem := mem, lines := lines } : State).pte p) frame.toNat).toNat).length = 8 := rfl
  generalize hw : entryInFrame (({ s with mem := mem, lines := lines } : State).pte p) frame.toNat = w at ht hbytes
  obtain ⟨hl1, htlb, hregs, hscratch⟩ := State.reroute_keeps { s with mem := Sparse.setRange 0 mem p (leBytes 8 w.toNat), lines := lines' } old frame.toNat hv
  rw [← ht] at hl1 htlb hregs hscratch
  have htmem : t.mem = Sparse.setRange 0 mem p (leBytes 8 w.toNat) := by rw [ht, State.reroute_mem]
  refine ⟨fun i hi => ?_, hl1, ?_, htlb, hregs, hscratch⟩
  · rw [htmem, Sparse.get_setRange, hbytes, if_neg (by omega), hmem, if_pos (by omega)]
    exact congrArg (Sparse.get 0 s.mem) (by omega)
  · rw [State.pte_stored w htmem, ← hw, pteFrame_entryInFrame]

/-- Settles O60: each unit's event on a state that its guards let through, and the states that they hold. -/
theorem dieEvents : Obligations.DieEvents := by
  refine ⟨?_, ?_, ?_, ?_, ?_, ?_, ?_, ?_⟩
  · intro s k o toks d c hop hcore hfirst hpark hkind hflaw hfail
    have hmay := State.sfxMay_first hop hfirst hpark
    exact ⟨fun hconf hjob hroom => exec_suffixOpPerform_appends hmay hcore (State.sfxPerform_append hkind hflaw hfail hconf hjob hroom),
      fun hconf hsup => exec_suffixOpPerform_reports hmay hcore hkind (State.sfxPerform_unconfigured hkind hfail hconf) hsup⟩
  · intro s r l hnext hwalks
    exact ⟨exec_pageWalk_waits hnext hwalks, exec_pageWalk_ends hnext hwalks⟩
  · intro s u t bs ht off
    exact ⟨exec_imemReload_firmware ht, fun hs h _ => exec_imemReload_loads ht hs h⟩
  · intro s d e l hposts b tail entry ready
    refine ⟨fun h => exec_faultRingRoom_held hposts (Bool.of_not_eq_false (mt (s.ringHeld_iff d).mp h)), fun h => ?_⟩
    have hring := (s.ringHeld_iff d).mpr h
    exact ⟨exec_faultRingRoom_kills hposts hring, exec_faultRingRoom_full hposts hring,
      fun hpost hroom _ hfit hclean => exec_faultRingRoom_stores (exec_faultRingRoom_appends hposts hring hpost hroom) hfit hclean⟩
  · intro s e l hq hmay
    exact ⟨fun d p ac sz x ho => exec_poisonedAcknowledgementPath_load hq hmay ho, fun p ac sz v ho => exec_poisonedAcknowledgementPath_store hq hmay ho⟩
  · intro s n v c a
    refine ⟨exec_compStart_ignored rfl, fun hn hfree hrun hfeat hready hheld => ?_⟩
    have hstart := exec_compStart_starts (v := v) rfl hn hfree hrun hfeat hready hheld
    refine ⟨hstart, fun u f h hf hkeep => ?_⟩
    have hrec := State.startCompanion_unreadable (c := c) h hf
    have hno : (((u.setErr 7).noteKill c.die a).held && !s.held) = false := by
      change (u.held && !s.held) = false
      rw [hkeep, Bool.and_not_self]
    refine hstart.trans (congrArg Host.Outcome.next ?_)
    rw [hrec, hno]
    rfl
  · intro s u v q hq hfree hheld
    refine ⟨fun f h => ⟨fun hf => exec_hifTdecQueueHead_drops hq hfree hheld h hf, fun hf hs => ?_⟩,
      fun l o h hr hjob hp hready => exec_hifTdecQueueHead_decrements hq hfree h hr hjob hp hready⟩
    subst hf
    exact exec_hifTdecQueueHead_waits hq hs hfree h
  · intro s va frame
    refine ⟨fun f h => exec_pageMigration_unmapped frame h, ?_⟩
    intro e p h hc hv hkey hal old hne hpf hpo hro hrn hclean hr hp hf ho _ hn _
    obtain ⟨o, hr⟩ := hr
    obtain ⟨o₁, ho⟩ := ho
    obtain ⟨o₂, hn⟩ := hn
    have hok := State.framesOk_one hne hro hrn ho hn
    exact ⟨_, exec_pageMigration_moves h hc hkey rfl hok hpo, State.migrated_page hv hal hne hpf hclean hr hp hf rfl⟩

end Sys2Proof.Machine
end
